-- ==== Sys2Proof/Word.lean ====
section
/-! DEFINITION. The word types. -/

namespace Sys2Proof

/-- A 64-bit register word. -/
abbrev Word := BitVec 64
/-- One byte. -/
abbrev Byte := BitVec 8
/-- A vector register of W = 2,048 bits (R1, R151). -/
abbrev Vec := BitVec 2048
/-- A predicate register of W/8 bits (R153). -/
abbrev Pred := BitVec 256

end Sys2Proof
end

