-- ==== Sys2Proof/Syntax.lean ====
section
/-! DEFINITION. The instructions and events: one constructor per row of the opcode table, with the fields already read
into names. Nothing here says what an instruction does. -/

namespace Sys2Proof

/-- A scalar register code, g0 to g31 (R50). -/
abbrev GReg := BitVec 5
/-- A vector register code, v0 to v31 (R50). -/
abbrev VReg := BitVec 5
/-- A predicate register code, p0 to p7 (R50). -/
abbrev PReg := BitVec 3
/-- A tile or decode-table code, a0 to a3 or dt0 to dt3 (R50). -/
abbrev TReg := BitVec 2

/-- Element types (R32); code 15 is reserved and has no constructor. -/
inductive ElemType where
  | i8 | i16 | i32 | i64 | n8 | n16 | n32 | n64 | f16 | bf16 | f32 | f64 | f19 | c8 | c4
  deriving DecidableEq, Repr

/-- Conditions on two 64-bit operands (R35). -/
inductive Cond where
  | eq | ne | lt | ge | ltn | gen
  deriving DecidableEq, Repr

/-- Conditions of BP (R35, R119). -/
inductive PCond where
  | any | all | none
  deriving DecidableEq, Repr

/-- Conditions of VCMP (R168). -/
inductive VCond where
  | eq | ne | lt | le
  deriving DecidableEq, Repr

/-- Scopes (R16). -/
inductive Scope where
  | lane | core | quad | group | sgrp | die | pkg | pod
  deriving DecidableEq, Repr

/-- Rounding modes (R33). -/
inductive Rounding where
  | rne | rz | rdn | rup | rna | rst
  deriving DecidableEq, Repr

/-- What a REP renames (R121). -/
inductive RepKind where
  | nothing | vec | scalar | both
  deriving DecidableEq, Repr

/-- Selectors of GETID (R129). -/
inductive GetIdSel where
  | pc | wsp | ctx | lane | cid | core | nlane | retire | tick
  deriving DecidableEq, Repr

/-- The shipped decode tables (R69, R293). -/
inductive StdTable where
  | e4m3 | e5m2 | intf | e2m1
  deriving DecidableEq, Repr

/-- Scan operators (R313). -/
inductive ScanOp where
  | aff | add | mul | maxp | minp | lae | m2
  deriving DecidableEq, Repr

/-- A core index (R17). -/
abbrev CoreId := BitVec 12
/-- A context number of a core (R96). -/
abbrev CtxId := BitVec 4
/-- A quad of the package, core index divided by 4 (R17). -/
abbrev QuadId := BitVec 10
/-- A 64-byte line by its physical address divided by 64 (R246). -/
abbrev LineId := BitVec 46
/-- A 4 KiB page by its physical address divided by 4,096 (R405). -/
abbrev PageId := BitVec 40
/-- A queue number (R356). -/
abbrev QueueId := BitVec 12
/-- A copy channel of the package: die in [10:9], channel number in [8:0] (R371). -/
abbrev ChanId := BitVec 11

/-- What a machine check stops (R444). -/
inductive CheckTarget where
  | core (core : CoreId)
  | quad (quad : QuadId)
  | partition (part : BitVec 2)
  deriving DecidableEq, Repr

/-- The kinds of message (R365). -/
inductive MessageKind where
  | send | rep | ref
  deriving DecidableEq, Repr

/-- What a message carries to its destination (R362, R364): the origin's 23-bit context identifier, the class, the kind and
the payload words. -/
structure MessageData where
  origin : BitVec 23
  cls : BitVec 4
  kind : MessageKind
  payload : List (BitVec 64)
  deriving DecidableEq, Repr

/-- The replies to a SEND (R364). -/
inductive SendReply where
  | accepted | refused | cls | boundary | eviction
  deriving DecidableEq, Repr

/-- What a partition's configuration writes: its four hub registers (R449), and the entry and workspace of the supervisor of a core, which
the die's service core sets (R434). -/
inductive PartReg where
  | part | pcls | ilv | bnd
  | svent (core : CoreId) | svws (core : CoreId)
  deriving DecidableEq, Repr

/-- What a core's L1 asks the home of a line for (R244, R246, R247). -/
inductive LineKind where
  | rd | own | prefRd | prefOwn | prefSlc
  deriving DecidableEq, Repr

/-- A region's capability state (R265). -/
inductive CapState where
  | opened | held (pkg tag lane : Nat) | sealed
  deriving DecidableEq, Repr

/-- A capability operation (R274). -/
inductive CapOp where
  | give (target : Nat) | claim | seal | unseal | qry | qryWait
  deriving DecidableEq, Repr

/-- Where an uncorrectable soft error is found: in what the head of a quad's matrix or scan unit reads (R307), in a committed line or, without
one, in a scratchpad word that a context's trick reads (R444, R447), or in what a job of a copy channel reads (R384). -/
inductive SoftErrorAt where
  | matrix (quad : QuadId) | scan (quad : QuadId)
  | trick (core : CoreId) (ctx : CtxId) (line : Option LineId)
  | copy (chan : ChanId)
  deriving DecidableEq, Repr

/-- A page as its home grants it: its bytes, and the size and the capability state of its region (R266, R405). -/
structure PageData where
  bytes : List (BitVec 8)
  size : Nat
  cap : CapState
  deriving DecidableEq, Repr

/-- The number of a request on the fabric: the other package of the pair, and the sequence number (R472). -/
structure PeerNumber where
  pkg : BitVec 7
  seq : BitVec 32
  deriving DecidableEq, Repr

/-- A page that its home, by a request of that number, or the hub's full table wants back, or turned into one for reading (R405). -/
structure PageRecall where
  page : PageId
  toRead : Bool
  home : Option PeerNumber
  deriving DecidableEq, Repr

/-- What the host or the management reads or writes: device memory or hub registers by a physical address, an offset of a virtual function's
BAR0 or BAR2, and, to be read, a junction sensor (0 to 3 for the dies, 4 for the hub) and whether a function is locked as a TDI (R397, R463 to
R465, R474, R478, R482). -/
inductive HostAddress where
  | device (pa : BitVec 52) | bar0 (vf : BitVec 6) (off : BitVec 19) | bar2 (vf : BitVec 6) (off : BitVec 21)
  | sensor (n : BitVec 3) | tdi (vf : BitVec 6)
  deriving DecidableEq, Repr

/-- Who reads a word of the host: a context, one of its streams, a copy job, or the Dealers for a footprint block (R236, R378, R393, R414). -/
inductive HostReader where
  | ctx (core : CoreId) (ctx : CtxId) | stream (core : CoreId) (ctx : CtxId) (reg : VReg) | job (chan : ChanId) (job : BitVec 48) | dealer
  deriving DecidableEq, Repr

/-- What a barrier or semaphore request does at its home (R344, R348 to R354); `land` is a job's bytes that have landed. -/
inductive SyncOp where
  | binit (expected : Nat) | barv (bytes : Int) (arrive : Bool) | bwait (t : BitVec 16) | btest (t : Bool)
  | semi (set : Bool) (v : BitVec 32) | semw (dec : Bool) (v : BitVec 32)
  | land (bytes : Nat)
  deriving DecidableEq, Repr

/-- The replies of a home in one package to a requester in another (R266, R274, R341, R349, R352, R364, R370, R405, R471, R472). -/
inductive PeerReply where
  | value (w : BitVec 64) | data (bytes : List (BitVec 8)) | page (data : PageData)
  | boundary | syncState | syncScope | range | capability | retry | eviction | send (r : SendReply)
  deriving DecidableEq, Repr

/-- A peer's answer to a request: the package, the number of the request, and the reply (R264, R367, R471, R472). -/
structure PeerAnswer where
  pkg : BitVec 7
  seq : BitVec 32
  reply : PeerReply
  deriving DecidableEq, Repr

/-- A capability operation of a context at its turn, or the reply of another package's directory (R266, R267). -/
inductive CapTurn where
  | own (ctx : CtxId) | answered (ctx : CtxId) (answer : PeerAnswer)
  deriving DecidableEq, Repr

/-- A job that comes to its end, or the reply of another package to its signal (R353, R383). -/
inductive JobTurn where
  | own (job : BitVec 48) | answered (job : BitVec 48) (answer : PeerAnswer)
  deriving DecidableEq, Repr

/-- The reply to a SEND within the package, or that of another package (R364, R367). -/
inductive SendTurn where
  | own (reply : SendReply) | answered (answer : PeerAnswer)
  deriving DecidableEq, Repr

/-- A home's answer to a request for a page's grant: its number, and the page, or nothing where it is refused (R405, R471, R472). -/
structure PageAnswer where
  seq : BitVec 32
  data : Option PageData
  deriving DecidableEq, Repr

/-- A request from a peer package (R264, R266, R341, R364, R367, R405, R407, R471): the partition's DOMAIN at the peer comes with it. A
synchronisation request and a capability operation name their requester, and a far atomic and a capability operation their holder's launch tag,
lane and whether that launch is deterministic; `capCopy` is the home bringing a copy of a region's state up to date, `cancel`
withdraws a waiting synchronisation request (R370), `revoke` is the home wanting a page back or kept for reading only, and `returned` brings a
page back, or its bytes where it is kept for reading. -/
inductive PeerOp where
  | write (pa : BitVec 52) (bytes : List (BitVec 8))
  | read (pa : BitVec 52) (len : BitVec 12)
  | atomic (pa : BitVec 52) (op : BitVec 4) (v : BitVec 64) (c : BitVec 64) (tag lane : Nat) (det : Bool)
  | grant (page : PageId) (write : Bool)
  | sync (home : CoreId) (index : BitVec 6) (op : SyncOp) (origin : BitVec 23)
  | message (dest : CoreId) (msg : MessageData)
  | cap (page : PageId) (size : Nat) (op : CapOp) (tag lane : Nat) (det : Bool) (origin : BitVec 23)
  | capCopy (page : PageId) (size : Nat) (cap : CapState)
  | tlbi (kind : Nat) (va asid : BitVec 64)
  | cancel (seq : BitVec 32)
  | revoke (page : PageId) (toRead : Bool)
  | returned (page : PageId) (bytes : List (BitVec 8)) (kept : Bool)
  deriving DecidableEq, Repr

/-- A peer's request with the DOMAIN of the partition it comes from (R471). -/
structure PeerRequest where
  domain : BitVec 16
  op : PeerOp
  deriving DecidableEq, Repr

/-- What the outside of a reset gives: the expanders that trained, and the cores whose self-test failed (R468, R476). -/
structure Bringup where
  trained : BitVec 8
  failed : List CoreId
  deriving DecidableEq, Repr

/-- Agents that the power controller gates (R475). -/
inductive PowerAgent where
  | core (core : CoreId)
  | engine (die : BitVec 2) (engine : BitVec 4)
  | quadUnits (quad : QuadId)
  deriving DecidableEq, Repr

/-- One constructor for each row of the opcode table: 268 encoded instructions, and 116 rows without an encoding of
their own (the EXT-prefixed unit, the control-register writes that have a behaviour of their own, and what the devices,
the host, the peers and the management side do). The rows without an encoding stand first: a compiled function can build
only a limited number of constructors with fields, and the meanings build only these; the decoder builds the others, so it
is marked noncomputable (the kernel evaluates it). -/
inductive Instr where
  /-- EXT_PREFIXED_UNIT (R36). -/
  | extPrefixedUnit (payload : BitVec 24) (body : Instr)
  /-- CWR_CMODE (R51). -/
  | cwrCmode (s1 : GReg)
  /-- CWR_WSP (R131). -/
  | cwrWsp (s1 : GReg)
  /-- CWR_LAYOUT (R141). -/
  | cwrLayout (n : BitVec 5) (s1 : GReg)
  /-- CWR_SPLIT (R186). -/
  | cwrSplit (s1 : GReg)
  /-- CWR_VPOOL (R187). -/
  | cwrVpool (s1 : GReg)
  /-- CWR_CLASS (R361). -/
  | cwrClass (n : BitVec 5) (s1 : GReg)
  /-- CWR_VMROOT (R398). -/
  | cwrVmroot (s1 : GReg)
  /-- SUPERVISOR_WAKE (R101). -/
  | supervisorWake (core : CoreId)
  /-- BLOCKED_INTERVAL_END (R158). -/
  | blockedIntervalEnd (core : CoreId) (ctx : CtxId)
  /-- FORFEIT_END (R103). -/
  | forfeitEnd (core : CoreId) (ctx : CtxId)
  /-- NORMALISER_SERVICE (R85). -/
  | normaliserService (quad : QuadId)
  /-- QUEUE_REGISTER_UNBLOCK (R135). -/
  | queueRegisterUnblock (core : CoreId) (ctx : CtxId)
  /-- WAIT_RELEASE (R128). -/
  | waitRelease (core : CoreId) (ctx : CtxId)
  /-- WAIT_LIMIT_EXPIRY (R128). -/
  | waitLimitExpiry (core : CoreId) (ctx : CtxId)
  /-- HELPER_TAKEN (R126). -/
  | helperTaken (core : CoreId) (ctx : CtxId)
  /-- TASK_LANE_RETIRE (R114). -/
  | taskLaneRetire (core : CoreId)
  /-- REMOTE_ACCESS_PERFORM (R190). -/
  | remoteAccessPerform (core : CoreId) (ctx : CtxId)
  /-- REMOTE_STORE_PERFORM (R194). -/
  | remoteStorePerform (core : CoreId) (ctx : CtxId)
  /-- VECTOR_REMOTE_CHECKS (R528). -/
  | vectorRemoteChecks (core : CoreId) (ctx : CtxId)
  /-- PARKED_REQUEST_SERVE (R199). -/
  | parkedRequestServe (core : CoreId)
  /-- PARK_REFUSAL_RETRY (R200). -/
  | parkRefusalRetry (core : CoreId) (ctx : CtxId)
  /-- EVICTION_RETRY_RESEND (R202). -/
  | evictionRetryResend (core : CoreId) (ctx : CtxId)
  /-- COMMIT_GRANT (R221). -/
  | commitGrant (core : CoreId) (ctx : CtxId)
  /-- LOCAL_COMMIT (R222). -/
  | localCommit (core : CoreId) (ctx : CtxId)
  /-- TRUMP_ADMISSION (R224). -/
  | trumpAdmission (part : BitVec 2)
  /-- HOME_LINE_REQUEST (R246). -/
  | homeLineRequest (line : LineId) (agent : CoreId) (kind : LineKind)
  /-- PROBE_TIMEOUT (R248). -/
  | probeTimeout (line : LineId) (agent : CoreId)
  /-- LEASE_GRANT (R252). -/
  | leaseGrant (core : CoreId) (ctx : CtxId)
  /-- LEASE_EXPIRY (R256). -/
  | leaseExpiry (core : CoreId) (ctx : CtxId) (slot : BitVec 2)
  /-- FAR_ATOMIC_PERFORM (R260). -/
  | farAtomicPerform (core : CoreId) (ctx : CtxId)
  /-- FAR_ATOMIC_REPLY (R261). -/
  | farAtomicReply (core : CoreId) (ctx : CtxId) (answer : Option PeerAnswer)
  /-- CAP_STATE_CHANGE (R267). -/
  | capStateChange (core : CoreId) (turn : CapTurn)
  /-- CAP_QRY_WAIT_RELEASE (R274). -/
  | capQryWaitRelease (core : CoreId) (ctx : CtxId)
  /-- MATRIX_REQUEST_START (R284). -/
  | matrixRequestStart (quad : QuadId)
  /-- MATRIX_REQUEST_COMPLETE (R284). -/
  | matrixRequestComplete (quad : QuadId)
  /-- MXWDOG_EXPIRY (R308). -/
  | mxwdogExpiry (quad : QuadId)
  /-- UNCORRECTABLE_SOFT_ERROR (R307). -/
  | uncorrectableSoftError (place : SoftErrorAt) (job : BitVec 48) (storage : BitVec 3)
  /-- SCAN_REQUEST_START (R316). -/
  | scanRequestStart (quad : QuadId)
  /-- SCAN_REQUEST_COMPLETE (R317). -/
  | scanRequestComplete (quad : QuadId)
  /-- CHAIN_POST_PERFORM (R329). -/
  | chainPostPerform (core : CoreId) (ctx : CtxId)
  /-- CHAIN_DELIVERY (R334). -/
  | chainDelivery (quad : QuadId)
  /-- CHAIN_WAIT_PERFORM (R330). -/
  | chainWaitPerform (core : CoreId) (ctx : CtxId)
  /-- BARRIER_ARRIVAL (R349). -/
  | barrierArrival (core : CoreId) (ctx : CtxId)
  /-- SEMAPHORE_AT_HOME (R354). -/
  | semaphoreAtHome (core : CoreId) (ctx : CtxId)
  /-- SYNC_WAITER_ANSWER (R352). -/
  | syncWaiterAnswer (core : CoreId) (ctx : CtxId) (answer : Option PeerAnswer)
  /-- WAKE_LIST_RETRY (R352). -/
  | wakeListRetry (core : CoreId) (ctx : CtxId)
  /-- SLICE_QUEUE_OP (R359). -/
  | sliceQueueOp (core : CoreId) (ctx : CtxId)
  /-- MESSAGE_ARRIVAL (R365). -/
  | messageArrival (dest : CoreId) (msg : MessageData)
  /-- SEND_REPLY (R364). -/
  | sendReply (core : CoreId) (ctx : CtxId) (turn : SendTurn)
  /-- GRANULE_READ (R234). -/
  | granuleRead (chan : ChanId) (job : BitVec 48)
  /-- GRANULE_WRITE (R377). -/
  | granuleWrite (chan : ChanId) (job : BitVec 48)
  /-- JOB_END (R383). -/
  | jobEnd (chan : ChanId) (turn : JobTurn)
  /-- GATH_SCAT_ROW (R391). -/
  | gathScatRow (chan : ChanId) (job : BitVec 48)
  /-- STREAM_STRIP_FILL (R393). -/
  | streamStripFill (core : CoreId) (ctx : CtxId) (k : VReg)
  /-- STREAM_STRIP_WRITE (R393). -/
  | streamStripWrite (core : CoreId) (ctx : CtxId) (k : VReg)
  /-- CPY_STAT_WAIT_RELEASE (R389). -/
  | cpyStatWaitRelease (core : CoreId) (ctx : CtxId)
  /-- TRAP_RECORD_ENQUEUE (R430). -/
  | trapRecordEnqueue (core : CoreId)
  /-- PAGE_WALK (R401). -/
  | pageWalk (core : CoreId) (va : BitVec 64)
  /-- TLBI_COMPLETE (R407). -/
  | tlbiComplete (core : CoreId) (ctx : CtxId)
  /-- PAGE_GRANT (R405). -/
  | pageGrant (page : PageId) (write : Bool) (answer : PageAnswer)
  /-- PAGE_REVOCATION (R405). -/
  | pageRevocation (wanted : PageRecall)
  /-- MALFORMED_DEAL_REMOVAL (R410). -/
  | malformedDealRemoval (queue : QueueId)
  /-- DEAL_PLACEMENT (R416). -/
  | dealPlacement (part : BitVec 2)
  /-- LAUNCH_COMPLETION (R417). -/
  | launchCompletion (tag : BitVec 16)
  /-- PENDING_INTERRUPT_SEND (R456). -/
  | pendingInterruptSend (fn : Nat) (vector : BitVec 6)
  /-- PREEMPTION (R420). -/
  | preemption (part : BitVec 2)
  /-- CORE_RESUME (R422). -/
  | coreResume (tag : BitVec 16) (lane : BitVec 12)
  /-- BUDGET_PERIOD_START (R424). -/
  | budgetPeriodStart
  /-- TRAP_ENTRY (R428). -/
  | trapEntry (core : CoreId) (ctx : CtxId)
  /-- LOCKSTEP_MISMATCH (R443). -/
  | lockstepMismatch (core : CoreId) (code : BitVec 8)
  /-- MACHINE_CHECK (R444). -/
  | machineCheck (target : CheckTarget)
  /-- HEARTBEAT_MISS (R444). -/
  | heartbeatMiss (core : CoreId)
  /-- CORE_REPAIR (R445). -/
  | coreRepair (core : CoreId) (clean : Bool)
  /-- QUIESCE (R454). -/
  | quiesce (w : BitVec 64)
  /-- QUIESCE_DONE (R454). -/
  | quiesceDone
  /-- QUIESCE_LIMIT_EXPIRY (R454). -/
  | quiesceLimitExpiry
  /-- RESUME (R453). -/
  | resume (w : BitVec 64)
  /-- MERGE (R455). -/
  | merge (w : BitVec 64)
  /-- SPLIT (R453). -/
  | split (w : BitVec 64)
  /-- TRESET (R457). -/
  | treset (w : BitVec 64)
  /-- TCHANGE (R458). -/
  | tchange (w : BitVec 64)
  /-- TCHANGE_DONE (R458). -/
  | tchangeDone
  /-- PART_REGISTER_WRITE (R449). -/
  | partRegisterWrite (part : BitVec 2) (reg : PartReg) (value : BitVec 64)
  /-- VF_REGISTER_WRITE (R456). -/
  | vfRegisterWrite (vf : BitVec 6) (value : BitVec 64)
  /-- XP_REGISTER_WRITE (R468). -/
  | xpRegisterWrite (port : BitVec 3) (value : BitVec 64)
  /-- POD_REGISTER_WRITE (R471). -/
  | podRegisterWrite (part : Option (BitVec 2)) (value : BitVec 64)
  /-- BCLASS_WRITE (R425). -/
  | bclassWrite (cls : BitVec 6) (b : Bool) (value : BitVec 64)
  /-- LSCLASS_WRITE (R440). -/
  | lsclassWrite (value : BitVec 64)
  /-- PWRCTL_WRITE (R475). -/
  | pwrctlWrite (value : BitVec 64)
  /-- DPCTL_WRITE (R481). -/
  | dpctlWrite (die : BitVec 2) (value : BitVec 64)
  /-- HUB_REGISTER_WRITE (R466). -/
  | hubRegisterWrite (hubOff : BitVec 24) (value : BitVec 64)
  /-- DOORBELL_WRITE (R464). -/
  | doorbellWrite (requester : BitVec 16) (vf : BitVec 6) (barOff : BitVec 19) (bytes : List (BitVec 8))
  /-- DOORBELL_TRIGGER (R464). -/
  | doorbellTrigger (vf : BitVec 6) (queue : QueueId)
  /-- DOORBELL_STATUS_READ (R464). -/
  | doorbellStatusRead (requester : BitVec 16) (vf : BitVec 6) (queue : QueueId)
  /-- HOST_POSTED_WRITE (R236). -/
  | hostPostedWrite (requester : BitVec 16) (place : HostAddress) (bytes : List (BitVec 8))
  /-- HOST_READ (R236). -/
  | hostRead (requester : BitVec 16) (place : HostAddress) (len : BitVec 12)
  /-- IDE_FAILURE (R463). -/
  | ideFailure (port : Bool) (requester : BitVec 16)
  /-- SPDM_ATTESTATION (R460). -/
  | spdmAttestation (part : BitVec 2) (nonce : BitVec 256)
  /-- DEBUG_UNLOCK (R461). -/
  | debugUnlock (part : BitVec 2) (nonce : BitVec 256) (signed : Bool)
  /-- FABRIC_REQUEST_ARRIVAL (R472). -/
  | fabricRequestArrival (source : BitVec 7) (seq : BitVec 32) (request : PeerRequest)
  /-- FABRIC_RETRANSMIT (R472). -/
  | fabricRetransmit (seq : BitVec 32) (target : BitVec 7)
  /-- SECOND_TIER_TIMEOUT (R469). -/
  | secondTierTimeout (part : BitVec 2)
  /-- EXPANDER_LINK_DOWN (R468). -/
  | expanderLinkDown (port : BitVec 3)
  /-- EXPANDER_LINK_TRAINED (R468). -/
  | expanderLinkTrained (port : BitVec 3)
  /-- THERMAL_SAMPLE (R474). -/
  | thermalSample (junctions : List Nat) (averageOver : Bool) (averageUnder : Bool)
  /-- AGENT_GATE (R475). -/
  | agentGate (agent : PowerAgent)
  /-- AGENT_SLEEP (R475). -/
  | agentSleep (agent : PowerAgent)
  /-- AGENT_WAKE (R475). -/
  | agentWake (agent : PowerAgent)
  /-- COLD_RESET (R476). -/
  | coldReset (signatureGood : Bool) (up : Bringup)
  /-- WARM_RESET (R477). -/
  | warmReset (up : Bringup)
  /-- FIRMWARE_UPDATE (R479). -/
  | firmwareUpdate (image : Nat) (good : Bool)
  /-- RECOVERY_LOAD (R479). -/
  | recoveryLoad (image : Nat) (good : Bool)
  /-- PARTITION_OP_COMPLETE (R453). -/
  | partitionOpComplete
  /-- HOST_LOAD_REPLY (R236). -/
  | hostLoadReply (reader : HostReader) (pa : BitVec 52) (value : BitVec 64)
  /-- FABRIC_ACKNOWLEDGEMENT (R472). -/
  | fabricAcknowledgement (source : BitVec 7) (upTo : BitVec 32)
  /-- NOP (R111). -/
  | nop
  /-- BR (R115). -/
  | br (off : BitVec 24)
  /-- BCC (R117). -/
  | bcc (c : Cond) (s1 : GReg) (s2 : GReg) (off : BitVec 9)
  /-- BP (R119). -/
  | bp (c : PCond) (p : PReg) (off : BitVec 15)
  /-- CALL (R115). -/
  | call (off : BitVec 24)
  /-- CALLR (R120). -/
  | callr (d : GReg) (s1 : GReg)
  /-- RET (R112). -/
  | ret
  /-- JR (R120). -/
  | jr (s1 : GReg)
  /-- LOOP (R118). -/
  | loop (ctr : GReg) (off : BitVec 9)
  /-- REP (R123). -/
  | rep (s1 : GReg) (n : BitVec 4) (kind : RepKind) (base : BitVec 5) (sz : BitVec 3) (stride : BitVec 5)
  /-- START (R126). -/
  | start (d : GReg) (s1 : GReg) (off : BitVec 14)
  /-- END (R114). -/
  | endCtx
  /-- YIELD (R113). -/
  | yield
  /-- WAIT (R128). -/
  | wait (d : GReg) (s1 : GReg) (mask : BitVec 10)
  /-- GETID (R129). -/
  | getid (d : GReg) (which : GetIdSel)
  /-- BRK (R116). -/
  | brk (code : BitVec 24)
  /-- ADD (R144). -/
  | add (d : GReg) (s1 : GReg) (s2 : GReg)
  /-- ADDI (R149). -/
  | addi (d : GReg) (s1 : GReg) (imm : BitVec 14)
  /-- SUB (R144). -/
  | sub (d : GReg) (s1 : GReg) (s2 : GReg)
  /-- MUL (R144). -/
  | mul (d : GReg) (s1 : GReg) (s2 : GReg)
  /-- MULH_I64 (R144). -/
  | mulhI64 (d : GReg) (s1 : GReg) (s2 : GReg)
  /-- MULH_N64 (R144). -/
  | mulhN64 (d : GReg) (s1 : GReg) (s2 : GReg)
  /-- MULH_SU (R144). -/
  | mulhSu (d : GReg) (s1 : GReg) (s2 : GReg)
  /-- DIV_I64 (R145). -/
  | divI64 (d : GReg) (s1 : GReg) (s2 : GReg)
  /-- DIV_N64 (R145). -/
  | divN64 (d : GReg) (s1 : GReg) (s2 : GReg)
  /-- REM_I64 (R145). -/
  | remI64 (d : GReg) (s1 : GReg) (s2 : GReg)
  /-- REM_N64 (R145). -/
  | remN64 (d : GReg) (s1 : GReg) (s2 : GReg)
  /-- MADD (R144). -/
  | madd (d : GReg) (s1 : GReg) (s2 : GReg) (s3 : GReg)
  /-- MSUB (R144). -/
  | msub (d : GReg) (s1 : GReg) (s2 : GReg) (s3 : GReg)
  /-- AND (R144). -/
  | andR (d : GReg) (s1 : GReg) (s2 : GReg)
  /-- OR (R144). -/
  | orR (d : GReg) (s1 : GReg) (s2 : GReg)
  /-- XOR (R144). -/
  | xorR (d : GReg) (s1 : GReg) (s2 : GReg)
  /-- ANDN (R144). -/
  | andn (d : GReg) (s1 : GReg) (s2 : GReg)
  /-- LOGI_AND (R149). -/
  | logiAnd (d : GReg) (s1 : GReg) (imm : BitVec 12)
  /-- LOGI_OR (R149). -/
  | logiOr (d : GReg) (s1 : GReg) (imm : BitVec 12)
  /-- LOGI_XOR (R149). -/
  | logiXor (d : GReg) (s1 : GReg) (imm : BitVec 12)
  /-- LOGI_ANDN (R149). -/
  | logiAndn (d : GReg) (s1 : GReg) (imm : BitVec 12)
  /-- SHL (R144). -/
  | shl (d : GReg) (s1 : GReg) (s2 : GReg)
  /-- SHR (R144). -/
  | shr (d : GReg) (s1 : GReg) (s2 : GReg)
  /-- SAR (R144). -/
  | sar (d : GReg) (s1 : GReg) (s2 : GReg)
  /-- ROT_L (R144). -/
  | rotL (d : GReg) (s1 : GReg) (s2 : GReg)
  /-- ROT_R (R144). -/
  | rotR (d : GReg) (s1 : GReg) (s2 : GReg)
  /-- SHI_SHL (R149). -/
  | shiShl (d : GReg) (s1 : GReg) (n : BitVec 6)
  /-- SHI_SHR (R149). -/
  | shiShr (d : GReg) (s1 : GReg) (n : BitVec 6)
  /-- SHI_SAR (R149). -/
  | shiSar (d : GReg) (s1 : GReg) (n : BitVec 6)
  /-- SHI_ROT (R149). -/
  | shiRot (d : GReg) (s1 : GReg) (n : BitVec 6)
  /-- MIN_I64 (R144). -/
  | minI64 (d : GReg) (s1 : GReg) (s2 : GReg)
  /-- MIN_N64 (R144). -/
  | minN64 (d : GReg) (s1 : GReg) (s2 : GReg)
  /-- MAX_I64 (R144). -/
  | maxI64 (d : GReg) (s1 : GReg) (s2 : GReg)
  /-- MAX_N64 (R144). -/
  | maxN64 (d : GReg) (s1 : GReg) (s2 : GReg)
  /-- CMP (R144). -/
  | cmp (d : GReg) (c : Cond) (s1 : GReg) (s2 : GReg)
  /-- SEL (R144). -/
  | sel (d : GReg) (s1 : GReg) (s2 : GReg) (s3 : GReg)
  /-- EXT (R144). -/
  | ext (d : GReg) (s1 : GReg) (t : BitVec 5)
  /-- BITC_POP (R144). -/
  | bitcPop (d : GReg) (s1 : GReg)
  /-- BITC_CLZ (R144). -/
  | bitcClz (d : GReg) (s1 : GReg)
  /-- BITC_CTZ (R144). -/
  | bitcCtz (d : GReg) (s1 : GReg)
  /-- BITC_REV (R144). -/
  | bitcRev (d : GReg) (s1 : GReg)
  /-- BITC_BSW (R144). -/
  | bitcBsw (d : GReg) (s1 : GReg)
  /-- BFX_N (R146). -/
  | bfxN (d : GReg) (s1 : GReg) (s2 : GReg)
  /-- BFX_I (R146). -/
  | bfxI (d : GReg) (s1 : GReg) (s2 : GReg)
  /-- BFI (R146). -/
  | bfi (d : GReg) (s1 : GReg) (s2 : GReg)
  /-- LI (R150). -/
  | li (d : GReg) (imm : BitVec 19)
  /-- LIH (R150). -/
  | lih (d : GReg) (imm : BitVec 19)
  /-- LEA (R144). -/
  | lea (d : GReg) (s1 : GReg) (s2 : GReg) (sh : BitVec 4)
  /-- HDR_PACK (R147). -/
  | hdrPack (d : GReg) (s1 : GReg) (n : BitVec 4)
  /-- HDR_SPLIT (R147). -/
  | hdrSplit (d : GReg) (s1 : GReg) (n : BitVec 4)
  /-- SHUF (R148). -/
  | shuf (d : GReg) (s1 : GReg) (s2 : GReg)
  /-- SHUF_K_LOW (R148). -/
  | shufKLow (d : GReg) (s1 : GReg) (s2 : GReg) (k : BitVec 5)
  /-- SHUF_K_HIGH (R148). -/
  | shufKHigh (d : GReg) (s1 : GReg) (s2 : GReg) (k : BitVec 5)
  /-- ADDC (R144). -/
  | addc (d : GReg) (s1 : GReg) (s2 : GReg) (s3 : GReg)
  /-- ADDC_CO (R144). -/
  | addcCo (d : GReg) (s1 : GReg) (s2 : GReg) (s3 : GReg)
  /-- VADD (R162). -/
  | vadd (d : VReg) (s1 : VReg) (s2 : VReg) (p : PReg) (t : ElemType) (m : BitVec 2)
  /-- VSUB (R162). -/
  | vsub (d : VReg) (s1 : VReg) (s2 : VReg) (p : PReg) (t : ElemType) (m : BitVec 2)
  /-- VMUL (R162). -/
  | vmul (d : VReg) (s1 : VReg) (s2 : VReg) (p : PReg) (t : ElemType) (m : BitVec 2)
  /-- VFMA (R162). -/
  | vfma (d : VReg) (s1 : VReg) (s2 : VReg) (p : PReg) (t : ElemType) (m : BitVec 2)
  /-- VDIV (R162). -/
  | vdiv (d : VReg) (s1 : VReg) (s2 : VReg) (p : PReg) (t : ElemType) (m : BitVec 2)
  /-- VSQRT (R162). -/
  | vsqrt (d : VReg) (s1 : VReg) (p : PReg) (t : ElemType) (m : BitVec 2)
  /-- VMIN (R162). -/
  | vmin (d : VReg) (s1 : VReg) (s2 : VReg) (p : PReg) (t : ElemType)
  /-- VMAX (R162). -/
  | vmax (d : VReg) (s1 : VReg) (s2 : VReg) (p : PReg) (t : ElemType)
  /-- VUN_NEG (R165). -/
  | vunNeg (d : VReg) (s1 : VReg) (p : PReg) (t : ElemType) (m : BitVec 2)
  /-- VUN_ABS (R165). -/
  | vunAbs (d : VReg) (s1 : VReg) (p : PReg) (t : ElemType) (m : BitVec 2)
  /-- VUN_RINT (R165). -/
  | vunRint (d : VReg) (s1 : VReg) (p : PReg) (t : ElemType) (m : BitVec 2)
  /-- VUN_POPC (R165). -/
  | vunPopc (d : VReg) (s1 : VReg) (p : PReg) (t : ElemType)
  /-- VUN_CLZ (R165). -/
  | vunClz (d : VReg) (s1 : VReg) (p : PReg) (t : ElemType)
  /-- VLOG_AND (R166). -/
  | vlogAnd (d : VReg) (s1 : VReg) (p : PReg) (t : ElemType)
  /-- VLOG_OR (R166). -/
  | vlogOr (d : VReg) (s1 : VReg) (p : PReg) (t : ElemType)
  /-- VLOG_XOR (R166). -/
  | vlogXor (d : VReg) (s1 : VReg) (p : PReg) (t : ElemType)
  /-- VLOG_ANDN (R166). -/
  | vlogAndn (d : VReg) (s1 : VReg) (p : PReg) (t : ElemType)
  /-- VLOG_ORN (R166). -/
  | vlogOrn (d : VReg) (s1 : VReg) (p : PReg) (t : ElemType)
  /-- VLOG_NAND (R166). -/
  | vlogNand (d : VReg) (s1 : VReg) (p : PReg) (t : ElemType)
  /-- VLOG_NOR (R166). -/
  | vlogNor (d : VReg) (s1 : VReg) (p : PReg) (t : ElemType)
  /-- VLOG_XNOR (R166). -/
  | vlogXnor (d : VReg) (s1 : VReg) (p : PReg) (t : ElemType)
  /-- VLOG_NOT (R166). -/
  | vlogNot (d : VReg) (s1 : VReg) (p : PReg) (t : ElemType)
  /-- VSH (R167). -/
  | vsh (d : VReg) (s1 : VReg) (s2 : VReg) (p : PReg) (t : ElemType) (m : BitVec 2)
  /-- VCMP (R168). -/
  | vcmp (q : PReg) (c : VCond) (s1 : VReg) (s2 : VReg) (p : PReg) (t : ElemType)
  /-- WHILE (R169). -/
  | whilePred (q : PReg) (l : Bool) (u : Bool) (s1 : GReg) (s2 : GReg) (t : ElemType)
  /-- VWID (R171). -/
  | vwid (d : GReg)
  /-- PLOG_AND (R170). -/
  | plogAnd (q : PReg) (s1 : PReg) (s2 : PReg) (g : PReg)
  /-- PLOG_OR (R170). -/
  | plogOr (q : PReg) (s1 : PReg) (s2 : PReg) (g : PReg)
  /-- PLOG_XOR (R170). -/
  | plogXor (q : PReg) (s1 : PReg) (s2 : PReg) (g : PReg)
  /-- PLOG_ANDN (R170). -/
  | plogAndn (q : PReg) (s1 : PReg) (s2 : PReg) (g : PReg)
  /-- VCVT (R172). -/
  | vcvt (d : VReg) (s1 : VReg) (srcT : ElemType) (p : PReg) (t : ElemType) (m : BitVec 2)
  /-- VCVT_HI (R172). -/
  | vcvtHi (d : VReg) (s1 : VReg) (srcT : ElemType) (p : PReg) (t : ElemType) (m : BitVec 2)
  /-- VFUN_EXP2 (R173). -/
  | vfunExp2 (d : VReg) (s1 : VReg) (x : Bool) (p : PReg) (m : BitVec 2)
  /-- VFUN_LOG2 (R173). -/
  | vfunLog2 (d : VReg) (s1 : VReg) (x : Bool) (p : PReg) (m : BitVec 2)
  /-- VFUN_RCP (R173). -/
  | vfunRcp (d : VReg) (s1 : VReg) (x : Bool) (p : PReg) (m : BitVec 2)
  /-- VFUN_RSQ (R173). -/
  | vfunRsq (d : VReg) (s1 : VReg) (x : Bool) (p : PReg) (m : BitVec 2)
  /-- VFUN_SINPI (R173). -/
  | vfunSinpi (d : VReg) (s1 : VReg) (x : Bool) (p : PReg) (m : BitVec 2)
  /-- VFUN_COSPI (R173). -/
  | vfunCospi (d : VReg) (s1 : VReg) (x : Bool) (p : PReg) (m : BitVec 2)
  /-- VFUN_TANH (R173). -/
  | vfunTanh (d : VReg) (s1 : VReg) (x : Bool) (p : PReg) (m : BitVec 2)
  /-- VRED_ADD (R174). -/
  | vredAdd (d : VReg) (s1 : VReg) (p : PReg) (t : ElemType) (m : BitVec 2)
  /-- VRED_MIN (R174). -/
  | vredMin (d : VReg) (s1 : VReg) (p : PReg) (t : ElemType) (m : BitVec 2)
  /-- VRED_MAX (R174). -/
  | vredMax (d : VReg) (s1 : VReg) (p : PReg) (t : ElemType) (m : BitVec 2)
  /-- VRED_AND (R174). -/
  | vredAnd (d : VReg) (s1 : VReg) (p : PReg) (t : ElemType) (m : BitVec 2)
  /-- VRED_OR (R174). -/
  | vredOr (d : VReg) (s1 : VReg) (p : PReg) (t : ElemType) (m : BitVec 2)
  /-- VRED_XOR (R174). -/
  | vredXor (d : VReg) (s1 : VReg) (p : PReg) (t : ElemType) (m : BitVec 2)
  /-- VDOT (R175). -/
  | vdot (d : VReg) (s1 : VReg) (s2 : VReg) (p : PReg) (t : ElemType) (m : BitVec 2)
  /-- VSEL (R177). -/
  | vsel (d : VReg) (s1 : VReg) (s2 : VReg) (p : PReg) (t : ElemType)
  /-- VPERM (R178). -/
  | vperm (d : VReg) (s1 : VReg) (s2 : VReg) (p : PReg) (t : ElemType)
  /-- VBCAST (R177). -/
  | vbcast (d : VReg) (s1 : GReg) (p : PReg) (t : ElemType)
  /-- VEXT (R179). -/
  | vext (d : GReg) (s1 : VReg) (s2 : GReg) (t : ElemType)
  /-- VINS (R179). -/
  | vins (d : VReg) (s1 : GReg) (s2 : GReg) (t : ElemType)
  /-- VZIP (R178). -/
  | vzip (d : VReg) (s1 : VReg) (s2 : VReg) (p : PReg) (t : ElemType)
  /-- VSCAN_ADD (R176). -/
  | vscanAdd (d : VReg) (s1 : VReg) (p : PReg) (t : ElemType) (m : BitVec 2)
  /-- VSCAN_MIN (R176). -/
  | vscanMin (d : VReg) (s1 : VReg) (p : PReg) (t : ElemType) (m : BitVec 2)
  /-- VSCAN_MAX (R176). -/
  | vscanMax (d : VReg) (s1 : VReg) (p : PReg) (t : ElemType) (m : BitVec 2)
  /-- VLD (R181). -/
  | vld (d : VReg) (s1 : GReg) (s2 : GReg) (p : PReg) (t : ElemType)
  /-- VST (R181). -/
  | vst (d : VReg) (s1 : GReg) (s2 : GReg) (p : PReg) (t : ElemType)
  /-- VGATH (R182). -/
  | vgath (d : VReg) (s1 : GReg) (s2 : VReg) (p : PReg) (t : ElemType)
  /-- VSCAT (R182). -/
  | vscat (d : VReg) (s1 : GReg) (s2 : VReg) (p : PReg) (t : ElemType)
  /-- VSHUF (R180). -/
  | vshuf (d : VReg) (s1 : VReg) (s2 : GReg) (p : PReg) (t : ElemType)
  /-- VMOV (R177). -/
  | vmov (d : VReg) (s1 : VReg) (p : PReg) (t : ElemType)
  /-- LD (R207). -/
  | ld (d : GReg) (b : GReg) (off : BitVec 10) (z : BitVec 2) (x : Bool)
  /-- ST (R207). -/
  | st (d : GReg) (b : GReg) (off : BitVec 10) (z : BitVec 2)
  /-- LDX (R207). -/
  | ldx (d : GReg) (s1 : GReg) (s2 : GReg) (f : BitVec 5) (z : BitVec 2) (x : Bool)
  /-- STX (R207). -/
  | stx (d : GReg) (s1 : GReg) (s2 : GReg) (f : BitVec 5) (z : BitVec 2)
  /-- LDFE (R209). -/
  | ldfe (d : GReg) (b : GReg) (off : BitVec 10)
  /-- STFE (R209). -/
  | stfe (d : GReg) (b : GReg) (off : BitVec 10)
  /-- FEOP_SET (R210). -/
  | feopSet (s1 : GReg) (s2 : GReg) (f : BitVec 5)
  /-- FEOP_CLR (R210). -/
  | feopClr (s1 : GReg) (s2 : GReg) (f : BitVec 5)
  /-- FEOP_QRY (R210). -/
  | feopQry (d : GReg) (s1 : GReg) (s2 : GReg) (f : BitVec 5)
  /-- FEOP_LDFF (R210). -/
  | feopLdff (d : GReg) (s1 : GReg) (s2 : GReg) (f : BitVec 5)
  /-- XCH (R208). -/
  | xch (d : GReg) (s1 : GReg) (s2 : GReg) (f : BitVec 5) (z : BitVec 2) (x : Bool)
  /-- LDG (R242). -/
  | ldg (d : GReg) (b : GReg) (off : BitVec 10) (z : BitVec 2) (x : Bool)
  /-- STG (R242). -/
  | stg (d : GReg) (b : GReg) (off : BitVec 10) (z : BitVec 2)
  /-- VLDG (R243). -/
  | vldg (d : VReg) (s1 : GReg) (s2 : GReg) (p : PReg) (t : ElemType)
  /-- VSTG (R243). -/
  | vstg (d : VReg) (s1 : GReg) (s2 : GReg) (p : PReg) (t : ElemType)
  /-- PREF_RD (R244). -/
  | prefRd (b : GReg) (off : BitVec 10)
  /-- PREF_OWN (R244). -/
  | prefOwn (b : GReg) (off : BitVec 10)
  /-- PREF_SLC (R244). -/
  | prefSlc (b : GReg) (off : BitVec 10)
  /-- LEASE (R252). -/
  | lease (d : GReg) (s1 : GReg) (s2 : GReg)
  /-- UNLEASE (R253). -/
  | unlease (d : GReg) (s1 : GReg)
  /-- LSTAT (R254). -/
  | lstat (d : GReg) (s1 : GReg)
  /-- TCUT (R239). -/
  | tcut
  /-- FENCE (R239). -/
  | fence (scope : Scope)
  /-- ACQ (R239). -/
  | acq (scope : Scope)
  /-- REL (R239). -/
  | rel (scope : Scope)
  /-- FA_ADD_N64 (R259). -/
  | faAddN64 (d : GReg) (s1 : GReg) (s2 : GReg) (scope : Scope) (ord : Bool)
  /-- FA_AND_N64 (R259). -/
  | faAndN64 (d : GReg) (s1 : GReg) (s2 : GReg) (scope : Scope) (ord : Bool)
  /-- FA_OR_N64 (R259). -/
  | faOrN64 (d : GReg) (s1 : GReg) (s2 : GReg) (scope : Scope) (ord : Bool)
  /-- FA_XOR_N64 (R259). -/
  | faXorN64 (d : GReg) (s1 : GReg) (s2 : GReg) (scope : Scope) (ord : Bool)
  /-- FA_MIN_I64 (R259). -/
  | faMinI64 (d : GReg) (s1 : GReg) (s2 : GReg) (scope : Scope) (ord : Bool)
  /-- FA_MAX_I64 (R259). -/
  | faMaxI64 (d : GReg) (s1 : GReg) (s2 : GReg) (scope : Scope) (ord : Bool)
  /-- FA_MIN_N64 (R259). -/
  | faMinN64 (d : GReg) (s1 : GReg) (s2 : GReg) (scope : Scope) (ord : Bool)
  /-- FA_MAX_N64 (R259). -/
  | faMaxN64 (d : GReg) (s1 : GReg) (s2 : GReg) (scope : Scope) (ord : Bool)
  /-- FA_SWAP_N64 (R259). -/
  | faSwapN64 (d : GReg) (s1 : GReg) (s2 : GReg) (scope : Scope) (ord : Bool)
  /-- FA_CAS_N64 (R259). -/
  | faCasN64 (d : GReg) (s1 : GReg) (s2 : GReg) (scope : Scope) (ord : Bool)
  /-- FA_ADD_F64 (R259). -/
  | faAddF64 (d : GReg) (s1 : GReg) (s2 : GReg) (scope : Scope) (ord : Bool)
  /-- FA_GET_N64 (R259). -/
  | faGetN64 (d : GReg) (s1 : GReg) (s2 : GReg) (scope : Scope) (ord : Bool)
  /-- CAP_GIVE (R274). -/
  | capGive (d : GReg) (s1 : GReg) (s2 : GReg)
  /-- CAP_CLAIM (R274). -/
  | capClaim (d : GReg) (s1 : GReg)
  /-- CAP_SEAL (R274). -/
  | capSeal (d : GReg) (s1 : GReg)
  /-- CAP_UNSEAL (R274). -/
  | capUnseal (d : GReg) (s1 : GReg)
  /-- CAP_QRY (R274). -/
  | capQry (d : GReg) (s1 : GReg)
  /-- CAP_QRY_WAIT (R274). -/
  | capQryWait (d : GReg) (s1 : GReg)
  /-- TCFG (R294). -/
  | tcfg (mm : BitVec 7) (nn : BitVec 7)
  /-- TREL (R295). -/
  | trel (k : BitVec 4)
  /-- DTLD (R296). -/
  | dtld (d : TReg) (s1 : GReg)
  /-- DTLD_STD (R296). -/
  | dtldStd (d : TReg) (k : StdTable)
  /-- FCTX (R297). -/
  | fctx (s1 : GReg)
  /-- FCTX_RD (R297). -/
  | fctxRd (d : GReg)
  /-- TLDB (R298). -/
  | tldb (s2 : GReg) (s1 : GReg) (s3 : GReg)
  /-- MMA (R300). -/
  | mma (d : TReg) (s1 : GReg) (z : Bool)
  /-- MMA_V (R300). -/
  | mmaV (d : TReg) (s1 : GReg) (v : VReg) (z : Bool)
  /-- TSTC_F32 (R302). -/
  | tstcF32 (d : TReg) (s2 : GReg) (s1 : GReg)
  /-- TSTC_BF16 (R302). -/
  | tstcBf16 (d : TReg) (s2 : GReg) (s1 : GReg)
  /-- TSTC_F16 (R302). -/
  | tstcF16 (d : TReg) (s2 : GReg) (s1 : GReg)
  /-- TQNT (R304). -/
  | tqnt (d : TReg) (s1 : GReg)
  /-- SCFG (R323). -/
  | scfg (d : GReg) (op : ScanOp) (rmode : Rounding)
  /-- STILE (R324). -/
  | stile (s1 : GReg)
  /-- SJOIN_T (R325). -/
  | sjoinT (d : GReg) (s1 : GReg)
  /-- SJOIN_R (R325). -/
  | sjoinR (d : GReg) (s1 : GReg) (s2 : GReg)
  /-- CHAIN_POST (R329). -/
  | chainPost (d : GReg) (s1 : GReg) (s2 : GReg)
  /-- CHAIN_WAIT (R330). -/
  | chainWait (d : GReg) (s1 : GReg) (s2 : GReg)
  /-- CHAIN_POS (R331). -/
  | chainPos (d : GReg)
  /-- BINIT (R348). -/
  | binit (d : GReg) (s1 : GReg) (s2 : GReg) (scope : Scope)
  /-- BARV (R349). -/
  | barv (d : GReg) (s1 : GReg) (s2 : GReg) (scope : Scope)
  /-- BARV_X (R349). -/
  | barvX (d : GReg) (s1 : GReg) (s2 : GReg) (scope : Scope)
  /-- BWAIT (R350). -/
  | bwait (d : GReg) (s1 : GReg) (s2 : GReg) (scope : Scope)
  /-- BTEST (R351). -/
  | btest (d : GReg) (s1 : GReg) (s2 : GReg) (scope : Scope)
  /-- SEMI (R354). -/
  | semi (d : GReg) (s1 : GReg) (s2 : GReg) (scope : Scope)
  /-- SEMI_SET (R354). -/
  | semiSet (d : GReg) (s1 : GReg) (s2 : GReg) (scope : Scope)
  /-- SEMW (R354). -/
  | semw (d : GReg) (s1 : GReg) (s2 : GReg) (scope : Scope)
  /-- SEMW_DEC (R354). -/
  | semwDec (d : GReg) (s1 : GReg) (s2 : GReg) (scope : Scope)
  /-- QINIT (R358). -/
  | qinit (d : GReg) (s1 : GReg) (s2 : GReg)
  /-- ENQ (R359). -/
  | enq (d : GReg) (s1 : GReg) (s2 : GReg)
  /-- ENQ_B (R359). -/
  | enqB (d : GReg) (s1 : GReg) (s2 : GReg)
  /-- DEQ (R359). -/
  | deq (d : GReg) (s1 : GReg)
  /-- DEQ_B (R359). -/
  | deqB (d : GReg) (s1 : GReg) (s2 : GReg)
  /-- DEQ_POLL (R359). -/
  | deqPoll (d : GReg) (s1 : GReg) (s2 : GReg)
  /-- SEND (R364). -/
  | send (d : GReg) (s1 : GReg) (s2 : GReg) (n : BitVec 5)
  /-- SEND_REP (R364). -/
  | sendRep (d : GReg) (s1 : GReg) (s2 : GReg) (n : BitVec 5)
  /-- SEND_REF (R364). -/
  | sendRef (d : GReg) (s1 : GReg)
  /-- CPY (R388). -/
  | cpy (d : GReg) (s1 : GReg) (s2 : GReg)
  /-- CPY_STAT (R389). -/
  | cpyStat (d : GReg) (s1 : GReg)
  /-- CPY_STAT_ERR (R389). -/
  | cpyStatErr (d : GReg) (s1 : GReg)
  /-- CPY_STAT_WAIT (R389). -/
  | cpyStatWait (d : GReg) (s1 : GReg) (s2 : GReg)
  /-- GATH (R391). -/
  | gath (d : GReg) (s1 : GReg) (s2 : GReg)
  /-- SCAT (R391). -/
  | scat (d : GReg) (s1 : GReg) (s2 : GReg)
  /-- STRM_OFF (R393). -/
  | strmOff (d : GReg) (v : VReg)
  /-- STRM_IN (R393). -/
  | strmIn (d : GReg) (v : VReg) (s1 : GReg) (f : BitVec 5)
  /-- STRM_OUT (R393). -/
  | strmOut (d : GReg) (v : VReg) (s1 : GReg) (f : BitVec 5)
  /-- STRM_IN_D (R393). -/
  | strmInD (d : GReg) (v : VReg) (s1 : GReg) (f : BitVec 5)
  /-- STRM_OUT_D (R393). -/
  | strmOutD (d : GReg) (v : VReg) (s1 : GReg) (f : BitVec 5)
  /-- TRAP (R437). -/
  | trap (s1 : GReg) (n : BitVec 5)
  /-- ERET (R437). -/
  | eret (s1 : GReg)
  /-- ERET_END (R437). -/
  | eretEnd (s1 : GReg)
  /-- PARKRD (R437). -/
  | parkrd (d : GReg) (s1 : GReg)
  /-- PARKWR (R437). -/
  | parkwr (s1 : GReg) (s2 : GReg)
  /-- ERLOG (R437). -/
  | erlog (d : GReg) (s1 : GReg)
  /-- ERLOG_ESC (R437). -/
  | erlogEsc (s1 : GReg)
  /-- CRD (R438). -/
  | crd (d : GReg) (r : BitVec 13)
  /-- CWR (R438). -/
  | cwr (r : BitVec 13) (s1 : GReg)
  /-- TLBI_VA (R407). -/
  | tlbiVa (s1 : GReg) (s2 : GReg) (scope : Scope)
  /-- TLBI_ASID (R407). -/
  | tlbiAsid (s2 : GReg) (scope : Scope)
  /-- TLBI_ALL (R407). -/
  | tlbiAll (scope : Scope)
  /-- C_BRK (R43). -/
  | cBrk (code : BitVec 10)
  /-- C_NOP (R43). -/
  | cNop
  /-- C_MOV (R43). -/
  | cMov (d : GReg) (src : GReg)
  /-- C_ADD (R43). -/
  | cAdd (d : GReg) (src : GReg)
  /-- C_SUB (R43). -/
  | cSub (d : GReg) (src : GReg)
  /-- C_AND (R43). -/
  | cAnd (d : GReg) (src : GReg)
  /-- C_OR (R43). -/
  | cOr (d : GReg) (src : GReg)
  /-- C_XOR (R43). -/
  | cXor (d : GReg) (src : GReg)
  /-- C_ADDI (R43). -/
  | cAddi (d : GReg) (imm : BitVec 5)
  /-- C_LI (R43). -/
  | cLi (d : GReg) (imm : BitVec 5)
  /-- C_SHI_SHL (R43). -/
  | cShiShl (d : GReg) (imm : BitVec 5)
  /-- C_SHI_SHR (R43). -/
  | cShiShr (d : GReg) (imm : BitVec 5)
  /-- C_SHI_SAR (R43). -/
  | cShiSar (d : GReg) (imm : BitVec 5)
  /-- C_LD (R43). -/
  | cLd (d : GReg) (b : GReg) (off : BitVec 4)
  /-- C_ST (R43). -/
  | cSt (d : GReg) (b : GReg) (off : BitVec 4)
  /-- C_LDG (R43). -/
  | cLdg (d : GReg) (b : GReg) (off : BitVec 4)
  /-- C_STG (R43). -/
  | cStg (d : GReg) (b : GReg) (off : BitVec 4)
  /-- C_BR (R43). -/
  | cBr (off : BitVec 10)
  /-- C_BCC_EQ (R43). -/
  | cBccEq (x : GReg) (off : BitVec 7)
  /-- C_BCC_NE (R43). -/
  | cBccNe (x : GReg) (off : BitVec 7)
  /-- C_RET (R43). -/
  | cRet
  /-- C_JR (R43). -/
  | cJr (src : GReg)
  /-- C_CALLR (R43). -/
  | cCallr (src : GReg)
  /-- C_YIELD (R43). -/
  | cYield
  /-- C_END (R43). -/
  | cEnd
  /-- C_TCUT (R43). -/
  | cTcut
  /-- C_VADD_F32 (R43). -/
  | cVaddF32 (d : VReg) (src : VReg)
  /-- C_VMUL_F32 (R43). -/
  | cVmulF32 (d : VReg) (src : VReg)
  /-- C_VMOV (R43). -/
  | cVmov (d : VReg) (src : VReg)
  /-- C_VLD (R43). -/
  | cVld (d : VReg) (src : GReg)
  /-- C_VST (R43). -/
  | cVst (d : VReg) (src : GReg)
  /-- C_BP_ANY (R43). -/
  | cBpAny (p : PReg) (off : BitVec 7)
  deriving DecidableEq, Repr

end Sys2Proof
end

