-- ==== Sys2Proof/WellFormed.lean ====
section
/-! DEFINITION. Which instructions are well formed: the reserved values that the fields' types do not already exclude. -/

namespace Sys2Proof

/-- Types 0 to 7 (R157). -/
def ElemType.isInt : ElemType → Bool
  | .i8 | .i16 | .i32 | .i64 | .n8 | .n16 | .n32 | .n64 => true
  | _ => false

/-- Types 8 to 11 (R157). -/
def ElemType.isFlt : ElemType → Bool
  | .f16 | .bf16 | .f32 | .f64 => true
  | _ => false

/-- The MOV class: types 0 to 12 (R157). -/
def ElemType.isMov : ElemType → Bool
  | .c8 | .c4 => false
  | _ => true

/-- INT or FLT. -/
def ElemType.isArith (t : ElemType) : Bool := t.isInt || t.isFlt

/-- The unsigned integer types. -/
def ElemType.isUns : ElemType → Bool
  | .n8 | .n16 | .n32 | .n64 => true
  | _ => false

/-- The width of an element in its lane, in bits; a c4 code counts as 4 (R20, R32, R65). -/
def ElemType.width : ElemType → Nat
  | .i8 | .n8 | .c8 => 8
  | .i16 | .n16 | .f16 | .bf16 => 16
  | .i32 | .n32 | .f32 | .f19 => 32
  | .i64 | .n64 | .f64 => 64
  | .c4 => 4

/-- The mod field of an instruction that rounds floating-point types and may saturate integer types (R34, R159). -/
def modOk (t : ElemType) (m : BitVec 2) : Bool := if t.isInt then m.getLsbD 1 == false else true

/-- The size and sign-extension fields of a load (R206). -/
def loadForm (z : BitVec 2) (x : Bool) : Bool := !(x && z == 3#2)

/-- The reserved cases of REP (R122). -/
def repForm (kind : RepKind) (base : BitVec 5) (sz : BitVec 3) (stride : BitVec 5) : Bool :=
  let w := 2 ^ sz.toNat
  decide (sz.toNat ≤ 5) && decide (base.toNat + w ≤ 32) && decide (stride.toNat < w) &&
  (match kind with
   | .nothing => base == 0#5 && sz == 0#3 && stride == 0#5
   | .vec => true
   | .scalar | .both => base != 0#5)

/-- FENCE, ACQ and REL take every scope; the operations of barriers, semaphores and TLBI exclude `.lane` (R341, R406). -/
def Scope.notLane (x : Scope) : Bool := x != .lane

/-- The scopes of a far atomic (R259). -/
def Scope.isFar (x : Scope) : Bool := x == .pkg || x == .pod

/-- The reserved-value checks of R45 that remain once the fields have been read, each by the rule of the
instruction's description. -/
def Instr.wf : Instr → Bool
  | .nop => true
  | .br _ => true
  | .bcc _ _ _ _ => true
  | .bp _ _ _ => true
  | .call _ => true
  | .callr _ _ => true
  | .ret => true
  | .jr _ => true
  | .loop ctr _ => ctr != 0#5
  | .rep _ _ kind base sz stride => repForm kind base sz stride
  | .start _ _ _ => true
  | .endCtx => true
  | .yield => true
  | .wait _ _ _ => true
  | .getid _ _ => true
  | .brk _ => true
  | .extPrefixedUnit _ body => body.wf
  | .add _ _ _ => true
  | .addi _ _ _ => true
  | .sub _ _ _ => true
  | .mul _ _ _ => true
  | .mulhI64 _ _ _ => true
  | .mulhN64 _ _ _ => true
  | .mulhSu _ _ _ => true
  | .divI64 _ _ _ => true
  | .divN64 _ _ _ => true
  | .remI64 _ _ _ => true
  | .remN64 _ _ _ => true
  | .madd _ _ _ _ => true
  | .msub _ _ _ _ => true
  | .andR _ _ _ => true
  | .orR _ _ _ => true
  | .xorR _ _ _ => true
  | .andn _ _ _ => true
  | .logiAnd _ _ _ => true
  | .logiOr _ _ _ => true
  | .logiXor _ _ _ => true
  | .logiAndn _ _ _ => true
  | .shl _ _ _ => true
  | .shr _ _ _ => true
  | .sar _ _ _ => true
  | .rotL _ _ _ => true
  | .rotR _ _ _ => true
  | .shiShl _ _ _ => true
  | .shiShr _ _ _ => true
  | .shiSar _ _ _ => true
  | .shiRot _ _ _ => true
  | .minI64 _ _ _ => true
  | .minN64 _ _ _ => true
  | .maxI64 _ _ _ => true
  | .maxN64 _ _ _ => true
  | .cmp _ _ _ _ => true
  | .sel _ _ _ _ => true
  | .ext _ _ t => t == 0#5 || t == 1#5 || t == 2#5 || t == 4#5 || t == 5#5 || t == 6#5
  | .bitcPop _ _ => true
  | .bitcClz _ _ => true
  | .bitcCtz _ _ => true
  | .bitcRev _ _ => true
  | .bitcBsw _ _ => true
  | .bfxN _ _ _ => true
  | .bfxI _ _ _ => true
  | .bfi _ _ _ => true
  | .li _ _ => true
  | .lih _ _ => true
  | .lea _ _ _ sh => decide (sh.toNat ≤ 4)
  | .hdrPack _ s1 _ => decide (s1.toNat ≤ 24)
  | .hdrSplit d _ _ => decide (d.toNat ≤ 24)
  | .shuf _ _ _ => true
  | .shufKLow _ _ _ _ => true
  | .shufKHigh _ _ _ k => decide (k.toNat ≤ 23)
  | .addc _ _ _ _ => true
  | .addcCo _ _ _ _ => true
  | .vadd _ _ _ _ t m => t.isArith && modOk t m
  | .vsub _ _ _ _ t m => t.isArith && modOk t m
  | .vmul _ _ _ _ t m => t.isArith && modOk t m
  | .vfma _ _ _ _ t m => t.isArith && modOk t m
  | .vdiv _ _ _ _ t m => t.isArith && modOk t m
  | .vsqrt _ _ _ t _ => t.isFlt
  | .vmin _ _ _ _ t => t.isArith
  | .vmax _ _ _ _ t => t.isArith
  | .vunNeg _ _ _ t m => t.isArith && (if t.isInt then m.getLsbD 1 == false else m == 0#2)
  | .vunAbs _ _ _ t m => t.isArith && (if t.isInt then m.getLsbD 1 == false else m == 0#2)
  | .vunRint _ _ _ t _ => t.isFlt
  | .vunPopc _ _ _ t => t.isInt
  | .vunClz _ _ _ t => t.isInt
  | .vlogAnd _ _ _ t => t.isInt
  | .vlogOr _ _ _ t => t.isInt
  | .vlogXor _ _ _ t => t.isInt
  | .vlogAndn _ _ _ t => t.isInt
  | .vlogOrn _ _ _ t => t.isInt
  | .vlogNand _ _ _ t => t.isInt
  | .vlogNor _ _ _ t => t.isInt
  | .vlogXnor _ _ _ t => t.isInt
  | .vlogNot _ _ _ t => t.isInt
  | .vsh _ _ _ _ t m => t.isInt && modOk t m
  | .vcmp q _ _ _ _ t => q != 0#3 && t.isArith
  | .whilePred q _ _ _ _ t => q != 0#3 && t.isInt
  | .vwid _ => true
  | .plogAnd q _ _ _ => q != 0#3
  | .plogOr q _ _ _ => q != 0#3
  | .plogXor q _ _ _ => q != 0#3
  | .plogAndn q _ _ _ => q != 0#3
  | .vcvt _ _ srcT _ t m => t.isMov && srcT.isMov && modOk t m
  | .vcvtHi _ _ srcT _ t m => t.isMov && srcT.isMov && t.width != srcT.width && modOk t m
  | .vfunExp2 _ _ _ _ _ => true
  | .vfunLog2 _ _ _ _ _ => true
  | .vfunRcp _ _ _ _ _ => true
  | .vfunRsq _ _ _ _ _ => true
  | .vfunSinpi _ _ _ _ _ => true
  | .vfunCospi _ _ _ _ _ => true
  | .vfunTanh _ _ _ _ _ => true
  | .vredAdd _ _ _ t m => t.isArith && modOk t m
  | .vredMin _ _ _ t m => t.isArith && modOk t m
  | .vredMax _ _ _ t m => t.isArith && modOk t m
  | .vredAnd _ _ _ t m => t.isInt && modOk t m
  | .vredOr _ _ _ t m => t.isInt && modOk t m
  | .vredXor _ _ _ t m => t.isInt && modOk t m
  | .vdot _ _ _ _ t m => t.isArith && modOk t m
  | .vsel _ _ _ _ t => t.isMov
  | .vperm _ _ _ _ t => t.isMov
  | .vbcast _ _ _ t => t.isMov
  | .vext _ _ _ t => t.isMov
  | .vins _ _ _ t => t.isMov
  | .vzip _ _ _ _ t => t.isMov
  | .vscanAdd _ _ _ t m => t.isArith && modOk t m
  | .vscanMin _ _ _ t m => t.isArith && modOk t m
  | .vscanMax _ _ _ t m => t.isArith && modOk t m
  | .vld _ _ _ _ t => t.isMov
  | .vst _ _ _ _ t => t.isMov
  | .vgath _ _ _ _ t => t.isMov
  | .vscat _ _ _ _ t => t.isMov
  | .vshuf _ _ s2 _ t => t.isUns && s2 != 31#5
  | .vmov _ _ _ t => t.isMov
  | .ld _ _ _ z x => loadForm z x
  | .st _ _ _ _ => true
  | .ldx _ _ _ f z x => loadForm z x && decide (f.toNat ≤ 4)
  | .stx _ _ _ f _ => decide (f.toNat ≤ 4)
  | .ldfe _ _ _ => true
  | .stfe _ _ _ => true
  | .feopSet _ _ f => decide (f.toNat ≤ 4)
  | .feopClr _ _ f => decide (f.toNat ≤ 4)
  | .feopQry _ _ _ f => decide (f.toNat ≤ 4)
  | .feopLdff _ _ _ f => decide (f.toNat ≤ 4)
  | .xch _ _ _ f z x => loadForm z x && decide (f.toNat ≤ 4)
  | .ldg _ _ _ z x => loadForm z x
  | .stg _ _ _ _ => true
  | .vldg _ _ _ _ t => t.isMov
  | .vstg _ _ _ _ t => t.isMov
  | .prefRd _ _ => true
  | .prefOwn _ _ => true
  | .prefSlc _ _ => true
  | .lease _ _ _ => true
  | .unlease _ _ => true
  | .lstat _ _ => true
  | .tcut => true
  | .fence _ => true
  | .acq _ => true
  | .rel _ => true
  | .faAddN64 _ _ _ scope _ => scope.isFar
  | .faAndN64 _ _ _ scope _ => scope.isFar
  | .faOrN64 _ _ _ scope _ => scope.isFar
  | .faXorN64 _ _ _ scope _ => scope.isFar
  | .faMinI64 _ _ _ scope _ => scope.isFar
  | .faMaxI64 _ _ _ scope _ => scope.isFar
  | .faMinN64 _ _ _ scope _ => scope.isFar
  | .faMaxN64 _ _ _ scope _ => scope.isFar
  | .faSwapN64 _ _ _ scope _ => scope.isFar
  | .faCasN64 _ _ _ scope _ => scope.isFar
  | .faAddF64 _ _ _ scope _ => scope.isFar
  | .faGetN64 _ _ _ scope _ => scope.isFar
  | .capGive _ _ _ => true
  | .capClaim _ _ => true
  | .capSeal _ _ => true
  | .capUnseal _ _ => true
  | .capQry _ _ => true
  | .capQryWait _ _ => true
  | .tcfg mm _ => decide (mm.toNat ≤ 95)
  | .trel _ => true
  | .dtld _ _ => true
  | .dtldStd _ _ => true
  | .fctx _ => true
  | .fctxRd _ => true
  | .tldb _ _ _ => true
  | .mma _ s1 _ => decide (s1.toNat ≤ 29)
  | .mmaV _ s1 _ _ => decide (s1.toNat ≤ 29)
  | .tstcF32 _ _ _ => true
  | .tstcBf16 _ _ _ => true
  | .tstcF16 _ _ _ => true
  | .tqnt _ _ => true
  | .scfg _ _ rmode => rmode != .rst
  | .stile s1 => decide (s1.toNat ≤ 30)
  | .sjoinT d _ => decide (d.toNat ≤ 30)
  | .sjoinR _ _ _ => true
  | .chainPost _ _ _ => true
  | .chainWait _ _ _ => true
  | .chainPos _ => true
  | .binit _ _ _ scope => scope.notLane
  | .barv _ _ _ scope => scope.notLane
  | .barvX _ _ _ scope => scope.notLane
  | .bwait _ _ _ scope => scope.notLane
  | .btest _ _ _ scope => scope.notLane
  | .semi _ _ _ scope => scope.notLane
  | .semiSet _ _ _ scope => scope.notLane
  | .semw _ _ _ scope => scope.notLane
  | .semwDec _ _ _ scope => scope.notLane
  | .qinit _ _ _ => true
  | .enq _ _ _ => true
  | .enqB _ _ _ => true
  | .deq _ _ => true
  | .deqB _ _ _ => true
  | .deqPoll _ _ _ => true
  | .send _ _ s2 n => decide (n.toNat ≤ 8) && decide (s2.toNat + n.toNat ≤ 32) && (n != 0#5 || s2 == 0#5)
  | .sendRep _ _ s2 n => decide (n.toNat ≤ 8) && decide (s2.toNat + n.toNat ≤ 32) && (n != 0#5 || s2 == 0#5)
  | .sendRef _ _ => true
  | .cpy _ _ _ => true
  | .cpyStat _ _ => true
  | .cpyStatErr _ _ => true
  | .cpyStatWait _ _ _ => true
  | .gath _ _ _ => true
  | .scat _ _ _ => true
  | .strmOff _ v => decide (24 ≤ v.toNat)
  | .strmIn _ v s1 _ => decide (24 ≤ v.toNat) && decide (s1.toNat ≤ 29)
  | .strmOut _ v s1 _ => decide (24 ≤ v.toNat) && decide (s1.toNat ≤ 29)
  | .strmInD _ v _ _ => decide (24 ≤ v.toNat)
  | .strmOutD _ v _ _ => decide (24 ≤ v.toNat)
  | .trap _ _ => true
  | .eret _ => true
  | .eretEnd _ => true
  | .parkrd _ _ => true
  | .parkwr _ _ => true
  | .erlog _ _ => true
  | .erlogEsc _ => true
  | .crd _ _ => true
  | .cwr _ _ => true
  | .tlbiVa _ _ scope => scope.notLane
  | .tlbiAsid _ scope => scope.notLane
  | .tlbiAll scope => scope.notLane
  | .cBrk _ => true
  | .cNop => true
  | .cMov _ _ => true
  | .cAdd _ _ => true
  | .cSub _ _ => true
  | .cAnd _ _ => true
  | .cOr _ _ => true
  | .cXor _ _ => true
  | .cAddi _ _ => true
  | .cLi _ _ => true
  | .cShiShl _ _ => true
  | .cShiShr _ _ => true
  | .cShiSar _ _ => true
  | .cLd _ _ _ => true
  | .cSt _ _ _ => true
  | .cLdg _ _ _ => true
  | .cStg _ _ _ => true
  | .cBr _ => true
  | .cBccEq _ _ => true
  | .cBccNe _ _ => true
  | .cRet => true
  | .cJr _ => true
  | .cCallr _ => true
  | .cYield => true
  | .cEnd => true
  | .cTcut => true
  | .cVaddF32 _ _ => true
  | .cVmulF32 _ _ => true
  | .cVmov _ _ => true
  | .cVld _ _ => true
  | .cVst _ _ => true
  | .cBpAny _ _ => true
  | .cwrCmode _ => true
  | .cwrWsp _ => true
  | .cwrLayout _ _ => true
  | .cwrSplit _ => true
  | .cwrVpool _ => true
  | .cwrClass _ _ => true
  | .cwrVmroot _ => true
  | .supervisorWake _ => true
  | .blockedIntervalEnd _ _ => true
  | .forfeitEnd _ _ => true
  | .normaliserService _ => true
  | .queueRegisterUnblock _ _ => true
  | .waitRelease _ _ => true
  | .waitLimitExpiry _ _ => true
  | .helperTaken _ _ => true
  | .taskLaneRetire _ => true
  | .remoteAccessPerform _ _ => true
  | .remoteStorePerform _ _ => true
  | .vectorRemoteChecks _ _ => true
  | .parkedRequestServe _ => true
  | .parkRefusalRetry _ _ => true
  | .evictionRetryResend _ _ => true
  | .commitGrant _ _ => true
  | .localCommit _ _ => true
  | .trumpAdmission _ => true
  | .homeLineRequest _ _ _ => true
  | .probeTimeout _ _ => true
  | .leaseGrant _ _ => true
  | .leaseExpiry _ _ _ => true
  | .farAtomicPerform _ _ => true
  | .farAtomicReply _ _ _ => true
  | .capStateChange _ _ => true
  | .capQryWaitRelease _ _ => true
  | .matrixRequestStart _ => true
  | .matrixRequestComplete _ => true
  | .mxwdogExpiry _ => true
  | .uncorrectableSoftError _ _ _ => true
  | .scanRequestStart _ => true
  | .scanRequestComplete _ => true
  | .chainPostPerform _ _ => true
  | .chainDelivery _ => true
  | .chainWaitPerform _ _ => true
  | .barrierArrival _ _ => true
  | .semaphoreAtHome _ _ => true
  | .syncWaiterAnswer _ _ _ => true
  | .wakeListRetry _ _ => true
  | .sliceQueueOp _ _ => true
  | .messageArrival _ _ => true
  | .sendReply _ _ _ => true
  | .granuleRead _ _ => true
  | .granuleWrite _ _ => true
  | .jobEnd _ _ => true
  | .gathScatRow _ _ => true
  | .streamStripFill _ _ _ => true
  | .streamStripWrite _ _ _ => true
  | .cpyStatWaitRelease _ _ => true
  | .trapRecordEnqueue _ => true
  | .pageWalk _ _ => true
  | .tlbiComplete _ _ => true
  | .pageGrant _ _ _ => true
  | .pageRevocation _ => true
  | .malformedDealRemoval _ => true
  | .dealPlacement _ => true
  | .launchCompletion _ => true
  | .pendingInterruptSend _ _ => true
  | .preemption _ => true
  | .coreResume _ _ => true
  | .budgetPeriodStart => true
  | .trapEntry _ _ => true
  | .lockstepMismatch _ _ => true
  | .machineCheck _ => true
  | .heartbeatMiss _ => true
  | .coreRepair _ _ => true
  | .quiesce _ => true
  | .quiesceDone => true
  | .quiesceLimitExpiry => true
  | .resume _ => true
  | .merge _ => true
  | .split _ => true
  | .treset _ => true
  | .tchange _ => true
  | .tchangeDone => true
  | .partRegisterWrite _ _ _ => true
  | .vfRegisterWrite _ _ => true
  | .xpRegisterWrite _ _ => true
  | .podRegisterWrite _ _ => true
  | .bclassWrite _ _ _ => true
  | .lsclassWrite _ => true
  | .pwrctlWrite _ => true
  | .dpctlWrite _ _ => true
  | .hubRegisterWrite _ _ => true
  | .doorbellWrite _ _ _ _ => true
  | .doorbellTrigger _ _ => true
  | .doorbellStatusRead _ _ _ => true
  | .hostPostedWrite _ _ _ => true
  | .hostRead _ _ _ => true
  | .ideFailure _ _ => true
  | .spdmAttestation _ _ => true
  | .debugUnlock _ _ _ => true
  | .fabricRequestArrival _ _ _ => true
  | .fabricRetransmit _ _ => true
  | .secondTierTimeout _ => true
  | .expanderLinkDown _ => true
  | .expanderLinkTrained _ => true
  | .thermalSample _ _ _ => true
  | .agentGate _ => true
  | .agentSleep _ => true
  | .agentWake _ => true
  | .coldReset _ _ => true
  | .warmReset _ => true
  | .firmwareUpdate _ _ => true
  | .recoveryLoad _ _ => true
  | .partitionOpComplete => true
  | .hostLoadReply _ _ _ => true
  | .fabricAcknowledgement _ _ => true

/-- Whether the instruction is the one its own word stands for: a compact form names g8 to g15 where R42 says so, and
a write of a control register that has a constructor of its own is not spelled as a plain one. -/
def Instr.canonical : Instr → Bool
  | .nop => true
  | .br _ => true
  | .bcc _ _ _ _ => true
  | .bp _ _ _ => true
  | .call _ => true
  | .callr _ _ => true
  | .ret => true
  | .jr _ => true
  | .loop _ _ => true
  | .rep _ _ _ _ _ _ => true
  | .start _ _ _ => true
  | .endCtx => true
  | .yield => true
  | .wait _ _ _ => true
  | .getid _ _ => true
  | .brk _ => true
  | .extPrefixedUnit _ body => body.canonical
  | .add _ _ _ => true
  | .addi _ _ _ => true
  | .sub _ _ _ => true
  | .mul _ _ _ => true
  | .mulhI64 _ _ _ => true
  | .mulhN64 _ _ _ => true
  | .mulhSu _ _ _ => true
  | .divI64 _ _ _ => true
  | .divN64 _ _ _ => true
  | .remI64 _ _ _ => true
  | .remN64 _ _ _ => true
  | .madd _ _ _ _ => true
  | .msub _ _ _ _ => true
  | .andR _ _ _ => true
  | .orR _ _ _ => true
  | .xorR _ _ _ => true
  | .andn _ _ _ => true
  | .logiAnd _ _ _ => true
  | .logiOr _ _ _ => true
  | .logiXor _ _ _ => true
  | .logiAndn _ _ _ => true
  | .shl _ _ _ => true
  | .shr _ _ _ => true
  | .sar _ _ _ => true
  | .rotL _ _ _ => true
  | .rotR _ _ _ => true
  | .shiShl _ _ _ => true
  | .shiShr _ _ _ => true
  | .shiSar _ _ _ => true
  | .shiRot _ _ _ => true
  | .minI64 _ _ _ => true
  | .minN64 _ _ _ => true
  | .maxI64 _ _ _ => true
  | .maxN64 _ _ _ => true
  | .cmp _ _ _ _ => true
  | .sel _ _ _ _ => true
  | .ext _ _ _ => true
  | .bitcPop _ _ => true
  | .bitcClz _ _ => true
  | .bitcCtz _ _ => true
  | .bitcRev _ _ => true
  | .bitcBsw _ _ => true
  | .bfxN _ _ _ => true
  | .bfxI _ _ _ => true
  | .bfi _ _ _ => true
  | .li _ _ => true
  | .lih _ _ => true
  | .lea _ _ _ _ => true
  | .hdrPack _ _ _ => true
  | .hdrSplit _ _ _ => true
  | .shuf _ _ _ => true
  | .shufKLow _ _ _ _ => true
  | .shufKHigh _ _ _ _ => true
  | .addc _ _ _ _ => true
  | .addcCo _ _ _ _ => true
  | .vadd _ _ _ _ _ _ => true
  | .vsub _ _ _ _ _ _ => true
  | .vmul _ _ _ _ _ _ => true
  | .vfma _ _ _ _ _ _ => true
  | .vdiv _ _ _ _ _ _ => true
  | .vsqrt _ _ _ _ _ => true
  | .vmin _ _ _ _ _ => true
  | .vmax _ _ _ _ _ => true
  | .vunNeg _ _ _ _ _ => true
  | .vunAbs _ _ _ _ _ => true
  | .vunRint _ _ _ _ _ => true
  | .vunPopc _ _ _ _ => true
  | .vunClz _ _ _ _ => true
  | .vlogAnd _ _ _ _ => true
  | .vlogOr _ _ _ _ => true
  | .vlogXor _ _ _ _ => true
  | .vlogAndn _ _ _ _ => true
  | .vlogOrn _ _ _ _ => true
  | .vlogNand _ _ _ _ => true
  | .vlogNor _ _ _ _ => true
  | .vlogXnor _ _ _ _ => true
  | .vlogNot _ _ _ _ => true
  | .vsh _ _ _ _ _ _ => true
  | .vcmp _ _ _ _ _ _ => true
  | .whilePred _ _ _ _ _ _ => true
  | .vwid _ => true
  | .plogAnd _ _ _ _ => true
  | .plogOr _ _ _ _ => true
  | .plogXor _ _ _ _ => true
  | .plogAndn _ _ _ _ => true
  | .vcvt _ _ _ _ _ _ => true
  | .vcvtHi _ _ _ _ _ _ => true
  | .vfunExp2 _ _ _ _ _ => true
  | .vfunLog2 _ _ _ _ _ => true
  | .vfunRcp _ _ _ _ _ => true
  | .vfunRsq _ _ _ _ _ => true
  | .vfunSinpi _ _ _ _ _ => true
  | .vfunCospi _ _ _ _ _ => true
  | .vfunTanh _ _ _ _ _ => true
  | .vredAdd _ _ _ _ _ => true
  | .vredMin _ _ _ _ _ => true
  | .vredMax _ _ _ _ _ => true
  | .vredAnd _ _ _ _ _ => true
  | .vredOr _ _ _ _ _ => true
  | .vredXor _ _ _ _ _ => true
  | .vdot _ _ _ _ _ _ => true
  | .vsel _ _ _ _ _ => true
  | .vperm _ _ _ _ _ => true
  | .vbcast _ _ _ _ => true
  | .vext _ _ _ _ => true
  | .vins _ _ _ _ => true
  | .vzip _ _ _ _ _ => true
  | .vscanAdd _ _ _ _ _ => true
  | .vscanMin _ _ _ _ _ => true
  | .vscanMax _ _ _ _ _ => true
  | .vld _ _ _ _ _ => true
  | .vst _ _ _ _ _ => true
  | .vgath _ _ _ _ _ => true
  | .vscat _ _ _ _ _ => true
  | .vshuf _ _ _ _ _ => true
  | .vmov _ _ _ _ => true
  | .ld _ _ _ _ _ => true
  | .st _ _ _ _ => true
  | .ldx _ _ _ _ _ _ => true
  | .stx _ _ _ _ _ => true
  | .ldfe _ _ _ => true
  | .stfe _ _ _ => true
  | .feopSet _ _ _ => true
  | .feopClr _ _ _ => true
  | .feopQry _ _ _ _ => true
  | .feopLdff _ _ _ _ => true
  | .xch _ _ _ _ _ _ => true
  | .ldg _ _ _ _ _ => true
  | .stg _ _ _ _ => true
  | .vldg _ _ _ _ _ => true
  | .vstg _ _ _ _ _ => true
  | .prefRd _ _ => true
  | .prefOwn _ _ => true
  | .prefSlc _ _ => true
  | .lease _ _ _ => true
  | .unlease _ _ => true
  | .lstat _ _ => true
  | .tcut => true
  | .fence _ => true
  | .acq _ => true
  | .rel _ => true
  | .faAddN64 _ _ _ _ _ => true
  | .faAndN64 _ _ _ _ _ => true
  | .faOrN64 _ _ _ _ _ => true
  | .faXorN64 _ _ _ _ _ => true
  | .faMinI64 _ _ _ _ _ => true
  | .faMaxI64 _ _ _ _ _ => true
  | .faMinN64 _ _ _ _ _ => true
  | .faMaxN64 _ _ _ _ _ => true
  | .faSwapN64 _ _ _ _ _ => true
  | .faCasN64 _ _ _ _ _ => true
  | .faAddF64 _ _ _ _ _ => true
  | .faGetN64 _ _ _ _ _ => true
  | .capGive _ _ _ => true
  | .capClaim _ _ => true
  | .capSeal _ _ => true
  | .capUnseal _ _ => true
  | .capQry _ _ => true
  | .capQryWait _ _ => true
  | .tcfg _ _ => true
  | .trel _ => true
  | .dtld _ _ => true
  | .dtldStd _ _ => true
  | .fctx _ => true
  | .fctxRd _ => true
  | .tldb _ _ _ => true
  | .mma _ _ _ => true
  | .mmaV _ _ _ _ => true
  | .tstcF32 _ _ _ => true
  | .tstcBf16 _ _ _ => true
  | .tstcF16 _ _ _ => true
  | .tqnt _ _ => true
  | .scfg _ _ _ => true
  | .stile _ => true
  | .sjoinT _ _ => true
  | .sjoinR _ _ _ => true
  | .chainPost _ _ _ => true
  | .chainWait _ _ _ => true
  | .chainPos _ => true
  | .binit _ _ _ _ => true
  | .barv _ _ _ _ => true
  | .barvX _ _ _ _ => true
  | .bwait _ _ _ _ => true
  | .btest _ _ _ _ => true
  | .semi _ _ _ _ => true
  | .semiSet _ _ _ _ => true
  | .semw _ _ _ _ => true
  | .semwDec _ _ _ _ => true
  | .qinit _ _ _ => true
  | .enq _ _ _ => true
  | .enqB _ _ _ => true
  | .deq _ _ => true
  | .deqB _ _ _ => true
  | .deqPoll _ _ _ => true
  | .send _ _ _ _ => true
  | .sendRep _ _ _ _ => true
  | .sendRef _ _ => true
  | .cpy _ _ _ => true
  | .cpyStat _ _ => true
  | .cpyStatErr _ _ => true
  | .cpyStatWait _ _ _ => true
  | .gath _ _ _ => true
  | .scat _ _ _ => true
  | .strmOff _ _ => true
  | .strmIn _ _ _ _ => true
  | .strmOut _ _ _ _ => true
  | .strmInD _ _ _ _ => true
  | .strmOutD _ _ _ _ => true
  | .trap _ _ => true
  | .eret _ => true
  | .eretEnd _ => true
  | .parkrd _ _ => true
  | .parkwr _ _ => true
  | .erlog _ _ => true
  | .erlogEsc _ => true
  | .crd _ _ => true
  | .cwr r _ => r != 0x0010#13 && r != 0x0012#13 && r.extractLsb' 5 8 != 2#8 && r != 0x0060#13 && r != 0x0061#13 && r.extractLsb' 5 8 != 5#8 && r != 0x00D0#13
  | .tlbiVa _ _ _ => true
  | .tlbiAsid _ _ => true
  | .tlbiAll _ => true
  | .cBrk _ => true
  | .cNop => true
  | .cMov _ _ => true
  | .cAdd _ _ => true
  | .cSub _ _ => true
  | .cAnd _ _ => true
  | .cOr _ _ => true
  | .cXor _ _ => true
  | .cAddi _ _ => true
  | .cLi _ _ => true
  | .cShiShl _ _ => true
  | .cShiShr _ _ => true
  | .cShiSar _ _ => true
  | .cLd d b _ => (d.extractLsb' 3 2 == 1#2) && (b.extractLsb' 3 2 == 1#2)
  | .cSt d b _ => (d.extractLsb' 3 2 == 1#2) && (b.extractLsb' 3 2 == 1#2)
  | .cLdg d b _ => (d.extractLsb' 3 2 == 1#2) && (b.extractLsb' 3 2 == 1#2)
  | .cStg d b _ => (d.extractLsb' 3 2 == 1#2) && (b.extractLsb' 3 2 == 1#2)
  | .cBr _ => true
  | .cBccEq x _ => (x.extractLsb' 3 2 == 1#2)
  | .cBccNe x _ => (x.extractLsb' 3 2 == 1#2)
  | .cRet => true
  | .cJr _ => true
  | .cCallr _ => true
  | .cYield => true
  | .cEnd => true
  | .cTcut => true
  | .cVaddF32 _ _ => true
  | .cVmulF32 _ _ => true
  | .cVmov _ _ => true
  | .cVld _ _ => true
  | .cVst _ _ => true
  | .cBpAny _ _ => true
  | .cwrCmode _ => true
  | .cwrWsp _ => true
  | .cwrLayout _ _ => true
  | .cwrSplit _ => true
  | .cwrVpool _ => true
  | .cwrClass _ _ => true
  | .cwrVmroot _ => true
  | .supervisorWake _ => false
  | .blockedIntervalEnd _ _ => false
  | .forfeitEnd _ _ => false
  | .normaliserService _ => false
  | .queueRegisterUnblock _ _ => false
  | .waitRelease _ _ => false
  | .waitLimitExpiry _ _ => false
  | .helperTaken _ _ => false
  | .taskLaneRetire _ => false
  | .remoteAccessPerform _ _ => false
  | .remoteStorePerform _ _ => false
  | .vectorRemoteChecks _ _ => false
  | .parkedRequestServe _ => false
  | .parkRefusalRetry _ _ => false
  | .evictionRetryResend _ _ => false
  | .commitGrant _ _ => false
  | .localCommit _ _ => false
  | .trumpAdmission _ => false
  | .homeLineRequest _ _ _ => false
  | .probeTimeout _ _ => false
  | .leaseGrant _ _ => false
  | .leaseExpiry _ _ _ => false
  | .farAtomicPerform _ _ => false
  | .farAtomicReply _ _ _ => false
  | .capStateChange _ _ => false
  | .capQryWaitRelease _ _ => false
  | .matrixRequestStart _ => false
  | .matrixRequestComplete _ => false
  | .mxwdogExpiry _ => false
  | .uncorrectableSoftError _ _ _ => false
  | .scanRequestStart _ => false
  | .scanRequestComplete _ => false
  | .chainPostPerform _ _ => false
  | .chainDelivery _ => false
  | .chainWaitPerform _ _ => false
  | .barrierArrival _ _ => false
  | .semaphoreAtHome _ _ => false
  | .syncWaiterAnswer _ _ _ => false
  | .wakeListRetry _ _ => false
  | .sliceQueueOp _ _ => false
  | .messageArrival _ _ => false
  | .sendReply _ _ _ => false
  | .granuleRead _ _ => false
  | .granuleWrite _ _ => false
  | .jobEnd _ _ => false
  | .gathScatRow _ _ => false
  | .streamStripFill _ _ _ => false
  | .streamStripWrite _ _ _ => false
  | .cpyStatWaitRelease _ _ => false
  | .trapRecordEnqueue _ => false
  | .pageWalk _ _ => false
  | .tlbiComplete _ _ => false
  | .pageGrant _ _ _ => false
  | .pageRevocation _ => false
  | .malformedDealRemoval _ => false
  | .dealPlacement _ => false
  | .launchCompletion _ => false
  | .pendingInterruptSend _ _ => false
  | .preemption _ => false
  | .coreResume _ _ => false
  | .budgetPeriodStart => false
  | .trapEntry _ _ => false
  | .lockstepMismatch _ _ => false
  | .machineCheck _ => false
  | .heartbeatMiss _ => false
  | .coreRepair _ _ => false
  | .quiesce _ => false
  | .quiesceDone => false
  | .quiesceLimitExpiry => false
  | .resume _ => false
  | .merge _ => false
  | .split _ => false
  | .treset _ => false
  | .tchange _ => false
  | .tchangeDone => false
  | .partRegisterWrite _ _ _ => false
  | .vfRegisterWrite _ _ => false
  | .xpRegisterWrite _ _ => false
  | .podRegisterWrite _ _ => false
  | .bclassWrite _ _ _ => false
  | .lsclassWrite _ => false
  | .pwrctlWrite _ => false
  | .dpctlWrite _ _ => false
  | .hubRegisterWrite _ _ => false
  | .doorbellWrite _ _ _ _ => false
  | .doorbellTrigger _ _ => false
  | .doorbellStatusRead _ _ _ => false
  | .hostPostedWrite _ _ _ => false
  | .hostRead _ _ _ => false
  | .ideFailure _ _ => false
  | .spdmAttestation _ _ => false
  | .debugUnlock _ _ _ => false
  | .fabricRequestArrival _ _ _ => false
  | .fabricRetransmit _ _ => false
  | .secondTierTimeout _ => false
  | .expanderLinkDown _ => false
  | .expanderLinkTrained _ => false
  | .thermalSample _ _ _ => false
  | .agentGate _ => false
  | .agentSleep _ => false
  | .agentWake _ => false
  | .coldReset _ _ => false
  | .warmReset _ => false
  | .firmwareUpdate _ _ => false
  | .recoveryLoad _ _ => false
  | .partitionOpComplete => false
  | .hostLoadReply _ _ _ => false
  | .fabricAcknowledgement _ _ => false

end Sys2Proof
end

