-- ==== Sys2Proof/Machine/Num.lean ====
section
/-! DEFINITION. Number formats, exact values and the one rounding (R63 to R82, R88 to R92). -/

namespace Sys2Proof.Machine

/-- The flags of one operation, as the low bits of CFLAGS (R83): NX 0, UF 1, OF 2, DZ 3, NV 4, SA 5, QO 6. -/
abbrev Flags := BitVec 7

def flagNX : Flags := 1#7
def flagUF : Flags := 2#7
def flagOF : Flags := 4#7
def flagDZ : Flags := 8#7
def flagNV : Flags := 16#7
def flagSA : Flags := 32#7
def flagQO : Flags := 64#7

/-- A binary format: exponent width, fraction width and bias (R63). -/
structure Fmt where
  ebits : Nat
  fbits : Nat
  bias : Nat
  deriving DecidableEq, Repr

def fmtF16 : Fmt := ⟨5, 10, 15⟩
def fmtBf16 : Fmt := ⟨8, 7, 127⟩
def fmtF32 : Fmt := ⟨8, 23, 127⟩
def fmtF64 : Fmt := ⟨11, 52, 1023⟩
def fmtF19 : Fmt := ⟨8, 10, 127⟩
/-- The format of the `.a` forms (R87). -/
def fmtP12 : Fmt := ⟨8, 11, 127⟩

/-- The format of a floating-point element type (R63). -/
def fmtOf : ElemType → Fmt
  | .f16 => fmtF16 | .bf16 => fmtBf16 | .f64 => fmtF64 | .f19 => fmtF19 | _ => fmtF32

/-- The exponent of the smallest normal magnitude. -/
def Fmt.emin (f : Fmt) : Int := 1 - (f.bias : Int)

/-- The position of the sign bit. -/
def Fmt.signPos (f : Fmt) : Nat := f.ebits + f.fbits

/-- The canonical NaN (R63). -/
def Fmt.canonNaN (f : Fmt) : Nat := (2 ^ f.ebits - 1) * 2 ^ f.fbits + 2 ^ (f.fbits - 1)

/-- Infinity of a sign. -/
def Fmt.infBits (f : Fmt) (neg : Bool) : Nat := (if neg then 2 ^ f.signPos else 0) + (2 ^ f.ebits - 1) * 2 ^ f.fbits

/-- The greatest finite magnitude. -/
def Fmt.maxBits (f : Fmt) : Nat := (2 ^ f.ebits - 1) * 2 ^ f.fbits - 1

/-- An exact extended real: a NaN, an infinity, or (-1)^neg × m × 2^e, zeros keeping their sign (R64, R92). -/
inductive Val where
  | nan
  | inf (neg : Bool)
  | fin (neg : Bool) (m : Nat) (e : Int)
  deriving DecidableEq, Repr

/-- The value of a bit pattern (R64). -/
def Fmt.value (f : Fmt) (b : Nat) : Val :=
  let s := b.testBit f.signPos
  let e := b / 2 ^ f.fbits % 2 ^ f.ebits
  let fr := b % 2 ^ f.fbits
  if e = 2 ^ f.ebits - 1 then (if fr = 0 then .inf s else .nan)
  else if e = 0 then .fin s fr (f.emin - f.fbits)
  else .fin s (2 ^ f.fbits + fr) ((e : Int) - f.bias - f.fbits)

/-- Whether a bit pattern is a NaN. -/
def Fmt.isNaN (f : Fmt) (b : Nat) : Bool :=
  b / 2 ^ f.fbits % 2 ^ f.ebits == 2 ^ f.ebits - 1 && b % 2 ^ f.fbits != 0

/-- Whether a bit pattern is a signalling NaN (R64). -/
def Fmt.isSNaN (f : Fmt) (b : Nat) : Bool := f.isNaN b && !b.testBit (f.fbits - 1)

/-- Whether a bit pattern is subnormal (R64). -/
def Fmt.isSubnormal (f : Fmt) (b : Nat) : Bool :=
  b / 2 ^ f.fbits % 2 ^ f.ebits == 0 && b % 2 ^ f.fbits != 0

/-- NV when the pattern is a signalling NaN (R66). -/
def Fmt.sFlag (f : Fmt) (b : Nat) : Flags := if f.isSNaN b then flagNV else 0#7

def Val.isZero : Val → Bool
  | .fin _ 0 _ => true
  | _ => false

def Val.isNeg : Val → Bool
  | .nan => false
  | .inf s => s
  | .fin s _ _ => s

def Val.neg : Val → Val
  | .nan => .nan
  | .inf s => .inf (!s)
  | .fin s m e => .fin (!s) m e

/-- The signed mantissa of a finite value at exponent `e0`, at most the value's own. -/
def Val.mantAt (e0 : Int) : Val → Int
  | .fin s m e => (if s then -1 else 1) * ((m * 2 ^ (e - e0).toNat : Nat) : Int)
  | _ => 0

def Val.expo : Val → Int
  | .fin _ _ e => e
  | _ => 0

/-- A magnitude between m × 2^e and (m + 1) × 2^e: equal to the first when `sticky` is false, strictly between otherwise. -/
structure Mag where
  m : Nat
  e : Int
  sticky : Bool
  deriving DecidableEq, Repr

/-- Whether rounding selects the upper of two grid points (R79, R81), given the part `rem` of `2^k` between them. -/
def selectUp (mode : Rounding) (rnd : Nat) (neg odd : Bool) (rem k : Nat) (sticky : Bool) : Bool :=
  let inexact := rem != 0 || sticky
  match mode with
  | .rz => false
  | .rdn => inexact && neg
  | .rup => inexact && !neg
  | .rne => 2 * rem > 2 ^ k || (2 * rem == 2 ^ k && (sticky || odd))
  | .rna => 2 * rem ≥ 2 ^ k && inexact
  | .rst => rem * 2 ^ 32 / 2 ^ k + rnd ≥ 2 ^ 32

/-- The multiple of 2^q selected for a magnitude, and whether it differs from the magnitude. -/
def pickGrid (mode : Rounding) (rnd : Nat) (neg : Bool) (x : Mag) (q : Int) : Nat × Bool :=
  if x.e ≥ q then (x.m * 2 ^ (x.e - q).toNat, false)
  else
    let k := (q - x.e).toNat
    let lo := x.m / 2 ^ k
    let rem := x.m % 2 ^ k
    (if selectUp mode rnd neg (lo % 2 == 1) rem k x.sticky then lo + 1 else lo, rem != 0 || x.sticky)

/-- Whether overflow gives infinity rather than the largest finite magnitude (R79). -/
def overflowInf (mode : Rounding) (neg : Bool) : Bool :=
  match mode with
  | .rz => false
  | .rdn => neg
  | .rup => !neg
  | _ => true

/-- Round a magnitude of a sign into a format (R79): the result's bits and flags. -/
def roundMag (f : Fmt) (mode : Rounding) (rnd : Nat) (neg : Bool) (x : Mag) : Nat × Flags :=
  let sgn := if neg then 2 ^ f.signPos else 0
  if x.m = 0 ∧ x.sticky = false then (sgn, 0#7)
  else
    let top := x.e + (x.m.log2 : Int)
    let l := if top < f.emin then f.emin else top
    let q := l - f.fbits
    let (n, inexact) := pickGrid mode rnd neg x q
    if (l > f.bias ∨ (l = f.bias ∧ n ≥ 2 ^ (f.fbits + 1))) then
      (if overflowInf mode neg then f.infBits neg else sgn + f.maxBits, flagOF ||| flagNX)
    else
      let tiny :=
        if top < f.emin then
          let (n', _) := pickGrid mode rnd neg x (top - f.fbits)
          !(n' ≥ 2 ^ (f.fbits + 1) && top + 1 == f.emin) && n' != 0
        else false
      (sgn + ((q + f.fbits + f.bias - 1).toNat * 2 ^ f.fbits + n),
        (if inexact then flagNX else 0#7) ||| (if inexact && tiny then flagUF else 0#7))

/-- Round(v, fmt, mode) on an exact value (R79). -/
def roundVal (f : Fmt) (mode : Rounding) (rnd : Nat) : Val → Nat × Flags
  | .nan => (f.canonNaN, 0#7)
  | .inf s => (f.infBits s, 0#7)
  | .fin s m e => roundMag f mode rnd s ⟨m, e, false⟩

/-- An exact product (R80, R92). -/
def mulVal : Val → Val → Val × Flags
  | .nan, _ => (.nan, 0#7)
  | _, .nan => (.nan, 0#7)
  | .inf s, .inf t => (.inf (s != t), 0#7)
  | .inf s, .fin t m _ => if m = 0 then (.nan, flagNV) else (.inf (s != t), 0#7)
  | .fin t m _, .inf s => if m = 0 then (.nan, flagNV) else (.inf (s != t), 0#7)
  | .fin s m e, .fin t n g => (.fin (s != t) (m * n) (e + g), 0#7)

/-- An exact sum (R80, R92), which raises NV where it holds both infinities, beside a NaN too: the sign of an exact zero follows the terms when they are zeros of one sign, and the mode
otherwise. -/
def sumVal (mode : Rounding) (xs : List Val) : Val × Flags :=
  let pos := xs.any (· == .inf false)
  let neg := xs.any (· == .inf true)
  if pos && neg then (.nan, flagNV)
  else if xs.any (· == .nan) then (.nan, 0#7)
  else
    if pos then (.inf false, 0#7)
    else if neg then (.inf true, 0#7)
    else
      let e0 : Int := xs.foldl (fun a x => if x.isZero then a else min a x.expo) 1024
      let t : Int := xs.foldl (fun a x => if x.isZero then a else a + x.mantAt e0) 0
      if t = 0 then
        let zeros := xs.all Val.isZero
        if zeros && xs.all (fun x => !x.isNeg) then (.fin false 0 0, 0#7)
        else if zeros && xs.all Val.isNeg then (.fin true 0 0, 0#7)
        else (.fin (mode == .rdn) 0 0, 0#7)
      else (.fin (t < 0) t.natAbs e0, 0#7)

/-- The quotient of two finite non-zero magnitudes, to 100 bits or more. -/
def divMag (m : Nat) (e : Int) (n : Nat) (g : Int) : Mag :=
  let k := n.log2 + 100
  ⟨m * 2 ^ k / n, e - g - k, m * 2 ^ k % n != 0⟩

/-- The integer square root by its binary digits, from digit `k` down. -/
def isqrtAux (x : Nat) : Nat → Nat → Nat
  | 0, r => r
  | k + 1, r => let r' := r + 2 ^ k; isqrtAux x k (if r' * r' ≤ x then r' else r)

/-- The integer square root. -/
def isqrt (x : Nat) : Nat := isqrtAux x (x.log2 / 2 + 1) 0

/-- The square root of a finite non-zero magnitude, to 100 bits or more. -/
def sqrtMag (m : Nat) (e : Int) : Mag :=
  let k : Nat := if (e % 2 == 0) then 220 else 221
  let x := m * 2 ^ k
  let r := isqrt x
  ⟨r, (e - k) / 2, r * r != x⟩

/-- Round a value with an operation's own flags joined. -/
def roundWith (f : Fmt) (mode : Rounding) (rnd : Nat) (r : Val × Flags) : Nat × Flags :=
  let (b, fl) := roundVal f mode rnd r.1
  (b, fl ||| r.2)

/-- VADD, VSUB and the like on one pair of elements (R162, R164). -/
def fAdd (f : Fmt) (mode : Rounding) (rnd a b : Nat) : Nat × Flags :=
  let (r, fl) := roundWith f mode rnd (sumVal mode [f.value a, f.value b])
  (r, fl ||| f.sFlag a ||| f.sFlag b)

def fSub (f : Fmt) (mode : Rounding) (rnd a b : Nat) : Nat × Flags :=
  let (r, fl) := roundWith f mode rnd (sumVal mode [f.value a, (f.value b).neg])
  (r, fl ||| f.sFlag a ||| f.sFlag b)

def fMul (f : Fmt) (mode : Rounding) (rnd a b : Nat) : Nat × Flags :=
  let (r, fl) := roundWith f mode rnd (mulVal (f.value a) (f.value b))
  (r, fl ||| f.sFlag a ||| f.sFlag b)

/-- a × b + c with a single rounding. -/
def fFma (f : Fmt) (mode : Rounding) (rnd a b c : Nat) : Nat × Flags :=
  let (p, fp) := mulVal (f.value a) (f.value b)
  let (r, fl) := roundWith f mode rnd (sumVal mode [p, f.value c])
  (r, fl ||| fp ||| f.sFlag a ||| f.sFlag b ||| f.sFlag c)

/-- Division (R164). -/
def fDiv (f : Fmt) (mode : Rounding) (rnd a b : Nat) : Nat × Flags :=
  let s := f.sFlag a ||| f.sFlag b
  match f.value a, f.value b with
  | .nan, _ => (f.canonNaN, s)
  | _, .nan => (f.canonNaN, s)
  | .inf _, .inf _ => (f.canonNaN, s ||| flagNV)
  | .inf x, .fin y _ _ => (f.infBits (x != y), s)
  | .fin x _ _, .inf y => (if x != y then 2 ^ f.signPos else 0, s)
  | .fin x m e, .fin y n g =>
    if n = 0 then
      (if m = 0 then (f.canonNaN, s ||| flagNV) else (f.infBits (x != y), s ||| flagDZ))
    else if m = 0 then (if x != y then 2 ^ f.signPos else 0, s)
    else let (r, fl) := roundMag f mode rnd (x != y) (divMag m e n g); (r, fl ||| s)

/-- Square root (R164). -/
def fSqrt (f : Fmt) (mode : Rounding) (rnd a : Nat) : Nat × Flags :=
  match f.value a with
  | .nan => (f.canonNaN, f.sFlag a)
  | .inf s => if s then (f.canonNaN, flagNV) else (f.infBits false, 0#7)
  | .fin s m e =>
    if m = 0 then (a, 0#7)
    else if s then (f.canonNaN, flagNV)
    else roundMag f mode rnd false (sqrtMag m e)

/-- Compare two values that are no NaN. -/
def cmpVal (a b : Val) : Ordering :=
  match a, b with
  | .inf s, .inf t => if s == t then .eq else if s then .lt else .gt
  | .inf s, _ => if s then .lt else .gt
  | _, .inf t => if t then .gt else .lt
  | .fin _ _ _, .fin _ _ _ =>
    let e0 := min a.expo b.expo
    compare (a.mantAt e0) (b.mantAt e0)
  | _, _ => .eq

/-- VMIN (`least`) and VMAX on one pair: −0 is less than +0, a NaN gives the canonical NaN (R164). -/
def fMinMax (f : Fmt) (least : Bool) (a b : Nat) : Nat × Flags :=
  let s := f.sFlag a ||| f.sFlag b
  if f.isNaN a || f.isNaN b then (f.canonNaN, s)
  else
    let lt := match cmpVal (f.value a) (f.value b) with
      | .lt => true
      | .gt => false
      | .eq => (f.value a).isNeg
    (if lt == least then a else b, s)

/-- Round to an integral value in the format (R165). -/
def fRint (f : Fmt) (mode : Rounding) (rnd a : Nat) : Nat × Flags :=
  match f.value a with
  | .nan => (f.canonNaN, f.sFlag a)
  | .inf _ => (a, 0#7)
  | .fin s m e =>
    if m = 0 then (a, 0#7)
    else
      let (n, ix) := pickGrid mode rnd s ⟨m, e, false⟩ 0
      let (r, _) := roundMag f .rne 0 s ⟨n, 0, false⟩
      (r, if ix then flagNX else 0#7)

/-- The exact integer an element stands for (R75). -/
def intOf (t : ElemType) (x : Nat) : Int :=
  match t with
  | .i8 | .i16 | .i32 | .i64 => if x ≥ 2 ^ (t.width - 1) then (x : Int) - 2 ^ t.width else x
  | _ => x

/-- The least and greatest value of an integer type (R75). -/
def intMin (t : ElemType) : Int := match t with
  | .i8 | .i16 | .i32 | .i64 => -(2 ^ (t.width - 1) : Int)
  | _ => 0
def intMax (t : ElemType) : Int := match t with
  | .i8 | .i16 | .i32 | .i64 => 2 ^ (t.width - 1) - 1
  | _ => 2 ^ t.width - 1

/-- An exact integer brought into a type (R76). -/
def intInto (t : ElemType) (sat : Bool) (v : Int) : Nat × Flags :=
  let wrap (x : Int) : Nat := (x % (2 ^ t.width : Int)).toNat
  if sat && v < intMin t then (wrap (intMin t), flagSA)
  else if sat && v > intMax t then (wrap (intMax t), flagSA)
  else (wrap v, 0#7)

/-- Conversion from a floating-point value to an integer type (R77). -/
def fToInt (t : ElemType) (sat : Bool) (mode : Rounding) (rnd : Nat) (f : Fmt) (a : Nat) : Nat × Flags :=
  match f.value a with
  | .nan => (0, flagNV)
  | .inf s => ((intInto t false (if s then intMin t else intMax t)).1, flagNV)
  | .fin s m e =>
    let (n, ix) := pickGrid mode rnd s ⟨m, e, false⟩ 0
    let v : Int := if s then -(n : Int) else n
    if v < intMin t ∨ v > intMax t then
      let (r, fl) := intInto t sat v
      (r, fl ||| flagNV)
    else ((intInto t false v).1, if ix then flagNX else 0#7)

/-- An integer as an exact value. -/
def valOfInt (v : Int) : Val := .fin (v < 0) v.natAbs 0

/-- Convert(x, S, T) of VCVT (R76 to R78, R172). -/
def convert (st tt : ElemType) (sat : Bool) (mode : Rounding) (rnd x : Nat) : Nat × Flags :=
  if st.isInt then
    if tt.isInt then intInto tt sat (intOf st x)
    else roundVal (fmtOf tt) mode rnd (valOfInt (intOf st x))
  else
    let f := fmtOf st
    let y := if st == .f19 then x % 2 ^ 19 else x
    if tt.isInt then fToInt tt sat mode rnd f y
    else
      let (r, fl) := roundVal (fmtOf tt) mode rnd (f.value y)
      (r, fl ||| f.sFlag y)

/-- Rotate a 32-bit number left. -/
def rotL32 (x : BitVec 32) (n : Nat) : BitVec 32 := (x <<< (n % 32)) ||| (x >>> ((32 - n % 32) % 32))

/-- Shuf64 (R88), from round `i` on. -/
def shufRounds (key : BitVec 64) : Nat → Nat → BitVec 32 → BitVec 32 → BitVec 64
  | 0, _, a, b => a ++ b
  | r + 1, i, a, b =>
    let k := (key.extractLsb' 0 32 + BitVec.ofNat 32 (i * 0x9E3779B9)) ^^^ rotL32 (key.extractLsb' 32 32) (5 * i % 32)
    let a := (rotL32 a 24 + b) ^^^ k
    shufRounds key r (i + 1) a (rotL32 b 3 ^^^ a)

/-- The keyed bijection of 64-bit words (R88). -/
def shuf64 (key x : BitVec 64) : BitVec 64 := shufRounds key 12 0 (x.extractLsb' 32 32) (x.extractLsb' 0 32)

/-- The rounds of ShufK (R89). -/
def shufKRounds (key : BitVec 64) (lw hw : Nat) : Nat → Nat → Nat → Nat → Nat
  | 0, _, a, b => a * 2 ^ lw + b
  | r + 1, i, a, b =>
    if i % 2 = 0 then
      shufKRounds key lw hw r (i + 1)
        (Nat.xor a ((shuf64 (key + BitVec.ofNat 64 i) (BitVec.ofNat 64 b)).toNat % 2 ^ 32 % 2 ^ hw)) b
    else
      shufKRounds key lw hw r (i + 1) a
        (Nat.xor b ((shuf64 (key + BitVec.ofNat 64 i) (BitVec.ofNat 64 a)).toNat % 2 ^ 32 % 2 ^ lw))

/-- The keyed bijection on 2^k values (R89). -/
def shufK (key x : BitVec 64) (k : Nat) : BitVec 64 :=
  if k = 64 then shuf64 key x
  else
    let lw := k / 2
    let y := x.toNat % 2 ^ k
    BitVec.ofNat 64 (shufKRounds key lw (k - lw) 8 0 (y / 2 ^ lw) (y % 2 ^ lw))

/-- Rnd32(ei) (R82). -/
def rnd32 (seed : BitVec 64) (lane ctx : Nat) (retire : BitVec 64) (ei : Nat) : Nat :=
  (shuf64 (seed + 0x9E3779B97F4A7C15#64 * BitVec.ofNat 64 (16 * lane + ctx))
    (BitVec.ofNat 64 (retire.toNat % 2 ^ 50 * 2 ^ 14 + ei))).toNat % 2 ^ 32

end Sys2Proof.Machine
end

