-- ==== Sys2Proof/Config.lean ====
section
/-! DEFINITION. What this implementation fixes (R21, R22, R529 and the rules named) and the free values. -/

namespace Sys2Proof

/-- The bits of a 1,024-bit signature that name one line (R217): the hash is implementation-specific and the spec gives
none, so nothing is known of it. [free value, log 7] -/
opaque Config.lineSig : Nat → BitVec 1024

/-- Attestation measurements, signatures and keys are numbers the spec gives no value for (R459, R460). [free value, log 14] -/
opaque Config.measurement : Nat → BitVec 384

/-- The ECDSA signature of a report under a key that never leaves the part, by the count of free values (R460). [free value, log 14] -/
opaque Config.signature : Nat → BitVec 768

/-- What HOST_READ finds of a line of device memory: AES-256 in XTS mode of its 64 bytes, under the key of a die (0 to 3, or 4 for the second
tier), a partition and a generation, with the line's physical address as the tweak. No agent can read a key (R459). [free value, log 14] -/
opaque Config.cipher (die part generation line : Nat) (data : List (BitVec 8)) : BitVec 512

/-- Which package numbers the fabric of the pod connects (R407, R471): the wiring, of which the spec says nothing. [free value, log 40] -/
opaque Config.connected : Nat → Bool

/-- A byte of the parts of a save slot whose arrangement is implementation-specific, by the count of free values and its offset (R421).
[free value, log 15] -/
opaque Config.slotByte : Nat → Nat → BitVec 8

/-- Whether a stopped core's state is read out without uncorrectable errors and passes self-test (R445). [free value, log 15] -/
opaque Config.selfTest : Nat → Bool

/-- Reads that lost their bank of the vector registers since its counter was last read (R139, R140): the pipeline that loses them is not
described. [free value, log 62] -/
opaque Config.lostReads : Nat → BitVec 48

/-- Vector width in bits (R1). -/
def Config.W : Nat := 2048
/-- Local store of a core, in bytes (R184). -/
def Config.localBytes : Nat := 262144
/-- Speculative lines, undo words, signature bits of a trick (R213, R197). -/
def Config.specLines : Nat := 512
def Config.undoWords : Nat := 1024
def Config.sigLimit : Nat := 384
/-- Unloaded commit latency within a die and across the package (R220). -/
def Config.commitDie : Nat := 80
def Config.commitPkg : Nat := 200
/-- Unloaded home latency on the issuer's die and on another die (R529). -/
def Config.homeDie : Nat := 40
def Config.homePkg : Nat := 120
/-- Further ticks for a line read from memory (R529). -/
def Config.memory : Nat := 300
/-- Ticks of a budget period (R423). -/
def Config.period : Nat := 10500
/-- Entries of a de-duplication window, writes of the host in flight, and grants of pages (R26). -/
def Config.window : Nat := 4096
def Config.postedWindow : Nat := 256
def Config.grantTable : Nat := 32768
/-- Ticks in a microsecond. -/
def Config.microsecond : Nat := 1050
/-- Depth of a queue register and of a stream (R135, R393). -/
def Config.queueDepth : Nat := 8
def Config.streamDepth : Nat := 4
/-- Entries of the L1 TLB and of the quad TLB (R403). -/
def Config.l1Tlb : Nat := 64
def Config.quadTlb : Nat := 1024
/-- Table entries of a die's walk cache (R403), of which the spec gives no number. [DESIGN CHOICE, log 8] -/
def Config.walkCache : Nat := 1024
/-- The number that stands for the hub in place of a core index (R480). -/
def Config.hub : Nat := 4096

end Sys2Proof
end

