-- ==== Sys2Proof/Machine/State.lean ====
section
/-! DEFINITION. The state of one package as plain data, and its reset value (INVENTORY.md, State). -/

namespace Sys2Proof.Machine

/-- A sparse table by number, keys rising; what an unlisted key holds is said by each reader. -/
abbrev Tab (α : Type) := List (Nat × α)

/-- The trap causes (R432), in the order of their codes 0x01 to 0x24. -/
inductive Cause where
  | illegal | breakpoint | trap | translation | misalignedTarget | misaligned | misalignedWorkspace | localAddress
  | outsideScratchpad | remoteBoundary | retryLimit | operandRange | timing | repeatCount | privileged | capability
  | claimOutside | leaseTarget | atomicTarget | atomicScope | splitBusy | streamDirection | streamEnd | streamBusy
  | matrixNotGranted | tableNotEncodable | tileBusy | operandError | chainNotGranted | syncScope | syncState
  | queueBound | messageClass | noMessage | footprint | copyError
  deriving DecidableEq, Repr

/-- What a trap record carries beside the unit and the context (R431). -/
structure TrapInfo where
  cause : Cause
  detail : BitVec 8 := 0#8
  addr : Word := 0#64
  aux : Word := 0#64
  deriving DecidableEq, Repr

/-- The unit a context is issuing or waits on: its address, size, word or zero-extended halfword, and prefix word (R29). -/
structure UnitInfo where
  addr : Word
  size : Nat
  word : BitVec 32
  pre : Option (BitVec 32)
  deriving DecidableEq, Repr

/-- REP state (R107, R123): the REP word and address, the captured-unit index, the pass in progress and the passes still
to start after it. -/
structure RepState where
  word : BitVec 32
  addr : Word
  index : Nat
  pass : Nat
  remaining : Nat
  deriving DecidableEq, Repr

/-- A register shadow (R134, R152): the bytes of g1 to g31 and p1 to p7, the vector registers, and the rest. -/
structure Shadow where
  ws : List Host.Cell
  v : Tab Vec
  pc : Word
  cmode : Word
  cflags : Word
  retire : Word
  rep : Option RepState
  deriving DecidableEq, Repr

/-- One filled or pushed strip of a stream (R156, R393): its index in the stream, contents, predicate, the fault met while filling it, and
whether its writing has begun (R385); bytes that have been written leave the predicate. -/
structure Strip where
  index : Nat
  data : Vec
  pred : Pred
  fault : Option TrapInfo := none
  begun : Bool := false
  deriving DecidableEq, Repr

/-- A page as a TLB or a table entry gives it (R400, R403): space, first virtual page, level, 4 KiB pages, physical address
and permissions. -/
structure TlbEntry where
  asid : BitVec 16
  va : Nat
  level : Nat
  bytes : Nat
  pa : Nat
  g : Bool
  x : Bool
  w : Bool
  deriving DecidableEq, Repr

/-- A trick (R212 to R224): running, or ended and pending; its age, how often it was squashed and whether it is the active trump; the ticks
in which its last unit retired, in which it ended, and in which its commit request is decided. -/
structure Trick where
  units : Nat := 0
  start : Option Shadow := none
  age : Option Nat := none
  squashes : Nat := 0
  trump : Bool := false
  last : Nat := 0
  ended : Nat := 0
  due : Nat := 0
  rsig : BitVec 1024 := 0#1024
  wsig : BitVec 1024 := 0#1024
  rlines : List Nat := []
  wlines : List Nat := []
  writes : Tab Byte := []
  hostWrites : List (Nat × List Byte) := []
  undo : List (Nat × Word) := []
  loads : List Nat := []
  stores : List Nat := []
  pops : List (Nat × Word) := []
  pushes : List (Nat × Word) := []
  stripPops : List (Nat × Strip) := []
  stripPushes : List (Nat × Strip) := []
  used : List TlbEntry := []
  deriving DecidableEq, Repr

/-- Why a context is BLOCKED (R97), with the condition that ends the wait. -/
inductive Wait where
  | commit
  | trapEntry (t : TrapInfo)
  | queueReg (pops pushes : List Nat)
  | touch (loads stores : List Nat)
  | accepted
  | farFull | farReg (d : Nat) | farDrain (ordOnly : Bool)
  | line (l : Nat) (own : Bool)
  | walk (va : Nat)
  | capWord (page : Nat)
  | hostLoad (pa : Nat)
  | interval (til : Nat)
  | normaliser
  | helper (h : Nat)
  | tasks
  | helpers (mask : BitVec 11) (limit : Option Nat) (d : GReg)
  | reply
  | unitReq
  | tileBusy (n fmt : Nat) (tile : TReg) (s2 s1 : GReg)
  | lease (slot : Nat)
  | cap
  | trump
  | strip (k : Nat) | strmOff (k : Nat)
  | channel (ch : Nat)
  | copyStat (ch : Nat) (id : BitVec 48) (d : GReg)
  | tlbi
  | chain
  | meter (m : Nat)
  | podRelease
  deriving DecidableEq, Repr

/-- The life of a context (R97). -/
inductive Life where
  | idle | ready
  | blocked (w : Wait)
  | forfeit (n : Nat)
  | matrix
  | parked
  deriving DecidableEq, Repr

/-- A lease slot (R250 to R257): the line, as the program names it and at its physical address, the grant tick once
granted, the duration, and whether it was ended. -/
structure Lease where
  va : Nat
  pa : Nat
  grant : Option Nat
  dur : Nat
  ended : Bool
  deriving DecidableEq, Repr

/-- An entry of the far-operation queue (R259 to R264): the unit it came from with its REP state, the queue register that its d names (R52),
the package and number under which it was
sent to another package, with the translation used then and whether it has been removed since (R407), the fault of a refusal by that package,
`old` once performed, the fault found at its turn, and once its turn has come the tick in which it, or then its reply, is there (R529). -/
structure FarEntry where
  op : Nat
  addr : Word
  v : Word
  c : Word
  ord : Bool
  pod : Bool
  d : GReg
  unit : UnitInfo
  retire : Word
  rep : Option RepState
  queue : Option Nat
  seq : Nat
  sent : Option (Nat × BitVec 32) := none
  used : Option TlbEntry := none
  stale : Bool := false
  refused : Option TrapInfo := none
  old : Option (Word × BitVec 7) := none
  fault : Option TrapInfo := none
  due : Option Nat := none
  deriving DecidableEq, Repr

/-- A stream (R392 to R394): direction, local-store form, base, counts and strides by dimension, next strip to fill or to be
pushed, filled strips or committed strips not yet written, the bytes read of the next strip to fill, and whether it ended with an error. -/
structure Stream where
  out : Bool
  ls : Bool
  base : Word
  dims : List (Nat × Int)
  next : Nat
  buf : List Strip
  part : List Byte := []
  err : Bool
  root : Word
  hostWait : Option Nat := none
  hostData : List (Nat × Word) := []
  deriving DecidableEq, Repr

/-- What a remote local-store access does at its owner (R193, R207 to R210). -/
inductive RemoteOp where
  | load (n : Nat) (sx : Bool) | store (n : Nat) (v : Word) | xch (n : Nat) (sx : Bool) (v : Word)
  | ldfe | stfe (v : Word) | feSet | feClr | feQry | ldff
  deriving DecidableEq, Repr

/-- What a queue request does at its slice (R358, R359). -/
inductive QueueOp where
  | qinit (w : Word) | enq (e : List Byte) | deq (buffer : Option Nat) (poll : Bool)
  deriving DecidableEq, Repr

/-- The elements of a vector access that lie in one core's scratchpad, each with its address, which that owner gets as one request; the
refusals of that request in a row, and whether it is parked there (R200, R528). -/
structure VecGroup where
  owner : Nat
  elems : List (Nat × Word)
  refusals : Nat := 0
  parked : Bool := false
  deriving DecidableEq, Repr

/-- A store that an owner has accepted and not performed yet: where, how many bytes, and what; whether it is held for a trick there, with an
entry of the parking table or not, and the tick in which that trick was found gone (R194, R196, R199). -/
structure Accepted where
  owner : Nat
  off : Nat
  bytes : Nat
  value : Word
  held : Bool := false
  entry : Bool := false
  free : Option Nat := none
  deriving DecidableEq, Repr

/-- A request at the matrix unit (R284), with what it latched at issue (R285, R299). -/
inductive MatrixReq where
  | tcfg (m n : Nat)
  | trel (mask : BitVec 4)
  | dtld (t src : Nat)
  | dtldStd (t : Nat) (k : StdTable)
  | fctx (w : Word)
  | fctxRd (d : GReg)
  | tldb (src off n : Nat)
  | mma (tile : Nat) (z : Bool) (v : Option Nat) (d0 d1 d2 fmt : Word)
  | tqnt (tile : Nat) (coff soff : Nat) (fmt : Word)
  deriving DecidableEq, Repr

/-- A request whose reply its context awaits, BLOCKED (R190, R260, R341, R359, R364). Of a vector access it holds the groups not performed
yet and the register's data, in a load with the elements that have come; of a capability operation, the answer that has come while copies of
the region's state are still being brought up to date (R266); a matrix request before its charge (R424); and an answer, or a trap, that is on
its way back. -/
inductive Request where
  | remote (op : RemoteOp) (owner off : Nat) (mbox : Bool) (d : GReg) (refusals : Nat)
  | vec (store : Bool) (d : VReg) (p : PReg) (t : ElemType) (groups : List VecGroup) (data : Vec)
  | sync (op : SyncOp) (scope : Scope) (pkg core index : Nat) (d : GReg)
  | queue (op : QueueOp) (q : Nat) (d : GReg)
  | cap (op : CapOp) (page bytes va : Nat) (d : GReg) (answer : Option PeerReply)
  | chainPost (a m : Nat) (d : GReg)
  | chainWait (a cap : Nat) (d : GReg)
  | send (pkg core : Nat) (msg : MessageData) (d : GReg)
  | lease (slot : Nat) (d : GReg)
  | tlbi (kind : Nat) (va asid : Word) (scope : Scope)
  | answer (d : GReg) (w : Word) (phase : Bool)
  | trapped (c : Cause)
  | matrix (r : MatrixReq)
  | atUnit
  deriving DecidableEq, Repr

/-- A context (R107 and the rules INVENTORY.md names for each field). After a YIELD, `yield` holds the tick up to which it passes its turns
and the contexts it lets issue first (R113); `tileFree` says that the requests which its TSTC awaited are done (R302), `fetched` holds the translations its unit was fetched through (R407), and `reserve` the queue register that keeps room for the result of a
unit under way (R52). -/
structure Ctx where
  life : Life := .idle
  readyAt : Nat := 0
  pc : Word := 0#64
  wspBlk : BitVec 7 := 0#7
  cmode : Word := 0#64
  cflags : Word := 0#64
  retire : Word := 0#64
  rep : Option RepState := none
  v : Tab Vec := []
  running : Trick := {}
  pending : Option Trick := none
  limit : BitVec 14 := 2048#14
  trumps : BitVec 16 := 0#16
  squash : BitVec 16 := 0#16
  leases : Tab Lease := []
  farq : List FarEntry := []
  streams : Tab Stream := []
  mailbox : Option MessageData := none
  normEnd : Option Nat := none
  interval : Nat := 0
  hostReplies : List (Nat × Word) := []
  accepted : List Accepted := []
  refusals : Nat := 0
  yield : Option (Nat × List Nat) := none
  fetched : List TlbEntry := []
  reserve : Option Nat := none
  tileFree : Bool := false
  req : Option Request := none
  unit : UnitInfo := ⟨0#64, 0, 0#32, none⟩
  deriving DecidableEq, Repr

/-- An entry of the parking table (R199): the requester, the word's byte offset, or a mailbox, and whether it is held for a
trick (R195, R196) rather than for the full/empty bit, with the tick
in which that trick was found gone. -/
structure Parked where
  core : Nat
  ctx : Nat
  off : Nat
  mbox : Bool
  held : Bool
  free : Option Nat := none
  deriving DecidableEq, Repr

/-- A queue register, or a mailbox register of depth 1 (R135, R136): visible entries, oldest first; pending and retained
entries are held by the tricks. -/
abbrev QueueReg := List Word

/-- A barrier object (R342); its held arrivals and waiters are on the home's wake list. -/
structure Barrier where
  scope : BitVec 3 := 0#3
  expected : BitVec 32 := 0#32
  arrived : BitVec 32 := 0#32
  phase : BitVec 16 := 0#16
  pending : BitVec 24 := 0#24
  deriving DecidableEq, Repr

/-- A requester at a synchronisation unit, and an entry of its wake list (R345, R352): who asks, for a peer package its number and the
sequence number, at what scope, for which object, and what. -/
structure Waiter where
  core : Nat
  ctx : Nat
  peer : Option (Nat × BitVec 32)
  scope : Scope
  barrier : Bool
  index : Nat
  op : SyncOp
  deriving DecidableEq, Repr

/-- A record of the trap queue (R431). -/
abbrev TrapRecord := List Byte

/-- A record that parks nothing, waiting at its source (R430): its issuing context, launch and cause. -/
structure WaitingRecord where
  ctx : Nat
  info : TrapInfo
  job : Option (Nat × BitVec 48)
  deriving DecidableEq, Repr

/-- A line of the L1 portion's holdings is kept in the home's directory; a core keeps what its units use (R15 and the rules
INVENTORY.md names). `wrote` and `deposits` hold the words that its own units and that deposits wrote in a tick (R201), and `trapNew` how many records of the trap queue were
enqueued in a tick (R430). -/
structure Core where
  ctxs : Tab Ctx := []
  store : List Host.Cell := []
  empty : List Nat := []
  csteps : BitVec 3 := 2#3
  q : Tab QueueReg := []
  last : Nat := 0
  t0 : Nat := 0
  det : Bool := false
  launch : Option Nat := none
  lane : Nat := 0
  startCount : Nat := 0
  phasePoint : Bool := true
  xbloss : Tab (BitVec 48) := []
  layout : Tab Word := []
  parking : List Parked := []
  wrote : Nat × List Nat := (0, [])
  deposits : Nat × List Nat := (0, [])
  pkRefused : BitVec 32 := 0#32
  fmt : Word := 0x4D0000A99#64
  tables : Tab (Tab Nat) := []
  dtenc : BitVec 8 := 0x95#8
  inuse : BitVec 4 := 0#4
  rows : Nat := 96
  cols : Nat := 128
  tiles : Tab (Tab (BitVec 32)) := []
  sctx : BitVec 6 := 0#6
  barriers : Tab Barrier := []
  sems : Tab (BitVec 32) := []
  wake : List Waiter := []
  cls : Tab Word := []
  clsBefore : Option (Nat × Tab Word) := none
  msgRefused : BitVec 32 := 0#32
  vmroot : Word := 0#64
  svent : Word := 0#64
  svws : Word := 0#64
  trapq : List TrapRecord := []
  trapWait : List WaitingRecord := []
  trapSeq : Nat := 0
  trapNew : Nat × Nat := (0, 0)
  wakeAt : Option Nat := none
  svIdle : Nat := 0
  tlb : List TlbEntry := []
  halting : Option Nat := none
  stopped : Bool := false
  spare : Bool := false
  checker : Bool := false
  mismatch : Tab Nat := []
  gated : Option Nat := none
  asleep : Bool := false
  deriving DecidableEq, Repr

/-- A request at the scan unit (R316); served in order, it finds the scan context of R315. -/
inductive ScanReq where
  | scfg (v : BitVec 6) (d : GReg)
  | stile (t0 t1 : Word)
  | sjoinT (t0 t1 : Word) (ca : Nat)
  | sjoinR (n : Word) (ca ya : Nat)
  deriving DecidableEq, Repr

/-- A queued request with its issuer, the ticks that the watchdog counted, the tick in which it completes once started, and whether
it was repeated (R284, R307, R308). -/
structure Queued (α : Type) where
  core : Nat
  ctx : Nat
  count : Nat := 0
  done : Option Nat := none
  retried : Bool := false
  req : α
  deriving DecidableEq, Repr

/-- A quad (R15, R283, R316, R328, R85, R335, R403). -/
structure Quad where
  matrix : List (Queued MatrixReq) := []
  scan : List (Queued ScanReq) := []
  bsram : List Host.Cell := []
  norm : List (Nat × Nat) := []
  normFree : Nat := 0
  chainBuf : Option (List Byte) := none
  chainFull : Bool := false
  posts : BitVec 16 := 0#16
  waits : BitVec 16 := 0#16
  tlb : List TlbEntry := []
  gated : Option Nat := none
  asleep : Bool := false
  deriving DecidableEq, Repr

/-- A group's registers (R187, R308). -/
structure Group where
  vpool : Word := 0#64
  wdLimit : BitVec 32 := 0x400000#32
  wdFired : Bool := false
  deriving DecidableEq, Repr

/-- A discard-pile entry (R480) as its eight words. -/
abbrev DiscardEntry := List Word

/-- A die: walk cache, and the walks of a tick by tick, ASID and virtual page (R403, R404); discard ring and its control, with how many
entries of cores and of the hub a tick wrote (R480, R481), engine gating with the tick
in which each engine last held a job (R475), its keys' generation, and the partitions that have a key there (R459). -/
structure Die where
  walk : List TlbEntry := []
  walked : List (Nat × BitVec 16 × Nat) := []
  ring : Tab DiscardEntry := []
  next : BitVec 12 := 0#12
  frozen : Bool := false
  events : Nat := 0
  fresh : Nat × Nat × Nat := (0, 0, 0)
  engGated : Tab Nat := []
  engAsleep : List Nat := []
  engLast : Tab Nat := []
  key : Nat := 0
  owners : List Nat := [0]
  spares : Nat := 16
  deriving DecidableEq, Repr

/-- A slice queue (R356), and whether the Dealer has recorded its event of R411. -/
structure SliceQueue where
  en : Bool := false
  host : Bool := false
  noted : Bool := false
  z : BitVec 3 := 0#3
  c : BitVec 4 := 0#4
  items : List (List Byte) := []
  waiters : List (Nat × Nat) := []
  deriving DecidableEq, Repr

/-- A job card as its 32 words (R374). -/
abbrev Card := List Word

/-- What a job does (R374, R390): a copy by its card words, or a gather or scatter by its descriptor words and indices. -/
inductive JobKind where
  | cpy (card : Card)
  | rows (scatter : Bool) (desc : List Word) (idx : List Nat)
  deriving DecidableEq, Repr

/-- A job of a channel (R371 to R386): its issuer, launch, class and VMROOT, what it does, its virtual read and write regions, the
jobs it follows, the next element or row, the elements read whose granules are not written yet, bytes of the current segment read, bytes
still to be subtracted from a barrier, the tick in which a refused signal is sent again, words awaited from and read at the host, whether
it is cancelled, its error code, and whether its record is enqueued. -/
structure Job where
  id : BitVec 48
  core : Nat
  ctx : Nat
  launch : Option Nat
  lane : Nat
  cls : Nat
  det : Bool
  root : Word
  kind : JobKind
  rd : List (Nat × Nat)
  wr : List (Nat × Nat)
  after : List (Nat × BitVec 48)
  pos : Nat := 0
  buf : List (Word × List Byte) := []
  seg : Nat := 0
  owed : Nat := 0
  retryAt : Nat := 0
  hostWait : Option Nat := none
  hostData : List (Nat × Word) := []
  cancelled : Bool := false
  code : Nat := 0
  reported : Bool := false
  deriving DecidableEq, Repr

/-- A copy channel (R371, R372, R384), with the captured error as it stood before the tick in which a unit cleared it (R389). -/
structure Channel where
  next : BitVec 48 := 1#48
  done : BitVec 48 := 0#48
  code : BitVec 3 := 0#3
  codeId : BitVec 48 := 0#48
  before : Option (Nat × BitVec 3 × BitVec 48) := none
  jobs : List Job := []
  endedAhead : List (BitVec 48) := []
  deriving DecidableEq, Repr

/-- A line's directory entry (R246): state O with one agent, state S with its sharers; an unlisted line is in state U. -/
structure DirEntry where
  owner : Option Nat
  sharers : List Nat
  deriving DecidableEq, Repr

/-- An entry of the capability directory (R266): the region's size in bytes and its state; its key is its first 4 KiB page. -/
structure CapEntry where
  bytes : Nat
  cap : CapState
  deriving DecidableEq, Repr

/-- A launch (R408, R416 to R422): its tag, partition, queue and deal, the core of each lane, retired lanes, pre-empted
lanes with what their slots hold beside memory, the status it ends with, and whether it was placed in lock step (R440). -/
structure Launch where
  tag : Nat
  part : Nat
  queue : Nat
  deal : List Byte
  cores : List Nat
  retired : List Nat
  saved : Tab Core
  savedQuads : Tab Quad
  ending : Option Nat
  lock : Bool := false
  deriving DecidableEq, Repr

/-- A budget class (R423 to R425): counts and allotments of HBM, FABRIC, COPY and GRANT, allotments due at the next period,
and the status word's fields. -/
structure Budget where
  count : List Nat := [0, 0, 0, 0]
  a : Word := 0xFFFFFFFFFFFF#64
  b : Word := 0xFFFFFFFFFF#64
  nextA : Word := 0xFFFFFFFFFFFF#64
  nextB : Word := 0xFFFFFFFFFF#64
  periods : BitVec 32 := 0#32
  ovr : BitVec 4 := 0#4
  deriving DecidableEq, Repr

/-- A trick that has a place in a batch of grants (R220, R221): the dies concerned, its lines and its signatures. -/
structure Granted where
  dies : List Nat
  rlines : List Nat
  wlines : List Nat
  rsig : BitVec 1024
  wsig : BitVec 1024
  deriving DecidableEq, Repr

/-- A partition's hub registers, Dealer state (R449, R412, R416, R461, R458, R471), latest batch of grants: its number, its tick and
the tricks in it (R221), and the tick in which its Dealer last placed a deal (R412). -/
structure Part where
  part : Word := 0#64
  pcls : Word := 0#64
  ilv : Word := 6#64
  bnd : Word := 0#64
  pod : Word := 0#64
  lastTag : Nat := 0
  lastQueue : Tab Nat := []
  unlocked : Bool := false
  reports : List (BitVec 256 × Nat) := []
  tierKey : Nat := 0
  batchNo : Nat := 0
  batchAt : Nat := 0
  batch : List Granted := []
  placedAt : Option Nat := none
  deriving DecidableEq, Repr

/-- A doorbell slot (R464): bytes since the last trigger, entries on their way to the slice with who sent each, trigger count, outcome. -/
structure Slot where
  bytes : Tab Byte := []
  sent : List (BitVec 16 × List Byte) := []
  count : BitVec 48 := 0#48
  outcome : BitVec 8 := 0#8
  deriving DecidableEq, Repr

/-- A virtual function (R456, R464, R465). -/
structure Vf where
  reg : Word := 0#64
  drops : BitVec 32 := 0#32
  slots : Tab Slot := []
  deriving DecidableEq, Repr

/-- A grant of a page homed in another package (R405): state, the order of receipt, the core for which it was asked, whose partition holds it
(R19), and its lines that were written here since the home last had them. -/
structure Grant where
  page : Nat
  write : Bool
  seq : Nat
  core : Nat
  dirty : List Nat := []
  deriving DecidableEq, Repr

/-- What the home package knows of one of its pages (R405): the peer with write state, the peers with read state, and those whose answers to
revocations under way are awaited. -/
structure PageHome where
  writer : Option Nat := none
  readers : List Nat := []
  awaited : List Nat := []
  deriving DecidableEq, Repr

/-- A request sent to a peer that awaits its reply (R472): sequence number, target, requester (the hub's own requests for a page
have the number 16 + page in the place of a context), the class that it and its reply are charged to (R473), the request, and
retransmissions. -/
structure Outstanding where
  seq : BitVec 32
  target : Nat
  core : Nat
  ctx : Nat
  cls : Option Nat
  request : PeerRequest
  retries : Nat
  deriving DecidableEq, Repr

/-- A de-duplication window (R472): the numbers received, with the reply once there is one. -/
structure Window where
  base : BitVec 32 := 0#32
  done : List (BitVec 32 × Option PeerReply) := []
  deriving DecidableEq, Repr

/-- What left the package towards the host or a peer. -/
inductive Outgoing where
  | hostWrite (pa : Nat) (bytes : List Byte)
  | hostRead (pa : Nat) (reader : HostReader)
  | reply (requester : BitVec 16) (bytes : List Byte)
  | interrupt (fn : Nat) (vector : BitVec 6)
  | report (part : Nat) (nonce : BitVec 256) (measurement : BitVec 384) (regs : List Word) (signature : BitVec 768)
  | peer (pkg : Nat) (seq : BitVec 32) (r : PeerRequest)
  | peerReply (pkg : Nat) (seq : BitVec 32) (r : PeerReply)
  | ack (pkg : Nat) (upTo : BitVec 32)
  deriving DecidableEq, Repr

/-- The hub (R449 to R482); `refused` holds the partitions and pages whose grants their homes have refused (R471), `owed` the peers' capability
operations whose replies wait for the copies of a region's state, as package, number and page (R266), `port` what waits at the host ports and
the fabric for a FABRIC meter, with its class (R424), `metered` the contexts whose requests wait for a meter, in the order of arrival (R427),
`dealWait` and `dealWords` the word of host memory that a Dealer awaits for a footprint
block and those it has read (R414), `sensors` the junction temperatures last read (R474), `badLines` the lines in which an uncorrectable
error was found (R444), and `boot` the ports and failed cores of a cold reset that waits for an image (R476). -/
structure Hub where
  parts : Tab Part
  pctl : Word := 0x3E80000#64
  opStart : Option (Nat × Nat) := none
  vfs : Tab Vf := []
  xps : Tab Word := []
  podcfg : Word := 0#64
  lsclass : Word := 0#64
  pwrctl : Word := 3#64
  grants : List Grant := []
  grantSeq : Nat := 0
  pageDir : Tab PageHome := []
  refused : List (Nat × Nat) := []
  owed : List (Nat × BitVec 32 × Nat) := []
  port : List (Nat × Outgoing) := []
  metered : List (Nat × Nat) := []
  dealWait : Option Nat := none
  dealWords : List (Nat × Word) := []
  outSeq : Tab (BitVec 32) := []
  outstanding : List Outstanding := []
  windows : Tab Window := []
  pendingIrq : List (Nat × BitVec 6 × Nat) := []
  posted : List (BitVec 16 × HostAddress × List Byte) := []
  stage : Nat := 0
  coolSince : Option Nat := none
  sensors : List Nat := []
  badLines : List Nat := []
  removed : Bool := false
  boot : Option Bringup := none
  tchanges : Nat := 0
  flash : Option Nat := some 0
  sram : Option Nat := none
  running : Option Nat := some 0
  deriving DecidableEq, Repr

/-- The state of the package. `tick`, `turn` (the next core to have its turn in this tick), `cur` (the context whose unit is
performed), `agenda` (what is due, in half ticks: what happens in a tick, then the waits that end in it) and `held` (what waits at the
homes of lines or regions, in the order of arrival) are the model's own [DESIGN CHOICE, log 4]. -/
structure State where
  tick : Nat
  turn : Nat
  cur : Nat × Nat
  agenda : List (Nat × Instr)
  held : List (Instr × List Nat)
  freeCount : Nat
  mem : List Host.Cell
  cores : Tab Core
  quads : Tab Quad
  groups : Tab Group
  dies : Tab Die
  squeues : Tab SliceQueue
  chans : Tab Channel
  dir : Tab DirEntry
  caps : Tab CapEntry
  launches : Tab Launch
  budgets : Tab Budget
  hub : Hub
  out : List Outgoing
  deriving DecidableEq, Repr

/-- Why a step stops without a next state. No meaning of this model stops so: every fault of the spec is taken as a trap, a
machine check or a recorded refusal, in a next state. -/
inductive Fault where
  /-- Power has been removed from the compute dies by a thermal trip (R474) and nothing is due: no step exists until a cold
  reset. Raised by the step. Safe: the machine stops where the hardware does. -/
  | powerRemoved
  deriving DecidableEq, Repr

/-- Why a step has no meaning. -/
inductive Refusal where
  /-- The instruction has no meaning in the model yet. Raised by the arms of Dispatch only. Safe: no claim is made of it. -/
  | notModelled (mnemonic : String)
  deriving DecidableEq, Repr

/-- The junction sensors: those of the dies and of the hub (R474). -/
def Hub.sensor (h : Hub) (n : Nat) : Nat := h.sensors.getD n 0

/-- The hub after cold reset (R449): partition 0 in RUN with every die and class, the others OFF. -/
def Hub.reset : Hub where
  parts := [(0, { part := 0xF11#64, pcls := 0xFFFFFFFFFFFFFFFF#64 }), (1, {}), (2, {}), (3, {})]

/-- The package right after cold reset (R476, R449). -/
def State.reset : State where
  tick := 0
  turn := 0
  cur := (0, 0)
  agenda := [(20999, .budgetPeriodStart)]
  held := []
  freeCount := 0
  mem := []
  cores := []
  quads := []
  groups := []
  dies := []
  squeues := []
  chans := []
  dir := []
  caps := []
  launches := []
  budgets := []
  hub := Hub.reset
  out := []

end Sys2Proof.Machine
end

