-- ==== Sys2Proof/Machine/Tables.lean ====
section
/-! DEFINITION. Sparse tables and byte memories: reading, writing, and their canonical form. -/

namespace Sys2Proof.Machine

/-- The entry of a key. -/
def tabFind {α : Type} : Tab α → Nat → Option α
  | [], _ => none
  | (k, v) :: t, x => if x = k then some v else if x < k then none else tabFind t x

/-- The entry of a key, or a default. -/
def tabGet {α : Type} (t : Tab α) (k : Nat) (d : α) : α := (tabFind t k).getD d

/-- Set the entry of a key, keys rising. -/
def tabSet {α : Type} : Tab α → Nat → α → Tab α
  | [], x, v => [(x, v)]
  | (k, w) :: t, x, v =>
    if x = k then (x, v) :: t else if x < k then (x, v) :: (k, w) :: t else (k, w) :: tabSet t x v

/-- Remove a key. -/
def tabErase {α : Type} : Tab α → Nat → Tab α
  | [], _ => []
  | (k, w) :: t, x => if x = k then t else if x < k then (k, w) :: t else (k, w) :: tabErase t x

/-- Keys strictly rising from above a bound. -/
def keysFrom {α : Type} : Option Nat → Tab α → Bool
  | _, [] => true
  | lo, (k, _) :: t => (match lo with | none => true | some b => decide (b < k)) && keysFrom (some k) t

/-- A table in canonical form. -/
def tabWf {α : Type} (t : Tab α) : Bool := keysFrom none t

/-- A byte memory lists, at strictly rising addresses, exactly the bytes that are not zero: an unlisted address reads as 0.
[DESIGN CHOICE, log 1] -/
def memWf (m : List Host.Cell) : Bool := keysFrom none m && m.all (fun c => c.2 != 0#8)

/-- The canonical form of a byte memory. -/
abbrev Memory.wf (m : List Host.Cell) : Bool := memWf m

/-- The byte at an address. [DESIGN CHOICE, log 1] -/
def memGet (m : List Host.Cell) (a : Nat) : Byte := tabGet m a 0#8

/-- Write one byte, keeping the canonical form. -/
def memSet (m : List Host.Cell) (a : Nat) (b : Byte) : List Host.Cell :=
  if b = 0#8 then tabErase m a else tabSet m a b

/-- `n` bytes from an address on. -/
def memBytes (m : List Host.Cell) : Nat → Nat → List Byte
  | _, 0 => []
  | a, n + 1 => memGet m a :: memBytes m (a + 1) n

/-- Write bytes from an address on. -/
def memPut (m : List Host.Cell) : Nat → List Byte → List Host.Cell
  | _, [] => m
  | a, b :: t => memPut (memSet m a b) (a + 1) t

/-- The number that bytes stand for, low byte first (R7). -/
def ofBytes : List Byte → Nat
  | [] => 0
  | b :: t => b.toNat + 256 * ofBytes t

/-- `n` bytes of a number, low byte first (R7). -/
def toBytes : Nat → Nat → List Byte
  | 0, _ => []
  | n + 1, x => BitVec.ofNat 8 x :: toBytes n (x / 256)

/-- A little-endian number of `n` bytes. -/
def memRead (m : List Host.Cell) (a n : Nat) : Nat := ofBytes (memBytes m a n)

/-- Write a little-endian number of `n` bytes. -/
def memWrite (m : List Host.Cell) (a n x : Nat) : List Host.Cell := memPut m a (toBytes n x)

/-- The 64-bit word at an address. -/
def memWord (m : List Host.Cell) (a : Nat) : Word := BitVec.ofNat 64 (memRead m a 8)

/-- Make `n` bytes from an address on read as 0. -/
def memClear (m : List Host.Cell) (a n : Nat) : List Host.Cell := m.filter fun c => c.1 < a || a + n ≤ c.1

/-- The listed bytes of a range. -/
def memSlice (m : List Host.Cell) (a n : Nat) : List Host.Cell := m.filter fun c => a ≤ c.1 && c.1 < a + n

/-- Put listed bytes at their addresses moved by `d` up and `b` down. -/
def memPaste (m : List Host.Cell) (cells : List Host.Cell) (d b : Nat) : List Host.Cell :=
  cells.foldl (fun m c => memSet m (c.1 + d - b) c.2) m

/-- Whether two ranges of bytes meet. -/
def meets (a n b m : Nat) : Bool := a < b + m && b < a + n

/-- The byte list cut into chunks of `n`. -/
def chunks {α : Type} (n : Nat) : Nat → List α → List (List α)
  | 0, _ => []
  | k + 1, l => if l.isEmpty then [] else l.take n :: chunks n k (l.drop n)

end Sys2Proof.Machine
end

