-- ==== Sys2Proof/Machine/Base.lean ====
section
/-! DEFINITION. Reaching contexts and cores, the agenda, the meaning of a unit as a computation over the state, and the budget meters. -/

namespace Sys2Proof.Machine

/-- Why a unit does not retire in the turn it issues. -/
inductive Stop where
  /-- a precise trap (R428) -/
  | trap (t : TrapInfo)
  /-- it waits, and the running trick ends and commits first (R135, R195, R215) -/
  | wait (w : Wait)
  /-- it waits inside the trick, for a value or a line -/
  | stall (w : Wait)
  /-- it would pass a limit of the trick: a capacity cut in front of it (R213) -/
  | cut
  deriving DecidableEq, Repr

/-- How a unit that has been performed ends. -/
inductive After where
  /-- it retires and the next unit follows -/
  | next
  /-- it retires, and the context waits before its next unit -/
  | pause (w : Wait)
  /-- a vector unit retires; the normaliser serves it or not, and `extra` ticks pass before its context's next unit (R85, R103,
  R158) -/
  | vector (norm : Bool) (extra : Nat)
  /-- it retires, and the context forfeits turns (R103) -/
  | forfeit (n : Nat)
  /-- it retires and control passes to an address -/
  | goto (pc : Word)
  /-- its request has been sent: it retires when the reply comes -/
  | hold (w : Wait)
  /-- it retires and the context becomes idle -/
  | idle
  /-- it retires and then traps (BRK, TRAP) -/
  | trapAfter (t : TrapInfo)
  deriving DecidableEq, Repr

/-- A meaning: it reads and changes the state or stops; a unit that stops leaves the state as it was before it. -/
abbrev U := StateT State (Except Stop)

abbrev Out := Host.Outcome State Fault Refusal

def State.core (s : State) (k : Nat) : Core := tabGet s.cores k {}
def State.setCore (s : State) (k : Nat) (c : Core) : State := { s with cores := tabSet s.cores k c }
def State.modCore (s : State) (k : Nat) (f : Core → Core) : State := s.setCore k (f (s.core k))
def Core.ctx (c : Core) (x : Nat) : Ctx := tabGet c.ctxs x {}
def Core.setCtx (c : Core) (x : Nat) (v : Ctx) : Core := { c with ctxs := tabSet c.ctxs x v }
def State.ctx (s : State) (k x : Nat) : Ctx := (s.core k).ctx x
def State.setCtx (s : State) (k x : Nat) (v : Ctx) : State := s.modCore k (·.setCtx x v)
def State.modCtx (s : State) (k x : Nat) (f : Ctx → Ctx) : State := s.setCtx k x (f (s.ctx k x))
def State.quad (s : State) (q : Nat) : Quad := tabGet s.quads q {}
def State.modQuad (s : State) (q : Nat) (f : Quad → Quad) : State := { s with quads := tabSet s.quads q (f (s.quad q)) }
def State.group (s : State) (g : Nat) : Group := tabGet s.groups g {}
def State.modGroup (s : State) (g : Nat) (f : Group → Group) : State :=
  { s with groups := tabSet s.groups g (f (s.group g)) }
def State.die (s : State) (d : Nat) : Die := tabGet s.dies d {}
def State.modDie (s : State) (d : Nat) (f : Die → Die) : State := { s with dies := tabSet s.dies d (f (s.die d)) }
def State.squeue (s : State) (q : Nat) : SliceQueue := tabGet s.squeues q {}
def State.modSqueue (s : State) (q : Nat) (f : SliceQueue → SliceQueue) : State :=
  { s with squeues := tabSet s.squeues q (f (s.squeue q)) }
def State.chan (s : State) (c : Nat) : Channel := tabGet s.chans c {}
def State.modChan (s : State) (c : Nat) (f : Channel → Channel) : State :=
  { s with chans := tabSet s.chans c (f (s.chan c)) }
def State.budget (s : State) (k : Nat) : Budget := tabGet s.budgets k {}
def State.modBudget (s : State) (k : Nat) (f : Budget → Budget) : State :=
  { s with budgets := tabSet s.budgets k (f (s.budget k)) }
def State.part (s : State) (p : Nat) : Part := tabGet s.hub.parts p {}
def State.modHub (s : State) (f : Hub → Hub) : State := { s with hub := f s.hub }
def State.modPart (s : State) (p : Nat) (f : Part → Part) : State :=
  s.modHub fun h => { h with parts := tabSet h.parts p (f (s.part p)) }
def State.vf (s : State) (k : Nat) : Vf := tabGet s.hub.vfs k {}
def State.modVf (s : State) (k : Nat) (f : Vf → Vf) : State :=
  s.modHub fun h => { h with vfs := tabSet h.vfs k (f (s.vf k)) }
def State.launch (s : State) (t : Nat) : Option Launch := tabFind s.launches t
def State.modLaunch (s : State) (t : Nat) (f : Launch → Launch) : State :=
  match s.launch t with
  | some l => { s with launches := tabSet s.launches t (f l) }
  | none => s

/-- The quad, group, super-group and die of a core index (R17). -/
def quadOf (k : Nat) : Nat := k / 4
def groupOf (k : Nat) : Nat := k / 16
def sgrpOf (k : Nat) : Nat := k / 64
def dieOf (k : Nat) : Nat := k / 1024

/-- The package's number (R471). -/
def State.pkg (s : State) : Nat := (s.hub.podcfg.extractLsb' 0 7).toNat

/-- Whether two cores lie in one instance of a scope (R16, R17). -/
def sameScope (sc : Scope) (a b : Nat) : Bool :=
  match sc with
  | .lane | .core => a == b
  | .quad => quadOf a == quadOf b
  | .group => groupOf a == groupOf b
  | .sgrp => sgrpOf a == sgrpOf b
  | .die => dieOf a == dieOf b
  | .pkg | .pod => true

/-- The dies of a partition, and its STATE: 0 OFF, 1 RUN, 2 HOLD, 3 QUIESCED (R449). -/
def Part.dies (p : Part) : BitVec 4 := p.part.extractLsb' 8 4
def Part.hasDie (p : Part) (d : Nat) : Bool := p.dies.getLsbD d
def Part.mode (p : Part) : Nat := (p.part.extractLsb' 4 2).toNat
def Part.tenant (p : Part) : BitVec 16 := p.part.extractLsb' 48 16
def Part.setMode (p : Part) (m : Nat) : Part :=
  { p with part := (p.part &&& ~~~0x30#64) ||| BitVec.ofNat 64 (m % 4 * 16) }

/-- The partition that owns a die (R19): the lowest-numbered one whose DIES names it. -/
def State.partOfDie (s : State) (d : Nat) : Nat :=
  if (s.part 0).hasDie d then 0 else if (s.part 1).hasDie d then 1 else if (s.part 2).hasDie d then 2 else 3
def State.partOf (s : State) (k : Nat) : Nat := s.partOfDie (dieOf k)

/-- The exclusive-or of the 6-bit groups of a number below 2^48 (R451). -/
def fold6 (u : Nat) : Nat :=
  (List.range 8).foldl (fun a j => a ^^^ (u / 2 ^ (6 * j) % 64)) 0

/-- HomeSlice(pa) for a partition: die and slice (R451). -/
def Part.homeSlice (p : Part) (pa : Nat) : Nat × Nat :=
  let off := pa % 2 ^ 42
  let u := off / 2 ^ (p.ilv.extractLsb' 0 5).toNat
  let e := (List.range 4).filter p.hasDie
  let n := max 1 e.length
  if pa / 2 ^ 42 % 4 = 0 ∧ p.ilv.getLsbD 9 = false then (off / 2 ^ 38 % 4, fold6 u)
  else (e.getD (u % n) 0, fold6 (u / n))

def hostResident (pa : Nat) : Bool := pa.testBit 51
def paPackage (pa : Nat) : Nat := pa / 2 ^ 44 % 128

/-- The home die of a line for the partition of a core. -/
def State.homeDie (s : State) (k : Nat) (line : Nat) : Nat := ((s.part (s.partOf k)).homeSlice (line * 64)).1

/-- Add a happening `n` ticks ahead, after those already due then. -/
def agendaAdd : List (Nat × Instr) → Nat → Instr → List (Nat × Instr)
  | [], d, i => [(d, i)]
  | (e, j) :: t, d, i => if e ≤ d then (e, j) :: agendaAdd t d i else (d, i) :: (e, j) :: t
/-- Post a happening of the tick `n` ticks ahead; it follows the units of that tick. -/
def State.post (s : State) (n : Nat) (i : Instr) : State := { s with agenda := agendaAdd s.agenda (2 * (s.tick + n)) i }
/-- Post the end of a wait, looked at after everything else of the tick `n` ticks ahead. -/
def State.postPoll (s : State) (n : Nat) (i : Instr) : State :=
  { s with agenda := agendaAdd s.agenda (2 * (s.tick + n) + 1) i }

/-- What waits at the home of lines or regions: an event, the lines and the regions it is for as numbers, in the order of arrival (R246, R252,
R255, R267). -/
def lineKey (l : Nat) : Nat := 2 * l
def regionKey (page : Nat) : Nat := 2 * page + 1

/-- Whether an event that arrived earlier waits for one of the same lines or regions (R246, R252). -/
def State.behind (s : State) (i : Instr) (keys : List Nat) : Bool :=
  (s.held.takeWhile (·.1 != i)).any fun e => e.2.any keys.contains

/-- An event waits at the home, in its place, and is looked at again `n` ticks on. -/
def State.hold (s : State) (i : Instr) (keys : List Nat) (n : Nat := 1) : State :=
  { s with held := if s.held.any (·.1 == i) then s.held else s.held ++ [(i, keys)] }.post n i

/-- An event that has been performed, or has lost its occasion, waits no more. -/
def State.unhold (s : State) (i : Instr) : State := { s with held := s.held.filter (·.1 != i) }

/-- Whether something waits at the home of a line. -/
def State.lineBusy (s : State) (l : Nat) : Bool := s.held.any fun e => e.2.contains (lineKey l)

/-- Whether a happening of the same kind for a lower context identifier is due in this tick. -/
def State.lowerDue (s : State) (k x : Nat) (p : Instr → Option (Nat × Nat)) : Bool :=
  s.agenda.any fun e => decide (e.1 ≤ 2 * s.tick + 1) && match p e.2 with
    | some (c, y) => decide (c < k) || (c == k && decide (y < x))
    | none => false

def cid (k : Nat) : CoreId := BitVec.ofNat 12 k
def xid (c : Nat) : CtxId := BitVec.ofNat 4 c

/-- The context identifier (R17). -/
def contextId (s : State) (k x : Nat) : BitVec 23 := BitVec.ofNat 7 s.pkg ++ cid k ++ xid x

/-! ### Inside a unit -/

def getS : U State := get
def setS (s : State) : U Unit := set s
def stopTrap {α : Type} (c : Cause) (addr : Word := 0#64) (detail : BitVec 8 := 0#8) : U α :=
  throw (.trap { cause := c, addr := addr, detail := detail })
def stopIf (b : Bool) (c : Cause) (addr : Word := 0#64) : U Unit := if b then stopTrap c addr else pure ()
def waitOn {α : Type} (w : Wait) : U α := throw (.wait w)
def stallOn {α : Type} (w : Wait) : U α := throw (.stall w)
def curCtx : U Ctx := do let s ← getS; pure (s.ctx s.cur.1 s.cur.2)
def curCore : U Core := do let s ← getS; pure (s.core s.cur.1)
def myCore : U Nat := do let s ← getS; pure s.cur.1
def myCtx : U Nat := do let s ← getS; pure s.cur.2
def updCtx (f : Ctx → Ctx) : U Unit := modify fun s => s.modCtx s.cur.1 s.cur.2 f
def updCore (f : Core → Core) : U Unit := modify fun s => s.modCore s.cur.1 f
def postIn (n : Nat) (i : Instr) : U Unit := modify fun s => s.post n i
/-- OR flags into CFLAGS (R83). -/
def raiseFlags (f : Flags) : U Unit := updCtx fun x => { x with cflags := x.cflags ||| f.setWidth 64 }

/-- The launch of the issuing core, and a bit of its deal's FLAGS word (R409). -/
def Launch.flags (l : Launch) : Word := BitVec.ofNat 64 (ofBytes ((l.deal.drop 24).take 8))
def Launch.word (l : Launch) (o : Nat) : Word := BitVec.ofNat 64 (ofBytes ((l.deal.drop o).take 8))
def Launch.cls (l : Launch) : Nat := (l.flags.extractLsb' 24 6).toNat
def Launch.prio (l : Launch) : Nat := (l.flags.extractLsb' 16 7).toNat
def Launch.lanes (l : Launch) : Nat := (l.flags.extractLsb' 0 12).toNat + 1
def State.launchOf (s : State) (k : Nat) : Option Launch := (s.core k).launch.bind s.launch
def State.launchFlag (s : State) (k b : Nat) : Bool :=
  match s.launchOf k with
  | some l => l.flags.getLsbD b
  | none => false
def State.clsOf (s : State) (k : Nat) : Nat :=
  match s.launchOf k with
  | some l => l.cls
  | none => 0

/-- The holder that the contexts of a core act for, and DeterministicLaunch() there: tag, lane, flag (R265). -/
def State.holderOf (s : State) (k : Nat) : Nat × Nat × Bool := ((s.core k).launch.getD 0, (s.core k).lane, (s.core k).det)

/-- DeterministicLaunch() at the issuing core (R105). -/
def detLaunch : U Bool := do pure (← curCore).det
/-- "timing-dependent operation" for any context but the supervisor of a deterministic launch (R105, R278). -/
def timingTrap : U Unit := do
  let d ← detLaunch
  let c ← myCtx
  stopIf (d && c != 15) .timing

/-! ### Budget meters -/

/-- The allotment of a meter: 0 HBM, 1 FABRIC, 2 COPY, 3 GRANT (R425). -/
def Budget.allot (b : Budget) : Nat → Nat
  | 0 => (b.a.extractLsb' 0 24).toNat
  | 1 => (b.a.extractLsb' 24 24).toNat
  | 2 => (b.b.extractLsb' 0 24).toNat
  | _ => (b.b.extractLsb' 24 16).toNat

/-- A meter at or above its allotment; all ones is unmetered (R424, R425). -/
def Budget.exhausted (b : Budget) (m : Nat) : Bool :=
  b.allot m != (if m = 3 then 0xFFFF else 0xFFFFFF) && decide (b.allot m ≤ b.count.getD m 0)

def Budget.charge (b : Budget) (m n : Nat) : Budget := { b with count := b.count.set m (b.count.getD m 0 + n) }

/-- Charge a class (R423, R424). -/
def State.charge (s : State) (cls m n : Nat) : State := s.modBudget cls (·.charge m n)
def State.exhausted (s : State) (cls m : Nat) : Bool := (s.budget cls).exhausted m

/-- Whether work of a core waits for a meter: what a stopped core issued completes whatever the budgets hold (R420, R424). -/
def State.meterOut (s : State) (k m : Nat) : Bool := (s.core k).halting.isNone && s.exhausted (s.clsOf k) m

/-! ### Copies of lines -/

/-- An idle core is to be gated 10 µs from now, and its quad's units once none of the quad's cores is live (R475). -/
def State.gateSoon (s : State) (k : Nat) : State :=
  (s.post 1 (.agentGate (.quadUnits (BitVec.ofNat 10 (quadOf k))))).post (10 * Config.microsecond + 1) (.agentGate (.core (cid k)))

/-- An agent that a request, a probe or a deposit reaches wakes (R248, R475). [DEDUCED, log 58] -/
def wakeAgent (s : State) (k : Nat) : State :=
  if (s.core k).gated.isSome || (s.core k).asleep then (s.modCore k fun c => { c with gated := none, asleep := false }).gateSoon k else s

/-- A quad's units wake when a request reaches them (R475). [DEDUCED, log 58] -/
def wakeQuad (s : State) (q : Nat) : State :=
  if (s.quad q).gated.isSome || (s.quad q).asleep then s.modQuad q fun u => { u with gated := none, asleep := false } else s

/-- The agents that hold copies of a line, but for one (R246). The engines and the hub keep none of their own, and a line that a victim cache
pools stays with its sharers. [DESIGN CHOICE, log 79] -/
def DirEntry.others (e : DirEntry) (but : Option Nat) : List Nat := (e.owner.toList ++ e.sharers).filter fun k => some k != but

/-- Every copy of a line but the writer's is invalidated at its write, by a probe of its agent (R246, R248). -/
def State.invalidate (s : State) (lines : List Nat) (owner : Option Nat) : State :=
  let s := (lines.flatMap fun l => (tabFind s.dir l).elim [] (·.others owner)).foldl wakeAgent s
  { s with dir := lines.foldl (fun d l => match owner with
      | some k => tabSet d l { owner := some k, sharers := [] }
      | none => match tabFind d l with
        | some _ => tabSet d l { owner := none, sharers := [] }
        | none => d) s.dir }

end Sys2Proof.Machine
end

