-- ==== Sys2Proof/Machine/Walk.lean ====
section
/-! DEFINITION. Physical addresses, page tables, TLBs and walks (R397 to R404, R450). -/

namespace Sys2Proof.Machine

/-! ### Physical addresses -/

/-- A device address homed in another package (R397). -/
def State.podRemote (s : State) (pa : Nat) : Bool := !hostResident pa && paPackage pa != s.pkg

/-- Whether a 42-bit offset lies in the HBM of a die of the partition (R450). -/
def Part.inHbm (p : Part) (off : Nat) : Bool := p.hasDie (off / 2 ^ 38) && decide (off / 2 ^ 38 < 4 ∧ off % 2 ^ 38 < 192 * 10 ^ 9)

/-- Whether an address of second tier is the partition's (R450). -/
def Part.inTier (p : Part) (off : Nat) : Bool :=
  p.bnd.getLsbD 0 && decide ((p.bnd.extractLsb' 16 12).toNat ≤ off / 2 ^ 30 ∧ off / 2 ^ 30 ≤ (p.bnd.extractLsb' 32 12).toNat)

/-- Whether an enabled expander port serves an address of second tier (R467, R468). -/
def State.served (s : State) (off : Nat) : Bool :=
  s.hub.xps.any fun e => e.2.getLsbD 0 &&
    decide ((e.2.extractLsb' 16 12).toNat ≤ off / 2 ^ 30 ∧ off / 2 ^ 30 ≤ (e.2.extractLsb' 32 12).toNat)

/-- Whether a device address belongs to a partition of this package, and is mapped (R450, R467). -/
def ownAddress (s : State) (p pa : Nat) : Bool :=
  !hostResident pa && paPackage pa == s.pkg &&
    ((pa / 2 ^ 42 % 4 == 0 && (s.part p).inHbm (pa % 2 ^ 42)) ||
      (pa / 2 ^ 42 % 4 == 1 && (s.part p).inTier (pa % 2 ^ 42) && s.served (pa % 2 ^ 42)))

/-- The partition to which a device address belongs (R450). -/
def addressOwner (s : State) (pa : Nat) : Option Nat := (List.range 4).find? fun p => ownAddress s p pa

/-- Whether a physical address takes "physical boundary" for a partition (R397, R450, R467, R471). -/
def State.boundary (s : State) (part pa : Nat) : Bool :=
  if hostResident pa then false
  else if pa / 2 ^ 42 % 4 ≥ 2 then true
  else if paPackage pa != s.pkg then s.hub.refused.contains (part, pa / 4096)
  else if pa / 2 ^ 42 % 4 = 0 then !(s.part part).inHbm (pa % 2 ^ 42)
  else !((s.part part).inTier (pa % 2 ^ 42) && s.served (pa % 2 ^ 42))

/-! ### Walks -/

/-- Why a translation fails: the cause and level of the detail byte (R402). -/
structure XFault where
  cause : Nat
  level : Nat
  deriving DecidableEq, Repr

/-- Whether `n` bytes at a physical address lie wholly in the HBM of the partition (R399). -/
def State.tableIn (s : State) (part pa n : Nat) : Bool :=
  !hostResident pa && paPackage pa == s.pkg && pa / 2 ^ 42 % 4 == 0 && (s.part part).inHbm (pa % 2 ^ 42) &&
    (s.part part).inHbm ((pa + n - 1) % 2 ^ 42)

/-- Reserved bits of a leaf and of an entry that points to a table (R400). -/
def leafReserved (x : Word) : Bool := (x &&& 0xFFF0000000000FA0#64) != 0#64
def tableReserved (x : Word) : Bool := (x &&& 0xFFF0000000000FFC#64) != 0#64

/-- Bytes that a leaf of a level maps (R399). -/
def levelBytes : Nat → Nat
  | 0 => 4096
  | 1 => 2097152
  | _ => 1073741824

/-- The table index of a level (R399). -/
def levelIndex (ea lvl : Nat) : Nat := if lvl = 3 then ea / 2 ^ 39 % 131072 else ea / 2 ^ (12 + 9 * lvl) % 512

def entryOf (asid : BitVec 16) (ea lvl bytes : Nat) (x : Word) : TlbEntry where
  asid := asid
  va := ea / bytes * bytes / 4096
  level := lvl
  bytes := bytes
  pa := (x &&& 0x000FFFFFFFFFF000#64).toNat
  g := x.getLsbD 4
  x := x.getLsbD 3
  w := x.getLsbD 2

/-- A table entry that the die's walk cache holds for an address: the table it points to (R403). -/
def cachedTable (cache : List TlbEntry) (asid : BitVec 16) (ea lvl : Nat) : Option Nat :=
  (cache.find? fun e => e.asid == asid && e.level == lvl && ea / 4096 / (e.bytes / 4096) * (e.bytes / 4096) == e.va).map (·.pa)

/-- The walk from a level down (R401), with the entries read that point to tables. -/
def State.walkFrom (s : State) (part : Nat) (cache : List TlbEntry) (asid : BitVec 16) (ea : Nat) :
    Nat → Nat → List TlbEntry → Except XFault (TlbEntry × List TlbEntry)
  | 0, t, acc =>
    let i := levelIndex ea 0
    let x0 := memWord s.mem (t + 8 * (i - i % 16))
    if x0.getLsbD 0 && x0.getLsbD 1 && x0.getLsbD 6 then
      let e := entryOf asid ea 0 65536 x0
      if leafReserved (x0 &&& ~~~0x40#64) || e.pa % 65536 != 0 then .error ⟨4, 0⟩ else .ok (e, acc)
    else
      let x := memWord s.mem (t + 8 * i)
      if !x.getLsbD 0 then .error ⟨2, 0⟩
      else if leafReserved (x &&& ~~~0x40#64) || !x.getLsbD 1 || x.getLsbD 6 then .error ⟨4, 0⟩
      else .ok (entryOf asid ea 0 4096 x, acc)
  | lvl + 1, t, acc =>
    match cachedTable cache asid ea (lvl + 1) with
    | some t' => s.walkFrom part cache asid ea lvl t' acc
    | none =>
      let x := memWord s.mem (t + 8 * levelIndex ea (lvl + 1))
      if !x.getLsbD 0 then .error ⟨2, lvl + 1⟩
      else if x.getLsbD 1 then
        let e := entryOf asid ea (lvl + 1) (levelBytes (lvl + 1)) x
        if lvl + 1 = 3 || leafReserved x || x.getLsbD 6 || e.pa % e.bytes != 0 then .error ⟨4, lvl + 1⟩ else .ok (e, acc)
      else
        let t' := (x &&& 0x000FFFFFFFFFF000#64).toNat
        if tableReserved x || !s.tableIn part t' 4096 then .error ⟨4, lvl + 1⟩
        else
          let e := entryOf asid ea (lvl + 1) (if lvl + 1 = 3 then 2 ^ 39 else levelBytes (lvl + 1)) x
          s.walkFrom part cache asid ea lvl t' (acc ++ [e])

/-- Walk(ea) for a root register (R401). -/
def State.walk (s : State) (part : Nat) (cache : List TlbEntry) (root : Word) (ea : Nat) :
    Except XFault (TlbEntry × List TlbEntry) :=
  let t := (root.extractLsb' 20 32).toNat * 2 ^ 20
  if !s.tableIn part t (2 ^ 20) then .error ⟨4, 3⟩
  else s.walkFrom part cache (root.extractLsb' 0 16) ea 3 t []

/-- Whether a TLB entry maps an address for an ASID (R400, R401). -/
def TlbEntry.maps (e : TlbEntry) (asid : BitVec 16) (ea : Nat) : Bool :=
  (e.asid == asid || e.g) && decide (e.va * 4096 ≤ ea ∧ ea < e.va * 4096 + e.bytes)

/-- Put an entry into a TLB of a size, the oldest entry leaving. [DESIGN CHOICE, log 8] -/
def tlbPut (n : Nat) (t : List TlbEntry) (e : TlbEntry) : List TlbEntry := (e :: t.filter (· != e)).take n

/-- The rest of Translate once the entry is known (R401). -/
def State.checkPage (s : State) (part : Nat) (e : TlbEntry) (ea kind : Nat) : Except XFault Nat :=
  if (kind = 1 ∧ e.w = false) ∨ (kind = 2 ∧ e.x = false) then .error ⟨3, e.level⟩
  else
    let pa := e.pa + ea % e.bytes
    if s.boundary part pa then .error ⟨5, e.level⟩ else .ok pa

/-- The translation that the structures of R403 serving a core hold for an address. -/
def State.tlbHit (s : State) (k : Nat) (root : Word) (ea : Nat) : Option TlbEntry :=
  let asid := root.extractLsb' 0 16
  match (s.core k).tlb.find? (·.maps asid ea) with
  | some e => some e
  | none => (s.quad (quadOf k)).tlb.find? (·.maps asid ea)

/-- Keep a translation in the TLBs of a core and its quad, and the tables read in the die's walk cache (R403), whose size is the model's choice.
[DESIGN CHOICE, log 8] -/
def State.tlbFill (s : State) (k : Nat) (e : TlbEntry) (tables : List TlbEntry) : State :=
  ((s.modCore k fun c => { c with tlb := tlbPut Config.l1Tlb c.tlb e }).modQuad (quadOf k) fun q =>
    { q with tlb := tlbPut Config.quadTlb q.tlb e }).modDie (dieOf k) fun d => { d with walk := (tables ++ d.walk).take Config.walkCache }

/-- Translate(ea, kind) on behalf of a core and a root register: kind 0 read, 1 write, 2 execute (R401). -/
def State.translate (s : State) (k : Nat) (root : Word) (ea : Word) (kind : Nat) : Except XFault (Nat × TlbEntry × State) :=
  let part := s.partOf k
  if ea.extractLsb' 56 8 != 0#8 then .error ⟨1, 3⟩
  else
    let a := ea.toNat
    match s.tlbHit k root a with
    | some e => do let pa ← s.checkPage part e a kind; pure (pa, e, s)
    | none => do
      let (e, tables) ← s.walk part (s.die (dieOf k)).walk root a
      let s := s.tlbFill k e tables
      let pa ← s.checkPage part e a kind
      pure (pa, e, s)

/-- The detail byte of a translation fault (R402). -/
def XFault.detail (f : XFault) (kind : Nat) : BitVec 8 := BitVec.ofNat 8 (kind * 64 + f.level % 4 * 16 + f.cause)

/-- A translation fault as a trap (R402). -/
def XFault.trap (f : XFault) (ea : Word) (kind : Nat) : TrapInfo :=
  { cause := .translation, detail := f.detail kind, addr := ea }

/-- The 64-byte reads of a walk from a level down, also of one that faults (R401, R423): one for each table entry that is not cached, and at
level 0 a second one where the entry lies in other 64 bytes than the first of its group. -/
def State.readsFrom (s : State) (part : Nat) (cache : List TlbEntry) (asid : BitVec 16) (ea : Nat) : Nat → Nat → Nat
  | 0, t =>
    let i := levelIndex ea 0
    let x0 := memWord s.mem (t + 8 * (i - i % 16))
    if (x0.getLsbD 0 && x0.getLsbD 1 && x0.getLsbD 6) || decide (i % 16 < 8) then 1 else 2
  | lvl + 1, t =>
    match cachedTable cache asid ea (lvl + 1) with
    | some t' => s.readsFrom part cache asid ea lvl t'
    | none =>
      let x := memWord s.mem (t + 8 * levelIndex ea (lvl + 1))
      let t' := (x &&& 0x000FFFFFFFFFF000#64).toNat
      if !x.getLsbD 0 || x.getLsbD 1 || tableReserved x || !s.tableIn part t' 4096 then 1
      else 1 + s.readsFrom part cache asid ea lvl t'

/-- The reads that a core's walk for an address makes, whether it faults or not (R401, R423). -/
def State.walkCost (s : State) (k : Nat) (root : Word) (ea : Nat) : Nat :=
  let t := (root.extractLsb' 20 32).toNat * 2 ^ 20
  if decide (2 ^ 56 ≤ ea) || !s.tableIn (s.partOf k) t (2 ^ 20) then 0
  else s.readsFrom (s.partOf k) (s.die (dieOf k)).walk (root.extractLsb' 0 16) ea 3 t

/-- Whether a core's access to an address has a walk of its own: no TLB holds the translation, and its die walks for no other miss of the same
ASID and 4 KiB page in this tick (R404). [DEDUCED, log 75] -/
def State.walksAlone (s : State) (k : Nat) (root : Word) (ea : Nat) : Bool :=
  (s.tlbHit k root ea).isNone && !(s.die (dieOf k)).walked.contains (s.tick, root.extractLsb' 0 16, ea / 4096)

/-- The reads of a core's walk are charged to a class; the other misses of the page in that tick share the walk (R404, R423). -/
def State.payWalk (s : State) (k cls : Nat) (root : Word) (ea : Nat) (tick : Nat := s.tick) : State :=
  if s.walksAlone k root ea then
    (s.charge cls 0 (s.walkCost k root ea)).modDie (dieOf k) fun d =>
      { d with walked := (tick, root.extractLsb' 0 16, ea / 4096) :: d.walked.filter fun e => decide (s.tick ≤ e.1) }
  else s

/-- Whether a core's walk waits at the HBM controllers for the meter of a class (R424). -/
def State.walkWaits (s : State) (k cls : Nat) (root : Word) (ea : Nat) : Bool :=
  (s.core k).halting.isNone && s.exhausted cls 0 && s.walksAlone k root ea && decide (0 < s.walkCost k root ea)

end Sys2Proof.Machine
end

