-- ==== Sys2Proof/Machine/Ops.lean ====
section
/-! DEFINITION. The shared operations: shadows, waits, commits, requests to peers, the discard pile, taking a trap, resuming from one,
retirement, and performing a unit inside or outside a trick. -/

namespace Sys2Proof.Machine

/-! ### Tricks: shadow, cut -/

/-- The size of a core's scratchpad portion (R185). -/
def Core.S (c : Core) : Nat := Config.localBytes - 32768 * c.csteps.toNat
/-- The workspace pointer (R131). -/
def Ctx.wsp (x : Ctx) : Nat := x.wspBlk.toNat * 2048
/-- WorkspaceAligned (R131). -/
def Core.workspaceAligned (c : Core) (w : Nat) : Bool := w % 2048 == 0 && w + 2048 ≤ c.S

/-- Take the register shadow (R134, R152). -/
def takeShadow (c : Core) (x : Ctx) : Shadow where
  ws := memSlice c.store (x.wsp + 8) 248 ++ memSlice c.store (x.wsp + 384) 896
  v := x.v
  pc := x.pc
  cmode := x.cmode
  cflags := x.cflags
  retire := x.retire
  rep := x.rep

/-- Begin a trick if none runs: its age is the tick of its first attempt, which a squash has kept with the count (R212, R224). -/
def State.startTrick (s : State) (k x : Nat) : State :=
  let c := s.core k
  let v := c.ctx x
  match v.running.start with
  | some _ => s
  | none =>
    s.setCtx k x { v with running :=
      { v.running with start := some (takeShadow c v), age := some (v.running.age.getD s.tick) } }

/-- Return an entry of each popped register to its queue's head (R135). -/
def unpop (q : Tab QueueReg) (pops : List (Nat × Word)) : Tab QueueReg :=
  pops.foldl (fun q p => tabSet q p.1 (p.2 :: tabGet q p.1 [])) q
/-- Make pushed entries visible, in push order (R135). -/
def showPushes (q : Tab QueueReg) (pushes : List (Nat × Word)) : Tab QueueReg :=
  pushes.foldl (fun q p => tabSet q p.1 (tabGet q p.1 [] ++ [p.2])) q

/-- Entries of queue register `i` that count towards its depth: visible, and pending or retained in a trick (R135). -/
def Trick.held (t : Trick) (i : Nat) : Nat :=
  (t.pops.filter (·.1 == i)).length + (t.pushes.filter (·.1 == i)).length
def Ctx.held (x : Ctx) (i : Nat) : Nat :=
  x.running.held i + (match x.pending with | some t => t.held i | none => 0)
/-- The places of queue register `i` kept for results that are still to come (R52, R260). -/
def Ctx.reserved (x : Ctx) (i : Nat) : Nat := (if x.reserve = some i then 1 else 0) + (x.farq.filter (·.queue == some i)).length
def Core.queueCount (c : Core) (i : Nat) : Nat :=
  (tabGet c.q i []).length + (c.ctxs.map fun p => p.2.held i + p.2.reserved i).sum

/-- The bytes of the L1 portion hold 512 lines for each of the steps (R185). -/
def Core.l1Lines (c : Core) : Nat := 512 * c.csteps.toNat

/-- Whether a lease is in force (R250, R252). -/
def Lease.inForce (l : Lease) (now : Nat) : Bool :=
  !l.ended && match l.grant with
    | some g => decide (g ≤ now ∧ now < g + l.dur)
    | none => false

/-- The speculative lines that a core's tricks hold in its L1 portion (R185, R213). -/
def Ctx.specLines (x : Ctx) : List Nat :=
  x.running.rlines ++ x.running.wlines ++ (match x.pending with | some t => t.rlines ++ t.wlines | none => [])
def Core.specLines (c : Core) : List Nat := (c.ctxs.flatMap fun p => p.2.specLines).eraseDups

/-- The lines of a core's L1 portion that cannot be displaced: the speculative ones and those leased (R185, R213, R252). -/
def Core.pinned (c : Core) (now : Nat) : List Nat :=
  (c.specLines ++ c.ctxs.flatMap fun p => (p.2.leases.filter fun (e : Nat × Lease) => e.2.inForce now).map fun (e : Nat × Lease) => e.2.pa / 64).eraseDups

/-- The entries of a core's parking table (R199, R205): parked requests, the core's own units held for a trick's words, and accepted
stores and messages of the package held there for one (R195, R196). -/
def State.parkUsed (s : State) (k : Nat) : Nat :=
  let c := s.core k
  c.parking.length + (c.ctxs.filter fun p => match p.2.life with | .blocked (.touch _ _) => true | _ => false).length +
    (s.cores.map fun o => (o.2.ctxs.map fun p => (p.2.accepted.filter fun a => a.entry && a.owner == k).length).sum).sum +
    (s.held.filter fun e => match e.1 with
      | .messageArrival d _ | .fabricRequestArrival _ _ ⟨_, .message d _⟩ => d.toNat == k
      | _ => false).length

/-- Whether a context has no trick uncommitted. -/
def Ctx.settled (x : Ctx) : Bool := x.running.units == 0 && x.pending.isNone

/-- The event that looks whether a wait has ended, with the ticks to its first look; the waits without one are ended by what
they wait for. -/
def wakeEvent (now k x : Nat) : Wait → Option (Nat × Instr)
  | .trapEntry _ => some (0, .trapEntry (cid k) (xid x))
  | .queueReg _ _ => some (0, .queueRegisterUnblock (cid k) (xid x))
  | .helper _ => some (0, .helperTaken (cid k) (xid x))
  | .tasks => some (0, .taskLaneRetire (cid k))
  | .helpers _ _ _ => some (0, .waitRelease (cid k) (xid x))
  | .interval til => some (til - 1 - now, .blockedIntervalEnd (cid k) (xid x))
  | .normaliser => some (0, .forfeitEnd (cid k) (xid x))
  | .touch _ _ | .podRelease | .farFull | .farReg _ | .farDrain _ | .channel _ | .strmOff _ | .strip _ =>
    some (0, .blockedIntervalEnd (cid k) (xid x))
  | .copyStat _ _ _ => some (0, .cpyStatWaitRelease (cid k) (xid x))
  | _ => none

/-- Make a context BLOCKED on a wait (R97). -/
def State.block (s : State) (k x : Nat) (w : Wait) : State :=
  let s := s.modCtx k x fun v => { v with life := .blocked w }
  match wakeEvent s.tick k x w with
  | some (n, e) => s.postPoll n e
  | none => s

/-- Make a context READY from tick T + 1 (R98). -/
def State.ready (s : State) (k x : Nat) : State :=
  s.modCtx k x fun v => { v with life := .ready, readyAt := s.tick + 1 }

/-! ### Ports -/

/-- The 64-byte units of what leaves on the fabric or a host port, at least one (R423, R473). -/
def units64 (bs : List Byte) : Nat := max 1 ((bs.length + 63) / 64)
def peerPackets : PeerOp → Nat
  | .write _ bs | .returned _ bs _ => units64 bs
  | .message _ m => max 1 ((8 * m.payload.length + 63) / 64)
  | _ => 1
def replyPackets : PeerReply → Nat
  | .data bs => units64 bs
  | .page d => units64 d.bytes
  | _ => 1
def Outgoing.packets : Outgoing → Nat
  | .hostWrite _ bs => units64 bs
  | .peer _ _ r => peerPackets r.op
  | _ => 1

/-- Something leaves the package; the timer of a request to a peer runs from now (R472). -/
def State.emit (s : State) (o : Outgoing) : State :=
  let out : List Outgoing := [o]
  let s := { s with out := s.out ++ out }
  match o with
  | .peer pkg seq _ => s.post (10 * Config.microsecond) (.fabricRetransmit seq (BitVec.ofNat 7 pkg))
  | _ => s

/-- Something of a class leaves through a host port or the fabric; it waits there while the FABRIC meter is exhausted, in the order of arrival
(R423, R424, R427). -/
def State.sendPort (s : State) (cls : Nat) (o : Outgoing) : State :=
  if s.exhausted cls 1 || s.hub.port.any (·.1 == cls) then s.modHub fun h => { h with port := h.port ++ [(cls, o)] }
  else (s.charge cls 1 o.packets).emit o

/-- Whether new work of a core waits for a meter, also behind what arrived earlier and still waits for it (R424, R427). -/
def State.meterBusy (s : State) (k m : Nat) : Bool :=
  s.exhausted (s.clsOf k) m ||
    s.hub.metered.any fun e => s.clsOf e.1 == s.clsOf k && (s.ctx e.1 e.2).life == .blocked (.meter m)

/-- A unit whose request finds a meter exhausted keeps it, BLOCKED, until the meter has room (R424, R427). -/
def meterHold (m : Nat) (r : Request) : U After := do
  let s ← getS
  setS (s.modHub fun h => { h with metered := h.metered.filter (· != s.cur) ++ [s.cur] })
  updCtx fun v => { v with req := some r }
  pure (.hold (.meter m))

/-- What waits at the ports goes out as far as its meters allow (R424, R427). -/
def State.drainPort (s : State) : State :=
  s.hub.port.foldl (fun s e => s.sendPort e.1 e.2) (s.modHub fun h => { h with port := [] })

/-! ### Commit -/

/-- Output strips that a commit lets out: each is written by an event of its own (R156, R393). -/
def State.postStrips (s : State) (k x : Nat) (t : Trick) : State :=
  t.stripPushes.foldl (fun s p =>
    match tabFind (s.ctx k x).streams p.1 with
    | some m =>
      if m.err then s
      else
        (s.modCtx k x fun v => { v with streams := tabSet v.streams p.1 { m with buf := m.buf ++ [p.2] } }).post 1
          (.streamStripWrite (cid k) (xid x) (BitVec.ofNat 5 p.1))
    | none => s) s

/-- Lines of granted pages that were written here (R405, R239). -/
def State.noteDirty (s : State) (lines : List Nat) : State :=
  if lines.any fun l => paPackage (l * 64) != s.pkg then
    s.modHub fun h => { h with grants := h.grants.map fun g => { g with
      dirty := g.dirty ++ lines.filter fun l => l / 64 == g.page && !g.dirty.contains l } }
  else s

/-- An active trump of a partition is gone: the next one is admitted (R224). -/
def State.trumpGone (s : State) (k : Nat) (was : Bool) : State :=
  if was then s.post 0 (.trumpAdmission (BitVec.ofNat 2 (s.partOf k))) else s

/-- COMMIT the pending trick of a context: its stores enter memory, its queue entries become visible, popped entries are freed,
and the undo log and shadow are discarded (R134, R135, R197, R221, R222). -/
def State.commit (s : State) (k x : Nat) : State :=
  let c := s.core k
  let v := c.ctx x
  match v.pending with
  | none => s
  | some t =>
    let s := { s with mem := t.writes.foldl (fun m (w : Nat × Byte) => memSet m w.1 w.2) s.mem }.noteDirty t.wlines
    let s := (s.invalidate t.wlines (some k)).setCore k { c with q := showPushes c.q t.pushes }
    let s := t.hostWrites.foldl (fun s (w : Nat × List Byte) => s.sendPort (s.clsOf k) (.hostWrite w.1 w.2)) s
    let s := (s.modCtx k x fun v => { v with pending := none }).trumpGone k t.trump
    let s := s.postStrips k x t
    if v.life = .blocked .commit then s.ready k x else s

/-- What holds a pending trick's commit: an earlier ordered far atomic, an accepted store not yet performed, and in a deterministic launch the
order in which the core's tricks ended (R194, R261, R279). Of two that ended in one tick neither holds the other: the latency of their requests
and then the context identifier decide [DESIGN CHOICE, log 80]. -/
def commitHeld (s : State) (k x : Nat) (t : Trick) : Bool :=
  let v := s.ctx k x
  (v.farq.any fun e => e.ord && e.old.isNone) || !v.accepted.isEmpty ||
    ((s.core k).det && !t.writes.isEmpty && (s.core k).ctxs.any fun p => p.1 != x && match p.2.pending with
      | some u => !u.writes.isEmpty && u.ended < t.ended
      | none => false)

/-- End the running trick. One with no global write commits in the tick after its last unit retired, which is this tick or has passed,
unless something holds it; another becomes pending, and its commit request is sent (R215, R220, R222). -/
def State.endTrick (s : State) (k x : Nat) : State :=
  let v := s.ctx k x
  if v.running.units = 0 ∨ v.pending.isSome then s
  else
    let here := (v.running.rlines ++ v.running.wlines).all fun l => paPackage (l * 64) == s.pkg && dieOf k == s.homeDie k l
    let lat := if here then Config.commitDie else Config.commitPkg
    let t := { v.running with ended := s.tick, due := s.tick + lat }
    let s := s.setCtx k x { v with pending := some t, running := {} }
    if t.writes.isEmpty then
      if t.last ≥ s.tick then s.post 1 (.localCommit (cid k) (xid x))
      else if t.last + 1 ≥ s.tick || commitHeld s k x t then s.post 0 (.localCommit (cid k) (xid x)) else s.commit k x
    else s.post lat (.commitGrant (cid k) (xid x))

/-- A pending trick commits; where the context waits for that to cut the trick behind it, this one ends at once (R215, R222). -/
def State.commitNext (s : State) (k x : Nat) : State :=
  if (s.ctx k x).life = .blocked .commit then (s.commit k x).endTrick k x else s.commit k x

/-! ### Peers -/

/-- The number that the next request to a package gets (R472). -/
def State.nextSeq (s : State) (pkg : Nat) : BitVec 32 := tabGet s.hub.outSeq pkg 0#32

/-- A numbered request goes out, charged to a class or to none; that of a stopped core waits for no meter (R420, R423, R473). -/
def State.emitPeer (s : State) (o : Outstanding) : State :=
  let out := Outgoing.peer o.target o.seq o.request
  match o.cls with
  | some c => if (s.core o.core).halting.isSome then (s.charge c 1 out.packets).emit out else s.sendPort c out
  | none => s.emit out

/-- A request leaves for another package, with the next number of that pair, for a core and context and charged to a class or none; it is held
here while the window of 4,096 requests is full (R26, R423, R471 to R473). -/
def State.sendPeerAs (s : State) (pkg k x : Nat) (cls : Option Nat) (op : PeerOp) : State :=
  let seq := s.nextSeq pkg
  let full := decide ((s.hub.outstanding.filter (·.target == pkg)).length ≥ Config.window)
  let r : PeerRequest := ⟨(s.part (s.partOf k)).pod.extractLsb' 0 16, op⟩
  let o : Outstanding := { seq := seq, target := pkg, core := k, ctx := x, cls := cls, request := r, retries := 0 }
  let s := s.modHub fun h => { h with outSeq := tabSet h.outSeq pkg (seq + 1), outstanding := h.outstanding ++ [o] }
  if full then s else s.emitPeer o
def State.sendPeer (s : State) (pkg k x : Nat) (op : PeerOp) : State := s.sendPeerAs pkg k x (some (s.clsOf k)) op

/-- A request awaits its reply no more: the first one that a full window has held goes out, and the target hears up to which number the
replies have come, which the spec leaves to the source [DESIGN CHOICE, log 81] (R26, R472). -/
def State.endPeer (s : State) (o : Outstanding) : State :=
  let first := (s.hub.outstanding.find? (·.target == o.target)) == some o
  let s := s.modHub fun h => { h with outstanding := h.outstanding.erase o }
  let left := s.hub.outstanding.filter (·.target == o.target)
  let s := if first then s.emit (.ack o.target ((left.head?.map (·.seq)).getD (s.nextSeq o.target) - 1)) else s
  match (left.drop (Config.window - 1)).head? with
  | some n => s.emitPeer n
  | none => s

/-- The reply to an outstanding request has come, charged like the request (R472, R473). -/
def State.gotPeer (s : State) (p : Outstanding → Bool) (r : PeerReply) : State :=
  match s.hub.outstanding.find? p with
  | none => s
  | some o => (match o.cls with
    | some c => s.charge c 1 (replyPackets r)
    | none => s).endPeer o

/-- Whether a request is the one that an answer names (R472). -/
def Outstanding.answeredBy (o : Outstanding) (a : PeerAnswer) : Bool := o.target == a.pkg.toNat && o.seq == a.seq

/-- A request to a synchronisation unit, and a message, of a context that awaits the reply (R341, R364). -/
def Outstanding.isSync (o : Outstanding) (k x : Nat) : Bool :=
  o.core == k && o.ctx == x && match o.request.op with | .sync _ _ _ _ => true | _ => false
def Outstanding.isMessage (o : Outstanding) (k x : Nat) : Bool :=
  o.core == k && o.ctx == x && match o.request.op with | .message _ _ => true | _ => false

/-- Dirty lines of the granted pages of a core's partition go to their homes, those with `p`, as writes of a context (R19, R239, R405). -/
def State.flushLines (s : State) (k x cls : Nat) (p : Nat → Bool) : State :=
  let mine := fun (g : Grant) => s.partOf g.core == s.partOf k
  let lines := (s.hub.grants.filter mine).flatMap fun g => g.dirty.filter p
  let s := s.modHub fun h => { h with grants := h.grants.map fun g => if mine g then { g with dirty := g.dirty.filter fun l => !p l } else g }
  lines.foldl (fun s l => s.sendPeerAs (paPackage (l * 64)) k x (some cls) (.write (BitVec.ofNat 52 (l * 64)) (memBytes s.mem (l * 64) 64))) s
def State.flushDirty (s : State) (k x cls : Nat) : State := s.flushLines k x cls fun _ => true

/-- Whether every write of a core's partition to pages homed in other packages has been performed there (R19, R239). -/
def State.podReleased (s : State) (k : Nat) : Bool :=
  s.hub.grants.all (fun g => g.dirty.isEmpty || s.partOf g.core != s.partOf k) &&
    !s.hub.outstanding.any fun o => s.partOf o.core == s.partOf k && match o.request.op with
      | .write _ _ | .returned _ _ _ => true
      | _ => false

/-- PodRelease() (R239). [DEDUCED, log 41] -/
def podRelease : U Unit := do
  let s ← getS
  if !s.podReleased s.cur.1 then waitOn .podRelease

/-- A reply to a peer's request, kept in the window of its source for duplicates (R367, R472). -/
def State.replyPeer (s : State) (pkg : Nat) (seq : BitVec 32) (r : PeerReply) : State :=
  let s := s.modHub fun h =>
    let w := tabGet h.windows pkg {}
    let keep := w.done.filter fun e => e.1 != seq
    { h with windows := tabSet h.windows pkg { w with done := keep ++ [(seq, some r)] } }
  let o : List Outgoing := [.peerReply pkg seq r]
  { s with out := s.out ++ o }

/-! ### Discard pile, records, traps -/

/-- The lowest die of a partition, or die 0 (R480). -/
def Part.lowDie (p : Part) : Nat :=
  if p.hasDie 0 then 0 else if p.hasDie 1 then 1 else if p.hasDie 2 then 2 else if p.hasDie 3 then 3 else 0

/-- The core index in an event's HDR word (R480). -/
def DiscardEntry.core (e : DiscardEntry) : Nat := ((e.getD 1 0#64).extractLsb' 16 12).toNat

/-- The tail of a ring from `n` entries back, each with the next sequence number (R480). -/
def Die.rewrite (x : Die) (n : Nat) : Nat → List DiscardEntry → Tab DiscardEntry
  | _, [] => x.ring
  | j, e :: t => tabSet (x.rewrite n (j + 1) t) (x.next - BitVec.ofNat 12 n + BitVec.ofNat 12 j).toNat
      (e.set 2 (BitVec.ofNat 64 (x.events + 1 + j - n)))

/-- One more event of a tick in a ring: the events of one tick stand in ascending core index, the hub's last (R480). -/
def Die.addEvent (x : Die) (now : Nat) (hub : Bool) (e : DiscardEntry) : Die :=
  let (n, m) := if x.fresh.1 = now then x.fresh.2 else (0, 0)
  let t := min (n + m) 4095
  let old := (List.range t).map fun j => tabGet x.ring (x.next - BitVec.ofNat 12 t + BitVec.ofNat 12 j).toNat []
  let cores := old.take (t - m)
  let all := if hub then old ++ [e]
    else cores.takeWhile (fun f => decide (f.core ≤ e.core)) ++ e :: cores.dropWhile (fun f => decide (f.core ≤ e.core)) ++ old.drop (t - m)
  { x with ring := x.rewrite t 0 all, next := x.next + 1, events := x.events + 1,
           fresh := (now, if hub then (n, m + 1) else (n + 1, m)) }

/-- Write one event of a core, or of the hub as the core Config.hub, to the discard pile (R480, R481): a frozen ring takes none but a core's of
the tick that froze it, which stands before the freezing event. -/
def State.discard (s : State) (part : Option Nat) (core : Nat) (tag ty detail : Nat) (data : List Word) : State :=
  let d := match part with | some p => (s.part p).lowDie | none => 0
  let die := s.die d
  let hub := decide (Config.hub ≤ core)
  if die.frozen && !(die.fresh.1 == s.tick && decide (0 < die.fresh.2.2) && !hub) then s
  else
    let tenant := match part with | some p => (s.part p).tenant | none => 0#16
    let hdr : Word := tenant ++ BitVec.ofNat 16 tag ++ BitVec.ofNat 2 (part.getD 0) ++
      BitVec.ofNat 2 (if hub then d else dieOf core) ++ BitVec.ofNat 12 (min core 4095) ++ BitVec.ofNat 8 detail ++ BitVec.ofNat 8 ty
    let e : DiscardEntry := [BitVec.ofNat 64 s.tick, hdr, 0#64] ++ (data ++ List.replicate 5 0#64).take 5
    s.modDie d fun x => x.addEvent s.tick hub e

/-- The code of a cause (R432). -/
def Cause.code : Cause → Nat
  | .illegal => 0x01 | .breakpoint => 0x02 | .trap => 0x03 | .translation => 0x04 | .misalignedTarget => 0x05
  | .misaligned => 0x06 | .misalignedWorkspace => 0x07 | .localAddress => 0x08 | .outsideScratchpad => 0x09
  | .remoteBoundary => 0x0A | .retryLimit => 0x0B | .operandRange => 0x0C | .timing => 0x0D | .repeatCount => 0x0E
  | .privileged => 0x0F | .capability => 0x10 | .claimOutside => 0x11 | .leaseTarget => 0x12 | .atomicTarget => 0x13
  | .atomicScope => 0x14 | .splitBusy => 0x15 | .streamDirection => 0x16 | .streamEnd => 0x17 | .streamBusy => 0x18
  | .matrixNotGranted => 0x19 | .tableNotEncodable => 0x1A | .tileBusy => 0x1B | .operandError => 0x1C
  | .chainNotGranted => 0x1D | .syncScope => 0x1E | .syncState => 0x1F | .queueBound => 0x20 | .messageClass => 0x21
  | .noMessage => 0x22 | .footprint => 0x23 | .copyError => 0x24

/-- The saved form of the REP state: REPS and REPA (R429). -/
def repWord (r : Option RepState) : Word × Word :=
  match r with
  | none => (0#64, 0#64)
  | some p => (0#2 ++ 1#1 ++ BitVec.ofNat 4 p.index ++ BitVec.ofNat 13 p.remaining ++ BitVec.ofNat 12 p.pass ++ p.word, p.addr)

/-- Write the context save area with a resume address (R429). -/
def saveArea (m : List Host.Cell) (x : Ctx) (resume : Word) : List Host.Cell :=
  let w := x.wsp
  let r := repWord x.rep
  let put := fun (m : List Host.Cell) (o : Nat) (v : Word) => memWrite m (w + o) 8 v.toNat
  put (put (put (put (put (put m 1280 resume) 1288 x.cmode) 1296 x.cflags) 1304 x.retire) 1312 r.1) 1320 r.2

/-- A trap record (R431): `parks` is false for a record that parks nothing. AUX of a captured unit holds the pass, also for an operand error,
whose storage code it then does not hold. [DEDUCED, log 23] -/
def trapRecord (c : Core) (x : Ctx) (ctx : Nat) (u : UnitInfo) (retire : Word) (t : TrapInfo) (parks : Bool) : TrapRecord :=
  let inrep := parks && (match x.rep with | some r => u.addr != r.addr | none => false)
  let head : Word := 0#33 ++ x.wspBlk ++ 0#1 ++ BitVec.ofBool inrep ++ BitVec.ofBool (parks && u.pre.isSome) ++ BitVec.ofBool parks ++
    BitVec.ofNat 4 ctx ++ t.detail ++ BitVec.ofNat 8 t.cause.code
  let aux : Word := match x.rep with
    | some r => if inrep then BitVec.ofNat 64 (r.pass % 4096 + r.remaining % 8192 * 4096) else t.aux
    | none => t.aux
  let words : Word := if parks then u.pre.getD 0#32 ++ u.word else 0#64
  let unit : Word := if parks then u.addr else 0#64
  let launch : Word := BitVec.ofNat 64 (c.lane * 65536 + c.launch.getD 0)
  ([head, unit, words, t.addr, aux, retire, launch, BitVec.ofNat 64 (c.trapSeq + 1)].map fun w => toBytes 8 w.toNat).flatten

/-- A lease in force ends with this tick (R256, R257). -/
def Lease.cut (l : Lease) (now : Nat) : Lease :=
  match l.grant with
  | some g => { l with dur := min l.dur (now + 1 - g) }
  | none => l

/-- A lease that ends holds write events off until the end of this tick (R256): its slot is freed, and what is left of it
stands beside the slots, at the slot's number and four more. -/
def endLease (t : Tab Lease) (now slot : Nat) : Tab Lease :=
  match tabFind t slot with
  | none => t
  | some l =>
    match l.grant with
    | some g => if l.ended || g + l.dur ≤ now then tabErase t slot else tabSet (tabErase t slot) (slot + 4) { l with dur := now + 1 - g }
    | none => tabErase t slot
def endLeases (t : Tab Lease) (now : Nat) : Tab Lease := (List.range 4).foldl (fun t i => endLease t now i) t

/-- A context whose launch has ended: it is idle and holds nothing; what a lease leaves holds until the end of the tick (R256). -/
def Ctx.stopped (v : Ctx) (now : Nat) : Ctx :=
  { v with life := .idle, running := {}, pending := none, farq := [], leases := endLeases v.leases now, req := none, accepted := [], streams := [],
           mailbox := none, yield := none, reserve := none, refusals := 0, fetched := [], tileFree := false }

/-- Whether some launch has left a core pre-empted: requests for its objects get a retry (R202, R370). -/
def leftCore (s : State) (k : Nat) : Bool :=
  (s.core k).stopped || s.launches.any fun l => l.2.saved.any fun e => l.2.cores.getD e.1 4096 == k

/-- Whether requests to a core on behalf of a launch get an eviction retry: the launch's lane there is pre-empted, or the core is
stopped (R202, R445). The jobs of a launch that is being ended no longer wait for its cores. -/
def State.savedAt (s : State) (tag : Option Nat) (k : Nat) : Bool :=
  match tag.bind s.launch with
  | some l => l.saved.any fun e => l.cores.getD e.1 4096 == k
  | none => false
def State.dying (s : State) (tag : Option Nat) : Bool :=
  match tag.bind s.launch with
  | some l => l.ending.isSome
  | none => true
def State.away (s : State) (tag : Option Nat) (k : Nat) : Bool := !s.dying tag && ((s.core k).stopped || s.savedAt tag k)

/-- Whether a core runs a task lane of the launch of another one, resident or pre-empted: no checker does, and no core of a quad beyond the
launch's lanes (R189, R282, R416, R441). -/
def State.mates (s : State) (k j : Nat) : Bool :=
  match s.launchOf k with
  | some l => ((s.core j).launch == (s.core k).launch && !(s.core j).checker && decide ((s.core j).lane < l.lanes)) ||
      l.saved.any fun e => decide (e.1 < l.lanes) && l.cores.getD e.1 4096 == j
  | none => false

/-- Whether no launch is live on a core: none runs there, or it is being ended (R416, R418). -/
def State.ended (s : State) (k : Nat) : Bool :=
  s.dying (s.core k).launch

/-- Ticks from issue to the home, and back, over the network of a scope (R346, R529); at `.pod` a home in the own package takes as long as at
`.pkg`, where the spec gives no number [DESIGN CHOICE, log 82]. -/
def syncTicks (sc : Scope) (away : Bool) : Nat :=
  match sc with
  | .lane | .core => 1
  | .quad => 2
  | .group => 4
  | .sgrp => 8
  | .die => 24
  | .pkg => 64
  | .pod => if away then 588 else 64

/-- Whether a handle is the launch barrier of a core's launch (R276, R408). -/
def launchBarrier (s : State) (k pkg home i : Nat) : Bool :=
  match s.launchOf k with
  | some l => (l.word 64).getLsbD 5 && ((l.word 64).extractLsb' 0 5).toNat == i && l.cores.head? == some home && pkg == s.pkg
  | none => false

/-- Answer a requester: the answer travels back, or leaves for its package (R352, R472). -/
def State.answerSync (s : State) (w : Waiter) (v : Word) (phase : Bool) : State :=
  match w.peer with
  | some (p, q) => s.replyPeer p q (.value v)
  | none =>
    match (s.ctx w.core w.ctx).req with
    | some (.sync _ _ pkg home i d) =>
      (s.modCtx w.core w.ctx fun x => { x with req := some (.answer d v (phase && launchBarrier s w.core pkg home i)) }).post (syncTicks w.scope false)
        (.syncWaiterAnswer (cid w.core) (xid w.ctx) none)
    | _ => s

def Core.sem (c : Core) (i : Nat) : BitVec 32 := tabGet c.sems i 0#32

/-- Waiters of a semaphore in arrival order: a SEMW.dec that is not met holds those behind it (R354). [DEDUCED, log 30] -/
def serveSem (home i : Nat) : List Waiter → State → State
  | [], s => s
  | w :: t, s =>
    match w.op with
    | .semw dec v =>
      if w.barrier || w.index != i then serveSem home i t s
      else
        let x := (s.core home).sem i
        if v ≤ x then
          let s := s.modCore home fun c => { c with
            wake := c.wake.erase w
            sems := if dec then tabSet c.sems i (x - v) else c.sems }
          serveSem home i t (s.answerSync w (x.setWidth 64) false)
        else if dec then s
        else serveSem home i t s
    | _ => serveSem home i t s

def settleSem (home i : Nat) (s : State) : State := serveSem home i (s.core home).wake s

/-- Waiters leave the wake lists; those of a semaphore that stood behind them are then looked at (R354, R370). -/
def State.unlist (s : State) (gone : Waiter → Bool) : State :=
  let met := s.cores.flatMap fun c => ((c.2.wake.filter gone).filter (!·.barrier)).map fun w => (c.1, w.index)
  met.eraseDups.foldl (fun s e => settleSem e.1 e.2 s)
    { s with cores := s.cores.map fun c => (c.1, { c.2 with wake := c.2.wake.filter fun w => !gone w }) }

/-- Requests of contexts that are gone leave the places where they wait: parking tables, wake lists, slice queues and the units of the
quads, whose next requests may then start (R203, R309, R337, R370). -/
def State.dropRequests (s : State) (gone : Nat → Nat → Bool) : State :=
  let s := s.unlist fun w => w.peer.isNone && gone w.core w.ctx
  let out := fun (c : Core) => { c with parking := c.parking.filter (fun e => !gone e.core e.ctx) }
  let met := (s.quads.filter fun q => (q.2.matrix.any fun e => gone e.core e.ctx) || q.2.scan.any fun e => gone e.core e.ctx).map (·.1)
  let s := { s with
    cores := s.cores.map (fun c => (c.1, out c.2)),
    squeues := s.squeues.map (fun q => (q.1, { q.2 with waiters := q.2.waiters.filter fun w => !gone w.1 w.2 })),
    quads := s.quads.map (fun q => (q.1, { q.2 with
      matrix := q.2.matrix.filter fun e => !gone e.core e.ctx
      scan := q.2.scan.filter fun e => !gone e.core e.ctx })) }
  met.foldl (fun s n => (s.post 0 (.matrixRequestStart (BitVec.ofNat 10 n))).post 0 (.scanRequestStart (BitVec.ofNat 10 n))) s

/-- The core whose context or queue a happening serves. -/
def servedCore : Instr → Option Nat
  | .supervisorWake c | .blockedIntervalEnd c _ | .forfeitEnd c _ | .queueRegisterUnblock c _ | .waitRelease c _ | .waitLimitExpiry c _
  | .helperTaken c _ | .taskLaneRetire c | .remoteAccessPerform c _ | .remoteStorePerform c _ | .vectorRemoteChecks c _
  | .parkRefusalRetry c _ | .evictionRetryResend c _ | .commitGrant c _ | .localCommit c _ | .leaseGrant c _ | .leaseExpiry c _ _
  | .farAtomicPerform c _ | .farAtomicReply c _ _ | .capStateChange c _ | .capQryWaitRelease c _ | .chainPostPerform c _
  | .chainWaitPerform c _ | .barrierArrival c _ | .semaphoreAtHome c _ | .syncWaiterAnswer c _ _ | .wakeListRetry c _ | .sliceQueueOp c _
  | .sendReply c _ _ | .streamStripFill c _ _ | .streamStripWrite c _ _ | .cpyStatWaitRelease c _ | .trapRecordEnqueue c
  | .tlbiComplete c _ | .trapEntry c _ | .homeLineRequest _ c _ => some c.toNat
  | .messageArrival _ m => some (m.origin.extractLsb' 4 12).toNat
  | _ => none

/-- What is due for the contexts of cores that are gone leaves the agenda; a message of another package stays. -/
def State.purge (s : State) (gone : Nat → Bool) : State :=
  let mine := fun (i : Instr) => match i with
    | .messageArrival _ m => (m.origin.extractLsb' 16 7).toNat == s.pkg
    | _ => true
  let out := fun (i : Instr) => mine i && match servedCore i with
    | some k => gone k
    | none => false
  { s with agenda := s.agenda.filter fun e => !out e.2, held := s.held.filter fun e => !out e.1 }

/-- The cores that ran a launch hold nothing of it any more: no context of them is live, and tricks are discarded. [DEDUCED, log 50] -/
def stopCores (s : State) (tag : Nat) : State :=
  let mine := fun (k : Nat) => (s.core k).launch == some tag
  let t := (s.dropRequests fun k _ => mine k).purge mine
  let t := s.cores.foldl (fun t c =>
    t.trumpGone c.1 (mine c.1 && c.2.ctxs.any fun p => p.2.running.trump || p.2.pending.toList.any (·.trump))) t
  { t with cores := t.cores.map fun c =>
      if mine c.1 then (c.1, { c.2 with ctxs := c.2.ctxs.map (fun p => (p.1, p.2.stopped s.tick)), parking := [], wake := [], trapq := [],
                                                      trapWait := [] }) else c }

/-- The jobs of a launch are cancelled at their next segment boundary (R384, R386). -/
def cancelJobs (s : State) (mine : Nat → Job → Bool) : State :=
  { s with chans := s.chans.map fun c => (c.1, { c.2 with
      jobs := c.2.jobs.map fun j => if mine c.1 j then { j with cancelled := true } else j }) }

/-- End a launch with a status other than 0 (R384, R418, R420, R435, R444, R457): its contexts stand still, its jobs are cancelled, those whose
record waits end without it, and LAUNCH_COMPLETION settles what its cores have issued. [DEDUCED, log 50] -/
def State.endLaunch (s : State) (tag status : Nat) : State :=
  match s.launch tag with
  | none => s
  | some l =>
    if l.ending.isSome then s
    else
      let mine := fun (c : Core) => c.launch == some tag
      let told := ((s.cores.filter fun c => mine c.2).map (·.2) ++ l.saved.map (·.2)).flatMap fun c => c.trapWait.filterMap (·.job)
      let s := cancelJobs s fun _ j => j.launch == some tag
      let s := { s with cores := s.cores.map fun (c : Nat × Core) =>
        (c.1, if mine c.2 then { c.2 with halting := some (c.2.halting.getD s.tick), trapWait := [] } else c.2) }
      let s := s.modLaunch tag fun l => { l with ending := some status, retired := List.range l.lanes }
      (told.foldl (fun s j => s.post 0 (.jobEnd (BitVec.ofNat 11 j.1) (.own j.2))) s).postPoll 0 (.launchCompletion (BitVec.ofNat 16 tag))

/-- Escalate a record: to the discard pile, and the launch ends with status 3 (R435). [DEDUCED, log 55] -/
def State.escalate (s : State) (k : Nat) (r : TrapRecord) : State :=
  let tag := (s.core k).launch.getD 0
  let data := (chunks 8 5 (r.take 40)).map fun b => BitVec.ofNat 64 (ofBytes b)
  (s.discard (some (s.partOf k)) k tag 0x01 0 data).endLaunch tag 3

/-- The context that a record names, and its sequence number (R431). -/
def TrapRecord.ctx (r : TrapRecord) : Nat := (r.getD 2 0#8).toNat % 16
def TrapRecord.seq (r : TrapRecord) : Nat := ofBytes (r.drop 56)

/-- Put a record among those of its tick, which stand in ascending context number with consecutive sequence numbers (R430, R448). -/
def insertRecord (r : TrapRecord) (l : List TrapRecord) : List TrapRecord :=
  let sorted := l.takeWhile (fun e => decide (e.ctx ≤ r.ctx)) ++ r :: l.dropWhile fun e => decide (e.ctx ≤ r.ctx)
  (sorted.zip ((l ++ [r]).map TrapRecord.seq)).map fun e => e.1.take 56 ++ toBytes 8 e.2

/-- A trap queue with one more record, and how many of this tick's it then holds (R430). -/
def Core.addRecord (c : Core) (now : Nat) (r : TrapRecord) : Core :=
  let n := if c.trapNew.1 = now then c.trapNew.2 else 0
  let q := if n = 0 then c.trapq ++ [r]
    else c.trapq.take (c.trapq.length - n) ++ insertRecord r (c.trapq.drop (c.trapq.length - n))
  { c with trapq := q, trapNew := (now, n + 1) }

/-- Enqueue a record on the core's trap queue and wake its supervisor, or escalate it: a trap that context 15 raised, and every record while
the supervisor has no entry (R101, R384, R430, R435). [DEDUCED, log 59] -/
def State.enqueueRecord (s : State) (k : Nat) (raised15 : Bool) (r : TrapRecord) : State :=
  let s := s.modCore k fun c => { c with trapSeq := c.trapSeq + 1 }
  let c := s.core k
  if raised15 = true ∨ c.svent.extractLsb' 1 55 = 0#55 then s.escalate k r
  else (s.setCore k (c.addRecord s.tick r)).post 0 (.supervisorWake (cid k))

/-- TAKING A TRAP (R428): the context is PARKED, its save area is written with the address to resume at (its program
counter), and the record is enqueued. The other state of the context stays as it was before the unit, or after it for BRK
and TRAP; a unit forbidden in a repetition discards the REP state (R124). A refused grant has then been reported (R471). -/
def State.takeTrap (s : State) (k x : Nat) (u : UnitInfo) (retire : Word) (t : TrapInfo) : State :=
  let c := s.core k
  let v := c.ctx x
  let r := trapRecord c v x u retire t true
  let v := if t.cause = .illegal ∧ t.detail = 2#8 then { v with rep := none } else v
  let c := c.setCtx x { v with life := .parked, req := none, tileFree := false, unit := u }
  let s := if t.cause = .translation ∧ t.detail.toNat % 16 = 5 then
    s.modHub fun h => { h with refused := h.refused.filter (·.1 != s.partOf k) } else s
  (s.setCore k { c with store := saveArea c.store v v.pc }).enqueueRecord k (x == 15) r

/-- A unit traps: the trick of the units before it is cut and commits first (R226); until then the context waits, and in lock step until the
write-backs of the tick have been compared (R441, R448). A unit that is illegal cuts it too. [DEDUCED, log 66] -/
def State.trapUnit (s : State) (k x : Nat) (u : UnitInfo) (retire : Word) (t : TrapInfo) : State :=
  let s := s.endTrick k x
  if (s.ctx k x).settled && !(s.launchOf k).any (·.lock) then s.takeTrap k x u retire t
  else (s.modCtx k x fun v => { v with unit := u }).block k x (.trapEntry t)

/-- Whether the next attempt of a context's trick is to run as a trump and has not been admitted (R224). -/
def Ctx.awaitsTrump (v : Ctx) : Bool := !v.running.trump && decide (v.running.squashes ≥ 4)

/-- RETURN FROM A TRAP (R437): the context continues at the resume word of its save area with the saved CMODE, CFLAGS,
RetireCount and REP state, and is READY from the next tick, or waits again to be admitted as a trump (R224). `kept` says whether the resume word is
the one trap entry wrote. -/
def State.resume (s : State) (k x : Nat) (kept : Bool) : State :=
  let c := s.core k
  let v := c.ctx x
  let rd := fun (o : Nat) => memWord c.store (v.wsp + o)
  let reps := rd 1312
  let rep : Option RepState :=
    if reps.getLsbD 61 && kept then
      some { word := reps.extractLsb' 0 32, addr := rd 1320, index := (reps.extractLsb' 57 4).toNat,
             pass := (reps.extractLsb' 32 12).toNat, remaining := (reps.extractLsb' 44 13).toNat }
    else none
  let waits := v.awaitsTrump
  (s.setCtx k x { v with life := if waits then .blocked .trump else .ready, readyAt := s.tick + 1, pc := rd 1280, cmode := rd 1288,
                         cflags := rd 1296, retire := rd 1304, rep := rep,
                         farq := v.farq.map fun e => { e with fault := none, refused := none, due := none } }).trumpGone k waits

/-! ### Retirement -/

/-- The program counter and REP state after a unit that continues in sequence (R109, R123). -/
def repStep (x : Ctx) (u : UnitInfo) : Word × Option RepState :=
  let nxt := u.addr + BitVec.ofNat 64 u.size
  match x.rep with
  | none => (nxt, none)
  | some r =>
    if u.addr = r.addr then (nxt, some r)
    else if r.index < (r.word.extractLsb' 28 4).toNat then (nxt, some { r with index := r.index + 1 })
    else if r.remaining = 0 then (nxt, none)
    else (r.addr + 4#64, some { r with index := 0, pass := r.pass + 1, remaining := r.remaining - 1 })

/-- Retire the unit of a context: RetireCount advances, and so does the trick's count when the unit runs in a trick; the
queue entries and strips of a unit outside tricks take effect at once (R82, R135, R156, R212). -/
def State.retireUnit (s : State) (k x : Nat) (u : UnitInfo) (inTrick : Bool) (target : Option Word) : State :=
  let c := s.core k
  let v := c.ctx x
  let (pc, rep) := match target with
    | some t => (t, v.rep)
    | none => repStep v u
  let v := { v with pc := pc, rep := rep, retire := v.retire + 1#64, unit := u, req := none, hostReplies := [], refusals := 0, reserve := none,
                    tileFree := false }
  if inTrick then
    let used := v.running.used ++ v.fetched.filter (!v.running.used.contains ·)
    s.setCore k (c.setCtx x { v with running := { v.running with units := v.running.units + 1, last := s.tick, used := used } })
  else
    let t := v.running
    let c := { c with q := showPushes c.q t.pushes }
    ((s.setCore k (c.setCtx x { v with running := {} })).trumpGone k t.trump).postStrips k x t

/-- A context that the normaliser serves: 8 forfeited turns, then the end of its service and `extra` ticks more (R85, R103). -/
def State.normalise (s : State) (k x extra : Nat) : State :=
  ((s.modCtx k x fun v => { v with life := .forfeit 8, interval := extra, normEnd := none }).modQuad (quadOf k) fun q =>
    { q with norm := q.norm ++ [(k, x)] }).post 0 (.normaliserService (BitVec.ofNat 10 (quadOf k)))

/-- The state after a unit that has been performed. -/
def finishUnit (s : State) (k x : Nat) (u : UnitInfo) (inTrick : Bool) : After → State
  | .next => s.retireUnit k x u inTrick none
  | .goto pc => s.retireUnit k x u inTrick (some pc)
  | .pause w => (s.retireUnit k x u inTrick none).block k x w
  | .vector norm extra =>
    let t := s.retireUnit k x u inTrick none
    if norm then t.normalise k x extra
    else if extra = 0 then t
    else t.block k x (.interval (t.tick + extra + 1))
  | .forfeit n => (s.retireUnit k x u inTrick none).modCtx k x fun v => { v with life := .forfeit n }
  | .hold w => (s.modCtx k x fun v => { v with unit := u }).block k x w
  | .idle =>
    let t := (s.retireUnit k x u inTrick none).modCtx k x fun v =>
      { v with life := .idle, leases := endLeases v.leases s.tick, mailbox := none, readyAt := s.tick + 1 }
    let t := if x = 15 then t.modCore k fun c => { c with wakeAt := if c.trapq.isEmpty then none else some (s.tick + 2) } else t
    t.gateSoon k
  | .trapAfter t =>
    let r := (s.ctx k x).retire
    (s.retireUnit k x u inTrick none).trapUnit k x u r t

/-- A unit of the own core that a trick's words hold needs an entry of the parking table: a full table refuses it, it tries again after 32
ticks, and the 16th refusal in a row traps (R195, R199, R200). -/
def holdUnit (s : State) (k x : Nat) (u : UnitInfo) (w : Wait) : State :=
  if s.parkUsed k < 64 then (s.modCtx k x fun v => { v with refusals := 0 }).block k x w
  else
    let n := (s.ctx k x).refusals + 1
    let s := s.modCore k fun c => { c with pkRefused := c.pkRefused + 1 }
    if n ≥ 16 then (s.modCtx k x fun v => { v with refusals := 0 }).trapUnit k x u (s.ctx k x).retire { cause := .retryLimit }
    else (s.modCtx k x fun v => { v with refusals := n }).block k x (.interval (s.tick + 32))

/-- A unit stops: what its context does next, from the state before the unit. -/
def stopUnit (s : State) (k x : Nat) (u : UnitInfo) : Stop → State
  | .trap t =>
    let c := s.core k
    (if t.cause = .translation then s.payWalk k (s.clsOf k) c.vmroot t.addr.toNat else s).trapUnit k x u (c.ctx x).retire t
  | .wait w =>
    let s := s.endTrick k x
    match w with
    | .queueReg _ _ => s.block k x w
    | .touch _ _ => holdUnit s k x u w
    | .podRelease => (s.flushDirty k x (s.clsOf k)).block k x w
    | _ => if (s.ctx k x).settled then s.block k x w else s.block k x .commit
  | .stall (.hostLoad pa) => (s.block k x (.hostLoad pa)).sendPort (s.clsOf k) (.hostRead pa (.ctx (cid k) (xid x)))
  | .stall (.walk va) => (s.block k x (.walk va)).post 1 (.pageWalk (cid k) (BitVec.ofNat 64 va))
  | .stall (.capWord page) =>
    let (tag, lane, det) := s.holderOf k
    (s.block k x (.capWord page)).sendPeer (paPackage (page * 4096)) k x
      (.cap (BitVec.ofNat 40 page) 4096 .qry tag lane det (contextId s k x))
  | .stall (.line l own) =>
    let lat := if dieOf k = s.homeDie k l then Config.homeDie else Config.homePkg
    (s.block k x (.line l own)).post (lat + (if (tabFind s.dir l).isNone then Config.memory else 0))
      (.homeLineRequest (BitVec.ofNat 46 l) (cid k) (if own then .own else .rd))
  | .stall w => s.block k x w
  | .cut =>
    let s := s.endTrick k x
    if (s.ctx k x).settled then s.ready k x else s.block k x .commit

/-- Give a queue register one more entry, or room, in order to see what else a unit needs (R135). -/
def State.padQueue (s : State) (i : Nat) : State :=
  s.modCore s.cur.1 fun c => { c with q := tabSet c.q i (tabGet c.q i [] ++ [0#64]) }
def State.roomQueue (s : State) (i : Nat) : State :=
  let out := fun (t : Trick) => { t with pops := t.pops.filter (·.1 != i), pushes := t.pushes.filter (·.1 != i) }
  s.modCore s.cur.1 fun c => { c with
    q := tabSet c.q i []
    ctxs := c.ctxs.map fun p => (p.1, { p.2 with running := out p.2.running, pending := p.2.pending.map out }) }

/-- The pops and pushes of a unit, once every queue register gives it what it asks for (R52, R135). -/
def queueNeeds (m : U After) : Nat → State → List Nat → Option (List Nat × List Nat)
  | 0, _, _ => none
  | n + 1, s, room =>
    match m.run s with
    | .ok (_, t) =>
      let a := (s.ctx s.cur.1 s.cur.2).running
      let b := (t.ctx s.cur.1 s.cur.2).running
      let pushes := (b.pushes.drop a.pushes.length).map (·.1)
      some ((b.pops.take (b.pops.length - a.pops.length)).map (·.1), pushes ++ room.filter (!pushes.contains ·))
    | .error (.wait (.queueReg [i] _)) => queueNeeds m n (s.padQueue i) room
    | .error (.wait (.queueReg _ [i])) => queueNeeds m n (s.roomQueue i) (i :: room)
    | .error _ => none

/-- A unit that a queue register stops waits for all of its pops and pushes (R135). [DEDUCED, log 67] -/
def widen (m : U After) (s : State) : Stop → Stop
  | .wait (.queueReg a b) => .wait (match queueNeeds m 16 s [], a with
    | some (p, q), _ => .queueReg p q
    | none, [i] => .queueReg (List.replicate ((tabGet (s.core s.cur.1).q i []).length + 1) i) b
    | none, _ => .queueReg a b)
  | e => e

/-- The issuing context's own unit. -/
def State.unitOf (s : State) : UnitInfo := (s.ctx s.cur.1 s.cur.2).unit

/-- Perform a unit INSIDE a trick (R212, R214): a trick starts with it if none runs; a limit met cuts the trick in front of
it and it runs as the first unit of the next one (R213, R215). -/
def runIn (m : U After) (s : State) : Out :=
  let k := s.cur.1
  let x := s.cur.2
  let u := s.unitOf
  let v := s.ctx k x
  let s1 := if v.running.units ≥ v.limit.toNat ∧ v.pending.isNone then s.endTrick k x else s
  if (s1.ctx k x).running.units ≥ v.limit.toNat ∧ v.limit ≠ 0#14 then .next (s.block k x .commit)
  else
    match m.run (s1.startTrick k x) with
    | .ok (a, t) => .next (finishUnit t k x u true a)
    | .error .cut =>
      if v.pending.isSome then .next (s.block k x .commit)
      else
        let s2 := s.endTrick k x
        match m.run (s2.startTrick k x) with
        | .ok (a, t) => .next (finishUnit t k x u true a)
        | .error e => .next (stopUnit s2 k x u (widen m s2 e))
    | .error e => .next (stopUnit s1 k x u (widen m s1 e))

/-- CutTrick, then perform a unit OUTSIDE any trick (R214, R215): while a trick of the context is uncommitted, it waits. -/
def runOut (m : U After) (s : State) : Out :=
  let k := s.cur.1
  let x := s.cur.2
  let u := s.unitOf
  let s := s.endTrick k x
  if (s.ctx k x).settled then
    match m.run s with
    | .ok (a, t) => .next (finishUnit t k x u false a)
    | .error e => .next (stopUnit s k x u (widen m s e))
  else .next (s.block k x .commit)

/-- Wait until every earlier far atomic of the context has been performed, or every earlier ordered one (R235, R261). -/
def farDrain (orderedOnly : Bool) : U Unit := do
  let v ← curCtx
  if v.farq.any fun e => e.old.isNone && (e.ord || !orderedOnly) then waitOn (.farDrain orderedOnly)

/-- Perform an irrevocable unit (R214, R235). -/
def runIrr (m : U After) (s : State) : Out := runOut (do farDrain false; m) s

/-- Perform a unit operation, a remote load, or an irrevocable unit that unordered far atomics may follow (R214, R235, R261). -/
def runOp (m : U After) (s : State) : Out := runOut (do farDrain true; m) s

/-- Return popped strips to the head of their streams and take pushed strips back (R156). -/
def unstrip (st : Tab Stream) (t : Trick) : Tab Stream :=
  let st := t.stripPops.foldl (fun st p => match tabFind st p.1 with
    | some m => tabSet st p.1 { m with buf := p.2 :: m.buf }
    | none => st) st
  t.stripPushes.foldl (fun st p => match tabFind st p.1 with
    | some m => tabSet st p.1 { m with next := min m.next p.2.index }
    | none => st) st

/-- What a unit outside tricks took from queue registers and streams returns to their heads when it does not retire (R52, R156, R428). -/
def State.unpopHeld (s : State) (k x : Nat) : State :=
  let c := s.core k
  let v := c.ctx x
  s.setCore k ({ c with q := unpop c.q v.running.pops }.setCtx x { v with running := {}, streams := unstrip v.streams v.running, req := none, reserve := none })

/-- The unit of a context whose reply has come: retire it, or trap precisely (R189, R341, R428). -/
def completeUnit (s : State) (k x : Nat) (m : U After) : State :=
  let s := { s with cur := (k, x) }
  let u := (s.ctx k x).unit
  match m.run s with
  | .ok (.hold w, t) => t.block k x w
  | .ok (a, t) =>
    let t := finishUnit t k x u false a
    if a = .idle then t else if (t.ctx k x).life = .parked then t else t.ready k x
  | .error e => stopUnit (s.unpopHeld k x) k x u e

end Sys2Proof.Machine
end

