-- ==== Sys2Proof/Machine/Translate.lean ====
section
/-! DEFINITION. Grants of pages, translation in a unit, and the writer capability checks (R265, R269, R401 to R405). -/

namespace Sys2Proof.Machine

/-! ### Grants of pages -/

/-- Whether a core's partition holds a grant of the page of a pod-remote address (R19, R405). -/
def State.granted (s : State) (k pa : Nat) (write : Bool) : Bool :=
  s.hub.grants.any fun g => g.page == pa / 4096 && (g.write || !write) && s.partOf g.core == s.partOf k

/-- The grant that the hub received longest ago. -/
def oldestGrant (g : List Grant) : Option Grant :=
  g.foldl (fun (b : Option Grant) e => match b with
    | none => some e
    | some f => if e.seq < f.seq then some e else b) none

/-- Whether a request asks for a grant of a page whose answer is still wanted, or brings the page back (R405). -/
def Outstanding.asks (o : Outstanding) (page : Nat) : Bool := o.ctx == 16 + page && match o.request.op with
  | .grant p _ => p.toNat == page
  | _ => false
def Outstanding.returns (o : Outstanding) (page : Nat) : Bool := match o.request.op with
  | .returned p _ _ => p.toNat == page
  | _ => false

/-- A request for a page's grant leaves for the home package, once per page and partition, and behind a return of the page that is under way; a
full table first returns its oldest grant (R26, R405, R472). -/
def askGrant (s : State) (pa k : Nat) (write : Bool) : State :=
  let pkg := paPackage pa
  let page := pa / 4096
  let coming := (s.hub.outstanding.filter fun o => o.asks (o.ctx - 16)).length
  if s.hub.outstanding.any fun o => o.returns page || (o.asks page && s.partOf o.core == s.partOf k) then s
  else if s.hub.grants.length + coming ≥ Config.grantTable then
    match oldestGrant s.hub.grants with
    | some g =>
      let back := Instr.pageRevocation ⟨BitVec.ofNat 40 g.page, false, none⟩
      if s.agenda.any fun e => e.2 == back then s else s.post 0 back
    | none => s
  else s.sendPeerAs pkg k (16 + page) none (.grant (BitVec.ofNat 40 page) write)

/-- A core index of a partition, for what its hub does. -/
def State.coreOfPart (s : State) (p : Nat) : Nat := (s.part p).lowDie * 1024

/-- A core index of the partition to which an address belongs. -/
def State.coreAt (s : State) (pa : Nat) : Nat := s.coreOfPart ((addressOwner s pa).getD 0)

/-- An access of this package or of a peer to a page homed here: the other packages' grants in its way are revoked, or reduced to reading,
and it waits until their lines are back; nothing where none is in its way (R405). -/
def State.recall (s : State) (pa : Nat) (write : Bool) (by_ : Option Nat) : Option State :=
  let page := pa / 4096
  match tabFind s.hub.pageDir page with
  | none => none
  | some h =>
    if !h.awaited.isEmpty then some s
    else
      let w := h.writer.filter fun p => some p != by_
      let rs := if write then h.readers.filter fun p => some p != by_ else []
      let met := w.toList ++ rs
      if met.isEmpty then none
      else
        let left : PageHome := {
          writer := if w.isSome then none else h.writer
          readers := if write then h.readers.filter fun p => some p == by_ else h.readers ++ w.toList
          awaited := met }
        some (met.foldl (fun s p => s.sendPeerAs p (s.coreAt pa) (16 + page) none (.revoke (BitVec.ofNat 40 page) (!write)))
          (s.modHub fun u => { u with pageDir := tabSet u.pageDir page left }))

/-- What an access of this package has to wait for before it reaches a device page: a grant, for a page homed in another package, or the
return of the peers' grants of its own (R405); the state in which that is asked for, or nothing. -/
def State.needPage (s : State) (pa k : Nat) (write : Bool) : Option State :=
  if hostResident pa then none
  else if s.podRemote pa then if s.granted k pa write then none else some (askGrant s pa k write)
  else s.recall pa write none

/-- The cores of the partition to which an address belongs (R19, R450). -/
def State.nearAddress (s : State) (pa : Nat) : Nat → Bool := fun k => some (s.partOf k) == addressOwner s pa

/-- Translate(ea, kind) in a unit; a walk waits while the HBM meter of its class is exhausted, and its reads are charged (R423, R424). -/
def translateU (ea : Word) (kind : Nat) : U (Nat × TlbEntry) := do
  let s ← getS
  let k := s.cur.1
  let root := (s.core k).vmroot
  if s.walkWaits k (s.clsOf k) root ea.toNat then stallOn (.walk ea.toNat)
  match (s.payWalk k (s.clsOf k) root ea.toNat).translate k root ea kind with
  | .error f => throw (.trap (f.trap ea kind))
  | .ok (pa, e, t) =>
    setS t
    pure (pa, e)

/-! ### Writer capabilities -/

/-- The capability state of the region that holds a physical address; an unlisted region is OPEN (R265, R266). -/
def State.capAt (s : State) (pa : Nat) : CapState :=
  match s.caps.find? (fun e => decide (e.1 * 4096 ≤ pa ∧ pa < e.1 * 4096 + e.2.bytes)) with
  | some e => e.2.cap
  | none => .opened

/-- Whether the capability state of an address has not come to a core's partition: that of another package's region comes with a grant of its
page, and is known of what a lane of this package holds (R265, R266). -/
def State.capUnknown (s : State) (k pa : Nat) : Bool :=
  s.podRemote pa && !s.granted k pa false && match s.capAt pa with
    | .held p _ _ => p != s.pkg
    | _ => true

/-- Whether CapCheck(pa) by a core's unit or engine job fails for a holder; a state that is not here yet is checked once the line has come
(R269). -/
def State.capFails (s : State) (k pa tag lane : Nat) (det : Bool) : Bool :=
  if hostResident pa || s.capUnknown k pa then false
  else match s.capAt pa with
    | .sealed => true
    | .held p t l => !(p == s.pkg && t == tag && l == lane)
    | .opened => det

/-- Whether CapCheckRead(pa) fails for a holder, as above (R269). -/
def State.capReadFails (s : State) (k pa tag lane : Nat) (det : Bool) : Bool :=
  det && !hostResident pa && !s.capUnknown k pa &&
    match s.capAt pa with
    | .sealed => false
    | .held p t l => !(p == s.pkg && t == tag && l == lane)
    | .opened => true

def capCheckU (pa : Nat) (ea : Word) : U Unit := do
  let s ← getS
  let (t, l, d) := s.holderOf s.cur.1
  stopIf (s.capFails s.cur.1 pa t l d) .capability ea

def capCheckReadU (pa : Nat) (ea : Word) : U Unit := do
  let s ← getS
  let (t, l, d) := s.holderOf s.cur.1
  stopIf (s.capReadFails s.cur.1 pa t l d) .capability ea

end Sys2Proof.Machine
end

