-- ==== Sys2Proof/Machine/Trick.lean ====
section
/-! DEFINITION. Tricks: scratchpad and global accesses inside them, signatures, write events, squashes and commits (R134, R135,
R195 to R197, R212 to R225, R231). -/

namespace Sys2Proof.Machine

/-! ### Scratchpad words inside tricks -/

/-- The 64-bit words that `n` bytes from an offset on touch. -/
def wordsOf (off n : Nat) : List Nat := (List.range ((off + n - 1) / 8 + 1 - off / 8)).map (· + off / 8)

/-- Whether accesses touch the words of a trick (R195): loads meet its store set, stores its load or store set. -/
def Trick.touched (t : Trick) (loads stores : List Nat) : Bool :=
  loads.any t.stores.contains || stores.any fun w => t.loads.contains w || t.stores.contains w

def Ctx.touched (v : Ctx) (loads stores : List Nat) : Bool :=
  v.running.touched loads stores || (match v.pending with | some t => t.touched loads stores | none => false)

/-- Whether accesses touch words of a trick of a context other than `x` (R195); 16 excepts none (R196). -/
def Core.touched (c : Core) (x : Nat) (loads stores : List Nat) : Bool :=
  c.ctxs.any fun p => p.1 != x && p.2.touched loads stores

/-- Wait while the words belong to another context's trick (R195). -/
def touchCheck (loads stores : List Nat) : U Unit := do
  let c ← curCore
  let x ← myCtx
  if c.touched x loads stores then waitOn (.touch loads stores)

/-- Change the running trick. -/
def updTrick (f : Trick → Trick) : U Unit := updCtx fun v => { v with running := f v.running }

/-- Load `n` bytes of the own scratchpad (R195, R207). -/
def lsLoad (off n : Nat) : U Nat := do
  let ws := wordsOf off n
  touchCheck ws []
  updTrick fun t => { t with loads := t.loads ++ ws.filter (!t.loads.contains ·) }
  pure (memRead (← curCore).store off n)

/-- Store `n` bytes to the own scratchpad, logging the old words (R195, R197). -/
def lsStore (off n v : Nat) : U Unit := do
  let ws := wordsOf off n
  touchCheck [] ws
  let t := (← curCtx).running
  if t.units > 0 ∧ t.undo.length + ws.length > Config.undoWords then throw .cut
  let c ← curCore
  let old := ws.map fun w => (w, memWord c.store (8 * w))
  updTrick fun t => { t with stores := t.stores ++ ws.filter (!t.stores.contains ·), undo := old.reverse ++ t.undo }
  updCore fun c => { c with store := memWrite c.store off n v }

/-! ### Global lines inside tricks -/

/-- The number of ones of a signature. -/
def sigCount (g : BitVec 1024) : Nat := (List.range 1024).countP g.getLsbD

/-- Whether a signature names a line (R217); an empty one names none. -/
def sigHas (g : BitVec 1024) (l : Nat) : Bool := g != 0#1024 && g &&& Config.lineSig l == Config.lineSig l

/-- Whether the signatures of a trick may name a line; they never omit one it touched (R217). -/
def Trick.names (t : Trick) (l : Nat) : Bool :=
  t.rlines.contains l || t.wlines.contains l || sigHas t.rsig l || sigHas t.wsig l

def Trick.writesLine (t : Trick) (l : Nat) : Bool := t.wlines.contains l || sigHas t.wsig l

/-- Enter a line into the running trick, cutting in front of the unit at a limit, or where the L1 portion has no line to displace (R185,
R213). -/
def noteLine (l : Nat) (write : Bool) : U Unit := do
  let t := (← curCtx).running
  let c ← curCore
  let known := t.rlines.contains l || t.wlines.contains l
  let lines := t.rlines.length + (t.wlines.filter (!t.rlines.contains ·)).length
  let sig := if write then t.wsig else t.rsig
  let full := t.units != 0 && ((!known && decide (lines ≥ Config.specLines)) ||
    decide (sigCount (sig ||| Config.lineSig l) > Config.sigLimit))
  let pinned := c.pinned (← getS).tick
  if full || (!pinned.contains l && decide (pinned.length ≥ c.l1Lines)) then throw .cut
  if write then
    updTrick fun t => if t.wlines.contains l then t else { t with wlines := t.wlines ++ [l], wsig := t.wsig ||| Config.lineSig l }
  else
    updTrick fun t => if t.rlines.contains l then t else { t with rlines := t.rlines ++ [l], rsig := t.rsig ||| Config.lineSig l }

/-- Whether the L1 portion of a core holds a line, with the right to write it or not (R246). -/
def State.holdsLine (s : State) (k l : Nat) (own : Bool) : Bool :=
  match tabFind s.dir l with
  | none => false
  | some d => d.owner == some k || (!own && d.sharers.contains k)

/-- Fetch a line that the L1 portion does not hold (R246). -/
def needLine (l : Nat) (own : Bool) : U Unit := do
  let s ← getS
  if s.holdsLine s.cur.1 l own then pure () else stallOn (.line l own)

/-- `n` bytes at a physical address as the context sees them: its uncommitted stores over memory (R216, R231). -/
def readOver (m : List Host.Cell) (v : Ctx) (pa n : Nat) : List Byte :=
  (List.range n).map fun i =>
    match tabFind v.running.writes (pa + i) with
    | some b => b
    | none => match v.pending.bind fun t => tabFind t.writes (pa + i) with
      | some b => b
      | none => memGet m (pa + i)

/-- A translation used by the running trick (R407). -/
def noteUsed (e : TlbEntry) : U Unit :=
  updTrick fun t => if t.used.contains e then t else { t with used := t.used ++ [e] }

/-- A load from a host-resident address: performed at the host when executed, in no signature (R236). -/
def hostLoad (pa n : Nat) : U Nat := do
  let v ← curCtx
  let w := pa / 8 * 8
  match v.hostReplies.find? (·.1 == w) with
  | some (_, x) => pure (x.toNat / 2 ^ (8 * (pa - w)) % 2 ^ (8 * n))
  | none => stallOn (.hostLoad w)

/-- A host-resident address is timing-dependent in a deterministic launch (R278). -/
def hostTiming (ea : Word) : U Unit := do
  let d ← detLaunch
  let x ← myCtx
  stopIf (d && x != 15) .timing ea

/-- The `n` bytes at a host-resident address as the running trick sees them: its own latest store of each byte, where it made one (R216, R231).
[DEDUCED, log 97] -/
def readOwn (ws : List (Nat × List Byte)) (pa n v : Nat) : List Byte :=
  (List.range n).map fun i =>
    match ws.reverse.find? fun w => decide (w.1 ≤ pa + i) && decide (pa + i < w.1 + w.2.length) with
    | some w => w.2.getD (pa + i - w.1) 0#8
    | none => (toBytes n v).getD i 0#8

/-- A naturally aligned global load of `n` bytes inside a trick (R231, R242, R245). -/
def gLoad (ea : Word) (n : Nat) : U Nat := do
  let (pa, e) ← translateU ea 0
  noteUsed e
  if hostResident pa then
    hostTiming ea
    let x ← hostLoad pa n
    pure (ofBytes (readOwn (← curCtx).running.hostWrites pa n x))
  else
    capCheckReadU pa ea
    needLine (pa / 64) false
    noteLine (pa / 64) false
    let s ← getS
    pure (ofBytes (readOver s.mem (← curCtx) pa n))

/-- A naturally aligned global store of `n` bytes inside a trick, speculative until the commit (R242, R245). -/
def gStore (ea : Word) (n v : Nat) : U Unit := do
  let (pa, e) ← translateU ea 1
  noteUsed e
  if hostResident pa then
    hostTiming ea
    updTrick fun t => { t with hostWrites := t.hostWrites ++ [(pa, toBytes n v)] }
  else
    capCheckU pa ea
    needLine (pa / 64) true
    noteLine (pa / 64) true
    let bs := toBytes n v
    updTrick fun t => { t with writes := (List.range n).foldl (fun w i => tabSet w (pa + i) (bs.getD i 0#8)) t.writes }

/-! ### Squash -/

/-- Put the words of an undo log back, latest first (R197). -/
def undoStore (m : List Host.Cell) (u : List (Nat × Word)) : List Host.Cell :=
  u.foldl (fun m p => memWrite m (8 * p.1) 8 p.2.toNat) m

/-- Restore a register shadow's workspace words (R134). -/
def restoreWs (m : List Host.Cell) (w : Nat) (cells : List Host.Cell) : List Host.Cell :=
  memPaste (memClear (memClear m (w + 8) 248) (w + 384) 896) cells 0 0

/-- SQUASH the tricks of a context from its oldest uncommitted one on (R215, R219): the shadow, the undo log, the queues and
strips are restored, its speculative lines but for those leased are discarded (R252), and execution resumes at the trick's first unit. A squash under R218 is counted, and the fourth makes the
next attempt a trump (R224). SQUASH counts one for the two tricks. [DEDUCED, log 68] -/
def State.squash (s : State) (k x : Nat) (counted : Bool) : State :=
  let c := s.core k
  let v := c.ctx x
  let old := v.pending.getD v.running
  match old.start with
  | none => s
  | some h =>
    let p := v.pending.getD {}
    let store := undoStore (undoStore c.store v.running.undo) p.undo
    let n := if counted then old.squashes + 1 else old.squashes
    let becomes := counted && decide (n ≥ 4)
    let c := { c with store := restoreWs store v.wsp h.ws, q := unpop (unpop c.q v.running.pops) p.pops }
    let v := { v with
      v := h.v, pc := h.pc, cmode := h.cmode, cflags := h.cflags, retire := h.retire, rep := h.rep,
      running := { age := old.age, squashes := n, trump := old.trump }, pending := none, streams := unstrip (unstrip v.streams v.running) p,
      squash := v.squash + 1, trumps := if becomes then v.trumps + 1 else v.trumps,
      hostReplies := [], req := none, tileFree := false, life := if becomes then .blocked .trump else .ready, readyAt := s.tick + 1 }
    let lines := (s.ctx k x).specLines
    let kept := fun (l : Nat) => (s.core k).ctxs.any fun p => p.2.leases.any fun e => e.2.inForce s.tick && e.2.pa / 64 == l
    let dir := s.dir.map fun e =>
      if e.2.owner == some k && lines.contains e.1 && !kept e.1 then (e.1, ({ owner := none, sharers := [] } : DirEntry)) else e
    (({ s with dir := dir }).setCore k (c.setCtx x v)).trumpGone k becomes

/-! ### Write events -/

/-- Whether some context other than the agent holds a lease in force on a line for which `p` holds (R225). -/
def State.leaseHeld (s : State) (p : Nat → Bool) (agent : Option (Nat × Nat)) : Bool :=
  s.cores.any fun c => c.2.ctxs.any fun x =>
    some (c.1, x.1) != agent && x.2.leases.any fun l => l.2.inForce s.tick && p (l.2.pa / 64)

/-- The tricks of a context that a write event can meet: all but the one that makes it (R218). -/
def Ctx.exposed (v : Ctx) (maker : Bool) : List Trick := v.running :: if maker then [] else v.pending.toList

/-- Whether an active trump of a core with `p` meets `q` (R224); `maker` is the context whose pending trick makes the event. -/
def State.trumpIn (s : State) (p : Nat → Bool) (q : Ctx → Trick → Bool) (maker : Option (Nat × Nat)) : Bool :=
  s.cores.any fun c => p c.1 && c.2.ctxs.any fun x => (x.2.exposed (some (c.1, x.1) == maker)).any fun t => t.trump && q x.2 t

/-- Whether a line is leased by a trick's own context: writes to it do not squash the trick (R218, R225, R255). -/
def Ctx.leases? (v : Ctx) (now l : Nat) : Bool := v.leases.any fun e => e.2.inForce now && e.2.pa / 64 == l

/-- Whether lines written meet a trick of a context (R218). -/
def meetsTrick (now : Nat) (lines : List Nat) (v : Ctx) (t : Trick) : Bool := lines.any fun l => t.names l && !v.leases? now l

/-- Squash only the running trick behind a pending one that stands: it restarts from its own shadow. -/
def State.squashRunning (s : State) (k x : Nat) : State :=
  let v := s.ctx k x
  let s1 := (s.modCtx k x fun v => { v with pending := none }).squash k x true
  s1.modCtx k x fun w => { w with pending := v.pending }

/-- Squash every running and pending trick of the cores with `p` that meets `q`, but for the maker's pending one (R218). -/
def State.squashIn (s : State) (p : Nat → Bool) (q : Ctx → Trick → Bool) (maker : Option (Nat × Nat)) : State :=
  s.cores.foldl (fun s c => c.2.ctxs.foldl (fun s x =>
    let hit := (x.2.exposed (some (c.1, x.1) == maker)).any fun t => t.start.isSome && q x.2 t
    let keep := x.2.pending.isSome && (some (c.1, x.1) == maker || !(x.2.pending.toList.any fun t => q x.2 t))
    if !(p c.1 && hit) then s
    else if keep then s.squashRunning c.1 x.1
    else s.squash c.1 x.1 true) s) s

/-- The cores of the partition of a core, whose tricks a write event of that core's work can meet (R19, R450). -/
def State.near (s : State) (k : Nat) : Nat → Bool := fun c => s.partOf c == s.partOf k

/-- Whether a write event on lines among the cores with `p`, by an agent or none, made by its pending trick or not, waits for a lease or a trump
(R224, R225). -/
def State.writeHeld (s : State) (p : Nat → Bool) (lines : List Nat) (agent : Option (Nat × Nat)) (byTrick : Bool) : Bool :=
  s.leaseHeld lines.contains agent || s.trumpIn p (meetsTrick s.tick lines) (if byTrick then agent else none)

/-- A write event waits so, or squashes what it meets (R218). -/
def State.writeEvent (s : State) (p : Nat → Bool) (lines : List Nat) (agent : Option (Nat × Nat)) (byTrick : Bool) : Option State :=
  if s.writeHeld p lines agent byTrick then none else some (s.squashIn p (meetsTrick s.tick lines) (if byTrick then agent else none))

/-- The lines that bytes touch. -/
def linesOf (pa n : Nat) : List Nat := if n = 0 then [] else (List.range ((pa + n - 1) / 64 + 1 - pa / 64)).map (· + pa / 64)

/-- Bytes of device memory written at a physical address. -/
def State.putMem (s : State) (pa : Nat) (bs : List Byte) : State := { s with mem := memPut s.mem pa bs }

end Sys2Proof.Machine
end

