-- ==== Sys2Proof/Machine/Operands.lean ====
section
/-! DEFINITION. Operands: scalar registers with their queue and mailbox remaps, predicates, vector registers with their streams,
immediates and targets, vector elements (R37, R52, R130, R135, R136, R153, R156). -/

namespace Sys2Proof.Machine

/-! ### Scalar registers -/

/-- The address in the scratchpad of the word of a scalar register (R130). -/
def regOff (v : Ctx) (k : GReg) : Nat := v.wsp + 8 * k.toNat

/-- Queue registers are numbered 0 to 3, mailbox registers 4 to 7. -/
def queueDepthOf (i : Nat) : Nat := if i < 4 then Config.queueDepth else 1

/-- QueuePop, MailboxRead: the oldest visible entry, retained until the trick commits (R52, R135, R136). -/
def popQ (i : Nat) : U Word := do
  let c ← curCore
  match tabGet c.q i [] with
  | [] => waitOn (.queueReg [i] [])
  | w :: rest =>
    updCore fun c => { c with q := tabSet c.q i rest }
    updTrick fun t => { t with pops := (i, w) :: t.pops }
    pure w

/-- QueuePush, MailboxWrite: pending until the trick commits (R52, R135, R136); a place kept for the unit is used up. -/
def pushQ (i : Nat) (w : Word) : U Unit := do
  let c ← curCore
  let v ← curCtx
  if v.reserve = some i then updCtx fun v => { v with reserve := none }
  else if c.queueCount i + 1 > queueDepthOf i then waitOn (.queueReg [] [i])
  updTrick fun t => { t with pushes := t.pushes ++ [(i, w)] }

/-- The queue or mailbox register that a code names under CMODE (R50, R51, R52). -/
def remap (cmode : Word) (k : GReg) : Option Nat :=
  if cmode.getLsbD 4 && 24 ≤ k.toNat && k.toNat ≤ 27 then some (k.toNat - 20)
  else if cmode.getLsbD 5 && 28 ≤ k.toNat then some (k.toNat - 28)
  else none

/-- Wait for the reply of a far atomic that names the register (R261). -/
def farCheck (k : GReg) : U Unit := do
  let v ← curCtx
  if v.farq.any (·.d == k) then stallOn (.farReg k.toNat)

/-- The word of a scalar register, unmapped. [DESIGN CHOICE, log 12] -/
def rawG (c : Core) (v : Ctx) (k : GReg) : Word := if k = 0#5 then 0#64 else memWord c.store (regOff v k)

/-- Set the word of a scalar register, unmapped; g0 discards. -/
def setG (c : Core) (v : Ctx) (k : GReg) (x : Word) : Core :=
  if k = 0#5 then c else { c with store := memWrite c.store (regOff v k) 8 x.toNat }

/-- ReadG(k) (R52). -/
def readG (k : GReg) : U Word := do
  if k = 0#5 then pure 0#64
  else
    farCheck k
    let v ← curCtx
    match remap v.cmode k with
    | some i => popQ i
    | none => pure (rawG (← curCore) v k)

/-- WriteG(k, x) (R52). -/
def writeG (k : GReg) (x : Word) : U Unit := do
  if k = 0#5 then pure ()
  else
    farCheck k
    let v ← curCtx
    match remap v.cmode k with
    | some i => pushQ i x
    | none => updCore fun c => setG c v k x

/-- A destination that a later reply writes: its earlier far atomic has replied, and its queue has room, which is kept for it (R52, R261). -/
def needDest (d : GReg) : U Unit := do
  if d = 0#5 then pure ()
  else
    farCheck d
    let v ← curCtx
    match remap v.cmode d with
    | some i => do
      let c ← curCore
      if c.queueCount i + 1 > queueDepthOf i then waitOn (.queueReg [] [i])
      updCtx fun v => { v with reserve := some i }
    | none => pure ()

/-- A unit that reads its own destination field traps when CMODE remaps it (R138). -/
def noRemap (k : GReg) : U Unit := do
  let v ← curCtx
  stopIf (remap v.cmode k).isSome .illegal

/-! ### Prefix, immediates and targets -/

/-- The payload of the unit's prefix (R36, R37). -/
def prefixOf (u : UnitInfo) : Option (BitVec 24) := u.pre.map (·.extractLsb' 8 24)
def curUnit : U UnitInfo := do pure (← curCtx).unit
def payload : U (Option (BitVec 24)) := do pure (prefixOf (← curUnit))

/-- ImmS(field, n) modulo 2^64 (R37). -/
def immSOf {n : Nat} (pre : Option (BitVec 24)) (f : BitVec n) : Word :=
  match pre with
  | some p => (p ++ f).signExtend 64
  | none => f.signExtend 64
def immS {n : Nat} (f : BitVec n) : U Word := do pure (immSOf (← payload) f)

/-- ImmZ(field, n) (R37). -/
def immZ {n : Nat} (f : BitVec n) : U Word := do
  match ← payload with
  | some p => pure ((p ++ f).setWidth 64)
  | none => pure (f.setWidth 64)

/-- Target(off, n) (R37). -/
def targetOf (u : UnitInfo) {n : Nat} (f : BitVec n) : Word := u.addr + 2#64 * immSOf (prefixOf u) f
def target {n : Nat} (f : BitVec n) : U Word := do pure (targetOf (← curUnit) f)

/-- The address of the unit that follows (R115). -/
def linkAddr : U Word := do let u ← curUnit; pure (u.addr + BitVec.ofNat 64 u.size)

/-- A rounding mode by its code (R33). -/
def roundingOf (c : BitVec 3) : Rounding :=
  match c.toNat with
  | 0 => .rne | 1 => .rz | 2 => .rdn | 3 => .rup | 4 => .rna | _ => .rst

/-- The dynamic mode CMODE.FRM (R51). -/
def frm (v : Ctx) : Rounding := roundingOf (v.cmode.extractLsb' 0 3)

/-- The rounding mode of a format V unit (R34, R36, R159). -/
def vModeOf (v : Ctx) (m : BitVec 2) : Rounding :=
  match prefixOf v.unit with
  | some p => if p.getLsbD 4 then frm v else roundingOf (p.extractLsb' 0 3)
  | none => match m.toNat with
    | 0 => frm v | 1 => .rne | 2 => .rz | _ => .rst
def vMode (m : BitVec 2) : U Rounding := do pure (vModeOf (← curCtx) m)

/-- Whether a format V unit saturates (R34, R36, R159). -/
def vSatOf (v : Ctx) (m : BitVec 2) : Bool :=
  match prefixOf v.unit with
  | some p => p.getLsbD 3
  | none => m.getLsbD 0
def vSat (m : BitVec 2) : U Bool := do pure (vSatOf (← curCtx) m)

/-- Rnd32 of the issuing unit, by element (R82). -/
def unitRnd : U (Nat → Nat) := do
  let s ← getS
  let c ← curCore
  let v ← curCtx
  let seed := match s.launchOf s.cur.1 with | some l => l.word 16 | none => 0#64
  pure (rnd32 seed c.lane s.cur.2 v.retire)

/-! ### Predicates -/

/-- The value of a predicate register; p0 reads all-true (R130, R153). -/
def predOf (c : Core) (v : Ctx) (p : PReg) : Pred :=
  if p = 0#3 then BitVec.allOnes 256 else BitVec.ofNat 256 (memRead c.store (v.wsp + 256 + 128 * p.toNat) 32)
def readP (p : PReg) : U Pred := do pure (predOf (← curCore) (← curCtx) p)

/-- Write a predicate register: W/8 bits, the rest of its slot zero; p0 ignores writes (R130). -/
def setP (c : Core) (v : Ctx) (p : PReg) (x : Pred) : Core :=
  if p = 0#3 then c else { c with store := memWrite c.store (v.wsp + 256 + 128 * p.toNat) 128 x.toNat }
def writeP (p : PReg) (x : Pred) : U Unit := do
  let v ← curCtx
  updCore fun c => setP c v p x

/-- Whether element `i` of width `w` is active (R153). -/
def active (p : Pred) (w i : Nat) : Bool := p.getLsbD (w / 8 * i)

/-- The predicate with the same value in all bits of each element (R153). -/
def predFrom (w : Nat) (f : Nat → Bool) : Pred := BitVec.ofNat 256 <|
  (List.range (2048 / w)).foldl (fun a i => if f i then a + (2 ^ (w / 8) - 1) * 2 ^ (w / 8 * i) else a) 0

/-! ### Vector registers and streams -/

/-- The number of strips of a stream (R392). -/
def Stream.total (m : Stream) : Nat := m.dims.foldl (fun a d => a * d.1) 1

/-- Strips of a stream that its tricks retain or hold pending (R156). -/
def Ctx.stripsHeld (v : Ctx) (k : Nat) : Nat :=
  let n := fun (t : Trick) => (t.stripPops.filter (·.1 == k)).length + (t.stripPushes.filter (·.1 == k)).length
  n v.running + (match v.pending with | some t => n t | none => 0)

/-- Read a vector register; one bound to an input stream gives its next strip (R156, R393). Faults of streams are reported in the
order in which a unit reads its sources and then writes its destination (R160, R433). [DEDUCED, log 74] -/
def readV (k : VReg) : U Vec := do
  let v ← curCtx
  match tabFind v.streams k.toNat with
  | none => pure (tabGet v.v k.toNat 0#2048)
  | some m =>
    stopIf m.out .streamDirection
    match m.buf with
    | [] => if m.next ≥ m.total then stopTrap .streamEnd else waitOn (.strip k.toNat)
    | p :: rest =>
      match p.fault with
      | some t => throw (.trap t)
      | none =>
        updCtx fun v => { v with
          streams := tabSet v.streams k.toNat { m with buf := rest }
          running := { v.running with stripPops := (k.toNat, p) :: v.running.stripPops } }
        pure p.data

/-- Write a vector register; one bound to an output stream takes a strip with its predicate (R156, R393). -/
def writeV (k : VReg) (x : Vec) (p : Pred) : U Unit := do
  let v ← curCtx
  match tabFind v.streams k.toNat with
  | none => updCtx fun v => { v with v := tabSet v.v k.toNat x }
  | some m =>
    stopIf (!m.out) .streamDirection
    if m.err then pure ()
    else
      stopIf (m.next ≥ m.total) .streamEnd
      if m.buf.length + v.stripsHeld k.toNat + 1 > Config.streamDepth then waitOn (.strip k.toNat)
      updCtx fun v => { v with
        streams := tabSet v.streams k.toNat { m with next := m.next + 1 }
        running := { v.running with stripPushes := v.running.stripPushes ++ [(k.toNat, { index := m.next, data := x, pred := p })] } }

/-- What an instruction merges its inactive elements with: the old value of its destination; a strip has none, and only its
active elements are stored (R154, R156). -/
def oldV (k : VReg) : U Vec := do
  let v ← curCtx
  pure (tabGet v.v k.toNat 0#2048)

/-- Element `i` of width `w` (R153). -/
def elem (v : Vec) (w i : Nat) : Nat := v.toNat / 2 ^ (w * i) % 2 ^ w

/-- An element as an instruction reads or writes it: bits [31:19] of an F19 element are ignored when read and zero when written
(R65). -/
def laneOf (t : ElemType) (x : Nat) : Nat := if t = .f19 then x % 2 ^ 19 else x

/-- The vector of given elements of width `w`, from element 0 on. -/
def packFrom (w : Nat) : List Nat → Nat
  | [] => 0
  | e :: t => e % 2 ^ w + 2 ^ w * packFrom w t
def pack (w : Nat) (es : List Nat) : Vec := BitVec.ofNat 2048 (packFrom w es)

/-- The number of elements of a width (R153). -/
def count (w : Nat) : Nat := 2048 / w

/-- Each active element replaced, with the union of the flags raised (R84, R154). -/
def mapActive (w : Nat) (p : Pred) (old : Vec) (f : Nat → Nat × Flags) : Vec × Flags :=
  let es := (List.range (count w)).map fun i => if active p w i then f i else (elem old w i, 0#7)
  (pack w (es.map (·.1)), es.foldl (fun a e => a ||| e.2) 0#7)

/-- CondTrue(cond, a, b) (R35). -/
def condTrue (c : Cond) (a b : Word) : Bool :=
  match c with
  | .eq => a == b
  | .ne => a != b
  | .lt => a.slt b
  | .ge => !a.slt b
  | .ltn => a.ult b
  | .gen => !a.ult b

end Sys2Proof.Machine
end

