-- ==== Sys2Proof/Machine/Flags.lean ====
section
/-! DEFINITION. The flag computations of the vector unit and when an instruction needs the normaliser (R83 to R85, R161). -/

namespace Sys2Proof.Machine

/-- Whether a result rounded toward zero came from a non-zero exact value below the smallest normal magnitude (R85). -/
def tinyResult (f : Fmt) (r : Nat × Flags) : Bool :=
  r.1 / 2 ^ f.fbits % 2 ^ f.ebits == 0 && (r.1 % 2 ^ f.fbits != 0 || (r.2 &&& flagNX) != 0#7)

/-- Whether an active element of a vector is subnormal in a format (R85). -/
def anySubnormal (f : Fmt) (w : Nat) (p : Pred) (v : Vec) : Bool :=
  (List.range (count w)).any fun i => active p w i && f.isSubnormal (elem v w i)

/-- Whether an active result, rounded toward zero, is tiny (R85). -/
def anyTiny (f : Fmt) (w : Nat) (p : Pred) (rz : Nat → Nat × Flags) : Bool :=
  (List.range (count w)).any fun i => active p w i && tinyResult f (rz i)

/-- How a vector unit ends: through the normaliser, or after its interval, or at once (R85, R158). -/
def vectorEnd (norm : Bool) (interval : Nat) : U After :=
  pure (.vector norm interval)

end Sys2Proof.Machine
end

