-- ==== Sys2Proof/Machine/Scalar.lean ====
section
/-! DEFINITION. Scalar instructions (R138, R142 to R150). -/

namespace Sys2Proof.Machine

/-- A unit that writes a function of two registers. -/
def scalar2 (d s1 s2 : GReg) (f : Word → Word → Word) : U After := do
  let a ← readG s1
  let b ← readG s2
  writeG d (f a b)
  pure .next

/-- A unit that writes a function of one register. -/
def scalar1 (d s1 : GReg) (f : Word → Word) : U After := do
  let a ← readG s1
  writeG d (f a)
  pure .next

/-- A unit that writes a function of three registers, read in the order s1, s2, third (R143). -/
def scalar3 (d s1 s2 s3 : GReg) (f : Word → Word → Word → Word) : U After := do
  let a ← readG s1
  let b ← readG s2
  let c ← readG s3
  writeG d (f a b c)
  pure .next

/-- The high half of a product of integers (R144). -/
def mulHigh (a b : Int) : Word := BitVec.ofInt 64 (a * b / 2 ^ 64)

/-- DIV and REM at 64 bits: quotient and remainder (R145). -/
def divRem (signed : Bool) (a b : Word) : Word × Word :=
  let x : Int := if signed then a.toInt else a.toNat
  let y : Int := if signed then b.toInt else b.toNat
  if y = 0 then (0#64, BitVec.ofInt 64 x)
  else (BitVec.ofInt 64 (x.tdiv y), BitVec.ofInt 64 (x.tmod y))

/-- DIV and REM leave the context BLOCKED for 34 ticks (R142). -/
def divide (d s1 s2 : GReg) (f : Word → Word → Word) : U After := do
  let a ← readG s1
  let b ← readG s2
  writeG d (f a b)
  pure (.pause (.interval ((← getS).tick + 35)))

/-- The shift amount of R144. -/
def amount (b : Word) : Nat := b.toNat % 64

def rotLeft (a : Word) (n : Nat) : Word := a.rotateLeft (n % 64)
def rotRight (a : Word) (n : Nat) : Word := a.rotateRight (n % 64)

/-- EXT by type: a type code 0 to 2 sign-extends, 4 to 6 zero-extends, 8, 16 or 32 bits (R144). -/
def extend (t : BitVec 5) (a : Word) : Word :=
  match t.toNat with
  | 0 => (a.setWidth 8).signExtend 64 | 1 => (a.setWidth 16).signExtend 64 | 2 => (a.setWidth 32).signExtend 64
  | 4 => (a.setWidth 8).setWidth 64 | 5 => (a.setWidth 16).setWidth 64 | _ => (a.setWidth 32).setWidth 64

/-- Ones in a number of `n` bits. -/
def ones (n x : Nat) : Nat := (List.range n).countP x.testBit
/-- Leading zeros of a number of `n` bits; `n` for 0. -/
def leadingZeros (n x : Nat) : Nat := if x % 2 ^ n = 0 then n else n - 1 - (x % 2 ^ n).log2
/-- Trailing zeros of a number of `n` bits; `n` for 0. -/
def trailingZeros (n x : Nat) : Nat := ((List.range n).find? x.testBit).getD n
/-- Bit i moved to bit n − 1 − i. -/
def bitReverse (n x : Nat) : Nat := (List.range n).foldl (fun a i => if x.testBit i then a + 2 ^ (n - 1 - i) else a) 0
/-- Byte i moved to byte 7 − i. -/
def byteSwap (a : Word) : Word := BitVec.ofNat 64 (ofBytes (toBytes 8 a.toNat).reverse)

/-- The control word of BFX and BFI: position and length (R146). -/
def fieldPos (b : Word) : Nat := (b.extractLsb' 0 6).toNat
def fieldLen (b : Word) : Nat := (b.extractLsb' 8 6).toNat + 1

/-- BFX (R146). -/
def fieldOut (signed : Bool) (a b : Word) : Word :=
  let len := fieldLen b
  let f := a.toNat / 2 ^ fieldPos b % 2 ^ len
  if signed && f.testBit (len - 1) then BitVec.ofInt 64 ((f : Int) - 2 ^ len) else BitVec.ofNat 64 f

/-- BFI (R146). -/
def fieldIn (x a b : Word) : Word :=
  let m : Word := BitVec.ofNat 64 ((2 ^ fieldLen b - 1) * 2 ^ fieldPos b)
  (x &&& ~~~m) ||| (BitVec.ofNat 64 (a.toNat % 2 ^ fieldLen b * 2 ^ fieldPos b))

/-- Layout(n, i): position and width of a field (R141, R147). -/
def layoutField (c : Core) (n i : Nat) : Nat × Nat :=
  let r := tabGet c.layout (2 * n + i / 4) 0#64
  let f := r.toNat / 2 ^ (16 * (i % 4))
  (f % 64, f / 64 % 128)

/-- The fields of HDR from one on: packed from registers in ascending order (R147). -/
def hdrPackFrom (c : Core) (s1 : GReg) (n : Nat) : Nat → Nat → Word → U Word
  | 0, _, x => pure x
  | r + 1, i, x => do
    let (pos, w) := layoutField c n i
    if w = 0 then hdrPackFrom c s1 n r (i + 1) x
    else
      let a ← readG (s1 + BitVec.ofNat 5 i)
      let m : Word := BitVec.ofNat 64 ((2 ^ w - 1) * 2 ^ pos)
      hdrPackFrom c s1 n r (i + 1) ((x &&& ~~~m) ||| BitVec.ofNat 64 (a.toNat % 2 ^ w * 2 ^ pos))

/-- The fields of HDR from one on: split into registers in ascending order (R147). -/
def hdrSplitFrom (c : Core) (d : GReg) (n : Nat) (x : Word) : Nat → Nat → U Unit
  | 0, _ => pure ()
  | r + 1, i => do
    let (pos, w) := layoutField c n i
    if w ≠ 0 then writeG (d + BitVec.ofNat 5 i) (BitVec.ofNat 64 (x.toNat / 2 ^ pos % 2 ^ w))
    hdrSplitFrom c d n x r (i + 1)

/-- ADD (R144). -/
def execAdd (d s1 s2 : GReg) (s : State) : Out := runIn (scalar2 d s1 s2 fun a b => a + b) s

/-- SUB (R144). -/
def execSub (d s1 s2 : GReg) (s : State) : Out := runIn (scalar2 d s1 s2 fun a b => a - b) s

/-- MUL (R144). -/
def execMul (d s1 s2 : GReg) (s : State) : Out := runIn (scalar2 d s1 s2 fun a b => a * b) s

/-- MULH.i64 (R144). -/
def execMulhI64 (d s1 s2 : GReg) (s : State) : Out := runIn (scalar2 d s1 s2 fun a b => mulHigh a.toInt b.toInt) s

/-- MULH.n64 (R144). -/
def execMulhN64 (d s1 s2 : GReg) (s : State) : Out := runIn (scalar2 d s1 s2 fun a b => mulHigh a.toNat b.toNat) s

/-- MULH.su (R144). -/
def execMulhSu (d s1 s2 : GReg) (s : State) : Out := runIn (scalar2 d s1 s2 fun a b => mulHigh a.toInt b.toNat) s

/-- AND (R144). -/
def execAndR (d s1 s2 : GReg) (s : State) : Out := runIn (scalar2 d s1 s2 fun a b => a &&& b) s

/-- OR (R144). -/
def execOrR (d s1 s2 : GReg) (s : State) : Out := runIn (scalar2 d s1 s2 fun a b => a ||| b) s

/-- XOR (R144). -/
def execXorR (d s1 s2 : GReg) (s : State) : Out := runIn (scalar2 d s1 s2 fun a b => a ^^^ b) s

/-- ANDN (R144). -/
def execAndn (d s1 s2 : GReg) (s : State) : Out := runIn (scalar2 d s1 s2 fun a b => a &&& ~~~b) s

/-- SHL (R144). -/
def execShl (d s1 s2 : GReg) (s : State) : Out := runIn (scalar2 d s1 s2 fun a b => a <<< amount b) s

/-- SHR (R144). -/
def execShr (d s1 s2 : GReg) (s : State) : Out := runIn (scalar2 d s1 s2 fun a b => a >>> amount b) s

/-- SAR (R144). -/
def execSar (d s1 s2 : GReg) (s : State) : Out := runIn (scalar2 d s1 s2 fun a b => a.sshiftRight (amount b)) s

/-- ROT.l (R144). -/
def execRotL (d s1 s2 : GReg) (s : State) : Out := runIn (scalar2 d s1 s2 fun a b => rotLeft a (amount b)) s

/-- ROT.r (R144). -/
def execRotR (d s1 s2 : GReg) (s : State) : Out := runIn (scalar2 d s1 s2 fun a b => rotRight a (amount b)) s

/-- MIN.i64 (R144). -/
def execMinI64 (d s1 s2 : GReg) (s : State) : Out := runIn (scalar2 d s1 s2 fun a b => if b.slt a then b else a) s

/-- MIN.n64 (R144). -/
def execMinN64 (d s1 s2 : GReg) (s : State) : Out := runIn (scalar2 d s1 s2 fun a b => if b.ult a then b else a) s

/-- MAX.i64 (R144). -/
def execMaxI64 (d s1 s2 : GReg) (s : State) : Out := runIn (scalar2 d s1 s2 fun a b => if a.slt b then b else a) s

/-- MAX.n64 (R144). -/
def execMaxN64 (d s1 s2 : GReg) (s : State) : Out := runIn (scalar2 d s1 s2 fun a b => if a.ult b then b else a) s

/-- DIV.i64 (R142, R145). -/
def execDivI64 (d s1 s2 : GReg) (s : State) : Out := runIn (divide d s1 s2 fun a b => (divRem true a b).1) s

/-- DIV.n64 (R142, R145). -/
def execDivN64 (d s1 s2 : GReg) (s : State) : Out := runIn (divide d s1 s2 fun a b => (divRem false a b).1) s

/-- REM.i64 (R142, R145). -/
def execRemI64 (d s1 s2 : GReg) (s : State) : Out := runIn (divide d s1 s2 fun a b => (divRem true a b).2) s

/-- REM.n64 (R142, R145). -/
def execRemN64 (d s1 s2 : GReg) (s : State) : Out := runIn (divide d s1 s2 fun a b => (divRem false a b).2) s

/-- MADD (R144). -/
def execMadd (d s1 s2 s3 : GReg) (s : State) : Out := runIn (scalar3 d s1 s2 s3 fun a b c => a * b + c) s

/-- MSUB (R144). -/
def execMsub (d s1 s2 s3 : GReg) (s : State) : Out := runIn (scalar3 d s1 s2 s3 fun a b c => c - a * b) s

/-- SEL (R144). -/
def execSel (d s1 s2 s3 : GReg) (s : State) : Out := runIn (scalar3 d s1 s2 s3 fun a b c => if c = 0#64 then b else a) s

/-- ADDC (R144). -/
def execAddc (d s1 s2 s3 : GReg) (s : State) : Out := runIn (scalar3 d s1 s2 s3 fun a b c => a + b + (c &&& 1#64)) s

/-- ADDC.co (R144). -/
def execAddcCo (d s1 s2 s3 : GReg) (s : State) : Out := runIn (scalar3 d s1 s2 s3 fun a b c => BitVec.ofNat 64 ((a.toNat + b.toNat + c.toNat % 2) / 2 ^ 64)) s

/-- CMP (R144). -/
def execCmp (d : GReg) (c : Cond) (s1 s2 : GReg) (s : State) : Out :=
  runIn (scalar2 d s1 s2 fun a b => if condTrue c a b then 1#64 else 0#64) s

/-- EXT (R144). -/
def execExt (d s1 : GReg) (t : BitVec 5) (s : State) : Out := runIn (scalar1 d s1 (extend t)) s

/-- BITC.pop (R144). -/
def execBitcPop (d s1 : GReg) (s : State) : Out := runIn (scalar1 d s1 fun a => BitVec.ofNat 64 (ones 64 a.toNat)) s

/-- BITC.clz (R144). -/
def execBitcClz (d s1 : GReg) (s : State) : Out := runIn (scalar1 d s1 fun a => BitVec.ofNat 64 (leadingZeros 64 a.toNat)) s

/-- BITC.ctz (R144). -/
def execBitcCtz (d s1 : GReg) (s : State) : Out := runIn (scalar1 d s1 fun a => BitVec.ofNat 64 (trailingZeros 64 a.toNat)) s

/-- BITC.rev (R144). -/
def execBitcRev (d s1 : GReg) (s : State) : Out := runIn (scalar1 d s1 fun a => BitVec.ofNat 64 (bitReverse 64 a.toNat)) s

/-- BITC.bsw (R144). -/
def execBitcBsw (d s1 : GReg) (s : State) : Out := runIn (scalar1 d s1 fun a => byteSwap a) s

/-- BFX.n (R146). -/
def execBfxN (d s1 s2 : GReg) (s : State) : Out := runIn (scalar2 d s1 s2 (fieldOut false)) s

/-- BFX.i (R146). -/
def execBfxI (d s1 s2 : GReg) (s : State) : Out := runIn (scalar2 d s1 s2 (fieldOut true)) s

/-- BFI: it reads its destination last, and traps when CMODE remaps it (R138, R146). -/
def execBfi (d s1 s2 : GReg) (s : State) : Out :=
  runIn (do
    noRemap d
    let a ← readG s1
    let b ← readG s2
    let x ← readG d
    writeG d (fieldIn x a b)
    pure .next) s

/-- LEA (R144). -/
def execLea (d s1 s2 : GReg) (sh : BitVec 4) (s : State) : Out :=
  runIn (scalar2 d s1 s2 fun a b => a + b <<< sh.toNat) s

/-- HDR.pack (R147). -/
def execHdrPack (d s1 : GReg) (n : BitVec 4) (s : State) : Out :=
  runIn (do
    let x ← hdrPackFrom (← curCore) s1 n.toNat 8 0 0#64
    writeG d x
    pure .next) s

/-- HDR.split (R147). -/
def execHdrSplit (d s1 : GReg) (n : BitVec 4) (s : State) : Out :=
  runIn (do
    let x ← readG s1
    hdrSplitFrom (← curCore) d n.toNat x 8 0
    pure .next) s

/-- SHUF (R148). -/
def execShuf (d s1 s2 : GReg) (s : State) : Out := runIn (scalar2 d s1 s2 fun a b => shuf64 b a) s

/-- SHUF.k for k from 8 to 39 (R148). -/
def execShufKLow (d s1 s2 : GReg) (k : BitVec 5) (s : State) : Out :=
  runIn (scalar2 d s1 s2 fun a b => shufK b a (k.toNat + 8)) s

/-- SHUF.k for k from 40 to 63 (R148). -/
def execShufKHigh (d s1 s2 : GReg) (k : BitVec 5) (s : State) : Out :=
  runIn (scalar2 d s1 s2 fun a b => shufK b a (k.toNat + 40)) s

/-- A unit that writes a function of a register and an immediate (R149). -/
def scalarI {n : Nat} (d s1 : GReg) (imm : BitVec n) (f : Word → Word → Word) : U After := do
  let a ← readG s1
  let i ← immS imm
  writeG d (f a i)
  pure .next

/-- ADDI (R149). -/
def execAddi (d s1 : GReg) (imm : BitVec 14) (s : State) : Out := runIn (scalarI d s1 imm fun a i => a + i) s

/-- LOGI.and (R149). -/
def execLogiAnd (d s1 : GReg) (imm : BitVec 12) (s : State) : Out := runIn (scalarI d s1 imm fun a i => a &&& i) s

/-- LOGI.or (R149). -/
def execLogiOr (d s1 : GReg) (imm : BitVec 12) (s : State) : Out := runIn (scalarI d s1 imm fun a i => a ||| i) s

/-- LOGI.xor (R149). -/
def execLogiXor (d s1 : GReg) (imm : BitVec 12) (s : State) : Out := runIn (scalarI d s1 imm fun a i => a ^^^ i) s

/-- LOGI.andn (R149). -/
def execLogiAndn (d s1 : GReg) (imm : BitVec 12) (s : State) : Out := runIn (scalarI d s1 imm fun a i => a &&& ~~~i) s

/-- SHI.shl (R149). -/
def execShiShl (d s1 : GReg) (n : BitVec 6) (s : State) : Out := runIn (scalar1 d s1 fun a => a <<< n.toNat) s

/-- SHI.shr (R149). -/
def execShiShr (d s1 : GReg) (n : BitVec 6) (s : State) : Out := runIn (scalar1 d s1 fun a => a >>> n.toNat) s

/-- SHI.sar (R149). -/
def execShiSar (d s1 : GReg) (n : BitVec 6) (s : State) : Out := runIn (scalar1 d s1 fun a => a.sshiftRight n.toNat) s

/-- SHI.rot (R149). -/
def execShiRot (d s1 : GReg) (n : BitVec 6) (s : State) : Out := runIn (scalar1 d s1 fun a => rotLeft a n.toNat) s

/-- LI (R150). -/
def execLi (d : GReg) (imm : BitVec 19) (s : State) : Out :=
  runIn (do
    writeG d (← immS imm)
    pure .next) s

/-- LIH: it reads its destination, and traps when CMODE remaps it (R138, R150). -/
def execLih (d : GReg) (imm : BitVec 19) (s : State) : Out :=
  runIn (do
    noRemap d
    let x ← readG d
    let i ← immS imm
    writeG d (i.setWidth 32 ++ x.setWidth 32)
    pure .next) s

end Sys2Proof.Machine
end

