-- ==== Sys2Proof/Machine/Transc.lean ====
section
/-! DEFINITION. Transcendental functions (R86, R87, R94): fixed-point evaluation at 512 fraction bits of a value that is
irrational except in the cases singled out, then one rounding of it with its sticky mark. [DESIGN CHOICE, log 9] -/

namespace Sys2Proof.Machine

/-- ln 2 at 512 fraction bits. -/
def ln2Fix : Nat := 0xb17217f7d1cf79abc9e3b39803f2f6af40f343267298b62d8a0d175b8baafa2be7b876206debac98559552fb4afa1b10ed2eae35c138214427573b291169b825

/-- π at 512 fraction bits. -/
def piFix : Nat := 0x3243f6a8885a308d313198a2e03707344a4093822299f31d0082efa98ec4e6c89452821e638d01377be5466cf34e90c6cc0ac29b7c97c50dd3f84d5b5b5470917

/-- The product of two fixed-point numbers. -/
def fixMul (a b : Int) : Int := a * b / 2 ^ 512

/-- The sum of y^k / k! from term `t` on: `n` terms, the next one being number `k`. -/
def expSeries (y : Int) : Nat → Nat → Int → Int → Int
  | 0, _, _, acc => acc
  | n + 1, k, t, acc => let t' := fixMul t y / (k : Int); expSeries y n (k + 1) t' (acc + t')

/-- e^y for a fixed-point y of magnitude below 1. -/
def fixExp (y : Int) : Int := expSeries y 120 1 (2 ^ 512) (2 ^ 512)

/-- The sum of t^(2k+1) / (2k+1), `n` terms from power `p` = t^(2k+1). -/
def atanhSeries (t2 : Int) : Nat → Nat → Int → Int → Int
  | 0, _, _, acc => acc
  | n + 1, k, p, acc => atanhSeries t2 n (k + 1) (fixMul p t2) (acc + p / ((2 * k + 1 : Nat) : Int))

/-- ln z for a fixed-point z in [1, 2]. -/
def fixLn (z : Int) : Int :=
  let t := (z - 2 ^ 512) * 2 ^ 512 / (z + 2 ^ 512)
  2 * atanhSeries (fixMul t t) 175 0 t 0

/-- The sine series. -/
def sinSeries (y2 : Int) : Nat → Nat → Int → Int → Int
  | 0, _, _, acc => acc
  | n + 1, k, t, acc =>
    let t' := -(fixMul t y2) / (((2 * k) * (2 * k + 1) : Nat) : Int)
    sinSeries y2 n (k + 1) t' (acc + t')

/-- sin y for a fixed-point y in [0, π/2]. -/
def fixSin (y : Int) : Int := sinSeries (fixMul y y) 70 1 y y

/-- The magnitude of an irrational fixed-point value, its lowest 100 bits dropped. -/
def fixMag (x : Int) : Mag := if x.natAbs / 2 ^ 100 = 0 then ⟨1, -600, true⟩ else ⟨x.natAbs / 2 ^ 100, -412, true⟩

/-- A dyadic as a fixed-point number (its exponent is at least −512). -/
def fixOf (m : Nat) (e : Int) : Nat := m * 2 ^ (e + 512).toNat

/-- e^(−d) for a fixed-point d from 0 on. -/
def fixExpNeg (d : Nat) : Int :=
  let n := d / ln2Fix
  let f := d - n * ln2Fix
  fixExp (-(f : Int)) / 2 ^ n

/-- The functions of VFUN (R173). -/
inductive Fun where
  | exp2 | log2 | rcp | rsq | sinpi | cospi | tanh
  deriving DecidableEq, Repr

/-- sin(π r) for a dyadic r = n / 2^j reduced to [0, 2): sign and magnitude, or an exact answer. -/
def sinPi (neg : Bool) (n j : Nat) : Val ⊕ (Bool × Mag) :=
  let period := 2 * 2 ^ j
  let r := n % period
  let s := neg != decide (r ≥ 2 ^ j)
  let r := r % 2 ^ j
  if r = 0 then .inl (.fin neg 0 0)
  else if 2 * r = 2 ^ j then .inl (.fin s 1 0)
  else
    let r := if 2 * r > 2 ^ j then 2 ^ j - r else r
    .inr (s, fixMag (fixSin (fixMul (r * 2 ^ 512 / 2 ^ j : Nat) piFix)))

/-- f(x) of R86 on a binary32 pattern, before rounding: an exact value, or a sign and an inexact magnitude, and flags.
[DESIGN CHOICE, log 9] -/
def funValue (g : Fun) (a : Nat) : (Val ⊕ (Bool × Mag)) × Flags :=
  match g, fmtF32.value a with
  | _, .nan => (.inl .nan, fmtF32.sFlag a)
  | .exp2, .inf s => (.inl (if s then .fin false 0 0 else .inf false), 0#7)
  | .exp2, .fin s m e =>
    if e ≥ 0 ∨ m % 2 ^ (-e).toNat = 0 then
      let k : Int := (if s then -1 else 1) * ((m * 2 ^ e.toNat / 2 ^ (-e).toNat : Nat) : Int)
      (.inl (.fin false 1 (max (-100000) (min 100000 k))), 0#7)
    else
      let j := (-e).toNat
      let x : Int := if s then -(m : Int) else m
      let n := x / (2 ^ j : Int)
      let f := x % (2 ^ j : Int)
      let y := fixExp (fixMul (f * 2 ^ 512 / 2 ^ j) ln2Fix)
      (.inr (false, ⟨y.natAbs / 2 ^ 100, -412 + n, true⟩), 0#7)
  | .log2, .inf s => if s then (.inl .nan, flagNV) else (.inl (.inf false), 0#7)
  | .log2, .fin s m e =>
    if m = 0 then (.inl (.inf true), flagDZ)
    else if s then (.inl .nan, flagNV)
    else
      let k := m.log2
      if m = 2 ^ k then (.inl (valOfInt (e + k)), 0#7)
      else
        let l := fixLn (m * 2 ^ 512 / 2 ^ k : Nat) * 2 ^ 512 / (ln2Fix : Int) + (e + k) * 2 ^ 512
        (.inr (l < 0, fixMag l), 0#7)
  | .rcp, .inf s => (.inl (.fin s 0 0), 0#7)
  | .rcp, .fin s m e =>
    if m = 0 then (.inl (.inf s), flagDZ) else (.inr (s, divMag 1 0 m e), 0#7)
  | .rsq, .inf s => if s then (.inl .nan, flagNV) else (.inl (.fin false 0 0), 0#7)
  | .rsq, .fin s m e =>
    if m = 0 then (.inl (.inf s), flagDZ)
    else if s then (.inl .nan, flagNV)
    else
      let k : Nat := if (e % 2 == 0) then 280 else 281
      let x := 2 ^ k / m
      let r := isqrt x
      (.inr (false, ⟨r, (-e - k) / 2, r * r != x || 2 ^ k % m != 0⟩), 0#7)
  | .sinpi, .inf _ => (.inl .nan, flagNV)
  | .sinpi, .fin s m e =>
    if e ≥ 0 then (.inl (.fin s 0 0), 0#7) else (sinPi s m (-e).toNat, 0#7)
  | .cospi, .inf _ => (.inl .nan, flagNV)
  | .cospi, .fin _ m e =>
    if m = 0 then (.inl (.fin false 1 0), 0#7)
    else if e ≥ 0 then (.inl (.fin (e == 0 && m % 2 == 1) 1 0), 0#7)
    else
      let j := (-e).toNat
      match sinPi false (2 * m + 2 ^ j) (j + 1) with
      | .inl (.fin _ 0 _) => (.inl (.fin false 0 0), 0#7)
      | r => (r, 0#7)
  | .tanh, .inf s => (.inl (.fin s 1 0), 0#7)
  | .tanh, .fin s m e =>
    if m = 0 then (.inl (.fin s 0 0), 0#7)
    else if e + m.log2 ≥ 7 then (.inr (s, ⟨2 ^ 412 - 1, -412, true⟩), 0#7)
    else
      let x := fixExpNeg (2 * fixOf m e)
      (.inr (s, fixMag ((2 ^ 512 - x) * 2 ^ 512 / (2 ^ 512 + x))), 0#7)

/-- VFUN on one element: the full form rounds to binary32, the `.a` form to P12 (R86, R87). -/
def fFun (g : Fun) (approx : Bool) (mode : Rounding) (rnd a : Nat) : Nat × Flags :=
  let f := if approx then fmtP12 else fmtF32
  let (v, fl) := funValue g a
  let (r, fr) := match v with
    | .inl x => roundVal f mode rnd x
    | .inr (s, x) => roundMag f mode rnd s x
  (if approx then r * 2 ^ 12 else r, fl ||| fr)

/-- ln(e^x + e^y) on binary32 patterns (R94, R313). [DESIGN CHOICE, log 9] -/
def fLae (mode : Rounding) (a b : Nat) : Nat × Flags :=
  let f := fmtF32
  let s := f.sFlag a ||| f.sFlag b
  let va := f.value a
  let vb := f.value b
  match va, vb with
  | .nan, _ => (f.canonNaN, s)
  | _, .nan => (f.canonNaN, s)
  | .inf true, _ => (b, s)
  | _, .inf true => (a, s)
  | .inf false, _ => (f.infBits false, s)
  | _, .inf false => (f.infBits false, s)
  | .fin _ _ _, .fin _ _ _ =>
    let lt := cmpVal va vb == .lt
    let hi := if lt then vb else va
    let lo := if lt then va else vb
    let x : Int := hi.mantAt (-512)
    let y : Int := lo.mantAt (-512)
    let d := (x - y).natAbs
    let t : Int :=
      if d > 250 * 2 ^ 512 then x + 2 ^ 90
      else let w := fixExpNeg d; x + fixLn (2 ^ 512 + w)
    let (r, fl) := roundMag f mode 0 (t < 0) (fixMag t)
    (r, fl ||| s)

end Sys2Proof.Machine
end

