-- ==== Sys2Proof/Machine/Vector.lean ====
section
/-! DEFINITION. Vector arithmetic, predicates, conversions, reductions and data movement (R151 to R180). -/

namespace Sys2Proof.Machine

/-- One element's result on a format, a mode and the element's random bits. -/
abbrev FOp := Fmt → Rounding → Nat → List Nat → Nat × Flags

/-- Write a vector result under a predicate, raise its flags and end. -/
def vFinish (d : VReg) (pr : Pred) (r : Vec × Flags) (norm : Bool) (interval : Nat) : U After := do
  writeV d r.1 pr
  raiseFlags r.2
  vectorEnd norm interval

/-- An element-wise instruction that rounds or saturates (R159, R161 to R164); `integral` results are never tiny (R85). -/
def vArith (d : VReg) (srcs : List VReg) (p : PReg) (t : ElemType) (m : BitVec 2) (fop : FOp)
    (iop : Bool → List Nat → Nat × Flags) (interval : Nat) (integral : Bool := false) : U After := do
  let vs ← srcs.mapM readV
  let old ← oldV d
  let pr ← readP p
  let w := t.width
  let args := fun i => vs.map (elem · w i)
  if t.isInt then
    let sat ← vSat m
    vFinish d pr (mapActive w pr old fun i => iop sat (args i)) false interval
  else
    let f := fmtOf t
    let mode ← vMode m
    let rnd ← unitRnd
    let norm := vs.any (anySubnormal f w pr ·) || (!integral && anyTiny f w pr fun i => fop f .rz 0 (args i))
    vFinish d pr (mapActive w pr old fun i => fop f mode (rnd i) (args i)) norm interval

/-- An element-wise instruction that neither rounds nor needs the normaliser. -/
def vPure (d : VReg) (srcs : List VReg) (p : PReg) (t : ElemType) (f : List Nat → Nat × Flags) : U After := do
  let vs ← srcs.mapM readV
  let old ← oldV d
  let pr ← readP p
  let w := t.width
  vFinish d pr (mapActive w pr old fun i => f (vs.map (elem · w i))) false 0

/-- The operands of an element. -/
def arg (xs : List Nat) (i : Nat) : Nat := xs.getD i 0

/-- An exact integer operation brought into the type (R76, R159, R163). -/
def intOp (t : ElemType) (f : Int → Int → Int) (sat : Bool) (xs : List Nat) : Nat × Flags :=
  intInto t sat (f (intOf t (arg xs 0)) (intOf t (arg xs 1)))

def fop2 (g : Fmt → Rounding → Nat → Nat → Nat → Nat × Flags) : FOp := fun f mode rnd xs => g f mode rnd (arg xs 0) (arg xs 1)

/-- VMIN and VMAX on one pair (R163, R164). -/
def minMax (t : ElemType) (least : Bool) (a b : Nat) : Nat × Flags :=
  if t.isInt then (if (intOf t a < intOf t b) == least then a else b, 0#7) else fMinMax (fmtOf t) least a b

/-- VUN neg and abs on a floating-point element: the sign bit alone changes, but for a NaN (R66, R165). -/
def fSign (f : Fmt) (neg : Bool) (a : Nat) : Nat × Flags :=
  if f.isNaN a then (f.canonNaN, f.sFlag a)
  else
    let mag := a % 2 ^ f.signPos
    (if neg && !a.testBit f.signPos then mag + 2 ^ f.signPos else mag, 0#7)

/-- VSH on one element (R167); amounts past twice the width shift as that amount does. -/
def shiftElem (t : ElemType) (sat : Bool) (x a : Nat) : Nat × Flags :=
  let w := t.width
  let v := intOf t x
  let n : Int := if a ≥ 2 ^ (w - 1) then (a : Int) - 2 ^ w else a
  if n ≥ 0 then intInto t sat (v * 2 ^ min n.toNat (2 * w))
  else intInto t false (v / 2 ^ min (-n).toNat (2 * w))

/-- VADD (R162). -/
def execVadd (d s1 s2 : VReg) (p : PReg) (t : ElemType) (m : BitVec 2) (s : State) : Out :=
  runIn (vArith d [s1, s2] p t m (fop2 fAdd) (intOp t fun a b => a + b) 0) s

/-- VSUB (R162). -/
def execVsub (d s1 s2 : VReg) (p : PReg) (t : ElemType) (m : BitVec 2) (s : State) : Out :=
  runIn (vArith d [s1, s2] p t m (fop2 fSub) (intOp t fun a b => a - b) 0) s

/-- VMUL (R162). -/
def execVmul (d s1 s2 : VReg) (p : PReg) (t : ElemType) (m : BitVec 2) (s : State) : Out :=
  runIn (vArith d [s1, s2] p t m (fop2 fMul) (intOp t fun a b => a * b) 0) s

/-- VFMA (R162). -/
def execVfma (d s1 s2 : VReg) (p : PReg) (t : ElemType) (m : BitVec 2) (s : State) : Out :=
  runIn (vArith d [s1, s2, d] p t m (fun f mode rnd xs => fFma f mode rnd (arg xs 0) (arg xs 1) (arg xs 2))
    (fun sat xs => intInto t sat (intOf t (arg xs 0) * intOf t (arg xs 1) + intOf t (arg xs 2))) 0) s

/-- VDIV (R158, R162 to R164). -/
def execVdiv (d s1 s2 : VReg) (p : PReg) (t : ElemType) (m : BitVec 2) (s : State) : Out :=
  runIn (vArith d [s1, s2] p t m (fop2 fDiv) (intOp t fun a b => if b = 0 then 0 else a.tdiv b) 24) s

/-- VSQRT (R158, R162, R164). -/
def execVsqrt (d s1 : VReg) (p : PReg) (t : ElemType) (m : BitVec 2) (s : State) : Out :=
  runIn (vArith d [s1] p t m (fun f mode rnd xs => fSqrt f mode rnd (arg xs 0)) (fun _ xs => (arg xs 0, 0#7)) 24) s

/-- VMIN (R162 to R164). -/
def execVmin (d s1 s2 : VReg) (p : PReg) (t : ElemType) (s : State) : Out :=
  runIn (vPure d [s1, s2] p t fun xs => minMax t true (arg xs 0) (arg xs 1)) s

/-- VMAX (R162 to R164). -/
def execVmax (d s1 s2 : VReg) (p : PReg) (t : ElemType) (s : State) : Out :=
  runIn (vPure d [s1, s2] p t fun xs => minMax t false (arg xs 0) (arg xs 1)) s

/-- VUN neg and abs: saturation on integers, the sign alone on floating point, never the normaliser (R161, R165). -/
def vSign (d s1 : VReg) (p : PReg) (t : ElemType) (m : BitVec 2) (neg : Bool) : U After := do
  let sat ← vSat m
  vPure d [s1] p t fun xs =>
    if t.isInt then
      let v := intOf t (arg xs 0)
      intInto t sat (if neg then -v else (v.natAbs : Int))
    else fSign (fmtOf t) neg (arg xs 0)

/-- VUN neg (R165). -/
def execVunNeg (d s1 : VReg) (p : PReg) (t : ElemType) (m : BitVec 2) (s : State) : Out :=
  runIn (vSign d s1 p t m true) s

/-- VUN abs (R165). -/
def execVunAbs (d s1 : VReg) (p : PReg) (t : ElemType) (m : BitVec 2) (s : State) : Out :=
  runIn (vSign d s1 p t m false) s

/-- VUN rint (R161, R165). -/
def execVunRint (d s1 : VReg) (p : PReg) (t : ElemType) (m : BitVec 2) (s : State) : Out :=
  runIn (vArith d [s1] p t m (fun f mode rnd xs => fRint f mode rnd (arg xs 0)) (fun _ xs => (arg xs 0, 0#7)) 0 true) s

/-- VUN popc (R165). -/
def execVunPopc (d s1 : VReg) (p : PReg) (t : ElemType) (s : State) : Out :=
  runIn (vPure d [s1] p t fun xs => (ones t.width (arg xs 0), 0#7)) s

/-- VUN clz (R165). -/
def execVunClz (d s1 : VReg) (p : PReg) (t : ElemType) (s : State) : Out :=
  runIn (vPure d [s1] p t fun xs => (leadingZeros t.width (arg xs 0), 0#7)) s

/-- VLOG on one pair: `a` the destination element, `b` the source element (R166). -/
def vLogic (d s1 : VReg) (p : PReg) (t : ElemType) (f : BitVec 64 → BitVec 64 → BitVec 64) : U After :=
  vPure d [s1, d] p t fun xs => ((f (BitVec.ofNat 64 (arg xs 1)) (BitVec.ofNat 64 (arg xs 0))).toNat % 2 ^ t.width, 0#7)

/-- VLOG and (R166). -/
def execVlogAnd (d s1 : VReg) (p : PReg) (t : ElemType) (s : State) : Out :=
  runIn (vLogic d s1 p t fun a b => a &&& b) s

/-- VLOG or (R166). -/
def execVlogOr (d s1 : VReg) (p : PReg) (t : ElemType) (s : State) : Out :=
  runIn (vLogic d s1 p t fun a b => a ||| b) s

/-- VLOG xor (R166). -/
def execVlogXor (d s1 : VReg) (p : PReg) (t : ElemType) (s : State) : Out :=
  runIn (vLogic d s1 p t fun a b => a ^^^ b) s

/-- VLOG andn (R166). -/
def execVlogAndn (d s1 : VReg) (p : PReg) (t : ElemType) (s : State) : Out :=
  runIn (vLogic d s1 p t fun a b => a &&& ~~~b) s

/-- VLOG orn (R166). -/
def execVlogOrn (d s1 : VReg) (p : PReg) (t : ElemType) (s : State) : Out :=
  runIn (vLogic d s1 p t fun a b => a ||| ~~~b) s

/-- VLOG nand (R166). -/
def execVlogNand (d s1 : VReg) (p : PReg) (t : ElemType) (s : State) : Out :=
  runIn (vLogic d s1 p t fun a b => ~~~(a &&& b)) s

/-- VLOG nor (R166). -/
def execVlogNor (d s1 : VReg) (p : PReg) (t : ElemType) (s : State) : Out :=
  runIn (vLogic d s1 p t fun a b => ~~~(a ||| b)) s

/-- VLOG xnor (R166). -/
def execVlogXnor (d s1 : VReg) (p : PReg) (t : ElemType) (s : State) : Out :=
  runIn (vLogic d s1 p t fun a b => ~~~(a ^^^ b)) s

/-- VLOG not (R166). -/
def execVlogNot (d s1 : VReg) (p : PReg) (t : ElemType) (s : State) : Out :=
  runIn (vLogic d s1 p t fun _ b => ~~~b) s

/-- VSH (R167). -/
def execVsh (d s1 s2 : VReg) (p : PReg) (t : ElemType) (m : BitVec 2) (s : State) : Out :=
  runIn (vArith d [s1, s2] p t m (fun _ _ _ _ => (0, 0#7)) (fun sat xs => shiftElem t sat (arg xs 0) (arg xs 1)) 0) s

/-- VCMP on one pair: its truth, and NV for a signalling NaN (R168). -/
def vCompare (c : VCond) (t : ElemType) (a b : Nat) : Bool × Flags :=
  if t.isInt then
    let x := intOf t a
    let y := intOf t b
    (match c with | .eq => x == y | .ne => x != y | .lt => decide (x < y) | .le => decide (x ≤ y), 0#7)
  else
    let f := fmtOf t
    let fl := f.sFlag a ||| f.sFlag b
    if f.isNaN a || f.isNaN b then (c == .ne, fl)
    else
      let o := cmpVal (f.value a) (f.value b)
      (match c with | .eq => o == .eq | .ne => o != .eq | .lt => o == .lt | .le => o != .gt, fl)

/-- VCMP (R154, R168). -/
def execVcmp (q : PReg) (c : VCond) (s1 s2 : VReg) (p : PReg) (t : ElemType) (s : State) : Out :=
  runIn (do
    let a ← readV s1
    let b ← readV s2
    let pr ← readP p
    let w := t.width
    let r := fun i => vCompare c t (elem a w i) (elem b w i)
    writeP q (predFrom w fun i => active pr w i && (r i).1)
    raiseFlags ((List.range (count w)).foldl (fun fl i => if active pr w i then fl ||| (r i).2 else fl) 0#7)
    pure .next) s

/-- WHILE: `l` selects at most, `u` unsigned bounds (R169). -/
def execWhilePred (q : PReg) (l u : Bool) (s1 s2 : GReg) (t : ElemType) (s : State) : Out :=
  runIn (do
    let a ← readG s1
    let b ← readG s2
    let x : Int := if u then a.toNat else a.toInt
    let y : Int := if u then b.toNat else b.toInt
    writeP q (predFrom t.width fun i => if l then decide (x + i ≤ y) else decide (x + i < y))
    pure .next) s

/-- VWID (R171). -/
def execVwid (d : GReg) (s : State) : Out :=
  runIn (do
    writeG d (BitVec.ofNat 64 Config.W)
    pure .next) s

/-- PLOG (R170). -/
def pLogic (q s1 s2 g : PReg) (f : Pred → Pred → Pred) : U After := do
  let a ← readP s1
  let b ← readP s2
  let c ← readP g
  writeP q (f a b &&& c)
  pure .next

/-- PLOG and (R170). -/
def execPlogAnd (q s1 s2 g : PReg) (s : State) : Out :=
  runIn (pLogic q s1 s2 g fun a b => a &&& b) s

/-- PLOG or (R170). -/
def execPlogOr (q s1 s2 g : PReg) (s : State) : Out :=
  runIn (pLogic q s1 s2 g fun a b => a ||| b) s

/-- PLOG xor (R170). -/
def execPlogXor (q s1 s2 g : PReg) (s : State) : Out :=
  runIn (pLogic q s1 s2 g fun a b => a ^^^ b) s

/-- PLOG andn (R170). -/
def execPlogAndn (q s1 s2 g : PReg) (s : State) : Out :=
  runIn (pLogic q s1 s2 g fun a b => a &&& ~~~b) s

/-- VCVT and VCVT.hi (R161, R172): an integer destination rounds in the dynamic mode unless a prefix says otherwise. -/
def vConvert (d s1 : VReg) (src : ElemType) (p : PReg) (t : ElemType) (m : BitVec 2) (hi : Bool) : U After := do
  let a ← readV s1
  let old ← oldV d
  let pr ← readP p
  let sat ← vSat m
  let mode ← if t.isInt then vMode 0#2 else vMode m
  let rnd ← unitRnd
  let ns := count src.width
  let nt := count t.width
  let n := min ns nt
  let dj := if hi then nt - n else 0
  let dk := if hi then ns - n else 0
  let x := fun j => elem a src.width (j - dj + dk)
  let act := fun j => decide (dj ≤ j ∧ j < dj + n) && active pr t.width j
  let res := fun (mode : Rounding) (r : Nat) (j : Nat) => convert src t (sat && t.isInt) mode r (x j)
  let es := (List.range nt).map fun j => if act j then res mode (rnd j) j else (elem old t.width j, 0#7)
  let flt := !src.isInt
  let norm := (List.range nt).any fun j => act j &&
    ((flt && (fmtOf src).isSubnormal (if src == .f19 then x j % 2 ^ 19 else x j)) ||
      (!t.isInt && tinyResult (fmtOf t) (res .rz 0 j)))
  writeV d (pack t.width (es.map (·.1))) pr
  raiseFlags (es.foldl (fun fl e => fl ||| e.2) 0#7)
  vectorEnd norm 0

/-- VCVT (R172). -/
def execVcvt (d s1 : VReg) (srcT : ElemType) (p : PReg) (t : ElemType) (m : BitVec 2) (s : State) : Out :=
  runIn (vConvert d s1 srcT p t m false) s

/-- VCVT.hi (R172). -/
def execVcvtHi (d s1 : VReg) (srcT : ElemType) (p : PReg) (t : ElemType) (m : BitVec 2) (s : State) : Out :=
  runIn (vConvert d s1 srcT p t m true) s

/-- VFUN; the `.a` forms leave the context BLOCKED for 4 ticks, the others for 24 (R158, R173). -/
def vFun (g : Fun) (d s1 : VReg) (x : Bool) (p : PReg) (m : BitVec 2) : U After :=
  vArith d [s1] p .f32 m (fun _ mode rnd xs => fFun g x mode rnd (arg xs 0)) (fun _ xs => (arg xs 0, 0#7)) (if x then 4 else 24)

/-- VFUN exp2 (R173). -/
def execVfunExp2 (d s1 : VReg) (x : Bool) (p : PReg) (m : BitVec 2) (s : State) : Out :=
  runIn (vFun .exp2 d s1 x p m) s

/-- VFUN log2 (R173). -/
def execVfunLog2 (d s1 : VReg) (x : Bool) (p : PReg) (m : BitVec 2) (s : State) : Out :=
  runIn (vFun .log2 d s1 x p m) s

/-- VFUN rcp (R173). -/
def execVfunRcp (d s1 : VReg) (x : Bool) (p : PReg) (m : BitVec 2) (s : State) : Out :=
  runIn (vFun .rcp d s1 x p m) s

/-- VFUN rsq (R173). -/
def execVfunRsq (d s1 : VReg) (x : Bool) (p : PReg) (m : BitVec 2) (s : State) : Out :=
  runIn (vFun .rsq d s1 x p m) s

/-- VFUN sinpi (R173). -/
def execVfunSinpi (d s1 : VReg) (x : Bool) (p : PReg) (m : BitVec 2) (s : State) : Out :=
  runIn (vFun .sinpi d s1 x p m) s

/-- VFUN cospi (R173). -/
def execVfunCospi (d s1 : VReg) (x : Bool) (p : PReg) (m : BitVec 2) (s : State) : Out :=
  runIn (vFun .cospi d s1 x p m) s

/-- VFUN tanh (R173). -/
def execVfunTanh (d s1 : VReg) (x : Bool) (p : PReg) (m : BitVec 2) (s : State) : Out :=
  runIn (vFun .tanh d s1 x p m) s

/-- Combine neighbours of a level (R90); a leaf carries whether it met another leaf. -/
def pairUp {α : Type} (comb : α → α → α × Flags) : List (Option (Bool × α)) → List (Option (Bool × α)) × Flags
  | x :: y :: t =>
    let (r, fl) := pairUp comb t
    match x, y with
    | none, y => (y :: r, fl)
    | x, none => (x :: r, fl)
    | some (_, a), some (_, b) => let (c, f) := comb a b; (some (true, c) :: r, f ||| fl)
  | l => (l, 0#7)

/-- TreeReduce down to one leaf, before Finish (R90). Leaves at or beyond W are absent, so the levels over W change nothing. -/
def treeReduce {α : Type} (comb : α → α → α × Flags) : Nat → List (Option (Bool × α)) → Option (Bool × α) × Flags
  | 0, l => (l.headD none, 0#7)
  | n + 1, l =>
    let (l', f) := pairUp comb l
    let (r, g) := treeReduce comb n l'
    (r, f ||| g)

/-- The active leaves of a vector. -/
def leaves {α : Type} (w : Nat) (p : Pred) (f : Nat → α) : List (Option (Bool × α)) :=
  (List.range (count w)).map fun i => if active p w i then some (false, f i) else none

/-- A rounded sum of two values of a format, as bits and as a value (R90). -/
def sumRound (f : Fmt) (mode : Rounding) (rnd : Nat) (a b : Val) : Nat × Flags :=
  roundWith f mode rnd (sumVal mode [a, b])

/-- The rounded sum of exact leaves on the tree, as bits of the format; +0 with none (R90, R174, R175). -/
def fTreeSum (f : Fmt) (mode : Rounding) (rnd w : Nat) (l : List (Option (Bool × Val))) : Nat × Flags :=
  let (r, fl) := treeReduce (fun a b => let (x, g) := sumRound f mode rnd a b; (f.value x, g)) (Nat.log2 (count w)) l
  match r with
  | none => (0, fl)
  | some (_, x) => let (y, g) := roundVal f mode rnd x; (y, fl ||| g)

/-- The sum of exact integer leaves on the tree, brought into a type at every step (R90, R174, R175). -/
def iTreeSum (t : ElemType) (sat : Bool) (w : Nat) (l : List (Option (Bool × Int))) : Nat × Flags :=
  let (r, fl) := treeReduce (fun a b => let (x, g) := intInto t sat (a + b); (intOf t x, g)) (Nat.log2 (count w)) l
  match r with
  | none => (0, fl)
  | some (_, x) => let (y, g) := intInto t sat x; (y, fl ||| g)

/-- A reduction that picks or combines bits and never rounds, with its identity (R174). -/
def bitTree (w : Nat) (comb : Nat → Nat → Nat × Flags) (finish : Nat → Nat × Flags) (identity : Nat)
    (l : List (Option (Bool × Nat))) : Nat × Flags :=
  let (r, fl) := treeReduce comb (Nat.log2 (count w)) l
  match r with
  | none => (identity, fl)
  | some (true, x) => (x, fl)
  | some (false, x) => let (y, g) := finish x; (y, fl ||| g)

/-- The flags of the signalling NaNs among the active elements (R66). -/
def activeSFlags (f : Fmt) (w : Nat) (p : Pred) (v : Vec) : Flags :=
  (List.range (count w)).foldl (fun fl i => if active p w i then fl ||| f.sFlag (elem v w i) else fl) 0#7

/-- Whether an exact value is not zero and below the smallest normal magnitude (R85). -/
def Fmt.tinyVal (f : Fmt) (x : Val) : Bool := tinyResult f (roundVal f .rz 0 x)

/-- Write a reduction's value to element 0 and zeros elsewhere (R174, R175). -/
def writeScalar (d : VReg) (pr : Pred) (w : Nat) (r : Nat × Flags) (norm : Bool) : U After :=
  vFinish d pr (pack w [r.1], r.2) norm 0

/-- VRED.add (R174). Whether the normaliser serves it is decided by the value that its last rounding rounds: the rounded result is subnormal (R85).
[DEDUCED, log 93] -/
def execVredAdd (d s1 : VReg) (p : PReg) (t : ElemType) (m : BitVec 2) (s : State) : Out :=
  runIn (do
    let a ← readV s1
    let pr ← readP p
    let w := t.width
    if t.isInt then
      let sat ← vSat m
      writeScalar d pr w (iTreeSum t sat w (leaves w pr fun i => intOf t (elem a w i))) false
    else
      let f := fmtOf t
      let mode ← vMode m
      let rnd ← unitRnd
      let r := fTreeSum f mode (rnd 0) w (leaves w pr fun i => f.value (elem a w i))
      let r := (r.1, r.2 ||| activeSFlags f w pr a)
      writeScalar d pr w r (anySubnormal f w pr a || f.isSubnormal r.1)) s

/-- VRED.min and VRED.max: the identity is the far end of the type (R174). [DEDUCED, log 35] -/
def redMinMax (d s1 : VReg) (p : PReg) (t : ElemType) (least : Bool) : U After := do
  let a ← readV s1
  let pr ← readP p
  let w := t.width
  let f := fmtOf t
  let ident := if t.isInt then (intInto t false (if least then intMax t else intMin t)).1 else f.infBits (!least)
  let finish := fun x => if !t.isInt && f.isNaN x then (f.canonNaN, f.sFlag x) else (x, 0#7)
  writeScalar d pr w (bitTree w (minMax t least) finish ident (leaves w pr (elem a w))) false

/-- VRED.min (R174). -/
def execVredMin (d s1 : VReg) (p : PReg) (t : ElemType) (_m : BitVec 2) (s : State) : Out := runIn (redMinMax d s1 p t true) s

/-- VRED.max (R174). -/
def execVredMax (d s1 : VReg) (p : PReg) (t : ElemType) (_m : BitVec 2) (s : State) : Out := runIn (redMinMax d s1 p t false) s

/-- VRED and, or, xor (R174). [DEDUCED, log 35] -/
def redLogic (d s1 : VReg) (p : PReg) (t : ElemType) (f : Nat → Nat → Nat) (ident : Nat) : U After := do
  let a ← readV s1
  let pr ← readP p
  let w := t.width
  writeScalar d pr w (bitTree w (fun x y => (f x y, 0#7)) (fun x => (x, 0#7)) ident (leaves w pr (elem a w))) false

/-- VRED.and (R174). -/
def execVredAnd (d s1 : VReg) (p : PReg) (t : ElemType) (_m : BitVec 2) (s : State) : Out :=
  runIn (redLogic d s1 p t Nat.land (2 ^ t.width - 1)) s

/-- VRED.or (R174). -/
def execVredOr (d s1 : VReg) (p : PReg) (t : ElemType) (_m : BitVec 2) (s : State) : Out := runIn (redLogic d s1 p t Nat.lor 0) s

/-- VRED.xor (R174). -/
def execVredXor (d s1 : VReg) (p : PReg) (t : ElemType) (_m : BitVec 2) (s : State) : Out := runIn (redLogic d s1 p t Nat.xor 0) s

/-- GroupDot64 from a group on, with whether the exact value behind the last rounding is tiny (R85, R91, R92). [DEDUCED, log 93] With no active element the
accumulator is written as it stands, a NaN with its bits and without a flag. [DEDUCED, log 60] -/
def groupDot (mode : Rounding) (rnd : Nat) (p : Pred) (a b : Vec) : Nat → Nat → Nat → Bool → Nat × Flags × Bool
  | 0, _, acc, tiny => (acc, 0#7, tiny)
  | r + 1, g, acc, tiny =>
    let idx := ((List.range 8).map (· + 8 * g)).filter fun i => decide (i < count 64) && active p 64 i
    if idx.isEmpty then groupDot mode rnd p a b r (g + 1) acc tiny
    else
      let ps := idx.map fun i => mulVal (fmtF64.value (elem a 64 i)) (fmtF64.value (elem b 64 i))
      let fl := ps.foldl (fun fl q => fl ||| q.2) (fmtF64.sFlag acc)
      let sum := sumVal mode (ps.map (·.1))
      let total := sumVal mode [fmtF64.value acc, sum.1]
      let (acc', f1) := roundWith fmtF64 mode rnd total
      let (x, f2, tiny) := groupDot mode rnd p a b r (g + 1) acc' (fmtF64.tinyVal total.1)
      (x, fl ||| sum.2 ||| f1 ||| f2, tiny)

/-- VDOT on the 32-bit result format (R175). For the normaliser the exact value is the one that the last rounding rounds (R85). [DEDUCED, log 93] -/
def dotF32 (t : ElemType) (mode : Rounding) (rnd : Nat) (p : Pred) (a b : Vec) (acc : Nat) : Nat × Flags :=
  let f := fmtOf t
  let w := t.width
  let prod := fun i => mulVal (f.value (elem a w i)) (f.value (elem b w i))
  let fl := (List.range (count w)).foldl (fun fl i => if active p w i then fl ||| (prod i).2 else fl) 0#7
  let (r, f1) := fTreeSum fmtF32 mode rnd w (leaves w p fun i => (prod i).1)
  let (x, f2) := sumRound fmtF32 mode rnd (fmtF32.value acc) (fmtF32.value r)
  (x, fl ||| f1 ||| f2 ||| activeSFlags f w p a ||| activeSFlags f w p b ||| fmtF32.sFlag acc)

/-- VDOT (R175). -/
def execVdot (d s1 s2 : VReg) (p : PReg) (t : ElemType) (m : BitVec 2) (s : State) : Out :=
  runIn (do
    let a ← readV s1
    let b ← readV s2
    let c ← readV d
    let pr ← readP p
    let w := t.width
    if t.isInt then
      let sat ← vSat m
      let ft : ElemType := if t.isUns then .n64 else .i64
      let (r, f1) := iTreeSum ft sat w (leaves w pr fun i => intOf t (elem a w i) * intOf t (elem b w i))
      let (x, f2) := intInto ft sat (intOf ft (elem c 64 0) + intOf ft r)
      writeScalar d pr 64 (x, f1 ||| f2) false
    else
      let f := fmtOf t
      let mode ← vMode m
      let rnd ← unitRnd
      let sub := anySubnormal f w pr a || anySubnormal f w pr b
      if t = .f64 then
        let (x, fl, tiny) := groupDot mode (rnd 0) pr a b 16 0 (elem c 64 0) false
        let r := (x, fl ||| activeSFlags f w pr a ||| activeSFlags f w pr b)
        writeScalar d pr 64 r (sub || fmtF64.isSubnormal (elem c 64 0) || tiny)
      else
        let r := dotF32 t mode (rnd 0) pr a b (elem c 32 0)
        writeScalar d pr 32 r (sub || fmtF32.isSubnormal (elem c 32 0) || fmtF32.isSubnormal r.1)) s

/-- Inclusive prefixes of the active elements from element `i` on (R176). -/
def scanFrom (w : Nat) (p : Pred) (a old : Vec) (finish : Nat → Nat → Nat × Flags) (comb : Nat → Nat → Nat → Nat × Flags) :
    Nat → Nat → Option Nat → List Nat × Flags
  | 0, _, _ => ([], 0#7)
  | r + 1, i, run =>
    if active p w i then
      let x := elem a w i
      let (y, f) := match run with
        | none => finish i x
        | some z => comb i z x
      let (l, g) := scanFrom w p a old finish comb r (i + 1) (some y)
      (y :: l, f ||| g)
    else
      let (l, g) := scanFrom w p a old finish comb r (i + 1) run
      (elem old w i :: l, g)

/-- VSCAN.add (R161, R176): every step rounds with the random bits of the element it writes. -/
def execVscanAdd (d s1 : VReg) (p : PReg) (t : ElemType) (m : BitVec 2) (s : State) : Out :=
  runIn (do
    let a ← readV s1
    let old ← oldV d
    let pr ← readP p
    let w := t.width
    if t.isInt then
      let sat ← vSat m
      let (l, fl) := scanFrom w pr a old (fun _ x => (x, 0#7)) (fun _ z x => intInto t sat (intOf t z + intOf t x)) (count w) 0 none
      vFinish d pr (pack w l, fl) false 0
    else
      let f := fmtOf t
      let mode ← vMode m
      let rnd ← unitRnd
      let (l, fl) := scanFrom w pr a old (fun _ x => if f.isNaN x then (f.canonNaN, f.sFlag x) else (x, 0#7))
        (fun i z x => fAdd f mode (rnd i) z x) (count w) 0 none
      let norm := anySubnormal f w pr a || anySubnormal f w pr (pack w l)
      vFinish d pr (pack w l, fl) norm 0) s

/-- VSCAN.min and VSCAN.max (R176). [DEDUCED, log 35] -/
def scanMinMax (d s1 : VReg) (p : PReg) (t : ElemType) (least : Bool) : U After := do
  let a ← readV s1
  let old ← oldV d
  let pr ← readP p
  let w := t.width
  let f := fmtOf t
  let (l, fl) := scanFrom w pr a old (fun _ x => if !t.isInt && f.isNaN x then (f.canonNaN, f.sFlag x) else (x, 0#7))
    (fun _ z x => minMax t least z x) (count w) 0 none
  vFinish d pr (pack w l, fl) false 0

/-- VSCAN.min (R176). -/
def execVscanMin (d s1 : VReg) (p : PReg) (t : ElemType) (_m : BitVec 2) (s : State) : Out := runIn (scanMinMax d s1 p t true) s

/-- VSCAN.max (R176). -/
def execVscanMax (d s1 : VReg) (p : PReg) (t : ElemType) (_m : BitVec 2) (s : State) : Out := runIn (scanMinMax d s1 p t false) s

/-- VSEL writes every element (R65, R177). -/
def execVsel (d s1 s2 : VReg) (p : PReg) (t : ElemType) (s : State) : Out :=
  runIn (do
    let a ← readV s1
    let b ← readV s2
    let pr ← readP p
    let w := t.width
    vFinish d pr (pack w ((List.range (count w)).map fun i => laneOf t (if active pr w i then elem a w i else elem b w i)), 0#7) false 0) s

/-- A rearrangement: each active element receives the element of the same place of `g` (R65, R178). -/
def vMove (d s1 s2 : VReg) (p : PReg) (t : ElemType) (g : Nat → Vec → Vec → Nat → Nat) : U After := do
  let a ← readV s1
  let b ← readV s2
  let old ← oldV d
  let pr ← readP p
  let w := t.width
  vFinish d pr (mapActive w pr old fun i => (laneOf t (g w a b i), 0#7)) false 0

/-- VPERM (R178). -/
def execVperm (d s1 s2 : VReg) (p : PReg) (t : ElemType) (s : State) : Out :=
  runIn (vMove d s1 s2 p t fun w a b i => let j := elem b w i; if j < count w then elem a w j else 0) s

/-- VZIP (R178). -/
def execVzip (d s1 s2 : VReg) (p : PReg) (t : ElemType) (s : State) : Out :=
  runIn (vMove d s1 s2 p t fun w a b i => if i % 2 = 0 then elem a w (i / 2) else elem b w (i / 2)) s

/-- VBCAST (R65, R177). -/
def execVbcast (d : VReg) (s1 : GReg) (p : PReg) (t : ElemType) (s : State) : Out :=
  runIn (do
    let x ← readG s1
    let old ← oldV d
    let pr ← readP p
    vFinish d pr (mapActive t.width pr old fun _ => (laneOf t (x.toNat % 2 ^ t.width), 0#7)) false 0) s

/-- VEXT (R65, R179). -/
def execVext (d : GReg) (s1 : VReg) (s2 : GReg) (t : ElemType) (s : State) : Out :=
  runIn (do
    let a ← readV s1
    let x ← readG s2
    let w := t.width
    writeG d (if x.toNat < count w then BitVec.ofInt 64 (intOf t (laneOf t (elem a w x.toNat))) else 0#64)
    pure .next) s

/-- VINS (R65, R179). With x >= N it touches no register and so no stream; a strip that it pushes carries an all-true predicate and the old
register's other elements. [DESIGN CHOICE, log 63] -/
def execVins (d : VReg) (s1 s2 : GReg) (t : ElemType) (s : State) : Out :=
  runIn (do
    let y ← readG s1
    let x ← readG s2
    let w := t.width
    if x.toNat < count w then
      let old ← oldV d
      writeV d (pack w ((List.range (count w)).map fun i => if i = x.toNat then laneOf t (y.toNat % 2 ^ w) else elem old w i))
        (BitVec.allOnes 256)
    pure .next) s

/-- VSHUF (R180). -/
def execVshuf (d s1 : VReg) (s2 : GReg) (p : PReg) (t : ElemType) (s : State) : Out :=
  runIn (do
    let key ← readG s2
    let ctl ← readG (s2 + 1#5)
    let k := ctl.toNat % 128
    let w := t.width
    stopIf (k < 8 || k > w) .operandRange
    let a ← readV s1
    let old ← oldV d
    let pr ← readP p
    vFinish d pr (mapActive w pr old fun i => ((shufK key (BitVec.ofNat 64 (elem a w i)) k).toNat, 0#7)) false 0) s

/-- VMOV (R65, R177). -/
def execVmov (d s1 : VReg) (p : PReg) (t : ElemType) (s : State) : Out :=
  runIn (vPure d [s1] p t fun xs => (laneOf t (arg xs 0), 0#7)) s

end Sys2Proof.Machine
end

