-- ==== Sys2Proof/Machine/LocalStore.lean ====
section
/-! DEFINITION. The local store: addresses, loads and stores, full/empty words, parking, remote accesses (R181 to R211, R528). -/

namespace Sys2Proof.Machine

/-! ### Addresses -/

/-- A decoded local-store address: core, offset or mailbox number (R188, R189). -/
structure LsAddr where
  core : Nat
  off : Nat
  mbox : Bool
  deriving DecidableEq, Repr

/-- The part of LsDecode that the issuing core makes (R189). -/
def lsFront (me : Nat) (ea : Word) (n : Nat) (win : Bool) : Except Cause LsAddr :=
  let rmt := ea.getLsbD 31
  if ea.extractLsb' 32 32 ≠ 0#32 ∨ (rmt = false ∧ ea.extractLsb' 18 13 ≠ 0#13) then .error .localAddress
  else
    let core := if rmt then (ea.extractLsb' 18 12).toNat else me
    let w := ea.getLsbD 30
    let off := (ea.extractLsb' 0 18).toNat
    if w ∧ (win = false ∨ core = me ∨ off > 24) then .error .localAddress
    else if ea.toNat % n ≠ 0 then .error .misaligned
    else .ok ⟨core, if w then off / 8 else off, w⟩

/-- The part of LsDecode that the owner makes (R189). -/
def ownerFault (s : State) (me : Nat) (a : LsAddr) (n : Nat) : Option Cause :=
  if a.mbox then none
  else if a.core ≠ me ∧ (s.partOf a.core ≠ s.partOf me ∨ s.mates me a.core = false) then some .remoteBoundary
  else if a.off + n > (s.core a.core).S then some .outsideScratchpad
  else none

/-- Whether an address names another core (R188). -/
def namesOther (me : Nat) (ea : Word) : Bool := ea.getLsbD 31 && (ea.extractLsb' 18 12).toNat != me

/-- Whether the unit, with its address computed as it would issue, is remote. -/
def unitRemote (s : State) (addr : U Word) : Bool :=
  match addr.run s with
  | .ok (ea, _) => namesOther s.cur.1 ea && ea.extractLsb' 32 32 == 0#32
  | .error _ => false

/-- LsDecode of a unit's address at the issuing core: an address of the core itself is checked whole; a remote one is
timing-dependent in a deterministic launch unless the unit is a synchronising one (R189, R211, R278). -/
def lsDecode (ea : Word) (n : Nat) (win sync : Bool) : U LsAddr := do
  let s ← getS
  let me := s.cur.1
  match lsFront me ea n win with
  | .error c => stopTrap c ea
  | .ok a =>
    if a.core ≠ me then
      if !sync then
        let x ← myCtx
        let det ← detLaunch
        stopIf (det && x != 15) .timing ea
      pure a
    else
      match ownerFault s me a n with
      | some c => stopTrap c ea
      | none => pure a

/-- Sign- or zero-extension of a loaded value of `n` bytes (R207). -/
def extendLoad (n : Nat) (sx : Bool) (v : Nat) : Word :=
  if sx && v ≥ 2 ^ (8 * n - 1) then BitVec.ofInt 64 ((v : Int) - 2 ^ (8 * n)) else BitVec.ofNat 64 v

/-- Effective addresses (R206). -/
def eaMI (b : GReg) (off : BitVec 10) (scale : Nat) : U Word := do
  let x ← readG b
  let o ← immS off
  pure (x + o * BitVec.ofNat 64 scale)
def eaRR (s1 s2 : GReg) (f : Nat) : U Word := do
  let a ← readG s1
  let b ← readG s2
  pure (a + b <<< f)

/-- Wait until the remote stores that owners have accepted are performed (R194). -/
def needAccepted : U Unit := do
  let v ← curCtx
  if !v.accepted.isEmpty then waitOn .accepted

/-! ### Latency -/

/-- The unloaded latency between two cores (R190, R446). [DESIGN CHOICE, log 5] -/
def latency (s : State) (a b : Nat) : Nat :=
  if a = b then 0
  else if (s.core a).spare || (s.core b).spare then (if dieOf a = dieOf b then 24 else 96)
  else if quadOf a = quadOf b then 1
  else if groupOf a = groupOf b then 3
  else if sgrpOf a = sgrpOf b then 5
  else if dieOf a = dieOf b then 24
  else 96

/-! ### What a request does at its owner -/

/-- Bytes that a request accesses. -/
def RemoteOp.size : RemoteOp → Nat
  | .load n _ => n
  | .store n _ => n
  | .xch n _ _ => n
  | _ => 8

/-- Whether a request of a synchronising kind waits for the full/empty bit, and for which value (R199). -/
def RemoteOp.waitsFor : RemoteOp → Option Bool
  | .ldfe => some true
  | .ldff => some true
  | .stfe _ => some false
  | _ => none

/-- Words a request loads and stores, in the sense of R195: a full/empty operation meets either set. -/
def RemoteOp.loadsOnly : RemoteOp → Bool
  | .load _ _ => true
  | _ => false

/-- Whether a request touches a word of a trick at its owner (R195, R196). -/
def opTouches (c : Core) (except : Nat) (op : RemoteOp) (off : Nat) (mbox : Bool) : Bool :=
  let ws := wordsOf off op.size
  !mbox && (if op.loadsOnly then c.touched except ws [] else c.touched except [] ws)

/-- Full(word), or whether a mailbox is full; an entry that a trick holds keeps a mailbox from being empty (R136, R198, R204). -/
def fullAt (c : Core) (off : Nat) (mbox : Bool) : Bool :=
  if mbox then !(tabGet c.q (4 + off) []).isEmpty else !c.empty.contains (off / 8)
def emptyAt (c : Core) (off : Nat) (mbox : Bool) : Bool :=
  if mbox then c.queueCount (4 + off) == 0 else c.empty.contains (off / 8)

/-- Whether the state allows a request now (R199, R209). -/
def opAllowed (c : Core) (op : RemoteOp) (off : Nat) (mbox : Bool) : Bool :=
  match op.waitsFor with
  | some true => fullAt c off mbox
  | some false => emptyAt c off mbox
  | none => true

/-- Whether requests of synchronising kinds are queued on the word (R199). -/
def queuedOn (c : Core) (off : Nat) (mbox : Bool) : Bool :=
  c.parking.any fun e => !e.held && e.mbox == mbox && (if mbox then e.off == off else e.off / 8 == off / 8)

/-- Whether the owner's own units wrote words, or changed their full/empty bits, in this tick (R201). -/
def Core.wroteNow (c : Core) (now : Nat) (words : List Nat) : Bool := c.wrote.1 == now && words.any c.wrote.2.contains

/-- Note that the owner's own unit wrote a word, or changed its bit, in this tick (R201). -/
def noteWrote (c : Core) (now w : Nat) : Core := { c with wrote := (now, w :: if c.wrote.1 = now then c.wrote.2 else []) }

/-- Whether deposits wrote words, or changed their full/empty bits, in this tick: a write of the owner's own that comes later in the tick waits for
the next one, so that no deposit is lost (R201). -/
def Core.depositedNow (c : Core) (now : Nat) (words : List Nat) : Bool := c.deposits.1 == now && words.any c.deposits.2.contains

/-- Note that a deposit wrote words of a core in this tick (R201). -/
def noteDeposit (c : Core) (now : Nat) (ws : List Nat) : Core := { c with deposits := (now, ws ++ if c.deposits.1 = now then c.deposits.2 else []) }

/-- Whether a request changes its word or the word's bit (R201). -/
def RemoteOp.deposits : RemoteOp → Bool
  | .load _ _ | .feQry | .ldff => false
  | _ => true

def setFull (c : Core) (off : Nat) (full : Bool) : Core :=
  let w := off / 8
  if full then { c with empty := c.empty.filter (· != w) }
  else { c with empty := if c.empty.contains w then c.empty else c.empty ++ [w] }

/-- One indivisible performance at the owner: the new owner and the value that the requester receives (R207 to R210). -/
def opPerform (c : Core) (op : RemoteOp) (off : Nat) (mbox : Bool) : Core × Word :=
  let w := memWord c.store off
  match op with
  | .load n sx => (c, extendLoad n sx (memRead c.store off n))
  | .store n v => ({ c with store := memWrite c.store off n v.toNat }, 0#64)
  | .xch n sx v => ({ c with store := memWrite c.store off n v.toNat }, extendLoad n sx (memRead c.store off n))
  | .ldfe =>
    if mbox then ({ c with q := tabSet c.q (4 + off) [] }, (tabGet c.q (4 + off) []).headD 0#64)
    else (setFull c off false, w)
  | .stfe v =>
    if mbox then ({ c with q := tabSet c.q (4 + off) [v] }, 0#64)
    else (setFull { c with store := memWrite c.store off 8 v.toNat } off true, 0#64)
  | .feSet => (setFull c off true, 0#64)
  | .feClr => (setFull c off false, 0#64)
  | .feQry => (c, if fullAt c off false then 1#64 else 0#64)
  | .ldff => (c, w)

/-- Whether a request writes a register when its reply returns. -/
def RemoteOp.writes : RemoteOp → Bool
  | .load _ _ | .xch _ _ _ | .ldfe | .feQry | .ldff => true
  | _ => false

/-- Perform a request whose reply writes `d`, as the last act of its unit; the owner's own write, or the deposit, is noted (R201). -/
def performOp (op : RemoteOp) (owner off : Nat) (mbox : Bool) (d : GReg) : U After := do
  let s ← getS
  let (c, x) := opPerform (s.core owner) op off mbox
  setS (s.setCore owner (if !op.deposits || mbox then c else if owner = s.cur.1 then noteWrote c s.tick (off / 8)
    else noteDeposit c s.tick (wordsOf off op.size)))
  if op.writes then writeG d x
  pure .next

/-- Park a request in its owner's table, served tick by tick (R199). -/
def parkAt (s : State) (owner : Nat) (e : Parked) : State :=
  let i := Instr.parkedRequestServe (cid owner)
  let s := s.modCore owner fun c => { c with parking := c.parking ++ [e] }
  if s.agenda.any fun a => a.2 == i then s else s.postPoll 0 i

/-- An owner accepts stores of a context, which become deposits in this tick where nothing is in their way (R190, R194). -/
def acceptStores (s : State) (k x : Nat) (l : List Accepted) : State :=
  l.foldl (fun s _ => s.post 0 (.remoteStorePerform (cid k) (xid x)))
    (s.modCtx k x fun v => { v with accepted := v.accepted ++ l })

/-- A request reaches its owner, which wakes, or is tried again there: it is answered, parked or refused; a deposit that meets a write of the
owner's own in this tick, and the owner's write that meets a deposit, are performed in the next one (R189, R190, R194, R196, R199 to R202,
R475). -/
def requestAt (s : State) (k x : Nat) : State :=
  match (s.ctx k x).req with
  | some (.remote op owner off mbox d refusals) =>
    let s := wakeAgent s owner
    let c := s.core owner
    if s.away (s.core k).launch owner && owner != k then s.post 256 (.evictionRetryResend (cid k) (xid x))
    else
      match ownerFault s k ⟨owner, off, mbox⟩ op.size with
      | some f => completeUnit s k x (stopTrap f (BitVec.ofNat 64 (2 ^ 31 + owner * 2 ^ 18 + off)))
      | none =>
        let held := opTouches c (if owner = k then x else 16) op off mbox
        let waits := op.waitsFor.isSome && (!opAllowed c op off mbox || queuedOn c off mbox)
        if held || waits then
          if s.parkUsed owner ≥ 64 then
            let s := s.modCore owner fun c => { c with pkRefused := c.pkRefused + 1 }
            if refusals + 1 ≥ 16 then completeUnit s k x (stopTrap .retryLimit)
            else
              (s.modCtx k x fun v => { v with req := some (.remote op owner off mbox d (refusals + 1)) }).post 32
                (.parkRefusalRetry (cid k) (xid x))
          else parkAt s owner { core := k, ctx := x, off := off, mbox := mbox, held := held }
        else
          match op with
          | .store n v =>
            if owner = k then completeUnit s k x (performOp op owner off mbox d)
            else acceptStores (completeUnit s k x (pure .next)) k x [{ owner := owner, off := off, bytes := n, value := v }]
          | _ =>
            if !mbox && (if owner = k then c.depositedNow s.tick (wordsOf off op.size) else op.deposits && c.wroteNow s.tick (wordsOf off op.size)) then
              s.post 1 (.remoteAccessPerform (cid k) (xid x))
            else completeUnit s k x (performOp op owner off mbox d)
  | _ => s

/-- Send a request: it reaches its owner after the latency (R190); one to the own core is tried at once. -/
def sendRequest (op : RemoteOp) (a : LsAddr) (d : GReg) : U After := do
  let s ← getS
  updCtx fun v => { v with req := some (.remote op a.core a.off a.mbox d 0) }
  postIn (latency s s.cur.1 a.core) (.remoteAccessPerform (cid s.cur.1) (xid s.cur.2))
  pure (.hold .reply)

/-! ### Loads, stores and exchanges -/

/-- LD and LDX (R193, R207). -/
def loadUnit (addr : U Word) (d : GReg) (z : BitVec 2) (sx : Bool) (s : State) : Out :=
  let n := 2 ^ z.toNat
  if unitRemote s addr then
    runOp (do
      let ea ← addr
      let a ← lsDecode ea n false false
      needDest d
      sendRequest (.load n sx) a d) s
  else
    runIn (do
      let ea ← addr
      let a ← lsDecode ea n false false
      let v ← lsLoad a.off n
      writeG d (extendLoad n sx v)
      pure .next) s

/-- ST and STX (R193, R194, R207). -/
def storeUnit (addr : U Word) (d : GReg) (z : BitVec 2) (s : State) : Out :=
  let n := 2 ^ z.toNat
  if unitRemote s addr then
    runIrr (do
      let ea ← addr
      let v ← readG d
      let a ← lsDecode ea n false false
      sendRequest (.store n (BitVec.ofNat 64 (v.toNat % 2 ^ (8 * n)))) a 0#5) s
  else
    runIn (do
      needAccepted
      let ea ← addr
      let v ← readG d
      let a ← lsDecode ea n false false
      lsStore a.off n (v.toNat % 2 ^ (8 * n))
      pure .next) s

/-- LD (R207). -/
def execLd (d b : GReg) (off : BitVec 10) (z : BitVec 2) (x : Bool) (s : State) : Out :=
  loadUnit (eaMI b off (2 ^ z.toNat)) d z x s

/-- LDX (R207). -/
def execLdx (d s1 s2 : GReg) (f : BitVec 5) (z : BitVec 2) (x : Bool) (s : State) : Out := loadUnit (eaRR s1 s2 f.toNat) d z x s

/-- ST (R207). -/
def execSt (d b : GReg) (off : BitVec 10) (z : BitVec 2) (s : State) : Out := storeUnit (eaMI b off (2 ^ z.toNat)) d z s

/-- STX (R207). -/
def execStx (d s1 s2 : GReg) (f : BitVec 5) (z : BitVec 2) (s : State) : Out := storeUnit (eaRR s1 s2 f.toNat) d z s

/-- XCH: inside the trick on the own scratchpad, one indivisible step at the owner elsewhere (R193, R208). A remapped d is popped and then
pushed. [DEDUCED, log 65] -/
def execXch (d s1 s2 : GReg) (f : BitVec 5) (z : BitVec 2) (x : Bool) (s : State) : Out :=
  let n := 2 ^ z.toNat
  let addr := eaRR s1 s2 f.toNat
  if unitRemote s addr then
    runIrr (do
      let ea ← addr
      let v ← readG d
      let a ← lsDecode ea n false false
      needDest d
      sendRequest (.xch n x (BitVec.ofNat 64 (v.toNat % 2 ^ (8 * n)))) a d) s
  else
    runIn (do
      let ea ← addr
      let v ← readG d
      let a ← lsDecode ea n false false
      let old ← lsLoad a.off n
      lsStore a.off n (v.toNat % 2 ^ (8 * n))
      writeG d (extendLoad n x old)
      pure .next) s

/-- LDFE, STFE and FEOP: outside any trick, at the owner or in the own core (R193, R209, R210). -/
def syncAccess (addr : U Word) (op : U RemoteOp) (win : Bool) (d : GReg) (s : State) : Out :=
  runIrr (do
    let ea ← addr
    let o ← op
    let a ← lsDecode ea 8 win true
    if o.writes then needDest d
    let s ← getS
    if a.core ≠ s.cur.1 then sendRequest o a d
    else
      let c := s.core a.core
      let x ← myCtx
      if opTouches c x o a.off false then waitOn (.touch [] (wordsOf a.off 8))
      if o.waitsFor.isSome && (!opAllowed c o a.off false || queuedOn c a.off false) then sendRequest o a d
      else performOp o a.core a.off false d) s

/-- LDFE (R209). -/
def execLdfe (d b : GReg) (off : BitVec 10) (s : State) : Out := syncAccess (eaMI b off 8) (pure .ldfe) true d s

/-- STFE (R209). -/
def execStfe (d b : GReg) (off : BitVec 10) (s : State) : Out :=
  syncAccess (eaMI b off 8) (do pure (.stfe (← readG d))) true 0#5 s

/-- FEOP set (R210). -/
def execFeopSet (s1 s2 : GReg) (f : BitVec 5) (s : State) : Out := syncAccess (eaRR s1 s2 f.toNat) (pure .feSet) false 0#5 s

/-- FEOP clr (R210). -/
def execFeopClr (s1 s2 : GReg) (f : BitVec 5) (s : State) : Out := syncAccess (eaRR s1 s2 f.toNat) (pure .feClr) false 0#5 s

/-- FEOP qry (R210). -/
def execFeopQry (d s1 s2 : GReg) (f : BitVec 5) (s : State) : Out := syncAccess (eaRR s1 s2 f.toNat) (pure .feQry) false d s

/-- FEOP ldff (R210). -/
def execFeopLdff (d s1 s2 : GReg) (f : BitVec 5) (s : State) : Out := syncAccess (eaRR s1 s2 f.toNat) (pure .ldff) false d s

/-! ### Vectors -/

/-- The active elements of a vector access with their addresses. -/
def activeAddrs (p : Pred) (w : Nat) (ea : Nat → Word) : List (Nat × Word) :=
  ((List.range (count w)).filter (active p w ·)).map fun i => (i, ea i)

/-- The first fault among elements in ascending order; owners are checked only when `whole` (R160, R181, R211, R278, R528). -/
def elemFault (s : State) (k x n : Nat) (whole : Bool) : List (Nat × Word) → Option (Cause × Word)
  | [] => none
  | (_, ea) :: t =>
    match lsFront k ea n false with
    | .error c => some (c, ea)
    | .ok a =>
      if a.core ≠ k ∧ (s.core k).det ∧ x ≠ 15 then some (.timing, ea)
      else if a.core = k ∨ whole then
        match ownerFault s k a n with
        | some c => some (c, ea)
        | none => elemFault s k x n whole t
      else elemFault s k x n whole t

/-- Load elements of the own scratchpad in order. -/
def loadElems (n : Nat) : List (Nat × Word) → U (List (Nat × Nat))
  | [] => pure []
  | (i, ea) :: t => do
    let v ← lsLoad (ea.toNat % 2 ^ 18) n
    let r ← loadElems n t
    pure ((i, v) :: r)

/-- Store elements to the own scratchpad in order: the highest index on one address remains (R182). -/
def storeElems (n : Nat) (t : ElemType) (data : Vec) : List (Nat × Word) → U Unit
  | [] => pure ()
  | (i, ea) :: r => do
    lsStore (ea.toNat % 2 ^ 18) n (laneOf t (elem data t.width i))
    storeElems n t data r

/-- Put loaded elements into the old value of a vector (R65). -/
def mergeElems (t : ElemType) (old : Vec) (l : List (Nat × Nat)) : Vec :=
  pack t.width ((List.range (count t.width)).map fun i => match l.find? (·.1 == i) with
    | some p => laneOf t p.2
    | none => elem old t.width i)

/-- The core in whose scratchpad an element lies. -/
def ownerOf (me : Nat) (ea : Word) : Nat := if namesOther me ea then (ea.extractLsb' 18 12).toNat else me

/-- The elements of a vector access by owner, each owner's in ascending order (R528). -/
def groupElems (me : Nat) (es : List (Nat × Word)) : List VecGroup :=
  (es.map fun e => ownerOf me e.2).eraseDups.map fun o => { owner := o, elems := es.filter fun e => ownerOf me e.2 == o }

/-- The elements of groups, in ascending order. -/
def allElems (gs : List VecGroup) : List (Nat × Word) :=
  (List.range 256).flatMap fun i => (gs.flatMap (·.elems)).filter (·.1 == i)

/-- The ticks until every owner of a group has replied (R190, R528). -/
def groupsLatency (s : State) (me : Nat) (gs : List VecGroup) : Nat := gs.foldl (fun m g => max m (latency s me g.owner)) 0

/-- A vector access with a remote element: its owners check it first (R528). -/
def sendVector (store : Bool) (d : VReg) (p : PReg) (t : ElemType) (es : List (Nat × Word)) (data : Vec) : U After := do
  let s ← getS
  let k := s.cur.1
  let gs := groupElems k es
  updCtx fun v => { v with req := some (.vec store d p t gs data) }
  postIn (groupsLatency s k gs) (.vectorRemoteChecks (cid k) (xid s.cur.2))
  pure (.hold .reply)

/-- A base that is not a multiple of the element size traps (R181, R182). -/
def needAligned (a : Word) (n : Nat) : U Unit := stopIf (a.toNat % n != 0) .misaligned a

/-- The elements of VLD and VST, and of VGATH and VSCAT, with their addresses (R181, R182). -/
def rowAddrs (s1 s2 : GReg) (p : PReg) (t : ElemType) : U (List (Nat × Word)) := do
  let b ← readG s1
  let o ← readG s2
  let a := b + o
  let n := t.width / 8
  needAligned a n
  let pr ← readP p
  pure (activeAddrs pr t.width fun i => a + BitVec.ofNat 64 (i * n))
def gatherAddrs (s1 : GReg) (s2 : VReg) (p : PReg) (t : ElemType) : U (List (Nat × Word)) := do
  let b ← readG s1
  let n := t.width / 8
  needAligned b n
  let idx ← readV s2
  let pr ← readP p
  pure (activeAddrs pr t.width fun i => b + BitVec.ofNat 64 (elem idx t.width i * n))

/-- Whether a vector unit has an active element in another core's scratchpad. -/
def vectorRemote (s : State) (addrs : U (List (Nat × Word))) : Bool :=
  match addrs.run s with
  | .ok (es, _) => es.any fun e => namesOther s.cur.1 e.2 && e.2.extractLsb' 32 32 == 0#32
  | .error _ => false

/-- Trap with the fault of the lowest-numbered faulting element that the core finds itself; a fault behind a remote element waits
for its owner's check (R528). -/
def frontFault (n : Nat) (es : List (Nat × Word)) : U Unit := do
  let s ← getS
  let k := s.cur.1
  let near := if (s.core k).det && s.cur.2 != 15 then es
    else es.takeWhile fun e => !(namesOther k e.2 && e.2.extractLsb' 32 32 == 0#32)
  match elemFault s k s.cur.2 n false near with
  | some (c, ea) => stopTrap c ea
  | none => pure ()

/-- VLD and VGATH (R181 to R183, R528). -/
def vectorLoad (addrs : U (List (Nat × Word))) (d : VReg) (p : PReg) (t : ElemType) (s : State) : Out :=
  let n := t.width / 8
  if vectorRemote s addrs then
    runOp (do
      let es ← addrs
      frontFault n es
      sendVector false d p t es (← oldV d)) s
  else
    runIn (do
      let es ← addrs
      frontFault n es
      let l ← loadElems n es
      let old ← oldV d
      writeV d (mergeElems t old l) (← readP p)
      pure .next) s

/-- VST and VSCAT (R181 to R183, R528). -/
def vectorStore (addrs : U (List (Nat × Word))) (d : VReg) (p : PReg) (t : ElemType) (s : State) : Out :=
  let n := t.width / 8
  if vectorRemote s addrs then
    runIrr (do
      let es ← addrs
      frontFault n es
      sendVector true d p t es (← readV d)) s
  else
    runIn (do
      needAccepted
      let es ← addrs
      frontFault n es
      let v ← readV d
      storeElems n t v es
      pure .next) s

/-- VLD (R181). -/
def execVld (d : VReg) (s1 s2 : GReg) (p : PReg) (t : ElemType) (s : State) : Out := vectorLoad (rowAddrs s1 s2 p t) d p t s

/-- VST (R181). -/
def execVst (d : VReg) (s1 s2 : GReg) (p : PReg) (t : ElemType) (s : State) : Out := vectorStore (rowAddrs s1 s2 p t) d p t s

/-- VGATH (R182). -/
def execVgath (d : VReg) (s1 : GReg) (s2 : VReg) (p : PReg) (t : ElemType) (s : State) : Out :=
  vectorLoad (gatherAddrs s1 s2 p t) d p t s

/-- VSCAT (R182). -/
def execVscat (d : VReg) (s1 : GReg) (s2 : VReg) (p : PReg) (t : ElemType) (s : State) : Out :=
  vectorStore (gatherAddrs s1 s2 p t) d p t s

/-! ### Events -/

/-- The context identifier that a request to an owner's bank comes from (R191). -/
def bankRequest : Instr → Option (Nat × Nat)
  | .remoteAccessPerform c x | .vectorRemoteChecks c x | .remoteStorePerform c x => some (c.toNat, x.toNat)
  | _ => none

/-- REMOTE_ACCESS_PERFORM: of the requests of one tick, those of lower context identifiers go first (R190 to R196). -/
def execRemoteAccessPerform (core : CoreId) (ctx : CtxId) (s : State) : Out :=
  let v := s.ctx core.toNat ctx.toNat
  match v.life, v.req with
  | .blocked .reply, some (.remote _ _ _ _ _ _) =>
    if s.lowerDue core.toNat ctx.toNat bankRequest then .next (s.postPoll 0 (.remoteAccessPerform core ctx))
    else .next (requestAt s core.toNat ctx.toNat)
  | _, _ => .next s

/-- Contexts that wait for the accepted stores of one context. -/
def wakeAccepted (s : State) (k x : Nat) : State :=
  let v := s.ctx k x
  if v.life = .blocked .accepted ∧ v.accepted = [] then s.ready k x else s

/-- REMOTE_STORE_PERFORM: the oldest accepted store of a context becomes a deposit at its bank; a trick's words hold it until the tick after
that trick, and a write of the owner's own until the next tick (R191, R194, R196, R201) [DESIGN CHOICE, log 13]. While the parking table has no
room for one that a trick holds, it waits without an entry in the queue of its bank [DESIGN CHOICE, log 78]. -/
def execRemoteStorePerform (core : CoreId) (ctx : CtxId) (s : State) : Out :=
  let k := core.toNat
  let x := ctx.toNat
  let i := Instr.remoteStorePerform core ctx
  match (s.ctx k x).accepted with
  | [] => .next s
  | a :: rest =>
    let s := wakeAgent s a.owner
    let c := s.core a.owner
    let words := wordsOf a.off a.bytes
    let keep := fun (b : Accepted) => s.modCtx k x fun w => { w with accepted := b :: rest }
    if s.lowerDue k x bankRequest then .next (s.postPoll 0 i)
    else if s.away (s.core k).launch a.owner then .next (s.post 256 i)
    else if c.touched 16 [] words then
      .next ((keep { a with held := true, entry := a.entry || decide (s.parkUsed a.owner < 64), free := none }).postPoll 1 i)
    else if a.held = true ∧ a.free = none then .next ((keep { a with free := some s.tick }).post 1 i)
    else if c.wroteNow s.tick words then .next (s.post 1 i)
    else
      let s := s.setCore a.owner (noteDeposit { c with store := memWrite c.store a.off a.bytes a.value.toNat } s.tick words)
      .next (wakeAccepted (s.modCtx k x fun w => { w with accepted := rest }) k x)

/-- Whether elements touch a word of a trick at their owner, in the sense of R195 (R528). -/
def groupHeld (s : State) (k x : Nat) (store : Bool) (n : Nat) (g : VecGroup) : Bool :=
  let ws := g.elems.flatMap fun e => wordsOf (e.2.toNat % 2 ^ 18) n
  (s.core g.owner).touched (if g.owner = k then x else 16) (if store then [] else ws) (if store then ws else [])

/-- The unit of a vector access retires when every owner has performed or accepted its group (R156, R528). -/
def vectorDone (s : State) (k x : Nat) : State :=
  match (s.ctx k x).req with
  | some (.vec store d p _ [] data) =>
    completeUnit s k x (do
      if !store then writeV d data (← readP p)
      pure .next)
  | _ => s

/-- One owner performs its group, or accepts its stores (R182, R194, R528). -/
def performGroup (s : State) (k x : Nat) (g : VecGroup) : State :=
  match (s.ctx k x).req with
  | some (.vec store d p t gs data) =>
    let n := t.width / 8
    let left := gs.filter (·.owner != g.owner)
    let value := fun (e : Nat × Word) => laneOf t (elem data t.width e.1)
    let data' := if store then data
      else mergeElems t data (g.elems.map fun e => (e.1, memRead (s.core g.owner).store (e.2.toNat % 2 ^ 18) n))
    let s := s.modCtx k x fun v => { v with req := some (.vec store d p t left data') }
    if !store then s
    else if g.owner = k then
      s.modCore k fun c => (g.elems.flatMap fun e => wordsOf (e.2.toNat % 2 ^ 18) n).foldl (noteWrote · s.tick ·)
        { c with store := g.elems.foldl (fun m e => memWrite m (e.2.toNat % 2 ^ 18) n (value e)) c.store }
    else acceptStores s k x (g.elems.map fun e => { owner := g.owner, off := e.2.toNat % 2 ^ 18, bytes := n, value := BitVec.ofNat 64 (value e) })
  | _ => s

/-- A context's entries leave every parking table. -/
def withdrawParked (s : State) (k x : Nat) : State :=
  { s with cores := s.cores.map fun c => (c.1, { c.2 with parking := c.2.parking.filter fun e => !(e.core == k && e.ctx == x) }) }

/-- A change of the groups of a context's vector access. -/
def mapGroups (s : State) (k x : Nat) (f : VecGroup → VecGroup) : State :=
  s.modCtx k x fun v => match v.req with
    | some (.vec store d p t gs data) => { v with req := some (.vec store d p t (gs.map f) data) }
    | _ => v

/-- Park a group at its owner, or count its refusal by a full table (R199, R200, R528). -/
def parkGroup (s : State) (k x : Nat) (g : VecGroup) : State :=
  let put := fun (s : State) (h : VecGroup) => mapGroups s k x fun f => if f.owner = g.owner then h else f
  if g.parked then s
  else if s.parkUsed g.owner ≥ 64 then
    put (s.modCore g.owner fun c => { c with pkRefused := c.pkRefused + 1 }) { g with refusals := g.refusals + 1 }
  else
    put (parkAt s g.owner { core := k, ctx := x, off := ((g.elems.head?.map (·.2)).getD 0#64).toNat % 2 ^ 18, mbox := false, held := true })
      { g with refusals := 0, parked := true }

/-- The groups of a vector access that are not performed yet. -/
def groupsOf (s : State) (k x : Nat) : List VecGroup :=
  match (s.ctx k x).req with
  | some (.vec _ _ _ _ gs _) => gs
  | _ => []

/-- Whether the unit of a vector access still waits as a whole: a local element is held, or an owner's table has refused a group, so that the
unit may yet trap without effect (R200, R528). -/
def vecWaits (k : Nat) (gs : List VecGroup) : Bool := gs.any fun g => (g.owner == k && g.parked) || (decide (0 < g.refusals) && !g.parked)

/-- Every owner of a vector access has replied, or a refused group is sent again: the checks of all come first, then every group that a
trick holds takes an entry of its owner's table, and none is performed while a table refuses one or a local element is held; local elements wait
for the next tick where deposits have met their words in this one (R196, R200, R201, R528). [DEDUCED, log 71] -/
def vectorAt (s : State) (k x : Nat) : State :=
  match (s.ctx k x).req with
  | some (.vec store _ _ t gs _) =>
    let n := t.width / 8
    let s := gs.foldl (fun s g => wakeAgent s g.owner) s
    if gs.any fun g => g.owner != k && s.away (s.core k).launch g.owner then
      (withdrawParked (mapGroups s k x fun g => { g with parked := false }) k x).post 256 (.evictionRetryResend (cid k) (xid x))
    else
      match elemFault s k x n true (allElems gs) with
      | some (c, ea) => completeUnit (withdrawParked s k x) k x (stopTrap c ea)
      | none =>
        let s := (gs.filter (groupHeld s k x store n)).foldl (fun s g => parkGroup s k x g) s
        let s := mapGroups s k x fun g => if g.parked || groupHeld s k x store n g then g else { g with refusals := 0 }
        let now := groupsOf s k x
        let mine := (now.filter (·.owner == k)).flatMap fun g => g.elems.flatMap fun e => wordsOf (e.2.toNat % 2 ^ 18) n
        if now.any fun g => decide (g.refusals ≥ 16) then completeUnit (withdrawParked s k x) k x (stopTrap .retryLimit)
        else if now.any fun g => decide (g.refusals > 0) && !g.parked then s.post 32 (.parkRefusalRetry (cid k) (xid x))
        else if vecWaits k now then s
        else if store && (s.core k).depositedNow s.tick mine then s.post 1 (.vectorRemoteChecks (cid k) (xid x))
        else vectorDone ((now.filter (!·.parked)).foldl (fun s g => performGroup s k x g) s) k x
  | _ => s

/-- VECTOR_REMOTE_CHECKS (R191, R528). -/
def execVectorRemoteChecks (core : CoreId) (ctx : CtxId) (s : State) : Out :=
  let v := s.ctx core.toNat ctx.toNat
  match v.life, v.req with
  | .blocked .reply, some (.vec _ _ _ _ _ _) =>
    if s.lowerDue core.toNat ctx.toNat bankRequest then .next (s.postPoll 0 (.vectorRemoteChecks core ctx))
    else .next (vectorAt s core.toNat ctx.toNat)
  | _, _ => .next s

/-- The address under which a parked request reports a fault at an owner. -/
def parkedAddr (s : State) (owner : Nat) (e : Parked) : Word :=
  let S := (s.core owner).S
  match (s.ctx e.core e.ctx).req with
  | some (.vec _ _ _ t gs _) =>
    ((gs.flatMap fun g => if g.owner = owner then g.elems else []).find? fun a => decide (a.2.toNat % 2 ^ 18 + t.width / 8 > S)).elim 0#64 (·.2)
  | _ => BitVec.ofNat 64 (2 ^ 31 + owner * 2 ^ 18 + e.off)

/-- Whether a parked request lies beyond the scratchpad portion, which a SPLIT has shrunk (R186). -/
def parkedBeyond (s : State) (owner : Nat) (e : Parked) : Bool :=
  let S := (s.core owner).S
  match (s.ctx e.core e.ctx).req with
  | some (.vec _ _ _ _ _ _) => parkedAddr s owner e != 0#64
  | some (.remote op _ off mbox _ _) => !mbox && decide (off + op.size > S)
  | _ => false

/-- Serve one parked request if its condition holds: a held one after the tick in which its trick was found gone, a queued one as
the first of its word in this tick, a deposit not in a tick of the owner's own write, nor a request of the owner in a tick of a deposit, and a group of a vector
access not while its unit waits as a whole (R186, R196, R199 to R201, R528). The state without the entry, or the tick in which its trick was
found gone. -/
def serveOne (s : State) (owner : Nat) (e : Parked) (done : List (Nat × Bool)) : State ⊕ Option Nat :=
  let c := s.core owner
  let out := s.modCore owner fun c => { c with parking := c.parking.erase e }
  let later := match e.free with
    | some t => decide (t < s.tick)
    | none => false
  if parkedBeyond s owner e then
    .inl (completeUnit (withdrawParked s e.core e.ctx) e.core e.ctx (stopTrap .outsideScratchpad (parkedAddr s owner e)))
  else
  match (s.ctx e.core e.ctx).req with
  | some (.remote op _ off mbox d _) =>
    if opTouches c (if owner = e.core then e.ctx else 16) op off mbox then .inr none
    else if e.held then (if later then .inl (requestAt out e.core e.ctx) else .inr (some (e.free.getD s.tick)))
    else if done.contains (if mbox then off else off / 8, mbox) || !opAllowed c op off mbox then .inr none
    else if !mbox && (if owner = e.core then c.depositedNow s.tick [off / 8] else op.deposits && c.wroteNow s.tick [off / 8]) then .inr none
    else .inl (completeUnit out e.core e.ctx (performOp op owner off mbox d))
  | some (.vec store _ _ t gs _) =>
    match gs.find? (·.owner == owner) with
    | none => .inl out
    | some g =>
      if groupHeld s e.core e.ctx store (t.width / 8) g then .inr none
      else if !later then .inr (some (e.free.getD s.tick))
      else if owner = e.core then
        .inl (vectorAt (mapGroups out e.core e.ctx fun f => if f.owner = owner then { f with parked := false } else f) e.core e.ctx)
      else if vecWaits e.core gs then .inr e.free
      else .inl (vectorDone (performGroup out e.core e.ctx g) e.core e.ctx)
  | _ => .inl out

/-- Serve a parking table in order; a queued request that cannot be served blocks those behind it on its word (R199). -/
def serveAll (owner : Nat) : List Parked → List (Nat × Bool) → State → State
  | [], _, s => s
  | e :: t, done, s =>
    let done' := if e.held then done else (if e.mbox then e.off else e.off / 8, e.mbox) :: done
    match serveOne s owner e done with
    | .inl s' => serveAll owner t done' s'
    | .inr f =>
      serveAll owner t done'
        (s.modCore owner fun c => { c with parking := c.parking.map fun g => if g = e then { g with free := f } else g })

/-- PARKED_REQUEST_SERVE (R196, R199): looked at in every tick in which the table holds something. -/
def execParkedRequestServe (core : CoreId) (s : State) : Out :=
  let k := core.toNat
  let c := s.core k
  if c.parking.isEmpty then .next s
  else
    let s := serveAll k c.parking [] s
    let s := { s with agenda := s.agenda.filter fun e => e.2 != .parkedRequestServe core }
    if (s.core k).parking.isEmpty then .next s
    else .next (s.postPoll 1 (.parkedRequestServe core))

/-- A refused request, or one answered with an eviction retry, is sent again (R200, R202). -/
def resend (s : State) (k x : Nat) : State :=
  match (s.ctx k x).life, (s.ctx k x).req with
  | .blocked .reply, some (.remote _ owner _ _ _ _) => s.post (latency s k owner) (.remoteAccessPerform (cid k) (xid x))
  | .blocked .reply, some (.vec _ _ _ _ gs _) => s.post (groupsLatency s k gs) (.vectorRemoteChecks (cid k) (xid x))
  | _, _ => s

end Sys2Proof.Machine
end

