-- ==== Sys2Proof/Machine/Matrix.lean ====
section
/-! DEFINITION. The quad's matrix unit: its request queue, format contexts, decode tables, tiles and arithmetic (R65 to R74, R93,
R282 to R311). -/

namespace Sys2Proof.Machine

/-! ### Requests of the matrix and scan units -/

/-- A local-store address that names the issuing core, as an offset (R188). -/
def ownOffset (ea : Word) : U Nat := do
  match lsFront (← myCore) ea 1 false with
  | .error c => stopTrap c ea
  | .ok a =>
    if a.core = (← myCore) then pure a.off else stopTrap .localAddress ea

/-- Whether ranges of bytes touch words of the trick of a context other than `x` (R195, R306). -/
def Core.rangesTouched (c : Core) (x : Nat) (loads stores : List (Nat × Nat)) : Bool :=
  let hit := fun (rs : List (Nat × Nat)) (w : Nat) => rs.any fun r => meets (8 * w) 8 r.1 r.2
  let trick := fun (t : Trick) => t.stores.any (hit loads) || t.stores.any (hit stores) || t.loads.any (hit stores)
  c.ctxs.any fun p => p.1 != x && (trick p.2.running || (match p.2.pending with | some t => trick t | none => false))

/-- The watchdog looks at a quad's units once in each tick while they have something to do (R308). -/
def watchQuad (s : State) (n : Nat) : State :=
  let i := Instr.mxwdogExpiry (BitVec.ofNat 10 n)
  if s.agenda.any (fun e => e.2 == i) then s else s.post 0 i

/-- A launch that may use the matrix unit (R282). -/
def needMatrix : U Unit := do
  let s ← getS
  stopIf (!s.launchFlag s.cur.1 33) .matrixNotGranted

/-! ### Format context -/

/-- A field of a word. -/
def field (w : Word) (lo n : Nat) : Nat := w.toNat / 2 ^ lo % 2 ^ n

/-- Twice the bytes of an element of an operand type (R289). -/
def halfBytes (ty : Nat) : Nat := if ty = 14 then 1 else if ty = 13 then 2 else if ty = 12 then 8 else 4

/-- The values that FCTX accepts (R287, R297). -/
def fmtLegal (w : Word) : Bool :=
  let elemTy := fun t => t == 8 || t == 9 || t == 12 || t == 13 || t == 14
  w.extractLsb' 39 25 == 0#25 && !w.getLsbD 27 && elemTy (field w 0 4) && elemTy (field w 4 4) && field w 8 4 == 10 &&
    (field w 28 4 == 13 || field w 28 4 == 14) && field w 16 2 != 3 && field w 18 2 != 3 && field w 34 2 != 3 &&
    decide (field w 22 3 < 6) && decide (field w 36 3 < 6)

/-- The combinations that MMA performs, as the time of a k-row (R288). -/
def fmtTime (w : Word) : Option Nat :=
  let a := field w 0 4
  let b := field w 4 4
  let none_ := field w 16 2 == 0 && field w 18 2 == 0
  if a ≥ 13 ∧ b ≥ 13 then some 1
  else if a < 10 ∧ b < 10 ∧ none_ then some 2
  else if a = 12 ∧ b = 12 ∧ none_ then some 4
  else none

/-- The current format context of a unit of a core (R285). -/
def State.currentFmt (s : State) (k : Nat) : Word :=
  (s.quad (quadOf k)).matrix.foldl (fun w e => if e.core = k then (match e.req with | .fctx f => f | _ => w) else w) (s.core k).fmt

/-! ### Decode tables -/

/-- An entry of a shipped table as F19 (R69). -/
def stdEntry (t : StdTable) (i : Nat) : Nat :=
  let neg := decide (i / 128 % 2 = 1)
  let sgn := if neg then 2 ^ 18 else 0
  let nan := sgn + 261632
  let of := fun (neg : Bool) (m : Nat) (e : Int) => (roundMag fmtF19 .rne 0 neg ⟨m, e, false⟩).1
  match t with
  | .e4m3 =>
    let e := i / 8 % 16
    let m := i % 8
    if e = 15 ∧ m = 7 then nan else if e = 0 then of neg m (-9) else of neg (8 + m) ((e : Int) - 10)
  | .e5m2 =>
    let e := i / 4 % 32
    let m := i % 4
    if e = 31 then (if m = 0 then sgn + 261120 else nan)
    else if e = 0 then of neg m (-16) else of neg (4 + m) ((e : Int) - 17)
  | .intf => of neg (i % 128) 0
  | .e2m1 =>
    if i ≥ 16 then 0
    else of (decide (i ≥ 8)) ([0, 1, 2, 3, 4, 6, 8, 12].getD (i % 8) 0) (-1)

/-- The shipped table of a decode table at placement (R310). -/
def shipped (t : Nat) : StdTable := if t = 0 then .e4m3 else if t = 1 then .e5m2 else if t = 2 then .intf else .e2m1

/-- Entry `i` of decode table `t` of a core, as F19. -/
def Core.entry (c : Core) (t i : Nat) : Nat :=
  match tabFind c.tables t with
  | some l => tabGet l i 0
  | none => stdEntry (shipped t) i

def finiteF19 (b : Nat) : Bool := b / 2 ^ 10 % 256 != 255

/-- The largest finite index below h (R71): the leading finite entries. -/
def tableTop (d : Nat → Nat) (h : Nat) : Nat := ((List.range h).takeWhile fun i => finiteF19 (d i)).length - 1

/-- Encodable(D, n) (R70). -/
def encodable (d : Nat → Nat) (n : Nat) : Bool :=
  let h := n / 2
  let f := tableTop d h
  let rest := ((List.range h).drop (f + 1)).map d
  d 0 == 0 && decide (1 ≤ f) && ((List.range h).all fun i => d (h + i) == Nat.xor (d i) (2 ^ 18)) &&
    ((List.range f).all fun i => cmpVal (fmtF19.value (d i)) (fmtF19.value (d (i + 1))) == .lt) &&
    (match rest with
      | [] => true
      | e :: t => (e == 261120 || fmtF19.isNaN e) && t.all fmtF19.isNaN)

/-- Record whether a table is encodable (R70, R292, R296). -/
def setEncodable (c : Core) (t : Nat) : Core :=
  let put := fun (w : BitVec 8) (i : Nat) (b : Bool) =>
    if b then w ||| BitVec.ofNat 8 (2 ^ i) else w &&& ~~~BitVec.ofNat 8 (2 ^ i)
  { c with dtenc := put (put c.dtenc (2 * t) (encodable (c.entry t) 256)) (2 * t + 1) (encodable (c.entry t) 16) }

/-- Load a decode table with 256 entries. -/
def loadTable (c : Core) (t : Nat) (f : Nat → Nat) : Core :=
  setEncodable { c with tables := tabSet c.tables t (((List.range 256).map fun i => (i, f i)).filter (·.2 != 0)) } t

/-! ### Scaled elements -/

/-- A decoded element with the flag of a signalling NaN (R65 to R68): type code, bytes, table, row start, index. -/
def decodeElem (ty : Nat) (get : Nat → Byte) (d : Nat → Nat) (row x : Nat) : Val × Flags :=
  let n := fun (k : Nat) => ofBytes ((List.range k).map fun i => get (row + x * k + i))
  let ofFmt := fun (f : Fmt) (b : Nat) => (f.value b, f.sFlag b)
  if ty = 8 then ofFmt fmtF16 (n 2)
  else if ty = 9 then ofFmt fmtBf16 (n 2)
  else if ty = 12 then ofFmt fmtF19 (n 4 % 2 ^ 19)
  else if ty = 13 then ofFmt fmtF19 (d (n 1))
  else
    let b := (get (row + x / 2)).toNat
    ofFmt fmtF19 (d (if x % 2 = 0 then b % 16 else b / 16))

/-- The value of a scale byte (R72, R73, R288). -/
def scaleValue (form : Nat) (d : Nat → Nat) (b : Byte) : Val :=
  if form = 0 then .fin false 1 0
  else if form = 1 then (if b = 255#8 then .nan else .fin false 1 ((b.toNat : Int) - 127))
  else fmtF19.value (d b.toNat)

/-- ScaleElem (R74). -/
def scaleElem (c : Val) (x : Val × Flags) : Val × Flags :=
  match c, x.1 with
  | _, .nan => (.nan, x.2 ||| (if c = .nan then flagNV else 0#7))
  | .nan, _ => (.nan, flagNV)
  | .fin _ 0 _, .fin s _ _ => (.fin s 0 0, 0#7)
  | c, v => mulVal c v

/-! ### The multiply-accumulate -/

/-- What an MMA multiplies: shape, K, scaled elements and scales by index, mask, and rounding. -/
structure MmaOperands where
  a : Nat → Nat → Val × Flags
  b : Nat → Nat → Val × Flags
  sa : Nat → Nat → Val
  sb : Nat → Nat → Val
  kk : Nat
  mask : Nat
  moff : Int
  mode : Rounding

/-- Present(i, k) (R301). -/
def present (mask : Nat) (moff : Int) (i k : Nat) : Bool :=
  match mask with
  | 0 => true
  | 1 => decide ((k : Int) ≤ i + moff)
  | 2 => decide ((k : Int) < i + moff)
  | _ => decide ((k : Int) ≥ i + moff)

/-- One K-block of one element (R93, R301). -/
def mmaBlock (o : MmaOperands) (rnd i j : Nat) (acc : Nat × Flags) (kb : Nat) : Nat × Flags :=
  let ks := ((List.range (min 32 (o.kk - 32 * kb))).map (· + 32 * kb)).filter (present o.mask o.moff i)
  if ks.isEmpty then acc
  else
    let terms := ks.map fun k =>
      let x := scaleElem (o.sa i kb) (o.a i k)
      let y := scaleElem (o.sb kb j) (o.b k j)
      let p := mulVal x.1 y.1
      (p.1, p.2 ||| x.2 ||| y.2)
    let s := sumVal o.mode (terms.map (·.1))
    let t := roundWith fmtF32 o.mode rnd s
    let r := fAdd fmtF32 .rne 0 acc.1 t.1
    (r.1, terms.foldl (fun f t => f ||| t.2) (acc.2 ||| t.2 ||| r.2))

/-- MaskedAccumulate (R301). -/
def mmaElem (o : MmaOperands) (rnd i j acc : Nat) : Nat × Flags :=
  (List.range ((o.kk + 31) / 32)).foldl (mmaBlock o rnd i j) (acc, 0#7)

/-- Byte `n` of the string of vector registers from `vf` on (R289). -/
def vecByte (v : Ctx) (vf n : Nat) : Byte := (tabGet v.v (vf + n / 256) 0#2048).extractLsb' (8 * (n % 256)) 8

/-- Where the operands of an MMA lie, in bytes: (start, length) of each k-row of A, of the A scales, of B and of the B scales. -/
def mmaRanges (c : Core) (v : Option Nat) (d0 d1 d2 fmt : Word) : List (Nat × Nat) × List (Nat × Nat) × Nat × Nat :=
  let kk := field d2 0 12 + 1
  let blocks := (kk + 31) / 32
  let rowA := (c.rows * halfBytes (field fmt 0 4) + 1) / 2
  let rowB := (c.cols * halfBytes (field fmt 4 4) + 1) / 2
  (if v.isSome then [] else (List.range kk).map fun k => (field d0 0 18 + k * field d0 36 16, rowA),
    if field fmt 16 2 = 0 then [] else (List.range blocks).map fun b => (field d0 18 18 + 128 * b, c.rows),
    field d1 0 21 + (kk - 1) * 64 * halfBytes (field fmt 4 4) + rowB,
    if field fmt 18 2 = 0 then 0 else field d1 21 21 + 128 * (blocks - 1) + c.cols)

/-- The checks of MMA after that of the combination (R299, R300). -/
def mmaChecks (v : Option Nat) (d0 d1 d2 fmt : Word) : U Unit := do
  let c ← curCore
  let x ← curCtx
  let kk := field d2 0 12 + 1
  let run := (kk * 64 * halfBytes (field fmt 0 4) + 255) / 256
  let (ra, rs, endB, endS) := mmaRanges c v d0 d1 d2 fmt
  stopIf (field d0 52 12 != 0 || field d1 42 22 != 0 || field d2 32 32 != 0 || field d2 12 4 != 0) .operandRange
  match v with
  | some f =>
    stopIf (decide (f + run > 32)) .operandRange
    stopIf (x.streams.any fun p => decide (f ≤ p.1 ∧ p.1 < f + run)) .operandRange
  | none => pure ()
  stopIf (decide (endB > 0x200000) || decide (endS > 0x200000)) .operandRange
  stopIf ((v.isNone && (field d0 0 3 != 0 || field d0 36 3 != 0)) || field d1 0 6 != 0 || field d1 21 6 != 0) .misaligned
  stopIf ((ra ++ rs).any fun r => decide (r.1 + r.2 > c.S)) .outsideScratchpad

/-- The operands of an MMA as they stand (R289). -/
def mmaOperands (c : Core) (q : Quad) (x : Ctx) (v : Option Nat) (d0 d1 d2 fmt : Word) : MmaOperands where
  a := fun i k => match v with
    | some f => decodeElem (field fmt 0 4) (vecByte x f) (c.entry (field fmt 12 2)) (k * 64 * halfBytes (field fmt 0 4)) i
    | none => decodeElem (field fmt 0 4) (memGet c.store) (c.entry (field fmt 12 2)) (field d0 0 18 + k * field d0 36 16) i
  b := fun k j =>
    decodeElem (field fmt 4 4) (memGet q.bsram) (c.entry (field fmt 14 2)) (field d1 0 21 + k * 64 * halfBytes (field fmt 4 4)) j
  sa := fun i kb => scaleValue (field fmt 16 2) (c.entry (field fmt 20 2)) (memGet c.store (field d0 18 18 + 128 * kb + i))
  sb := fun kb j => scaleValue (field fmt 18 2) (c.entry (field fmt 20 2)) (memGet q.bsram (field d1 21 21 + 128 * kb + j))
  kk := field d2 0 12 + 1
  mask := field fmt 25 2
  moff := (d2.extractLsb' 16 16).toInt
  mode := roundingOf (fmt.extractLsb' 22 3)

/-- Element (i, j) of a tile: it stands at 128 × i + j, and an unlisted element is +0 (R291). -/
def Core.tileElem (c : Core) (t i j : Nat) : Nat := (tabGet (tabGet c.tiles t []) (128 * i + j) 0#32).toNat

/-- The elements of a tile of a core's shape, in ascending order. -/
def Core.tileIndex (c : Core) : List (Nat × Nat) :=
  (List.range c.rows).flatMap fun i => (List.range c.cols).map fun j => (i, j)

/-- MMA, performed (R300). -/
def performMma (tile : Nat) (z : Bool) (v : Option Nat) (d0 d1 d2 fmt : Word) : U After := do
  let s ← getS
  let c ← curCore
  let x ← curCtx
  let rnd ← unitRnd
  let o := mmaOperands c (s.quad (quadOf s.cur.1)) x v d0 d1 d2 fmt
  let es := c.tileIndex.map fun p =>
    (128 * p.1 + p.2, mmaElem o (rnd (128 * p.1 + p.2)) p.1 p.2 (if z then 0 else c.tileElem tile p.1 p.2))
  let new := (es.filter fun e => e.2.1 != 0).map fun e => (e.1, BitVec.ofNat 32 e.2.1)
  updCore fun c => { c with tiles := tabSet c.tiles tile new, inuse := c.inuse ||| BitVec.ofNat 4 (2 ^ tile) }
  raiseFlags (es.foldl (fun f e => f ||| e.2.2) 0#7)
  pure .next

/-! ### Encoding and quantising -/

/-- The magnitude of a value. -/
def Val.abs : Val → Val
  | .fin _ m e => .fin false m e
  | .inf _ => .inf false
  | .nan => .nan

/-- SelectNeighbour(i, i + 1, ·) for a magnitude x / c between entries `lo` and `hi` (R71, R76, R81). -/
def selectNeighbour (mode : Rounding) (rnd : Nat) (neg : Bool) (i : Nat) (x lo hi : Val) : Nat :=
  let e0 := min x.expo (min lo.expo hi.expo)
  let rem := (x.mantAt e0 - lo.mantAt e0).natAbs
  let span := (hi.mantAt e0 - lo.mantAt e0).natAbs
  let up := match mode with
    | .rz => false
    | .rdn => neg
    | .rup => !neg
    | .rne => decide (2 * rem > span) || (2 * rem == span && i % 2 == 1)
    | .rna => decide (2 * rem ≥ span)
    | .rst => decide (rem * 2 ^ 32 / span + rnd ≥ 2 ^ 32)
  if up then i + 1 else i

/-- Encode(x / c, D, n, mode) for a positive finite scale c (R71). -/
def encodeElem (d : Nat → Nat) (n : Nat) (mode : Rounding) (rnd : Nat) (c : Val) (x : Nat) : Nat × Flags :=
  let h := n / 2
  let f := tableTop d h
  let neg := x.testBit 31
  let s := if neg then h else 0
  let times := fun (i : Nat) => (mulVal (fmtF19.value (d i)) c).1
  match fmtF32.value x with
  | .nan =>
    match (List.range h).find? fun i => fmtF19.isNaN (d i) with
    | some i => (i, fmtF32.sFlag x)
    | none => (0, flagNV)
  | .inf _ => if f + 1 < h ∧ d (f + 1) = 261120 then (s + f + 1, 0#7) else (s + f, flagOF)
  | .fin _ m e =>
    let a : Val := .fin false m e
    if cmpVal a (times f) = .gt then (s + f, flagOF)
    else
      let i := ((List.range (f + 1)).filter fun j => cmpVal (times j) a != .gt).length - 1
      if cmpVal (times i) a = .eq then (s + i, 0#7)
      else (s + selectNeighbour mode rnd neg i a (times i) (times (i + 1)), flagNX)

/-- floor(log2 x) of a finite non-zero magnitude. -/
def Val.floorLog2 : Val → Int
  | .fin _ m e => e + m.log2
  | _ => 0

/-- How TQNT chooses scales: target table with its size, scale table, form and rounding (R303). -/
structure Quantiser where
  d : Nat → Nat
  n : Nat
  sd : Nat → Nat
  form : Nat
  mode : Rounding

/-- The scale that a number stands for: an exponent, or an index of the scale table. -/
def Quantiser.scale (q : Quantiser) (u : Nat) : Val :=
  if q.form = 0 then .fin false 1 0
  else if q.form = 1 then .fin false 1 ((u : Int) - 127)
  else fmtF19.value (q.sd u)

def Quantiser.dmax (q : Quantiser) : Val := fmtF19.value (q.d (tableTop q.d (q.n / 2)))

/-- Whether a block with greatest magnitude `amax` overflows under a scale (R303). -/
def Quantiser.overflows (q : Quantiser) (amax : Val) (u : Nat) : Bool :=
  cmpVal amax (mulVal q.dmax (q.scale u)).1 == .gt

/-- The initial scale (R303). -/
def Quantiser.first (q : Quantiser) (amax : Val) : Nat :=
  if q.form = 1 then
    if amax.isZero then 127 else (min 254 (max 0 (amax.floorLog2 - q.dmax.floorLog2 + 127))).toNat
  else if q.form = 2 then
    let top := tableTop q.sd 128
    let ok := ((List.range top).map (· + 1)).filter fun u => cmpVal (mulVal (q.scale u) q.dmax).1 amax != .gt
    max 1 (ok.foldl max 0)
  else 0

/-- The steps of a block: the scale it ends with and the steps taken (R303). -/
def Quantiser.steps (q : Quantiser) (amax : Val) : Nat → Nat → Nat × Nat
  | 0, u => (u, 0)
  | fuel + 1, u =>
    let possible := if q.form = 1 then decide (u < 254) else if q.form = 2 then decide (u + 1 ≤ tableTop q.sd 128) else false
    if q.overflows amax u && possible then
      let r := q.steps amax fuel (u + 1)
      (r.1, r.2 + 1)
    else (u, 0)

/-- The greatest finite magnitude of a block. -/
def blockMax (xs : List Nat) : Val :=
  xs.foldl (fun m x => match fmtF32.value x with
    | .fin _ a e => if cmpVal (.fin false a e) m = .gt then .fin false a e else m
    | _ => m) (.fin false 0 0)

/-- One block quantised: its codes, its scale byte, and its flags (R303, R304). -/
def Quantiser.block (q : Quantiser) (xs : List (Nat × Nat)) : List Nat × Byte × Flags :=
  let amax := blockMax (xs.map (·.2))
  let u := (q.steps amax 3 (q.first amax)).1
  let r := xs.map fun x => encodeElem q.d q.n q.mode x.1 (q.scale u) x.2
  (r.map (·.1), BitVec.ofNat 8 u,
    r.foldl (fun f e => f ||| e.2) (if q.overflows amax u then flagQO else 0#7))

/-- The quantiser that a format word selects for a core (R287). -/
def quantiserOf (c : Core) (fmt : Word) : Quantiser where
  d := c.entry (field fmt 32 2)
  n := if field fmt 28 4 = 14 then 16 else 256
  sd := c.entry (field fmt 20 2)
  form := field fmt 34 2
  mode := roundingOf (fmt.extractLsb' 36 3)

/-- The columns of block `b` of a row. -/
def blockCols (c : Core) (b : Nat) : List Nat := (List.range (min 32 (c.cols - 32 * b))).map (· + 32 * b)

/-- The bytes of a row of codes (R68, R304). -/
def codeBytes (c4 : Bool) : List Nat → List Byte
  | [] => []
  | [a] => [BitVec.ofNat 8 a]
  | a :: b :: t => if c4 then BitVec.ofNat 8 (a + 16 * b) :: codeBytes c4 t else BitVec.ofNat 8 a :: codeBytes c4 (b :: t)

/-- Bytes of a row of codes, and blocks of a row (R304). -/
def tqntRow (c : Core) (fmt : Word) : Nat × Nat :=
  (if field fmt 28 4 = 13 then c.cols else (c.cols + 1) / 2, (c.cols + 31) / 32)

/-- What a TQNT writes. -/
def tqntRanges (c : Core) (coff soff : Nat) (fmt : Word) : List (Nat × Nat) :=
  let (rb, nb) := tqntRow c fmt
  (coff, c.rows * rb) :: (if field fmt 34 2 = 0 then [] else [(soff, c.rows * nb)])

/-- TQNT, performed: block by block, its codes and then its scale byte (R304). -/
def performTqnt (tile coff soff : Nat) (fmt : Word) : U After := do
  let c ← curCore
  let rnd ← unitRnd
  let (rb, nb) := tqntRow c fmt
  let qdt := field fmt 32 2
  stopIf ((tqntRanges c coff soff fmt).any fun r => decide (r.1 + r.2 > c.S)) .outsideScratchpad
  stopIf (!c.dtenc.getLsbD (if field fmt 28 4 = 14 then 2 * qdt + 1 else 2 * qdt)) .tableNotEncodable
  stopIf (field fmt 34 2 == 2 && !c.dtenc.getLsbD (2 * field fmt 20 2)) .tableNotEncodable
  let q := quantiserOf c fmt
  let c4 := field fmt 28 4 == 14
  let rows := (List.range c.rows).map fun i =>
    (i, (List.range nb).map fun b => q.block ((blockCols c b).map fun j => (rnd (128 * i + j), c.tileElem tile i j)))
  let put := fun (m : List Host.Cell) (r : Nat × List (List Nat × Byte × Flags)) =>
    (r.2.zip (List.range nb)).foldl (fun m b =>
      let m := memPut m (coff + r.1 * rb + (if c4 then 16 * b.2 else 32 * b.2)) (codeBytes c4 b.1.1)
      if field fmt 34 2 = 0 then m else memPut m (soff + r.1 * nb + b.2) [b.1.2.1]) m
  updCore fun c => { c with store := rows.foldl put c.store }
  raiseFlags (rows.foldl (fun f r => r.2.foldl (fun f b => f ||| b.2.2) f) 0#7)
  pure .next

/-! ### Serving the queue -/

/-- Ticks of a request at the unit; a thermal stage doubles the k-row time (R286, R474). -/
def matrixTicks (s : State) (e : Queued MatrixReq) : Nat :=
  let c := s.core e.core
  match e.req with
  | .mma _ _ _ _ _ d2 fmt => (field d2 0 12 + 1) * ((fmtTime fmt).getD 1 * if s.hub.stage ≥ 1 then 2 else 1) + 16
  | .tldb _ _ n => (n + 127) / 128 + 8
  | .dtld _ _ => 10
  | .dtldStd _ _ => 2
  | .tqnt t _ _ fmt =>
    let q := quantiserOf c fmt
    let nb := (tqntRow c fmt).2
    let passes := (List.range c.rows).foldl (fun m i => (List.range nb).foldl (fun m b =>
      let amax := blockMax ((blockCols c b).map fun j => c.tileElem t i j)
      max m (q.steps amax 3 (q.first amax)).2) m) 0
    c.rows * nb * 2 * (1 + passes) + 8
  | .trel m => 1 + 12 * ((List.range 4).filter m.getLsbD).length
  | _ => 1

/-- Whether a matrix request is charged to the GRANT meter (R423). -/
def MatrixReq.metered : MatrixReq → Bool
  | .mma _ _ _ _ _ _ _ | .tldb _ _ _ | .tqnt _ _ _ _ => true
  | _ => false

/-- How a context waits for its request at the matrix unit: in MATRIX for an MMA (R284, R300). -/
def MatrixReq.life : MatrixReq → Life
  | .mma _ _ _ _ _ _ _ => .matrix
  | _ => .blocked .unitReq

/-- A request joins the queue of the quad's matrix unit, charged to its class (R284, R423). -/
def State.joinMatrix (s : State) (k x : Nat) (r : MatrixReq) : State :=
  let n := quadOf k
  let e : Queued MatrixReq := { core := k, ctx := x, req := r }
  let s := wakeQuad (if r.metered then s.charge (s.clsOf k) 3 ((matrixTicks s e + 1023) / 1024) else s) n
  let s := watchQuad (if (s.quad n).matrix.isEmpty then s.post 0 (.matrixRequestStart (BitVec.ofNat 10 n)) else s) n
  (s.modCtx k x fun v => { v with req := some .atUnit }).modQuad n fun q => { q with matrix := q.matrix ++ [e] }

/-- A unit's request goes to the matrix unit, or waits before its charge while the GRANT meter is exhausted (R284, R424). -/
def matrixRequest (r : MatrixReq) : U After := do
  let s ← getS
  let (k, x) := s.cur
  if r.metered && s.meterBusy k 3 then meterHold 3 (.matrix r)
  else
    setS (s.joinMatrix k x r)
    pure (.hold .unitReq)

/-- Whether a request would touch a word of another context's trick (R306). [DEDUCED, log 31] -/
def matrixTouched (s : State) (e : Queued MatrixReq) : Bool :=
  let c := s.core e.core
  match e.req with
  | .mma _ _ v d0 d1 d2 fmt => let (ra, rs, _, _) := mmaRanges c v d0 d1 d2 fmt; c.rangesTouched e.ctx (ra ++ rs) []
  | .tldb src _ n => c.rangesTouched e.ctx [(src, n)] []
  | .dtld _ src => c.rangesTouched e.ctx [(src, 1024)] []
  | .tqnt _ coff soff fmt => c.rangesTouched e.ctx [] (tqntRanges c coff soff fmt)
  | _ => false

/-- MATRIX_REQUEST_START (R284). -/
def execMatrixRequestStart (quad : QuadId) (s : State) : Out :=
  let n := quad.toNat
  match (s.quad n).matrix with
  | [] => .next s
  | e :: rest =>
    if e.done.isSome then .next s
    else
      let t := matrixTicks s e
      .next ((s.modQuad n fun q => { q with matrix := { e with done := some (s.tick + t) } :: rest }).post t
        (.matrixRequestComplete quad))

/-- TCFG, performed (R294). -/
def performTcfg (m n : Nat) : U After := do
  stopIf ((← curCore).inuse != 0#4) .tileBusy
  updCore fun c => { c with rows := m, cols := n }
  pure .next

/-- What a request does when it is performed. -/
def performMatrix (r : MatrixReq) : U After :=
  match r with
  | .tcfg m n => performTcfg m n
  | .trel m => do
    updCore fun c => { c with tiles := c.tiles.filter (fun t => !m.getLsbD t.1), inuse := c.inuse &&& ~~~m }
    pure .next
  | .dtld t src => do
    updCore fun c => loadTable c t fun i => memRead c.store (src + 4 * i) 4 % 2 ^ 19
    pure .next
  | .dtldStd t k => do
    updCore fun c => loadTable c t (stdEntry k)
    pure .next
  | .fctx w => do
    updCore fun c => { c with fmt := w }
    pure .next
  | .fctxRd d => do
    writeG d (← curCore).fmt
    pure .next
  | .tldb src off n => do
    let s ← getS
    let bs := memBytes (s.core s.cur.1).store src n
    setS (s.modQuad (quadOf s.cur.1) fun q => { q with bsram := memPut q.bsram off bs })
    pure .next
  | .mma t z v d0 d1 d2 fmt => performMma t z v d0 d1 d2 fmt
  | .tqnt t coff soff fmt => performTqnt t coff soff fmt

/-- Whether a TSTC of a tile waits for a request (R302). -/
def tstcAwaits (tile : TReg) (r : MatrixReq) : Bool :=
  match r with
  | .tcfg _ _ => true
  | .trel m => m.getLsbD tile.toNat
  | .mma t _ _ _ _ _ _ => t == tile.toNat
  | .tqnt t _ _ _ => t == tile.toNat
  | _ => false

/-- Store bytes of the rounding of a tile element. -/
def tstcBytes (fmt : Nat) (mode : Rounding) (rnd x : Nat) : List Byte × Flags :=
  if fmt = 0 then (toBytes 4 x, 0#7)
  else
    let f := if fmt = 1 then fmtBf16 else fmtF16
    let r := roundVal f mode rnd (fmtF32.value x)
    (toBytes 2 r.1, r.2 ||| fmtF32.sFlag x)

/-- TSTC: it waits for the earlier requests that decide what it stores, which it counts when it first issues (R302). -/
def tstcU (fmt : Nat) (tile : TReg) (s2 s1 : GReg) : U After := do
  needMatrix
  let a ← readG s1
  let r ← readG s2
  let s ← getS
  let k := s.cur.1
  let c ← curCore
  let ahead := ((s.quad (quadOf k)).matrix.filter fun e => e.core == k && tstcAwaits tile e.req).length
  if !(← curCtx).tileFree && decide (ahead > 0) then stallOn (.tileBusy ahead fmt tile s2 s1)
  let off ← ownOffset a
  let row := field r 0 7
  let cnt := field r 8 4 + 1
  let eb := if fmt = 0 then 4 else 2
  stopIf (decide (row + cnt > c.rows)) .operandRange
  stopIf (field a 0 3 != 0) .misaligned a
  stopIf (decide (off + cnt * c.cols * eb > c.S)) .outsideScratchpad a
  let rnd ← unitRnd
  let v ← curCtx
  let es := (List.range cnt).flatMap fun q => (List.range c.cols).map fun j =>
    tstcBytes fmt (frm v) (rnd (128 * (row + q) + j)) (c.tileElem tile.toNat (row + q) j)
  let bs := es.flatMap (·.1)
  lsStore off bs.length (ofBytes bs)
  raiseFlags (es.foldl (fun f e => f ||| e.2) 0#7)
  pure .next

/-- Waiting TSTCs of a core await `fewer` requests less; one that awaits none any more is performed (R302). -/
def advanceTstc (k : Nat) (fewer : TReg → Nat → Nat) (s : State) : State :=
  (s.core k).ctxs.foldl (fun s p =>
    match p.2.life with
    | .blocked (.tileBusy n fmt tile s2 s1) =>
      let m := fewer tile n
      if m = 0 then s
      else if m < n then s.modCtx k p.1 fun v => { v with life := .blocked (.tileBusy (n - m) fmt tile s2 s1) }
      else
        match runIn (tstcU fmt tile s2 s1) { s.modCtx k p.1 (fun v => { v with tileFree := true }) with cur := (k, p.1) } with
        | .next t => if (t.ctx k p.1).life = p.2.life then t.ready k p.1 else t
        | _ => s
    | _ => s) s

/-- A waiting TSTC is performed at the completion of the last request that it awaits. -/
def wakeTstc (r : MatrixReq) (k : Nat) (s : State) : State := advanceTstc k (fun tile _ => if tstcAwaits tile r then 1 else 0) s

/-- Requests leave a quad's units unperformed; the TSTCs that await them await them no more (R262, R302, R309). -/
def dropFromUnits (q : Nat) (gone : Nat → Nat → Nat → Bool) (s : State) : State :=
  let old := (s.quad q).matrix
  let s := s.modQuad q fun u => { u with
    matrix := u.matrix.filter fun e => !gone e.core e.ctx e.count
    scan := u.scan.filter fun e => !gone e.core e.ctx e.count }
  (List.range 4).foldl (fun s j => advanceTstc (4 * q + j) (fun tile n =>
    (((old.filter fun e => e.core == 4 * q + j && tstcAwaits tile e.req).take n).filter fun e => gone e.core e.ctx e.count).length) s) s

/-- The next request of a queue may start. -/
def startNext (n : Nat) (s : State) : State :=
  if (s.quad n).matrix.isEmpty then s else s.post 0 (.matrixRequestStart (BitVec.ofNat 10 n))

/-- MATRIX_REQUEST_COMPLETE: the request is performed, or waits while it would touch a word of another context's trick (R284,
R306). -/
def execMatrixRequestComplete (quad : QuadId) (s : State) : Out :=
  let n := quad.toNat
  match (s.quad n).matrix with
  | [] => .next s
  | e :: rest =>
    match e.done with
    | none => .next s
    | some t =>
      if s.tick < t then .next s
      else if matrixTouched s e then .next (s.post 1 (.matrixRequestComplete quad))
      else
        let s := s.modQuad n fun q => { q with matrix := rest }
        let s := completeUnit s e.core e.ctx (performMatrix e.req)
        .next (startNext n (wakeTstc e.req e.core s))

/-! ### Instructions -/

/-- A unit of this chapter that goes to the unit (R282, R284). -/
def matrixUnit (m : U MatrixReq) (s : State) : Out :=
  runOp (do
    needMatrix
    matrixRequest (← m)) s

/-- TCFG (R294). -/
def execTcfg (mm nn : BitVec 7) (s : State) : Out := matrixUnit (pure (.tcfg (mm.toNat + 1) (nn.toNat + 1))) s

/-- TREL (R295). -/
def execTrel (k : BitVec 4) (s : State) : Out := matrixUnit (pure (.trel k)) s

/-- DTLD from the local store (R296). -/
def execDtld (d : TReg) (s1 : GReg) (s : State) : Out :=
  matrixUnit (do
    let a ← readG s1
    let off ← ownOffset a
    stopIf (field a 0 6 != 0) .misaligned a
    stopIf (decide (off + 1024 > (← curCore).S)) .outsideScratchpad a
    pure (.dtld d.toNat off)) s

/-- DTLD of a shipped table (R296). -/
def execDtldStd (d : TReg) (k : StdTable) (s : State) : Out := matrixUnit (pure (.dtldStd d.toNat k)) s

/-- FCTX (R297). -/
def execFctx (s1 : GReg) (s : State) : Out :=
  matrixUnit (do
    let w ← readG s1
    stopIf (!fmtLegal w) .operandRange
    pure (.fctx w)) s

/-- FCTX.rd (R297). -/
def execFctxRd (d : GReg) (s : State) : Out :=
  matrixUnit (do
    needDest d
    pure (.fctxRd d)) s

/-- TLDB (R298). -/
def execTldb (s2 s1 s3 : GReg) (s : State) : Out :=
  matrixUnit (do
    let src ← readG s1
    let off ← readG s2
    let n ← readG s3
    let a ← ownOffset src
    stopIf (decide (off.toNat + n.toNat > 0x200000)) .operandRange
    stopIf (field src 0 6 != 0 || field off 0 6 != 0 || field n 0 6 != 0) .misaligned src
    stopIf (decide (a + n.toNat > (← curCore).S)) .outsideScratchpad src
    pure (.tldb a off.toNat n.toNat)) s

/-- MMA: the context is in MATRIX until it completes (R284, R299, R300). -/
def mmaUnit (d : TReg) (s1 : GReg) (z : Bool) (v : Option Nat) (s : State) : Out :=
  let o := matrixUnit (do
    let st ← getS
    let fmt := st.currentFmt st.cur.1
    if (fmtTime fmt).isNone then stopTrap .illegal 0#64 1#8
    let d0 ← readG s1
    let d1 ← readG (s1 + 1)
    let d2 ← readG (s1 + 2)
    mmaChecks v d0 d1 d2 fmt
    pure (.mma d.toNat z v d0 d1 d2 fmt)) s
  match o with
  | .next t =>
    if (t.ctx s.cur.1 s.cur.2).life = .blocked .unitReq then .next (t.modCtx s.cur.1 s.cur.2 fun v => { v with life := .matrix })
    else .next t
  | r => r

/-- MMA with A from the local store (R300). -/
def execMma (d : TReg) (s1 : GReg) (z : Bool) (s : State) : Out := mmaUnit d s1 z none s

/-- MMA with A from vector registers (R300). -/
def execMmaV (d : TReg) (s1 : GReg) (v : VReg) (z : Bool) (s : State) : Out := mmaUnit d s1 z (some v.toNat) s

/-- TSTC as binary32 (R302). -/
def execTstcF32 (d : TReg) (s2 s1 : GReg) (s : State) : Out := runIn (tstcU 0 d s2 s1) s

/-- TSTC as bfloat16 (R302). -/
def execTstcBf16 (d : TReg) (s2 s1 : GReg) (s : State) : Out := runIn (tstcU 1 d s2 s1) s

/-- TSTC as binary16 (R302). -/
def execTstcF16 (d : TReg) (s2 s1 : GReg) (s : State) : Out := runIn (tstcU 2 d s2 s1) s

/-- TQNT (R304). -/
def execTqnt (d : TReg) (s1 : GReg) (s : State) : Out :=
  matrixUnit (do
    let x ← readG s1
    let st ← getS
    stopIf (field x 36 28 != 0) .operandRange
    pure (.tqnt d.toNat (field x 0 18) (field x 18 18) (st.currentFmt st.cur.1))) s

end Sys2Proof.Machine
end

