-- ==== Sys2Proof/Machine/Global.lean ====
section
/-! DEFINITION. Global loads and stores, prefetches, line requests, leases, far atomics and commits (R218 to R225, R241 to
R264). -/

namespace Sys2Proof.Machine

/-! ### Loads, stores, prefetches -/

/-- The address of a global access of `n` bytes (R242). -/
def gAddr (b : GReg) (off : BitVec 10) (n : Nat) : U Word := do
  let ea ← eaMI b off n
  needAligned ea n
  pure ea

/-- A global load of 2^z bytes into a register (R242, R245). -/
def globalLoad (d b : GReg) (off : BitVec 10) (z : BitVec 2) (x : Bool) : U After := do
  let n := 2 ^ z.toNat
  let ea ← gAddr b off n
  let v ← gLoad ea n
  writeG d (extendLoad n x v)
  pure .next

/-- A global store of the low 2^z bytes of a register (R242, R245). -/
def globalStore (d b : GReg) (off : BitVec 10) (z : BitVec 2) : U After := do
  let n := 2 ^ z.toNat
  let ea ← gAddr b off n
  let v ← readG d
  gStore ea n (v.toNat % 2 ^ (8 * n))
  pure .next

/-- LDG (R242, R245). -/
def execLdg (d b : GReg) (off : BitVec 10) (z : BitVec 2) (x : Bool) (s : State) : Out := runIn (globalLoad d b off z x) s

/-- STG (R242, R245). -/
def execStg (d b : GReg) (off : BitVec 10) (z : BitVec 2) (s : State) : Out := runIn (globalStore d b off z) s

/-- Load global elements in ascending order: the first that faults is reported (R243). -/
def gLoadElems (n : Nat) : List (Nat × Word) → U (List (Nat × Nat))
  | [] => pure []
  | (i, ea) :: t => do
    let v ← gLoad ea n
    let r ← gLoadElems n t
    pure ((i, v) :: r)

/-- Store global elements in ascending order (R243). -/
def gStoreElems (n : Nat) (t : ElemType) (data : Vec) : List (Nat × Word) → U Unit
  | [] => pure ()
  | (i, ea) :: r => do
    gStore ea n (laneOf t (elem data t.width i))
    gStoreElems n t data r

/-- VLDG (R243). -/
def execVldg (d : VReg) (s1 s2 : GReg) (p : PReg) (t : ElemType) (s : State) : Out :=
  runIn (do
    let es ← rowAddrs s1 s2 p t
    let l ← gLoadElems (t.width / 8) es
    let old ← oldV d
    writeV d (mergeElems t old l) (← readP p)
    pure .next) s

/-- VSTG (R243). -/
def execVstg (d : VReg) (s1 s2 : GReg) (p : PReg) (t : ElemType) (s : State) : Out :=
  runIn (do
    let es ← rowAddrs s1 s2 p t
    let v ← readV d
    gStoreElems (t.width / 8) t v es
    pure .next) s

/-- Ticks until the home has the data of a line for a core (R529). [DESIGN CHOICE, log 5] -/
def lineLatency (s : State) (k l : Nat) : Nat :=
  (if dieOf k = s.homeDie k l then Config.homeDie else Config.homePkg) + (if (tabFind s.dir l).isNone then Config.memory else 0)

/-- PREF: dropped unless the translation is at hand, the address is device memory, no other context leases the line and nothing waits at its
home; it never faults and never waits (R244). `pref.own` too is translated as a read [DEDUCED, log 56]. -/
def prefetch (b : GReg) (off : BitVec 10) (kind : LineKind) : U After := do
  let ea ← eaMI b off 1
  let s ← getS
  let k := s.cur.1
  match s.tlbHit k (s.core k).vmroot ea.toNat with
  | some e =>
    match s.checkPage (s.partOf k) e ea.toNat 0 with
    | .ok pa =>
      let l := pa / 64
      if hostResident pa || ea.extractLsb' 56 8 != 0#8 || s.leaseHeld (· == l) (some s.cur) || s.lineBusy l then pure .next
      else
        postIn (lineLatency s k l) (.homeLineRequest (BitVec.ofNat 46 l) (cid k) kind)
        pure .next
    | .error _ => pure .next
  | none => pure .next

/-- PREF.rd (R244). -/
def execPrefRd (b : GReg) (off : BitVec 10) (s : State) : Out := runIn (prefetch b off .prefRd) s

/-- PREF.own (R244). -/
def execPrefOwn (b : GReg) (off : BitVec 10) (s : State) : Out := runIn (prefetch b off .prefOwn) s

/-- PREF.slc: the line comes into its home slice only (R244). -/
def execPrefSlc (b : GReg) (off : BitVec 10) (s : State) : Out := runIn (prefetch b off .prefSlc) s

/-! ### The home of a line -/

/-- Contexts of a core that wait for a line go on (R246). -/
def wakeLine (s : State) (k l : Nat) (own : Bool) : State :=
  (s.core k).ctxs.foldl (fun s p =>
    match p.2.life with
    | .blocked (.line l' o) => if l' = l ∧ (o = false ∨ own) then s.ready k p.1 else s
    | _ => s) s

/-- Other cores that hold a line. -/
def otherHolders (d : Option DirEntry) (k : Nat) (own : Bool) : List Nat :=
  match d with
  | none => []
  | some e => (match e.owner with | some o => if o = k then [] else [o] | none => []) ++ (if own then e.sharers.filter (· != k) else [])

/-- A write event or a request for a line in state O meets a stopped core that holds it: a probe is sent and its allowance runs (R248);
nothing where no stopped core is in the way. -/
def probeStopped (s : State) (k l : Nat) (own : Bool) : Option (Nat × State) :=
  (otherHolders (tabFind s.dir l) k own).findSome? fun h =>
    if (s.core h).stopped then
      let wait := if (s.core h).asleep then 20 * Config.microsecond else 4 * Config.microsecond
      some (wait + 1, s.post wait (.probeTimeout (BitVec.ofNat 46 l) (cid h)))
    else none

/-- Whether a happening at the home of a line is a write event that waits there, rather than a request for the line (R218). -/
def waitsToWrite : Instr → Bool
  | .homeLineRequest _ _ _ | .leaseGrant _ _ | .granuleRead _ _ | .streamStripFill _ _ _ => false
  | _ => true

/-- Whether a core's request for a line goes ahead of what waits at its home: its context holds a lease in force on it, or its active trump waits
for the line and the first in the way is a write event, which may be waiting for the trump (R224, R246, R255). [DEDUCED, log 85] -/
def goesAhead (s : State) (k l : Nat) (i : Instr) : Bool :=
  (s.core k).ctxs.any fun x => x.2.leases? s.tick l ||
    (x.2.running.trump && (x.2.life == .blocked (.line l true) || x.2.life == .blocked (.line l false)) &&
      ((s.held.takeWhile (·.1 != i)).find? fun e => e.2.contains (lineKey l)).any fun e => waitsToWrite e.1)

/-- Whether another core's context holds a lease in force on a line (R255). -/
def leasedAway (s : State) (k l : Nat) : Bool :=
  s.cores.any fun c => c.1 != k && c.2.ctxs.any fun x => x.2.leases? s.tick l

/-- A line enters a core's L1 portion in state O or S, or its home slice only; a line that no agent and no slice holds comes from memory,
charged (R246, R423). -/
def fillLine (s : State) (k l : Nat) (kind : LineKind) : State :=
  let d := tabFind s.dir l
  let own := kind == .own || kind == .prefOwn
  let s := if d.isNone && !s.podRemote (l * 64) then s.charge (s.clsOf k) 0 1 else s
  let old := d.getD { owner := none, sharers := [] }
  if kind = .prefSlc then { s with dir := tabSet s.dir l old }
  else
    let s := (otherHolders d k own).foldl wakeAgent s
    let keep := (match old.owner with | some o => if o = k then [] else [o] | none => []) ++ old.sharers
    let e : DirEntry := if own || (old.owner == some k) then { owner := some k, sharers := [] }
      else { owner := none, sharers := if keep.contains k then keep else keep ++ [k] }
    wakeLine { s with dir := tabSet s.dir l e } k l own

/-- HOME_LINE_REQUEST: the home serves the requests for one line in the order of arrival; one waits on a lease, on a stopped holder's probe,
on a page grant and on an exhausted HBM meter, and a PREF is dropped where the line is leased, wanted or not granted; a refused grant is
reported by the units that wait (R187, R225, R244, R246 to R249, R255, R405, R423, R424, R471). -/
def execHomeLineRequest (line : LineId) (agent : CoreId) (kind : LineKind) (s : State) : Out :=
  let l := line.toNat
  let k := agent.toNat
  let own := kind == .own || kind == .prefOwn
  let pref := kind != .own && kind != .rd
  let i := Instr.homeLineRequest line agent kind
  let busy := !goesAhead s k l i && s.behind i [lineKey l]
  let wait := fun (n : Nat) (t : State) => Host.Outcome.next (if pref then t.unhold i else t.hold i [lineKey l] n)
  if s.podRemote (l * 64) && s.hub.refused.contains (s.partOf k, l / 64) then .next (wakeLine (s.unhold i) k l true)
  else if busy || leasedAway s k l then wait 1 s
  else
    match s.needPage (l * 64) k own with
    | some t => wait 1 (if pref then s else t)
    | none =>
    match probeStopped s k l own with
    | some (n, t) => wait n (if pref then s else t)
    | none =>
      if (tabFind s.dir l).isNone && !s.podRemote (l * 64) && s.meterOut k 0 then .next (s.hold i [lineKey l])
      else .next (fillLine (s.unhold i) k l kind)

/-! ### Leases -/

/-- The slot that holds a line (R250). -/
def slotOf (v : Ctx) (line : Nat) : Option Nat := (List.range 4).find? fun i => match tabFind v.leases i with
  | some l => l.va == line
  | none => false

/-- LEASE (R252). -/
def leaseU (d s1 s2 : GReg) : U After := do
  let a ← readG s1
  let t ← readG s2
  needDest d
  let dur := if t = 0#64 ∨ t.toNat > 512 then 512 else t.toNat
  let line : Word := a &&& ~~~63#64
  let (pa, _) ← translateU line 1
  let s ← getS
  stopIf (hostResident pa || s.podRemote pa) .leaseTarget line
  capCheckU pa line
  let v ← curCtx
  if (slotOf v line.toNat).isSome then
    writeG d 2#64
    pure .next
  else
    match (List.range 4).find? fun i => (tabFind v.leases i).isNone with
    | none =>
      writeG d 0#64
      pure .next
    | some i =>
      updCtx fun v => { v with
        leases := tabSet v.leases i { va := line.toNat, pa := pa, grant := none, dur := dur, ended := false }
        req := some (.lease i d) }
      postIn (lineLatency s s.cur.1 (pa / 64)) (.leaseGrant (cid s.cur.1) (xid s.cur.2))
      pure (.hold (.lease i))

def execLease (d s1 s2 : GReg) (s : State) : Out := runOp (leaseU d s1 s2) s

/-- LEASE_GRANT: the home grants the line in state O behind every request for it that arrived earlier, once no lease is in force on it; the
lease of a stopped context ends as it begins (R246, R248, R252, R255, R257, R405, R423). -/
def execLeaseGrant (core : CoreId) (ctx : CtxId) (s : State) : Out :=
  let k := core.toNat
  let x := ctx.toNat
  let v := s.ctx k x
  let ev := Instr.leaseGrant core ctx
  match v.life, v.req with
  | .blocked (.lease i), some (.lease _ d) =>
    match tabFind v.leases i with
    | none => .next (s.unhold ev)
    | some l =>
      let line := l.pa / 64
      let wait := fun (n : Nat) (t : State) => Host.Outcome.next (t.hold ev [lineKey line] n)
      if s.behind ev [lineKey line] || s.leaseHeld (· == line) (some (k, x)) ||
          (v.leases.any fun e => e.1 != i && e.2.pa / 64 == line && e.2.inForce s.tick) then wait 1 s
      else
        match s.needPage l.pa k true with
        | some t => wait 1 t
        | none =>
        match probeStopped s k line true with
        | some (n, t) => wait n t
        | none =>
          if (tabFind s.dir line).isNone && s.meterOut k 0 then wait 1 s
          else
            let s := fillLine (s.unhold ev) k line .own
            let s := s.modCtx k x fun v => { v with
              leases := tabSet v.leases i { l with grant := some s.tick, ended := (s.core k).halting.isSome } }
            let s := s.post l.dur (.leaseExpiry core ctx (BitVec.ofNat 2 i))
            .next (completeUnit s k x (do
              writeG d 1#64
              pure .next))
  | _, _ => .next (s.unhold ev)

/-- LEASE_EXPIRY: the lease has ended; its slot stays occupied (R250, R256). -/
def execLeaseExpiry (core : CoreId) (ctx : CtxId) (slot : BitVec 2) (s : State) : Out :=
  .next (s.modCtx core.toNat ctx.toNat fun v =>
    match tabFind v.leases slot.toNat with
    | some l => match l.grant with
      | some g => if g + l.dur ≤ s.tick then { v with leases := tabSet v.leases slot.toNat { l with ended := true } } else v
      | none => v
    | none => v)

/-- UNLEASE (R253, R258). -/
def execUnlease (d s1 : GReg) (s : State) : Out :=
  runOp (do
    let a ← readG s1
    if d ≠ 0#5 then timingTrap
    let line : Word := a &&& ~~~63#64
    let v ← curCtx
    let now := (← getS).tick
    match slotOf v line.toNat with
    | none =>
      writeG d 0#64
      pure .next
    | some i =>
      let live := match tabFind v.leases i with
        | some l => l.inForce now
        | none => false
      updCtx fun v => { v with leases := endLease v.leases now i }
      writeG d (if live then 1#64 else 0#64)
      pure .next) s

/-- The word of LSTAT (R254). -/
def leaseStatus (v : Ctx) (line now : Nat) : Word :=
  let occ := (List.range 4).foldl (fun a i => if (tabFind v.leases i).isSome then a + 2 ^ i else a) 0
  let (held, left) := match slotOf v line with
    | some i => match tabFind v.leases i with
      | some l => (1, match l.grant with | some g => if l.ended then 0 else g + l.dur - now | none => 0)
      | none => (0, 0)
    | none => (0, 0)
  BitVec.ofNat 64 (occ * 2 ^ 16 + held * 2 ^ 10 + left)

/-- LSTAT (R254, R258). -/
def execLstat (d s1 : GReg) (s : State) : Out :=
  runOp (do
    timingTrap
    let a ← readG s1
    let line : Word := a &&& ~~~63#64
    writeG d (leaseStatus (← curCtx) line.toNat (← getS).tick)
    pure .next) s

/-! ### Far atomics -/

/-- The new word of a far atomic, and its flags (R259). -/
def farNew (op : Nat) (old v c : Word) : Word × Flags :=
  match op with
  | 0 => (old + v, 0#7)
  | 1 => (old &&& v, 0#7)
  | 2 => (old ||| v, 0#7)
  | 3 => (old ^^^ v, 0#7)
  | 4 => (if v.slt old then v else old, 0#7)
  | 5 => (if old.slt v then v else old, 0#7)
  | 6 => (if v.ult old then v else old, 0#7)
  | 7 => (if old.ult v then v else old, 0#7)
  | 8 => (v, 0#7)
  | 9 => (if old = c then v else old, 0#7)
  | 10 => let (r, f) := fAdd fmtF64 .rne 0 old.toNat v.toNat; (BitVec.ofNat 64 r, f)
  | _ => (old, 0#7)

/-- Whether the far-atomic queue lets an entry be performed now (R261, R262): `before` are the entries ahead of it.
[DESIGN CHOICE, log 17] -/
def farTurn (before : List FarEntry) (e : FarEntry) : Bool :=
  let waiting := before.filter fun f => f.old.isNone
  if e.ord then waiting.isEmpty
  else waiting.all fun f => !f.ord || f.fault.isSome || f.refused.isSome

/-- Whether an earlier far atomic of another context of the core is still to be performed, in a deterministic launch (R279). -/
def detHeld (s : State) (k x : Nat) (e : FarEntry) : Bool :=
  (s.core k).det && (s.core k).ctxs.any fun p => p.1 != x && p.2.farq.any fun f => f.old.isNone && f.seq < e.seq

/-- Whether an entry behind others has its turn and has not been performed (R261, R262, R279). -/
def farReady (s : State) (k x : Nat) (before : List FarEntry) (e : FarEntry) : Bool :=
  e.old.isNone && e.fault.isNone && e.sent.isNone && farTurn before e && !detHeld s k x e &&
    (!(s.core k).det || before.all fun f => f.old.isSome)

/-- Ticks from an entry's turn to its home, and of the reply; a request to another package leaves at once (R529). [DESIGN CHOICE, log 5] -/
def farLatency (s : State) (k : Nat) (e : FarEntry) : Nat :=
  match s.translate k (s.core k).vmroot e.addr 0 with
  | .ok (pa, _, _) => if s.podRemote pa then 0 else if dieOf k = s.homeDie k (pa / 64) then Config.homeDie else Config.homePkg
  | .error _ => Config.homeDie

/-- The entries of a queue with the ticks in which those whose turn has come will be at their homes. -/
def farDues (s : State) (k x : Nat) : List FarEntry → List FarEntry → List FarEntry
  | _, [] => []
  | before, e :: t =>
    (if farReady s k x before e && e.due.isNone then { e with due := some (s.tick + farLatency s k e) } else e) :: farDues s k x (before ++ [e]) t

/-- Entries whose turn has come leave for their homes (R261, R529). -/
def startFar (s : State) (k x : Nat) : State :=
  let old := (s.ctx k x).farq
  let new := farDues s k x [] old
  ((old.zip new).filterMap fun e => if e.1.due.isNone then e.2.due else none).foldl
    (fun s t => s.post (t - s.tick) (.farAtomicPerform (cid k) (xid x))) (s.modCtx k x fun v => { v with farq := new })

/-- After a change of a queue the turns that it gives, in a deterministic launch also to the core's other contexts (R261, R279). -/
def wakeFar (s : State) (k x : Nat) : State :=
  if (s.core k).det then (s.core k).ctxs.foldl (fun s p => startFar s k p.1) s else startFar s k x

/-- FA: the entry enters the far-operation queue and the unit retires; a queue register that d names is popped for every operation, and keeps room
for the old value (R52, R260). [DEDUCED, log 65] -/
def farAtomic (op : Nat) (d s1 s2 : GReg) (scope : Scope) (ord : Bool) (s : State) : Out :=
  runOut (do
    let a ← readG s1
    let v ← readG s2
    let c ← readG d
    needAligned a 8
    let x ← curCtx
    needDest d
    if x.farq.length ≥ 8 then waitOn .farFull
    let s ← getS
    let k := s.cur.1
    let e : FarEntry := { op := op, addr := a, v := v, c := c, ord := ord, pod := scope == .pod, d := d, unit := x.unit,
                          retire := x.retire, rep := x.rep, queue := if d = 0#5 then none else remap x.cmode d, seq := s.tick }
    updCtx fun x => { x with farq := x.farq ++ [e], reserve := none }
    modify fun s => startFar s k s.cur.2
    pure .next) s

/-- FA operation 0 (R259, R260). -/
def execFaAddN64 (d s1 s2 : GReg) (scope : Scope) (ord : Bool) (s : State) : Out := farAtomic 0 d s1 s2 scope ord s

/-- FA operation 1 (R259, R260). -/
def execFaAndN64 (d s1 s2 : GReg) (scope : Scope) (ord : Bool) (s : State) : Out := farAtomic 1 d s1 s2 scope ord s

/-- FA operation 2 (R259, R260). -/
def execFaOrN64 (d s1 s2 : GReg) (scope : Scope) (ord : Bool) (s : State) : Out := farAtomic 2 d s1 s2 scope ord s

/-- FA operation 3 (R259, R260). -/
def execFaXorN64 (d s1 s2 : GReg) (scope : Scope) (ord : Bool) (s : State) : Out := farAtomic 3 d s1 s2 scope ord s

/-- FA operation 4 (R259, R260). -/
def execFaMinI64 (d s1 s2 : GReg) (scope : Scope) (ord : Bool) (s : State) : Out := farAtomic 4 d s1 s2 scope ord s

/-- FA operation 5 (R259, R260). -/
def execFaMaxI64 (d s1 s2 : GReg) (scope : Scope) (ord : Bool) (s : State) : Out := farAtomic 5 d s1 s2 scope ord s

/-- FA operation 6 (R259, R260). -/
def execFaMinN64 (d s1 s2 : GReg) (scope : Scope) (ord : Bool) (s : State) : Out := farAtomic 6 d s1 s2 scope ord s

/-- FA operation 7 (R259, R260). -/
def execFaMaxN64 (d s1 s2 : GReg) (scope : Scope) (ord : Bool) (s : State) : Out := farAtomic 7 d s1 s2 scope ord s

/-- FA operation 8 (R259, R260). -/
def execFaSwapN64 (d s1 s2 : GReg) (scope : Scope) (ord : Bool) (s : State) : Out := farAtomic 8 d s1 s2 scope ord s

/-- FA operation 9 (R259, R260). -/
def execFaCasN64 (d s1 s2 : GReg) (scope : Scope) (ord : Bool) (s : State) : Out := farAtomic 9 d s1 s2 scope ord s

/-- FA operation 10 (R259, R260). -/
def execFaAddF64 (d s1 s2 : GReg) (scope : Scope) (ord : Bool) (s : State) : Out := farAtomic 10 d s1 s2 scope ord s

/-- FA operation 11 (R259, R260). -/
def execFaGetN64 (d s1 s2 : GReg) (scope : Scope) (ord : Bool) (s : State) : Out := farAtomic 11 d s1 s2 scope ord s

/-- The first entry that has come to its home, or whose refusal has come back, with its place. -/
def nextFar (s : State) (k x : Nat) : List FarEntry → List FarEntry → Option (Nat × FarEntry)
  | _, [] => none
  | before, e :: t =>
    if farReady s k x before e && e.due.any (fun d => decide (d ≤ s.tick)) then some (before.length, e) else nextFar s k x (before ++ [e]) t

/-- Why an entry takes a queued fault at its turn, or its physical address (R260, R262, R278). -/
def farAddress (s : State) (k x : Nat) (e : FarEntry) : Except TrapInfo (Nat × TlbEntry × State) :=
  let kind := if e.op = 11 then 0 else 1
  match s.translate k (s.core k).vmroot e.addr kind with
  | .error f => .error (f.trap e.addr kind)
  | .ok (pa, u, t) =>
    let (tag, lane, det) := s.holderOf k
    let fault := fun c => Except.error { cause := c, addr := e.addr }
    if hostResident pa then fault (if det && x != 15 then .timing else .atomicTarget)
    else if !e.pod && s.podRemote pa then fault .atomicScope
    else if (if e.op = 11 then s.capReadFails k pa tag lane det else s.capFails k pa tag lane det) then fault .capability
    else .ok (pa, u, t)

/-- Whether a context's request waits for its turn at the matrix or the scan unit (R262). -/
def atTurn (s : State) (k x : Nat) : Bool :=
  let q := s.quad (quadOf k)
  (q.matrix.any fun e => e.core == k && e.ctx == x && e.done.isNone) || q.scan.any fun e => e.core == k && e.ctx == x && e.done.isNone

/-- A waiting request of a context is withdrawn, and what its unit took from queue registers returns to them (R203, R262). -/
def withdraw (s : State) (k x : Nat) : State :=
  let s := s.unlist fun w => w.peer.isNone && w.core == k && w.ctx == x
  let out := fun (c : Core) => { c with parking := c.parking.filter (fun e => !(e.core == k && e.ctx == x)) }
  let s := { s with
    cores := s.cores.map (fun c => (c.1, out c.2)),
    squeues := s.squeues.map (fun q => (q.1, { q.2 with waiters := q.2.waiters.filter (· != (k, x)) })),
    agenda := s.agenda.filter fun e => match e.2 with
      | .evictionRetryResend c y | .parkRefusalRetry c y | .wakeListRetry c y => !(c.toNat == k && y.toNat == x)
      | _ => true }
  let s := if atTurn s k x then dropFromUnits (quadOf k) (fun c y _ => c == k && y == x) s else s
  if (s.ctx k x).running.start.isNone then s.unpopHeld k x else s

/-- A wait at a home in another package is withdrawn by a cancel (R262, R370). -/
def cancelSync (s : State) (k x : Nat) : State :=
  match s.hub.outstanding.find? (·.isSync k x) with
  | some o =>
    if s.hub.outstanding.any fun p => p.target == o.target && p.request.op == .cancel o.seq then s
    else s.sendPeer o.target k x (.cancel o.seq)
  | none => s

/-- Whether a unit's request to a home in another package is neither there nor on its way. -/
def awayIdle (s : State) (k x : Nat) : Bool :=
  match (s.ctx k x).req with
  | some (.sync _ _ pkg _ _ _) => pkg != s.pkg && !s.hub.outstanding.any (·.isSync k x)
  | _ => false

/-- Whether a context's unit is parked or listed somewhere as waiting, so that it can be withdrawn (R203, R262). -/
def isListed (s : State) (k x : Nat) : Bool :=
  (s.cores.any fun c => (c.2.parking.any fun e => e.core == k && e.ctx == x) || c.2.wake.any fun w => w.peer.isNone && w.core == k && w.ctx == x) ||
    s.squeues.any fun q => q.2.waiters.contains (k, x)

/-- Whether a request waits to be sent again (R202, R203, R370). -/
def resendPending (s : State) (k x : Nat) : Bool :=
  s.agenda.any fun e => match e.2 with
    | .evictionRetryResend c y | .parkRefusalRetry c y | .wakeListRetry c y => c.toNat == k && y.toNat == x
    | _ => false

/-- Whether a context can take a queued fault now: its unit is not under way, but waits, also for a meter or to be sent again (R262). -/
def canFault (s : State) (k x : Nat) : Bool :=
  let v := s.ctx k x
  match v.life with
  | .matrix => atTurn s k x
  | .parked => false
  | .idle => false
  | .blocked (.meter _) => true
  | .blocked _ => v.req.isNone || isListed s k x || atTurn s k x || awayIdle s k x || resendPending s k x
  | _ => true

/-- QUEUED FAULT (R262): a grant that was refused has then been reported; the entry stays, the context's tricks are squashed, and it parks with a record that names the FA unit. -/
def queuedFault (s : State) (k x i : Nat) (e : FarEntry) (t : TrapInfo) : State :=
  let s := (withdraw s k x).squash k x false
  let s := if t.cause = .translation ∧ t.detail.toNat % 16 = 5 then
    s.modHub fun h => { h with refused := h.refused.filter (·.1 != s.partOf k) } else s
  let s := s.modCtx k x fun v => { v with farq := v.farq.set i { e with fault := some t }, req := none }
  let c := s.core k
  let v := c.ctx x
  let r := trapRecord c { v with rep := e.rep } x e.unit e.retire t true
  let c := { c with store := saveArea c.store v v.pc }
  wakeFar ((s.setCore k (c.setCtx x { v with life := .parked })).enqueueRecord k (x == 15) r) k x

/-- The far atomic is performed: its word is read and written at the home, or in the holder's L1 where the context leases the line, and its
reply leaves (R255, R259, R260). -/
def farDone (s : State) (k x pa : Nat) (e : FarEntry) : State :=
  let l := pa / 64
  let old := memWord s.mem pa
  let (new, fl) := farNew e.op old e.v e.c
  let leased := (s.ctx k x).leases? s.tick l
  let s := if (tabFind s.dir l).isNone then s.charge (s.clsOf k) 0 1 else s
  let s := if e.op = 11 then s else (s.putMem pa (toBytes 8 new.toNat)).invalidate [l] (if leased then some k else none)
  let lat := if dieOf k = s.homeDie k l then Config.homeDie else Config.homePkg
  let i := (s.ctx k x).farq.idxOf e
  wakeFar ((s.modCtx k x fun v => { v with farq := v.farq.set i { e with old := some (old, fl), due := some (s.tick + lat) } }).post lat
    (.farAtomicReply (cid k) (xid x) none)) k x

/-- FAR_ATOMIC_PERFORM: the entry whose turn it is is translated, checked and performed at its home in one step, in the order of arrival
there, or sent to its package (R218, R225, R246, R248, R255, R260 to R264, R278, R279, R424). -/
def execFarAtomicPerform (core : CoreId) (ctx : CtxId) (s : State) : Out :=
  let k := core.toNat
  let x := ctx.toNat
  let v := s.ctx k x
  let i := Instr.farAtomicPerform core ctx
  let root := (s.core k).vmroot
  match nextFar s k x [] v.farq with
  | none => .next (s.unhold i)
  | some (n, e) =>
    let fail := fun (t : TrapInfo) (paid : State) =>
      if canFault s k x then Host.Outcome.next (queuedFault (paid.unhold i) k x n e t) else .next ((cancelSync (s.unhold i) k x).post 1 i)
    match e.refused with
    | some t => fail t s
    | none =>
    if s.walkWaits k (s.clsOf k) root e.addr.toNat then .next (s.post 1 i)
    else
    let paid := s.payWalk k (s.clsOf k) root e.addr.toNat
    match farAddress paid k x e with
    | .error t => fail t paid
    | .ok (pa, u, s) =>
      if s.podRemote pa then
        let pkg := paPackage pa
        if s.meterOut k 1 then .next (s.post 1 i)
        else .next ((s.modCtx k x fun v => { v with farq := v.farq.set n { e with sent := some (pkg, s.nextSeq pkg), used := some u } }).sendPeer pkg k x
          (let (tag, lane, det) := s.holderOf k; .atomic (BitVec.ofNat 52 pa) (BitVec.ofNat 4 e.op) e.v e.c tag lane det))
      else
        let l := pa / 64
        let wait := fun (n : Nat) (t : State) => Host.Outcome.next (t.hold i [lineKey l] n)
        if !v.leases? s.tick l && s.behind i [lineKey l] then wait 1 s
        else if s.leaseHeld (· == l) (some (k, x)) || (e.op != 11 && s.writeHeld (s.near k) [l] (some (k, x)) false) then wait 1 s
        else
          match s.needPage pa k (e.op != 11) with
          | some t => wait 1 t
          | none =>
          match probeStopped s k l (e.op != 11) with
          | some (n, t) => wait n t
          | none =>
            if (tabFind s.dir l).isNone && s.meterOut k 0 then wait 1 s
            else .next (farDone (if e.op = 11 then s.unhold i else (s.squashIn (s.near k) (meetsTrick s.tick [l]) none).unhold i) k x pa e)

/-- Put a value into a register and into the shadows of the tricks under way, so that no squash removes it; one that names a queue register
uses the room kept for it (R52, R260). -/
def writeThrough (s : State) (k x : Nat) (d : GReg) (queue : Option Nat) (w : Word) (fl : Flags) : State :=
  let c := s.core k
  let v := c.ctx x
  let f : Word := fl.setWidth 64
  let fix := fun (t : Trick) => match t.start with
    | some h => { t with start := some { h with
        cflags := h.cflags ||| f
        ws := if d = 0#5 ∨ queue.isSome then h.ws else memWrite h.ws (regOff v d) 8 w.toNat } }
    | none => t
  let c := match queue with
    | some q => { c with q := tabSet c.q q (tabGet c.q q [] ++ [w]) }
    | none => setG c v d w
  s.setCore k (c.setCtx x { v with cflags := v.cflags ||| f, running := fix v.running, pending := v.pending.map fix })

/-- An entry whose old value has come leaves the queue (R260, R261). -/
def farReturn (s : State) (k x : Nat) (e : FarEntry) (w : Word) (fl : Flags) : State :=
  wakeFar (writeThrough (s.modCtx k x fun v => { v with farq := v.farq.erase e }) k x e.d e.queue w fl) k x

/-! ### Commits -/

/-- LOCAL_COMMIT: a trick with no global write commits without the arbiter (R222). [DEDUCED, log 52] -/
def execLocalCommit (core : CoreId) (ctx : CtxId) (s : State) : Out :=
  let k := core.toNat
  let x := ctx.toNat
  match (s.ctx k x).pending with
  | some t =>
    if !t.writes.isEmpty then .next s
    else if commitHeld s k x t then .next (s.post 1 (.localCommit core ctx))
    else .next (s.commitNext k x)
  | none => .next s

/-- What a grant's place in a batch says of its trick (R220, R221). -/
def granted (s : State) (k : Nat) (t : Trick) : Granted where
  dies := (((t.rlines ++ t.wlines).filter fun l => paPackage (l * 64) == s.pkg).map (s.homeDie k)).eraseDups
  rlines := t.rlines
  wlines := t.wlines
  rsig := t.rsig
  wsig := t.wsig

/-- Whether one trick's write signature is disjoint from the other's read and write signatures (R221). -/
def Granted.apart (a b : Granted) : Bool :=
  a.wsig &&& (b.rsig ||| b.wsig) == 0#1024 && !a.wlines.any fun l => b.rlines.contains l || b.wlines.contains l

/-- Whether a trick may join a batch: disjoint from all in it, and none of its dies has 8 grants in it (R221). -/
def mayJoin (b : List Granted) (g : Granted) : Bool :=
  (b.all fun e => e.apart g && g.apart e) && g.dies.all fun d => decide ((b.filter (·.dies.contains d)).length < 8)

/-- The batch of this tick in a partition. -/
def Part.batchNow (p : Part) (now : Nat) : List Granted := if p.batchAt = now then p.batch else []

/-- A trick takes its place in the batch of this tick; the first one opens a batch with the next number, and an active trump, which is granted
ahead of the others, has a batch to itself (R221, R224). When a batch ends, the spec does not say: here with its tick. [DESIGN CHOICE, log 84] -/
def joinBatch (s : State) (p : Nat) (g : Granted) (trump : Bool) : State :=
  s.modPart p fun a => { a with
    batchNo := if trump || (a.batchNow s.tick).isEmpty then a.batchNo + 1 else a.batchNo
    batchAt := s.tick
    batch := if trump then [] else a.batchNow s.tick ++ [g] }

/-- The tricks whose commit requests are decided in this tick: the active trump's first, then by ascending context identifier (R221,
R224). -/
def commitDue (s : State) (i : Instr) : Option (Nat × Nat) :=
  match i with
  | .commitGrant c x => match (s.ctx c.toNat x.toNat).pending with
    | some t => if t.due = s.tick ∧ t.writes ≠ [] then (if t.trump then some (0, 0) else some (c.toNat, x.toNat + 1)) else none
    | none => none
  | _ => none

/-- A commit request is decided again `n` ticks on. -/
def redue (s : State) (k x n : Nat) : State :=
  s.modCtx k x fun v => { v with pending := v.pending.map fun t => { t with due := s.tick + n } }

/-- COMMIT_GRANT: the arbiter grants a trick a place in the batch of this tick, once nothing holds it: a budget, a lease, a trump, what waits
at the homes of its lines, a trick of the batch. Every trick it meets is squashed, and it commits (R218 to R225, R246, R248, R279). -/
def execCommitGrant (core : CoreId) (ctx : CtxId) (s : State) : Out :=
  let k := core.toNat
  let x := ctx.toNat
  let i := Instr.commitGrant core ctx
  match (s.ctx k x).pending with
  | some t =>
    let later := fun (s : State) => Host.Outcome.next ((redue s k x 1).post 1 i)
    let keys := (t.wlines.filter fun l => !(s.ctx k x).leases? s.tick l).map lineKey
    let wait := fun (n : Nat) (s : State) => Host.Outcome.next ((redue s k x n).hold i keys n)
    let place := granted s k t
    if t.writes.isEmpty || t.due != s.tick then .next (s.unhold i)
    else if commitHeld s k x t || s.exhausted (s.clsOf k) 3 then later s
    else if s.lowerDue (if t.trump then 0 else k) (if t.trump then 0 else x + 1) (commitDue s) then .next (s.post 0 i)
    else if t.wlines.any fun l => s.podRemote (l * 64) && s.hub.refused.contains (s.partOf k, l / 64) then .next ((s.unhold i).squash k x false)
    else if (!t.trump && s.behind i keys) || s.writeHeld (s.near k) t.wlines (some (k, x)) true then wait 1 s
    else
      match t.wlines.findSome? fun l => s.needPage (l * 64) k true with
      | some s => wait 1 s
      | none =>
      match t.wlines.findSome? fun l => probeStopped s k l true with
      | some (n, s) => wait n s
      | none =>
        if !t.trump && !mayJoin ((s.part (s.partOf k)).batchNow s.tick) place then later s
        else
          let u := (s.squashIn (s.near k) (meetsTrick s.tick t.wlines) (some (k, x))).unhold i
          .next (((joinBatch u (s.partOf k) place t.trump).charge (s.clsOf k) 3 1).commitNext k x)
  | none => .next (s.unhold i)

/-- Whether a trump is active in a partition (R224). -/
def trumpActive (s : State) (part : Nat) : Bool :=
  s.cores.any fun c => s.partOf c.1 == part && c.2.ctxs.any fun p => p.2.running.trump || p.2.pending.toList.any (·.trump)

/-- Whether a waiting trump can be admitted: its context has no pending trick and no far atomic to be performed, which would wait for it
(R224). [DEDUCED, log 73] -/
def admissible (v : Ctx) : Bool := v.pending.isNone && !v.farq.any fun e => e.old.isNone

/-- TRUMP_ADMISSION: the oldest waiting trump of a partition with no active one goes on, once it can; those of cores that are stopped wait for
their resume or repair (R224, R227). -/
def execTrumpAdmission (part : BitVec 2) (s : State) : Out :=
  let p := part.toNat
  if trumpActive s p then .next s
  else
    let waiting := s.cores.flatMap fun c =>
      if s.partOf c.1 = p ∧ c.2.halting.isNone ∧ c.2.stopped = false then (c.2.ctxs.filter fun x => x.2.life == .blocked .trump).map fun x => (x.2.running.age.getD 0, c.1, x.1)
      else []
    let first := waiting.foldl (fun (b : Option (Nat × Nat × Nat)) e => match b with
      | none => some e
      | some f => if e.1 < f.1 then some e else b) none
    match first with
    | none => .next s
    | some (_, k, x) =>
      if !admissible (s.ctx k x) then .next (s.post 1 (.trumpAdmission part))
      else .next ((s.modCtx k x fun v => { v with running := { v.running with trump := true } }).ready k x)

end Sys2Proof.Machine
end

