-- ==== Sys2Proof/Machine/Caps.lean ====
section
/-! DEFINITION. Writer capabilities (R265 to R281). -/

namespace Sys2Proof.Machine

/-- Whether a line lies in a region. -/
def inRegion (page bytes l : Nat) : Bool := decide (page * 4096 ≤ l * 64 ∧ l * 64 < page * 4096 + bytes)

/-- Whether this package keeps a state of a region: its own region's; another package's while it holds a grant there, or where a lane of this
package is the holder (R266). -/
def State.keepsCap (s : State) (page bytes : Nat) (c : CapState) : Bool :=
  paPackage (page * 4096) == s.pkg || (s.hub.grants.any fun g => decide (page ≤ g.page ∧ g.page * 4096 < page * 4096 + bytes)) ||
    match c with
    | .held p _ _ => p == s.pkg
    | _ => false

/-- Set the capability state of a region; an OPEN region is not listed (R265, R266). [DEDUCED, log 57] -/
def State.setCap (s : State) (page bytes : Nat) (c : CapState) : State :=
  let rest := s.caps.filter fun e => !meets (e.1 * 4096) e.2.bytes (page * 4096) bytes
  { s with caps := match c with
    | .opened => rest
    | c => if s.keepsCap page bytes c then tabSet rest page { bytes := bytes, cap := c } else rest }

/-- The latency of a request to a capability directory at the home of a page's first line (R266, R529). -/
def capLatency (s : State) (k page : Nat) : Nat := if dieOf k = s.homeDie k (page * 64) then Config.homeDie else Config.homePkg

/-- A capability unit: its address is translated and its operands checked, and its request goes to the directory (R267, R272,
R277). -/
def capUnit (op : U CapOp) (kind : Nat) (d s1 : GReg) (s : State) : Out :=
  runIrr (do
    let a ← readG s1
    let (pa, e) ← translateU a kind
    let o ← op
    stopIf (hostResident pa) .capability a
    needDest d
    let s ← getS
    let (k, x) := s.cur
    let page := e.pa / 4096
    updCtx fun v => { v with req := some (.cap o page e.bytes a.toNat d none) }
    postIn (capLatency s k page) (if o = .qryWait && paPackage e.pa = s.pkg then .capQryWaitRelease (cid k) (xid x) else .capStateChange (cid k) (.own (xid x)))
    pure (.hold .cap)) s

/-- CAP.GIVE (R274). -/
def execCapGive (d s1 s2 : GReg) (s : State) : Out :=
  capUnit (do
    let t ← readG s2
    let st ← getS
    let n := match st.launchOf st.cur.1 with
      | some l => l.lanes
      | none => 0
    stopIf (t != 0xFFFF#64 && decide (n ≤ t.toNat)) .operandRange
    pure (.give t.toNat)) 0 d s1 s

/-- CAP.CLAIM (R274, R276). -/
def execCapClaim (d s1 : GReg) (s : State) : Out :=
  capUnit (do
    stopIf (!(← curCore).phasePoint) .claimOutside
    pure .claim) 0 d s1 s

/-- CAP.SEAL (R274). -/
def execCapSeal (d s1 : GReg) (s : State) : Out := capUnit (pure .seal) 1 d s1 s

/-- CAP.UNSEAL: the supervisor's (R274). -/
def execCapUnseal (d s1 : GReg) (s : State) : Out :=
  capUnit (do
    stopIf ((← myCtx) != 15) .capability
    pure .unseal) 1 d s1 s

/-- CAP.QRY (R274, R278). -/
def execCapQry (d s1 : GReg) (s : State) : Out :=
  capUnit (do
    timingTrap
    pure .qry) 0 d s1 s

/-- CAP.QRY.wait (R274). -/
def execCapQryWait (d s1 : GReg) (s : State) : Out := capUnit (pure .qryWait) 0 d s1 s

/-- CapWord(r) (R275). -/
def capWord (c : CapState) (bytes pkg tag lane : Nat) : Word :=
  let z := if bytes = 4096 then 0 else if bytes = 65536 then 1 else if bytes = 2097152 then 2 else 3
  match c with
  | .opened => BitVec.ofNat 64 (z * 2 ^ 18)
  | .held p t l => BitVec.ofNat 64 (z * 2 ^ 18 + 2 ^ 16 + (if p = pkg ∧ t = tag ∧ l = lane then 4096 else 0) + l)
  | .sealed => BitVec.ofNat 64 (z * 2 ^ 18 + 2 * 2 ^ 16)

/-- Whether a virtual range of a root register maps bytes of a region (R273). -/
def rangeIn (s : State) (k : Nat) (root : Word) (va n page bytes : Nat) : Bool :=
  (List.range ((va + n - 1) / 4096 + 1 - va / 4096)).any fun i =>
    match s.translate k root (BitVec.ofNat 64 (max va ((va / 4096 + i) * 4096))) 0 with
    | .ok (pa, _, _) => inRegion page bytes (pa / 64)
    | .error _ => false

/-- Whether the drain of a region still waits: a far atomic addressed to it that has not been performed, or a job with a write
region over it that has not ended (R273). Committed stores are performed at their commit. [DEDUCED, log 29] -/
def drainWaits (s : State) (k page bytes : Nat) : Bool :=
  let c := s.core k
  (c.ctxs.any fun p => p.2.farq.any fun e => e.old.isNone && match s.translate k c.vmroot e.addr 0 with
    | .ok (pa, _, _) => inRegion page bytes (pa / 64)
    | .error _ => false) ||
  s.chans.any fun ch => ch.2.jobs.any fun j => j.core == k && j.launch == c.launch &&
    j.wr.any fun r => r.2 != 0 && rangeIn s k j.root r.1 r.2 page bytes

/-- Dirty copies of the lane go back and become shared (R273, step 3). -/
def downgrade (s : State) (k page bytes : Nat) : State :=
  { s with dir := s.dir.map fun e =>
      if inRegion page bytes e.1 && e.2.owner == some k then (e.1, { owner := none, sharers := [k] }) else e }

/-- The leases of a lane on lines of a region end; their slots stay occupied, and other write events wait until the end of the tick (R256,
R267, R273). -/
def endRegionLeases (s : State) (k page bytes : Nat) : State :=
  s.modCore k fun c => { c with ctxs := c.ctxs.map fun p => (p.1, { p.2 with
    leases := p.2.leases.map fun l => if inRegion page bytes (l.2.pa / 64) then (l.1, l.2.cut s.tick) else l }) }

/-- Whether a context of another lane than that of a core holds a lease in force on a line of a region (R267). -/
def regionLeased (s : State) (page bytes : Nat) (lane : Option Nat) : Bool :=
  s.cores.any fun c => some c.1 != lane && c.2.ctxs.any fun x => x.2.leases.any fun l => l.2.inForce s.tick && inRegion page bytes (l.2.pa / 64)

/-- Whether the signatures of a trick may name a line of a region (R217, R267). -/
def Trick.inRegion (t : Trick) (page bytes : Nat) : Bool :=
  t.rlines.any (Machine.inRegion page bytes) || t.wlines.any (Machine.inRegion page bytes) ||
    ((t.rsig != 0#1024 || t.wsig != 0#1024) && (List.range (bytes / 64)).any fun i => t.names (page * 64 + i))

/-- Every other package that holds a page of a region gets a copy of its new state, charged to the class of the core that changed it (R266,
R473). -/
def copyCaps (s : State) (page bytes : Nat) (c : CapState) (cls : Option Nat) : State :=
  let met := s.hub.pageDir.filter fun e => decide (page ≤ e.1 ∧ e.1 * 4096 < page * 4096 + bytes)
  let pkgs := (met.flatMap fun e => e.2.writer.toList ++ e.2.readers).eraseDups
  pkgs.foldl (fun s p => s.sendPeerAs p (s.coreAt (page * 4096)) (16 + page) cls (.capCopy (BitVec.ofNat 40 page) bytes c)) s

/-- Whether a copy of a region's state is still on its way to another package (R266). -/
def copyAwaited (s : State) (page : Nat) : Bool := s.hub.outstanding.any fun o => match o.request.op with
  | .capCopy p _ _ => p.toNat == page
  | _ => false

/-- A state change: a write event on every line of the region, or none while a lease of another lane or a trump holds it off (R267). -/
def capChange (s : State) (page bytes : Nat) (c : CapState) (agent : Option Nat) : Option State :=
  let q := fun (_ : Ctx) (t : Trick) => t.inRegion page bytes
  let near := match agent with
    | some k => s.near k
    | none => s.nearAddress (page * 4096)
  let p := fun k => paPackage (page * 4096) != s.pkg || near k
  if regionLeased s page bytes agent || s.trumpIn p q none then none
  else some (copyCaps ((s.squashIn p q none).setCap page bytes c) page bytes c (agent.map s.clsOf))

/-- Write the status of a capability unit and retire it. -/
def capDone (d : GReg) (w : Word) : U After := do
  writeG d w
  pure .next

/-- The copies of a region's state have all come to the packages that hold it: the unit or the peer whose operation changed the state gets its
answer (R266). -/
def capCopied (s : State) (page : Nat) : State :=
  if copyAwaited s page then s
  else
    let units := s.cores.flatMap fun c => c.2.ctxs.filterMap fun x => match x.2.req with
      | some (.cap _ p _ _ d (some (.value w))) => if p = page then some (c.1, x.1, d, w) else none
      | _ => none
    let owed := s.hub.owed.filter fun e => e.2.2 == page
    let s := s.modHub fun h => { h with owed := h.owed.filter fun e => e.2.2 != page }
    let s := owed.foldl (fun s e => s.replyPeer e.1 e.2.1 (.value 1#64)) s
    units.foldl (fun s u => completeUnit s u.1 u.2.1 (capDone u.2.2.1 u.2.2.2)) s

/-- A state change by a unit, performed once nothing holds it off; status 1 comes when every copy of the state is up to date (R266). -/
def capPerform (s : State) (k x page bytes : Nat) (c : CapState) : Option State :=
  (capChange (endRegionLeases s k page bytes) page bytes c (some k)).map fun t =>
    capCopied (t.modCtx k x fun v => { v with req := v.req.map fun r => match r with
      | .cap op p n va d _ => .cap op p n va d (some (.value 1#64))
      | r => r }) page

/-- The requester of a capability operation on a region, by its context identifier, where the event is that operation's arrival (R17, R267).
[DESIGN CHOICE, log 18] -/
def capRequester (s : State) (page : Nat) (e : Instr) : Option (Nat × Nat) :=
  if s.held.any (·.1 == e) then none
  else match e with
  | .capStateChange c (.own y) => match (s.ctx c.toNat y.toNat).req with
    | some (.cap _ p _ _ _ none) => if p = page then some (0, (contextId s c.toNat y.toNat).toNat) else none
    | _ => none
  | .fabricRequestArrival _ _ ⟨_, .cap p _ op _ _ _ origin⟩ => if p.toNat = page ∧ op ≠ .qryWait then some (0, origin.toNat) else none
  | _ => none

/-- Whether an operation on the same region by a lower context identifier arrives in the same tick (R267). -/
def capEarlier (s : State) (i : Instr) (page : Nat) (id : BitVec 23) : Bool :=
  !s.held.any (·.1 == i) && s.lowerDue 0 id.toNat (capRequester s page)

/-- What a directory decides of an operation by a holder from the state of the region (R274, R275). -/
inductive CapVerdict where
  | trap | status (w : Word) | change (c : CapState) | wait
  deriving DecidableEq, Repr

def capRule (c : CapState) (bytes pkg tag lane : Nat) (det : Bool) (op : CapOp) : CapVerdict :=
  let mine := c == .held pkg tag lane
  let held := match c with
    | .held _ _ _ => true
    | _ => false
  match op with
  | .give t =>
    if !mine || (t == 0xFFFF && det) then .trap
    else if t = lane then .status 2#64
    else .change (if t = 0xFFFF then .opened else .held pkg tag t)
  | .claim => if mine then .status 2#64 else if c != .sealed then .status 0#64 else .change (.held pkg tag lane)
  | .seal =>
    if c == .sealed then .status 2#64
    else if (held && !mine) || (c == .opened && det) then .trap
    else .change .sealed
  | .unseal => if c != .sealed then .status 0#64 else .change .opened
  | .qry => .status (capWord c bytes pkg tag lane)
  | .qryWait => if mine then .status (capWord c bytes pkg tag lane) else .wait

/-- Whether an operation drains the region first (R273, R274). -/
def capDrains (c : CapState) : CapOp → Bool
  | .give _ => true
  | .seal => match c with
    | .held _ _ _ => true
    | _ => false
  | _ => false

/-- What an operation finds at its directory, or whether it waits there, in its place, or for something else (R273, R274). -/
def capAct (s : State) (k x : Nat) (op : CapOp) (page bytes va : Nat) (d : GReg) : Except Bool State :=
  let (tag, lane, det) := s.holderOf k
  let c := s.capAt (page * 4096)
  match capRule c bytes s.pkg tag lane det op with
  | .trap => .ok (completeUnit s k x (stopTrap .capability (BitVec.ofNat 64 va)))
  | .status w => .ok (completeUnit s k x (capDone d w))
  | .wait => .error false
  | .change n =>
    if capDrains c op && drainWaits s k page bytes then .error false
    else
      match capPerform (if capDrains c op then downgrade s k page bytes else s) k x page bytes n with
      | some t => .ok t
      | none => .error true

/-- The level of the page that is a region (R399). -/
def levelOf (bytes : Nat) : Nat := if bytes ≤ 65536 then 0 else if bytes = 2097152 then 1 else 2

/-- The state that an operation with status 1 leaves, for the lane that made it (R274). -/
def capAfter (pkg tag lane : Nat) : CapOp → Option CapState
  | .give t => some (if t = 0xFFFF then .opened else .held pkg tag t)
  | .claim => some (.held pkg tag lane)
  | .seal => some .sealed
  | .unseal => some .opened
  | .qry | .qryWait => none

/-- The answer of another package, where the region is homed; the copy of the state here is up to date by then (R266, R267, R274, R471). -/
def capAnswer (s : State) (k x : Nat) (op : CapOp) (page bytes va : Nat) (d : GReg) (r : PeerReply) : State :=
  let (tag, lane, _) := s.holderOf k
  let a := BitVec.ofNat 64 va
  match r with
  | .value w =>
    let s := match capAfter s.pkg tag lane op with
      | some c => if w = 1#64 then s.setCap page bytes c else s
      | none => s
    completeUnit s k x (capDone d w)
  | .capability => completeUnit s k x (stopTrap .capability a)
  | _ => completeUnit s k x (throw (.trap (XFault.trap ⟨5, levelOf bytes⟩ a (match op with
      | .seal | .unseal => 1
      | _ => 0))))

/-- Whether a request of a context to another package's directory awaits its reply. -/
def Outstanding.isCap (o : Outstanding) (k x : Nat) : Bool :=
  o.core == k && o.ctx == x && match o.request.op with | .cap _ _ _ _ _ _ _ => true | _ => false

/-- Whether committed stores to a region homed in another package are still on their way there (R273). -/
def regionWrites (s : State) (page bytes : Nat) : Bool := s.hub.outstanding.any fun o => match o.request.op with
  | .write pa _ => inRegion page bytes (pa.toNat / 64)
  | _ => false

/-- An operation on a region of another package: drained here, then sent to its directory (R266, R267, R273, R424). -/
def capAway (s : State) (i : Instr) (k x : Nat) (op : CapOp) (page bytes : Nat) : State :=
  let (tag, lane, det) := s.holderOf k
  let drains := capDrains (s.capAt (page * 4096)) op
  if s.hub.outstanding.any (·.isCap k x) then s
  else if drains && drainWaits s k page bytes then s.post 1 i
  else
    let s := if drains then (downgrade s k page bytes).flushLines k x (s.clsOf k) (inRegion page bytes) else s
    if (drains && regionWrites s page bytes) || s.meterOut k 1 then s.post 1 i
    else s.sendPeer (paPackage (page * 4096)) k x (.cap (BitVec.ofNat 40 page) bytes op tag lane det (contextId s k x))

/-- CAP_STATE_CHANGE: an operation is performed at its directory in the order of arrival, is sent to another package's, or looks again in
the next tick (R266, R267, R273, R274). -/
def execCapStateChange (core : CoreId) (turn : CapTurn) (s : State) : Out :=
  let k := core.toNat
  let i := Instr.capStateChange core turn
  match turn with
  | .answered ctx a =>
    let x := ctx.toNat
    let mine := fun (o : Outstanding) => o.isCap k x && o.answeredBy a
    match (s.ctx k x).life, (s.ctx k x).req with
    | .blocked .cap, some (.cap op page bytes va d _) =>
      if !s.hub.outstanding.any mine then .next s else .next (capAnswer (s.gotPeer mine a.reply) k x op page bytes va d a.reply)
    | _, _ => .next (s.gotPeer mine a.reply)
  | .own ctx =>
    let x := ctx.toNat
    match (s.ctx k x).life, (s.ctx k x).req with
    | .blocked .cap, some (.cap op page bytes va d none) =>
      if paPackage (page * 4096) ≠ s.pkg then .next (capAway s i k x op page bytes)
      else if capEarlier s i page (contextId s k x) then .next (s.postPoll 0 i)
      else if s.behind i [regionKey page] || copyAwaited s page then .next (s.hold i [regionKey page])
      else
        match capAct s k x op page bytes va d with
        | .ok t => .next (t.unhold i)
        | .error true => .next (s.hold i [regionKey page])
        | .error false => .next ((s.unhold i).post 1 i)
    | _, _ => .next (s.unhold i)

/-- CAP_QRY_WAIT_RELEASE: the region is held by the waiting lane, or the wait goes on (R274). -/
def execCapQryWaitRelease (core : CoreId) (ctx : CtxId) (s : State) : Out :=
  let k := core.toNat
  let x := ctx.toNat
  match (s.ctx k x).life, (s.ctx k x).req with
  | .blocked .cap, some (.cap op page bytes va d _) =>
    match capAct s k x op page bytes va d with
    | .ok t => .next t
    | .error _ => .next (s.postPoll 1 (.capQryWaitRelease core ctx))
  | _, _ => .next s

/-- The request that opens a region of another package at the end of a launch (R266, R268). -/
def opens (page tag : Nat) (o : Outstanding) : Bool := o.ctx == 16 + page && match o.request.op with
  | .cap p _ (.give 0xFFFF) t _ _ _ => p.toNat == page && t == tag
  | _ => false

/-- At the end of a launch its HELD regions become OPEN, the regions of other packages through their homes: a region still held, while a lease
holds it off or its home has not answered, leaves `false` (R266, R268). -/
def openHeld (tag : Nat) : List (Nat × CapEntry) → State → State × Bool
  | [], s => (s, true)
  | e :: t, s =>
    match e.2.cap with
    | .held p g lane =>
      if p = s.pkg ∧ g = tag then
        let home := paPackage (e.1 * 4096)
        let done := if home = s.pkg then capChange s e.1 e.2.bytes .opened none
          else if s.hub.outstanding.any (opens e.1 tag) then none
          else some (s.sendPeer home (s.coreOfPart (((s.launch tag).map (·.part)).getD 0)) (16 + e.1)
            (.cap (BitVec.ofNat 40 e.1) e.2.bytes (.give 0xFFFF) tag lane false (BitVec.allOnes 23)))
        let r := openHeld tag t (done.getD s)
        (r.1, r.2 && home == s.pkg && done.isSome && !copyAwaited r.1 e.1)
      else openHeld tag t s
    | _ => openHeld tag t s

/-! ### Answers of other packages -/

/-- Requests whose answers are taken by FAR_ATOMIC_REPLY: all but those of a unit, a message or a job that awaits its own. -/
def Outstanding.isPlain (o : Outstanding) (s : State) : Bool :=
  match o.request.op with
  | .atomic _ _ _ _ _ _ _ | .write _ _ | .returned _ _ _ | .revoke _ _ | .capCopy _ _ _ | .tlbi _ _ _ | .cancel _ => true
  | .cap page _ op _ _ _ _ => decide (16 ≤ o.ctx) || (op == .qry && (s.ctx o.core o.ctx).life == .blocked (.capWord page.toNat))
  | _ => false

/-- The key under which a context keeps the word of a region of another package for its unit (R270). -/
def capWordKey (page : Nat) : Nat := 2 ^ 65 + page

/-- A peer no longer holds a page homed here: what waits for its return may go on, and with `kept` it reads on (R405). -/
def State.strike (s : State) (page src : Nat) (kept : Bool) : State :=
  s.modHub fun h => match tabFind h.pageDir page with
    | none => h
    | some d =>
      let others := d.readers.filter (· != src)
      { h with pageDir := tabSet h.pageDir page {
          writer := d.writer.filter (· != src)
          readers := if kept then others ++ [src] else others
          awaited := d.awaited.filter (· != src) } }

/-- The answer to a far atomic of another package: its old value, or its refusal, which is found at its turn (R260, R264, R471). -/
def farAnswer (s : State) (o : Outstanding) (r : PeerReply) : State :=
  let (k, x) := (o.core, o.ctx)
  match (s.ctx k x).farq.find? fun e => e.sent == some (o.target, o.seq) with
  | none => s
  | some e =>
    match r with
    | .value w => farReturn s k x e w (farNew e.op w e.v e.c).2
    | _ =>
      let t : TrapInfo := match r with
        | .capability => { cause := .capability, addr := e.addr }
        | _ => XFault.trap ⟨5, (e.used.map (·.level)).getD 0⟩ e.addr (if e.op = 11 then 0 else 1)
      let e' := { e with sent := none, used := none, stale := false, refused := some t }
      (s.modCtx k x fun v => { v with farq := v.farq.map fun f => if f = e then e' else f }).post 0 (.farAtomicPerform (cid k) (xid x))

/-- The answer to a request that the hub made, or to one that withdraws another (R266, R268, R270, R405, R407). -/
def hubAnswer (s : State) (o : Outstanding) (r : PeerReply) : State :=
  match o.request.op with
  | .atomic _ _ _ _ _ _ _ => farAnswer s o r
  | .cancel q => match r with
    | .value 1 => match s.hub.outstanding.find? fun p => p.target == o.target && p.seq == q with
      | some p => s.endPeer p
      | none => s
    | _ => s
  | .revoke page _ => match r with
    | .value 1 => s
    | _ => s.strike page.toNat o.target false
  | .capCopy page _ _ => capCopied s page.toNat
  | .cap page size op _ _ _ _ =>
    if 16 ≤ o.ctx then s.setCap page.toNat size .opened
    else if op = .qry then
      (s.modCtx o.core o.ctx fun v => { v with hostReplies := v.hostReplies ++ [(capWordKey page.toNat, match r with
        | .value w => w
        | _ => 0x30000#64)] }).ready o.core o.ctx
    else s
  | _ => s

/-- FAR_ATOMIC_REPLY: the old value of a far atomic comes back from its home in this package, or another package answers a request of the hub,
an engine or a context's queue (R260, R264, R266, R405, R472, R529). -/
def execFarAtomicReply (core : CoreId) (ctx : CtxId) (answer : Option PeerAnswer) (s : State) : Out :=
  let k := core.toNat
  let x := ctx.toNat
  match answer with
  | none =>
    match (s.ctx k x).farq.find? fun e => e.old.isSome && e.due.any fun t => decide (t ≤ s.tick) with
    | some e => match e.old with
      | some (w, f) => .next (farReturn s k x e w f)
      | none => .next s
    | none => .next s
  | some a =>
    match s.hub.outstanding.find? fun o => o.answeredBy a && o.isPlain s with
    | none => .next s
    | some o => .next (hubAnswer (s.gotPeer (· == o) a.reply) o a.reply)

end Sys2Proof.Machine
end

