-- ==== Sys2Proof/Machine/Fetch.lean ====
section
/-! DEFINITION. Fetching the bytes of a unit (R28, R29, R46, R48, R49). -/

namespace Sys2Proof.Machine

/-- Fetch the halfword at a virtual address through an executable page (R28, R48, R407); a fault carries that address. Code comes
from memory as it stands [DESIGN CHOICE, log 11]. -/
def fetchHalf (va : Word) : U (List Byte) := do
  let (pa, e) ← translateU va 2
  updCtx fun v => { v with fetched := if v.fetched.contains e then v.fetched else v.fetched ++ [e] }
  let s ← getS
  if hostResident pa then
    let x ← hostLoad pa 2
    pure (toBytes 2 x)
  else if (s.needPage pa s.cur.1 false).isSome then stallOn (.line (pa / 64) false)
  else pure (memBytes s.mem pa 2)

/-- The bytes of the unit at an address, as many as its length takes (R28, R29). -/
def fetchUnit (pc : Word) : U (List Byte) := do
  let a ← fetchHalf pc
  if (a.headD 0#8).getLsbD 0 = false then pure a
  else
    let b ← fetchHalf (pc + 2#64)
    if a.headD 0#8 ≠ 0xFF#8 then pure (a ++ b)
    else
      let c ← fetchHalf (pc + 4#64)
      if (c.headD 0#8).getLsbD 0 = false then pure (a ++ b ++ c)
      else
        let d ← fetchHalf (pc + 6#64)
        pure (a ++ b ++ c ++ d)

/-- The address after `n` units from an address on (R123). [DEDUCED, log 24] -/
def skipUnits : Nat → Word → U Word
  | 0, pc => pure pc
  | n + 1, pc => do
    let b ← fetchUnit pc
    skipUnits n (pc + BitVec.ofNat 64 b.length)

end Sys2Proof.Machine
end

