-- ==== Sys2Proof/Machine/Control.lean ====
section
/-! DEFINITION. Control instructions (R105, R109 to R129). -/

namespace Sys2Proof.Machine

/-- NOP (R111). -/
def execNop (s : State) : Out := runIn (pure .next) s

/-- BR (R115). -/
def execBr (off : BitVec 24) (s : State) : Out := runIn (do pure (.goto (← target off))) s

/-- Branch to a target when a condition holds. -/
def branchIf {n : Nat} (b : Bool) (off : BitVec n) : U After := do
  if b then pure (.goto (← target off)) else pure .next

/-- BCC (R117). -/
def execBcc (c : Cond) (s1 s2 : GReg) (off : BitVec 9) (s : State) : Out :=
  runIn (do
    let a ← readG s1
    let b ← readG s2
    branchIf (condTrue c a b) off) s

/-- The test of BP on the bits of a predicate (R119). -/
def predTest (c : PCond) (p : Pred) : Bool :=
  match c with
  | .any => p != 0#256
  | .all => p == BitVec.allOnes 256
  | .none => p == 0#256

/-- BP (R119). -/
def execBp (c : PCond) (p : PReg) (off : BitVec 15) (s : State) : Out :=
  runIn (do branchIf (predTest c (← readP p)) off) s

/-- CALL (R115). -/
def execCall (off : BitVec 24) (s : State) : Out :=
  runIn (do
    writeG 1#5 (← linkAddr)
    pure (.goto (← target off))) s

/-- Jump through a register, writing a link or none; an odd target traps before anything is written (R48, R112, R120).
[DEDUCED, log 51] -/
def jumpReg (s1 : GReg) (link : Option GReg) : U After := do
  let t ← readG s1
  stopIf (t.getLsbD 0) .misalignedTarget t
  match link with
  | some d => writeG d (← linkAddr)
  | none => pure ()
  pure (.goto t)

/-- CALLR (R120). -/
def execCallr (d s1 : GReg) (s : State) : Out := runIn (jumpReg s1 (some d)) s

/-- RET (R112). -/
def execRet (s : State) : Out := runIn (jumpReg 1#5 none) s

/-- JR (R120). -/
def execJr (s1 : GReg) (s : State) : Out := runIn (jumpReg s1 none) s

/-- LOOP (R118). -/
def execLoop (ctr : GReg) (off : BitVec 9) (s : State) : Out :=
  runIn (do
    let n := (← readG ctr) - 1#64
    writeG ctr n
    branchIf (n != 0#64) off) s

/-- REP: it starts pass 0, or passes over the captured units when the count is 0 (R121, R123). -/
def execRep (s1 : GReg) (n : BitVec 4) (_kind : RepKind) (_base : BitVec 5) (_sz : BitVec 3) (_stride : BitVec 5) (s : State) :
    Out :=
  runIn (do
    let c ← readG s1
    stopIf (c.toNat > 4096) .repeatCount
    let u ← curUnit
    let body := u.addr + BitVec.ofNat 64 u.size
    if c = 0#64 then pure (.goto (← skipUnits (n.toNat + 1) body))
    else
      updCtx fun v => { v with rep := some { word := u.word, addr := u.addr, index := 0, pass := 0, remaining := c.toNat - 1 } }
      pure (.goto body)) s

/-- Whether a context is READY in this tick (R97, R98). -/
def Ctx.isReady (v : Ctx) (now : Nat) : Bool := v.life == .ready && decide (v.readyAt ≤ now)

/-- Whether a helper is idle for a START or a WAIT: an END of this tick is not seen (R106). -/
def helperIdle (s : State) (k h : Nat) : Bool :=
  let v := s.ctx k h
  v.life == .idle && decide (v.readyAt ≤ s.tick)

/-- Make a context live at an entry, READY from the next tick (R98, R107). -/
def startCtx (v : Ctx) (entry : Word) (w : BitVec 7) (now : Nat) : Ctx :=
  { v with life := .ready, readyAt := now + 1, pc := entry, wspBlk := w, cmode := 0#64, cflags := 0#64, retire := 0#64,
           rep := none, running := {}, pending := none, yield := none, reserve := none, req := none, normEnd := none,
           hostReplies := [] }

/-- START takes helper `h` (R126). -/
def takeHelper (d : GReg) (h : Nat) (w : Word) (entry : Word) : U Unit := do
  let now := (← getS).tick
  updCore fun c => c.setCtx h (startCtx (c.ctx h) entry (w.extractLsb' 11 7) now)
  writeG d (BitVec.ofNat 64 h)

/-- START (R105, R126): in a deterministic launch it waits for the helper that StartCount names. -/
def startU (d s1 : GReg) (off : BitVec 14) : U After := do
  let det ← detLaunch
  let x ← myCtx
  stopIf (det && x != 0) .timing
  let w ← readG s1
  let c ← curCore
  stopIf (!(c.workspaceAligned w.toNat)) .misalignedWorkspace
  let entry ← target off
  let s ← getS
  let k := s.cur.1
  if det then
    let h := c.startCount % 10 + 1
    if helperIdle s k h then
      updCore fun c => { c with startCount := c.startCount + 1 }
      takeHelper d h w entry
      pure .next
    else waitOn (.helper h)
  else
    match ((List.range 10).map (· + 1)).find? (helperIdle s k) with
    | some h =>
      takeHelper d h w entry
      pure .next
    | none =>
      writeG d 0#64
      pure .next

def execStart (d s1 : GReg) (off : BitVec 14) (s : State) : Out := runIrr (startU d s1 off) s

/-- Whether contexts 1 to 14 leave the control context's END to retire: idle since an earlier tick (R106, R114). -/
def tasksIdle (s : State) (k : Nat) : Bool :=
  ((List.range 14).map (· + 1)).all fun h =>
    let v := s.ctx k h
    v.life == .idle && decide (v.readyAt ≤ s.tick)

/-- Unbind the streams of a context at its END: each first waits as `strm.off` does (R393). -/
def offAll : U Unit := do
  let v ← curCtx
  match v.streams.find? fun p => p.2.out && !p.2.buf.isEmpty with
  | some p => waitOn (.strmOff p.1)
  | none => updCtx fun v => { v with streams := [] }

/-- The task lane of a core retires: its launch is told (R114, R416, R417). -/
def retireLane (s : State) (k : Nat) : State :=
  let c := s.core k
  match c.launch with
  | none => s
  | some tag =>
    (s.modLaunch tag fun l => { l with retired := if l.retired.contains c.lane then l.retired else l.retired ++ [c.lane] }).postPoll 1
      (.launchCompletion (BitVec.ofNat 16 tag))

/-- END (R114, R250, R256, R393). -/
def endU : U After := do
  let x ← myCtx
  offAll
  let s ← getS
  let k := s.cur.1
  if x = 0 then
    if tasksIdle s k then
      setS (retireLane s k)
      pure .idle
    else waitOn .tasks
  else if x = 15 then
    updCore fun c => { c with svIdle := s.tick + 1 }
    if !(← curCore).trapq.isEmpty then postIn 0 (.supervisorWake (cid k))
    pure .idle
  else pure .idle

def execEndCtx (s : State) : Out := runIrr endU s

/-- YIELD: in a deterministic launch the context forfeits its next turn; in throughput mode it passes its turns until each context that is
READY has issued once, for 16 ticks at most (R113). [DEDUCED, log 70] -/
def yieldU : U After := do
  if ← detLaunch then pure (.forfeit 1)
  else
    let s ← getS
    let c ← curCore
    let others := (c.ctxs.filter fun p => p.1 != s.cur.2 && p.2.isReady s.tick).map (·.1)
    updCtx fun v => { v with yield := if others.isEmpty then none else some (s.tick + 16, others) }
    pure .next
def execYield (s : State) : Out := runIn yieldU s

/-- The helpers of a mask that are live, an END of this tick not being seen (R106, R128). -/
def liveOf (s : State) (k : Nat) (mask : BitVec 11) : BitVec 64 :=
  ((List.range 11).foldl (fun (a : BitVec 64) h =>
    if mask.getLsbD h && !helperIdle s k h then a ||| BitVec.ofNat 64 (2 ^ h) else a) 0#64)

/-- WAIT (R105, R128). -/
def waitU (d s1 : GReg) (mask : BitVec 10) : U After := do
  let limit ← readG s1
  let det ← detLaunch
  let s ← getS
  let x := s.cur.2
  stopIf (det && limit != 0#64) .timing
  let own : BitVec 11 := if x ≤ 10 then BitVec.ofNat 11 (2 ^ x) else 0#11
  let m : BitVec 11 := (mask ++ 0#1) &&& ~~~own
  if liveOf s s.cur.1 m = 0#64 then
    writeG d 0#64
    pure .next
  else
    needDest d
    let til := if limit = 0#64 then none else some (s.tick + limit.toNat)
    match til with
    | some t => postIn (t - s.tick) (.waitLimitExpiry (cid s.cur.1) (xid x))
    | none => pure ()
    pure (.hold (.helpers m til d))

def execWait (d s1 : GReg) (mask : BitVec 10) (s : State) : Out := runIrr (waitU d s1 mask) s

/-- GETID (R105, R129). -/
def getidU (d : GReg) (which : GetIdSel) : U After := do
  let s ← getS
  let c ← curCore
  let v ← curCtx
  let x : Word ← match which with
    | .pc => pure v.unit.addr
    | .wsp => pure (BitVec.ofNat 64 v.wsp)
    | .ctx => pure (BitVec.ofNat 64 s.cur.2)
    | .lane => pure (BitVec.ofNat 64 c.lane)
    | .cid => pure ((contextId s s.cur.1 s.cur.2).setWidth 64)
    | .core => pure (BitVec.ofNat 64 s.cur.1)
    | .nlane => pure (BitVec.ofNat 64 (match s.launchOf s.cur.1 with | some l => l.lanes | none => 0))
    | .retire => pure v.retire
    | .tick => do stopIf c.det .timing; pure (BitVec.ofNat 64 s.tick)
  writeG d x
  pure .next

def execGetid (d : GReg) (which : GetIdSel) (s : State) : Out := runIn (getidU d which) s

/-- BRK: the unit retires, then traps with its code (R116). -/
def breakWith (code : Word) : U After := pure (.trapAfter { cause := .breakpoint, addr := code })
def execBrk (code : BitVec 24) (s : State) : Out := runIn (breakWith (code.setWidth 64)) s

end Sys2Proof.Machine
end

