-- ==== Sys2Proof/Machine/CoreEvents.lean ====
section
/-! DEFINITION. What ends the waits of contexts, the supervisor's wake, the normaliser, and the entry into a trap (R85, R97 to R106,
R114, R126, R128, R135, R158, R226). -/

namespace Sys2Proof.Machine

/-- SUPERVISOR_WAKE: from the tick after a record was enqueued, and the second one after the supervisor's END, SupervisorWake() holds for an
idle supervisor, which becomes live with its turn (R101, R102, R106, R434, R435). [DEDUCED, log 21] -/
def execSupervisorWake (core : CoreId) (s : State) : Out :=
  let k := core.toNat
  let c := s.core k
  if (c.ctx 15).life ≠ .idle ∨ c.trapq.isEmpty = true ∨ s.ended k = true then .next s
  else if s.tick < c.svIdle then .next (s.post 1 (.supervisorWake core))
  else .next (s.setCore k { c with wakeAt := some (s.tick + 1) })

/-- Whether a wait that a context looks at itself has ended (R85, R135, R156, R158, R195, R235, R260, R261, R371, R393). -/
def waitOver (s : State) (k x : Nat) (w : Wait) : Bool :=
  let c := s.core k
  let v := c.ctx x
  match w with
  | .interval til => decide (til ≤ s.tick + 1)
  | .touch loads stores => !c.touched x loads stores
  | .podRelease => s.podReleased k
  | .farFull => decide (v.farq.length < 8)
  | .farReg d => !v.farq.any fun e => e.d.toNat == d
  | .farDrain o => !v.farq.any fun e => e.old.isNone && (e.ord || !o)
  | .channel ch => decide ((s.chan ch).jobs.length < 16)
  | .strmOff k => match tabFind v.streams k with
    | some m => m.buf.isEmpty
    | none => true
  | .strip k => match tabFind v.streams k with
    | some m => if m.out then decide (m.buf.length + v.stripsHeld k + 1 ≤ Config.streamDepth) else !m.buf.isEmpty
    | none => true
  | .queueReg pops pushes =>
    (List.range 8).all fun i =>
      decide (pops.count i ≤ (tabGet c.q i []).length) && decide (c.queueCount i + pushes.count i ≤ queueDepthOf i || pushes.count i == 0)
  | _ => false

/-- Whether a wait ends the running trick (R135, R156, R195, R213): one for a far atomic's register does not (R261). -/
def waitCuts : Wait → Bool
  | .queueReg _ _ | .touch _ _ | .strip _ => true
  | _ => false

/-- Look at a context's wait: it is READY from the next tick, or looks again then; a trick that the wait cuts ends as soon as no other is
pending (R98, R135, R195, R215). -/
def lookAt (s : State) (k x : Nat) (self : Instr) : State :=
  match (s.ctx k x).life with
  | .blocked w => if waitOver s k x w then s.ready k x else (if waitCuts w then s.endTrick k x else s).postPoll 1 self
  | _ => s

/-- BLOCKED_INTERVAL_END (R158, and the waits of `waitOver`). -/
def execBlockedIntervalEnd (core : CoreId) (ctx : CtxId) (s : State) : Out :=
  match (s.ctx core.toNat ctx.toNat).life with
  | .blocked (.interval _) | .blocked .podRelease | .blocked .farFull | .blocked (.farReg _) | .blocked (.farDrain _) | .blocked (.touch _ _)
  | .blocked (.channel _) | .blocked (.strmOff _) | .blocked (.strip _) =>
    .next (lookAt s core.toNat ctx.toNat (.blockedIntervalEnd core ctx))
  | _ => .next s

/-- QUEUE_REGISTER_UNBLOCK (R135, R136). -/
def execQueueRegisterUnblock (core : CoreId) (ctx : CtxId) (s : State) : Out :=
  match (s.ctx core.toNat ctx.toNat).life with
  | .blocked (.queueReg _ _) => .next (lookAt s core.toNat ctx.toNat (.queueRegisterUnblock core ctx))
  | _ => .next s

/-- FORFEIT_END: the forfeited turns are used up; the context is READY after its service in the normaliser and the interval of its unit
(R85, R103, R158). -/
def execForfeitEnd (core : CoreId) (ctx : CtxId) (s : State) : Out :=
  let k := core.toNat
  let x := ctx.toNat
  let v := s.ctx k x
  if v.life ≠ .blocked .normaliser then .next s
  else if (s.quad (quadOf k)).norm.contains (k, x) then .next (s.postPoll 1 (.forfeitEnd core ctx))
  else
    let til := match v.normEnd with
      | some e => e + 1 + v.interval
      | none => 0
    if til ≤ s.tick + 1 then .next (s.ready k x) else .next (s.block k x (.interval til))

/-- NORMALISER_SERVICE: 8 ticks for the instruction at the head (R85). -/
def execNormaliserService (quad : QuadId) (s : State) : Out :=
  let q := quad.toNat
  match (s.quad q).norm with
  | [] => .next s
  | (k, x) :: rest =>
    let last := max s.tick (s.quad q).normFree + 7
    .next ((s.modQuad q fun u => { u with norm := rest, normFree := last + 1 }).modCtx k x fun v => { v with normEnd := some last })

/-- WAIT_RELEASE: every helper waited for is idle; a helper that ends in tick T counts as idle from T + 1 on (R98, R106, R128).
[DEDUCED, log 69] -/
def execWaitRelease (core : CoreId) (ctx : CtxId) (s : State) : Out :=
  let k := core.toNat
  let x := ctx.toNat
  match (s.ctx k x).life with
  | .blocked (.helpers m _ d) =>
    if liveOf s k m = 0#64 then
      .next (completeUnit s k x (do
        writeG d 0#64
        pure .next))
    else .next (s.postPoll 1 (.waitRelease core ctx))
  | _ => .next s

/-- WAIT_LIMIT_EXPIRY: the limit of this WAIT has passed (R128). -/
def execWaitLimitExpiry (core : CoreId) (ctx : CtxId) (s : State) : Out :=
  let k := core.toNat
  let x := ctx.toNat
  match (s.ctx k x).life with
  | .blocked (.helpers m (some til) d) =>
    if til ≤ s.tick then
      .next (completeUnit s k x (do
        writeG d (liveOf s k m)
        pure .next))
    else .next s
  | _ => .next s

/-- HELPER_TAKEN: the helper that a START of a deterministic launch waits for is idle; the START issues again and takes it (R126). -/
def execHelperTaken (core : CoreId) (ctx : CtxId) (s : State) : Out :=
  let k := core.toNat
  let x := ctx.toNat
  match (s.ctx k x).life with
  | .blocked (.helper h) => if helperIdle s k h then .next (s.ready k x) else .next (s.postPoll 1 (.helperTaken core ctx))
  | _ => .next s

/-- TASK_LANE_RETIRE: contexts 1 to 14 are idle; the control context's END issues again and retires the lane (R114). -/
def execTaskLaneRetire (core : CoreId) (s : State) : Out :=
  let k := core.toNat
  match (s.ctx k 0).life with
  | .blocked .tasks => if tasksIdle s k then .next (s.ready k 0) else .next (s.postPoll 1 (.taskLaneRetire core))
  | _ => .next s

/-- TRAP_ENTRY: once the tricks in front of a trapping unit have committed, its context takes the trap. BRK and TRAP have retired, and
their record counts the units before them (R226, R428, R431). -/
def execTrapEntry (core : CoreId) (ctx : CtxId) (s : State) : Out :=
  let k := core.toNat
  let x := ctx.toNat
  let v := s.ctx k x
  match v.life with
  | .blocked (.trapEntry t) =>
    if v.settled then
      .next (s.takeTrap k x v.unit (if t.cause = .breakpoint ∨ t.cause = .trap then v.retire - 1#64 else v.retire) t)
    else .next ((s.endTrick k x).postPoll 1 (.trapEntry core ctx))
  | _ => .next s

end Sys2Proof.Machine
end

