-- ==== Sys2Proof/Machine/Scan.lean ====
section
/-! DEFINITION. The quad's scan unit and the carry chain (R312 to R339), and what the matrix and scan units of a quad share: the
watchdog and uncorrectable soft errors (R307, R308). -/

namespace Sys2Proof.Machine

/-! ### Records and Combine -/

/-- Components of a record (R313). -/
def scanK (op : Nat) : Nat := match op with
  | 0 | 3 | 4 => 2
  | 6 => 6
  | _ => 1

/-- Round of the exact sum of products and an addend, with its flags (R80, R92, R313). -/
def dotRound (mode : Rounding) (ps : List (Nat × Nat)) (c : Option Nat) : Nat × Flags :=
  let f := fmtF32
  let prods := ps.map fun p =>
    let r := mulVal (f.value p.1) (f.value p.2)
    (r.1, r.2 ||| f.sFlag p.1 ||| f.sFlag p.2)
  let all := prods ++ (match c with | some x => [(f.value x, f.sFlag x)] | none => [])
  let r := roundWith f mode 0 (sumVal mode (all.map (·.1)))
  (r.1, all.foldl (fun a e => a ||| e.2) r.2)

/-- Combine(x, y) (R313). -/
def scanCombine (op : Nat) (mode : Rounding) (x y : List Nat) : List Nat × Flags :=
  let xa := x.getD 0 0
  let xb := x.getD 1 0
  let ya := y.getD 0 0
  let yb := y.getD 1 0
  let two := fun (a b : Nat × Flags) => ([a.1, b.1], a.2 ||| b.2)
  let one := fun (a : Nat × Flags) => ([a.1], a.2)
  match op with
  | 0 => two (dotRound mode [(xa, ya)] none) (dotRound mode [(ya, xb)] (some yb))
  | 1 => one (fAdd fmtF32 mode 0 xa ya)
  | 2 => one (fMul fmtF32 mode 0 xa ya)
  | 3 =>
    let t := fAdd fmtF32 mode 0 xb ya
    let m := fMinMax fmtF32 false t.1 yb
    two (fAdd fmtF32 mode 0 xa ya) (m.1, t.2 ||| m.2)
  | 4 =>
    let t := fAdd fmtF32 mode 0 xb ya
    let m := fMinMax fmtF32 true t.1 yb
    two (fAdd fmtF32 mode 0 xa ya) (m.1, t.2 ||| m.2)
  | 5 => one (fLae mode xa ya)
  | _ =>
    let g := fun (l : List Nat) (i : Nat) => l.getD i 0
    let m := fun (i j : Nat) => dotRound mode [(g y (2 * i), g x j), (g y (2 * i + 1), g x (2 + j))] none
    let u := fun (i : Nat) => dotRound mode [(g y (2 * i), g x 4), (g y (2 * i + 1), g x 5)] (some (g y (4 + i)))
    let r := [m 0 0, m 0 1, m 1 0, m 1 1, u 0, u 1]
    (r.map (·.1), r.foldl (fun a e => a ||| e.2) 0#7)

/-- Combine of two lists of records element by element, with the union of the flags. -/
def combineAll (op : Nat) (mode : Rounding) : List (List Nat) → List (List Nat) → List (List Nat) × Flags
  | x :: xs, y :: ys =>
    let r := scanCombine op mode x y
    let t := combineAll op mode xs ys
    (r.1 :: t.1, r.2 ||| t.2)
  | _, _ => ([], 0#7)

/-- TileScan from distance `d` on, by at most `n` levels (R321). -/
def tileScan (op : Nat) (mode : Rounding) : Nat → Nat → List (List Nat) → List (List Nat) × Flags
  | 0, _, xs => (xs, 0#7)
  | n + 1, d, xs =>
    if d < xs.length then
      let r := combineAll op mode xs (xs.drop d)
      let t := tileScan op mode n (2 * d) (xs.take d ++ r.1)
      (t.1, r.2 ||| t.2)
    else (xs, 0#7)

/-! ### Tiles -/

/-- A tile by its descriptor (R319, R320). -/
structure TileDesc where
  base : Nat
  ps : Nat
  rs : Nat
  rows : Nat
  cols : Nat
  axis : Bool
  emit : Bool
  eoff : Nat
  deriving DecidableEq, Repr

def tileDesc (t0 t1 : Word) : TileDesc where
  base := field t0 0 18
  ps := field t0 18 18
  rs := field t0 36 18
  rows := field t1 0 12 + 1
  cols := field t1 12 12 + 1
  axis := t1.getLsbD 24
  emit := t1.getLsbD 25
  eoff := field t1 26 18

/-- Sequences and their length (R320). -/
def TileDesc.q (t : TileDesc) : Nat := if t.axis then t.cols else t.rows
def TileDesc.l (t : TileDesc) : Nat := if t.axis then t.rows else t.cols

/-- The byte of component `c` of position `i` of sequence `q`. -/
def TileDesc.at (t : TileDesc) (c q i : Nat) : Nat :=
  let (r, j) := if t.axis then (i, q) else (q, i)
  t.base + c * t.ps + r * t.rs + 4 * j

/-- The records of a sequence. -/
def TileDesc.seq (t : TileDesc) (m : List Host.Cell) (k q : Nat) : List (List Nat) :=
  (List.range t.l).map fun i => (List.range k).map fun c => memRead m (t.at c q i) 4

/-- The records of a carry block (R320). -/
def carryBlock (m : List Host.Cell) (k n o : Nat) : List (List Nat) :=
  (List.range n).map fun q => (List.range k).map fun c => memRead m (o + 4 * (c * n + q)) 4

/-- Write a carry block, in ascending (c, q). -/
def putBlock (m : List Host.Cell) (k n o : Nat) (recs : List (List Nat)) : List Host.Cell :=
  (List.range k).foldl (fun m c => memPut m (o + 4 * c * n) (recs.flatMap fun r => toBytes 4 (r.getD c 0))) m

/-- Write the sequences of a tile back in ascending (c, r, j), and then the emitted records (R320). -/
def TileDesc.put (t : TileDesc) (k : Nat) (m : List Host.Cell) (seqs : List (List (List Nat))) : List Host.Cell :=
  let elem := fun (r j c : Nat) =>
    let (q, i) := if t.axis then (j, r) else (r, j)
    ((seqs.getD q []).getD i []).getD c 0
  let m := (List.range k).foldl (fun m c => (List.range t.rows).foldl (fun m r =>
    memPut m (t.base + c * t.ps + r * t.rs) ((List.range t.cols).flatMap fun j => toBytes 4 (elem r j c))) m) m
  if t.emit then putBlock m k t.q t.eoff (seqs.map fun s => s.getLastD []) else m

/-- Ranges of a tile's rows, and of its emit block. -/
def TileDesc.ranges (t : TileDesc) (k : Nat) : List (Nat × Nat) :=
  (List.range k).flatMap fun c => (List.range t.rows).map fun r => (t.base + c * t.ps + r * t.rs, 4 * t.cols)
def TileDesc.emits (t : TileDesc) (k : Nat) : List (Nat × Nat) := if t.emit then [(t.eoff, 4 * k * t.q)] else []

/-- The parts of CheckTile that follow "local address", with other blocks of the request (R326). -/
def checkTile (t0 t1 : Word) (ca : Option Nat) (k : Nat) : U Unit := do
  let c ← curCore
  let t := tileDesc t0 t1
  stopIf (field t0 54 10 != 0 || field t1 44 20 != 0) .operandRange
  stopIf (t.base % 4 != 0 || t.ps % 4 != 0 || t.rs % 4 != 0 || t.eoff % 4 != 0 || (ca.getD 0) % 4 != 0) .misaligned
  let blocks := t.ranges k ++ t.emits k ++ (match ca with | some a => [(a, 4 * k * t.q)] | none => [])
  stopIf (blocks.any fun r => decide (r.1 + r.2 > c.S)) .outsideScratchpad

/-! ### Performance -/

def sctxOp (v : BitVec 6) : Nat := v.toNat % 8
def sctxMode (v : BitVec 6) : Rounding := roundingOf (v.extractLsb' 3 3)

/-- STILE, performed (R324). -/
def performStile (t0 t1 : Word) : U After := do
  let c ← curCore
  let op := sctxOp c.sctx
  let k := scanK op
  checkTile t0 t1 none k
  let t := tileDesc t0 t1
  let r := (List.range t.q).map fun q => tileScan op (sctxMode c.sctx) 13 1 (t.seq c.store k q)
  updCore fun c => { c with store := t.put k c.store (r.map (·.1)) }
  raiseFlags (r.foldl (fun f e => f ||| e.2) 0#7)
  pure .next

/-- SJOIN on a tile, performed (R325). -/
def performSjoinT (t0 t1 : Word) (ca : Nat) : U After := do
  let c ← curCore
  let op := sctxOp c.sctx
  let k := scanK op
  checkTile t0 t1 (some ca) k
  let t := tileDesc t0 t1
  let cs := carryBlock c.store k t.q ca
  let r := (List.range t.q).map fun q =>
    combineAll op (sctxMode c.sctx) (List.replicate t.l (cs.getD q [])) (t.seq c.store k q)
  updCore fun c => { c with store := t.put k c.store (r.map (·.1)) }
  raiseFlags (r.foldl (fun f e => f ||| e.2) 0#7)
  pure .next

/-- SJOIN on records, performed (R325). -/
def performSjoinR (n : Word) (ca ya : Nat) : U After := do
  let c ← curCore
  let op := sctxOp c.sctx
  let k := scanK op
  stopIf (n == 0#64 || decide (n.toNat > 4096)) .operandRange
  stopIf (ca % 4 != 0 || ya % 4 != 0) .misaligned
  let m := n.toNat
  stopIf (decide (ca + 4 * k * m > c.S) || decide (ya + 4 * k * m > c.S)) .outsideScratchpad
  let r := combineAll op (sctxMode c.sctx) (carryBlock c.store k m ca) (carryBlock c.store k m ya)
  updCore fun c => { c with store := putBlock c.store k m ya r.1 }
  raiseFlags r.2
  pure .next

/-- What a scan request does when it is performed (R323 to R325). -/
def performScan (r : ScanReq) : U After :=
  match r with
  | .scfg v d => do
    let old := (← curCore).sctx
    updCore fun c => { c with sctx := v }
    writeG d (old.setWidth 64)
    pure .next
  | .stile t0 t1 => performStile t0 t1
  | .sjoinT t0 t1 ca => performSjoinT t0 t1 ca
  | .sjoinR n ca ya => performSjoinR n ca ya

/-- ceil(log2 n). -/
def ceilLog2 (n : Nat) : Nat := if n ≤ 1 then 0 else (n - 1).log2 + 1

/-- Ticks of a request at the unit (R318). -/
def scanTicks (s : State) (e : Queued ScanReq) : Nat :=
  let k := scanK (sctxOp (s.core e.core).sctx)
  let per := fun (n : Nat) => (n * k + 63) / 64
  match e.req with
  | .scfg _ _ => 1
  | .stile t0 t1 => let t := tileDesc t0 t1; per (t.q * t.l) * (1 + ceilLog2 t.l) + 12
  | .sjoinT t0 t1 _ => let t := tileDesc t0 t1; per (t.q * t.l) + 8
  | .sjoinR n _ _ => per (n.toNat % 4097) + 8

/-- Whether a request would touch a word of another context's trick (R306, R317). -/
def scanTouched (s : State) (e : Queued ScanReq) : Bool :=
  let c := s.core e.core
  let k := scanK (sctxOp c.sctx)
  match e.req with
  | .scfg _ _ => false
  | .stile t0 t1 => let t := tileDesc t0 t1; c.rangesTouched e.ctx [] (t.ranges k ++ t.emits k)
  | .sjoinT t0 t1 ca => let t := tileDesc t0 t1; c.rangesTouched e.ctx [(ca, 4 * k * t.q)] (t.ranges k ++ t.emits k)
  | .sjoinR n ca ya => let m := n.toNat % 4097; c.rangesTouched e.ctx [(ca, 4 * k * m)] [(ya, 4 * k * m)]

/-- SCAN_REQUEST_START (R284, R316). -/
def execScanRequestStart (quad : QuadId) (s : State) : Out :=
  let n := quad.toNat
  match (s.quad n).scan with
  | [] => .next s
  | e :: rest =>
    if e.done.isSome then .next s
    else
      let t := scanTicks s e
      .next ((s.modQuad n fun q => { q with scan := { e with done := some (s.tick + t) } :: rest }).post t
        (.scanRequestComplete quad))

/-- The next request of the scan unit may start. -/
def startScan (n : Nat) (s : State) : State :=
  if (s.quad n).scan.isEmpty then s else s.post 0 (.scanRequestStart (BitVec.ofNat 10 n))

/-- SCAN_REQUEST_COMPLETE (R306, R316, R317). -/
def execScanRequestComplete (quad : QuadId) (s : State) : Out :=
  let n := quad.toNat
  match (s.quad n).scan with
  | [] => .next s
  | e :: rest =>
    match e.done with
    | none => .next s
    | some t =>
      if s.tick < t then .next s
      else if scanTouched s e then .next (s.post 1 (.scanRequestComplete quad))
      else
        let s := s.modQuad n fun q => { q with scan := rest }
        .next (startScan n (completeUnit s e.core e.ctx (performScan e.req)))

/-! ### Instructions of the scan unit -/

/-- A request joins the queue of the quad's scan unit (R316). -/
def scanUnit (m : U ScanReq) (s : State) : Out :=
  runOp (do
    let r ← m
    let s ← getS
    let (k, x) := s.cur
    let n := quadOf k
    modify fun s => wakeQuad (watchQuad s n) n
    if (s.quad n).scan.isEmpty then postIn 0 (.scanRequestStart (BitVec.ofNat 10 n))
    updCtx fun v => { v with req := some .atUnit }
    modify fun s => s.modQuad n fun q => { q with scan := q.scan ++ [{ core := k, ctx := x, req := r }] }
    pure (.hold .unitReq)) s

/-- The code of a scan operator (R313). -/
def scanOpCode : ScanOp → Nat
  | .aff => 0 | .add => 1 | .mul => 2 | .maxp => 3 | .minp => 4 | .lae => 5 | .m2 => 6

/-- The code of a rounding mode (R33). -/
def roundingCode : Rounding → Nat
  | .rne => 0 | .rz => 1 | .rdn => 2 | .rup => 3 | .rna => 4 | .rst => 5

/-- SCFG (R323). -/
def execScfg (d : GReg) (op : ScanOp) (rmode : Rounding) (s : State) : Out :=
  scanUnit (do
    needDest d
    pure (.scfg (BitVec.ofNat 6 (8 * roundingCode rmode + scanOpCode op)) d)) s

/-- STILE: its register operands are read, and popped, when it issues. [DEDUCED, log 31] -/
def execStile (s1 : GReg) (s : State) : Out :=
  scanUnit (do
    let t0 ← readG s1
    let t1 ← readG (s1 + 1)
    pure (.stile t0 t1)) s

/-- SJOIN on a tile (R325): its operands as those of STILE. [DEDUCED, log 31] -/
def execSjoinT (d s1 : GReg) (s : State) : Out :=
  scanUnit (do
    let a ← readG s1
    let t0 ← readG d
    let t1 ← readG (d + 1)
    pure (.sjoinT t0 t1 (← ownOffset a))) s

/-- SJOIN on records (R325): its operands as those of STILE [DEDUCED, log 31], popped in the order of R52 [DEDUCED, log 83]. -/
def execSjoinR (d s1 s2 : GReg) (s : State) : Out :=
  scanUnit (do
    let a ← readG s1
    let y ← readG s2
    let n ← readG d
    let ca ← ownOffset a
    pure (.sjoinR n ca (← ownOffset y))) s

/-! ### The watchdog and soft errors -/

/-- The watchdog of a group stands still (R308). -/
def watchStopped (s : State) (g : Nat) : Bool :=
  s.cores.any fun c => groupOf c.1 == g && (!c.2.trapq.isEmpty || !c.2.trapWait.isEmpty || (c.2.ctx 15).life != .idle)

/-- One tick counted on a request, unless it waits under R306. -/
def countOne {α : Type} (s : State) (touched : State → Queued α → Bool) (e : Queued α) : Queued α :=
  match e.done with
  | some t => if t ≤ s.tick && touched s e then e else { e with count := e.count + 1 }
  | none => { e with count := e.count + 1 }

/-- MXWDOG_EXPIRY: the watchdog looks at the requests of a quad's units in every tick in which they have some; one that reaches
LIMIT is abandoned, FIRED is set, and the quad takes a machine check (R308, R309, R317). The tick of arrival counts one here. -/
def execMxwdogExpiry (quad : QuadId) (s : State) : Out :=
  let n := quad.toNat
  let g := n / 4
  let q := s.quad n
  if q.matrix.isEmpty && q.scan.isEmpty then .next s
  else if watchStopped s g then .next (s.post 1 (.mxwdogExpiry quad))
  else
    let q := { q with matrix := q.matrix.map (countOne s matrixTouched), scan := q.scan.map (countOne s scanTouched) }
    let lim := (s.group g).wdLimit.toNat
    let past := fun (n : Nat) => decide (lim < n)
    let late := lim != 0 && ((q.matrix.any fun e => past e.count) || q.scan.any fun e => past e.count)
    let s := s.modQuad n fun _ => q
    if late then
      let gone := (q.matrix.filter fun e => past e.count).map (fun e => (e.core, e.ctx)) ++
        (q.scan.filter fun e => past e.count).map (fun e => (e.core, e.ctx))
      let s := dropFromUnits n (fun _ _ c => past c) s
      let s := gone.foldl (fun s p => (s.unpopHeld p.1 p.2).ready p.1 p.2) s
      .next ((startNext n (startScan n ((s.modGroup g fun x => { x with wdFired := true }).post 0 (.machineCheck (.quad quad))))).post 1
        (.mxwdogExpiry quad))
    else .next (s.post 1 (.mxwdogExpiry quad))

/-- A request that met a second uncorrectable error: its context parks, and the event is recorded (R307, R431, R480). -/
def operandErrorAt (s : State) (k x storage : Nat) : State :=
  let s := s.unpopHeld k x
  let s := s.takeTrap k x (s.ctx k x).unit (s.ctx k x).retire { cause := .operandError, aux := BitVec.ofNat 64 storage }
  s.discard (some (s.partOf k)) k ((s.core k).launch.getD 0) 0x0B storage []

/-- An uncorrectable soft error in what a quad's scan unit reads: the request under way is abandoned and performed again at once; at the second
error it parks its context (R307, R338). -/
def scanError (quad : QuadId) (storage : BitVec 3) (s : State) : State :=
  let n := quad.toNat
  match (s.quad n).scan with
  | [] => s
  | e :: rest =>
    if e.done.isNone || storage != 1#3 then s
    else if e.retried then startScan n (operandErrorAt (s.modQuad n fun q => { q with scan := rest }) e.core e.ctx storage.toNat)
    else (s.modQuad n fun q => { q with scan := { e with done := none, retried := true } :: rest }).post 0 (.scanRequestStart quad)

/-- The same for the matrix unit, by the storage codes of R431 (R307). -/
def matrixError (quad : QuadId) (storage : BitVec 3) (s : State) : State :=
  let n := quad.toNat
  match (s.quad n).matrix with
  | [] => s
  | e :: rest =>
    if e.done.isNone || storage == 0#3 || decide (4 < storage.toNat) then s
    else if e.retried then
      startNext n (wakeTstc e.req e.core (operandErrorAt (s.modQuad n fun q => { q with matrix := rest }) e.core e.ctx storage.toNat))
    else (s.modQuad n fun q => { q with matrix := { e with done := none, retried := true } :: rest }).post 0 (.matrixRequestStart quad)

/-! ### The carry chain -/

/-- Lanes of a quad, positions of a chain (R327). -/
def Launch.lanesPerQuad (l : Launch) : Nat := if l.lock then 2 else 4
def Launch.positions (l : Launch) : Nat := (l.lanes + l.lanesPerQuad - 1) / l.lanesPerQuad

/-- The chain of a core: its launch, its position and the number of positions; none where the launch has no chain (R327). -/
def State.chainOf (s : State) (k : Nat) : Option (Launch × Nat × Nat) :=
  match s.launchOf k with
  | some l => if l.flags.getLsbD 34 then some (l, (s.core k).lane / l.lanesPerQuad, l.positions) else none
  | none => none

/-- The quad at a position of a launch, if it is resident: neither evicted nor being evicted (R329, R337, R339). -/
def State.quadAt (s : State) (l : Launch) (p : Nat) : Option Nat :=
  let lane := p * l.lanesPerQuad
  if (tabFind l.saved lane).isSome then none
  else (l.cores[lane]?.filter fun k => (s.core k).halting.isNone).map quadOf

/-- The checks of CHAIN on an address and a count (R329). -/
def chainChecks (a m : Word) : U Nat := do
  let off ← ownOffset a
  stopIf (m == 0#64 || decide (m.toNat > 4096)) .operandRange
  stopIf (field a 0 6 != 0 || field m 0 6 != 0) .misaligned a
  stopIf (decide (off + m.toNat > (← curCore).S)) .outsideScratchpad a
  pure off

/-- Whether a context of a quad with a lower identifier waits in the same way (R339). -/
def chainBehind (s : State) (k x : Nat) (post : Bool) : Bool :=
  s.cores.any fun c => quadOf c.1 == quadOf k && c.2.ctxs.any fun p =>
    (decide (c.1 < k) || (c.1 == k && decide (p.1 < x))) && p.2.life == .blocked .chain && (match p.2.req with
      | some (.chainPost _ _ _) => post
      | some (.chainWait _ _ _) => !post
      | _ => false)

/-- CHAIN.post (R329). -/
def execChainPost (d s1 s2 : GReg) (s : State) : Out :=
  runIrr (do
    let s ← getS
    let (k, x) := s.cur
    match s.chainOf k with
    | none => stopTrap .chainNotGranted
    | some (_, p, n) =>
      let a ← readG s1
      let m ← readG s2
      let off ← chainChecks a m
      if p + 1 ≥ n then
        writeG d 0#64
        pure .next
      else
        needDest d
        updCtx fun v => { v with req := some (.chainPost off m.toNat d) }
        postIn 0 (.chainPostPerform (cid k) (xid x))
        pure (.hold .chain)) s

/-- CHAIN.wait (R330). -/
def execChainWait (d s1 s2 : GReg) (s : State) : Out :=
  runIrr (do
    let s ← getS
    let (k, x) := s.cur
    match s.chainOf k with
    | none => stopTrap .chainNotGranted
    | some (_, p, _) =>
      let a ← readG s1
      let cap ← readG s2
      let off ← chainChecks a cap
      if p = 0 then
        writeG d 0#64
        pure .next
      else
        needDest d
        updCtx fun v => { v with req := some (.chainWait off cap.toNat d) }
        modify fun s => s.postPoll 0 (.chainWaitPerform (cid k) (xid x))
        pure (.hold .chain)) s

/-- CHAIN.pos (R331). -/
def execChainPos (d : GReg) (s : State) : Out :=
  runIrr (do
    let s ← getS
    writeG d (match s.chainOf s.cur.1 with
      | some (_, p, n) => BitVec.ofNat 64 (2 ^ 32 + n * 2 ^ 16 + p)
      | none => 0#64)
    pure .next) s

/-- CHAIN_POST_PERFORM: the post is one event once the successor's quad is resident with its buffer empty since an earlier tick (R329,
R333, R334, R339). -/
def execChainPostPerform (core : CoreId) (ctx : CtxId) (s : State) : Out :=
  let k := core.toNat
  let x := ctx.toNat
  let again := .next (s.post 1 (.chainPostPerform core ctx))
  match (s.ctx k x).life, (s.ctx k x).req, s.chainOf k with
  | .blocked .chain, some (.chainPost a m d), some (l, p, _) =>
    match s.quadAt l (p + 1) with
    | none => again
    | some q =>
      if (s.quad q).chainBuf.isSome || (s.core k).rangesTouched x [(a, m)] [] || chainBehind s k x true then again
      else
        let bs := memBytes (s.core k).store a m
        let hops := if dieOf k = q / 256 then 1 else 6
        let s := s.modQuad q fun t => { t with chainBuf := some bs, chainFull := false }
        let s := s.modQuad (quadOf k) fun t => { t with posts := t.posts + 1 }
        let s := s.post (4 * hops + m / 64) (.chainDelivery (BitVec.ofNat 10 q))
        .next (completeUnit s k x (do
          writeG d 1#64
          pure .next))
  | _, _, _ => .next s

/-- CHAIN_DELIVERY: the buffer of the successor becomes full (R334). -/
def execChainDelivery (quad : QuadId) (s : State) : Out :=
  .next (s.modQuad quad.toNat fun t => { t with chainFull := t.chainBuf.isSome })

/-- CHAIN_WAIT_PERFORM: the waiter of the lowest context identifier takes the post of a full buffer (R330, R333, R334, R339). -/
def execChainWaitPerform (core : CoreId) (ctx : CtxId) (s : State) : Out :=
  let k := core.toNat
  let x := ctx.toNat
  let again := .next (s.postPoll 1 (.chainWaitPerform core ctx))
  match (s.ctx k x).life, (s.ctx k x).req with
  | .blocked .chain, some (.chainWait a cap d) =>
    let q := s.quad (quadOf k)
    match q.chainBuf with
    | none => again
    | some bs =>
      if !q.chainFull || chainBehind s k x false then again
      else if bs.length > cap then .next (completeUnit s k x (stopTrap .operandRange))
      else if (s.core k).rangesTouched x [] [(a, bs.length)] then again
      else
        let s := s.modQuad (quadOf k) fun t => { t with chainBuf := none, chainFull := false, waits := t.waits + 1 }
        .next (completeUnit s k x (do
          updCore fun c => { c with store := memPut c.store a bs }
          writeG d (BitVec.ofNat 64 bs.length)
          pure .next))
  | _, _ => .next s

end Sys2Proof.Machine
end

