-- ==== Sys2Proof/Machine/Sync.lean ====
section
/-! DEFINITION. Barriers and semaphores (R340 to R355, R367 to R369). -/

namespace Sys2Proof.Machine

/-! ### The home -/

/-- The reply that stands for a trap at the home of another package. -/
def replyOf : Cause → PeerReply
  | .syncState => .syncState
  | .syncScope => .syncScope
  | .operandRange => .range
  | _ => .boundary

/-- A request traps at its home. -/
def State.failSync (s : State) (w : Waiter) (c : Cause) : State :=
  match w.peer with
  | some (p, q) => s.replyPeer p q (replyOf c)
  | none => completeUnit s w.core w.ctx (stopTrap c)

/-- Take an entry of the wake list, or be refused: the request is resent after 64 ticks (R352). -/
def State.listSync (s : State) (home : Nat) (w : Waiter) : State :=
  if (s.core home).wake.length ≥ 128 then
    match w.peer with
    | some (p, q) => s.replyPeer p q .retry
    | none => s.post 64 (.wakeListRetry (cid w.core) (xid w.ctx))
  else s.modCore home fun c => { c with wake := c.wake ++ [w] }

def Core.barrier (c : Core) (i : Nat) : Barrier := tabGet c.barriers i {}
def State.setBarrier (s : State) (home i : Nat) (b : Barrier) : State :=
  s.modCore home fun c => { c with barriers := tabSet c.barriers i b }

/-- The code of a scope (R16). -/
def scopeCode : Scope → BitVec 3
  | .lane => 0#3 | .core => 1#3 | .quad => 2#3 | .group => 3#3 | .sgrp => 4#3 | .die => 5#3 | .pkg => 6#3 | .pod => 7#3

/-- Done(P, t) (R350). -/
def phaseDone (p t : BitVec 16) : Bool := decide (1 ≤ (p - t).toNat ∧ (p - t).toNat ≤ 32767)

/-- Evaluate without the held arrivals (R343). -/
def Barrier.evaluate (b : Barrier) : Barrier :=
  if b.arrived = b.expected ∧ b.pending = 0#24 then { b with phase := b.phase + 1, arrived := 0#32 } else b

/-- Count an arrival or a declaration: the barrier before and after its evaluation, or a range error (R349). -/
def Barrier.count (b : Barrier) (bytes : Int) (arrive : Bool) : Option Barrier :=
  let p := b.pending.toInt + bytes
  if p < -8388608 ∨ p > 8388607 then none
  else some { b with pending := BitVec.ofInt 24 p, arrived := if arrive then b.arrived + 1 else b.arrived }.evaluate

/-- Held arrivals of a barrier are counted in arrival order while the phase takes them (R343, R345). -/
def countHeld (home i : Nat) : Nat → State → State
  | 0, s => s
  | n + 1, s =>
    let b := (s.core home).barrier i
    if b.arrived = b.expected then s
    else
      match (s.core home).wake.find? fun w => w.barrier && w.index == i && (match w.op with | .barv _ _ => true | _ => false) with
      | none => s
      | some w =>
        let s := s.modCore home fun c => { c with wake := c.wake.erase w }
        match w.op with
        | .barv bytes _ =>
          match b.count bytes true with
          | none => countHeld home i n (s.failSync w .operandRange)
          | some b' => countHeld home i n ((s.setBarrier home i b').answerSync w (b.phase.setWidth 64) false)
        | _ => s

/-- Waiters whose phase is done are answered in arrival order (R350, R352). -/
def answerPhase (home i : Nat) (s : State) : State :=
  let p := ((s.core home).barrier i).phase
  let met := (s.core home).wake.filter fun w => w.barrier && w.index == i && (match w.op with
    | .bwait t => phaseDone p t
    | _ => false)
  met.foldl (fun s w => (s.modCore home fun c => { c with wake := c.wake.erase w }).answerSync w (p.setWidth 64) true) s

/-- After a change of a barrier: held arrivals, then waiters. -/
def settleBarrier (home i : Nat) (s : State) : State := answerPhase home i (countHeld home i 129 s)

/-- Bytes that a copy job subtracts from a barrier: none where PENDING could not take it (R344). -/
def barrierBytes (s : State) (home i n : Nat) : Option State :=
  let b := (s.core home).barrier i
  let p := b.pending.toInt - n
  if p < -8388608 then none
  else some (settleBarrier home i (s.setBarrier home i { b with pending := BitVec.ofInt 24 p }.evaluate))

/-- A request at a barrier (R344, R348 to R351). -/
def barrierAt (s : State) (home : Nat) (w : Waiter) : State :=
  let b := (s.core home).barrier w.index
  let inScope := fun (t : State) =>
    if b.scope = 0#3 then s.failSync w .syncState
    else if b.scope ≠ scopeCode w.scope then s.failSync w .syncScope
    else t
  match w.op with
  | .binit e =>
    if b.arrived ≠ 0#32 ∨ b.pending ≠ 0#24 ∨ ((s.core home).wake.any fun v => v.barrier && v.index == w.index) then
      s.answerSync w 0#64 false
    else (s.setBarrier home w.index { b with scope := scopeCode w.scope, expected := BitVec.ofNat 32 e }).answerSync w 1#64 false
  | .barv bytes arrive =>
    inScope (
      if arrive ∧ b.arrived = b.expected then s.listSync home w
      else
        match b.count bytes arrive with
        | none => s.failSync w .operandRange
        | some b' =>
          settleBarrier home w.index ((s.setBarrier home w.index b').answerSync w (b.phase.setWidth 64) false))
  | .bwait t => inScope (if phaseDone b.phase t then s.answerSync w (b.phase.setWidth 64) true else s.listSync home w)
  | .btest t =>
    inScope (
      let r := b.phase.getLsbD 0 != t
      s.answerSync w (if r then 1#64 else 0#64) r)
  | .land n =>
    if n = 0 then s.answerSync w 0#64 false
    else
      match barrierBytes s home w.index n with
      | some t => t.answerSync w 0#64 false
      | none => match w.peer with
        | some (p, q) => s.replyPeer p q .retry
        | none => s
  | _ => s

/-- Set a semaphore, and serve its waiters. -/
def State.setSem (s : State) (home i : Nat) (v : BitVec 32) : State :=
  settleSem home i (s.modCore home fun c => { c with sems := tabSet c.sems i v })

/-- A request at a semaphore (R354). -/
def semAt (s : State) (home : Nat) (w : Waiter) : State :=
  let x := (s.core home).sem w.index
  match w.op with
  | .semi set v => (s.setSem home w.index (if set then v else x + v)).answerSync w (x.setWidth 64) false
  | .semw dec v =>
    let behind := (s.core home).wake.any fun u => !u.barrier && u.index == w.index && (match u.op with
      | .semw true _ => true
      | _ => false)
    if behind || decide (x < v) then s.listSync home w
    else
      (if dec then s.modCore home fun c => { c with sems := tabSet c.sems w.index (x - v) } else s).answerSync w (x.setWidth 64)
        false
  | _ => s

/-! ### Instructions -/

/-- The parts of SyncHome after the range of the handle (R341). -/
def syncHome (h : Word) (scope : Scope) : U (Nat × Nat) := do
  let s ← getS
  let k := s.cur.1
  let pkg := (h.extractLsb' 18 7).toNat
  let home := (h.extractLsb' 6 12).toNat
  let pod := scope == .pod
  stopIf (!pod && pkg != s.pkg) .syncScope
  stopIf (pkg == s.pkg && !sameScope scope k home) .syncScope
  stopIf (scope == .pkg && s.partOf home != s.partOf k) .syncScope
  stopIf (!pod && !s.mates k home) .remoteBoundary
  stopIf (pod && pkg == s.pkg && s.partOf home != s.partOf k) .remoteBoundary
  pure (pkg, home)

/-- The releasing operations (R355). -/
def syncReleases : SyncOp → Bool
  | .binit _ | .barv _ _ | .semi _ _ => true
  | _ => false

/-- A barrier or semaphore unit sends its request to the home; at scope `.pod` a releasing one first performs PodRelease, and an acquiring one
reads no older value afterwards, as ACQ does not (R239, R341, R346, R347, R355, R367, R424). -/
def syncUnit (barrier : Bool) (op : Word → U SyncOp) (d s1 s2 : GReg) (scope : Scope) (s : State) : Out :=
  runIrr (do
    let h ← readG s1
    let v ← readG s2
    stopIf (h.extractLsb' 25 39 != 0#39 || (barrier && h.getLsbD 5)) .operandRange
    let o ← op v
    let (pkg, home) ← syncHome h scope
    needDest d
    if scope == .pod && syncReleases o then podRelease
    let s ← getS
    let (k, x) := s.cur
    let i := (h.extractLsb' 0 6).toNat
    let r := Request.sync o scope pkg home i d
    if pkg != s.pkg && s.meterBusy k 1 then meterHold 1 r
    else
      updCtx fun y => { y with req := some r }
      if pkg = s.pkg then
        modify fun s => s.postPoll (syncTicks scope false) (if barrier then .barrierArrival (cid k) (xid x) else .semaphoreAtHome (cid k) (xid x))
      else modify fun s => s.sendPeer pkg k x (.sync (cid home) (BitVec.ofNat 6 i) o (contextId s k x))
      pure (.hold .reply)) s

/-- BINIT (R348). -/
def execBinit (d s1 s2 : GReg) (scope : Scope) (s : State) : Out :=
  syncUnit true (fun v => do
    stopIf (v == 0#64 || decide (v.toNat ≥ 2 ^ 32)) .operandRange
    pure (.binit v.toNat)) d s1 s2 scope s

/-- BARV (R349). -/
def execBarv (d s1 s2 : GReg) (scope : Scope) (s : State) : Out :=
  syncUnit true (fun v => pure (.barv v.toInt true)) d s1 s2 scope s

/-- BARV.x (R349). -/
def execBarvX (d s1 s2 : GReg) (scope : Scope) (s : State) : Out :=
  syncUnit true (fun v => pure (.barv v.toInt false)) d s1 s2 scope s

/-- BWAIT (R350). -/
def execBwait (d s1 s2 : GReg) (scope : Scope) (s : State) : Out :=
  syncUnit true (fun v => pure (.bwait (v.extractLsb' 0 16))) d s1 s2 scope s

/-- BTEST (R351). -/
def execBtest (d s1 s2 : GReg) (scope : Scope) (s : State) : Out :=
  syncUnit true (fun v => pure (.btest (v.getLsbD 0))) d s1 s2 scope s

/-- SEMI (R354). -/
def execSemi (d s1 s2 : GReg) (scope : Scope) (s : State) : Out :=
  syncUnit false (fun v => pure (.semi false (v.extractLsb' 0 32))) d s1 s2 scope s

/-- SEMI.set (R354). -/
def execSemiSet (d s1 s2 : GReg) (scope : Scope) (s : State) : Out :=
  syncUnit false (fun v => pure (.semi true (v.extractLsb' 0 32))) d s1 s2 scope s

/-- SEMW (R354). -/
def execSemw (d s1 s2 : GReg) (scope : Scope) (s : State) : Out :=
  syncUnit false (fun v => pure (.semw false (v.extractLsb' 0 32))) d s1 s2 scope s

/-- SEMW.dec (R354). -/
def execSemwDec (d s1 s2 : GReg) (scope : Scope) (s : State) : Out :=
  syncUnit false (fun v => pure (.semw true (v.extractLsb' 0 32))) d s1 s2 scope s

/-! ### Events -/

/-- Whether the object of an operation is a barrier. -/
def atBarrier : SyncOp → Bool
  | .semi _ _ | .semw _ _ => false
  | _ => true

/-- Whether an operation is an engine's subtraction, which goes before the program operations of its tick (R368). -/
def syncLands : SyncOp → Bool
  | .land _ => true
  | _ => false

/-- The requester, by its context identifier, of an event at an object of a home; an engine's subtraction goes first (R17, R368). -/
def syncRequester (s : State) (home i : Nat) (barrier : Bool) (e : Instr) : Option (Nat × Nat) :=
  let own := fun (k x : Nat) => match (s.ctx k x).req with
    | some (.sync _ _ _ h j _) => if h = home ∧ j = i then some (0, (contextId s k x).toNat) else none
    | _ => none
  match e with
  | .barrierArrival c y => if barrier then own c.toNat y.toNat else none
  | .semaphoreAtHome c y => if barrier then none else own c.toNat y.toNat
  | .fabricRequestArrival _ _ ⟨_, .sync h j op origin⟩ =>
    if h.toNat = home ∧ j.toNat = i ∧ atBarrier op = barrier then some (0, if syncLands op then 0 else origin.toNat) else none
  | _ => none

/-- Whether a core's objects are out of a request's reach: its launch's lane there is pre-empted, or at scope `.pod` another launch's
(R202, R341, R370). -/
def syncAway (s : State) (k home : Nat) (scope : Scope) : Bool :=
  s.away (s.core k).launch home || (scope == .pod && !s.mates k home && leftCore s home)

/-- A request of this package reaches its home: it is served in ascending context identifier, or is tried again while the home is evicted; an
arrival at the launch barrier, counted or held, ends the phase point (R202, R276, R349, R368). -/
def syncArrival (s : State) (k x : Nat) (barrier : Bool) (self : Instr) : State :=
  match (s.ctx k x).life, (s.ctx k x).req with
  | .blocked .reply, some (.sync op scope pkg home i _) =>
    if syncAway s k home scope then s.post 256 (.evictionRetryResend (cid k) (xid x))
    else if s.lowerDue 0 (contextId s k x).toNat (syncRequester s home i barrier) then s.postPoll 0 self
    else
      let w : Waiter := { core := k, ctx := x, peer := none, scope := scope, barrier := barrier, index := i, op := op }
      let t := if barrier then barrierAt s home w else semAt s home w
      let arrived := (match op with
        | .barv _ true => launchBarrier s k pkg home i
        | _ => false) && ((t.core home).wake.contains w || match (t.ctx k x).req with
          | some (.answer _ _ _) => true
          | _ => false)
      if arrived then t.modCore k fun c => { c with phasePoint := false } else t
  | _, _ => s

/-- BARRIER_ARRIVAL (R349, R368). -/
def execBarrierArrival (core : CoreId) (ctx : CtxId) (s : State) : Out :=
  .next (syncArrival s core.toNat ctx.toNat true (.barrierArrival core ctx))

/-- SEMAPHORE_AT_HOME (R354, R368). -/
def execSemaphoreAtHome (core : CoreId) (ctx : CtxId) (s : State) : Out :=
  .next (syncArrival s core.toNat ctx.toNat false (.semaphoreAtHome core ctx))

/-- The answer that a unit keeps when the home of a handle of another package has been found in reach (R341, R388). -/
def handleKey (pkg home i : Nat) : Nat := 2 ^ 64 + (pkg * 2 ^ 18 + home * 2 ^ 6 + i)

/-- SYNC_WAITER_ANSWER: the answer of the home reaches its requester, or the reply of a home in another package does; the unit that only
asked whether a handle is in reach issues again; an answer under another number than the request's is none (R202, R276, R341, R352, R367, R370,
R472). -/
def execSyncWaiterAnswer (core : CoreId) (ctx : CtxId) (answer : Option PeerAnswer) (s : State) : Out :=
  let k := core.toNat
  let x := ctx.toNat
  let mine := fun (a : PeerAnswer) (o : Outstanding) => o.isSync k x && o.answeredBy a
  match (s.ctx k x).life, (s.ctx k x).req, answer with
  | .blocked .reply, some (.answer d v phase), none =>
    .next (completeUnit s k x (do
      if phase then updCore fun c => { c with phasePoint := true }
      writeG d v
      pure .next))
  | .blocked .reply, some (.sync op _ pkg home i d), some a =>
    if pkg = s.pkg || !s.hub.outstanding.any (mine a) then .next s
    else
      let s := s.gotPeer (mine a) a.reply
      match a.reply with
      | .value w =>
        match op with
        | .land _ => .next (((s.unpopHeld k x).modCtx k x fun v => { v with
            hostReplies := v.hostReplies ++ [(handleKey pkg home i, 1#64)] }).ready k x)
        | _ => .next (completeUnit s k x (do
            writeG d w
            pure .next))
      | .syncState => .next (completeUnit s k x (stopTrap .syncState))
      | .syncScope => .next (completeUnit s k x (stopTrap .syncScope))
      | .range => .next (completeUnit s k x (stopTrap .operandRange))
      | .retry => .next (s.post 64 (.wakeListRetry core ctx))
      | .eviction => .next (s.post 256 (.evictionRetryResend core ctx))
      | _ => .next (completeUnit s k x (stopTrap .remoteBoundary))
  | _, _, _ => .next (match answer with
    | some a => s.gotPeer (mine a) a.reply
    | none => s)

/-- A refused barrier or semaphore request is sent again, one to another package unless its FABRIC meter is exhausted (R202, R352, R424). -/
def resendSync (s : State) (k x : Nat) : State :=
  match (s.ctx k x).life, (s.ctx k x).req with
  | .blocked .reply, some (.sync op scope pkg home i _) =>
    if pkg ≠ s.pkg then
      if s.meterOut k 1 then s.post 1 (.wakeListRetry (cid k) (xid x))
      else s.sendPeer pkg k x (.sync (cid home) (BitVec.ofNat 6 i) op (contextId s k x))
    else s.postPoll (syncTicks scope false) (if atBarrier op then .barrierArrival (cid k) (xid x) else .semaphoreAtHome (cid k) (xid x))
  | _, _ => s

/-- WAKE_LIST_RETRY: a refused request is sent again (R352); a core that pre-emption has stopped sends nothing again (R370). -/
def execWakeListRetry (core : CoreId) (ctx : CtxId) (s : State) : Out :=
  if (s.core core.toNat).halting.isSome then .next (s.post 1 (.wakeListRetry core ctx)) else .next (resendSync s core.toNat ctx.toNat)

end Sys2Proof.Machine
end

