-- ==== Sys2Proof/Machine/Copy.lean ====
section
/-! DEFINITION. Copy channels: job cards, footprints, granule events, gathers and scatters, and how jobs end (R371 to R391, R395,
R430). -/

namespace Sys2Proof.Machine

/-! ### Job cards -/

def Card.w (c : Card) (i : Nat) : Word := c.getD i 0#64
def Card.src (c : Card) : Word := c.w 0
def Card.dst (c : Card) : Word := c.w 1
def Card.ctl (c : Card) : Word := c.w 2
def Card.sync (c : Card) : Word := c.w 3
def Card.fpt (c : Card) : Word := c.w 4
def Card.rank (c : Card) : Nat := field c.ctl 4 4 + 1
def Card.fill (c : Card) : Bool := c.ctl.getLsbD 11
def Card.sls (c : Card) : Bool := c.ctl.getLsbD 12
def Card.dls (c : Card) : Bool := c.ctl.getLsbD 13

/-- A dimension entry (R375). -/
structure Dim where
  ss : Int
  ds : Int
  b : Nat
  lo : Nat
  him : Nat
  deriving DecidableEq, Repr

def Card.dims (c : Card) : List Dim := (List.range c.rank).map fun i =>
  { ss := ((c.w (5 + 3 * i)).extractLsb' 0 48).toInt, ds := ((c.w (6 + 3 * i)).extractLsb' 0 48).toInt,
    b := field (c.w (7 + 3 * i)) 0 21 + 1, lo := field (c.w (7 + 3 * i)) 21 21, him := field (c.w (7 + 3 * i)) 42 21 }

/-- The bytes of an element (R376). -/
def Card.elem (c : Card) : Nat :=
  match field c.ctl 0 4 with
  | 0 | 4 | 13 => 1
  | 1 | 5 | 8 | 9 => 2
  | 3 | 7 | 11 => 8
  | _ => 4

def boxSize (ds : List Dim) : Nat := ds.foldl (fun a d => a * d.b) 1

/-- The coordinates of an element by its place in box order (R376). -/
def coords : List Dim → Nat → List Nat
  | [], _ => []
  | d :: t, p => p % d.b :: coords t (p / d.b)

/-- Whether an element lies inside the valid range, and its source and destination address (R376). -/
def Card.elemAt (c : Card) (p : Nat) : Bool × Word × Word :=
  let l := c.dims.zip (coords c.dims p)
  let off := fun (f : Dim → Int) => BitVec.ofInt 64 (l.foldl (fun a x => a + x.2 * f x.1) (0 : Int))
  (l.all fun x => decide (x.1.lo ≤ x.2 ∧ x.2 ≤ x.1.him), c.src + off Dim.ss, c.dst + off Dim.ds)

/-- The range of bytes that coordinates between bounds touch: start and length; none where there is no coordinate (R380).
[DEDUCED, log 26] -/
def spanOf (base : Word) (e : Nat) (l : List (Int × Nat × Nat)) : Option (Nat × Nat) :=
  if l.any fun x => decide (x.2.2 < x.2.1) then none
  else
    let low : Int := l.foldl (fun a x => a + min (x.1 * (x.2.1 : Int)) (x.1 * (x.2.2 : Int))) 0
    let high : Int := l.foldl (fun a x => a + max (x.1 * (x.2.1 : Int)) (x.1 * (x.2.2 : Int))) 0
    some ((base + BitVec.ofInt 64 low).toNat, (high - low).toNat + e)

def Card.validBounds (d : Dim) : Nat × Nat := (d.lo, min d.him (d.b - 1))

/-- The read range and the write range of a job (R380). -/
def Card.readRange (c : Card) : Option (Nat × Nat) :=
  spanOf c.src c.elem (c.dims.map fun d => (d.ss, Card.validBounds d))
def Card.writeRange (c : Card) : Option (Nat × Nat) :=
  spanOf c.dst c.elem (c.dims.map fun d => (d.ds, if c.fill then Card.validBounds d else (0, d.b - 1)))

/-! ### Checks -/

/-- An entry of a footprint block: base, size, and whether it is `wr` (R379). -/
structure FpEntry where
  base : Nat
  size : Nat
  write : Bool
  deriving DecidableEq, Repr

/-- The used entries of a footprint block of 16 words, or none where it breaks R379. -/
def footprint (ws : List Word) : Option (List FpEntry) :=
  let es := (List.range 8).map fun k => (ws.getD (2 * k) 0#64, ws.getD (2 * k + 1) 0#64)
  let used := (es.filter fun e => field e.2 0 48 != 0).map fun e =>
    { base := e.1.toNat, size := field e.2 0 48, write := e.2.getLsbD 63 : FpEntry }
  if es.any fun e => field e.2 48 15 != 0 then none
  else if (used.filter (·.write)).length > 4 ∨ (used.filter fun e => !e.write).length > 4 then none
  else some used

/-- Whether a range lies inside a region. -/
def inside (r : Nat × Nat) (e : FpEntry) : Bool := decide (e.base ≤ r.1 ∧ r.1 + r.2 ≤ e.base + e.size)

/-- The entries a job is known by: its block, or its own ranges where it names none (R380). -/
def Card.entries (c : Card) (block : Option (List FpEntry)) : List FpEntry :=
  match block with
  | some es => es
  | none =>
    (match c.readRange with | some r => if c.sls then [] else [⟨r.1, r.2, false⟩] | none => []) ++
    (match c.writeRange with | some r => if c.dls then [] else [⟨r.1, r.2, true⟩] | none => [])

/-- A range of local-store addresses decoded at both ends, which name one core (R189, R388). [DEDUCED, log 27] -/
def lsRange (r : Option (Nat × Nat)) (e : Nat) : U Unit := do
  match r with
  | none => pure ()
  | some (a, n) =>
    let s ← getS
    let me := s.cur.1
    let first := BitVec.ofNat 64 a
    let last := BitVec.ofNat 64 (a + n - e)
    match lsFront me first e false, lsFront me last e false with
    | .ok x, .ok y =>
      if x.core ≠ y.core then stopTrap .localAddress last
      match ownerFault s me x e, ownerFault s me y e with
      | some c, _ => stopTrap c first
      | none, some c => stopTrap c last
      | none, none => pure ()
    | .error c, _ => stopTrap c first
    | _, .error c => stopTrap c last

/-- The checks of a completion signal's handle (R340, R341, R388); the package, core and number of a home in another package that has not
been found in reach yet. -/
def signalCheck (sk : Nat) (scope : Nat) (h : Word) : U (Option (Nat × Nat × Nat)) := do
  if sk = 0 then pure none
  else
    stopIf (h.extractLsb' 25 39 != 0#39 || (sk == 2 && h.getLsbD 5)) .operandRange
    let sc : Scope := [.lane, .core, .quad, .group, .sgrp, .die, .pkg, .pod].getD scope .lane
    let (pkg, home) ← syncHome h sc
    let i := field h 0 6
    let s ← getS
    let v ← curCtx
    pure (if pkg = s.pkg || v.hostReplies.any (·.1 == handleKey pkg home i) then none else some (pkg, home, i))

/-- Ask the package of a handle whether its home is in reach; the unit waits for the reply and issues again (R341, R388). -/
def askHandle (q : Nat × Nat × Nat) (d : GReg) : U After := do
  let (pkg, home, i) := q
  let s ← getS
  let (k, x) := s.cur
  let r := Request.sync (.land 0) .pod pkg home i d
  if s.meterBusy k 1 then meterHold 1 r
  else
    updCtx fun v => { v with req := some r }
    modify fun s => s.sendPeer pkg k x (.sync (cid home) (BitVec.ofNat 6 i) (.land 0) (contextId s k x))
    pure (.hold .reply)

/-- Translate the pages of a range, with their physical addresses (R388). -/
def walkRange (kind : Nat) : Nat → Nat → Nat → U (List (Nat × Nat))
  | 0, _, _ => pure []
  | n + 1, a, last =>
    if a > last then pure []
    else do
      let (pa, e) ← translateU (BitVec.ofNat 64 a) kind
      let t ← walkRange kind n ((a / e.bytes + 1) * e.bytes) last
      pure ((pa, a) :: t)

/-- CapCheck, or CapCheckRead, of a page at a job's issue: the home of a region whose state is not known here is asked for it first (R266, R269,
R270). -/
def checkPageU (write : Bool) (pa : Nat) (ea : Word) : U Unit := do
  let s ← getS
  let (k, x) := s.cur
  let page := pa / 4096
  if !hostResident pa && s.capUnknown k pa && (write || (s.core k).det) then
    match (s.ctx k x).hostReplies.find? (·.1 == capWordKey page) with
    | none => stallOn (.capWord page)
    | some (_, w) =>
      let state := field w 16 2
      let mine := w.getLsbD 12
      stopIf ((state == 2 && write) || (state == 1 && !mine) || (state == 0 && (s.core k).det)) .capability ea
  else if write then capCheckU pa ea
  else capCheckReadU pa ea

/-- Translate every page of a list of regions, and check their capabilities afterwards (R270, R382, R388). -/
def checkRegions (es : List FpEntry) : U Unit := do
  let pages ← es.mapM fun e => do
    let l ← walkRange (if e.write then 1 else 0) (e.size / 4096 + 2) e.base (e.base + e.size - 1)
    pure (e.write, l)
  pages.forM fun p => p.2.forM fun x => checkPageU p.1 x.1 (BitVec.ofNat 64 x.2)

/-- CheckCard (R388, R395): the card and its footprint block, or the fault of the block's address. The regions of the job, and the handle
that another package is to be asked for first. [DEDUCED, log 27] -/
def checkCard (c : Card) (block : Except Cause (Option (List Word))) : U (List FpEntry × Option (Nat × Nat × Nat)) := do
  let e := c.elem
  let ds := c.dims
  let sk := field c.ctl 14 2
  let dimBad := (List.range c.rank).any fun i =>
    field (c.w (5 + 3 * i)) 48 16 != 0 || field (c.w (6 + 3 * i)) 48 16 != 0 || (c.w (7 + 3 * i)).getLsbD 63
  stopIf (field c.ctl 19 29 != 0 || field c.ctl 8 3 != 0 || decide (c.rank > 9) || dimBad) .operandRange
  stopIf (decide (field c.ctl 0 4 ≥ 14) || sk == 3 || (sk != 0 && field c.ctl 16 3 == 0) || decide (boxSize ds > 2 ^ 36))
    .operandRange
  let entries ← match block with
    | .ok (some ws) => match footprint ws with
      | some es => pure (some es)
      | none => stopTrap .operandRange
    | _ => pure (none : Option (List FpEntry))
  let off := fun (x : Int) => x % (e : Int) != 0
  stopIf (c.src.toNat % e != 0 || c.dst.toNat % e != 0 || (ds.any fun d => decide (d.b > 1) && (off d.ss || off d.ds)) ||
    c.fpt.toNat % 64 != 0) .misaligned
  if c.sls then lsRange c.readRange e
  if c.dls then lsRange c.writeRange e
  match block with
  | .error f => stopTrap f c.fpt
  | .ok _ => pure ()
  match ← signalCheck sk (field c.ctl 16 3) c.sync with
  | some q => pure ([], some q)
  | none =>
    match entries with
    | some es =>
      let bad := fun (r : Option (Nat × Nat)) (ls w : Bool) => !ls && (match r with
        | some x => !es.any fun f => f.write == w && inside x f
        | none => false)
      stopIf (bad c.readRange c.sls false || bad c.writeRange c.dls true) .footprint
    | none => pure ()
    let all := c.entries entries
    checkRegions all
    pure (all, none)

/-- The channel of a unit: its number in the package (R371, R395). -/
def channelOf (w : Word) : U Nat := do
  stopIf (decide (w.toNat ≥ 512)) .operandRange
  pure (dieOf (← myCore) * 512 + w.toNat)

/-- The offset of a card or descriptor of `n` bytes (R388, R391, R395). -/
def blockOffset (a : Word) (n : Nat) : U Nat := do
  let off ← ownOffset a
  stopIf (field a 0 6 != 0) .misaligned a
  stopIf (decide (off + n > (← curCore).S)) .outsideScratchpad a
  pure off

/-- Words of the own scratchpad, read as one event that waits on tricks (R195, R374). -/
def ownWords (off n : Nat) : U (List Word) := do
  let c ← curCore
  if c.touched (← myCtx) (wordsOf off (8 * n)) [] then waitOn (.touch (wordsOf off (8 * n)) [])
  pure ((List.range n).map fun i => memWord c.store (off + 8 * i))

/-- Wait for room in a channel (R371). -/
def needRoom (ch : Nat) : U Unit := do
  if ((← getS).chan ch).jobs.length ≥ 16 then waitOn (.channel ch)

/-- Whether regions of two jobs make an edge (R381). -/
def edge (j : Job) (rd wr : List (Nat × Nat)) : Bool :=
  let cross := fun (a b : List (Nat × Nat)) => a.any fun x => b.any fun y => meets x.1 x.2 y.1 y.2
  cross j.wr rd || cross j.rd wr || cross j.wr wr

/-- The engine of a channel wakes (R371, R475). [DEDUCED, log 58] -/
def wakeEngine (s : State) (ch : Nat) : State :=
  let e := ch % 512 / 32
  s.modDie (ch / 512) fun x => { x with engGated := tabErase x.engGated e, engAsleep := x.engAsleep.filter (· != e) }

/-- Place a job on a channel, whose engine wakes: it receives its ID, and the edges of its footprint (R372, R373, R381, R475). -/
def placeJob (ch : Nat) (kind : JobKind) (rd wr : List (Nat × Nat)) : U (BitVec 48) := do
  let s ← getS
  let (k, x) := s.cur
  let c := s.core k
  let q := s.chan ch
  let after := s.chans.flatMap fun e => (e.2.jobs.filter fun j => c.launch.isSome && j.launch == c.launch && edge j rd wr).map
    fun j => (e.1, j.id)
  let j : Job := { id := q.next, core := k, ctx := x, launch := c.launch, lane := c.lane, cls := s.clsOf k, det := c.det,
                   root := c.vmroot, kind := kind, rd := rd, wr := wr, after := after }
  setS ((wakeEngine s ch).modChan ch fun q => { q with next := q.next + 1, jobs := q.jobs ++ [j] })
  postIn 1 (match kind with
    | .cpy _ => .granuleRead (BitVec.ofNat 11 ch) q.next
    | .rows _ _ _ => .gathScatRow (BitVec.ofNat 11 ch) q.next)
  pure q.next

/-- The footprint block that a card names, or why it cannot be read (R379, R388). -/
def footprintBlock (a : Word) : U (Except Cause (Option (List Word))) := do
  let me ← myCore
  if a = 0#64 then pure (.ok none)
  else
    match lsFront me a 1 false with
    | .error f => pure (.error f)
    | .ok l =>
      if l.core ≠ me then pure (.error .localAddress)
      else if a.toNat % 64 ≠ 0 then pure (.ok none)
      else if l.off + 128 > (← curCore).S then pure (.error .outsideScratchpad)
      else pure (.ok (some (← ownWords l.off 16)))

/-- CPY (R388), whose registers are popped in the order that R52 gives. [DEDUCED, log 83] -/
def execCpy (d s1 s2 : GReg) (s : State) : Out :=
  runIrr (do
    let a ← readG s1
    let w ← readG s2
    let ch ← channelOf w
    let off ← blockOffset a 256
    needRoom ch
    let c : Card ← ownWords off 32
    let (es, ask) ← checkCard c (← footprintBlock c.fpt)
    match ask with
    | some q => askHandle q d
    | none =>
      let rd := (es.filter fun e => !e.write).map fun e => (e.base, e.size)
      let wr := (es.filter (·.write)).map fun e => (e.base, e.size)
      let t ← placeJob ch (.cpy c) rd wr
      writeG d (t.setWidth 64)
      pure .next) s

/-- GATH and SCAT (R390, R391), whose registers are popped in the order that R52 gives. [DEDUCED, log 83] -/
def gathScat (scatter : Bool) (d s1 s2 : GReg) : U After := do
  let a ← readG s1
  let c2 ← readG s2
  let ch ← channelOf c2
  let off ← blockOffset a 64
  needRoom ch
  let ws ← ownWords off 8
  let w := fun (i : Nat) => ws.getD i 0#64
  let n := field (w 0) 32 12 + 1
  let row := 8 * (field (w 2) 18 9 + 1)
  let sk := field (w 5) 14 2
  let s ← getS
  let lanes := match s.launchOf s.cur.1 with
    | some l => l.lanes
    | none => 0
  let reserved := field (w 0) 44 20 != 0 || field (w 0) 18 14 != 0 || field (w 1) 18 46 != 0 || field (w 2) 27 5 != 0 ||
    field (w 3) 28 36 != 0 || field (w 3) 12 4 != 0 || field (w 5) 19 29 != 0 || field (w 5) 0 14 != 0 || w 6 != 0#64 || w 7 != 0#64
  stopIf (reserved || field (w 2) 32 32 == 0 || sk == 3 || (sk != 0 && field (w 5) 16 3 == 0) ||
    decide (field (w 3) 0 12 + field (w 3) 16 12 + 1 > lanes)) .operandRange
  stopIf (field (w 0) 0 2 != 0 || field (w 1) 0 3 != 0 || field (w 2) 0 3 != 0) .misaligned
  let c ← curCore
  stopIf (decide (field (w 0) 0 18 + 4 * n > c.S) || decide (field (w 1) 0 18 + n * row > c.S)) .outsideScratchpad
  match ← signalCheck sk (field (w 5) 16 3) (w 4) with
  | some q => askHandle q d
  | none =>
    let list := wordsOf (field (w 0) 0 18) (4 * n)
    if c.touched (← myCtx) list [] then waitOn (.touch list [])
    let idx := (List.range n).map fun i => memRead c.store (field (w 0) 0 18 + 4 * i) 4
    let t ← placeJob ch (.rows scatter ws idx) [] []
    writeG d (t.setWidth 64)
    pure .next

/-- GATH (R391). -/
def execGath (d s1 s2 : GReg) (s : State) : Out := runIrr (gathScat false d s1 s2) s

/-- SCAT (R391). -/
def execScat (d s1 s2 : GReg) (s : State) : Out := runIrr (gathScat true d s1 s2) s

/-! ### Status -/

/-- AtOrPast(v, t) (R372). -/
def atOrPast (v t : BitVec 48) : Bool := decide ((v - t).toNat < 2 ^ 47)

/-- The captured error of a channel as it stood at the start of a tick (R389). -/
def Channel.codeBefore (q : Channel) (now : Nat) : BitVec 3 × BitVec 48 :=
  match q.before with
  | some (t, c, i) => if t = now then (c, i) else (q.code, q.codeId)
  | none => (q.code, q.codeId)

/-- CPY.stat (R389): jobs end after the units of a tick, so DONE stands as at its start. -/
def execCpyStat (d s1 : GReg) (s : State) : Out :=
  runIrr (do
    timingTrap
    let ch ← channelOf (← readG s1)
    let s ← getS
    let q := s.chan ch
    writeG d ((q.codeBefore s.tick).1 ++ 0#13 ++ q.done)
    pure .next) s

/-- CPY.stat.err (R389). -/
def execCpyStatErr (d s1 : GReg) (s : State) : Out :=
  runIrr (do
    timingTrap
    let ch ← channelOf (← readG s1)
    let s ← getS
    let q := s.chan ch
    modify fun s => s.modChan ch fun q => { q with
      code := 0#3, codeId := 0#48, before := some (s.tick, (q.codeBefore s.tick).1, (q.codeBefore s.tick).2) }
    writeG d (q.code ++ 0#13 ++ (if q.code = 0#3 then 0#48 else q.codeId))
    pure .next) s

/-- CPY.stat.wait (R389). -/
def execCpyStatWait (d s1 s2 : GReg) (s : State) : Out :=
  runIrr (do
    let ch ← channelOf (← readG s1)
    let t ← readG s2
    needDest d
    pure (.hold (.copyStat ch (t.extractLsb' 0 48) d))) s

/-- CPY_STAT_WAIT_RELEASE (R389). -/
def execCpyStatWaitRelease (core : CoreId) (ctx : CtxId) (s : State) : Out :=
  let k := core.toNat
  let x := ctx.toNat
  match (s.ctx k x).life with
  | .blocked (.copyStat ch id d) =>
    if atOrPast (s.chan ch).done id then
      .next (completeUnit s k x (do
        writeG d (if (s.chan ch).code = 0#3 then 1#64 else 0#64)
        pure .next))
    else .next (s.postPoll 1 (.cpyStatWaitRelease core ctx))
  | _ => .next s

/-! ### Progress of a job -/

def State.job (s : State) (ch : Nat) (id : BitVec 48) : Option Job := (s.chan ch).jobs.find? (·.id == id)
def State.setJob (s : State) (ch : Nat) (j : Job) : State :=
  s.modChan ch fun q => { q with jobs := q.jobs.map fun i => if i.id = j.id then j else i }

/-- The completion signal of a job: SK, SINC, handle (R374, R390). -/
def Job.signal (j : Job) : Nat × Nat × Word :=
  match j.kind with
  | .cpy c => (field c.ctl 14 2, field c.ctl 48 16, c.sync)
  | .rows _ ws _ => (field (ws.getD 5 0#64) 14 2, field (ws.getD 5 0#64) 48 16, ws.getD 4 0#64)

def chid (ch : Nat) : ChanId := BitVec.ofNat 11 ch

/-- A channel captures its first error since the capture was last cleared (R384). -/
def captureError (s : State) (ch : Nat) (id : BitVec 48) (code : Nat) : State :=
  s.modChan ch fun q => if q.code = 0#3 then { q with code := BitVec.ofNat 3 code, codeId := id } else q

/-- A job goes to its end with an error code, which its channel captures (R383, R384). -/
def failJob (s : State) (ch : Nat) (j : Job) (code : Nat) : State :=
  let s := if code = 2 then s.modHub fun h => { h with refused := h.refused.filter (·.1 != s.partOf j.core) } else s
  ((captureError s ch j.id code).setJob ch { j with code := code, buf := [] }).post 1 (.jobEnd (chid ch) (.own j.id))

/-- Whether a job has to wait wherever it stands: for an edge, or for bytes still owed to a barrier (R344, R381). -/
def jobWaits (s : State) (j : Job) : Bool := (j.after.any fun p => (s.job p.1 p.2).isSome) || decide (j.owed > 0)

/-- Whether a core of a launch is stopped, so that what its jobs have begun completes whatever the budgets hold (R386, R420, R424). -/
def State.hurried (s : State) (launch : Option Nat) : Bool := launch.isSome && s.cores.any fun c => c.2.launch == launch && c.2.halting.isSome

/-- Whether a job pauses at a segment boundary: a core of its launch is being or has been pre-empted, or its COPY meter is exhausted (R385,
R386). -/
def jobPauses (s : State) (j : Job) : Bool :=
  let lost := match j.launch.bind s.launch with
    | some l => l.ending.isNone && (!l.saved.isEmpty || s.hurried j.launch)
    | none => false
  lost || s.away j.launch j.core || s.exhausted j.cls 2

/-- Whether the objects of a home are out of a job's reach: its launch's lane there is pre-empted, or another launch's is (R202, R344). -/
def jobAway (s : State) (j : Job) (home : Nat) : Bool :=
  let mine := match j.launch.bind s.launch with
    | some l => l.cores.contains home
    | none => true
  s.away j.launch home || (!mine && leftCore s home)

/-- The number under which a job's signal awaits the reply of another package. -/
def jobKey (ch : Nat) (id : BitVec 48) : Nat := 2 ^ 60 + ch * 2 ^ 48 + id.toNat

/-- A job's signal leaves for another package, unless it is on its way already, or is put off (R344, R353, R370, R424). -/
def signalPeer (s : State) (ch : Nat) (j : Job) (op : SyncOp) : State :=
  let (_, _, h) := j.signal
  if s.hub.outstanding.any (·.ctx == jobKey ch j.id) || decide (s.tick < j.retryAt) || s.exhausted j.cls 1 then s
  else s.sendPeerAs (h.extractLsb' 18 7).toNat j.core (jobKey ch j.id) j.cls
    (.sync (h.extractLsb' 6 12) (h.extractLsb' 0 6) op (contextId s j.core j.ctx))

/-- Subtract owed bytes from the barrier of a job where it can take them (R344). -/
def payBarrier (s : State) (ch : Nat) (j : Job) : State :=
  let (sk, _, h) := j.signal
  let home := (h.extractLsb' 6 12).toNat
  if sk ≠ 2 ∨ j.owed = 0 then s.setJob ch { j with owed := 0 }
  else if (h.extractLsb' 18 7).toNat ≠ s.pkg then signalPeer (s.setJob ch j) ch j (.land j.owed)
  else if s.savedAt j.launch home && s.dying j.launch then s.setJob ch { j with owed := 0 }
  else if jobAway s j home then s.setJob ch j
  else
    match barrierBytes s home (h.extractLsb' 0 5).toNat j.owed with
    | some t => t.setJob ch { j with owed := 0 }
    | none => s.setJob ch j

/-- What a place in memory or a scratchpad does to an engine access: it goes on, it waits, it waits at the home of a line, it ends the job,
or it needs a word of the host. -/
inductive Reach (α : Type) where
  | ok (a : α)
  | later
  | line (l n : Nat)
  | fail (code : Nat)
  | host (pa : Nat)
  deriving DecidableEq, Repr

/-- A local-store address for an engine: the core and the offset. An evicted store holds it; where the launch is being ended it comes back no
more, and the job is cancelled there (R202, R378, R384). -/
def engineLocal (s : State) (me : Nat) (launch : Option Nat) (ea : Word) (n : Nat) : Reach (Nat × Nat) :=
  match lsFront me ea n false with
  | .error _ => .fail 3
  | .ok a =>
    if s.away launch a.core then .later
    else if s.savedAt launch a.core then .fail 6
    else
      let mates := match launch.bind s.launch with
        | some l => l.cores.contains a.core
        | none => false
      if (a.core ≠ me ∧ mates = false) ∨ a.off + n > (s.core a.core).S then .fail 3 else .ok (a.core, a.off)

/-- Whether ranges of a scratchpad hold an engine off: words of tricks, or a write of the owner's own in this tick (R195, R196, R201,
R378). -/
def engineHeld (s : State) (k : Nat) (loads stores : List (Nat × Nat)) : Bool :=
  let c := s.core k
  c.rangesTouched 16 loads stores || stores.any fun r => c.wroteNow s.tick (wordsOf r.1 r.2)

/-- The address of an engine access under the job's root, its walk charged, or why not (R384, R403, R404, R423, R424). -/
def engineAddress (s : State) (k cls : Nat) (launch : Option Nat) (root ea : Word) (kind : Nat) : Reach Nat × State :=
  if !s.hurried launch && s.walkWaits k cls root ea.toNat then (.later, s)
  else
    let s := s.payWalk k cls root ea.toNat
    match s.translate k root ea kind with
    | .error _ => (.fail 2, s)
    | .ok (pa, _, t) => (.ok pa, t)

/-- What an engine access to a line of device memory waits for at its home (R246, R248, R255, R405, R424). -/
def engineLine (s : State) (i : Instr) (k cls : Nat) (launch : Option Nat) (pa : Nat) (write : Bool) : Option (Reach Unit × State) :=
  let l := pa / 64
  if s.behind i [lineKey l] || s.leaseHeld (· == l) none then some (.line l 1, s)
  else
    match s.needPage pa k write with
    | some t => some (.line l 1, t)
    | none =>
      match probeStopped s Config.hub l write with
      | some (n, t) => some (.line l n, t)
      | none => if !s.podRemote pa && s.exhausted cls 0 && !s.hurried launch then some (.line l 1, s) else none

/-- Bytes of one granule of global memory for an engine, with the state after translation and charges (R234, R236, R255, R378, R384,
R423). -/
def engineRead (s : State) (i : Instr) (k cls : Nat) (launch : Option Nat) (root : Word) (data : List (Nat × Word)) (ea : Word) (n : Nat) :
    Reach (List Byte) × State :=
  match engineAddress s k cls launch root ea 0 with
  | (.ok pa, s) =>
    if hostResident pa then
      let ws := (List.range ((pa % 8 + n + 7) / 8)).map fun i => pa / 8 * 8 + 8 * i
      match ws.find? fun w => (data.find? (·.1 == w)).isNone with
      | some w => (.host w, s)
      | none =>
        let bs := ws.flatMap fun w => match data.find? (·.1 == w) with
          | some e => toBytes 8 e.2.toNat
          | none => []
        (.ok ((bs.drop (pa % 8)).take n), s)
    else
      match engineLine s i k cls launch pa false with
      | some (.line l n, t) => (.line l n, t)
      | some (_, t) => (.later, t)
      | none =>
        let s := s.unhold i
        (.ok (memBytes s.mem pa n), if s.podRemote pa then s else s.charge cls 0 1)
  | (.fail e, s) => (.fail e, s)
  | (_, s) => (.later, s)

/-- The bytes that elements place in their granule, by offset: of those that fall on one byte the latest stands (R377). -/
def granuleBytes (bs : List (Word × List Byte)) : Tab Byte :=
  bs.foldl (fun t b => (List.range b.2.length).foldl (fun t i => tabSet t (b.1.toNat % 64 + i) (b.2.getD i 0#8)) t) []

/-- Bytes by offset as runs of bytes side by side. -/
def runsOf : Tab Byte → List (Nat × List Byte)
  | [] => []
  | (o, b) :: t =>
    match runsOf t with
    | (p, bs) :: r => if p = o + 1 then (o, b :: bs) :: r else (o, [b]) :: (p, bs) :: r
    | [] => [(o, [b])]

/-- Write the bytes of one granule of global memory as one event (R218, R225, R233, R270, R377, R405, R423). -/
def engineWrite (s : State) (i : Instr) (k cls : Nat) (launch : Option Nat) (root : Word) (holder : Nat × Nat × Bool) (bs : List (Word × List Byte)) :
    Reach Unit × State :=
  match engineAddress s k cls launch root ((bs.head?.map (·.1)).getD 0#64) 1 with
  | (.ok pa, s) =>
    let base := pa / 64 * 64
    let l := pa / 64
    if hostResident pa then (.ok (), (runsOf (granuleBytes bs)).foldl (fun s b => s.sendPort cls (.hostWrite (base + b.1) b.2)) s)
    else
      match engineLine s i k cls launch pa true with
      | some r => r
      | none =>
        if s.capFails k pa holder.1 holder.2.1 holder.2.2 then (.fail 1, s)
        else
          match s.writeEvent (s.near k) [l] none false with
          | none => (.line l 1, s)
          | some s =>
            let s := { s with mem := (granuleBytes bs).foldl (fun m (b : Nat × Byte) => memSet m (base + b.1) b.2) s.mem }
            let s := ((s.unhold i).invalidate [l] none).noteDirty [l]
            (.ok (), if s.podRemote pa then s else s.charge cls 0 1)
  | (.fail e, s) => (.fail e, s)
  | (_, s) => (.later, s)

/-- The next elements of a CPY job that one event reads, with the place after them: of one source granule, and no more than its segment has
room for (R234, R377, R385). [DEDUCED, log 25] -/
def chunkOf (c : Card) (total : Nat) : Nat → Nat → Option Nat → Nat → List (Nat × Bool) × Nat
  | 0, _, _, p => ([], p)
  | n + 1, room, sg, p =>
    if p ≥ total ∨ room = 0 then ([], p)
    else
      let (ins, sa, _) := c.elemAt p
      if !ins && c.fill then chunkOf c total n room sg (p + 1)
      else
        let g := sa.toNat / 64
        if ins && sg.any (· != g) then ([], p)
        else
          let r := chunkOf c total n (room - 1) (if ins then some g else sg) (p + 1)
          ((p, ins) :: r.1, r.2)

/-- Whether one of the `n` elements from a place in box order on is written into a granule. -/
def Card.writesFrom (c : Card) (g : Nat) : Nat → Nat → Bool
  | 0, _ => false
  | n + 1, p =>
    let (ins, _, da) := c.elemAt p
    ((ins || !c.fill) && da.toNat / 64 == g) || c.writesFrom g n (p + 1)

/-- A granule of which every element has been read: it is written next, once and whole (R233, R377). -/
def Card.readyGranule (c : Card) (j : Job) : Option Nat :=
  (j.buf.map fun b => b.1.toNat / 64).find? fun g => !c.writesFrom g (boxSize c.dims - j.pos) j.pos

/-- Whether a job stands at a segment boundary, what it began being complete (R385, R386). -/
def Job.atBoundary (j : Job) : Bool :=
  j.code != 0 || match j.kind with
    | .cpy c => j.seg == 0 && (c.readyGranule j).isNone
    | .rows _ _ _ => true

/-- Ask the host for a word on behalf of a job, whatever its meter holds while its launch is stopped (R236, R386, R424). -/
def jobHost (s : State) (ch : Nat) (j : Job) (pa : Nat) : State :=
  let read := Outgoing.hostRead pa (.job (chid ch) j.id)
  let t := s.setJob ch { j with hostWait := some pa }
  if j.hostWait = some pa then s
  else if s.hurried j.launch then (t.charge j.cls 1 1).emit read
  else t.sendPort j.cls read

/-- The source addresses of the elements of a chunk that are read: the lowest, and the bytes from there on. -/
def chunkSpan (c : Card) (es : List (Nat × Bool)) : Option (Word × Nat) :=
  let sas := (es.filter (·.2)).map fun e => (c.elemAt e.1).2.1
  sas.head?.map fun a =>
    let low := sas.foldl (fun m x => if x.toNat < m.toNat then x else m) a
    (low, sas.foldl (fun m x => max m (x.toNat + c.elem - low.toNat)) 0)

/-- The elements of a chunk with their bytes (R376). -/
def chunkBytes (s : State) (i : Instr) (j : Job) (c : Card) (es : List (Nat × Bool)) : Reach (List (Word × List Byte)) × State :=
  let low := ((chunkSpan c es).map (·.1)).getD 0#64
  let at_ := fun (p : Nat) => (c.elemAt p).2.1.toNat - low.toNat
  let place := fun (bs : List Byte) => es.map fun (e : Nat × Bool) =>
    ((c.elemAt e.1).2.2, if e.2 then (bs.drop (at_ e.1)).take c.elem else List.replicate c.elem 0#8)
  match chunkSpan c es with
  | none => (.ok (place []), s)
  | some (_, n) =>
    if c.sls then
      match engineLocal s j.core j.launch low 1, engineLocal s j.core j.launch (low + BitVec.ofNat 64 (n - c.elem)) c.elem with
      | .ok (k, off), .ok _ =>
        if engineHeld s k ((es.filter (·.2)).map fun e => (off + at_ e.1, c.elem)) [] then (.later, s)
        else (.ok (place (memBytes (s.core k).store off n)), s)
      | .fail e, _ => (.fail e, s)
      | _, .fail e => (.fail e, s)
      | _, _ => (.later, s)
    else
      match engineRead s i j.core j.cls j.launch j.root j.hostData low n with
      | (.ok b, s) => (.ok (place b), s)
      | (.later, s) => (.later, s)
      | (.line l n, s) => (.line l n, s)
      | (.fail e, s) => (.fail e, s)
      | (.host p, s) => (.host p, s)

/-- GRANULE_READ: one source granule of a job is read at its own event; a granule whose elements have all been read is written first, and at
a segment boundary the job pauses or is cancelled (R234, R376, R377, R384 to R386). [DESIGN CHOICE, log 19] -/
def execGranuleRead (chan : ChanId) (job : BitVec 48) (s : State) : Out :=
  let ch := chan.toNat
  let i := Instr.granuleRead chan job
  match s.job ch job with
  | none => .next (s.unhold i)
  | some j =>
    match j.kind with
    | .rows _ _ _ => .next s
    | .cpy c =>
      let again := fun (s : State) => Host.Outcome.next (s.post 1 i)
      let total := boxSize c.dims
      if j.code ≠ 0 then .next (s.unhold i)
      else if jobWaits s j then again (payBarrier s ch j)
      else if (c.readyGranule j).isSome then .next (s.post 0 (.granuleWrite chan job))
      else if j.pos ≥ total then .next (s.post 1 (.jobEnd chan (.own job)))
      else if j.seg = 0 ∧ j.cancelled = true then .next (failJob (s.unhold i) ch j 6)
      else if j.seg = 0 ∧ jobPauses s j = true then again s
      else
        let (es, pos) := chunkOf c total 4096 ((4096 - j.seg) / c.elem) none j.pos
        match chunkBytes s i j c es with
        | (.ok l, s) => again (s.setJob ch { j with
            pos := pos, buf := j.buf ++ l, seg := if pos ≥ total then 0 else (j.seg + es.length * c.elem) % 4096, hostWait := none,
            hostData := [] })
        | (.later, s) => again s
        | (.line l n, s) => .next (s.hold i [lineKey l] n)
        | (.fail e, s) => .next (failJob (s.unhold i) ch j e)
        | (.host p, s) => again (jobHost s ch j p)

/-- Runs of bytes that an engine deposits in a core's scratchpad (R201, R378). -/
def depositRuns (s : State) (k : Nat) (runs : List (Nat × List Byte)) : State :=
  (wakeAgent s k).modCore k fun x => noteDeposit { x with store := runs.foldl (fun m (r : Nat × List Byte) => memPut m r.1 r.2) x.store } s.tick
    (runs.flatMap fun r => wordsOf r.1 r.2.length)

/-- Write the bytes of one granule of a scratchpad as one event (R201, R377, R378). -/
def engineDeposit (s : State) (j : Job) (bs : List (Word × List Byte)) : Reach Unit × State :=
  let a := (bs.head?.map (·.1)).getD 0#64
  let low := bs.foldl (fun (m : Nat) (b : Word × List Byte) => min m b.1.toNat) a.toNat
  let high := bs.foldl (fun (m : Nat) (b : Word × List Byte) => max m (b.1.toNat + b.2.length)) 0
  match engineLocal s j.core j.launch (BitVec.ofNat 64 low) 1, engineLocal s j.core j.launch (BitVec.ofNat 64 (high - 1)) 1 with
  | .ok (k, off), .ok _ =>
    let base := off / 64 * 64
    let runs := (runsOf (granuleBytes bs)).map fun (r : Nat × List Byte) => (base + r.1, r.2)
    if engineHeld s k [] (runs.map fun (r : Nat × List Byte) => (r.1, r.2.length)) then (.later, s)
    else (.ok (), depositRuns s k runs)
  | .fail e, _ => (.fail e, s)
  | _, .fail e => (.fail e, s)
  | _, _ => (.later, s)

/-- GRANULE_WRITE: the granule of a CPY job whose elements have all been read is written as one event (R233, R270, R377, R383 to R385).
[DESIGN CHOICE, log 16] -/
def execGranuleWrite (chan : ChanId) (job : BitVec 48) (s : State) : Out :=
  let ch := chan.toNat
  let i := Instr.granuleWrite chan job
  match s.job ch job with
  | none => .next (s.unhold i)
  | some j =>
    match j.kind with
    | .rows _ _ _ => .next s
    | .cpy c =>
      match c.readyGranule j with
      | none => .next (s.unhold i)
      | some g =>
        let mine := fun (b : Word × List Byte) => b.1.toNat / 64 == g
        let bs := j.buf.filter mine
        let r := if c.dls then engineDeposit s j bs
          else engineWrite s i j.core j.cls j.launch j.root (j.launch.getD 0, j.lane, j.det) bs
        match r with
        | (.ok (), t) =>
          let j := { j with buf := j.buf.filter (fun b => !mine b), owed := (granuleBytes bs).length }
          .next ((payBarrier (t.charge j.cls 2 1) ch j).post 1 (.granuleRead chan job))
        | (.line l n, t) => .next (t.hold i [lineKey l] n)
        | (.fail e, t) => .next (failJob (t.unhold i) ch j e)
        | (_, t) => .next (t.post 1 i)

/-- The 64-byte granules of a range of bytes. -/
def granuleCount (a n : Nat) : Nat := (a % 64 + n + 63) / 64

/-- GATH_SCAT_ROW: the next row of a gather or scatter, a segment of its own (R201, R378, R384, R385, R391). -/
def execGathScatRow (chan : ChanId) (job : BitVec 48) (s : State) : Out :=
  let ch := chan.toNat
  match s.job ch job with
  | none => .next s
  | some j =>
    match j.kind with
    | .cpy _ => .next s
    | .rows scatter ws idx =>
      let again := fun (s : State) => Host.Outcome.next (s.post 1 (.gathScatRow chan job))
      if j.code ≠ 0 ∧ j.code ≠ 4 then .next s
      else if jobWaits s j then again (payBarrier s ch j)
      else if j.cancelled then .next (failJob s ch j 6)
      else if jobPauses s j then again s
      else
        match idx[j.pos]? with
        | none => .next (s.post 1 (.jobEnd chan (.own job)))
        | some i =>
          let w := fun (n : Nat) => ws.getD n 0#64
          let row := 8 * (field (w 2) 18 9 + 1)
          let mine := field (w 1) 0 18 + j.pos * row
          let p := field (w 3) 16 12 + 1
          let lane := field (w 3) 0 12 + i % p
          let off := field (w 2) 0 18 + i / p * row
          let put := fun (s : State) (j : Job) (k a : Nat) (bs : List Byte) =>
            let s := (depositRuns s k [(a, bs)]).charge j.cls 2 (granuleCount a row)
            again (payBarrier s ch { j with pos := j.pos + 1, owed := row })
          if i ≥ field (w 2) 32 32 then
            let s := captureError s ch j.id 4
            let j := { j with code := 4 }
            if scatter then again (s.setJob ch { j with pos := j.pos + 1 })
            else if engineHeld s j.core [] [(mine, row)] then again s
            else put s j j.core mine (List.replicate row 0#8)
          else
            match (j.launch.bind s.launch).bind fun l => l.cores[lane]? with
            | none => .next (failJob s ch j 3)
            | some owner =>
              if s.away j.launch owner then again s
              else if s.savedAt j.launch owner then .next (failJob s ch j 6)
              else if off + row > (s.core owner).S then .next (failJob s ch j 3)
              else
                let (from_, fo, to_, ta) := if scatter then (j.core, mine, owner, off) else (owner, off, j.core, mine)
                if engineHeld s from_ [(fo, row)] [] || engineHeld s to_ [] [(ta, row)] then again s
                else put s j to_ ta (memBytes (s.core from_).store fo row)

/-! ### Ends and records -/

/-- DONE advances over the jobs that have ended (R372). -/
def advance : Nat → Channel → Channel
  | 0, q => q
  | n + 1, q =>
    if q.endedAhead.contains (q.done + 1) then
      advance n { q with done := q.done + 1, endedAhead := q.endedAhead.filter (· != q.done + 1) }
    else q

/-- A job leaves its channel (R371, R372), and its engine may be idle from then on, and is gated 10 µs later (R475). -/
def removeJob (s : State) (ch : Nat) (j : Job) : State :=
  ((s.post (10 * Config.microsecond) (.agentGate (.engine (BitVec.ofNat 2 (ch / 512)) (BitVec.ofNat 4 (ch % 512 / 32))))).modDie (ch / 512) fun d => { d with engLast := tabSet d.engLast (ch % 512 / 32) s.tick }).modChan ch fun q =>
    let q := { q with jobs := q.jobs.filter (·.id != j.id), endedAhead := q.endedAhead ++ [j.id] }
    advance q.endedAhead.length q

/-- A record that parks nothing is left for its core's trap queue (R430). -/
def leaveRecord (s : State) (k x : Nat) (t : TrapInfo) (job : Option (Nat × BitVec 48)) : State :=
  (s.modCore k fun c => { c with trapWait := c.trapWait ++ [{ ctx := x, info := t, job := job }] }).post 0
    (.trapRecordEnqueue (cid k))

/-- The record of an error of a channel or a stream (R384, R431). -/
def copyRecord (code ch : Nat) (id : BitVec 48) : TrapInfo :=
  { cause := if code = 1 then .capability else .copyError, aux := id ++ BitVec.ofNat 7 code ++ BitVec.ofNat 9 (ch % 512) }

/-- The reply of another package to a job's signal (R344, R353, R370, R383). -/
def jobAnswer (s : State) (ch : Nat) (j : Job) (r : PeerReply) : State :=
  let done := if j.owed > 0 then s.setJob ch { j with owed := 0 } else removeJob s ch j
  match r with
  | .retry => s.setJob ch { j with retryAt := s.tick + 64 }
  | .eviction => s.setJob ch { j with retryAt := s.tick + 256 }
  | _ => done

/-- JOB_END: a job without error adds its semaphore increment, as one event at its home, and then ends; one with an error ends once its
record is enqueued; or the reply of another package to its signal has come (R353, R383, R384, R430). -/
def execJobEnd (chan : ChanId) (turn : JobTurn) (s : State) : Out :=
  let ch := chan.toNat
  match turn with
  | .answered job a =>
    let mine := fun (o : Outstanding) => o.ctx == jobKey ch job && o.answeredBy a
    if !s.hub.outstanding.any mine then .next s
    else
      let s := s.gotPeer mine a.reply
      match s.job ch job with
      | some j => .next (jobAnswer s ch j a.reply)
      | none => .next s
  | .own job =>
    match s.job ch job with
    | none => .next s
    | some j =>
      let again := Host.Outcome.next (s.post 1 (.jobEnd chan (.own job)))
      if j.owed > 0 then .next ((payBarrier s ch j).post 1 (.jobEnd chan (.own job)))
      else if j.code = 0 then
        let (sk, inc, h) := j.signal
        let home := (h.extractLsb' 6 12).toNat
        if sk ≠ 1 then .next (removeJob s ch j)
        else if (h.extractLsb' 18 7).toNat ≠ s.pkg then
          .next ((signalPeer s ch j (.semi false (BitVec.ofNat 32 inc))).post 1 (.jobEnd chan (.own job)))
        else if s.savedAt j.launch home && s.dying j.launch then .next (removeJob s ch j)
        else if jobAway s j home then again
        else
          let i := (h.extractLsb' 0 6).toNat
          .next (removeJob (s.setSem home i ((s.core home).sem i + BitVec.ofNat 32 inc)) ch j)
      else if j.code = 6 ∨ j.reported then .next (removeJob s ch j)
      else if s.away j.launch j.core then again
      else if (s.core j.core).launch ≠ j.launch then .next (removeJob s ch j)
      else .next (leaveRecord (s.setJob ch { j with reported := true }) j.core j.ctx (copyRecord j.code ch j.id) (some (ch, j.id)))

/-- Records of a queue that park nothing: their PARKED bit is 0 (R431). -/
def freeRecords (q : List TrapRecord) : Nat := (q.filter fun r => !(r.getD 2 0#8).getLsbD 4).length

/-- TRAP_RECORD_ENQUEUE: the waiting record of the lowest context enters the queue when an unreserved entry is free; then the job that
it reports ends (R430). -/
def execTrapRecordEnqueue (core : CoreId) (s : State) : Out :=
  let k := core.toNat
  let c := s.core k
  match c.trapWait with
  | [] => .next s
  | first :: _ =>
    let w := c.trapWait.foldl (fun a b => if b.ctx < a.ctx then b else a) first
    let job := fun (s : State) => match w.job with
      | some (ch, id) => s.post 1 (.jobEnd (chid ch) (.own id))
      | none => s
    if s.ended k then .next (job (s.setCore k { c with trapWait := c.trapWait.erase w }))
    else if freeRecords c.trapq ≥ 17 then .next (s.post 1 (.trapRecordEnqueue core))
    else
      let x := c.ctx w.ctx
      let r := trapRecord c x w.ctx ⟨0#64, 0, 0#32, none⟩ x.retire w.info false
      let s := (s.setCore k { c with trapWait := c.trapWait.erase w }).enqueueRecord k false r
      .next (job s)

end Sys2Proof.Machine
end

