-- ==== Sys2Proof/Machine/Streams.lean ====
section
/-! DEFINITION. Streams: vector registers bound to rows of strips in memory (R156, R387, R392 to R395), and the host's replies to
loads of contexts, jobs and streams (R236). -/

namespace Sys2Proof.Machine

/-- A vector register field in 24 to 31 names a stream register (R387). -/
def bindStream (d : GReg) (k : VReg) (m : Stream) : U After := do
  let v ← curCtx
  stopIf (tabFind v.streams k.toNat).isSome .streamBusy
  let s ← getS
  updCtx fun v => { v with streams := tabSet v.streams k.toNat m }
  if !m.out then postIn 1 (.streamStripFill (cid s.cur.1) (xid s.cur.2) k)
  writeG d 1#64
  pure .next

/-- A base and the strides that are used must be multiples of 8 (R392). [DEDUCED, log 28] -/
def stripAligned (base : Word) (dims : List (Nat × Int)) : U Unit :=
  stopIf (field base 0 3 != 0 || dims.any fun d => decide (d.1 > 1) && d.2 % 8 != 0) .misaligned base

/-- STRM of an affine form (R392, R393). -/
def strmAffine (out : Bool) (d : GReg) (k : VReg) (s1 : GReg) : U After := do
  let base ← readG s1
  let stride ← readG (s1 + 1)
  let n ← readG (s1 + 2)
  stopIf (n == 0#64 || decide (n.toNat > 2 ^ 32)) .operandRange
  let dims := [(n.toNat, stride.toInt)]
  stripAligned base dims
  let root := (← curCore).vmroot
  bindStream d k { out := out, ls := false, base := base, dims := dims, next := 0, buf := [], err := false, root := root }

/-- STRM of a descriptor form (R392, R393). -/
def strmDescr (out : Bool) (d : GReg) (k : VReg) (s1 : GReg) : U After := do
  let off ← blockOffset (← readG s1) 64
  let ws ← ownWords off 8
  let w := fun (i : Nat) => ws.getD i 0#64
  let e := field (w 1) 1 2 + 1
  stopIf (field (w 1) 28 36 != 0 || field (w 1) 3 13 != 0 || w 6 != 0#64 || w 7 != 0#64 ||
    (List.range 4).any fun i => decide (e ≤ i) && w (2 + i) != 0#64) .operandRange
  let dims := (List.range e).map fun i => (field (w (2 + i)) 48 16 + 1, ((w (2 + i)).extractLsb' 0 48).toInt)
  stripAligned (w 0) dims
  let root := (← curCore).vmroot
  bindStream d k { out := out, ls := (w 1).getLsbD 0, base := w 0, dims := dims, next := 0, buf := [], err := false, root := root }

/-- STRM.in (R392, R393); the prefetch distance has no architectural effect. -/
def execStrmIn (d : GReg) (v : VReg) (s1 : GReg) (_f : BitVec 5) (s : State) : Out := runIrr (strmAffine false d v s1) s

/-- STRM.out (R392, R393). -/
def execStrmOut (d : GReg) (v : VReg) (s1 : GReg) (_f : BitVec 5) (s : State) : Out := runIrr (strmAffine true d v s1) s

/-- STRM.in.d (R392, R393). -/
def execStrmInD (d : GReg) (v : VReg) (s1 : GReg) (_f : BitVec 5) (s : State) : Out := runIrr (strmDescr false d v s1) s

/-- STRM.out.d (R392, R393). -/
def execStrmOutD (d : GReg) (v : VReg) (s1 : GReg) (_f : BitVec 5) (s : State) : Out := runIrr (strmDescr true d v s1) s

/-- STRM.off (R393). -/
def execStrmOff (d : GReg) (v : VReg) (s : State) : Out :=
  runIrr (do
    let x ← curCtx
    match tabFind x.streams v.toNat with
    | none => writeG d 0#64
    | some m =>
      if m.out && !m.buf.isEmpty then waitOn (.strmOff v.toNat)
      updCtx fun x => { x with streams := tabErase x.streams v.toNat }
      writeG d (if m.err then 0#64 else 1#64)
    pure .next) s

/-- The address of strip `y` of a stream (R392). -/
def Stream.addr (m : Stream) (y : Nat) : Word :=
  let step := fun (a : Word × Nat) (d : Nat × Int) => (a.1 + BitVec.ofInt 64 (((a.2 % d.1 : Nat) : Int) * d.2), a.2 / d.1)
  (m.dims.foldl step (m.base, y)).1

/-- The granules of the 256 bytes at an address: start and length. -/
def granulesOf (a : Word) : List (Word × Nat) :=
  let o := a.toNat % 64
  ((List.range (if o = 0 then 4 else 5)).map fun i =>
    if i = 0 then (a, min 256 (64 - o)) else (a + BitVec.ofNat 64 (64 * i - o), if i = 4 then o else 64))

/-- The trap that a fill fault becomes (R393, R402). -/
def fillFault (s : State) (k : Nat) (m : Stream) (ea : Word) : TrapInfo :=
  if m.ls then
    match lsFront k ea 8 false with
    | .error c => { cause := c, addr := ea }
    | .ok a => { cause := (ownerFault s k a 8).getD .outsideScratchpad, addr := ea }
  else
    match s.translate k m.root ea 0 with
    | .error f => f.trap ea 0
    | .ok _ => { cause := .capability, addr := ea }

/-- The granules of a strip from its byte `n` on. -/
def granulesLeft (a : Word) (n : Nat) : List (Word × Nat) := (granulesOf a).filter fun g => decide (n ≤ (g.1 - a).toNat)

/-- Read one granule of a strip (R255, R269, R378, R393, R394). -/
def readGranule (s : State) (i : Instr) (k : Nat) (m : Stream) (ea : Word) (n : Nat) : Reach (List Byte) × State :=
  if m.ls then
    match engineLocal s k (s.core k).launch ea 8 with
    | .ok (c, off) =>
      if off + n > (s.core c).S then (.fail 3, s)
      else if engineHeld s c [(off, n)] [] then (.later, s)
      else (.ok (memBytes (s.core c).store off n), s)
    | .fail e => (.fail e, s)
    | _ => (.later, s)
  else
    match engineAddress s k (s.clsOf k) (s.core k).launch m.root ea 0 with
    | (.ok pa, s) =>
      let (tag, lane, det) := s.holderOf k
      if s.capReadFails k pa tag lane det then (.fail 1, s) else engineRead s i k (s.clsOf k) (s.core k).launch m.root m.hostData ea n
    | (.fail e, s) => (.fail e, s)
    | (_, s) => (.later, s)

def State.setStream (s : State) (k x n : Nat) (m : Stream) : State :=
  s.modCtx k x fun v => { v with streams := tabSet v.streams n m }

/-- A filled strip joins its stream's buffer. -/
def Stream.filled (m : Stream) (p : Strip) : Stream :=
  { m with buf := m.buf ++ [p], part := [], next := m.next + 1, hostWait := none, hostData := [] }

/-- Ask the host for a word on behalf of a stream (R236, R424). -/
def streamHost (s : State) (k x n : Nat) (m : Stream) (pa : Nat) : State :=
  if m.hostWait = some pa then s
  else (s.setStream k x n { m with hostWait := some pa }).sendPort (s.clsOf k) (.hostRead pa (.stream (cid k) (xid x) (BitVec.ofNat 5 n)))

/-- STREAM_STRIP_FILL: an input stream reads the next granule of its next strip, while its buffer has room (R393, R394). -/
def execStreamStripFill (core : CoreId) (ctx : CtxId) (r : VReg) (s : State) : Out :=
  let k := core.toNat
  let x := ctx.toNat
  let n := r.toNat
  let v := s.ctx k x
  let i := Instr.streamStripFill core ctx r
  let again := fun (s : State) => Host.Outcome.next (s.post 1 i)
  match tabFind v.streams n with
  | none => .next (s.unhold i)
  | some m =>
    if m.out ∨ m.next ≥ m.total then .next s
    else if m.buf.length + v.stripsHeld n ≥ Config.streamDepth then again s
    else
      match granulesLeft (m.addr m.next) m.part.length with
      | [] => again (s.setStream k x n (m.filled { index := m.next, data := BitVec.ofNat 2048 (ofBytes m.part), pred := BitVec.allOnes 256 }))
      | (ea, c) :: _ =>
        match readGranule s i k m ea c with
        | (.ok b, s) => again (s.setStream k x n { m with part := m.part ++ b, hostWait := none, hostData := [] })
        | (.later, s) => again s
        | (.line l c, s) => .next (s.hold i [lineKey l] c)
        | (.fail _, s) =>
          again ((s.unhold i).setStream k x n (m.filled { index := m.next, data := 0#2048, pred := 0#256, fault := some (fillFault s k m ea) }))
        | (.host pa, s) => again (streamHost s k x n m pa)

/-- The bytes of one granule of a strip whose predicate bits are 1: a predicate whose bits differ within an element stores by bytes (R156,
R393). [DEDUCED, log 61] -/
def stripBytes (p : Strip) (first n : Nat) (ea : Word) : List (Word × List Byte) :=
  ((List.range n).filter fun i => p.pred.getLsbD (first + i)).map fun i =>
    (ea + BitVec.ofNat 64 i, [p.data.extractLsb' (8 * (first + i)) 8])

/-- The first granule of a strip that still has bytes to write: its bytes, and where in the strip it lies. -/
def stripGranule (m : Stream) (p : Strip) : Option (List (Word × List Byte) × Nat × Nat) :=
  let a := m.addr p.index
  (granulesOf a).findSome? fun g =>
    let first := (g.1 - a).toNat
    match stripBytes p first g.2 g.1 with
    | [] => none
    | bs => some (bs, first, g.2)

/-- A strip without the bytes of a granule that has been written. -/
def Strip.written (p : Strip) (first n : Nat) : Strip :=
  { p with pred := p.pred &&& ~~~((BitVec.ofNat 256 (2 ^ n - 1)) <<< first), begun := true }

/-- Write one granule of a strip (R201, R270, R378, R393). -/
def writeGranule (s : State) (i : Instr) (k : Nat) (m : Stream) (bs : List (Word × List Byte)) : Reach Unit × State :=
  if m.ls then
    let a := (bs.head?.map (·.1)).getD 0#64
    match engineLocal s k (s.core k).launch a 1 with
    | .ok (c, off) =>
      let runs := (runsOf (granuleBytes bs)).map fun (r : Nat × List Byte) => (off / 64 * 64 + r.1, r.2)
      if runs.any fun (r : Nat × List Byte) => decide (r.1 + r.2.length > (s.core c).S) then (.fail 3, s)
      else if engineHeld s c [] (runs.map fun (r : Nat × List Byte) => (r.1, r.2.length)) then (.later, s)
      else (.ok (), depositRuns s c runs)
    | .fail e => (.fail e, s)
    | _ => (.later, s)
  else engineWrite s i k (s.clsOf k) (s.core k).launch m.root (s.holderOf k) bs

/-- STREAM_STRIP_WRITE: the next granule of the oldest committed strip of an output stream is written, or ends the stream with an error and
a record; between strips the stream pauses for the COPY meter (R384, R385, R393, R394). -/
def execStreamStripWrite (core : CoreId) (ctx : CtxId) (r : VReg) (s : State) : Out :=
  let k := core.toNat
  let x := ctx.toNat
  let n := r.toNat
  let v := s.ctx k x
  let i := Instr.streamStripWrite core ctx r
  let again := fun (s : State) => Host.Outcome.next (s.post 1 i)
  match tabFind v.streams n with
  | none => .next (s.unhold i)
  | some m =>
    match m.buf with
    | [] => .next (s.unhold i)
    | p :: rest =>
      if !m.out then .next s
      else
        match stripGranule m p with
        | none => .next (s.setStream k x n { m with buf := rest })
        | some (bs, first, c) =>
          if !p.begun && s.meterOut k 2 then again s
          else
            match writeGranule s i k m bs with
            | (.ok (), t) => again ((t.charge (t.clsOf k) 2 1).setStream k x n { m with buf := p.written first c :: rest })
            | (.line l c, t) => .next (t.hold i [lineKey l] c)
            | (.fail e, t) =>
              .next (leaveRecord ((t.unhold i).setStream k x n { m with err := true, buf := [] }) k x (copyRecord e 0 0#48) none)
            | (_, t) => again t

/-- After a resume the strips that met a fault are filled afresh (R393). [DEDUCED, log 32] -/
def refill (s : State) (k x : Nat) : State :=
  (s.ctx k x).streams.foldl (fun s e =>
    if e.2.out then s
    else
      match e.2.buf.find? (·.fault.isSome) with
      | none => s
      | some p =>
        (s.setStream k x e.1 { e.2 with next := p.index, part := [], buf := e.2.buf.filter fun q => decide (q.index < p.index) }).post 1
          (.streamStripFill (cid k) (xid x) (BitVec.ofNat 5 e.1))) s

/-- HOST_LOAD_REPLY: the host's value for a word that a context, a stream, a job or a Dealer waits for (R236, R378, R393, R414); no one else
takes it. -/
def execHostLoadReply (reader : HostReader) (pa : BitVec 52) (value : BitVec 64) (s : State) : Out :=
  let got := (pa.toNat, value)
  match reader with
  | .ctx core ctx =>
    let (k, x) := (core.toNat, ctx.toNat)
    if (s.ctx k x).life = .blocked (.hostLoad pa.toNat) then
      .next ((s.modCtx k x fun v => { v with hostReplies := v.hostReplies ++ [got] }).ready k x)
    else .next s
  | .stream core ctx r =>
    let (k, x, n) := (core.toNat, ctx.toNat, r.toNat)
    match tabFind (s.ctx k x).streams n with
    | some m => if m.hostWait = some pa.toNat then .next (s.setStream k x n { m with hostWait := none, hostData := m.hostData ++ [got] }) else .next s
    | none => .next s
  | .job chan id =>
    match s.job chan.toNat id with
    | some j => if j.hostWait = some pa.toNat then .next (s.setJob chan.toNat { j with hostWait := none, hostData := j.hostData ++ [got] }) else .next s
    | none => .next s
  | .dealer =>
    if s.hub.dealWait = some pa.toNat then .next (s.modHub fun h => { h with dealWait := none, dealWords := h.dealWords ++ [got] }) else .next s

end Sys2Proof.Machine
end

