-- ==== Sys2Proof/Machine/System.lean ====
section
/-! DEFINITION. System instructions: TCUT, FENCE, ACQ, REL, the SYS forms, the control registers, TLBI (R238 to R240, R406, R407,
R436 to R439). -/

namespace Sys2Proof.Machine

/-! ### TCUT, FENCE, ACQ, REL -/

/-- TCUT (R239): the trick has been cut and every far atomic performed before it retires. -/
def execTcut (s : State) : Out := runIrr (pure .next) s

/-- FENCE (R236, R239): fetched code is never kept [DESIGN CHOICE, log 11], and the host receives its writes in the order in which they
leave. -/
def execFence (scope : Scope) (s : State) : Out :=
  runIrr (do
    if scope = .pod then podRelease
    pure .next) s

/-- ACQ (R239): no older value of a page homed elsewhere outlives the revocation of its grant. -/
def execAcq (_scope : Scope) (s : State) : Out := runIrr (pure .next) s

/-- REL (R236, R239). -/
def execRel (scope : Scope) (s : State) : Out :=
  runIrr (do
    if scope = .pod then podRelease
    pure .next) s

/-! ### SYS -/

/-- "privileged" for every context but the supervisor (R436). -/
def privileged : U Unit := do stopIf ((← myCtx) != 15) .privileged

/-- TRAP: the unit retires outside any trick, then traps with its number (R214, R226, R437). [DEDUCED, log 64] -/
def execTrap (s1 : GReg) (n : BitVec 5) (s : State) : Out :=
  runIrr (do
    let a ← readG s1
    pure (.trapAfter { cause := .trap, detail := n.setWidth 8, aux := a })) s

/-- What FRM may not be, and the bits that a saved CMODE must leave 0 (R51, R437). -/
def cmodeBad (w : Word) : Bool := w &&& ~~~0x37#64 != 0#64 || decide ((w.extractLsb' 0 3).toNat ≥ 6)

/-- A context of the core that is PARKED (R437). -/
def needParked (x : Nat) : U Ctx := do
  let v := (← curCore).ctx x
  stopIf (decide (x > 14) || v.life != .parked) .operandRange
  pure v

/-- ERET (R437). -/
def eretU (s1 : GReg) : U Unit := do
  privileged
  let x := (← readG s1).toNat
  let v ← needParked x
  let c ← curCore
  let t := memWord c.store (v.wsp + 1280)
  stopIf (t.getLsbD 0) .misalignedTarget t
  stopIf (cmodeBad (memWord c.store (v.wsp + 1288))) .operandRange
  let k ← myCore
  modify fun s => wakeFar (refill (s.resume k x (t == v.pc)) k x) k x

/-- ERET (R437). -/
def execEret (s1 : GReg) (s : State) : Out :=
  runIrr (do
    eretU s1
    pure .next) s

/-- ERET.end: the supervisor then becomes idle, as at its END (R437). -/
def execEretEnd (s1 : GReg) (s : State) : Out :=
  runIrr (do
    eretU s1
    endU) s

/-- What PARKRD and PARKWR select: the context, the index, the doubleword, the kind (R437). -/
def parkSelect (s1 : GReg) : U (Nat × Nat × Nat × Nat) := do
  privileged
  let w ← readG s1
  let kind := field w 14 2
  let k := field w 4 5
  stopIf (field w 16 48 != 0 || kind == 3) .operandRange
  let _ ← needParked (field w 0 4)
  stopIf ((kind == 1 && decide (k ≥ 4)) || (kind == 2 && decide (k ≥ 8))) .operandRange
  pure (field w 0 4, k, field w 9 5, kind)

/-- The value of a selection (R437). -/
def parkValue (v : Ctx) (now k j kind : Nat) : Word :=
  match kind with
  | 0 => BitVec.ofNat 64 (elem (tabGet v.v k 0#2048) 64 j)
  | 1 => match tabFind v.leases k with
    | some l => BitVec.ofNat 64 (l.va / 64 * 64 + (if l.inForce now then 2 else 0) + 1)
    | none => 0#64
  | _ => match v.farq[k]? with
    | some e => BitVec.ofNat 64 (e.addr.toNat / 8 % 2 ^ 53 * 8 + (if e.fault.isSome then 2 else 0) + 1)
    | none => 0#64

/-- PARKRD (R437). -/
def execParkrd (d s1 : GReg) (s : State) : Out :=
  runIrr (do
    let (x, k, j, kind) ← parkSelect s1
    let v := (← curCore).ctx x
    writeG d (parkValue v (← getS).tick k j kind)
    pure .next) s

/-- A vector register with one doubleword replaced. -/
def setDouble (v : Vec) (j : Nat) (w : Word) : Vec :=
  pack 64 ((List.range 32).map fun i => if i = j then w.toNat else elem v 64 i)

/-- PARKWR (R437). -/
def execParkwr (s1 s2 : GReg) (s : State) : Out :=
  runIrr (do
    let (x, k, j, kind) ← parkSelect s1
    let w ← readG s2
    stopIf (kind == 2 || (kind == 1 && w != 0#64)) .operandRange
    let now := (← getS).tick
    updCore fun c =>
      let v := c.ctx x
      if kind = 0 then c.setCtx x { v with v := tabSet v.v k (setDouble (tabGet v.v k 0#2048) j w) }
      else c.setCtx x { v with leases := endLease v.leases now k }
    pure .next) s

/-- ERLOG: the oldest record moves to a block of the scratchpad (R437). -/
def execErlog (d s1 : GReg) (s : State) : Out :=
  runIrr (do
    privileged
    let off ← blockOffset (← readG s1) 64
    match (← curCore).trapq with
    | [] =>
      writeG d 0#64
      pure .next
    | r :: rest =>
      touchCheck [] (wordsOf off 64)
      updCore fun c => { c with trapq := rest, store := memPut c.store off r }
      writeG d 1#64
      pure .next) s

/-- ERLOG.esc (R435, R437). -/
def execErlogEsc (s1 : GReg) (s : State) : Out :=
  runIrr (do
    privileged
    let off ← blockOffset (← readG s1) 64
    let ws ← ownWords off 8
    let k ← myCore
    modify fun s => s.escalate k (ws.flatMap fun w => toBytes 8 w.toNat)
    pure .next) s

/-! ### Control registers -/

/-- Contexts with a property as bits from bit 0 (R108). -/
def ctxBits (c : Core) (f : Ctx → Bool) : Nat := (List.range 16).foldl (fun a x => if f (c.ctx x) then a + 2 ^ x else a) 0

/-- CSTATE (R108): a supervisor that becomes live with the turn of this tick was idle at its start. -/
def cstate (c : Core) (now : Nat) : Nat :=
  let blk := fun (v : Ctx) => match v.life with
    | .blocked _ | .forfeit _ | .matrix => true
    | _ => false
  (if c.det then 2 ^ 48 else 0) + 2 ^ 32 * ctxBits c (fun v => v.life == .parked) + 2 ^ 16 * ctxBits c blk +
    ctxBits c (fun v => v.life != .idle) - (if c.wakeAt = some now ∧ (c.ctx 15).life ≠ .idle then 2 ^ 15 else 0)

/-- QMSTAT (R137). -/
def qmstat (c : Core) : Nat :=
  let n := fun (i : Nat) => (tabGet c.q i []).length
  (List.range 4).foldl (fun a i => a + 2 ^ (4 * i) * n i + (if n (4 + i) = 0 then 0 else 2 ^ (16 + i))) 0

/-- MXCFG (R292). -/
def mxcfg (c : Core) : Nat := 2 ^ 20 * c.dtenc.toNat + 2 ^ 16 * c.inuse.toNat + 2 ^ 8 * (c.cols - 1) + (c.rows - 1)

/-- TRICK (R229). -/
def trickWord (v : Ctx) : Word := 0#18 ++ v.limit ++ v.trumps ++ v.squash

/-- CHSTAT: a post on its way does not fill the buffer yet (R334, R335). -/
def chstat (q : Quad) : Nat :=
  2 ^ 32 * (match q.chainBuf with | some b => if q.chainFull then b.length else 0 | none => 0) + 2 ^ 16 * q.waits.toNat + q.posts.toNat

/-- MSGSTAT (R366). -/
def msgstat (c : Core) : Nat :=
  2 ^ 4 * c.msgRefused.toNat + (List.range 4).foldl (fun a i => if (c.ctx (11 + i)).mailbox.isSome then a + 2 ^ i else a) 0

/-- The control register of a number as CRD reads it, its reserved fields 0 (R9, R439). -/
def ctlValue (s : State) (k x r : Nat) : Option Word :=
  let c := s.core k
  let v := c.ctx x
  let g := s.group (groupOf k)
  let num := fun (n : Nat) => some (BitVec.ofNat 64 n)
  if r = 0x10 then some (v.cmode &&& 0x37#64)
  else if r = 0x11 then some (v.cflags &&& 0x7F#64)
  else if r = 0x12 then num v.wsp
  else if r = 0x20 then num (cstate c s.tick)
  else if r = 0x21 then num (qmstat c)
  else if 0x30 ≤ r ∧ r ≤ 0x37 then num (tabGet c.xbloss (r - 0x30) 0#48).toNat
  else if 0x40 ≤ r ∧ r ≤ 0x5F then some (tabGet c.layout (r - 0x40) 0#64)
  else if r = 0x60 then num c.csteps.toNat
  else if r = 0x61 then some g.vpool
  else if r = 0x62 then num (2 ^ 8 * c.pkRefused.toNat + min 64 (s.parkUsed k))
  else if r = 0x70 then some (trickWord v)
  else if r = 0x80 then num (mxcfg c)
  else if r = 0x81 then num ((if g.wdFired then 2 ^ 32 else 0) + g.wdLimit.toNat)
  else if r = 0x90 then num (chstat (s.quad (quadOf k)))
  else if 0xA0 ≤ r ∧ r ≤ 0xBF then some (tabGet c.cls (r - 0xA0) 0#64)
  else if r = 0xC0 then num (msgstat c)
  else if r = 0xD0 then some c.vmroot
  else if r = 0xE0 then some c.svent
  else if r = 0xE1 then some c.svws
  else none

/-- Control registers whose CRD is timing-dependent (R105, R140, R205, R229, R335, R366). -/
def ctlTiming (r : Nat) : Bool := r == 0x20 || decide (0x30 ≤ r ∧ r ≤ 0x37) || r == 0x62 || r == 0x70 || r == 0x90 || r == 0xC0

/-- A control-register unit, or the trap of R45 for a number that names none (R438). -/
def ctlUnit (r : Nat) (m : U After) (s : State) : Out :=
  if (ctlValue s 0 0 r).isSome then runIrr m s else runIn (stopTrap .illegal) s

/-- Lost reads of a bank since its counter was last looked at: how many is timing, a free value (R139, R140). [DESIGN CHOICE, log 62] -/
def countLost (b : Nat) : U Unit := modify fun s =>
  ({ s with freeCount := s.freeCount + 1 } : State).modCore s.cur.1 fun c => { c with
    xbloss := tabSet c.xbloss b (tabGet c.xbloss b 0#48 + Config.lostReads s.freeCount) }

/-- CRD (R438). -/
def execCrd (d : GReg) (r : BitVec 13) (s : State) : Out :=
  ctlUnit r.toNat (do
    if ctlTiming r.toNat then timingTrap
    if 0x30 ≤ r.toNat ∧ r.toNat ≤ 0x37 then countLost (r.toNat - 0x30)
    let s ← getS
    match ctlValue s s.cur.1 s.cur.2 r.toNat with
    | some w =>
      writeG d w
      pure .next
    | none => stopTrap .illegal) s

/-- CWR of a register without a behaviour of its own: the RW fields are set, the W1C fields cleared, the RO fields left (R9, R83, R140,
R205, R229, R308, R366, R434). -/
def ctlWrite (r : Nat) (w : Word) : U Unit := do
  let k ← myCore
  if r = 0x11 then updCtx fun v => { v with cflags := v.cflags &&& ~~~w }
  else if 0x30 ≤ r ∧ r ≤ 0x37 then updCore fun c => { c with xbloss := tabSet c.xbloss (r - 0x30) (w.extractLsb' 0 48) }
  else if r = 0x62 then updCore fun c => { c with pkRefused := w.extractLsb' 8 32 }
  else if r = 0x70 then updCtx fun v => { v with trumps := w.extractLsb' 16 16, squash := w.extractLsb' 0 16 }
  else if r = 0x81 then
    modify fun s => s.modGroup (groupOf k) fun g => { g with wdLimit := w.extractLsb' 0 32, wdFired := g.wdFired && !w.getLsbD 32 }
  else if r = 0xC0 then updCore fun c => { c with msgRefused := w.extractLsb' 4 32 }
  else if r = 0xE0 ∨ r = 0xE1 then stopTrap .privileged
  else pure ()

/-- CWR (R438). -/
def execCwr (r : BitVec 13) (s1 : GReg) (s : State) : Out :=
  ctlUnit r.toNat (do
    ctlWrite r.toNat (← readG s1)
    pure .next) s

/-- CWR of CMODE: modes 6 and 7 do not exist; the next unit sees it (R51). -/
def execCwrCmode (s1 : GReg) (s : State) : Out :=
  runIrr (do
    let w ← readG s1
    stopIf (decide ((w.extractLsb' 0 3).toNat ≥ 6)) .illegal
    updCtx fun v => { v with cmode := w &&& 0x37#64 }
    pure .next) s

/-- CWR of WSP: the reserved bits are ignored (R9, R131). [DEDUCED, log 34] -/
def execCwrWsp (s1 : GReg) (s : State) : Out :=
  runIrr (do
    let w ← readG s1
    let b : BitVec 7 := w.extractLsb' 11 7
    stopIf (!(← curCore).workspaceAligned (b.toNat * 2048)) .misalignedWorkspace
    updCtx fun v => { v with wspBlk := b }
    pure .next) s

/-- The field layouts that may be written (R141). [DEDUCED, log 33] -/
def layoutBad (w : Word) : Bool := (List.range 4).any fun j =>
  let wd := field w (16 * j + 6) 7
  decide (wd > 64) || decide (field w (16 * j) 6 + wd > 64)

/-- CWR of a layout register (R141). -/
def execCwrLayout (n : BitVec 5) (s1 : GReg) (s : State) : Out :=
  runIrr (do
    let w ← readG s1
    stopIf (layoutBad w) .illegal
    updCore fun c => { c with layout := tabSet c.layout n.toNat (w &&& 0x1FFF1FFF1FFF1FFF#64) }
    pure .next) s

/-- Lines leave the L1 portion of a core; they are clean, since committed stores are in memory (R186, R248); CWR of SPLIT leaves those under a
lease (R252). -/
def dropLines (s : State) (k : Nat) (p : Nat → Bool) : State :=
  let drop := fun (d : DirEntry) => DirEntry.mk (if d.owner = some k then none else d.owner) (d.sharers.filter (· != k))
  { s with dir := s.dir.map fun e => if p e.1 then (e.1, drop e.2) else e }

/-- CWR of SPLIT (R185, R186). -/
def execCwrSplit (s1 : GReg) (s : State) : Out :=
  runIrr (do
    let n := (← readG s1).extractLsb' 0 3
    stopIf (n == 0#3) .illegal
    let c ← curCore
    let x ← myCtx
    stopIf (c.ctxs.any fun p => p.1 != x && p.2.life != .idle) .splitBusy
    let k ← myCore
    let old := c.S
    let new := Config.localBytes - 32768 * n.toNat
    let low := min old new
    let held := (c.pinned (← getS).tick)
    modify fun s => dropLines s k fun l => !held.contains l
    updCore fun c => { c with
      csteps := n
      store := memClear c.store low (Config.localBytes - low)
      empty := c.empty.filter fun w => decide (8 * w < low) }
    pure .next) s

/-- CWR of VPOOL: the pool never changes a result (R187). -/
def execCwrVpool (s1 : GReg) (s : State) : Out :=
  runIrr (do
    let w ← readG s1
    let k ← myCore
    modify fun s => s.modGroup (groupOf k) fun g => { g with vpool := w &&& 0x1FFFF#64 }
    pure .next) s

/-- CWR of a class register: arrivals of this tick still find the old table (R361). -/
def execCwrClass (n : BitVec 5) (s1 : GReg) (s : State) : Out :=
  runIrr (do
    let w ← readG s1
    let c ← curCore
    let word := n.getLsbD 0
    stopIf (word && !c.workspaceAligned ((w.extractLsb' 0 7).toNat * 2048)) .misalignedWorkspace
    let now := (← getS).tick
    updCore fun c => { c with
      clsBefore := some (now, c.cls)
      cls := tabSet c.cls n.toNat (w &&& (if word then 0x3FF#64 else 0x00FFFFFFFFFFFFFE#64)) }
    pure .next) s

/-- CWR of VMROOT: the supervisor's (R398). -/
def execCwrVmroot (s1 : GReg) (s : State) : Out :=
  runIrr (do
    privileged
    let w ← readG s1
    updCore fun c => { c with vmroot := w &&& 0x000FFFFFFFF0FFFF#64 }
    pure .next) s

/-! ### TLBI -/

/-- What a TLBI removes: by page and ASID, by ASID, or all (R406). -/
def tlbiRemoves (kind : Nat) (va asid : Word) (e : TlbEntry) : Bool :=
  match kind with
  | 0 => e.maps (asid.extractLsb' 0 16) va.toNat
  | 1 => e.asid == asid.extractLsb' 0 16 && !e.g
  | _ => true

/-- The cores that a scope covers, clipped to the issuer's partition (R16, R19). -/
def inScope (s : State) (sc : Scope) (k c : Nat) : Bool := sameScope sc k c && s.partOf c == s.partOf k

/-- The checks of a TLBI, and its request (R406, R407). -/
def tlbiU (kind : Nat) (va asid : U Word) (scope : Scope) (s : State) : Out :=
  runIrr (do
    privileged
    let v ← va
    let a ← asid
    stopIf (decide (a.toNat > 0xFFFF) || field v 56 8 != 0) .operandRange
    let s ← getS
    updCtx fun c => { c with req := some (.tlbi kind v a scope) }
    postIn (match scope with | .pkg | .pod => Config.homePkg | _ => Config.homeDie) (.tlbiComplete (cid s.cur.1) (xid s.cur.2))
    pure (.hold .tlbi)) s

/-- TLBI.VA (R406). -/
def execTlbiVa (s1 s2 : GReg) (scope : Scope) (s : State) : Out := tlbiU 0 (readG s1) (readG s2) scope s

/-- TLBI.ASID (R406). -/
def execTlbiAsid (s2 : GReg) (scope : Scope) (s : State) : Out := tlbiU 1 (pure 0#64) (readG s2) scope s

/-- TLBI.ALL (R406). -/
def execTlbiAll (scope : Scope) (s : State) : Out := tlbiU 2 (pure 0#64) (pure 0#64) scope s

/-- The translations leave every structure that serves a core of the scope (R403, R407). [DEDUCED, log 40] -/
def tlbiRemove (s : State) (k kind : Nat) (va asid : Word) (sc : Scope) : State :=
  let keep := fun (e : TlbEntry) => !tlbiRemoves kind va asid e
  { s with
    cores := s.cores.map fun c => if inScope s sc k c.1 then (c.1, { c.2 with tlb := c.2.tlb.filter keep }) else c
    quads := s.quads.map fun q =>
      if (List.range 4).any fun j => inScope s sc k (4 * q.1 + j) then (q.1, { q.2 with tlb := q.2.tlb.filter keep }) else q
    dies := s.dies.map fun d =>
      let concerned := match sc with
        | .pkg | .pod => s.partOfDie d.1 == s.partOf k
        | _ => d.1 == dieOf k
      if concerned then (d.1, { d.2 with walk := [] }) else d }

/-- Far atomics of a scope on their way to another package whose translation a TLBI removes. -/
def FarEntry.usesRemoved (e : FarEntry) (kind : Nat) (va asid : Word) : Bool :=
  e.sent.isSome && e.old.isNone && match e.used with
    | some u => tlbiRemoves kind va asid u
    | none => false
def markStale (s : State) (sc : Scope) (k kind : Nat) (va asid : Word) : State :=
  { s with cores := s.cores.map fun c =>
      if inScope s sc k c.1 then
        (c.1, { c.2 with ctxs := c.2.ctxs.map fun x => (x.1, { x.2 with
          farq := x.2.farq.map fun e => if e.usesRemoved kind va asid then { e with stale := true } else e }) })
      else c }

/-- Whether a far atomic that went out with a removed translation is still under way, or another package still removes translations
(R407). -/
def farUnderWay (s : State) (sc : Scope) (k x : Nat) : Bool :=
  (s.cores.any fun c => inScope s sc k c.1 && c.2.ctxs.any fun y => y.2.farq.any fun e => e.stale && e.sent.isSome && e.old.isNone) ||
    s.hub.outstanding.any fun o => o.core == k && o.ctx == x && match o.request.op with
      | .tlbi _ _ _ => true
      | _ => false

/-- The removal of translations, and the squash of the tricks that used them, as one write event; none while a trump holds it off (R218,
R407). -/
def tlbiPerform (s : State) (k kind : Nat) (va asid : Word) (sc : Scope) : Option State :=
  let q := fun (_ : Ctx) (t : Trick) => t.used.any (tlbiRemoves kind va asid)
  if s.trumpIn (inScope s sc k) q none then none
  else some ((markStale (tlbiRemove s k kind va asid sc) sc k kind va asid).squashIn (inScope s sc k) q none)

/-- The other packages of the pod: a TLBI of scope `.pod` goes to all of them, and one without a joined partition refuses it (R407, R471).
[DEDUCED, log 40] -/
def podPeers (s : State) : List Nat := (List.range 128).filter fun p => p != s.pkg && Config.connected p

/-- TLBI_COMPLETE: one event here, and one in each joined package at scope `.pod`; far atomics already translated are performed before the
unit retires (R407). -/
def execTlbiComplete (core : CoreId) (ctx : CtxId) (s : State) : Out :=
  let k := core.toNat
  let x := ctx.toNat
  let again := fun (s : State) => Host.Outcome.next (s.post 1 (.tlbiComplete core ctx))
  match (s.ctx k x).life, (s.ctx k x).req with
  | .blocked .tlbi, some (.tlbi kind va asid sc) =>
    let joined := sc = .pod ∧ (s.part (s.partOf k)).pod.extractLsb' 0 16 ≠ 0#16
    if kind = 3 then if farUnderWay s sc k x then again s else .next (completeUnit s k x (pure .next))
    else if joined ∧ s.meterOut k 1 = true then again s
    else
      match tlbiPerform s k kind va asid sc with
      | none => again s
      | some s =>
        let s := if joined then (podPeers s).foldl (fun s p => s.sendPeer p k x (.tlbi kind va asid)) s else s
        if farUnderWay s sc k x then again (s.modCtx k x fun v => { v with req := some (.tlbi 3 va asid sc) })
        else .next (completeUnit s k x (pure .next))
  | _, _ => .next s

end Sys2Proof.Machine
end

