-- ==== Sys2Proof/Machine/Checks.lean ====
section
/-! DEFINITION. Machine checks, lock-step mismatches and the repair of cores (R18, R228, R440 to R447). -/

namespace Sys2Proof.Machine

/-- Every request parked at a core receives an eviction retry, and its table empties (R202, R445). [DEDUCED, log 43] -/
def bounceParked (s : State) (k : Nat) : State :=
  (s.core k).parking.foldl (fun s e =>
      (mapGroups s e.core e.ctx fun g => if g.owner = k then { g with parked := false } else g).post 256
        (.evictionRetryResend (cid e.core) (xid e.ctx)))
    (s.modCore k fun c => { c with parking := [] })

/-- The tricks of every context of a core are discarded: each context goes on at the first unit of its oldest one, and an active trump waits
to be admitted again (R224, R227, R445). -/
def discardTricks (s : State) (k : Nat) : State :=
  (s.core k).ctxs.foldl (fun s x =>
    let s := s.squash k x.1 false
    if (s.ctx k x.1).running.trump then
      (s.modCtx k x.1 fun v => { v with running := { v.running with trump := false }, life := .blocked .trump }).trumpGone k true
    else s) s

/-- STOP A CORE (R444, R445): its tricks are discarded, its router answers with eviction retries, and its repair ends within 2 ms. -/
def stopCore (s : State) (k : Nat) : State :=
  if (s.core k).stopped then s
  else
    let s := (bounceParked (discardTricks s k) k).modCore k fun c => { c with stopped := true, mismatch := [] }
    { s with freeCount := s.freeCount + 1 }.post (2000 * Config.microsecond) (.coreRepair (cid k) (Config.selfTest s.freeCount))

/-- The core of a check with its partner, for a core of a launch in lock step (R441, R444). -/
def checkedCores (s : State) (k : Nat) : List Nat :=
  match s.launchOf k with
  | some l => if l.lock then [k - k % 2, k - k % 2 + 1] else [k]
  | none => [k]

/-- The machine check of a core or a pair (R444, R480). -/
def checkCore (s : State) (k : Nat) : State :=
  let s := s.discard (some (s.partOf k)) k ((s.core k).launch.getD 0) 0x02 1 []
  (checkedCores s k).foldl stopCore s

/-- The machine check of a quad (R308, R444). -/
def checkQuad (s : State) (q : Nat) : State :=
  let k := 4 * q
  let s := s.discard (some (s.partOf k)) k ((s.core k).launch.getD 0) 0x02 2 []
  [k, k + 1, k + 2, k + 3].foldl stopCore s

/-- The launches of a partition. -/
def State.launchesOf (s : State) (p : Nat) : List Nat := (s.launches.filter fun l => l.2.part == p).map (·.1)

/-- The machine check of a partition: its launches end with status 3, and the rings of its dies freeze after the event (R444, R481). -/
def checkPartition (s : State) (p : Nat) : State :=
  let s := s.discard (some p) Config.hub 0 0x02 3 []
  let s := (List.range 4).foldl (fun s d => if (s.part p).hasDie d then s.modDie d fun x => { x with frozen := true } else s) s
  (s.launchesOf p).foldl (fun s t => s.endLaunch t 3) s

/-- MACHINE_CHECK (R444). -/
def execMachineCheck (target : CheckTarget) (s : State) : Out :=
  .next (match target with
    | .core k => checkCore s k.toNat
    | .quad q => checkQuad s q.toNat
    | .partition p => checkPartition s p.toNat)

/-- An uncorrectable error in what a trick reads: the trick is squashed and executed again; the second one in a committed line is the machine
check of the partition (R444, R447). That a line counts so until a reset, whatever is written to it, is the model's. [DESIGN CHOICE, log 86] -/
def readError (s : State) (k x : Nat) (line : Option LineId) : State :=
  match line with
  | some l =>
    if s.hub.badLines.contains l.toNat then checkPartition s (s.partOf k)
    else (s.modHub fun h => { h with badLines := h.badLines ++ [l.toNat] }).squash k x false
  | none => s.squash k x false

/-- UNCORRECTABLE_SOFT_ERROR: a request of a quad's unit is performed again, a trick that reads the data is squashed and executed again, and a
job ends with error code 5 (R307, R384, R444, R447). -/
def execUncorrectableSoftError (place : SoftErrorAt) (job : BitVec 48) (storage : BitVec 3) (s : State) : Out :=
  .next (match place with
    | .matrix q => matrixError q storage s
    | .scan q => scanError q storage s
    | .trick k x l => readError s k.toNat x.toNat l
    | .copy ch => match s.job ch.toNat job with
      | some j => if j.code = 0 ∨ j.code = 4 then failJob s ch.toNat j 5 else s
      | none => s)

/-- HEARTBEAT_MISS: three missed heartbeats of 1 µs are the machine check of the core (R444). -/
def execHeartbeatMiss (core : CoreId) (s : State) : Out := .next (checkCore s core.toNat)

/-- The current trick of a context, by the tick of its first attempt. -/
def Ctx.trickAge (v : Ctx) : Option Nat :=
  match v.pending with
  | some t => t.age
  | none => if v.running.start.isSome then v.running.age else none

/-- Traps that wait to be taken are not: each context stands at its unit again (R448). -/
def untrap (s : State) (k : Nat) : State :=
  (s.core k).ctxs.foldl (fun s p => match p.2.life with
    | .blocked (.trapEntry t) => s.modCtx k p.1 fun v => { v with
        life := .ready, readyAt := s.tick + 1, pc := v.unit.addr
        retire := if t.cause = .breakpoint ∨ t.cause = .trap then v.retire - 1#64 else v.retire }
    | _ => s) s

/-- LOCKSTEP_MISMATCH: both cores squash their current tricks and execute them again; a second mismatch within the same trick is the
machine check of the pair; a trap of a unit of this tick is not taken (R228, R443, R444, R448). The code is that of the register whose write-backs differed. -/
def execLockstepMismatch (core : CoreId) (code : BitVec 8) (s : State) : Out :=
  let k := core.toNat - core.toNat % 2
  match s.launchOf k with
  | none => .next s
  | some l =>
    if !l.lock then .next s
    else
      let s := untrap s k
      let c := s.core k
      let ages : Tab Nat := c.ctxs.filterMap fun p => p.2.trickAge.map fun a => (p.1, a)
      let again := ages.any fun p => tabFind c.mismatch p.1 == some p.2
      let s := s.discard (some (s.partOf k)) k l.tag 0x03 code.toNat []
      let s := discardTricks s k
      .next (if again then checkCore s k else s.modCore k fun c => { c with mismatch := ages })

/-- CORE_REPAIR: a stopped core resumes in place after a clean readout and self-test, or a spare of its die takes its index; otherwise its
launch ends with status 3 (R18, R445). -/
def execCoreRepair (core : CoreId) (clean : Bool) (s : State) : Out :=
  let k := core.toNat
  let c := s.core k
  if !c.stopped then .next s
  else if clean then .next ((s.setCore k { c with stopped := false }).post 0 (.trumpAdmission (BitVec.ofNat 2 (s.partOf k))))
  else if (s.die (dieOf k)).spares > 0 then
    let s := (dropLines s k fun _ => true).modDie (dieOf k) fun d => { d with spares := d.spares - 1 }
    .next ((s.setCore k { c with stopped := false, spare := true }).post 0 (.trumpAdmission (BitVec.ofNat 2 (s.partOf k))))
  else
    match c.launch with
    | some t => .next (s.endLaunch t 3)
    | none => .next s

end Sys2Proof.Machine
end

