-- ==== Sys2Proof/Machine/Compact.lean ====
section
/-! DEFINITION. Compact instructions: each has exactly the effect of the 32-bit form it stands for (R42 to R44). -/

namespace Sys2Proof.Machine

/-- BRK, its code zero-extended. -/
def execCBrk (code : BitVec 10) (s : State) : Out := runIn (breakWith (code.setWidth 64)) s

/-- NOP. -/
def execCNop (s : State) : Out := runIn (pure .next) s

/-- OR gd, gs, g0. -/
def execCMov (d src : GReg) (s : State) : Out := runIn (scalar2 d src 0#5 fun a b => a ||| b) s

/-- ADD gd, gd, gs. -/
def execCAdd (d src : GReg) (s : State) : Out := runIn (scalar2 d d src fun a b => a + b) s

/-- SUB gd, gd, gs. -/
def execCSub (d src : GReg) (s : State) : Out := runIn (scalar2 d d src fun a b => a - b) s

/-- AND gd, gd, gs. -/
def execCAnd (d src : GReg) (s : State) : Out := runIn (scalar2 d d src fun a b => a &&& b) s

/-- OR gd, gd, gs. -/
def execCOr (d src : GReg) (s : State) : Out := runIn (scalar2 d d src fun a b => a ||| b) s

/-- XOR gd, gd, gs. -/
def execCXor (d src : GReg) (s : State) : Out := runIn (scalar2 d d src fun a b => a ^^^ b) s

/-- ADDI gd, gd, imm5, signed. -/
def execCAddi (d : GReg) (imm : BitVec 5) (s : State) : Out := runIn (scalarI d d imm fun a i => a + i) s

/-- LI gd, imm5, signed. -/
def execCLi (d : GReg) (imm : BitVec 5) (s : State) : Out :=
  runIn (do
    writeG d (imm.signExtend 64)
    pure .next) s

/-- SHI gd, gd, left by imm5. -/
def execCShiShl (d : GReg) (imm : BitVec 5) (s : State) : Out := runIn (scalar1 d d fun a => a <<< imm.toNat) s

/-- SHI gd, gd, logical right by imm5. -/
def execCShiShr (d : GReg) (imm : BitVec 5) (s : State) : Out := runIn (scalar1 d d fun a => a >>> imm.toNat) s

/-- SHI gd, gd, arithmetic right by imm5. -/
def execCShiSar (d : GReg) (imm : BitVec 5) (s : State) : Out := runIn (scalar1 d d fun a => a.sshiftRight imm.toNat) s

/-- The offset of a compact access, unsigned, in 8-byte units (R42). -/
def off4 (off : BitVec 4) : BitVec 10 := off.setWidth 10

/-- LD of 8 bytes. -/
def execCLd (d b : GReg) (off : BitVec 4) (s : State) : Out := loadUnit (eaMI b (off4 off) 8) d 3#2 false s

/-- ST of 8 bytes. -/
def execCSt (d b : GReg) (off : BitVec 4) (s : State) : Out := storeUnit (eaMI b (off4 off) 8) d 3#2 s

/-- LDG of 8 bytes. -/
def execCLdg (d b : GReg) (off : BitVec 4) (s : State) : Out := runIn (globalLoad d b (off4 off) 3#2 false) s

/-- STG of 8 bytes. -/
def execCStg (d b : GReg) (off : BitVec 4) (s : State) : Out := runIn (globalStore d b (off4 off) 3#2) s

/-- BR. -/
def execCBr (off : BitVec 10) (s : State) : Out := runIn (do pure (.goto (← target off))) s

/-- BCC eq, gx, g0. -/
def execCBccEq (x : GReg) (off : BitVec 7) (s : State) : Out :=
  runIn (do branchIf (condTrue .eq (← readG x) 0#64) off) s

/-- BCC ne, gx, g0. -/
def execCBccNe (x : GReg) (off : BitVec 7) (s : State) : Out :=
  runIn (do branchIf (condTrue .ne (← readG x) 0#64) off) s

/-- RET. -/
def execCRet (s : State) : Out := runIn (jumpReg 1#5 none) s

/-- JR gs. -/
def execCJr (src : GReg) (s : State) : Out := runIn (jumpReg src none) s

/-- CALLR g1, gs. -/
def execCCallr (src : GReg) (s : State) : Out := runIn (jumpReg src (some 1#5)) s

/-- YIELD. -/
def execCYield (s : State) : Out := runIn yieldU s

/-- END. -/
def execCEnd (s : State) : Out := runIrr endU s

/-- TCUT. -/
def execCTcut (s : State) : Out := runIrr (pure .next) s

/-- VADD.f32 vd, vd, vs under p0, dynamic rounding. -/
def execCVaddF32 (d src : VReg) (s : State) : Out :=
  runIn (vArith d [d, src] 0#3 .f32 0#2 (fop2 fAdd) (intOp .f32 fun a b => a + b) 0) s

/-- VMUL.f32 vd, vd, vs under p0, dynamic rounding. -/
def execCVmulF32 (d src : VReg) (s : State) : Out :=
  runIn (vArith d [d, src] 0#3 .f32 0#2 (fop2 fMul) (intOp .f32 fun a b => a * b) 0) s

/-- VMOV.n64 vd, vs under p0. -/
def execCVmov (d src : VReg) (s : State) : Out := runIn (vPure d [src] 0#3 .n64 fun xs => (arg xs 0, 0#7)) s

/-- VLD.n32 vd from address gs under p0. -/
def execCVld (d : VReg) (src : GReg) (s : State) : Out := vectorLoad (rowAddrs src 0#5 0#3 .n32) d 0#3 .n32 s

/-- VST.n32 of vd to address gs under p0. -/
def execCVst (d : VReg) (src : GReg) (s : State) : Out := vectorStore (rowAddrs src 0#5 0#3 .n32) d 0#3 .n32 s

/-- BP any. -/
def execCBpAny (p : PReg) (off : BitVec 7) (s : State) : Out := runIn (do branchIf (predTest .any (← readP p)) off) s

end Sys2Proof.Machine
end

