-- ==== Sys2Proof/Machine/Queues.lean ====
section
/-! DEFINITION. Slice queues (R356 to R360, R368 to R370). -/

namespace Sys2Proof.Machine

/-- The entry size and capacity of a queue (R356). -/
def SliceQueue.entry (q : SliceQueue) : Nat := 8 * 2 ^ q.z.toNat
def SliceQueue.capacity (q : SliceQueue) : Nat := 2 ^ q.c.toNat

/-- Ticks between a core and the slice of a queue (R529). -/
def queueLatency (k q : Nat) : Nat := if dieOf k = q / 1024 then Config.homeDie else Config.homePkg

/-- A queue outside the partition of the issuer (R356). -/
def needQueue (q : Nat) : U Unit := do
  let s ← getS
  stopIf (s.partOfDie (q / 1024) != s.partOf s.cur.1) .remoteBoundary

/-- Send a request to a slice (R359). -/
def queueRequest (op : QueueOp) (q : Nat) (d : GReg) : U After := do
  needQueue q
  needDest d
  let s ← getS
  let (k, x) := s.cur
  updCtx fun v => { v with req := some (.queue op q d) }
  postIn (queueLatency k q) (.sliceQueueOp (cid k) (xid x))
  pure (.hold .reply)

/-- QINIT (R358). -/
def execQinit (d s1 s2 : GReg) (s : State) : Out :=
  runIrr (do
    let q ← readG s1
    let w ← readG s2
    stopIf (decide (q.toNat ≥ 4096) || field w 9 55 != 0 || decide (field w 4 3 > 4) || decide (field w 0 4 > 11) ||
      decide (2 ^ field w 0 4 * (8 * 2 ^ field w 4 3) > 16384)) .operandRange
    queueRequest (.qinit w) q.toNat d) s

/-- The queue number of ENQ and DEQ, and for the single-word forms the entry size (R359). -/
def queueNumber (s1 : GReg) (word : Bool) : U Nat := do
  timingTrap
  let q ← readG s1
  stopIf (decide (q.toNat ≥ 4096)) .operandRange
  stopIf (word && ((← getS).squeue q.toNat).entry != 8) .operandRange
  pure q.toNat

/-- The buffer of an entry in the issuing core's scratchpad (R359). -/
def queueBuffer (a : Word) (q : Nat) : U Nat := do
  let off ← ownOffset a
  stopIf (field a 0 3 != 0) .misaligned a
  stopIf (decide (off + ((← getS).squeue q).entry > (← curCore).S)) .outsideScratchpad a
  pure off

/-- ENQ of a word (R359). -/
def execEnq (d s1 s2 : GReg) (s : State) : Out :=
  runIrr (do
    let q ← queueNumber s1 true
    let e ← readG s2
    queueRequest (.enq (toBytes 8 e.toNat)) q d) s

/-- ENQ of an entry in the scratchpad, read at issue (R359). -/
def execEnqB (d s1 s2 : GReg) (s : State) : Out :=
  runIrr (do
    let q ← queueNumber s1 false
    let a ← readG s2
    let off ← queueBuffer a q
    let n := ((← getS).squeue q).entry
    let c ← curCore
    if c.touched (← myCtx) (wordsOf off n) [] then waitOn (.touch (wordsOf off n) [])
    queueRequest (.enq (memBytes c.store off n)) q d) s

/-- DEQ of a word (R359). -/
def execDeq (d s1 : GReg) (s : State) : Out :=
  runIrr (do
    let q ← queueNumber s1 true
    queueRequest (.deq none false) q d) s

/-- DEQ into the scratchpad (R359). -/
def deqBuffer (poll : Bool) (d s1 s2 : GReg) : U After := do
  let q ← queueNumber s1 false
  let a ← readG s2
  let off ← queueBuffer a q
  queueRequest (.deq (some off) poll) q d

def execDeqB (d s1 s2 : GReg) (s : State) : Out := runIrr (deqBuffer false d s1 s2) s

/-- DEQ.poll (R359). -/
def execDeqPoll (d s1 s2 : GReg) (s : State) : Out := runIrr (deqBuffer true d s1 s2) s

/-! ### The slice -/

/-- What an event at a slice leaves for its unit goes back to it as a reply (R359, R529). -/
def queueAnswer (s : State) (k x q : Nat) (r : Request) : State :=
  (s.modCtx k x fun v => { v with req := some r }).post (queueLatency k q) (.sliceQueueOp (cid k) (xid x))
def queueStatus (s : State) (k x q : Nat) (d : GReg) (w : Word) : State := queueAnswer s k x q (.answer d w false)

/-- A DEQ gets its entry: bytes for a buffer are written there in the event, the register comes with the reply (R359). -/
def deqDone (s : State) (k x q : Nat) (buffer : Option Nat) (d : GReg) (e : List Byte) : State :=
  match buffer with
  | none => queueStatus s k x q d (BitVec.ofNat 64 (ofBytes e))
  | some a => queueStatus (s.modCore k fun c => { c with store := memPut c.store a e }) k x q d 1#64

/-- Whether the buffer of a DEQ belongs to another context's trick (R359, R195). -/
def bufferHeld (s : State) (k x : Nat) (buffer : Option Nat) (n : Nat) : Bool :=
  match buffer with
  | some a => (s.core k).rangesTouched x [] [(a, n)]
  | none => false

/-- The Dealer of a host queue's partition looks at its queues (R411, R412). -/
def dealerLooks (s : State) (q : Nat) : State :=
  let e := Instr.dealPlacement (BitVec.ofNat 2 (s.partOfDie (q / 1024)))
  if (s.squeue q).en && (s.squeue q).host && !s.agenda.any fun a => a.2 == e then s.post 0 e else s

/-- Whether an entry for a work queue is refused, since its partition is not in RUN (R411, R454). -/
def deviceHeld (s : State) (q : Nat) : Bool :=
  let t := s.squeue q
  t.host && t.z == 4#3 && (s.part (s.partOfDie (q / 1024))).mode != 1

/-- QINIT at the slice (R358). -/
def qinitAt (s : State) (k x q : Nat) (w : Word) (d : GReg) : State :=
  let t := s.squeue q
  if !t.items.isEmpty || !t.waiters.isEmpty then queueStatus s k x q d 0#64
  else
    queueStatus (dealerLooks (s.modSqueue q fun _ =>
      { en := w.getLsbD 8, host := w.getLsbD 7, z := w.extractLsb' 4 3, c := w.extractLsb' 0 4, items := [], waiters := [] }) q)
      k x q d 1#64

/-- ENQ at the slice: its entry goes to the oldest waiter or to the tail; none while the waiter's buffer cannot take it (R359, R360). -/
def enqAt (s : State) (k x q : Nat) (e : List Byte) (d : GReg) : Option State :=
  let t := s.squeue q
  if !t.en then some (queueAnswer s k x q (.trapped .syncState))
  else if e.length ≠ t.entry then some (queueAnswer s k x q (.trapped .operandRange))
  else if deviceHeld s q then some (queueStatus s k x q d 0#64)
  else
    match t.waiters with
    | (wk, wx) :: rest =>
      match (s.ctx wk wx).req with
      | some (.queue (.deq buffer _) _ wd) =>
        if bufferHeld s wk wx buffer e.length then none
        else
          let s := s.modSqueue q fun t => { t with waiters := rest }
          some (queueStatus (deqDone s wk wx q buffer wd e) k x q d 1#64)
      | _ => some (queueStatus (s.modSqueue q fun t => { t with waiters := rest, items := [e] }) k x q d 1#64)
    | [] =>
      if t.items.length ≥ t.capacity then some (queueStatus s k x q d 0#64)
      else some (queueStatus (dealerLooks (s.modSqueue q fun t => { t with items := t.items ++ [e] }) q) k x q d 1#64)

/-- Entries of a slice's wake list (R360). -/
def sliceWaiters (s : State) (q : Nat) : Nat :=
  s.squeues.foldl (fun n e => if e.1 / 16 = q / 16 then n + e.2.waiters.length else n) 0

/-- DEQ at the slice (R359, R360). -/
def deqAt (s : State) (k x q : Nat) (buffer : Option Nat) (poll : Bool) (d : GReg) : Option State :=
  let t := s.squeue q
  if !t.en then some (queueAnswer s k x q (.trapped .syncState))
  else if t.host then some (queueAnswer s k x q (.trapped .queueBound))
  else
    match t.items with
    | e :: rest =>
      if bufferHeld s k x buffer e.length then none
      else some (deqDone (s.modSqueue q fun t => { t with items := rest }) k x q buffer d e)
    | [] =>
      if poll then some (queueStatus s k x q d 0#64)
      else if sliceWaiters s q ≥ 64 then some (s.post (64 + 2 * queueLatency k q) (.sliceQueueOp (cid k) (xid x)))
      else some (s.modSqueue q fun t => { t with waiters := t.waiters ++ [(k, x)] })

/-- The requester of a queue event on queue `q`. -/
def queueRequester (s : State) (q : Nat) (i : Instr) : Option (Nat × Nat) :=
  match i with
  | .sliceQueueOp c y => match (s.ctx c.toNat y.toNat).req with
    | some (.queue _ p _) => if p = q then some (c.toNat, y.toNat) else none
    | _ => none
  | _ => none

/-- SLICE_QUEUE_OP: a request is one event at its slice, whose reply then retires its unit or traps there; requests of one tick at one queue go
in ascending context identifier (R358 to R360, R368, R529). -/
def execSliceQueueOp (core : CoreId) (ctx : CtxId) (s : State) : Out :=
  let k := core.toNat
  let x := ctx.toNat
  match (s.ctx k x).life, (s.ctx k x).req with
  | .blocked .reply, some (.queue op q d) =>
    if (s.squeue q).waiters.contains (k, x) then .next s
    else if s.lowerDue k x (queueRequester s q) then .next (s.post 0 (.sliceQueueOp core ctx))
    else
      let r := match op with
        | .qinit w => some (qinitAt s k x q w d)
        | .enq e => enqAt s k x q e d
        | .deq buffer poll => deqAt s k x q buffer poll d
      .next (r.getD (s.post 1 (.sliceQueueOp core ctx)))
  | .blocked .reply, some (.answer d w _) =>
    .next (completeUnit s k x (do
      writeG d w
      pure .next))
  | .blocked .reply, some (.trapped c) => .next (completeUnit s k x (stopTrap c))
  | _, _ => .next s

end Sys2Proof.Machine
end

