-- ==== Sys2Proof/Machine/Messages.lean ====
section
/-! DEFINITION. Active messages (R361 to R370). -/

namespace Sys2Proof.Machine

/-- The current message of the issuing message context (R362, R364). -/
def currentMessage : U MessageData := do
  let v ← curCtx
  let x ← myCtx
  match v.mailbox with
  | some m => if 11 ≤ x ∧ x ≤ 14 then pure m else stopTrap .noMessage
  | none => stopTrap .noMessage

/-- Read `n` payload registers from a code on, in ascending order (R364). -/
def readPayload : Nat → GReg → U (List Word)
  | 0, _ => pure []
  | n + 1, r => do
    let w ← readG r
    let t ← readPayload n (r + 1)
    pure (w :: t)

/-- Send a message and wait for the reply (R364, R367). -/
def sendTo (pkg core : Nat) (msg : MessageData) (d : GReg) : U After := do
  let s ← getS
  let (k, x) := s.cur
  stopIf (pkg == s.pkg && !s.mates k core) .remoteBoundary
  needDest d
  if pkg != s.pkg then podRelease
  if pkg != s.pkg && s.meterBusy k 1 then meterHold 1 (.send pkg core msg d)
  else
    updCtx fun v => { v with req := some (.send pkg core msg d) }
    if pkg = s.pkg then postIn (latency s k core) (.messageArrival (cid core) msg)
    else modify fun s => s.sendPeer pkg k x (.message (cid core) msg)
    pure (.hold .reply)

/-- The identifier of the issuing context (R17). -/
def originId : U (BitVec 23) := do
  let s ← getS
  pure (contextId s s.cur.1 s.cur.2)

/-- SEND (R364). -/
def execSend (d s1 s2 : GReg) (n : BitVec 5) (s : State) : Out :=
  runIrr (do
    timingTrap
    let h ← readG s1
    stopIf (field h 23 41 != 0) .operandRange
    let p ← readPayload n.toNat s2
    sendTo (field h 16 7) (field h 4 12) ⟨← originId, h.extractLsb' 0 4, .send, p⟩ d) s

/-- The class word of SEND.rep and SEND.ref, and where the origin of the current message is (R364). -/
def replyHeader (s1 : GReg) : U (MessageData × BitVec 4) := do
  timingTrap
  let m ← currentMessage
  let h ← readG s1
  stopIf (field h 4 60 != 0) .operandRange
  pure (m, h.extractLsb' 0 4)

/-- The core of an origin: package and core index. -/
def originCore (o : BitVec 23) : Nat × Nat := ((o.extractLsb' 16 7).toNat, (o.extractLsb' 4 12).toNat)

/-- SEND.rep (R364). -/
def execSendRep (d s1 s2 : GReg) (n : BitVec 5) (s : State) : Out :=
  runIrr (do
    let (m, cls) ← replyHeader s1
    let p ← readPayload n.toNat s2
    sendTo (originCore m.origin).1 (originCore m.origin).2 ⟨← originId, cls, .rep, p⟩ d) s

/-- SEND.ref: the current message's payload goes back (R364). -/
def execSendRef (d s1 : GReg) (s : State) : Out :=
  runIrr (do
    let (m, cls) ← replyHeader s1
    sendTo (originCore m.origin).1 (originCore m.origin).2 ⟨← originId, cls, .ref, m.payload⟩ d) s

/-- MessageWord (R365). -/
def messageWord (m : MessageData) : Word :=
  let kind := match m.kind with
    | .send => 0
    | .rep => 1
    | .ref => 2
  BitVec.ofNat 64 (m.payload.length * 2 ^ 32 + kind * 2 ^ 30 + m.cls.toNat * 2 ^ 23 + m.origin.toNat)

/-- The class table that arrivals of a tick find: a CWR of that tick applies from the next (R361). -/
def Core.classes (c : Core) (now : Nat) : Tab Word :=
  match c.clsBefore with
  | some (t, old) => if t = now then old else c.cls
  | none => c.cls

/-- The words CLASSk.E and CLASSk.C of a class table (R361). -/
def classE (t : Tab Word) (k : Nat) : Word := tabGet t (2 * k) 0#64
def classC (t : Tab Word) (k : Nat) : Word := tabGet t (2 * k + 1) 0#64

/-- The message context and the workspace of a class. -/
def classCtx (t : Tab Word) (k : Nat) : Nat := 11 + ((classC t k).extractLsb' 7 2).toNat
def classWs (t : Tab Word) (k : Nat) : Nat := ((classC t k).extractLsb' 0 7).toNat * 2048

/-- Where the deposits of a message land: g7 upwards of its workspace (R365). -/
def depositWords (t : Tab Word) (m : MessageData) : List Nat := wordsOf (classWs t m.cls.toNat + 56) (8 * (m.payload.length + 1))

/-- What an arrival gets at its destination (R202, R364, R365). -/
def messageVerdict (s : State) (dest : Nat) (m : MessageData) : SendReply :=
  let c := s.core dest
  let t := c.classes s.tick
  let k := m.cls.toNat
  let from_ := originCore m.origin
  if c.stopped || (from_.1 == s.pkg && s.away (s.core from_.2).launch dest) then .eviction
  else if s.ended dest then .boundary
  else if !(classC t k).getLsbD 9 || !c.workspaceAligned (classWs t k) then .cls
  else if (c.ctx (classCtx t k)).mailbox.isSome || !helperIdle s dest (classCtx t k) then .refused
  else .accepted

/-- Whether the deposits of a message that would be accepted meet a trick's words, or words that the destination's own units wrote in this
tick (R196, R201, R365). -/
def depositsHeld (s : State) (dest : Nat) (m : MessageData) : Bool × Bool :=
  let c := s.core dest
  let words := depositWords (c.classes s.tick) m
  let ok := messageVerdict s dest m == .accepted
  (ok && c.touched 16 [] words, ok && c.wroteNow s.tick words)

/-- AN ARRIVAL at its destination (R365). -/
def messageAt (s : State) (dest : Nat) (m : MessageData) : State × SendReply :=
  let c := s.core dest
  let t := c.classes s.tick
  let k := m.cls.toNat
  let w := classWs t k
  match messageVerdict s dest m with
  | .refused => (s.setCore dest { c with msgRefused := c.msgRefused + 1 }, .refused)
  | .accepted =>
      let h := classCtx t k
      let bytes := (messageWord m :: m.payload).flatMap fun x => toBytes 8 x.toNat
      let v := startCtx (c.ctx h) (classE t k) ((classC t k).extractLsb' 0 7) s.tick
      let c := noteDeposit { c with store := memPut c.store (w + 56) bytes } s.tick (depositWords t m)
      (s.setCore dest (c.setCtx h { v with mailbox := some m }), .accepted)
  | r => (s, r)

/-- The origin of a message that arrives in this tick for the same message context (R368). -/
def sameMailbox (s : State) (dest : Nat) (m : MessageData) (i : Instr) : Option (Nat × Nat) :=
  let t := (s.core dest).classes s.tick
  let same := fun (e : CoreId) (o : MessageData) =>
    if e.toNat = dest ∧ classCtx t o.cls.toNat = classCtx t m.cls.toNat then some (0, o.origin.toNat) else none
  match i with
  | .messageArrival e o => same e o
  | .fabricRequestArrival _ _ ⟨_, .message e o⟩ => same e o
  | _ => none

/-- MESSAGE_ARRIVAL: of two arrivals for one message context in one tick the lower origin goes first; one that would be accepted while its
deposits meet a trick's words takes an entry of the parking table, and a full table refuses it (R196, R200, R201, R365, R368). -/
def execMessageArrival (dest : CoreId) (msg : MessageData) (s : State) : Out :=
  let n := dest.toNat
  let i := Instr.messageArrival dest msg
  let (p, k) := originCore msg.origin
  let x := (msg.origin.extractLsb' 0 4).toNat
  let held := depositsHeld s n msg
  if s.lowerDue 0 msg.origin.toNat (sameMailbox s n msg) then .next (s.post 0 i)
  else if held.1 then
    if s.held.any (·.1 == i) || s.parkUsed n < 64 then .next ((s.modCtx k x fun v => { v with refusals := 0 }).hold i [])
    else
      let s := s.modCore n fun c => { c with pkRefused := c.pkRefused + 1 }
      if p = s.pkg ∧ (s.ctx k x).refusals ≥ 15 then .next (completeUnit s k x (stopTrap .retryLimit))
      else .next ((if p = s.pkg then s.modCtx k x fun v => { v with refusals := v.refusals + 1 } else s).post 32 i)
  else if held.2 then .next ((s.unhold i).post 1 i)
  else
    let (s, r) := messageAt (wakeAgent (s.unhold i) n) n msg
    if p = s.pkg then .next (s.post (latency s n k) (.sendReply (cid k) (xid x) (.own r))) else .next s

/-- A request that was refused, or got an eviction retry, is sent again; one to another package while its FABRIC meter allows it (R200, R202,
R364, R424). -/
def resendAny (s : State) (k x : Nat) : State :=
  match (s.ctx k x).life, (s.ctx k x).req with
  | .blocked .reply, some (.send pkg dest msg _) =>
    if pkg = s.pkg then s.post (latency s k dest) (.messageArrival (cid dest) msg)
    else if s.meterOut k 1 then s.post 1 (.evictionRetryResend (cid k) (xid x))
    else s.sendPeer pkg k x (.message (cid dest) msg)
  | .blocked .reply, some (.sync _ _ _ _ _ _) => resendSync s k x
  | _, _ => resend s k x

/-- PARK_REFUSAL_RETRY (R200); a core that pre-emption has stopped sends nothing again (R203). -/
def execParkRefusalRetry (core : CoreId) (ctx : CtxId) (s : State) : Out :=
  if (s.core core.toNat).halting.isSome then .next (s.post 1 (.parkRefusalRetry core ctx)) else .next (resendAny s core.toNat ctx.toNat)

/-- The requests that wait for a meter are taken in the order of arrival, in the first tick of a period: those whose meter has room go out
(R424, R427). -/
def serveMetered (s : State) : State :=
  s.hub.metered.foldl (fun s e =>
    let (k, x) := e
    match (s.ctx k x).life, (s.ctx k x).req with
    | .blocked (.meter m), some r =>
      if s.exhausted (s.clsOf k) m then s.modHub fun h => { h with metered := h.metered ++ [e] }
      else match r with
        | .matrix q => (s.joinMatrix k x q).modCtx k x fun v => { v with life := q.life }
        | _ => resendAny (s.modCtx k x fun v => { v with life := .blocked .reply }) k x
    | _, _ => s) (s.modHub fun h => { h with metered := [] })

/-- A verdict comes back to its SEND (R364). -/
def sendVerdict (s : State) (k x : Nat) (d : GReg) (r : SendReply) : State :=
  let status := fun (w : Word) => completeUnit s k x (do
    writeG d w
    pure .next)
  match r with
  | .accepted => status 1#64
  | .refused => status 0#64
  | .cls => completeUnit s k x (stopTrap .messageClass)
  | .boundary => completeUnit s k x (stopTrap .remoteBoundary)
  | .eviction => s.post 256 (.evictionRetryResend (cid k) (xid x))

/-- SEND_REPLY: the verdict of a destination in this package, or the reply of another one to the request of its number; a full parking table
there counts as R200 says (R200, R364, R367, R472). -/
def execSendReply (core : CoreId) (ctx : CtxId) (turn : SendTurn) (s : State) : Out :=
  let k := core.toNat
  let x := ctx.toNat
  match turn with
  | .own r =>
    match (s.ctx k x).life, (s.ctx k x).req with
    | .blocked .reply, some (.send pkg _ _ d) => .next (if pkg = s.pkg then sendVerdict s k x d r else s)
    | _, _ => .next s
  | .answered a =>
    let mine := fun (o : Outstanding) => o.isMessage k x && o.answeredBy a
    if !s.hub.outstanding.any mine then .next s
    else
      let s := s.gotPeer mine a.reply
      match (s.ctx k x).life, (s.ctx k x).req with
      | .blocked .reply, some (.send _ _ _ d) =>
        match a.reply with
        | .send r => .next (sendVerdict s k x d r)
        | .retry =>
          if (s.ctx k x).refusals ≥ 15 then .next (completeUnit s k x (stopTrap .retryLimit))
          else .next ((s.modCtx k x fun v => { v with refusals := v.refusals + 1 }).post 32 (.parkRefusalRetry core ctx))
        | _ => .next (sendVerdict s k x d .boundary)
      | _, _ => .next s

end Sys2Proof.Machine
end

