-- ==== Sys2Proof/Machine/MemoryEvents.lean ====
section
/-! DEFINITION. Requests resent after an eviction, probes that get no answer, walks, and grants of pages homed in other packages (R202,
R248, R401, R404, R405). -/

namespace Sys2Proof.Machine

/-- EVICTION_RETRY_RESEND: 256 ticks after an eviction retry the request is sent again (R202); a core that pre-emption has stopped sends nothing
again (R203, R370). -/
def execEvictionRetryResend (core : CoreId) (ctx : CtxId) (s : State) : Out :=
  if (s.core core.toNat).halting.isSome then .next (s.post 1 (.evictionRetryResend core ctx)) else .next (resendAny s core.toNat ctx.toNat)

/-- PROBE_TIMEOUT: an agent that has not answered leaves the directory entry; it takes a machine check for a line in S, and the partition
one for a line in O (R248, R444). -/
def execProbeTimeout (line : LineId) (agent : CoreId) (s : State) : Out :=
  let l := line.toNat
  let k := agent.toNat
  match tabFind s.dir l with
  | none => .next s
  | some d =>
    if !(s.core k).stopped then .next s
    else if d.owner = some k then
      .next (({ s with dir := tabSet s.dir l { d with owner := none } }).post 0 (.machineCheck (.partition (BitVec.ofNat 2 (s.partOf k)))))
    else if d.sharers.contains k then
      .next (({ s with dir := tabSet s.dir l { d with sharers := d.sharers.filter (· != k) } }).post 0 (.machineCheck (.core agent)))
    else .next s

/-- The contexts of a core that wait for a walk of a page go on: each issues its unit again, and finds the translation or takes the fault itself
(R404). -/
def wakeWalk (s : State) (k va : Nat) : State :=
  (s.core k).ctxs.foldl (fun s p => match p.2.life with
    | .blocked (.walk w) => if w / 4096 = va / 4096 then s.ready k p.1 else s
    | _ => s) s

/-- PAGE_WALK: a miss of a core walks the tables under its VMROOT, charged like any table read, and a leaf fills the structures of R403; a
walk that faults fills nothing (R401, R404, R423, R424). -/
def execPageWalk (core : CoreId) (va : BitVec 64) (s : State) : Out :=
  let k := core.toNat
  let root := (s.core k).vmroot
  if (s.tlbHit k root va.toNat).isSome ∨ va.extractLsb' 56 8 ≠ 0#8 then .next (wakeWalk s k va.toNat)
  else if s.walkWaits k (s.clsOf k) root va.toNat then .next (s.post 1 (.pageWalk core va))
  else
    let t := s.payWalk k (s.clsOf k) root va.toNat (s.tick + 1)
    .next (wakeWalk (match s.walk (s.partOf k) (s.die (dieOf k)).walk root va.toNat with
      | .ok (e, tables) => t.tlbFill k e tables
      | .error _ => t) k va.toNat)

/-- PAGE_GRANT: the home package answers a request of the hub with the page's contents and the state of its region, or refuses it (R266, R405,
R471, R472). -/
def execPageGrant (page : PageId) (write : Bool) (answer : PageAnswer) (s : State) : Out :=
  let p := page.toNat
  let mine := fun (o : Outstanding) => o.target == paPackage (p * 4096) && o.seq == answer.seq && match o.request.op with
    | .grant q w => q == page && w == write
    | _ => false
  match s.hub.outstanding.find? mine with
  | none => .next s
  | some o =>
    let s := s.gotPeer mine (.value 0#64)
    if !o.asks p then .next s
    else
      let part := s.partOf o.core
      match answer.data with
      | none => .next (s.modHub fun h => { h with refused := h.refused.filter (· != (part, p)) ++ [(part, p)] })
      | some b =>
        let here := s.hub.grants.any fun g => g.page == p && s.partOf g.core != part
        let s := s.modHub fun h => { h with
          grants := (h.grants.filter fun g => g.page != p || s.partOf g.core != part) ++ [{ page := p, write := write, seq := h.grantSeq, core := o.core }]
          grantSeq := h.grantSeq + 1 }
        .next ((if here then s else s.putMem (p * 4096) (b.bytes.take 4096)).setCap (p * 4096 / b.size * b.size / 4096) b.size b.cap)

/-- The lines of a 4 KiB page. -/
def pageLines (page : Nat) : List Nat := (List.range 64).map (· + page * 64)

/-- What a page that goes back waits for: writes of its lines under way, leases and trumps, and a stopped core's probe (R218, R225, R248,
R405). -/
def returnWaits (s : State) (page : Nat) (toRead : Bool) : Except (Nat × State) State :=
  let holds := fun c => s.hub.grants.any fun g => g.page == page && s.partOf g.core == s.partOf c
  let lines := pageLines page
  if s.hub.outstanding.any fun o => match o.request.op with
    | .write pa _ => pa.toNat / 4096 == page
    | _ => false then .error (1, s)
  else
    match lines.findSome? fun l => probeStopped s Config.hub l (!toRead) with
    | some w => .error w
    | none =>
      if toRead then .ok s
      else match s.writeEvent holds lines none false with
        | none => .error (1, s)
        | some t => .ok t

/-- A page granted to this package goes back, or is kept for reading only: its lines are written back and, where it goes, invalidated, which
is a write event of the partitions that hold it; an answer to a request for it that is still to come counts no more (R19, R218, R225, R405).
[DEDUCED, log 47] -/
def returnPage (s : State) (page : Nat) (toRead : Bool) : Except (Nat × State) State :=
  match returnWaits s page toRead with
  | .error w => .error w
  | .ok s =>
    let bs := if s.hub.grants.any fun g => g.page == page && g.write then memBytes s.mem (page * 4096) 4096 else []
    let s := (s.hub.grants.filter fun g => g.page == page).foldl (fun s g =>
      s.sendPeerAs (paPackage (page * 4096)) g.core (16 + page) none (.returned (BitVec.ofNat 40 page) bs toRead)) s
    let s := s.modHub fun h => { h with outstanding := h.outstanding.map fun o => if o.asks page then { o with ctx := 0 } else o }
    if toRead then
      let share := fun (d : DirEntry) => DirEntry.mk none (d.owner.toList ++ d.sharers)
      let s := { s with dir := s.dir.map fun (e : Nat × DirEntry) => if e.1 / 64 = page then (e.1, share e.2) else e }
      .ok (s.modHub fun h => { h with grants := h.grants.map fun (e : Grant) => if e.page = page then { e with write := false, dirty := [] } else e })
    else
      let s := s.invalidate (pageLines page) none
      let s := { s with dir := (pageLines page).foldl tabErase s.dir }
      let s := s.modHub fun h => { h with grants := h.grants.filter fun e => e.page != page }
      .ok { s with caps := s.caps.filter fun e => s.keepsCap e.1 e.2.bytes e.2.cap }

/-- PAGE_REVOCATION: the home package, or the hub's full table, wants a page back, or its write grant turned into one for reading. The home hears
whether the page was held, or is on its way back, as 1 or 0 (R405). [DEDUCED, log 47] -/
def execPageRevocation (wanted : PageRecall) (s : State) : Out :=
  let p := wanted.page.toNat
  let answer := fun (s : State) (w : Word) => match wanted.home with
    | some n => s.replyPeer n.pkg.toNat n.seq (.value w)
    | none => s
  if s.hub.grants.any (·.page == p) then
    match returnPage s p wanted.toRead with
    | .ok t => .next (answer t 1#64)
    | .error (n, t) => .next (t.post n (.pageRevocation wanted))
  else if s.hub.outstanding.any (·.returns p) then .next (answer s 1#64)
  else .next (answer (s.modHub fun h => { h with outstanding := h.outstanding.map fun o => if o.asks p then { o with ctx := 0 } else o }) 0#64)

end Sys2Proof.Machine
end

