-- ==== Sys2Proof/Machine/Settle.lean ====
section
/-! DEFINITION. How what a stopped core has issued settles: tricks, irrevocable operations, waits, unit operations, jobs and streams (R203, R227,
R263, R309, R337, R370, R386, R394, R420, R427). -/

namespace Sys2Proof.Machine

/-! ### Stopping -/

/-- Leases of a stopped context have ended; their slots stay, but for one not granted yet (R257). -/
def stopLeases (t : Tab Lease) : Tab Lease :=
  (t.filter fun e => decide (e.1 < 4) && e.2.grant.isSome).map fun e => (e.1, { e.2 with ended := true })

/-- Requests that pre-emption abandons or lets complete (R309, R337). -/
def MatrixReq.abandoned : MatrixReq → Bool
  | .tldb _ _ _ | .mma _ _ _ _ _ _ _ | .tqnt _ _ _ _ => true
  | _ => false
def ScanReq.abandoned : ScanReq → Bool
  | .scfg _ _ => false
  | _ => true

/-- Unit operations of stopped cores are abandoned: their contexts issue them again (R104, R309, R337). -/
def abandonUnits (s : State) (q : Nat) (mine : Nat → Bool) : State :=
  let u := s.quad q
  let gone := (u.matrix.filter fun e => mine e.core && e.req.abandoned).map (fun e => (e.core, e.ctx)) ++
    (u.scan.filter fun e => mine e.core && e.req.abandoned).map (fun e => (e.core, e.ctx))
  if gone.isEmpty then s
  else
    let s := s.modQuad q fun u => { u with
      matrix := u.matrix.filter fun e => !(mine e.core && e.req.abandoned)
      scan := u.scan.filter fun e => !(mine e.core && e.req.abandoned) }
    let s := gone.foldl (fun s p => (s.unpopHeld p.1 p.2).ready p.1 p.2) s
    startNext q (startScan q s)

/-- A trap of the tick in which a core is stopped is taken first, where the tricks before it have settled (R226, R448). -/
def trapFirst (s : State) (k : Nat) : State :=
  (s.core k).ctxs.foldl (fun s p => match (s.ctx k p.1).life with
    | .blocked (.trapEntry _) => match execTrapEntry (cid k) (xid p.1) s with
      | .next t => t
      | _ => s
    | _ => s) s

/-- Whether a request to another package is one of a core's. -/
def sentBy (s : State) (mine : Nat → Bool) (pkg : Nat) (seq : BitVec 32) : Bool :=
  s.hub.outstanding.any fun o => o.target == pkg && o.seq == seq && mine o.core

/-- What waits at the ports for a meter when cores are stopped: a load of a context or an input stream is withdrawn, what a job or a request to
another package needs to complete goes out, and the rest stays (R386, R420, R424, R427). -/
def settlePort (s : State) (mine : Nat → Bool) : State :=
  let ours := fun (ch : Nat) (id : BitVec 48) => match s.job ch id with
    | some j => j.launch.isSome && s.cores.any fun c => mine c.1 && c.2.launch == j.launch
    | none => false
  let go := fun (t : State) (e : Nat × Outgoing) => (t.charge e.1 1 e.2.packets).emit e.2
  let stay := fun (t : State) (e : Nat × Outgoing) => t.modHub fun h => { h with port := h.port ++ [e] }
  s.hub.port.foldl (fun t e => match e.2 with
    | .peer pkg seq _ => if sentBy s mine pkg seq then go t e else stay t e
    | .hostRead _ (.job ch id) => if ours ch.toNat id then go t e else stay t e
    | .hostRead _ (.ctx c _) | .hostRead _ (.stream c _ _) => if mine c.toNat then t else stay t e
    | _ => stay t e) (s.modHub fun h => { h with port := [], metered := h.metered.filter fun e => !mine e.1 })

/-- STEPS 1 TO 3 of a stop, for cores whose contexts stand still: tricks settle, leases end, waits at other packages are cancelled and unit
operations are abandoned (R227, R256, R257, R370, R420, R457). -/
def settleCores (s : State) (ks : List Nat) : State :=
  let s := ks.foldl (fun s k =>
    let s := discardTricks s k
    let s := (s.core k).ctxs.foldl (fun s p => cancelSync s k p.1) s
    s.modCore k fun c => { c with
      ctxs := c.ctxs.map fun p => (p.1, { p.2 with leases := p.2.leases.map fun e => (e.1, e.2.cut s.tick) }) }) s
  (ks.map quadOf).eraseDups.foldl (fun s q => abandonUnits s q ks.contains) (settlePort s ks.contains)

/-- STOP CORES FOR PRE-EMPTION: their contexts stand still, traps of the tick are taken first, and what they have issued settles; a trump attempt
becomes one again after the resume (R224, R227, R420, R448). -/
def haltCores (s : State) (ks : List Nat) : State :=
  let s := ks.foldl (fun s k => (trapFirst (discardTricks s k) k).modCore k fun c => { c with halting := some s.tick }) s
  settleCores s ks

/-! ### Settling -/

/-- Whether an entry of a far-operation queue can still be performed. -/
def farOpen (s : State) (k x : Nat) : List FarEntry → List FarEntry → Bool
  | _, [] => false
  | before, e :: t => farReady s k x before e || farOpen s k x (before ++ [e]) t

/-- Whether the far atomics of a context have run to completion: what is left has a queued fault, or stands behind one (R227, R263). -/
def farSettled (s : State) (k x : Nat) (v : Ctx) : Bool :=
  v.farq.all (fun e => e.sent.isNone && e.old.isNone) && !farOpen s k x [] v.farq

/-- Whether the next bytes of an output stream go to a store that is evicted, copies into which are paused (R202). -/
def stripPaused (s : State) (k : Nat) (m : Stream) : Bool :=
  m.ls && match m.buf with
    | [] => false
    | p :: _ => match stripGranule m p with
      | some ((ea, _) :: _, _, _) => engineLocal s k (s.core k).launch ea 1 == .later
      | _ => false

/-- Whether an output stream's committed strips are written (R394). -/
def streamSettled (s : State) (k : Nat) (m : Stream) : Bool := !m.out || m.err || m.buf.isEmpty || stripPaused s k m

/-- Whether what a stopped context's unit waits for needs no more: it is withdrawn, or is to be sent again after the resume; a request that has
reached its home is served, and its reply awaited (R203, R273, R337, R370, R427). -/
def waitSettled (s : State) (k x : Nat) (v : Ctx) : Bool :=
  match v.life, v.req with
  | .blocked (.trapEntry _), _ => false
  | .blocked (.meter _), _ => true
  | .blocked _, some r => match r with
    | .answer _ _ _ | .trapped _ | .matrix _ | .atUnit | .tlbi _ _ _ _ | .lease _ _ => false
    | .send _ _ _ _ => resendPending s k x
    | .sync _ _ pkg _ _ _ => if pkg = s.pkg then isListed s k x || resendPending s k x else awayIdle s k x
    | .cap op page _ _ _ a => a.isNone && if paPackage (page * 4096) ≠ s.pkg then !s.hub.outstanding.any (·.isCap k x)
      else match op with
        | .give _ | .seal | .qryWait => true
        | _ => false
    | .chainPost _ _ _ | .chainWait _ _ _ => true
    | .queue _ _ _ | .remote _ _ _ _ _ _ | .vec _ _ _ _ _ _ => isListed s k x || resendPending s k x
  | _, _ => true

/-- Whether a stopped context has settled: its far atomics and accepted stores are performed, but for stores to an evicted core, its committed
strips are written, and its unit waits for nothing more (R202, R203, R227, R263, R394, R420). [DEDUCED, log 46] -/
def ctxSettled (s : State) (k x : Nat) (v : Ctx) : Bool :=
  (v.accepted.all fun a => s.away (s.core k).launch a.owner) && farSettled s k x v && (v.streams.all fun e => streamSettled s k e.2) &&
    waitSettled s k x v

/-- Whether a job of a stopped launch pauses where it stands: at a segment boundary, or for bytes that the barrier it signals does not take
(R344, R386). -/
def Job.paused (j : Job) (s : State) (ch : Nat) : Bool :=
  j.atBoundary || (decide (0 < j.owed) && !s.hub.outstanding.any (·.ctx == jobKey ch j.id))

/-- Whether a stopped core has settled: its contexts, and the jobs of its launch (R386, R420). -/
def coreSettled (s : State) (k : Nat) : Bool :=
  let c := s.core k
  (c.ctxs.all fun p => ctxSettled s k p.1 p.2) && s.chans.all fun e => e.2.jobs.all fun j => j.launch != c.launch || j.paused s e.1

end Sys2Proof.Machine
end

