-- ==== Sys2Proof/Machine/Deals.lean ====
section
/-! DEFINITION. Deals, the Dealer's choice, placement, and the completion of launches (R408 to R418, R427, R456). -/

namespace Sys2Proof.Machine

/-! ### Deals -/

/-- A deal as the launch that it would become (R408, R409). -/
def dealOf (part queue : Nat) (d : List Byte) : Launch where
  tag := 0
  part := part
  queue := queue
  deal := d
  cores := []
  retired := []
  saved := []
  savedQuads := []
  ending := none

/-- The fields of the FLAGS word (R409). -/
def Launch.csteps (l : Launch) : BitVec 3 := let c := l.flags.extractLsb' 37 3; if c = 0#3 then 2#3 else c
def Launch.limit (l : Launch) : BitVec 14 := let n := l.flags.extractLsb' 40 14; if n = 0#14 then 2048#14 else n
def Launch.irq (l : Launch) : Bool := l.flags.getLsbD 36
def Launch.overlap (l : Launch) : Bool := l.flags.getLsbD 35
def Launch.matrix (l : Launch) : Bool := l.flags.getLsbD 33
def Launch.byQuads (l : Launch) : Bool := l.flags.getLsbD 33 || l.flags.getLsbD 34
def Launch.det (l : Launch) : Bool := l.flags.getLsbD 32
/-- The root register of a launch (R398, R408). -/
def Launch.root (l : Launch) : Word := l.word 8 &&& 0x000FFFFFFFF0FFFF#64
/-- The workspace block of a launch (R408). -/
def Launch.wblk (l : Launch) : BitVec 7 := (l.word 32).extractLsb' 0 7

/-- The dies of a partition. -/
def State.diesOf (s : State) (p : Nat) : List Nat := (List.range 4).filter (s.part p).hasDie

/-- Whether a deal of a partition is malformed (R410). -/
def malformed (s : State) (l : Launch) : Bool :=
  let lim := (l.flags.extractLsb' 40 14).toNat
  let cores := 1024 * (s.diesOf l.part).length
  let S := Config.localBytes - 32768 * l.csteps.toNat
  l.flags &&& 0xFFC00000C080F000#64 != 0#64 || (l.word 32).extractLsb' 7 57 != 0#57 || (l.word 64).extractLsb' 6 58 != 0#58 ||
    (l.deal.drop 88).any (· != 0#8) || (decide (1 ≤ lim) && decide (lim ≤ 255)) || decide (lim > 8192) || (l.word 0).getLsbD 0 ||
    l.word 80 == 0#64 || (l.word 80).extractLsb' 0 21 != 0#21 || (l.word 56).extractLsb' 0 3 != 0#3 ||
    decide (l.wblk.toNat * 2048 + 2048 > S) || !(s.part l.part).pcls.getLsbD l.cls || decide (l.lanes > cores) ||
    (s.hub.lsclass.getLsbD l.cls && decide (l.lanes > cores / 2))

/-- The work queues of a partition (R411). -/
def workQueues (s : State) (p : Nat) : List (Nat × SliceQueue) :=
  s.squeues.filter fun q => q.2.en && q.2.host && q.2.z == 4#3 && s.partOfDie (q.1 / 1024) == p

/-- The deal at the head of a work queue. -/
def headOf (s : State) (q : Nat) : Option Launch :=
  (s.squeue q).items.head?.map fun d => dealOf (s.partOfDie (q / 1024)) q d

/-- Put off every look of a partition's Dealer, but for one in `n` ticks. -/
def State.askDealer (s : State) (p n : Nat) : State :=
  let e := Instr.dealPlacement (BitVec.ofNat 2 p)
  { s with agenda := s.agenda.filter fun a => a.2 != e }.post n e

/-! ### Reading and writing on behalf of a launch -/

/-- Bytes within one granule, read through the ROOT of a deal: a word of the host, or a page of another package, is asked for first (R401,
R405, R414). -/
def readVia (s : State) (l : Launch) (ea : Word) (n : Nat) : Reach (List Byte) :=
  if ea.extractLsb' 56 8 ≠ 0#8 then .fail 2
  else
    match s.walk l.part [] l.root ea.toNat with
    | .error _ => .fail 2
    | .ok (e, _) =>
      match s.checkPage l.part e ea.toNat 0 with
      | .error _ => .fail 2
      | .ok pa =>
        if hostResident pa then
          let ws := (List.range (n / 8)).map fun i => pa + 8 * i
          match ws.find? fun w => (s.hub.dealWords.find? (·.1 == w)).isNone with
          | some w => .host w
          | none => .ok (ws.flatMap fun w => toBytes 8 ((s.hub.dealWords.find? (·.1 == w)).elim 0 (·.2.toNat)))
        else if (s.needPage pa (s.coreOfPart l.part) false).isSome then .line (pa / 64) 1
        else .ok (memBytes s.mem pa n)

/-- The footprint regions of a deal; none with FPT = 0 or a block that cannot be read (R408, R414). -/
def dealRegions (s : State) (l : Launch) : Reach (List FpEntry) :=
  let a := l.word 72
  if a = 0#64 ∨ a.extractLsb' 0 6 ≠ 0#6 then .fail 2
  else
    match readVia s l a 64, readVia s l (a + 64#64) 64 with
    | .ok x, .ok y => match footprint ((chunks 8 16 (x ++ y)).map fun b => BitVec.ofNat 64 (ofBytes b)) with
      | some es => .ok es
      | none => .fail 2
    | .ok _, .host w => .host w
    | .ok _, .line n c => .line n c
    | .host w, _ => .host w
    | .line n c, _ => .line n c
    | _, _ => .fail 2

/-- Ask for what a footprint block lacks (R236, R405, R414). -/
def dealAsk (s : State) (l : Launch) : State :=
  match dealRegions s l with
  | .host w =>
    if s.hub.dealWait.isSome then s else (s.modHub fun h => { h with dealWait := some w }).sendPort l.cls (.hostRead w .dealer)
  | .line n _ => (s.needPage (64 * n) (s.coreOfPart l.part) false).getD s
  | _ => s

/-- Whether the footprints of two deals are disjoint (R414). -/
def disjoint (s : State) (a b : Launch) : Bool :=
  match dealRegions s a, dealRegions s b with
  | .ok x, .ok y => !x.any fun e => y.any fun f => (e.write || f.write) && meets e.base e.size f.base f.size
  | _, _ => false

/-- The outcome of writing a completion word (R418): done, or it waits in the state given. One in host memory is a posted write, which waits at
the port for its class's meter; a malformed deal's charges no class, and no deal's charges a class of another partition (R410, R424, R426).
[DEDUCED, log 45] -/
def writeCompletion (s : State) (l : Launch) (status tag : Nat) : State × Bool :=
  let a := l.word 56
  let w : Word := BitVec.ofNat 64 (status * 2 ^ 56 + tag)
  let fail := (s.discard (some l.part) Config.hub tag 0x0A 3 [a, w], true)
  if a = 0#64 then (s, true)
  else if a.extractLsb' 0 3 ≠ 0#3 ∨ a.extractLsb' 56 8 ≠ 0#8 then fail
  else
    match s.walk l.part [] l.root a.toNat with
    | .error _ => fail
    | .ok (e, _) =>
      match s.checkPage l.part e a.toNat 1 with
      | .error _ => fail
      | .ok pa =>
        if hostResident pa then
          let o := Outgoing.hostWrite pa (toBytes 8 w.toNat)
          (if status ≠ 1 ∧ (s.part l.part).pcls.getLsbD l.cls = true then s.sendPort l.cls o else s.emit o, true)
        else if s.capFails (s.coreOfPart l.part) pa 65536 4096 false then fail
        else
          match s.needPage pa (s.coreOfPart l.part) true with
          | some t => (t, false)
          | none =>
            match s.writeEvent (fun c => s.partOf c == l.part) [pa / 64] none false with
            | none => (s, false)
            | some t => (((t.putMem pa (toBytes 8 w.toNat)).invalidate [pa / 64] none).noteDirty [pa / 64], true)

/-- A completion word that waits asks for what its page needs (R405). -/
def completionAsk (s : State) (l : Launch) : State :=
  let a := (l.word 56).toNat
  match s.walk l.part [] l.root a with
  | .ok (e, _) =>
    match s.checkPage l.part e a 1 with
    | .ok pa => (s.needPage pa (s.coreOfPart l.part) true).getD s
    | .error _ => s
  | .error _ => s

/-- MALFORMED_DEAL_REMOVAL: the malformed deal at the head of a queue is removed with status 1 and recorded (R410, R418). -/
def execMalformedDealRemoval (queue : QueueId) (s : State) : Out :=
  let q := queue.toNat
  match headOf s q with
  | none => .next s
  | some l =>
    if !malformed s l || !(workQueues s l.part).any fun e => e.1 == q then .next s
    else
      match writeCompletion s l 1 0 with
      | (_, false) => .next ((completionAsk s l).post 1 (.malformedDealRemoval queue))
      | (t, true) =>
        .next ((t.modSqueue q fun u => { u with items := u.items.tail }).discard (some l.part) Config.hub 0 0x0A 1 [BitVec.ofNat 64 q, l.flags])

/-! ### The Dealer's choice -/

/-- Whether a deal may begin beside the launches of its queue (R413, R414). -/
def mayBegin (s : State) (l : Launch) : Bool :=
  let before := s.launches.filter fun m => m.2.queue == l.queue && m.2.part == l.part
  before.isEmpty || (l.overlap && before.all fun m => disjoint s m.2 l)

/-- Whether no meter of a deal's class is exhausted (R412). -/
def metersAllow (s : State) (l : Launch) : Bool := !(List.range 4).any fun m => s.exhausted l.cls m

/-- Cores that pre-empted lanes of launches of equal or higher priority will take back (R422). -/
def reservedFor (s : State) (prio k : Nat) : Bool :=
  s.launches.any fun m => decide (prio ≤ m.2.prio) && m.2.saved.any fun e =>
    let c := m.2.cores.getD e.1 4096
    c == k || (m.2.lock && c + 1 == k)

/-- Whether a core is free for a deal (R416, R422, R445). -/
def freeFor (s : State) (l : Launch) (k : Nat) : Bool :=
  let c := s.core k
  c.launch.isNone && !c.stopped && !reservedFor s l.prio k

/-- The cores of a partition in ascending index. -/
def State.coresOf (s : State) (p : Nat) : List Nat := (s.diesOf p).flatMap fun d => (List.range 1024).map (· + 1024 * d)

/-- The cores that a deal takes, each with its lane and whether it is a checker, the lanes rising; those of a chosen quad beyond the
lane count belong to the launch too and stay idle (R282, R416, R441, R442). -/
def chooseCores (s : State) (l : Launch) (free : Nat → Bool) : Option (List (Nat × Nat × Bool)) :=
  let all := s.coresOf l.part
  let lock := s.hub.lsclass.getLsbD l.cls
  if l.byQuads then
    let quads := all.filter fun k => k % 4 == 0 && free k && free (k + 1) && free (k + 2) && free (k + 3)
    let per := if lock then 2 else 4
    let n := (l.lanes + per - 1) / per
    if quads.length < n then none
    else
      some ((List.range n).flatMap fun j =>
        let k := quads.getD j 0
        if lock then [(k, 2 * j, false), (k + 1, 2 * j, true), (k + 2, 2 * j + 1, false), (k + 3, 2 * j + 1, true)]
        else [(k, 4 * j, false), (k + 1, 4 * j + 1, false), (k + 2, 4 * j + 2, false), (k + 3, 4 * j + 3, false)])
  else if lock then
    let pairs := all.filter fun k => k % 2 == 0 && free k && free (k + 1)
    if pairs.length < l.lanes then none
    else some ((List.range l.lanes).flatMap fun j => [(pairs.getD j 0, j, false), (pairs.getD j 0 + 1, j, true)])
  else
    let cores := all.filter free
    if cores.length < l.lanes then none else some ((List.range l.lanes).map fun j => (cores.getD j 0, j, false))

/-- Launches in ascending priority, then in descending tag (R419). -/
def victimInsert (l : Launch) : List Launch → List Launch
  | [] => [l]
  | m :: t => if l.prio < m.prio ∨ (l.prio = m.prio ∧ m.tag < l.tag) then l :: m :: t else m :: victimInsert l t

/-- What is pre-empted together, in the order in which it is taken: single cores, pairs or quads, descending (R282, R419, R441). -/
def victimUnits (s : State) (l : Launch) : List (List Nat) :=
  let low := (s.launches.filter fun m => m.2.part == l.part && decide (m.2.prio < l.prio) && m.2.ending.isNone).map (·.2)
  (low.foldr victimInsert []).flatMap fun m =>
    let mine := ((s.cores.filter fun c => c.2.launch == some m.tag && !c.2.stopped).map (·.1)).reverse
    if m.byQuads then
      (mine.filter fun k => k % 4 == 0 && [k + 1, k + 2, k + 3].all mine.contains).map fun k => [k, k + 1, k + 2, k + 3]
    else if m.lock then (mine.filter fun k => k % 2 == 0 && mine.contains (k + 1)).map fun k => [k, k + 1]
    else mine.map fun k => [k]

/-- The cores to pre-empt until enough are free, or none where they never are (R419). -/
def victims (s : State) (l : Launch) : List (List Nat) → List Nat → Option (List Nat)
  | [], _ => none
  | u :: t, got =>
    let got := got ++ u
    if (chooseCores s l fun k => freeFor s l k || got.contains k).isSome then some got else victims s l t got

/-- What the Dealer can do for a head: place it on these cores, or pre-empt these (R412, R419). -/
inductive Chance where
  | place (cores : List (Nat × Nat × Bool))
  | preempt (cores : List Nat)
  deriving DecidableEq, Repr

def chanceOf (s : State) (l : Launch) : Option Chance :=
  if !mayBegin s l || !metersAllow s l then none
  else
    match chooseCores s l (freeFor s l) with
    | some c => some (.place c)
    | none => (victims s l (victimUnits s l) []).map .preempt

/-- The head the Dealer takes: of the highest priority, in round-robin after the queue last served at that priority (R412). -/
def bestHead (s : State) (p : Nat) (heads : List (Launch × Chance)) : Option (Launch × Chance) :=
  let top := heads.foldl (fun n e => max n e.1.prio) 0
  let same := heads.filter fun e => e.1.prio == top
  match tabFind (s.part p).lastQueue top with
  | none => same.head?
  | some q => match same.find? fun e => decide (q < e.1.queue) with
    | some e => some e
    | none => same.head?

/-! ### Placement -/

/-- The first of `n` launch tags from `t` on that is not 0 and none of a live launch of the package (R416). -/
def freeTag (s : State) : Nat → Nat → Option Nat
  | 0, _ => none
  | n + 1, t => if t % 65536 != 0 && (s.launch (t % 65536)).isNone then some (t % 65536) else freeTag s n (t + 1)

/-- The next launch tag of a partition: not 0, and none of a live launch of the package (R416). -/
def nextTag (s : State) (p : Nat) : Nat := (freeTag s 65536 ((s.part p).lastTag + 1)).getD 1

/-- The local store at placement: what lies beyond the portion is gone, and where context 0 is to start, the workspace registers are 0
but for g8 and g9 (R185, R416). [DEDUCED, log 53] -/
def placedStore (l : Launch) (c : Core) (starts : Bool) : List Host.Cell :=
  let S := Config.localBytes - 32768 * l.csteps.toNat
  let w := l.wblk.toNat * 2048
  let m := memClear c.store S (Config.localBytes - S)
  if !starts then m
  else
  let m := memClear (memClear m (w + 8) 248) (w + 384) 896
  memWrite (memWrite m (w + 64) 8 (l.word 40).toNat) (w + 72) 8 (l.word 48).toNat

/-- A context at placement: idle, its vector registers zero (R107, R151, R416). -/
def placedCtx (now : Nat) (l : Launch) (v : Ctx) : Ctx :=
  { v.stopped now with v := [], limit := l.limit, readyAt := 0, rep := none, normEnd := none, interval := 0, hostReplies := [] }

/-- A core that a launch is placed on: it holds live contexts, or takes requests, and so is not gated (R126, R138, R151, R198, R276, R292, R310,
R314, R342, R353, R361, R366, R404, R416, R430, R475). [DEDUCED, log 36] Where the launch has no matrix flag, the fields of MXCFG are reset as
R292 says, and the tables and tiles, which it cannot use, stay [DEDUCED, log 87]. -/
def placedCore (now : Nat) (l : Launch) (lane : Nat) (checker : Bool) (c : Core) : Core :=
  let ctxs : Tab Ctx := (List.range 16).map fun x => (x, placedCtx now l (c.ctx x))
  let c := { c with
    ctxs := ctxs, store := placedStore l c (lane < l.lanes && !checker), empty := [], csteps := l.csteps, q := [], last := 0, t0 := now, det := l.det,
    launch := some l.tag, lane := lane, startCount := 0, phasePoint := true, parking := [], sctx := 0#6, barriers := [], sems := [],
    wake := [], cls := c.cls.map (fun e => if e.1 % 2 = 1 then (e.1, e.2 &&& ~~~0x200#64) else e), clsBefore := none,
    vmroot := l.root, trapq := [], trapWait := [], trapSeq := 0, wakeAt := none, svIdle := 0, tlb := [], halting := none,
    checker := checker, mismatch := [], dtenc := 0x95#8, inuse := 0#4, rows := 96, cols := 128, gated := none, asleep := false }
  let c := if l.matrix then { c with fmt := 0x4D0000A99#64, tables := [], tiles := [] } else c
  if lane < l.lanes ∧ checker = false then c.setCtx 0 (startCtx (c.ctx 0) (l.word 0) l.wblk now) else c

/-- The quad of a core that a launch is placed on; no other launch there has a chain (R310, R335). -/
def placedQuad (l : Launch) (q : Quad) : Quad :=
  let q := { q with chainBuf := none, chainFull := false, posts := 0#16, waits := 0#16 }
  if l.matrix then { q with bsram := [] } else q

/-- PLACE A DEAL (R416): one event; its deal leaves the queue. -/
def place (s : State) (l : Launch) (cores : List (Nat × Nat × Bool)) : State :=
  let tag := nextTag s l.part
  let l := { l with
    tag := tag
    cores := (cores.filter fun e => !e.2.2).map (·.1)
    lock := s.hub.lsclass.getLsbD l.cls }
  let s := s.modPart l.part fun p => { p with lastTag := tag, lastQueue := tabSet p.lastQueue l.prio l.queue, placedAt := some s.tick }
  let s := (s.modSqueue l.queue fun u => { u with items := u.items.tail }).modHub fun h => { h with dealWords := [] }
  let quads := (cores.map fun e => quadOf e.1).eraseDups
  let s := quads.foldl (fun s q => s.modQuad q (placedQuad l)) s
  let s := cores.foldl (fun s e => s.modCore e.1 (placedCore s.tick l e.2.1 e.2.2)) s
  let s := { s with launches := tabSet s.launches tag l }
  let b := l.word 64
  match l.cores.head? with
  | some k =>
    if b.getLsbD 5 then
      s.setBarrier k (b.extractLsb' 0 5).toNat { scope := scopeCode .pkg, expected := BitVec.ofNat 32 l.lanes }
    else s
  | none => s

/-- Host queues that are no work queues are recorded, once each (R411). -/
def noteQueues (s : State) (p : Nat) : State :=
  let wrong := s.squeues.filter fun q => q.2.en && q.2.host && q.2.z != 4#3 && !q.2.noted && s.partOfDie (q.1 / 1024) == p
  wrong.foldl (fun (s : State) (q : Nat × SliceQueue) =>
    let w : Word := 0#55 ++ BitVec.ofBool q.2.en ++ BitVec.ofBool q.2.host ++ q.2.z ++ q.2.c
    (s.modSqueue q.1 fun u => { u with noted := true }).discard (some p) Config.hub 0 0x0A 2 [BitVec.ofNat 64 q.1, w]) s

/-- The malformed deals among the heads are to be removed (R410). -/
def removeMalformed (s : State) (heads : List Launch) : State :=
  (heads.filter (malformed s)).foldl (fun (s : State) (l : Launch) =>
    let e := Instr.malformedDealRemoval (BitVec.ofNat 12 l.queue)
    if s.agenda.any fun a => a.2 == e then s else s.post 0 e) s

/-- What the Dealer does with the best of the eligible heads (R412, R416, R419). -/
def dealAct (s : State) (part : BitVec 2) (heads : List Launch) : State :=
  let p := part.toNat
  let s := (heads.filter (·.overlap)).foldl (fun s l =>
    (l :: (s.launches.filter fun m => m.2.queue == l.queue && m.2.part == l.part).map (·.2)).foldl dealAsk s) s
  let able := (heads.filter fun l => !malformed s l).filterMap fun l => (chanceOf s l).map fun c => (l, c)
  match bestHead s p able with
  | some (l, .place cores) => place s l cores
  | some (_, .preempt cores) =>
    if s.cores.any fun c => c.2.halting.isSome && s.partOf c.1 == p then s
    else (haltCores s cores).post 0 (.preemption part)
  | none => s

/-- DEAL_PLACEMENT: in a tick the Dealer of a partition places at most one deal, the best of the eligible heads, or pre-empts for it when
cores are lacking and no pre-emption is under way; it looks again while deals are queued, and does nothing once power has been removed (R411,
R412, R416, R419, R427, R474). -/
def execDealPlacement (part : BitVec 2) (s : State) : Out :=
  let p := part.toNat
  let s := { s with agenda := s.agenda.filter fun a => a.2 != Instr.dealPlacement part }
  let s := noteQueues s p
  if s.hub.removed = true ∨ ((s.part p).mode ≠ 1 ∧ (s.part p).mode ≠ 2) then .next s
  else
    let qs := workQueues s p
    let heads := qs.filterMap fun q => headOf s q.1
    let s := removeMalformed s heads
    let s := if (s.part p).placedAt = some s.tick then s else dealAct s part heads
    .next (if (workQueues s p).any fun q => !q.2.items.isEmpty then s.post 1 (.dealPlacement part) else s)

/-! ### Completion -/

/-- The function that owns a work queue, 64 for PF0, and the vector of its completion interrupt (R456). -/
def interruptOf (s : State) (q p : Nat) : Nat × BitVec 6 :=
  match (List.range 64).find? fun k =>
    let w := (s.vf k).reg
    w.getLsbD 27 && (w.extractLsb' 24 2).toNat == p && decide ((w.extractLsb' 0 12).toNat ≤ q ∧ q ≤ (w.extractLsb' 12 12).toNat) with
  | some k => (k, BitVec.ofNat 6 (q - ((s.vf k).reg.extractLsb' 0 12).toNat))
  | none => (64, BitVec.ofNat 6 q)

/-- Send an interrupt message, charged to a class (R423, R456). -/
def sendInterrupt (s : State) (fn : Nat) (v : BitVec 6) (cls : Nat) : State :=
  (s.emit (.interrupt fn v)).charge cls 1 1

/-- Raise a completion interrupt: while the FABRIC meter is exhausted, those of one vector merge into one pending (R418, R456). -/
def raiseInterrupt (s : State) (l : Launch) : State :=
  let (fn, v) := interruptOf s l.queue l.part
  if !s.exhausted l.cls 1 then sendInterrupt s fn v l.cls
  else if s.hub.pendingIrq.any fun e => e.1 == fn && e.2.1 == v then s
  else (s.modHub fun h => { h with pendingIrq := h.pendingIrq ++ [(fn, v, l.cls)] }).postPoll 1 (.pendingInterruptSend fn v)

/-- PENDING_INTERRUPT_SEND (R456). -/
def execPendingInterruptSend (fn : Nat) (vector : BitVec 6) (s : State) : Out :=
  match s.hub.pendingIrq.find? fun e => e.1 == fn && e.2.1 == vector with
  | none => .next s
  | some e =>
    if s.exhausted e.2.2 1 then .next (s.postPoll 1 (.pendingInterruptSend fn vector))
    else .next (sendInterrupt (s.modHub fun h => { h with pendingIrq := h.pendingIrq.erase e }) fn vector e.2.2)

/-- Whether nothing of a core's contexts keeps its launch from completing: far atomics, tricks, streams (R417). -/
def coreDone (c : Core) : Bool :=
  c.ctxs.all fun p => p.2.settled && p.2.farq.isEmpty && p.2.accepted.isEmpty && !p.2.streams.any fun m => m.2.out && !m.2.buf.isEmpty

/-- Whether a launch can complete: all that it issued has ended, or, where it is being ended, has settled on the cores that still work (R417, R420,
R457). -/
def launchDone (s : State) (l : Launch) : Bool :=
  let ended := l.ending.isSome
  (List.range l.lanes).all l.retired.contains && !(s.chans.any fun c => c.2.jobs.any fun j => j.launch == some l.tag) &&
    (s.cores.all fun c => c.2.launch != some l.tag || if ended then c.2.stopped || coreSettled s c.1 else coreDone c.2) &&
    (ended || l.saved.all fun e => coreDone e.2)

/-- The cores of a launch are free again; a post of its chain that no wait has received is gone (R27, R332, R416). -/
def freeCores (s : State) (tag : Nat) : State :=
  let s := stopCores s tag
  let quads := match s.launch tag with
    | some l => if l.byQuads then ((s.cores.filter fun (c : Nat × Core) => c.2.launch == some tag).map fun (c : Nat × Core) => quadOf c.1).eraseDups else []
    | none => []
  let s := quads.foldl (fun (s : State) (q : Nat) => s.modQuad q fun u =>
    { u with chainBuf := none, chainFull := false }) s
  { s with cores := s.cores.map fun c =>
      if c.2.launch == some tag then
        (c.1, { c.2 with launch := none, det := false, checker := false, halting := none, mismatch := [] })
      else c }

/-- LAUNCH_COMPLETION, after everything else of its tick: once every lane, job, stream, far atomic and trick of a launch has ended, or what its
stopped cores had issued has settled, one event opens its HELD regions, writes its completion word, frees its cores and raises its interrupt, after
a PodRelease (R239, R268, R417, R418, R420, R427, R456, R457). -/
def execLaunchCompletion (tag : BitVec 16) (s : State) : Out :=
  let t := tag.toNat
  match s.launch t with
  | none => .next s
  | some l =>
    let s := { s with agenda := s.agenda.filter fun a => a.2 != Instr.launchCompletion tag }
    let again := fun (s : State) => Host.Outcome.next (s.postPoll 1 (.launchCompletion tag))
    let k := s.coreOfPart l.part
    let s := if l.ending.isSome then settleCores s ((s.cores.filter fun c => c.2.launch == some t).map (·.1)) else s
    if !launchDone s l then again s
    else if !s.podReleased k then again (s.flushDirty k 0 l.cls)
    else
      match openHeld t s.caps s with
      | (_, false) => again s
      | (s1, true) =>
        let status := l.ending.getD 0
        match writeCompletion s1 l status t with
        | (_, false) => again (completionAsk s l)
        | (s2, true) =>
          let s3 := freeCores s2 t
          let s3 := if l.irq && (status == 0 || status == 3) then raiseInterrupt s3 l else s3
          .next ({ s3 with launches := tabErase s3.launches t }.askDealer l.part 1)

end Sys2Proof.Machine
end

