-- ==== Sys2Proof/Machine/Ext.lean ====
section
/-! DEFINITION. Units with an EXT prefix (R36 to R38). -/

namespace Sys2Proof.Machine

/-- Bodies whose offset or immediate the payload extends (R36). -/
def takesImmediate : Instr → Bool
  | .br _ | .call _ | .bcc _ _ _ _ | .loop _ _ | .bp _ _ _ | .addi _ _ _ | .logiAnd _ _ _ | .logiOr _ _ _ | .logiXor _ _ _ 
  | .logiAndn _ _ _ | .li _ _ | .lih _ _ | .ld _ _ _ _ _ | .st _ _ _ _ | .ldfe _ _ _ | .stfe _ _ _ | .ldg _ _ _ _ _ 
  | .stg _ _ _ _ | .prefRd _ _ | .prefOwn _ _ | .prefSlc _ _ => true
  | _ => false

/-- For a format V body: its mod field, whether it rounds, and whether saturation has a meaning for it (R34, R36, R157, R159, R172,
R322). A prefixed VCVT to an integer type rounds a floating-point source by the payload. VRED and VSCAN take mod and payload by the class that
R157 gives their majors, also in the forms that neither round nor saturate. [DEDUCED, log 35] -/
def vModifiers : Instr → Option (BitVec 2 × Bool × Bool)
  | .vadd _ _ _ _ t m | .vsub _ _ _ _ t m | .vmul _ _ _ _ t m | .vfma _ _ _ _ t m | .vdiv _ _ _ _ t m | .vredAdd _ _ _ t m 
  | .vredMin _ _ _ t m | .vredMax _ _ _ t m | .vredAnd _ _ _ t m | .vredOr _ _ _ t m | .vredXor _ _ _ t m | .vdot _ _ _ _ t m 
  | .vscanAdd _ _ _ t m | .vscanMin _ _ _ t m | .vscanMax _ _ _ t m | .vsh _ _ _ _ t m => some (m, !t.isInt, t.isInt)
  | .vsqrt _ _ _ _ m | .vunRint _ _ _ _ m => some (m, true, false)
  | .vfunExp2 _ _ _ _ m | .vfunLog2 _ _ _ _ m | .vfunRcp _ _ _ _ m | .vfunRsq _ _ _ _ m | .vfunSinpi _ _ _ _ m 
  | .vfunCospi _ _ _ _ m | .vfunTanh _ _ _ _ m => some (m, true, false)
  | .vunNeg _ _ _ t m | .vunAbs _ _ _ t m => some (m, false, t.isInt)
  | .vcvt _ _ srcT _ t m | .vcvtHi _ _ srcT _ t m => some (m, !t.isInt || !srcT.isInt, t.isInt)
  | .vmin _ _ _ _ _ | .vmax _ _ _ _ _ | .vunPopc _ _ _ _ | .vunClz _ _ _ _ | .vlogAnd _ _ _ _ | .vlogOr _ _ _ _ 
  | .vlogXor _ _ _ _ | .vlogAndn _ _ _ _ | .vlogOrn _ _ _ _ | .vlogNand _ _ _ _ | .vlogNor _ _ _ _ | .vlogXnor _ _ _ _ 
  | .vlogNot _ _ _ _ | .vcmp _ _ _ _ _ _ | .whilePred _ _ _ _ _ _ | .plogAnd _ _ _ _ | .plogOr _ _ _ _ | .plogXor _ _ _ _ 
  | .plogAndn _ _ _ _ | .vsel _ _ _ _ _ | .vperm _ _ _ _ _ | .vbcast _ _ _ _ | .vext _ _ _ _ | .vins _ _ _ _ | .vzip _ _ _ _ _ 
  | .vld _ _ _ _ _ | .vst _ _ _ _ _ | .vgath _ _ _ _ _ | .vscat _ _ _ _ _ | .vshuf _ _ _ _ _ | .vmov _ _ _ _ | .vldg _ _ _ _ _ 
  | .vstg _ _ _ _ _ | .sjoinT _ _ => some (0#2, false, false)
  | _ => none

/-- Whether a prefix with a payload may stand before a body (R36, R38). -/
def prefixFits (payload : BitVec 24) (body : Instr) : Bool :=
  takesImmediate body ||
    match vModifiers body with
    | none => false
    | some (m, rounds, saturates) =>
      let mode := payload.extractLsb' 0 3
      let dynamic := payload.getLsbD 4
      m == 0#2 && payload.extractLsb' 5 19 == 0#19 && decide (mode.toNat ≤ 5) && !(dynamic && mode != 0#3) &&
        (rounds || (mode == 0#3 && !dynamic)) && (saturates || !payload.getLsbD 3)

/-- EXT_PREFIXED_UNIT: the body with the payload of its prefix, which the body's immediates and modifiers read (R36 to R38). -/
def execExtPrefixedUnit (payload : BitVec 24) (body : Instr) (s : State) : Out :=
  if prefixFits payload body then
    match body with
    | .br off => execBr off s
    | .call off => execCall off s
    | .bcc c s1 s2 off => execBcc c s1 s2 off s
    | .loop ctr off => execLoop ctr off s
    | .bp c p off => execBp c p off s
    | .addi d s1 imm => execAddi d s1 imm s
    | .logiAnd d s1 imm => execLogiAnd d s1 imm s
    | .logiOr d s1 imm => execLogiOr d s1 imm s
    | .logiXor d s1 imm => execLogiXor d s1 imm s
    | .logiAndn d s1 imm => execLogiAndn d s1 imm s
    | .li d imm => execLi d imm s
    | .lih d imm => execLih d imm s
    | .ld d b off z x => execLd d b off z x s
    | .st d b off z => execSt d b off z s
    | .ldfe d b off => execLdfe d b off s
    | .stfe d b off => execStfe d b off s
    | .ldg d b off z x => execLdg d b off z x s
    | .stg d b off z => execStg d b off z s
    | .prefRd b off => execPrefRd b off s
    | .prefOwn b off => execPrefOwn b off s
    | .prefSlc b off => execPrefSlc b off s
    | .vadd d s1 s2 p t m => execVadd d s1 s2 p t m s
    | .vsub d s1 s2 p t m => execVsub d s1 s2 p t m s
    | .vmul d s1 s2 p t m => execVmul d s1 s2 p t m s
    | .vfma d s1 s2 p t m => execVfma d s1 s2 p t m s
    | .vdiv d s1 s2 p t m => execVdiv d s1 s2 p t m s
    | .vsqrt d s1 p t m => execVsqrt d s1 p t m s
    | .vmin d s1 s2 p t => execVmin d s1 s2 p t s
    | .vmax d s1 s2 p t => execVmax d s1 s2 p t s
    | .vunNeg d s1 p t m => execVunNeg d s1 p t m s
    | .vunAbs d s1 p t m => execVunAbs d s1 p t m s
    | .vunRint d s1 p t m => execVunRint d s1 p t m s
    | .vunPopc d s1 p t => execVunPopc d s1 p t s
    | .vunClz d s1 p t => execVunClz d s1 p t s
    | .vlogAnd d s1 p t => execVlogAnd d s1 p t s
    | .vlogOr d s1 p t => execVlogOr d s1 p t s
    | .vlogXor d s1 p t => execVlogXor d s1 p t s
    | .vlogAndn d s1 p t => execVlogAndn d s1 p t s
    | .vlogOrn d s1 p t => execVlogOrn d s1 p t s
    | .vlogNand d s1 p t => execVlogNand d s1 p t s
    | .vlogNor d s1 p t => execVlogNor d s1 p t s
    | .vlogXnor d s1 p t => execVlogXnor d s1 p t s
    | .vlogNot d s1 p t => execVlogNot d s1 p t s
    | .vsh d s1 s2 p t m => execVsh d s1 s2 p t m s
    | .vcmp q c s1 s2 p t => execVcmp q c s1 s2 p t s
    | .whilePred q l u s1 s2 t => execWhilePred q l u s1 s2 t s
    | .plogAnd q s1 s2 g => execPlogAnd q s1 s2 g s
    | .plogOr q s1 s2 g => execPlogOr q s1 s2 g s
    | .plogXor q s1 s2 g => execPlogXor q s1 s2 g s
    | .plogAndn q s1 s2 g => execPlogAndn q s1 s2 g s
    | .vcvt d s1 srcT p t m => execVcvt d s1 srcT p t m s
    | .vcvtHi d s1 srcT p t m => execVcvtHi d s1 srcT p t m s
    | .vfunExp2 d s1 x p m => execVfunExp2 d s1 x p m s
    | .vfunLog2 d s1 x p m => execVfunLog2 d s1 x p m s
    | .vfunRcp d s1 x p m => execVfunRcp d s1 x p m s
    | .vfunRsq d s1 x p m => execVfunRsq d s1 x p m s
    | .vfunSinpi d s1 x p m => execVfunSinpi d s1 x p m s
    | .vfunCospi d s1 x p m => execVfunCospi d s1 x p m s
    | .vfunTanh d s1 x p m => execVfunTanh d s1 x p m s
    | .vredAdd d s1 p t m => execVredAdd d s1 p t m s
    | .vredMin d s1 p t m => execVredMin d s1 p t m s
    | .vredMax d s1 p t m => execVredMax d s1 p t m s
    | .vredAnd d s1 p t m => execVredAnd d s1 p t m s
    | .vredOr d s1 p t m => execVredOr d s1 p t m s
    | .vredXor d s1 p t m => execVredXor d s1 p t m s
    | .vdot d s1 s2 p t m => execVdot d s1 s2 p t m s
    | .vsel d s1 s2 p t => execVsel d s1 s2 p t s
    | .vperm d s1 s2 p t => execVperm d s1 s2 p t s
    | .vbcast d s1 p t => execVbcast d s1 p t s
    | .vext d s1 s2 t => execVext d s1 s2 t s
    | .vins d s1 s2 t => execVins d s1 s2 t s
    | .vzip d s1 s2 p t => execVzip d s1 s2 p t s
    | .vscanAdd d s1 p t m => execVscanAdd d s1 p t m s
    | .vscanMin d s1 p t m => execVscanMin d s1 p t m s
    | .vscanMax d s1 p t m => execVscanMax d s1 p t m s
    | .vld d s1 s2 p t => execVld d s1 s2 p t s
    | .vst d s1 s2 p t => execVst d s1 s2 p t s
    | .vgath d s1 s2 p t => execVgath d s1 s2 p t s
    | .vscat d s1 s2 p t => execVscat d s1 s2 p t s
    | .vshuf d s1 s2 p t => execVshuf d s1 s2 p t s
    | .vmov d s1 p t => execVmov d s1 p t s
    | .vldg d s1 s2 p t => execVldg d s1 s2 p t s
    | .vstg d s1 s2 p t => execVstg d s1 s2 p t s
    | .sjoinT d s1 => execSjoinT d s1 s
    | _ => runIn (stopTrap .illegal) s
  else runIn (stopTrap .illegal) s

end Sys2Proof.Machine
end

