-- ==== Sys2Proof/Machine/Preempt.lean ====
section
/-! DEFINITION. Pre-emption, the save slots, resumption, and budget periods (R202, R203, R227, R370, R386, R419 to R426). -/

namespace Sys2Proof.Machine

/-! ### Saving -/

/-- A stream as it is saved: an input stream fills afresh from the first strip not popped by a committed trick (R394). -/
def Stream.saved (m : Stream) : Stream :=
  let m := { m with hostWait := none, hostData := [], part := [] }
  if m.out then m else { m with next := (m.buf.head?.map (·.index)).getD m.next, buf := [] }

/-- A context as it is saved: what has not retired issues again, and a store to an evicted core has no entry in a parking table (R104, R107, R202,
R203, R227, R257). -/
def savedCtx (v : Ctx) : Ctx :=
  let life := match v.life with
    | .idle => Life.idle
    | .parked => .parked
    | .blocked .trump => .blocked .trump
    | _ => .ready
  let streams := (unstrip v.streams v.running).map fun e => (e.1, e.2.saved)
  { v with life := life, leases := stopLeases v.leases, req := none, hostReplies := [], normEnd := none, interval := 0, streams := streams,
           yield := none, reserve := none, refusals := 0, fetched := [], tileFree := false, farq := v.farq.map fun e => { e with due := none },
           accepted := v.accepted.map fun a => { a with held := false, entry := false, free := none },
           running := { v.running with pops := [], pushes := [], stripPops := [], stripPushes := [] } }

/-- The save areas of the contexts of a core that will go on by themselves (R130, R429); a PARKED context's holds what its trap entry wrote. -/
def savedAreas (c : Core) : List Host.Cell :=
  c.ctxs.foldl (fun m p => if p.2.life = .idle ∨ p.2.life = .parked then m else saveArea m p.2 p.2.pc) c.store

/-- A core as it is saved; popped entries of units that did not retire are back in their registers (R52, R138, R430). -/
def savedCore (c : Core) : Core :=
  { c with
    store := savedAreas c
    q := c.ctxs.foldl (fun (q : Tab QueueReg) (p : Nat × Ctx) => unpop q p.2.running.pops) c.q
    ctxs := c.ctxs.map fun p => (p.1, savedCtx p.2)
    parking := []
    wake := []
    tlb := []
    halting := none }

/-- Replace `n` bytes from an address on by listed bytes of that range. -/
def memSplice (m : List Host.Cell) (a n : Nat) (cells : List Host.Cell) : List Host.Cell :=
  m.filter (fun c => decide (c.1 < a)) ++ cells ++ m.filter fun c => decide (a + n ≤ c.1)

/-- The full/empty bits of 64 words, 1 for full, in word order (R421). -/
def fullByte (empty : List Nat) (i : Nat) : Byte :=
  BitVec.ofNat 8 ((List.range 8).foldl (fun a j => if empty.contains (8 * i + j) then a else a + 2 ^ j) 0)

/-- A byte of a slot (R421): the local store, the full/empty bits, the vector registers, and what is implementation-specific.
[DESIGN CHOICE, log 15] -/
def slotByte (c : Core) (count off : Nat) : Byte :=
  if off < 0x40000 then memGet c.store off
  else if off < 0x41000 then fullByte c.empty (off - 0x40000)
  else if off < 0x61000 then
    let o := off - 0x41000
    (tabGet (c.ctx (o / 8192)).v (o / 256 % 32) 0#2048).extractLsb' (8 * (o % 256)) 8
  else Config.slotByte count off

/-- The bytes of page `i` of a slot that are not zero, at their places in memory. -/
def slotCells (c : Core) (count i pa : Nat) : List Host.Cell :=
  (List.range 4096).filterMap fun j =>
    let b := slotByte c count (4096 * i + j)
    if b = 0#8 then none else some (pa + j, b)

/-- What a page of a slot waits for before it can be written: a grant, for a page homed in another package, or the return of the peers' grants
(R405, R421). -/
def slotAsk (s : State) (k lane : Nat) (l : Launch) (pages : List Nat) : Option State :=
  pages.findSome? fun i => match s.translate k l.root (l.word 80 + BitVec.ofNat 64 (lane * 2 ^ 21 + 4096 * i)) 1 with
    | .ok (pa, _, _) => s.needPage pa k true
    | .error _ => none

/-- Write pages of a slot through ROOT; the first address that faults, if any. Pages of other packages go to their homes; no class is charged for
any (R420, R421). -/
def writeSlot (k lane : Nat) (l : Launch) (c : Core) (count : Nat) : List Nat → State → State × Option Word
  | [], s => (s, none)
  | i :: t, s =>
    let ea := l.word 80 + BitVec.ofNat 64 (lane * 2 ^ 21 + 4096 * i)
    match s.translate k l.root ea 1 with
    | .error _ => (s, some ea)
    | .ok (pa, _, _) =>
      if hostResident pa then
        writeSlot k lane l c count t (s.emit (.hostWrite pa ((List.range 4096).map fun j => slotByte c count (4096 * i + j))))
      else
        let u := { s with mem := memSplice s.mem pa 4096 (slotCells c count i pa) }
        writeSlot k lane l c count t (if s.podRemote pa then
          (pageLines (pa / 4096)).foldl (fun s n =>
            s.sendPeerAs (paPackage pa) k (16 + pa / 4096) none (.write (BitVec.ofNat 52 (n * 64)) (memBytes s.mem (n * 64) 64))) u
        else u)

/-- Waiters at the synchronisation unit of a core that leaves ask again (R202, R370). -/
def bounceWake (s : State) (k : Nat) : State :=
  (s.core k).wake.foldl (fun s w => match w.peer with
    | some (p, q) => s.replyPeer p q .eviction
    | none => s.post 256 (.evictionRetryResend (cid w.core) (xid w.ctx))) (s.modCore k fun c => { c with wake := [] })

/-- The pages of a core's slot that are written: none for a checker, or a core of a quad that is no lane (R282, R421, R441). -/
def slotPages (l : Launch) (c : Core) : List Nat := if c.checker ∨ l.lanes ≤ c.lane then [] else List.range 0x182

/-- SAVE A CORE and free it (R202, R203, R370, R404, R420, R421): a fault while saving ends the launch. [DESIGN CHOICE, log 20] -/
def saveCore (s : State) (l : Launch) (k : Nat) : State :=
  let c := savedCore (s.core k)
  let s := bounceWake (bounceParked s k) k
  let s := dropLines ((s.dropRequests fun c _ => c == k).purge (· == k)) k fun _ => true
  let n := s.freeCount
  let s := { s with freeCount := n + 1 }
  match writeSlot k c.lane l c n (slotPages l c) s with
  | (s, some ea) =>
    (s.discard (some l.part) k l.tag 0x0A 4 [ea, BitVec.ofNat 64 (c.lane * 65536 + l.tag)]).endLaunch l.tag 3
  | (s, none) =>
    let s := if c.checker then s else s.modLaunch l.tag fun l => { l with saved := tabSet l.saved c.lane c }
    s.modCore k fun c => { c with ctxs := [], launch := none, det := false, checker := false, halting := none, trapq := [], trapWait := [],
                                  mismatch := [] }

/-- Save the state of a quad of a launch that holds whole quads (R309, R337, R421). -/
def saveQuad (s : State) (l : Launch) (q : Nat) : State :=
  if !l.byQuads then s
  else
    let u := s.quad q
    let kept : Quad := { bsram := u.bsram, chainBuf := u.chainBuf, chainFull := u.chainBuf.isSome, posts := u.posts, waits := u.waits }
    (s.modLaunch l.tag fun l => { l with savedQuads := tabSet l.savedQuads q kept }).modQuad q fun u =>
      { u with chainBuf := none, chainFull := false, posts := 0#16, waits := 0#16 }

/-- The cores that are stopped and saved together with a core of a launch (R282, R441). -/
def togetherWith (l : Launch) (k : Nat) : List Nat :=
  if l.byQuads then (List.range 4).map (· + k / 4 * 4) else if l.lock then [k - k % 2, k - k % 2 + 1] else [k]

/-- Save what a core is stopped with, once all of it has settled and the pages of its slots can be written; a launch that is being ended saves nothing
(R420, R421, R457). -/
def saveGroup (s : State) (k : Nat) : State :=
  match (s.core k).halting, s.launchOf k with
  | some t, some l =>
    let ks := togetherWith l k
    if l.ending.isSome || t == s.tick || !ks.all (coreSettled s) then s
    else
      match ks.findSome? fun j => slotAsk s j (s.core j).lane l (slotPages l (s.core j)) with
      | some t => t
      | none =>
      let s := saveQuad s l (quadOf k)
      let lanes := (ks.filter fun j => !(s.core j).checker).map fun j => (s.core j).lane
      let s := ks.foldl (fun s j => saveCore s l j) s
      (lanes.filter fun n => match s.launch l.tag with
        | some m => (tabFind m.saved n).isSome
        | none => false).foldl (fun s n => s.post 1 (.coreResume (BitVec.ofNat 16 l.tag) (BitVec.ofNat 12 n))) s
  | some _, none => s.modCore k fun c => { c with halting := none }
  | none, _ => s

/-- PREEMPTION: the stopped cores of a partition are saved and freed as they settle; waits in other packages are cancelled as long as their homes
have not heard of it (R370, R419, R420). -/
def execPreemption (part : BitVec 2) (s : State) : Out :=
  let p := part.toNat
  let ks := (s.cores.filter fun c => c.2.halting.isSome && s.partOf c.1 == p).map (·.1)
  if ks.isEmpty then .next s
  else
    let s := ks.foldl (fun s k => (s.core k).ctxs.foldl (fun s p => cancelSync s k p.1) s) s
    .next ((ks.foldl saveGroup s).post 1 (.preemption part))

/-! ### Resuming -/

/-- A core as it resumes: what belongs to the core and not to the launch stays (R99, R102, R107, R421, R422). -/
def resumedCore (now : Nat) (c old : Core) : Core :=
  { old with
    ctxs := old.ctxs.map (fun p => (p.1, { p.2 with readyAt := now + 1 }))
    xbloss := c.xbloss, pkRefused := c.pkRefused, msgRefused := c.msgRefused, svent := c.svent, svws := c.svws, stopped := c.stopped,
    spare := c.spare, gated := none, asleep := false, tlb := [], last := 0, t0 := now, halting := none, wakeAt := none }

/-- What the contexts of a resumed core wait for is due again. -/
def repost (s : State) (k : Nat) : State :=
  let c := s.core k
  let s := c.ctxs.foldl (fun s p =>
    let (x, v) := p
    let s := v.accepted.foldl (fun s _ => s.post 1 (.remoteStorePerform (cid k) (xid x))) (startFar s k x)
    let s := v.streams.foldl (fun s e =>
      if e.2.out then e.2.buf.foldl (fun s _ => s.post 1 (.streamStripWrite (cid k) (xid x) (BitVec.ofNat 5 e.1))) s
      else s.post 1 (.streamStripFill (cid k) (xid x) (BitVec.ofNat 5 e.1))) s
    if v.life = .blocked .trump then s.post 0 (.trumpAdmission (BitVec.ofNat 2 (s.partOf k))) else s) s
  let s := if c.trapq.isEmpty then s else s.post 0 (.supervisorWake (cid k))
  if c.trapWait.isEmpty then s else s.post 0 (.trapRecordEnqueue (cid k))

/-- The cores that the Dealer's chance for a head leads to (R416, R419). -/
def Chance.cores (s : State) (h : Launch) : Chance → List Nat
  | .place c => c.map (·.1)
  | .preempt got => ((chooseCores s h fun k => freeFor s h k || got.contains k).getD []).map (·.1)

/-- Whether a head of higher priority is about to take one of the cores: it goes first (R422). -/
def outranked (s : State) (l : Launch) (ks : List Nat) : Bool :=
  (workQueues s l.part).any fun q => match headOf s q.1 with
    | some h => decide (l.prio < h.prio) && !malformed s h && (chanceOf s h).any fun c => (c.cores s h).any ks.contains
    | none => false

/-- CORE_RESUME: a pre-empted lane, with its whole quad where the launch holds quads, is restored on the core index it left once that is
free, ahead of every new placement of equal or lower priority; it wakes there, and counts nothing of an earlier chain (R202, R282, R335, R422, R474,
R475). -/
def execCoreResume (tag : BitVec 16) (lane : BitVec 12) (s : State) : Out :=
  let again := Host.Outcome.next (s.post 1 (.coreResume tag lane))
  match s.launch tag.toNat with
  | none => .next s
  | some l =>
    if (tabFind l.saved lane.toNat).isNone || l.ending.isSome then .next s
    else
      let k := l.cores.getD lane.toNat 4096
      let ks := togetherWith l k
      let free := ks.all fun j =>
        let c := s.core j
        c.launch.isNone && !c.stopped
      let all := ks.all fun j => (l.lock && j % 2 == 1) || l.saved.any fun e => l.cores.getD e.1 4096 == j
      if !free || !all || s.hub.removed || outranked s l ks then again
      else
        let back := l.saved.filter fun e => ks.contains (l.cores.getD e.1 4096)
        let s := back.foldl (fun (s : State) (e : Nat × Core) =>
          let j := l.cores.getD e.1 4096
          let s := s.modCore j fun c => resumedCore s.tick c e.2
          let s := if l.lock then s.modCore (j + 1) fun c => { c with launch := some l.tag, lane := e.1, checker := true } else s
          repost s j) s
        let s := match tabFind l.savedQuads (quadOf k) with
          | some u => s.modQuad (quadOf k) fun q =>
              { q with bsram := u.bsram, chainBuf := u.chainBuf, chainFull := u.chainFull, posts := u.posts, waits := u.waits }
          | none => s.modQuad (quadOf k) fun q => { q with posts := 0#16, waits := 0#16 }
        .next (s.modLaunch l.tag fun l => { l with
          saved := l.saved.filter fun e => !ks.contains (l.cores.getD e.1 4096)
          savedQuads := tabErase l.savedQuads (quadOf k) })

/-! ### Budget periods -/

/-- The excess of a meter at the end of a period (R424). -/
def Budget.excess (b : Budget) (m : Nat) : Nat := if b.exhausted m then b.count.getD m 0 - b.allot m else 0

/-- A class at the start of a period (R424, R425). -/
def Budget.period (b : Budget) : Budget :=
  let carried := (List.range 4).map b.excess
  { b with
    count := carried
    a := b.nextA
    b := b.nextB
    periods := if (List.range 4).any b.exhausted then b.periods + 1 else b.periods
    ovr := b.ovr ||| BitVec.ofNat 4 ((List.range 4).foldl (fun n m => if carried.getD m 0 > 0 then n + 2 ^ m else n) 0) }

/-- The first meter whose excess carried into a period exceeds its allotment (R425). [DEDUCED, log 39] -/
def Budget.overrun (b : Budget) : Option Nat :=
  (List.range 4).find? fun m => b.allot m != (if m = 3 then 0xFFFF else 0xFFFFFF) && decide (b.count.getD m 0 > b.allot m)

/-- The partition of a budget class (R449). -/
def State.partOfClass (s : State) (k : Nat) : Option Nat := (List.range 4).find? fun p => (s.part p).pcls.getLsbD k

/-- The end of a period: counts become what was carried in excess, allotments written before take effect, and overruns are recorded, one for each
class (R423 to R425). -/
def endPeriod (s : State) : State :=
  let s := { s with budgets := s.budgets.map fun (e : Nat × Budget) => (e.1, e.2.period) }
  s.budgets.foldl (fun (s : State) (e : Nat × Budget) => match e.2.overrun with
    | some m => s.discard (s.partOfClass e.1) Config.hub 0 0x05 m [BitVec.ofNat 64 e.1]
    | none => s) s

/-- BUDGET_PERIOD_START: after everything else of the last tick of a period the next one's counts stand; in its first tick what waited at the ports
and for a meter goes on, in the order of arrival (R423 to R425, R427). -/
def execBudgetPeriodStart (s : State) : Out :=
  if s.tick % Config.period = 0 then .next ((serveMetered s.drainPort).postPoll (Config.period - 1) .budgetPeriodStart)
  else if s.agenda.any fun e => decide (e.1 ≤ 2 * s.tick + 1) && e.2 != .budgetPeriodStart then .next (s.postPoll 0 .budgetPeriodStart)
  else .next ((endPeriod s).post 1 .budgetPeriodStart)

end Sys2Proof.Machine
end

