-- ==== Sys2Proof/Machine/Partitions.lean ====
section
/-! DEFINITION. Partition operations, tenant reset and tenant change, and writes of the hub's registers (R425, R440, R449 to R458, R465,
R466, R468, R471, R475, R481). -/

namespace Sys2Proof.Machine

/-! ### PCTL -/

/-- Fields of PCTL (R452). -/
def Hub.status (h : Hub) : Nat := (h.pctl.extractLsb' 36 4).toNat
def Hub.limit (h : Hub) : Nat := (h.pctl.extractLsb' 16 16).toNat
def Hub.src (h : Hub) : Nat := (h.pctl.extractLsb' 10 2).toNat
def Hub.dst (h : Hub) : Nat := (h.pctl.extractLsb' 8 2).toNat
def Hub.moved (h : Hub) : BitVec 4 := h.pctl.extractLsb' 4 4
def Hub.busyq (h : Hub) : Nat := (h.pctl.extractLsb' 48 12).toNat

/-- Set STATUS and BUSYQ (R452). -/
def State.setStatus (s : State) (status busy : Nat) : State :=
  s.modHub fun h => { h with
    pctl := (h.pctl &&& 0x00000000FFFF0FF0#64) ||| BitVec.ofNat 64 (busy % 4096 * 2 ^ 48 + status % 16 * 2 ^ 36) }

/-- The written fields of PCTL (R452). -/
def State.pctlFields (s : State) (w : Word) : State :=
  s.modHub fun h => { h with pctl := (h.pctl &&& ~~~0xFFFF0FF0#64) ||| (w &&& 0xFFFF0FF0#64) }

/-- An operation ends with a status, recorded as a partition change (R453, R480). -/
def endOp (s : State) (op status busy : Nat) : State :=
  let s := (s.setStatus status busy).modHub fun h => { h with opStart := none }
  s.discard (some s.hub.dst) Config.hub 0 0x07 op [BitVec.ofNat 64 status, s.hub.pctl]

/-- The mode of a partition (R449). -/
def State.mode (s : State) (p : Nat) : Nat := (s.part p).mode
def State.setMode (s : State) (p m : Nat) : State := s.modPart p (·.setMode m)

/-! ### QUIESCE -/

/-- Whether a queue, a channel or a core lies on the dies of a partition. -/
def State.queueIn (s : State) (p q : Nat) : Bool := (s.part p).hasDie (q / 1024)
def State.chanIn (s : State) (p ch : Nat) : Bool := (s.part p).hasDie (ch / 512)
def State.coreIn (s : State) (p k : Nat) : Bool := (s.part p).hasDie (dieOf k)

/-- Work queues of a partition that hold a deal (R411, R454). -/
def dealsLeft (s : State) (p : Nat) : List Nat :=
  (s.squeues.filter fun q => q.2.host && q.2.z == 4#3 && s.queueIn p q.1 && !q.2.items.isEmpty).map (·.1)

/-- Whether a partition is quiet (R454). -/
def quiet (s : State) (p : Nat) : Bool :=
  (s.launchesOf p).isEmpty && (dealsLeft s p).isEmpty && !(s.squeues.any fun q => s.queueIn p q.1 && !q.2.waiters.isEmpty) &&
    !s.chans.any fun c => s.chanIn p c.1 && !c.2.jobs.isEmpty

/-- A QUIESCE whose LIMIT has passed without the partition being quiet is refused: the partition stays in HOLD, and BUSYQ names a queue that still
holds a deal (R452, R454). -/
def expireQuiesce (s : State) : State :=
  match s.hub.opStart with
  | some (1, t) =>
    if decide (s.tick < t + s.hub.limit * Config.microsecond) || quiet s s.hub.dst then s else endOp s 1 3 ((dealsLeft s s.hub.dst).head?.getD 0xFFF)
  | _ => s

/-- A write of PCTL that starts operation `op` (R452, R453): ignored whole while one is in progress, which a QUIESCE is no more in the tick in which
its LIMIT passes (R523), and rejected, with BUSYQ as it was (R518), where its precondition fails. [DEDUCED, log 48] -/
def startOp (s : State) (w : Word) (op : Nat) (ok : State → Bool) (act : State → State) : State :=
  let t := expireQuiesce s
  if (w.extractLsb' 0 4).toNat ≠ op ∨ t.hub.status = 1 then t
  else
    let s := t.pctlFields w
    if ok s then act ((s.setStatus 1 0).modHub fun h => { h with opStart := some (op, s.tick) }) else endOp s op 4 s.hub.busyq

/-- QUIESCE (R454). -/
def startQuiesce (w : Word) (s : State) : State :=
  startOp s w 1 (fun s => s.mode s.hub.dst == 1 || s.mode s.hub.dst == 2) fun s =>
    ((s.setMode s.hub.dst 2).postPoll 0 .quiesceDone).postPoll (s.hub.limit * Config.microsecond) .quiesceLimitExpiry

def execQuiesce (w : BitVec 64) (s : State) : Out := .next (startQuiesce w s)

/-- Every slice of a partition writes back and invalidates its lines (R454). -/
def invalidateLines (s : State) (p : Nat) : State :=
  { s with dir := s.dir.filter fun e => !ownAddress s p (e.1 * 64) }

/-- The pod grants that the partition holds are returned and their homes have them, or one still waits (R405, R454). -/
def returnGrants (s : State) (p : Nat) : Except (Nat × State) State :=
  (s.hub.grants.filter fun g => s.coreIn p g.core).foldl (fun r g => r.bind fun s => returnPage s g.page false) (.ok s)

/-- QUIESCE_DONE: looked at in every tick of a QUIESCE, after everything else of it; once the partition is quiet its lines are invalidated and its
grants returned (R454). -/
def execQuiesceDone (s : State) : Out :=
  match s.hub.opStart with
  | some (1, _) =>
    let p := s.hub.dst
    let again := fun (n : Nat) (s : State) => Host.Outcome.next (s.postPoll n .quiesceDone)
    if !quiet s p then again 1 (expireQuiesce s)
    else
      match returnGrants s p with
      | .error (n, t) => again n t
      | .ok t => if t.podReleased (t.coreOfPart p) then .next (endOp ((invalidateLines t p).setMode p 3) 1 2 0) else again 1 t
  | _ => .next s

/-- QUIESCE_LIMIT_EXPIRY (R452, R454). -/
def execQuiesceLimitExpiry (s : State) : Out := .next (expireQuiesce s)

/-! ### RESUME, MERGE, SPLIT -/

/-- RESUME (R453). -/
def startResume (w : Word) (s : State) : State :=
  startOp s w 2 (fun s => s.mode s.hub.dst == 3) fun s =>
    ((s.setMode s.hub.dst 1).askDealer s.hub.dst 1).post Config.microsecond .partitionOpComplete

def execResume (w : BitVec 64) (s : State) : Out := .next (startResume w s)

/-- The PART word of a partition with other dies; EN is 1 while it has some (R449). -/
def Part.setDies (p : Part) (d : BitVec 4) : Part :=
  { p with part := (p.part &&& ~~~0xF01#64) ||| (d.setWidth 64 <<< (8 : Nat)) ||| (if d = 0#4 then 0#64 else 1#64) }

/-- Dies pass to a partition, which gets a key of its own on each; the keys of earlier owners stay (R459). -/
def State.passDies (s : State) (m : BitVec 4) (p : Nat) : State :=
  (List.range 4).foldl (fun s d => if m.getLsbD d then s.modDie d fun x => { x with owners := p :: x.owners.filter (· != p) } else s) s

/-- MERGE (R453, R455): dies, classes, functions and queues of SRC pass to DST. [DEDUCED, log 37] -/
def startMerge (w : Word) (s : State) : State :=
  startOp s w 3 (fun s =>
      let a := s.part s.hub.src
      let b := s.part s.hub.dst
      s.hub.src != s.hub.dst && a.mode == 3 && b.mode == 3 && a.tenant == b.tenant && !a.bnd.getLsbD 0) fun s =>
    let src := s.hub.src
    let dst := s.hub.dst
    let a := s.part src
    let s := s.passDies a.dies dst
    let s := s.modPart dst fun b => { b.setDies (b.dies ||| a.dies) with pcls := b.pcls ||| a.pcls }
    let s := s.modPart src fun a => { (a.setDies 0#4).setMode 0 with pcls := 0#64 }
    let s := (List.range 64).foldl (fun (s : State) (k : Nat) =>
      let v := s.vf k
      if (v.reg.extractLsb' 24 2).toNat = src then
        s.modVf k fun v => { v with reg := (v.reg &&& ~~~0x3000000#64) ||| BitVec.ofNat 64 (dst * 2 ^ 24) }
      else s) s
    s.post Config.microsecond .partitionOpComplete

def execMerge (w : BitVec 64) (s : State) : Out := .next (startMerge w s)

/-- SPLIT (R412, R453): dies pass to SRC, which becomes QUIESCED with the tenant of DST. -/
def startSplit (w : Word) (s : State) : State :=
  startOp s w 4 (fun s =>
      let m := s.hub.moved
      let d := (s.part s.hub.dst).dies
      s.mode s.hub.dst == 3 && s.mode s.hub.src == 0 && m != 0#4 && m &&& d == m && m != d) fun s =>
    let m := s.hub.moved
    let t := (s.part s.hub.dst).tenant
    let s := s.passDies m s.hub.src
    let s := s.modPart s.hub.dst fun b => b.setDies (b.dies &&& ~~~m)
    let s := s.modPart s.hub.src fun a =>
      let a := (a.setDies m).setMode 3
      { a with part := (a.part &&& 0x0000FFFFFFFFFFFF#64) ||| (t.setWidth 64 <<< (48 : Nat)), lastQueue := [] }
    s.post Config.microsecond .partitionOpComplete

def execSplit (w : BitVec 64) (s : State) : Out := .next (startSplit w s)

/-! ### TRESET -/

/-- Slice queues of a partition are disabled and their waiters get an eviction retry; those that hold deals keep them until each has its completion
word (R202, R457). -/
def disableQueues (s : State) (p : Nat) : State :=
  let waiters := (s.squeues.filter fun q => s.queueIn p q.1).flatMap (·.2.waiters)
  let off := fun (q : Nat × SliceQueue) =>
    if s.queueIn p q.1 then (q.1, { q.2 with en := false, waiters := [], items := if q.2.host && q.2.z == 4#3 then q.2.items else [] }) else q
  waiters.foldl (fun s w => s.post 256 (.evictionRetryResend (cid w.1) (xid w.2))) { s with squeues := s.squeues.map off }

/-- Remove the deals of a queue with status 2, from its head on (R418, R457): whether all are gone. -/
def cancelDeals (q p : Nat) : List (List Byte) → State → State
  | [], s => s
  | d :: t, s =>
    let l := dealOf p q d
    match writeCompletion s l 2 0 with
    | (_, false) => completionAsk s l
    | (s, true) => cancelDeals q p t (s.modSqueue q fun u => { u with items := u.items.tail })

/-- TRESET (R372, R384, R457, R461). -/
def startTreset (w : Word) (s : State) : State :=
  startOp s w 5 (fun s => s.mode s.hub.dst != 0) fun s =>
    let p := s.hub.dst
    let s := s.setMode p 2
    let s := (s.launchesOf p).foldl (fun s t => s.endLaunch t 2) s
    let s := cancelJobs (disableQueues s p) fun ch _ => s.chanIn p ch
    let s := s.modHub fun h => { h with pendingIrq := h.pendingIrq.filter fun e =>
      !(decide (e.1 < 64) && ((s.vf e.1).reg.extractLsb' 24 2).toNat == p) }
    let s := s.modPart p fun a => { a with unlocked := false }
    (s.discard (some p) Config.hub 0 0x06 3 []).post 1 .partitionOpComplete

def execTreset (w : BitVec 64) (s : State) : Out := .next (startTreset w s)

/-- Channels of a partition start afresh (R372). -/
def resetChannels (s : State) (p : Nat) : State := { s with chans := s.chans.filter fun c => !s.chanIn p c.1 }

/-- PARTITION_OP_COMPLETE: the end of RESUME, MERGE and SPLIT, and of a TRESET once its deals, launches and jobs are gone (R452, R453,
R457). -/
def execPartitionOpComplete (s : State) : Out :=
  match s.hub.opStart with
  | some (5, _) =>
    let p := s.hub.dst
    let s := (dealsLeft s p).foldl (fun s q => cancelDeals q p (s.squeue q).items s) s
    let busy := !(s.launchesOf p).isEmpty || !(dealsLeft s p).isEmpty || s.chans.any fun c => s.chanIn p c.1 && !c.2.jobs.isEmpty
    if busy then .next (s.post 1 .partitionOpComplete) else .next (endOp ((resetChannels s p).setMode p 3) 5 2 0)
  | some (op, _) => if op = 2 ∨ op = 3 ∨ op = 4 then .next (endOp s op 2 0) else .next s
  | none => .next s

/-! ### TCHANGE -/

/-- A core after a tenant change: what the service core and repair set stays (R434, R445, R458). -/
def changedCore (c : Core) : Core :=
  { svent := c.svent, svws := c.svws, stopped := c.stopped, spare := c.spare, gated := c.gated, asleep := c.asleep }

/-- GiB of a partition's range that a port serves (R458, R467). -/
def portLoad (p : Part) (x : Word) : Nat :=
  let lo := max (p.bnd.extractLsb' 16 12).toNat (x.extractLsb' 16 12).toNat
  let hi := min (p.bnd.extractLsb' 32 12).toNat (x.extractLsb' 32 12).toNat
  if x.getLsbD 0 then hi + 1 - lo else 0

/-- Ticks until a TCHANGE is done (R458). -/
def changeTicks (s : State) (p : Nat) : Nat :=
  let a := s.part p
  let most := s.hub.xps.foldl (fun n x => max n (portLoad a x.2)) 0
  Config.microsecond * (25000 + if a.bnd.getLsbD 0 then 9000 * most else 0)

/-- A die under new memory keys, that of its partition alone, with an empty walk cache (R404, R459). -/
def freshKey (p : Nat) (d : Die) : Die := { d with walk := [], key := d.key + 1, owners := [p] }

/-- What a tenant change does to the dies of a partition and to what is kept for them (R27, R266, R372, R404, R458, R459). [DEDUCED, log 54] -/
def changeDies (s : State) (p : Nat) : State :=
  let own := ownAddress s p
  { s with
    mem := s.mem.filter fun c => !own c.1
    cores := s.cores.map fun c => if s.coreIn p c.1 then (c.1, changedCore c.2) else c
    quads := s.quads.filter fun q => !s.coreIn p (4 * q.1)
    groups := s.groups.filter fun g => !s.coreIn p (16 * g.1)
    dies := (List.range 4).foldl (fun (t : Tab Die) (d : Nat) =>
      if (s.part p).hasDie d then tabSet t d (freshKey p (s.die d)) else t) s.dies
    chans := s.chans.filter fun c => !s.chanIn p c.1
    squeues := s.squeues.filter fun q => !s.queueIn p q.1
    dir := s.dir.filter fun e => !own (e.1 * 64)
    caps := s.caps.filter fun e => !own (e.1 * 4096)
    budgets := s.budgets.filter fun b => !(s.part p).pcls.getLsbD b.1 }

/-- TCHANGE (R412, R416, R440, R458, R459, R460, R461, R465). [DEDUCED, log 38] -/
def startTchange (w : Word) (s : State) : State :=
  startOp s w 6 (fun s => s.mode s.hub.dst == 3) fun s =>
    let p := s.hub.dst
    let s := changeDies s p
    let s := s.modPart p fun a => { a with
      lastTag := 0, lastQueue := [], unlocked := false, tierKey := if a.bnd.getLsbD 0 then a.tierKey + 1 else a.tierKey }
    let s := s.modHub fun h => { h with
      tchanges := h.tchanges + 1
      lsclass := h.lsclass &&& (s.part p).pcls
      badLines := h.badLines.filter fun l => !ownAddress s p (l * 64)
      vfs := h.vfs.map fun v => if (v.2.reg.extractLsb' 24 2).toNat = p then (v.1, { v.2 with drops := 0#32 }) else v }
    s.post (changeTicks s p) .tchangeDone

def execTchange (w : BitVec 64) (s : State) : Out := .next (startTchange w s)

/-- TCHANGE_DONE (R458). -/
def execTchangeDone (s : State) : Out :=
  match s.hub.opStart with
  | some (6, _) => .next (endOp s 6 2 0)
  | _ => .next s

/-! ### Register writes -/

/-- Whether a partition's registers may be written (R449): it is OFF or QUIESCED. -/
def writable (s : State) (p : Nat) : Bool := s.mode p == 0 || s.mode p == 3

/-- Whether two inclusive ranges meet. -/
def rangesMeet (a b c d : Nat) : Bool := decide (a ≤ d) && decide (c ≤ b)

/-- The second-tier range of a BND or XP word. -/
def gibRange (w : Word) : Nat × Nat := ((w.extractLsb' 16 12).toNat, (w.extractLsb' 32 12).toNat)

/-- Whether enabled ranges of two words overlap (R449, R468). [DEDUCED, log 77] -/
def gibOverlap (a b : Word) : Bool :=
  a.getLsbD 0 && b.getLsbD 0 && rangesMeet (gibRange a).1 (gibRange a).2 (gibRange b).1 (gibRange b).2

/-- A write of PARTk, PCLSk, ILVk or BNDk, or the service core's of a supervisor's entry or workspace at the configuration of its partition
(R434, R449). -/
def writePart (s : State) (p : Nat) (reg : PartReg) (v : Word) : State :=
  let others := (List.range 4).filter (· != p)
  if !writable s p then s
  else
    match reg with
    | .part => s.modPart p fun a => { a with part := (a.part &&& 0x0000FFFFFFFFFFFF#64) ||| (v &&& 0xFFFF000000000000#64) }
    | .pcls => if others.any fun o => (s.part o).pcls &&& v != 0#64 then s else s.modPart p fun a => { a with pcls := v }
    | .ilv =>
      let g := (v.extractLsb' 0 5).toNat
      if g < 6 ∨ 21 < g then s else s.modPart p fun a => { a with ilv := v &&& 0x21F#64 }
    | .bnd =>
      let v := v &&& 0x00000FFF0FFF0001#64
      if others.any fun o => gibOverlap v (s.part o).bnd then s else s.modPart p fun a => { a with bnd := v }
    | .svent k => if s.partOf k.toNat = p then s.modCore k.toNat fun c => { c with svent := v &&& 0x00FFFFFFFFFFFFFE#64 } else s
    | .svws k => if s.partOf k.toNat = p then s.modCore k.toNat fun c => { c with svws := v &&& 0x7F#64 } else s

/-- PART_REGISTER_WRITE (R449). -/
def execPartRegisterWrite (part : BitVec 2) (reg : PartReg) (value : BitVec 64) (s : State) : Out :=
  .next (writePart s part.toNat reg value)

/-- A write of VFk: overlapping ranges of two enabled functions make it ignored; enabling a function starts the counts of its slots afresh (R456,
R464). -/
def writeVf (s : State) (k : Nat) (v : Word) : State :=
  let v := v &&& 0x0BFFFFFF#64
  let lap := (List.range 64).any fun j =>
    let w := (s.vf j).reg
    j != k && v.getLsbD 27 && w.getLsbD 27 &&
      rangesMeet (v.extractLsb' 0 12).toNat (v.extractLsb' 12 12).toNat (w.extractLsb' 0 12).toNat (w.extractLsb' 12 12).toNat
  if lap then s
  else s.modVf k fun u => { u with
    reg := v
    slots := if v.getLsbD 27 && !u.reg.getLsbD 27 then u.slots.map fun t => (t.1, { t.2 with count := 0#48 }) else u.slots }

/-- VF_REGISTER_WRITE (R456). -/
def execVfRegisterWrite (vf : BitVec 6) (value : BitVec 64) (s : State) : Out := .next (writeVf s vf.toNat value)

/-- A write of XPn: UP is read-only, and an overlap makes it ignored (R468). -/
def writeXp (s : State) (n : Nat) (v : Word) : State :=
  let old := tabGet s.hub.xps n 0#64
  let v := (v &&& 0x00000FFF0FFF0001#64) ||| (old &&& 2#64)
  if s.hub.xps.any fun e => e.1 != n && gibOverlap v e.2 then s
  else s.modHub fun h => { h with xps := tabSet h.xps n v }

/-- XP_REGISTER_WRITE (R468). -/
def execXpRegisterWrite (port : BitVec 3) (value : BitVec 64) (s : State) : Out := .next (writeXp s port.toNat value)

/-- What a package keeps by address, in units, when its number changes. -/
def rekeyed {α : Type} (unit old new : Nat) (t : Tab α) : Tab α :=
  (t.filter fun e => e.1 / (2 ^ 44 / unit) == old).map fun e => (e.1 % (2 ^ 44 / unit) + new * (2 ^ 44 / unit), e.2)

/-- The package gets another number: what it keeps by physical address is found under the new one, and nothing of other packages is left (R397,
R471). -/
def renumber (s : State) (n : Nat) : State :=
  let old := s.pkg
  { s.modHub (fun h => { h with
      podcfg := BitVec.ofNat 64 (n % 128), refused := [], pageDir := rekeyed 4096 old n h.pageDir
      badLines := (rekeyed 64 old n (h.badLines.map fun l => (l, ()))).map (·.1) }) with
    mem := rekeyed 1 old n s.mem, dir := rekeyed 64 old n s.dir, caps := rekeyed 4096 old n s.caps }

/-- A write of PODCFG, which concerns every partition, or of PODk; what homes have refused may be granted then (R471). -/
def writePod (s : State) (part : Option Nat) (v : Word) : State :=
  match part with
  | none => if (List.range 4).all (writable s) then renumber s (v.extractLsb' 0 7).toNat else s
  | some p => if writable s p then (s.modPart p fun a => { a with pod := v &&& 0xFFFF#64 }).modHub fun h => { h with refused := [] } else s

/-- POD_REGISTER_WRITE (R471). -/
def execPodRegisterWrite (part : Option (BitVec 2)) (value : BitVec 64) (s : State) : Out :=
  .next (writePod s (part.map (·.toNat)) value)

/-- A write of BCLASSk.A or BCLASSk.B takes effect at the next period (R425). -/
def writeClass (s : State) (k : Nat) (b : Bool) (v : Word) : State :=
  s.modBudget k fun u => if b then { u with nextB := v &&& 0xFFFFFFFFFF#64 } else { u with nextA := v &&& 0xFFFFFFFFFFFF#64 }

/-- BCLASS_WRITE (R425). -/
def execBclassWrite (cls : BitVec 6) (b : Bool) (value : BitVec 64) (s : State) : Out := .next (writeClass s cls.toNat b value)

/-- LSCLASS_WRITE (R440). -/
def execLsclassWrite (value : BitVec 64) (s : State) : Out := .next (s.modHub fun h => { h with lsclass := value })

/-- A write of PWRCTL: without GATE every agent wakes, with it idle cores are gated again, and without SLEEP sleeping agents are only gated
(R475). -/
def writePower (s : State) (v : Word) : State :=
  let g := v.getLsbD 0
  let z := g && v.getLsbD 1
  let s := if g && !s.hub.pwrctl.getLsbD 0 then s.cores.foldl (fun s c => s.gateSoon c.1) s else s
  { s.modHub (fun h => { h with pwrctl := v &&& 3#64 }) with
    cores := s.cores.map fun (c : Nat × Core) => (c.1, { c.2 with gated := if g then c.2.gated else none, asleep := z && c.2.asleep })
    quads := s.quads.map fun (q : Nat × Quad) => (q.1, { q.2 with gated := if g then q.2.gated else none, asleep := z && q.2.asleep })
    dies := s.dies.map fun (d : Nat × Die) =>
      (d.1, { d.2 with engGated := if g then d.2.engGated else [], engAsleep := if z then d.2.engAsleep else [] }) }

/-- PWRCTL_WRITE (R475). -/
def execPwrctlWrite (value : BitVec 64) (s : State) : Out := .next (writePower s value)

/-- A write of DPCTLd clears FROZEN (R481). -/
def writeDpctl (s : State) (d : Nat) (v : Word) : State := if v.getLsbD 32 then s.modDie d fun x => { x with frozen := false } else s

/-- DPCTL_WRITE (R481). -/
def execDpctlWrite (die : BitVec 2) (value : BitVec 64) (s : State) : Out := .next (writeDpctl s die.toNat value)

/-- A write of PCTL (R452, R453): operations 7 to 15 are always rejected. -/
def writePctl (s : State) (v : Word) : State :=
  match (v.extractLsb' 0 4).toNat with
  | 0 => let t := expireQuiesce s; if t.hub.status = 1 then t else t.pctlFields v
  | 1 => startQuiesce v s
  | 2 => startResume v s
  | 3 => startMerge v s
  | 4 => startSplit v s
  | 5 => startTreset v s
  | 6 => startTchange v s
  | n => let t := expireQuiesce s; if t.hub.status = 1 then t else endOp (t.pctlFields v) n 4 t.hub.busyq

/-- A write of an 8-byte hub register by its offset; an offset that holds no register ignores it (R425, R440, R449, R452, R456, R465,
R466, R468, R471, R475, R481). -/
def writeHub (s : State) (o : Nat) (v : Word) : State :=
  if o % 8 ≠ 0 then s
  else if 0x20000 ≤ o ∧ o < 0x20400 then writeClass s ((o - 0x20000) / 16) (o % 16 == 8) v
  else if 0x20400 ≤ o ∧ o < 0x20600 then
    s.modBudget ((o - 0x20400) / 8) fun b => { b with ovr := b.ovr &&& ~~~(v.extractLsb' 4 4) }
  else if o = 0x20800 then s.modHub fun h => { h with lsclass := v }
  else if 0x30000 ≤ o ∧ o < 0x30100 then
    match o % 0x40 with
    | 0 => writePart s ((o - 0x30000) / 0x40) .part v
    | 8 => writePart s ((o - 0x30000) / 0x40) .pcls v
    | 16 => writePart s ((o - 0x30000) / 0x40) .ilv v
    | 24 => writePart s ((o - 0x30000) / 0x40) .bnd v
    | _ => s
  else if o = 0x30100 then writePctl s v
  else if 0x30200 ≤ o ∧ o < 0x30400 then writeVf s ((o - 0x30200) / 8) v
  else if 0x40000 ≤ o ∧ o < 0x40040 then writeXp s ((o - 0x40000) / 8) v
  else if o = 0x40100 then writePod s none v
  else if 0x40108 ≤ o ∧ o < 0x40128 then writePod s (some ((o - 0x40108) / 8)) v
  else if 0x40400 ≤ o ∧ o < 0x40600 then s.modVf ((o - 0x40400) / 8) fun u => { u with drops := u.drops &&& ~~~(v.extractLsb' 0 32) }
  else if 0x50000 ≤ o ∧ o < 0x50040 ∧ o % 16 = 0 then writeDpctl s ((o - 0x50000) / 16) v
  else if o = 0x51000 then writePower s v
  else s

/-- BCLASSk.S (R425). -/
def Budget.statusWord (b : Budget) : Word :=
  let exh := (List.range 4).foldl (fun n m => if b.exhausted m then n + 2 ^ m else n) 0
  0#24 ++ b.periods ++ b.ovr ++ BitVec.ofNat 4 exh

/-- Word `j` of entry `i` of a die's ring (R480). -/
def ringWord (s : State) (d i j : Nat) : Word := (tabGet (s.die d).ring i []).getD j 0#64

/-- A read of an 8-byte hub register by its offset: write-only and reserved fields, and an offset that holds no register, read zero (R9, R425,
R440, R449, R452, R456, R465, R466, R468, R471, R475, R481, R482). -/
def hubRead (s : State) (o : Nat) : Word :=
  if o % 8 ≠ 0 then 0#64
  else if 0x20000 ≤ o ∧ o < 0x20400 then
    let b := s.budget ((o - 0x20000) / 16)
    if o % 16 = 8 then b.nextB else b.nextA
  else if 0x20400 ≤ o ∧ o < 0x20600 then (s.budget ((o - 0x20400) / 8)).statusWord
  else if o = 0x20800 then s.hub.lsclass
  else if 0x30000 ≤ o ∧ o < 0x30100 then
    let a := s.part ((o - 0x30000) / 0x40)
    match o % 0x40 with
    | 0 => a.part
    | 8 => a.pcls
    | 16 => a.ilv
    | 24 => a.bnd
    | _ => 0#64
  else if o = 0x30100 then s.hub.pctl
  else if 0x30200 ≤ o ∧ o < 0x30400 then (s.vf ((o - 0x30200) / 8)).reg
  else if 0x40000 ≤ o ∧ o < 0x40040 then tabGet s.hub.xps ((o - 0x40000) / 8) 0#64
  else if o = 0x40100 then s.hub.podcfg
  else if 0x40108 ≤ o ∧ o < 0x40128 then (s.part ((o - 0x40108) / 8)).pod
  else if 0x40400 ≤ o ∧ o < 0x40600 then (s.vf ((o - 0x40400) / 8)).drops.setWidth 64
  else if 0x50000 ≤ o ∧ o < 0x50040 ∧ o % 16 = 0 then
    let d := s.die ((o - 0x50000) / 16)
    0#31 ++ BitVec.ofBool d.frozen ++ 0#20 ++ d.next
  else if o = 0x51000 then s.hub.pwrctl
  else if 0x60000 ≤ o ∧ o < 0x160000 then ringWord s ((o - 0x60000) / 0x40000) ((o - 0x60000) % 0x40000 / 64) (o % 64 / 8)
  else 0#64

/-- HUB_REGISTER_WRITE (R466). -/
def execHubRegisterWrite (hubOff : BitVec 24) (value : BitVec 64) (s : State) : Out := .next (writeHub s hubOff.toNat value)

end Sys2Proof.Machine
end

