-- ==== Sys2Proof/Machine/Outside.lean ====
section
/-! DEFINITION. The host's doorbells, posted writes and reads, attestation and debug unlock, and the requests of peer packages (R236, R271,
R456, R459 to R473). -/

namespace Sys2Proof.Machine

/-! ### Doorbells -/

/-- The first and last queue of a function, and its partition (R456). -/
def Vf.qfirst (v : Vf) : Nat := (v.reg.extractLsb' 0 12).toNat
def Vf.qlast (v : Vf) : Nat := (v.reg.extractLsb' 12 12).toNat
def Vf.part (v : Vf) : Nat := (v.reg.extractLsb' 24 2).toNat
def Vf.enabled (v : Vf) : Bool := v.reg.getLsbD 27

/-- Whether earlier posted writes of a requester are not visible yet (R236). -/
def postedBefore (s : State) (r : BitVec 16) : Bool := s.hub.posted.any fun e => e.1 == r

/-- Whether a trigger of a requester is on its way to its slice (R236, R464). -/
def triggered (s : State) (r : BitVec 16) : Bool := s.hub.vfs.any fun v => v.2.slots.any fun t => t.2.sent.any fun e => e.1 == r

/-- Merge a requester's bytes into one slot, from byte `o` of it on; byte 127 triggers it (R464). -/
def writeSlotBytes (s : State) (r : BitVec 16) (k q o : Nat) (bs : List Byte) : State :=
  let v := s.vf k
  let t := tabGet v.slots q {}
  let merged := (List.range bs.length).foldl (fun m i => tabSet m (o + i) (bs.getD i 0#8)) t.bytes
  let put := fun (s : State) (t : Slot) => s.modVf k fun v => { v with slots := tabSet v.slots q t }
  if o + bs.length < 128 then put s { t with bytes := merged }
  else
    let e := (List.range 128).map fun i => tabGet merged i 0#8
    (put s { t with bytes := [], sent := t.sent ++ [(r, e)] }).postPoll Config.homePkg (.doorbellTrigger (BitVec.ofNat 6 k) (BitVec.ofNat 12 q))

/-- A write to doorbell slots, cut at their borders, in ascending address order (R464). -/
def writeSlots (r : BitVec 16) (k : Nat) : Nat → Nat → List Byte → State → State
  | 0, _, _, s => s
  | n + 1, off, bs, s =>
    if bs.isEmpty then s
    else
      let v := s.vf k
      let q := v.qfirst + off / 128
      let m := min bs.length (128 - off % 128)
      let s := if q ≤ v.qlast then writeSlotBytes s r k q (off % 128) (bs.take m) else s
      writeSlots r k n (off + m) (bs.drop m) s

/-- A posted write at the hub that others hold off (R26, R236). -/
def State.addPosted (s : State) (r : BitVec 16) (place : HostAddress) (bs : List Byte) : State :=
  s.modHub fun h => { h with posted := h.posted ++ [(r, place, bs)] }

/-- The bytes of a doorbell write reach the slots of a function, if it is enabled (R464). -/
def ringSlots (s : State) (r : BitVec 16) (k off : Nat) (bs : List Byte) : State :=
  if (s.vf k).enabled then writeSlots r k (bs.length + 1) off bs s else s

/-- DOORBELL_WRITE: a posted write that merges bytes into slots of an enabled function, behind the earlier posted writes of its requester; the
hub takes 256 of all at a time (R26, R236, R464). -/
def execDoorbellWrite (requester : BitVec 16) (vf : BitVec 6) (barOff : BitVec 19) (bytes : List (BitVec 8)) (s : State) : Out :=
  if postedBefore s requester || decide (s.hub.posted.length ≥ Config.postedWindow) then
    .next (s.addPosted requester (.bar0 vf barOff) bytes)
  else .next (ringSlots s requester vf.toNat barOff.toNat bytes)

/-- The outcome of a trigger at its slice (R464). [DEDUCED, log 44] -/
def triggerOutcome (s : State) (k q : Nat) : Nat :=
  let p := (s.vf k).part
  let t := s.squeue q
  if s.partOfDie (q / 1024) ≠ p then 4
  else if s.mode p ≠ 1 then 5
  else if !t.en || !t.host then 3
  else if t.items.length ≥ t.capacity then 2
  else 1

/-- DOORBELL_TRIGGER: the entry is enqueued at its slice as one event, after every device request of the tick, or is refused with its
cause (R25, R456, R464). -/
def execDoorbellTrigger (vf : BitVec 6) (queue : QueueId) (s : State) : Out :=
  let k := vf.toNat
  let q := queue.toNat
  let slot := tabGet (s.vf k).slots q {}
  match slot.sent with
  | [] => .next s
  | (_, e) :: rest =>
    let r := triggerOutcome s k q
    let slot := { slot with sent := rest, count := slot.count + 1, outcome := BitVec.ofNat 8 r }
    let s := s.modVf k fun v => { v with slots := tabSet v.slots q slot, drops := if r = 1 then v.drops else v.drops + 1 }
    if r = 1 then .next (dealerLooks (s.modSqueue q fun t => { t with items := t.items ++ [e.take t.entry] }) q)
    else if r = 4 then .next (s.discard (some (s.vf k).part) Config.hub 0 0x0A 5 [BitVec.ofNat 64 q, BitVec.ofNat 64 k])
    else .next s

/-- Whether a slot is read only later: an earlier posted write or a trigger of the requester has not been handled (R464). [DEDUCED, log 49] -/
def slotWaits (s : State) (r : BitVec 16) : Bool := postedBefore s r || triggered s r

/-- A slot's status word; that of a queue beyond an enabled function's range reads zero (R464). -/
def slotWord (s : State) (k q : Nat) : Word :=
  let t := tabGet (s.vf k).slots q {}
  if (s.vf k).enabled && decide ((s.vf k).qfirst ≤ q ∧ q ≤ (s.vf k).qlast) then t.count ++ 0#8 ++ t.outcome else 0#64

/-- DOORBELL_STATUS_READ: the slot's status word, once every earlier posted write has been handled (R464). -/
def execDoorbellStatusRead (requester : BitVec 16) (vf : BitVec 6) (queue : QueueId) (s : State) : Out :=
  if slotWaits s requester then .next (s.postPoll 1 (.doorbellStatusRead requester vf queue))
  else
    .next (s.emit (.reply requester (toBytes 8 (slotWord s vf.toNat queue.toNat).toNat)))

/-! ### Host writes and reads -/

/-- Whether bytes of an agent outside the partitions may be written: their region is OPEN, or a peer that has the page's write grant returns
what it checked itself (R269, R271, R405). -/
def regionOpen (s : State) (pa : Nat) (by_ : Option Nat) : Bool :=
  s.capAt pa == .opened || (by_.isSome && (tabFind s.hub.pageDir (pa / 4096)).any fun h => h.writer == by_)

/-- What an access from outside has to wait for at the home of its lines, with the ticks to the next look: what arrived there earlier, grants
that are on their way back, a lease, or a stopped core's probe (R225, R246, R248, R255, R405). -/
def outsideWaits (s : State) (i : Instr) (pa : Nat) (lines : List Nat) (write : Bool) (by_ : Option Nat) : Option (Nat × State) :=
  if s.behind i (lines.map lineKey) || s.leaseHeld lines.contains none then some (1, s)
  else
    match s.recall pa write by_ with
    | some t => some (1, t)
    | none => lines.findSome? fun l => probeStopped s Config.hub l write

/-- Bytes written by the host or a peer, as one write event: dropped and recorded where the region is not OPEN; or the ticks for which it
waits, and the state in which it does (R218, R225, R236, R271, R405, R480). -/
def outsideWrite (s : State) (i : Instr) (pa : Nat) (bs : List Byte) (by_ : Option Nat) (d1 : Word) : Except (Nat × State) State :=
  let lines := linesOf pa bs.length
  if !regionOpen s pa by_ then .ok (s.discard (addressOwner s pa) Config.hub 0 0x0A 6 [BitVec.ofNat 64 pa, d1])
  else
    match outsideWaits s i pa lines true by_ with
    | some w => .error w
    | none => match s.writeEvent (s.nearAddress pa) lines none false with
      | none => .error (1, s)
      | some s => .ok ((s.putMem pa bs).invalidate lines none)

/-- The event that looks again at the posted writes of a requester. -/
def postedAgain (r : BitVec 16) : Instr := .hostPostedWrite r (.device 0#52) []
def State.pollPosted (s : State) (r : BitVec 16) : State :=
  if s.agenda.any fun e => e.2 == postedAgain r then s else s.postPoll 0 (postedAgain r)

/-- A posted write leaves the hub, and the first one that the full window has held enters it (R26, R236). -/
def popPosted (s : State) (e : BitVec 16 × HostAddress × List Byte) : State :=
  let next := (s.hub.posted.drop Config.postedWindow).head?
  let s := s.modHub fun h => { h with posted := h.posted.erase e }
  match next with
  | some n => s.pollPosted n.1
  | none => s

/-- A write of one hub register through its physical address, as through BAR0 of a physical function: 8 bytes at an aligned offset (R466). -/
def hubWrite (s : State) (a : Nat) (bs : List Byte) : State :=
  if bs.length = 8 ∧ a % 8 = 0 then writeHub s (a % 2 ^ 42) (BitVec.ofNat 64 (ofBytes bs)) else s

/-- A write of a virtual function at an offset of its BAR2: each 1 written to VFSTATk clears its bit, and every other offset ignores it (R465,
R482). -/
def tenantWrite (s : State) (k o : Nat) (bs : List Byte) : State :=
  s.modVf k fun u => { u with drops := u.drops &&& ~~~(BitVec.ofNat 32 (ofBytes bs * 256 ^ o)) }

/-- Make a requester's posted writes visible in the order of receipt, as far as nothing holds them off: one that is not for doorbell slots also waits
for the triggers sent before it. The hub takes 256 of all at a time (R26, R236). -/
def drainPosted (r : BitVec 16) : Nat → State → State
  | 0, s => s
  | n + 1, s =>
    let again := postedAgain r
    match (s.hub.posted.take Config.postedWindow).find? fun e => e.1 == r with
    | none => s.unhold again
    | some (_, place, bs) =>
      let done := fun (s : State) => popPosted (s.unhold again) (r, place, bs)
      match place with
      | .bar0 k off => drainPosted r n (ringSlots (done s) r k.toNat off.toNat bs)
      | .sensor _ | .tdi _ => drainPosted r n (done s)
      | .bar2 k off =>
        if triggered s r then (s.unhold again).postPoll 1 again else drainPosted r n (tenantWrite (done s) k.toNat off.toNat bs)
      | .device a =>
        let pa := a.toNat
        if triggered s r then (s.unhold again).postPoll 1 again
        else if pa / 2 ^ 42 % 4 = 2 then drainPosted r n (hubWrite (done s) pa bs)
        else if (addressOwner s pa).isNone then drainPosted r n (done s)
        else
          match outsideWrite s again pa bs none (1#2 ++ 0#46 ++ r) with
          | .ok t => drainPosted r n (done t)
          | .error (n, t) => t.hold again ((linesOf pa bs.length).map lineKey) n

/-- HOST_POSTED_WRITE: the posted writes of one requester enter the memory order in the order of receipt (R236, R271, R465, R466). One without
bytes looks again at those that wait. -/
def execHostPostedWrite (requester : BitVec 16) (place : HostAddress) (bytes : List (BitVec 8)) (s : State) : Out :=
  if bytes.isEmpty then .next (if s.agenda.any fun e => e.2 == postedAgain requester then s else drainPosted requester s.hub.posted.length s)
  else
    let waiting := postedBefore s requester
    let s := s.addPosted requester place bytes
    .next (if waiting then s else drainPosted requester 1 s)

/-- A word of BAR2 of a virtual function: VFSTATk, and the entries of its partition's dies that its tenant wrote; everything else reads as
zero (R465, R482). -/
def tenantView (s : State) (k o : Nat) : Word :=
  let p := s.part (s.vf k).part
  let d := (o - 0x1000) / 0x40000
  let i := (o - 0x1000) % 0x40000 / 64
  if o = 0 then (s.vf k).drops.setWidth 64
  else if o < 0x1000 ∨ 3 < d ∨ p.hasDie d = false ∨ (ringWord s d i 1).extractLsb' 48 16 ≠ p.tenant then 0#64
  else ringWord s d i (o % 64 / 8)

/-- The bytes of a range whose aligned words are given. -/
def wordBytes (f : Nat → Word) (a n : Nat) : List Byte := (List.range n).map fun j => (f ((a + j) / 8 * 8)).extractLsb' (8 * ((a + j) % 8)) 8

/-- A line of device memory as the host finds it: ciphertext under the key of the partition that owns it on its die, or of its second-tier range
(R236, R459). [DESIGN CHOICE, log 14] -/
def cipherLine (s : State) (l : Nat) : BitVec 512 :=
  let p := (addressOwner s (l * 64)).getD 4
  let d := l * 64 / 2 ^ 38 % 4
  let data := memBytes s.mem (l * 64) 64
  if l * 64 / 2 ^ 42 % 4 = 0 then Config.cipher d p (s.die d).key l data else Config.cipher 4 p (s.part p).tierKey l data

/-- The bytes that the host finds in device memory. -/
def cipherBytes (s : State) (a n : Nat) : List Byte := (List.range n).map fun j => (cipherLine s ((a + j) / 64)).extractLsb' (8 * ((a + j) % 64)) 8

/-- Whether a virtual function is locked as a TDI: its partition is in RUN or HOLD (R463). [DESIGN CHOICE, log 89] -/
def tdiLocked (s : State) (k : Nat) : Bool := let m := s.mode (s.vf k).part; m == 1 || m == 2

/-- HOST_READ: a hub register, or an entry of a discard ring, by the management or a physical function in the hub's range of addresses, a junction
sensor, whether a function is locked, or what a virtual function finds at an offset of its BAR0 or BAR2 (R397, R463 to R466, R474, R478, R482); a
read of device memory waits on leases and finds ciphertext (R236, R255, R459). [DESIGN CHOICE, log 14] -/
def execHostRead (requester : BitVec 16) (place : HostAddress) (len : BitVec 12) (s : State) : Out :=
  let n := len.toNat
  let i := Instr.hostRead requester place len
  let reply := fun (s : State) (bs : List Byte) => Host.Outcome.next (s.emit (.reply requester bs))
  match place with
  | .bar0 k o =>
    let word := fun (a : Nat) => if a % 128 = 0 then slotWord s k.toNat ((s.vf k.toNat).qfirst + a / 128) else 0#64
    if slotWaits s requester then .next (s.postPoll 1 i) else reply s (wordBytes word o.toNat n)
  | .bar2 k o => reply s (wordBytes (tenantView s k.toNat) o.toNat n)
  | .sensor j => reply s (toBytes 8 (s.hub.sensor j.toNat))
  | .tdi k => reply s (toBytes 8 (if tdiLocked s k.toNat then 1 else 0))
  | .device pa =>
    let a := pa.toNat
    if a / 2 ^ 42 % 4 = 2 then reply s (wordBytes (fun o => if n = 8 ∧ a % 8 = 0 then hubRead s (o % 2 ^ 42) else 0#64) a n)
    else
      match outsideWaits s i a (linesOf a n) false none with
      | some (n, t) => .next (t.hold i ((linesOf a len.toNat).map lineKey) n)
      | none => reply (s.unhold i) (cipherBytes s a n)

/-- IDE_FAILURE: the TLP is discarded, and an event recorded; it names this package, at whose port the TLP failed (R463, R480). [DEDUCED, log 88] -/
def execIdeFailure (_port : Bool) (_requester : BitVec 16) (s : State) : Out :=
  .next (s.discard none Config.hub 0 0x04 2 [BitVec.ofNat 64 s.pkg])

/-! ### Attestation and debug unlock -/

/-- SPDM_ATTESTATION: the report holds the nonce, the measurement of the running image, the registers of the partition and of its functions,
the tenant and the count of TCHANGE operations, and is signed (R460). [free value, log 14] -/
def execSpdmAttestation (part : BitVec 2) (nonce : BitVec 256) (s : State) : Out :=
  let p := part.toNat
  let a := s.part p
  let fns := ((List.range 64).filter fun k => (s.vf k).part == p).map fun k => (s.vf k).reg
  let regs := [a.part, a.pcls, a.ilv, a.bnd] ++ fns ++ [a.tenant.setWidth 64, BitVec.ofNat 64 s.hub.tchanges]
  let o := Outgoing.report p nonce (Config.measurement (s.hub.running.getD 0)) regs (Config.signature s.freeCount)
  let s := s.modPart p fun a => { a with reports := (nonce, s.tick) :: a.reports }
  .next ({ s with freeCount := s.freeCount + 1 }.emit o)

/-- DEBUG_UNLOCK: a token signed by the tenant over the nonce of a report of the last 60 s (R461, R480). -/
def execDebugUnlock (part : BitVec 2) (nonce : BitVec 256) (signed : Bool) (s : State) : Out :=
  let p := part.toNat
  if signed && (s.part p).reports.any fun e => e.1 == nonce && decide (s.tick ≤ e.2 + 60000000 * Config.microsecond) then
    .next ((s.modPart p fun a => { a with unlocked := true }).discard (some p) Config.hub 0 0x09 4 [])
  else .next s

/-! ### Peers -/

/-- Whether a sequence number lies below a window's base (R472). -/
def belowBase (w : Window) (seq : BitVec 32) : Bool := (seq - w.base).msb

/-- A number enters its window as under way (R472). -/
def State.received (s : State) (src : Nat) (seq : BitVec 32) : State :=
  s.modHub fun h =>
    let w := tabGet h.windows src {}
    { h with windows := tabSet h.windows src { w with done := w.done ++ [(seq, none)] } }

/-- The partition that a peer's request addresses, for those that name a place in one (R471). -/
def addressed (s : State) : PeerOp → Option Nat
  | .write pa _ | .read pa _ | .atomic pa _ _ _ _ _ _ => addressOwner s pa.toNat
  | .grant page _ | .cap page _ _ _ _ _ _ | .returned page _ _ => addressOwner s (page.toNat * 4096)
  | .sync home _ _ _ => some (s.partOf home.toNat)
  | .message dest _ => some (s.partOf dest.toNat)
  | .capCopy _ _ _ | .tlbi _ _ _ | .cancel _ | .revoke _ _ => none

/-- The partitions of a pod domain (R471). -/
def joinedParts (s : State) (domain : BitVec 16) : List Nat :=
  (List.range 4).filter fun p => domain != 0#16 && (s.part p).pod.extractLsb' 0 16 == domain

/-- Whether the partition that a peer's request concerns is joined to the peer's (R471). -/
def joinedTo (s : State) (r : PeerRequest) : Bool :=
  match r.op with
  | .capCopy _ _ _ | .tlbi _ _ _ | .cancel _ | .revoke _ _ => !(joinedParts s r.domain).isEmpty
  | op => (joinedParts s r.domain).any fun p => some p == addressed s op

/-- The home grants a page to a peer: write state is a write event on every line of it here (R218, R405). -/
def grantPage (s : State) (i : Instr) (src page : Nat) (write : Bool) : Except (Nat × State) State :=
  let ls := pageLines page
  match outsideWaits s i (page * 4096) ls write (some src) with
  | some w => .error w
  | none =>
    match if write then s.writeEvent (s.nearAddress (page * 4096)) ls none false else some s with
    | none => .error (1, s)
    | some s =>
      let dir := if write then ls.foldl tabErase s.dir
        else s.dir.map fun e => if e.1 / 64 = page then (e.1, { owner := none, sharers := e.2.owner.toList ++ e.2.sharers }) else e
      let h := tabGet s.hub.pageDir page {}
      let others := h.readers.filter (· != src)
      let h : PageHome := if write then { h with writer := some src, readers := others }
        else if h.writer = some src then h else { h with writer := none, readers := others ++ [src] }
      .ok ({ s with dir := dir }.modHub fun u => { u with pageDir := tabSet u.pageDir page h })

/-- What the grant of a page brings: its bytes, and the size and the state of its region (R266). -/
def pageReply (s : State) (page : Nat) : PeerReply :=
  let bs := memBytes s.mem (page * 4096) 4096
  match s.caps.find? fun e => decide (e.1 ≤ page ∧ page * 4096 < e.1 * 4096 + e.2.bytes) with
  | some e => .page ⟨bs, e.2.bytes, e.2.cap⟩
  | none => .page ⟨bs, 4096, .opened⟩

/-- A peer's capability operation at the directory here: one that has changed the state gets its answer once every copy of it is up to date (R266,
R267, R274). -/
def peerCap (s : State) (i : Instr) (src : Nat) (seq : BitVec 32) (page size : Nat) (op : CapOp) (tag lane : Nat) (det : Bool) :
    Except (Nat × State) State :=
  let answer := fun (s : State) (r : PeerReply) => (s.received src seq).replyPeer src seq r
  if op ≠ .qryWait ∧ s.behind i [regionKey page] = true ∨ copyAwaited s page = true then .error (1, s)
  else
    match capRule (s.capAt (page * 4096)) size src tag lane det op with
    | .trap => .ok (answer s .capability)
    | .status w => .ok (answer s (.value w))
    | .wait => .error (1, s)
    | .change c => match capChange s page size c none with
      | some t =>
        if copyAwaited t page then .ok ((t.received src seq).modHub fun h => { h with owed := h.owed ++ [(src, seq, page)] })
        else .ok (answer t (.value 1#64))
      | none => .error (1, s)

/-- The translations that a peer's TLBI removes here, in every partition joined to its own: once the far atomics under way with one of them
have been performed (R407). -/
def peerTlbi (s : State) (domain : BitVec 16) (kind : Nat) (va asid : Word) : Option State :=
  let ps := joinedParts s domain
  let under := s.cores.any fun c => ps.contains (s.partOf c.1) && c.2.ctxs.any fun x => x.2.farq.any fun e => e.usesRemoved kind va asid
  if under then none else ps.foldl (fun (r : Option State) p => r.bind fun s => tlbiPerform s (s.coreOfPart p) kind va asid .pkg) (some s)

/-- A peer withdraws a request that waits here: whether it did, as 1 or 0 (R262, R354, R370). -/
def peerCancel (s : State) (src : Nat) (seq : BitVec 32) : State × Word :=
  let mine := fun (w : Waiter) => w.peer == some (src, seq)
  if s.cores.any fun c => c.2.wake.any mine then
    ((s.unlist mine).modHub fun h =>
      let w := tabGet h.windows src {}
      { h with windows := tabSet h.windows src { w with done := w.done.map fun (e : BitVec 32 × Option PeerReply) => if e.1 = seq then (seq, some .retry) else e } }, 1#64)
  else (s, 0#64)

/-- A peer's message at its destination: where the deposits meet a trick's words it takes an entry of the parking table, and a full table refuses it
(R196, R200, R201, R205, R365, R367). -/
def peerMessage (s : State) (i : Instr) (src : Nat) (seq : BitVec 32) (dest : Nat) (m : MessageData) : State :=
  let held := depositsHeld s dest m
  let answer := fun (s : State) (r : PeerReply) => ((s.unhold i).received src seq).replyPeer src seq r
  if leftCore s dest then answer s (.send .eviction)
  else if held.1 then
    if s.held.any (·.1 == i) || s.parkUsed dest < 64 then s.hold i []
    else answer (s.modCore dest fun c => { c with pkRefused := c.pkRefused + 1 }) .retry
  else if held.2 then (s.unhold i).post 1 i
  else
    let (s, r) := messageAt (wakeAgent s dest) dest m
    answer s (.send r)

/-- A peer's request is performed here, or waits for some ticks in a state (R239, R255, R260, R264, R266, R269, R271, R341, R349, R354, R365,
R405, R407, R471). -/
def peerPerform (s : State) (i : Instr) (src : Nat) (seq : BitVec 32) (r : PeerRequest) : Except (Nat × State) State :=
  let kind : Word := 2#2 ++ 0#46 ++ BitVec.ofNat 16 src
  let answer := fun (s : State) (r : PeerReply) => (s.received src seq).replyPeer src seq r
  match r.op with
  | .write pa bytes => (outsideWrite s i pa.toNat bytes (some src) kind).map fun s => answer s (.value 0#64)
  | .read pa len =>
    match outsideWaits s i pa.toNat (linesOf pa.toNat len.toNat) false (some src) with
    | some w => .error w
    | none => .ok (answer s (.data (memBytes s.mem pa.toNat len.toNat)))
  | .atomic pa o v c tag lane det =>
    let a := pa.toNat
    let old := memWord s.mem a
    let get := o == 11#4
    let bad := match s.capAt a with
      | .sealed => !get
      | .held p t l => !(p == src && t == tag && l == lane) && (!get || det)
      | .opened => det
    if bad then .ok (answer s .capability)
    else
      match outsideWaits s i a [a / 64] (!get) (some src) with
      | some w => .error w
      | none =>
        if get then .ok (answer s (.value old))
        else match s.writeEvent (s.nearAddress a) [a / 64] none false with
          | none => .error (1, s)
          | some s => .ok (answer ((s.putMem a (toBytes 8 (farNew o.toNat old v c).1.toNat)).invalidate [a / 64] none) (.value old))
  | .grant page write => (grantPage s i src page.toNat write).map fun s => answer s (pageReply s page.toNat)
  | .sync home index op _ =>
    if leftCore s home.toNat then .ok (answer s .eviction)
    else
      let w : Waiter :=
        { core := 0, ctx := 0, peer := some (src, seq), scope := .pod, barrier := atBarrier op, index := index.toNat, op := op }
      let s := s.received src seq
      .ok (if atBarrier op then barrierAt s home.toNat w else semAt s home.toNat w)
  | .message dest m => .ok (peerMessage s i src seq dest.toNat m)
  | .cap page size op tag lane det _ => peerCap s i src seq page.toNat size op tag lane det
  | .capCopy page size c => match capChange s page.toNat size c none with
    | some t => .ok (answer t (.value 0#64))
    | none => .error (1, s)
  | .tlbi k va asid => match peerTlbi s r.domain k va asid with
    | some t => .ok (answer t (.value 0#64))
    | none => .error (1, s)
  | .cancel q => let p := peerCancel s src q; .ok (answer p.1 (.value p.2))
  | .revoke page toRead => .ok ((s.received src seq).post 0 (.pageRevocation ⟨page, toRead, some ⟨BitVec.ofNat 7 src, seq⟩⟩))
  | .returned page bytes kept =>
    let n := page.toNat
    let wrote := match tabFind s.hub.pageDir n with
      | some h => h.writer == some src || h.awaited.contains src
      | none => false
    let s := if wrote && !bytes.isEmpty then s.putMem (n * 4096) (bytes.take 4096) else s
    .ok (answer (s.strike n src kept) (.value 0#64))

/-- The lines or regions at whose home a peer's request waits (R246, R267). -/
def peerKeys : PeerOp → List Nat
  | .write pa bs => (linesOf pa.toNat bs.length).map lineKey
  | .read pa len => (linesOf pa.toNat len.toNat).map lineKey
  | .atomic pa _ _ _ _ _ _ => [lineKey (pa.toNat / 64)]
  | .grant page _ => (pageLines page.toNat).map lineKey
  | .cap page _ op _ _ _ _ => if op = .qryWait then [] else [regionKey page.toNat]
  | _ => []

/-- Whether a request waits for others of its tick: at the same object, region or message context those of lower identifiers go first, and before a
program's operation at an object what the engines do in the tick (R267, R368). -/
def peerLater (s : State) (i : Instr) : PeerOp → Bool
  | .sync home index op origin => !syncLands op &&
      ((s.agenda.any fun e => decide (e.1 ≤ 2 * s.tick)) || s.lowerDue 0 origin.toNat (syncRequester s home.toNat index.toNat (atBarrier op)))
  | .message dest m => s.lowerDue 0 m.origin.toNat (sameMailbox s dest.toNat m)
  | .cap page _ op _ _ _ origin => op != .qryWait && capEarlier s i page.toNat origin
  | _ => false

/-- FABRIC_REQUEST_ARRIVAL: a request of a peer is performed at most once, in its turn; a duplicate gets the stored reply, and a partition that
is not joined is refused (R264, R367, R368, R471, R472). -/
def execFabricRequestArrival (source : BitVec 7) (seq : BitVec 32) (request : PeerRequest) (s : State) : Out :=
  let src := source.toNat
  let w := tabGet s.hub.windows src {}
  let i := Instr.fabricRequestArrival source seq request
  match w.done.find? fun e => e.1 == seq with
  | some (_, some r) =>
    let o : List Outgoing := [.peerReply src seq r]
    .next { s.unhold i with out := s.out ++ o }
  | some (_, none) => .next (s.unhold i)
  | none =>
    if belowBase w seq then .next (s.unhold i)
    else if w.done.length ≥ Config.window then .next (s.post 1 i)
    else if !joinedTo s request then
      .next (((s.unhold i).received src seq).replyPeer src seq (match request.op with
        | .message _ _ => .send .boundary
        | _ => .boundary))
    else if peerLater s i request.op then .next (s.postPoll 0 i)
    else
      let keys := peerKeys request.op
      match request.op, peerPerform s i src seq request with
      | .message _ _, .ok t => .next t
      | _, .ok t => .next (t.unhold i)
      | _, .error (n, t) => .next (if keys.isEmpty then t.post n i else t.hold i keys n)

/-- FABRIC_RETRANSMIT: 10 µs without a reply the request goes out again, charged like the first time; after 8 retransmissions it is given up, and
the requester's partition takes a machine check (R444, R472, R473, R480). -/
def execFabricRetransmit (seq : BitVec 32) (target : BitVec 7) (s : State) : Out :=
  let t := target.toNat
  match s.hub.outstanding.find? fun o => o.seq == seq && o.target == t with
  | none => .next s
  | some o =>
    let p := s.partOf o.core
    if o.retries ≥ 8 then
      let s := s.endPeer o
      .next ((if o.isPlain s then hubAnswer s o .boundary else s).post 0 (.machineCheck (.partition (BitVec.ofNat 2 p))))
    else
      let again := { o with retries := o.retries + 1 }
      let s := s.modHub fun h => { h with outstanding := h.outstanding.map fun q => if q = o then again else q }
      .next ((s.discard (some p) Config.hub 0 0x04 1 [BitVec.ofNat 64 s.pkg]).emitPeer again)

/-- FABRIC_ACKNOWLEDGEMENT: the source holds the replies up to a number; their entries are free (R472). -/
def execFabricAcknowledgement (source : BitVec 7) (upTo : BitVec 32) (s : State) : Out :=
  .next (s.modHub fun h =>
    let w := tabGet h.windows source.toNat {}
    if (upTo + 1 - w.base).msb then h
    else
      let left : Window := { base := upTo + 1, done := w.done.filter fun e => !(e.1 - (upTo + 1)).msb || e.2.isNone }
      { h with windows := tabSet h.windows source.toNat left })

/-- SECOND_TIER_TIMEOUT: no answer within 20 µs is an uncorrectable error (R444, R469). -/
def execSecondTierTimeout (part : BitVec 2) (s : State) : Out := .next (s.post 0 (.machineCheck (.partition part)))

/-- The UP bit of a port (R468). -/
def setUp (s : State) (n : Nat) (up : Bool) : State :=
  s.modHub fun h => { h with xps := tabSet h.xps n ((tabGet h.xps n 0#64 &&& ~~~2#64) ||| (if up then 2#64 else 0#64)) }

/-- EXPANDER_LINK_DOWN (R468). -/
def execExpanderLinkDown (port : BitVec 3) (s : State) : Out := .next (setUp s port.toNat false)

/-- EXPANDER_LINK_TRAINED (R468). -/
def execExpanderLinkTrained (port : BitVec 3) (s : State) : Out := .next (setUp s port.toNat true)

end Sys2Proof.Machine
end

