-- ==== Sys2Proof/Machine/Operations.lean ====
section
/-! DEFINITION. Power and cooling, the gating of agents, resets, and firmware (R459, R468, R474 to R479). -/

namespace Sys2Proof.Machine

/-! ### What comes from outside -/

/-- What the outside does to the package; it is not forgotten by a reset. [DESIGN CHOICE, log 6] -/
def fromOutside : Instr → Bool
  | .uncorrectableSoftError _ _ _ | .machineCheck _ | .lockstepMismatch _ _ | .heartbeatMiss _ | .quiesce _ | .resume _ | .merge _ | .split _ | .treset _
  | .tchange _ | .partRegisterWrite _ _ _ | .vfRegisterWrite _ _ | .xpRegisterWrite _ _ | .podRegisterWrite _ _ | .bclassWrite _ _ _
  | .lsclassWrite _ | .pwrctlWrite _ | .dpctlWrite _ _ | .hubRegisterWrite _ _ | .doorbellWrite _ _ _ _ | .doorbellStatusRead _ _ _
  | .hostPostedWrite _ _ _ | .hostRead _ _ _ | .ideFailure _ _ | .spdmAttestation _ _ | .debugUnlock _ _ _ | .fabricRequestArrival _ _ _
  | .fabricAcknowledgement _ _ | .secondTierTimeout _ | .expanderLinkDown _ | .expanderLinkTrained _ | .thermalSample _ _ _
  | .agentGate _ | .agentSleep _ | .agentWake _ | .coldReset _ _ | .warmReset _ | .firmwareUpdate _ _ | .recoveryLoad _ _ => true
  | _ => false

/-! ### Cooling -/

/-- The thermal stage after a sample: junction temperature in °C, and whether module power averages above 2,800 W or stays below 2,600 W
over 1 ms; `cool` says that the condition for leaving has held for 1 ms (R474). -/
def nextStage (stage junction : Nat) (hot cool : Bool) : Nat :=
  if junction ≥ 115 then 3
  else if junction ≥ 105 then max stage 2
  else if junction ≥ 95 ∨ hot then (if stage = 2 ∧ cool then 1 else max stage 1)
  else if stage = 2 then (if cool then 1 else 2)
  else if stage = 1 then (if cool then 0 else 1)
  else stage

/-- Whether a sample meets the condition under which its stage is left (R474). -/
def cooling (stage junction : Nat) (under : Bool) : Bool :=
  if stage = 2 then decide (junction < 100) else if stage = 1 then decide (junction < 90) && under else false

/-- THERMAL_SAMPLE: the junction sensors are read, those of the dies and the hub's; a change of stage is recorded with the temperatures, and a trip
stops every partition and removes power until cold reset: nothing but what comes from outside happens any more (R444, R474, R480). [DESIGN CHOICE,
log 91] -/
def execThermalSample (junctions : List Nat) (averageOver averageUnder : Bool) (s : State) : Out :=
  let s := s.modHub fun h => { h with sensors := junctions }
  let h := s.hub
  let junction := junctions.foldl max 0
  if h.removed then .next s
  else
    let since := if cooling h.stage junction averageUnder then some (h.coolSince.getD s.tick) else none
    let cool := match since with
      | some t => decide (t + 1000 * Config.microsecond ≤ s.tick)
      | none => false
    let n := nextStage h.stage junction averageOver cool
    let s := s.modHub fun h => { h with stage := n, coolSince := if n = h.stage then since else none }
    if n = h.stage then .next s
    else
      let s := s.discard none Config.hub 0 0x08 n (junctions.map (BitVec.ofNat 64))
      if n < 3 then .next s
      else
        let s := (List.range 4).foldl (fun s p => if (s.part p).mode = 0 then s else checkPartition s p) s
        .next { s.modHub (fun h => { h with removed := true }) with agenda := s.agenda.filter fun e => fromOutside e.2 }

/-! ### Gating -/

/-- Whether a core has held no live context for 10 µs (R475). -/
def coreIdle (s : State) (k : Nat) : Bool :=
  (s.core k).ctxs.all fun p => p.2.life == .idle && decide (p.2.readyAt + 10 * Config.microsecond ≤ s.tick)

/-- Whether no channel of an engine has held a job for 10 µs (R371, R475). -/
def engineIdle (s : State) (die engine : Nat) : Bool :=
  decide (tabGet (s.die die).engLast engine 0 + 10 * Config.microsecond ≤ s.tick) && !s.chans.any fun c => c.1 / 512 == die && c.1 % 512 / 32 == engine && !c.2.jobs.isEmpty

/-- Whether no core of a quad has a live context (R475). -/
def quadIdle (s : State) (q : Nat) : Bool := s.cores.all fun c => quadOf c.1 != q || c.2.ctxs.all fun p => p.2.life == .idle

/-- Whether PWRCTL lets agents be gated, and be marked sleeping (R475). -/
def Hub.gate (h : Hub) : Bool := h.pwrctl.getLsbD 0
def Hub.sleep (h : Hub) : Bool := h.pwrctl.getLsbD 1

/-- Whether an agent that is not gated may be (R475). -/
def gateable (s : State) : PowerAgent → Bool
  | .core k => coreIdle s k.toNat && (s.core k.toNat).gated.isNone
  | .engine d e => engineIdle s d.toNat e.toNat && (tabFind (s.die d.toNat).engGated e.toNat).isNone
  | .quadUnits q => quadIdle s q.toNat && (s.quad q.toNat).gated.isNone

/-- AGENT_GATE: an idle agent is gated, and keeps all its state; after 1 ms it may be marked sleeping (R475). -/
def execAgentGate (agent : PowerAgent) (s : State) : Out :=
  if !s.hub.gate || !gateable s agent then .next s
  else
    .next ((match agent with
      | .core k => s.modCore k.toNat fun c => { c with gated := some s.tick }
      | .engine d e => s.modDie d.toNat fun x => { x with engGated := tabSet x.engGated e.toNat s.tick }
      | .quadUnits q => s.modQuad q.toNat fun u => { u with gated := some s.tick }).post (1000 * Config.microsecond) (.agentSleep agent))

/-- Gated for 1 ms (R475). -/
def gatedLong (s : State) (g : Option Nat) : Bool :=
  match g with
  | some t => decide (t + 1000 * Config.microsecond ≤ s.tick)
  | none => false

/-- AGENT_SLEEP: an agent that stays gated for 1 ms is marked sleeping (R475). -/
def execAgentSleep (agent : PowerAgent) (s : State) : Out :=
  if !(s.hub.gate && s.hub.sleep) then .next s
  else
    .next (match agent with
      | .core k => if gatedLong s (s.core k.toNat).gated then s.modCore k.toNat fun c => { c with asleep := true } else s
      | .engine d e =>
        if gatedLong s (tabFind (s.die d.toNat).engGated e.toNat) && !(s.die d.toNat).engAsleep.contains e.toNat then
          s.modDie d.toNat fun x => { x with engAsleep := x.engAsleep ++ [e.toNat] }
        else s
      | .quadUnits q => if gatedLong s (s.quad q.toNat).gated then s.modQuad q.toNat fun u => { u with asleep := true } else s)

/-- AGENT_WAKE: an agent that something reaches is neither gated nor sleeping (R475). -/
def execAgentWake (agent : PowerAgent) (s : State) : Out :=
  .next (match agent with
    | .core k => wakeAgent s k.toNat
    | .engine d e => s.modDie d.toNat fun x => { x with engGated := tabErase x.engGated e.toNat, engAsleep := x.engAsleep.filter (· != e.toNat) }
    | .quadUnits q => wakeQuad s q.toNat)

/-! ### Resets and firmware -/

/-- The ports of a reset: UP for those whose expander trained, whatever EN holds (R468, R476). -/
def trainedPorts (trained : BitVec 8) : Tab Word := ((List.range 8).filter trained.getLsbD).map fun n => (n, 2#64)

/-- The outside's happenings that are still to come, from `old` ticks on, in a state whose ticks count from `new`; a machine check due in the tick
itself is the device's own. -/
def keepOutside (agenda : List (Nat × Instr)) (old new : Nat) (s : State) : State :=
  let own := fun (e : Nat × Instr) => match e.2 with
    | .machineCheck _ => decide (e.1 ≤ 2 * old + 1)
    | _ => false
  { s with agenda := (agenda.filter fun e => fromOutside e.2 && !own e).foldl (fun a e => agendaAdd a (e.1 - 2 * old + 2 * new) e.2) s.agenda }

/-- A die after its self-test: the first 16 of its failed cores are replaced by spares (R18, R476). -/
def testedDie (failed : List Nat) (d : Nat) (x : Die) : Die := { x with spares := 16 - (failed.filter fun k => dieOf k == d).length }

/-- The cores whose self-test failed: a spare of the die takes the index of each, in ascending order, until the spares are used up; one without a
spare does not run (R18, R476). [DESIGN CHOICE, log 90] -/
def testedCores (failed : List Nat) : Tab Core :=
  failed.map fun k =>
    let n := (failed.filter fun j => dieOf j == dieOf k && decide (j < k)).length
    (k, if n < 16 then { spare := true } else { stopped := true })

/-- STEPS 2 TO 4 of a reset: spares are assigned, keys are generated, expanders train, and every register takes its reset value; the outcome is
`r`, a reset state that holds what is kept (R18, R459, R468, R476). -/
def bringUp (s r : State) (up : Bringup) : State :=
  let bad := ((List.range 4096).filter fun k => up.failed.contains (cid k))
  let r := { r with cores := testedCores bad, freeCount := s.freeCount, out := s.out }
  let r := (List.range 4).foldl (fun r d => r.modDie d fun x => testedDie bad d { x with key := (s.die d).key + 1 }) r
  let r := (List.range 4).foldl (fun r p => r.modPart p fun a => { a with tierKey := (s.part p).tierKey + 1 }) r
  r.modHub fun h => { h with xps := trainedPorts up.trained, flash := s.hub.flash, sensors := s.hub.sensors }

/-- A cold reset goes on with an image that has passed the check of step 1; the firmware actions stand in the ring that starts afresh (R476, R479,
R480). -/
def coldStart (s : State) (image : Nat) (actions : List Nat) (up : Bringup) : State :=
  let r := (bringUp s State.reset up).modHub fun h => { h with running := some image }
  (actions.foldl (fun r a => r.discard none Config.hub 0 0x09 a []) (keepOutside s.agenda s.tick 0 r)).discard none Config.hub 0 0x06 1 []

/-- COLD_RESET: the image, from the flash or else from the recovery path, is checked and measured and the package starts; it waits on the recovery
path while it has no good image (R459, R476, R479, R480). [DEDUCED, log 42] -/
def execColdReset (signatureGood : Bool) (up : Bringup) (s : State) : Out :=
  let image := match s.hub.sram with
    | some i => some i
    | none => s.hub.flash
  match image, signatureGood with
  | some i, true => .next (coldStart s i [2] up)
  | _, _ =>
    let t := s.modHub fun h => { h with removed := true, running := none, sram := none, boot := some up }
    .next ((keepOutside s.agenda s.tick s.tick { t with agenda := [] }).discard none Config.hub 0 0x09 2 [])

/-- WARM_RESET: steps 2 to 4; the image is not measured again, and the discard piles stay (R476, R477). -/
def execWarmReset (up : Bringup) (s : State) : Out :=
  if s.hub.removed then .next s
  else
    let rings : Tab Die := (List.range 4).map fun d =>
      let x := s.die d
      (d, { ring := x.ring, next := x.next, frozen := x.frozen, events := x.events, fresh := x.fresh })
    let r := bringUp s { State.reset with tick := s.tick, dies := rings, agenda := [] } up
    let r := r.modHub fun h => { h with
      sram := s.hub.sram, running := s.hub.running, tchanges := s.hub.tchanges, stage := s.hub.stage, coolSince := s.hub.coolSince }
    let r := r.postPoll (Config.period - 1 - s.tick % Config.period) .budgetPeriodStart
    .next ((keepOutside s.agenda s.tick s.tick r).discard none Config.hub 0 0x06 2 [])

/-- FIRMWARE_UPDATE: the image is written to the flash and checked; a failed check leaves the flash marked empty. It applies at the next
cold reset (R479, R480). -/
def execFirmwareUpdate (image : Nat) (good : Bool) (s : State) : Out :=
  let s := s.modHub fun h => { h with flash := if good then some image else none }
  .next ((s.discard none Config.hub 0 0x09 1 []).discard none Config.hub 0 0x09 2 [])

/-- RECOVERY_LOAD: an image comes into the hub's SRAM over the recovery path, for step 1 of the next cold reset, or of the one that waits for it
(R476, R479, R480). -/
def execRecoveryLoad (image : Nat) (good : Bool) (s : State) : Out :=
  let s := s.modHub fun h => { h with sram := if good then some image else none }
  match s.hub.boot, good with
  | some up, true => .next (coldStart s image [3, 2] up)
  | _, _ => .next ((s.discard none Config.hub 0 0x09 3 []).discard none Config.hub 0 0x09 2 [])

end Sys2Proof.Machine
end

