-- ==== Sys2Proof/Machine/Dispatch.lean ====
section
/-! DEFINITION. One arm per constructor of Instr: a direct call of its meaning. -/

namespace Sys2Proof.Machine

/-- The meaning of one instruction or event in a state. -/
def exec (i : Instr) (s : State) : Host.Outcome State Fault Refusal :=
  match i with
  | .nop => Sys2Proof.Machine.execNop s
  | .br off => Sys2Proof.Machine.execBr off s
  | .bcc c s1 s2 off => Sys2Proof.Machine.execBcc c s1 s2 off s
  | .bp c p off => Sys2Proof.Machine.execBp c p off s
  | .call off => Sys2Proof.Machine.execCall off s
  | .callr d s1 => Sys2Proof.Machine.execCallr d s1 s
  | .ret => Sys2Proof.Machine.execRet s
  | .jr s1 => Sys2Proof.Machine.execJr s1 s
  | .loop ctr off => Sys2Proof.Machine.execLoop ctr off s
  | .rep s1 n kind base sz stride => Sys2Proof.Machine.execRep s1 n kind base sz stride s
  | .start d s1 off => Sys2Proof.Machine.execStart d s1 off s
  | .endCtx => Sys2Proof.Machine.execEndCtx s
  | .yield => Sys2Proof.Machine.execYield s
  | .wait d s1 mask => Sys2Proof.Machine.execWait d s1 mask s
  | .getid d which => Sys2Proof.Machine.execGetid d which s
  | .brk code => Sys2Proof.Machine.execBrk code s
  | .extPrefixedUnit payload body => Sys2Proof.Machine.execExtPrefixedUnit payload body s
  | .add d s1 s2 => Sys2Proof.Machine.execAdd d s1 s2 s
  | .addi d s1 imm => Sys2Proof.Machine.execAddi d s1 imm s
  | .sub d s1 s2 => Sys2Proof.Machine.execSub d s1 s2 s
  | .mul d s1 s2 => Sys2Proof.Machine.execMul d s1 s2 s
  | .mulhI64 d s1 s2 => Sys2Proof.Machine.execMulhI64 d s1 s2 s
  | .mulhN64 d s1 s2 => Sys2Proof.Machine.execMulhN64 d s1 s2 s
  | .mulhSu d s1 s2 => Sys2Proof.Machine.execMulhSu d s1 s2 s
  | .divI64 d s1 s2 => Sys2Proof.Machine.execDivI64 d s1 s2 s
  | .divN64 d s1 s2 => Sys2Proof.Machine.execDivN64 d s1 s2 s
  | .remI64 d s1 s2 => Sys2Proof.Machine.execRemI64 d s1 s2 s
  | .remN64 d s1 s2 => Sys2Proof.Machine.execRemN64 d s1 s2 s
  | .madd d s1 s2 s3 => Sys2Proof.Machine.execMadd d s1 s2 s3 s
  | .msub d s1 s2 s3 => Sys2Proof.Machine.execMsub d s1 s2 s3 s
  | .andR d s1 s2 => Sys2Proof.Machine.execAndR d s1 s2 s
  | .orR d s1 s2 => Sys2Proof.Machine.execOrR d s1 s2 s
  | .xorR d s1 s2 => Sys2Proof.Machine.execXorR d s1 s2 s
  | .andn d s1 s2 => Sys2Proof.Machine.execAndn d s1 s2 s
  | .logiAnd d s1 imm => Sys2Proof.Machine.execLogiAnd d s1 imm s
  | .logiOr d s1 imm => Sys2Proof.Machine.execLogiOr d s1 imm s
  | .logiXor d s1 imm => Sys2Proof.Machine.execLogiXor d s1 imm s
  | .logiAndn d s1 imm => Sys2Proof.Machine.execLogiAndn d s1 imm s
  | .shl d s1 s2 => Sys2Proof.Machine.execShl d s1 s2 s
  | .shr d s1 s2 => Sys2Proof.Machine.execShr d s1 s2 s
  | .sar d s1 s2 => Sys2Proof.Machine.execSar d s1 s2 s
  | .rotL d s1 s2 => Sys2Proof.Machine.execRotL d s1 s2 s
  | .rotR d s1 s2 => Sys2Proof.Machine.execRotR d s1 s2 s
  | .shiShl d s1 n => Sys2Proof.Machine.execShiShl d s1 n s
  | .shiShr d s1 n => Sys2Proof.Machine.execShiShr d s1 n s
  | .shiSar d s1 n => Sys2Proof.Machine.execShiSar d s1 n s
  | .shiRot d s1 n => Sys2Proof.Machine.execShiRot d s1 n s
  | .minI64 d s1 s2 => Sys2Proof.Machine.execMinI64 d s1 s2 s
  | .minN64 d s1 s2 => Sys2Proof.Machine.execMinN64 d s1 s2 s
  | .maxI64 d s1 s2 => Sys2Proof.Machine.execMaxI64 d s1 s2 s
  | .maxN64 d s1 s2 => Sys2Proof.Machine.execMaxN64 d s1 s2 s
  | .cmp d c s1 s2 => Sys2Proof.Machine.execCmp d c s1 s2 s
  | .sel d s1 s2 s3 => Sys2Proof.Machine.execSel d s1 s2 s3 s
  | .ext d s1 t => Sys2Proof.Machine.execExt d s1 t s
  | .bitcPop d s1 => Sys2Proof.Machine.execBitcPop d s1 s
  | .bitcClz d s1 => Sys2Proof.Machine.execBitcClz d s1 s
  | .bitcCtz d s1 => Sys2Proof.Machine.execBitcCtz d s1 s
  | .bitcRev d s1 => Sys2Proof.Machine.execBitcRev d s1 s
  | .bitcBsw d s1 => Sys2Proof.Machine.execBitcBsw d s1 s
  | .bfxN d s1 s2 => Sys2Proof.Machine.execBfxN d s1 s2 s
  | .bfxI d s1 s2 => Sys2Proof.Machine.execBfxI d s1 s2 s
  | .bfi d s1 s2 => Sys2Proof.Machine.execBfi d s1 s2 s
  | .li d imm => Sys2Proof.Machine.execLi d imm s
  | .lih d imm => Sys2Proof.Machine.execLih d imm s
  | .lea d s1 s2 sh => Sys2Proof.Machine.execLea d s1 s2 sh s
  | .hdrPack d s1 n => Sys2Proof.Machine.execHdrPack d s1 n s
  | .hdrSplit d s1 n => Sys2Proof.Machine.execHdrSplit d s1 n s
  | .shuf d s1 s2 => Sys2Proof.Machine.execShuf d s1 s2 s
  | .shufKLow d s1 s2 k => Sys2Proof.Machine.execShufKLow d s1 s2 k s
  | .shufKHigh d s1 s2 k => Sys2Proof.Machine.execShufKHigh d s1 s2 k s
  | .addc d s1 s2 s3 => Sys2Proof.Machine.execAddc d s1 s2 s3 s
  | .addcCo d s1 s2 s3 => Sys2Proof.Machine.execAddcCo d s1 s2 s3 s
  | .vadd d s1 s2 p t m => Sys2Proof.Machine.execVadd d s1 s2 p t m s
  | .vsub d s1 s2 p t m => Sys2Proof.Machine.execVsub d s1 s2 p t m s
  | .vmul d s1 s2 p t m => Sys2Proof.Machine.execVmul d s1 s2 p t m s
  | .vfma d s1 s2 p t m => Sys2Proof.Machine.execVfma d s1 s2 p t m s
  | .vdiv d s1 s2 p t m => Sys2Proof.Machine.execVdiv d s1 s2 p t m s
  | .vsqrt d s1 p t m => Sys2Proof.Machine.execVsqrt d s1 p t m s
  | .vmin d s1 s2 p t => Sys2Proof.Machine.execVmin d s1 s2 p t s
  | .vmax d s1 s2 p t => Sys2Proof.Machine.execVmax d s1 s2 p t s
  | .vunNeg d s1 p t m => Sys2Proof.Machine.execVunNeg d s1 p t m s
  | .vunAbs d s1 p t m => Sys2Proof.Machine.execVunAbs d s1 p t m s
  | .vunRint d s1 p t m => Sys2Proof.Machine.execVunRint d s1 p t m s
  | .vunPopc d s1 p t => Sys2Proof.Machine.execVunPopc d s1 p t s
  | .vunClz d s1 p t => Sys2Proof.Machine.execVunClz d s1 p t s
  | .vlogAnd d s1 p t => Sys2Proof.Machine.execVlogAnd d s1 p t s
  | .vlogOr d s1 p t => Sys2Proof.Machine.execVlogOr d s1 p t s
  | .vlogXor d s1 p t => Sys2Proof.Machine.execVlogXor d s1 p t s
  | .vlogAndn d s1 p t => Sys2Proof.Machine.execVlogAndn d s1 p t s
  | .vlogOrn d s1 p t => Sys2Proof.Machine.execVlogOrn d s1 p t s
  | .vlogNand d s1 p t => Sys2Proof.Machine.execVlogNand d s1 p t s
  | .vlogNor d s1 p t => Sys2Proof.Machine.execVlogNor d s1 p t s
  | .vlogXnor d s1 p t => Sys2Proof.Machine.execVlogXnor d s1 p t s
  | .vlogNot d s1 p t => Sys2Proof.Machine.execVlogNot d s1 p t s
  | .vsh d s1 s2 p t m => Sys2Proof.Machine.execVsh d s1 s2 p t m s
  | .vcmp q c s1 s2 p t => Sys2Proof.Machine.execVcmp q c s1 s2 p t s
  | .whilePred q l u s1 s2 t => Sys2Proof.Machine.execWhilePred q l u s1 s2 t s
  | .vwid d => Sys2Proof.Machine.execVwid d s
  | .plogAnd q s1 s2 g => Sys2Proof.Machine.execPlogAnd q s1 s2 g s
  | .plogOr q s1 s2 g => Sys2Proof.Machine.execPlogOr q s1 s2 g s
  | .plogXor q s1 s2 g => Sys2Proof.Machine.execPlogXor q s1 s2 g s
  | .plogAndn q s1 s2 g => Sys2Proof.Machine.execPlogAndn q s1 s2 g s
  | .vcvt d s1 srcT p t m => Sys2Proof.Machine.execVcvt d s1 srcT p t m s
  | .vcvtHi d s1 srcT p t m => Sys2Proof.Machine.execVcvtHi d s1 srcT p t m s
  | .vfunExp2 d s1 x p m => Sys2Proof.Machine.execVfunExp2 d s1 x p m s
  | .vfunLog2 d s1 x p m => Sys2Proof.Machine.execVfunLog2 d s1 x p m s
  | .vfunRcp d s1 x p m => Sys2Proof.Machine.execVfunRcp d s1 x p m s
  | .vfunRsq d s1 x p m => Sys2Proof.Machine.execVfunRsq d s1 x p m s
  | .vfunSinpi d s1 x p m => Sys2Proof.Machine.execVfunSinpi d s1 x p m s
  | .vfunCospi d s1 x p m => Sys2Proof.Machine.execVfunCospi d s1 x p m s
  | .vfunTanh d s1 x p m => Sys2Proof.Machine.execVfunTanh d s1 x p m s
  | .vredAdd d s1 p t m => Sys2Proof.Machine.execVredAdd d s1 p t m s
  | .vredMin d s1 p t m => Sys2Proof.Machine.execVredMin d s1 p t m s
  | .vredMax d s1 p t m => Sys2Proof.Machine.execVredMax d s1 p t m s
  | .vredAnd d s1 p t m => Sys2Proof.Machine.execVredAnd d s1 p t m s
  | .vredOr d s1 p t m => Sys2Proof.Machine.execVredOr d s1 p t m s
  | .vredXor d s1 p t m => Sys2Proof.Machine.execVredXor d s1 p t m s
  | .vdot d s1 s2 p t m => Sys2Proof.Machine.execVdot d s1 s2 p t m s
  | .vsel d s1 s2 p t => Sys2Proof.Machine.execVsel d s1 s2 p t s
  | .vperm d s1 s2 p t => Sys2Proof.Machine.execVperm d s1 s2 p t s
  | .vbcast d s1 p t => Sys2Proof.Machine.execVbcast d s1 p t s
  | .vext d s1 s2 t => Sys2Proof.Machine.execVext d s1 s2 t s
  | .vins d s1 s2 t => Sys2Proof.Machine.execVins d s1 s2 t s
  | .vzip d s1 s2 p t => Sys2Proof.Machine.execVzip d s1 s2 p t s
  | .vscanAdd d s1 p t m => Sys2Proof.Machine.execVscanAdd d s1 p t m s
  | .vscanMin d s1 p t m => Sys2Proof.Machine.execVscanMin d s1 p t m s
  | .vscanMax d s1 p t m => Sys2Proof.Machine.execVscanMax d s1 p t m s
  | .vld d s1 s2 p t => Sys2Proof.Machine.execVld d s1 s2 p t s
  | .vst d s1 s2 p t => Sys2Proof.Machine.execVst d s1 s2 p t s
  | .vgath d s1 s2 p t => Sys2Proof.Machine.execVgath d s1 s2 p t s
  | .vscat d s1 s2 p t => Sys2Proof.Machine.execVscat d s1 s2 p t s
  | .vshuf d s1 s2 p t => Sys2Proof.Machine.execVshuf d s1 s2 p t s
  | .vmov d s1 p t => Sys2Proof.Machine.execVmov d s1 p t s
  | .ld d b off z x => Sys2Proof.Machine.execLd d b off z x s
  | .st d b off z => Sys2Proof.Machine.execSt d b off z s
  | .ldx d s1 s2 f z x => Sys2Proof.Machine.execLdx d s1 s2 f z x s
  | .stx d s1 s2 f z => Sys2Proof.Machine.execStx d s1 s2 f z s
  | .ldfe d b off => Sys2Proof.Machine.execLdfe d b off s
  | .stfe d b off => Sys2Proof.Machine.execStfe d b off s
  | .feopSet s1 s2 f => Sys2Proof.Machine.execFeopSet s1 s2 f s
  | .feopClr s1 s2 f => Sys2Proof.Machine.execFeopClr s1 s2 f s
  | .feopQry d s1 s2 f => Sys2Proof.Machine.execFeopQry d s1 s2 f s
  | .feopLdff d s1 s2 f => Sys2Proof.Machine.execFeopLdff d s1 s2 f s
  | .xch d s1 s2 f z x => Sys2Proof.Machine.execXch d s1 s2 f z x s
  | .ldg d b off z x => Sys2Proof.Machine.execLdg d b off z x s
  | .stg d b off z => Sys2Proof.Machine.execStg d b off z s
  | .vldg d s1 s2 p t => Sys2Proof.Machine.execVldg d s1 s2 p t s
  | .vstg d s1 s2 p t => Sys2Proof.Machine.execVstg d s1 s2 p t s
  | .prefRd b off => Sys2Proof.Machine.execPrefRd b off s
  | .prefOwn b off => Sys2Proof.Machine.execPrefOwn b off s
  | .prefSlc b off => Sys2Proof.Machine.execPrefSlc b off s
  | .lease d s1 s2 => Sys2Proof.Machine.execLease d s1 s2 s
  | .unlease d s1 => Sys2Proof.Machine.execUnlease d s1 s
  | .lstat d s1 => Sys2Proof.Machine.execLstat d s1 s
  | .tcut => Sys2Proof.Machine.execTcut s
  | .fence scope => Sys2Proof.Machine.execFence scope s
  | .acq scope => Sys2Proof.Machine.execAcq scope s
  | .rel scope => Sys2Proof.Machine.execRel scope s
  | .faAddN64 d s1 s2 scope ord => Sys2Proof.Machine.execFaAddN64 d s1 s2 scope ord s
  | .faAndN64 d s1 s2 scope ord => Sys2Proof.Machine.execFaAndN64 d s1 s2 scope ord s
  | .faOrN64 d s1 s2 scope ord => Sys2Proof.Machine.execFaOrN64 d s1 s2 scope ord s
  | .faXorN64 d s1 s2 scope ord => Sys2Proof.Machine.execFaXorN64 d s1 s2 scope ord s
  | .faMinI64 d s1 s2 scope ord => Sys2Proof.Machine.execFaMinI64 d s1 s2 scope ord s
  | .faMaxI64 d s1 s2 scope ord => Sys2Proof.Machine.execFaMaxI64 d s1 s2 scope ord s
  | .faMinN64 d s1 s2 scope ord => Sys2Proof.Machine.execFaMinN64 d s1 s2 scope ord s
  | .faMaxN64 d s1 s2 scope ord => Sys2Proof.Machine.execFaMaxN64 d s1 s2 scope ord s
  | .faSwapN64 d s1 s2 scope ord => Sys2Proof.Machine.execFaSwapN64 d s1 s2 scope ord s
  | .faCasN64 d s1 s2 scope ord => Sys2Proof.Machine.execFaCasN64 d s1 s2 scope ord s
  | .faAddF64 d s1 s2 scope ord => Sys2Proof.Machine.execFaAddF64 d s1 s2 scope ord s
  | .faGetN64 d s1 s2 scope ord => Sys2Proof.Machine.execFaGetN64 d s1 s2 scope ord s
  | .capGive d s1 s2 => Sys2Proof.Machine.execCapGive d s1 s2 s
  | .capClaim d s1 => Sys2Proof.Machine.execCapClaim d s1 s
  | .capSeal d s1 => Sys2Proof.Machine.execCapSeal d s1 s
  | .capUnseal d s1 => Sys2Proof.Machine.execCapUnseal d s1 s
  | .capQry d s1 => Sys2Proof.Machine.execCapQry d s1 s
  | .capQryWait d s1 => Sys2Proof.Machine.execCapQryWait d s1 s
  | .tcfg mm nn => Sys2Proof.Machine.execTcfg mm nn s
  | .trel k => Sys2Proof.Machine.execTrel k s
  | .dtld d s1 => Sys2Proof.Machine.execDtld d s1 s
  | .dtldStd d k => Sys2Proof.Machine.execDtldStd d k s
  | .fctx s1 => Sys2Proof.Machine.execFctx s1 s
  | .fctxRd d => Sys2Proof.Machine.execFctxRd d s
  | .tldb s2 s1 s3 => Sys2Proof.Machine.execTldb s2 s1 s3 s
  | .mma d s1 z => Sys2Proof.Machine.execMma d s1 z s
  | .mmaV d s1 v z => Sys2Proof.Machine.execMmaV d s1 v z s
  | .tstcF32 d s2 s1 => Sys2Proof.Machine.execTstcF32 d s2 s1 s
  | .tstcBf16 d s2 s1 => Sys2Proof.Machine.execTstcBf16 d s2 s1 s
  | .tstcF16 d s2 s1 => Sys2Proof.Machine.execTstcF16 d s2 s1 s
  | .tqnt d s1 => Sys2Proof.Machine.execTqnt d s1 s
  | .scfg d op rmode => Sys2Proof.Machine.execScfg d op rmode s
  | .stile s1 => Sys2Proof.Machine.execStile s1 s
  | .sjoinT d s1 => Sys2Proof.Machine.execSjoinT d s1 s
  | .sjoinR d s1 s2 => Sys2Proof.Machine.execSjoinR d s1 s2 s
  | .chainPost d s1 s2 => Sys2Proof.Machine.execChainPost d s1 s2 s
  | .chainWait d s1 s2 => Sys2Proof.Machine.execChainWait d s1 s2 s
  | .chainPos d => Sys2Proof.Machine.execChainPos d s
  | .binit d s1 s2 scope => Sys2Proof.Machine.execBinit d s1 s2 scope s
  | .barv d s1 s2 scope => Sys2Proof.Machine.execBarv d s1 s2 scope s
  | .barvX d s1 s2 scope => Sys2Proof.Machine.execBarvX d s1 s2 scope s
  | .bwait d s1 s2 scope => Sys2Proof.Machine.execBwait d s1 s2 scope s
  | .btest d s1 s2 scope => Sys2Proof.Machine.execBtest d s1 s2 scope s
  | .semi d s1 s2 scope => Sys2Proof.Machine.execSemi d s1 s2 scope s
  | .semiSet d s1 s2 scope => Sys2Proof.Machine.execSemiSet d s1 s2 scope s
  | .semw d s1 s2 scope => Sys2Proof.Machine.execSemw d s1 s2 scope s
  | .semwDec d s1 s2 scope => Sys2Proof.Machine.execSemwDec d s1 s2 scope s
  | .qinit d s1 s2 => Sys2Proof.Machine.execQinit d s1 s2 s
  | .enq d s1 s2 => Sys2Proof.Machine.execEnq d s1 s2 s
  | .enqB d s1 s2 => Sys2Proof.Machine.execEnqB d s1 s2 s
  | .deq d s1 => Sys2Proof.Machine.execDeq d s1 s
  | .deqB d s1 s2 => Sys2Proof.Machine.execDeqB d s1 s2 s
  | .deqPoll d s1 s2 => Sys2Proof.Machine.execDeqPoll d s1 s2 s
  | .send d s1 s2 n => Sys2Proof.Machine.execSend d s1 s2 n s
  | .sendRep d s1 s2 n => Sys2Proof.Machine.execSendRep d s1 s2 n s
  | .sendRef d s1 => Sys2Proof.Machine.execSendRef d s1 s
  | .cpy d s1 s2 => Sys2Proof.Machine.execCpy d s1 s2 s
  | .cpyStat d s1 => Sys2Proof.Machine.execCpyStat d s1 s
  | .cpyStatErr d s1 => Sys2Proof.Machine.execCpyStatErr d s1 s
  | .cpyStatWait d s1 s2 => Sys2Proof.Machine.execCpyStatWait d s1 s2 s
  | .gath d s1 s2 => Sys2Proof.Machine.execGath d s1 s2 s
  | .scat d s1 s2 => Sys2Proof.Machine.execScat d s1 s2 s
  | .strmOff d v => Sys2Proof.Machine.execStrmOff d v s
  | .strmIn d v s1 f => Sys2Proof.Machine.execStrmIn d v s1 f s
  | .strmOut d v s1 f => Sys2Proof.Machine.execStrmOut d v s1 f s
  | .strmInD d v s1 f => Sys2Proof.Machine.execStrmInD d v s1 f s
  | .strmOutD d v s1 f => Sys2Proof.Machine.execStrmOutD d v s1 f s
  | .trap s1 n => Sys2Proof.Machine.execTrap s1 n s
  | .eret s1 => Sys2Proof.Machine.execEret s1 s
  | .eretEnd s1 => Sys2Proof.Machine.execEretEnd s1 s
  | .parkrd d s1 => Sys2Proof.Machine.execParkrd d s1 s
  | .parkwr s1 s2 => Sys2Proof.Machine.execParkwr s1 s2 s
  | .erlog d s1 => Sys2Proof.Machine.execErlog d s1 s
  | .erlogEsc s1 => Sys2Proof.Machine.execErlogEsc s1 s
  | .crd d r => Sys2Proof.Machine.execCrd d r s
  | .cwr r s1 => Sys2Proof.Machine.execCwr r s1 s
  | .tlbiVa s1 s2 scope => Sys2Proof.Machine.execTlbiVa s1 s2 scope s
  | .tlbiAsid s2 scope => Sys2Proof.Machine.execTlbiAsid s2 scope s
  | .tlbiAll scope => Sys2Proof.Machine.execTlbiAll scope s
  | .cBrk code => Sys2Proof.Machine.execCBrk code s
  | .cNop => Sys2Proof.Machine.execCNop s
  | .cMov d src => Sys2Proof.Machine.execCMov d src s
  | .cAdd d src => Sys2Proof.Machine.execCAdd d src s
  | .cSub d src => Sys2Proof.Machine.execCSub d src s
  | .cAnd d src => Sys2Proof.Machine.execCAnd d src s
  | .cOr d src => Sys2Proof.Machine.execCOr d src s
  | .cXor d src => Sys2Proof.Machine.execCXor d src s
  | .cAddi d imm => Sys2Proof.Machine.execCAddi d imm s
  | .cLi d imm => Sys2Proof.Machine.execCLi d imm s
  | .cShiShl d imm => Sys2Proof.Machine.execCShiShl d imm s
  | .cShiShr d imm => Sys2Proof.Machine.execCShiShr d imm s
  | .cShiSar d imm => Sys2Proof.Machine.execCShiSar d imm s
  | .cLd d b off => Sys2Proof.Machine.execCLd d b off s
  | .cSt d b off => Sys2Proof.Machine.execCSt d b off s
  | .cLdg d b off => Sys2Proof.Machine.execCLdg d b off s
  | .cStg d b off => Sys2Proof.Machine.execCStg d b off s
  | .cBr off => Sys2Proof.Machine.execCBr off s
  | .cBccEq x off => Sys2Proof.Machine.execCBccEq x off s
  | .cBccNe x off => Sys2Proof.Machine.execCBccNe x off s
  | .cRet => Sys2Proof.Machine.execCRet s
  | .cJr src => Sys2Proof.Machine.execCJr src s
  | .cCallr src => Sys2Proof.Machine.execCCallr src s
  | .cYield => Sys2Proof.Machine.execCYield s
  | .cEnd => Sys2Proof.Machine.execCEnd s
  | .cTcut => Sys2Proof.Machine.execCTcut s
  | .cVaddF32 d src => Sys2Proof.Machine.execCVaddF32 d src s
  | .cVmulF32 d src => Sys2Proof.Machine.execCVmulF32 d src s
  | .cVmov d src => Sys2Proof.Machine.execCVmov d src s
  | .cVld d src => Sys2Proof.Machine.execCVld d src s
  | .cVst d src => Sys2Proof.Machine.execCVst d src s
  | .cBpAny p off => Sys2Proof.Machine.execCBpAny p off s
  | .cwrCmode s1 => Sys2Proof.Machine.execCwrCmode s1 s
  | .cwrWsp s1 => Sys2Proof.Machine.execCwrWsp s1 s
  | .cwrLayout n s1 => Sys2Proof.Machine.execCwrLayout n s1 s
  | .cwrSplit s1 => Sys2Proof.Machine.execCwrSplit s1 s
  | .cwrVpool s1 => Sys2Proof.Machine.execCwrVpool s1 s
  | .cwrClass n s1 => Sys2Proof.Machine.execCwrClass n s1 s
  | .cwrVmroot s1 => Sys2Proof.Machine.execCwrVmroot s1 s
  | .supervisorWake core => Sys2Proof.Machine.execSupervisorWake core s
  | .blockedIntervalEnd core ctx => Sys2Proof.Machine.execBlockedIntervalEnd core ctx s
  | .forfeitEnd core ctx => Sys2Proof.Machine.execForfeitEnd core ctx s
  | .normaliserService quad => Sys2Proof.Machine.execNormaliserService quad s
  | .queueRegisterUnblock core ctx => Sys2Proof.Machine.execQueueRegisterUnblock core ctx s
  | .waitRelease core ctx => Sys2Proof.Machine.execWaitRelease core ctx s
  | .waitLimitExpiry core ctx => Sys2Proof.Machine.execWaitLimitExpiry core ctx s
  | .helperTaken core ctx => Sys2Proof.Machine.execHelperTaken core ctx s
  | .taskLaneRetire core => Sys2Proof.Machine.execTaskLaneRetire core s
  | .remoteAccessPerform core ctx => Sys2Proof.Machine.execRemoteAccessPerform core ctx s
  | .remoteStorePerform core ctx => Sys2Proof.Machine.execRemoteStorePerform core ctx s
  | .vectorRemoteChecks core ctx => Sys2Proof.Machine.execVectorRemoteChecks core ctx s
  | .parkedRequestServe core => Sys2Proof.Machine.execParkedRequestServe core s
  | .parkRefusalRetry core ctx => Sys2Proof.Machine.execParkRefusalRetry core ctx s
  | .evictionRetryResend core ctx => Sys2Proof.Machine.execEvictionRetryResend core ctx s
  | .commitGrant core ctx => Sys2Proof.Machine.execCommitGrant core ctx s
  | .localCommit core ctx => Sys2Proof.Machine.execLocalCommit core ctx s
  | .trumpAdmission part => Sys2Proof.Machine.execTrumpAdmission part s
  | .homeLineRequest line agent kind => Sys2Proof.Machine.execHomeLineRequest line agent kind s
  | .probeTimeout line agent => Sys2Proof.Machine.execProbeTimeout line agent s
  | .leaseGrant core ctx => Sys2Proof.Machine.execLeaseGrant core ctx s
  | .leaseExpiry core ctx slot => Sys2Proof.Machine.execLeaseExpiry core ctx slot s
  | .farAtomicPerform core ctx => Sys2Proof.Machine.execFarAtomicPerform core ctx s
  | .farAtomicReply core ctx answer => Sys2Proof.Machine.execFarAtomicReply core ctx answer s
  | .capStateChange core turn => Sys2Proof.Machine.execCapStateChange core turn s
  | .capQryWaitRelease core ctx => Sys2Proof.Machine.execCapQryWaitRelease core ctx s
  | .matrixRequestStart quad => Sys2Proof.Machine.execMatrixRequestStart quad s
  | .matrixRequestComplete quad => Sys2Proof.Machine.execMatrixRequestComplete quad s
  | .mxwdogExpiry quad => Sys2Proof.Machine.execMxwdogExpiry quad s
  | .uncorrectableSoftError place job storage => Sys2Proof.Machine.execUncorrectableSoftError place job storage s
  | .scanRequestStart quad => Sys2Proof.Machine.execScanRequestStart quad s
  | .scanRequestComplete quad => Sys2Proof.Machine.execScanRequestComplete quad s
  | .chainPostPerform core ctx => Sys2Proof.Machine.execChainPostPerform core ctx s
  | .chainDelivery quad => Sys2Proof.Machine.execChainDelivery quad s
  | .chainWaitPerform core ctx => Sys2Proof.Machine.execChainWaitPerform core ctx s
  | .barrierArrival core ctx => Sys2Proof.Machine.execBarrierArrival core ctx s
  | .semaphoreAtHome core ctx => Sys2Proof.Machine.execSemaphoreAtHome core ctx s
  | .syncWaiterAnswer core ctx answer => Sys2Proof.Machine.execSyncWaiterAnswer core ctx answer s
  | .wakeListRetry core ctx => Sys2Proof.Machine.execWakeListRetry core ctx s
  | .sliceQueueOp core ctx => Sys2Proof.Machine.execSliceQueueOp core ctx s
  | .messageArrival dest msg => Sys2Proof.Machine.execMessageArrival dest msg s
  | .sendReply core ctx turn => Sys2Proof.Machine.execSendReply core ctx turn s
  | .granuleRead chan job => Sys2Proof.Machine.execGranuleRead chan job s
  | .granuleWrite chan job => Sys2Proof.Machine.execGranuleWrite chan job s
  | .jobEnd chan turn => Sys2Proof.Machine.execJobEnd chan turn s
  | .gathScatRow chan job => Sys2Proof.Machine.execGathScatRow chan job s
  | .streamStripFill core ctx k => Sys2Proof.Machine.execStreamStripFill core ctx k s
  | .streamStripWrite core ctx k => Sys2Proof.Machine.execStreamStripWrite core ctx k s
  | .cpyStatWaitRelease core ctx => Sys2Proof.Machine.execCpyStatWaitRelease core ctx s
  | .trapRecordEnqueue core => Sys2Proof.Machine.execTrapRecordEnqueue core s
  | .pageWalk core va => Sys2Proof.Machine.execPageWalk core va s
  | .tlbiComplete core ctx => Sys2Proof.Machine.execTlbiComplete core ctx s
  | .pageGrant page write answer => Sys2Proof.Machine.execPageGrant page write answer s
  | .pageRevocation wanted => Sys2Proof.Machine.execPageRevocation wanted s
  | .malformedDealRemoval queue => Sys2Proof.Machine.execMalformedDealRemoval queue s
  | .dealPlacement part => Sys2Proof.Machine.execDealPlacement part s
  | .launchCompletion tag => Sys2Proof.Machine.execLaunchCompletion tag s
  | .pendingInterruptSend fn vector => Sys2Proof.Machine.execPendingInterruptSend fn vector s
  | .preemption part => Sys2Proof.Machine.execPreemption part s
  | .coreResume tag lane => Sys2Proof.Machine.execCoreResume tag lane s
  | .budgetPeriodStart => Sys2Proof.Machine.execBudgetPeriodStart s
  | .trapEntry core ctx => Sys2Proof.Machine.execTrapEntry core ctx s
  | .lockstepMismatch core code => Sys2Proof.Machine.execLockstepMismatch core code s
  | .machineCheck target => Sys2Proof.Machine.execMachineCheck target s
  | .heartbeatMiss core => Sys2Proof.Machine.execHeartbeatMiss core s
  | .coreRepair core clean => Sys2Proof.Machine.execCoreRepair core clean s
  | .quiesce w => Sys2Proof.Machine.execQuiesce w s
  | .quiesceDone => Sys2Proof.Machine.execQuiesceDone s
  | .quiesceLimitExpiry => Sys2Proof.Machine.execQuiesceLimitExpiry s
  | .resume w => Sys2Proof.Machine.execResume w s
  | .merge w => Sys2Proof.Machine.execMerge w s
  | .split w => Sys2Proof.Machine.execSplit w s
  | .treset w => Sys2Proof.Machine.execTreset w s
  | .tchange w => Sys2Proof.Machine.execTchange w s
  | .tchangeDone => Sys2Proof.Machine.execTchangeDone s
  | .partRegisterWrite part reg value => Sys2Proof.Machine.execPartRegisterWrite part reg value s
  | .vfRegisterWrite vf value => Sys2Proof.Machine.execVfRegisterWrite vf value s
  | .xpRegisterWrite port value => Sys2Proof.Machine.execXpRegisterWrite port value s
  | .podRegisterWrite part value => Sys2Proof.Machine.execPodRegisterWrite part value s
  | .bclassWrite cls b value => Sys2Proof.Machine.execBclassWrite cls b value s
  | .lsclassWrite value => Sys2Proof.Machine.execLsclassWrite value s
  | .pwrctlWrite value => Sys2Proof.Machine.execPwrctlWrite value s
  | .dpctlWrite die value => Sys2Proof.Machine.execDpctlWrite die value s
  | .hubRegisterWrite hubOff value => Sys2Proof.Machine.execHubRegisterWrite hubOff value s
  | .doorbellWrite requester vf barOff bytes => Sys2Proof.Machine.execDoorbellWrite requester vf barOff bytes s
  | .doorbellTrigger vf queue => Sys2Proof.Machine.execDoorbellTrigger vf queue s
  | .doorbellStatusRead requester vf queue => Sys2Proof.Machine.execDoorbellStatusRead requester vf queue s
  | .hostPostedWrite requester place bytes => Sys2Proof.Machine.execHostPostedWrite requester place bytes s
  | .hostRead requester place len => Sys2Proof.Machine.execHostRead requester place len s
  | .ideFailure port requester => Sys2Proof.Machine.execIdeFailure port requester s
  | .spdmAttestation part nonce => Sys2Proof.Machine.execSpdmAttestation part nonce s
  | .debugUnlock part nonce signed => Sys2Proof.Machine.execDebugUnlock part nonce signed s
  | .fabricRequestArrival source seq request => Sys2Proof.Machine.execFabricRequestArrival source seq request s
  | .fabricRetransmit seq target => Sys2Proof.Machine.execFabricRetransmit seq target s
  | .secondTierTimeout part => Sys2Proof.Machine.execSecondTierTimeout part s
  | .expanderLinkDown port => Sys2Proof.Machine.execExpanderLinkDown port s
  | .expanderLinkTrained port => Sys2Proof.Machine.execExpanderLinkTrained port s
  | .thermalSample junctions averageOver averageUnder => Sys2Proof.Machine.execThermalSample junctions averageOver averageUnder s
  | .agentGate agent => Sys2Proof.Machine.execAgentGate agent s
  | .agentSleep agent => Sys2Proof.Machine.execAgentSleep agent s
  | .agentWake agent => Sys2Proof.Machine.execAgentWake agent s
  | .coldReset signatureGood up => Sys2Proof.Machine.execColdReset signatureGood up s
  | .warmReset up => Sys2Proof.Machine.execWarmReset up s
  | .firmwareUpdate image good => Sys2Proof.Machine.execFirmwareUpdate image good s
  | .recoveryLoad image good => Sys2Proof.Machine.execRecoveryLoad image good s
  | .partitionOpComplete => Sys2Proof.Machine.execPartitionOpComplete s
  | .hostLoadReply reader pa value => Sys2Proof.Machine.execHostLoadReply reader pa value s
  | .fabricAcknowledgement source upTo => Sys2Proof.Machine.execFabricAcknowledgement source upTo s

end Sys2Proof.Machine
end

