-- ==== Sys2Proof/Decode.lean ====
section
/-! DEFINITION. The decoder, from words to instructions, and after it the encoder (R28 to R45). -/

namespace Sys2Proof

/-- A 5-bit field that names a predicate register: codes 8 to 31 name none (R50). -/
def lowPred (f : BitVec 5) : Option PReg :=
  if f.extractLsb' 3 2 = 0#2 then some (f.extractLsb' 0 3) else none

/-- A 5-bit field that names a tile or table: codes 4 to 31 name none (R50). -/
def lowTile (f : BitVec 5) : Option TReg :=
  if f.extractLsb' 2 3 = 0#3 then some (f.extractLsb' 0 2) else none

def ElemType.ofBits (f : BitVec 4) : Option ElemType :=
  match f.toNat with
  | 0 => some .i8 | 1 => some .i16 | 2 => some .i32 | 3 => some .i64
  | 4 => some .n8 | 5 => some .n16 | 6 => some .n32 | 7 => some .n64
  | 8 => some .f16 | 9 => some .bf16 | 10 => some .f32 | 11 => some .f64
  | 12 => some .f19 | 13 => some .c8 | 14 => some .c4 | _ => none

def ElemType.toBits : ElemType → BitVec 4
  | .i8 => 0#4 | .i16 => 1#4 | .i32 => 2#4 | .i64 => 3#4 | .n8 => 4#4 | .n16 => 5#4 | .n32 => 6#4 | .n64 => 7#4
  | .f16 => 8#4 | .bf16 => 9#4 | .f32 => 10#4 | .f64 => 11#4 | .f19 => 12#4 | .c8 => 13#4 | .c4 => 14#4

def Cond.ofBits (f : BitVec 5) : Option Cond :=
  match f.toNat with
  | 0 => some .eq | 1 => some .ne | 2 => some .lt | 3 => some .ge | 4 => some .ltn | 5 => some .gen | _ => none

def Cond.toBits : Cond → BitVec 5
  | .eq => 0#5 | .ne => 1#5 | .lt => 2#5 | .ge => 3#5 | .ltn => 4#5 | .gen => 5#5

def PCond.ofBits (f : BitVec 2) : Option PCond :=
  match f.toNat with
  | 0 => some .any | 1 => some .all | 2 => some .none | _ => Option.none

def PCond.toBits : PCond → BitVec 2
  | .any => 0#2 | .all => 1#2 | .none => 2#2

def VCond.ofBits (f : BitVec 2) : VCond :=
  match f.toNat with
  | 0 => .eq | 1 => .ne | 2 => .lt | _ => .le

def VCond.toBits : VCond → BitVec 2
  | .eq => 0#2 | .ne => 1#2 | .lt => 2#2 | .le => 3#2

def Scope.ofBits (f : BitVec 3) : Scope :=
  match f.toNat with
  | 0 => .lane | 1 => .core | 2 => .quad | 3 => .group | 4 => .sgrp | 5 => .die | 6 => .pkg | _ => .pod

def Scope.toBits : Scope → BitVec 3
  | .lane => 0#3 | .core => 1#3 | .quad => 2#3 | .group => 3#3 | .sgrp => 4#3 | .die => 5#3 | .pkg => 6#3 | .pod => 7#3

def Rounding.ofBits (f : BitVec 3) : Option Rounding :=
  match f.toNat with
  | 0 => some .rne | 1 => some .rz | 2 => some .rdn | 3 => some .rup | 4 => some .rna | 5 => some .rst | _ => none

def Rounding.toBits : Rounding → BitVec 3
  | .rne => 0#3 | .rz => 1#3 | .rdn => 2#3 | .rup => 3#3 | .rna => 4#3 | .rst => 5#3

def RepKind.ofBits (f : BitVec 2) : RepKind :=
  match f.toNat with
  | 0 => .nothing | 1 => .vec | 2 => .scalar | _ => .both

def RepKind.toBits : RepKind → BitVec 2
  | .nothing => 0#2 | .vec => 1#2 | .scalar => 2#2 | .both => 3#2

def GetIdSel.ofBits (f : BitVec 5) : Option GetIdSel :=
  match f.toNat with
  | 0 => some .pc | 1 => some .wsp | 2 => some .ctx | 3 => some .lane | 4 => some .cid | 5 => some .core
  | 6 => some .nlane | 7 => some .retire | 8 => some .tick | _ => none

def GetIdSel.toBits : GetIdSel → BitVec 5
  | .pc => 0#5 | .wsp => 1#5 | .ctx => 2#5 | .lane => 3#5 | .cid => 4#5 | .core => 5#5 | .nlane => 6#5
  | .retire => 7#5 | .tick => 8#5

def StdTable.ofBits (f : BitVec 5) : Option StdTable :=
  match f.toNat with
  | 0 => some .e4m3 | 1 => some .e5m2 | 2 => some .intf | 3 => some .e2m1 | _ => none

def StdTable.toBits : StdTable → BitVec 5
  | .e4m3 => 0#5 | .e5m2 => 1#5 | .intf => 2#5 | .e2m1 => 3#5

def ScanOp.ofBits (f : BitVec 3) : Option ScanOp :=
  match f.toNat with
  | 0 => some .aff | 1 => some .add | 2 => some .mul | 3 => some .maxp | 4 => some .minp | 5 => some .lae
  | 6 => some .m2 | _ => none

def ScanOp.toBits : ScanOp → BitVec 3
  | .aff => 0#3 | .add => 1#3 | .mul => 2#3 | .maxp => 3#3 | .minp => 4#3 | .lae => 5#3 | .m2 => 6#3

/-- The constructor of a write to control register r: seven registers (LAYOUT and CLASS being ranges, R141, R361) have a
constructor of their own. -/
noncomputable def cwrForm (r : BitVec 13) (s1 : GReg) : Instr :=
  if r = 0x0010#13 then .cwrCmode s1
  else if r = 0x0012#13 then .cwrWsp s1
  else if r.extractLsb' 5 8 = 2#8 then .cwrLayout (r.extractLsb' 0 5) s1
  else if r = 0x0060#13 then .cwrSplit s1
  else if r = 0x0061#13 then .cwrVpool s1
  else if r.extractLsb' 5 8 = 5#8 then .cwrClass (r.extractLsb' 0 5) s1
  else if r = 0x00D0#13 then .cwrVmroot s1
  else .cwr r s1

/-- The majors 0x00 to 0x07 (R39 to R41). -/
noncomputable def decodeMajors00 (lo : Nat) (w : BitVec 32) : Option Instr :=
  match lo with
  | 0 =>
    if w.extractLsb' 8 24 = 0#24 then some .nop else
    none
  | 1 =>
    some (.br (w.extractLsb' 8 24))
  | 2 =>
    (Cond.ofBits (w.extractLsb' 8 5)).bind fun x0 => some (.bcc x0 (w.extractLsb' 13 5) (w.extractLsb' 18 5) (w.extractLsb' 23 9))
  | 3 =>
    if w.extractLsb' 28 4 = 0#4 then (PCond.ofBits (w.extractLsb' 26 2)).bind fun x0 => some (.bp x0 (w.extractLsb' 23 3) (w.extractLsb' 8 15)) else
    none
  | 4 =>
    some (.call (w.extractLsb' 8 24))
  | 5 =>
    if w.extractLsb' 18 14 = 0#14 then some (.callr (w.extractLsb' 8 5) (w.extractLsb' 13 5)) else
    none
  | 6 =>
    if w.extractLsb' 8 24 = 0#24 then some .ret else
    none
  | 7 =>
    if w.extractLsb' 8 5 = 0#5 ∧ w.extractLsb' 18 14 = 0#14 then some (.jr (w.extractLsb' 13 5)) else
    none
  | _ => none

/-- The majors 0x08 to 0x0F (R39 to R41). -/
noncomputable def decodeMajors08 (lo : Nat) (w : BitVec 32) : Option Instr :=
  match lo with
  | 0 =>
    if w.extractLsb' 13 10 = 0#10 then some (.loop (w.extractLsb' 8 5) (w.extractLsb' 23 9)) else
    none
  | 1 =>
    some (.rep (w.extractLsb' 13 5) (w.extractLsb' 28 4) (RepKind.ofBits (w.extractLsb' 18 2)) (w.extractLsb' 8 5) (w.extractLsb' 25 3) (w.extractLsb' 20 5))
  | 2 =>
    some (.start (w.extractLsb' 8 5) (w.extractLsb' 13 5) (w.extractLsb' 18 14))
  | 3 =>
    if w.extractLsb' 8 24 = 0#24 then some .endCtx else
    none
  | 4 =>
    if w.extractLsb' 8 24 = 0#24 then some .yield else
    none
  | 5 =>
    if w.extractLsb' 18 1 = 0#1 ∧ w.extractLsb' 29 3 = 0#3 then some (.wait (w.extractLsb' 8 5) (w.extractLsb' 13 5) (w.extractLsb' 19 10)) else
    none
  | 6 =>
    if w.extractLsb' 13 5 = 0#5 ∧ w.extractLsb' 23 9 = 0#9 then (GetIdSel.ofBits (w.extractLsb' 18 5)).bind fun x1 => some (.getid (w.extractLsb' 8 5) x1) else
    none
  | 7 =>
    some (.brk (w.extractLsb' 8 24))
  | _ => none

/-- The majors 0x10 to 0x17 (R39 to R41). -/
noncomputable def decodeMajors10 (lo : Nat) (w : BitVec 32) : Option Instr :=
  match lo with
  | 0 =>
    if w.extractLsb' 23 9 = 0#9 then some (.add (w.extractLsb' 8 5) (w.extractLsb' 13 5) (w.extractLsb' 18 5)) else
    none
  | 1 =>
    some (.addi (w.extractLsb' 8 5) (w.extractLsb' 13 5) (w.extractLsb' 18 14))
  | 2 =>
    if w.extractLsb' 23 9 = 0#9 then some (.sub (w.extractLsb' 8 5) (w.extractLsb' 13 5) (w.extractLsb' 18 5)) else
    none
  | 3 =>
    if w.extractLsb' 23 9 = 0#9 then some (.mul (w.extractLsb' 8 5) (w.extractLsb' 13 5) (w.extractLsb' 18 5)) else
    none
  | 4 =>
    if w.extractLsb' 23 9 = 0#9 then some (.mulhI64 (w.extractLsb' 8 5) (w.extractLsb' 13 5) (w.extractLsb' 18 5)) else
    if w.extractLsb' 23 9 = 32#9 then some (.mulhN64 (w.extractLsb' 8 5) (w.extractLsb' 13 5) (w.extractLsb' 18 5)) else
    if w.extractLsb' 23 9 = 64#9 then some (.mulhSu (w.extractLsb' 8 5) (w.extractLsb' 13 5) (w.extractLsb' 18 5)) else
    none
  | 5 =>
    if w.extractLsb' 23 9 = 0#9 then some (.divI64 (w.extractLsb' 8 5) (w.extractLsb' 13 5) (w.extractLsb' 18 5)) else
    if w.extractLsb' 23 9 = 32#9 then some (.divN64 (w.extractLsb' 8 5) (w.extractLsb' 13 5) (w.extractLsb' 18 5)) else
    none
  | 6 =>
    if w.extractLsb' 23 9 = 0#9 then some (.remI64 (w.extractLsb' 8 5) (w.extractLsb' 13 5) (w.extractLsb' 18 5)) else
    if w.extractLsb' 23 9 = 32#9 then some (.remN64 (w.extractLsb' 8 5) (w.extractLsb' 13 5) (w.extractLsb' 18 5)) else
    none
  | 7 =>
    if w.extractLsb' 28 4 = 0#4 then some (.madd (w.extractLsb' 8 5) (w.extractLsb' 13 5) (w.extractLsb' 18 5) (w.extractLsb' 23 5)) else
    if w.extractLsb' 28 4 = 1#4 then some (.msub (w.extractLsb' 8 5) (w.extractLsb' 13 5) (w.extractLsb' 18 5) (w.extractLsb' 23 5)) else
    none
  | _ => none

/-- The majors 0x18 to 0x1F (R39 to R41). -/
noncomputable def decodeMajors18 (lo : Nat) (w : BitVec 32) : Option Instr :=
  match lo with
  | 0 =>
    if w.extractLsb' 23 9 = 0#9 then some (.andR (w.extractLsb' 8 5) (w.extractLsb' 13 5) (w.extractLsb' 18 5)) else
    none
  | 1 =>
    if w.extractLsb' 23 9 = 0#9 then some (.orR (w.extractLsb' 8 5) (w.extractLsb' 13 5) (w.extractLsb' 18 5)) else
    none
  | 2 =>
    if w.extractLsb' 23 9 = 0#9 then some (.xorR (w.extractLsb' 8 5) (w.extractLsb' 13 5) (w.extractLsb' 18 5)) else
    none
  | 3 =>
    if w.extractLsb' 23 9 = 0#9 then some (.andn (w.extractLsb' 8 5) (w.extractLsb' 13 5) (w.extractLsb' 18 5)) else
    none
  | 4 =>
    if w.extractLsb' 30 2 = 0#2 then some (.logiAnd (w.extractLsb' 8 5) (w.extractLsb' 13 5) (w.extractLsb' 18 12)) else
    if w.extractLsb' 30 2 = 1#2 then some (.logiOr (w.extractLsb' 8 5) (w.extractLsb' 13 5) (w.extractLsb' 18 12)) else
    if w.extractLsb' 30 2 = 2#2 then some (.logiXor (w.extractLsb' 8 5) (w.extractLsb' 13 5) (w.extractLsb' 18 12)) else
    if w.extractLsb' 30 2 = 3#2 then some (.logiAndn (w.extractLsb' 8 5) (w.extractLsb' 13 5) (w.extractLsb' 18 12)) else
    none
  | 5 =>
    if w.extractLsb' 23 9 = 0#9 then some (.shl (w.extractLsb' 8 5) (w.extractLsb' 13 5) (w.extractLsb' 18 5)) else
    none
  | 6 =>
    if w.extractLsb' 23 9 = 0#9 then some (.shr (w.extractLsb' 8 5) (w.extractLsb' 13 5) (w.extractLsb' 18 5)) else
    none
  | 7 =>
    if w.extractLsb' 23 9 = 0#9 then some (.sar (w.extractLsb' 8 5) (w.extractLsb' 13 5) (w.extractLsb' 18 5)) else
    none
  | _ => none

/-- The majors 0x20 to 0x27 (R39 to R41). -/
noncomputable def decodeMajors20 (lo : Nat) (w : BitVec 32) : Option Instr :=
  match lo with
  | 0 =>
    if w.extractLsb' 23 9 = 0#9 then some (.rotL (w.extractLsb' 8 5) (w.extractLsb' 13 5) (w.extractLsb' 18 5)) else
    if w.extractLsb' 23 9 = 32#9 then some (.rotR (w.extractLsb' 8 5) (w.extractLsb' 13 5) (w.extractLsb' 18 5)) else
    none
  | 1 =>
    if w.extractLsb' 24 8 = 0#8 then some (.shiShl (w.extractLsb' 8 5) (w.extractLsb' 13 5) (w.extractLsb' 18 6)) else
    if w.extractLsb' 24 8 = 1#8 then some (.shiShr (w.extractLsb' 8 5) (w.extractLsb' 13 5) (w.extractLsb' 18 6)) else
    if w.extractLsb' 24 8 = 2#8 then some (.shiSar (w.extractLsb' 8 5) (w.extractLsb' 13 5) (w.extractLsb' 18 6)) else
    if w.extractLsb' 24 8 = 3#8 then some (.shiRot (w.extractLsb' 8 5) (w.extractLsb' 13 5) (w.extractLsb' 18 6)) else
    none
  | 2 =>
    if w.extractLsb' 23 9 = 0#9 then some (.minI64 (w.extractLsb' 8 5) (w.extractLsb' 13 5) (w.extractLsb' 18 5)) else
    if w.extractLsb' 23 9 = 32#9 then some (.minN64 (w.extractLsb' 8 5) (w.extractLsb' 13 5) (w.extractLsb' 18 5)) else
    none
  | 3 =>
    if w.extractLsb' 23 9 = 0#9 then some (.maxI64 (w.extractLsb' 8 5) (w.extractLsb' 13 5) (w.extractLsb' 18 5)) else
    if w.extractLsb' 23 9 = 32#9 then some (.maxN64 (w.extractLsb' 8 5) (w.extractLsb' 13 5) (w.extractLsb' 18 5)) else
    none
  | 4 =>
    if w.extractLsb' 28 4 = 0#4 then (Cond.ofBits (w.extractLsb' 23 5)).bind fun x1 => some (.cmp (w.extractLsb' 8 5) x1 (w.extractLsb' 13 5) (w.extractLsb' 18 5)) else
    none
  | 5 =>
    if w.extractLsb' 28 4 = 0#4 then some (.sel (w.extractLsb' 8 5) (w.extractLsb' 13 5) (w.extractLsb' 18 5) (w.extractLsb' 23 5)) else
    none
  | 6 =>
    if w.extractLsb' 18 5 = 0#5 ∧ w.extractLsb' 28 4 = 0#4 then some (.ext (w.extractLsb' 8 5) (w.extractLsb' 13 5) (w.extractLsb' 23 5)) else
    none
  | 7 =>
    if w.extractLsb' 18 14 = 0#14 then some (.bitcPop (w.extractLsb' 8 5) (w.extractLsb' 13 5)) else
    if w.extractLsb' 18 14 = 1024#14 then some (.bitcClz (w.extractLsb' 8 5) (w.extractLsb' 13 5)) else
    if w.extractLsb' 18 14 = 2048#14 then some (.bitcCtz (w.extractLsb' 8 5) (w.extractLsb' 13 5)) else
    if w.extractLsb' 18 14 = 3072#14 then some (.bitcRev (w.extractLsb' 8 5) (w.extractLsb' 13 5)) else
    if w.extractLsb' 18 14 = 4096#14 then some (.bitcBsw (w.extractLsb' 8 5) (w.extractLsb' 13 5)) else
    none
  | _ => none

/-- The majors 0x28 to 0x2F (R39 to R41). -/
noncomputable def decodeMajors28 (lo : Nat) (w : BitVec 32) : Option Instr :=
  match lo with
  | 0 =>
    if w.extractLsb' 23 9 = 0#9 then some (.bfxN (w.extractLsb' 8 5) (w.extractLsb' 13 5) (w.extractLsb' 18 5)) else
    if w.extractLsb' 23 9 = 32#9 then some (.bfxI (w.extractLsb' 8 5) (w.extractLsb' 13 5) (w.extractLsb' 18 5)) else
    none
  | 1 =>
    if w.extractLsb' 23 9 = 0#9 then some (.bfi (w.extractLsb' 8 5) (w.extractLsb' 13 5) (w.extractLsb' 18 5)) else
    none
  | 2 =>
    some (.li (w.extractLsb' 8 5) (w.extractLsb' 13 19))
  | 3 =>
    some (.lih (w.extractLsb' 8 5) (w.extractLsb' 13 19))
  | 4 =>
    if w.extractLsb' 23 5 = 0#5 then some (.lea (w.extractLsb' 8 5) (w.extractLsb' 13 5) (w.extractLsb' 18 5) (w.extractLsb' 28 4)) else
    none
  | 5 =>
    if w.extractLsb' 18 5 = 0#5 ∧ w.extractLsb' 27 5 = 0#5 then some (.hdrPack (w.extractLsb' 8 5) (w.extractLsb' 13 5) (w.extractLsb' 23 4)) else
    if w.extractLsb' 18 5 = 0#5 ∧ w.extractLsb' 27 5 = 2#5 then some (.hdrSplit (w.extractLsb' 8 5) (w.extractLsb' 13 5) (w.extractLsb' 23 4)) else
    none
  | 6 =>
    if w.extractLsb' 23 9 = 0#9 then some (.shuf (w.extractLsb' 8 5) (w.extractLsb' 13 5) (w.extractLsb' 18 5)) else
    if w.extractLsb' 28 4 = 1#4 then some (.shufKLow (w.extractLsb' 8 5) (w.extractLsb' 13 5) (w.extractLsb' 18 5) (w.extractLsb' 23 5)) else
    if w.extractLsb' 28 4 = 2#4 then some (.shufKHigh (w.extractLsb' 8 5) (w.extractLsb' 13 5) (w.extractLsb' 18 5) (w.extractLsb' 23 5)) else
    none
  | 7 =>
    if w.extractLsb' 28 4 = 0#4 then some (.addc (w.extractLsb' 8 5) (w.extractLsb' 13 5) (w.extractLsb' 18 5) (w.extractLsb' 23 5)) else
    if w.extractLsb' 28 4 = 1#4 then some (.addcCo (w.extractLsb' 8 5) (w.extractLsb' 13 5) (w.extractLsb' 18 5) (w.extractLsb' 23 5)) else
    none
  | _ => none

/-- The majors 0x30 to 0x37 (R39 to R41). -/
noncomputable def decodeMajors30 (lo : Nat) (w : BitVec 32) : Option Instr :=
  match lo with
  | 0 =>
    (ElemType.ofBits (w.extractLsb' 26 4)).bind fun x4 => some (.vadd (w.extractLsb' 8 5) (w.extractLsb' 13 5) (w.extractLsb' 18 5) (w.extractLsb' 23 3) x4 (w.extractLsb' 30 2))
  | 1 =>
    (ElemType.ofBits (w.extractLsb' 26 4)).bind fun x4 => some (.vsub (w.extractLsb' 8 5) (w.extractLsb' 13 5) (w.extractLsb' 18 5) (w.extractLsb' 23 3) x4 (w.extractLsb' 30 2))
  | 2 =>
    (ElemType.ofBits (w.extractLsb' 26 4)).bind fun x4 => some (.vmul (w.extractLsb' 8 5) (w.extractLsb' 13 5) (w.extractLsb' 18 5) (w.extractLsb' 23 3) x4 (w.extractLsb' 30 2))
  | 3 =>
    (ElemType.ofBits (w.extractLsb' 26 4)).bind fun x4 => some (.vfma (w.extractLsb' 8 5) (w.extractLsb' 13 5) (w.extractLsb' 18 5) (w.extractLsb' 23 3) x4 (w.extractLsb' 30 2))
  | 4 =>
    (ElemType.ofBits (w.extractLsb' 26 4)).bind fun x4 => some (.vdiv (w.extractLsb' 8 5) (w.extractLsb' 13 5) (w.extractLsb' 18 5) (w.extractLsb' 23 3) x4 (w.extractLsb' 30 2))
  | 5 =>
    if w.extractLsb' 18 5 = 0#5 then (ElemType.ofBits (w.extractLsb' 26 4)).bind fun x3 => some (.vsqrt (w.extractLsb' 8 5) (w.extractLsb' 13 5) (w.extractLsb' 23 3) x3 (w.extractLsb' 30 2)) else
    none
  | 6 =>
    if w.extractLsb' 30 2 = 0#2 then (ElemType.ofBits (w.extractLsb' 26 4)).bind fun x4 => some (.vmin (w.extractLsb' 8 5) (w.extractLsb' 13 5) (w.extractLsb' 18 5) (w.extractLsb' 23 3) x4) else
    none
  | 7 =>
    if w.extractLsb' 30 2 = 0#2 then (ElemType.ofBits (w.extractLsb' 26 4)).bind fun x4 => some (.vmax (w.extractLsb' 8 5) (w.extractLsb' 13 5) (w.extractLsb' 18 5) (w.extractLsb' 23 3) x4) else
    none
  | _ => none

/-- The majors 0x38 to 0x3F (R39 to R41). -/
noncomputable def decodeMajors38 (lo : Nat) (w : BitVec 32) : Option Instr :=
  match lo with
  | 0 =>
    if w.extractLsb' 18 5 = 0#5 then (ElemType.ofBits (w.extractLsb' 26 4)).bind fun x3 => some (.vunNeg (w.extractLsb' 8 5) (w.extractLsb' 13 5) (w.extractLsb' 23 3) x3 (w.extractLsb' 30 2)) else
    if w.extractLsb' 18 5 = 1#5 then (ElemType.ofBits (w.extractLsb' 26 4)).bind fun x3 => some (.vunAbs (w.extractLsb' 8 5) (w.extractLsb' 13 5) (w.extractLsb' 23 3) x3 (w.extractLsb' 30 2)) else
    if w.extractLsb' 18 5 = 2#5 then (ElemType.ofBits (w.extractLsb' 26 4)).bind fun x3 => some (.vunRint (w.extractLsb' 8 5) (w.extractLsb' 13 5) (w.extractLsb' 23 3) x3 (w.extractLsb' 30 2)) else
    if w.extractLsb' 18 5 = 3#5 ∧ w.extractLsb' 30 2 = 0#2 then (ElemType.ofBits (w.extractLsb' 26 4)).bind fun x3 => some (.vunPopc (w.extractLsb' 8 5) (w.extractLsb' 13 5) (w.extractLsb' 23 3) x3) else
    if w.extractLsb' 18 5 = 4#5 ∧ w.extractLsb' 30 2 = 0#2 then (ElemType.ofBits (w.extractLsb' 26 4)).bind fun x3 => some (.vunClz (w.extractLsb' 8 5) (w.extractLsb' 13 5) (w.extractLsb' 23 3) x3) else
    none
  | 1 =>
    if w.extractLsb' 18 5 = 0#5 ∧ w.extractLsb' 30 2 = 0#2 then (ElemType.ofBits (w.extractLsb' 26 4)).bind fun x3 => some (.vlogAnd (w.extractLsb' 8 5) (w.extractLsb' 13 5) (w.extractLsb' 23 3) x3) else
    if w.extractLsb' 18 5 = 1#5 ∧ w.extractLsb' 30 2 = 0#2 then (ElemType.ofBits (w.extractLsb' 26 4)).bind fun x3 => some (.vlogOr (w.extractLsb' 8 5) (w.extractLsb' 13 5) (w.extractLsb' 23 3) x3) else
    if w.extractLsb' 18 5 = 2#5 ∧ w.extractLsb' 30 2 = 0#2 then (ElemType.ofBits (w.extractLsb' 26 4)).bind fun x3 => some (.vlogXor (w.extractLsb' 8 5) (w.extractLsb' 13 5) (w.extractLsb' 23 3) x3) else
    if w.extractLsb' 18 5 = 3#5 ∧ w.extractLsb' 30 2 = 0#2 then (ElemType.ofBits (w.extractLsb' 26 4)).bind fun x3 => some (.vlogAndn (w.extractLsb' 8 5) (w.extractLsb' 13 5) (w.extractLsb' 23 3) x3) else
    if w.extractLsb' 18 5 = 4#5 ∧ w.extractLsb' 30 2 = 0#2 then (ElemType.ofBits (w.extractLsb' 26 4)).bind fun x3 => some (.vlogOrn (w.extractLsb' 8 5) (w.extractLsb' 13 5) (w.extractLsb' 23 3) x3) else
    if w.extractLsb' 18 5 = 5#5 ∧ w.extractLsb' 30 2 = 0#2 then (ElemType.ofBits (w.extractLsb' 26 4)).bind fun x3 => some (.vlogNand (w.extractLsb' 8 5) (w.extractLsb' 13 5) (w.extractLsb' 23 3) x3) else
    if w.extractLsb' 18 5 = 6#5 ∧ w.extractLsb' 30 2 = 0#2 then (ElemType.ofBits (w.extractLsb' 26 4)).bind fun x3 => some (.vlogNor (w.extractLsb' 8 5) (w.extractLsb' 13 5) (w.extractLsb' 23 3) x3) else
    if w.extractLsb' 18 5 = 7#5 ∧ w.extractLsb' 30 2 = 0#2 then (ElemType.ofBits (w.extractLsb' 26 4)).bind fun x3 => some (.vlogXnor (w.extractLsb' 8 5) (w.extractLsb' 13 5) (w.extractLsb' 23 3) x3) else
    if w.extractLsb' 18 5 = 8#5 ∧ w.extractLsb' 30 2 = 0#2 then (ElemType.ofBits (w.extractLsb' 26 4)).bind fun x3 => some (.vlogNot (w.extractLsb' 8 5) (w.extractLsb' 13 5) (w.extractLsb' 23 3) x3) else
    none
  | 2 =>
    (ElemType.ofBits (w.extractLsb' 26 4)).bind fun x4 => some (.vsh (w.extractLsb' 8 5) (w.extractLsb' 13 5) (w.extractLsb' 18 5) (w.extractLsb' 23 3) x4 (w.extractLsb' 30 2))
  | 3 =>
    if w.extractLsb' 30 2 = 0#2 then (ElemType.ofBits (w.extractLsb' 26 4)).bind fun x5 => some (.vcmp (w.extractLsb' 8 3) (VCond.ofBits (w.extractLsb' 11 2)) (w.extractLsb' 13 5) (w.extractLsb' 18 5) (w.extractLsb' 23 3) x5) else
    none
  | 4 =>
    if w.extractLsb' 23 3 = 0#3 ∧ w.extractLsb' 30 2 = 0#2 then (ElemType.ofBits (w.extractLsb' 26 4)).bind fun x5 => some (.whilePred (w.extractLsb' 8 3) ((w.extractLsb' 12 1) == 1#1) ((w.extractLsb' 11 1) == 1#1) (w.extractLsb' 13 5) (w.extractLsb' 18 5) x5) else
    none
  | 5 =>
    if w.extractLsb' 13 19 = 0#19 then some (.vwid (w.extractLsb' 8 5)) else
    none
  | 6 =>
    if w.extractLsb' 11 2 = 0#2 ∧ w.extractLsb' 26 6 = 4#6 then (lowPred (w.extractLsb' 13 5)).bind fun x1 => (lowPred (w.extractLsb' 18 5)).bind fun x2 => some (.plogAnd (w.extractLsb' 8 3) x1 x2 (w.extractLsb' 23 3)) else
    if w.extractLsb' 11 2 = 1#2 ∧ w.extractLsb' 26 6 = 4#6 then (lowPred (w.extractLsb' 13 5)).bind fun x1 => (lowPred (w.extractLsb' 18 5)).bind fun x2 => some (.plogOr (w.extractLsb' 8 3) x1 x2 (w.extractLsb' 23 3)) else
    if w.extractLsb' 11 2 = 2#2 ∧ w.extractLsb' 26 6 = 4#6 then (lowPred (w.extractLsb' 13 5)).bind fun x1 => (lowPred (w.extractLsb' 18 5)).bind fun x2 => some (.plogXor (w.extractLsb' 8 3) x1 x2 (w.extractLsb' 23 3)) else
    if w.extractLsb' 11 2 = 3#2 ∧ w.extractLsb' 26 6 = 4#6 then (lowPred (w.extractLsb' 13 5)).bind fun x1 => (lowPred (w.extractLsb' 18 5)).bind fun x2 => some (.plogAndn (w.extractLsb' 8 3) x1 x2 (w.extractLsb' 23 3)) else
    none
  | 7 =>
    if w.extractLsb' 22 1 = 0#1 then (ElemType.ofBits (w.extractLsb' 18 4)).bind fun x2 => (ElemType.ofBits (w.extractLsb' 26 4)).bind fun x4 => some (.vcvt (w.extractLsb' 8 5) (w.extractLsb' 13 5) x2 (w.extractLsb' 23 3) x4 (w.extractLsb' 30 2)) else
    if w.extractLsb' 22 1 = 1#1 then (ElemType.ofBits (w.extractLsb' 18 4)).bind fun x2 => (ElemType.ofBits (w.extractLsb' 26 4)).bind fun x4 => some (.vcvtHi (w.extractLsb' 8 5) (w.extractLsb' 13 5) x2 (w.extractLsb' 23 3) x4 (w.extractLsb' 30 2)) else
    none
  | _ => none

/-- The majors 0x40 to 0x47 (R39 to R41). -/
noncomputable def decodeMajors40 (lo : Nat) (w : BitVec 32) : Option Instr :=
  match lo with
  | 0 =>
    if w.extractLsb' 18 3 = 0#3 ∧ w.extractLsb' 22 1 = 0#1 ∧ w.extractLsb' 26 4 = 10#4 then some (.vfunExp2 (w.extractLsb' 8 5) (w.extractLsb' 13 5) ((w.extractLsb' 21 1) == 1#1) (w.extractLsb' 23 3) (w.extractLsb' 30 2)) else
    if w.extractLsb' 18 3 = 1#3 ∧ w.extractLsb' 22 1 = 0#1 ∧ w.extractLsb' 26 4 = 10#4 then some (.vfunLog2 (w.extractLsb' 8 5) (w.extractLsb' 13 5) ((w.extractLsb' 21 1) == 1#1) (w.extractLsb' 23 3) (w.extractLsb' 30 2)) else
    if w.extractLsb' 18 3 = 2#3 ∧ w.extractLsb' 22 1 = 0#1 ∧ w.extractLsb' 26 4 = 10#4 then some (.vfunRcp (w.extractLsb' 8 5) (w.extractLsb' 13 5) ((w.extractLsb' 21 1) == 1#1) (w.extractLsb' 23 3) (w.extractLsb' 30 2)) else
    if w.extractLsb' 18 3 = 3#3 ∧ w.extractLsb' 22 1 = 0#1 ∧ w.extractLsb' 26 4 = 10#4 then some (.vfunRsq (w.extractLsb' 8 5) (w.extractLsb' 13 5) ((w.extractLsb' 21 1) == 1#1) (w.extractLsb' 23 3) (w.extractLsb' 30 2)) else
    if w.extractLsb' 18 3 = 4#3 ∧ w.extractLsb' 22 1 = 0#1 ∧ w.extractLsb' 26 4 = 10#4 then some (.vfunSinpi (w.extractLsb' 8 5) (w.extractLsb' 13 5) ((w.extractLsb' 21 1) == 1#1) (w.extractLsb' 23 3) (w.extractLsb' 30 2)) else
    if w.extractLsb' 18 3 = 5#3 ∧ w.extractLsb' 22 1 = 0#1 ∧ w.extractLsb' 26 4 = 10#4 then some (.vfunCospi (w.extractLsb' 8 5) (w.extractLsb' 13 5) ((w.extractLsb' 21 1) == 1#1) (w.extractLsb' 23 3) (w.extractLsb' 30 2)) else
    if w.extractLsb' 18 3 = 6#3 ∧ w.extractLsb' 22 1 = 0#1 ∧ w.extractLsb' 26 4 = 10#4 then some (.vfunTanh (w.extractLsb' 8 5) (w.extractLsb' 13 5) ((w.extractLsb' 21 1) == 1#1) (w.extractLsb' 23 3) (w.extractLsb' 30 2)) else
    none
  | 1 =>
    if w.extractLsb' 18 5 = 0#5 then (ElemType.ofBits (w.extractLsb' 26 4)).bind fun x3 => some (.vredAdd (w.extractLsb' 8 5) (w.extractLsb' 13 5) (w.extractLsb' 23 3) x3 (w.extractLsb' 30 2)) else
    if w.extractLsb' 18 5 = 1#5 then (ElemType.ofBits (w.extractLsb' 26 4)).bind fun x3 => some (.vredMin (w.extractLsb' 8 5) (w.extractLsb' 13 5) (w.extractLsb' 23 3) x3 (w.extractLsb' 30 2)) else
    if w.extractLsb' 18 5 = 2#5 then (ElemType.ofBits (w.extractLsb' 26 4)).bind fun x3 => some (.vredMax (w.extractLsb' 8 5) (w.extractLsb' 13 5) (w.extractLsb' 23 3) x3 (w.extractLsb' 30 2)) else
    if w.extractLsb' 18 5 = 3#5 then (ElemType.ofBits (w.extractLsb' 26 4)).bind fun x3 => some (.vredAnd (w.extractLsb' 8 5) (w.extractLsb' 13 5) (w.extractLsb' 23 3) x3 (w.extractLsb' 30 2)) else
    if w.extractLsb' 18 5 = 4#5 then (ElemType.ofBits (w.extractLsb' 26 4)).bind fun x3 => some (.vredOr (w.extractLsb' 8 5) (w.extractLsb' 13 5) (w.extractLsb' 23 3) x3 (w.extractLsb' 30 2)) else
    if w.extractLsb' 18 5 = 5#5 then (ElemType.ofBits (w.extractLsb' 26 4)).bind fun x3 => some (.vredXor (w.extractLsb' 8 5) (w.extractLsb' 13 5) (w.extractLsb' 23 3) x3 (w.extractLsb' 30 2)) else
    none
  | 2 =>
    (ElemType.ofBits (w.extractLsb' 26 4)).bind fun x4 => some (.vdot (w.extractLsb' 8 5) (w.extractLsb' 13 5) (w.extractLsb' 18 5) (w.extractLsb' 23 3) x4 (w.extractLsb' 30 2))
  | 3 =>
    if w.extractLsb' 30 2 = 0#2 then (ElemType.ofBits (w.extractLsb' 26 4)).bind fun x4 => some (.vsel (w.extractLsb' 8 5) (w.extractLsb' 13 5) (w.extractLsb' 18 5) (w.extractLsb' 23 3) x4) else
    none
  | 4 =>
    if w.extractLsb' 30 2 = 0#2 then (ElemType.ofBits (w.extractLsb' 26 4)).bind fun x4 => some (.vperm (w.extractLsb' 8 5) (w.extractLsb' 13 5) (w.extractLsb' 18 5) (w.extractLsb' 23 3) x4) else
    none
  | 5 =>
    if w.extractLsb' 18 5 = 0#5 ∧ w.extractLsb' 30 2 = 0#2 then (ElemType.ofBits (w.extractLsb' 26 4)).bind fun x3 => some (.vbcast (w.extractLsb' 8 5) (w.extractLsb' 13 5) (w.extractLsb' 23 3) x3) else
    none
  | 6 =>
    if w.extractLsb' 23 3 = 0#3 ∧ w.extractLsb' 30 2 = 0#2 then (ElemType.ofBits (w.extractLsb' 26 4)).bind fun x3 => some (.vext (w.extractLsb' 8 5) (w.extractLsb' 13 5) (w.extractLsb' 18 5) x3) else
    none
  | 7 =>
    if w.extractLsb' 23 3 = 0#3 ∧ w.extractLsb' 30 2 = 0#2 then (ElemType.ofBits (w.extractLsb' 26 4)).bind fun x3 => some (.vins (w.extractLsb' 8 5) (w.extractLsb' 13 5) (w.extractLsb' 18 5) x3) else
    none
  | _ => none

/-- The majors 0x48 to 0x4F (R39 to R41). -/
noncomputable def decodeMajors48 (lo : Nat) (w : BitVec 32) : Option Instr :=
  match lo with
  | 0 =>
    if w.extractLsb' 30 2 = 0#2 then (ElemType.ofBits (w.extractLsb' 26 4)).bind fun x4 => some (.vzip (w.extractLsb' 8 5) (w.extractLsb' 13 5) (w.extractLsb' 18 5) (w.extractLsb' 23 3) x4) else
    none
  | 1 =>
    if w.extractLsb' 18 5 = 0#5 then (ElemType.ofBits (w.extractLsb' 26 4)).bind fun x3 => some (.vscanAdd (w.extractLsb' 8 5) (w.extractLsb' 13 5) (w.extractLsb' 23 3) x3 (w.extractLsb' 30 2)) else
    if w.extractLsb' 18 5 = 1#5 then (ElemType.ofBits (w.extractLsb' 26 4)).bind fun x3 => some (.vscanMin (w.extractLsb' 8 5) (w.extractLsb' 13 5) (w.extractLsb' 23 3) x3 (w.extractLsb' 30 2)) else
    if w.extractLsb' 18 5 = 2#5 then (ElemType.ofBits (w.extractLsb' 26 4)).bind fun x3 => some (.vscanMax (w.extractLsb' 8 5) (w.extractLsb' 13 5) (w.extractLsb' 23 3) x3 (w.extractLsb' 30 2)) else
    none
  | 2 =>
    if w.extractLsb' 30 2 = 0#2 then (ElemType.ofBits (w.extractLsb' 26 4)).bind fun x4 => some (.vld (w.extractLsb' 8 5) (w.extractLsb' 13 5) (w.extractLsb' 18 5) (w.extractLsb' 23 3) x4) else
    none
  | 3 =>
    if w.extractLsb' 30 2 = 0#2 then (ElemType.ofBits (w.extractLsb' 26 4)).bind fun x4 => some (.vst (w.extractLsb' 8 5) (w.extractLsb' 13 5) (w.extractLsb' 18 5) (w.extractLsb' 23 3) x4) else
    none
  | 4 =>
    if w.extractLsb' 30 2 = 0#2 then (ElemType.ofBits (w.extractLsb' 26 4)).bind fun x4 => some (.vgath (w.extractLsb' 8 5) (w.extractLsb' 13 5) (w.extractLsb' 18 5) (w.extractLsb' 23 3) x4) else
    none
  | 5 =>
    if w.extractLsb' 30 2 = 0#2 then (ElemType.ofBits (w.extractLsb' 26 4)).bind fun x4 => some (.vscat (w.extractLsb' 8 5) (w.extractLsb' 13 5) (w.extractLsb' 18 5) (w.extractLsb' 23 3) x4) else
    none
  | 6 =>
    if w.extractLsb' 30 2 = 0#2 then (ElemType.ofBits (w.extractLsb' 26 4)).bind fun x4 => some (.vshuf (w.extractLsb' 8 5) (w.extractLsb' 13 5) (w.extractLsb' 18 5) (w.extractLsb' 23 3) x4) else
    none
  | 7 =>
    if w.extractLsb' 18 5 = 0#5 ∧ w.extractLsb' 30 2 = 0#2 then (ElemType.ofBits (w.extractLsb' 26 4)).bind fun x3 => some (.vmov (w.extractLsb' 8 5) (w.extractLsb' 13 5) (w.extractLsb' 23 3) x3) else
    none
  | _ => none

/-- The majors 0x50 to 0x57 (R39 to R41). -/
noncomputable def decodeMajors50 (lo : Nat) (w : BitVec 32) : Option Instr :=
  match lo with
  | 0 =>
    if w.extractLsb' 31 1 = 0#1 then some (.ld (w.extractLsb' 8 5) (w.extractLsb' 13 5) (w.extractLsb' 18 10) (w.extractLsb' 28 2) ((w.extractLsb' 30 1) == 1#1)) else
    none
  | 1 =>
    if w.extractLsb' 30 2 = 0#2 then some (.st (w.extractLsb' 8 5) (w.extractLsb' 13 5) (w.extractLsb' 18 10) (w.extractLsb' 28 2)) else
    none
  | 2 =>
    if w.extractLsb' 31 1 = 0#1 then some (.ldx (w.extractLsb' 8 5) (w.extractLsb' 13 5) (w.extractLsb' 18 5) (w.extractLsb' 23 5) (w.extractLsb' 28 2) ((w.extractLsb' 30 1) == 1#1)) else
    none
  | 3 =>
    if w.extractLsb' 30 2 = 0#2 then some (.stx (w.extractLsb' 8 5) (w.extractLsb' 13 5) (w.extractLsb' 18 5) (w.extractLsb' 23 5) (w.extractLsb' 28 2)) else
    none
  | 4 =>
    if w.extractLsb' 28 4 = 3#4 then some (.ldfe (w.extractLsb' 8 5) (w.extractLsb' 13 5) (w.extractLsb' 18 10)) else
    none
  | 5 =>
    if w.extractLsb' 28 4 = 3#4 then some (.stfe (w.extractLsb' 8 5) (w.extractLsb' 13 5) (w.extractLsb' 18 10)) else
    none
  | 6 =>
    if w.extractLsb' 8 5 = 0#5 ∧ w.extractLsb' 28 4 = 0#4 then some (.feopSet (w.extractLsb' 13 5) (w.extractLsb' 18 5) (w.extractLsb' 23 5)) else
    if w.extractLsb' 8 5 = 0#5 ∧ w.extractLsb' 28 4 = 1#4 then some (.feopClr (w.extractLsb' 13 5) (w.extractLsb' 18 5) (w.extractLsb' 23 5)) else
    if w.extractLsb' 28 4 = 2#4 then some (.feopQry (w.extractLsb' 8 5) (w.extractLsb' 13 5) (w.extractLsb' 18 5) (w.extractLsb' 23 5)) else
    if w.extractLsb' 28 4 = 3#4 then some (.feopLdff (w.extractLsb' 8 5) (w.extractLsb' 13 5) (w.extractLsb' 18 5) (w.extractLsb' 23 5)) else
    none
  | 7 =>
    if w.extractLsb' 31 1 = 0#1 then some (.xch (w.extractLsb' 8 5) (w.extractLsb' 13 5) (w.extractLsb' 18 5) (w.extractLsb' 23 5) (w.extractLsb' 28 2) ((w.extractLsb' 30 1) == 1#1)) else
    none
  | _ => none

/-- The majors 0x58 to 0x5F (R39 to R41). -/
noncomputable def decodeMajors58 (lo : Nat) (w : BitVec 32) : Option Instr :=
  match lo with
  | 0 =>
    if w.extractLsb' 31 1 = 0#1 then some (.ldg (w.extractLsb' 8 5) (w.extractLsb' 13 5) (w.extractLsb' 18 10) (w.extractLsb' 28 2) ((w.extractLsb' 30 1) == 1#1)) else
    none
  | 1 =>
    if w.extractLsb' 30 2 = 0#2 then some (.stg (w.extractLsb' 8 5) (w.extractLsb' 13 5) (w.extractLsb' 18 10) (w.extractLsb' 28 2)) else
    none
  | 2 =>
    if w.extractLsb' 30 2 = 0#2 then (ElemType.ofBits (w.extractLsb' 26 4)).bind fun x4 => some (.vldg (w.extractLsb' 8 5) (w.extractLsb' 13 5) (w.extractLsb' 18 5) (w.extractLsb' 23 3) x4) else
    none
  | 3 =>
    if w.extractLsb' 30 2 = 0#2 then (ElemType.ofBits (w.extractLsb' 26 4)).bind fun x4 => some (.vstg (w.extractLsb' 8 5) (w.extractLsb' 13 5) (w.extractLsb' 18 5) (w.extractLsb' 23 3) x4) else
    none
  | 4 =>
    if w.extractLsb' 8 5 = 0#5 ∧ w.extractLsb' 28 4 = 0#4 then some (.prefRd (w.extractLsb' 13 5) (w.extractLsb' 18 10)) else
    if w.extractLsb' 8 5 = 1#5 ∧ w.extractLsb' 28 4 = 0#4 then some (.prefOwn (w.extractLsb' 13 5) (w.extractLsb' 18 10)) else
    if w.extractLsb' 8 5 = 2#5 ∧ w.extractLsb' 28 4 = 0#4 then some (.prefSlc (w.extractLsb' 13 5) (w.extractLsb' 18 10)) else
    none
  | 5 =>
    if w.extractLsb' 23 9 = 0#9 then some (.lease (w.extractLsb' 8 5) (w.extractLsb' 13 5) (w.extractLsb' 18 5)) else
    if w.extractLsb' 18 14 = 1024#14 then some (.unlease (w.extractLsb' 8 5) (w.extractLsb' 13 5)) else
    if w.extractLsb' 18 14 = 2048#14 then some (.lstat (w.extractLsb' 8 5) (w.extractLsb' 13 5)) else
    none
  | 6 =>
    if w.extractLsb' 8 24 = 0#24 then some .tcut else
    if w.extractLsb' 8 15 = 0#15 ∧ w.extractLsb' 26 6 = 4#6 then some (.fence (Scope.ofBits (w.extractLsb' 23 3))) else
    if w.extractLsb' 8 15 = 0#15 ∧ w.extractLsb' 26 6 = 8#6 then some (.acq (Scope.ofBits (w.extractLsb' 23 3))) else
    if w.extractLsb' 8 15 = 0#15 ∧ w.extractLsb' 26 6 = 12#6 then some (.rel (Scope.ofBits (w.extractLsb' 23 3))) else
    none
  | 7 =>
    if w.extractLsb' 27 5 = 0#5 then some (.faAddN64 (w.extractLsb' 8 5) (w.extractLsb' 13 5) (w.extractLsb' 18 5) (Scope.ofBits (w.extractLsb' 23 3)) ((w.extractLsb' 26 1) == 1#1)) else
    if w.extractLsb' 27 5 = 2#5 then some (.faAndN64 (w.extractLsb' 8 5) (w.extractLsb' 13 5) (w.extractLsb' 18 5) (Scope.ofBits (w.extractLsb' 23 3)) ((w.extractLsb' 26 1) == 1#1)) else
    if w.extractLsb' 27 5 = 4#5 then some (.faOrN64 (w.extractLsb' 8 5) (w.extractLsb' 13 5) (w.extractLsb' 18 5) (Scope.ofBits (w.extractLsb' 23 3)) ((w.extractLsb' 26 1) == 1#1)) else
    if w.extractLsb' 27 5 = 6#5 then some (.faXorN64 (w.extractLsb' 8 5) (w.extractLsb' 13 5) (w.extractLsb' 18 5) (Scope.ofBits (w.extractLsb' 23 3)) ((w.extractLsb' 26 1) == 1#1)) else
    if w.extractLsb' 27 5 = 8#5 then some (.faMinI64 (w.extractLsb' 8 5) (w.extractLsb' 13 5) (w.extractLsb' 18 5) (Scope.ofBits (w.extractLsb' 23 3)) ((w.extractLsb' 26 1) == 1#1)) else
    if w.extractLsb' 27 5 = 10#5 then some (.faMaxI64 (w.extractLsb' 8 5) (w.extractLsb' 13 5) (w.extractLsb' 18 5) (Scope.ofBits (w.extractLsb' 23 3)) ((w.extractLsb' 26 1) == 1#1)) else
    if w.extractLsb' 27 5 = 12#5 then some (.faMinN64 (w.extractLsb' 8 5) (w.extractLsb' 13 5) (w.extractLsb' 18 5) (Scope.ofBits (w.extractLsb' 23 3)) ((w.extractLsb' 26 1) == 1#1)) else
    if w.extractLsb' 27 5 = 14#5 then some (.faMaxN64 (w.extractLsb' 8 5) (w.extractLsb' 13 5) (w.extractLsb' 18 5) (Scope.ofBits (w.extractLsb' 23 3)) ((w.extractLsb' 26 1) == 1#1)) else
    if w.extractLsb' 27 5 = 16#5 then some (.faSwapN64 (w.extractLsb' 8 5) (w.extractLsb' 13 5) (w.extractLsb' 18 5) (Scope.ofBits (w.extractLsb' 23 3)) ((w.extractLsb' 26 1) == 1#1)) else
    if w.extractLsb' 27 5 = 18#5 then some (.faCasN64 (w.extractLsb' 8 5) (w.extractLsb' 13 5) (w.extractLsb' 18 5) (Scope.ofBits (w.extractLsb' 23 3)) ((w.extractLsb' 26 1) == 1#1)) else
    if w.extractLsb' 27 5 = 20#5 then some (.faAddF64 (w.extractLsb' 8 5) (w.extractLsb' 13 5) (w.extractLsb' 18 5) (Scope.ofBits (w.extractLsb' 23 3)) ((w.extractLsb' 26 1) == 1#1)) else
    if w.extractLsb' 27 5 = 22#5 then some (.faGetN64 (w.extractLsb' 8 5) (w.extractLsb' 13 5) (w.extractLsb' 18 5) (Scope.ofBits (w.extractLsb' 23 3)) ((w.extractLsb' 26 1) == 1#1)) else
    none
  | _ => none

/-- The majors 0x60 to 0x67 (R39 to R41). -/
noncomputable def decodeMajors60 (lo : Nat) (w : BitVec 32) : Option Instr :=
  match lo with
  | 0 =>
    if w.extractLsb' 23 9 = 0#9 then some (.capGive (w.extractLsb' 8 5) (w.extractLsb' 13 5) (w.extractLsb' 18 5)) else
    none
  | 1 =>
    if w.extractLsb' 18 14 = 0#14 then some (.capClaim (w.extractLsb' 8 5) (w.extractLsb' 13 5)) else
    none
  | 2 =>
    if w.extractLsb' 18 14 = 0#14 then some (.capSeal (w.extractLsb' 8 5) (w.extractLsb' 13 5)) else
    if w.extractLsb' 18 14 = 1024#14 then some (.capUnseal (w.extractLsb' 8 5) (w.extractLsb' 13 5)) else
    none
  | 3 =>
    if w.extractLsb' 18 14 = 0#14 then some (.capQry (w.extractLsb' 8 5) (w.extractLsb' 13 5)) else
    if w.extractLsb' 18 14 = 1024#14 then some (.capQryWait (w.extractLsb' 8 5) (w.extractLsb' 13 5)) else
    none
  | 4 =>
    if w.extractLsb' 8 10 = 0#10 then some (.tcfg (w.extractLsb' 18 7) (w.extractLsb' 25 7)) else
    none
  | 5 =>
    if w.extractLsb' 8 10 = 0#10 ∧ w.extractLsb' 22 10 = 0#10 then some (.trel (w.extractLsb' 18 4)) else
    none
  | 6 =>
    if w.extractLsb' 18 14 = 0#14 then (lowTile (w.extractLsb' 8 5)).bind fun x0 => some (.dtld x0 (w.extractLsb' 13 5)) else
    if w.extractLsb' 13 5 = 0#5 ∧ w.extractLsb' 23 9 = 32#9 then (lowTile (w.extractLsb' 8 5)).bind fun x0 => (StdTable.ofBits (w.extractLsb' 18 5)).bind fun x1 => some (.dtldStd x0 x1) else
    none
  | 7 =>
    if w.extractLsb' 8 5 = 0#5 ∧ w.extractLsb' 18 14 = 0#14 then some (.fctx (w.extractLsb' 13 5)) else
    if w.extractLsb' 13 19 = 32768#19 then some (.fctxRd (w.extractLsb' 8 5)) else
    none
  | _ => none

/-- The majors 0x68 to 0x6F (R39 to R41). -/
noncomputable def decodeMajors68 (lo : Nat) (w : BitVec 32) : Option Instr :=
  match lo with
  | 0 =>
    if w.extractLsb' 8 5 = 0#5 ∧ w.extractLsb' 28 4 = 0#4 then some (.tldb (w.extractLsb' 18 5) (w.extractLsb' 13 5) (w.extractLsb' 23 5)) else
    none
  | 1 =>
    if w.extractLsb' 18 10 = 0#10 ∧ w.extractLsb' 29 3 = 0#3 then (lowTile (w.extractLsb' 8 5)).bind fun x0 => some (.mma x0 (w.extractLsb' 13 5) ((w.extractLsb' 28 1) == 1#1)) else
    if w.extractLsb' 18 5 = 0#5 ∧ w.extractLsb' 29 3 = 1#3 then (lowTile (w.extractLsb' 8 5)).bind fun x0 => some (.mmaV x0 (w.extractLsb' 13 5) (w.extractLsb' 23 5) ((w.extractLsb' 28 1) == 1#1)) else
    none
  | 2 =>
    if w.extractLsb' 23 9 = 0#9 then (lowTile (w.extractLsb' 8 5)).bind fun x0 => some (.tstcF32 x0 (w.extractLsb' 18 5) (w.extractLsb' 13 5)) else
    if w.extractLsb' 23 9 = 32#9 then (lowTile (w.extractLsb' 8 5)).bind fun x0 => some (.tstcBf16 x0 (w.extractLsb' 18 5) (w.extractLsb' 13 5)) else
    if w.extractLsb' 23 9 = 64#9 then (lowTile (w.extractLsb' 8 5)).bind fun x0 => some (.tstcF16 x0 (w.extractLsb' 18 5) (w.extractLsb' 13 5)) else
    none
  | 3 =>
    if w.extractLsb' 18 14 = 0#14 then (lowTile (w.extractLsb' 8 5)).bind fun x0 => some (.tqnt x0 (w.extractLsb' 13 5)) else
    none
  | 4 =>
    if w.extractLsb' 13 5 = 0#5 ∧ w.extractLsb' 24 8 = 0#8 then (ScanOp.ofBits (w.extractLsb' 18 3)).bind fun x1 => (Rounding.ofBits (w.extractLsb' 21 3)).bind fun x2 => some (.scfg (w.extractLsb' 8 5) x1 x2) else
    none
  | 5 =>
    if w.extractLsb' 8 5 = 0#5 ∧ w.extractLsb' 18 14 = 0#14 then some (.stile (w.extractLsb' 13 5)) else
    none
  | 6 =>
    if w.extractLsb' 18 14 = 2560#14 then some (.sjoinT (w.extractLsb' 8 5) (w.extractLsb' 13 5)) else
    if w.extractLsb' 23 9 = 208#9 then some (.sjoinR (w.extractLsb' 8 5) (w.extractLsb' 13 5) (w.extractLsb' 18 5)) else
    none
  | 7 =>
    if w.extractLsb' 23 9 = 0#9 then some (.chainPost (w.extractLsb' 8 5) (w.extractLsb' 13 5) (w.extractLsb' 18 5)) else
    if w.extractLsb' 23 9 = 32#9 then some (.chainWait (w.extractLsb' 8 5) (w.extractLsb' 13 5) (w.extractLsb' 18 5)) else
    if w.extractLsb' 13 19 = 65536#19 then some (.chainPos (w.extractLsb' 8 5)) else
    none
  | _ => none

/-- The majors 0x70 to 0x77 (R39 to R41). -/
noncomputable def decodeMajors70 (lo : Nat) (w : BitVec 32) : Option Instr :=
  match lo with
  | 0 =>
    if w.extractLsb' 26 6 = 0#6 then some (.binit (w.extractLsb' 8 5) (w.extractLsb' 13 5) (w.extractLsb' 18 5) (Scope.ofBits (w.extractLsb' 23 3))) else
    none
  | 1 =>
    if w.extractLsb' 26 6 = 0#6 then some (.barv (w.extractLsb' 8 5) (w.extractLsb' 13 5) (w.extractLsb' 18 5) (Scope.ofBits (w.extractLsb' 23 3))) else
    if w.extractLsb' 26 6 = 4#6 then some (.barvX (w.extractLsb' 8 5) (w.extractLsb' 13 5) (w.extractLsb' 18 5) (Scope.ofBits (w.extractLsb' 23 3))) else
    none
  | 2 =>
    if w.extractLsb' 26 6 = 0#6 then some (.bwait (w.extractLsb' 8 5) (w.extractLsb' 13 5) (w.extractLsb' 18 5) (Scope.ofBits (w.extractLsb' 23 3))) else
    none
  | 3 =>
    if w.extractLsb' 26 6 = 0#6 then some (.btest (w.extractLsb' 8 5) (w.extractLsb' 13 5) (w.extractLsb' 18 5) (Scope.ofBits (w.extractLsb' 23 3))) else
    none
  | 4 =>
    if w.extractLsb' 26 6 = 0#6 then some (.semi (w.extractLsb' 8 5) (w.extractLsb' 13 5) (w.extractLsb' 18 5) (Scope.ofBits (w.extractLsb' 23 3))) else
    if w.extractLsb' 26 6 = 4#6 then some (.semiSet (w.extractLsb' 8 5) (w.extractLsb' 13 5) (w.extractLsb' 18 5) (Scope.ofBits (w.extractLsb' 23 3))) else
    none
  | 5 =>
    if w.extractLsb' 26 6 = 0#6 then some (.semw (w.extractLsb' 8 5) (w.extractLsb' 13 5) (w.extractLsb' 18 5) (Scope.ofBits (w.extractLsb' 23 3))) else
    if w.extractLsb' 26 6 = 4#6 then some (.semwDec (w.extractLsb' 8 5) (w.extractLsb' 13 5) (w.extractLsb' 18 5) (Scope.ofBits (w.extractLsb' 23 3))) else
    none
  | 6 =>
    if w.extractLsb' 23 9 = 0#9 then some (.qinit (w.extractLsb' 8 5) (w.extractLsb' 13 5) (w.extractLsb' 18 5)) else
    if w.extractLsb' 23 9 = 32#9 then some (.enq (w.extractLsb' 8 5) (w.extractLsb' 13 5) (w.extractLsb' 18 5)) else
    if w.extractLsb' 23 9 = 33#9 then some (.enqB (w.extractLsb' 8 5) (w.extractLsb' 13 5) (w.extractLsb' 18 5)) else
    if w.extractLsb' 18 14 = 2048#14 then some (.deq (w.extractLsb' 8 5) (w.extractLsb' 13 5)) else
    if w.extractLsb' 23 9 = 65#9 then some (.deqB (w.extractLsb' 8 5) (w.extractLsb' 13 5) (w.extractLsb' 18 5)) else
    if w.extractLsb' 23 9 = 67#9 then some (.deqPoll (w.extractLsb' 8 5) (w.extractLsb' 13 5) (w.extractLsb' 18 5)) else
    none
  | 7 =>
    if w.extractLsb' 28 4 = 0#4 then some (.send (w.extractLsb' 8 5) (w.extractLsb' 13 5) (w.extractLsb' 18 5) (w.extractLsb' 23 5)) else
    if w.extractLsb' 28 4 = 1#4 then some (.sendRep (w.extractLsb' 8 5) (w.extractLsb' 13 5) (w.extractLsb' 18 5) (w.extractLsb' 23 5)) else
    if w.extractLsb' 18 14 = 2048#14 then some (.sendRef (w.extractLsb' 8 5) (w.extractLsb' 13 5)) else
    none
  | _ => none

/-- The majors 0x78 to 0x7F (R39 to R41). -/
noncomputable def decodeMajors78 (lo : Nat) (w : BitVec 32) : Option Instr :=
  match lo with
  | 0 =>
    if w.extractLsb' 23 9 = 0#9 then some (.cpy (w.extractLsb' 8 5) (w.extractLsb' 13 5) (w.extractLsb' 18 5)) else
    if w.extractLsb' 18 14 = 1024#14 then some (.cpyStat (w.extractLsb' 8 5) (w.extractLsb' 13 5)) else
    if w.extractLsb' 18 14 = 1056#14 then some (.cpyStatErr (w.extractLsb' 8 5) (w.extractLsb' 13 5)) else
    if w.extractLsb' 23 9 = 34#9 then some (.cpyStatWait (w.extractLsb' 8 5) (w.extractLsb' 13 5) (w.extractLsb' 18 5)) else
    none
  | 1 =>
    if w.extractLsb' 23 9 = 0#9 then some (.gath (w.extractLsb' 8 5) (w.extractLsb' 13 5) (w.extractLsb' 18 5)) else
    none
  | 2 =>
    if w.extractLsb' 23 9 = 0#9 then some (.scat (w.extractLsb' 8 5) (w.extractLsb' 13 5) (w.extractLsb' 18 5)) else
    none
  | 3 =>
    if w.extractLsb' 13 5 = 0#5 ∧ w.extractLsb' 23 9 = 0#9 then some (.strmOff (w.extractLsb' 8 5) (w.extractLsb' 18 5)) else
    if w.extractLsb' 28 4 = 1#4 then some (.strmIn (w.extractLsb' 8 5) (w.extractLsb' 18 5) (w.extractLsb' 13 5) (w.extractLsb' 23 5)) else
    if w.extractLsb' 28 4 = 2#4 then some (.strmOut (w.extractLsb' 8 5) (w.extractLsb' 18 5) (w.extractLsb' 13 5) (w.extractLsb' 23 5)) else
    if w.extractLsb' 28 4 = 3#4 then some (.strmInD (w.extractLsb' 8 5) (w.extractLsb' 18 5) (w.extractLsb' 13 5) (w.extractLsb' 23 5)) else
    if w.extractLsb' 28 4 = 4#4 then some (.strmOutD (w.extractLsb' 8 5) (w.extractLsb' 18 5) (w.extractLsb' 13 5) (w.extractLsb' 23 5)) else
    none
  | 4 =>
    if w.extractLsb' 8 5 = 0#5 ∧ w.extractLsb' 18 5 = 0#5 ∧ w.extractLsb' 28 4 = 0#4 then some (.trap (w.extractLsb' 13 5) (w.extractLsb' 23 5)) else
    if w.extractLsb' 8 5 = 0#5 ∧ w.extractLsb' 18 14 = 1024#14 then some (.eret (w.extractLsb' 13 5)) else
    if w.extractLsb' 8 5 = 0#5 ∧ w.extractLsb' 18 14 = 1056#14 then some (.eretEnd (w.extractLsb' 13 5)) else
    if w.extractLsb' 18 14 = 2048#14 then some (.parkrd (w.extractLsb' 8 5) (w.extractLsb' 13 5)) else
    if w.extractLsb' 8 5 = 0#5 ∧ w.extractLsb' 23 9 = 96#9 then some (.parkwr (w.extractLsb' 13 5) (w.extractLsb' 18 5)) else
    if w.extractLsb' 18 14 = 4096#14 then some (.erlog (w.extractLsb' 8 5) (w.extractLsb' 13 5)) else
    if w.extractLsb' 8 5 = 0#5 ∧ w.extractLsb' 18 14 = 4128#14 then some (.erlogEsc (w.extractLsb' 13 5)) else
    none
  | 5 =>
    if w.extractLsb' 13 5 = 0#5 ∧ w.extractLsb' 31 1 = 0#1 then some (.crd (w.extractLsb' 8 5) (w.extractLsb' 18 13)) else
    if w.extractLsb' 8 5 = 0#5 ∧ w.extractLsb' 31 1 = 1#1 then some (cwrForm (w.extractLsb' 18 13) (w.extractLsb' 13 5)) else
    none
  | 6 =>
    if w.extractLsb' 8 5 = 0#5 ∧ w.extractLsb' 26 6 = 0#6 then some (.tlbiVa (w.extractLsb' 13 5) (w.extractLsb' 18 5) (Scope.ofBits (w.extractLsb' 23 3))) else
    if w.extractLsb' 8 10 = 0#10 ∧ w.extractLsb' 26 6 = 4#6 then some (.tlbiAsid (w.extractLsb' 18 5) (Scope.ofBits (w.extractLsb' 23 3))) else
    if w.extractLsb' 8 15 = 0#15 ∧ w.extractLsb' 26 6 = 8#6 then some (.tlbiAll (Scope.ofBits (w.extractLsb' 23 3))) else
    none
  | _ => none

/-- The instruction of a 32-bit word, by its major opcode, bits [7:1] (R28, R39). -/
noncomputable def decodeWord (w : BitVec 32) : Option Instr :=
  if w.extractLsb' 0 1 = 1#1 then
    let lo := (w.extractLsb' 1 3).toNat
    match (w.extractLsb' 4 4).toNat with
    | 0 => decodeMajors00 lo w
    | 1 => decodeMajors08 lo w
    | 2 => decodeMajors10 lo w
    | 3 => decodeMajors18 lo w
    | 4 => decodeMajors20 lo w
    | 5 => decodeMajors28 lo w
    | 6 => decodeMajors30 lo w
    | 7 => decodeMajors38 lo w
    | 8 => decodeMajors40 lo w
    | 9 => decodeMajors48 lo w
    | 10 => decodeMajors50 lo w
    | 11 => decodeMajors58 lo w
    | 12 => decodeMajors60 lo w
    | 13 => decodeMajors68 lo w
    | 14 => decodeMajors70 lo w
    | 15 => decodeMajors78 lo w
    | _ => none
  else none

/-- Compact opcodes 0 to 7 (R43). -/
noncomputable def decodeCompact00 (lo : Nat) (w : BitVec 16) : Option Instr :=
  match lo with
  | 0 => some (.cBrk (w.extractLsb' 6 10))
  | 1 => if w.extractLsb' 6 10 = 0#10 then some .cNop else none
  | 2 => some (.cMov (w.extractLsb' 11 5) (w.extractLsb' 6 5))
  | 3 => some (.cAdd (w.extractLsb' 11 5) (w.extractLsb' 6 5))
  | 4 => some (.cSub (w.extractLsb' 11 5) (w.extractLsb' 6 5))
  | 5 => some (.cAnd (w.extractLsb' 11 5) (w.extractLsb' 6 5))
  | 6 => some (.cOr (w.extractLsb' 11 5) (w.extractLsb' 6 5))
  | 7 => some (.cXor (w.extractLsb' 11 5) (w.extractLsb' 6 5))
  | _ => none

/-- Compact opcodes 8 to 15 (R43). -/
noncomputable def decodeCompact08 (lo : Nat) (w : BitVec 16) : Option Instr :=
  match lo with
  | 0 => some (.cAddi (w.extractLsb' 11 5) (w.extractLsb' 6 5))
  | 1 => some (.cLi (w.extractLsb' 11 5) (w.extractLsb' 6 5))
  | 2 => some (.cShiShl (w.extractLsb' 11 5) (w.extractLsb' 6 5))
  | 3 => some (.cShiShr (w.extractLsb' 11 5) (w.extractLsb' 6 5))
  | 4 => some (.cShiSar (w.extractLsb' 11 5) (w.extractLsb' 6 5))
  | 5 => some (.cLd (1#2 ++ (w.extractLsb' 13 3)) (1#2 ++ (w.extractLsb' 10 3)) (w.extractLsb' 6 4))
  | 6 => some (.cSt (1#2 ++ (w.extractLsb' 13 3)) (1#2 ++ (w.extractLsb' 10 3)) (w.extractLsb' 6 4))
  | 7 => some (.cLdg (1#2 ++ (w.extractLsb' 13 3)) (1#2 ++ (w.extractLsb' 10 3)) (w.extractLsb' 6 4))
  | _ => none

/-- Compact opcodes 16 to 23 (R43). -/
noncomputable def decodeCompact16 (lo : Nat) (w : BitVec 16) : Option Instr :=
  match lo with
  | 0 => some (.cStg (1#2 ++ (w.extractLsb' 13 3)) (1#2 ++ (w.extractLsb' 10 3)) (w.extractLsb' 6 4))
  | 1 => some (.cBr (w.extractLsb' 6 10))
  | 2 => some (.cBccEq (1#2 ++ (w.extractLsb' 13 3)) (w.extractLsb' 6 7))
  | 3 => some (.cBccNe (1#2 ++ (w.extractLsb' 13 3)) (w.extractLsb' 6 7))
  | 4 => if w.extractLsb' 6 10 = 0#10 then some .cRet else none
  | 5 => if w.extractLsb' 11 5 = 0#5 then some (.cJr (w.extractLsb' 6 5)) else none
  | 6 => if w.extractLsb' 11 5 = 0#5 then some (.cCallr (w.extractLsb' 6 5)) else none
  | 7 => if w.extractLsb' 6 10 = 0#10 then some .cYield else none
  | _ => none

/-- Compact opcodes 24 to 31 (R43). -/
noncomputable def decodeCompact24 (lo : Nat) (w : BitVec 16) : Option Instr :=
  match lo with
  | 0 => if w.extractLsb' 6 10 = 0#10 then some .cEnd else none
  | 1 => if w.extractLsb' 6 10 = 0#10 then some .cTcut else none
  | 2 => some (.cVaddF32 (w.extractLsb' 11 5) (w.extractLsb' 6 5))
  | 3 => some (.cVmulF32 (w.extractLsb' 11 5) (w.extractLsb' 6 5))
  | 4 => some (.cVmov (w.extractLsb' 11 5) (w.extractLsb' 6 5))
  | 5 => some (.cVld (w.extractLsb' 11 5) (w.extractLsb' 6 5))
  | 6 => some (.cVst (w.extractLsb' 11 5) (w.extractLsb' 6 5))
  | 7 => some (.cBpAny (w.extractLsb' 13 3) (w.extractLsb' 6 7))
  | _ => none

/-- The instruction of a compact halfword, by its compact opcode, bits [5:1] (R28, R43). -/
noncomputable def decodeHalf (w : BitVec 16) : Option Instr :=
  if w.extractLsb' 0 1 = 0#1 then
    let lo := (w.extractLsb' 1 3).toNat
    match (w.extractLsb' 4 2).toNat with
    | 0 => decodeCompact00 lo w
    | 1 => decodeCompact08 lo w
    | 2 => decodeCompact16 lo w
    | 3 => decodeCompact24 lo w
    | _ => none
  else none

/-- The 32-bit word of an instruction that has one (R31, R39 to R41). -/
def encodeWord : Instr → Option (BitVec 32)
  | .nop => some (0#24 ++ 1#8)
  | .br off => some (off ++ 3#8)
  | .bcc c s1 s2 off => some (off ++ (s2 ++ (s1 ++ (c.toBits ++ 5#8))))
  | .bp c p off => some (0#4 ++ (c.toBits ++ (p ++ (off ++ 7#8))))
  | .call off => some (off ++ 9#8)
  | .callr d s1 => some (0#14 ++ (s1 ++ (d ++ 11#8)))
  | .ret => some (0#24 ++ 13#8)
  | .jr s1 => some (0#14 ++ (s1 ++ (0#5 ++ 15#8)))
  | .loop ctr off => some (off ++ (0#10 ++ (ctr ++ 17#8)))
  | .rep s1 n kind base sz stride => some (n ++ (sz ++ (stride ++ (kind.toBits ++ (s1 ++ (base ++ 19#8))))))
  | .start d s1 off => some (off ++ (s1 ++ (d ++ 21#8)))
  | .endCtx => some (0#24 ++ 23#8)
  | .yield => some (0#24 ++ 25#8)
  | .wait d s1 mask => some (0#3 ++ (mask ++ (0#1 ++ (s1 ++ (d ++ 27#8)))))
  | .getid d which => some (0#9 ++ (which.toBits ++ (0#5 ++ (d ++ 29#8))))
  | .brk code => some (code ++ 31#8)
  | .extPrefixedUnit _ _ => none
  | .add d s1 s2 => some (0#9 ++ (s2 ++ (s1 ++ (d ++ 33#8))))
  | .addi d s1 imm => some (imm ++ (s1 ++ (d ++ 35#8)))
  | .sub d s1 s2 => some (0#9 ++ (s2 ++ (s1 ++ (d ++ 37#8))))
  | .mul d s1 s2 => some (0#9 ++ (s2 ++ (s1 ++ (d ++ 39#8))))
  | .mulhI64 d s1 s2 => some (0#9 ++ (s2 ++ (s1 ++ (d ++ 41#8))))
  | .mulhN64 d s1 s2 => some (32#9 ++ (s2 ++ (s1 ++ (d ++ 41#8))))
  | .mulhSu d s1 s2 => some (64#9 ++ (s2 ++ (s1 ++ (d ++ 41#8))))
  | .divI64 d s1 s2 => some (0#9 ++ (s2 ++ (s1 ++ (d ++ 43#8))))
  | .divN64 d s1 s2 => some (32#9 ++ (s2 ++ (s1 ++ (d ++ 43#8))))
  | .remI64 d s1 s2 => some (0#9 ++ (s2 ++ (s1 ++ (d ++ 45#8))))
  | .remN64 d s1 s2 => some (32#9 ++ (s2 ++ (s1 ++ (d ++ 45#8))))
  | .madd d s1 s2 s3 => some (0#4 ++ (s3 ++ (s2 ++ (s1 ++ (d ++ 47#8)))))
  | .msub d s1 s2 s3 => some (1#4 ++ (s3 ++ (s2 ++ (s1 ++ (d ++ 47#8)))))
  | .andR d s1 s2 => some (0#9 ++ (s2 ++ (s1 ++ (d ++ 49#8))))
  | .orR d s1 s2 => some (0#9 ++ (s2 ++ (s1 ++ (d ++ 51#8))))
  | .xorR d s1 s2 => some (0#9 ++ (s2 ++ (s1 ++ (d ++ 53#8))))
  | .andn d s1 s2 => some (0#9 ++ (s2 ++ (s1 ++ (d ++ 55#8))))
  | .logiAnd d s1 imm => some (0#2 ++ (imm ++ (s1 ++ (d ++ 57#8))))
  | .logiOr d s1 imm => some (1#2 ++ (imm ++ (s1 ++ (d ++ 57#8))))
  | .logiXor d s1 imm => some (2#2 ++ (imm ++ (s1 ++ (d ++ 57#8))))
  | .logiAndn d s1 imm => some (3#2 ++ (imm ++ (s1 ++ (d ++ 57#8))))
  | .shl d s1 s2 => some (0#9 ++ (s2 ++ (s1 ++ (d ++ 59#8))))
  | .shr d s1 s2 => some (0#9 ++ (s2 ++ (s1 ++ (d ++ 61#8))))
  | .sar d s1 s2 => some (0#9 ++ (s2 ++ (s1 ++ (d ++ 63#8))))
  | .rotL d s1 s2 => some (0#9 ++ (s2 ++ (s1 ++ (d ++ 65#8))))
  | .rotR d s1 s2 => some (32#9 ++ (s2 ++ (s1 ++ (d ++ 65#8))))
  | .shiShl d s1 n => some (0#8 ++ (n ++ (s1 ++ (d ++ 67#8))))
  | .shiShr d s1 n => some (1#8 ++ (n ++ (s1 ++ (d ++ 67#8))))
  | .shiSar d s1 n => some (2#8 ++ (n ++ (s1 ++ (d ++ 67#8))))
  | .shiRot d s1 n => some (3#8 ++ (n ++ (s1 ++ (d ++ 67#8))))
  | .minI64 d s1 s2 => some (0#9 ++ (s2 ++ (s1 ++ (d ++ 69#8))))
  | .minN64 d s1 s2 => some (32#9 ++ (s2 ++ (s1 ++ (d ++ 69#8))))
  | .maxI64 d s1 s2 => some (0#9 ++ (s2 ++ (s1 ++ (d ++ 71#8))))
  | .maxN64 d s1 s2 => some (32#9 ++ (s2 ++ (s1 ++ (d ++ 71#8))))
  | .cmp d c s1 s2 => some (0#4 ++ (c.toBits ++ (s2 ++ (s1 ++ (d ++ 73#8)))))
  | .sel d s1 s2 s3 => some (0#4 ++ (s3 ++ (s2 ++ (s1 ++ (d ++ 75#8)))))
  | .ext d s1 t => some (0#4 ++ (t ++ (0#5 ++ (s1 ++ (d ++ 77#8)))))
  | .bitcPop d s1 => some (0#14 ++ (s1 ++ (d ++ 79#8)))
  | .bitcClz d s1 => some (1024#14 ++ (s1 ++ (d ++ 79#8)))
  | .bitcCtz d s1 => some (2048#14 ++ (s1 ++ (d ++ 79#8)))
  | .bitcRev d s1 => some (3072#14 ++ (s1 ++ (d ++ 79#8)))
  | .bitcBsw d s1 => some (4096#14 ++ (s1 ++ (d ++ 79#8)))
  | .bfxN d s1 s2 => some (0#9 ++ (s2 ++ (s1 ++ (d ++ 81#8))))
  | .bfxI d s1 s2 => some (32#9 ++ (s2 ++ (s1 ++ (d ++ 81#8))))
  | .bfi d s1 s2 => some (0#9 ++ (s2 ++ (s1 ++ (d ++ 83#8))))
  | .li d imm => some (imm ++ (d ++ 85#8))
  | .lih d imm => some (imm ++ (d ++ 87#8))
  | .lea d s1 s2 sh => some (sh ++ (0#5 ++ (s2 ++ (s1 ++ (d ++ 89#8)))))
  | .hdrPack d s1 n => some (0#5 ++ (n ++ (0#5 ++ (s1 ++ (d ++ 91#8)))))
  | .hdrSplit d s1 n => some (2#5 ++ (n ++ (0#5 ++ (s1 ++ (d ++ 91#8)))))
  | .shuf d s1 s2 => some (0#9 ++ (s2 ++ (s1 ++ (d ++ 93#8))))
  | .shufKLow d s1 s2 k => some (1#4 ++ (k ++ (s2 ++ (s1 ++ (d ++ 93#8)))))
  | .shufKHigh d s1 s2 k => some (2#4 ++ (k ++ (s2 ++ (s1 ++ (d ++ 93#8)))))
  | .addc d s1 s2 s3 => some (0#4 ++ (s3 ++ (s2 ++ (s1 ++ (d ++ 95#8)))))
  | .addcCo d s1 s2 s3 => some (1#4 ++ (s3 ++ (s2 ++ (s1 ++ (d ++ 95#8)))))
  | .vadd d s1 s2 p t m => some (m ++ (t.toBits ++ (p ++ (s2 ++ (s1 ++ (d ++ 97#8))))))
  | .vsub d s1 s2 p t m => some (m ++ (t.toBits ++ (p ++ (s2 ++ (s1 ++ (d ++ 99#8))))))
  | .vmul d s1 s2 p t m => some (m ++ (t.toBits ++ (p ++ (s2 ++ (s1 ++ (d ++ 101#8))))))
  | .vfma d s1 s2 p t m => some (m ++ (t.toBits ++ (p ++ (s2 ++ (s1 ++ (d ++ 103#8))))))
  | .vdiv d s1 s2 p t m => some (m ++ (t.toBits ++ (p ++ (s2 ++ (s1 ++ (d ++ 105#8))))))
  | .vsqrt d s1 p t m => some (m ++ (t.toBits ++ (p ++ (0#5 ++ (s1 ++ (d ++ 107#8))))))
  | .vmin d s1 s2 p t => some (0#2 ++ (t.toBits ++ (p ++ (s2 ++ (s1 ++ (d ++ 109#8))))))
  | .vmax d s1 s2 p t => some (0#2 ++ (t.toBits ++ (p ++ (s2 ++ (s1 ++ (d ++ 111#8))))))
  | .vunNeg d s1 p t m => some (m ++ (t.toBits ++ (p ++ (0#5 ++ (s1 ++ (d ++ 113#8))))))
  | .vunAbs d s1 p t m => some (m ++ (t.toBits ++ (p ++ (1#5 ++ (s1 ++ (d ++ 113#8))))))
  | .vunRint d s1 p t m => some (m ++ (t.toBits ++ (p ++ (2#5 ++ (s1 ++ (d ++ 113#8))))))
  | .vunPopc d s1 p t => some (0#2 ++ (t.toBits ++ (p ++ (3#5 ++ (s1 ++ (d ++ 113#8))))))
  | .vunClz d s1 p t => some (0#2 ++ (t.toBits ++ (p ++ (4#5 ++ (s1 ++ (d ++ 113#8))))))
  | .vlogAnd d s1 p t => some (0#2 ++ (t.toBits ++ (p ++ (0#5 ++ (s1 ++ (d ++ 115#8))))))
  | .vlogOr d s1 p t => some (0#2 ++ (t.toBits ++ (p ++ (1#5 ++ (s1 ++ (d ++ 115#8))))))
  | .vlogXor d s1 p t => some (0#2 ++ (t.toBits ++ (p ++ (2#5 ++ (s1 ++ (d ++ 115#8))))))
  | .vlogAndn d s1 p t => some (0#2 ++ (t.toBits ++ (p ++ (3#5 ++ (s1 ++ (d ++ 115#8))))))
  | .vlogOrn d s1 p t => some (0#2 ++ (t.toBits ++ (p ++ (4#5 ++ (s1 ++ (d ++ 115#8))))))
  | .vlogNand d s1 p t => some (0#2 ++ (t.toBits ++ (p ++ (5#5 ++ (s1 ++ (d ++ 115#8))))))
  | .vlogNor d s1 p t => some (0#2 ++ (t.toBits ++ (p ++ (6#5 ++ (s1 ++ (d ++ 115#8))))))
  | .vlogXnor d s1 p t => some (0#2 ++ (t.toBits ++ (p ++ (7#5 ++ (s1 ++ (d ++ 115#8))))))
  | .vlogNot d s1 p t => some (0#2 ++ (t.toBits ++ (p ++ (8#5 ++ (s1 ++ (d ++ 115#8))))))
  | .vsh d s1 s2 p t m => some (m ++ (t.toBits ++ (p ++ (s2 ++ (s1 ++ (d ++ 117#8))))))
  | .vcmp q c s1 s2 p t => some (0#2 ++ (t.toBits ++ (p ++ (s2 ++ (s1 ++ (c.toBits ++ (q ++ 119#8)))))))
  | .whilePred q l u s1 s2 t => some (0#2 ++ (t.toBits ++ (0#3 ++ (s2 ++ (s1 ++ ((BitVec.ofBool l) ++ ((BitVec.ofBool u) ++ (q ++ 121#8))))))))
  | .vwid d => some (0#19 ++ (d ++ 123#8))
  | .plogAnd q s1 s2 g => some (4#6 ++ (g ++ ((0#2 ++ s2) ++ ((0#2 ++ s1) ++ (0#2 ++ (q ++ 125#8))))))
  | .plogOr q s1 s2 g => some (4#6 ++ (g ++ ((0#2 ++ s2) ++ ((0#2 ++ s1) ++ (1#2 ++ (q ++ 125#8))))))
  | .plogXor q s1 s2 g => some (4#6 ++ (g ++ ((0#2 ++ s2) ++ ((0#2 ++ s1) ++ (2#2 ++ (q ++ 125#8))))))
  | .plogAndn q s1 s2 g => some (4#6 ++ (g ++ ((0#2 ++ s2) ++ ((0#2 ++ s1) ++ (3#2 ++ (q ++ 125#8))))))
  | .vcvt d s1 srcT p t m => some (m ++ (t.toBits ++ (p ++ (0#1 ++ (srcT.toBits ++ (s1 ++ (d ++ 127#8)))))))
  | .vcvtHi d s1 srcT p t m => some (m ++ (t.toBits ++ (p ++ (1#1 ++ (srcT.toBits ++ (s1 ++ (d ++ 127#8)))))))
  | .vfunExp2 d s1 x p m => some (m ++ (10#4 ++ (p ++ (0#1 ++ ((BitVec.ofBool x) ++ (0#3 ++ (s1 ++ (d ++ 129#8))))))))
  | .vfunLog2 d s1 x p m => some (m ++ (10#4 ++ (p ++ (0#1 ++ ((BitVec.ofBool x) ++ (1#3 ++ (s1 ++ (d ++ 129#8))))))))
  | .vfunRcp d s1 x p m => some (m ++ (10#4 ++ (p ++ (0#1 ++ ((BitVec.ofBool x) ++ (2#3 ++ (s1 ++ (d ++ 129#8))))))))
  | .vfunRsq d s1 x p m => some (m ++ (10#4 ++ (p ++ (0#1 ++ ((BitVec.ofBool x) ++ (3#3 ++ (s1 ++ (d ++ 129#8))))))))
  | .vfunSinpi d s1 x p m => some (m ++ (10#4 ++ (p ++ (0#1 ++ ((BitVec.ofBool x) ++ (4#3 ++ (s1 ++ (d ++ 129#8))))))))
  | .vfunCospi d s1 x p m => some (m ++ (10#4 ++ (p ++ (0#1 ++ ((BitVec.ofBool x) ++ (5#3 ++ (s1 ++ (d ++ 129#8))))))))
  | .vfunTanh d s1 x p m => some (m ++ (10#4 ++ (p ++ (0#1 ++ ((BitVec.ofBool x) ++ (6#3 ++ (s1 ++ (d ++ 129#8))))))))
  | .vredAdd d s1 p t m => some (m ++ (t.toBits ++ (p ++ (0#5 ++ (s1 ++ (d ++ 131#8))))))
  | .vredMin d s1 p t m => some (m ++ (t.toBits ++ (p ++ (1#5 ++ (s1 ++ (d ++ 131#8))))))
  | .vredMax d s1 p t m => some (m ++ (t.toBits ++ (p ++ (2#5 ++ (s1 ++ (d ++ 131#8))))))
  | .vredAnd d s1 p t m => some (m ++ (t.toBits ++ (p ++ (3#5 ++ (s1 ++ (d ++ 131#8))))))
  | .vredOr d s1 p t m => some (m ++ (t.toBits ++ (p ++ (4#5 ++ (s1 ++ (d ++ 131#8))))))
  | .vredXor d s1 p t m => some (m ++ (t.toBits ++ (p ++ (5#5 ++ (s1 ++ (d ++ 131#8))))))
  | .vdot d s1 s2 p t m => some (m ++ (t.toBits ++ (p ++ (s2 ++ (s1 ++ (d ++ 133#8))))))
  | .vsel d s1 s2 p t => some (0#2 ++ (t.toBits ++ (p ++ (s2 ++ (s1 ++ (d ++ 135#8))))))
  | .vperm d s1 s2 p t => some (0#2 ++ (t.toBits ++ (p ++ (s2 ++ (s1 ++ (d ++ 137#8))))))
  | .vbcast d s1 p t => some (0#2 ++ (t.toBits ++ (p ++ (0#5 ++ (s1 ++ (d ++ 139#8))))))
  | .vext d s1 s2 t => some (0#2 ++ (t.toBits ++ (0#3 ++ (s2 ++ (s1 ++ (d ++ 141#8))))))
  | .vins d s1 s2 t => some (0#2 ++ (t.toBits ++ (0#3 ++ (s2 ++ (s1 ++ (d ++ 143#8))))))
  | .vzip d s1 s2 p t => some (0#2 ++ (t.toBits ++ (p ++ (s2 ++ (s1 ++ (d ++ 145#8))))))
  | .vscanAdd d s1 p t m => some (m ++ (t.toBits ++ (p ++ (0#5 ++ (s1 ++ (d ++ 147#8))))))
  | .vscanMin d s1 p t m => some (m ++ (t.toBits ++ (p ++ (1#5 ++ (s1 ++ (d ++ 147#8))))))
  | .vscanMax d s1 p t m => some (m ++ (t.toBits ++ (p ++ (2#5 ++ (s1 ++ (d ++ 147#8))))))
  | .vld d s1 s2 p t => some (0#2 ++ (t.toBits ++ (p ++ (s2 ++ (s1 ++ (d ++ 149#8))))))
  | .vst d s1 s2 p t => some (0#2 ++ (t.toBits ++ (p ++ (s2 ++ (s1 ++ (d ++ 151#8))))))
  | .vgath d s1 s2 p t => some (0#2 ++ (t.toBits ++ (p ++ (s2 ++ (s1 ++ (d ++ 153#8))))))
  | .vscat d s1 s2 p t => some (0#2 ++ (t.toBits ++ (p ++ (s2 ++ (s1 ++ (d ++ 155#8))))))
  | .vshuf d s1 s2 p t => some (0#2 ++ (t.toBits ++ (p ++ (s2 ++ (s1 ++ (d ++ 157#8))))))
  | .vmov d s1 p t => some (0#2 ++ (t.toBits ++ (p ++ (0#5 ++ (s1 ++ (d ++ 159#8))))))
  | .ld d b off z x => some (0#1 ++ ((BitVec.ofBool x) ++ (z ++ (off ++ (b ++ (d ++ 161#8))))))
  | .st d b off z => some (0#2 ++ (z ++ (off ++ (b ++ (d ++ 163#8)))))
  | .ldx d s1 s2 f z x => some (0#1 ++ ((BitVec.ofBool x) ++ (z ++ (f ++ (s2 ++ (s1 ++ (d ++ 165#8)))))))
  | .stx d s1 s2 f z => some (0#2 ++ (z ++ (f ++ (s2 ++ (s1 ++ (d ++ 167#8))))))
  | .ldfe d b off => some (3#4 ++ (off ++ (b ++ (d ++ 169#8))))
  | .stfe d b off => some (3#4 ++ (off ++ (b ++ (d ++ 171#8))))
  | .feopSet s1 s2 f => some (0#4 ++ (f ++ (s2 ++ (s1 ++ (0#5 ++ 173#8)))))
  | .feopClr s1 s2 f => some (1#4 ++ (f ++ (s2 ++ (s1 ++ (0#5 ++ 173#8)))))
  | .feopQry d s1 s2 f => some (2#4 ++ (f ++ (s2 ++ (s1 ++ (d ++ 173#8)))))
  | .feopLdff d s1 s2 f => some (3#4 ++ (f ++ (s2 ++ (s1 ++ (d ++ 173#8)))))
  | .xch d s1 s2 f z x => some (0#1 ++ ((BitVec.ofBool x) ++ (z ++ (f ++ (s2 ++ (s1 ++ (d ++ 175#8)))))))
  | .ldg d b off z x => some (0#1 ++ ((BitVec.ofBool x) ++ (z ++ (off ++ (b ++ (d ++ 177#8))))))
  | .stg d b off z => some (0#2 ++ (z ++ (off ++ (b ++ (d ++ 179#8)))))
  | .vldg d s1 s2 p t => some (0#2 ++ (t.toBits ++ (p ++ (s2 ++ (s1 ++ (d ++ 181#8))))))
  | .vstg d s1 s2 p t => some (0#2 ++ (t.toBits ++ (p ++ (s2 ++ (s1 ++ (d ++ 183#8))))))
  | .prefRd b off => some (0#4 ++ (off ++ (b ++ (0#5 ++ 185#8))))
  | .prefOwn b off => some (0#4 ++ (off ++ (b ++ (1#5 ++ 185#8))))
  | .prefSlc b off => some (0#4 ++ (off ++ (b ++ (2#5 ++ 185#8))))
  | .lease d s1 s2 => some (0#9 ++ (s2 ++ (s1 ++ (d ++ 187#8))))
  | .unlease d s1 => some (1024#14 ++ (s1 ++ (d ++ 187#8)))
  | .lstat d s1 => some (2048#14 ++ (s1 ++ (d ++ 187#8)))
  | .tcut => some (0#24 ++ 189#8)
  | .fence scope => some (4#6 ++ (scope.toBits ++ (0#15 ++ 189#8)))
  | .acq scope => some (8#6 ++ (scope.toBits ++ (0#15 ++ 189#8)))
  | .rel scope => some (12#6 ++ (scope.toBits ++ (0#15 ++ 189#8)))
  | .faAddN64 d s1 s2 scope ord => some (0#5 ++ ((BitVec.ofBool ord) ++ (scope.toBits ++ (s2 ++ (s1 ++ (d ++ 191#8))))))
  | .faAndN64 d s1 s2 scope ord => some (2#5 ++ ((BitVec.ofBool ord) ++ (scope.toBits ++ (s2 ++ (s1 ++ (d ++ 191#8))))))
  | .faOrN64 d s1 s2 scope ord => some (4#5 ++ ((BitVec.ofBool ord) ++ (scope.toBits ++ (s2 ++ (s1 ++ (d ++ 191#8))))))
  | .faXorN64 d s1 s2 scope ord => some (6#5 ++ ((BitVec.ofBool ord) ++ (scope.toBits ++ (s2 ++ (s1 ++ (d ++ 191#8))))))
  | .faMinI64 d s1 s2 scope ord => some (8#5 ++ ((BitVec.ofBool ord) ++ (scope.toBits ++ (s2 ++ (s1 ++ (d ++ 191#8))))))
  | .faMaxI64 d s1 s2 scope ord => some (10#5 ++ ((BitVec.ofBool ord) ++ (scope.toBits ++ (s2 ++ (s1 ++ (d ++ 191#8))))))
  | .faMinN64 d s1 s2 scope ord => some (12#5 ++ ((BitVec.ofBool ord) ++ (scope.toBits ++ (s2 ++ (s1 ++ (d ++ 191#8))))))
  | .faMaxN64 d s1 s2 scope ord => some (14#5 ++ ((BitVec.ofBool ord) ++ (scope.toBits ++ (s2 ++ (s1 ++ (d ++ 191#8))))))
  | .faSwapN64 d s1 s2 scope ord => some (16#5 ++ ((BitVec.ofBool ord) ++ (scope.toBits ++ (s2 ++ (s1 ++ (d ++ 191#8))))))
  | .faCasN64 d s1 s2 scope ord => some (18#5 ++ ((BitVec.ofBool ord) ++ (scope.toBits ++ (s2 ++ (s1 ++ (d ++ 191#8))))))
  | .faAddF64 d s1 s2 scope ord => some (20#5 ++ ((BitVec.ofBool ord) ++ (scope.toBits ++ (s2 ++ (s1 ++ (d ++ 191#8))))))
  | .faGetN64 d s1 s2 scope ord => some (22#5 ++ ((BitVec.ofBool ord) ++ (scope.toBits ++ (s2 ++ (s1 ++ (d ++ 191#8))))))
  | .capGive d s1 s2 => some (0#9 ++ (s2 ++ (s1 ++ (d ++ 193#8))))
  | .capClaim d s1 => some (0#14 ++ (s1 ++ (d ++ 195#8)))
  | .capSeal d s1 => some (0#14 ++ (s1 ++ (d ++ 197#8)))
  | .capUnseal d s1 => some (1024#14 ++ (s1 ++ (d ++ 197#8)))
  | .capQry d s1 => some (0#14 ++ (s1 ++ (d ++ 199#8)))
  | .capQryWait d s1 => some (1024#14 ++ (s1 ++ (d ++ 199#8)))
  | .tcfg mm nn => some (nn ++ (mm ++ (0#10 ++ 201#8)))
  | .trel k => some (0#10 ++ (k ++ (0#10 ++ 203#8)))
  | .dtld d s1 => some (0#14 ++ (s1 ++ ((0#3 ++ d) ++ 205#8)))
  | .dtldStd d k => some (32#9 ++ (k.toBits ++ (0#5 ++ ((0#3 ++ d) ++ 205#8))))
  | .fctx s1 => some (0#14 ++ (s1 ++ (0#5 ++ 207#8)))
  | .fctxRd d => some (32768#19 ++ (d ++ 207#8))
  | .tldb s2 s1 s3 => some (0#4 ++ (s3 ++ (s2 ++ (s1 ++ (0#5 ++ 209#8)))))
  | .mma d s1 z => some (0#3 ++ ((BitVec.ofBool z) ++ (0#10 ++ (s1 ++ ((0#3 ++ d) ++ 211#8)))))
  | .mmaV d s1 v z => some (1#3 ++ ((BitVec.ofBool z) ++ (v ++ (0#5 ++ (s1 ++ ((0#3 ++ d) ++ 211#8))))))
  | .tstcF32 d s2 s1 => some (0#9 ++ (s2 ++ (s1 ++ ((0#3 ++ d) ++ 213#8))))
  | .tstcBf16 d s2 s1 => some (32#9 ++ (s2 ++ (s1 ++ ((0#3 ++ d) ++ 213#8))))
  | .tstcF16 d s2 s1 => some (64#9 ++ (s2 ++ (s1 ++ ((0#3 ++ d) ++ 213#8))))
  | .tqnt d s1 => some (0#14 ++ (s1 ++ ((0#3 ++ d) ++ 215#8)))
  | .scfg d op rmode => some (0#8 ++ (rmode.toBits ++ (op.toBits ++ (0#5 ++ (d ++ 217#8)))))
  | .stile s1 => some (0#14 ++ (s1 ++ (0#5 ++ 219#8)))
  | .sjoinT d s1 => some (2560#14 ++ (s1 ++ (d ++ 221#8)))
  | .sjoinR d s1 s2 => some (208#9 ++ (s2 ++ (s1 ++ (d ++ 221#8))))
  | .chainPost d s1 s2 => some (0#9 ++ (s2 ++ (s1 ++ (d ++ 223#8))))
  | .chainWait d s1 s2 => some (32#9 ++ (s2 ++ (s1 ++ (d ++ 223#8))))
  | .chainPos d => some (65536#19 ++ (d ++ 223#8))
  | .binit d s1 s2 scope => some (0#6 ++ (scope.toBits ++ (s2 ++ (s1 ++ (d ++ 225#8)))))
  | .barv d s1 s2 scope => some (0#6 ++ (scope.toBits ++ (s2 ++ (s1 ++ (d ++ 227#8)))))
  | .barvX d s1 s2 scope => some (4#6 ++ (scope.toBits ++ (s2 ++ (s1 ++ (d ++ 227#8)))))
  | .bwait d s1 s2 scope => some (0#6 ++ (scope.toBits ++ (s2 ++ (s1 ++ (d ++ 229#8)))))
  | .btest d s1 s2 scope => some (0#6 ++ (scope.toBits ++ (s2 ++ (s1 ++ (d ++ 231#8)))))
  | .semi d s1 s2 scope => some (0#6 ++ (scope.toBits ++ (s2 ++ (s1 ++ (d ++ 233#8)))))
  | .semiSet d s1 s2 scope => some (4#6 ++ (scope.toBits ++ (s2 ++ (s1 ++ (d ++ 233#8)))))
  | .semw d s1 s2 scope => some (0#6 ++ (scope.toBits ++ (s2 ++ (s1 ++ (d ++ 235#8)))))
  | .semwDec d s1 s2 scope => some (4#6 ++ (scope.toBits ++ (s2 ++ (s1 ++ (d ++ 235#8)))))
  | .qinit d s1 s2 => some (0#9 ++ (s2 ++ (s1 ++ (d ++ 237#8))))
  | .enq d s1 s2 => some (32#9 ++ (s2 ++ (s1 ++ (d ++ 237#8))))
  | .enqB d s1 s2 => some (33#9 ++ (s2 ++ (s1 ++ (d ++ 237#8))))
  | .deq d s1 => some (2048#14 ++ (s1 ++ (d ++ 237#8)))
  | .deqB d s1 s2 => some (65#9 ++ (s2 ++ (s1 ++ (d ++ 237#8))))
  | .deqPoll d s1 s2 => some (67#9 ++ (s2 ++ (s1 ++ (d ++ 237#8))))
  | .send d s1 s2 n => some (0#4 ++ (n ++ (s2 ++ (s1 ++ (d ++ 239#8)))))
  | .sendRep d s1 s2 n => some (1#4 ++ (n ++ (s2 ++ (s1 ++ (d ++ 239#8)))))
  | .sendRef d s1 => some (2048#14 ++ (s1 ++ (d ++ 239#8)))
  | .cpy d s1 s2 => some (0#9 ++ (s2 ++ (s1 ++ (d ++ 241#8))))
  | .cpyStat d s1 => some (1024#14 ++ (s1 ++ (d ++ 241#8)))
  | .cpyStatErr d s1 => some (1056#14 ++ (s1 ++ (d ++ 241#8)))
  | .cpyStatWait d s1 s2 => some (34#9 ++ (s2 ++ (s1 ++ (d ++ 241#8))))
  | .gath d s1 s2 => some (0#9 ++ (s2 ++ (s1 ++ (d ++ 243#8))))
  | .scat d s1 s2 => some (0#9 ++ (s2 ++ (s1 ++ (d ++ 245#8))))
  | .strmOff d v => some (0#9 ++ (v ++ (0#5 ++ (d ++ 247#8))))
  | .strmIn d v s1 f => some (1#4 ++ (f ++ (v ++ (s1 ++ (d ++ 247#8)))))
  | .strmOut d v s1 f => some (2#4 ++ (f ++ (v ++ (s1 ++ (d ++ 247#8)))))
  | .strmInD d v s1 f => some (3#4 ++ (f ++ (v ++ (s1 ++ (d ++ 247#8)))))
  | .strmOutD d v s1 f => some (4#4 ++ (f ++ (v ++ (s1 ++ (d ++ 247#8)))))
  | .trap s1 n => some (0#4 ++ (n ++ (0#5 ++ (s1 ++ (0#5 ++ 249#8)))))
  | .eret s1 => some (1024#14 ++ (s1 ++ (0#5 ++ 249#8)))
  | .eretEnd s1 => some (1056#14 ++ (s1 ++ (0#5 ++ 249#8)))
  | .parkrd d s1 => some (2048#14 ++ (s1 ++ (d ++ 249#8)))
  | .parkwr s1 s2 => some (96#9 ++ (s2 ++ (s1 ++ (0#5 ++ 249#8))))
  | .erlog d s1 => some (4096#14 ++ (s1 ++ (d ++ 249#8)))
  | .erlogEsc s1 => some (4128#14 ++ (s1 ++ (0#5 ++ 249#8)))
  | .crd d r => some (0#1 ++ (r ++ (0#5 ++ (d ++ 251#8))))
  | .cwr r s1 => some (1#1 ++ (r ++ (s1 ++ (0#5 ++ 251#8))))
  | .tlbiVa s1 s2 scope => some (0#6 ++ (scope.toBits ++ (s2 ++ (s1 ++ (0#5 ++ 253#8)))))
  | .tlbiAsid s2 scope => some (4#6 ++ (scope.toBits ++ (s2 ++ (0#10 ++ 253#8))))
  | .tlbiAll scope => some (8#6 ++ (scope.toBits ++ (0#15 ++ 253#8)))
  | .cBrk _ => none
  | .cNop => none
  | .cMov _ _ => none
  | .cAdd _ _ => none
  | .cSub _ _ => none
  | .cAnd _ _ => none
  | .cOr _ _ => none
  | .cXor _ _ => none
  | .cAddi _ _ => none
  | .cLi _ _ => none
  | .cShiShl _ _ => none
  | .cShiShr _ _ => none
  | .cShiSar _ _ => none
  | .cLd _ _ _ => none
  | .cSt _ _ _ => none
  | .cLdg _ _ _ => none
  | .cStg _ _ _ => none
  | .cBr _ => none
  | .cBccEq _ _ => none
  | .cBccNe _ _ => none
  | .cRet => none
  | .cJr _ => none
  | .cCallr _ => none
  | .cYield => none
  | .cEnd => none
  | .cTcut => none
  | .cVaddF32 _ _ => none
  | .cVmulF32 _ _ => none
  | .cVmov _ _ => none
  | .cVld _ _ => none
  | .cVst _ _ => none
  | .cBpAny _ _ => none
  | .cwrCmode s1 => some (1#1 ++ (0x0010#13 ++ (s1 ++ (0#5 ++ 0xFB#8))))
  | .cwrWsp s1 => some (1#1 ++ (0x0012#13 ++ (s1 ++ (0#5 ++ 0xFB#8))))
  | .cwrLayout n s1 => some (1#1 ++ ((2#8 ++ n) ++ (s1 ++ (0#5 ++ 0xFB#8))))
  | .cwrSplit s1 => some (1#1 ++ (0x0060#13 ++ (s1 ++ (0#5 ++ 0xFB#8))))
  | .cwrVpool s1 => some (1#1 ++ (0x0061#13 ++ (s1 ++ (0#5 ++ 0xFB#8))))
  | .cwrClass n s1 => some (1#1 ++ ((5#8 ++ n) ++ (s1 ++ (0#5 ++ 0xFB#8))))
  | .cwrVmroot s1 => some (1#1 ++ (0x00D0#13 ++ (s1 ++ (0#5 ++ 0xFB#8))))
  | .supervisorWake _ => none
  | .blockedIntervalEnd _ _ => none
  | .forfeitEnd _ _ => none
  | .normaliserService _ => none
  | .queueRegisterUnblock _ _ => none
  | .waitRelease _ _ => none
  | .waitLimitExpiry _ _ => none
  | .helperTaken _ _ => none
  | .taskLaneRetire _ => none
  | .remoteAccessPerform _ _ => none
  | .remoteStorePerform _ _ => none
  | .vectorRemoteChecks _ _ => none
  | .parkedRequestServe _ => none
  | .parkRefusalRetry _ _ => none
  | .evictionRetryResend _ _ => none
  | .commitGrant _ _ => none
  | .localCommit _ _ => none
  | .trumpAdmission _ => none
  | .homeLineRequest _ _ _ => none
  | .probeTimeout _ _ => none
  | .leaseGrant _ _ => none
  | .leaseExpiry _ _ _ => none
  | .farAtomicPerform _ _ => none
  | .farAtomicReply _ _ _ => none
  | .capStateChange _ _ => none
  | .capQryWaitRelease _ _ => none
  | .matrixRequestStart _ => none
  | .matrixRequestComplete _ => none
  | .mxwdogExpiry _ => none
  | .uncorrectableSoftError _ _ _ => none
  | .scanRequestStart _ => none
  | .scanRequestComplete _ => none
  | .chainPostPerform _ _ => none
  | .chainDelivery _ => none
  | .chainWaitPerform _ _ => none
  | .barrierArrival _ _ => none
  | .semaphoreAtHome _ _ => none
  | .syncWaiterAnswer _ _ _ => none
  | .wakeListRetry _ _ => none
  | .sliceQueueOp _ _ => none
  | .messageArrival _ _ => none
  | .sendReply _ _ _ => none
  | .granuleRead _ _ => none
  | .granuleWrite _ _ => none
  | .jobEnd _ _ => none
  | .gathScatRow _ _ => none
  | .streamStripFill _ _ _ => none
  | .streamStripWrite _ _ _ => none
  | .cpyStatWaitRelease _ _ => none
  | .trapRecordEnqueue _ => none
  | .pageWalk _ _ => none
  | .tlbiComplete _ _ => none
  | .pageGrant _ _ _ => none
  | .pageRevocation _ => none
  | .malformedDealRemoval _ => none
  | .dealPlacement _ => none
  | .launchCompletion _ => none
  | .pendingInterruptSend _ _ => none
  | .preemption _ => none
  | .coreResume _ _ => none
  | .budgetPeriodStart => none
  | .trapEntry _ _ => none
  | .lockstepMismatch _ _ => none
  | .machineCheck _ => none
  | .heartbeatMiss _ => none
  | .coreRepair _ _ => none
  | .quiesce _ => none
  | .quiesceDone => none
  | .quiesceLimitExpiry => none
  | .resume _ => none
  | .merge _ => none
  | .split _ => none
  | .treset _ => none
  | .tchange _ => none
  | .tchangeDone => none
  | .partRegisterWrite _ _ _ => none
  | .vfRegisterWrite _ _ => none
  | .xpRegisterWrite _ _ => none
  | .podRegisterWrite _ _ => none
  | .bclassWrite _ _ _ => none
  | .lsclassWrite _ => none
  | .pwrctlWrite _ => none
  | .dpctlWrite _ _ => none
  | .hubRegisterWrite _ _ => none
  | .doorbellWrite _ _ _ _ => none
  | .doorbellTrigger _ _ => none
  | .doorbellStatusRead _ _ _ => none
  | .hostPostedWrite _ _ _ => none
  | .hostRead _ _ _ => none
  | .ideFailure _ _ => none
  | .spdmAttestation _ _ => none
  | .debugUnlock _ _ _ => none
  | .fabricRequestArrival _ _ _ => none
  | .fabricRetransmit _ _ => none
  | .secondTierTimeout _ => none
  | .expanderLinkDown _ => none
  | .expanderLinkTrained _ => none
  | .thermalSample _ _ _ => none
  | .agentGate _ => none
  | .agentSleep _ => none
  | .agentWake _ => none
  | .coldReset _ _ => none
  | .warmReset _ => none
  | .firmwareUpdate _ _ => none
  | .recoveryLoad _ _ => none
  | .partitionOpComplete => none
  | .hostLoadReply _ _ _ => none
  | .fabricAcknowledgement _ _ => none

/-- The halfword of a compact instruction (R42, R43). -/
def encodeHalf : Instr → Option (BitVec 16)
  | .nop => none
  | .br _ => none
  | .bcc _ _ _ _ => none
  | .bp _ _ _ => none
  | .call _ => none
  | .callr _ _ => none
  | .ret => none
  | .jr _ => none
  | .loop _ _ => none
  | .rep _ _ _ _ _ _ => none
  | .start _ _ _ => none
  | .endCtx => none
  | .yield => none
  | .wait _ _ _ => none
  | .getid _ _ => none
  | .brk _ => none
  | .extPrefixedUnit _ _ => none
  | .add _ _ _ => none
  | .addi _ _ _ => none
  | .sub _ _ _ => none
  | .mul _ _ _ => none
  | .mulhI64 _ _ _ => none
  | .mulhN64 _ _ _ => none
  | .mulhSu _ _ _ => none
  | .divI64 _ _ _ => none
  | .divN64 _ _ _ => none
  | .remI64 _ _ _ => none
  | .remN64 _ _ _ => none
  | .madd _ _ _ _ => none
  | .msub _ _ _ _ => none
  | .andR _ _ _ => none
  | .orR _ _ _ => none
  | .xorR _ _ _ => none
  | .andn _ _ _ => none
  | .logiAnd _ _ _ => none
  | .logiOr _ _ _ => none
  | .logiXor _ _ _ => none
  | .logiAndn _ _ _ => none
  | .shl _ _ _ => none
  | .shr _ _ _ => none
  | .sar _ _ _ => none
  | .rotL _ _ _ => none
  | .rotR _ _ _ => none
  | .shiShl _ _ _ => none
  | .shiShr _ _ _ => none
  | .shiSar _ _ _ => none
  | .shiRot _ _ _ => none
  | .minI64 _ _ _ => none
  | .minN64 _ _ _ => none
  | .maxI64 _ _ _ => none
  | .maxN64 _ _ _ => none
  | .cmp _ _ _ _ => none
  | .sel _ _ _ _ => none
  | .ext _ _ _ => none
  | .bitcPop _ _ => none
  | .bitcClz _ _ => none
  | .bitcCtz _ _ => none
  | .bitcRev _ _ => none
  | .bitcBsw _ _ => none
  | .bfxN _ _ _ => none
  | .bfxI _ _ _ => none
  | .bfi _ _ _ => none
  | .li _ _ => none
  | .lih _ _ => none
  | .lea _ _ _ _ => none
  | .hdrPack _ _ _ => none
  | .hdrSplit _ _ _ => none
  | .shuf _ _ _ => none
  | .shufKLow _ _ _ _ => none
  | .shufKHigh _ _ _ _ => none
  | .addc _ _ _ _ => none
  | .addcCo _ _ _ _ => none
  | .vadd _ _ _ _ _ _ => none
  | .vsub _ _ _ _ _ _ => none
  | .vmul _ _ _ _ _ _ => none
  | .vfma _ _ _ _ _ _ => none
  | .vdiv _ _ _ _ _ _ => none
  | .vsqrt _ _ _ _ _ => none
  | .vmin _ _ _ _ _ => none
  | .vmax _ _ _ _ _ => none
  | .vunNeg _ _ _ _ _ => none
  | .vunAbs _ _ _ _ _ => none
  | .vunRint _ _ _ _ _ => none
  | .vunPopc _ _ _ _ => none
  | .vunClz _ _ _ _ => none
  | .vlogAnd _ _ _ _ => none
  | .vlogOr _ _ _ _ => none
  | .vlogXor _ _ _ _ => none
  | .vlogAndn _ _ _ _ => none
  | .vlogOrn _ _ _ _ => none
  | .vlogNand _ _ _ _ => none
  | .vlogNor _ _ _ _ => none
  | .vlogXnor _ _ _ _ => none
  | .vlogNot _ _ _ _ => none
  | .vsh _ _ _ _ _ _ => none
  | .vcmp _ _ _ _ _ _ => none
  | .whilePred _ _ _ _ _ _ => none
  | .vwid _ => none
  | .plogAnd _ _ _ _ => none
  | .plogOr _ _ _ _ => none
  | .plogXor _ _ _ _ => none
  | .plogAndn _ _ _ _ => none
  | .vcvt _ _ _ _ _ _ => none
  | .vcvtHi _ _ _ _ _ _ => none
  | .vfunExp2 _ _ _ _ _ => none
  | .vfunLog2 _ _ _ _ _ => none
  | .vfunRcp _ _ _ _ _ => none
  | .vfunRsq _ _ _ _ _ => none
  | .vfunSinpi _ _ _ _ _ => none
  | .vfunCospi _ _ _ _ _ => none
  | .vfunTanh _ _ _ _ _ => none
  | .vredAdd _ _ _ _ _ => none
  | .vredMin _ _ _ _ _ => none
  | .vredMax _ _ _ _ _ => none
  | .vredAnd _ _ _ _ _ => none
  | .vredOr _ _ _ _ _ => none
  | .vredXor _ _ _ _ _ => none
  | .vdot _ _ _ _ _ _ => none
  | .vsel _ _ _ _ _ => none
  | .vperm _ _ _ _ _ => none
  | .vbcast _ _ _ _ => none
  | .vext _ _ _ _ => none
  | .vins _ _ _ _ => none
  | .vzip _ _ _ _ _ => none
  | .vscanAdd _ _ _ _ _ => none
  | .vscanMin _ _ _ _ _ => none
  | .vscanMax _ _ _ _ _ => none
  | .vld _ _ _ _ _ => none
  | .vst _ _ _ _ _ => none
  | .vgath _ _ _ _ _ => none
  | .vscat _ _ _ _ _ => none
  | .vshuf _ _ _ _ _ => none
  | .vmov _ _ _ _ => none
  | .ld _ _ _ _ _ => none
  | .st _ _ _ _ => none
  | .ldx _ _ _ _ _ _ => none
  | .stx _ _ _ _ _ => none
  | .ldfe _ _ _ => none
  | .stfe _ _ _ => none
  | .feopSet _ _ _ => none
  | .feopClr _ _ _ => none
  | .feopQry _ _ _ _ => none
  | .feopLdff _ _ _ _ => none
  | .xch _ _ _ _ _ _ => none
  | .ldg _ _ _ _ _ => none
  | .stg _ _ _ _ => none
  | .vldg _ _ _ _ _ => none
  | .vstg _ _ _ _ _ => none
  | .prefRd _ _ => none
  | .prefOwn _ _ => none
  | .prefSlc _ _ => none
  | .lease _ _ _ => none
  | .unlease _ _ => none
  | .lstat _ _ => none
  | .tcut => none
  | .fence _ => none
  | .acq _ => none
  | .rel _ => none
  | .faAddN64 _ _ _ _ _ => none
  | .faAndN64 _ _ _ _ _ => none
  | .faOrN64 _ _ _ _ _ => none
  | .faXorN64 _ _ _ _ _ => none
  | .faMinI64 _ _ _ _ _ => none
  | .faMaxI64 _ _ _ _ _ => none
  | .faMinN64 _ _ _ _ _ => none
  | .faMaxN64 _ _ _ _ _ => none
  | .faSwapN64 _ _ _ _ _ => none
  | .faCasN64 _ _ _ _ _ => none
  | .faAddF64 _ _ _ _ _ => none
  | .faGetN64 _ _ _ _ _ => none
  | .capGive _ _ _ => none
  | .capClaim _ _ => none
  | .capSeal _ _ => none
  | .capUnseal _ _ => none
  | .capQry _ _ => none
  | .capQryWait _ _ => none
  | .tcfg _ _ => none
  | .trel _ => none
  | .dtld _ _ => none
  | .dtldStd _ _ => none
  | .fctx _ => none
  | .fctxRd _ => none
  | .tldb _ _ _ => none
  | .mma _ _ _ => none
  | .mmaV _ _ _ _ => none
  | .tstcF32 _ _ _ => none
  | .tstcBf16 _ _ _ => none
  | .tstcF16 _ _ _ => none
  | .tqnt _ _ => none
  | .scfg _ _ _ => none
  | .stile _ => none
  | .sjoinT _ _ => none
  | .sjoinR _ _ _ => none
  | .chainPost _ _ _ => none
  | .chainWait _ _ _ => none
  | .chainPos _ => none
  | .binit _ _ _ _ => none
  | .barv _ _ _ _ => none
  | .barvX _ _ _ _ => none
  | .bwait _ _ _ _ => none
  | .btest _ _ _ _ => none
  | .semi _ _ _ _ => none
  | .semiSet _ _ _ _ => none
  | .semw _ _ _ _ => none
  | .semwDec _ _ _ _ => none
  | .qinit _ _ _ => none
  | .enq _ _ _ => none
  | .enqB _ _ _ => none
  | .deq _ _ => none
  | .deqB _ _ _ => none
  | .deqPoll _ _ _ => none
  | .send _ _ _ _ => none
  | .sendRep _ _ _ _ => none
  | .sendRef _ _ => none
  | .cpy _ _ _ => none
  | .cpyStat _ _ => none
  | .cpyStatErr _ _ => none
  | .cpyStatWait _ _ _ => none
  | .gath _ _ _ => none
  | .scat _ _ _ => none
  | .strmOff _ _ => none
  | .strmIn _ _ _ _ => none
  | .strmOut _ _ _ _ => none
  | .strmInD _ _ _ _ => none
  | .strmOutD _ _ _ _ => none
  | .trap _ _ => none
  | .eret _ => none
  | .eretEnd _ => none
  | .parkrd _ _ => none
  | .parkwr _ _ => none
  | .erlog _ _ => none
  | .erlogEsc _ => none
  | .crd _ _ => none
  | .cwr _ _ => none
  | .tlbiVa _ _ _ => none
  | .tlbiAsid _ _ => none
  | .tlbiAll _ => none
  | .cBrk code => some (code ++ 0#6)
  | .cNop => some (0#10 ++ 2#6)
  | .cMov d src => some (d ++ (src ++ 4#6))
  | .cAdd d src => some (d ++ (src ++ 6#6))
  | .cSub d src => some (d ++ (src ++ 8#6))
  | .cAnd d src => some (d ++ (src ++ 10#6))
  | .cOr d src => some (d ++ (src ++ 12#6))
  | .cXor d src => some (d ++ (src ++ 14#6))
  | .cAddi d imm => some (d ++ (imm ++ 16#6))
  | .cLi d imm => some (d ++ (imm ++ 18#6))
  | .cShiShl d imm => some (d ++ (imm ++ 20#6))
  | .cShiShr d imm => some (d ++ (imm ++ 22#6))
  | .cShiSar d imm => some (d ++ (imm ++ 24#6))
  | .cLd d b off => some ((d.extractLsb' 0 3) ++ ((b.extractLsb' 0 3) ++ (off ++ 26#6)))
  | .cSt d b off => some ((d.extractLsb' 0 3) ++ ((b.extractLsb' 0 3) ++ (off ++ 28#6)))
  | .cLdg d b off => some ((d.extractLsb' 0 3) ++ ((b.extractLsb' 0 3) ++ (off ++ 30#6)))
  | .cStg d b off => some ((d.extractLsb' 0 3) ++ ((b.extractLsb' 0 3) ++ (off ++ 32#6)))
  | .cBr off => some (off ++ 34#6)
  | .cBccEq x off => some ((x.extractLsb' 0 3) ++ (off ++ 36#6))
  | .cBccNe x off => some ((x.extractLsb' 0 3) ++ (off ++ 38#6))
  | .cRet => some (0#10 ++ 40#6)
  | .cJr src => some (0#5 ++ (src ++ 42#6))
  | .cCallr src => some (0#5 ++ (src ++ 44#6))
  | .cYield => some (0#10 ++ 46#6)
  | .cEnd => some (0#10 ++ 48#6)
  | .cTcut => some (0#10 ++ 50#6)
  | .cVaddF32 d src => some (d ++ (src ++ 52#6))
  | .cVmulF32 d src => some (d ++ (src ++ 54#6))
  | .cVmov d src => some (d ++ (src ++ 56#6))
  | .cVld d src => some (d ++ (src ++ 58#6))
  | .cVst d src => some (d ++ (src ++ 60#6))
  | .cBpAny p off => some (p ++ (off ++ 62#6))
  | .cwrCmode _ => none
  | .cwrWsp _ => none
  | .cwrLayout _ _ => none
  | .cwrSplit _ => none
  | .cwrVpool _ => none
  | .cwrClass _ _ => none
  | .cwrVmroot _ => none
  | .supervisorWake _ => none
  | .blockedIntervalEnd _ _ => none
  | .forfeitEnd _ _ => none
  | .normaliserService _ => none
  | .queueRegisterUnblock _ _ => none
  | .waitRelease _ _ => none
  | .waitLimitExpiry _ _ => none
  | .helperTaken _ _ => none
  | .taskLaneRetire _ => none
  | .remoteAccessPerform _ _ => none
  | .remoteStorePerform _ _ => none
  | .vectorRemoteChecks _ _ => none
  | .parkedRequestServe _ => none
  | .parkRefusalRetry _ _ => none
  | .evictionRetryResend _ _ => none
  | .commitGrant _ _ => none
  | .localCommit _ _ => none
  | .trumpAdmission _ => none
  | .homeLineRequest _ _ _ => none
  | .probeTimeout _ _ => none
  | .leaseGrant _ _ => none
  | .leaseExpiry _ _ _ => none
  | .farAtomicPerform _ _ => none
  | .farAtomicReply _ _ _ => none
  | .capStateChange _ _ => none
  | .capQryWaitRelease _ _ => none
  | .matrixRequestStart _ => none
  | .matrixRequestComplete _ => none
  | .mxwdogExpiry _ => none
  | .uncorrectableSoftError _ _ _ => none
  | .scanRequestStart _ => none
  | .scanRequestComplete _ => none
  | .chainPostPerform _ _ => none
  | .chainDelivery _ => none
  | .chainWaitPerform _ _ => none
  | .barrierArrival _ _ => none
  | .semaphoreAtHome _ _ => none
  | .syncWaiterAnswer _ _ _ => none
  | .wakeListRetry _ _ => none
  | .sliceQueueOp _ _ => none
  | .messageArrival _ _ => none
  | .sendReply _ _ _ => none
  | .granuleRead _ _ => none
  | .granuleWrite _ _ => none
  | .jobEnd _ _ => none
  | .gathScatRow _ _ => none
  | .streamStripFill _ _ _ => none
  | .streamStripWrite _ _ _ => none
  | .cpyStatWaitRelease _ _ => none
  | .trapRecordEnqueue _ => none
  | .pageWalk _ _ => none
  | .tlbiComplete _ _ => none
  | .pageGrant _ _ _ => none
  | .pageRevocation _ => none
  | .malformedDealRemoval _ => none
  | .dealPlacement _ => none
  | .launchCompletion _ => none
  | .pendingInterruptSend _ _ => none
  | .preemption _ => none
  | .coreResume _ _ => none
  | .budgetPeriodStart => none
  | .trapEntry _ _ => none
  | .lockstepMismatch _ _ => none
  | .machineCheck _ => none
  | .heartbeatMiss _ => none
  | .coreRepair _ _ => none
  | .quiesce _ => none
  | .quiesceDone => none
  | .quiesceLimitExpiry => none
  | .resume _ => none
  | .merge _ => none
  | .split _ => none
  | .treset _ => none
  | .tchange _ => none
  | .tchangeDone => none
  | .partRegisterWrite _ _ _ => none
  | .vfRegisterWrite _ _ => none
  | .xpRegisterWrite _ _ => none
  | .podRegisterWrite _ _ => none
  | .bclassWrite _ _ _ => none
  | .lsclassWrite _ => none
  | .pwrctlWrite _ => none
  | .dpctlWrite _ _ => none
  | .hubRegisterWrite _ _ => none
  | .doorbellWrite _ _ _ _ => none
  | .doorbellTrigger _ _ => none
  | .doorbellStatusRead _ _ _ => none
  | .hostPostedWrite _ _ _ => none
  | .hostRead _ _ _ => none
  | .ideFailure _ _ => none
  | .spdmAttestation _ _ => none
  | .debugUnlock _ _ _ => none
  | .fabricRequestArrival _ _ _ => none
  | .fabricRetransmit _ _ => none
  | .secondTierTimeout _ => none
  | .expanderLinkDown _ => none
  | .expanderLinkTrained _ => none
  | .thermalSample _ _ _ => none
  | .agentGate _ => none
  | .agentSleep _ => none
  | .agentWake _ => none
  | .coldReset _ _ => none
  | .warmReset _ => none
  | .firmwareUpdate _ _ => none
  | .recoveryLoad _ _ => none
  | .partitionOpComplete => none
  | .hostLoadReply _ _ _ => none
  | .fabricAcknowledgement _ _ => none

/-- A unit as the decoder reads it: the instruction, its size in bytes, its word or zero-extended halfword, and the EXT
prefix word in front of it, if any (R29). -/
structure Decoded where
  instr : Instr
  size : Nat
  word : BitVec 32
  pre : Option (BitVec 32)
  deriving DecidableEq, Repr

/-- Why bytes are no unit: too few of them, or no encoding of an instruction (R38, R45). -/
inductive DecodeError where
  | short
  | reserved (size : Nat) (word : BitVec 32) (pre : Option (BitVec 32))
  deriving DecidableEq, Repr

/-- The unit at the head of a list of bytes, low byte first (R28, R29, R36, R38). -/
noncomputable def decode (bytes : List (BitVec 8)) : Except DecodeError Decoded :=
  match bytes with
  | b0 :: b1 :: rest =>
    if b0.extractLsb' 0 1 = 0#1 then
      match decodeHalf (b1 ++ b0) with
      | some i => .ok ⟨i, 2, 0#16 ++ (b1 ++ b0), none⟩
      | none => .error (.reserved 2 (0#16 ++ (b1 ++ b0)) none)
    else
      match rest with
      | b2 :: b3 :: more =>
        let w := b3 ++ (b2 ++ (b1 ++ b0))
        if b0 = 0xFF#8 then
          match more with
          | c0 :: c1 :: c2 :: c3 :: _ =>
            let x := c3 ++ (c2 ++ (c1 ++ c0))
            if c0.extractLsb' 0 1 = 0#1 then .error (.reserved 6 (0#16 ++ (c1 ++ c0)) (some w))
            else
              match decodeWord x with
              | some i => .ok ⟨.extPrefixedUnit (w.extractLsb' 8 24) i, 8, x, some w⟩
              | none => .error (.reserved 8 x (some w))
          | _ => .error .short
        else
          match decodeWord w with
          | some i => .ok ⟨i, 4, w, none⟩
          | none => .error (.reserved 4 w none)
      | _ => .error .short
  | _ => .error .short

/-- `n` bytes of a number, low byte first. -/
def bytesLE (n : Nat) (x : Nat) : List (BitVec 8) :=
  match n with
  | 0 => []
  | k + 1 => BitVec.ofNat 8 x :: bytesLE k (x / 256)

/-- The bytes of an instruction that has an encoding; a prefixed unit is its prefix word and its body's word (R36). -/
def encode : Instr → Option (List (BitVec 8))
  | .extPrefixedUnit payload body =>
    (encodeWord body).map fun w => bytesLE 4 (payload ++ 0xFF#8).toNat ++ bytesLE 4 w.toNat
  | i =>
    match encodeWord i with
    | some w => some (bytesLE 4 w.toNat)
    | none => (encodeHalf i).map fun h => bytesLE 2 h.toNat

/-- The instruction that the decoder reads from an instruction of `nbits` bits `w`, numbered as the opcode table numbers
them, every bit above `nbits` being 0. -/
noncomputable def decodeTableWord (nbits w : Nat) : Option Instr :=
  match decode (bytesLE (nbits / 8) w ++ List.replicate (8 - nbits / 8) 0#8) with
  | .ok d => some d.instr
  | .error _ => none

/-- The register fields of one unit renamed, scalar fields by `fg` and vector fields by `fv` (R123): predicate,
accumulator and decode-table fields and immediates are never renamed. -/
noncomputable def renameFields (fg fv : BitVec 5 → BitVec 5) : Instr → Instr
  | .nop => .nop
  | .br off => .br off
  | .bcc c s1 s2 off => .bcc c (fg s1) (fg s2) off
  | .bp c p off => .bp c p off
  | .call off => .call off
  | .callr d s1 => .callr (fg d) (fg s1)
  | .ret => .ret
  | .jr s1 => .jr (fg s1)
  | .loop ctr off => .loop (fg ctr) off
  | .rep s1 n kind base sz stride => .rep (fg s1) n kind base sz stride
  | .start d s1 off => .start (fg d) (fg s1) off
  | .endCtx => .endCtx
  | .yield => .yield
  | .wait d s1 mask => .wait (fg d) (fg s1) mask
  | .getid d which => .getid (fg d) which
  | .brk code => .brk code
  | .extPrefixedUnit payload body => .extPrefixedUnit payload (renameFields fg fv body)
  | .add d s1 s2 => .add (fg d) (fg s1) (fg s2)
  | .addi d s1 imm => .addi (fg d) (fg s1) imm
  | .sub d s1 s2 => .sub (fg d) (fg s1) (fg s2)
  | .mul d s1 s2 => .mul (fg d) (fg s1) (fg s2)
  | .mulhI64 d s1 s2 => .mulhI64 (fg d) (fg s1) (fg s2)
  | .mulhN64 d s1 s2 => .mulhN64 (fg d) (fg s1) (fg s2)
  | .mulhSu d s1 s2 => .mulhSu (fg d) (fg s1) (fg s2)
  | .divI64 d s1 s2 => .divI64 (fg d) (fg s1) (fg s2)
  | .divN64 d s1 s2 => .divN64 (fg d) (fg s1) (fg s2)
  | .remI64 d s1 s2 => .remI64 (fg d) (fg s1) (fg s2)
  | .remN64 d s1 s2 => .remN64 (fg d) (fg s1) (fg s2)
  | .madd d s1 s2 s3 => .madd (fg d) (fg s1) (fg s2) (fg s3)
  | .msub d s1 s2 s3 => .msub (fg d) (fg s1) (fg s2) (fg s3)
  | .andR d s1 s2 => .andR (fg d) (fg s1) (fg s2)
  | .orR d s1 s2 => .orR (fg d) (fg s1) (fg s2)
  | .xorR d s1 s2 => .xorR (fg d) (fg s1) (fg s2)
  | .andn d s1 s2 => .andn (fg d) (fg s1) (fg s2)
  | .logiAnd d s1 imm => .logiAnd (fg d) (fg s1) imm
  | .logiOr d s1 imm => .logiOr (fg d) (fg s1) imm
  | .logiXor d s1 imm => .logiXor (fg d) (fg s1) imm
  | .logiAndn d s1 imm => .logiAndn (fg d) (fg s1) imm
  | .shl d s1 s2 => .shl (fg d) (fg s1) (fg s2)
  | .shr d s1 s2 => .shr (fg d) (fg s1) (fg s2)
  | .sar d s1 s2 => .sar (fg d) (fg s1) (fg s2)
  | .rotL d s1 s2 => .rotL (fg d) (fg s1) (fg s2)
  | .rotR d s1 s2 => .rotR (fg d) (fg s1) (fg s2)
  | .shiShl d s1 n => .shiShl (fg d) (fg s1) n
  | .shiShr d s1 n => .shiShr (fg d) (fg s1) n
  | .shiSar d s1 n => .shiSar (fg d) (fg s1) n
  | .shiRot d s1 n => .shiRot (fg d) (fg s1) n
  | .minI64 d s1 s2 => .minI64 (fg d) (fg s1) (fg s2)
  | .minN64 d s1 s2 => .minN64 (fg d) (fg s1) (fg s2)
  | .maxI64 d s1 s2 => .maxI64 (fg d) (fg s1) (fg s2)
  | .maxN64 d s1 s2 => .maxN64 (fg d) (fg s1) (fg s2)
  | .cmp d c s1 s2 => .cmp (fg d) c (fg s1) (fg s2)
  | .sel d s1 s2 s3 => .sel (fg d) (fg s1) (fg s2) (fg s3)
  | .ext d s1 t => .ext (fg d) (fg s1) t
  | .bitcPop d s1 => .bitcPop (fg d) (fg s1)
  | .bitcClz d s1 => .bitcClz (fg d) (fg s1)
  | .bitcCtz d s1 => .bitcCtz (fg d) (fg s1)
  | .bitcRev d s1 => .bitcRev (fg d) (fg s1)
  | .bitcBsw d s1 => .bitcBsw (fg d) (fg s1)
  | .bfxN d s1 s2 => .bfxN (fg d) (fg s1) (fg s2)
  | .bfxI d s1 s2 => .bfxI (fg d) (fg s1) (fg s2)
  | .bfi d s1 s2 => .bfi (fg d) (fg s1) (fg s2)
  | .li d imm => .li (fg d) imm
  | .lih d imm => .lih (fg d) imm
  | .lea d s1 s2 sh => .lea (fg d) (fg s1) (fg s2) sh
  | .hdrPack d s1 n => .hdrPack (fg d) (fg s1) n
  | .hdrSplit d s1 n => .hdrSplit (fg d) (fg s1) n
  | .shuf d s1 s2 => .shuf (fg d) (fg s1) (fg s2)
  | .shufKLow d s1 s2 k => .shufKLow (fg d) (fg s1) (fg s2) k
  | .shufKHigh d s1 s2 k => .shufKHigh (fg d) (fg s1) (fg s2) k
  | .addc d s1 s2 s3 => .addc (fg d) (fg s1) (fg s2) (fg s3)
  | .addcCo d s1 s2 s3 => .addcCo (fg d) (fg s1) (fg s2) (fg s3)
  | .vadd d s1 s2 p t m => .vadd (fv d) (fv s1) (fv s2) p t m
  | .vsub d s1 s2 p t m => .vsub (fv d) (fv s1) (fv s2) p t m
  | .vmul d s1 s2 p t m => .vmul (fv d) (fv s1) (fv s2) p t m
  | .vfma d s1 s2 p t m => .vfma (fv d) (fv s1) (fv s2) p t m
  | .vdiv d s1 s2 p t m => .vdiv (fv d) (fv s1) (fv s2) p t m
  | .vsqrt d s1 p t m => .vsqrt (fv d) (fv s1) p t m
  | .vmin d s1 s2 p t => .vmin (fv d) (fv s1) (fv s2) p t
  | .vmax d s1 s2 p t => .vmax (fv d) (fv s1) (fv s2) p t
  | .vunNeg d s1 p t m => .vunNeg (fv d) (fv s1) p t m
  | .vunAbs d s1 p t m => .vunAbs (fv d) (fv s1) p t m
  | .vunRint d s1 p t m => .vunRint (fv d) (fv s1) p t m
  | .vunPopc d s1 p t => .vunPopc (fv d) (fv s1) p t
  | .vunClz d s1 p t => .vunClz (fv d) (fv s1) p t
  | .vlogAnd d s1 p t => .vlogAnd (fv d) (fv s1) p t
  | .vlogOr d s1 p t => .vlogOr (fv d) (fv s1) p t
  | .vlogXor d s1 p t => .vlogXor (fv d) (fv s1) p t
  | .vlogAndn d s1 p t => .vlogAndn (fv d) (fv s1) p t
  | .vlogOrn d s1 p t => .vlogOrn (fv d) (fv s1) p t
  | .vlogNand d s1 p t => .vlogNand (fv d) (fv s1) p t
  | .vlogNor d s1 p t => .vlogNor (fv d) (fv s1) p t
  | .vlogXnor d s1 p t => .vlogXnor (fv d) (fv s1) p t
  | .vlogNot d s1 p t => .vlogNot (fv d) (fv s1) p t
  | .vsh d s1 s2 p t m => .vsh (fv d) (fv s1) (fv s2) p t m
  | .vcmp q c s1 s2 p t => .vcmp q c (fv s1) (fv s2) p t
  | .whilePred q l u s1 s2 t => .whilePred q l u (fg s1) (fg s2) t
  | .vwid d => .vwid (fg d)
  | .plogAnd q s1 s2 g => .plogAnd q s1 s2 g
  | .plogOr q s1 s2 g => .plogOr q s1 s2 g
  | .plogXor q s1 s2 g => .plogXor q s1 s2 g
  | .plogAndn q s1 s2 g => .plogAndn q s1 s2 g
  | .vcvt d s1 srcT p t m => .vcvt (fv d) (fv s1) srcT p t m
  | .vcvtHi d s1 srcT p t m => .vcvtHi (fv d) (fv s1) srcT p t m
  | .vfunExp2 d s1 x p m => .vfunExp2 (fv d) (fv s1) x p m
  | .vfunLog2 d s1 x p m => .vfunLog2 (fv d) (fv s1) x p m
  | .vfunRcp d s1 x p m => .vfunRcp (fv d) (fv s1) x p m
  | .vfunRsq d s1 x p m => .vfunRsq (fv d) (fv s1) x p m
  | .vfunSinpi d s1 x p m => .vfunSinpi (fv d) (fv s1) x p m
  | .vfunCospi d s1 x p m => .vfunCospi (fv d) (fv s1) x p m
  | .vfunTanh d s1 x p m => .vfunTanh (fv d) (fv s1) x p m
  | .vredAdd d s1 p t m => .vredAdd (fv d) (fv s1) p t m
  | .vredMin d s1 p t m => .vredMin (fv d) (fv s1) p t m
  | .vredMax d s1 p t m => .vredMax (fv d) (fv s1) p t m
  | .vredAnd d s1 p t m => .vredAnd (fv d) (fv s1) p t m
  | .vredOr d s1 p t m => .vredOr (fv d) (fv s1) p t m
  | .vredXor d s1 p t m => .vredXor (fv d) (fv s1) p t m
  | .vdot d s1 s2 p t m => .vdot (fv d) (fv s1) (fv s2) p t m
  | .vsel d s1 s2 p t => .vsel (fv d) (fv s1) (fv s2) p t
  | .vperm d s1 s2 p t => .vperm (fv d) (fv s1) (fv s2) p t
  | .vbcast d s1 p t => .vbcast (fv d) (fg s1) p t
  | .vext d s1 s2 t => .vext (fg d) (fv s1) (fg s2) t
  | .vins d s1 s2 t => .vins (fv d) (fg s1) (fg s2) t
  | .vzip d s1 s2 p t => .vzip (fv d) (fv s1) (fv s2) p t
  | .vscanAdd d s1 p t m => .vscanAdd (fv d) (fv s1) p t m
  | .vscanMin d s1 p t m => .vscanMin (fv d) (fv s1) p t m
  | .vscanMax d s1 p t m => .vscanMax (fv d) (fv s1) p t m
  | .vld d s1 s2 p t => .vld (fv d) (fg s1) (fg s2) p t
  | .vst d s1 s2 p t => .vst (fv d) (fg s1) (fg s2) p t
  | .vgath d s1 s2 p t => .vgath (fv d) (fg s1) (fv s2) p t
  | .vscat d s1 s2 p t => .vscat (fv d) (fg s1) (fv s2) p t
  | .vshuf d s1 s2 p t => .vshuf (fv d) (fv s1) (fg s2) p t
  | .vmov d s1 p t => .vmov (fv d) (fv s1) p t
  | .ld d b off z x => .ld (fg d) (fg b) off z x
  | .st d b off z => .st (fg d) (fg b) off z
  | .ldx d s1 s2 f z x => .ldx (fg d) (fg s1) (fg s2) f z x
  | .stx d s1 s2 f z => .stx (fg d) (fg s1) (fg s2) f z
  | .ldfe d b off => .ldfe (fg d) (fg b) off
  | .stfe d b off => .stfe (fg d) (fg b) off
  | .feopSet s1 s2 f => .feopSet (fg s1) (fg s2) f
  | .feopClr s1 s2 f => .feopClr (fg s1) (fg s2) f
  | .feopQry d s1 s2 f => .feopQry (fg d) (fg s1) (fg s2) f
  | .feopLdff d s1 s2 f => .feopLdff (fg d) (fg s1) (fg s2) f
  | .xch d s1 s2 f z x => .xch (fg d) (fg s1) (fg s2) f z x
  | .ldg d b off z x => .ldg (fg d) (fg b) off z x
  | .stg d b off z => .stg (fg d) (fg b) off z
  | .vldg d s1 s2 p t => .vldg (fv d) (fg s1) (fg s2) p t
  | .vstg d s1 s2 p t => .vstg (fv d) (fg s1) (fg s2) p t
  | .prefRd b off => .prefRd (fg b) off
  | .prefOwn b off => .prefOwn (fg b) off
  | .prefSlc b off => .prefSlc (fg b) off
  | .lease d s1 s2 => .lease (fg d) (fg s1) (fg s2)
  | .unlease d s1 => .unlease (fg d) (fg s1)
  | .lstat d s1 => .lstat (fg d) (fg s1)
  | .tcut => .tcut
  | .fence scope => .fence scope
  | .acq scope => .acq scope
  | .rel scope => .rel scope
  | .faAddN64 d s1 s2 scope ord => .faAddN64 (fg d) (fg s1) (fg s2) scope ord
  | .faAndN64 d s1 s2 scope ord => .faAndN64 (fg d) (fg s1) (fg s2) scope ord
  | .faOrN64 d s1 s2 scope ord => .faOrN64 (fg d) (fg s1) (fg s2) scope ord
  | .faXorN64 d s1 s2 scope ord => .faXorN64 (fg d) (fg s1) (fg s2) scope ord
  | .faMinI64 d s1 s2 scope ord => .faMinI64 (fg d) (fg s1) (fg s2) scope ord
  | .faMaxI64 d s1 s2 scope ord => .faMaxI64 (fg d) (fg s1) (fg s2) scope ord
  | .faMinN64 d s1 s2 scope ord => .faMinN64 (fg d) (fg s1) (fg s2) scope ord
  | .faMaxN64 d s1 s2 scope ord => .faMaxN64 (fg d) (fg s1) (fg s2) scope ord
  | .faSwapN64 d s1 s2 scope ord => .faSwapN64 (fg d) (fg s1) (fg s2) scope ord
  | .faCasN64 d s1 s2 scope ord => .faCasN64 (fg d) (fg s1) (fg s2) scope ord
  | .faAddF64 d s1 s2 scope ord => .faAddF64 (fg d) (fg s1) (fg s2) scope ord
  | .faGetN64 d s1 s2 scope ord => .faGetN64 (fg d) (fg s1) (fg s2) scope ord
  | .capGive d s1 s2 => .capGive (fg d) (fg s1) (fg s2)
  | .capClaim d s1 => .capClaim (fg d) (fg s1)
  | .capSeal d s1 => .capSeal (fg d) (fg s1)
  | .capUnseal d s1 => .capUnseal (fg d) (fg s1)
  | .capQry d s1 => .capQry (fg d) (fg s1)
  | .capQryWait d s1 => .capQryWait (fg d) (fg s1)
  | .tcfg mm nn => .tcfg mm nn
  | .trel k => .trel k
  | .dtld d s1 => .dtld d (fg s1)
  | .dtldStd d k => .dtldStd d k
  | .fctx s1 => .fctx (fg s1)
  | .fctxRd d => .fctxRd (fg d)
  | .tldb s2 s1 s3 => .tldb (fg s2) (fg s1) (fg s3)
  | .mma d s1 z => .mma d (fg s1) z
  | .mmaV d s1 v z => .mmaV d (fg s1) (fv v) z
  | .tstcF32 d s2 s1 => .tstcF32 d (fg s2) (fg s1)
  | .tstcBf16 d s2 s1 => .tstcBf16 d (fg s2) (fg s1)
  | .tstcF16 d s2 s1 => .tstcF16 d (fg s2) (fg s1)
  | .tqnt d s1 => .tqnt d (fg s1)
  | .scfg d op rmode => .scfg (fg d) op rmode
  | .stile s1 => .stile (fg s1)
  | .sjoinT d s1 => .sjoinT (fg d) (fg s1)
  | .sjoinR d s1 s2 => .sjoinR (fg d) (fg s1) (fg s2)
  | .chainPost d s1 s2 => .chainPost (fg d) (fg s1) (fg s2)
  | .chainWait d s1 s2 => .chainWait (fg d) (fg s1) (fg s2)
  | .chainPos d => .chainPos (fg d)
  | .binit d s1 s2 scope => .binit (fg d) (fg s1) (fg s2) scope
  | .barv d s1 s2 scope => .barv (fg d) (fg s1) (fg s2) scope
  | .barvX d s1 s2 scope => .barvX (fg d) (fg s1) (fg s2) scope
  | .bwait d s1 s2 scope => .bwait (fg d) (fg s1) (fg s2) scope
  | .btest d s1 s2 scope => .btest (fg d) (fg s1) (fg s2) scope
  | .semi d s1 s2 scope => .semi (fg d) (fg s1) (fg s2) scope
  | .semiSet d s1 s2 scope => .semiSet (fg d) (fg s1) (fg s2) scope
  | .semw d s1 s2 scope => .semw (fg d) (fg s1) (fg s2) scope
  | .semwDec d s1 s2 scope => .semwDec (fg d) (fg s1) (fg s2) scope
  | .qinit d s1 s2 => .qinit (fg d) (fg s1) (fg s2)
  | .enq d s1 s2 => .enq (fg d) (fg s1) (fg s2)
  | .enqB d s1 s2 => .enqB (fg d) (fg s1) (fg s2)
  | .deq d s1 => .deq (fg d) (fg s1)
  | .deqB d s1 s2 => .deqB (fg d) (fg s1) (fg s2)
  | .deqPoll d s1 s2 => .deqPoll (fg d) (fg s1) (fg s2)
  | .send d s1 s2 n => .send (fg d) (fg s1) (fg s2) n
  | .sendRep d s1 s2 n => .sendRep (fg d) (fg s1) (fg s2) n
  | .sendRef d s1 => .sendRef (fg d) (fg s1)
  | .cpy d s1 s2 => .cpy (fg d) (fg s1) (fg s2)
  | .cpyStat d s1 => .cpyStat (fg d) (fg s1)
  | .cpyStatErr d s1 => .cpyStatErr (fg d) (fg s1)
  | .cpyStatWait d s1 s2 => .cpyStatWait (fg d) (fg s1) (fg s2)
  | .gath d s1 s2 => .gath (fg d) (fg s1) (fg s2)
  | .scat d s1 s2 => .scat (fg d) (fg s1) (fg s2)
  | .strmOff d v => .strmOff (fg d) (fv v)
  | .strmIn d v s1 f => .strmIn (fg d) (fv v) (fg s1) f
  | .strmOut d v s1 f => .strmOut (fg d) (fv v) (fg s1) f
  | .strmInD d v s1 f => .strmInD (fg d) (fv v) (fg s1) f
  | .strmOutD d v s1 f => .strmOutD (fg d) (fv v) (fg s1) f
  | .trap s1 n => .trap (fg s1) n
  | .eret s1 => .eret (fg s1)
  | .eretEnd s1 => .eretEnd (fg s1)
  | .parkrd d s1 => .parkrd (fg d) (fg s1)
  | .parkwr s1 s2 => .parkwr (fg s1) (fg s2)
  | .erlog d s1 => .erlog (fg d) (fg s1)
  | .erlogEsc s1 => .erlogEsc (fg s1)
  | .crd d r => .crd (fg d) r
  | .cwr r s1 => .cwr r (fg s1)
  | .tlbiVa s1 s2 scope => .tlbiVa (fg s1) (fg s2) scope
  | .tlbiAsid s2 scope => .tlbiAsid (fg s2) scope
  | .tlbiAll scope => .tlbiAll scope
  | .cBrk code => .cBrk code
  | .cNop => .cNop
  | .cMov d src => .cMov (fg d) (fg src)
  | .cAdd d src => .cAdd (fg d) (fg src)
  | .cSub d src => .cSub (fg d) (fg src)
  | .cAnd d src => .cAnd (fg d) (fg src)
  | .cOr d src => .cOr (fg d) (fg src)
  | .cXor d src => .cXor (fg d) (fg src)
  | .cAddi d imm => .cAddi (fg d) imm
  | .cLi d imm => .cLi (fg d) imm
  | .cShiShl d imm => .cShiShl (fg d) imm
  | .cShiShr d imm => .cShiShr (fg d) imm
  | .cShiSar d imm => .cShiSar (fg d) imm
  | .cLd d b off => .cLd (fg d) (fg b) off
  | .cSt d b off => .cSt (fg d) (fg b) off
  | .cLdg d b off => .cLdg (fg d) (fg b) off
  | .cStg d b off => .cStg (fg d) (fg b) off
  | .cBr off => .cBr off
  | .cBccEq x off => .cBccEq (fg x) off
  | .cBccNe x off => .cBccNe (fg x) off
  | .cRet => .cRet
  | .cJr src => .cJr (fg src)
  | .cCallr src => .cCallr (fg src)
  | .cYield => .cYield
  | .cEnd => .cEnd
  | .cTcut => .cTcut
  | .cVaddF32 d src => .cVaddF32 (fv d) (fv src)
  | .cVmulF32 d src => .cVmulF32 (fv d) (fv src)
  | .cVmov d src => .cVmov (fv d) (fv src)
  | .cVld d src => .cVld (fv d) (fg src)
  | .cVst d src => .cVst (fv d) (fg src)
  | .cBpAny p off => .cBpAny p off
  | .cwrCmode s1 => .cwrCmode (fg s1)
  | .cwrWsp s1 => .cwrWsp (fg s1)
  | .cwrLayout n s1 => .cwrLayout n (fg s1)
  | .cwrSplit s1 => .cwrSplit (fg s1)
  | .cwrVpool s1 => .cwrVpool (fg s1)
  | .cwrClass n s1 => .cwrClass n (fg s1)
  | .cwrVmroot s1 => .cwrVmroot (fg s1)
  | .supervisorWake core => .supervisorWake core
  | .blockedIntervalEnd core ctx => .blockedIntervalEnd core ctx
  | .forfeitEnd core ctx => .forfeitEnd core ctx
  | .normaliserService quad => .normaliserService quad
  | .queueRegisterUnblock core ctx => .queueRegisterUnblock core ctx
  | .waitRelease core ctx => .waitRelease core ctx
  | .waitLimitExpiry core ctx => .waitLimitExpiry core ctx
  | .helperTaken core ctx => .helperTaken core ctx
  | .taskLaneRetire core => .taskLaneRetire core
  | .remoteAccessPerform core ctx => .remoteAccessPerform core ctx
  | .remoteStorePerform core ctx => .remoteStorePerform core ctx
  | .vectorRemoteChecks core ctx => .vectorRemoteChecks core ctx
  | .parkedRequestServe core => .parkedRequestServe core
  | .parkRefusalRetry core ctx => .parkRefusalRetry core ctx
  | .evictionRetryResend core ctx => .evictionRetryResend core ctx
  | .commitGrant core ctx => .commitGrant core ctx
  | .localCommit core ctx => .localCommit core ctx
  | .trumpAdmission part => .trumpAdmission part
  | .homeLineRequest line agent kind => .homeLineRequest line agent kind
  | .probeTimeout line agent => .probeTimeout line agent
  | .leaseGrant core ctx => .leaseGrant core ctx
  | .leaseExpiry core ctx slot => .leaseExpiry core ctx slot
  | .farAtomicPerform core ctx => .farAtomicPerform core ctx
  | .farAtomicReply core ctx answer => .farAtomicReply core ctx answer
  | .capStateChange core turn => .capStateChange core turn
  | .capQryWaitRelease core ctx => .capQryWaitRelease core ctx
  | .matrixRequestStart quad => .matrixRequestStart quad
  | .matrixRequestComplete quad => .matrixRequestComplete quad
  | .mxwdogExpiry quad => .mxwdogExpiry quad
  | .uncorrectableSoftError place job storage => .uncorrectableSoftError place job storage
  | .scanRequestStart quad => .scanRequestStart quad
  | .scanRequestComplete quad => .scanRequestComplete quad
  | .chainPostPerform core ctx => .chainPostPerform core ctx
  | .chainDelivery quad => .chainDelivery quad
  | .chainWaitPerform core ctx => .chainWaitPerform core ctx
  | .barrierArrival core ctx => .barrierArrival core ctx
  | .semaphoreAtHome core ctx => .semaphoreAtHome core ctx
  | .syncWaiterAnswer core ctx answer => .syncWaiterAnswer core ctx answer
  | .wakeListRetry core ctx => .wakeListRetry core ctx
  | .sliceQueueOp core ctx => .sliceQueueOp core ctx
  | .messageArrival dest msg => .messageArrival dest msg
  | .sendReply core ctx turn => .sendReply core ctx turn
  | .granuleRead chan job => .granuleRead chan job
  | .granuleWrite chan job => .granuleWrite chan job
  | .jobEnd chan turn => .jobEnd chan turn
  | .gathScatRow chan job => .gathScatRow chan job
  | .streamStripFill core ctx k => .streamStripFill core ctx k
  | .streamStripWrite core ctx k => .streamStripWrite core ctx k
  | .cpyStatWaitRelease core ctx => .cpyStatWaitRelease core ctx
  | .trapRecordEnqueue core => .trapRecordEnqueue core
  | .pageWalk core va => .pageWalk core va
  | .tlbiComplete core ctx => .tlbiComplete core ctx
  | .pageGrant page write answer => .pageGrant page write answer
  | .pageRevocation wanted => .pageRevocation wanted
  | .malformedDealRemoval queue => .malformedDealRemoval queue
  | .dealPlacement part => .dealPlacement part
  | .launchCompletion tag => .launchCompletion tag
  | .pendingInterruptSend fn vector => .pendingInterruptSend fn vector
  | .preemption part => .preemption part
  | .coreResume tag lane => .coreResume tag lane
  | .budgetPeriodStart => .budgetPeriodStart
  | .trapEntry core ctx => .trapEntry core ctx
  | .lockstepMismatch core code => .lockstepMismatch core code
  | .machineCheck target => .machineCheck target
  | .heartbeatMiss core => .heartbeatMiss core
  | .coreRepair core clean => .coreRepair core clean
  | .quiesce w => .quiesce w
  | .quiesceDone => .quiesceDone
  | .quiesceLimitExpiry => .quiesceLimitExpiry
  | .resume w => .resume w
  | .merge w => .merge w
  | .split w => .split w
  | .treset w => .treset w
  | .tchange w => .tchange w
  | .tchangeDone => .tchangeDone
  | .partRegisterWrite part reg value => .partRegisterWrite part reg value
  | .vfRegisterWrite vf value => .vfRegisterWrite vf value
  | .xpRegisterWrite port value => .xpRegisterWrite port value
  | .podRegisterWrite part value => .podRegisterWrite part value
  | .bclassWrite cls b value => .bclassWrite cls b value
  | .lsclassWrite value => .lsclassWrite value
  | .pwrctlWrite value => .pwrctlWrite value
  | .dpctlWrite die value => .dpctlWrite die value
  | .hubRegisterWrite hubOff value => .hubRegisterWrite hubOff value
  | .doorbellWrite requester vf barOff bytes => .doorbellWrite requester vf barOff bytes
  | .doorbellTrigger vf queue => .doorbellTrigger vf queue
  | .doorbellStatusRead requester vf queue => .doorbellStatusRead requester vf queue
  | .hostPostedWrite requester place bytes => .hostPostedWrite requester place bytes
  | .hostRead requester place len => .hostRead requester place len
  | .ideFailure port requester => .ideFailure port requester
  | .spdmAttestation part nonce => .spdmAttestation part nonce
  | .debugUnlock part nonce signed => .debugUnlock part nonce signed
  | .fabricRequestArrival source seq request => .fabricRequestArrival source seq request
  | .fabricRetransmit seq target => .fabricRetransmit seq target
  | .secondTierTimeout part => .secondTierTimeout part
  | .expanderLinkDown port => .expanderLinkDown port
  | .expanderLinkTrained port => .expanderLinkTrained port
  | .thermalSample junctions averageOver averageUnder => .thermalSample junctions averageOver averageUnder
  | .agentGate agent => .agentGate agent
  | .agentSleep agent => .agentSleep agent
  | .agentWake agent => .agentWake agent
  | .coldReset signatureGood up => .coldReset signatureGood up
  | .warmReset up => .warmReset up
  | .firmwareUpdate image good => .firmwareUpdate image good
  | .recoveryLoad image good => .recoveryLoad image good
  | .partitionOpComplete => .partitionOpComplete
  | .hostLoadReply reader pa value => .hostLoadReply reader pa value
  | .fabricAcknowledgement source upTo => .fabricAcknowledgement source upTo

end Sys2Proof
end

