-- ==== Sys2Proof/Machine/Issue.lean ====
section
/-! DEFINITION. Issue turns: which context issues, the renaming of a repetition, and what a unit is before its meaning (R45, R99 to
R103, R121 to R125, R194). -/

namespace Sys2Proof.Machine

/-- Whether a READY context may issue: a YIELD of it has ended (R113). -/
def Ctx.mayIssue (v : Ctx) (now : Nat) : Bool :=
  v.isReady now && match v.yield with
    | some (til, l) => decide (til ≤ now) || l.isEmpty
    | none => true

/-- A context issues: those that have yielded to it wait for it no more (R113). -/
def noteIssue (s : State) (k x : Nat) : State :=
  s.modCore k fun c => { c with ctxs := c.ctxs.map fun p => (p.1, { p.2 with
    yield := if p.1 = x then none else p.2.yield.map fun y => (y.1, y.2.filter (· != x)) }) }

/-- Whether SupervisorWake() holds for an idle supervisor (R101). -/
def wakeTurn (s : State) (k : Nat) : Bool :=
  let c := s.core k
  (match c.wakeAt with | some t => decide (t ≤ s.tick) | none => false) && (c.ctx 15).life == .idle && !c.trapq.isEmpty && !s.ended k

/-- The supervisor becomes live with the turn that it takes (R101, R102, R435). -/
def liveSupervisor (s : State) (k : Nat) : State :=
  s.modCore k fun c => { (c.setCtx 15 { startCtx (c.ctx 15) (c.svent &&& 0x00FFFFFFFFFFFFFE#64) (c.svws.extractLsb' 0 7) 0 with
    readyAt := s.tick }) with wakeAt := some s.tick }

/-- The contexts in the order of the scan of R100. -/
def scanOrder (last : Nat) : List Nat := (List.range 16).map fun i => (last + 1 + i) % 16

/-- A forfeited turn of a context passes (R103); the last one ends the forfeit at the end of this tick. -/
def passTurn (s : State) (k x : Nat) : State :=
  match (s.ctx k x).life with
  | .forfeit n =>
    if n ≤ 1 then s.block k x .normaliser else s.modCtx k x fun v => { v with life := .forfeit (n - 1) }
  | _ => s

/-- Who issues in this tick, and the state after the turns that pass (R100 to R103). -/
def pickIssuer (s : State) (k : Nat) : State × Option Nat :=
  let c := s.core k
  if c.det then
    let x := (s.tick - c.t0) % 16
    if x = 15 ∧ wakeTurn s k then (liveSupervisor s k, some 15)
    else if (c.ctx x).mayIssue s.tick then (s, some x) else (passTurn s k x, none)
  else if wakeTurn s k then (liveSupervisor s k, some 15)
  else
    let order := scanOrder c.last
    let passed := order.takeWhile fun x => !(c.ctx x).mayIssue s.tick
    let s := passed.foldl (fun s x => passTurn s k x) s
    match order.find? fun x => (c.ctx x).mayIssue s.tick with
    | some x => (s.modCore k fun c => { c with last := x }, some x)
    | none => (s, none)

/-- Whether a core issues at all in this tick: not while it is halted, and in even ticks only at the second thermal stage
(R202, R444, R474, R475). -/
def coreRuns (s : State) (k : Nat) : Bool :=
  let c := s.core k
  !(c.halting.isSome || c.stopped || c.checker || s.hub.removed ||
    (decide (s.hub.stage ≥ 2) && s.tick % 2 == 1))

/-- A core that holds a live context is neither gated nor sleeping (R475). -/
def wakeLive (s : State) (k : Nat) : State :=
  let c := s.core k
  if (c.gated.isSome || c.asleep) && c.ctxs.any fun p => p.2.life != .idle then s.setCore k { c with gated := none, asleep := false } else s

/-- The window of a repetition applied to a field (R121, R123). -/
def renameCode (base sz stride : Nat) (pass : Nat) (q : BitVec 5) : BitVec 5 :=
  if base ≤ q.toNat ∧ q.toNat < base + 2 ^ sz then BitVec.ofNat 5 (base + (q.toNat - base + pass * stride) % 2 ^ sz) else q

/-- The renamings of scalar and vector fields in a pass (R121, R123). -/
def renamings (r : RepState) : (BitVec 5 → BitVec 5) × (BitVec 5 → BitVec 5) :=
  let kind := (r.word.extractLsb' 18 2).toNat
  let f := renameCode (r.word.extractLsb' 8 5).toNat (r.word.extractLsb' 25 3).toNat (r.word.extractLsb' 20 5).toNat r.pass
  (if kind ≥ 2 then f else id, if kind % 2 = 1 then f else id)

/-- Whether a unit may not stand in a repetition (R124). -/
def repForbidden (u : UnitInfo) : Bool :=
  if u.word.getLsbD 0 = false then
    let cop := (u.word.extractLsb' 1 5).toNat
    cop == 0 || (decide (17 ≤ cop) && decide (cop ≤ 24)) || cop == 31
  else
    let major := (u.word.extractLsb' 1 7).toNat
    (decide (1 ≤ major) && decide (major ≤ 0x0F)) || major == 0x7C

/-- Whether a unit may follow an accepted remote store that has not been performed yet (R194). -/
def isPlainStore : Instr → Bool
  | .st _ _ _ _ | .stx _ _ _ _ _ | .vst _ _ _ _ _ | .vscat _ _ _ _ _ | .cSt _ _ _ | .cVst _ _ => true
  | .extPrefixedUnit _ (.st _ _ _ _) | .extPrefixedUnit _ (.vst _ _ _ _ _) | .extPrefixedUnit _ (.vscat _ _ _ _ _) => true
  | _ => false

/-- A unit ready for its meaning, or why it stops before it (R45, R46, R124, R194). A captured unit is fetched and decoded again in each
pass. [DEDUCED, log 72] -/
noncomputable def prepare (s : State) (k x : Nat) : Except (UnitInfo × Stop × State) (Instr × State) :=
  let s := ({ s with cur := (k, x) } : State).modCtx k x fun v => { v with fetched := [] }
  let pc := (s.ctx k x).pc
  let body := match (s.ctx k x).rep with
    | some r => pc != r.addr
    | none => false
  match (fetchUnit pc).run s with
  | .error e => .error (⟨pc, 0, 0#32, none⟩, e, s)
  | .ok (bytes, s) =>
    match decode bytes with
    | .error .short => .error (⟨pc, bytes.length, 0#32, none⟩, .trap { cause := .illegal }, s)
    | .error (.reserved n w p) =>
      .error (⟨pc, n, w, p⟩, .trap { cause := .illegal, detail := if body && repForbidden ⟨pc, n, w, p⟩ then 2#8 else 0#8 }, s)
    | .ok d =>
      let u : UnitInfo := ⟨pc, d.size, d.word, d.pre⟩
      let v := s.ctx k x
      if body && repForbidden u then .error (u, .trap { cause := .illegal, detail := 2#8 }, s)
      else
        let i := match v.rep with
          | some r => if body then renameFields (renamings r).1 (renamings r).2 d.instr else d.instr
          | none => d.instr
        if !i.wf then .error (u, .trap { cause := .illegal }, s)
        else if !v.accepted.isEmpty && !isPlainStore i then .error (u, .wait .accepted, s)
        else .ok (i, s.modCtx k x fun v => { v with unit := u })

end Sys2Proof.Machine
end

