-- ==== Sys2Proof/Machine/Step.lean ====
section
/-! DEFINITION. One step of the package: a core's turn, a happening that is due, or the passing of a tick [DESIGN CHOICE, log 4]; and the
placing of one instruction where the next step fetches it [DESIGN CHOICE, log 3]. -/

namespace Sys2Proof.Machine

/-- Issue a unit of a context: fetch, decode, rename, and its meaning (R29, R99). -/
noncomputable def issue (s : State) (k x : Nat) : Host.Outcome State Fault Refusal :=
  match prepare s k x with
  | .error (u, e, t) => .next (stopUnit t k x u e)
  | .ok (i, t) => exec i t

/-- The turn of a core in this tick (R99 to R103). -/
noncomputable def coreTurn (s : State) (k : Nat) : Host.Outcome State Fault Refusal :=
  let s := { s with turn := k + 1 }
  if coreRuns s k then
    match pickIssuer (wakeLive s k) k with
    | (t, some x) => issue (noteIssue t k x) k x
    | (t, none) => .next t
  else .next s

/-- The next core that has its turn in this tick. [DESIGN CHOICE, log 4] -/
def nextCore (s : State) : Option Nat := (s.cores.find? fun c => s.turn ≤ c.1).map (·.1)

/-- ONE STEP: the cores take their turns in ascending index; then what is due in the tick happens, in the order in which it
became due; then the tick ends [DESIGN CHOICE, log 4]. Once power has been removed only what comes from outside happens (R474). -/
noncomputable def step (s : State) : Host.Outcome State Fault Refusal :=
  match nextCore s with
  | some k => coreTurn s k
  | none =>
    match s.agenda with
    | (d, i) :: rest =>
      if d ≤ 2 * s.tick + 1 then
        if s.hub.removed && !fromOutside i then .next { s with agenda := rest } else exec i { s with agenda := rest }
      else .next { s with tick := s.tick + 1, turn := 0 }
    | [] => if s.hub.removed then .fault .powerRemoved else .next { s with tick := s.tick + 1, turn := 0 }

/-- Where withFetchWord puts the instruction, and the tables that map it: the top table, the table of level 2 with one 1 GiB leaf
that maps virtual address a to physical address a, executable and writable (R399, R400). -/
def fetchAt : Nat := 0x300000
def fetchTop : Nat := 0x100000
def fetchTable : Nat := 0x200000

/-- A launch of one lane on core 0 with the matrix unit and the chain granted (R409). [DESIGN CHOICE, log 3] -/
def fetchLaunch : Launch where
  tag := 1
  part := 0
  queue := 0
  deal := List.replicate 28 0#8 ++ [6#8] ++ List.replicate 99 0#8
  cores := [0]
  retired := []
  saved := []
  savedQuads := []
  ending := none

/-- The state with one instruction stored where context 0 of core 0, READY in this tick and first in its turn, fetches its next
unit [DESIGN CHOICE, log 3]. -/
def State.withFetchWord (s : State) (nbits w : Nat) : State :=
  let m := memWrite (memWrite s.mem fetchTop 8 (fetchTable + 1)) fetchTable 8 0xF
  let m := memPut m fetchAt (toBytes (nbits / 8) w ++ List.replicate (8 - nbits / 8) 0#8)
  let c := s.core 0
  let v := { c.ctx 0 with life := .ready, readyAt := 0, pc := BitVec.ofNat 64 fetchAt, rep := none, accepted := [] }
  let c := { (c.setCtx 0 v) with
    vmroot := 0x100000#64, tlb := [], launch := some 1, det := false, last := 15, wakeAt := none,
    halting := none, stopped := false, checker := false }
  { (((s.setCore 0 c).modQuad 0 fun q => { q with tlb := [] }).modDie 0 fun d => { d with walk := [] }) with
    mem := m, turn := 0, launches := tabSet s.launches 1 fetchLaunch }

end Sys2Proof.Machine
end

