-- ==== Sys2Proof/Safety.lean ====
section
/-! DEFINITION. The terms claims are stated in: when a unit runs, what it reads and writes, how it ends, what it leaves alone, and
which states are sound. -/

namespace Sys2Proof.Machine

/-! ### When a unit runs -/

/-- The issuing context. -/
def State.me (s : State) : Ctx := s.ctx s.cur.1 s.cur.2

/-- The issuing core. -/
def State.mine (s : State) : Core := s.core s.cur.1

/-- A unit of the issuing context runs at once inside a trick: the trick that runs is below its limit (R213). -/
def Runs (s : State) : Prop := s.me.running.units < s.me.limit.toNat

/-- The state with the trick of the issuing context begun (R212). -/
def begun (s : State) : State := s.startTrick s.cur.1 s.cur.2

/-- A unit of the issuing context runs at once outside tricks: no trick is uncommitted and no far atomic is still to be performed
(R214, R235). -/
def Quiet (s : State) : Prop := s.me.settled = true ∧ ∀ e ∈ s.me.farq, e.old.isSome = true

/-- The supervisor context of a core runs no deterministic checks: the launch is not deterministic or the context is 15 (R105). -/
def Timely (s : State) : Prop := s.mine.det = false ∨ s.cur.2 = 15

/-- The next core has its turn in this tick, and a context of it issues, in the state after the turns of the contexts that were passed
over, with the contexts that had yielded to it told (R99 to R103, R113). -/
def Turns (s : State) (k x : Nat) (t : State) : Prop :=
  nextCore s = some k ∧ coreRuns { s with turn := k + 1 } k = true ∧
    ∃ u, pickIssuer (wakeLive { s with turn := k + 1 } k) k = (u, some x) ∧ t = noteIssue u k x

/-- A context begins to fetch: no translation has been used for this unit yet (R407). -/
def fetching (s : State) (k x : Nat) : State := ({ s with cur := (k, x) } : State).modCtx k x fun v => { v with fetched := [] }

/-- The bytes of the next unit of a context are fetched (R28, R48). -/
def Fetches (s : State) (k x : Nat) (bytes : List Byte) (t : State) : Prop :=
  (fetchUnit (s.ctx k x).pc) (fetching s k x) = .ok (bytes, t)

/-- A halfword of the unit was fetched through a translation (R407). -/
def fetchedThrough (s : State) (e : TlbEntry) : State :=
  s.modCtx s.cur.1 s.cur.2 fun v => { v with fetched := if v.fetched.contains e then v.fetched else v.fetched ++ [e] }

/-- A context is READY, and if it has yielded, every context that was READY then has issued or 16 ticks have passed (R98, R113). -/
def MayIssue (s : State) (k x : Nat) : Prop :=
  (s.ctx k x).life = .ready ∧ (s.ctx k x).readyAt ≤ s.tick ∧ ∀ til l, (s.ctx k x).yield = some (til, l) → til ≤ s.tick ∨ l = []

/-! ### What a unit reads and writes -/

/-- Scalar registers read in order, with their values and the state after the reads: queue registers give up an entry. -/
def Reads : List GReg → State → List Word → State → Prop
  | [], s, vs, t => vs = [] ∧ t = s
  | k :: ks, s, vs, t => ∃ a u r, readG k s = .ok (a, u) ∧ vs = a :: r ∧ Reads ks u r t

/-- A scalar register is written. -/
def Writes (k : GReg) (x : Word) (s t : State) : Prop := writeG k x s = .ok ((), t)

/-- Vector registers read in order: streams give up a strip. -/
def VReads : List VReg → State → List Vec → State → Prop
  | [], s, vs, t => vs = [] ∧ t = s
  | k :: ks, s, vs, t => ∃ a u r, readV k s = .ok (a, u) ∧ vs = a :: r ∧ VReads ks u r t

/-- A vector register is written under a predicate. -/
def VWrites (k : VReg) (x : Vec) (p : Pred) (s t : State) : Prop := writeV k x p s = .ok ((), t)

/-- A scalar register code that names the workspace word itself: CMODE does not remap it and no far atomic will write it (R52,
R261). -/
def Plain (s : State) (k : GReg) : Prop := k = 0#5 ∨ (remap s.me.cmode k = none ∧ ∀ e ∈ s.me.farq, e.d ≠ k)

/-- A vector register that no stream is bound to (R156). -/
def Unbound (s : State) (k : VReg) : Prop := tabFind s.me.streams k.toNat = none

/-- The value of a scalar register of the issuing context, unmapped (R130). -/
def State.g (s : State) (k : GReg) : Word := rawG s.mine s.me k

/-- The value of a predicate register of the issuing context (R130, R153). -/
def State.p (s : State) (k : PReg) : Pred := predOf s.mine s.me k

/-- The value of a vector register of the issuing context (R151). -/
def State.v (s : State) (k : VReg) : Vec := tabGet s.me.v k.toNat 0#2048

/-! ### How a unit ends -/

/-- The unit of the context that issued in `s` retires in `t` inside its trick, and the next unit in sequence follows (R82, R109). -/
def retired (s t : State) : State := t.retireUnit s.cur.1 s.cur.2 s.unitOf true none

/-- It retires inside its trick, and control passes to an address. -/
def jumped (s t : State) (pc : Word) : State := t.retireUnit s.cur.1 s.cur.2 s.unitOf true (some pc)

/-- It retires inside its trick, and the context is READY again from a later tick (R97, R142, R158). -/
def paused (s t : State) (til : Nat) : State := (retired s t).block s.cur.1 s.cur.2 (.interval til)

/-- It retires outside tricks. -/
def retiredOut (s t : State) : State := t.retireUnit s.cur.1 s.cur.2 s.unitOf false none

/-- Its request is on its way: it waits, and retires when the reply comes. -/
def waiting (s t : State) (w : Wait) : State := (t.modCtx s.cur.1 s.cur.2 fun v => { v with unit := s.unitOf }).block s.cur.1 s.cur.2 w

/-- Flags are raised in CFLAGS (R83). -/
def raised (s : State) (f : Flags) : State := s.modCtx s.cur.1 s.cur.2 fun v => { v with cflags := v.cflags ||| f.setWidth 64 }

/-- The request that the issuing context awaits the reply of. -/
def requested (s : State) (r : Request) : State := s.modCtx s.cur.1 s.cur.2 fun v => { v with req := some r }

/-- A unit of the context that issued in `s` traps: its trick ends, and it is parked once that has committed; a translation that faults is
charged for its walk (R226, R423, R428). -/
def trapped (s : State) (t : TrapInfo) : State :=
  (if t.cause = .translation then s.payWalk s.cur.1 (s.clsOf s.cur.1) s.mine.vmroot t.addr.toNat else s).trapUnit s.cur.1 s.cur.2 s.unitOf s.me.retire t

/-- The reply to a waiting unit has come, with what it wrote in `u`: the unit retires, and its context is READY from the next tick (R98,
R190). -/
def replied (s : State) (k x : Nat) (u : State) : State := (u.retireUnit k x (s.ctx k x).unit false none).ready k x

/-- The reply of a context's waiting unit writes a register, from a state that the performance left. -/
def ReplyWrites (s : State) (k x : Nat) (d : GReg) (w : Word) (u : State) : Prop := Writes d w { s with cur := (k, x) } u

/-- The unit of the issuing context has sent a request: its context awaits the reply, the event that serves the request is due after the
latency, and memory is as before. -/
def Sent (s t : State) (r : Request) (n : Nat) (ev : Instr) : Prop :=
  (t.ctx s.cur.1 s.cur.2).life = .blocked .reply ∧ (t.ctx s.cur.1 s.cur.2).req = some r ∧ (2 * (s.tick + n), ev) ∈ t.agenda ∧ t.mem = s.mem

/-- A request that finds its class's meter exhausted, or others waiting for it, stays with its context (R424, R427). -/
def meterHeld (s : State) (r : Request) : State :=
  requested (s.modHub fun h => { h with metered := h.metered.filter (· != s.cur) ++ [s.cur] }) r

/-- A home has answered a context's request to an object: the answer is on its way (R346, R352). -/
def Answered (s t : State) (k x : Nat) (sc : Scope) (d : GReg) (w : Word) : Prop :=
  (∃ phase, (t.ctx k x).req = some (.answer d w phase)) ∧ (2 * (s.tick + syncTicks sc false), .syncWaiterAnswer (cid k) (xid x) none) ∈ t.agenda ∧ t.mem = s.mem

/-- The waiting unit of a context has retired, and the context is READY from the next tick (R82, R98). -/
def Retires (s t : State) (k x : Nat) : Prop :=
  (t.ctx k x).life = .ready ∧ (t.ctx k x).readyAt = s.tick + 1 ∧ (t.ctx k x).req = none ∧ (t.ctx k x).retire = (s.ctx k x).retire + 1#64 ∧ t.mem = s.mem

/-- The waiting unit of a context traps at its reply: what it took from queue registers returns to them (R428). -/
def replyTraps (s : State) (k x : Nat) (t : TrapInfo) : State :=
  stopUnit (({ s with cur := (k, x) } : State).unpopHeld k x) k x (s.ctx k x).unit (.trap t)

/-! ### Shapes of instructions -/

/-- An instruction writes a function of one register and retires. -/
def Gives1 (mk : GReg → GReg → Instr) (f : Word → Word) : Prop :=
  ∀ (d s1 : GReg) (s t u : State) (a : Word), Runs s → Reads [s1] (begun s) [a] t → Writes d (f a) t u →
    exec (mk d s1) s = .next (retired s u)

/-- An instruction writes a function of two registers, read in order, and retires. -/
def Gives2 (mk : GReg → GReg → GReg → Instr) (f : Word → Word → Word) : Prop :=
  ∀ (d s1 s2 : GReg) (s t u : State) (a b : Word), Runs s → Reads [s1, s2] (begun s) [a, b] t → Writes d (f a b) t u →
    exec (mk d s1 s2) s = .next (retired s u)

/-- An instruction writes a function of three registers, read in order, and retires. -/
def Gives3 (mk : GReg → GReg → GReg → GReg → Instr) (f : Word → Word → Word → Word) : Prop :=
  ∀ (d s1 s2 s3 : GReg) (s t u : State) (a b c : Word), Runs s → Reads [s1, s2, s3] (begun s) [a, b, c] t →
    Writes d (f a b c) t u → exec (mk d s1 s2 s3) s = .next (retired s u)

/-- An instruction writes a function of one register and its immediate, widened by its prefix if it has one (R37), and retires. -/
def GivesI {n : Nat} (mk : GReg → GReg → BitVec n → Instr) (f : Word → Word → Word) : Prop :=
  ∀ (d s1 : GReg) (imm : BitVec n) (s t u : State) (a : Word), Runs s → Reads [s1] (begun s) [a] t →
    Writes d (f a (immSOf (prefixOf s.unitOf) imm)) t u → exec (mk d s1 imm) s = .next (retired s u)

/-! ### Vector units -/

/-- A vector unit retires. One that the normaliser serves forfeits its context's turns and waits for the end of the service; one with an
interval leaves its context BLOCKED for that many ticks (R85, R158). -/
def vretired (s t : State) (norm : Bool) (extra : Nat) : State :=
  if norm then (retired s t).normalise s.cur.1 s.cur.2 extra
  else if extra = 0 then retired s t
  else paused s t ((retired s t).tick + extra + 1)

/-- The random bits of the elements of the unit that issues (R82). -/
def State.rnd (s : State) : Nat → Nat :=
  rnd32 (match s.launchOf s.cur.1 with | some l => l.word 16 | none => 0#64) s.mine.lane s.cur.2 s.me.retire

/-- An instruction writes, element by element, a value with flags computed from the elements of its sources, which are all read before;
inactive elements keep their value (R154, R158). The flags of the active elements are raised, and it retires. -/
def Elementwise (i : Instr) (d : VReg) (srcs : List VReg) (p : PReg) (w : Nat) (f : State → Nat → List Nat → Nat × Flags)
    (norm : State → List Vec → Bool) (extra : Nat) : Prop :=
  ∀ (s t u : State) (vs : List Vec), Runs s → VReads srcs (begun s) vs t →
    let r := mapActive w (t.p p) (t.v d) fun e => f t e (vs.map (elem · w e))
    VWrites d r.1 (t.p p) t u → exec i s = .next (vretired s (raised u r.2) (norm t vs) extra)

/-- An element-wise instruction that never takes the normaliser and has no interval (R161). -/
def Direct (i : Instr) (d : VReg) (srcs : List VReg) (p : PReg) (t : ElemType) (f : List Nat → Nat × Flags) : Prop :=
  Elementwise i d srcs p t.width (fun _ _ xs => f xs) (fun _ _ => false) 0

/-- An element-wise instruction on an integer type: exact, then brought into the type, saturating where asked to (R76, R159). -/
def OnIntegers (i : Instr) (d : VReg) (srcs : List VReg) (p : PReg) (t : ElemType) (m : BitVec 2) (f : List Int → Int)
    (extra : Nat) : Prop :=
  Elementwise i d srcs p t.width (fun u _ xs => intInto t (vSatOf u.me m) (f (xs.map (intOf t)))) (fun _ _ => false) extra

/-- An element-wise instruction on a floating-point format, rounded in the mode of the unit, through the normaliser when an active operand
is subnormal or an active result is tiny (R79, R85, R159). -/
def OnFloats (i : Instr) (d : VReg) (srcs : List VReg) (p : PReg) (t : ElemType) (m : BitVec 2) (f : FOp) (extra : Nat) : Prop :=
  Elementwise i d srcs p t.width (fun u e xs => f (fmtOf t) (vModeOf u.me m) (u.rnd e) xs)
    (fun u vs => vs.any (anySubnormal (fmtOf t) t.width (u.p p) ·) ||
      anyTiny (fmtOf t) t.width (u.p p) fun e => f (fmtOf t) .rz 0 (vs.map (elem · t.width e))) extra

/-- A vector instruction writes a value to element 0 and zeros elsewhere, whatever the predicate (R174, R175). -/
def VScalar (i : Instr) (d : VReg) (srcs : List VReg) (p : PReg) (w : Nat) (f : State → List Vec → Nat × Flags)
    (norm : State → List Vec → Nat × Flags → Bool) : Prop :=
  ∀ (s t u : State) (vs : List Vec), Runs s → VReads srcs (begun s) vs t →
    let r := f t vs
    VWrites d (pack w [r.1]) (t.p p) t u → exec i s = .next (vretired s (raised u r.2) (norm t vs r) 0)

/-! ### The local store -/

/-- The address `base + imm × scale`, with the unit's prefix (R37, R206). -/
def UnitInfo.ea {n : Nat} (u : UnitInfo) (base : Word) (off : BitVec n) (scale : Nat) : Word :=
  base + immSOf (prefixOf u) off * BitVec.ofNat 64 scale

/-- An address names `n` aligned bytes of the issuing core's own scratchpad, from an offset on (R189). -/
def InOwn (s : State) (ea : Word) (n off : Nat) : Prop :=
  lsFront s.cur.1 ea n false = .ok ⟨s.cur.1, off, false⟩ ∧ off + n ≤ s.mine.S

/-- No trick of another context stored to the words, and for a store none loaded them either (R195). -/
def LoadFree (s : State) (off n : Nat) : Prop := s.mine.touched s.cur.2 (wordsOf off n) [] = false
def StoreFree (s : State) (off n : Nat) : Prop := s.mine.touched s.cur.2 [] (wordsOf off n) = false

/-- The undo log has room for the words of a store, or the trick has no unit yet (R197). -/
def LogRoom (s : State) (off n : Nat) : Prop :=
  s.me.running.units = 0 ∨ s.me.running.undo.length + (wordsOf off n).length ≤ Config.undoWords

/-- The words enter the load set of the running trick. -/
def loaded (s : State) (off n : Nat) : State := s.modCtx s.cur.1 s.cur.2 fun v => { v with
  running := { v.running with loads := v.running.loads ++ (wordsOf off n).filter (!v.running.loads.contains ·) } }

/-- Bytes are stored to the own scratchpad: the words enter the store set, and their old contents the undo log, one entry each (R195,
R197). -/
def stored (s : State) (off n x : Nat) : State :=
  (s.modCtx s.cur.1 s.cur.2 fun v => { v with running := { v.running with
      stores := v.running.stores ++ (wordsOf off n).filter (!v.running.stores.contains ·)
      undo := ((wordsOf off n).map fun w => (w, memWord s.mine.store (8 * w))).reverse ++ v.running.undo } }).modCore s.cur.1 fun c =>
    { c with store := memWrite c.store off n x }

/-- A register that a later reply may write: no far atomic names it, and its queue has room (R52, R261). -/
def Free (s : State) (d : GReg) : Prop :=
  d = 0#5 ∨ (∀ e ∈ s.me.farq, e.d ≠ d) ∧ ∀ i, remap s.me.cmode d = some i → s.mine.queueCount i + 1 ≤ queueDepthOf i

/-- The room that a unit keeps, until its reply, in the queue register that its destination names (R52). -/
def kept (s : State) (d : GReg) : State :=
  match remap s.me.cmode d with
  | some i => s.modCtx s.cur.1 s.cur.2 fun v => { v with reserve := some i }
  | none => s

/-- A request is on its way to a local store, and reaches its owner after the latency (R190). -/
def sending (s : State) (op : RemoteOp) (a : LsAddr) (d : GReg) : State :=
  (requested s (.remote op a.core a.off a.mbox d 0)).post (latency s s.cur.1 a.core) (.remoteAccessPerform (cid s.cur.1) (xid s.cur.2))

/-- A vector access is on its way, as one request to each owner of its elements: the furthest one decides when they have all checked it; with
it go the values to store, or the old value of the destination (R154, R528). -/
def sendingVector (s : State) (store : Bool) (d : VReg) (p : PReg) (t : ElemType) (es : List (Nat × Word)) (data : Vec) : State :=
  (requested s (.vec store d p t (groupElems s.cur.1 es) data)).post (groupsLatency s s.cur.1 (groupElems s.cur.1 es))
    (.vectorRemoteChecks (cid s.cur.1) (xid s.cur.2))

/-- A load of the own scratchpad inside its trick: the value reaches its register. -/
def LoadsOwn (i : Instr) (ks : List GReg) (ea : UnitInfo → List Word → Word) (n : Nat) (sx : Bool) (d : GReg) : Prop :=
  ∀ (s t u : State) (vs : List Word) (o : Nat), Runs s → Reads ks (begun s) vs t → InOwn t (ea s.unitOf vs) n o → LoadFree t o n →
    Writes d (extendLoad n sx (memRead t.mine.store o n)) (loaded t o n) u → exec i s = .next (retired s u)

/-- A load of another core's scratchpad: outside tricks, its request leaves, and the context waits (R189, R193, R278). -/
def LoadsOther (i : Instr) (ks : List GReg) (ea : UnitInfo → List Word → Word) (n : Nat) (sx : Bool) (d : GReg) : Prop :=
  ∀ (s t : State) (vs : List Word) (a : LsAddr), Quiet s → Timely s → Reads ks s vs t → lsFront s.cur.1 (ea s.unitOf vs) n false = .ok a →
    a.core ≠ s.cur.1 → Free t d → exec i s = .next (waiting s (sending (kept t d) (.load n sx) a d) .reply)

/-- A store to the own scratchpad inside its trick; the last register read is the value. -/
def StoresOwn (i : Instr) (ks : List GReg) (ea : UnitInfo → List Word → Word) (n : Nat) : Prop :=
  ∀ (s t : State) (vs : List Word) (o : Nat), Runs s → s.me.accepted = [] → Reads ks (begun s) vs t → InOwn t (ea s.unitOf vs) n o →
    StoreFree t o n → LogRoom t o n → exec i s = .next (retired s (stored t o n ((vs.getLastD 0#64).toNat % 2 ^ (8 * n))))

/-- A store to another core's scratchpad: irrevocable, its request leaves, and the context waits (R189, R193, R278). -/
def StoresOther (i : Instr) (ks : List GReg) (ea : UnitInfo → List Word → Word) (n : Nat) : Prop :=
  ∀ (s t : State) (vs : List Word) (a : LsAddr), Quiet s → Timely s → Reads ks s vs t → lsFront s.cur.1 (ea s.unitOf vs) n false = .ok a →
    a.core ≠ s.cur.1 → exec i s = .next (waiting s (sending t (.store n (BitVec.ofNat 64 ((vs.getLastD 0#64).toNat % 2 ^ (8 * n)))) a 0#5) .reply)

/-- A full/empty unit is performed on the own core, which notes that it wrote the word or its bit in this tick (R201). -/
def performedOwn (s : State) (op : RemoteOp) (off : Nat) : State :=
  let c := (opPerform s.mine op off false).1
  s.setCore s.cur.1 (if op.deposits then noteWrote c s.tick (off / 8) else c)

/-- A full/empty unit: outside tricks. On another core its request leaves; on the own core it waits for the tricks that hold the word,
parks while the bit or the word's queue does not allow it, and else is performed at once (R193, R195, R199, R209, R210). -/
def SyncUnit (i : Instr) (ks : List GReg) (ea : UnitInfo → List Word → Word) (op : List Word → RemoteOp) (win : Bool) (d : GReg) : Prop :=
  ∀ (s t : State) (vs : List Word) (a : LsAddr), Quiet s → Reads ks s vs t → lsFront s.cur.1 (ea s.unitOf vs) 8 win = .ok a → Free t d →
    (a.core ≠ s.cur.1 → exec i s = .next (waiting s (sending (kept t d) (op vs) a d) .reply)) ∧
    (a.core = s.cur.1 → a.off + 8 ≤ t.mine.S →
      let waits := (op vs).waitsFor.isSome && (!opAllowed t.mine (op vs) a.off false || queuedOn t.mine a.off false)
      (opTouches t.mine s.cur.2 (op vs) a.off false = true →
        exec i s = .next (stopUnit s s.cur.1 s.cur.2 s.unitOf (.wait (.touch [] (wordsOf a.off 8))))) ∧
      (opTouches t.mine s.cur.2 (op vs) a.off false = false → waits = true →
        exec i s = .next (waiting s (sending (kept t d) (op vs) a d) .reply)) ∧
      (opTouches t.mine s.cur.2 (op vs) a.off false = false → waits = false →
        ∀ u, Writes d (opPerform t.mine (op vs) a.off false).2 (performedOwn (kept t d) (op vs) a.off) u →
          exec i s = .next (retiredOut s u)))

/-! ### Global memory -/

/-- The running trick has used a translation, and a line is in its read or its write set with its signature (R213, R217, R407). -/
def noted (s : State) (e : TlbEntry) (l : Nat) (write : Bool) : State := s.modCtx s.cur.1 s.cur.2 fun v =>
  let t := v.running
  let t := if t.used.contains e then t else { t with used := t.used ++ [e] }
  { v with running :=
      if write then (if t.wlines.contains l then t else { t with wlines := t.wlines ++ [l], wsig := t.wsig ||| Config.lineSig l })
      else if t.rlines.contains l then t else { t with rlines := t.rlines ++ [l], rsig := t.rsig ||| Config.lineSig l } }

/-- The trick has room for a line: it has no unit yet, or the line is in its sets or they are below the limit, and the signature stays
below its limit (R213); and the L1 portion holds the line for a trick of the core or under a lease already, or has one to displace (R185, R252). -/
def LineRoom (s : State) (l : Nat) (write : Bool) : Prop :=
  let t := s.me.running
  (t.units = 0 ∨
    ((t.rlines.contains l || t.wlines.contains l) = true ∨ t.rlines.length + (t.wlines.filter (!t.rlines.contains ·)).length < Config.specLines) ∧
      sigCount ((if write then t.wsig else t.rsig) ||| Config.lineSig l) ≤ Config.sigLimit) ∧
  ((s.mine.pinned s.tick).contains l = true ∨ (s.mine.pinned s.tick).length < s.mine.l1Lines)

/-- Bytes enter the running trick's stores (R216). -/
def speculated (s : State) (pa n x : Nat) : State := s.modCtx s.cur.1 s.cur.2 fun v => { v with running := { v.running with
  writes := (List.range n).foldl (fun w i => tabSet w (pa + i) ((toBytes n x).getD i 0#8)) v.running.writes } }

/-- A capability request is on its way to the directory of its region (R267, R272). -/
def askingCap (s : State) (o : CapOp) (a : Word) (e : TlbEntry) (d : GReg) : State :=
  (requested s (.cap o (e.pa / 4096) e.bytes a.toNat d none)).post (capLatency s s.cur.1 (e.pa / 4096))
    (if o = .qryWait ∧ paPackage e.pa = s.pkg then .capQryWaitRelease (cid s.cur.1) (xid s.cur.2)
      else .capStateChange (cid s.cur.1) (.own (xid s.cur.2)))

/-- The state of a unit's region has changed, and its status will be 1 (R266). -/
def changed (s : State) (k x : Nat) : State := s.modCtx k x fun v => { v with req := v.req.map fun r => match r with
  | .cap op p n va d _ => .cap op p n va d (some (.value 1#64))
  | r => r }

/-- A capability unit asks the directory of its region for an operation (R267, R272, R274). -/
def AsksCap (i : Instr) (s t u : State) (o : CapOp) (kind : Nat) (d s1 : GReg) : Prop :=
  ∀ (a : Word) (pa : Nat) (e : TlbEntry), Quiet s → Reads [s1] s [a] t → translateU a kind t = .ok ((pa, e), u) → hostResident pa = false →
    Free u d → exec i s = .next (waiting s (askingCap (kept u d) o a e d) .cap)

/-- The entry that an FA unit places in its context's queue (R260). -/
def farEntry (s : State) (op : Nat) (a v c : Word) (ord pod : Bool) (d : GReg) : FarEntry :=
  { op := op, addr := a, v := v, c := c, ord := ord, pod := pod, d := d, unit := s.me.unit, retire := s.me.retire, rep := s.me.rep,
    queue := if d = 0#5 then none else remap s.me.cmode d, seq := s.tick }

/-- An FA unit: an aligned address and room in the queue, and it retires with its entry queued, which leaves for its home when its turn
has come; misaligned, it traps; with 8 entries it waits (R260, R261). -/
def FarUnit (i : Instr) (op : Nat) (d s1 s2 : GReg) (scope : Scope) (ord : Bool) : Prop :=
  ∀ (s t : State) (a v c : Word), s.me.settled = true → Reads [s1, s2, d] s [a, v, c] t →
    (a.toNat % 8 ≠ 0 → exec i s = .next (trapped s { cause := .misaligned, addr := a })) ∧
    (a.toNat % 8 = 0 → Free t d → 8 ≤ t.me.farq.length → exec i s = .next (s.block s.cur.1 s.cur.2 .farFull)) ∧
    (a.toNat % 8 = 0 → Free t d → t.me.farq.length < 8 → exec i s = .next (retiredOut s
      (startFar ((kept t d).modCtx s.cur.1 s.cur.2 fun x =>
        { x with farq := x.farq ++ [farEntry t op a v c ord (scope == .pod) d], reserve := none }) s.cur.1 s.cur.2)))

/-! ### The units of a quad -/

/-- A request joins the queue of the quad's matrix unit: the watchdog counts, and a queue that was empty starts with it (R284, R308). -/
def atMatrix (s : State) (r : MatrixReq) : State :=
  let n := quadOf s.cur.1
  let a := wakeQuad s n
  let b := watchQuad (if (a.quad n).matrix = [] then a.post 0 (.matrixRequestStart (BitVec.ofNat 10 n)) else a) n
  (requested b .atUnit).modQuad n fun q => { q with matrix := q.matrix ++ [{ core := s.cur.1, ctx := s.cur.2, req := r }] }

/-- The same for the scan unit (R316). -/
def atScan (s : State) (r : ScanReq) : State :=
  let n := quadOf s.cur.1
  let a := wakeQuad (watchQuad s n) n
  let b := if (a.quad n).scan = [] then a.post 0 (.scanRequestStart (BitVec.ofNat 10 n)) else a
  (requested b .atUnit).modQuad n fun q => { q with scan := q.scan ++ [{ core := s.cur.1, ctx := s.cur.2, req := r }] }

/-- A request of a metered kind is charged to its launch's class, which is below its allotment (R423, R424). -/
def metered (s : State) (r : MatrixReq) : State :=
  s.charge (s.clsOf s.cur.1) 3 ((matrixTicks s { core := s.cur.1, ctx := s.cur.2, req := r } + 1023) / 1024)

/-- An address names a byte of the issuing core's own local store (R188). -/
def Own (s : State) (a : Word) (off : Nat) : Prop := ∃ m, lsFront s.cur.1 a 1 false = .ok ⟨s.cur.1, off, m⟩

/-! ### Copy channels and streams -/

/-- The words of a block in the own scratchpad, which no trick of another context stored to (R195, R374). -/
def Block (s : State) (a : Word) (bytes : Nat) (ws : List Word) : Prop :=
  ∃ off, Own s a off ∧ a.toNat % 64 = 0 ∧ off + bytes ≤ s.mine.S ∧ LoadFree s off bytes ∧
    ws = (List.range (bytes / 8)).map fun i => memWord s.mine.store (off + 8 * i)

/-- A job is placed at the end of a channel with the next ID, with an edge to every job of the launch whose regions it meets (R372, R373,
R381). -/
def placed (s : State) (ch : Nat) (kind : JobKind) (rd wr : List (Nat × Nat)) : State :=
  let q := s.chan ch
  let after := s.chans.flatMap fun e => (e.2.jobs.filter fun j => s.mine.launch.isSome && j.launch == s.mine.launch && edge j rd wr).map
    fun j => (e.1, j.id)
  let j : Job := { id := q.next, core := s.cur.1, ctx := s.cur.2, launch := s.mine.launch, lane := s.mine.lane, cls := s.clsOf s.cur.1, det := s.mine.det,
                   root := s.mine.vmroot, kind := kind, rd := rd, wr := wr, after := after }
  ((wakeEngine s ch).modChan ch fun q => { q with next := q.next + 1, jobs := q.jobs ++ [j] }).post 1 (match kind with
    | .cpy _ => .granuleRead (BitVec.ofNat 11 ch) q.next
    | .rows _ _ _ => .gathScatRow (BitVec.ofNat 11 ch) q.next)

/-- The regions of a direction among footprint entries (R379). -/
def regions (es : List FpEntry) (write : Bool) : List (Nat × Nat) := (es.filter fun e => e.write == write).map fun e => (e.base, e.size)

/-- A stream is bound to a register, and an input stream begins to fill (R387, R393). -/
def bound (s : State) (k : VReg) (m : Stream) : State :=
  let t := s.modCtx s.cur.1 s.cur.2 fun v => { v with streams := tabSet v.streams k.toNat m }
  if m.out then t else t.post 1 (.streamStripFill (cid s.cur.1) (xid s.cur.2) k)

/-! ### What is left alone -/

/-- Everything but the issuing core is as it was. -/
def OnlyMyCore (s t : State) : Prop :=
  t.mem = s.mem ∧ t.hub = s.hub ∧ t.quads = s.quads ∧ t.groups = s.groups ∧ t.dies = s.dies ∧ t.squeues = s.squeues ∧
    t.chans = s.chans ∧ t.dir = s.dir ∧ t.caps = s.caps ∧ t.launches = s.launches ∧ t.budgets = s.budgets ∧ t.out = s.out ∧
    ∀ j, j ≠ s.cur.1 → t.core j = s.core j

/-- The other contexts of the issuing core are as they were. -/
def OtherContexts (s t : State) : Prop := ∀ y, y ≠ s.cur.2 → t.mine.ctx y = s.mine.ctx y

/-- What a unit that only computes leaves alone when it retires: of the issuing core all but its contexts, its local store and its
queue registers; of the issuing context all but the program counter, the REP state, RetireCount, which advances, the running trick,
the vector registers and CFLAGS; every other context, every other core and the rest of the package. -/
def ComputeFrame (s t : State) : Prop :=
  OnlyMyCore s t ∧ t.cur = s.cur ∧ OtherContexts s t ∧
    t.mine = { s.mine with ctxs := t.mine.ctxs, store := t.mine.store, q := t.mine.q } ∧
    t.me = { s.me with
      pc := t.me.pc, rep := t.me.rep, retire := s.me.retire + 1#64, running := t.me.running, v := t.me.v, cflags := t.me.cflags,
      req := none, hostReplies := [], refusals := 0, reserve := none, tileFree := false }

/-- No byte of the issuing core's local store changes but `n` bytes from an offset on. -/
def StoreFrame (off n : Nat) (s t : State) : Prop :=
  ∀ a, a < off ∨ off + n ≤ a → memGet t.mine.store a = memGet s.mine.store a

/-- What a scalar unit with destination `d` leaves alone when it retires: the vector registers, the flags, and every byte of the local
store, the other registers among them, but its destination's word; with g0 nothing is written. -/
def RegisterFrame (d : GReg) (s t : State) : Prop :=
  ComputeFrame s t ∧ t.me.v = s.me.v ∧ t.me.cflags = s.me.cflags ∧ StoreFrame (regOff s.me d) 8 s t ∧
    (∀ k, k ≠ d → t.g k = s.g k) ∧ (∀ q, t.p q = s.p q) ∧ (d = 0#5 → t.mine.store = s.mine.store)

/-- What a scalar unit whose destination names queue register `i` leaves alone when it retires: the vector registers, the flags and the whole
local store; its result is one more pending entry of its trick (R52, R135). -/
def QueueFrame (i : Nat) (s t : State) : Prop :=
  ComputeFrame s t ∧ t.me.v = s.me.v ∧ t.me.cflags = s.me.cflags ∧ t.mine.store = s.mine.store ∧
    ∃ x, t.me.running.pushes = s.me.running.pushes ++ [(i, x)]

/-- What a unit that has read its operands and computed, in `r`, leaves alone when it retires, its destination `d` being g0, a workspace word or
a queue register with room; the queue registers keep what the reads left. -/
def FrameAfter (d : GReg) (s r t : State) : Prop :=
  (Plain s d → Memory.wf s.mine.store = true →
    RegisterFrame d s t ∧ t.mine.q = r.mine.q ∧ t.me.running.pushes = s.me.running.pushes) ∧
  ∀ i, d ≠ 0#5 → (∀ e ∈ s.me.farq, e.d ≠ d) → remap s.me.cmode d = some i → r.mine.queueCount i + 1 ≤ queueDepthOf i →
    QueueFrame i s t ∧ t.mine.q = r.mine.q

/-- A scalar instruction with a destination and source registers leaves everything else alone, and retires if the room it needs is there. -/
def Frames (i : Instr) (d : GReg) (srcs : List GReg) : Prop :=
  ∀ (s r t : State) (vs : List Word), Runs s → Reads srcs (begun s) vs r → exec i s = .next t → FrameAfter d s r t

/-- What a vector unit with destination `d` leaves alone when it retires: every other vector register, the scalar and predicate registers
with the whole local store, the other contexts and cores, memory and everything else of the package but the normaliser's queue and what
is due; of its own context but the program counter, the REP state, RetireCount, which advances, the running trick, CFLAGS and how the
context waits. -/
def VectorFrame (d : VReg) (s t : State) : Prop :=
  t.mem = s.mem ∧ t.hub = s.hub ∧ t.groups = s.groups ∧ t.dies = s.dies ∧ t.squeues = s.squeues ∧ t.chans = s.chans ∧ t.dir = s.dir ∧
    t.caps = s.caps ∧ t.launches = s.launches ∧ t.budgets = s.budgets ∧ t.out = s.out ∧ t.cur = s.cur ∧
    (∀ q, t.quad q = { s.quad q with norm := (t.quad q).norm }) ∧ (∀ j, j ≠ s.cur.1 → t.core j = s.core j) ∧ OtherContexts s t ∧
    t.mine = { s.mine with ctxs := t.mine.ctxs } ∧ (∀ k, k ≠ d → t.v k = s.v k) ∧
    t.me = { s.me with
      pc := t.me.pc, rep := t.me.rep, retire := s.me.retire + 1#64, running := t.me.running, v := t.me.v, cflags := t.me.cflags,
      life := t.me.life, interval := t.me.interval, normEnd := t.me.normEnd, req := none, hostReplies := [], refusals := 0,
      reserve := none, tileFree := false }

/-- What a global store leaves alone when it retires inside its trick: memory and the directory, the capability states and everything else of the
package but translations, the reads of walks and their charges; of the issuing core all but its translations, its queue registers and its
contexts; of the issuing context but the program counter, the REP state, RetireCount, which advances, and the running trick. -/
def GlobalFrame (s t : State) : Prop :=
  t.mem = s.mem ∧ t.dir = s.dir ∧ t.caps = s.caps ∧ t.hub = s.hub ∧ t.groups = s.groups ∧ t.squeues = s.squeues ∧ t.chans = s.chans ∧
    t.launches = s.launches ∧ t.out = s.out ∧ t.cur = s.cur ∧ (∀ q, t.quad q = { s.quad q with tlb := (t.quad q).tlb }) ∧
    (∀ n, t.die n = { s.die n with walk := (t.die n).walk, walked := (t.die n).walked }) ∧ (∀ j, j ≠ s.cur.1 → t.core j = s.core j) ∧
    OtherContexts s t ∧ t.mine = { s.mine with ctxs := t.mine.ctxs, q := t.mine.q, tlb := t.mine.tlb } ∧
    t.me = { s.me with
      pc := t.me.pc, rep := t.me.rep, retire := s.me.retire + 1#64, running := t.me.running, req := none, hostReplies := [], refusals := 0,
      reserve := none, tileFree := false }

/-- The physical addresses that the stores of elements go to, each translated in the state that the stores before it left (R243). -/
def gStoreAddrs (n : Nat) (y : ElemType) (x : Vec) : List (Nat × Word) → State → List Nat
  | [], _ => []
  | (i, ea) :: es, s =>
    match translateU ea 1 s, gStore ea n (laneOf y (elem x y.width i)) s with
    | .ok ((pa, _), _), .ok (_, u) => pa :: gStoreAddrs n y x es u
    | _, _ => []

/-! ### Sound states -/

/-- Memory is in its canonical form. -/
def State.sound (s : State) : Prop := Memory.wf s.mem = true

end Sys2Proof.Machine
end

