-- ==== Sys2Proof/Certificates/Slice0/Obligations.lean ====
section
/-! DEFINITION. The statements for the provers, each from the numbered rules of the spec that its docstring names. -/

open Sys2Proof Sys2Proof.Machine

/-- R144, R149, R150: the scalar instructions write the value the rule gives, whatever the registers are (g0, a workspace word or a queue
register), and retire: those on two registers; CMP by its condition, LEA by its shift, those on three registers and on one; the compact
forms, whose destination is their first source (R42, R43); those with an immediate; LI writes it, LIH puts its low half above the low half of
its destination, which CMODE must not remap (R138). -/
def Obligations.ScalarArithmetic : Prop :=
  ((Gives2 .add (fun a b => a + b) ∧ Gives2 .sub (fun a b => a - b) ∧ Gives2 .mul (fun a b => a * b) ∧
  Gives2 .mulhI64 (fun a b => BitVec.ofInt 64 (a.toInt * b.toInt / 2 ^ 64)) ∧
  Gives2 .mulhN64 (fun a b => BitVec.ofInt 64 (a.toNat * b.toNat / 2 ^ 64)) ∧
  Gives2 .mulhSu (fun a b => BitVec.ofInt 64 (a.toInt * b.toNat / 2 ^ 64)) ∧
  Gives2 .andR (fun a b => a &&& b) ∧ Gives2 .orR (fun a b => a ||| b) ∧ Gives2 .xorR (fun a b => a ^^^ b) ∧
  Gives2 .andn (fun a b => a &&& ~~~b) ∧
  Gives2 .shl (fun a b => a <<< (b.toNat % 64)) ∧ Gives2 .shr (fun a b => a >>> (b.toNat % 64)) ∧
  Gives2 .sar (fun a b => a.sshiftRight (b.toNat % 64)) ∧
  Gives2 .rotL (fun a b => a.rotateLeft (b.toNat % 64)) ∧ Gives2 .rotR (fun a b => a.rotateRight (b.toNat % 64)) ∧
  Gives2 .minI64 (fun a b => if b.toInt < a.toInt then b else a) ∧ Gives2 .maxI64 (fun a b => if a.toInt < b.toInt then b else a) ∧
  Gives2 .minN64 (fun a b => if b.toNat < a.toNat then b else a) ∧ Gives2 .maxN64 (fun a b => if a.toNat < b.toNat then b else a)) ∧
  (∀ c, Gives2 (fun d s1 s2 => .cmp d c s1 s2) fun a b => if condTrue c a b then 1#64 else 0#64) ∧
  (∀ sh : BitVec 4, Gives2 (fun d s1 s2 => .lea d s1 s2 sh) fun a b => a + b <<< sh.toNat) ∧
  Gives3 .madd (fun a b c => c + a * b) ∧ Gives3 .msub (fun a b c => c - a * b) ∧
  Gives3 .sel (fun a b c => if c ≠ 0#64 then a else b) ∧
  Gives3 .addc (fun a b c => BitVec.ofNat 64 (a.toNat + b.toNat + c.toNat % 2)) ∧
  Gives3 .addcCo (fun a b c => BitVec.ofNat 64 ((a.toNat + b.toNat + c.toNat % 2) / 2 ^ 64)) ∧
  (∀ n : BitVec 6, Gives1 (fun d s1 => .shiShl d s1 n) fun a => a <<< n.toNat) ∧
  (∀ n : BitVec 6, Gives1 (fun d s1 => .shiShr d s1 n) fun a => a >>> n.toNat) ∧
  (∀ n : BitVec 6, Gives1 (fun d s1 => .shiSar d s1 n) fun a => a.sshiftRight n.toNat) ∧
  (∀ n : BitVec 6, Gives1 (fun d s1 => .shiRot d s1 n) fun a => a.rotateLeft n.toNat) ∧
  (∀ t : BitVec 5, Gives1 (fun d s1 => .ext d s1 t) (extend t)) ∧
  Gives1 .bitcPop (fun a => BitVec.ofNat 64 (ones 64 a.toNat)) ∧ Gives1 .bitcClz (fun a => BitVec.ofNat 64 (leadingZeros 64 a.toNat)) ∧
  Gives1 .bitcCtz (fun a => BitVec.ofNat 64 (trailingZeros 64 a.toNat)) ∧ Gives1 .bitcRev (fun a => BitVec.ofNat 64 (bitReverse 64 a.toNat)) ∧
  Gives1 .bitcBsw byteSwap ∧
  Gives2 .bfxN (fieldOut false) ∧ Gives2 .bfxI (fieldOut true) ∧ Gives2 .shuf (fun a b => shuf64 b a) ∧
  (∀ k : BitVec 5, Gives2 (fun d s1 s2 => .shufKLow d s1 s2 k) fun a b => shufK b a (k.toNat + 8)) ∧
  (∀ k : BitVec 5, Gives2 (fun d s1 s2 => .shufKHigh d s1 s2 k) fun a b => shufK b a (k.toNat + 40)) ∧
  Gives1 .cMov (fun a => a) ∧
  (∀ (d s1 : GReg) (s t : State) (a b : Word), Runs s → Reads [d, s1] (begun s) [a, b] t → ∀ u,
    (Writes d (a + b) t u → exec (.cAdd d s1) s = .next (retired s u)) ∧ (Writes d (a - b) t u → exec (.cSub d s1) s = .next (retired s u)) ∧
    (Writes d (a &&& b) t u → exec (.cAnd d s1) s = .next (retired s u)) ∧ (Writes d (a ||| b) t u → exec (.cOr d s1) s = .next (retired s u)) ∧
    (Writes d (a ^^^ b) t u → exec (.cXor d s1) s = .next (retired s u))) ∧
  ∀ (d : GReg) (n : BitVec 5) (s t u : State) (a : Word), Runs s →
    (Writes d (n.signExtend 64) (begun s) u → exec (.cLi d n) s = .next (retired s u)) ∧
    (Reads [d] (begun s) [a] t →
      (s.unitOf.pre = none → Writes d (a + n.signExtend 64) t u → exec (.cAddi d n) s = .next (retired s u)) ∧
      (Writes d (a <<< n.toNat) t u → exec (.cShiShl d n) s = .next (retired s u)) ∧
      (Writes d (a >>> n.toNat) t u → exec (.cShiShr d n) s = .next (retired s u)) ∧
      (Writes d (a.sshiftRight n.toNat) t u → exec (.cShiSar d n) s = .next (retired s u)))) ∧
  GivesI .addi (fun a i => a + i) ∧ GivesI .logiAnd (fun a i => a &&& i) ∧ GivesI .logiOr (fun a i => a ||| i) ∧
  GivesI .logiXor (fun a i => a ^^^ i) ∧ GivesI .logiAndn (fun a i => a &&& ~~~i) ∧
  (∀ (d : GReg) (imm : BitVec 19) (s u : State), Runs s → Writes d (immSOf (prefixOf s.unitOf) imm) (begun s) u →
    exec (.li d imm) s = .next (retired s u)) ∧
  (∀ (d : GReg) (imm : BitVec 19) (s u : State), Runs s → Plain (begun s) d →
    Writes d ((immSOf (prefixOf s.unitOf) imm).setWidth 32 ++ ((begun s).g d).setWidth 32 : Word) (begun s) u →
    exec (.lih d imm) s = .next (retired s u)) ∧
  (∀ (d s1 s2 : GReg) (s t u : State) (a b : Word), Runs s → remap s.me.cmode d = none → Reads [s1, s2] (begun s) [a, b] t →
    Plain t d → Writes d (fieldIn (t.g d) a b) t u → exec (.bfi d s1 s2) s = .next (retired s u)) ∧
  ∀ (d s1 s2 : GReg) (imm : BitVec 19) (s : State), Runs s → (remap s.me.cmode d).isSome = true → d ≠ 0#5 →
    exec (.lih d imm) s = .next (trapped s { cause := .illegal }) ∧ exec (.bfi d s1 s2) s = .next (trapped s { cause := .illegal })

/-- R145: DIV and REM, signed and unsigned: truncation toward zero, the two special cases, and the remainder's sign. The context is BLOCKED for
the 34 ticks after the tick of issue (R142). -/
def Obligations.ScalarDivision : Prop :=
  ∀ (sg : Bool) (d s1 s2 : GReg) (s t u : State) (a b : Word), Runs s → Reads [s1, s2] (begun s) [a, b] t →
    let x : Int := if sg then a.toInt else a.toNat
    let y : Int := if sg then b.toInt else b.toNat
    let q : Int := if y = 0 then 0 else if sg ∧ x = -2 ^ 63 ∧ y = -1 then -2 ^ 63 else x.tdiv y
    let m : Int := if y = 0 then x else if sg ∧ x = -2 ^ 63 ∧ y = -1 then 0 else x - q * y
    (Writes d (BitVec.ofInt 64 q) t u → exec (if sg then .divI64 d s1 s2 else .divN64 d s1 s2) s = .next (paused s u (s.tick + 35))) ∧
    (Writes d (BitVec.ofInt 64 m) t u → exec (if sg then .remI64 d s1 s2 else .remN64 d s1 s2) s = .next (paused s u (s.tick + 35))) ∧
    (m = 0 ∨ (0 < m ↔ 0 < x))

/-- R141, R147: HDR.pack and HDR.split move fields by the layout registers of the core, in ascending order of the fields: a field of a width has its
register read or written, an absent one has not, and after the last field the word stands as it is. A field's position is in the low 6 bits of
its 16, its width in the next 7. -/
def Obligations.HeaderFields : Prop :=
  (∀ (d s1 : GReg) (n : BitVec 4) (s t u : State) (x : Word), Runs s →
    hdrPackFrom (begun s).mine s1 n.toNat 8 0 0#64 (begun s) = .ok (x, t) → Writes d x t u → exec (.hdrPack d s1 n) s = .next (retired s u)) ∧
  (∀ (d s1 : GReg) (n : BitVec 4) (s t u : State) (x : Word), Runs s → Reads [s1] (begun s) [x] t →
    hdrSplitFrom t.mine d n.toNat x 8 0 t = .ok ((), u) → exec (.hdrSplit d s1 n) s = .next (retired s u)) ∧
  (∀ (c : Core) (s1 d : GReg) (n i r : Nat) (x : Word) (s : State), hdrPackFrom c s1 n 0 i x s = .ok (x, s) ∧ hdrSplitFrom c d n x 0 i s = .ok ((), s) ∧
    ((layoutField c n i).2 = 0 →
      hdrPackFrom c s1 n (r + 1) i x s = hdrPackFrom c s1 n r (i + 1) x s ∧ hdrSplitFrom c d n x (r + 1) i s = hdrSplitFrom c d n x r (i + 1) s)) ∧
  (∀ (c : Core) (n j : Nat) (r : Word), n < 16 → j < 4 →
    (tabGet c.layout (2 * n) 0#64 = r → layoutField c n j = ((r.extractLsb' (16 * j) 6).toNat, (r.extractLsb' (16 * j + 6) 7).toNat)) ∧
    (tabGet c.layout (2 * n + 1) 0#64 = r → layoutField c n (j + 4) = ((r.extractLsb' (16 * j) 6).toNat, (r.extractLsb' (16 * j + 6) 7).toNat))) ∧
  ∀ (c : Core) (s1 d : GReg) (n i r : Nat) (x a : Word) (s t u : State), (layoutField c n i).2 ≠ 0 →
    (Reads [s1 + BitVec.ofNat 5 i] s [a] t →
      hdrPackFrom c s1 n (r + 1) i x s = hdrPackFrom c s1 n r (i + 1)
        ((x &&& ~~~(BitVec.ofNat 64 ((2 ^ (layoutField c n i).2 - 1) * 2 ^ (layoutField c n i).1))) |||
          BitVec.ofNat 64 (a.toNat % 2 ^ (layoutField c n i).2 * 2 ^ (layoutField c n i).1)) t) ∧
    (Writes (d + BitVec.ofNat 5 i) (BitVec.ofNat 64 (x.toNat / 2 ^ (layoutField c n i).1 % 2 ^ (layoutField c n i).2)) s u →
      hdrSplitFrom c d n x (r + 1) i s = hdrSplitFrom c d n x r (i + 1) u)

/-- R52, R130, R135, R136, R261: what ReadG gives. g0 reads as 0; a register that CMODE does not remap reads its workspace word; one that it
remaps gives the oldest visible entry of its queue register and takes it away; with none, or while a far atomic will still write the register,
the unit does not retire. CMODE.MBX remaps g24 to g27 to the mailbox registers, CMODE.QRX g28 to g31 to the queue registers, and nothing else is
remapped (R50, R51); a queue register holds 8 entries and a mailbox register 1. The model's choice: a register's word reads as what was stored
last, whoever stored it [log 12]. -/
def Obligations.ScalarReads : Prop :=
  (∀ (s : State) (k : GReg), readG 0#5 s = .ok (0#64, s) ∧
    (k ≠ 0#5 → Plain s k → readG k s = .ok (memWord s.mine.store (s.me.wsp + 8 * k.toNat), s)) ∧
    (k ≠ 0#5 → (∃ e ∈ s.me.farq, e.d = k) → readG k s = .error (.stall (.farReg k.toNat))) ∧
    ∀ i, k ≠ 0#5 → (∀ e ∈ s.me.farq, e.d ≠ k) → remap s.me.cmode k = some i →
      (tabGet s.mine.q i [] = [] → readG k s = .error (.wait (.queueReg [i] []))) ∧
      ∀ w rest, tabGet s.mine.q i [] = w :: rest → ∃ t, readG k s = .ok (w, t) ∧ tabGet t.mine.q i [] = rest ∧
        t.me.running.pops = (i, w) :: s.me.running.pops ∧ t.mine.store = s.mine.store ∧ t.mem = s.mem) ∧
  ∀ (m : Word) (k : GReg), (k.toNat < 24 → remap m k = none) ∧
    (24 ≤ k.toNat → k.toNat ≤ 27 → remap m k = if m.getLsbD 4 then some (k.toNat - 20) else none) ∧
    (28 ≤ k.toNat → remap m k = if m.getLsbD 5 then some (k.toNat - 28) else none) ∧
    (∀ i, i < 4 → queueDepthOf i = 8) ∧ ∀ i, 4 ≤ i → i < 8 → queueDepthOf i = 1

/-- R52, R130, R135, R153: what WriteG does. g0 discards; a register that CMODE does not remap takes the value and no other register, predicate
or byte outside its word changes; one that it remaps takes the value as a pending entry if its queue has room or a place is kept for the unit,
else the unit waits. p0 reads all-true and ignores writes; another predicate takes what is written, and no other predicate and no scalar register
changes. The model's choice: a register's word is a word of the local store and nothing else [log 12]. -/
def Obligations.RegisterWrites : Prop :=
  (∀ (s : State) (k : GReg) (x : Word), writeG 0#5 x s = .ok ((), s) ∧
    (k ≠ 0#5 → Plain s k → Memory.wf s.mine.store = true → ∃ t, writeG k x s = .ok ((), t) ∧ t.g k = x ∧ (∀ j, j ≠ k → t.g j = s.g j) ∧
      (∀ q, t.p q = s.p q) ∧ t.me = s.me ∧ StoreFrame (s.me.wsp + 8 * k.toNat) 8 s t ∧ t.mem = s.mem) ∧
    ∀ i, k ≠ 0#5 → (∀ e ∈ s.me.farq, e.d ≠ k) → remap s.me.cmode k = some i →
      (s.me.reserve = some i ∨ s.mine.queueCount i + 1 ≤ queueDepthOf i → ∃ t, writeG k x s = .ok ((), t) ∧
        t.me.running.pushes = s.me.running.pushes ++ [(i, x)] ∧ t.mine.q = s.mine.q ∧ t.mine.store = s.mine.store ∧ t.mem = s.mem) ∧
      (s.me.reserve ≠ some i → queueDepthOf i < s.mine.queueCount i + 1 → writeG k x s = .error (.wait (.queueReg [] [i])))) ∧
  ∀ (s : State) (q : PReg) (x : Pred), Memory.wf s.mine.store = true → ∃ t, writeP q x s = .ok ((), t) ∧ s.p 0#3 = BitVec.allOnes 256 ∧
    (q ≠ 0#3 → t.p q = x) ∧ (∀ r, r ≠ q → t.p r = s.p r) ∧ (∀ k, t.g k = s.g k) ∧ (q = 0#3 → t.mine.store = s.mine.store)

/-- R52, R97, R144 to R150: what the scalar units leave alone, whatever their sources are: those on two registers, on three, on one, with an
immediate, the compact forms, LI and VWID, with any destination; BFI and LIH, which CMODE must not remap (R138); HDR.pack; HDR.split, which writes
one register for each field of its layout; DIV and REM, whose context is BLOCKED after them. -/
def Obligations.ScalarFrame : Prop :=
  ((∀ d s1 s2 s3 : GReg,
    (∀ mk ∈ [Instr.add, .sub, .mul, .mulhI64, .mulhN64, .mulhSu, .andR, .orR, .xorR, .andn, .shl, .shr, .sar, .rotL, .rotR, .minI64, .minN64,
      .maxI64, .maxN64, .bfxN, .bfxI, .shuf], Frames (mk d s1 s2) d [s1, s2]) ∧
    (∀ c, Frames (.cmp d c s1 s2) d [s1, s2]) ∧ (∀ sh, Frames (.lea d s1 s2 sh) d [s1, s2]) ∧
    (∀ k, Frames (.shufKLow d s1 s2 k) d [s1, s2] ∧ Frames (.shufKHigh d s1 s2 k) d [s1, s2]) ∧
    (∀ mk ∈ [Instr.madd, .msub, .sel, .addc, .addcCo], Frames (mk d s1 s2 s3) d [s1, s2, s3]) ∧
    (∀ mk ∈ [Instr.bitcPop, .bitcClz, .bitcCtz, .bitcRev, .bitcBsw], Frames (mk d s1) d [s1]) ∧ (∀ t, Frames (.ext d s1 t) d [s1]) ∧
    (∀ mk ∈ [Instr.shiShl, .shiShr, .shiSar, .shiRot], ∀ n, Frames (mk d s1 n) d [s1]) ∧
    (∀ imm, Frames (.addi d s1 imm) d [s1]) ∧
    (∀ mk ∈ [Instr.logiAnd, .logiOr, .logiXor, .logiAndn], ∀ imm, Frames (mk d s1 imm) d [s1]) ∧
    (∀ imm, Frames (.li d imm) d []) ∧ Frames (.vwid d) d []) ∧
  ∀ d s1 : GReg, Frames (.cMov d s1) d [s1] ∧ (∀ mk ∈ [Instr.cAdd, .cSub, .cAnd, .cOr, .cXor], Frames (mk d s1) d [d, s1]) ∧
    (∀ mk ∈ [Instr.cAddi, .cShiShl, .cShiShr, .cShiSar], ∀ n, Frames (mk d n) d [d]) ∧ ∀ n, Frames (.cLi d n) d []) ∧
  (∀ (d s1 s2 : GReg) (s r t : State) (vs : List Word), Runs s → Plain s d → Reads [s1, s2] (begun s) vs r → exec (.bfi d s1 s2) s = .next t →
    FrameAfter d s r t) ∧
  (∀ (d : GReg) (imm : BitVec 19) (s t : State), Runs s → Plain s d → exec (.lih d imm) s = .next t → FrameAfter d s (begun s) t) ∧
  (∀ (d s1 : GReg) (n : BitVec 4) (s r t : State) (x : Word), Runs s →
    hdrPackFrom (begun s).mine s1 n.toNat 8 0 0#64 (begun s) = .ok (x, r) → exec (.hdrPack d s1 n) s = .next t → FrameAfter d s r t) ∧
  (∀ (d s1 : GReg) (n : BitVec 4) (s r u t : State) (x : Word), Runs s → Reads [s1] (begun s) [x] r →
    hdrSplitFrom r.mine d n.toNat x 8 0 r = .ok ((), u) → Memory.wf s.mine.store = true → exec (.hdrSplit d s1 n) s = .next t →
    let fields := (List.range 8).filter fun i => (layoutField s.mine n.toNat i).2 ≠ 0
    ComputeFrame s t ∧ t.me.v = s.me.v ∧ t.me.cflags = s.me.cflags ∧ (∀ q, t.p q = s.p q) ∧ t.mine.q = r.mine.q ∧
      (∀ k, (∀ i ∈ fields, k ≠ d + BitVec.ofNat 5 i) → t.g k = s.g k) ∧
      ∀ a, (∀ i ∈ fields, a < regOff s.me (d + BitVec.ofNat 5 i) ∨ regOff s.me (d + BitVec.ofNat 5 i) + 8 ≤ a) →
        memGet t.mine.store a = memGet s.mine.store a) ∧
  ∀ (d s1 s2 : GReg) (s r u : State) (a b x : Word), Runs s → Reads [s1, s2] (begun s) [a, b] r → Writes d x r u →
    ∀ mk ∈ [Instr.divI64, .divN64, .remI64, .remN64], ∀ t, exec (mk d s1 s2) s = .next t →
      ∃ v, t = v.block s.cur.1 s.cur.2 (.interval (s.tick + 35)) ∧ FrameAfter d s r v

/-- R35, R111, R112, R115, R117 to R120, R43: NOP, branches, calls, jumps, conditional branches and LOOP, with their compact forms. Targets
count halfwords from the unit's own address; a link is the address of the unit that follows; an odd target traps at the jump with nothing written
(R48), and the record's ADDR word (R431) is that target, which is the model's choice [log 51]. -/
def Obligations.ControlTransfers : Prop :=
  ((∀ (s : State), Runs s → exec .nop s = .next (retired s (begun s)) ∧ exec .cNop s = .next (retired s (begun s)) ∧
    (∀ off, exec (.br off) s = .next (jumped s (begun s) (s.unitOf.addr + 2#64 * immSOf (prefixOf s.unitOf) off))) ∧
    (∀ off, exec (.cBr off) s = .next (jumped s (begun s) (s.unitOf.addr + 2#64 * immSOf (prefixOf s.unitOf) off))) ∧
    (∀ off u, Writes 1#5 (s.unitOf.addr + BitVec.ofNat 64 s.unitOf.size) (begun s) u →
      exec (.call off) s = .next (jumped s u (s.unitOf.addr + 2#64 * immSOf (prefixOf s.unitOf) off))) ∧
    (∀ s1 t a, Reads [s1] (begun s) [a] t → a.getLsbD 0 = false →
      exec (.jr s1) s = .next (jumped s t a) ∧ exec (.cJr s1) s = .next (jumped s t a) ∧
      (s1 = 1#5 → exec .ret s = .next (jumped s t a) ∧ exec .cRet s = .next (jumped s t a)) ∧
      (∀ d u, Writes d (s.unitOf.addr + BitVec.ofNat 64 s.unitOf.size) t u →
        exec (.callr d s1) s = .next (jumped s u a) ∧ (d = 1#5 → exec (.cCallr s1) s = .next (jumped s u a)))) ∧
    (∀ s1 t a d, Reads [s1] (begun s) [a] t → a.getLsbD 0 = true →
      let i : TrapInfo := { cause := .misalignedTarget, addr := a }
      exec (.jr s1) s = .next (trapped s i) ∧ exec (.cJr s1) s = .next (trapped s i) ∧ exec (.callr d s1) s = .next (trapped s i) ∧
        exec (.cCallr s1) s = .next (trapped s i) ∧ (s1 = 1#5 → exec .ret s = .next (trapped s i) ∧ exec .cRet s = .next (trapped s i))))) ∧
  (∀ (s t : State), Runs s →
    (∀ c s1 s2 off a b, Reads [s1, s2] (begun s) [a, b] t → exec (.bcc c s1 s2 off) s = .next
      (if condTrue c a b then jumped s t (targetOf s.unitOf off) else retired s t)) ∧
    (∀ x off a, Reads [x] (begun s) [a] t →
      exec (.cBccEq x off) s = .next (if a = 0#64 then jumped s t (targetOf s.unitOf off) else retired s t) ∧
      exec (.cBccNe x off) s = .next (if a ≠ 0#64 then jumped s t (targetOf s.unitOf off) else retired s t)) ∧
    (∀ p off, exec (.bp .any p off) s = .next (if s.p p ≠ 0#256 then jumped s (begun s) (targetOf s.unitOf off) else retired s (begun s))) ∧
    (∀ p off, exec (.bp .all p off) s = .next
      (if s.p p = BitVec.allOnes 256 then jumped s (begun s) (targetOf s.unitOf off) else retired s (begun s))) ∧
    (∀ p off, exec (.bp .none p off) s = .next (if s.p p = 0#256 then jumped s (begun s) (targetOf s.unitOf off) else retired s (begun s))) ∧
    (∀ p off, exec (.cBpAny p off) s = .next (if s.p p ≠ 0#256 then jumped s (begun s) (targetOf s.unitOf off) else retired s (begun s))) ∧
    (∀ ctr off n u, Reads [ctr] (begun s) [n] t → Writes ctr (n - 1#64) t u →
      exec (.loop ctr off) s = .next (if n ≠ 1#64 then jumped s u (targetOf s.unitOf off) else retired s u))) ∧
  ∀ a b : Word, condTrue .eq a b = decide (a = b) ∧ condTrue .ne a b = decide (a ≠ b) ∧ condTrue .lt a b = decide (a.toInt < b.toInt) ∧
    condTrue .ge a b = decide (b.toInt ≤ a.toInt) ∧ condTrue .ltn a b = decide (a.toNat < b.toNat) ∧ condTrue .gen a b = decide (b.toNat ≤ a.toNat)

/-- R36 to R38, R109, R121, R123: REP reads its count once: above 4,096 it traps, 0 passes over the captured units, and any other count begins pass 0
with the passes still to run after it. What follows a unit that retires in sequence: outside a repetition, and at the REP itself, the unit
after it; in the body the next captured unit, or the first one of the next pass, or the unit after the body with the repetition over. The units passed over have 2, 4, 6
or 8 bytes (R28). A prefixed unit does what its body does, its immediate or its modifiers widened by the payload, where the prefix may stand
before the body: before those with an offset or an immediate, whatever the payload; before those of format V with modifiers that they have; else it
traps. That VRED and VSCAN have the modifiers of their class in every form is the model's choice [log 35]. -/
def Obligations.Repetition : Prop :=
  ((∀ (s t : State) (s1 : GReg) (n : BitVec 4) (kind : RepKind) (base : BitVec 5) (sz : BitVec 3) (stride : BitVec 5) (c : Word),
    Runs s → Reads [s1] (begun s) [c] t →
    let body := s.unitOf.addr + BitVec.ofNat 64 s.unitOf.size
    (c.toNat > 4096 → exec (.rep s1 n kind base sz stride) s = .next (trapped s { cause := .repeatCount })) ∧
    (∀ pc u, c = 0#64 → skipUnits (n.toNat + 1) body t = .ok (pc, u) → exec (.rep s1 n kind base sz stride) s = .next (jumped s u pc)) ∧
    (0 < c.toNat → c.toNat ≤ 4096 → exec (.rep s1 n kind base sz stride) s = .next (jumped s
      (t.modCtx s.cur.1 s.cur.2 fun v => { v with
        rep := some { word := s.unitOf.word, addr := s.unitOf.addr, index := 0, pass := 0, remaining := c.toNat - 1 } }) body))) ∧
  ∀ (x : Ctx) (u : UnitInfo), (x.rep = none → repStep x u = (u.addr + BitVec.ofNat 64 u.size, none)) ∧
    ∀ r, x.rep = some r → (u.addr = r.addr → repStep x u = (u.addr + BitVec.ofNat 64 u.size, some r)) ∧
      (u.addr ≠ r.addr →
        (r.index < (r.word.extractLsb' 28 4).toNat →
          repStep x u = (u.addr + BitVec.ofNat 64 u.size, some { r with index := r.index + 1 })) ∧
        ((r.word.extractLsb' 28 4).toNat ≤ r.index → 0 < r.remaining →
          repStep x u = (r.addr + 4#64, some { r with index := 0, pass := r.pass + 1, remaining := r.remaining - 1 })) ∧
        ((r.word.extractLsb' 28 4).toNat ≤ r.index → r.remaining = 0 → repStep x u = (u.addr + BitVec.ofNat 64 u.size, none)))) ∧
  (∀ (pc : Word) (n : Nat) (bs : List Byte) (s t : State), skipUnits 0 pc s = .ok (pc, s) ∧ (fetchUnit pc s = .ok (bs, t) →
    skipUnits (n + 1) pc s = skipUnits n (pc + BitVec.ofNat 64 bs.length) t ∧
    ((bs.headD 0#8).getLsbD 0 = false → bs.length = 2) ∧ ((bs.headD 0#8).getLsbD 0 = true → bs.headD 0#8 ≠ 0xFF#8 → bs.length = 4) ∧
    (bs.headD 0#8 = 0xFF#8 → bs.length = if (bs.getD 4 0#8).getLsbD 0 then 8 else 6))) ∧
  (∀ p : BitVec 24,
    let fits := fun (m : BitVec 2) (rounds saturates : Prop) => m = 0#2 ∧ p.extractLsb' 5 19 = 0#19 ∧ (p.extractLsb' 0 3).toNat ≤ 5 ∧
      (p.getLsbD 4 = true → p.extractLsb' 0 3 = 0#3) ∧ (¬ rounds → p.extractLsb' 0 3 = 0#3 ∧ p.getLsbD 4 = false) ∧ (¬ saturates → p.getLsbD 3 = false)
    let takes := fun (i : Instr) => prefixFits p i = true
    ((∀ off, takes (.br off) ∧ takes (.call off)) ∧ (∀ c a b off, takes (.bcc c a b off)) ∧ (∀ a off, takes (.loop a off)) ∧
      (∀ c q off, takes (.bp c q off)) ∧ (∀ d a i, takes (.addi d a i)) ∧ (∀ d a i, takes (.logiAnd d a i) ∧ takes (.logiOr d a i) ∧ takes (.logiXor d a i) ∧
        takes (.logiAndn d a i)) ∧ (∀ d i, takes (.li d i) ∧ takes (.lih d i)) ∧
      ∀ d b off z x, takes (.ld d b off z x) ∧ takes (.st d b off z) ∧ takes (.ldfe d b off) ∧ takes (.stfe d b off) ∧ takes (.ldg d b off z x) ∧
        takes (.stg d b off z) ∧ takes (.prefRd b off) ∧ takes (.prefOwn b off) ∧ takes (.prefSlc b off)) ∧
    (∀ (d a b : VReg) (q : PReg) (t st : ElemType) (m : BitVec 2) (x : Bool),
      (∀ mk ∈ [Instr.vadd, .vsub, .vmul, .vfma, .vdiv, .vsh, .vdot], takes (mk d a b q t m) ↔ fits m (t.isInt = false) (t.isInt = true)) ∧
      (∀ mk ∈ [Instr.vredAdd, .vredMin, .vredMax, .vredAnd, .vredOr, .vredXor, .vscanAdd, .vscanMin, .vscanMax],
        takes (mk d a q t m) ↔ fits m (t.isInt = false) (t.isInt = true)) ∧
      (∀ mk ∈ [Instr.vsqrt, .vunRint], takes (mk d a q t m) ↔ fits m True False) ∧
      (∀ mk ∈ [Instr.vfunExp2, .vfunLog2, .vfunRcp, .vfunRsq, .vfunSinpi, .vfunCospi, .vfunTanh], takes (mk d a x q m) ↔ fits m True False) ∧
      (∀ mk ∈ [Instr.vunNeg, .vunAbs], takes (mk d a q t m) ↔ fits m False (t.isInt = true)) ∧
      (∀ mk ∈ [Instr.vcvt, .vcvtHi], takes (mk d a st q t m) ↔ fits m (t.isInt = false ∨ st.isInt = false) (t.isInt = true)) ∧
      (∀ mk ∈ [Instr.vmin, .vmax, .vsel, .vperm, .vzip], takes (mk d a b q t) ↔ p = 0#24) ∧
      (∀ mk ∈ [Instr.vunPopc, .vunClz, .vlogAnd, .vlogOr, .vlogXor, .vlogAndn, .vlogOrn, .vlogNand, .vlogNor, .vlogXnor, .vlogNot, .vmov],
        takes (mk d a q t) ↔ p = 0#24)) ∧
    (∀ (d a : VReg) (g h k : GReg) (q r n : PReg) (c : VCond) (t : ElemType) (l u : Bool),
      (∀ mk ∈ [Instr.vld, .vst, .vldg, .vstg], takes (mk d g h q t) ↔ p = 0#24) ∧ (∀ mk ∈ [Instr.vgath, .vscat], takes (mk d g a q t) ↔ p = 0#24) ∧
      (∀ mk ∈ [Instr.plogAnd, .plogOr, .plogXor, .plogAndn], takes (mk q r n q) ↔ p = 0#24) ∧ (takes (.vcmp q c d a r t) ↔ p = 0#24) ∧
      (takes (.whilePred q l u g h t) ↔ p = 0#24) ∧ (takes (.vbcast d g q t) ↔ p = 0#24) ∧ (takes (.vext k a h t) ↔ p = 0#24) ∧
      (takes (.vins d g h t) ↔ p = 0#24) ∧ (takes (.vshuf d a h q t) ↔ p = 0#24) ∧ (takes (.sjoinT k g) ↔ p = 0#24)) ∧
    ∀ (i : Instr) (w : BitVec 32), encodeWord i = some w → takes i → let major := (w.extractLsb' 1 7).toNat
      major ∈ [1, 2, 3, 4, 8, 0x11, 0x1C, 0x2A, 0x2B, 0x50, 0x51, 0x54, 0x55, 0x58, 0x59, 0x5A, 0x5B, 0x5C, 0x6E] ∨ (0x30 ≤ major ∧ major ≤ 0x4F ∧ major ≠ 0x3D)) ∧
  (∀ (i : Instr) (p : BitVec 24), encodeWord i = none → prefixFits p i = false) ∧
  (∀ (p : BitVec 24) (body : Instr) (s : State), prefixFits p body = true → exec (.extPrefixedUnit p body) s = exec body s) ∧
  (∀ p : BitVec 24, GivesI (fun d s1 imm => .extPrefixedUnit p (.addi d s1 imm)) fun a i => a + i) ∧
  (∀ (p : BitVec 24) (body : Instr) (s : State), Runs s → prefixFits p body = false →
    exec (.extPrefixedUnit p body) s = .next (trapped s { cause := .illegal })) ∧
  ∀ (u : UnitInfo) (n : Nat) (f : BitVec n), (u.pre = none → immSOf (prefixOf u) f = f.signExtend 64) ∧
    ∀ w, u.pre = some w → immSOf (prefixOf u) f = (w.extractLsb' 8 24 ++ f).signExtend 64

/-- R105, R113, R114, R116, R126, R128, R129: YIELD, BRK and GETID; START of the first idle helper, or its refusal, and in a deterministic launch
of the helper that StartCount names; WAIT for helpers, with a limit or none; END of a helper, of the control context and of the supervisor; with
the compact forms. BRK retires, then traps with its code (R428). After a YIELD in throughput mode the context lets every other context that is
READY issue first, for 16 ticks at most [log 70]; in a deterministic launch it forfeits its next turn. The model's choice: that passing of turns,
and that a helper whose END retires in this tick counts as idle from the next one [log 69]. -/
def Obligations.ContextControl : Prop :=
  (∀ (s : State), Runs s →
    (s.mine.det = false →
      let others := ((begun s).mine.ctxs.filter fun p => p.1 != s.cur.2 && p.2.isReady s.tick).map (·.1)
      let u := (begun s).modCtx s.cur.1 s.cur.2 fun v => { v with yield := if others = [] then none else some (s.tick + 16, others) }
      exec .yield s = .next (retired s u) ∧ exec .cYield s = .next (retired s u)) ∧
    (s.mine.det = true →
      let u := (retired s (begun s)).modCtx s.cur.1 s.cur.2 fun v => { v with life := .forfeit 1 }
      exec .yield s = .next u ∧ exec .cYield s = .next u) ∧
    (∀ code, exec (.brk code) s = .next ((retired s (begun s)).trapUnit s.cur.1 s.cur.2 s.unitOf (begun s).me.retire
      { cause := .breakpoint, addr := code.setWidth 64 })) ∧
    (∀ code, exec (.cBrk code) s = .next ((retired s (begun s)).trapUnit s.cur.1 s.cur.2 s.unitOf (begun s).me.retire
      { cause := .breakpoint, addr := code.setWidth 64 })) ∧
    (∀ d which u, (which = .tick → s.mine.det = false) → Writes d (match which with
        | .pc => s.unitOf.addr
        | .wsp => BitVec.ofNat 64 s.me.wsp
        | .ctx => BitVec.ofNat 64 s.cur.2
        | .lane => BitVec.ofNat 64 s.mine.lane
        | .cid => (contextId s s.cur.1 s.cur.2).setWidth 64
        | .core => BitVec.ofNat 64 s.cur.1
        | .nlane => BitVec.ofNat 64 (match s.launchOf s.cur.1 with | some l => l.lanes | none => 0)
        | .retire => s.me.retire
        | .tick => BitVec.ofNat 64 s.tick) (begun s) u →
      exec (.getid d which) s = .next (retired s u))) ∧
  (∀ (s t u : State) (d s1 : GReg) (off : BitVec 14) (w : Word), Quiet s → s.mine.det = false ∨ s.cur.2 = 0 → Reads [s1] s [w] t →
    let taken := fun (v : State) (h : Nat) =>
      v.modCore s.cur.1 fun c => c.setCtx h (startCtx (c.ctx h) (targetOf s.unitOf off) (w.extractLsb' 11 7) s.tick)
    (t.mine.workspaceAligned w.toNat = false → exec (.start d s1 off) s = .next (trapped s { cause := .misalignedWorkspace })) ∧
    (t.mine.workspaceAligned w.toNat = true → s.mine.det = false →
      ((∀ h, 1 ≤ h → h ≤ 10 → helperIdle t s.cur.1 h = false) → Writes d 0#64 t u → exec (.start d s1 off) s = .next (retiredOut s u)) ∧
      ∀ h, 1 ≤ h → h ≤ 10 → helperIdle t s.cur.1 h = true → (∀ j, 1 ≤ j → j < h → helperIdle t s.cur.1 j = false) →
        Writes d (BitVec.ofNat 64 h) (taken t h) u → exec (.start d s1 off) s = .next (retiredOut s u)) ∧
    (t.mine.workspaceAligned w.toNat = true → s.mine.det = true →
      let h := t.mine.startCount % 10 + 1
      (helperIdle t s.cur.1 h = false → exec (.start d s1 off) s = .next (s.block s.cur.1 s.cur.2 (.helper h))) ∧
      (helperIdle t s.cur.1 h = true →
        Writes d (BitVec.ofNat 64 h) (taken (t.modCore s.cur.1 fun c => { c with startCount := c.startCount + 1 }) h) u →
        exec (.start d s1 off) s = .next (retiredOut s u)))) ∧
  (∀ (s t u : State) (d s1 : GReg) (mask : BitVec 10) (w : Word), Quiet s → s.mine.det = false ∨ w = 0#64 → Reads [s1] s [w] t →
    let own : BitVec 11 := if s.cur.2 ≤ 10 then BitVec.ofNat 11 (2 ^ s.cur.2) else 0#11
    let m : BitVec 11 := (mask ++ 0#1) &&& ~~~own
    (liveOf t s.cur.1 m = 0#64 → Writes d 0#64 t u → exec (.wait d s1 mask) s = .next (retiredOut s u)) ∧
    (liveOf t s.cur.1 m ≠ 0#64 → Free t d →
      (w = 0#64 → exec (.wait d s1 mask) s = .next (waiting s (kept t d) (.helpers m none d))) ∧
      (w ≠ 0#64 → exec (.wait d s1 mask) s = .next (waiting s
        ((kept t d).post w.toNat (.waitLimitExpiry (cid s.cur.1) (xid s.cur.2))) (.helpers m (some (s.tick + w.toNat)) d))))) ∧
  ∀ (s : State), Quiet s → s.me.streams = [] → (s.cur.2 ≠ 0 ∨ tasksIdle s s.cur.1 = true) →
    ∃ t, exec .endCtx s = .next t ∧ exec .cEnd s = .next t ∧ t.me.life = .idle ∧ t.me.retire = s.me.retire + 1#64

/-- R28, R29, R36: the decoder reads from the bytes of every instruction that has an encoding, whatever follows them, that instruction,
with every operand, and its length. -/
def Obligations.DecodingEncoded : Prop :=
  ∀ (i : Instr) (bs rest : List (BitVec 8)), i.canonical = true → encode i = some bs →
    ∃ d, decode (bs ++ rest) = .ok d ∧ d.instr = i ∧ d.size = bs.length

/-- Words of eight families, written out from their encodings. -/
def Obligations.WordsOfFamilies : Prop :=
  decodeWord 0x00082321#32 = some (.add 3#5 1#5 2#5) ∧ decodeWord 0x6A0C4161#32 = some (.vadd 1#5 2#5 3#5 4#3 .f32 1#2) ∧
  decodeWord 0x301507A1#32 = some (.ld 7#5 8#5 5#10 3#2 false) ∧ decodeWord 0xFE882205#32 = some (.bcc .lt 1#5 2#5 0x1FD#9) ∧
  decodeWord 0x048080F9#32 = some (.trap 4#5 9#5) ∧ decodeWord 0x019006FB#32 = some (.crd 6#5 100#13) ∧
  decodeWord 0x1000A2D3#32 = some (.mma 2#2 5#5 true) ∧ decodeWord 0x020C41EF#32 = some (.send 1#5 2#5 3#5 4#5)

/-- R28, R38: bytes that are no unit. Too few bytes; a prefix before a compact instruction or before another prefix; a word or halfword
that no row of the tables names. -/
def Obligations.ReservedEncodings : Prop :=
  (∀ b0 b1 b2 b3 c0 c1 rest, c0.extractLsb' 0 1 = 0#1 → b0 = 0xFF#8 → 2 ≤ rest.length →
    decode (b0 :: b1 :: b2 :: b3 :: c0 :: c1 :: rest) =
      .error (.reserved 6 (0#16 ++ (c1 ++ c0)) (some (b3 ++ (b2 ++ (b1 ++ b0)))))) ∧
  (∀ b1 b2 b3 c1 c2 c3 rest, decode (0xFF#8 :: b1 :: b2 :: b3 :: 0xFF#8 :: c1 :: c2 :: c3 :: rest) =
    .error (.reserved 8 (c3 ++ (c2 ++ (c1 ++ 0xFF#8))) (some (b3 ++ (b2 ++ (b1 ++ 0xFF#8)))))) ∧
  (∀ b0, decode [b0] = .error .short) ∧
  (∀ b0 b1 rest, b0.extractLsb' 0 1 = 0#1 → decodeHalf (b1 ++ b0) = none → decode (b0 :: b1 :: rest) = .error (.reserved 2 (0#16 ++ (b1 ++ b0)) none)) ∧
  ∀ b0 b1 b2 b3 rest, b0.extractLsb' 0 1 ≠ 0#1 → b0 ≠ 0xFF#8 → decodeWord (b3 ++ (b2 ++ (b1 ++ b0))) = none →
    decode (b0 :: b1 :: b2 :: b3 :: rest) = .error (.reserved 4 (b3 ++ (b2 ++ (b1 ++ b0))) none)

/-- A step in which a core has its turn and a context issues runs the instruction that the decoder reads from the bytes fetched at its program
counter (R28, R29, R45, R99, R123); bytes that are no unit trap, and so does a unit that may not stand in a repetition, before anything else
about it (R46, R124). The model's choice: the order of the cores in a tick [log 4], captured units are fetched again in each pass [log 72], and
an illegal unit too cuts the trick in front of it [log 66]. -/
def Obligations.StepRunsDecoded : Prop :=
  ∀ (s t u : State) (k x : Nat) (bytes : List Byte), Turns s k x t → Fetches t k x bytes u →
    let pc := (t.ctx k x).pc
    let body := ∃ r, (u.ctx k x).rep = some r ∧ pc ≠ r.addr
    (∀ d, decode bytes = .ok d →
      let info : UnitInfo := ⟨pc, d.size, d.word, d.pre⟩
      let named : State := u.modCtx k x fun v => { v with unit := info }
      (¬ body → d.instr.wf = true → (u.ctx k x).accepted = [] → step s = exec d.instr named) ∧
      (¬ body → d.instr.wf = false → step s = .next (stopUnit u k x info (.trap { cause := .illegal }))) ∧
      (body → repForbidden info = true → step s = .next (stopUnit u k x info (.trap { cause := .illegal, detail := 2#8 }))) ∧
      ∀ r, (u.ctx k x).rep = some r → pc ≠ r.addr → repForbidden info = false →
        let i := renameFields (renamings r).1 (renamings r).2 d.instr
        (i.wf = true → (u.ctx k x).accepted = [] → step s = exec i named) ∧
        (i.wf = false → step s = .next (stopUnit u k x info (.trap { cause := .illegal })))) ∧
    ∀ n w p, decode bytes = .error (.reserved n w p) →
      let info : UnitInfo := ⟨pc, n, w, p⟩
      (body ∧ repForbidden info = true → step s = .next (stopUnit u k x info (.trap { cause := .illegal, detail := 2#8 }))) ∧
      (¬ (body ∧ repForbidden info = true) → step s = .next (stopUnit u k x info (.trap { cause := .illegal })))

/-- R28, R48, R49, R99 to R102, R113: in throughput mode the context that issues is READY and passes no turns after a YIELD, no such context is
nearer to the pointer in cyclic order, the pointer moves to it, and with none the tick is empty; in a deterministic launch only the context of
the tick's slot issues, under the same condition; an idle supervisor that wakes becomes live with its turn, out of order in throughput mode and
in its slot in a deterministic launch. The bytes of a unit are those in memory at the translations of its halfwords' addresses, which must allow
execution; two halfwords for a word, and a third and a fourth behind a prefix. The model's choice: the bytes come from memory as it stands [log
11], walks are made in the tick of the fetch [log 24], the turns that pass after a YIELD [log 70], and the first tick in which a supervisor may
wake [log 21]. -/
def Obligations.FetchAndIssue : Prop :=
  ((∀ (s t : State) (k : Nat) (r : Option Nat), (s.core k).det = false → pickIssuer s k = (t, r) →
    let rank := fun x => (x + 15 - (s.core k).last % 16) % 16
    (wakeTurn s k = true → r = some 15 ∧ t = liveSupervisor s k) ∧
    (wakeTurn s k = false →
      (∀ x, r = some x → x < 16 ∧ MayIssue s k x ∧ (t.core k).last = x ∧ ∀ y, y < 16 → MayIssue s k y → rank x ≤ rank y) ∧
      (r = none → ∀ y, y < 16 → ¬ MayIssue s k y))) ∧
  ∀ (s : State) (k : Nat), (s.core k).det = true →
    let x := (s.tick - (s.core k).t0) % 16
    (x = 15 → wakeTurn s k = true → pickIssuer s k = (liveSupervisor s k, some 15)) ∧
    (x ≠ 15 ∨ wakeTurn s k = false →
      (MayIssue s k x → pickIssuer s k = (s, some x)) ∧ (¬ MayIssue s k x → (pickIssuer s k).2 = none))) ∧
  (∀ (va : Word) (s t : State) (pa : Nat) (e : TlbEntry), translateU va 2 s = .ok ((pa, e), t) → hostResident pa = false →
    (fetchedThrough t e).needPage pa t.cur.1 false = none → fetchHalf va s = .ok (memBytes t.mem pa 2, fetchedThrough t e)) ∧
  (∀ (va : Word) (s : State) (i : TrapInfo), translateU va 2 s = .error (.trap i) → fetchHalf va s = .error (.trap i)) ∧
  ∀ (pc : Word) (s t u v w : State) (a b c d : List Byte), fetchHalf pc s = .ok (a, t) → fetchHalf (pc + 2#64) t = .ok (b, u) →
    fetchHalf (pc + 4#64) u = .ok (c, v) → fetchHalf (pc + 6#64) v = .ok (d, w) →
    ((a.headD 0#8).getLsbD 0 = false → fetchUnit pc s = .ok (a, t)) ∧
    ((a.headD 0#8).getLsbD 0 = true → a.headD 0#8 ≠ 0xFF#8 → fetchUnit pc s = .ok (a ++ b, u)) ∧
    (a.headD 0#8 = 0xFF#8 → (c.headD 0#8).getLsbD 0 = false → fetchUnit pc s = .ok (a ++ b ++ c, v)) ∧
    (a.headD 0#8 = 0xFF#8 → (c.headD 0#8).getLsbD 0 = true → fetchUnit pc s = .ok (a ++ b ++ c ++ d, w))

/-- What reset leaves: partition 0 in RUN with every die and class, the others OFF with none (R449), the PCTL time limit and PWRCTL at
their resets, no launch, no live context, no directory or capability entry, every budget unmetered, and memory with nothing listed.
Memory and registers without a stated reset value are the model's choice [log 1, log 2]. -/
def Obligations.ResetState : Prop :=
  (State.reset.part 0).part = 0xF11#64 ∧ (State.reset.part 0).pcls = BitVec.allOnes 64 ∧
  (∀ p, p = 1 ∨ p = 2 ∨ p = 3 → (State.reset.part p).part = 0#64 ∧ (State.reset.part p).pcls = 0#64) ∧
  (∀ p, p < 4 → (State.reset.part p).ilv = 6#64 ∧ (State.reset.part p).bnd = 0#64) ∧
  State.reset.hub.pctl.extractLsb' 16 16 = 1000#16 ∧ State.reset.hub.pwrctl = 3#64 ∧ (∀ g, (State.reset.group g).wdLimit = 0x400000#32) ∧
  (∀ k x, (State.reset.ctx k x).life = .idle) ∧ (∀ k, (State.reset.core k).launch = none) ∧
  (∀ c m, State.reset.exhausted c m = false) ∧ State.reset.launches = [] ∧ State.reset.dir = [] ∧ State.reset.caps = [] ∧
  State.reset.sound

/-- The canonical form of memory (rising addresses, no entry for what an unlisted address reads as [log 1]) is kept by every step: a
core's turn, a happening that is due, and the end of a tick. -/
def Obligations.StepKeepsMemory : Prop :=
  ∀ s t : State, s.sound → step s = .next t → t.sound

/-- R84, R153, R154, R168 to R171: elements of a result: an active one takes its value, cut to its width, an inactive one keeps the old value, and the
flags are the union over the active ones; the instructions that write or combine predicates. -/
def Obligations.VectorPredicates : Prop :=
  (∀ (w i : Nat) (p : Pred) (old : Vec) (f : Nat → Nat × Flags), w ∈ [8, 16, 32, 64] → i < 2048 / w →
    (p.getLsbD (w / 8 * i) = true → elem (mapActive w p old f).1 w i = (f i).1 % 2 ^ w) ∧
    (p.getLsbD (w / 8 * i) = false → elem (mapActive w p old f).1 w i = elem old w i) ∧
    ∀ b, (mapActive w p old f).2.getLsbD b = true ↔ ∃ j, j < 2048 / w ∧ p.getLsbD (w / 8 * j) = true ∧ (f j).2.getLsbD b = true) ∧
  (∀ (q p : PReg) (c : VCond) (s1 s2 : VReg) (t : ElemType) (s u v : State) (a b : Vec), Runs s → VReads [s1, s2] (begun s) [a, b] u →
    let w := t.width
    let r := fun i => vCompare c t (elem a w i) (elem b w i)
    writeP q (predFrom w fun i => active (u.p p) w i && (r i).1) u = .ok ((), v) →
    exec (.vcmp q c s1 s2 p t) s = .next (retired s (raised v
      ((List.range (2048 / w)).foldl (fun fl i => if active (u.p p) w i then fl ||| (r i).2 else fl) 0#7)))) ∧
  (∀ (q : PReg) (l un : Bool) (s1 s2 : GReg) (t : ElemType) (s u v : State) (a b : Word), Runs s → Reads [s1, s2] (begun s) [a, b] u →
    let x : Int := if un then a.toNat else a.toInt
    let y : Int := if un then b.toNat else b.toInt
    writeP q (predFrom t.width fun i => if l then decide (x + i ≤ y) else decide (x + i < y)) u = .ok ((), v) →
    exec (.whilePred q l un s1 s2 t) s = .next (retired s v)) ∧
  (∀ (q s1 s2 g : PReg) (s v : State), Runs s →
    let a := (begun s).p s1
    let b := (begun s).p s2
    let c := (begun s).p g
    (writeP q (a &&& b &&& c) (begun s) = .ok ((), v) → exec (.plogAnd q s1 s2 g) s = .next (retired s v)) ∧
    (writeP q ((a ||| b) &&& c) (begun s) = .ok ((), v) → exec (.plogOr q s1 s2 g) s = .next (retired s v)) ∧
    (writeP q ((a ^^^ b) &&& c) (begun s) = .ok ((), v) → exec (.plogXor q s1 s2 g) s = .next (retired s v)) ∧
    (writeP q (a &&& ~~~b &&& c) (begun s) = .ok ((), v) → exec (.plogAndn q s1 s2 g) s = .next (retired s v))) ∧
  ∀ (d : GReg) (s u : State), Runs s → Writes d 2048#64 (begun s) u → exec (.vwid d) s = .next (retired s u)

/-- R158, R159, R162 to R167: the element-wise instructions on integer types (VDIV leaves the context BLOCKED for 24 ticks); VMIN, VMAX, VUN popc
and clz on every type, and the logic operations on the destination and the source. -/
def Obligations.VectorIntegers : Prop :=
  (∀ (d s1 s2 : VReg) (p : PReg) (t : ElemType) (m : BitVec 2), t.isInt = true →
    OnIntegers (.vadd d s1 s2 p t m) d [s1, s2] p t m (fun xs => xs.getD 0 0 + xs.getD 1 0) 0 ∧
    OnIntegers (.vsub d s1 s2 p t m) d [s1, s2] p t m (fun xs => xs.getD 0 0 - xs.getD 1 0) 0 ∧
    OnIntegers (.vmul d s1 s2 p t m) d [s1, s2] p t m (fun xs => xs.getD 0 0 * xs.getD 1 0) 0 ∧
    OnIntegers (.vfma d s1 s2 p t m) d [s1, s2, d] p t m (fun xs => xs.getD 0 0 * xs.getD 1 0 + xs.getD 2 0) 0 ∧
    OnIntegers (.vdiv d s1 s2 p t m) d [s1, s2] p t m (fun xs => if xs.getD 1 0 = 0 then 0 else (xs.getD 0 0).tdiv (xs.getD 1 0)) 24 ∧
    OnIntegers (.vunNeg d s1 p t m) d [s1] p t m (fun xs => -xs.getD 0 0) 0 ∧
    OnIntegers (.vunAbs d s1 p t m) d [s1] p t m (fun xs => ((xs.getD 0 0).natAbs : Int)) 0 ∧
    Elementwise (.vsh d s1 s2 p t m) d [s1, s2] p t.width (fun u _ xs => shiftElem t (vSatOf u.me m) (xs.getD 0 0) (xs.getD 1 0))
      (fun _ _ => false) 0) ∧
  ∀ (d s1 s2 : VReg) (p : PReg) (t : ElemType),
    let logic := fun (i : Instr) (f : BitVec 64 → BitVec 64 → BitVec 64) => Direct i d [s1, d] p t fun xs =>
      ((f (BitVec.ofNat 64 (xs.getD 1 0)) (BitVec.ofNat 64 (xs.getD 0 0))).toNat % 2 ^ t.width, 0#7)
    (t.isInt = true →
      Direct (.vmin d s1 s2 p t) d [s1, s2] p t (fun xs => (if intOf t (xs.getD 0 0) < intOf t (xs.getD 1 0) then xs.getD 0 0 else xs.getD 1 0, 0#7)) ∧
      Direct (.vmax d s1 s2 p t) d [s1, s2] p t (fun xs => (if intOf t (xs.getD 0 0) < intOf t (xs.getD 1 0) then xs.getD 1 0 else xs.getD 0 0, 0#7))) ∧
    (t.isInt = false → Direct (.vmin d s1 s2 p t) d [s1, s2] p t (fun xs => fMinMax (fmtOf t) true (xs.getD 0 0) (xs.getD 1 0)) ∧
      Direct (.vmax d s1 s2 p t) d [s1, s2] p t (fun xs => fMinMax (fmtOf t) false (xs.getD 0 0) (xs.getD 1 0))) ∧
    Direct (.vunPopc d s1 p t) d [s1] p t (fun xs => (ones t.width (xs.getD 0 0), 0#7)) ∧
    Direct (.vunClz d s1 p t) d [s1] p t (fun xs => (leadingZeros t.width (xs.getD 0 0), 0#7)) ∧
    logic (.vlogAnd d s1 p t) (fun a b => a &&& b) ∧ logic (.vlogOr d s1 p t) (fun a b => a ||| b) ∧
    logic (.vlogXor d s1 p t) (fun a b => a ^^^ b) ∧ logic (.vlogAndn d s1 p t) (fun a b => a &&& ~~~b) ∧
    logic (.vlogOrn d s1 p t) (fun a b => a ||| ~~~b) ∧ logic (.vlogNand d s1 p t) (fun a b => ~~~(a &&& b)) ∧
    logic (.vlogNor d s1 p t) (fun a b => ~~~(a ||| b)) ∧ logic (.vlogXnor d s1 p t) (fun a b => ~~~(a ^^^ b)) ∧
    logic (.vlogNot d s1 p t) (fun _ b => ~~~b)

/-- R159, R161, R162, R164, R165, R173: the element-wise instructions on floating-point types, their rounding, and when they take the
normaliser, which an integral result never does; VDIV, VSQRT and the full-precision VFUN leave the context BLOCKED for 24 ticks, an `.a` form for 4 (R158). -/
def Obligations.VectorFloats : Prop :=
  ∀ (d s1 s2 : VReg) (p : PReg) (t : ElemType) (m : BitVec 2), t.isInt = false →
    OnFloats (.vadd d s1 s2 p t m) d [s1, s2] p t m (fun f md r xs => fAdd f md r (xs.getD 0 0) (xs.getD 1 0)) 0 ∧
    OnFloats (.vsub d s1 s2 p t m) d [s1, s2] p t m (fun f md r xs => fSub f md r (xs.getD 0 0) (xs.getD 1 0)) 0 ∧
    OnFloats (.vmul d s1 s2 p t m) d [s1, s2] p t m (fun f md r xs => fMul f md r (xs.getD 0 0) (xs.getD 1 0)) 0 ∧
    OnFloats (.vfma d s1 s2 p t m) d [s1, s2, d] p t m (fun f md r xs => fFma f md r (xs.getD 0 0) (xs.getD 1 0) (xs.getD 2 0)) 0 ∧
    OnFloats (.vdiv d s1 s2 p t m) d [s1, s2] p t m (fun f md r xs => fDiv f md r (xs.getD 0 0) (xs.getD 1 0)) 24 ∧
    OnFloats (.vsqrt d s1 p t m) d [s1] p t m (fun f md r xs => fSqrt f md r (xs.getD 0 0)) 24 ∧
    Elementwise (.vunRint d s1 p t m) d [s1] p t.width (fun u e xs => fRint (fmtOf t) (vModeOf u.me m) (u.rnd e) (xs.getD 0 0))
      (fun u vs => anySubnormal (fmtOf t) t.width (u.p p) (vs.getD 0 0#2048)) 0 ∧
    Direct (.vunNeg d s1 p t m) d [s1] p t (fun xs => fSign (fmtOf t) true (xs.getD 0 0)) ∧
    Direct (.vunAbs d s1 p t m) d [s1] p t (fun xs => fSign (fmtOf t) false (xs.getD 0 0)) ∧
    (∀ (a : Bool), let extra := if a then 4 else 24
      OnFloats (.vfunExp2 d s1 a p m) d [s1] p .f32 m (fun _ md r xs => fFun .exp2 a md r (xs.getD 0 0)) extra ∧
      OnFloats (.vfunLog2 d s1 a p m) d [s1] p .f32 m (fun _ md r xs => fFun .log2 a md r (xs.getD 0 0)) extra ∧
      OnFloats (.vfunRcp d s1 a p m) d [s1] p .f32 m (fun _ md r xs => fFun .rcp a md r (xs.getD 0 0)) extra ∧
      OnFloats (.vfunRsq d s1 a p m) d [s1] p .f32 m (fun _ md r xs => fFun .rsq a md r (xs.getD 0 0)) extra ∧
      OnFloats (.vfunSinpi d s1 a p m) d [s1] p .f32 m (fun _ md r xs => fFun .sinpi a md r (xs.getD 0 0)) extra ∧
      OnFloats (.vfunCospi d s1 a p m) d [s1] p .f32 m (fun _ md r xs => fFun .cospi a md r (xs.getD 0 0)) extra ∧
      OnFloats (.vfunTanh d s1 a p m) d [s1] p .f32 m (fun _ md r xs => fFun .tanh a md r (xs.getD 0 0)) extra) ∧
    OnFloats (.cVaddF32 d s1) d [d, s1] 0#3 .f32 0#2 (fun f md r xs => fAdd f md r (xs.getD 0 0) (xs.getD 1 0)) 0 ∧
    OnFloats (.cVmulF32 d s1) d [d, s1] 0#3 .f32 0#2 (fun f md r xs => fMul f md r (xs.getD 0 0) (xs.getD 1 0)) 0

/-- R65, R177 to R180: VMOV copies the active elements, VBCAST sets them to the low bits of a register, VSEL writes every element from one source
or the other; with the compact VMOV. VPERM, VZIP, VEXT, VINS and VSHUF: an index beyond the last element gives 0, and leaves VINS's destination
as it is. Bits [31:19] of an F19 element are ignored when read and written as zeros. The model's choice: VINS beyond the last element touches no
register and no stream, and a strip it pushes has the old register's other elements [log 63]. -/
def Obligations.VectorMovement : Prop :=
  ((∀ (d s1 : VReg) (p : PReg) (t : ElemType), Direct (.vmov d s1 p t) d [s1] p t (fun xs => (laneOf t (xs.getD 0 0), 0#7)) ∧
    Direct (.cVmov d s1) d [s1] 0#3 .n64 (fun xs => (xs.getD 0 0, 0#7))) ∧
  (∀ (d : VReg) (s1 : GReg) (p : PReg) (t : ElemType) (s u v : State) (x : Word), Runs s → Reads [s1] (begun s) [x] u →
    let r := mapActive t.width (u.p p) (u.v d) fun _ => (laneOf t (x.toNat % 2 ^ t.width), 0#7)
    VWrites d r.1 (u.p p) u v → exec (.vbcast d s1 p t) s = .next (vretired s (raised v r.2) false 0)) ∧
  ∀ (d s1 s2 : VReg) (p : PReg) (t : ElemType) (s u v : State) (a b : Vec), Runs s → VReads [s1, s2] (begun s) [a, b] u →
    VWrites d (pack t.width ((List.range (2048 / t.width)).map fun i =>
      laneOf t (if active (u.p p) t.width i then elem a t.width i else elem b t.width i))) (u.p p) u v → exec (.vsel d s1 s2 p t) s = .next (retired s (raised v 0#7))) ∧
  (∀ (d s1 s2 : VReg) (p : PReg) (t : ElemType) (s u v : State) (a b : Vec), Runs s → VReads [s1, s2] (begun s) [a, b] u →
    let w := t.width
    let perm := mapActive w (u.p p) (u.v d) fun i => (laneOf t (if elem b w i < 2048 / w then elem a w (elem b w i) else 0), 0#7)
    let zip := mapActive w (u.p p) (u.v d) fun i => (laneOf t (elem (if i % 2 = 0 then a else b) w (i / 2)), 0#7)
    (VWrites d perm.1 (u.p p) u v → exec (.vperm d s1 s2 p t) s = .next (vretired s (raised v perm.2) false 0)) ∧
    (VWrites d zip.1 (u.p p) u v → exec (.vzip d s1 s2 p t) s = .next (vretired s (raised v zip.2) false 0))) ∧
  (∀ (d s2 : GReg) (s1 : VReg) (t : ElemType) (s u v z : State) (a : Vec) (x : Word), Runs s → VReads [s1] (begun s) [a] u →
    Reads [s2] u [x] v →
    Writes d (if x.toNat < 2048 / t.width then BitVec.ofInt 64 (intOf t (laneOf t (elem a t.width x.toNat))) else 0#64) v z →
    exec (.vext d s1 s2 t) s = .next (retired s z)) ∧
  (∀ (d : VReg) (s1 s2 : GReg) (t : ElemType) (s u v : State) (y x : Word), Runs s → Reads [s1, s2] (begun s) [y, x] u →
    (2048 / t.width ≤ x.toNat → exec (.vins d s1 s2 t) s = .next (retired s u)) ∧
    (x.toNat < 2048 / t.width →
      VWrites d (pack t.width ((List.range (2048 / t.width)).map fun i => if i = x.toNat then laneOf t (y.toNat % 2 ^ t.width) else elem (u.v d) t.width i))
        (BitVec.allOnes 256) u v → exec (.vins d s1 s2 t) s = .next (retired s v))) ∧
  ∀ (d s1 : VReg) (s2 : GReg) (p : PReg) (t : ElemType) (s u v z : State) (key ctl : Word) (a : Vec), Runs s →
    Reads [s2, s2 + 1#5] (begun s) [key, ctl] u →
    let k := ctl.toNat % 128
    (k < 8 ∨ t.width < k → exec (.vshuf d s1 s2 p t) s = .next (trapped s { cause := .operandRange })) ∧
    (8 ≤ k → k ≤ t.width → VReads [s1] u [a] v →
      let r := mapActive t.width (v.p p) (v.v d) fun i => ((shufK key (BitVec.ofNat 64 (elem a t.width i)) k).toNat, 0#7)
      VWrites d r.1 (v.p p) v z → exec (.vshuf d s1 s2 p t) s = .next (vretired s (raised z r.2) false 0))

/-- R172, R76 to R79: VCVT and its `hi` form: the elements of the narrower side move to or from the low or the high places of the wider.
Bringing exact results into a type and onto a grid: without saturation the value modulo 2^w, with it the nearest end of the range and SA;
rounding keeps a value on the grid, truncates in RZ, and otherwise takes one of the two neighbours, in RNE and RNA the nearer, on a tie the even
one in RNE and the upper one in RNA. -/
def Obligations.VectorConversions : Prop :=
  (∀ (d s1 : VReg) (st : ElemType) (p : PReg) (t : ElemType) (m : BitVec 2) (hi : Bool) (s u v : State) (a : Vec), Runs s →
    VReads [s1] (begun s) [a] u →
    let ns := 2048 / st.width
    let nt := 2048 / t.width
    let n := min ns nt
    let dj := if hi then nt - n else 0
    let dk := if hi then ns - n else 0
    let sat := vSatOf u.me m && t.isInt
    let mode := if t.isInt then vModeOf u.me 0#2 else vModeOf u.me m
    let x := fun j => elem a st.width (j - dj + dk)
    let act := fun j => decide (dj ≤ j ∧ j < dj + n) && active (u.p p) t.width j
    let es := (List.range nt).map fun j => if act j then convert st t sat mode (u.rnd j) (x j) else (elem (u.v d) t.width j, 0#7)
    let norm := (List.range nt).any fun j => act j &&
      ((!st.isInt && (fmtOf st).isSubnormal (if st == .f19 then x j % 2 ^ 19 else x j)) ||
        (!t.isInt && tinyResult (fmtOf t) (convert st t sat .rz 0 (x j))))
    VWrites d (pack t.width (es.map (·.1))) (u.p p) u v →
    exec (if hi then .vcvtHi d s1 st p t m else .vcvt d s1 st p t m) s =
      .next (vretired s (raised v (es.foldl (fun fl e => fl ||| e.2) 0#7)) norm 0)) ∧
  (∀ (t : ElemType) (v : Int), t.isInt = true →
    (intInto t false v).1 = (v % 2 ^ t.width).toNat ∧ (intInto t false v).2 = 0#7 ∧
    (intMin t ≤ v → v ≤ intMax t → intOf t (intInto t false v).1 = v ∧ intInto t true v = intInto t false v) ∧
    (v < intMin t → intInto t true v = ((intInto t false (intMin t)).1, flagSA)) ∧
    (intMax t < v → intInto t true v = ((intInto t false (intMax t)).1, flagSA))) ∧
  ∀ (mode : Rounding) (rnd : Nat) (neg : Bool) (m : Nat) (e q : Int), rnd < 2 ^ 32 →
    (q ≤ e → pickGrid mode rnd neg ⟨m, e, false⟩ q = (m * 2 ^ (e - q).toNat, false)) ∧
    (e < q →
      let g := 2 ^ (q - e).toNat
      let n := (pickGrid mode rnd neg ⟨m, e, false⟩ q).1
      (n = m / g ∨ n = m / g + 1) ∧ (g ∣ m → n * g = m) ∧
      ((pickGrid mode rnd neg ⟨m, e, false⟩ q).2 = true ↔ n * g ≠ m) ∧ (mode = .rz → n = m / g) ∧
      (mode = .rne ∨ mode = .rna → 2 * (n * g) ≤ 2 * m + g ∧ 2 * m ≤ 2 * (n * g) + g) ∧
      (mode = .rne → 2 * (m % g) = g → n % 2 = 0) ∧ (mode = .rna → 2 * (m % g) = g → n = m / g + 1))

/-- R90, R91, R174, R175: reductions and dot products on the fixed tree, written to element 0 with zeros elsewhere. On integers without
saturation the tree gives the sum of the active elements modulo 2^w, and with none the identities. The model's choice: VRED's forms take the mod
of their class [log 35]; what decides the normaliser is the value behind the last rounding [log 93]; a VDOT.f64 with no active element leaves the
accumulator's bits [log 60]. -/
def Obligations.VectorReductions : Prop :=
  (∀ (d s1 s2 : VReg) (p : PReg) (t : ElemType) (m : BitVec 2),
    let w := t.width
    let f := fmtOf t
    let ident := fun (least : Bool) => if t.isInt then (intInto t false (if least then intMax t else intMin t)).1 else f.infBits (!least)
    let lone := fun (x : Nat) => if !t.isInt && f.isNaN x then (f.canonNaN, f.sFlag x) else (x, 0#7)
    let exact := fun (x : Nat) => (x, 0#7)
    let bits := fun (i : Instr) (comb : Nat → Nat → Nat × Flags) (fin : Nat → Nat × Flags) (id : Nat) =>
      VScalar i d [s1] p w (fun u vs => bitTree w comb fin id (leaves w (u.p p) (elem (vs.getD 0 0#2048) w))) fun _ _ _ => false
    bits (.vredMin d s1 p t m) (minMax t true) lone (ident true) ∧ bits (.vredMax d s1 p t m) (minMax t false) lone (ident false) ∧
    bits (.vredAnd d s1 p t m) (fun x y => (x &&& y, 0#7)) exact (2 ^ w - 1) ∧
    bits (.vredOr d s1 p t m) (fun x y => (x ||| y, 0#7)) exact 0 ∧ bits (.vredXor d s1 p t m) (fun x y => (x ^^^ y, 0#7)) exact 0 ∧
    (t.isInt = true →
      VScalar (.vredAdd d s1 p t m) d [s1] p w (fun u vs =>
        iTreeSum t (vSatOf u.me m) w (leaves w (u.p p) fun i => intOf t (elem (vs.getD 0 0#2048) w i))) (fun _ _ _ => false) ∧
      VScalar (.vdot d s1 s2 p t m) d [s1, s2, d] p 64 (fun u vs =>
        let ft : ElemType := if t.isUns then .n64 else .i64
        let r := iTreeSum ft (vSatOf u.me m) w (leaves w (u.p p) fun i => intOf t (elem (vs.getD 0 0#2048) w i) * intOf t (elem (vs.getD 1 0#2048) w i))
        let x := intInto ft (vSatOf u.me m) (intOf ft (elem (vs.getD 2 0#2048) 64 0) + intOf ft r.1)
        (x.1, r.2 ||| x.2)) fun _ _ _ => false) ∧
    (t.isInt = false →
      VScalar (.vredAdd d s1 p t m) d [s1] p w (fun u vs =>
        let a := vs.getD 0 0#2048
        let r := fTreeSum f (vModeOf u.me m) (u.rnd 0) w (leaves w (u.p p) fun i => f.value (elem a w i))
        (r.1, r.2 ||| activeSFlags f w (u.p p) a)) (fun u vs r => anySubnormal f w (u.p p) (vs.getD 0 0#2048) || f.isSubnormal r.1)) ∧
    VScalar (.vdot d s1 s2 p .f64 m) d [s1, s2, d] p 64 (fun u vs =>
      let a := vs.getD 0 0#2048
      let b := vs.getD 1 0#2048
      let r := groupDot (vModeOf u.me m) (u.rnd 0) (u.p p) a b 16 0 (elem (vs.getD 2 0#2048) 64 0) false
      (r.1, r.2.1 ||| activeSFlags fmtF64 64 (u.p p) a ||| activeSFlags fmtF64 64 (u.p p) b)) (fun u vs _ =>
        anySubnormal fmtF64 64 (u.p p) (vs.getD 0 0#2048) || anySubnormal fmtF64 64 (u.p p) (vs.getD 1 0#2048) ||
          fmtF64.isSubnormal (elem (vs.getD 2 0#2048) 64 0) ||
            (groupDot (vModeOf u.me m) (u.rnd 0) (u.p p) (vs.getD 0 0#2048) (vs.getD 1 0#2048) 16 0 (elem (vs.getD 2 0#2048) 64 0) false).2.2) ∧
    (t.isInt = false → t ≠ .f64 →
      VScalar (.vdot d s1 s2 p t m) d [s1, s2, d] p 32 (fun u vs =>
        dotF32 t (vModeOf u.me m) (u.rnd 0) (u.p p) (vs.getD 0 0#2048) (vs.getD 1 0#2048) (elem (vs.getD 2 0#2048) 32 0)) (fun u vs r =>
          anySubnormal f w (u.p p) (vs.getD 0 0#2048) || anySubnormal f w (u.p p) (vs.getD 1 0#2048) ||
            fmtF32.isSubnormal (elem (vs.getD 2 0#2048) 32 0) || fmtF32.isSubnormal r.1))) ∧
  ∀ (t : ElemType) (p : Pred) (f : Nat → Int), t.isInt = true →
    (iTreeSum t false t.width (leaves t.width p f)).1 =
      (((List.range (2048 / t.width)).filter (active p t.width ·)).foldl (fun a i => a + f i) 0 % 2 ^ t.width).toNat ∧
    (iTreeSum t false t.width (leaves t.width p f)).2 = 0#7 ∧
    ∀ (comb : Nat → Nat → Nat × Flags) (fin : Nat → Nat × Flags) (id : Nat) (g : Nat → Nat),
      (∀ i, i < 2048 / t.width → active p t.width i = false) → bitTree t.width comb fin id (leaves t.width p g) = (id, 0#7)

/-- R176: VSCAN writes inclusive prefixes of the active elements from left to right: the first as it is (a NaN as the canonical one), each next
one combined with the prefix before it; inactive elements keep their value. The model's choice: VSCAN's forms take the mod of their class [log
35]. -/
def Obligations.VectorScans : Prop :=
  (∀ (d s1 : VReg) (p : PReg) (t : ElemType) (m : BitVec 2) (s u v : State) (a : Vec), Runs s → VReads [s1] (begun s) [a] u →
    let w := t.width
    let f := fmtOf t
    let first := fun (_ : Nat) (x : Nat) => if !t.isInt && f.isNaN x then (f.canonNaN, f.sFlag x) else (x, 0#7)
    let scan := fun (comb : Nat → Nat → Nat → Nat × Flags) => scanFrom w (u.p p) a (u.v d) first comb (2048 / w) 0 none
    let mins := scan fun _ z x => minMax t true z x
    let maxs := scan fun _ z x => minMax t false z x
    let sumI := scan fun _ z x => intInto t (vSatOf u.me m) (intOf t z + intOf t x)
    let sumF := scan fun i z x => fAdd f (vModeOf u.me m) (u.rnd i) z x
    (VWrites d (pack w mins.1) (u.p p) u v → exec (.vscanMin d s1 p t m) s = .next (vretired s (raised v mins.2) false 0)) ∧
    (VWrites d (pack w maxs.1) (u.p p) u v → exec (.vscanMax d s1 p t m) s = .next (vretired s (raised v maxs.2) false 0)) ∧
    (t.isInt = true → VWrites d (pack w sumI.1) (u.p p) u v → exec (.vscanAdd d s1 p t m) s = .next (vretired s (raised v sumI.2) false 0)) ∧
    (t.isInt = false → VWrites d (pack w sumF.1) (u.p p) u v → exec (.vscanAdd d s1 p t m) s = .next (vretired s (raised v sumF.2)
      (anySubnormal f w (u.p p) a || anySubnormal f w (u.p p) (pack w sumF.1)) 0))) ∧
  ∀ (w : Nat) (p : Pred) (a old : Vec) (first : Nat → Nat → Nat × Flags) (comb : Nat → Nat → Nat → Nat × Flags) (n i : Nat) (run : Option Nat),
    (active p w i = false → scanFrom w p a old first comb (n + 1) i run =
      (elem old w i :: (scanFrom w p a old first comb n (i + 1) run).1, (scanFrom w p a old first comb n (i + 1) run).2)) ∧
    (active p w i = true →
      let y := match run with | none => first i (elem a w i) | some z => comb i z (elem a w i)
      scanFrom w p a old first comb (n + 1) i run = (y.1 :: (scanFrom w p a old first comb n (i + 1) (some y.1)).1,
        y.2 ||| (scanFrom w p a old first comb n (i + 1) (some y.1)).2))

/-- What a vector instruction with a destination register that no stream is bound to leaves alone (R97, R154, R158). -/
def Obligations.VectorComputeFrame : Prop :=
  ∀ (d s1 s2 : VReg) (p : PReg) (t : ElemType) (m : BitVec 2) (s u : State), Runs s → Unbound s d → Unbound s s1 → Unbound s s2 →
    (∀ mk ∈ [Instr.vadd, .vsub, .vmul, .vfma, .vdiv, .vsh, .vdot], exec (mk d s1 s2 p t m) s = .next u → VectorFrame d s u) ∧
    (∀ mk ∈ [Instr.vsqrt, .vunNeg, .vunAbs, .vunRint, .vredAdd, .vredMin, .vredMax, .vredAnd, .vredOr, .vredXor, .vscanAdd, .vscanMin, .vscanMax],
      exec (mk d s1 p t m) s = .next u → VectorFrame d s u) ∧
    (∀ mk ∈ [Instr.vmin, .vmax, .vperm, .vzip, .vsel], exec (mk d s1 s2 p t) s = .next u → VectorFrame d s u) ∧
    ∀ mk ∈ [Instr.vunPopc, .vunClz, .vlogAnd, .vlogOr, .vlogXor, .vlogAndn, .vlogOrn, .vlogNand, .vlogNor, .vlogXnor, .vlogNot, .vmov],
      exec (mk d s1 p t) s = .next u → VectorFrame d s u

/-- R189, R199, R209, R210: how a local-store address is decoded, first at the issuing core, then at the owner; the full/empty units LDFE, STFE and
FEOP. -/
def Obligations.LocalAddresses : Prop :=
  ((∀ (me n : Nat) (ea : Word) (win : Bool),
    let core := if ea.getLsbD 31 then (ea.extractLsb' 18 12).toNat else me
    let off := (ea.extractLsb' 0 18).toNat
    (ea.extractLsb' 32 32 ≠ 0#32 ∨ (ea.getLsbD 31 = false ∧ ea.extractLsb' 18 13 ≠ 0#13) → lsFront me ea n win = .error .localAddress) ∧
    (ea.extractLsb' 32 32 = 0#32 → ea.getLsbD 31 = true ∨ ea.extractLsb' 18 13 = 0#13 →
      (ea.getLsbD 30 = true → win = false ∨ core = me ∨ 24 < off → lsFront me ea n win = .error .localAddress) ∧
      (ea.getLsbD 30 = false ∨ (win = true ∧ core ≠ me ∧ off ≤ 24) →
        (ea.toNat % n ≠ 0 → lsFront me ea n win = .error .misaligned) ∧
        (ea.toNat % n = 0 → ea.getLsbD 30 = true → lsFront me ea n win = .ok ⟨core, (ea.extractLsb' 3 2).toNat, true⟩) ∧
        (ea.toNat % n = 0 → ea.getLsbD 30 = false → lsFront me ea n win = .ok ⟨core, off, false⟩)))) ∧
  ∀ (s : State) (me n : Nat) (a : LsAddr),
    (a.mbox = true → ownerFault s me a n = none) ∧
    (a.mbox = false → a.core ≠ me → s.partOf a.core ≠ s.partOf me ∨ s.mates me a.core = false → ownerFault s me a n = some .remoteBoundary) ∧
    (a.mbox = false → a.core = me ∨ (s.partOf a.core = s.partOf me ∧ s.mates me a.core = true) →
      ((s.core a.core).S < a.off + n → ownerFault s me a n = some .outsideScratchpad) ∧
      (a.off + n ≤ (s.core a.core).S → ownerFault s me a n = none))) ∧
  (∀ (d b s1 s2 : GReg) (off : BitVec 10) (f : BitVec 5), let rr := fun (_ : UnitInfo) (vs : List Word) => vs.getD 0 0#64 + vs.getD 1 0#64 <<< f.toNat
    SyncUnit (.ldfe d b off) [b] (fun u vs => u.ea (vs.getD 0 0#64) off 8) (fun _ => .ldfe) true d ∧
    SyncUnit (.stfe d b off) [b, d] (fun u vs => u.ea (vs.getD 0 0#64) off 8) (fun vs => .stfe (vs.getD 1 0#64)) true 0#5 ∧
    SyncUnit (.feopSet s1 s2 f) [s1, s2] rr (fun _ => .feSet) false 0#5 ∧ SyncUnit (.feopClr s1 s2 f) [s1, s2] rr (fun _ => .feClr) false 0#5 ∧
    SyncUnit (.feopQry d s1 s2 f) [s1, s2] rr (fun _ => .feQry) false d ∧ SyncUnit (.feopLdff d s1 s2 f) [s1, s2] rr (fun _ => .ldff) false d) ∧
  ∀ (c : Core) (off : Nat) (v : Word),
    let word := memWord c.store off
    opPerform c .ldfe off false = (setFull c off false, word) ∧
    opPerform c (.stfe v) off false = (setFull { c with store := memWrite c.store off 8 v.toNat } off true, 0#64) ∧
    opPerform c .feSet off false = (setFull c off true, 0#64) ∧ opPerform c .feClr off false = (setFull c off false, 0#64) ∧
    opPerform c .feQry off false = (c, if fullAt c off false then 1#64 else 0#64) ∧ opPerform c .ldff off false = (c, word) ∧
    (∀ b, fullAt (setFull c off b) off false = b) ∧ (∀ b o, o / 8 ≠ off / 8 → fullAt (setFull c off b) o false = fullAt c o false) ∧
    (∀ b, emptyAt (setFull c off b) off false = !b) ∧ (∀ b, (setFull c off b).store = c.store)

/-- R193 to R195, R197, R206 to R208: LD, LDX, ST, STX and XCH on the own scratchpad, inside the trick, with the compact forms. The model's
choice: an XCH whose d CMODE remaps pops it and then pushes [log 65]. -/
def Obligations.OwnLoadsAndStores : Prop :=
  (∀ (d b s1 s2 : GReg) (off : BitVec 10) (f : BitVec 5) (z : BitVec 2) (x : Bool), let n := 2 ^ z.toNat
    LoadsOwn (.ld d b off z x) [b] (fun u vs => u.ea (vs.getD 0 0#64) off n) n x d ∧
    LoadsOwn (.ldx d s1 s2 f z x) [s1, s2] (fun _ vs => vs.getD 0 0#64 + vs.getD 1 0#64 <<< f.toNat) n x d ∧
    StoresOwn (.st d b off z) [b, d] (fun u vs => u.ea (vs.getD 0 0#64) off n) n ∧
    StoresOwn (.stx d s1 s2 f z) [s1, s2, d] (fun _ vs => vs.getD 0 0#64 + vs.getD 1 0#64 <<< f.toNat) n ∧
    ∀ (s t u : State) (a i v : Word) (o : Nat), Runs s → Reads [s1, s2, d] (begun s) [a, i, v] t → InOwn t (a + i <<< f.toNat) n o →
      StoreFree t o n → LogRoom (loaded t o n) o n →
      Writes d (extendLoad n x (memRead t.mine.store o n)) (stored (loaded t o n) o n (v.toNat % 2 ^ (8 * n))) u →
      exec (.xch d s1 s2 f z x) s = .next (retired s u)) ∧
  ∀ (d b : GReg) (off : BitVec 4),
    LoadsOwn (.cLd d b off) [b] (fun u vs => u.ea (vs.getD 0 0#64) (off.setWidth 10) 8) 8 false d ∧
    StoresOwn (.cSt d b off) [b, d] (fun u vs => u.ea (vs.getD 0 0#64) (off.setWidth 10) 8) 8

/-- R189, R190, R193, R194, R208, R278: loads, stores and XCH on another core's scratchpad: outside tricks, with a request that reaches the owner
after the latency of the innermost scope shared. A local-store unit whose address is at fault traps with the address, before anything is done
(R45): LD, LDX, ST, STX inside their trick, a full/empty unit outside tricks. The model's choice: the latency is the unloaded one, between cores
of the die or the package for a spare [log 5], and an XCH whose d CMODE remaps pops it and keeps room [log 65]. -/
def Obligations.LocalStoreRequests : Prop :=
  ((∀ (d b s1 s2 : GReg) (off : BitVec 10) (f : BitVec 5) (z : BitVec 2) (x : Bool), let n := 2 ^ z.toNat
    LoadsOther (.ld d b off z x) [b] (fun u vs => u.ea (vs.getD 0 0#64) off n) n x d ∧
    LoadsOther (.ldx d s1 s2 f z x) [s1, s2] (fun _ vs => vs.getD 0 0#64 + vs.getD 1 0#64 <<< f.toNat) n x d ∧
    StoresOther (.st d b off z) [b, d] (fun u vs => u.ea (vs.getD 0 0#64) off n) n ∧
    StoresOther (.stx d s1 s2 f z) [s1, s2, d] (fun _ vs => vs.getD 0 0#64 + vs.getD 1 0#64 <<< f.toNat) n ∧
    ∀ (s t : State) (a i v : Word) (la : LsAddr), Quiet s → Timely s → Reads [s1, s2, d] s [a, i, v] t →
      lsFront s.cur.1 (a + i <<< f.toNat) n false = .ok la → la.core ≠ s.cur.1 → Free t d →
      exec (.xch d s1 s2 f z x) s = .next (waiting s (sending (kept t d) (.xch n x (BitVec.ofNat 64 (v.toNat % 2 ^ (8 * n)))) la d) .reply)) ∧
  (∀ (d b : GReg) (off : BitVec 4),
    LoadsOther (.cLd d b off) [b] (fun u vs => u.ea (vs.getD 0 0#64) (off.setWidth 10) 8) 8 false d ∧
    StoresOther (.cSt d b off) [b, d] (fun u vs => u.ea (vs.getD 0 0#64) (off.setWidth 10) 8) 8) ∧
  ∀ (s : State) (a b : Nat), (s.core a).spare = false → (s.core b).spare = false →
    (a = b → latency s a b = 0) ∧ (a ≠ b → a / 4 = b / 4 → latency s a b = 1) ∧ (a / 4 ≠ b / 4 → a / 16 = b / 16 → latency s a b = 3) ∧
    (a / 16 ≠ b / 16 → a / 64 = b / 64 → latency s a b = 5) ∧ (a / 64 ≠ b / 64 → a / 1024 = b / 1024 → latency s a b = 24) ∧
    (a / 1024 ≠ b / 1024 → latency s a b = 96)) ∧
  ∀ (d b s1 s2 : GReg) (off : BitVec 10) (f : BitVec 5) (z : BitVec 2) (x : Bool) (s : State) (c : Cause), let n := 2 ^ z.toNat
    (∀ t a, Runs s → Reads [b] (begun s) [a] t → namesOther s.cur.1 (s.unitOf.ea a off n) = false →
      lsFront s.cur.1 (s.unitOf.ea a off n) n false = .error c →
      exec (.ld d b off z x) s = .next (trapped s { cause := c, addr := s.unitOf.ea a off n })) ∧
    (∀ t a i, Runs s → Reads [s1, s2] (begun s) [a, i] t → namesOther s.cur.1 (a + i <<< f.toNat) = false →
      lsFront s.cur.1 (a + i <<< f.toNat) n false = .error c →
      exec (.ldx d s1 s2 f z x) s = .next (trapped s { cause := c, addr := a + i <<< f.toNat })) ∧
    (∀ t a v, Runs s → s.me.accepted = [] → Reads [b, d] (begun s) [a, v] t → namesOther s.cur.1 (s.unitOf.ea a off n) = false →
      lsFront s.cur.1 (s.unitOf.ea a off n) n false = .error c →
      exec (.st d b off z) s = .next (trapped s { cause := c, addr := s.unitOf.ea a off n })) ∧
    (∀ t a, Quiet s → Reads [b] s [a] t → lsFront s.cur.1 (s.unitOf.ea a off 8) 8 true = .error c →
      exec (.ldfe d b off) s = .next (trapped s { cause := c, addr := s.unitOf.ea a off 8 })) ∧
    (∀ t a la, Quiet s → ¬ Timely s → Reads [b] s [a] t → lsFront s.cur.1 (s.unitOf.ea a off n) n false = .ok la → la.core ≠ s.cur.1 →
      exec (.ld d b off z x) s = .next (trapped s { cause := .timing, addr := s.unitOf.ea a off n }))

/-- R181 to R183, R193, R528: VLD, VST, VGATH and VSCAT with every active element in the own scratchpad, the compact forms among them; with an
active element in another core's scratchpad the access leaves the trick and is checked at its owners. The model's choice: the access leaves as a
whole, and the furthest owner decides when it is checked [log 71]. -/
def Obligations.VectorAccesses : Prop :=
  ((∀ (d : VReg) (s1 s2 : GReg) (p : PReg) (t : ElemType) (s u v w : State) (a o : Word) (l : List (Nat × Nat)), let n := t.width / 8
    let es := activeAddrs (u.p p) t.width fun i => a + o + BitVec.ofNat 64 (i * n)
    Runs s → Reads [s1, s2] (begun s) [a, o] u → (a + o).toNat % n = 0 → (∀ e ∈ es, InOwn u e.2 n (e.2.toNat % 2 ^ 18)) →
    (loadElems n es u = .ok (l, v) → VWrites d (mergeElems t (v.v d) l) (v.p p) v w →
      exec (.vld d s1 s2 p t) s = .next (retired s w) ∧
      (s2 = 0#5 → p = 0#3 → t = .n32 → exec (.cVld d s1) s = .next (retired s w))) ∧
    (s.me.accepted = [] → ∀ x, VReads [d] u [x] v → storeElems n t x es v = .ok ((), w) →
      exec (.vst d s1 s2 p t) s = .next (retired s w) ∧
      (s2 = 0#5 → p = 0#3 → t = .n32 → exec (.cVst d s1) s = .next (retired s w)))) ∧
  (∀ (d s2 : VReg) (s1 : GReg) (p : PReg) (t : ElemType) (s r u v w : State) (a : Word) (idx : Vec) (l : List (Nat × Nat)), let n := t.width / 8
    let es := activeAddrs (u.p p) t.width fun i => a + BitVec.ofNat 64 (elem idx t.width i * n)
    Runs s → Reads [s1] (begun s) [a] r → a.toNat % n = 0 → VReads [s2] r [idx] u → (∀ e ∈ es, InOwn u e.2 n (e.2.toNat % 2 ^ 18)) →
    (loadElems n es u = .ok (l, v) → VWrites d (mergeElems t (v.v d) l) (v.p p) v w →
      exec (.vgath d s1 s2 p t) s = .next (retired s w)) ∧
    (s.me.accepted = [] → ∀ x, VReads [d] u [x] v → storeElems n t x es v = .ok ((), w) →
      exec (.vscat d s1 s2 p t) s = .next (retired s w))) ∧
  (∀ (n i : Nat) (y : ElemType) (x : Vec) (ea : Word) (es : List (Nat × Word)) (s t : State) (l : List (Nat × Nat)), let o := ea.toNat % 2 ^ 18
    loadElems n [] s = .ok ([], s) ∧ storeElems n y x [] s = .ok ((), s) ∧
    (LoadFree s o n → loadElems n es (loaded s o n) = .ok (l, t) → loadElems n ((i, ea) :: es) s = .ok ((i, memRead s.mine.store o n) :: l, t)) ∧
    (StoreFree s o n → LogRoom s o n → storeElems n y x es (stored s o n (laneOf y (elem x y.width i))) = .ok ((), t) →
      storeElems n y x ((i, ea) :: es) s = .ok ((), t))) ∧
  ∀ (y : ElemType) (i : Nat) (old : Vec) (l : List (Nat × Nat)), let w := y.width
    i < 2048 / w →
    ((∀ e ∈ l, e.1 ≠ i) → elem (mergeElems y old l) w i = elem old w i) ∧
    ∀ v, (i, v) ∈ l → (l.map (·.1)).Nodup → elem (mergeElems y old l) w i = laneOf y v % 2 ^ w) ∧
  (∀ (d : VReg) (s1 s2 : GReg) (p : PReg) (t : ElemType) (s u : State) (a o : Word), let n := t.width / 8
    let es := activeAddrs (u.p p) t.width fun i => a + o + BitVec.ofNat 64 (i * n)
    Quiet s → Reads [s1, s2] s [a, o] u → (a + o).toNat % n = 0 →
    (∃ e ∈ es, namesOther s.cur.1 e.2 = true ∧ e.2.extractLsb' 32 32 = 0#32) → frontFault n es u = .ok ((), u) →
    exec (.vld d s1 s2 p t) s = .next (waiting s (sendingVector u false d p t es (u.v d)) .reply) ∧
    (s2 = 0#5 → p = 0#3 → t = .n32 → exec (.cVld d s1) s = .next (waiting s (sendingVector u false d p t es (u.v d)) .reply)) ∧
    ∀ x v, VReads [d] u [x] v →
      exec (.vst d s1 s2 p t) s = .next (waiting s (sendingVector v true d p t es x) .reply) ∧
      (s2 = 0#5 → p = 0#3 → t = .n32 → exec (.cVst d s1) s = .next (waiting s (sendingVector v true d p t es x) .reply))) ∧
  ∀ (d s2 : VReg) (s1 : GReg) (p : PReg) (t : ElemType) (s r u : State) (a : Word) (idx : Vec), let n := t.width / 8
    let es := activeAddrs (u.p p) t.width fun i => a + BitVec.ofNat 64 (elem idx t.width i * n)
    Quiet s → Reads [s1] s [a] r → a.toNat % n = 0 → VReads [s2] r [idx] u →
    (∃ e ∈ es, namesOther s.cur.1 e.2 = true ∧ e.2.extractLsb' 32 32 = 0#32) → frontFault n es u = .ok ((), u) →
    exec (.vgath d s1 s2 p t) s = .next (waiting s (sendingVector u false d p t es (u.v d)) .reply) ∧
    ∀ x v, VReads [d] u [x] v → exec (.vscat d s1 s2 p t) s = .next (waiting s (sendingVector v true d p t es x) .reply)

/-- R181, R182, R193, R195, R206, R242, R243: what loads and stores leave alone. A store of the own scratchpad changes no byte of the local store but
the `n` from the offset that its address gives on, VST and VSCAT those of their active elements; no register whose word lies elsewhere changes,
and nothing outside the core; a load changes its destination only. STG and VSTG leave memory and the local store as they are, and of the stores
that their trick holds they change those at the physical addresses of the bytes stored. -/
def Obligations.LoadStoreFrame : Prop :=
  (∀ (d b : GReg) (off : BitVec 10) (z : BitVec 2) (x : Bool) (s t : State) (o : Nat), let n := 2 ^ z.toNat
    Runs s → Plain s d → Plain s b → Memory.wf s.mine.store = true → InOwn s (s.unitOf.ea (s.g b) off n) n o →
    (LoadFree s o n → exec (.ld d b off z x) s = .next t → RegisterFrame d s t) ∧
    (StoreFree s o n → LogRoom s o n → s.me.accepted = [] → exec (.st d b off z) s = .next t →
      ComputeFrame s t ∧ t.me.v = s.me.v ∧ t.me.cflags = s.me.cflags ∧ t.mine.q = s.mine.q ∧ StoreFrame o n s t ∧
        memRead t.mine.store o n = (s.g d).toNat % 2 ^ (8 * n))) ∧
  (∀ (d i : VReg) (s1 s2 : GReg) (p : PReg) (t : ElemType) (s r v w u : State) (ks : List GReg) (vs : List Word) (es : List (Nat × Word))
      (x idx : Vec), let n := t.width / 8
    let frame := ComputeFrame s u ∧ u.me.v = s.me.v ∧ u.me.cflags = s.me.cflags ∧ u.mine.q = r.mine.q ∧
      ∀ a, (∀ e ∈ es, a < e.2.toNat % 2 ^ 18 ∨ e.2.toNat % 2 ^ 18 + n ≤ a) → memGet u.mine.store a = memGet s.mine.store a
    Runs s → s.me.accepted = [] → Unbound s d → Unbound s i → Memory.wf s.mine.store = true → Reads ks (begun s) vs r →
    (∀ e ∈ es, InOwn r e.2 n (e.2.toNat % 2 ^ 18)) → VReads [d] r [x] v → storeElems n t x es v = .ok ((), w) →
    (∀ a o, ks = [s1, s2] → vs = [a, o] → (a + o).toNat % n = 0 → es = activeAddrs (r.p p) t.width (fun j => a + o + BitVec.ofNat 64 (j * n)) →
      exec (.vst d s1 s2 p t) s = .next u → frame) ∧
    (∀ a, ks = [s1] → vs = [a] → a.toNat % n = 0 → VReads [i] r [idx] r →
      es = activeAddrs (r.p p) t.width (fun j => a + BitVec.ofNat 64 (elem idx t.width j * n)) → exec (.vscat d s1 i p t) s = .next u → frame)) ∧
  (∀ (d b : GReg) (off : BitVec 10) (z : BitVec 2) (s r v w y t : State) (a x : Word) (pa : Nat) (e : TlbEntry), let n := 2 ^ z.toNat
    let ea := s.unitOf.ea a off n
    Runs s → Reads [b] (begun s) [a] r → ea.toNat % n = 0 → Reads [d] r [x] v → translateU ea 1 v = .ok ((pa, e), y) →
    gStore ea n (x.toNat % 2 ^ (8 * n)) v = .ok ((), w) → exec (.stg d b off z) s = .next t →
    GlobalFrame s t ∧ t.mine.q = v.mine.q ∧ t.mine.store = s.mine.store ∧
      ∀ c, c < pa ∨ pa + n ≤ c → tabFind t.me.running.writes c = tabFind s.me.running.writes c) ∧
  ∀ (d : VReg) (s1 s2 : GReg) (p : PReg) (t : ElemType) (s r v w u : State) (a o : Word) (x : Vec), let n := t.width / 8
    let es := activeAddrs (r.p p) t.width fun i => a + o + BitVec.ofNat 64 (i * n)
    Runs s → Unbound s d → Reads [s1, s2] (begun s) [a, o] r → (a + o).toNat % n = 0 → VReads [d] r [x] v → gStoreElems n t x es v = .ok ((), w) →
    exec (.vstg d s1 s2 p t) s = .next u →
    GlobalFrame s u ∧ u.mine.q = r.mine.q ∧ u.mine.store = s.mine.store ∧
      ∀ c, (∀ pa ∈ gStoreAddrs n t x es v, c < pa ∨ pa + n ≤ c) → tabFind u.me.running.writes c = tabFind s.me.running.writes c

/-- R85, R98, R101, R103, R114, R126, R128, R135, R158: what ends the waits of contexts. An idle supervisor with a record wakes in the next tick;
a wait that is over leaves its context READY from the next tick, another is looked at again then; a WAIT retires with no helper left, or with
those left at its limit; the normaliser serves its queue in order, 8 ticks each. The model's choice: the tick in which a supervisor wakes [log
21], the one from which a helper counts as idle [log 69], a wait on a queue register ends when the unit's pops and pushes can all be made [log
67]. -/
def Obligations.CoreEvents : Prop :=
  ∀ (s : State) (c : CoreId) (x : CtxId), let k := c.toNat; let y := x.toNat; let v := s.ctx k y
    ((s.ctx k 15).life = .idle → (s.core k).trapq ≠ [] → s.ended k = false → exec (.supervisorWake c) s =
      .next (if s.tick < (s.core k).svIdle then s.post 1 (.supervisorWake c) else s.setCore k { s.core k with wakeAt := some (s.tick + 1) })) ∧
    (∀ til, v.life = .blocked (.interval til) → exec (.blockedIntervalEnd c x) s =
      .next (if til ≤ s.tick + 1 then s.ready k y else s.postPoll 1 (.blockedIntervalEnd c x))) ∧
    (∀ d, v.life = .blocked (.farReg d) → exec (.blockedIntervalEnd c x) s =
      .next (if ∃ e ∈ v.farq, e.d.toNat = d then s.postPoll 1 (.blockedIntervalEnd c x) else s.ready k y)) ∧
    (∀ loads stores, v.life = .blocked (.touch loads stores) → (s.core k).touched y loads stores = false →
      exec (.blockedIntervalEnd c x) s = .next (s.ready k y)) ∧
    (∀ q, q < 8 → v.life = .blocked (.queueReg [q] []) → exec (.queueRegisterUnblock c x) s =
      .next (if tabGet (s.core k).q q [] = [] then (s.endTrick k y).postPoll 1 (.queueRegisterUnblock c x) else s.ready k y)) ∧
    (∀ q, q < 8 → v.life = .blocked (.queueReg [] [q]) → exec (.queueRegisterUnblock c x) s =
      .next (if (s.core k).queueCount q + 1 ≤ queueDepthOf q then s.ready k y else (s.endTrick k y).postPoll 1 (.queueRegisterUnblock c x))) ∧
    (∀ e, v.life = .blocked .normaliser → (k, y) ∉ (s.quad (quadOf k)).norm → v.normEnd = some e →
      exec (.forfeitEnd c x) s = .next (if e + 1 + v.interval ≤ s.tick + 1 then s.ready k y else s.block k y (.interval (e + 1 + v.interval)))) ∧
    (∀ m l d u, v.life = .blocked (.helpers m l d) → liveOf s k m = 0#64 → ReplyWrites s k y d 0#64 u →
      exec (.waitRelease c x) s = .next (replied s k y u)) ∧
    (∀ m til d u, v.life = .blocked (.helpers m (some til) d) → til ≤ s.tick → ReplyWrites s k y d (liveOf s k m) u →
      exec (.waitLimitExpiry c x) s = .next (replied s k y u)) ∧
    (∀ h, v.life = .blocked (.helper h) → exec (.helperTaken c x) s =
      .next (if helperIdle s k h then s.ready k y else s.postPoll 1 (.helperTaken c x))) ∧
    ((s.ctx k 0).life = .blocked .tasks → exec (.taskLaneRetire c) s =
      .next (if tasksIdle s k then s.ready k 0 else s.postPoll 1 (.taskLaneRetire c))) ∧
    ∀ (q : QuadId) (j i : Nat) (rest : List (Nat × Nat)), (s.quad q.toNat).norm = (j, i) :: rest →
      let last := max s.tick (s.quad q.toNat).normFree + 7
      exec (.normaliserService q) s = .next ((s.modQuad q.toNat fun u => { u with norm := rest, normFree := last + 1 }).modCtx j i fun w =>
        { w with normEnd := some last })

/-- R190, R191, R194, R196, R199 to R202, R207 to R209, R475, R528: a request at its owner, which wakes, after those of its tick from lower
context identifiers. A fault answers as a trap at the requester; a request that a trick or the full/empty bit holds takes an entry of the owner's
table, and with none free is refused and sent again after 32 ticks, the sixteenth time with a trap; a deposit meets no write that the owner made
to the word in this tick, and is noted; else the request is performed, and the unit retires. Accepted stores are deposited in order; those that a
trick of the owner holds wait for the second tick after it [log 13], without an entry while the table has no room [log 78]; parked requests are
served in order when their condition holds. When the owners of a vector access have all checked it, its groups are parked or performed, and the
unit retires with the last; local stores of a word that a deposit met in this tick wait for the next one [log 71]. An owner that is away answers
after 256 ticks [log 43]. The logs named are the model's choice, and so is what counts as an entry of the table [log 22] and that a request wakes
its owner at once [log 58]. -/
def Obligations.RequestsAtOwners : Prop :=
  (∀ (s : State) (c : CoreId) (x : CtxId) (op : RemoteOp) (owner off : Nat) (mbox : Bool) (d : GReg) (n : Nat),
    let k := c.toNat
    let y := x.toNat
    let w := wakeAgent s owner
    let o := w.core owner
    (s.ctx k y).life = .blocked .reply → (s.ctx k y).req = some (.remote op owner off mbox d n) → owner ≠ k →
    (s.lowerDue k y bankRequest = true → exec (.remoteAccessPerform c x) s = .next (s.postPoll 0 (.remoteAccessPerform c x))) ∧
    (s.lowerDue k y bankRequest = false → w.away (w.core k).launch owner = true →
      exec (.remoteAccessPerform c x) s = .next (w.post 256 (.evictionRetryResend c x))) ∧
    (s.lowerDue k y bankRequest = false → w.away (w.core k).launch owner = false →
      (∀ f, ownerFault w k ⟨owner, off, mbox⟩ op.size = some f → exec (.remoteAccessPerform c x) s =
        .next (replyTraps w k y { cause := f, addr := BitVec.ofNat 64 (2 ^ 31 + owner * 2 ^ 18 + off) })) ∧
      (ownerFault w k ⟨owner, off, mbox⟩ op.size = none →
        let held := opTouches o 16 op off mbox
        let waits := op.waitsFor.isSome && (!opAllowed o op off mbox || queuedOn o off mbox)
        (held = true ∨ waits = true → w.parkUsed owner < 64 → exec (.remoteAccessPerform c x) s =
          .next (parkAt w owner { core := k, ctx := y, off := off, mbox := mbox, held := held })) ∧
        (held = true ∨ waits = true → 64 ≤ w.parkUsed owner →
          let r := w.modCore owner fun c => { c with pkRefused := c.pkRefused + 1 }
          (n < 15 → exec (.remoteAccessPerform c x) s = .next ((r.modCtx k y fun v => { v with req := some (.remote op owner off mbox d (n + 1)) }).post 32
            (.parkRefusalRetry c x))) ∧
          (15 ≤ n → exec (.remoteAccessPerform c x) s = .next (replyTraps r k y { cause := .retryLimit }))) ∧
        (held = false → waits = false →
          (∀ b a, op = .store b a → exec (.remoteAccessPerform c x) s =
            .next (acceptStores (replied w k y { w with cur := (k, y) }) k y [{ owner := owner, off := off, bytes := b, value := a }])) ∧
          ((∀ b a, op ≠ .store b a) →
            (op.deposits = true → mbox = false → o.wroteNow w.tick (wordsOf off op.size) = true →
              exec (.remoteAccessPerform c x) s = .next (w.post 1 (.remoteAccessPerform c x))) ∧
            (op.deposits = false ∨ mbox = true ∨ o.wroteNow w.tick (wordsOf off op.size) = false →
              let p := (opPerform o op off mbox).1
              ∀ u, ReplyWrites (w.setCore owner (if op.deposits = true ∧ mbox = false then noteDeposit p w.tick (wordsOf off op.size) else p)) k y
                  (if op.writes then d else 0#5) (opPerform o op off mbox).2 u →
                exec (.remoteAccessPerform c x) s = .next (replied w k y u))))))) ∧
  ∀ (s : State) (c : CoreId) (x : CtxId), let k := c.toNat; let y := x.toNat
    (∀ a rest, (s.ctx k y).accepted = a :: rest → let z := wakeAgent s a.owner; let o := z.core a.owner
      (z.lowerDue k y bankRequest = true → exec (.remoteStorePerform c x) s = .next (z.postPoll 0 (.remoteStorePerform c x))) ∧
      (z.lowerDue k y bankRequest = false → z.away (z.core k).launch a.owner = false →
        let words := wordsOf a.off a.bytes
        let keep := fun (b : Accepted) => z.modCtx k y fun v => { v with accepted := b :: rest }
        (o.touched 16 [] words = true → exec (.remoteStorePerform c x) s =
          .next ((keep { a with held := true, entry := a.entry || decide (z.parkUsed a.owner < 64), free := none }).postPoll 1 (.remoteStorePerform c x))) ∧
        (o.touched 16 [] words = false → a.held = true → a.free = none →
          exec (.remoteStorePerform c x) s = .next ((keep { a with free := some z.tick }).post 1 (.remoteStorePerform c x))) ∧
        (o.touched 16 [] words = false → a.held = false ∨ a.free ≠ none →
          (o.wroteNow z.tick words = true → exec (.remoteStorePerform c x) s = .next (z.post 1 (.remoteStorePerform c x))) ∧
          (o.wroteNow z.tick words = false → exec (.remoteStorePerform c x) s = .next (wakeAccepted
            ((z.setCore a.owner (noteDeposit { o with store := memWrite o.store a.off a.bytes a.value.toNat } z.tick words)).modCtx k y fun v =>
              { v with accepted := rest }) k y))))) ∧
    (∀ st d p t gs data, (s.ctx k y).life = .blocked .reply → (s.ctx k y).req = some (.vec st d p t gs data) → s.lowerDue k y bankRequest = false →
      let w := gs.foldl (fun s g => wakeAgent s g.owner) s
      (∀ g ∈ gs, g.owner ≠ k → w.away (w.core k).launch g.owner = false) →
      let n := t.width / 8
      (∀ f ea, elemFault w k y n true (allElems gs) = some (f, ea) →
        exec (.vectorRemoteChecks c x) s = .next (replyTraps (withdrawParked w k y) k y { cause := f, addr := ea })) ∧
      (elemFault w k y n true (allElems gs) = none →
        ((∀ g ∈ gs, groupHeld w k y st n g = false ∧ g.parked = false) →
          let gs' := gs.map fun g => { g with refusals := 0 }
          let v := w.modCtx k y fun v => { v with req := some (.vec st d p t gs' data) }
          let mine := (gs.filter (·.owner == k)).flatMap fun g => g.elems.flatMap fun e => wordsOf (e.2.toNat % 2 ^ 18) n
          exec (.vectorRemoteChecks c x) s =
            .next (if st = true ∧ (w.core k).depositedNow w.tick mine = true then v.post 1 (.vectorRemoteChecks c x)
              else vectorDone (gs'.foldl (fun s g => performGroup s k y g) v) k y)) ∧
        ∀ g, gs = [g] → g.owner ≠ k → g.parked = false → groupHeld w k y st n g = true →
          (w.parkUsed g.owner < 64 → exec (.vectorRemoteChecks c x) s =
            .next ((parkAt w g.owner { core := k, ctx := y, off := ((g.elems.head?.map (·.2)).getD 0#64).toNat % 2 ^ 18, mbox := false, held := true }).modCtx
              k y fun v => { v with req := some (.vec st d p t [{ g with refusals := 0, parked := true }] data) })) ∧
          (64 ≤ w.parkUsed g.owner → g.refusals < 15 → exec (.vectorRemoteChecks c x) s =
            .next (((w.modCore g.owner fun o => { o with pkRefused := o.pkRefused + 1 }).modCtx
              k y fun v => { v with req := some (.vec st d p t [{ g with refusals := g.refusals + 1 }] data) }).post 32 (.parkRefusalRetry c x))))) ∧
    (∀ st d p t gs data g, (s.ctx k y).req = some (.vec st d p t gs data) →
      let n := t.width / 8
      let left := gs.filter (·.owner != g.owner)
      (st = false → performGroup s k y g = s.modCtx k y fun v => { v with req := some (.vec st d p t left
        (mergeElems t data (g.elems.map fun e => (e.1, memRead (s.core g.owner).store (e.2.toNat % 2 ^ 18) n)))) }) ∧
      (st = true → g.owner ≠ k → performGroup s k y g = acceptStores (s.modCtx k y fun v => { v with req := some (.vec st d p t left data) }) k y
        (g.elems.map fun e => { owner := g.owner, off := e.2.toNat % 2 ^ 18, bytes := n, value := BitVec.ofNat 64 (laneOf t (elem data t.width e.1)) })) ∧
      (gs ≠ [] → vectorDone s k y = s) ∧
      (gs = [] → st = true → (s.ctx k y).life = .blocked .reply → vectorDone s k y = replied s k y { s with cur := (k, y) }) ∧
      (gs = [] → st = false → (s.ctx k y).life = .blocked .reply →
        ∀ u, VWrites d data (predOf (s.core k) (s.ctx k y) p) { s with cur := (k, y) } u → vectorDone s k y = replied s k y u)) ∧
    (∀ e, (s.core k).parking = [e] →
      let alone := fun (u : State) => { u with agenda := u.agenda.filter fun a => a.2 != .parkedRequestServe c }
      (∀ u, serveOne s k e [] = .inl u → (u.core k).parking = [] → exec (.parkedRequestServe c) s = .next (alone u)) ∧
      (∀ f, serveOne s k e [] = .inr f → exec (.parkedRequestServe c) s =
        .next ((alone (s.modCore k fun z => { z with parking := [{ e with free := f }] })).postPoll 1 (.parkedRequestServe c))) ∧
      ∀ op owner off mbox d n, e.held = false → (s.ctx e.core e.ctx).req = some (.remote op owner off mbox d n) → parkedBeyond s k e = false →
        opTouches (s.core k) (if k = e.core then e.ctx else 16) op off mbox = false →
        serveOne s k e [] =
          if opAllowed (s.core k) op off mbox = false then .inr none
          else if mbox = false ∧
            (if k = e.core then (s.core k).depositedNow s.tick [off / 8] = true
             else op.deposits = true ∧ (s.core k).wroteNow s.tick [off / 8] = true) then .inr none
          else .inl (completeUnit (s.modCore k fun z => { z with parking := [] }) e.core e.ctx (performOp op k off mbox d))) ∧
    (∀ op owner off mbox d n, (s.ctx k y).life = .blocked .reply → (s.ctx k y).req = some (.remote op owner off mbox d n) →
      (s.core k).halting = none →
      exec (.parkRefusalRetry c x) s = .next (s.post (latency s k owner) (.remoteAccessPerform c x)) ∧
      exec (.evictionRetryResend c x) s = .next (s.post (latency s k owner) (.remoteAccessPerform c x)))

/-- R216, R231, R236, R242, R243, R245, R246, R269: LDG, STG, VLDG and VSTG, with the compact forms: the effective address, the alignment check,
one access for each active element in ascending order, and the value's way to or from its register. One access inside a trick: a walk waits while
its class's HBM meter is exhausted, and pays for its reads; a translation fault or a capability fault traps with the address; a line that the
core does not hold is fetched first; a load gives, byte by byte, the trick's own latest store, else the pending trick's, else memory; one from a
host-resident address gives the host's value of its aligned word with the running trick's own stores in it [log 97]; a store stays in the trick. The model's choice: walks take no time beyond their charge, and which ones are charged [log 75]; the state of another
package's region is known here only under a grant [log 57]. -/
def Obligations.GlobalUnits : Prop :=
  ((∀ (d b : GReg) (off : BitVec 10) (z : BitVec 2) (x : Bool) (s t : State) (a : Word), Runs s → Reads [b] (begun s) [a] t →
    let n := 2 ^ z.toNat
    let ea := s.unitOf.ea a off n
    (ea.toNat % n ≠ 0 → exec (.ldg d b off z x) s = .next (trapped s { cause := .misaligned, addr := ea }) ∧
      exec (.stg d b off z) s = .next (trapped s { cause := .misaligned, addr := ea })) ∧
    (ea.toNat % n = 0 →
      (∀ v u w, gLoad ea n t = .ok (v, u) → Writes d (extendLoad n x v) u w → exec (.ldg d b off z x) s = .next (retired s w)) ∧
      (∀ v u w, Reads [d] t [v] u → gStore ea n (v.toNat % 2 ^ (8 * n)) u = .ok ((), w) → exec (.stg d b off z) s = .next (retired s w)))) ∧
  (∀ (d b : GReg) (off : BitVec 4) (s t : State) (a : Word), Runs s → Reads [b] (begun s) [a] t →
    let ea := s.unitOf.ea a (off.setWidth 10) 8
    ea.toNat % 8 = 0 →
      (∀ v u w, gLoad ea 8 t = .ok (v, u) → Writes d (BitVec.ofNat 64 v) u w → exec (.cLdg d b off) s = .next (retired s w)) ∧
      (∀ v u w, Reads [d] t [v] u → gStore ea 8 v.toNat u = .ok ((), w) → exec (.cStg d b off) s = .next (retired s w))) ∧
  (∀ (d : VReg) (s1 s2 : GReg) (p : PReg) (t : ElemType) (s u v w : State) (a o : Word), let n := t.width / 8
    let es := activeAddrs (u.p p) t.width fun i => a + o + BitVec.ofNat 64 (i * n)
    Runs s → Reads [s1, s2] (begun s) [a, o] u →
    ((a + o).toNat % n ≠ 0 → exec (.vldg d s1 s2 p t) s = .next (trapped s { cause := .misaligned, addr := a + o })) ∧
    ((a + o).toNat % n = 0 →
      (∀ l, gLoadElems n es u = .ok (l, v) → VWrites d (mergeElems t (v.v d) l) (v.p p) v w → exec (.vldg d s1 s2 p t) s = .next (retired s w)) ∧
      (∀ x, VReads [d] u [x] v → gStoreElems n t x es v = .ok ((), w) → exec (.vstg d s1 s2 p t) s = .next (retired s w)))) ∧
  ∀ (n i v : Nat) (y : ElemType) (x : Vec) (ea : Word) (es : List (Nat × Word)) (s t u : State) (l : List (Nat × Nat)),
    (gLoad ea n s = .ok (v, t) → gLoadElems n es t = .ok (l, u) → gLoadElems n ((i, ea) :: es) s = .ok ((i, v) :: l, u)) ∧
    (gStore ea n (laneOf y (elem x y.width i)) s = .ok ((), t) → gStoreElems n y x es t = .ok ((), u) →
      gStoreElems n y x ((i, ea) :: es) s = .ok ((), u))) ∧
  (∀ (ea : Word) (n : Nat) (s u : State) (pa : Nat) (e : TlbEntry), translateU ea 0 s = .ok ((pa, e), u) → hostResident pa = false →
    let (tag, lane, det) := u.holderOf u.cur.1
    (u.capReadFails u.cur.1 pa tag lane det = true → gLoad ea n s = .error (.trap { cause := .capability, addr := ea })) ∧
    (u.capReadFails u.cur.1 pa tag lane det = false →
      (u.holdsLine u.cur.1 (pa / 64) false = false → gLoad ea n s = .error (.stall (.line (pa / 64) false))) ∧
      (u.holdsLine u.cur.1 (pa / 64) false = true → LineRoom u (pa / 64) false →
        gLoad ea n s = .ok (ofBytes (readOver u.mem u.me pa n), noted u e (pa / 64) false)))) ∧
  (∀ (ea : Word) (n x : Nat) (s u : State) (pa : Nat) (e : TlbEntry), translateU ea 1 s = .ok ((pa, e), u) → hostResident pa = false →
    let (tag, lane, det) := u.holderOf u.cur.1
    (u.capFails u.cur.1 pa tag lane det = true → gStore ea n x s = .error (.trap { cause := .capability, addr := ea })) ∧
    (u.capFails u.cur.1 pa tag lane det = false →
      (u.holdsLine u.cur.1 (pa / 64) true = false → gStore ea n x s = .error (.stall (.line (pa / 64) true))) ∧
      (u.holdsLine u.cur.1 (pa / 64) true = true → LineRoom u (pa / 64) true →
        gStore ea n x s = .ok ((), speculated (noted u e (pa / 64) true) pa n x)))) ∧
  (∀ (ea : Word) (n : Nat) (s u v w : State) (pa : Nat) (e : TlbEntry), translateU ea 0 s = .ok ((pa, e), u) → hostResident pa = true →
    noteUsed e u = .ok ((), v) → hostTiming ea v = .ok ((), w) → let t := pa / 8 * 8
    (w.me.hostReplies.find? (·.1 == t) = none → gLoad ea n s = .error (.stall (.hostLoad t))) ∧
    (∀ x, w.me.hostReplies.find? (·.1 == t) = some (t, x) → let b := x.toNat / 2 ^ (8 * (pa - t)) % 2 ^ (8 * n)
      gLoad ea n s = .ok (ofBytes (readOwn w.me.running.hostWrites pa n b), w) ∧
      ∀ i, i < n → ((∀ p ∈ w.me.running.hostWrites, pa + i < p.1 ∨ p.1 + p.2.length ≤ pa + i) →
        (readOwn w.me.running.hostWrites pa n b).getD i 0#8 = (toBytes n b).getD i 0#8))) ∧
  (∀ (ea : Word) (n x : Nat) (s : State), let k := s.cur.1
    (s.walkWaits k (s.clsOf k) s.mine.vmroot ea.toNat = true →
      gLoad ea n s = .error (.stall (.walk ea.toNat)) ∧ gStore ea n x s = .error (.stall (.walk ea.toNat))) ∧
    (s.walkWaits k (s.clsOf k) s.mine.vmroot ea.toNat = false →
      let p := s.payWalk k (s.clsOf k) s.mine.vmroot ea.toNat
      (∀ f, p.translate k s.mine.vmroot ea 0 = .error f → gLoad ea n s = .error (.trap (f.trap ea 0))) ∧
      ∀ f, p.translate k s.mine.vmroot ea 1 = .error f → gStore ea n x s = .error (.trap (f.trap ea 1)))) ∧
  ∀ (m : List Host.Cell) (v : Ctx) (pa n i : Nat), i < n →
    (∀ b, tabFind v.running.writes (pa + i) = some b → (readOver m v pa n).getD i 0#8 = b) ∧
    (tabFind v.running.writes (pa + i) = none →
      (∀ t b, v.pending = some t → tabFind t.writes (pa + i) = some b → (readOver m v pa n).getD i 0#8 = b) ∧
      (v.pending = none ∨ (∃ t, v.pending = some t ∧ tabFind t.writes (pa + i) = none) → (readOver m v pa n).getD i 0#8 = memGet m (pa + i)))

/-- R185, R218 to R222, R224, R231, R236, R239, R244 to R246, R405, R423: a commit makes the stores of the pending trick, and no other byte,
those of memory, all at once; its lines are then held by the core alone, and the context has no pending trick. PREF retires without a fault
whatever its address, and asks for a line that nothing waits for; TCUT, FENCE, ACQ and REL retire once the context has no uncommitted trick and
no far atomic is still to be performed, those of scope pod once what was written to pages of other packages is performed there. The events behind
them: commits and their grants, which a lease held by another context holds up, trump admissions, line requests at the home, and probes of
stopped cores. The model's choices: batches [log 84], the tick of a local commit [log 52], what a release at scope pod waits for [log 41], the
order of two tricks that ended in one tick [log 80], what goes ahead at a home [log 85], when a trump is admitted [log 73]. -/
def Obligations.MemoryOrder : Prop :=
  (∀ (s : State) (k x : Nat) (t : Trick), s.sound → (s.ctx k x).pending = some t → tabWf t.writes = true →
    let u := s.commit k x
    (∀ a b, tabFind t.writes a = some b → memGet u.mem a = b) ∧ (∀ a, tabFind t.writes a = none → memGet u.mem a = memGet s.mem a) ∧
    u.sound ∧ (u.ctx k x).pending = none ∧ (u.ctx k x).running = (s.ctx k x).running ∧ (u.core k).store = (s.core k).store ∧
    (∀ l ∈ t.wlines, tabFind u.dir l = some { owner := some k, sharers := [] }) ∧
    (∀ j, j ≠ k → (u.core j).store = (s.core j).store)) ∧
  ((∀ (b : GReg) (off : BitVec 10) (s t : State) (a : Word), Runs s → Reads [b] (begun s) [a] t →
    let ea := s.unitOf.ea a off 1
    let dropped := exec (.prefRd b off) s = .next (retired s t) ∧ exec (.prefOwn b off) s = .next (retired s t) ∧
      exec (.prefSlc b off) s = .next (retired s t)
    (t.tlbHit t.cur.1 t.mine.vmroot ea.toNat = none ∨ ea.extractLsb' 56 8 ≠ 0#8 → dropped) ∧
    ∀ e, t.tlbHit t.cur.1 t.mine.vmroot ea.toNat = some e → ea.extractLsb' 56 8 = 0#8 →
      (∀ f, t.checkPage (t.partOf t.cur.1) e ea.toNat 0 = .error f → dropped) ∧
      ∀ pa, t.checkPage (t.partOf t.cur.1) e ea.toNat 0 = .ok pa →
        (hostResident pa = true ∨ t.leaseHeld (· == pa / 64) (some t.cur) = true ∨ t.lineBusy (pa / 64) = true → dropped) ∧
        (hostResident pa = false → t.leaseHeld (· == pa / 64) (some t.cur) = false → t.lineBusy (pa / 64) = false →
          let asked := fun (kind : LineKind) =>
            retired s (t.post (lineLatency t t.cur.1 (pa / 64)) (.homeLineRequest (BitVec.ofNat 46 (pa / 64)) (cid t.cur.1) kind))
          exec (.prefRd b off) s = .next (asked .prefRd) ∧ exec (.prefOwn b off) s = .next (asked .prefOwn) ∧
            exec (.prefSlc b off) s = .next (asked .prefSlc))) ∧
  ∀ (s : State) (sc : Scope), Quiet s → exec .tcut s = .next (retiredOut s s) ∧ exec .cTcut s = .next (retiredOut s s) ∧
    exec (.acq sc) s = .next (retiredOut s s) ∧
    (sc ≠ .pod ∨ s.podReleased s.cur.1 = true → exec (.fence sc) s = .next (retiredOut s s) ∧ exec (.rel sc) s = .next (retiredOut s s)) ∧
    (sc = .pod → s.podReleased s.cur.1 = false →
      let u := (s.flushDirty s.cur.1 s.cur.2 (s.clsOf s.cur.1)).block s.cur.1 s.cur.2 .podRelease
      exec (.fence sc) s = .next u ∧ exec (.rel sc) s = .next u)) ∧
  ∀ (s : State) (c : CoreId) (x : CtxId), let k := c.toNat; let y := x.toNat
    (∀ t, (s.ctx k y).pending = some t → t.writes = [] → exec (.localCommit c x) s =
      .next (if commitHeld s k y t then s.post 1 (.localCommit c x) else s.commitNext k y)) ∧
    (∀ t, (s.ctx k y).pending = some t → t.writes ≠ [] → t.due = s.tick →
      let i := Instr.commitGrant c x
      let keys := (t.wlines.filter fun l => !(s.ctx k y).leases? s.tick l).map lineKey
      let held := (t.trump = false ∧ s.behind i keys = true) ∨ s.writeHeld (s.near k) t.wlines (some (k, y)) true = true
      let g := granted s k t
      let later := exec i s = .next ((redue s k y 1).post 1 i)
      (commitHeld s k y t = true ∨ s.exhausted (s.clsOf k) 3 = true → later) ∧
      (commitHeld s k y t = false → s.exhausted (s.clsOf k) 3 = false →
        (∀ l ∈ t.wlines, s.podRemote (l * 64) = false ∧ s.needPage (l * 64) k true = none ∧ probeStopped s k l true = none) →
        (s.lowerDue (if t.trump then 0 else k) (if t.trump then 0 else y + 1) (commitDue s) = true → exec i s = .next (s.post 0 i)) ∧
        (s.lowerDue (if t.trump then 0 else k) (if t.trump then 0 else y + 1) (commitDue s) = false →
          (held → exec i s = .next ((redue s k y 1).hold i keys 1)) ∧
          (¬ held → t.trump = false → mayJoin ((s.part (s.partOf k)).batchNow s.tick) g = false → later) ∧
          (¬ held → t.trump = true ∨ mayJoin ((s.part (s.partOf k)).batchNow s.tick) g = true →
            let u := (s.squashIn (s.near k) (meetsTrick s.tick t.wlines) (some (k, y))).unhold i
            exec i s = .next (((joinBatch u (s.partOf k) g t.trump).charge (s.clsOf k) 3 1).commitNext k y))))) ∧
    (∀ p : BitVec 2, trumpActive s p.toNat = true → exec (.trumpAdmission p) s = .next s) ∧
    (∀ (p : BitVec 2) (v : Ctx), trumpActive s p.toNat = false → s.cores = [(k, s.core k)] → s.partOf k = p.toNat → (s.core k).ctxs = [(y, v)] →
      v.life = .blocked .trump →
      ((s.core k).halting.isSome = true ∨ (s.core k).stopped = true → exec (.trumpAdmission p) s = .next s) ∧
      ((s.core k).halting = none → (s.core k).stopped = false →
        (admissible v = false → exec (.trumpAdmission p) s = .next (s.post 1 (.trumpAdmission p))) ∧
        (admissible v = true → exec (.trumpAdmission p) s =
          .next ((s.modCtx k y fun v => { v with running := { v.running with trump := true } }).ready k y)))) ∧
    (∀ (l : LineId) (kind : LineKind), let i := Instr.homeLineRequest l c kind
      tabFind s.dir l.toNat = none → s.podRemote (l.toNat * 64) = false → goesAhead s k l.toNat i = true ∨ s.behind i [lineKey l.toNat] = false →
      leasedAway s k l.toNat = false → s.needPage (l.toNat * 64) k (kind == .own || kind == .prefOwn) = none →
      (s.meterOut k 0 = true → exec i s = .next (s.hold i [lineKey l.toNat])) ∧
      (s.meterOut k 0 = false →
        let u := (s.unhold i).charge (s.clsOf k) 0 1
        let holds := fun (e : DirEntry) (own : Bool) => Host.Outcome.next (wakeLine { u with dir := tabSet u.dir l.toNat e } k l.toNat own)
        (kind = .prefSlc → exec i s = .next { u with dir := tabSet u.dir l.toNat { owner := none, sharers := [] } }) ∧
        (kind = .own ∨ kind = .prefOwn → exec i s = holds { owner := some k, sharers := [] } true) ∧
        (kind = .rd ∨ kind = .prefRd → exec i s = holds { owner := none, sharers := [k] } false))) ∧
    (∀ (ls : List Nat) (who : Option (Nat × Nat)) (p : Nat → Bool) (own : Bool) (j z : Nat) (l : Lease), some (j, z) ≠ who →
      (∃ cs, (j, cs) ∈ s.cores ∧ ∃ v, (z, v) ∈ cs.ctxs ∧ ∃ n, (n, l) ∈ v.leases) → l.inForce s.tick = true → l.pa / 64 ∈ ls →
        s.writeHeld p ls who own = true) ∧
    ∀ (l : LineId) (e : DirEntry), tabFind s.dir l.toNat = some e → (s.core k).stopped = true →
      (e.owner = some k → exec (.probeTimeout l c) s = .next (({ s with dir := tabSet s.dir l.toNat { e with owner := none } }).post 0
        (.machineCheck (.partition (BitVec.ofNat 2 (s.partOf k)))))) ∧
      (e.owner ≠ some k → e.sharers.contains k = true → exec (.probeTimeout l c) s =
        .next (({ s with dir := tabSet s.dir l.toNat { e with sharers := e.sharers.filter (· != k) } }).post 0 (.machineCheck (.core c))))

/-- R250 to R256, R258: LEASE, UNLEASE, LSTAT, the grant at the home and the expiry. -/
def Obligations.Leases : Prop :=
  (∀ (d s1 s2 : GReg) (s t u : State) (a n : Word) (pa : Nat) (e : TlbEntry), Quiet s → Reads [s1, s2] s [a, n] t → Free t d →
    let line : Word := a &&& ~~~63#64
    translateU line 1 (kept t d) = .ok ((pa, e), u) →
    (hostResident pa = true ∨ u.podRemote pa = true → exec (.lease d s1 s2) s = .next (trapped s { cause := .leaseTarget, addr := line })) ∧
    (hostResident pa = false → u.podRemote pa = false →
      let (tag, lane, det) := u.holderOf u.cur.1
      u.capFails u.cur.1 pa tag lane det = false →
      (∀ i v, slotOf u.me line.toNat = some i → Writes d 2#64 u v → exec (.lease d s1 s2) s = .next (retiredOut s v)) ∧
      (slotOf u.me line.toNat = none →
        (∀ v, (∀ i, i < 4 → (tabFind u.me.leases i).isSome = true) → Writes d 0#64 u v → exec (.lease d s1 s2) s = .next (retiredOut s v)) ∧
        ∀ i, i < 4 → tabFind u.me.leases i = none → (∀ j, j < i → (tabFind u.me.leases j).isSome = true) →
          let dur := if n = 0#64 ∨ 512 < n.toNat then 512 else n.toNat
          exec (.lease d s1 s2) s = .next (waiting s ((u.modCtx u.cur.1 u.cur.2 fun v => { v with
            leases := tabSet v.leases i { va := line.toNat, pa := pa, grant := none, dur := dur, ended := false }
            req := some (.lease i d) }).post (lineLatency u u.cur.1 (pa / 64)) (.leaseGrant (cid u.cur.1) (xid u.cur.2))) (.lease i))))) ∧
  (∀ (d s1 : GReg) (s t u : State) (a : Word), Quiet s → Reads [s1] s [a] t → (d = 0#5 ∨ Timely s) →
    let line := (a &&& ~~~63#64).toNat
    (slotOf t.me line = none → Writes d 0#64 t u → exec (.unlease d s1) s = .next (retiredOut s u)) ∧
    (∀ i l, slotOf t.me line = some i → tabFind t.me.leases i = some l →
      Writes d (if l.inForce t.tick then 1#64 else 0#64) (t.modCtx t.cur.1 t.cur.2 fun v => { v with leases := endLease v.leases t.tick i }) u →
      exec (.unlease d s1) s = .next (retiredOut s u)) ∧
    (Timely s → Writes d (leaseStatus t.me line t.tick) t u → exec (.lstat d s1) s = .next (retiredOut s u)) ∧
    (¬ Timely s → exec (.lstat d s1) s = .next (trapped s { cause := .timing }))) ∧
  (∀ (s : State) (c : CoreId) (x : CtxId) (i j : Nat) (d : GReg) (l : Lease) (u : State), let k := c.toNat; let y := x.toNat
    let ev := Instr.leaseGrant c x
    let line := l.pa / 64
    (s.ctx k y).life = .blocked (.lease i) → (s.ctx k y).req = some (.lease j d) → tabFind (s.ctx k y).leases i = some l →
    (s.behind ev [lineKey line] = true ∨ s.leaseHeld (· == line) (some (k, y)) = true → exec ev s = .next (s.hold ev [lineKey line] 1)) ∧
    (s.behind ev [lineKey line] = false → s.leaseHeld (· == line) (some (k, y)) = false →
      (∀ f ∈ (s.ctx k y).leases, f.1 ≠ i → f.2.pa / 64 = line → f.2.inForce s.tick = false) →
      s.needPage l.pa k true = none → probeStopped s k line true = none →
      (tabFind s.dir line).isSome = true ∨ s.meterOut k 0 = false →
      let s2 := fillLine (s.unhold ev) k line .own
      let s3 := (s2.modCtx k y fun v => { v with
        leases := tabSet v.leases i { l with grant := some s2.tick, ended := (s2.core k).halting.isSome } }).post l.dur (.leaseExpiry c x (BitVec.ofNat 2 i))
      ReplyWrites s3 k y d 1#64 u → exec ev s = .next (replied s3 k y u))) ∧
  ∀ (s : State) (c : CoreId) (x : CtxId) (i : BitVec 2) (l : Lease) (g : Nat), tabFind (s.ctx c.toNat x.toNat).leases i.toNat = some l → l.grant = some g →
    g + l.dur ≤ s.tick → exec (.leaseExpiry c x i) s =
      .next (s.modCtx c.toNat x.toNat fun v => { v with leases := tabSet v.leases i.toNat { l with ended := true } })

/-- R218, R255, R259 to R261: the twelve FA operations. The unit queues its entry and retires; what each makes of the word, signed, unsigned or
read as binary64. An entry whose turn has come leaves for its word's home, an ordered one behind no other [the turns: log 17], and is performed
there in one step, with the write event it is; get writes nothing. The old value then reaches the register, and the entry leaves the
queue. A queue register that d names is popped for every operation and gets the old value, which is the model's choice [log 65]. -/
def Obligations.FarAtomics : Prop :=
  ((∀ (d s1 s2 : GReg) (sc : Scope) (o : Bool),
    FarUnit (.faAddN64 d s1 s2 sc o) 0 d s1 s2 sc o ∧ FarUnit (.faAndN64 d s1 s2 sc o) 1 d s1 s2 sc o ∧ FarUnit (.faOrN64 d s1 s2 sc o) 2 d s1 s2 sc o ∧
    FarUnit (.faXorN64 d s1 s2 sc o) 3 d s1 s2 sc o ∧ FarUnit (.faMinI64 d s1 s2 sc o) 4 d s1 s2 sc o ∧ FarUnit (.faMaxI64 d s1 s2 sc o) 5 d s1 s2 sc o ∧
    FarUnit (.faMinN64 d s1 s2 sc o) 6 d s1 s2 sc o ∧ FarUnit (.faMaxN64 d s1 s2 sc o) 7 d s1 s2 sc o ∧ FarUnit (.faSwapN64 d s1 s2 sc o) 8 d s1 s2 sc o ∧
    FarUnit (.faCasN64 d s1 s2 sc o) 9 d s1 s2 sc o ∧ FarUnit (.faAddF64 d s1 s2 sc o) 10 d s1 s2 sc o ∧ FarUnit (.faGetN64 d s1 s2 sc o) 11 d s1 s2 sc o) ∧
  ∀ old v c : Word,
    (farNew 0 old v c).1 = old + v ∧ (farNew 1 old v c).1 = old &&& v ∧ (farNew 2 old v c).1 = old ||| v ∧ (farNew 3 old v c).1 = old ^^^ v ∧
    ((farNew 4 old v c).1.toInt = min old.toInt v.toInt) ∧ ((farNew 5 old v c).1.toInt = max old.toInt v.toInt) ∧
    ((farNew 6 old v c).1.toNat = min old.toNat v.toNat) ∧ ((farNew 7 old v c).1.toNat = max old.toNat v.toNat) ∧
    (farNew 8 old v c).1 = v ∧ (farNew 9 old v c).1 = (if old = c then v else old) ∧
    (farNew 10 old v c) = (BitVec.ofNat 64 (fAdd fmtF64 .rne 0 old.toNat v.toNat).1, (fAdd fmtF64 .rne 0 old.toNat v.toNat).2) ∧
    (farNew 11 old v c).1 = old ∧ ∀ op, op ≠ 10 → (farNew op old v c).2 = 0#7) ∧
  (∀ (s t : State) (c : CoreId) (x : CtxId) (i : Nat) (e : FarEntry) (pa : Nat) (te : TlbEntry), let k := c.toNat; let y := x.toNat
    let root := (s.core k).vmroot
    nextFar s k y [] (s.ctx k y).farq = some (i, e) → e.refused = none → s.walkWaits k (s.clsOf k) root e.addr.toNat = false →
    farAddress (s.payWalk k (s.clsOf k) root e.addr.toNat) k y e = .ok (pa, te, t) → t.podRemote pa = false →
    let ev := Instr.farAtomicPerform c x
    let keys := [lineKey (pa / 64)]
    let held := ((s.ctx k y).leases? t.tick (pa / 64) = false ∧ t.behind ev keys = true) ∨ t.leaseHeld (· == pa / 64) (some (k, y)) = true ∨
      (e.op ≠ 11 ∧ t.writeHeld (t.near k) [pa / 64] (some (k, y)) false = true)
    (held → exec ev s = .next (t.hold ev keys 1)) ∧
    (¬ held → t.needPage pa k (e.op != 11) = none → probeStopped t k (pa / 64) (e.op != 11) = none →
      (tabFind t.dir (pa / 64)).isSome = true ∨ t.meterOut k 0 = false →
      (e.op = 11 → exec ev s = .next (farDone (t.unhold ev) k y pa e)) ∧
      (e.op ≠ 11 → exec ev s = .next (farDone ((t.squashIn (t.near k) (meetsTrick t.tick [pa / 64]) none).unhold ev) k y pa e)))) ∧
  (∀ (s : State) (k y pa : Nat) (e : FarEntry), let t := farDone s k y pa e
    let lat := if dieOf k = s.homeDie k (pa / 64) then Config.homeDie else Config.homePkg
    let old := memWord s.mem pa
    (e.op = 11 → t.mem = s.mem) ∧ (e.op ≠ 11 → t.mem = memPut s.mem pa (toBytes 8 (farNew e.op old e.v e.c).1.toNat)) ∧
    (e ∈ (s.ctx k y).farq →
      { e with old := some (old, (farNew e.op old e.v e.c).2), due := some (s.tick + lat) } ∈ (t.ctx k y).farq) ∧
    (2 * (s.tick + lat), .farAtomicReply (cid k) (xid y) none) ∈ t.agenda) ∧
  (∀ (s : State) (c : CoreId) (x : CtxId) (e : FarEntry) (w : Word) (fl : Flags), let k := c.toNat; let y := x.toNat
    ((s.ctx k y).farq.find? fun e => e.old.isSome && e.due.any fun t => decide (t ≤ s.tick)) = some e → e.old = some (w, fl) →
    exec (.farAtomicReply c x none) s =
      .next (wakeFar (writeThrough (s.modCtx k y fun v => { v with farq := v.farq.erase e }) k y e.d e.queue w fl) k y)) ∧
  (∀ (s : State) (k y : Nat), (s.core k).det = false → (∀ e ∈ (s.ctx k y).farq, e.old = none ∧ e.fault = none ∧
      e.sent = none ∧ e.due = none ∧ e.refused = none) → ∀ e r, (s.ctx k y).farq = e :: r →
    (∃ f, ((startFar s k y).ctx k y).farq.head? = some f ∧ f.due = some (s.tick + farLatency s k e)) ∧
    (2 * (s.tick + farLatency s k e), .farAtomicPerform (cid k) (xid y)) ∈ (startFar s k y).agenda ∧
    ∀ n f g, (s.ctx k y).farq[n]? = some f → ((startFar s k y).ctx k y).farq[n]? = some g → n ≠ 0 → f.ord = true → g = f) ∧
  ∀ (s : State) (k y : Nat) (d : GReg) (w : Word) (fl : Flags),
    (d ≠ 0#5 → Memory.wf (s.core k).store = true →
      let t := writeThrough s k y d none w fl
      rawG (t.core k) (t.ctx k y) d = w ∧ (∀ j, j ≠ d → rawG (t.core k) (t.ctx k y) j = rawG (s.core k) (s.ctx k y) j) ∧
        (t.ctx k y).cflags = (s.ctx k y).cflags ||| fl.setWidth 64 ∧ t.mem = s.mem) ∧
    ∀ q, let t := writeThrough s k y d (some q) w fl
      tabGet (t.core k).q q [] = tabGet (s.core k).q q [] ++ [w] ∧ (t.core k).store = (s.core k).store ∧
        (t.ctx k y).cflags = (s.ctx k y).cflags ||| fl.setWidth 64 ∧ t.mem = s.mem

/-- R265 to R267, R269, R272, R274, R276, R278: the capability units ask the directory; what each finds there: a status of 1 means that the state
changed, and comes when every copy of it in other packages is up to date, 2 that it already was the requested one, 0 a refusal. A change of a
region's state reaches every address of the region and no other whose entry the region does not meet; who may write and read then follows from
it. The model's choice: requests that race are decided at the directory in their order [log 18], and where the state of another package's region
is kept [log 57]. -/
def Obligations.Capabilities : Prop :=
  ((∀ (s t u v : State) (d s1 s2 : GReg) (w : Word),
    (Reads [s2] u [w] v → (w = 0xFFFF#64 ∨ ∀ l, v.launchOf v.cur.1 = some l → w.toNat < l.lanes) → (v.launchOf v.cur.1).isSome = true →
      ∀ (a : Word) (pa : Nat) (e : TlbEntry), Quiet s → Reads [s1] s [a] t → translateU a 0 t = .ok ((pa, e), u) → hostResident pa = false → Free v d →
        exec (.capGive d s1 s2) s = .next (waiting s (askingCap (kept v d) (.give w.toNat) a e d) .cap)) ∧
    (s.mine.phasePoint = true → AsksCap (.capClaim d s1) s t u .claim 0 d s1) ∧ AsksCap (.capSeal d s1) s t u .seal 1 d s1 ∧
    (s.cur.2 = 15 → AsksCap (.capUnseal d s1) s t u .unseal 1 d s1) ∧ (Timely s → AsksCap (.capQry d s1) s t u .qry 0 d s1) ∧
    AsksCap (.capQryWait d s1) s t u .qryWait 0 d s1) ∧
  (∀ (s : State) (c : CoreId) (x : CtxId) (op : CapOp) (page bytes va : Nat) (d : GReg), let k := c.toNat; let y := x.toNat
    let ev := Instr.capStateChange c (.own x)
    (s.ctx k y).life = .blocked .cap → (s.ctx k y).req = some (.cap op page bytes va d none) →
    (paPackage (page * 4096) = s.pkg → let early := capEarlier s ev page (contextId s k y)
      (early = true → exec ev s = .next (s.postPoll 0 ev)) ∧
      (early = false → s.behind ev [regionKey page] = true ∨ copyAwaited s page = true → exec ev s = .next (s.hold ev [regionKey page])) ∧
      (early = false → s.behind ev [regionKey page] = false → copyAwaited s page = false → exec ev s = .next (match
        capAct s k y op page bytes va d with
          | .ok t => t.unhold ev
          | .error true => s.hold ev [regionKey page]
          | .error false => (s.unhold ev).post 1 ev))) ∧
    (∀ (a : PeerAnswer) (w : Word) (u : State), a.reply = .value w →
      let mine := fun (o : Outstanding) => o.isCap k y && o.answeredBy a
      let g := s.gotPeer mine (.value w)
      let (tag, lane, _) := g.holderOf k
      s.hub.outstanding.any mine = true →
      (w ≠ 1#64 ∨ capAfter g.pkg tag lane op = none → ReplyWrites g k y d w u → exec (.capStateChange c (.answered x a)) s = .next (replied g k y u)) ∧
      ∀ n, w = 1#64 → capAfter g.pkg tag lane op = some n → ReplyWrites (g.setCap page bytes n) k y d w u →
        exec (.capStateChange c (.answered x a)) s = .next (replied (g.setCap page bytes n) k y u)) ∧
    exec (.capQryWaitRelease c x) s = .next (match capAct s k y op page bytes va d with
      | .ok t => t
      | .error _ => s.postPoll 1 (.capQryWaitRelease c x))) ∧
  ∀ (s u : State) (k y page bytes va tag lane : Nat) (det : Bool) (d : GReg), s.holderOf k = (tag, lane, det) → (s.ctx k y).life = .blocked .cap →
    let c := s.capAt (page * 4096)
    let mine := CapState.held s.pkg tag lane
    let fault : TrapInfo := { cause := .capability, addr := BitVec.ofNat 64 va }
    (∀ n, c ≠ mine ∨ (n = 0xFFFF ∧ det = true) → capAct s k y (.give n) page bytes va d = .ok (replyTraps s k y fault)) ∧
    (∀ n, c = mine → n = lane → n ≠ 0xFFFF → ReplyWrites s k y d 2#64 u → capAct s k y (.give n) page bytes va d = .ok (replied s k y u)) ∧
    (∀ n, c = mine → n ≠ lane → ¬(n = 0xFFFF ∧ det = true) → drainWaits s k page bytes = true → capAct s k y (.give n) page bytes va d = .error false) ∧
    (c = mine → ReplyWrites s k y d 2#64 u → capAct s k y .claim page bytes va d = .ok (replied s k y u)) ∧
    (c ≠ mine → c ≠ .sealed → ReplyWrites s k y d 0#64 u → capAct s k y .claim page bytes va d = .ok (replied s k y u)) ∧
    (c = .sealed → ReplyWrites s k y d 2#64 u → capAct s k y .seal page bytes va d = .ok (replied s k y u)) ∧
    ((∃ p t l, c = .held p t l ∧ c ≠ mine) ∨ (c = .opened ∧ det = true) → capAct s k y .seal page bytes va d = .ok (replyTraps s k y fault)) ∧
    (c ≠ .sealed → ReplyWrites s k y d 0#64 u → capAct s k y .unseal page bytes va d = .ok (replied s k y u)) ∧
    (ReplyWrites s k y d (capWord c bytes s.pkg tag lane) u → capAct s k y .qry page bytes va d = .ok (replied s k y u)) ∧
    (c = mine → ReplyWrites s k y d (capWord c bytes s.pkg tag lane) u → capAct s k y .qryWait page bytes va d = .ok (replied s k y u)) ∧
    (c ≠ mine → capAct s k y .qryWait page bytes va d = .error false) ∧
    let change := fun (r : State) (dst : CapState) (op : CapOp) =>
      (capChange (endRegionLeases r k page bytes) page bytes dst (some k) = none → capAct s k y op page bytes va d = .error true) ∧
      ∀ t, capChange (endRegionLeases r k page bytes) page bytes dst (some k) = some t →
        capAct s k y op page bytes va d = .ok (capCopied (changed t k y) page)
    (∀ n, c = mine → n ≠ lane → drainWaits s k page bytes = false → ¬(n = 0xFFFF ∧ det = true) →
      change (downgrade s k page bytes) (if n = 0xFFFF then .opened else .held s.pkg tag n) (CapOp.give n)) ∧
    (c = .sealed → change s mine CapOp.claim) ∧ (c = .sealed → change s CapState.opened CapOp.unseal) ∧
    (c = mine → drainWaits s k page bytes = false → change (downgrade s k page bytes) CapState.sealed CapOp.seal) ∧
    (c = .opened → det = false → change s CapState.sealed CapOp.seal)) ∧
  (∀ (s : State) (k y page bytes va : Nat) (op : CapOp) (d : GReg) (w : Word), (copyAwaited s page = true → capCopied s page = s) ∧
    ∀ (v : Ctx) (u : State), copyAwaited s page = false → s.hub.owed = [] → s.cores = [(k, s.core k)] → (s.core k).ctxs = [(y, v)] →
      v.req = some (.cap op page bytes va d (some (.value w))) → v.life = .blocked .cap → ReplyWrites s k y d w u → capCopied s page = replied s k y u) ∧
  (∀ (s : State) (page bytes pa : Nat) (c : CapState),
    (c = .opened ∨ s.keepsCap page bytes c = true → page * 4096 ≤ pa → pa < page * 4096 + bytes → (s.setCap page bytes c).capAt pa = c) ∧
    (0 < bytes → pa < page * 4096 ∨ page * 4096 + bytes ≤ pa →
      (∀ e ∈ s.caps, e.1 * 4096 ≤ pa → pa < e.1 * 4096 + e.2.bytes → meets (e.1 * 4096) e.2.bytes (page * 4096) bytes = false) →
      (s.setCap page bytes c).capAt pa = s.capAt pa)) ∧
  ∀ (s : State) (k pa tag lane : Nat) (det : Bool), hostResident pa = false →
    (s.capUnknown k pa = true → s.capFails k pa tag lane det = false ∧ s.capReadFails k pa tag lane det = false) ∧
    (s.capUnknown k pa = false →
      (s.capAt pa = .sealed → s.capFails k pa tag lane det = true ∧ s.capReadFails k pa tag lane det = false) ∧
      (s.capAt pa = .held s.pkg tag lane → s.capFails k pa tag lane det = false ∧ s.capReadFails k pa tag lane det = false) ∧
      (∀ p t l, s.capAt pa = .held p t l → ¬(p = s.pkg ∧ t = tag ∧ l = lane) → s.capFails k pa tag lane det = true ∧ s.capReadFails k pa tag lane det = det) ∧
      (s.capAt pa = .opened → s.capFails k pa tag lane det = det ∧ s.capReadFails k pa tag lane det = det))

/-- R282 to R285, R288, R289, R294 to R304, R423: the units of the matrix unit. With the launch's grant and legal operands a request with what it
latched joins the quad's queue and the context waits, an MMA in MATRIX, or waits for its class's GRANT meter; without the grant, and on an
operand that a check refuses, the unit traps: what TLDB, TQNT and MMA check, in the order of R298, R300 and R304. TSTC waits for the earlier
requests that decide what it stores, checks and rounds tile elements into the own local store inside its trick. That the operands are read when a
unit issues is the model's choice [log 31]. What MXCFG shows is reset at every placement [log 87]. -/
def Obligations.MatrixUnits : Prop :=
  (∀ (s : State), Quiet s → s.launchFlag s.cur.1 33 = true →
    let joins := fun (t : State) (r : MatrixReq) => Host.Outcome.next (waiting s (atMatrix t r) .unitReq)
    (∀ m n : BitVec 7, exec (.tcfg m n) s = joins s (.tcfg (m.toNat + 1) (n.toNat + 1))) ∧
    (∀ k, exec (.trel k) s = joins s (.trel k)) ∧
    (∀ d k, exec (.dtldStd d k) s = joins s (.dtldStd d.toNat k)) ∧
    (∀ d, Free s d → exec (.fctxRd d) s = joins (kept s d) (.fctxRd d)) ∧
    (∀ s1 t w, Reads [s1] s [w] t →
      (fmtLegal w = true → exec (.fctx s1) s = joins t (.fctx w)) ∧
      (fmtLegal w = false → exec (.fctx s1) s = .next (trapped s { cause := .operandRange }))) ∧
    (∀ (d : TReg) s1 t a off, Reads [s1] s [a] t → Own t a off →
      (a.toNat % 64 = 0 → off + 1024 ≤ t.mine.S → exec (.dtld d s1) s = joins t (.dtld d.toNat off)) ∧
      (a.toNat % 64 ≠ 0 → exec (.dtld d s1) s = .next (trapped s { cause := .misaligned, addr := a })) ∧
      (a.toNat % 64 = 0 → t.mine.S < off + 1024 → exec (.dtld d s1) s = .next (trapped s { cause := .outsideScratchpad, addr := a }))) ∧
    let ways := fun (t : State) (r : MatrixReq) => if t.meterBusy s.cur.1 3 = true
      then Host.Outcome.next (waiting s (meterHeld t (.matrix r)) (.meter 3))
      else joins (metered t r) r
    (∀ s1 s2 s3 t src o n, Reads [s1, s2, s3] s [src, o, n] t → let tldb := exec (.tldb s2 s1 s3) s
      ((∀ a, ¬ Own t src a) → tldb = .next (trapped s { cause := .localAddress, addr := src })) ∧
      ∀ a, Own t src a →
        (0x200000 < o.toNat + n.toNat → tldb = .next (trapped s { cause := .operandRange })) ∧
        (o.toNat + n.toNat ≤ 0x200000 →
          (src.toNat % 64 ≠ 0 ∨ o.toNat % 64 ≠ 0 ∨ n.toNat % 64 ≠ 0 → tldb = .next (trapped s { cause := .misaligned, addr := src })) ∧
          (src.toNat % 64 = 0 → o.toNat % 64 = 0 → n.toNat % 64 = 0 →
            (t.mine.S < a + n.toNat → tldb = .next (trapped s { cause := .outsideScratchpad, addr := src })) ∧
            (a + n.toNat ≤ t.mine.S → tldb = ways t (.tldb a o.toNat n.toNat))))) ∧
    (∀ (d : TReg) s1 t x, Reads [s1] s [x] t →
      (x.toNat / 2 ^ 36 ≠ 0 → exec (.tqnt d s1) s = .next (trapped s { cause := .operandRange })) ∧
      (x.toNat / 2 ^ 36 = 0 → exec (.tqnt d s1) s = ways t (.tqnt d.toNat (x.toNat % 2 ^ 18) (x.toNat / 2 ^ 18 % 2 ^ 18) (t.currentFmt s.cur.1)))) ∧
    (∀ (d : TReg) s1 (v : VReg) z t d0 d1 d2, (fmtTime (s.currentFmt s.cur.1)).isSome = true → Reads [s1, s1 + 1, s1 + 2] s [d0, d1, d2] t →
      let fmt := s.currentFmt s.cur.1
      let goes := fun (i : Instr) (from_ : Option Nat) =>
        (∀ c, mmaChecks from_ d0 d1 d2 fmt t = .error (.trap c) → exec i s = .next (trapped s c)) ∧
        (mmaChecks from_ d0 d1 d2 fmt t = .ok ((), t) → ∀ u, ways t (.mma d.toNat z from_ d0 d1 d2 fmt) = .next u →
          exec i s = .next (if t.meterBusy s.cur.1 3 = true then u else u.modCtx s.cur.1 s.cur.2 fun c => { c with life := .matrix }))
      goes (.mma d s1 z) none ∧ goes (.mmaV d s1 v z) (some v.toNat)) ∧
    ∀ (d : TReg) s1 v z, (fmtTime (s.currentFmt s.cur.1)).isSome = false → let i : TrapInfo := { cause := .illegal, detail := 1#8 }
      exec (.mma d s1 z) s = .next (trapped s i) ∧ exec (.mmaV d s1 v z) s = .next (trapped s i)) ∧
  (∀ (s : State) (v : Option Nat) (d0 d1 d2 fmt : Word),
    let kk := (d2.extractLsb' 0 12).toNat + 1
    let eA := halfBytes (fmt.extractLsb' 0 4).toNat
    let eB := halfBytes (fmt.extractLsb' 4 4).toNat
    let run := (kk * 64 * eA + 255) / 256
    let zero := d0.extractLsb' 52 12 = 0#12 ∧ d1.extractLsb' 42 22 = 0#22 ∧ d2.extractLsb' 32 32 = 0#32 ∧ d2.extractLsb' 12 4 = 0#4
    let vec := ∀ f, v = some f → f + run ≤ 32 ∧ ∀ p ∈ s.me.streams, p.1 < f ∨ f + run ≤ p.1
    let fitB := (d1.extractLsb' 0 21).toNat + (kk - 1) * 64 * eB + (s.mine.cols * eB + 1) / 2 ≤ 0x200000 ∧
      (fmt.extractLsb' 18 2 ≠ 0#2 → (d1.extractLsb' 21 21).toNat + 128 * ((kk + 31) / 32 - 1) + s.mine.cols ≤ 0x200000)
    let even := (v = none → d0.extractLsb' 0 3 = 0#3 ∧ d0.extractLsb' 36 3 = 0#3) ∧ d1.extractLsb' 0 6 = 0#6 ∧ d1.extractLsb' 21 6 = 0#6
    let fitA := (v = none → ∀ k, k < kk →
        (d0.extractLsb' 0 18).toNat + k * (d0.extractLsb' 36 16).toNat + (s.mine.rows * eA + 1) / 2 ≤ s.mine.S) ∧
      (fmt.extractLsb' 16 2 ≠ 0#2 → ∀ b, b < (kk + 31) / 32 → (d0.extractLsb' 18 18).toNat + 128 * b + s.mine.rows ≤ s.mine.S)
    let traps := fun (c : Cause) => mmaChecks v d0 d1 d2 fmt s = .error (.trap { cause := c })
    (¬ (zero ∧ vec ∧ fitB) → traps .operandRange) ∧ (zero → vec → fitB → ¬ even → traps .misaligned) ∧
    (zero → vec → fitB → even → ¬ fitA → traps .outsideScratchpad) ∧ (zero → vec → fitB → even → fitA → mmaChecks v d0 d1 d2 fmt s = .ok ((), s))) ∧
  (∀ (s : State) (d : TReg) (s1 s2 s3 : GReg) (v : VReg) (z : Bool) (m n : BitVec 7) (k : BitVec 4) (q : StdTable), s.launchFlag s.cur.1 33 = false →
    (Quiet s → ∀ i ∈ [Instr.tcfg m n, .trel k, .dtld d s1, .dtldStd d q, .fctx s1, .fctxRd s1, .tldb s2 s1 s3, .tqnt d s1, .mma d s1 z, .mmaV d s1 v z],
      exec i s = .next (trapped s { cause := .matrixNotGranted })) ∧
    (Runs s → ∀ i ∈ [Instr.tstcF32 d s2 s1, .tstcBf16 d s2 s1, .tstcF16 d s2 s1], exec i s = .next (trapped s { cause := .matrixNotGranted }))) ∧
  ∀ (d : TReg) (s1 s2 : GReg) (s t : State) (a r : Word), Runs s → s.launchFlag s.cur.1 33 = true → s.me.tileFree = false →
    Reads [s1, s2] (begun s) [a, r] t →
    let ahead := ((t.quad (quadOf s.cur.1)).matrix.filter fun e => e.core == s.cur.1 && tstcAwaits d e.req).length
    let row := r.toNat % 128; let n := r.toNat / 256 % 16 + 1
    let es := fun (f : Nat) => (List.range n).flatMap fun q => (List.range t.mine.cols).map fun j =>
      tstcBytes f (frm t.me) (t.rnd (128 * (row + q) + j)) (t.mine.tileElem d.toNat (row + q) j)
    ∀ (i : Instr) (f : Nat), (i, f) ∈ [(Instr.tstcF32 d s2 s1, 0), (Instr.tstcBf16 d s2 s1, 1), (Instr.tstcF16 d s2 s1, 2)] →
      let bs := (es f).flatMap (·.1)
      let traps := fun (c : TrapInfo) => exec i s = .next (trapped s c)
      (ahead ≠ 0 → exec i s = .next (s.block s.cur.1 s.cur.2 (.tileBusy ahead f d s2 s1))) ∧
      (ahead = 0 → (∀ off, ¬ Own t a off) → traps { cause := .localAddress, addr := a }) ∧
      ∀ off, ahead = 0 → Own t a off →
        (t.mine.rows < row + n → traps { cause := .operandRange }) ∧
        (row + n ≤ t.mine.rows → a.toNat % 8 ≠ 0 → traps { cause := .misaligned, addr := a }) ∧
        (row + n ≤ t.mine.rows → a.toNat % 8 = 0 → let last := off + n * t.mine.cols * (if f = 0 then 4 else 2)
          (t.mine.S < last → traps { cause := .outsideScratchpad, addr := a }) ∧
          (last ≤ t.mine.S → StoreFree t off bs.length → LogRoom t off bs.length →
            exec i s = .next (retired s (raised (stored t off bs.length (ofBytes bs)) ((es f).foldl (fun fl e => fl ||| e.2) 0#7)))))

/-- R284, R286, R292 to R298, R300 to R304, R306, R308, R309, R307: requests at the matrix unit. The first one of the queue starts and completes after
its ticks; while it would touch a word of another context's trick it waits; then it is performed, its unit retires or traps, a waiting
TSTC and the next request follow. What each request does, an MMA element block by block (R301), the codes and scale bytes that TQNT writes and
the steps by which a block's scale is found (R303, R304); the watchdog; a soft error in what a unit or a trick reads (R447). The model's choices:
a request waits for words that a trick of another context touched [log 31], and a line with an uncorrectable error counts as such until a
reset [log 86]. -/
def Obligations.MatrixRequests : Prop :=
  (∀ (s : State) (q : QuadId) (e : Queued MatrixReq) (rest : List (Queued MatrixReq)), (s.quad q.toNat).matrix = e :: rest →
    (e.done = none → exec (.matrixRequestStart q) s =
      .next ((s.modQuad q.toNat fun x => { x with matrix := { e with done := some (s.tick + matrixTicks s e) } :: rest }).post (matrixTicks s e)
        (.matrixRequestComplete q))) ∧
    ∀ n, e.done = some n → n ≤ s.tick →
      (matrixTouched s e = true → exec (.matrixRequestComplete q) s = .next (s.post 1 (.matrixRequestComplete q))) ∧
      (matrixTouched s e = false →
        let t : State := s.modQuad q.toNat fun x => { x with matrix := rest }
        let at_ : State := { t with cur := (e.core, e.ctx) }
        (∀ u, performMatrix e.req at_ = .ok (.next, u) → (u.ctx e.core e.ctx).life ≠ .parked →
          exec (.matrixRequestComplete q) s = .next (startNext q.toNat (wakeTstc e.req e.core (replied at_ e.core e.ctx u)))) ∧
        ∀ i, performMatrix e.req at_ = .error (.trap i) →
          exec (.matrixRequestComplete q) s = .next (startNext q.toNat (wakeTstc e.req e.core (replyTraps at_ e.core e.ctx i))))) ∧
  (∀ (s : State) (k x : Nat) (m n t src off : Nat) (r : MatrixReq),
    (r = .tcfg m n ∨ r = .fctx 0#64 ∨ r = .fctxRd 0#5 → matrixTicks s { core := k, ctx := x, req := r } = 1) ∧
    matrixTicks s { core := k, ctx := x, req := .dtld t src } = 10 ∧ (∀ f, matrixTicks s { core := k, ctx := x, req := .dtldStd t f } = 2) ∧
    matrixTicks s { core := k, ctx := x, req := .tldb src off n } = (n + 127) / 128 + 8) ∧
  (∀ (s : State),
    (∀ m n, performMatrix (.tcfg m n) s =
      if s.mine.inuse = 0#4 then .ok (.next, s.modCore s.cur.1 fun c => { c with rows := m, cols := n }) else .error (.trap { cause := .tileBusy })) ∧
    (∀ m, performMatrix (.trel m) s = .ok (.next, s.modCore s.cur.1 fun c => { c with
      tiles := c.tiles.filter fun t => !m.getLsbD t.1, inuse := c.inuse &&& ~~~m })) ∧
    (∀ w, performMatrix (.fctx w) s = .ok (.next, s.modCore s.cur.1 fun c => { c with fmt := w })) ∧
    (∀ d u, Writes d s.mine.fmt s u → performMatrix (.fctxRd d) s = .ok (.next, u)) ∧
    (∀ t k, performMatrix (.dtldStd t k) s = .ok (.next, s.modCore s.cur.1 fun c => loadTable c t (stdEntry k))) ∧
    (∀ t src, performMatrix (.dtld t src) s = .ok (.next, s.modCore s.cur.1 fun c => loadTable c t fun i => memRead c.store (src + 4 * i) 4 % 2 ^ 19)) ∧
    (∀ src off n, performMatrix (.tldb src off n) s = .ok (.next, s.modQuad (quadOf s.cur.1) fun q => { q with
      bsram := memPut q.bsram off (memBytes s.mine.store src n) })) ∧
    (∀ tile z v d0 d1 d2 fmt u, tabWf s.mine.tiles = true → performMatrix (.mma tile z v d0 d1 d2 fmt) s = .ok (.next, u) →
      let o := mmaOperands s.mine (s.quad (quadOf s.cur.1)) s.me v d0 d1 d2 fmt
      (∀ i j, i < s.mine.rows → j < s.mine.cols → s.mine.cols ≤ 128 → u.mine.tileElem tile i j =
        (mmaElem o (s.rnd (128 * i + j)) i j (if z then 0 else s.mine.tileElem tile i j)).1 % 2 ^ 32) ∧
      (∀ t, t ≠ tile → tabFind u.mine.tiles t = tabFind s.mine.tiles t) ∧ u.mine.inuse = s.mine.inuse ||| BitVec.ofNat 4 (2 ^ tile) ∧
      u.mine.store = s.mine.store ∧ u.mem = s.mem) ∧
    (∀ tile coff soff fmt u, fmtLegal fmt = true → Memory.wf s.mine.store = true → performMatrix (.tqnt tile coff soff fmt) s = .ok (.next, u) →
      (∀ a, ((tqntRanges s.mine coff soff fmt).all fun r => decide (a < r.1 ∨ r.1 + r.2 ≤ a)) = true → memGet u.mine.store a = memGet s.mine.store a) ∧
      u.mine.tiles = s.mine.tiles ∧ u.mem = s.mem ∧
      let q := quantiserOf s.mine fmt
      let nb := (s.mine.cols + 31) / 32
      let amax := fun (i b : Nat) => blockMax ((blockCols s.mine b).map (s.mine.tileElem tile i))
      let scale := fun (i b : Nat) => (q.steps (amax i b) 3 (q.first (amax i b))).1
      let code := fun (i j : Nat) => (encodeElem q.d q.n q.mode (s.rnd (128 * i + j)) (q.scale (scale i (j / 32))) (s.mine.tileElem tile i j)).1
      let rb := (tqntRow s.mine fmt).1
      (q.form = 0 ∨ coff + s.mine.rows * rb ≤ soff ∨ soff + s.mine.rows * nb ≤ coff) → ∀ i, i < s.mine.rows →
        (fmt.extractLsb' 28 4 = 13#4 → ∀ j, j < s.mine.cols → memGet u.mine.store (coff + i * rb + j) = BitVec.ofNat 8 (code i j)) ∧
        (fmt.extractLsb' 28 4 = 14#4 → ∀ j, 2 * j < s.mine.cols →
          memGet u.mine.store (coff + i * rb + j) = BitVec.ofNat 8 (code i (2 * j) + 16 * if 2 * j + 1 < s.mine.cols then code i (2 * j + 1) else 0)) ∧
        (q.form ≠ 0 → ∀ b, b < nb → memGet u.mine.store (soff + i * nb + b) = BitVec.ofNat 8 (scale i b)))) ∧
  (∀ (s : State) (tile coff soff : Nat) (fmt : Word), let r := performTqnt tile coff soff fmt s
    ((∃ p ∈ tqntRanges s.mine coff soff fmt, s.mine.S < p.1 + p.2) → r = .error (.trap { cause := .outsideScratchpad })) ∧
    ((∀ p ∈ tqntRanges s.mine coff soff fmt, p.1 + p.2 ≤ s.mine.S) →
      s.mine.dtenc.getLsbD (2 * field fmt 32 2 + if field fmt 28 4 = 14 then 1 else 0) = false ∨
        (field fmt 34 2 = 2 ∧ s.mine.dtenc.getLsbD (2 * field fmt 20 2) = false) → r = .error (.trap { cause := .tableNotEncodable }))) ∧
  (∀ (q : Quantiser) (amax : Val) (u n : Nat),
    let much := cmpVal amax (mulVal (fmtF19.value (q.d (tableTop q.d (q.n / 2)))) (q.scale u)).1 = .gt
    let next := (q.form = 1 ∧ u < 254) ∨ (q.form = 2 ∧ u + 1 ≤ tableTop q.sd 128)
    (q.form = 0 → q.scale u = .fin false 1 0) ∧ (q.form = 1 → q.scale u = .fin false 1 ((u : Int) - 127)) ∧
    (q.form = 2 → q.scale u = fmtF19.value (q.sd u)) ∧ (q.form = 1 → amax.isZero = true → q.first amax = 127) ∧
    (¬ much ∨ ¬ next → (q.steps amax n u).1 = u) ∧ (q.steps amax 0 u).1 = u ∧ (much → next → (q.steps amax (n + 1) u).1 = (q.steps amax n (u + 1)).1)) ∧
  (∀ (moff : Int) (i k : Nat), present 0 moff i k = true ∧ (present 1 moff i k = true ↔ (k : Int) ≤ i + moff) ∧
    (present 2 moff i k = true ↔ (k : Int) < i + moff) ∧ (present 3 moff i k = true ↔ (i : Int) + moff ≤ k)) ∧
  (∀ (o : MmaOperands) (rnd i j acc : Nat), (o.kk = 0 → mmaElem o rnd i j acc = (acc, 0#7)) ∧
    (0 < o.kk → o.kk ≤ 32 → mmaElem o rnd i j acc = mmaBlock o rnd i j (acc, 0#7) 0) ∧
    ∀ n, o.kk = 32 * n + 32 → mmaElem o rnd i j acc = mmaBlock o rnd i j (mmaElem { o with kk := 32 * n } rnd i j acc) n) ∧
  (∀ (o : MmaOperands) (rnd i j kb : Nat) (acc : Nat × Flags) (ks : List Nat), ks ≠ [] →
    ((List.range (min 32 (o.kk - 32 * kb))).map (· + 32 * kb)).filter (present o.mask o.moff i) = ks →
    (mmaBlock o rnd i j acc kb).1 = (fAdd fmtF32 .rne 0 acc.1 (roundWith fmtF32 o.mode rnd (sumVal o.mode
      (ks.map fun k => (mulVal (scaleElem (o.sa i kb) (o.a i k)).1 (scaleElem (o.sb kb j) (o.b k j)).1).1))).1).1) ∧
  (∀ (o : MmaOperands) (rnd i j : Nat) (acc : Nat × Flags) (kb : Nat),
    ((List.range (min 32 (o.kk - 32 * kb))).all fun k => !present o.mask o.moff i (k + 32 * kb)) = true → mmaBlock o rnd i j acc kb = acc) ∧
  (∀ (s : State) (q : QuadId), (s.quad q.toNat).matrix ≠ [] ∨ (s.quad q.toNat).scan ≠ [] →
    (watchStopped s (q.toNat / 4) = true → exec (.mxwdogExpiry q) s = .next (s.post 1 (.mxwdogExpiry q))) ∧
    (watchStopped s (q.toNat / 4) = false →
      ∃ t, exec (.mxwdogExpiry q) s = .next t ∧
        let m := (s.quad q.toNat).matrix.map (countOne s matrixTouched)
        let n := (s.quad q.toNat).scan.map (countOne s scanTouched)
        let lim := (s.group (q.toNat / 4)).wdLimit.toNat
        (lim = 0 → (t.quad q.toNat).matrix = m ∧ (t.quad q.toNat).scan = n ∧ t.mem = s.mem) ∧
        (lim ≠ 0 → (∀ c ∈ s.cores, ∀ p ∈ c.2.ctxs, ∀ w f a b g, p.2.life ≠ .blocked (.tileBusy w f a b g)) →
          (t.quad q.toNat).matrix = m.filter (fun e => decide (e.count ≤ lim)) ∧ (t.quad q.toNat).scan = n.filter (fun e => decide (e.count ≤ lim)) ∧
          t.mem = s.mem ∧
          ((∃ e ∈ m, lim < e.count) ∨ (∃ e ∈ n, lim < e.count) →
            (t.group (q.toNat / 4)).wdFired = true ∧ (2 * s.tick, .machineCheck (.quad q)) ∈ t.agenda)))) ∧
  (∀ (s : State) (q : QuadId) (id : BitVec 48) (k : BitVec 3), k ≠ 0#3 → k.toNat ≤ 4 →
    (∀ e rest, (s.quad q.toNat).matrix = e :: rest → e.done.isSome = true →
      (e.retried = false → exec (.uncorrectableSoftError (.matrix q) id k) s =
        .next ((s.modQuad q.toNat fun x => { x with matrix := { e with done := none, retried := true } :: rest }).post 0 (.matrixRequestStart q))) ∧
      (e.retried = true → exec (.uncorrectableSoftError (.matrix q) id k) s =
        .next (startNext q.toNat (wakeTstc e.req e.core (operandErrorAt (s.modQuad q.toNat fun x => { x with matrix := rest }) e.core e.ctx k.toNat))))) ∧
    ∀ e rest, k = 1#3 → (s.quad q.toNat).scan = e :: rest → e.done.isSome = true →
      (e.retried = false → exec (.uncorrectableSoftError (.scan q) id k) s =
        .next ((s.modQuad q.toNat fun x => { x with scan := { e with done := none, retried := true } :: rest }).post 0 (.scanRequestStart q))) ∧
      (e.retried = true → exec (.uncorrectableSoftError (.scan q) id k) s =
        .next (startScan q.toNat (operandErrorAt (s.modQuad q.toNat fun x => { x with scan := rest }) e.core e.ctx k.toNat)))) ∧
  ∀ (s : State) (c : CoreId) (x : CtxId) (id : BitVec 48) (k : BitVec 3),
    exec (.uncorrectableSoftError (.trick c x none) id k) s = .next (s.squash c.toNat x.toNat false) ∧
    ∀ l : LineId,
      (s.hub.badLines.contains l.toNat = false → exec (.uncorrectableSoftError (.trick c x (some l)) id k) s =
        .next ((s.modHub fun h => { h with badLines := h.badLines ++ [l.toNat] }).squash c.toNat x.toNat false)) ∧
      (s.hub.badLines.contains l.toNat = true → exec (.uncorrectableSoftError (.trick c x (some l)) id k) s = .next (checkPartition s (s.partOf c.toNat)))

/-- R312, R313, R315 to R326, R306: the scan unit. A request with what it latched joins the quad's queue; the first one completes after its
ticks; while it would touch a word of another context's trick it waits; then it is performed, its unit retires or traps, and the next one
follows. SCFG gives the old scan context; TileScan keeps the first record, combines the first with the second, and keeps the number. That register
operands are read when a unit issues [log 31] and in the order of R52 [log 83] is the model's choice. -/
def Obligations.ScanUnits : Prop :=
  (∀ (s : State), Quiet s →
    let joins := fun (t : State) (r : ScanReq) => Host.Outcome.next (waiting s (atScan t r) .unitReq)
    (∀ d op m, Free s d → exec (.scfg d op m) s = joins (kept s d) (.scfg (BitVec.ofNat 6 (roundingCode m * 8 + scanOpCode op)) d)) ∧
    (∀ s1 t t0 t1, Reads [s1, s1 + 1] s [t0, t1] t → exec (.stile s1) s = joins t (.stile t0 t1)) ∧
    (∀ d s1 t a t0 t1 ca, Reads [s1, d, d + 1] s [a, t0, t1] t → Own t a ca → exec (.sjoinT d s1) s = joins t (.sjoinT t0 t1 ca)) ∧
    ∀ d s1 s2 t a n y ca ya, Reads [s1, s2, d] s [a, y, n] t → Own t a ca → Own t y ya →
      exec (.sjoinR d s1 s2) s = joins t (.sjoinR n ca ya)) ∧
  (∀ (s : State) (q : QuadId) (e : Queued ScanReq) (rest : List (Queued ScanReq)), (s.quad q.toNat).scan = e :: rest →
    (e.done = none → exec (.scanRequestStart q) s =
      .next ((s.modQuad q.toNat fun x => { x with scan := { e with done := some (s.tick + scanTicks s e) } :: rest }).post (scanTicks s e)
        (.scanRequestComplete q))) ∧
    ∀ n, e.done = some n → n ≤ s.tick →
      (scanTouched s e = true → exec (.scanRequestComplete q) s = .next (s.post 1 (.scanRequestComplete q))) ∧
      (scanTouched s e = false →
        let t : State := s.modQuad q.toNat fun x => { x with scan := rest }
        let at_ : State := { t with cur := (e.core, e.ctx) }
        (∀ u, performScan e.req at_ = .ok (.next, u) → (u.ctx e.core e.ctx).life ≠ .parked →
          exec (.scanRequestComplete q) s = .next (startScan q.toNat (replied at_ e.core e.ctx u))) ∧
        ∀ i, performScan e.req at_ = .error (.trap i) →
          exec (.scanRequestComplete q) s = .next (startScan q.toNat (replyTraps at_ e.core e.ctx i)))) ∧
  (∀ (s : State),
    (∀ v d u, Writes d (s.mine.sctx.setWidth 64) (s.modCore s.cur.1 fun c => { c with sctx := v }) u → performScan (.scfg v d) s = .ok (.next, u)) ∧
    (∀ t0 t1 u, performScan (.stile t0 t1) s = .ok (.next, u) → u.mem = s.mem ∧ u.mine.sctx = s.mine.sctx ∧
      let t := tileDesc t0 t1
      let k := scanK (sctxOp s.mine.sctx)
      Memory.wf s.mine.store = true → ∀ a, ((t.ranges k ++ t.emits k).all fun r => decide (a < r.1 ∨ r.1 + r.2 ≤ a)) = true → memGet u.mine.store a = memGet s.mine.store a) ∧
    ∀ n ca ya u, performScan (.sjoinR n ca ya) s = .ok (.next, u) → u.mem = s.mem ∧ u.mine.sctx = s.mine.sctx ∧
      Memory.wf s.mine.store = true → ∀ a, a < ya ∨ ya + 4 * scanK (sctxOp s.mine.sctx) * n.toNat ≤ a → memGet u.mine.store a = memGet s.mine.store a) ∧
  ∀ (op : Nat) (m : Rounding),
    (∀ xs : List (List Nat), (tileScan op m 13 1 xs).1.length = xs.length ∧ (tileScan op m 13 1 xs).1.head? = xs.head?) ∧
    ∀ x y : List Nat, tileScan op m 13 1 [x, y] = ([x, (scanCombine op m x y).1], (scanCombine op m x y).2)

/-- R331: CHAIN.pos. R327, R329, R330, R333, R334, R336, R339: CHAIN.post and CHAIN.wait; a post is one event once the successor's buffer is empty and
fills it; a wait takes it once it is full, whole, and empties the buffer. -/
def Obligations.CarryChain : Prop :=
  (∀ (s u : State) (d : GReg) (l : Launch), Quiet s →
    (s.launchOf s.cur.1 = some l → l.flags.getLsbD 34 = true →
      Writes d (BitVec.ofNat 64 (2 ^ 32 + l.positions * 2 ^ 16 + s.mine.lane / l.lanesPerQuad)) s u → exec (.chainPos d) s = .next (retiredOut s u)) ∧
    (s.launchOf s.cur.1 = none ∨ (s.launchOf s.cur.1 = some l ∧ l.flags.getLsbD 34 = false) → Writes d 0#64 s u →
      exec (.chainPos d) s = .next (retiredOut s u))) ∧
  (∀ (s t u : State) (d s1 s2 : GReg) (a m : Word) (off : Nat), Quiet s →
    (s.chainOf s.cur.1 = none → let i : TrapInfo := { cause := .chainNotGranted }
      exec (.chainPost d s1 s2) s = .next (trapped s i) ∧ exec (.chainWait d s1 s2) s = .next (trapped s i)) ∧
    ∀ l p n, s.chainOf s.cur.1 = some (l, p, n) → Reads [s1, s2] s [a, m] t → Own t a off →
      let both := fun (i : TrapInfo) => exec (.chainPost d s1 s2) s = .next (trapped s i) ∧ exec (.chainWait d s1 s2) s = .next (trapped s i)
      (m = 0#64 ∨ 4096 < m.toNat → both { cause := .operandRange }) ∧
      (m ≠ 0#64 → m.toNat ≤ 4096 → a.toNat % 64 ≠ 0 ∨ m.toNat % 64 ≠ 0 → both { cause := .misaligned, addr := a }) ∧
      (m ≠ 0#64 → m.toNat ≤ 4096 → a.toNat % 64 = 0 → m.toNat % 64 = 0 →
        (t.mine.S < off + m.toNat → both { cause := .outsideScratchpad, addr := a }) ∧
        (off + m.toNat ≤ t.mine.S →
          (n ≤ p + 1 → Writes d 0#64 t u → exec (.chainPost d s1 s2) s = .next (retiredOut s u)) ∧
          (p + 1 < n → Free t d → exec (.chainPost d s1 s2) s =
            .next (waiting s ((requested (kept t d) (.chainPost off m.toNat d)).post 0 (.chainPostPerform (cid s.cur.1) (xid s.cur.2))) .chain)) ∧
          (p = 0 → Writes d 0#64 t u → exec (.chainWait d s1 s2) s = .next (retiredOut s u)) ∧
          (p ≠ 0 → Free t d → exec (.chainWait d s1 s2) s =
            .next (waiting s ((requested (kept t d) (.chainWait off m.toNat d)).postPoll 0 (.chainWaitPerform (cid s.cur.1) (xid s.cur.2))) .chain))))) ∧
  (∀ (s u : State) (c : CoreId) (x : CtxId) (a m p n : Nat) (d : GReg) (l : Launch), let k := c.toNat; let y := x.toNat
    (s.ctx k y).life = .blocked .chain → (s.ctx k y).req = some (.chainPost a m d) → s.chainOf k = some (l, p, n) →
    (s.quadAt l (p + 1) = none → exec (.chainPostPerform c x) s = .next (s.post 1 (.chainPostPerform c x))) ∧
    ∀ q, s.quadAt l (p + 1) = some q →
      let held := (s.quad q).chainBuf.isSome || (s.core k).rangesTouched y [(a, m)] [] || chainBehind s k y true
      (held = true → exec (.chainPostPerform c x) s = .next (s.post 1 (.chainPostPerform c x))) ∧
      (held = false →
        let t := s.modQuad q fun b => { b with chainBuf := some (memBytes (s.core k).store a m), chainFull := false }
        let v := (t.modQuad (quadOf k) fun b => { b with posts := b.posts + 1 }).post (4 * (if dieOf k = q / 256 then 1 else 6) + m / 64)
          (.chainDelivery (BitVec.ofNat 10 q))
        ReplyWrites v k y d 1#64 u → exec (.chainPostPerform c x) s = .next (replied v k y u))) ∧
  (∀ (s : State) (q : QuadId), exec (.chainDelivery q) s = .next (s.modQuad q.toNat fun b => { b with chainFull := b.chainBuf.isSome })) ∧
  ∀ (s u : State) (c : CoreId) (x : CtxId) (a cap : Nat) (d : GReg), let k := c.toNat; let y := x.toNat
    (s.ctx k y).life = .blocked .chain → (s.ctx k y).req = some (.chainWait a cap d) →
    let q := s.quad (quadOf k)
    (q.chainBuf = none ∨ q.chainFull = false → exec (.chainWaitPerform c x) s = .next (s.postPoll 1 (.chainWaitPerform c x))) ∧
    ∀ bs, q.chainBuf = some bs → q.chainFull = true → chainBehind s k y false = false →
      (cap < bs.length → exec (.chainWaitPerform c x) s = .next (replyTraps s k y { cause := .operandRange })) ∧
      (bs.length ≤ cap → (s.core k).rangesTouched y [] [(a, bs.length)] = true →
        exec (.chainWaitPerform c x) s = .next (s.postPoll 1 (.chainWaitPerform c x))) ∧
      (bs.length ≤ cap → (s.core k).rangesTouched y [] [(a, bs.length)] = false →
        let t := s.modQuad (quadOf k) fun b => { b with chainBuf := none, chainFull := false, waits := b.waits + 1 }
        ReplyWrites (t.modCore k fun c => { c with store := memPut c.store a bs }) k y d (BitVec.ofNat 64 bs.length) u →
          exec (.chainWaitPerform c x) s = .next (replied t k y u))

/-- R340, R341, R346 to R354, R367: the barrier and semaphore units. With a legal handle, in its scope, the request leaves for the home, or for
its package, and the context waits, or waits for its class's FABRIC meter; else the unit traps. At scope pod a releasing operation first waits
until what the partition wrote to pages of other packages is performed there (R355). The answer writes the register; one that names no request
under way is none; a refused request is sent again. The model's choice: what that wait is [log 41], and the 64 ticks to a home in the own package
at scope pod [log 82]. -/
def Obligations.SyncUnits : Prop :=
  (∀ (h : Word) (sc : Scope) (s : State), let pkg := (h.extractLsb' 18 7).toNat; let home := (h.extractLsb' 6 12).toNat
    syncHome h sc s =
      if (sc ≠ .pod ∧ pkg ≠ s.pkg) ∨ (pkg = s.pkg ∧ sameScope sc s.cur.1 home = false) ∨ (sc = .pkg ∧ s.partOf home ≠ s.partOf s.cur.1) then
        .error (.trap { cause := .syncScope })
      else if (sc ≠ .pod ∧ s.mates s.cur.1 home = false) ∨ (sc = .pod ∧ pkg = s.pkg ∧ s.partOf home ≠ s.partOf s.cur.1) then
        .error (.trap { cause := .remoteBoundary })
      else .ok ((pkg, home), s)) ∧
  (∀ (d s1 s2 : GReg) (sc : Scope) (s t : State) (h v : Word), Quiet s → Reads [s1, s2] s [h, v] t →
    let n := (h.extractLsb' 0 6).toNat
    ∀ (i : Instr) (op : SyncOp) (bar : Bool), (i, op, bar) ∈ [(Instr.binit d s1 s2 sc, SyncOp.binit v.toNat, true),
        (.barv d s1 s2 sc, .barv v.toInt true, true), (.barvX d s1 s2 sc, .barv v.toInt false, true),
        (.bwait d s1 s2 sc, .bwait (v.extractLsb' 0 16), true), (.btest d s1 s2 sc, .btest (v.getLsbD 0), true),
        (.semi d s1 s2 sc, .semi false (v.extractLsb' 0 32), false), (.semiSet d s1 s2 sc, .semi true (v.extractLsb' 0 32), false),
        (.semw d s1 s2 sc, .semw false (v.extractLsb' 0 32), false), (.semwDec d s1 s2 sc, .semw true (v.extractLsb' 0 32), false)] →
      (h.extractLsb' 25 39 ≠ 0#39 ∨ (bar = true ∧ h.getLsbD 5 = true) → exec i s = .next (trapped s { cause := .operandRange })) ∧
      (h.extractLsb' 25 39 = 0#39 → (bar = true → h.getLsbD 5 = false) →
        (i = .binit d s1 s2 sc → v = 0#64 ∨ 2 ^ 32 ≤ v.toNat → exec i s = .next (trapped s { cause := .operandRange })) ∧
        ((i = .binit d s1 s2 sc → v ≠ 0#64 ∧ v.toNat < 2 ^ 32) →
          (∀ c, syncHome h sc t = .error (.trap c) → exec i s = .next (trapped s c)) ∧
          ∀ pkg home, syncHome h sc t = .ok ((pkg, home), t) → Free t d →
            (sc = .pod → syncReleases op = true → s.podReleased s.cur.1 = false → exec i s =
              .next ((s.flushDirty s.cur.1 s.cur.2 (s.clsOf s.cur.1)).block s.cur.1 s.cur.2 .podRelease)) ∧
            (sc ≠ .pod ∨ syncReleases op = false ∨ s.podReleased s.cur.1 = true → let r := Request.sync op sc pkg home n d
              (pkg = s.pkg → exec i s = .next (waiting s ((requested (kept t d) r).postPoll (syncTicks sc false)
                (if bar then .barrierArrival (cid s.cur.1) (xid s.cur.2) else .semaphoreAtHome (cid s.cur.1) (xid s.cur.2))) .reply)) ∧
              (pkg ≠ s.pkg →
                ((kept t d).meterBusy s.cur.1 1 = true → exec i s = .next (waiting s (meterHeld (kept t d) r) (.meter 1))) ∧
                ((kept t d).meterBusy s.cur.1 1 = false → exec i s = .next (waiting s ((requested (kept t d) r).sendPeer pkg
                  s.cur.1 s.cur.2 (.sync (cid home) (BitVec.ofNat 6 n) op (contextId s s.cur.1 s.cur.2))) .reply))))))) ∧
  ∀ (s : State) (c : CoreId) (x : CtxId), let k := c.toNat; let y := x.toNat
    (s.ctx k y).life = .blocked .reply →
    (∀ d w phase u, (s.ctx k y).req = some (.answer d w phase) →
      ReplyWrites (if phase then s.modCore k fun c => { c with phasePoint := true } else s) k y d w u →
        exec (.syncWaiterAnswer c x none) s = .next (replied s k y u)) ∧
    ∀ op sc pkg home n d, (s.ctx k y).req = some (.sync op sc pkg home n d) →
      ((s.core k).halting.isSome = true → exec (.wakeListRetry c x) s = .next (s.post 1 (.wakeListRetry c x))) ∧
      ((s.core k).halting = none → pkg ≠ s.pkg →
        (s.exhausted (s.clsOf k) 1 = true → exec (.wakeListRetry c x) s = .next (s.post 1 (.wakeListRetry c x))) ∧
        (s.exhausted (s.clsOf k) 1 = false →
          exec (.wakeListRetry c x) s = .next (s.sendPeer pkg k y (.sync (cid home) (BitVec.ofNat 6 n) op (contextId s k y))))) ∧
      ((s.core k).halting = none → pkg = s.pkg → exec (.wakeListRetry c x) s =
        .next (s.postPoll (syncTicks sc false) (if atBarrier op then .barrierArrival c x else .semaphoreAtHome c x))) ∧
      (pkg ≠ s.pkg → ∀ a : PeerAnswer, let mine := fun (o : Outstanding) => o.isSync k y && o.answeredBy a
        let g := s.gotPeer mine a.reply
        let ev := exec (.syncWaiterAnswer c x (some a)) s
        (s.hub.outstanding.any mine = false → ev = .next s) ∧
        (s.hub.outstanding.any mine = true →
          ((∀ m, op ≠ .land m) → ∀ w u, a.reply = .value w → ReplyWrites g k y d w u → ev = .next (replied g k y u)) ∧
          (∀ m w, op = .land m → a.reply = .value w → ev =
            .next (((g.unpopHeld k y).modCtx k y fun v => { v with hostReplies := v.hostReplies ++ [(handleKey pkg home n, 1#64)] }).ready k y)) ∧
          (a.reply = .retry → ev = .next (g.post 64 (.wakeListRetry c x))) ∧
          (a.reply = .eviction → ev = .next (g.post 256 (.evictionRetryResend c x))) ∧
          (a.reply = .syncState → ev = .next (replyTraps g k y { cause := .syncState })) ∧
          (a.reply = .syncScope → ev = .next (replyTraps g k y { cause := .syncScope })) ∧
          (a.reply = .range → ev = .next (replyTraps g k y { cause := .operandRange })) ∧
          (a.reply = .boundary → ev = .next (replyTraps g k y { cause := .remoteBoundary }))))

/-- R342 to R345, R348 to R352, R354: what a request does at its home. A barrier's phase advances, with no arrivals, when the expected number has
arrived and no bytes are pending; an arrival beyond that number is held; a waiter whose phase is done is answered. A semaphore is added to or
set, and its waiters are looked at in the order of arrival: one takes it once it is large enough, and a SEMW.dec that it does not reach holds
those behind it, which is the model's choice [log 30]. At scope pod a home in the issuer's package answers after 64 ticks, too [log 82]. -/
def Obligations.SyncHomes : Prop :=
  (∀ (s : State) (c : CoreId) (x : CtxId) (op : SyncOp) (sc : Scope) (pkg home n : Nat) (d : GReg), let k := c.toNat; let y := x.toNat
    (s.ctx k y).life = .blocked .reply → (s.ctx k y).req = some (.sync op sc pkg home n d) → s.agenda = [] →
    (syncAway s k home sc = true → exec (.barrierArrival c x) s = .next (s.post 256 (.evictionRetryResend c x)) ∧
      exec (.semaphoreAtHome c x) s = .next (s.post 256 (.evictionRetryResend c x))) ∧
    (syncAway s k home sc = false →
      let w := fun b => Waiter.mk k y none sc b n op
      let t := barrierAt s home (w true)
      (launchBarrier s k pkg home n = false ∨ (∀ m, op ≠ .barv m true) → exec (.barrierArrival c x) s = .next t) ∧
      (launchBarrier s k pkg home n = true → (∃ m, op = .barv m true) →
        ((t.core home).wake.contains (w true) = true ∨ (∃ e v p, (t.ctx k y).req = some (.answer e v p)) →
          exec (.barrierArrival c x) s = .next (t.modCore k fun c => { c with phasePoint := false })) ∧
        ((t.core home).wake.contains (w true) = false → (∀ e v p, (t.ctx k y).req ≠ some (.answer e v p)) →
          exec (.barrierArrival c x) s = .next t)) ∧
      (atBarrier op = false → exec (.semaphoreAtHome c x) s = .next (semAt s home (w false))))) ∧
  (∀ (s : State) (home n k y : Nat) (sc : Scope), let w := fun op => Waiter.mk k y none sc true n op; let b := (s.core home).barrier n
    (∀ e, b.arrived = 0#32 → b.pending = 0#24 → (∀ v ∈ (s.core home).wake, v.barrier = false ∨ v.index ≠ n) →
      barrierAt s home (w (.binit e)) =
        (s.setBarrier home n { b with scope := scopeCode sc, expected := BitVec.ofNat 32 e }).answerSync (w (.binit e)) 1#64 false) ∧
    (∀ e, b.arrived ≠ 0#32 ∨ b.pending ≠ 0#24 → barrierAt s home (w (.binit e)) = s.answerSync (w (.binit e)) 0#64 false) ∧
    (∀ op, (∃ m a, op = .barv m a) ∨ (∃ t, op = .bwait t) ∨ (∃ t, op = .btest t) →
      (b.scope = 0#3 → barrierAt s home (w op) = s.failSync (w op) .syncState) ∧
      (b.scope ≠ 0#3 → b.scope ≠ scopeCode sc → barrierAt s home (w op) = s.failSync (w op) .syncScope)) ∧
    (b.scope ≠ 0#3 → b.scope = scopeCode sc →
      (∀ m, b.arrived = b.expected → barrierAt s home (w (.barv m true)) = s.listSync home (w (.barv m true))) ∧
      (∀ m a, (a = true → b.arrived ≠ b.expected) →
        (b.count m a = none → barrierAt s home (w (.barv m a)) = s.failSync (w (.barv m a)) .operandRange) ∧
        ∀ b', b.count m a = some b' → barrierAt s home (w (.barv m a)) =
          settleBarrier home n ((s.setBarrier home n b').answerSync (w (.barv m a)) (b.phase.setWidth 64) false)) ∧
      (∀ t, phaseDone b.phase t = true → barrierAt s home (w (.bwait t)) = s.answerSync (w (.bwait t)) (b.phase.setWidth 64) true) ∧
      (∀ t, phaseDone b.phase t = false → barrierAt s home (w (.bwait t)) = s.listSync home (w (.bwait t))) ∧
      ∀ t, barrierAt s home (w (.btest t)) =
        s.answerSync (w (.btest t)) (if b.phase.getLsbD 0 = t then 0#64 else 1#64) (b.phase.getLsbD 0 != t)) ∧
    barrierAt s home (w (.land 0)) = s.answerSync (w (.land 0)) 0#64 false ∧
    ∀ m t, m ≠ 0 → barrierBytes s home n m = some t → barrierAt s home (w (.land m)) = t.answerSync (w (.land m)) 0#64 false) ∧
  (∀ (b : Barrier) (m : Int) (a : Bool), let p := b.pending.toInt + m; let n := if a then b.arrived + 1 else b.arrived
    (p < -8388608 ∨ 8388607 < p → b.count m a = none) ∧
    (-8388608 ≤ p → p ≤ 8388607 → ∃ b', b.count m a = some b' ∧ b'.expected = b.expected ∧ b'.scope = b.scope ∧ b'.pending.toInt = p ∧
      (n = b.expected ∧ p = 0 → b'.phase = b.phase + 1 ∧ b'.arrived = 0#32) ∧ (n ≠ b.expected ∨ p ≠ 0 → b'.phase = b.phase ∧ b'.arrived = n))) ∧
  (∀ (p t : BitVec 16), phaseDone t t = false ∧ phaseDone (t + 1#16) t = true ∧ (phaseDone p t = true → phaseDone t p = false)) ∧
  (∀ (s : State) (w : Waiter) (v : Word) (phase : Bool), w.peer = none →
    ∀ op sc pkg home n d, (s.ctx w.core w.ctx).req = some (.sync op sc pkg home n d) → s.answerSync w v phase =
      (s.modCtx w.core w.ctx fun x => { x with req := some (.answer d v (phase && launchBarrier s w.core pkg home n)) }).post (syncTicks w.scope false)
        (.syncWaiterAnswer (cid w.core) (xid w.ctx) none)) ∧
  (∀ (s : State) (home : Nat) (w : Waiter), w.peer = none →
    ((s.core home).wake.length < 128 → s.listSync home w = s.modCore home fun c => { c with wake := c.wake ++ [w] }) ∧
    (128 ≤ (s.core home).wake.length → s.listSync home w = s.post 64 (.wakeListRetry (cid w.core) (xid w.ctx)))) ∧
  (∀ (s : State) (home n k y : Nat) (sc : Scope) (v : BitVec 32), let w := fun op => Waiter.mk k y none sc false n op; let x := (s.core home).sem n
    let behind := ∃ u ∈ (s.core home).wake, u.barrier = false ∧ u.index = n ∧ ∃ q, u.op = .semw true q
    (∀ set, semAt s home (w (.semi set v)) = (settleSem home n (s.modCore home fun c => { c with sems := tabSet c.sems n (if set then v else x + v) })).answerSync
      (w (.semi set v)) (x.setWidth 64) false) ∧
    (behind ∨ x < v → ∀ dec, semAt s home (w (.semw dec v)) = s.listSync home (w (.semw dec v))) ∧
    (¬ behind → v ≤ x → semAt s home (w (.semw false v)) = s.answerSync (w (.semw false v)) (x.setWidth 64) false ∧
      semAt s home (w (.semw true v)) =
        (s.modCore home fun c => { c with sems := tabSet c.sems n (x - v) }).answerSync (w (.semw true v)) (x.setWidth 64) false)) ∧
  ∀ (s : State) (home n : Nat) (w : Waiter) (ws : List Waiter), let x := (s.core home).sem n
    settleSem home n s = serveSem home n (s.core home).wake s ∧ serveSem home n [] s = s ∧
    (w.barrier = true ∨ w.index ≠ n ∨ (∀ dec v, w.op ≠ .semw dec v) → serveSem home n (w :: ws) s = serveSem home n ws s) ∧
    ∀ dec v, w.barrier = false → w.index = n → w.op = .semw dec v →
      (v ≤ x → serveSem home n (w :: ws) s = serveSem home n ws ((s.modCore home fun c => { c with
        wake := c.wake.erase w, sems := if dec then tabSet c.sems n (x - v) else c.sems }).answerSync w (x.setWidth 64) false)) ∧
      (x < v → serveSem home n (w :: ws) s = if dec then s else serveSem home n ws s)

/-- R356, R358 to R360, R367, R368: QINIT, ENQ and DEQ in their forms send their request to the queue's slice and wait; there an entry goes to the
oldest waiter or to the tail, or is refused when the queue is full; a DEQ takes the oldest entry, or waits for one. The outcome travels back,
and then retires the unit or traps (R529). -/
def Obligations.SliceQueues : Prop :=
  (∀ (d s1 s2 : GReg) (s t : State) (q : Word), Quiet s →
    let asks := fun (u : State) (op : QueueOp) => Host.Outcome.next (waiting s
      ((requested (kept u d) (.queue op q.toNat d)).post (queueLatency s.cur.1 q.toNat) (.sliceQueueOp (cid s.cur.1) (xid s.cur.2))) .reply)
    let mine := s.partOfDie (q.toNat / 1024) = s.partOf s.cur.1
    (∀ w, Reads [s1, s2] s [q, w] t →
      let legal := q.toNat < 4096 ∧ w.toNat < 2 ^ 9 ∧ w.toNat / 16 % 8 ≤ 4 ∧ w.toNat % 16 ≤ 11 ∧ 2 ^ (w.toNat % 16) * (8 * 2 ^ (w.toNat / 16 % 8)) ≤ 16384
      (legal → mine → Free t d → exec (.qinit d s1 s2) s = asks t (.qinit w)) ∧
      (¬ legal → exec (.qinit d s1 s2) s = .next (trapped s { cause := .operandRange })) ∧
      (legal → ¬ mine → exec (.qinit d s1 s2) s = .next (trapped s { cause := .remoteBoundary }))) ∧
    (Timely s → q.toNat < 4096 →
      (∀ e, Reads [s1, s2] s [q, e] t → (s.squeue q.toNat).entry = 8 → mine → Free t d → exec (.enq d s1 s2) s = asks t (.enq (toBytes 8 e.toNat))) ∧
      (Reads [s1] s [q] t → (s.squeue q.toNat).entry = 8 → mine → Free t d → exec (.deq d s1) s = asks t (.deq none false)) ∧
      (Reads [s1] s [q] t → (s.squeue q.toNat).entry ≠ 8 → exec (.deq d s1) s = .next (trapped s { cause := .operandRange }) ∧
        exec (.enq d s1 s2) s = .next (trapped s { cause := .operandRange })) ∧
      ∀ a off, Reads [s1, s2] s [q, a] t → Own t a off → let n := (s.squeue q.toNat).entry
        (a.toNat % 8 ≠ 0 → ∀ i ∈ [Instr.enqB d s1 s2, .deqB d s1 s2, .deqPoll d s1 s2], exec i s = .next (trapped s { cause := .misaligned, addr := a })) ∧
        (a.toNat % 8 = 0 → off + n ≤ t.mine.S → mine → Free t d →
          (LoadFree t off n → exec (.enqB d s1 s2) s = asks t (.enq (memBytes t.mine.store off n))) ∧
          exec (.deqB d s1 s2) s = asks t (.deq (some off) false) ∧ exec (.deqPoll d s1 s2) s = asks t (.deq (some off) true))) ∧
    (¬ Timely s → ∀ i ∈ [Instr.enq d s1 s2, .enqB d s1 s2, .deq d s1, .deqB d s1 s2, .deqPoll d s1 s2], exec i s = .next (trapped s { cause := .timing }))) ∧
  (∀ (s : State) (k y q : Nat) (d : GReg) (e : List Byte) (w : Word),
    queueStatus s k y q d w = (s.modCtx k y fun v => { v with req := some (.answer d w false) }).post (queueLatency k q) (.sliceQueueOp (cid k) (xid y)) ∧
    deqDone s k y q none d e = queueStatus s k y q d (BitVec.ofNat 64 (ofBytes e)) ∧
    ∀ a, deqDone s k y q (some a) d e = queueStatus (s.modCore k fun c => { c with store := memPut c.store a e }) k y q d 1#64) ∧
  (∀ (s u : State) (c : CoreId) (x : CtxId) (d : GReg) (w : Word) (p : Bool) (i : Cause), let k := c.toNat; let y := x.toNat
    (s.ctx k y).life = .blocked .reply →
    ((s.ctx k y).req = some (.answer d w p) → ReplyWrites s k y d w u → exec (.sliceQueueOp c x) s = .next (replied s k y u)) ∧
    ((s.ctx k y).req = some (.trapped i) → exec (.sliceQueueOp c x) s = .next (replyTraps s k y { cause := i }))) ∧
  ∀ (s : State) (c : CoreId) (x : CtxId) (op : QueueOp) (q : Nat) (d : GReg), let k := c.toNat; let y := x.toNat
    (s.ctx k y).life = .blocked .reply → (s.ctx k y).req = some (.queue op q d) → (k, y) ∉ (s.squeue q).waiters → s.agenda = [] →
    let ev := Instr.sliceQueueOp c x
    let b := s.squeue q
    let gives := fun (t : State) => exec ev s = .next t
    let status := fun (t : State) (w : Word) => gives (queueStatus t k y q d w)
    let traps := fun (i : Cause) => gives ((s.modCtx k y fun v => { v with req := some (.trapped i) }).post (queueLatency k q) ev)
    (∀ w, op = .qinit w →
      (b.items ≠ [] ∨ b.waiters ≠ [] → status s 0#64) ∧
      (b.items = [] → b.waiters = [] → status (dealerLooks (s.modSqueue q fun _ =>
        { en := w.getLsbD 8, host := w.getLsbD 7, z := w.extractLsb' 4 3, c := w.extractLsb' 0 4, items := [], waiters := [] }) q) 1#64)) ∧
    (∀ e, op = .enq e →
      (b.en = false → traps .syncState) ∧ (b.en = true → e.length ≠ b.entry → traps .operandRange) ∧
      (b.en = true → e.length = b.entry →
        (deviceHeld s q = true → status s 0#64) ∧
        (deviceHeld s q = false →
          (b.waiters = [] → b.capacity ≤ b.items.length → status s 0#64) ∧
          (b.waiters = [] → b.items.length < b.capacity → status (dealerLooks (s.modSqueue q fun t => { t with items := t.items ++ [e] }) q) 1#64) ∧
          ∀ wk wx rest buf poll wd, b.waiters = (wk, wx) :: rest → (s.ctx wk wx).req = some (.queue (.deq buf poll) q wd) →
            (bufferHeld s wk wx buf e.length = true → gives (s.post 1 ev)) ∧
            (bufferHeld s wk wx buf e.length = false →
              status (deqDone (s.modSqueue q fun t => { t with waiters := rest }) wk wx q buf wd e) 1#64)))) ∧
    ∀ buf poll, op = .deq buf poll →
      (b.en = false → traps .syncState) ∧ (b.en = true → b.host = true → traps .queueBound) ∧
      (b.en = true → b.host = false →
        (∀ e rest, b.items = e :: rest →
          (bufferHeld s k y buf e.length = true → gives (s.post 1 ev)) ∧
          (bufferHeld s k y buf e.length = false → gives (deqDone (s.modSqueue q fun t => { t with items := rest }) k y q buf d e))) ∧
        (b.items = [] → poll = true → status s 0#64) ∧
        (b.items = [] → poll = false → sliceWaiters s q < 64 → gives (s.modSqueue q fun t => { t with waiters := t.waiters ++ [(k, y)] })) ∧
        (b.items = [] → poll = false → 64 ≤ sliceWaiters s q → gives (s.post (64 + 2 * queueLatency k q) ev)))

/-- R361 to R368: SEND, SEND.rep and SEND.ref, the arrival of a message, which starts its class's context or is refused, and the reply; one from
another package names its request by number (R472). -/
def Obligations.ActiveMessages : Prop :=
  (∀ (d s1 s2 : GReg) (n : BitVec 5) (s t u : State) (h : Word) (p : List Word), Quiet s →
    let goes := fun (v : State) (pkg core : Nat) (m : MessageData) (i : Instr) =>
      (pkg = s.pkg → v.mates s.cur.1 core = true → Free v d → exec i s = .next (waiting s
        ((requested (kept v d) (.send pkg core m d)).post (latency v s.cur.1 core) (.messageArrival (cid core) m)) .reply)) ∧
      (pkg = s.pkg → v.mates s.cur.1 core = false → exec i s = .next (trapped s { cause := .remoteBoundary })) ∧
      (pkg ≠ s.pkg → Free v d →
        (s.podReleased s.cur.1 = false → exec i s =
          .next ((s.flushDirty s.cur.1 s.cur.2 (s.clsOf s.cur.1)).block s.cur.1 s.cur.2 .podRelease)) ∧
        (s.podReleased s.cur.1 = true →
          ((kept v d).meterBusy s.cur.1 1 = true → exec i s = .next (waiting s (meterHeld (kept v d) (.send pkg core m d)) (.meter 1))) ∧
          ((kept v d).meterBusy s.cur.1 1 = false → exec i s = .next (waiting s
            ((requested (kept v d) (.send pkg core m d)).sendPeer pkg s.cur.1 s.cur.2 (.message (cid core) m)) .reply))))
    let regs := (List.range n.toNat).map fun i => s2 + BitVec.ofNat 5 i
    (Timely s → Reads [s1] s [h] t →
      (h.toNat < 2 ^ 23 → Reads regs t p u → goes u (h.toNat / 2 ^ 16) (h.toNat / 16 % 4096)
        ⟨contextId s s.cur.1 s.cur.2, h.extractLsb' 0 4, .send, p⟩ (.send d s1 s2 n)) ∧
      (2 ^ 23 ≤ h.toNat → exec (.send d s1 s2 n) s = .next (trapped s { cause := .operandRange })) ∧
      (∀ m, s.me.mailbox = some m → 11 ≤ s.cur.2 → s.cur.2 ≤ 14 →
        let o := originCore m.origin
        (16 ≤ h.toNat → exec (.sendRep d s1 s2 n) s = .next (trapped s { cause := .operandRange }) ∧
          exec (.sendRef d s1) s = .next (trapped s { cause := .operandRange })) ∧
        (h.toNat < 16 → goes t o.1 o.2 ⟨contextId s s.cur.1 s.cur.2, h.extractLsb' 0 4, .ref, m.payload⟩ (.sendRef d s1)) ∧
        (h.toNat < 16 → Reads regs t p u → goes u o.1 o.2 ⟨contextId s s.cur.1 s.cur.2, h.extractLsb' 0 4, .rep, p⟩ (.sendRep d s1 s2 n)))) ∧
    (Timely s → s.me.mailbox = none ∨ s.cur.2 < 11 ∨ 14 < s.cur.2 → exec (.sendRep d s1 s2 n) s = .next (trapped s { cause := .noMessage }) ∧
      exec (.sendRef d s1) s = .next (trapped s { cause := .noMessage })) ∧
    (¬ Timely s → ∀ i ∈ [Instr.send d s1 s2 n, .sendRep d s1 s2 n, .sendRef d s1], exec i s = .next (trapped s { cause := .timing }))) ∧
  (∀ (s : State) (dest : CoreId) (m : MessageData), s.agenda = [] → let n := dest.toNat; let c := s.core n; let t := c.classes s.tick; let k := m.cls.toNat
    let o := originCore m.origin
    let h := 11 + ((classC t k).extractLsb' 7 2).toNat
    let w := ((classC t k).extractLsb' 0 7).toNat * 2048
    let reply := fun (u : State) (r : SendReply) => if o.1 = s.pkg then
      u.post (latency u n o.2) (.sendReply (cid o.2) (xid (m.origin.extractLsb' 0 4).toNat) (.own r)) else u
    let here := !(c.stopped || (o.1 == s.pkg && s.away (s.core o.2).launch n))
    let ev := Instr.messageArrival dest m
    let v := wakeAgent (s.unhold ev) n
    let d := v.core n
    (here = false → exec ev s = .next (reply v .eviction)) ∧
    (here = true → s.ended n = true → exec ev s = .next (reply v .boundary)) ∧
    (here = true → s.ended n = false →
      ((classC t k).getLsbD 9 = false ∨ c.workspaceAligned w = false → exec ev s = .next (reply v .cls)) ∧
      ((classC t k).getLsbD 9 = true → c.workspaceAligned w = true →
        ((c.ctx h).mailbox.isSome = true ∨ helperIdle s n h = false →
          exec ev s = .next (reply (v.setCore n { d with msgRefused := d.msgRefused + 1 }) .refused)) ∧
        ((c.ctx h).mailbox = none → helperIdle s n h = true → let y := (m.origin.extractLsb' 0 4).toNat
          (c.touched 16 [] (depositWords t m) = true →
            (s.parkUsed n < 64 → exec ev s = .next ((s.modCtx o.2 y fun x => { x with refusals := 0 }).hold ev [])) ∧
            (64 ≤ s.parkUsed n → s.held = [] → o.1 = s.pkg → (s.ctx o.2 y).refusals < 15 → exec ev s =
              .next (((s.modCore n fun c => { c with pkRefused := c.pkRefused + 1 }).modCtx o.2 y fun x =>
                { x with refusals := x.refusals + 1 }).post 32 ev))) ∧
          (c.touched 16 [] (depositWords t m) = false →
            (c.wroteNow s.tick (depositWords t m) = true → exec ev s = .next ((s.unhold ev).post 1 ev)) ∧
            (c.wroteNow s.tick (depositWords t m) = false → exec ev s = .next (reply (v.setCore n
              ((noteDeposit { d with store := memPut d.store (w + 56) ((messageWord m :: m.payload).flatMap fun x : Word => toBytes 8 x.toNat) }
                s.tick (depositWords t m)).setCtx h
                { startCtx (d.ctx h) (classE t k) ((classC t k).extractLsb' 0 7) s.tick with mailbox := some m })) .accepted))))))) ∧
  ∀ (s u : State) (c : CoreId) (x : CtxId) (pkg dest : Nat) (m : MessageData) (d : GReg), let k := c.toNat; let y := x.toNat
    (s.ctx k y).life = .blocked .reply → (s.ctx k y).req = some (.send pkg dest m d) →
    let verdicts := fun (ev : SendReply → Host.Outcome State Fault Refusal) (g : SendReply → State) =>
      (ReplyWrites (g .accepted) k y d 1#64 u → ev .accepted = .next (replied (g .accepted) k y u)) ∧
      (ReplyWrites (g .refused) k y d 0#64 u → ev .refused = .next (replied (g .refused) k y u)) ∧
      ev .cls = .next (replyTraps (g .cls) k y { cause := .messageClass }) ∧
      ev .boundary = .next (replyTraps (g .boundary) k y { cause := .remoteBoundary }) ∧
      ev .eviction = .next ((g .eviction).post 256 (.evictionRetryResend c x))
    (pkg = s.pkg → verdicts (fun r => exec (.sendReply c x (.own r)) s) fun _ => s) ∧
    (∀ (p : BitVec 7) (q : BitVec 32), let mine := fun (o : Outstanding) => o.isMessage k y && o.target == p.toNat && o.seq == q
      let g := fun (r : PeerReply) => s.gotPeer mine r
      let ev := fun (r : PeerReply) => exec (.sendReply c x (.answered ⟨p, q, r⟩)) s
      (s.hub.outstanding.any mine = false → ∀ r, ev r = .next s) ∧
      (s.hub.outstanding.any mine = true → verdicts (fun r => ev (.send r)) (fun r => g (.send r)) ∧
        ((s.ctx k y).refusals < 15 → ev .retry = .next (((g .retry).modCtx k y fun v => { v with refusals := v.refusals + 1 }).post 32 (.parkRefusalRetry c x))) ∧
        (15 ≤ (s.ctx k y).refusals → ev .retry = .next (replyTraps (g .retry) k y { cause := .retryLimit })))) ∧
    ((s.core k).halting = none → (pkg = s.pkg ∨ s.exhausted (s.clsOf k) 1 = false) → exec (.evictionRetryResend c x) s = .next
      (if pkg = s.pkg then s.post (latency s k dest) (.messageArrival (cid dest) m) else s.sendPeer pkg k y (.message (cid dest) m)))

/-- R371 to R375, R379 to R381, R387 to R393: CPY, GATH, SCAT, CPY.stat and STRM. A legal card or descriptor places a job with the channel's next
ID; a full channel makes the unit wait; the status forms give the channel's words; STRM binds a stream to a free register. The model's choice:
the order of the card's, the descriptor's and the footprint's faults and which cards are refused [log 27], what bases and strides a stream may
have [log 28], which dimensions bear elements [log 26], the order in which CPY, GATH and SCAT read their registers [log 83]. -/
def Obligations.CopyUnits : Prop :=
  (∀ (d s1 s2 : GReg) (s u w : State) (n a : Word), Quiet s → Reads [s1, s2] s [a, n] u →
    let ch := dieOf s.cur.1 * 512 + n.toNat
    (512 ≤ n.toNat → ∀ i ∈ [Instr.cpy d s1 s2, .gath d s1 s2, .scat d s1 s2], exec i s = .next (trapped s { cause := .operandRange })) ∧
    (n.toNat < 512 → ∀ c, Block u a 256 c → 16 ≤ (u.chan ch).jobs.length →
      exec (.cpy d s1 s2) s = .next (stopUnit s s.cur.1 s.cur.2 s.unitOf (.wait (.channel ch)))) ∧
    (n.toNat < 512 → (u.chan ch).jobs.length < 16 →
      (∀ c : Card, Block u a 256 c →
        (c.fpt = 0#64 → footprintBlock c.fpt u = .ok (.ok none, u)) ∧
        (∀ ws, c.fpt ≠ 0#64 → Block u c.fpt 128 ws → footprintBlock c.fpt u = .ok (.ok (some ws), u)) ∧
        ∀ b, footprintBlock c.fpt u = .ok (b, u) →
          (∀ i, checkCard c b u = .error (.trap i) → exec (.cpy d s1 s2) s = .next (trapped s i)) ∧
          (∀ es q v x, checkCard c b u = .ok ((es, some q), v) → askHandle q d v = .ok (.hold .reply, x) →
            exec (.cpy d s1 s2) s = .next (waiting s x .reply)) ∧
          ∀ es v, checkCard c b u = .ok ((es, none), v) → Writes d ((v.chan ch).next.setWidth 64) (placed v ch (.cpy c) (regions es false) (regions es true)) w →
            exec (.cpy d s1 s2) s = .next (retiredOut s w)) ∧
      ∀ (f : List Word), Block u a 64 f → let x := fun (i : Nat) => (f.getD i 0#64).toNat
        let lanes := match s.launchOf s.cur.1 with | some l => l.lanes | none => 0
        let rows := x 0 / 2 ^ 32 % 2 ^ 12 + 1
        let row := 8 * (x 2 / 2 ^ 18 % 2 ^ 9 + 1)
        let sk := x 5 / 2 ^ 14 % 4
        let scope := x 5 / 2 ^ 16 % 8
        let legal := x 0 / 2 ^ 18 % 2 ^ 14 = 0 ∧ x 0 / 2 ^ 44 = 0 ∧ x 1 / 2 ^ 18 = 0 ∧ x 2 / 2 ^ 27 % 2 ^ 5 = 0 ∧ x 2 / 2 ^ 32 ≠ 0 ∧
          x 3 / 2 ^ 12 % 2 ^ 4 = 0 ∧ x 3 / 2 ^ 28 = 0 ∧ x 3 % 2 ^ 12 + x 3 / 2 ^ 16 % 2 ^ 12 + 1 ≤ lanes ∧
          x 5 % 2 ^ 14 = 0 ∧ x 5 / 2 ^ 19 % 2 ^ 29 = 0 ∧ sk ≠ 3 ∧ (sk = 0 ∨ scope ≠ 0) ∧ x 6 = 0 ∧ x 7 = 0
        let aligned := x 0 % 4 = 0 ∧ x 1 % 8 = 0 ∧ x 2 % 8 = 0
        let fits := x 0 % 2 ^ 18 + 4 * rows ≤ u.mine.S ∧ x 1 % 2 ^ 18 + rows * row ≤ u.mine.S
        ∀ sc : Bool, let i := if sc then Instr.scat d s1 s2 else .gath d s1 s2
          (¬ legal → exec i s = .next (trapped s { cause := .operandRange })) ∧
          (legal → ¬ aligned → exec i s = .next (trapped s { cause := .misaligned })) ∧
          (legal → aligned → ¬ fits → exec i s = .next (trapped s { cause := .outsideScratchpad })) ∧
          (legal → aligned → fits →
            (∀ e, signalCheck sk scope (f.getD 4 0#64) u = .error (.trap e) → exec i s = .next (trapped s e)) ∧
            (∀ q v y, signalCheck sk scope (f.getD 4 0#64) u = .ok (some q, v) → askHandle q d v = .ok (.hold .reply, y) →
              exec i s = .next (waiting s y .reply)) ∧
            ∀ v, signalCheck sk scope (f.getD 4 0#64) u = .ok (none, v) → LoadFree v (x 0 % 2 ^ 18) (4 * rows) →
              Writes d ((v.chan ch).next.setWidth 64)
                (placed v ch (.rows sc f ((List.range rows).map fun i => memRead v.mine.store (x 0 % 2 ^ 18 + 4 * i) 4)) [] []) w →
              exec i s = .next (retiredOut s w)))) ∧
  (∀ (s : State) (sk scope : Nat) (h : Word),
    signalCheck 0 scope h s = .ok (none, s) ∧
    (sk ≠ 0 → h.toNat / 2 ^ 25 ≠ 0 ∨ (sk = 2 ∧ h.getLsbD 5 = true) → signalCheck sk scope h s = .error (.trap { cause := .operandRange })) ∧
    (sk ≠ 0 → h.toNat / 2 ^ 25 = 0 → sk ≠ 2 ∨ h.getLsbD 5 = false → ∀ sc, [Scope.lane, .core, .quad, .group, .sgrp, .die, .pkg, .pod][scope]? = some sc →
      (∀ e, syncHome h sc s = .error (.trap e) → signalCheck sk scope h s = .error (.trap e)) ∧
      ∀ pkg home, syncHome h sc s = .ok ((pkg, home), s) → let n := h.toNat % 2 ^ 6
        signalCheck sk scope h s = .ok (if pkg = s.pkg ∨ s.me.hostReplies.any (·.1 == handleKey pkg home n) = true then none else some (pkg, home, n), s))) ∧
  (∀ (d s1 s2 : GReg) (s t u : State) (n m : Word), Quiet s → n.toNat < 512 → let ch := dieOf s.cur.1 * 512 + n.toNat; let q := s.chan ch
    (Timely s → Reads [s1] s [n] t →
      (Writes d ((q.codeBefore s.tick).1 ++ 0#13 ++ q.done : Word) t u → exec (.cpyStat d s1) s = .next (retiredOut s u)) ∧
      (Writes d (q.code ++ 0#13 ++ (if q.code = 0#3 then 0#48 else q.codeId) : Word) (t.modChan ch fun _ => { q with
          code := 0#3, codeId := 0#48, before := some (s.tick, (q.codeBefore s.tick).1, (q.codeBefore s.tick).2) }) u →
        exec (.cpyStatErr d s1) s = .next (retiredOut s u))) ∧
    (¬ Timely s → exec (.cpyStat d s1) s = .next (trapped s { cause := .timing }) ∧ exec (.cpyStatErr d s1) s = .next (trapped s { cause := .timing })) ∧
    (Reads [s1, s2] s [n, m] t → Free t d → exec (.cpyStatWait d s1 s2) s = .next (waiting s (kept t d) (.copyStat ch (m.extractLsb' 0 48) d)))) ∧
  (∀ (d s1 s2 : GReg) (s t : State) (n : Word), Quiet s → 512 ≤ n.toNat → Reads [s1] s [n] t →
    (Timely s → ∀ i ∈ [Instr.cpyStat d s1, .cpyStatErr d s1], exec i s = .next (trapped s { cause := .operandRange })) ∧
    exec (.cpyStatWait d s1 s2) s = .next (trapped s { cause := .operandRange })) ∧
  (∀ (s u : State) (c : CoreId) (x : CtxId) (ch : Nat) (id : BitVec 48) (d : GReg), let k := c.toNat; let y := x.toNat
    (s.ctx k y).life = .blocked (.copyStat ch id d) →
    (atOrPast (s.chan ch).done id = true → ReplyWrites s k y d (if (s.chan ch).code = 0#3 then 1#64 else 0#64) u →
      exec (.cpyStatWaitRelease c x) s = .next (replied s k y u)) ∧
    (atOrPast (s.chan ch).done id = false → exec (.cpyStatWaitRelease c x) s = .next (s.postPoll 1 (.cpyStatWaitRelease c x)))) ∧
  ∀ (d s1 : GReg) (k : VReg) (f : BitVec 5) (s t u : State), Quiet s →
    (∀ a b n, Reads [s1, s1 + 1, s1 + 2] s [a, b, n] t →
      (n = 0#64 ∨ 2 ^ 32 < n.toNat → exec (.strmIn d k s1 f) s = .next (trapped s { cause := .operandRange }) ∧
        exec (.strmOut d k s1 f) s = .next (trapped s { cause := .operandRange })) ∧
      (n ≠ 0#64 → n.toNat ≤ 2 ^ 32 → a.toNat % 8 = 0 → n = 1#64 ∨ b.toInt % 8 = 0 →
        (tabFind t.me.streams k.toNat = none → ∀ o : Bool,
          Writes d 1#64 (bound t k { out := o, ls := false, base := a, dims := [(n.toNat, b.toInt)], next := 0, buf := [], err := false, root := t.mine.vmroot }) u →
          exec (if o then .strmOut d k s1 f else .strmIn d k s1 f) s = .next (retiredOut s u)) ∧
        ((tabFind t.me.streams k.toNat).isSome = true → exec (.strmIn d k s1 f) s = .next (trapped s { cause := .streamBusy }) ∧
          exec (.strmOut d k s1 f) s = .next (trapped s { cause := .streamBusy })))) ∧
    (∀ a ws, Reads [s1] s [a] t → Block t a 64 ws → tabFind t.me.streams k.toNat = none →
      let w := fun (i : Nat) => ws.getD i 0#64
      let e := (w 1).toNat / 2 % 4 + 1
      let dims := (List.range e).map fun i => ((w (2 + i)).toNat / 2 ^ 48 + 1, ((w (2 + i)).extractLsb' 0 48).toInt)
      (w 1).toNat / 2 ^ 28 = 0 → (w 1).toNat / 8 % 2 ^ 13 = 0 → w 6 = 0#64 → w 7 = 0#64 → (∀ i, e ≤ i → i < 4 → w (2 + i) = 0#64) →
      (w 0).toNat % 8 = 0 → (∀ p ∈ dims, p.1 = 1 ∨ p.2 % 8 = 0) → ∀ o : Bool,
        Writes d 1#64 (bound t k { out := o, ls := (w 1).getLsbD 0, base := w 0, dims := dims, next := 0, buf := [], err := false, root := t.mine.vmroot }) u →
        exec (if o then .strmOutD d k s1 f else .strmInD d k s1 f) s = .next (retiredOut s u)) ∧
    (tabFind s.me.streams k.toNat = none → Writes d 0#64 s u → exec (.strmOff d k) s = .next (retiredOut s u)) ∧
    ∀ m, tabFind s.me.streams k.toNat = some m →
      (m.out = true → m.buf ≠ [] → exec (.strmOff d k) s = .next (stopUnit s s.cur.1 s.cur.2 s.unitOf (.wait (.strmOff k.toNat)))) ∧
      (m.out = false ∨ m.buf = [] →
        Writes d (if m.err then 0#64 else 1#64) (s.modCtx s.cur.1 s.cur.2 fun v => { v with streams := tabErase v.streams k.toNat }) u →
        exec (.strmOff d k) s = .next (retiredOut s u))

/-- R233, R234, R353, R372, R376 to R378, R381 to R386, R391, R430: how jobs go on and end. A job that an edge or a barrier holds waits, and one
that its launch's cores or its meter holds pauses at a segment boundary; one reads the elements of a source granule, writes a destination granule
once all its elements are read, as one event, and no byte that it does not place; a row of a gather or scatter; an end in order of IDs, its
signal, and the record of an error. The model's choice: of two jobs on one granule the later write stands [log 16], an element of an overlapping
copy is what memory holds when it is read [log 19], and how many elements one event reads and writes [log 25]. -/
def Obligations.CopyJobs : Prop :=
  (∀ (s : State) (ch : ChanId) (id : BitVec 48) (j : Job) (c : Card), s.job ch.toNat id = some j → j.kind = .cpy c → j.code = 0 →
    let ev := Instr.granuleRead ch id
    (jobWaits s j = true → exec ev s = .next ((payBarrier s ch.toNat j).post 1 ev)) ∧
    (jobWaits s j = false →
      ((c.readyGranule j).isSome = true → exec ev s = .next (s.post 0 (.granuleWrite ch id))) ∧
      (c.readyGranule j = none →
        (boxSize c.dims ≤ j.pos → exec ev s = .next (s.post 1 (.jobEnd ch (.own id)))) ∧
        (j.pos < boxSize c.dims →
          (j.seg = 0 → j.cancelled = true → exec ev s = .next (failJob (s.unhold ev) ch.toNat j 6)) ∧
          (j.seg = 0 → j.cancelled = false → jobPauses s j = true → exec ev s = .next (s.post 1 ev)) ∧
          (j.seg ≠ 0 ∨ (j.cancelled = false ∧ jobPauses s j = false) →
            ∀ es pos, chunkOf c (boxSize c.dims) 4096 ((4096 - j.seg) / c.elem) none j.pos = (es, pos) →
              (∀ l t, chunkBytes s ev j c es = (.ok l, t) → exec ev s = .next ((t.setJob ch.toNat { j with
                pos := pos, buf := j.buf ++ l, seg := if boxSize c.dims ≤ pos then 0 else (j.seg + es.length * c.elem) % 4096,
                hostWait := none, hostData := [] }).post 1 ev)) ∧
              (∀ l n t, chunkBytes s ev j c es = (.line l n, t) → exec ev s = .next (t.hold ev [lineKey l] n)) ∧
              ∀ e t, chunkBytes s ev j c es = (.fail e, t) → exec ev s = .next (failJob (t.unhold ev) ch.toNat j e)))))) ∧
  (∀ (s : State) (i : Instr) (j : Job) (c : Card) (es : List (Nat × Bool)),
    let place := fun (low : Word) (bs : List Byte) => es.map fun (e : Nat × Bool) => let x := c.elemAt e.1
      (x.2.2, if e.2 then (bs.drop (x.2.1.toNat - low.toNat)).take c.elem else List.replicate c.elem 0#8)
    (es.any (·.2) = false → chunkBytes s i j c es = (.ok (place 0#64 []), s)) ∧
    ∀ low n, chunkSpan c es = some (low, n) →
      (∀ e ∈ es, e.2 = true → let a := (c.elemAt e.1).2.1.toNat; low.toNat ≤ a ∧ a + c.elem ≤ low.toNat + n) ∧
      (c.sls = true → ∀ k off z, engineLocal s j.core j.launch low 1 = .ok (k, off) →
        engineLocal s j.core j.launch (low + BitVec.ofNat 64 (n - c.elem)) c.elem = .ok z →
        let ranges := (es.filter (·.2)).map fun (e : Nat × Bool) => (off + ((c.elemAt e.1).2.1.toNat - low.toNat), c.elem)
        (engineHeld s k ranges [] = true → chunkBytes s i j c es = (.later, s)) ∧
        (engineHeld s k ranges [] = false → chunkBytes s i j c es = (.ok (place low (memBytes (s.core k).store off n)), s))) ∧
      (c.sls = false → ∀ b t, engineRead s i j.core j.cls j.launch j.root j.hostData low n = (.ok b, t) →
        chunkBytes s i j c es = (.ok (place low b), t))) ∧
  (∀ (c : Card) (p : Nat) (d : Dim), c.dims = [d] →
    c.elemAt p = (decide (d.lo ≤ p % d.b ∧ p % d.b ≤ d.him), c.src + BitVec.ofInt 64 ((p % d.b : Nat) * d.ss), c.dst + BitVec.ofInt 64 ((p % d.b : Nat) * d.ds))) ∧
  (∀ (c : Card) (j : Job) (g p : Nat), c.readyGranule j = some g → j.pos ≤ p → p < boxSize c.dims → (c.elemAt p).1 = true ∨ c.fill = false →
    (c.elemAt p).2.2.toNat / 64 ≠ g) ∧
  (∀ (s : State) (ch : ChanId) (id : BitVec 48) (j : Job) (c : Card) (g : Nat),
    s.job ch.toNat id = some j → j.kind = .cpy c → c.readyGranule j = some g → let ev := Instr.granuleWrite ch id
    let mine := fun (b : Word × List Byte) => b.1.toNat / 64 == g
    let bs := j.buf.filter mine
    let r := if c.dls then engineDeposit s j bs else engineWrite s ev j.core j.cls j.launch j.root (j.launch.getD 0, j.lane, j.det) bs
    (∀ t, r = (.ok (), t) → exec ev s = .next ((payBarrier (t.charge j.cls 2 1) ch.toNat
      { j with buf := j.buf.filter (fun b => !mine b), owed := (granuleBytes bs).length }).post 1 (.granuleRead ch id))) ∧
    (∀ l n t, r = (.line l n, t) → exec ev s = .next (t.hold ev [lineKey l] n)) ∧
    (∀ t, r = (.later, t) → exec ev s = .next (t.post 1 ev)) ∧
    ∀ e t, r = (.fail e, t) → exec ev s = .next (failJob (t.unhold ev) ch.toNat j e)) ∧
  (∀ (s t u : State) (i : Instr) (k cls pa : Nat) (launch : Option Nat) (root : Word) (h : Nat × Nat × Bool) (bs : List (Word × List Byte)), s.sound →
    engineAddress s k cls launch root ((bs.head?.map (·.1)).getD 0#64) 1 = (.ok pa, u) → hostResident pa = false →
    engineWrite s i k cls launch root h bs = (.ok (), t) → t.sound ∧
      (∀ a, (∀ x ∈ granuleBytes bs, a ≠ pa / 64 * 64 + x.1) → memGet t.mem a = memGet s.mem a) ∧
      ∀ x ∈ granuleBytes bs, memGet t.mem (pa / 64 * 64 + x.1) = x.2) ∧
  (∀ (s : State) (ch : ChanId) (id : BitVec 48) (j : Job) (sc : Bool) (ws : List Word) (idx : List Nat), s.job ch.toNat id = some j → j.kind = .rows sc ws idx →
    let ev := Instr.gathScatRow ch id
    let goes := j.code = 0 ∨ j.code = 4
    (¬ goes → exec ev s = .next s) ∧
    (goes → jobWaits s j = true → exec ev s = .next ((payBarrier s ch.toNat j).post 1 ev)) ∧
    (goes → jobWaits s j = false → j.cancelled = true → exec ev s = .next (failJob s ch.toNat j 6)) ∧
    (goes → jobWaits s j = false → j.cancelled = false → jobPauses s j = true → exec ev s = .next (s.post 1 ev)) ∧
    (goes → jobWaits s j = false → j.cancelled = false → jobPauses s j = false → let x := fun (i : Nat) => (ws.getD i 0#64).toNat
      let row := 8 * (x 2 / 2 ^ 18 % 2 ^ 9 + 1)
      let mine := x 1 % 2 ^ 18 + j.pos * row
      let go := fun (t : State) (j : Job) (k a : Nat) (bs : List Byte) => Host.Outcome.next
        ((payBarrier ((depositRuns t k [(a, bs)]).charge j.cls 2 (granuleCount a row)) ch.toNat
          { j with pos := j.pos + 1, owed := row }).post 1 ev)
      (idx.length ≤ j.pos → exec ev s = .next (s.post 1 (.jobEnd ch (.own id)))) ∧
      ∀ i, idx[j.pos]? = some i →
        (x 2 / 2 ^ 32 ≤ i → let t := captureError s ch.toNat j.id 4
          (sc = true → exec ev s = .next ((t.setJob ch.toNat { j with code := 4, pos := j.pos + 1 }).post 1 ev)) ∧
          (sc = false → engineHeld s j.core [] [(mine, row)] = false → exec ev s = go t { j with code := 4 } j.core mine (List.replicate row 0#8))) ∧
        (i < x 2 / 2 ^ 32 → ∀ t l, j.launch = some t → s.launch t = some l → let p := x 3 / 2 ^ 16 % 2 ^ 12 + 1; let lane := x 3 % 2 ^ 12 + i % p
          let off := x 2 % 2 ^ 18 + i / p * row
          (l.cores[lane]? = none → exec ev s = .next (failJob s ch.toNat j 3)) ∧
          ∀ owner, l.cores[lane]? = some owner →
            (s.away j.launch owner = true → exec ev s = .next (s.post 1 ev)) ∧
            (s.away j.launch owner = false → s.savedAt j.launch owner = true → exec ev s = .next (failJob s ch.toNat j 6)) ∧
            (s.away j.launch owner = false → s.savedAt j.launch owner = false → (s.core owner).S < off + row → exec ev s = .next (failJob s ch.toNat j 3)) ∧
            (s.away j.launch owner = false → s.savedAt j.launch owner = false → off + row ≤ (s.core owner).S →
              (sc = false → engineHeld s owner [(off, row)] [] = false → engineHeld s j.core [] [(mine, row)] = false →
                exec ev s = go s j j.core mine (memBytes (s.core owner).store off row)) ∧
              (sc = true → engineHeld s j.core [(mine, row)] [] = false → engineHeld s owner [] [(off, row)] = false →
                exec ev s = go s j owner off (memBytes (s.core j.core).store mine row)))))) ∧
  (∀ (s : State) (ch : ChanId) (id : BitVec 48) (j : Job), s.job ch.toNat id = some j → j.owed = 0 →
    let ev := Instr.jobEnd ch (.own id)
    let pkg := (j.signal.2.2.extractLsb' 18 7).toNat
    let home := (j.signal.2.2.extractLsb' 6 12).toNat
    let n := (j.signal.2.2.extractLsb' 0 6).toNat
    let inc := BitVec.ofNat 32 j.signal.2.1
    let sent := s.hub.outstanding.any (·.ctx == jobKey ch.toNat j.id)
    (j.code = 0 → j.signal.1 ≠ 1 → exec ev s = .next (removeJob s ch.toNat j)) ∧
    (j.code = 0 → j.signal.1 = 1 → pkg = s.pkg → (s.savedAt j.launch home && s.dying j.launch) = false → jobAway s j home = false →
      exec ev s = .next (removeJob (s.setSem home n ((s.core home).sem n + inc)) ch.toNat j)) ∧
    (j.code = 0 → j.signal.1 = 1 → pkg ≠ s.pkg →
      (sent = true → exec ev s = .next (s.post 1 ev)) ∧
      (sent = false → j.retryAt ≤ s.tick → s.exhausted j.cls 1 = false → exec ev s = .next ((s.sendPeerAs pkg j.core (jobKey ch.toNat j.id) j.cls
        (.sync (j.signal.2.2.extractLsb' 6 12) (j.signal.2.2.extractLsb' 0 6) (.semi false inc) (contextId s j.core j.ctx))).post 1 ev))) ∧
    (j.code = 6 ∨ (j.code ≠ 0 ∧ j.reported = true) → exec ev s = .next (removeJob s ch.toNat j)) ∧
    (j.code ≠ 0 → j.code ≠ 6 → j.reported = false → s.away j.launch j.core = false → (s.core j.core).launch = j.launch → exec ev s = .next
      (leaveRecord (s.setJob ch.toNat { j with reported := true }) j.core j.ctx (copyRecord j.code ch.toNat j.id) (some (ch.toNat, j.id)))) ∧
    (j.code ≠ 0 → s.away j.launch j.core = false → (s.core j.core).launch ≠ j.launch → exec ev s = .next (removeJob s ch.toNat j))) ∧
  (∀ (s : State) (ch : ChanId) (id : BitVec 48) (j : Job) (a : PeerAnswer), s.job ch.toNat id = some j →
    let ev := Instr.jobEnd ch (.answered id a)
    let mine := fun (o : Outstanding) => o.ctx == jobKey ch.toNat id && o.answeredBy a
    (s.hub.outstanding.any mine = false → exec ev s = .next s) ∧
    (s.hub.outstanding.any mine = true → let t := s.gotPeer mine a.reply
      (a.reply = .retry → exec ev s = .next (t.setJob ch.toNat { j with retryAt := s.tick + 64 })) ∧
      (a.reply = .eviction → exec ev s = .next (t.setJob ch.toNat { j with retryAt := s.tick + 256 })) ∧
      ∀ w, a.reply = .value w →
        (j.owed = 0 → exec ev s = .next (removeJob t ch.toNat j)) ∧
        (0 < j.owed → exec ev s = .next (t.setJob ch.toNat { j with owed := 0 })))) ∧
  (∀ (s : State) (ch : Nat) (j : Job), let q := (removeJob s ch j).chan ch; let o := s.chan ch
    q.next = o.next ∧ (∀ i ∈ q.jobs, i.id ≠ j.id) ∧ (o.done + 1 = j.id → o.endedAhead = [] → q.done = j.id) ∧ q.code = o.code ∧ q.codeId = o.codeId) ∧
  (∀ (s : State) (ch n : Nat) (id : BitVec 48), let q := (captureError s ch id n).chan ch; let o := s.chan ch
    (o.code ≠ 0#3 → q = o) ∧ (o.code = 0#3 → q = { o with code := BitVec.ofNat 3 n, codeId := id })) ∧
  (∀ (s : State) (ch : ChanId) (id : BitVec 48) (k : BitVec 3) (j : Job), s.job ch.toNat id = some j → j.code = 0 ∨ j.code = 4 →
    exec (.uncorrectableSoftError (.copy ch) id k) s = .next (failJob s ch.toNat j 5)) ∧
  ∀ (s : State) (c : CoreId) (w : WaitingRecord), let k := c.toNat; let o := s.core k
    o.trapWait = [w] → w.job = none →
    (s.ended k = true → exec (.trapRecordEnqueue c) s = .next (s.setCore k { o with trapWait := [] })) ∧
    (s.ended k = false → 17 ≤ freeRecords o.trapq → exec (.trapRecordEnqueue c) s = .next (s.post 1 (.trapRecordEnqueue c))) ∧
    (s.ended k = false → freeRecords o.trapq < 17 → exec (.trapRecordEnqueue c) s = .next
      ((s.setCore k { o with trapWait := [] }).enqueueRecord k false
        (trapRecord o (o.ctx w.ctx) w.ctx ⟨0#64, 0, 0#32, none⟩ (o.ctx w.ctx).retire w.info false)))

/-- R156, R236, R387, R392 to R394: strips. An input stream reads the granules of its next strip, one after the other, while its buffer has room,
with zeros, an empty predicate and the fault where it meets one; an output stream writes the granules of its oldest committed strip, or ends with
an error and a record; the address of a strip; the host's reply to a load. The model's choice: strips that met a fault are filled afresh after
the trap [log 32], and a strip is stored byte by byte under its predicate [log 61]. -/
def Obligations.StreamStrips : Prop :=
  (∀ (s : State) (c : CoreId) (x : CtxId) (r : VReg) (m : Stream), let k := c.toNat; let y := x.toNat; let n := r.toNat; let ev := Instr.streamStripFill c x r
    tabFind (s.ctx k y).streams n = some m → m.out = false → m.next < m.total →
    (Config.streamDepth ≤ m.buf.length + (s.ctx k y).stripsHeld n → exec ev s = .next (s.post 1 ev)) ∧
    (m.buf.length + (s.ctx k y).stripsHeld n < Config.streamDepth →
      let put := fun (t : State) (p : Strip) => Host.Outcome.next ((t.setStream k y n (m.filled p)).post 1 ev)
      (granulesLeft (m.addr m.next) m.part.length = [] →
        exec ev s = put s { index := m.next, data := BitVec.ofNat 2048 (ofBytes m.part), pred := BitVec.allOnes 256 }) ∧
      ∀ ea len rest, granulesLeft (m.addr m.next) m.part.length = (ea, len) :: rest →
        (∀ b t, readGranule s ev k m ea len = (.ok b, t) →
          exec ev s = .next ((t.setStream k y n { m with part := m.part ++ b, hostWait := none, hostData := [] }).post 1 ev)) ∧
        (∀ e t, readGranule s ev k m ea len = (.fail e, t) →
          exec ev s = put (t.unhold ev) { index := m.next, data := 0#2048, pred := 0#256, fault := some (fillFault t k m ea) }) ∧
        (∀ l d t, readGranule s ev k m ea len = (.line l d, t) → exec ev s = .next (t.hold ev [lineKey l] d)) ∧
        ∀ t, readGranule s ev k m ea len = (.later, t) → exec ev s = .next (t.post 1 ev))) ∧
  (∀ (s : State) (c : CoreId) (x : CtxId) (r : VReg) (m : Stream) (p : Strip) (rest : List Strip),
    let k := c.toNat; let y := x.toNat; let n := r.toNat; let ev := Instr.streamStripWrite c x r
    tabFind (s.ctx k y).streams n = some m → m.out = true → m.buf = p :: rest →
    (stripGranule m p = none → exec ev s = .next (s.setStream k y n { m with buf := rest })) ∧
    ∀ bs first len, stripGranule m p = some (bs, first, len) →
      (p.begun = false → s.meterOut k 2 = true → exec ev s = .next (s.post 1 ev)) ∧
      (p.begun = true ∨ s.meterOut k 2 = false →
        (∀ t, writeGranule s ev k m bs = (.ok (), t) →
          exec ev s = .next (((t.charge (t.clsOf k) 2 1).setStream k y n { m with buf := p.written first len :: rest }).post 1 ev)) ∧
        (∀ l d t, writeGranule s ev k m bs = (.line l d, t) → exec ev s = .next (t.hold ev [lineKey l] d)) ∧
        (∀ t, writeGranule s ev k m bs = (.later, t) → exec ev s = .next (t.post 1 ev)) ∧
        ∀ e t, writeGranule s ev k m bs = (.fail e, t) →
          exec ev s = .next (leaveRecord ((t.unhold ev).setStream k y n { m with err := true, buf := [] }) k y (copyRecord e 0 0#48) none))) ∧
  (∀ (m : Stream) (p : Strip) (bs : List (Word × List Byte)) (first len : Nat), stripGranule m p = some (bs, first, len) →
    ∀ b ∈ bs, ∃ i, first ≤ i ∧ i < first + len ∧ p.pred.getLsbD i = true ∧ b = (m.addr p.index + BitVec.ofNat 64 i, [p.data.extractLsb' (8 * i) 8])) ∧
  (∀ (m : Stream) (n y : Nat) (b : Int), m.dims = [(n, b)] → m.addr y = m.base + BitVec.ofInt 64 ((y % n : Nat) * b)) ∧
  (∀ (a : Word), ((granulesOf a).map (·.2)).sum = 256) ∧
  (∀ (s : State) (k x n : Nat) (m : Stream) (pa : Nat), m.hostWait ≠ some pa →
    streamHost s k x n m pa = (s.setStream k x n { m with hostWait := some pa }).sendPort (s.clsOf k) (.hostRead pa (.stream (cid k) (xid x) (BitVec.ofNat 5 n)))) ∧
  (∀ (s : State) (c : CoreId) (x : CtxId) (v : BitVec 64) (pa : BitVec 52), let ev := Instr.hostLoadReply (.ctx c x) pa v
    ((s.ctx c.toNat x.toNat).life = .blocked (.hostLoad pa.toNat) → exec ev s =
      .next ((s.modCtx c.toNat x.toNat fun w => { w with hostReplies := w.hostReplies ++ [(pa.toNat, v)] }).ready c.toNat x.toNat)) ∧
    ((s.ctx c.toNat x.toNat).life ≠ .blocked (.hostLoad pa.toNat) → exec ev s = .next s)) ∧
  (∀ (s : State) (c : CoreId) (x : CtxId) (r : VReg) (m : Stream) (v : BitVec 64) (pa : BitVec 52), tabFind (s.ctx c.toNat x.toNat).streams r.toNat = some m →
    exec (.hostLoadReply (.stream c x r) pa v) s = .next (if m.hostWait = some pa.toNat then
      s.setStream c.toNat x.toNat r.toNat { m with hostWait := none, hostData := m.hostData ++ [(pa.toNat, v)] } else s)) ∧
  (∀ (s : State) (ch : ChanId) (id : BitVec 48) (j : Job) (v : BitVec 64) (pa : BitVec 52), s.job ch.toNat id = some j →
    exec (.hostLoadReply (.job ch id) pa v) s = .next (if j.hostWait = some pa.toNat then
      s.setJob ch.toNat { j with hostWait := none, hostData := j.hostData ++ [(pa.toNat, v)] } else s)) ∧
  ∀ (s : State) (v : BitVec 64) (pa : BitVec 52), exec (.hostLoadReply .dealer pa v) s = .next (if s.hub.dealWait = some pa.toNat then
    s.modHub fun h => { h with dealWait := none, dealWords := h.dealWords ++ [(pa.toNat, v)] } else s)

/-- R226, R428 to R432, R435, R437: taking a trap parks the context, writes its save area and no other byte, and enqueues its record, those of
one tick in ascending context number, or escalates where no supervisor can take it; resuming gives the context back the state it trapped with.
The model's choice: an illegal unit cuts the trick in front of it [log 66], a record that no supervisor can take escalates [log 59], and the
escalation takes effect at once [log 55]. -/
def Obligations.TrapsTaken : Prop :=
  (∀ (s : State) (k x : Nat) (u : UnitInfo) (ret : Word) (t : TrapInfo), let v := s.ctx k x; let r := s.takeTrap k x u ret t
    Memory.wf (s.core k).store = true →
    (x ≠ 15 → (s.core k).svent.extractLsb' 1 55 ≠ 0#55 →
      (r.ctx k x) = { v with life := .parked, req := none, tileFree := false, unit := u, rep := if t.cause = .illegal ∧ t.detail = 2#8 then none else v.rep } ∧
      (r.core k).trapq = ((s.core k).addRecord s.tick (trapRecord (s.core k) v x u ret t true)).trapq ∧ (r.core k).trapSeq = (s.core k).trapSeq + 1 ∧
      memWord (r.core k).store (v.wsp + 1280) = v.pc ∧ memWord (r.core k).store (v.wsp + 1288) = v.cmode ∧
      memWord (r.core k).store (v.wsp + 1296) = v.cflags ∧ memWord (r.core k).store (v.wsp + 1304) = v.retire ∧
      (∀ a, a < v.wsp + 1280 ∨ v.wsp + 1328 ≤ a → memGet (r.core k).store a = memGet (s.core k).store a) ∧
      (∀ y, y ≠ x → r.ctx k y = s.ctx k y) ∧ (∀ j, j ≠ k → r.core j = s.core j) ∧ r.mem = s.mem ∧ r.launches = s.launches ∧
      (2 * s.tick, .supervisorWake (cid k)) ∈ r.agenda ∧
      ((∀ p, v.rep = some p → p.index < 16 ∧ p.remaining < 2 ^ 13 ∧ p.pass < 2 ^ 12) → ¬ (t.cause = .illegal ∧ t.detail = 2#8) →
        (r.resume k x true).ctx k x = { v with
          life := if v.awaitsTrump then .blocked .trump else .ready, readyAt := s.tick + 1, req := none, tileFree := false, unit := u
          farq := v.farq.map fun e => { e with fault := none, refused := none, due := none } })) ∧
    (x = 15 ∨ (s.core k).svent.extractLsb' 1 55 = 0#55 → ∀ tag l, (s.core k).launch = some tag → s.launch tag = some l → l.ending = none →
      ∃ m, r.launch tag = some m ∧ m.ending = some 3 ∧ (2 * s.tick + 1, .launchCompletion (BitVec.ofNat 16 tag)) ∈ r.agenda ∧ r.mem = s.mem)) ∧
  (∀ (c : Core) (now : Nat) (r : TrapRecord), let n := c.trapNew.2
    (c.trapNew.1 ≠ now → (c.addRecord now r).trapq = c.trapq ++ [r] ∧ (c.addRecord now r).trapNew = (now, 1)) ∧
    (c.trapNew.1 = now → 0 < n → n ≤ c.trapq.length → let l := c.trapq.drop (c.trapq.length - n); let q := (c.addRecord now r).trapq
      q.length = c.trapq.length + 1 ∧ q.take (c.trapq.length - n) = c.trapq.take (c.trapq.length - n) ∧
      (r.length = 64 → (∀ e ∈ l, e.length = 64) → (l.Pairwise fun a b => a.ctx ≤ b.ctx) → ((l ++ [r]).Pairwise fun a b => a.seq < b.seq) →
        ((q.drop (c.trapq.length - n)).Pairwise fun a b => a.ctx ≤ b.ctx ∧ a.seq < b.seq)))) ∧
  (∀ (c : Core) (v : Ctx) (x : Nat) (u : UnitInfo) (ret : Word) (t : TrapInfo), x < 16 → let r := trapRecord c v x u ret t true
    let w := fun (i : Nat) => BitVec.ofNat 64 (ofBytes ((r.drop (8 * i)).take 8))
    r.length = 64 ∧ (w 0).extractLsb' 0 8 = BitVec.ofNat 8 t.cause.code ∧ (w 0).extractLsb' 8 8 = t.detail ∧
      (w 0).extractLsb' 16 4 = BitVec.ofNat 4 x ∧ (w 0).getLsbD 20 = true ∧ (w 0).getLsbD 21 = u.pre.isSome ∧ (w 0).extractLsb' 24 7 = v.wspBlk ∧
      w 1 = u.addr ∧ w 2 = (u.pre.getD 0#32 ++ u.word : Word) ∧ w 3 = t.addr ∧ (v.rep = none → w 4 = t.aux) ∧ w 5 = ret) ∧
  (∀ (s : State) (c : CoreId) (x : CtxId) (t : TrapInfo), let k := c.toNat; let y := x.toNat; let v := s.ctx k y
    v.life = .blocked (.trapEntry t) →
    (v.settled = true → exec (.trapEntry c x) s = .next
      (s.takeTrap k y v.unit (if t.cause = .breakpoint ∨ t.cause = .trap then v.retire - 1#64 else v.retire) t)) ∧
    (v.settled = false → exec (.trapEntry c x) s = .next ((s.endTrick k y).postPoll 1 (.trapEntry c x)))) ∧
  ∀ (s : State) (u : UnitInfo) (ret : Word) (t : TrapInfo), let lock := (s.launchOf s.cur.1).any (·.lock)
    (s.me.settled = true → lock = false → s.trapUnit s.cur.1 s.cur.2 u ret t = s.takeTrap s.cur.1 s.cur.2 u ret t) ∧
    (s.me.settled = true → lock = true → let r := s.trapUnit s.cur.1 s.cur.2 u ret t
      (r.ctx s.cur.1 s.cur.2).life = .blocked (.trapEntry t) ∧ (2 * s.tick + 1, .trapEntry (cid s.cur.1) (xid s.cur.2)) ∈ r.agenda)

/-- R435 to R437: TRAP, which retires and then traps with its number and a value; ERET and ERET.end, PARKRD, PARKWR, ERLOG and ERLOG.esc of the
supervisor, privileged in every other context. The model's choice: TRAP retires outside any trick before it traps [log 64]. -/
def Obligations.SystemUnits : Prop :=
  (∀ (s t : State) (s1 : GReg) (n : BitVec 5) (a : Word), Quiet s → Reads [s1] s [a] t →
    exec (.trap s1 n) s = .next ((retiredOut s t).trapUnit s.cur.1 s.cur.2 s.unitOf t.me.retire { cause := .trap, detail := n.setWidth 8, aux := a })) ∧
  (∀ (s : State) (d s1 s2 : GReg) (sc : Scope), Quiet s → s.cur.2 ≠ 15 →
    ∀ i ∈ [Instr.eret s1, .eretEnd s1, .parkrd d s1, .parkwr s1 s2, .erlog d s1, .erlogEsc s1, .cwrVmroot s1, .tlbiVa s1 s2 sc, .tlbiAsid s2 sc, .tlbiAll sc],
      exec i s = .next (trapped s { cause := .privileged })) ∧
  (∀ (s t : State) (s1 : GReg) (w : Word), Quiet s → s.cur.2 = 15 → Reads [s1] s [w] t → let x := w.toNat; let v := t.mine.ctx x
    let pc := memWord t.mine.store (v.wsp + 1280); let mode := memWord t.mine.store (v.wsp + 1288)
    (14 < x ∨ v.life ≠ .parked → exec (.eret s1) s = .next (trapped s { cause := .operandRange })) ∧
    (x ≤ 14 → v.life = .parked → pc.getLsbD 0 = true → exec (.eret s1) s = .next (trapped s { cause := .misalignedTarget, addr := pc })) ∧
    (x ≤ 14 → v.life = .parked → pc.getLsbD 0 = false → cmodeBad mode = true → exec (.eret s1) s = .next (trapped s { cause := .operandRange })) ∧
    (x ≤ 14 → v.life = .parked → pc.getLsbD 0 = false → cmodeBad mode = false →
      let r := wakeFar (refill (t.resume s.cur.1 x (pc == v.pc)) s.cur.1 x) s.cur.1 x
      let life := if v.awaitsTrump then Life.blocked .trump else .ready
      exec (.eret s1) s = .next (retiredOut s r) ∧ (r.ctx s.cur.1 x).life = life ∧ (r.ctx s.cur.1 x).readyAt = s.tick + 1 ∧
        (r.ctx s.cur.1 x).pc = pc ∧ (r.ctx s.cur.1 x).cmode = mode ∧
        (s.me.streams = [] → ∃ u, exec (.eretEnd s1) s = .next u ∧ u.me.life = .idle ∧ (u.ctx s.cur.1 x).life = life))) ∧
  (∀ (s t u : State) (d s1 s2 : GReg) (w a : Word), Quiet s → s.cur.2 = 15 →
    let x := w.toNat % 16; let k := w.toNat / 16 % 32; let j := w.toNat / 512 % 32; let kind := w.toNat / 2 ^ 14
    kind < 3 → (kind = 1 → k < 4) → (kind = 2 → k < 8) → x ≤ 14 → (s.mine.ctx x).life = .parked →
    (Reads [s1] s [w] t → Writes d (parkValue (t.mine.ctx x) t.tick k j kind) t u → exec (.parkrd d s1) s = .next (retiredOut s u)) ∧
    (Reads [s1, s2] s [w, a] t →
      (kind = 2 ∨ (kind = 1 ∧ a ≠ 0#64) → exec (.parkwr s1 s2) s = .next (trapped s { cause := .operandRange })) ∧
      (kind = 0 → exec (.parkwr s1 s2) s = .next (retiredOut s (t.modCtx s.cur.1 x fun v => { v with v := tabSet v.v k (setDouble (tabGet v.v k 0#2048) j a) }))) ∧
      (kind = 1 → a = 0#64 → exec (.parkwr s1 s2) s = .next (retiredOut s (t.modCtx s.cur.1 x fun v => { v with leases := endLease v.leases t.tick k }))))) ∧
  ∀ (s t u : State) (d s1 : GReg) (a : Word) (off : Nat), Quiet s → s.cur.2 = 15 → Reads [s1] s [a] t → Own t a off →
    (a.toNat % 64 ≠ 0 → exec (.erlog d s1) s = .next (trapped s { cause := .misaligned, addr := a })) ∧
    (a.toNat % 64 = 0 → off + 64 ≤ t.mine.S →
      (s.mine.trapq = [] → Writes d 0#64 t u → exec (.erlog d s1) s = .next (retiredOut s u)) ∧
      (∀ r rest, s.mine.trapq = r :: rest → StoreFree t off 64 →
        Writes d 1#64 (t.modCore s.cur.1 fun c => { c with trapq := rest, store := memPut c.store off r }) u → exec (.erlog d s1) s = .next (retiredOut s u)) ∧
      (LoadFree t off 64 → exec (.erlogEsc s1) s = .next (retiredOut s
        (t.escalate s.cur.1 (((List.range 8).map fun i => memWord t.mine.store (off + 8 * i)).flatMap fun w : Word => toBytes 8 w.toNat)))))

/-- R9, R45, R51, R83, R108, R131, R141, R185 to R187, R205, R229, R292, R308, R361, R366, R398, R434, R438, R439: CRD reads every register that
exists, in a deterministic launch no timing-dependent one; CWR sets the writable fields, clears the W1C fields, and traps on values that do not
exist; a number that names no register takes the trap of an illegal instruction. The model's choice: a value that CMODE or LAYOUT does not allow
is an illegal instruction with DETAIL 0 [log 33], of WSP only the block number is looked at [log 34], and how many reads a bank lost is a free
value [log 62]. -/
def Obligations.ControlRegisters : Prop :=
  (∀ (s : State) (r : BitVec 13) (d s1 : GReg), Runs s → ctlValue s s.cur.1 s.cur.2 r.toNat = none →
    exec (.crd d r) s = .next (trapped s { cause := .illegal }) ∧ exec (.cwr r s1) s = .next (trapped s { cause := .illegal })) ∧
  (∀ (s u : State) (r : BitVec 13) (d : GReg) (w : Word), Quiet s → ctlValue s s.cur.1 s.cur.2 r.toNat = some w →
    (ctlTiming r.toNat = true ∧ ¬ Timely s → exec (.crd d r) s = .next (trapped s { cause := .timing })) ∧
    (ctlTiming r.toNat = false ∨ Timely s →
      (r.toNat < 0x30 ∨ 0x37 < r.toNat → Writes d w s u → exec (.crd d r) s = .next (retiredOut s u)) ∧
      ∀ b, b < 8 → r.toNat = 0x30 + b → let n := tabGet s.mine.xbloss b 0#48 + Config.lostReads s.freeCount
        Writes d (n.setWidth 64) (({ s with freeCount := s.freeCount + 1 } : State).modCore s.cur.1 fun c => { c with xbloss := tabSet c.xbloss b n }) u →
          exec (.crd d r) s = .next (retiredOut s u))) ∧
  (∀ (s : State) (k x : Nat), let c := s.core k; let v := s.ctx k x; let g := s.group (groupOf k)
    ctlValue s k x 0x10 = some (v.cmode &&& 0x37#64) ∧ ctlValue s k x 0x11 = some (v.cflags &&& 0x7F#64) ∧ ctlValue s k x 0x12 = some (BitVec.ofNat 64 v.wsp) ∧
    (∀ i, i < 32 → ctlValue s k x (0x40 + i) = some (tabGet c.layout i 0#64)) ∧ ctlValue s k x 0x60 = some (BitVec.ofNat 64 c.csteps.toNat) ∧
    ctlValue s k x 0x61 = some g.vpool ∧ ctlValue s k x 0x70 = some (0#18 ++ v.limit ++ v.trumps ++ v.squash) ∧
    (∀ i, i < 32 → ctlValue s k x (0xA0 + i) = some (tabGet c.cls i 0#64)) ∧ ctlValue s k x 0xD0 = some c.vmroot ∧
    ctlValue s k x 0xE0 = some c.svent ∧ ctlValue s k x 0xE1 = some c.svws ∧ ctlValue s k x 0 = none ∧ ctlValue s k x 0x1FFF = none) ∧
  (∀ (s t : State) (s1 : GReg) (w : Word), Quiet s → Reads [s1] s [w] t → let k := s.cur.1
    let core := fun (f : Core → Core) => Host.Outcome.next (retiredOut s (t.modCore k f))
    let ctx := fun (f : Ctx → Ctx) => Host.Outcome.next (retiredOut s (t.modCtx k s.cur.2 f))
    exec (.cwr 0x11 s1) s = ctx (fun v => { v with cflags := v.cflags &&& ~~~w }) ∧
    exec (.cwr 0x30 s1) s = core (fun c => { c with xbloss := tabSet c.xbloss 0 (w.extractLsb' 0 48) }) ∧
    exec (.cwr 0x62 s1) s = core (fun c => { c with pkRefused := w.extractLsb' 8 32 }) ∧
    exec (.cwr 0x70 s1) s = ctx (fun v => { v with trumps := w.extractLsb' 16 16, squash := w.extractLsb' 0 16 }) ∧
    exec (.cwr 0x81 s1) s = .next (retiredOut s (t.modGroup (groupOf k) fun g => { g with wdLimit := w.extractLsb' 0 32, wdFired := g.wdFired && !w.getLsbD 32 })) ∧
    exec (.cwr 0xC0 s1) s = core (fun c => { c with msgRefused := w.extractLsb' 4 32 }) ∧
    (∀ r ∈ [0x20#13, 0x21#13, 0x80#13, 0x90#13], exec (.cwr r s1) s = .next (retiredOut s t)) ∧
    (∀ r ∈ [0xE0#13, 0xE1#13], exec (.cwr r s1) s = .next (trapped s { cause := .privileged })) ∧
    ((w.extractLsb' 0 3).toNat < 6 → exec (.cwrCmode s1) s = ctx (fun v => { v with cmode := w &&& 0x37#64 })) ∧
    (6 ≤ (w.extractLsb' 0 3).toNat → exec (.cwrCmode s1) s = .next (trapped s { cause := .illegal })) ∧
    (t.mine.workspaceAligned ((w.extractLsb' 11 7).toNat * 2048) = true → exec (.cwrWsp s1) s = ctx (fun v => { v with wspBlk := w.extractLsb' 11 7 })) ∧
    (t.mine.workspaceAligned ((w.extractLsb' 11 7).toNat * 2048) = false → exec (.cwrWsp s1) s = .next (trapped s { cause := .misalignedWorkspace })) ∧
    (∀ n, layoutBad w = false → exec (.cwrLayout n s1) s = core (fun c => { c with layout := tabSet c.layout n.toNat (w &&& 0x1FFF1FFF1FFF1FFF#64) })) ∧
    (∀ n, layoutBad w = true → exec (.cwrLayout n s1) s = .next (trapped s { cause := .illegal })) ∧
    exec (.cwrVpool s1) s = .next (retiredOut s (t.modGroup (groupOf k) fun g => { g with vpool := w &&& 0x1FFFF#64 })) ∧
    (∀ n : BitVec 5, n.getLsbD 0 = false ∨ t.mine.workspaceAligned ((w.extractLsb' 0 7).toNat * 2048) = true → exec (.cwrClass n s1) s = core (fun c => { c with
      clsBefore := some (s.tick, c.cls), cls := tabSet c.cls n.toNat (w &&& (if n.getLsbD 0 then 0x3FF#64 else 0x00FFFFFFFFFFFFFE#64)) })) ∧
    (s.cur.2 = 15 → exec (.cwrVmroot s1) s = core (fun c => { c with vmroot := w &&& 0x000FFFFFFFF0FFFF#64 })) ∧
    (w.extractLsb' 0 3 = 0#3 → exec (.cwrSplit s1) s = .next (trapped s { cause := .illegal })) ∧
    (w.extractLsb' 0 3 ≠ 0#3 → (∃ p ∈ t.mine.ctxs, p.1 ≠ s.cur.2 ∧ p.2.life ≠ .idle) → exec (.cwrSplit s1) s = .next (trapped s { cause := .splitBusy })) ∧
    (w.extractLsb' 0 3 ≠ 0#3 → (∀ p ∈ t.mine.ctxs, p.1 = s.cur.2 ∨ p.2.life = .idle) →
      ∃ u, exec (.cwrSplit s1) s = .next u ∧ u.mine.csteps = w.extractLsb' 0 3 ∧ u.me.retire = t.me.retire + 1#64 ∧ u.mem = s.mem ∧
        (Memory.wf t.mine.store = true → ∀ a, memGet u.mine.store a =
          if a < min t.mine.S u.mine.S ∨ Config.localBytes ≤ a then memGet t.mine.store a else 0#8))) ∧
  ∀ w : Word, layoutBad w = true ↔ ∃ j, j < 4 ∧ 64 < w.toNat / 2 ^ (16 * j) % 64 + w.toNat / 2 ^ (16 * j + 6) % 128

/-- R399 to R407: TLBI and what it removes, walks, and pages homed in other packages. A walk that finds a leaf fills the structures of its core;
a grant brings the page's bytes and no other; a returned page's lines leave the directory. The model's choice: which packages a TLBI of scope pod
reaches and that tricks which used a translation are squashed [log 40], what a downgraded writer keeps [log 47], and that walks take no time
beyond their charge [log 75]. -/
def Obligations.TranslationEvents : Prop :=
  (∀ (s t : State) (s1 s2 : GReg) (sc : Scope) (v a : Word), Quiet s → s.cur.2 = 15 →
    let asks := fun (u : State) (kind : Nat) (v a : Word) => Host.Outcome.next (waiting s ((requested u (.tlbi kind v a sc)).post
      (if sc = .pkg ∨ sc = .pod then Config.homePkg else Config.homeDie) (.tlbiComplete (cid s.cur.1) (xid s.cur.2))) .tlbi)
    (Reads [s1, s2] s [v, a] t → a.toNat < 2 ^ 16 → v.toNat < 2 ^ 56 → exec (.tlbiVa s1 s2 sc) s = asks t 0 v a) ∧
    (Reads [s1, s2] s [v, a] t → 2 ^ 16 ≤ a.toNat ∨ 2 ^ 56 ≤ v.toNat → exec (.tlbiVa s1 s2 sc) s = .next (trapped s { cause := .operandRange })) ∧
    (Reads [s2] s [a] t → a.toNat < 2 ^ 16 → exec (.tlbiAsid s2 sc) s = asks t 1 0#64 a) ∧ exec (.tlbiAll sc) s = asks s 2 0#64 0#64) ∧
  (∀ (s : State) (c : CoreId) (x : CtxId) (kind : Nat) (va asid : Word) (sc : Scope), let k := c.toNat; let y := x.toNat
    (s.ctx k y).life = .blocked .tlbi → (s.ctx k y).req = some (.tlbi kind va asid sc) → kind < 3 →
    let joined := sc = .pod ∧ (s.part (s.partOf k)).pod.extractLsb' 0 16 ≠ 0#16
    (joined → s.meterOut k 1 = true → exec (.tlbiComplete c x) s = .next (s.post 1 (.tlbiComplete c x))) ∧
    (¬ joined ∨ s.meterOut k 1 = false →
      (tlbiPerform s k kind va asid sc = none → exec (.tlbiComplete c x) s = .next (s.post 1 (.tlbiComplete c x))) ∧
      ∀ t, tlbiPerform s k kind va asid sc = some t → (t.ctx k y).life = .blocked .tlbi →
        ∀ u, ((joined → u = (podPeers t).foldl (fun v p => v.sendPeer p k y (.tlbi kind va asid)) t) ∧ (¬ joined → u = t)) →
          (farUnderWay u sc k y = false → exec (.tlbiComplete c x) s = .next (replied u k y { u with cur := (k, y) })) ∧
          (farUnderWay u sc k y = true → exec (.tlbiComplete c x) s =
            .next ((u.modCtx k y fun v => { v with req := some (.tlbi 3 va asid sc) }).post 1 (.tlbiComplete c x))))) ∧
  (∀ (s : State) (c : CoreId) (x : CtxId) (va asid : Word) (sc : Scope), let k := c.toNat; let y := x.toNat
    (s.ctx k y).life = .blocked .tlbi → (s.ctx k y).req = some (.tlbi 3 va asid sc) →
    (farUnderWay s sc k y = true → exec (.tlbiComplete c x) s = .next (s.post 1 (.tlbiComplete c x))) ∧
    (farUnderWay s sc k y = false → exec (.tlbiComplete c x) s = .next (replied s k y { s with cur := (k, y) }))) ∧
  (∀ (s t : State) (k kind : Nat) (va asid : Word) (sc : Scope), tlbiPerform s k kind va asid sc = some t →
    t.mem = s.mem ∧ (∀ c ∈ s.cores, inScope s sc k c.1 = true → ∀ x ∈ c.2.ctxs,
      (x.2.running.trump = true → x.2.running.used.any (tlbiRemoves kind va asid) = false) ∧
      ∀ p, x.2.pending = some p → p.trump = true → p.used.any (tlbiRemoves kind va asid) = false)) ∧
  (∀ (s : State) (k kind j : Nat) (va asid : Word) (sc : Scope), tabWf s.cores = true → inScope s sc k j = true → let t := tlbiRemove s k kind va asid sc
    (∀ e ∈ (t.core j).tlb, tlbiRemoves kind va asid e = false) ∧ (t.core j) = { s.core j with tlb := (t.core j).tlb } ∧ t.mem = s.mem) ∧
  (∀ (e : TlbEntry) (va asid : Word), tlbiRemoves 2 va asid e = true ∧
    (tlbiRemoves 1 va asid e = true ↔ e.asid = asid.extractLsb' 0 16 ∧ e.g = false) ∧
    (tlbiRemoves 0 va asid e = true ↔ (e.asid = asid.extractLsb' 0 16 ∨ e.g = true) ∧ e.va * 4096 ≤ va.toNat ∧ va.toNat < e.va * 4096 + e.bytes)) ∧
  (∀ (s : State) (c : CoreId) (va : BitVec 64), let k := c.toNat; let root := (s.core k).vmroot; let n := va.toNat
    ((s.tlbHit k root n).isSome = true → exec (.pageWalk c va) s = .next (wakeWalk s k n)) ∧
    (s.tlbHit k root n = none → va.extractLsb' 56 8 = 0#8 →
      (s.walkWaits k (s.clsOf k) root n = true → exec (.pageWalk c va) s = .next (s.post 1 (.pageWalk c va))) ∧
      (s.walkWaits k (s.clsOf k) root n = false → let t := s.payWalk k (s.clsOf k) root n (s.tick + 1)
        (∀ e ts, s.walk (s.partOf k) (s.die (dieOf k)).walk root n = .ok (e, ts) → let u := wakeWalk (t.tlbFill k e ts) k n
          exec (.pageWalk c va) s = .next u ∧ (u.core k).tlb.head? = some e) ∧
        ∀ f, s.walk (s.partOf k) (s.die (dieOf k)).walk root n = .error f → exec (.pageWalk c va) s = .next (wakeWalk t k n)))) ∧
  (∀ (s : State) (k cls n x : Nat) (w : Nat) (root : Word), (s.ctx k x).life = .blocked (.walk w) → w / 4096 = n / 4096 →
    ((wakeWalk s k n).ctx k x).life = .ready ∧ ((wakeWalk s k n).ctx k x).readyAt = s.tick + 1 ∧
      (s.walksAlone k root n = false → s.payWalk k cls root n = s) ∧
      (s.walksAlone k root n = true → (s.payWalk k cls root n).budget cls = (s.budget cls).charge 0 (s.walkCost k root n))) ∧
  (∀ (s : State) (k : Nat) (root ea : Word) (kind : Nat), (ea.extractLsb' 56 8 ≠ 0#8 → s.translate k root ea kind = .error ⟨1, 3⟩) ∧
    ∀ e, ea.extractLsb' 56 8 = 0#8 → s.tlbHit k root ea.toNat = some e → s.boundary (s.partOf k) (e.pa + ea.toNat % e.bytes) = false →
      (kind = 0 ∨ (kind = 1 ∧ e.w = true) ∨ (kind = 2 ∧ e.x = true) → s.translate k root ea kind = .ok (e.pa + ea.toNat % e.bytes, e, s)) ∧
      ((kind = 1 ∧ e.w = false) ∨ (kind = 2 ∧ e.x = false) → s.translate k root ea kind = .error ⟨3, e.level⟩)) ∧
  (∀ (s : State) (p : PageId) (w : Bool) (a : PageAnswer), s.sound →
    let mine := fun (o : Outstanding) => o.target == paPackage (p.toNat * 4096) && o.seq == a.seq && match o.request.op with
      | .grant q v => q == p && v == w
      | _ => false
    (s.hub.outstanding.find? mine = none → exec (.pageGrant p w a) s = .next s) ∧
    ∀ o, s.hub.outstanding.find? mine = some o → let t := s.gotPeer mine (.value 0#64); let held := t.hub.grants.any fun g => g.page == p.toNat && t.partOf g.core != t.partOf o.core
      (o.asks p.toNat = false → exec (.pageGrant p w a) s = .next t) ∧
      (o.asks p.toNat = true →
        (a.data = none → exec (.pageGrant p w a) s = .next (t.modHub fun h => { h with
          refused := h.refused.filter (· != (t.partOf o.core, p.toNat)) ++ [(t.partOf o.core, p.toNat)] })) ∧
        ∀ b, a.data = some b → b.bytes.length = 4096 →
          ∃ u, exec (.pageGrant p w a) s = .next u ∧ u.sound ∧ u.granted o.core (p.toNat * 4096) w = true ∧
            (held = true → u.mem = s.mem) ∧ (held = false → memBytes u.mem (p.toNat * 4096) 4096 = b.bytes ∧
              ∀ a, a < p.toNat * 4096 ∨ p.toNat * 4096 + 4096 ≤ a → memGet u.mem a = memGet s.mem a))) ∧
  ∀ (s : State) (w : PageRecall), let p := w.page.toNat; let ev := Instr.pageRevocation w
    let answer := fun (s : State) (x : Word) => match w.home with | some n => s.replyPeer n.pkg.toNat n.seq (.value x) | none => s
    ((s.hub.grants.any (·.page == p)) = false → (s.hub.outstanding.any (·.returns p)) = true → exec ev s = .next (answer s 1#64)) ∧
    ((s.hub.grants.any (·.page == p)) = false → (s.hub.outstanding.any (·.returns p)) = false → exec ev s = .next
      (answer (s.modHub fun h => { h with outstanding := h.outstanding.map fun o => if o.asks p then { o with ctx := 0 } else o }) 0#64)) ∧
    ((s.hub.grants.any (·.page == p)) = true →
      (∀ n t, returnWaits s p w.toRead = .error (n, t) → exec ev s = .next (t.post n ev)) ∧
      ∀ t, returnWaits s p w.toRead = .ok t → ∃ u, exec ev s = .next u ∧ u.mem = t.mem ∧
        (∀ k, u.granted k (p * 4096) true = false ∧ u.granted k (p * 4096) false = (w.toRead && t.granted k (p * 4096) false)) ∧
        (∀ g ∈ t.hub.grants, g.page = p → ∃ o ∈ u.hub.outstanding, o.target = paPackage (p * 4096) ∧
          o.request.op = .returned (BitVec.ofNat 40 p) (if t.hub.grants.any fun g => g.page == p && g.write then memBytes t.mem (p * 4096) 4096 else []) w.toRead))

/-- R408 to R416: deals. A deal that breaks R410 is malformed and is removed with status 1; the Dealer places the best head, whose lanes then
begin at the entry with their arguments and all other registers zero, under a tag that no live launch has. The model's choice: which host queues
are work queues [log 44], when a completion word waits [log 45], that the cores of a quad beyond the lanes are not started [log 53], that queue
registers are emptied [log 36], and that MXCFG and the accumulators begin afresh [log 87]. -/
def Obligations.DealsPlaced : Prop :=
  (∀ (s : State) (q : QueueId) (l : Launch), headOf s q.toNat = some l → malformed s l = true → ((workQueues s l.part).any fun e => e.1 == q.toNat) = true →
    (∀ t, writeCompletion s l 1 0 = (t, true) → exec (.malformedDealRemoval q) s = .next
      ((t.modSqueue q.toNat fun u => { u with items := u.items.tail }).discard (some l.part) Config.hub 0 0x0A 1 [BitVec.ofNat 64 q.toNat, l.flags])) ∧
    ∀ t, writeCompletion s l 1 0 = (t, false) → exec (.malformedDealRemoval q) s = .next ((completionAsk s l).post 1 (.malformedDealRemoval q))) ∧
  (∀ (s : State) (l : Launch), (l.word 0).getLsbD 0 = true ∨ l.word 80 = 0#64 ∨ (l.word 56).toNat % 8 ≠ 0 ∨ (s.part l.part).pcls.getLsbD l.cls = false ∨
      1024 * (s.diesOf l.part).length < l.lanes ∨ (l.word 80).toNat % 2 ^ 21 ≠ 0 ∨ (l.word 32).toNat / 2 ^ 7 ≠ 0 ∨
      (0 < l.flags.toNat / 2 ^ 40 % 2 ^ 14 ∧ l.flags.toNat / 2 ^ 40 % 2 ^ 14 < 256) ∨ 8192 < l.flags.toNat / 2 ^ 40 % 2 ^ 14 →
    malformed s l = true) ∧
  (∀ (s : State) (l : Launch) (status tag : Nat), l.word 56 = 0#64 → writeCompletion s l status tag = (s, true)) ∧
  (∀ (s : State) (p : BitVec 2), let n := p.toNat
    let heads := (workQueues s n).filterMap fun q => headOf s q.1
    let able := heads.filterMap fun l => (chanceOf s l).map fun c => (l, c)
    let again := fun (t : State) => Host.Outcome.next (if (workQueues t n).any fun e => !e.2.items.isEmpty then t.post 1 (.dealPlacement p) else t)
    s.agenda = [] → noteQueues s n = s →
    (s.hub.removed = true ∨ (s.part n).mode = 0 ∨ (s.part n).mode = 3 → exec (.dealPlacement p) s = .next s) ∧
    (s.hub.removed = false → (s.part n).mode = 1 ∨ (s.part n).mode = 2 → (∀ l ∈ heads, malformed s l = false) →
      ((s.part n).placedAt = some s.tick → exec (.dealPlacement p) s = again s) ∧
      ((s.part n).placedAt ≠ some s.tick →
        (heads.filter (·.overlap)).foldl (fun t l => (l :: (t.launches.filter fun m => m.2.queue == l.queue && m.2.part == l.part).map (·.2)).foldl dealAsk t) s = s →
        (bestHead s n able = none → exec (.dealPlacement p) s = again s) ∧
        (∀ l cores, bestHead s n able = some (l, .place cores) → exec (.dealPlacement p) s = again (place s l cores)) ∧
        ∀ l got, bestHead s n able = some (l, .preempt got) → let busy := s.cores.any fun c => c.2.halting.isSome && s.partOf c.1 == n
          (busy = true → exec (.dealPlacement p) s = again s) ∧
          (busy = false → exec (.dealPlacement p) s = again ((haltCores s got).post 0 (.preemption p)))))) ∧
  (∀ (s : State) (p : Nat) (able : List (Launch × Chance)), (able.Pairwise fun a b => a.1.queue < b.1.queue) →
    (bestHead s p able = none ↔ able = []) ∧
    ∀ e, bestHead s p able = some e → e ∈ able ∧ (∀ f ∈ able, f.1.prio ≤ e.1.prio) ∧
      let same := able.filter fun f => f.1.prio == e.1.prio
      (∀ q, tabFind (s.part p).lastQueue e.1.prio = some q → (∃ f ∈ same, q < f.1.queue) → q < e.1.queue ∧ ∀ f ∈ same, q < f.1.queue → e.1.queue ≤ f.1.queue) ∧
      ((∀ q, tabFind (s.part p).lastQueue e.1.prio = some q → ∀ f ∈ same, f.1.queue ≤ q) → ∀ f ∈ same, e.1.queue ≤ f.1.queue)) ∧
  (∀ (s : State) (l : Launch),
    (mayBegin s l = false ∨ metersAllow s l = false → chanceOf s l = none) ∧
    (mayBegin s l = true → metersAllow s l = true →
      (∀ c, chooseCores s l (freeFor s l) = some c → chanceOf s l = some (.place c) ∧ ∀ e ∈ c, freeFor s l e.1 = true) ∧
      (chooseCores s l (freeFor s l) = none → chanceOf s l = (victims s l (victimUnits s l) []).map .preempt)) ∧
    (∀ units got, victims s l units [] = some got →
      let enough := fun (n : Nat) => (chooseCores s l fun k => freeFor s l k || (units.take n).flatten.contains k).isSome
      ∃ n, 0 < n ∧ got = (units.take n).flatten ∧ enough n = true ∧ ∀ m, 0 < m → m < n → enough m = false)) ∧
  (∀ (s : State) (l : Launch), tabWf s.cores = true →
    (∀ u ∈ victimUnits s l, ∀ k ∈ u, ∃ e ∈ s.launches, e.2.part = l.part ∧ e.2.prio < l.prio ∧ e.2.ending = none ∧ (s.core k).launch = some e.2.tag) ∧
    (∀ ls : List Launch, (ls.foldr victimInsert []).Perm ls ∧
      (ls.foldr victimInsert []).Pairwise fun a b => a.prio < b.prio ∨ (a.prio = b.prio ∧ b.tag ≤ a.tag)) ∧
    ∀ t m, s.launches = [(t, m)] → m.part = l.part → m.prio < l.prio → m.ending = none → m.byQuads = false → m.lock = false →
      ((victimUnits s l).Pairwise fun a b => b.headD 0 < a.headD 0) ∧
      ∀ k, [k] ∈ victimUnits s l ↔ (s.core k).launch = some m.tag ∧ (s.core k).stopped = false) ∧
  (∀ (s : State) (l : Launch) (cores : List (Nat × Nat × Bool)), (cores.map (·.1)).Nodup → let t := place s l cores; let tag := nextTag s l.part
    ((∃ n, 0 < n ∧ n < 65536 ∧ s.launch n = none) → 0 < tag ∧ tag < 65536 ∧ s.launch tag = none) ∧ (∃ m, t.launch tag = some m ∧ m.tag = tag ∧ m.deal = l.deal) ∧
    t.mem = s.mem ∧ (∀ k, (∀ e ∈ cores, e.1 ≠ k) → t.core k = s.core k) ∧ (t.part l.part).placedAt = some s.tick ∧
    (∀ e ∈ cores, let u := t.quad (quadOf e.1)
      u.chainBuf = none ∧ u.chainFull = false ∧ u.posts = 0#16 ∧ u.waits = 0#16 ∧ (l.matrix = true → u.bsram = [])) ∧
    ∀ k lane, (k, lane, false) ∈ cores → lane < l.lanes → Memory.wf (s.core k).store = true → let v := t.ctx k 0
      (t.core k).launch = some tag ∧ (t.core k).lane = lane ∧ (t.core k).det = l.det ∧ (t.core k).csteps = l.csteps ∧ (t.core k).vmroot = l.root ∧ (t.core k).inuse = 0#4 ∧ (t.core k).dtenc = 0x95#8 ∧
      v.life = .ready ∧ v.readyAt = s.tick + 1 ∧ v.pc = l.word 0 ∧ v.wspBlk = l.wblk ∧ v.cmode = 0#64 ∧ v.cflags = 0#64 ∧ v.retire = 0#64 ∧ v.limit = l.limit ∧
      v.v = [] ∧ (∀ y, 0 < y → y < 16 → (t.ctx k y).life = .idle) ∧
      rawG (t.core k) v 8#5 = l.word 40 ∧ rawG (t.core k) v 9#5 = l.word 48 ∧ (∀ r, r ≠ 8#5 → r ≠ 9#5 → rawG (t.core k) v r = 0#64) ∧
      ∀ p, p ≠ 0#3 → predOf (t.core k) v p = 0#256) ∧
  ∀ (s : State) (q k : Nat) (l : Launch), (headOf s q = some l → l.queue = q ∧ l.part = s.partOfDie (q / 1024) ∧ (s.squeue q).items.head? = some l.deal) ∧
    (freeFor s l k = true → (s.core k).launch = none ∧ (s.core k).stopped = false)

/-- R202, R417 to R427, R456: the end of a launch, its interrupt, pre-emption, resumption and budget periods. A launch that is done frees its
cores and its tag; a settled core is saved and freed; a lane comes back on the core that it left; counts carry over only what they exceed. The
model's choice: what a save waits for [log 46], the bytes of a slot that the spec leaves to the implementation [log 15], that a lane resumes with
the device's own copy [log 20], what is dropped with a launch that is ended by force [log 50], when a completion word waits [log 45], and the
allotment that an excess is compared with [log 39]. -/
def Obligations.LaunchesEnd : Prop :=
  (∀ (s : State) (tag : BitVec 16) (l : Launch), let n := tag.toNat; s.launch n = some l → s.agenda = [] →
    let u := if l.ending.isSome then settleCores s ((s.cores.filter fun c => c.2.launch == some n).map (·.1)) else s
    let k := s.coreOfPart l.part
    let ev := Instr.launchCompletion tag
    (launchDone u l = false → exec ev s = .next (u.postPoll 1 ev)) ∧
    (launchDone u l = true → u.podReleased k = false → exec ev s = .next ((u.flushDirty k 0 l.cls).postPoll 1 ev)) ∧
    (launchDone u l = true → u.podReleased k = true → ∀ t b, openHeld n u.caps u = (t, b) →
      (b = false → exec ev s = .next (t.postPoll 1 ev)) ∧
      (b = true → (∀ w, writeCompletion t l (l.ending.getD 0) n = (w, false) → exec ev s = .next ((completionAsk t l).postPoll 1 ev)) ∧
        ∀ w, writeCompletion t l (l.ending.getD 0) n = (w, true) → tabWf w.launches = true → w.launch n = some l →
          ∃ v, exec ev s = .next v ∧ v.launch n = none ∧ v.mem = w.mem ∧
            (∀ k, (w.core k).launch = some n → (v.core k).launch = none ∧ ∀ y, (v.ctx k y).life = .idle) ∧
            (2 * (w.tick + 1), .dealPlacement (BitVec.ofNat 2 l.part)) ∈ v.agenda))) ∧
  (∀ (s : State) (fn : Nat) (v : BitVec 6) (e : Nat × BitVec 6 × Nat), s.hub.pendingIrq.find? (fun e => e.1 == fn && e.2.1 == v) = some e →
    (s.exhausted e.2.2 1 = true → exec (.pendingInterruptSend fn v) s = .next (s.postPoll 1 (.pendingInterruptSend fn v))) ∧
    (s.exhausted e.2.2 1 = false → ∃ t, exec (.pendingInterruptSend fn v) s = .next t ∧ t.out = s.out ++ [.interrupt fn v] ∧
      t.hub.pendingIrq = s.hub.pendingIrq.erase e)) ∧
  (∀ (s : State) (p : BitVec 2), let ks := (s.cores.filter fun c => c.2.halting.isSome && s.partOf c.1 == p.toNat).map (·.1)
    (ks = [] → exec (.preemption p) s = .next s) ∧
    (ks ≠ [] → exec (.preemption p) s = .next ((ks.foldl saveGroup
      (ks.foldl (fun t k => (t.core k).ctxs.foldl (fun t e => cancelSync t k e.1) t) s)).post 1 (.preemption p)))) ∧
  (∀ (s : State) (k tag h : Nat) (l : Launch), let c := s.core k
    c.halting = some h → c.launch = some tag → s.launch tag = some l → l.tag = tag → l.byQuads = false → l.lock = false →
    (l.ending.isSome = true ∨ h = s.tick ∨ coreSettled s k = false → saveGroup s k = s) ∧
    (l.ending = none → h ≠ s.tick → coreSettled s k = true →
      (∀ t, slotAsk s k c.lane l (slotPages l c) = some t → saveGroup s k = t) ∧
      (slotAsk s k c.lane l (slotPages l c) = none → c.checker = false → let t := saveGroup s k
        ∃ m, t.launch tag = some m ∧ ((t.core k).launch = none ∧ tabFind m.saved c.lane = some (savedCore c) ∨ m.ending = some 3)))) ∧
  (∀ (s : State) (tag : BitVec 16) (lane : BitVec 12) (l : Launch) (c : Core) (k : Nat), let ev := Instr.coreResume tag lane
    s.launch tag.toNat = some l → l.tag = tag.toNat → l.byQuads = false → l.lock = false → l.ending = none →
    l.saved = [(lane.toNat, c)] → l.cores[lane.toNat]? = some k →
    ((s.core k).launch.isSome = true ∨ (s.core k).stopped = true ∨ s.hub.removed = true ∨ outranked s l [k] = true → exec ev s = .next (s.post 1 ev)) ∧
    ((s.core k).launch = none → (s.core k).stopped = false → s.hub.removed = false → outranked s l [k] = false → l.savedQuads = [] → tabWf c.ctxs = true →
      ∃ t, exec ev s = .next t ∧ (t.core k).store = c.store ∧ (t.core k).launch = c.launch ∧ (t.core k).lane = c.lane ∧ t.mem = s.mem ∧
        (∀ y, t.ctx k y = { (resumedCore s.tick (s.core k) c).ctx y with farq := (t.ctx k y).farq } ∧
          (t.ctx k y).farq.map (fun e => { e with due := none }) = (c.ctx y).farq.map fun e => { e with due := none }) ∧
        ∃ m, t.launch tag.toNat = some m ∧ m.saved = [])) ∧
  (∀ (s : State), let busy := s.agenda.any fun e => decide (e.1 ≤ 2 * s.tick + 1) && e.2 != .budgetPeriodStart; let ev := Instr.budgetPeriodStart
    (s.tick % Config.period = 0 → exec ev s = .next ((serveMetered s.drainPort).postPoll (Config.period - 1) ev)) ∧
    (s.tick % Config.period ≠ 0 → busy = true → exec ev s = .next (s.postPoll 0 ev)) ∧
    (s.tick % Config.period ≠ 0 → busy = false → ∃ t, exec ev s = .next t ∧ t.mem = s.mem ∧ t.cores = s.cores ∧
      t.budgets = s.budgets.map (fun (e : Nat × Budget) => (e.1, e.2.period)) ∧ (2 * (s.tick + 1), ev) ∈ t.agenda)) ∧
  (∀ (s : State), s.hub.metered = [] → serveMetered s = s) ∧
  (∀ (s : State) (k x m : Nat) (r : Request), s.hub.metered = [(k, x)] → (s.ctx k x).life = .blocked (.meter m) → (s.ctx k x).req = some r →
    let u := s.modHub fun h => { h with metered := [] }
    (s.exhausted (s.clsOf k) m = true → serveMetered s = u.modHub fun h => { h with metered := [(k, x)] }) ∧
    (s.exhausted (s.clsOf k) m = false →
      (∀ q, r = .matrix q → serveMetered s = (u.joinMatrix k x q).modCtx k x fun v => { v with life := q.life }) ∧
      ((∀ q, r ≠ .matrix q) → serveMetered s = resendAny (u.modCtx k x fun v => { v with life := .blocked .reply }) k x))) ∧
  ∀ (b : Budget) (m : Nat), m < 4 →
    b.period.count.getD m 0 = (if b.exhausted m then b.count.getD m 0 - b.allot m else 0) ∧ b.period.a = b.nextA ∧ b.period.b = b.nextB ∧
    (b.exhausted m = true ↔ b.allot m ≠ (if m = 3 then 0xFFFF else 0xFFFFFF) ∧ b.allot m ≤ b.count.getD m 0)

/-- R18, R228, R441 to R445: machine checks stop cores, whose repair ends within 2 ms, or end a partition's launches and freeze its rings; a core
comes back clean, on a spare, or not at all; a lock-step mismatch is tried again once. The model's choice: what is dropped with the launches that
a check ends [log 50], and when requests to a stopped core are sent again [log 43]. -/
def Obligations.ChecksAndRepair : Prop :=
  (∀ (s : State) (c : CoreId), let k := c.toNat; (s.core k).stopped = false → s.launchOf k = none →
    ∃ t, exec (.machineCheck (.core c)) s = .next t ∧ exec (.heartbeatMiss c) s = .next t ∧ (t.core k).stopped = true ∧ (t.core k).parking = [] ∧
      t.mem = s.mem ∧ (∃ b, (2 * (s.tick + 2000 * Config.microsecond), .coreRepair (cid k) b) ∈ t.agenda)) ∧
  (∀ (s : State) (q : QuadId), ∃ t, exec (.machineCheck (.quad q)) s = .next t ∧ t.mem = s.mem ∧
    ∀ i, i < 4 → (t.core (4 * q.toNat + i)).stopped = true) ∧
  (∀ (s : State) (p : BitVec 2), ∃ t, exec (.machineCheck (.partition p)) s = .next t ∧ t.mem = s.mem ∧
    (∀ d, d < 4 → (s.part p.toNat).hasDie d = true → (t.die d).frozen = true) ∧
    (tabWf s.launches = true → ∀ n l, s.launch n = some l → l.part = p.toNat → l.ending = none → ∃ m, t.launch n = some m ∧ m.ending = some 3)) ∧
  (∀ (s : State) (c : CoreId), let k := c.toNat; (s.core k).stopped = true →
    exec (.coreRepair c true) s = .next ((s.setCore k { s.core k with stopped := false }).post 0 (.trumpAdmission (BitVec.ofNat 2 (s.partOf k)))) ∧
    (0 < (s.die (dieOf k)).spares → ∃ t, exec (.coreRepair c false) s = .next t ∧ t.core k = { s.core k with stopped := false, spare := true } ∧
      (t.die (dieOf k)).spares = (s.die (dieOf k)).spares - 1 ∧ t.mem = s.mem) ∧
    ((s.die (dieOf k)).spares = 0 → ∀ n, (s.core k).launch = some n → exec (.coreRepair c false) s = .next (s.endLaunch n 3))) ∧
  (∀ (s : State) (n status : Nat) (l : Launch), s.launch n = some l → l.ending = none → let t := s.endLaunch n status
    t.mem = s.mem ∧ (∃ m, t.launch n = some m ∧ m = { l with ending := some status, retired := List.range l.lanes }) ∧
      (2 * s.tick + 1, .launchCompletion (BitVec.ofNat 16 n)) ∈ t.agenda ∧ t.core = (fun k => let c := s.core k
        if c.launch = some n then { c with halting := some (c.halting.getD s.tick), trapWait := [] } else c) ∧
      ∀ q id, t.job q id = (s.job q id).map fun j => if j.launch = some n then { j with cancelled := true } else j) ∧
  ∀ (s : State) (c : CoreId) (code : BitVec 8) (l : Launch), let k := c.toNat - c.toNat % 2; s.launchOf k = some l → l.lock = true →
    let u := untrap s k
    let ages : Tab Nat := (u.core k).ctxs.filterMap fun p => p.2.trickAge.map fun a => (p.1, a)
    let d := discardTricks (u.discard (some (u.partOf k)) k l.tag 0x03 code.toNat []) k
    (∀ y, tabWf (s.core k).ctxs = true → let v := s.ctx k y
      ((∀ i, v.life ≠ .blocked (.trapEntry i)) → u.ctx k y = v) ∧
      ∀ i, v.life = .blocked (.trapEntry i) → u.ctx k y = { v with
        life := .ready, readyAt := s.tick + 1, pc := v.unit.addr, retire := if i.cause = .breakpoint ∨ i.cause = .trap then v.retire - 1#64 else v.retire }) ∧
    ((∀ p ∈ ages, tabFind (u.core k).mismatch p.1 ≠ some p.2) → exec (.lockstepMismatch c code) s = .next (d.modCore k fun c => { c with mismatch := ages })) ∧
    ((∃ p ∈ ages, tabFind (u.core k).mismatch p.1 = some p.2) → exec (.lockstepMismatch c code) s = .next (checkCore d k))

/-- R452 to R458, R518, R523: the operations of PCTL. While one is in progress a write is ignored whole; one whose precondition fails ends with
STATUS 4, leaves BUSYQ and changes no partition; any other starts, with what it does to the partitions at once and the event that ends it on the
agenda. The model's choice: a QUIESCE whose LIMIT passes in the tick of a write has ended for it [log 48], what a MERGE moves [log 37], what a
TCHANGE keeps [log 38, log 54] and how long it lasts. -/
def Obligations.PartitionOperations : Prop :=
  (∀ (s : State), let e := expireQuiesce s
    ((∀ t0, s.hub.opStart ≠ some (1, t0)) → e = s) ∧
    (∀ t0, s.hub.opStart = some (1, t0) → let late := t0 + s.hub.limit * Config.microsecond ≤ s.tick
      (¬ late ∨ quiet s s.hub.dst = true → e = s) ∧
      (late → quiet s s.hub.dst = false → e.hub.status = 3 ∧ e.hub.busyq = ((dealsLeft s s.hub.dst).head?.getD 0xFFF) % 4096 ∧ e.hub.parts = s.hub.parts ∧
        e.mem = s.mem ∧ e.hub.opStart = none)) ∧
    (∀ w, exec (.quiesce w) s = exec (.quiesce w) e ∧ exec (.resume w) s = exec (.resume w) e ∧ exec (.merge w) s = exec (.merge w) e ∧
      exec (.split w) s = exec (.split w) e ∧ exec (.treset w) s = exec (.treset w) e ∧ exec (.tchange w) s = exec (.tchange w) e)) ∧
  (∀ (s : State) (w : BitVec 64) (n : Nat), expireQuiesce s = s → s.hub.status = 1 ∨ (w.extractLsb' 0 4).toNat ≠ n →
    (n = 1 → exec (.quiesce w) s = .next s) ∧ (n = 2 → exec (.resume w) s = .next s) ∧ (n = 3 → exec (.merge w) s = .next s) ∧
    (n = 4 → exec (.split w) s = .next s) ∧ (n = 5 → exec (.treset w) s = .next s) ∧ (n = 6 → exec (.tchange w) s = .next s)) ∧
  (∀ (s : State) (w : BitVec 64), expireQuiesce s = s → s.hub.status ≠ 1 →
    let d := (w.extractLsb' 8 2).toNat; let r := (w.extractLsb' 10 2).toNat; let m := w.extractLsb' 4 4; let op := (w.extractLsb' 0 4).toNat
    let rejected := fun (o : Host.Outcome State Fault Refusal) => ∃ t, o = .next t ∧ t.hub.status = 4 ∧ t.hub.busyq = s.hub.busyq ∧ t.hub.parts = s.hub.parts ∧ t.hub.opStart = none ∧
      t.mem = s.mem ∧ t.cores = s.cores ∧ t.launches = s.launches ∧ t.agenda = s.agenda
    (op = 1 → s.mode d ≠ 1 → s.mode d ≠ 2 → rejected (exec (.quiesce w) s)) ∧
    (op = 2 → s.mode d ≠ 3 → rejected (exec (.resume w) s)) ∧
    (op = 3 → r = d ∨ s.mode r ≠ 3 ∨ s.mode d ≠ 3 ∨ (s.part r).tenant ≠ (s.part d).tenant ∨ (s.part r).bnd.getLsbD 0 = true → rejected (exec (.merge w) s)) ∧
    (op = 4 → s.mode d ≠ 3 ∨ s.mode r ≠ 0 ∨ m = 0#4 ∨ m &&& (s.part d).dies ≠ m ∨ m = (s.part d).dies → rejected (exec (.split w) s)) ∧
    (op = 5 → s.mode d = 0 → rejected (exec (.treset w) s)) ∧
    (op = 6 → s.mode d ≠ 3 → rejected (exec (.tchange w) s)) ∧
    (7 ≤ op ∨ op = 0 → ∃ t, exec (.hubRegisterWrite 0x30100#24 w) s = .next t ∧ t.hub.parts = s.hub.parts ∧ t.agenda = s.agenda ∧ (7 ≤ op → t.hub.status = 4 ∧ t.hub.busyq = s.hub.busyq))) ∧
  (∀ (s : State) (w : BitVec 64), expireQuiesce s = s → s.hub.status ≠ 1 →
    let d := (w.extractLsb' 8 2).toNat; let r := (w.extractLsb' 10 2).toNat; let m := w.extractLsb' 4 4; let op := (w.extractLsb' 0 4).toNat
    let limit := (w.extractLsb' 16 16).toNat * Config.microsecond
    (op = 1 → s.mode d = 1 ∨ s.mode d = 2 → ∃ t, exec (.quiesce w) s = .next t ∧ t.mode d = 2 ∧ t.hub.status = 1 ∧ t.hub.opStart = some (1, s.tick) ∧
      (2 * s.tick + 1, .quiesceDone) ∈ t.agenda ∧ (2 * (s.tick + limit) + 1, .quiesceLimitExpiry) ∈ t.agenda ∧ t.mem = s.mem ∧ t.cores = s.cores ∧
      t.squeues = s.squeues) ∧
    (op = 2 → s.mode d = 3 → ∃ t, exec (.resume w) s = .next t ∧ t.mode d = 1 ∧ t.hub.status = 1 ∧ t.hub.opStart = some (2, s.tick) ∧
      (2 * (s.tick + Config.microsecond), .partitionOpComplete) ∈ t.agenda ∧ t.mem = s.mem ∧ t.cores = s.cores) ∧
    (op = 3 → r ≠ d → s.mode r = 3 → s.mode d = 3 → (s.part r).tenant = (s.part d).tenant → (s.part r).bnd.getLsbD 0 = false →
      ∃ t, exec (.merge w) s = .next t ∧ t.hub.status = 1 ∧ t.hub.opStart = some (3, s.tick) ∧ (2 * (s.tick + Config.microsecond), .partitionOpComplete) ∈ t.agenda ∧
        (t.part d).dies = (s.part d).dies ||| (s.part r).dies ∧ (t.part d).pcls = (s.part d).pcls ||| (s.part r).pcls ∧ t.mode d = 3 ∧
        (t.part d).ilv = (s.part d).ilv ∧ (t.part d).bnd = (s.part d).bnd ∧ (t.part r).dies = 0#4 ∧ t.mode r = 0 ∧
        (∀ k, (s.vf k).part = r → k < 64 → (t.vf k).part = d ∧ (t.vf k).qfirst = (s.vf k).qfirst ∧ (t.vf k).qlast = (s.vf k).qlast) ∧
        t.cores = s.cores ∧ t.quads = s.quads ∧ t.mem = s.mem ∧ (∀ k, (t.die k).walk = (s.die k).walk ∧ (t.die k).key = (s.die k).key) ∧
        ∀ k, k < 4 → ((s.part r).hasDie k = true → d ∈ (t.die k).owners) ∧ ∀ p ∈ (s.die k).owners, p ∈ (t.die k).owners) ∧
    (op = 4 → s.mode d = 3 → s.mode r = 0 → m ≠ 0#4 → m &&& (s.part d).dies = m → m ≠ (s.part d).dies →
      ∃ t, exec (.split w) s = .next t ∧ t.hub.status = 1 ∧ t.hub.opStart = some (4, s.tick) ∧ (2 * (s.tick + Config.microsecond), .partitionOpComplete) ∈ t.agenda ∧
        (t.part d).dies = (s.part d).dies &&& ~~~m ∧ (t.part r).dies = m ∧ t.mode d = 3 ∧ t.mode r = 3 ∧ (t.part r).tenant = (s.part d).tenant ∧
        (t.part r).pcls = (s.part r).pcls ∧ (t.part r).ilv = (s.part r).ilv ∧ (t.part r).bnd = (s.part r).bnd ∧ t.cores = s.cores ∧ t.mem = s.mem ∧
        ∀ k, k < 4 → (m.getLsbD k = true → r ∈ (t.die k).owners) ∧ ∀ p ∈ (s.die k).owners, p ∈ (t.die k).owners) ∧
    (op = 5 → s.mode d ≠ 0 → ∃ t, exec (.treset w) s = .next t ∧ t.mode d = 2 ∧ t.hub.status = 1 ∧ t.hub.opStart = some (5, s.tick) ∧ t.mem = s.mem ∧
      (tabWf s.launches = true → ∀ n l, s.launch n = some l → if l.part = d ∧ l.ending = none then ∃ u, t.launch n = some u ∧ u.ending = some 2 else t.launch n = some l) ∧
      (∀ q, s.queueIn d q = true → (t.squeue q).en = false ∧ (t.squeue q).waiters = [] ∧
        (t.squeue q).items = if (s.squeue q).host = true ∧ (s.squeue q).z = 4#3 then (s.squeue q).items else []) ∧ (∀ q, s.queueIn d q = false → (t.squeue q).en = (s.squeue q).en ∧ (t.squeue q).items = (s.squeue q).items) ∧
      (∀ ch, s.chanIn d ch = true → ∀ j ∈ (t.chan ch).jobs, j.cancelled = true) ∧ (2 * (s.tick + 1), .partitionOpComplete) ∈ t.agenda ∧ t.budgets = s.budgets) ∧
    (op = 6 → s.mode d = 3 → ∃ t, exec (.tchange w) s = .next t ∧ t.hub.status = 1 ∧ t.hub.opStart = some (6, s.tick) ∧ t.hub.tchanges = s.hub.tchanges + 1 ∧
      (Memory.wf s.mem = true → ∀ a, memGet t.mem a = if ownAddress s d a = true then 0#8 else memGet s.mem a) ∧
      (∀ k, t.core k = if s.coreIn d k = true then changedCore (s.core k) else s.core k) ∧
      (∀ x, x < 4 → t.die x = if (s.part d).hasDie x = true then freshKey d (s.die x) else s.die x) ∧ t.launches = s.launches ∧
      (∀ q, t.squeue q = if s.queueIn d q = true then {} else s.squeue q) ∧ (∀ c, t.chan c = if s.chanIn d c = true then {} else s.chan c) ∧
      (∀ q, t.quad q = if s.coreIn d (4 * q) = true then {} else s.quad q) ∧ (∀ g, t.group g = if s.coreIn d (16 * g) = true then {} else s.group g) ∧
      (∀ r, tabFind t.caps r = if ownAddress s d (r * 4096) = true then none else tabFind s.caps r) ∧
      (∀ n, (t.vf n).drops = if (s.vf n).part = d then 0#32 else (s.vf n).drops) ∧
      (∀ c, (s.part d).pcls.getLsbD c = true → t.budget c = {}) ∧ t.hub.lsclass = s.hub.lsclass &&& (s.part d).pcls ∧
      (2 * (s.tick + changeTicks s d), .tchangeDone) ∈ t.agenda)) ∧
  (∀ (s : State), s.hub.opStart = none →
    exec .quiesceDone s = .next s ∧ exec .quiesceLimitExpiry s = .next s ∧ exec .partitionOpComplete s = .next s ∧ exec .tchangeDone s = .next s) ∧
  (∀ (s : State) (t0 : Nat), s.hub.opStart = some (1, t0) → let d := s.hub.dst
    (quiet s d = false → exec .quiesceDone s = .next ((expireQuiesce s).postPoll 1 .quiesceDone)) ∧
    (∀ n u, quiet s d = true → returnGrants s d = .error (n, u) → exec .quiesceDone s = .next (u.postPoll n .quiesceDone)) ∧
    (∀ u, quiet s d = true → returnGrants s d = .ok u → let k := u.coreOfPart d
      (u.podReleased k = false → exec .quiesceDone s = .next (u.postPoll 1 .quiesceDone)) ∧
      (u.podReleased k = true → u.hub.dst = d → ∃ v, exec .quiesceDone s = .next v ∧ v.mode d = 3 ∧ v.hub.status = 2 ∧ v.hub.opStart = none ∧
        v.mem = u.mem ∧ ∀ n, ownAddress u d (n * 64) = true → tabFind v.dir n = none)) ∧
    exec .quiesceLimitExpiry s = .next (expireQuiesce s)) ∧
  ∀ (s : State) (op t0 : Nat), s.hub.opStart = some (op, t0) → let d := s.hub.dst
    (op = 2 ∨ op = 3 ∨ op = 4 → ∃ v, exec .partitionOpComplete s = .next v ∧ v.hub.status = 2 ∧ v.hub.opStart = none ∧ v.hub.parts = s.hub.parts ∧ v.mem = s.mem) ∧
    (op = 5 → s.launchesOf d = [] → dealsLeft s d = [] → (∀ c ∈ s.chans, s.chanIn d c.1 = true → c.2.jobs = []) →
      ∃ v, exec .partitionOpComplete s = .next v ∧ v.mode d = 3 ∧ v.hub.status = 2 ∧ v.hub.opStart = none ∧ v.mem = s.mem) ∧
    (op = 6 → ∃ v, exec .tchangeDone s = .next v ∧ v.hub.status = 2 ∧ v.hub.opStart = none ∧ v.hub.parts = s.hub.parts ∧ v.mem = s.mem)

/-- R425, R440, R449, R452, R456, R466, R468, R471, R475, R481: writes of the hub's registers: a partition's only while it is OFF or QUIESCED,
read-only and reserved bits as they were, an overlap of ranges or classes ignored; and the same writes by hub offset; a package under a new number
finds its memory under that. A read of the hub gives
what its registers hold, and the words of the discard rings; reserved bits and offsets that hold no register read zero (R9, R482). -/
def Obligations.HubRegisters : Prop :=
  (∀ (s : State) (p : BitVec 2) (r : PartReg) (v : BitVec 64), let n := p.toNat
    (s.mode n = 1 ∨ s.mode n = 2 → exec (.partRegisterWrite p r v) s = .next s) ∧
    (s.mode n = 0 ∨ s.mode n = 3 → ∃ t, exec (.partRegisterWrite p r v) s = .next t ∧ (∀ k, k ≠ n → t.part k = s.part k) ∧ t.mem = s.mem ∧
      ((∀ k, r ≠ .svent k ∧ r ≠ .svws k) → t.cores = s.cores) ∧
      (∀ k, r = .svent k → t.hub = s.hub ∧ ∀ j, t.core j = if j = k.toNat ∧ s.partOf j = n then { s.core j with svent := v &&& 0x00FFFFFFFFFFFFFE#64 } else s.core j) ∧
      (∀ k, r = .svws k → t.hub = s.hub ∧ ∀ j, t.core j = if j = k.toNat ∧ s.partOf j = n then { s.core j with svws := v &&& 0x7F#64 } else s.core j) ∧
      (r = .part → (t.part n).tenant = v.extractLsb' 48 16 ∧ (t.part n).dies = (s.part n).dies ∧ t.mode n = s.mode n ∧ (t.part n).pcls = (s.part n).pcls) ∧
      (r = .pcls → t.part n = if ∃ k ∈ List.range 4, k ≠ n ∧ (s.part k).pcls &&& v ≠ 0#64 then s.part n else { s.part n with pcls := v }) ∧
      (r = .ilv → t.part n = if 6 ≤ v.toNat % 32 ∧ v.toNat % 32 ≤ 21 then { s.part n with ilv := v &&& 0x21F#64 } else s.part n) ∧
      (r = .bnd → let w := v &&& 0x00000FFF0FFF0001#64
        t.part n = if ∃ k ∈ List.range 4, k ≠ n ∧ gibOverlap w (s.part k).bnd = true then s.part n else { s.part n with bnd := w }))) ∧
  (∀ (s : State) (k : BitVec 6) (v : BitVec 64), let n := k.toNat; let w := v &&& 0x0BFFFFFF#64; let u : Vf := { s.vf n with reg := w }
    ((∃ j, j < 64 ∧ j ≠ n ∧ (s.vf j).enabled = true ∧ u.enabled = true ∧ u.qfirst ≤ (s.vf j).qlast ∧ (s.vf j).qfirst ≤ u.qlast) →
      exec (.vfRegisterWrite k v) s = .next s) ∧
    ((∀ j, j < 64 → j ≠ n → (s.vf j).enabled = true → u.enabled = true → u.qlast < (s.vf j).qfirst ∨ (s.vf j).qlast < u.qfirst) →
      exec (.vfRegisterWrite k v) s = .next (s.modVf n fun x => { x with reg := w, slots := if u.enabled && !(s.vf n).enabled then x.slots.map fun (e : Nat × Slot) => (e.1, { e.2 with count := 0#48 }) else x.slots }))) ∧
  (∀ (s : State) (p : BitVec 3) (v : BitVec 64), let n := p.toNat; let old := tabGet s.hub.xps n 0#64
    ∃ t, exec (.xpRegisterWrite p v) s = .next t ∧ t.hub.parts = s.hub.parts ∧ t.mem = s.mem ∧ (tabGet t.hub.xps n 0#64).getLsbD 1 = old.getLsbD 1 ∧
      tabGet t.hub.xps n 0#64 = if ∃ e ∈ s.hub.xps, e.1 ≠ n ∧ gibOverlap v e.2 = true then old else (v &&& 0x00000FFF0FFF0001#64) ||| (old &&& 2#64)) ∧
  (∀ (s : State) (v : BitVec 64), ∃ t, exec (.podRegisterWrite none v) s = .next t ∧ t.hub.parts = s.hub.parts ∧
    t.hub.podcfg = (if ∀ p, p < 4 → s.mode p = 0 ∨ s.mode p = 3 then v &&& 0x7F#64 else s.hub.podcfg) ∧
    (Memory.wf s.mem = true → (∀ c ∈ s.mem, c.1 < 2 ^ 51) → (∀ p, p < 4 → s.mode p = 0 ∨ s.mode p = 3) → ∀ a, a < 2 ^ 51 → paPackage a = s.pkg →
      memGet t.mem (a % 2 ^ 44 + t.pkg * 2 ^ 44) = memGet s.mem a)) ∧
  (∀ (s : State) (p : BitVec 2) (v : BitVec 64), ∃ t, exec (.podRegisterWrite (some p) v) s = .next t ∧ t.hub.podcfg = s.hub.podcfg ∧
    t.part p.toNat = if s.mode p.toNat = 0 ∨ s.mode p.toNat = 3 then { s.part p.toNat with pod := v &&& 0xFFFF#64 } else s.part p.toNat) ∧
  (∀ (s : State) (c : BitVec 6) (b : Bool) (v : BitVec 64), exec (.bclassWrite c b v) s = .next (s.modBudget c.toNat fun u =>
    if b then { u with nextB := v &&& 0xFFFFFFFFFF#64 } else { u with nextA := v &&& 0xFFFFFFFFFFFF#64 })) ∧
  (∀ (s : State) (v : BitVec 64), exec (.lsclassWrite v) s = .next (s.modHub fun h => { h with lsclass := v }) ∧
    (∃ t, exec (.pwrctlWrite v) s = .next t ∧ t.hub.pwrctl = v &&& 3#64 ∧ t.mem = s.mem ∧
      (∀ k, (t.core k).store = (s.core k).store ∧ (t.core k).ctxs = (s.core k).ctxs ∧ (v.getLsbD 0 = false → (t.core k).gated = none ∧ (t.core k).asleep = false) ∧
        (v.getLsbD 0 = true → (t.core k).gated = (s.core k).gated) ∧ (v.getLsbD 1 = false → (t.core k).asleep = false) ∧
        (v.getLsbD 0 = true → v.getLsbD 1 = true → (t.core k).asleep = (s.core k).asleep)) ∧
      ∀ d, v.getLsbD 0 = false → (t.die d).engGated = [] ∧ (t.die d).engAsleep = [])) ∧
  (∀ (s : State) (d : BitVec 2) (v : BitVec 64), exec (.dpctlWrite d v) s = .next (if v.getLsbD 32 then s.modDie d.toNat fun x => { x with frozen := false } else s)) ∧
  (∀ (s : State) (r : BitVec 16) (pa : BitVec 52), pa.toNat / 2 ^ 42 % 4 = 2 → let o := pa.toNat % 2 ^ 42
    let reads := fun (w : Word) => exec (.hostRead r (.device pa) 8#12) s = .next { s with out := s.out ++ [.reply r (toBytes 8 w.toNat)] }
    (∀ p, p < 4 → (o = 0x30000 + 0x40 * p → reads (s.part p).part) ∧ (o = 0x30008 + 0x40 * p → reads (s.part p).pcls) ∧
      (o = 0x30010 + 0x40 * p → reads (s.part p).ilv) ∧ (o = 0x30018 + 0x40 * p → reads (s.part p).bnd) ∧ (o = 0x40108 + 8 * p → reads (s.part p).pod) ∧
      (o = 0x50000 + 16 * p → reads (BitVec.ofBool (s.die p).frozen ++ 0#20 ++ (s.die p).next |>.setWidth 64))) ∧
    (∀ k, k < 64 → (o = 0x30200 + 8 * k → reads (s.vf k).reg) ∧ (o = 0x40400 + 8 * k → reads ((s.vf k).drops.setWidth 64)) ∧
      (o = 0x20000 + 16 * k → reads (s.budget k).nextA) ∧ (o = 0x20008 + 16 * k → reads (s.budget k).nextB)) ∧
    (∀ n, n < 8 → o = 0x40000 + 8 * n → reads (tabGet s.hub.xps n 0#64)) ∧
    (o = 0x20800 → reads s.hub.lsclass) ∧ (o = 0x30100 → reads s.hub.pctl) ∧ (o = 0x40100 → reads s.hub.podcfg) ∧ (o = 0x51000 → reads s.hub.pwrctl) ∧
    (∀ d i j, d < 4 → i < 4096 → j < 8 → o = 0x60000 + 0x40000 * d + 64 * i + 8 * j → reads ((tabGet (s.die d).ring i []).getD j 0#64)) ∧
    (0x160000 ≤ o → o % 8 = 0 → reads 0#64)) ∧
  ∀ (s : State) (v : BitVec 64),
    (∀ o : BitVec 24, o.toNat % 8 ≠ 0 → exec (.hubRegisterWrite o v) s = .next s) ∧
    (∀ (o : BitVec 24) (p : BitVec 2), o.toNat = 0x30000 + 0x40 * p.toNat → exec (.hubRegisterWrite o v) s = exec (.partRegisterWrite p .part v) s) ∧
    (∀ (o : BitVec 24) (p : BitVec 2), o.toNat = 0x30008 + 0x40 * p.toNat → exec (.hubRegisterWrite o v) s = exec (.partRegisterWrite p .pcls v) s) ∧
    (∀ (o : BitVec 24) (p : BitVec 2), o.toNat = 0x30010 + 0x40 * p.toNat → exec (.hubRegisterWrite o v) s = exec (.partRegisterWrite p .ilv v) s) ∧
    (∀ (o : BitVec 24) (p : BitVec 2), o.toNat = 0x30018 + 0x40 * p.toNat → exec (.hubRegisterWrite o v) s = exec (.partRegisterWrite p .bnd v) s) ∧
    (∀ (o : BitVec 24) (k : BitVec 6), o.toNat = 0x30200 + 8 * k.toNat → exec (.hubRegisterWrite o v) s = exec (.vfRegisterWrite k v) s) ∧
    (∀ (o : BitVec 24) (c : BitVec 6), o.toNat = 0x20000 + 16 * c.toNat → exec (.hubRegisterWrite o v) s = exec (.bclassWrite c false v) s) ∧
    (∀ (o : BitVec 24) (c : BitVec 6), o.toNat = 0x20008 + 16 * c.toNat → exec (.hubRegisterWrite o v) s = exec (.bclassWrite c true v) s) ∧
    (∀ (o : BitVec 24) (p : BitVec 3), o.toNat = 0x40000 + 8 * p.toNat → exec (.hubRegisterWrite o v) s = exec (.xpRegisterWrite p v) s) ∧
    (∀ (o : BitVec 24) (d : BitVec 2), o.toNat = 0x50000 + 16 * d.toNat → exec (.hubRegisterWrite o v) s = exec (.dpctlWrite d v) s) ∧
    (∀ (o : BitVec 24) (p : BitVec 2), o.toNat = 0x40108 + 8 * p.toNat → exec (.hubRegisterWrite o v) s = exec (.podRegisterWrite (some p) v) s) ∧
    (∀ (o : BitVec 24) (c : BitVec 6), o.toNat = 0x20400 + 8 * c.toNat →
      exec (.hubRegisterWrite o v) s = .next (s.modBudget c.toNat fun b => { b with ovr := b.ovr &&& ~~~(v.extractLsb' 4 4) })) ∧
    (∀ (o : BitVec 24) (k : BitVec 6), o.toNat = 0x40400 + 8 * k.toNat →
      exec (.hubRegisterWrite o v) s = .next (s.modVf k.toNat fun u => { u with drops := u.drops &&& ~~~(v.extractLsb' 0 32) })) ∧
    exec (.hubRegisterWrite 0x20800#24 v) s = exec (.lsclassWrite v) s ∧ exec (.hubRegisterWrite 0x51000#24 v) s = exec (.pwrctlWrite v) s ∧
    exec (.hubRegisterWrite 0x40100#24 v) s = exec (.podRegisterWrite none v) s ∧
    ((v.extractLsb' 0 4).toNat = 1 → exec (.hubRegisterWrite 0x30100#24 v) s = exec (.quiesce v) s) ∧
    ((v.extractLsb' 0 4).toNat = 2 → exec (.hubRegisterWrite 0x30100#24 v) s = exec (.resume v) s) ∧
    ((v.extractLsb' 0 4).toNat = 3 → exec (.hubRegisterWrite 0x30100#24 v) s = exec (.merge v) s) ∧
    ((v.extractLsb' 0 4).toNat = 4 → exec (.hubRegisterWrite 0x30100#24 v) s = exec (.split v) s) ∧
    ((v.extractLsb' 0 4).toNat = 5 → exec (.hubRegisterWrite 0x30100#24 v) s = exec (.treset v) s) ∧
    ((v.extractLsb' 0 4).toNat = 6 → exec (.hubRegisterWrite 0x30100#24 v) s = exec (.tchange v) s)

/-- R236, R271, R456, R459 to R464: the host. Doorbell writes build a slot's entry and its last byte triggers it; a trigger is enqueued at its
queue, or refused with the first cause that holds and counted; posted writes of one requester become visible in order, only where the region
is OPEN, 256 of them at a time; a read of memory gives ciphertext, a free value of the line, its key and its data
[log 14], and one of BAR2 only what the tenant's own events hold (R482); a report and a signed token unlock debugging. The model's choice: how slots wait
for earlier writes [log 49], the cause of a trigger [log 44], what an IDE failure names [log 88], and the word that says whether a function is locked
[log 89]. -/
def Obligations.HostRequests : Prop :=
  (∀ (s : State) (r : BitVec 16) (f : BitVec 6) (o : BitVec 19) (bs : List (BitVec 8)), let k := f.toNat; let q := (s.vf k).qfirst + o.toNat / 128
    let from_ := o.toNat % 128; let old := tabGet (s.vf k).slots q {}
    let merged := fun (i : Nat) => if from_ ≤ i ∧ i < from_ + bs.length then bs.getD (i - from_) 0#8 else tabGet old.bytes i 0#8
    let free := postedBefore s r = false ∧ s.hub.posted.length < 256
    (free → (s.vf k).enabled = false → exec (.doorbellWrite r f o bs) s = .next s) ∧
    (¬ free → exec (.doorbellWrite r f o bs) s = .next (s.addPosted r (.bar0 f o) bs)) ∧
    (free → (s.vf k).enabled = true → (s.vf k).qlast < q → from_ + bs.length ≤ 128 → exec (.doorbellWrite r f o bs) s = .next s) ∧
    (free → (s.vf k).enabled = true → q ≤ (s.vf k).qlast → bs ≠ [] → from_ + bs.length < 128 → ∃ t, exec (.doorbellWrite r f o bs) s = .next t ∧
      t.agenda = s.agenda ∧ t.mem = s.mem ∧ t.squeues = s.squeues ∧ (tabGet (t.vf k).slots q {}).sent = old.sent ∧ (tabGet (t.vf k).slots q {}).count = old.count ∧
      ∀ i, tabGet (tabGet (t.vf k).slots q {}).bytes i 0#8 = merged i) ∧
    (free → (s.vf k).enabled = true → q ≤ (s.vf k).qlast → bs ≠ [] → from_ + bs.length = 128 → ∃ t, exec (.doorbellWrite r f o bs) s = .next t ∧
      t.agenda = (s.postPoll Config.homePkg (.doorbellTrigger f (BitVec.ofNat 12 q))).agenda ∧ t.mem = s.mem ∧ t.squeues = s.squeues ∧
      (tabGet (t.vf k).slots q {}).bytes = [] ∧ (tabGet (t.vf k).slots q {}).sent = old.sent ++ [(r, (List.range 128).map merged)])) ∧
  (∀ (s : State) (f : BitVec 6) (q : QueueId), let k := f.toNat; let n := q.toNat; let slot := tabGet (s.vf k).slots n {}; let p := (s.vf k).part
    let sq := s.squeue n
    (slot.sent = [] → exec (.doorbellTrigger f q) s = .next s) ∧
    ∀ r e rest, slot.sent = (r, e) :: rest → ∃ t, exec (.doorbellTrigger f q) s = .next t ∧ t.mem = s.mem ∧ t.cores = s.cores ∧
      (let a := tabGet (t.vf k).slots n {}
       a.sent = rest ∧ a.count = slot.count + 1 ∧
       if s.partOfDie (n / 1024) ≠ p then a.outcome = 4#8 ∧ t.squeues = s.squeues ∧ (t.vf k).drops = (s.vf k).drops + 1
       else if s.mode p ≠ 1 then a.outcome = 5#8 ∧ t.squeues = s.squeues ∧ (t.vf k).drops = (s.vf k).drops + 1 ∧ t.dies = s.dies
       else if sq.en = false ∨ sq.host = false then a.outcome = 3#8 ∧ t.squeues = s.squeues ∧ (t.vf k).drops = (s.vf k).drops + 1 ∧ t.dies = s.dies
       else if sq.capacity ≤ sq.items.length then a.outcome = 2#8 ∧ t.squeues = s.squeues ∧ (t.vf k).drops = (s.vf k).drops + 1 ∧ t.dies = s.dies
       else a.outcome = 1#8 ∧ (t.squeue n).items = sq.items ++ [e.take sq.entry] ∧ (t.vf k).drops = (s.vf k).drops ∧ t.dies = s.dies)) ∧
  (∀ (s : State) (r : BitVec 16) (f : BitVec 6) (q : QueueId), let k := f.toNat; let n := q.toNat; let slot := tabGet (s.vf k).slots n {}
    (postedBefore s r = true ∨ triggered s r = true → exec (.doorbellStatusRead r f q) s = .next (s.postPoll 1 (.doorbellStatusRead r f q))) ∧
    (postedBefore s r = false → triggered s r = false → (s.vf k).enabled = true → (s.vf k).qfirst ≤ n → n ≤ (s.vf k).qlast →
      exec (.doorbellStatusRead r f q) s = .next { s with out := s.out ++ [.reply r (toBytes 8 (slot.count.toNat * 2 ^ 16 + slot.outcome.toNat))] })) ∧
  (∀ (s : State) (r : BitVec 16) (place : HostAddress) (bs : List (BitVec 8)), bs ≠ [] → let i := postedAgain r
    let u := s.addPosted r place bs; let done := s.unhold i; let ev := Instr.hostPostedWrite r place bs
    (postedBefore s r = true → exec ev s = .next u) ∧
    (postedBefore s r = false → 256 ≤ s.hub.posted.length → exec ev s = .next (u.unhold i)) ∧
    (postedBefore s r = false → s.hub.posted.length < 256 →
      (∀ f o, place = .bar0 f o → exec ev s = .next (ringSlots done r f.toNat o.toNat bs)) ∧
      ((∀ f o, place ≠ .bar0 f o) → (∀ n, place ≠ .sensor n) → (∀ f, place ≠ .tdi f) → triggered s r = true → exec ev s = .next ((u.unhold i).postPoll 1 i)) ∧
      (triggered s r = false →
        (∀ f, place = .bar2 f 0#21 → bs.length = 8 → exec ev s = .next (done.modVf f.toNat fun v =>
          { v with drops := v.drops &&& ~~~(BitVec.ofNat 32 (ofBytes bs)) })) ∧
        (∀ f o, place = .bar2 f o → 4 ≤ o.toNat → exec ev s = .next (done.modVf f.toNat fun v => v)) ∧
        ∀ pa, place = .device pa → let a := pa.toNat; let lines := linesOf a bs.length
          (a / 2 ^ 42 % 4 = 2 → exec ev s = .next (hubWrite done a bs)) ∧
          (a / 2 ^ 42 % 4 ≠ 2 → addressOwner s a = none → exec ev s = .next done) ∧
          (a / 2 ^ 42 % 4 ≠ 2 → (addressOwner s a).isSome = true → s.capAt a ≠ .opened → ∃ t, exec ev s = .next t ∧
            t.mem = s.mem ∧ t.hub.posted = s.hub.posted) ∧
          (a / 2 ^ 42 % 4 ≠ 2 → (addressOwner s a).isSome = true → s.capAt a = .opened →
            (∀ n v, outsideWaits u i a lines true none = some (n, v) → exec ev s = .next (v.hold i (lines.map lineKey) n)) ∧
            (outsideWaits u i a lines true none = none → (u.writeEvent (s.nearAddress a) lines none false).isSome = false →
              exec ev s = .next (u.hold i (lines.map lineKey) 1)) ∧
            (outsideWaits u i a lines true none = none → (u.writeEvent (s.nearAddress a) lines none false).isSome = true →
              ∃ t, exec ev s = .next t ∧ t.mem = memPut s.mem a bs ∧ t.hub.posted = s.hub.posted))))) ∧
  (∀ (s : State) (a : Nat) (bs : List (BitVec 8)), (bs.length = 8 → a % 8 = 0 →
      exec (.hubRegisterWrite (BitVec.ofNat 24 (a % 2 ^ 42)) (BitVec.ofNat 64 (ofBytes bs))) s = .next (hubWrite s a bs) ∨ 2 ^ 24 ≤ a % 2 ^ 42) ∧
    (bs.length ≠ 8 ∨ a % 8 ≠ 0 → hubWrite s a bs = s)) ∧
  (∀ (s : State) (r : BitVec 16) (n : BitVec 12),
    let answers := fun (at_ : HostAddress) (bs : List (BitVec 8)) => exec (.hostRead r at_ n) s = .next { s with out := s.out ++ [.reply r bs] }
    (∀ f o, slotWaits s r = true → exec (.hostRead r (.bar0 f o) n) s = .next (s.postPoll 1 (.hostRead r (.bar0 f o) n))) ∧
    (∀ f o, slotWaits s r = false → ∃ bs, bs.length = n.toNat ∧ answers (.bar0 f o) bs) ∧
    (∀ f o, ∃ bs, bs.length = n.toNat ∧ answers (.bar2 f o) bs) ∧
    (∀ j, answers (.sensor j) (toBytes 8 (s.hub.sensor j.toNat))) ∧
    (∀ f : BitVec 6, answers (.tdi f) (toBytes 8 (if s.mode (s.vf f.toNat).part = 1 ∨ s.mode (s.vf f.toNat).part = 2 then 1 else 0))) ∧
    ∀ pa, let a := pa.toNat; let i := Instr.hostRead r (.device pa) n; let lines := linesOf a n.toNat
      (a / 2 ^ 42 % 4 = 2 → ∃ bs, bs.length = n.toNat ∧ answers (.device pa) bs) ∧
      (a / 2 ^ 42 % 4 ≠ 2 →
        (∀ m t, outsideWaits s i a lines false none = some (m, t) → exec i s = .next (t.hold i (lines.map lineKey) m)) ∧
        (outsideWaits s i a lines false none = none →
          exec i s = .next { s.unhold i with out := s.out ++ [.reply r ((List.range n.toNat).map fun j => (cipherLine s ((a + j) / 64)).extractLsb' (8 * ((a + j) % 64)) 8)] }))) ∧
  (∀ (s : State) (l p : Nat), l * 64 / 2 ^ 42 % 4 = 0 → addressOwner s (l * 64) = some p → let d := l * 64 / 2 ^ 38 % 4
    cipherLine s l = Config.cipher d p (s.die d).key l (memBytes s.mem (l * 64) 64)) ∧
  (∀ (s : State) (r : BitVec 16) (f : BitVec 6) (o : BitVec 21), let p := s.part (s.vf f.toNat).part
    let reads := fun (w : Word) => exec (.hostRead r (.bar2 f o) 8#12) s = .next { s with out := s.out ++ [.reply r (toBytes 8 w.toNat)] }
    (o = 0#21 → reads ((s.vf f.toNat).drops.setWidth 64)) ∧ (o.toNat % 8 = 0 → 0 < o.toNat → o.toNat < 0x1000 ∨ 0x101000 ≤ o.toNat → reads 0#64) ∧
    ∀ d i j, d < 4 → i < 4096 → j < 8 → o.toNat = 0x1000 + 0x40000 * d + 64 * i + 8 * j → let e := tabGet (s.die d).ring i []
      (p.hasDie d = true → (e.getD 1 0#64).extractLsb' 48 16 = p.tenant → reads (e.getD j 0#64)) ∧
      (p.hasDie d = false ∨ (e.getD 1 0#64).extractLsb' 48 16 ≠ p.tenant → reads 0#64)) ∧
  (∀ (s : State) (b : Bool) (r : BitVec 16), exec (.ideFailure b r) s = .next (s.discard none Config.hub 0 0x04 2 [BitVec.ofNat 64 s.pkg])) ∧
  (∀ (s : State) (p : BitVec 2) (nonce : BitVec 256), ∃ t m regs sig, exec (.spdmAttestation p nonce) s = .next t ∧ t.mem = s.mem ∧
    t.out = s.out ++ [.report p.toNat nonce m regs sig] ∧ (t.part p.toNat).reports = (nonce, s.tick) :: (s.part p.toNat).reports ∧
    let a := s.part p.toNat
    regs.take 4 = [a.part, a.pcls, a.ilv, a.bnd] ∧ regs.reverse.take 2 = [BitVec.ofNat 64 s.hub.tchanges, a.tenant.setWidth 64] ∧
      ∀ k, k < 64 → (s.vf k).part = p.toNat → (s.vf k).reg ∈ regs) ∧
  ∀ (s : State) (p : BitVec 2) (nonce : BitVec 256) (signed : Bool), let n := p.toNat
    (signed = true → (∃ t, (nonce, t) ∈ (s.part n).reports ∧ s.tick ≤ t + 60000000 * Config.microsecond) →
      exec (.debugUnlock p nonce signed) s = .next ((s.modPart n fun a => { a with unlocked := true }).discard (some n) Config.hub 0 0x09 4 [])) ∧
    (signed = false ∨ (∀ t, (nonce, t) ∈ (s.part n).reports → t + 60000000 * Config.microsecond < s.tick) → exec (.debugUnlock p nonce signed) s = .next s)

/-- R264, R271, R367, R405, R468 to R472: peers and expanders. A peer's request is performed at most once: one whose number is in the window gets
the stored reply, one below the window is dropped, one that finds the window full waits; a partition that is not joined is refused; a joined
one's write, read, far atomic and request for a grant act on memory here, once what holds them at the home of their lines has ended. Requests without a reply are sent again, charged like the first time,
eight times at most, and then given up. The model's choice: what the package counts as joined [log 40], and what the window of a source is cut
to [log 81]. -/
def Obligations.PeerRequests : Prop :=
  (∀ (s : State) (p : BitVec 7) (seq : BitVec 32) (r : PeerRequest), let src := p.toNat; let w := tabGet s.hub.windows src {}
    let i := Instr.fabricRequestArrival p seq r
    (∀ e, w.done.find? (fun e => e.1 == seq) = some (seq, some e) → exec i s = .next { s.unhold i with out := s.out ++ [.peerReply src seq e] }) ∧
    (w.done.find? (fun e => e.1 == seq) = some (seq, none) → exec i s = .next (s.unhold i)) ∧
    (w.done.find? (fun e => e.1 == seq) = none → (seq - w.base).msb = true → exec i s = .next (s.unhold i)) ∧
    (w.done.find? (fun e => e.1 == seq) = none → (seq - w.base).msb = false → 4096 ≤ w.done.length → exec i s = .next (s.post 1 i)) ∧
    (joinedTo s r = true ↔ r.domain ≠ 0#16 ∧ ∃ n, n < 4 ∧ (s.part n).pod.extractLsb' 0 16 = r.domain ∧
      match r.op with
      | .capCopy _ _ _ | .tlbi _ _ _ | .cancel _ => True
      | op => addressed s op = some n) ∧
    (w.done.find? (fun e => e.1 == seq) = none → (seq - w.base).msb = false → w.done.length < 4096 → joinedTo s r = false →
      ∃ t e, exec i s = .next t ∧ t.mem = s.mem ∧ t.cores = s.cores ∧ t.out = s.out ++ [.peerReply src seq e] ∧
        (e = .boundary ∨ e = .send .boundary)) ∧
    (w.done.find? (fun e => e.1 == seq) = none → (seq - w.base).msb = false → w.done.length < 4096 → joinedTo s r = true →
      let waits := fun (pa : Nat) (lines : List Nat) (write : Bool) => outsideWaits s i pa lines write (some src)
      let met := fun (pa : Nat) (lines : List Nat) => s.writeEvent (s.nearAddress pa) lines none false
      let answers := fun (t : State) (e : PeerReply) => exec i s = .next t ∧ t.out = s.out ++ [.peerReply src seq e] ∧
        (seq, some e) ∈ (tabGet t.hub.windows src {}).done
      (∀ pa bs, r.op = .write pa bs → bs ≠ [] → let a := pa.toNat; let lines := linesOf a bs.length
        (regionOpen s a (some src) = false → ∃ t, answers t (.value 0#64) ∧ t.mem = s.mem) ∧
        (regionOpen s a (some src) = true → waits a lines true = none → (met a lines).isSome = true → ∃ t, answers t (.value 0#64) ∧ t.mem = memPut s.mem a bs) ∧
        (regionOpen s a (some src) = true → ∀ n u, waits a lines true = some (n, u) → exec i s = .next (u.hold i (lines.map lineKey) n))) ∧
      (∀ pa len, r.op = .read pa len → waits pa.toNat (linesOf pa.toNat len.toNat) false = none →
        ∃ t, answers t (.data (memBytes s.mem pa.toNat len.toNat)) ∧ t.mem = s.mem ∧ t.cores = s.cores) ∧
      (∀ pa o v c tag lane det, r.op = .atomic pa o v c tag lane det → let a := pa.toNat; let old := memWord s.mem a
        let bad := match s.capAt a with
          | .sealed => o ≠ 11#4
          | .held pk tg ln => (pk ≠ src ∨ tg ≠ tag ∨ ln ≠ lane) ∧ (o ≠ 11#4 ∨ det = true)
          | .opened => det = true
        (bad → ∃ t, answers t .capability ∧ t.mem = s.mem) ∧
        (¬ bad → o = 11#4 → waits a [a / 64] false = none → ∃ t, answers t (.value old) ∧ t.mem = s.mem ∧ t.cores = s.cores) ∧
        (¬ bad → o ≠ 11#4 → waits a [a / 64] true = none → (met a [a / 64]).isSome = true →
          ∃ t, answers t (.value old) ∧ t.mem = memWrite s.mem a 8 (farNew o.toNat old v c).1.toNat)) ∧
      (∀ page write, r.op = .grant page write → let n := page.toNat; waits (n * 4096) (pageLines n) write = none →
        (write = true → (met (n * 4096) (pageLines n)).isSome = true) →
        ∃ t d, answers t (.page d) ∧ d.bytes = memBytes s.mem (n * 4096) 4096 ∧ t.mem = s.mem ∧ let h := tabGet t.hub.pageDir n {}
          if write then h.writer = some src ∧ src ∉ h.readers else h.writer = some src ∨ (h.writer = none ∧ src ∈ h.readers)) ∧
      (∀ home index op origin, r.op = .sync home index op origin → peerLater s i r.op = false → leftCore s home.toNat = true → ∃ t, answers t .eviction ∧ t.cores = s.cores) ∧
      (∀ dest m, r.op = .message dest m → peerLater s i r.op = false → leftCore s dest.toNat = true → ∃ t, answers t (.send .eviction) ∧ t.cores = s.cores) ∧
      (∀ page bs kept, r.op = .returned page bs kept → let n := page.toNat
        let wrote := match tabFind s.hub.pageDir n with | some h => h.writer == some src || h.awaited.contains src | none => false
        ∃ t, answers t (.value 0#64) ∧ t.mem = if wrote && !bs.isEmpty then memPut s.mem (n * 4096) (bs.take 4096) else s.mem) ∧
      (∀ page toRead, r.op = .revoke page toRead → ∃ t, exec i s = .next t ∧ t.mem = s.mem ∧
        (2 * s.tick, .pageRevocation ⟨page, toRead, some ⟨BitVec.ofNat 7 src, seq⟩⟩) ∈ t.agenda) ∧
      (∀ q, r.op = .cancel q → ∃ t e pre, exec i s = .next t ∧ t.out = s.out ++ pre ++ [.peerReply src seq (.value e)] ∧
        (seq, some (.value e)) ∈ (tabGet t.hub.windows src {}).done ∧ (e = 0#64 ∨ e = 1#64) ∧ (e = 1#64 ↔ ∃ c ∈ s.cores, ∃ v ∈ c.2.wake, v.peer = some (src, q))))) ∧
  (∀ (s : State) (seq : BitVec 32) (p : BitVec 7), let find := s.hub.outstanding.find? fun o => o.seq == seq && o.target == p.toNat
    (find = none → exec (.fabricRetransmit seq p) s = .next s) ∧
    ∀ o, find = some o →
      (o.retries < 8 → ∃ t, exec (.fabricRetransmit seq p) s = .next t ∧ t.mem = s.mem ∧ { o with retries := o.retries + 1 } ∈ t.hub.outstanding ∧
        let packet := Outgoing.peer p.toNat seq o.request
        let free := match o.cls with | some c => (s.core o.core).halting.isSome || !(s.exhausted c 1 || s.hub.port.any (·.1 == c)) | none => true
        (free = true → t.out = s.out ++ [packet] ∧ (2 * (s.tick + 10 * Config.microsecond), .fabricRetransmit seq p) ∈ t.agenda) ∧
        ∀ c, free = false → o.cls = some c → t.out = s.out ∧ t.hub.port = s.hub.port ++ [(c, packet)]) ∧
      (8 ≤ o.retries → let e := s.endPeer o; let check := Instr.machineCheck (.partition (BitVec.ofNat 2 (s.partOf o.core)))
        (o.isPlain e = false → exec (.fabricRetransmit seq p) s = .next (e.post 0 check)) ∧
        (o.isPlain e = true → exec (.fabricRetransmit seq p) s = .next ((hubAnswer e o .boundary).post 0 check)))) ∧
  (∀ (s : State) (o : Outstanding), let e := s.endPeer o; let left := (s.hub.outstanding.erase o).filter (·.target == o.target)
    e.hub.outstanding = s.hub.outstanding.erase o ∧ e.mem = s.mem ∧
    (left.length < Config.window → (s.hub.outstanding.find? (·.target == o.target) = some o →
        e.out = s.out ++ [.ack o.target ((left.head?.map (·.seq)).getD (s.nextSeq o.target) - 1)]) ∧
      (s.hub.outstanding.find? (·.target == o.target) ≠ some o → e.out = s.out))) ∧
  (∀ (s : State) (p : BitVec 7) (n : BitVec 32), let w := tabGet s.hub.windows p.toNat {}
    ∃ t, exec (.fabricAcknowledgement p n) s = .next t ∧ t.mem = s.mem ∧ t.out = s.out ∧
      tabGet t.hub.windows p.toNat {} = if (n + 1 - w.base).msb then w
        else { base := n + 1, done := w.done.filter fun e => !(e.1 - (n + 1)).msb || e.2.isNone }) ∧
  (∀ (s : State) (p : BitVec 2), exec (.secondTierTimeout p) s = .next (s.post 0 (.machineCheck (.partition p)))) ∧
  ∀ (s : State) (p : BitVec 3), let x := tabGet s.hub.xps p.toNat 0#64
    exec (.expanderLinkDown p) s = .next (s.modHub fun h => { h with xps := tabSet h.xps p.toNat (x &&& ~~~2#64) }) ∧
    exec (.expanderLinkTrained p) s = .next (s.modHub fun h => { h with xps := tabSet h.xps p.toNat (x ||| 2#64) })

/-- R18, R95, R459, R468, R474 to R480: cooling, gating, resets and firmware. A sample changes the thermal stage by its thresholds, and a trip stops the
partitions and removes power: only what comes from outside is left; gating changes no state that a unit can see; a reset gives State.reset but for
what survives it, with spares in place of the cores that failed; an image is written, checked, and runs from the next cold reset on. Where the spec
gives no reset value, State.reset's is the model's [log 1, log 2]. The model's choice: what a trip leaves [log 91], what a failed check waits for and
what a warm reset keeps [log 42], which failed cores get the spares [log 90], and that what reaches an agent wakes it at once [log 58]. -/
def Obligations.PowerAndResets : Prop :=
  (∀ (s : State) (js : List Nat) (hot cold : Bool), let h := s.hub; let j := js.foldl max 0; let ev := Instr.thermalSample js hot cold
    (h.removed = true → exec ev s = .next (s.modHub fun h => { h with sensors := js })) ∧
    (h.removed = false → ∃ t, exec ev s = .next t ∧ t.mem = s.mem ∧ t.hub.sensors = js ∧
      (115 ≤ j → h.stage < 3 → t.hub.stage = 3 ∧ t.hub.removed = true ∧ ∀ e ∈ t.agenda, fromOutside e.2 = true) ∧
      (j < 115 → t.hub.removed = false ∧ t.cores = s.cores ∧ t.launches = s.launches ∧ t.agenda = s.agenda) ∧
      (105 ≤ j → j < 115 → h.stage < 3 → t.hub.stage = 2) ∧ (95 ≤ j → j < 105 → h.stage < 2 → t.hub.stage = 1) ∧
      (j < 105 → hot = true → h.stage < 2 → t.hub.stage = 1) ∧ (j < 95 → hot = false → h.stage = 0 → t.hub.stage = 0) ∧
      (90 ≤ j → j < 105 → h.stage = 1 → t.hub.stage = 1) ∧ (100 ≤ j → j < 115 → h.stage = 2 → t.hub.stage = 2) ∧
      (j < 100 → h.stage = 2 → (∃ t0, h.coolSince = some t0 ∧ t0 + 1000 * Config.microsecond ≤ s.tick) → t.hub.stage = 1) ∧
      (j < 90 → hot = false → cold = true → h.stage = 1 → (∃ t0, h.coolSince = some t0 ∧ t0 + 1000 * Config.microsecond ≤ s.tick) → t.hub.stage = 0) ∧
      (j < 100 → h.stage = 2 → h.coolSince = none → t.hub.stage = 2 ∧ t.hub.coolSince = some s.tick))) ∧
  (∀ (s : State) (a : PowerAgent),
    (s.hub.gate = false → exec (.agentGate a) s = .next s) ∧ (s.hub.gate = false ∨ s.hub.sleep = false → exec (.agentSleep a) s = .next s) ∧
    ∃ t u v, exec (.agentGate a) s = .next t ∧ exec (.agentSleep a) s = .next u ∧ exec (.agentWake a) s = .next v ∧
      ∀ x ∈ [t, u, v], x.mem = s.mem ∧ x.hub = s.hub ∧ x.launches = s.launches ∧ (∀ e ∈ s.agenda, e ∈ x.agenda) ∧
        ∀ k, { x.core k with gated := none, asleep := false } = { s.core k with gated := none, asleep := false }) ∧
  (∀ (s : State) (a : PowerAgent), s.hub.gate = true → gateable s a = true → ∃ t, exec (.agentGate a) s = .next t ∧
    (2 * (s.tick + 1000 * Config.microsecond), .agentSleep a) ∈ t.agenda ∧ gateable t a = false ∧
    (∀ c, a = .core c → t.core c.toNat = { s.core c.toNat with gated := some s.tick }) ∧
    (∀ d e, a = .engine d e → tabFind (t.die d.toNat).engGated e.toNat = some s.tick) ∧
    ∀ q, a = .quadUnits q → t.quad q.toNat = { s.quad q.toNat with gated := some s.tick }) ∧
  (∀ (s : State) (c : CoreId), let k := c.toNat
    (coreIdle s k = false → exec (.agentGate (.core c)) s = .next s) ∧
    (∀ t, s.hub.gate = true → s.hub.sleep = true → (s.core k).gated = some t → t + 1000 * Config.microsecond ≤ s.tick →
      exec (.agentSleep (.core c)) s = .next (s.modCore k fun c => { c with asleep := true })) ∧
    ((s.core k).gated.isSome = true ∨ (s.core k).asleep = true →
      exec (.agentWake (.core c)) s = .next ((s.modCore k fun c => { c with gated := none, asleep := false }).gateSoon k)) ∧
    ((s.core k).gated = none → (s.core k).asleep = false → exec (.agentWake (.core c)) s = .next s)) ∧
  (∀ (s : State) (up : Bringup) (i : Nat), s.hub.sram = some i ∨ (s.hub.sram = none ∧ s.hub.flash = some i) →
    exec (.coldReset true up) s = .next (coldStart s i [2] up)) ∧
  (∀ (s : State) (up : Bringup) (i : Nat) (actions : List Nat), let t := coldStart s i actions up
    t.tick = 0 ∧ t.mem = [] ∧ t.launches = [] ∧ t.dir = [] ∧ t.caps = [] ∧ t.budgets = [] ∧ t.squeues = [] ∧ t.chans = [] ∧
      t.hub.running = some i ∧ t.hub.flash = s.hub.flash ∧ t.hub.sram = none ∧ t.hub.removed = false ∧ t.hub.boot = none ∧ (t.die 0).events = actions.length + 1) ∧
  (∀ (s r : State) (up : Bringup), let t := bringUp s r up
    let failed := fun (k : Nat) => up.failed.contains (cid k)
    let before := fun (k : Nat) => ((List.range k).filter fun j => dieOf j == dieOf k && failed j).length
    (∀ k, k < 4096 → t.core k = if failed k then (if before k < 16 then { spare := true } else { stopped := true }) else {}) ∧
      (∀ d, d < 4 → (t.die d).key = (s.die d).key + 1 ∧ (t.die d).spares = 16 - ((List.range 1024).filter fun n => failed (d * 1024 + n)).length) ∧
      (∀ p, p < 4 → t.part p = { r.part p with tierKey := (s.part p).tierKey + 1 }) ∧ t.mem = r.mem ∧
      ∀ n, n < 8 → tabGet t.hub.xps n 0#64 = if up.trained.getLsbD n then 2#64 else 0#64) ∧
  (∀ (s : State) (good : Bool) (up : Bringup), good = false ∨ (s.hub.sram = none ∧ s.hub.flash = none) →
    ∃ t, exec (.coldReset good up) s = .next t ∧ t.hub.removed = true ∧ t.hub.running = none ∧ t.hub.boot = some up ∧ t.mem = s.mem ∧
      ∀ e ∈ t.agenda, fromOutside e.2 = true) ∧
  (∀ (s : State) (up : Bringup),
    (s.hub.removed = true → exec (.warmReset up) s = .next s) ∧
    (s.hub.removed = false → ∃ t, exec (.warmReset up) s = .next t ∧ t.tick = s.tick ∧ t.mem = [] ∧ t.launches = [] ∧ t.dir = [] ∧
      t.caps = [] ∧ t.budgets = [] ∧ t.squeues = [] ∧ t.chans = [] ∧ t.hub.running = s.hub.running ∧ t.hub.sram = s.hub.sram ∧
      (∀ k, t.core k = (bringUp s State.reset up).core k) ∧ (∀ p, t.part p = (bringUp s State.reset up).part p) ∧
      ∀ d, d < 4 → (t.die d).frozen = (s.die d).frozen ∧ (t.die d).key = (s.die d).key + 1 ∧ (t.die d).walk = [] ∧
        (0 < d → (t.die d).ring = (s.die d).ring ∧ (t.die d).next = (s.die d).next ∧ (t.die d).events = (s.die d).events))) ∧
  ∀ (s : State) (i : Nat) (good : Bool),
    (∃ t, exec (.firmwareUpdate i good) s = .next t ∧ t.hub.flash = (if good then some i else none) ∧ t.hub.running = s.hub.running ∧ t.mem = s.mem ∧ t.cores = s.cores) ∧
    (good = false ∨ s.hub.boot = none → ∃ t, exec (.recoveryLoad i good) s = .next t ∧ t.hub.sram = (if good then some i else none) ∧ t.hub.flash = s.hub.flash ∧
      t.hub.running = s.hub.running ∧ t.mem = s.mem ∧ t.cores = s.cores) ∧
    ∀ up, good = true → s.hub.boot = some up → exec (.recoveryLoad i good) s = .next (coldStart (s.modHub fun h => { h with sram := some i }) i [3, 2] up)

/-- R343, R348 to R354, R358 to R360, R364, R365, R376, R377, R383, R391, R393, R430, R236: units that send a request to a slice or a message
context leave and await their reply, and the events that serve requests, jobs, streams and records take place, in every state that meets the
conditions written here on the state and the operands. The model's choice: the events of a copy job [log 25], of a strip [log 32] and of a
release at scope pod [log 41] are cut as those logs say. -/
def Obligations.RequestsComplete : Prop :=
  (∀ (d s1 s2 : GReg) (s : State), Quiet s → Plain s s1 → Plain s s2 → Plain s d → let k := s.cur.1; let x := s.cur.2
    let q := (s.g s1).toNat; let v := s.g s2; let n := (s.squeue q).entry
    q < 4096 → s.partOfDie (q / 1024) = s.partOf k →
    (v.toNat < 2 ^ 9 → v.toNat / 16 % 8 ≤ 4 → v.toNat % 16 ≤ 11 → 2 ^ (v.toNat % 16) * (8 * 2 ^ (v.toNat / 16 % 8)) ≤ 16384 →
      ∃ t, exec (.qinit d s1 s2) s = .next t ∧ Sent s t (.queue (.qinit v) q d) (queueLatency k q) (.sliceQueueOp (cid k) (xid x))) ∧
    (Timely s → n = 8 →
      (∃ t, exec (.enq d s1 s2) s = .next t ∧ Sent s t (.queue (.enq (toBytes 8 v.toNat)) q d) (queueLatency k q) (.sliceQueueOp (cid k) (xid x))) ∧
      ∃ t, exec (.deq d s1) s = .next t ∧ Sent s t (.queue (.deq none false) q d) (queueLatency k q) (.sliceQueueOp (cid k) (xid x))) ∧
    ∀ off, Timely s → Own s v off → v.toNat % 8 = 0 → off + n ≤ s.mine.S →
      (LoadFree s off n → ∃ t, exec (.enqB d s1 s2) s = .next t ∧
        Sent s t (.queue (.enq (memBytes s.mine.store off n)) q d) (queueLatency k q) (.sliceQueueOp (cid k) (xid x))) ∧
      (∃ t, exec (.deqB d s1 s2) s = .next t ∧ Sent s t (.queue (.deq (some off) false) q d) (queueLatency k q) (.sliceQueueOp (cid k) (xid x))) ∧
      ∃ t, exec (.deqPoll d s1 s2) s = .next t ∧ Sent s t (.queue (.deq (some off) true) q d) (queueLatency k q) (.sliceQueueOp (cid k) (xid x))) ∧
  (∀ (d s1 s2 : GReg) (n : BitVec 5) (s : State), Quiet s → Timely s → Plain s s1 → Plain s d → (∀ i, i < n.toNat → Plain s (s2 + BitVec.ofNat 5 i)) →
    let k := s.cur.1; let h := s.g s1; let me := contextId s k s.cur.2
    let p := (List.range n.toNat).map fun i => s.g (s2 + BitVec.ofNat 5 i)
    (let dest := h.toNat / 16 % 4096; let m : MessageData := ⟨me, h.extractLsb' 0 4, .send, p⟩
      h.toNat < 2 ^ 23 → h.toNat / 2 ^ 16 = s.pkg → s.mates k dest = true →
        ∃ t, exec (.send d s1 s2 n) s = .next t ∧ Sent s t (.send s.pkg dest m d) (latency s k dest) (.messageArrival (cid dest) m)) ∧
    ∀ c, s.me.mailbox = some c → 11 ≤ s.cur.2 → s.cur.2 ≤ 14 → h.toNat < 16 → (originCore c.origin).1 = s.pkg → let dest := (originCore c.origin).2
      s.mates k dest = true →
        (let m : MessageData := ⟨me, h.extractLsb' 0 4, .rep, p⟩
          ∃ t, exec (.sendRep d s1 s2 n) s = .next t ∧ Sent s t (.send s.pkg dest m d) (latency s k dest) (.messageArrival (cid dest) m)) ∧
        let m : MessageData := ⟨me, h.extractLsb' 0 4, .ref, c.payload⟩
        ∃ t, exec (.sendRef d s1) s = .next t ∧ Sent s t (.send s.pkg dest m d) (latency s k dest) (.messageArrival (cid dest) m)) ∧
  (∀ (s : State) (c : CoreId) (x : CtxId) (op : SyncOp) (sc : Scope) (home n : Nat) (d : GReg), let k := c.toNat; let y := x.toNat
    (s.ctx k y).life = .blocked .reply → (s.ctx k y).req = some (.sync op sc s.pkg home n d) → syncAway s k home sc = false → (s.core home).wake = [] →
    (s.lowerDue 0 (contextId s k y).toNat (syncRequester s home n true) = false → let b := (s.core home).barrier n
      (∀ e, op = .binit e → b.arrived = 0#32 → b.pending = 0#24 → ∃ t, exec (.barrierArrival c x) s = .next t ∧ Answered s t k y sc d 1#64 ∧
        (t.core home).barrier n = { b with scope := scopeCode sc, expected := BitVec.ofNat 32 e }) ∧
      (∀ m b', op = .barv m true → b.scope = scopeCode sc → b.scope ≠ 0#3 → b.arrived ≠ b.expected → b.count m true = some b' →
        ∃ t, exec (.barrierArrival c x) s = .next t ∧ Answered s t k y sc d (b.phase.setWidth 64) ∧ (t.core home).barrier n = b') ∧
      (∀ w, op = .bwait w → b.scope = scopeCode sc → b.scope ≠ 0#3 → phaseDone b.phase w = true →
        ∃ t, exec (.barrierArrival c x) s = .next t ∧ Answered s t k y sc d (b.phase.setWidth 64)) ∧
      ∀ w, op = .btest w → b.scope = scopeCode sc → b.scope ≠ 0#3 →
        ∃ t, exec (.barrierArrival c x) s = .next t ∧ Answered s t k y sc d (if b.phase.getLsbD 0 = w then 0#64 else 1#64)) ∧
    (s.lowerDue 0 (contextId s k y).toNat (syncRequester s home n false) = false → let v := (s.core home).sem n
      (∀ set w, op = .semi set w → ∃ t, exec (.semaphoreAtHome c x) s = .next t ∧ Answered s t k y sc d (v.setWidth 64) ∧
        (t.core home).sem n = if set then w else v + w) ∧
      ∀ dec w, op = .semw dec w → w ≤ v → ∃ t, exec (.semaphoreAtHome c x) s = .next t ∧ Answered s t k y sc d (v.setWidth 64) ∧
        (t.core home).sem n = if dec then v - w else v)) ∧
  (∀ (s : State) (c : CoreId) (x : CtxId) (op : QueueOp) (q : Nat) (d : GReg), let k := c.toNat; let y := x.toNat; let b := s.squeue q
    let answers := fun (t : State) => (∃ w p, (t.ctx k y).req = some (.answer d w p)) ∧ (2 * (s.tick + queueLatency k q), .sliceQueueOp c x) ∈ t.agenda ∧ t.mem = s.mem
    (s.ctx k y).life = .blocked .reply → (s.ctx k y).req = some (.queue op q d) → (k, y) ∉ b.waiters → s.lowerDue k y (queueRequester s q) = false →
    (∀ w, op = .qinit w → b.items = [] → b.waiters = [] → ∃ t, exec (.sliceQueueOp c x) s = .next t ∧ answers t ∧
      t.squeue q = { en := w.getLsbD 8, host := w.getLsbD 7, z := w.extractLsb' 4 3, c := w.extractLsb' 0 4, items := [], waiters := [] }) ∧
    (∀ e, op = .enq e → b.en = true → e.length = b.entry → deviceHeld s q = false → b.waiters = [] → b.items.length < b.capacity →
      ∃ t, exec (.sliceQueueOp c x) s = .next t ∧ answers t ∧ t.squeue q = { b with items := b.items ++ [e] }) ∧
    ∀ buf poll e rest, op = .deq buf poll → b.en = true → b.host = false → b.items = e :: rest → bufferHeld s k y buf e.length = false →
      ∃ t, exec (.sliceQueueOp c x) s = .next t ∧ answers t ∧ t.squeue q = { b with items := rest }) ∧
  (∀ (s : State) (c : CoreId) (x : CtxId) (d : GReg) (w : Word) (p : Bool), let k := c.toNat; let y := x.toNat
    (s.ctx k y).life = .blocked .reply → (s.ctx k y).req = some (.answer d w p) → Plain { s with cur := (k, y) } d →
    (∃ t, exec (.sliceQueueOp c x) s = .next t ∧ Retires s t k y) ∧ ∃ t, exec (.syncWaiterAnswer c x none) s = .next t ∧ Retires s t k y) ∧
  (∀ (s : State) (dest : CoreId) (m : MessageData), let n := dest.toNat; let t := (s.core n).classes s.tick; let h := classCtx t m.cls.toNat
    let o := originCore m.origin
    s.lowerDue 0 m.origin.toNat (sameMailbox s n m) = false → messageVerdict s n m = .accepted → depositsHeld s n m = (false, false) →
    ∃ u, exec (.messageArrival dest m) s = .next u ∧ (u.ctx n h).mailbox = some m ∧ (u.ctx n h).life = .ready ∧ (u.ctx n h).readyAt = s.tick + 1 ∧
      (u.ctx n h).pc = classE t m.cls.toNat ∧ (u.core n).store =
        memPut (s.core n).store (classWs t m.cls.toNat + 56) ((messageWord m :: m.payload).flatMap fun w => toBytes 8 w.toNat) ∧
      (o.1 = s.pkg → (2 * (s.tick + latency s n o.2), .sendReply (cid o.2) (xid (m.origin.extractLsb' 0 4).toNat) (.own .accepted)) ∈ u.agenda)) ∧
  (∀ (s : State) (c : CoreId) (x : CtxId) (dest : Nat) (m : MessageData) (d : GReg) (r : SendReply), let k := c.toNat; let y := x.toNat
    (s.ctx k y).life = .blocked .reply → (s.ctx k y).req = some (.send s.pkg dest m d) → Plain { s with cur := (k, y) } d → r = .accepted ∨ r = .refused →
    ∃ t, exec (.sendReply c x (.own r)) s = .next t ∧ Retires s t k y) ∧
  (∀ (s : State) (ch : ChanId) (id : BitVec 48) (j : Job), s.job ch.toNat id = some j → j.signal.1 ≠ 2 → let again := fun (t : State) (i : Instr) =>
      (2 * (s.tick + 1), i) ∈ t.agenda
    (∀ c es pos l, j.kind = .cpy c → j.code = 0 → jobWaits s j = false → c.readyGranule j = none → j.pos < boxSize c.dims → j.cancelled = false →
      jobPauses s j = false → chunkOf c (boxSize c.dims) 4096 ((4096 - j.seg) / c.elem) none j.pos = (es, pos) →
      (chunkBytes s (.granuleRead ch id) j c es).1 = .ok l →
      ∃ t u, exec (.granuleRead ch id) s = .next t ∧ t.job ch.toNat id = some u ∧ u.pos = pos ∧ u.buf = j.buf ++ l ∧ t.mem = s.mem ∧ again t (.granuleRead ch id)) ∧
    (∀ c g, j.kind = .cpy c → c.readyGranule j = some g → let bs := j.buf.filter fun b => b.1.toNat / 64 == g
      (if c.dls then (engineDeposit s j bs).1 else
        (engineWrite s (.granuleWrite ch id) j.core j.cls j.launch j.root (j.launch.getD 0, j.lane, j.det) bs).1) = .ok () →
      ∃ t u, exec (.granuleWrite ch id) s = .next t ∧ t.job ch.toNat id = some u ∧ (u.buf = j.buf.filter fun b => b.1.toNat / 64 != g) ∧
        again t (.granuleRead ch id)) ∧
    (∀ sc ws idx i tag l owner, j.kind = .rows sc ws idx → j.code = 0 → jobWaits s j = false → j.cancelled = false → jobPauses s j = false →
      let x := fun (n : Nat) => (ws.getD n 0#64).toNat
      let row := 8 * (x 2 / 2 ^ 18 % 2 ^ 9 + 1)
      let mine := x 1 % 2 ^ 18 + j.pos * row
      let p := x 3 / 2 ^ 16 % 2 ^ 12 + 1
      let off := x 2 % 2 ^ 18 + i / p * row
      idx[j.pos]? = some i → i < x 2 / 2 ^ 32 → j.launch = some tag → s.launch tag = some l → l.cores[x 3 % 2 ^ 12 + i % p]? = some owner →
      s.savedAt j.launch owner = false → s.away j.launch owner = false → off + row ≤ (s.core owner).S →
      let from_ := if sc then (j.core, mine) else (owner, off)
      let to_ := if sc then (owner, off) else (j.core, mine)
      engineHeld s from_.1 [(from_.2, row)] [] = false → engineHeld s to_.1 [] [(to_.2, row)] = false →
      ∃ t u, exec (.gathScatRow ch id) s = .next t ∧ t.job ch.toNat id = some u ∧ u.pos = j.pos + 1 ∧
        (t.core to_.1).store = memPut (s.core to_.1).store to_.2 (memBytes (s.core from_.1).store from_.2 row) ∧ again t (.gathScatRow ch id)) ∧
    (j.code = 0 → j.owed = 0 → j.signal.1 ≠ 1 → ∃ t, exec (.jobEnd ch (.own id)) s = .next t ∧ t.job ch.toNat id = none ∧ t.mem = s.mem ∧ t.cores = s.cores)) ∧
  (∀ (s : State) (c : CoreId) (x : CtxId) (r : VReg) (m : Stream), let k := c.toNat; let y := x.toNat; let n := r.toNat
    tabFind (s.ctx k y).streams n = some m →
    (∀ ea len rest b, m.out = false → m.next < m.total → m.buf.length + (s.ctx k y).stripsHeld n < Config.streamDepth →
      granulesLeft (m.addr m.next) m.part.length = (ea, len) :: rest → (readGranule s (.streamStripFill c x r) k m ea len).1 = .ok b →
      ∃ t, exec (.streamStripFill c x r) s = .next t ∧ tabFind (t.ctx k y).streams n = some { m with part := m.part ++ b, hostWait := none, hostData := [] }) ∧
    (m.out = false → m.next < m.total → m.buf.length + (s.ctx k y).stripsHeld n < Config.streamDepth → granulesLeft (m.addr m.next) m.part.length = [] →
      ∃ t, exec (.streamStripFill c x r) s = .next t ∧ tabFind (t.ctx k y).streams n =
        some (m.filled { index := m.next, data := BitVec.ofNat 2048 (ofBytes m.part), pred := BitVec.allOnes 256 })) ∧
    ∀ p rest, m.out = true → m.buf = p :: rest →
      (stripGranule m p = none → ∃ t, exec (.streamStripWrite c x r) s = .next t ∧ tabFind (t.ctx k y).streams n = some { m with buf := rest }) ∧
      ∀ bs first len, stripGranule m p = some (bs, first, len) → s.meterOut k 2 = false →
        (writeGranule s (.streamStripWrite c x r) k m bs).1 = .ok () →
        ∃ t, exec (.streamStripWrite c x r) s = .next t ∧ tabFind (t.ctx k y).streams n = some { m with buf := p.written first len :: rest }) ∧
  (∀ (s : State) (c : CoreId) (w : WaitingRecord), let k := c.toNat; let o := s.core k
    o.trapWait = [w] → w.job = none → s.ended k = false → freeRecords o.trapq < 17 → o.svent.extractLsb' 1 55 ≠ 0#55 →
    ∃ t, exec (.trapRecordEnqueue c) s = .next t ∧ (t.core k).trapWait = [] ∧ (t.core k).trapq.length = o.trapq.length + 1 ∧
      (t.core k).trapSeq = o.trapSeq + 1 ∧ (2 * s.tick, .supervisorWake c) ∈ t.agenda) ∧
  ∀ (s : State) (c : CoreId) (x : CtxId) (v : BitVec 64) (pa : BitVec 52), (s.ctx c.toNat x.toNat).life = .blocked (.hostLoad pa.toNat) →
    ∃ t, exec (.hostLoadReply (.ctx c x) pa v) s = .next t ∧ (t.ctx c.toNat x.toNat).life = .ready ∧ (t.ctx c.toNat x.toNat).readyAt = s.tick + 1 ∧
      (t.ctx c.toNat x.toNat).hostReplies = (s.ctx c.toNat x.toNat).hostReplies ++ [(pa.toNat, v)]
end

