-- ==== Sys2Proof/Laws/State.lean ====
section
/-! SUPPORT. What each named update of the state does to each of its fields: one lemma per update and field. -/

namespace Sys2Proof.Laws
open Sys2Proof.Machine
/-! ### setCore -/
@[simp] theorem setCore_tick (s : State) (k : Nat) (c : Core) : (s.setCore k c).tick = s.tick := rfl
@[simp] theorem setCore_turn (s : State) (k : Nat) (c : Core) : (s.setCore k c).turn = s.turn := rfl
@[simp] theorem setCore_cur (s : State) (k : Nat) (c : Core) : (s.setCore k c).cur = s.cur := rfl
@[simp] theorem setCore_agenda (s : State) (k : Nat) (c : Core) : (s.setCore k c).agenda = s.agenda := rfl
@[simp] theorem setCore_held (s : State) (k : Nat) (c : Core) : (s.setCore k c).held = s.held := rfl
@[simp] theorem setCore_freeCount (s : State) (k : Nat) (c : Core) : (s.setCore k c).freeCount = s.freeCount := rfl
@[simp] theorem setCore_mem (s : State) (k : Nat) (c : Core) : (s.setCore k c).mem = s.mem := rfl
@[simp] theorem setCore_cores (s : State) (k : Nat) (c : Core) : (s.setCore k c).cores = tabSet s.cores k c := rfl
@[simp] theorem setCore_quads (s : State) (k : Nat) (c : Core) : (s.setCore k c).quads = s.quads := rfl
@[simp] theorem setCore_groups (s : State) (k : Nat) (c : Core) : (s.setCore k c).groups = s.groups := rfl
@[simp] theorem setCore_dies (s : State) (k : Nat) (c : Core) : (s.setCore k c).dies = s.dies := rfl
@[simp] theorem setCore_squeues (s : State) (k : Nat) (c : Core) : (s.setCore k c).squeues = s.squeues := rfl
@[simp] theorem setCore_chans (s : State) (k : Nat) (c : Core) : (s.setCore k c).chans = s.chans := rfl
@[simp] theorem setCore_dir (s : State) (k : Nat) (c : Core) : (s.setCore k c).dir = s.dir := rfl
@[simp] theorem setCore_caps (s : State) (k : Nat) (c : Core) : (s.setCore k c).caps = s.caps := rfl
@[simp] theorem setCore_launches (s : State) (k : Nat) (c : Core) : (s.setCore k c).launches = s.launches := rfl
@[simp] theorem setCore_budgets (s : State) (k : Nat) (c : Core) : (s.setCore k c).budgets = s.budgets := rfl
@[simp] theorem setCore_hub (s : State) (k : Nat) (c : Core) : (s.setCore k c).hub = s.hub := rfl
@[simp] theorem setCore_out (s : State) (k : Nat) (c : Core) : (s.setCore k c).out = s.out := rfl
/-! ### modCore -/
@[simp] theorem modCore_tick (s : State) (k : Nat) (f : Core → Core) : (s.modCore k f).tick = s.tick := rfl
@[simp] theorem modCore_turn (s : State) (k : Nat) (f : Core → Core) : (s.modCore k f).turn = s.turn := rfl
@[simp] theorem modCore_cur (s : State) (k : Nat) (f : Core → Core) : (s.modCore k f).cur = s.cur := rfl
@[simp] theorem modCore_agenda (s : State) (k : Nat) (f : Core → Core) : (s.modCore k f).agenda = s.agenda := rfl
@[simp] theorem modCore_held (s : State) (k : Nat) (f : Core → Core) : (s.modCore k f).held = s.held := rfl
@[simp] theorem modCore_freeCount (s : State) (k : Nat) (f : Core → Core) : (s.modCore k f).freeCount = s.freeCount := rfl
@[simp] theorem modCore_mem (s : State) (k : Nat) (f : Core → Core) : (s.modCore k f).mem = s.mem := rfl
@[simp] theorem modCore_cores (s : State) (k : Nat) (f : Core → Core) : (s.modCore k f).cores = tabSet s.cores k (f (s.core k)) := rfl
@[simp] theorem modCore_quads (s : State) (k : Nat) (f : Core → Core) : (s.modCore k f).quads = s.quads := rfl
@[simp] theorem modCore_groups (s : State) (k : Nat) (f : Core → Core) : (s.modCore k f).groups = s.groups := rfl
@[simp] theorem modCore_dies (s : State) (k : Nat) (f : Core → Core) : (s.modCore k f).dies = s.dies := rfl
@[simp] theorem modCore_squeues (s : State) (k : Nat) (f : Core → Core) : (s.modCore k f).squeues = s.squeues := rfl
@[simp] theorem modCore_chans (s : State) (k : Nat) (f : Core → Core) : (s.modCore k f).chans = s.chans := rfl
@[simp] theorem modCore_dir (s : State) (k : Nat) (f : Core → Core) : (s.modCore k f).dir = s.dir := rfl
@[simp] theorem modCore_caps (s : State) (k : Nat) (f : Core → Core) : (s.modCore k f).caps = s.caps := rfl
@[simp] theorem modCore_launches (s : State) (k : Nat) (f : Core → Core) : (s.modCore k f).launches = s.launches := rfl
@[simp] theorem modCore_budgets (s : State) (k : Nat) (f : Core → Core) : (s.modCore k f).budgets = s.budgets := rfl
@[simp] theorem modCore_hub (s : State) (k : Nat) (f : Core → Core) : (s.modCore k f).hub = s.hub := rfl
@[simp] theorem modCore_out (s : State) (k : Nat) (f : Core → Core) : (s.modCore k f).out = s.out := rfl
/-! ### setCtx -/
@[simp] theorem setCtx_tick (s : State) (k x : Nat) (v : Ctx) : (s.setCtx k x v).tick = s.tick := rfl
@[simp] theorem setCtx_turn (s : State) (k x : Nat) (v : Ctx) : (s.setCtx k x v).turn = s.turn := rfl
@[simp] theorem setCtx_cur (s : State) (k x : Nat) (v : Ctx) : (s.setCtx k x v).cur = s.cur := rfl
@[simp] theorem setCtx_agenda (s : State) (k x : Nat) (v : Ctx) : (s.setCtx k x v).agenda = s.agenda := rfl
@[simp] theorem setCtx_held (s : State) (k x : Nat) (v : Ctx) : (s.setCtx k x v).held = s.held := rfl
@[simp] theorem setCtx_freeCount (s : State) (k x : Nat) (v : Ctx) : (s.setCtx k x v).freeCount = s.freeCount := rfl
@[simp] theorem setCtx_mem (s : State) (k x : Nat) (v : Ctx) : (s.setCtx k x v).mem = s.mem := rfl
@[simp] theorem setCtx_cores (s : State) (k x : Nat) (v : Ctx) : (s.setCtx k x v).cores = tabSet s.cores k ((s.core k).setCtx x v) := rfl
@[simp] theorem setCtx_quads (s : State) (k x : Nat) (v : Ctx) : (s.setCtx k x v).quads = s.quads := rfl
@[simp] theorem setCtx_groups (s : State) (k x : Nat) (v : Ctx) : (s.setCtx k x v).groups = s.groups := rfl
@[simp] theorem setCtx_dies (s : State) (k x : Nat) (v : Ctx) : (s.setCtx k x v).dies = s.dies := rfl
@[simp] theorem setCtx_squeues (s : State) (k x : Nat) (v : Ctx) : (s.setCtx k x v).squeues = s.squeues := rfl
@[simp] theorem setCtx_chans (s : State) (k x : Nat) (v : Ctx) : (s.setCtx k x v).chans = s.chans := rfl
@[simp] theorem setCtx_dir (s : State) (k x : Nat) (v : Ctx) : (s.setCtx k x v).dir = s.dir := rfl
@[simp] theorem setCtx_caps (s : State) (k x : Nat) (v : Ctx) : (s.setCtx k x v).caps = s.caps := rfl
@[simp] theorem setCtx_launches (s : State) (k x : Nat) (v : Ctx) : (s.setCtx k x v).launches = s.launches := rfl
@[simp] theorem setCtx_budgets (s : State) (k x : Nat) (v : Ctx) : (s.setCtx k x v).budgets = s.budgets := rfl
@[simp] theorem setCtx_hub (s : State) (k x : Nat) (v : Ctx) : (s.setCtx k x v).hub = s.hub := rfl
@[simp] theorem setCtx_out (s : State) (k x : Nat) (v : Ctx) : (s.setCtx k x v).out = s.out := rfl
/-! ### modCtx -/
@[simp] theorem modCtx_tick (s : State) (k x : Nat) (f : Ctx → Ctx) : (s.modCtx k x f).tick = s.tick := rfl
@[simp] theorem modCtx_turn (s : State) (k x : Nat) (f : Ctx → Ctx) : (s.modCtx k x f).turn = s.turn := rfl
@[simp] theorem modCtx_cur (s : State) (k x : Nat) (f : Ctx → Ctx) : (s.modCtx k x f).cur = s.cur := rfl
@[simp] theorem modCtx_agenda (s : State) (k x : Nat) (f : Ctx → Ctx) : (s.modCtx k x f).agenda = s.agenda := rfl
@[simp] theorem modCtx_held (s : State) (k x : Nat) (f : Ctx → Ctx) : (s.modCtx k x f).held = s.held := rfl
@[simp] theorem modCtx_freeCount (s : State) (k x : Nat) (f : Ctx → Ctx) : (s.modCtx k x f).freeCount = s.freeCount := rfl
@[simp] theorem modCtx_mem (s : State) (k x : Nat) (f : Ctx → Ctx) : (s.modCtx k x f).mem = s.mem := rfl
@[simp] theorem modCtx_cores (s : State) (k x : Nat) (f : Ctx → Ctx) : (s.modCtx k x f).cores = tabSet s.cores k ((s.core k).setCtx x (f (s.ctx k x))) := rfl
@[simp] theorem modCtx_quads (s : State) (k x : Nat) (f : Ctx → Ctx) : (s.modCtx k x f).quads = s.quads := rfl
@[simp] theorem modCtx_groups (s : State) (k x : Nat) (f : Ctx → Ctx) : (s.modCtx k x f).groups = s.groups := rfl
@[simp] theorem modCtx_dies (s : State) (k x : Nat) (f : Ctx → Ctx) : (s.modCtx k x f).dies = s.dies := rfl
@[simp] theorem modCtx_squeues (s : State) (k x : Nat) (f : Ctx → Ctx) : (s.modCtx k x f).squeues = s.squeues := rfl
@[simp] theorem modCtx_chans (s : State) (k x : Nat) (f : Ctx → Ctx) : (s.modCtx k x f).chans = s.chans := rfl
@[simp] theorem modCtx_dir (s : State) (k x : Nat) (f : Ctx → Ctx) : (s.modCtx k x f).dir = s.dir := rfl
@[simp] theorem modCtx_caps (s : State) (k x : Nat) (f : Ctx → Ctx) : (s.modCtx k x f).caps = s.caps := rfl
@[simp] theorem modCtx_launches (s : State) (k x : Nat) (f : Ctx → Ctx) : (s.modCtx k x f).launches = s.launches := rfl
@[simp] theorem modCtx_budgets (s : State) (k x : Nat) (f : Ctx → Ctx) : (s.modCtx k x f).budgets = s.budgets := rfl
@[simp] theorem modCtx_hub (s : State) (k x : Nat) (f : Ctx → Ctx) : (s.modCtx k x f).hub = s.hub := rfl
@[simp] theorem modCtx_out (s : State) (k x : Nat) (f : Ctx → Ctx) : (s.modCtx k x f).out = s.out := rfl
/-! ### modQuad -/
@[simp] theorem modQuad_tick (s : State) (q : Nat) (f : Quad → Quad) : (s.modQuad q f).tick = s.tick := rfl
@[simp] theorem modQuad_turn (s : State) (q : Nat) (f : Quad → Quad) : (s.modQuad q f).turn = s.turn := rfl
@[simp] theorem modQuad_cur (s : State) (q : Nat) (f : Quad → Quad) : (s.modQuad q f).cur = s.cur := rfl
@[simp] theorem modQuad_agenda (s : State) (q : Nat) (f : Quad → Quad) : (s.modQuad q f).agenda = s.agenda := rfl
@[simp] theorem modQuad_held (s : State) (q : Nat) (f : Quad → Quad) : (s.modQuad q f).held = s.held := rfl
@[simp] theorem modQuad_freeCount (s : State) (q : Nat) (f : Quad → Quad) : (s.modQuad q f).freeCount = s.freeCount := rfl
@[simp] theorem modQuad_mem (s : State) (q : Nat) (f : Quad → Quad) : (s.modQuad q f).mem = s.mem := rfl
@[simp] theorem modQuad_cores (s : State) (q : Nat) (f : Quad → Quad) : (s.modQuad q f).cores = s.cores := rfl
@[simp] theorem modQuad_quads (s : State) (q : Nat) (f : Quad → Quad) : (s.modQuad q f).quads = tabSet s.quads q (f (s.quad q)) := rfl
@[simp] theorem modQuad_groups (s : State) (q : Nat) (f : Quad → Quad) : (s.modQuad q f).groups = s.groups := rfl
@[simp] theorem modQuad_dies (s : State) (q : Nat) (f : Quad → Quad) : (s.modQuad q f).dies = s.dies := rfl
@[simp] theorem modQuad_squeues (s : State) (q : Nat) (f : Quad → Quad) : (s.modQuad q f).squeues = s.squeues := rfl
@[simp] theorem modQuad_chans (s : State) (q : Nat) (f : Quad → Quad) : (s.modQuad q f).chans = s.chans := rfl
@[simp] theorem modQuad_dir (s : State) (q : Nat) (f : Quad → Quad) : (s.modQuad q f).dir = s.dir := rfl
@[simp] theorem modQuad_caps (s : State) (q : Nat) (f : Quad → Quad) : (s.modQuad q f).caps = s.caps := rfl
@[simp] theorem modQuad_launches (s : State) (q : Nat) (f : Quad → Quad) : (s.modQuad q f).launches = s.launches := rfl
@[simp] theorem modQuad_budgets (s : State) (q : Nat) (f : Quad → Quad) : (s.modQuad q f).budgets = s.budgets := rfl
@[simp] theorem modQuad_hub (s : State) (q : Nat) (f : Quad → Quad) : (s.modQuad q f).hub = s.hub := rfl
@[simp] theorem modQuad_out (s : State) (q : Nat) (f : Quad → Quad) : (s.modQuad q f).out = s.out := rfl
/-! ### modGroup -/
@[simp] theorem modGroup_tick (s : State) (g : Nat) (f : Group → Group) : (s.modGroup g f).tick = s.tick := rfl
@[simp] theorem modGroup_turn (s : State) (g : Nat) (f : Group → Group) : (s.modGroup g f).turn = s.turn := rfl
@[simp] theorem modGroup_cur (s : State) (g : Nat) (f : Group → Group) : (s.modGroup g f).cur = s.cur := rfl
@[simp] theorem modGroup_agenda (s : State) (g : Nat) (f : Group → Group) : (s.modGroup g f).agenda = s.agenda := rfl
@[simp] theorem modGroup_held (s : State) (g : Nat) (f : Group → Group) : (s.modGroup g f).held = s.held := rfl
@[simp] theorem modGroup_freeCount (s : State) (g : Nat) (f : Group → Group) : (s.modGroup g f).freeCount = s.freeCount := rfl
@[simp] theorem modGroup_mem (s : State) (g : Nat) (f : Group → Group) : (s.modGroup g f).mem = s.mem := rfl
@[simp] theorem modGroup_cores (s : State) (g : Nat) (f : Group → Group) : (s.modGroup g f).cores = s.cores := rfl
@[simp] theorem modGroup_quads (s : State) (g : Nat) (f : Group → Group) : (s.modGroup g f).quads = s.quads := rfl
@[simp] theorem modGroup_groups (s : State) (g : Nat) (f : Group → Group) : (s.modGroup g f).groups = tabSet s.groups g (f (s.group g)) := rfl
@[simp] theorem modGroup_dies (s : State) (g : Nat) (f : Group → Group) : (s.modGroup g f).dies = s.dies := rfl
@[simp] theorem modGroup_squeues (s : State) (g : Nat) (f : Group → Group) : (s.modGroup g f).squeues = s.squeues := rfl
@[simp] theorem modGroup_chans (s : State) (g : Nat) (f : Group → Group) : (s.modGroup g f).chans = s.chans := rfl
@[simp] theorem modGroup_dir (s : State) (g : Nat) (f : Group → Group) : (s.modGroup g f).dir = s.dir := rfl
@[simp] theorem modGroup_caps (s : State) (g : Nat) (f : Group → Group) : (s.modGroup g f).caps = s.caps := rfl
@[simp] theorem modGroup_launches (s : State) (g : Nat) (f : Group → Group) : (s.modGroup g f).launches = s.launches := rfl
@[simp] theorem modGroup_budgets (s : State) (g : Nat) (f : Group → Group) : (s.modGroup g f).budgets = s.budgets := rfl
@[simp] theorem modGroup_hub (s : State) (g : Nat) (f : Group → Group) : (s.modGroup g f).hub = s.hub := rfl
@[simp] theorem modGroup_out (s : State) (g : Nat) (f : Group → Group) : (s.modGroup g f).out = s.out := rfl
/-! ### modDie -/
@[simp] theorem modDie_tick (s : State) (d : Nat) (f : Die → Die) : (s.modDie d f).tick = s.tick := rfl
@[simp] theorem modDie_turn (s : State) (d : Nat) (f : Die → Die) : (s.modDie d f).turn = s.turn := rfl
@[simp] theorem modDie_cur (s : State) (d : Nat) (f : Die → Die) : (s.modDie d f).cur = s.cur := rfl
@[simp] theorem modDie_agenda (s : State) (d : Nat) (f : Die → Die) : (s.modDie d f).agenda = s.agenda := rfl
@[simp] theorem modDie_held (s : State) (d : Nat) (f : Die → Die) : (s.modDie d f).held = s.held := rfl
@[simp] theorem modDie_freeCount (s : State) (d : Nat) (f : Die → Die) : (s.modDie d f).freeCount = s.freeCount := rfl
@[simp] theorem modDie_mem (s : State) (d : Nat) (f : Die → Die) : (s.modDie d f).mem = s.mem := rfl
@[simp] theorem modDie_cores (s : State) (d : Nat) (f : Die → Die) : (s.modDie d f).cores = s.cores := rfl
@[simp] theorem modDie_quads (s : State) (d : Nat) (f : Die → Die) : (s.modDie d f).quads = s.quads := rfl
@[simp] theorem modDie_groups (s : State) (d : Nat) (f : Die → Die) : (s.modDie d f).groups = s.groups := rfl
@[simp] theorem modDie_dies (s : State) (d : Nat) (f : Die → Die) : (s.modDie d f).dies = tabSet s.dies d (f (s.die d)) := rfl
@[simp] theorem modDie_squeues (s : State) (d : Nat) (f : Die → Die) : (s.modDie d f).squeues = s.squeues := rfl
@[simp] theorem modDie_chans (s : State) (d : Nat) (f : Die → Die) : (s.modDie d f).chans = s.chans := rfl
@[simp] theorem modDie_dir (s : State) (d : Nat) (f : Die → Die) : (s.modDie d f).dir = s.dir := rfl
@[simp] theorem modDie_caps (s : State) (d : Nat) (f : Die → Die) : (s.modDie d f).caps = s.caps := rfl
@[simp] theorem modDie_launches (s : State) (d : Nat) (f : Die → Die) : (s.modDie d f).launches = s.launches := rfl
@[simp] theorem modDie_budgets (s : State) (d : Nat) (f : Die → Die) : (s.modDie d f).budgets = s.budgets := rfl
@[simp] theorem modDie_hub (s : State) (d : Nat) (f : Die → Die) : (s.modDie d f).hub = s.hub := rfl
@[simp] theorem modDie_out (s : State) (d : Nat) (f : Die → Die) : (s.modDie d f).out = s.out := rfl
/-! ### modSqueue -/
@[simp] theorem modSqueue_tick (s : State) (q : Nat) (f : SliceQueue → SliceQueue) : (s.modSqueue q f).tick = s.tick := rfl
@[simp] theorem modSqueue_turn (s : State) (q : Nat) (f : SliceQueue → SliceQueue) : (s.modSqueue q f).turn = s.turn := rfl
@[simp] theorem modSqueue_cur (s : State) (q : Nat) (f : SliceQueue → SliceQueue) : (s.modSqueue q f).cur = s.cur := rfl
@[simp] theorem modSqueue_agenda (s : State) (q : Nat) (f : SliceQueue → SliceQueue) : (s.modSqueue q f).agenda = s.agenda := rfl
@[simp] theorem modSqueue_held (s : State) (q : Nat) (f : SliceQueue → SliceQueue) : (s.modSqueue q f).held = s.held := rfl
@[simp] theorem modSqueue_freeCount (s : State) (q : Nat) (f : SliceQueue → SliceQueue) : (s.modSqueue q f).freeCount = s.freeCount := rfl
@[simp] theorem modSqueue_mem (s : State) (q : Nat) (f : SliceQueue → SliceQueue) : (s.modSqueue q f).mem = s.mem := rfl
@[simp] theorem modSqueue_cores (s : State) (q : Nat) (f : SliceQueue → SliceQueue) : (s.modSqueue q f).cores = s.cores := rfl
@[simp] theorem modSqueue_quads (s : State) (q : Nat) (f : SliceQueue → SliceQueue) : (s.modSqueue q f).quads = s.quads := rfl
@[simp] theorem modSqueue_groups (s : State) (q : Nat) (f : SliceQueue → SliceQueue) : (s.modSqueue q f).groups = s.groups := rfl
@[simp] theorem modSqueue_dies (s : State) (q : Nat) (f : SliceQueue → SliceQueue) : (s.modSqueue q f).dies = s.dies := rfl
@[simp] theorem modSqueue_squeues (s : State) (q : Nat) (f : SliceQueue → SliceQueue) : (s.modSqueue q f).squeues = tabSet s.squeues q (f (s.squeue q)) := rfl
@[simp] theorem modSqueue_chans (s : State) (q : Nat) (f : SliceQueue → SliceQueue) : (s.modSqueue q f).chans = s.chans := rfl
@[simp] theorem modSqueue_dir (s : State) (q : Nat) (f : SliceQueue → SliceQueue) : (s.modSqueue q f).dir = s.dir := rfl
@[simp] theorem modSqueue_caps (s : State) (q : Nat) (f : SliceQueue → SliceQueue) : (s.modSqueue q f).caps = s.caps := rfl
@[simp] theorem modSqueue_launches (s : State) (q : Nat) (f : SliceQueue → SliceQueue) : (s.modSqueue q f).launches = s.launches := rfl
@[simp] theorem modSqueue_budgets (s : State) (q : Nat) (f : SliceQueue → SliceQueue) : (s.modSqueue q f).budgets = s.budgets := rfl
@[simp] theorem modSqueue_hub (s : State) (q : Nat) (f : SliceQueue → SliceQueue) : (s.modSqueue q f).hub = s.hub := rfl
@[simp] theorem modSqueue_out (s : State) (q : Nat) (f : SliceQueue → SliceQueue) : (s.modSqueue q f).out = s.out := rfl
/-! ### modChan -/
@[simp] theorem modChan_tick (s : State) (c : Nat) (f : Channel → Channel) : (s.modChan c f).tick = s.tick := rfl
@[simp] theorem modChan_turn (s : State) (c : Nat) (f : Channel → Channel) : (s.modChan c f).turn = s.turn := rfl
@[simp] theorem modChan_cur (s : State) (c : Nat) (f : Channel → Channel) : (s.modChan c f).cur = s.cur := rfl
@[simp] theorem modChan_agenda (s : State) (c : Nat) (f : Channel → Channel) : (s.modChan c f).agenda = s.agenda := rfl
@[simp] theorem modChan_held (s : State) (c : Nat) (f : Channel → Channel) : (s.modChan c f).held = s.held := rfl
@[simp] theorem modChan_freeCount (s : State) (c : Nat) (f : Channel → Channel) : (s.modChan c f).freeCount = s.freeCount := rfl
@[simp] theorem modChan_mem (s : State) (c : Nat) (f : Channel → Channel) : (s.modChan c f).mem = s.mem := rfl
@[simp] theorem modChan_cores (s : State) (c : Nat) (f : Channel → Channel) : (s.modChan c f).cores = s.cores := rfl
@[simp] theorem modChan_quads (s : State) (c : Nat) (f : Channel → Channel) : (s.modChan c f).quads = s.quads := rfl
@[simp] theorem modChan_groups (s : State) (c : Nat) (f : Channel → Channel) : (s.modChan c f).groups = s.groups := rfl
@[simp] theorem modChan_dies (s : State) (c : Nat) (f : Channel → Channel) : (s.modChan c f).dies = s.dies := rfl
@[simp] theorem modChan_squeues (s : State) (c : Nat) (f : Channel → Channel) : (s.modChan c f).squeues = s.squeues := rfl
@[simp] theorem modChan_chans (s : State) (c : Nat) (f : Channel → Channel) : (s.modChan c f).chans = tabSet s.chans c (f (s.chan c)) := rfl
@[simp] theorem modChan_dir (s : State) (c : Nat) (f : Channel → Channel) : (s.modChan c f).dir = s.dir := rfl
@[simp] theorem modChan_caps (s : State) (c : Nat) (f : Channel → Channel) : (s.modChan c f).caps = s.caps := rfl
@[simp] theorem modChan_launches (s : State) (c : Nat) (f : Channel → Channel) : (s.modChan c f).launches = s.launches := rfl
@[simp] theorem modChan_budgets (s : State) (c : Nat) (f : Channel → Channel) : (s.modChan c f).budgets = s.budgets := rfl
@[simp] theorem modChan_hub (s : State) (c : Nat) (f : Channel → Channel) : (s.modChan c f).hub = s.hub := rfl
@[simp] theorem modChan_out (s : State) (c : Nat) (f : Channel → Channel) : (s.modChan c f).out = s.out := rfl
/-! ### modBudget -/
@[simp] theorem modBudget_tick (s : State) (k : Nat) (f : Budget → Budget) : (s.modBudget k f).tick = s.tick := rfl
@[simp] theorem modBudget_turn (s : State) (k : Nat) (f : Budget → Budget) : (s.modBudget k f).turn = s.turn := rfl
@[simp] theorem modBudget_cur (s : State) (k : Nat) (f : Budget → Budget) : (s.modBudget k f).cur = s.cur := rfl
@[simp] theorem modBudget_agenda (s : State) (k : Nat) (f : Budget → Budget) : (s.modBudget k f).agenda = s.agenda := rfl
@[simp] theorem modBudget_held (s : State) (k : Nat) (f : Budget → Budget) : (s.modBudget k f).held = s.held := rfl
@[simp] theorem modBudget_freeCount (s : State) (k : Nat) (f : Budget → Budget) : (s.modBudget k f).freeCount = s.freeCount := rfl
@[simp] theorem modBudget_mem (s : State) (k : Nat) (f : Budget → Budget) : (s.modBudget k f).mem = s.mem := rfl
@[simp] theorem modBudget_cores (s : State) (k : Nat) (f : Budget → Budget) : (s.modBudget k f).cores = s.cores := rfl
@[simp] theorem modBudget_quads (s : State) (k : Nat) (f : Budget → Budget) : (s.modBudget k f).quads = s.quads := rfl
@[simp] theorem modBudget_groups (s : State) (k : Nat) (f : Budget → Budget) : (s.modBudget k f).groups = s.groups := rfl
@[simp] theorem modBudget_dies (s : State) (k : Nat) (f : Budget → Budget) : (s.modBudget k f).dies = s.dies := rfl
@[simp] theorem modBudget_squeues (s : State) (k : Nat) (f : Budget → Budget) : (s.modBudget k f).squeues = s.squeues := rfl
@[simp] theorem modBudget_chans (s : State) (k : Nat) (f : Budget → Budget) : (s.modBudget k f).chans = s.chans := rfl
@[simp] theorem modBudget_dir (s : State) (k : Nat) (f : Budget → Budget) : (s.modBudget k f).dir = s.dir := rfl
@[simp] theorem modBudget_caps (s : State) (k : Nat) (f : Budget → Budget) : (s.modBudget k f).caps = s.caps := rfl
@[simp] theorem modBudget_launches (s : State) (k : Nat) (f : Budget → Budget) : (s.modBudget k f).launches = s.launches := rfl
@[simp] theorem modBudget_budgets (s : State) (k : Nat) (f : Budget → Budget) : (s.modBudget k f).budgets = tabSet s.budgets k (f (s.budget k)) := rfl
@[simp] theorem modBudget_hub (s : State) (k : Nat) (f : Budget → Budget) : (s.modBudget k f).hub = s.hub := rfl
@[simp] theorem modBudget_out (s : State) (k : Nat) (f : Budget → Budget) : (s.modBudget k f).out = s.out := rfl
/-! ### charge -/
@[simp] theorem charge_tick (s : State) (k m n : Nat) : (s.charge k m n).tick = s.tick := rfl
@[simp] theorem charge_turn (s : State) (k m n : Nat) : (s.charge k m n).turn = s.turn := rfl
@[simp] theorem charge_cur (s : State) (k m n : Nat) : (s.charge k m n).cur = s.cur := rfl
@[simp] theorem charge_agenda (s : State) (k m n : Nat) : (s.charge k m n).agenda = s.agenda := rfl
@[simp] theorem charge_held (s : State) (k m n : Nat) : (s.charge k m n).held = s.held := rfl
@[simp] theorem charge_freeCount (s : State) (k m n : Nat) : (s.charge k m n).freeCount = s.freeCount := rfl
@[simp] theorem charge_mem (s : State) (k m n : Nat) : (s.charge k m n).mem = s.mem := rfl
@[simp] theorem charge_cores (s : State) (k m n : Nat) : (s.charge k m n).cores = s.cores := rfl
@[simp] theorem charge_quads (s : State) (k m n : Nat) : (s.charge k m n).quads = s.quads := rfl
@[simp] theorem charge_groups (s : State) (k m n : Nat) : (s.charge k m n).groups = s.groups := rfl
@[simp] theorem charge_dies (s : State) (k m n : Nat) : (s.charge k m n).dies = s.dies := rfl
@[simp] theorem charge_squeues (s : State) (k m n : Nat) : (s.charge k m n).squeues = s.squeues := rfl
@[simp] theorem charge_chans (s : State) (k m n : Nat) : (s.charge k m n).chans = s.chans := rfl
@[simp] theorem charge_dir (s : State) (k m n : Nat) : (s.charge k m n).dir = s.dir := rfl
@[simp] theorem charge_caps (s : State) (k m n : Nat) : (s.charge k m n).caps = s.caps := rfl
@[simp] theorem charge_launches (s : State) (k m n : Nat) : (s.charge k m n).launches = s.launches := rfl
@[simp] theorem charge_budgets (s : State) (k m n : Nat) : (s.charge k m n).budgets = tabSet s.budgets k ((s.budget k).charge m n) := rfl
@[simp] theorem charge_hub (s : State) (k m n : Nat) : (s.charge k m n).hub = s.hub := rfl
@[simp] theorem charge_out (s : State) (k m n : Nat) : (s.charge k m n).out = s.out := rfl
/-! ### modHub -/
@[simp] theorem modHub_tick (s : State) (f : Hub → Hub) : (s.modHub f).tick = s.tick := rfl
@[simp] theorem modHub_turn (s : State) (f : Hub → Hub) : (s.modHub f).turn = s.turn := rfl
@[simp] theorem modHub_cur (s : State) (f : Hub → Hub) : (s.modHub f).cur = s.cur := rfl
@[simp] theorem modHub_agenda (s : State) (f : Hub → Hub) : (s.modHub f).agenda = s.agenda := rfl
@[simp] theorem modHub_held (s : State) (f : Hub → Hub) : (s.modHub f).held = s.held := rfl
@[simp] theorem modHub_freeCount (s : State) (f : Hub → Hub) : (s.modHub f).freeCount = s.freeCount := rfl
@[simp] theorem modHub_mem (s : State) (f : Hub → Hub) : (s.modHub f).mem = s.mem := rfl
@[simp] theorem modHub_cores (s : State) (f : Hub → Hub) : (s.modHub f).cores = s.cores := rfl
@[simp] theorem modHub_quads (s : State) (f : Hub → Hub) : (s.modHub f).quads = s.quads := rfl
@[simp] theorem modHub_groups (s : State) (f : Hub → Hub) : (s.modHub f).groups = s.groups := rfl
@[simp] theorem modHub_dies (s : State) (f : Hub → Hub) : (s.modHub f).dies = s.dies := rfl
@[simp] theorem modHub_squeues (s : State) (f : Hub → Hub) : (s.modHub f).squeues = s.squeues := rfl
@[simp] theorem modHub_chans (s : State) (f : Hub → Hub) : (s.modHub f).chans = s.chans := rfl
@[simp] theorem modHub_dir (s : State) (f : Hub → Hub) : (s.modHub f).dir = s.dir := rfl
@[simp] theorem modHub_caps (s : State) (f : Hub → Hub) : (s.modHub f).caps = s.caps := rfl
@[simp] theorem modHub_launches (s : State) (f : Hub → Hub) : (s.modHub f).launches = s.launches := rfl
@[simp] theorem modHub_budgets (s : State) (f : Hub → Hub) : (s.modHub f).budgets = s.budgets := rfl
@[simp] theorem modHub_hub (s : State) (f : Hub → Hub) : (s.modHub f).hub = f s.hub := rfl
@[simp] theorem modHub_out (s : State) (f : Hub → Hub) : (s.modHub f).out = s.out := rfl
/-! ### modPart -/
@[simp] theorem modPart_tick (s : State) (p : Nat) (f : Part → Part) : (s.modPart p f).tick = s.tick := rfl
@[simp] theorem modPart_turn (s : State) (p : Nat) (f : Part → Part) : (s.modPart p f).turn = s.turn := rfl
@[simp] theorem modPart_cur (s : State) (p : Nat) (f : Part → Part) : (s.modPart p f).cur = s.cur := rfl
@[simp] theorem modPart_agenda (s : State) (p : Nat) (f : Part → Part) : (s.modPart p f).agenda = s.agenda := rfl
@[simp] theorem modPart_held (s : State) (p : Nat) (f : Part → Part) : (s.modPart p f).held = s.held := rfl
@[simp] theorem modPart_freeCount (s : State) (p : Nat) (f : Part → Part) : (s.modPart p f).freeCount = s.freeCount := rfl
@[simp] theorem modPart_mem (s : State) (p : Nat) (f : Part → Part) : (s.modPart p f).mem = s.mem := rfl
@[simp] theorem modPart_cores (s : State) (p : Nat) (f : Part → Part) : (s.modPart p f).cores = s.cores := rfl
@[simp] theorem modPart_quads (s : State) (p : Nat) (f : Part → Part) : (s.modPart p f).quads = s.quads := rfl
@[simp] theorem modPart_groups (s : State) (p : Nat) (f : Part → Part) : (s.modPart p f).groups = s.groups := rfl
@[simp] theorem modPart_dies (s : State) (p : Nat) (f : Part → Part) : (s.modPart p f).dies = s.dies := rfl
@[simp] theorem modPart_squeues (s : State) (p : Nat) (f : Part → Part) : (s.modPart p f).squeues = s.squeues := rfl
@[simp] theorem modPart_chans (s : State) (p : Nat) (f : Part → Part) : (s.modPart p f).chans = s.chans := rfl
@[simp] theorem modPart_dir (s : State) (p : Nat) (f : Part → Part) : (s.modPart p f).dir = s.dir := rfl
@[simp] theorem modPart_caps (s : State) (p : Nat) (f : Part → Part) : (s.modPart p f).caps = s.caps := rfl
@[simp] theorem modPart_launches (s : State) (p : Nat) (f : Part → Part) : (s.modPart p f).launches = s.launches := rfl
@[simp] theorem modPart_budgets (s : State) (p : Nat) (f : Part → Part) : (s.modPart p f).budgets = s.budgets := rfl
@[simp] theorem modPart_hub (s : State) (p : Nat) (f : Part → Part) : (s.modPart p f).hub = { s.hub with parts := tabSet s.hub.parts p (f (s.part p)) } := rfl
@[simp] theorem modPart_out (s : State) (p : Nat) (f : Part → Part) : (s.modPart p f).out = s.out := rfl
/-! ### modVf -/
@[simp] theorem modVf_tick (s : State) (k : Nat) (f : Vf → Vf) : (s.modVf k f).tick = s.tick := rfl
@[simp] theorem modVf_turn (s : State) (k : Nat) (f : Vf → Vf) : (s.modVf k f).turn = s.turn := rfl
@[simp] theorem modVf_cur (s : State) (k : Nat) (f : Vf → Vf) : (s.modVf k f).cur = s.cur := rfl
@[simp] theorem modVf_agenda (s : State) (k : Nat) (f : Vf → Vf) : (s.modVf k f).agenda = s.agenda := rfl
@[simp] theorem modVf_held (s : State) (k : Nat) (f : Vf → Vf) : (s.modVf k f).held = s.held := rfl
@[simp] theorem modVf_freeCount (s : State) (k : Nat) (f : Vf → Vf) : (s.modVf k f).freeCount = s.freeCount := rfl
@[simp] theorem modVf_mem (s : State) (k : Nat) (f : Vf → Vf) : (s.modVf k f).mem = s.mem := rfl
@[simp] theorem modVf_cores (s : State) (k : Nat) (f : Vf → Vf) : (s.modVf k f).cores = s.cores := rfl
@[simp] theorem modVf_quads (s : State) (k : Nat) (f : Vf → Vf) : (s.modVf k f).quads = s.quads := rfl
@[simp] theorem modVf_groups (s : State) (k : Nat) (f : Vf → Vf) : (s.modVf k f).groups = s.groups := rfl
@[simp] theorem modVf_dies (s : State) (k : Nat) (f : Vf → Vf) : (s.modVf k f).dies = s.dies := rfl
@[simp] theorem modVf_squeues (s : State) (k : Nat) (f : Vf → Vf) : (s.modVf k f).squeues = s.squeues := rfl
@[simp] theorem modVf_chans (s : State) (k : Nat) (f : Vf → Vf) : (s.modVf k f).chans = s.chans := rfl
@[simp] theorem modVf_dir (s : State) (k : Nat) (f : Vf → Vf) : (s.modVf k f).dir = s.dir := rfl
@[simp] theorem modVf_caps (s : State) (k : Nat) (f : Vf → Vf) : (s.modVf k f).caps = s.caps := rfl
@[simp] theorem modVf_launches (s : State) (k : Nat) (f : Vf → Vf) : (s.modVf k f).launches = s.launches := rfl
@[simp] theorem modVf_budgets (s : State) (k : Nat) (f : Vf → Vf) : (s.modVf k f).budgets = s.budgets := rfl
@[simp] theorem modVf_hub (s : State) (k : Nat) (f : Vf → Vf) : (s.modVf k f).hub = { s.hub with vfs := tabSet s.hub.vfs k (f (s.vf k)) } := rfl
@[simp] theorem modVf_out (s : State) (k : Nat) (f : Vf → Vf) : (s.modVf k f).out = s.out := rfl
/-! ### post -/
@[simp] theorem post_tick (s : State) (n : Nat) (i : Instr) : (s.post n i).tick = s.tick := rfl
@[simp] theorem post_turn (s : State) (n : Nat) (i : Instr) : (s.post n i).turn = s.turn := rfl
@[simp] theorem post_cur (s : State) (n : Nat) (i : Instr) : (s.post n i).cur = s.cur := rfl
@[simp] theorem post_agenda (s : State) (n : Nat) (i : Instr) : (s.post n i).agenda = agendaAdd s.agenda (2 * (s.tick + n)) i := rfl
@[simp] theorem post_held (s : State) (n : Nat) (i : Instr) : (s.post n i).held = s.held := rfl
@[simp] theorem post_freeCount (s : State) (n : Nat) (i : Instr) : (s.post n i).freeCount = s.freeCount := rfl
@[simp] theorem post_mem (s : State) (n : Nat) (i : Instr) : (s.post n i).mem = s.mem := rfl
@[simp] theorem post_cores (s : State) (n : Nat) (i : Instr) : (s.post n i).cores = s.cores := rfl
@[simp] theorem post_quads (s : State) (n : Nat) (i : Instr) : (s.post n i).quads = s.quads := rfl
@[simp] theorem post_groups (s : State) (n : Nat) (i : Instr) : (s.post n i).groups = s.groups := rfl
@[simp] theorem post_dies (s : State) (n : Nat) (i : Instr) : (s.post n i).dies = s.dies := rfl
@[simp] theorem post_squeues (s : State) (n : Nat) (i : Instr) : (s.post n i).squeues = s.squeues := rfl
@[simp] theorem post_chans (s : State) (n : Nat) (i : Instr) : (s.post n i).chans = s.chans := rfl
@[simp] theorem post_dir (s : State) (n : Nat) (i : Instr) : (s.post n i).dir = s.dir := rfl
@[simp] theorem post_caps (s : State) (n : Nat) (i : Instr) : (s.post n i).caps = s.caps := rfl
@[simp] theorem post_launches (s : State) (n : Nat) (i : Instr) : (s.post n i).launches = s.launches := rfl
@[simp] theorem post_budgets (s : State) (n : Nat) (i : Instr) : (s.post n i).budgets = s.budgets := rfl
@[simp] theorem post_hub (s : State) (n : Nat) (i : Instr) : (s.post n i).hub = s.hub := rfl
@[simp] theorem post_out (s : State) (n : Nat) (i : Instr) : (s.post n i).out = s.out := rfl
/-! ### postPoll -/
@[simp] theorem postPoll_tick (s : State) (n : Nat) (i : Instr) : (s.postPoll n i).tick = s.tick := rfl
@[simp] theorem postPoll_turn (s : State) (n : Nat) (i : Instr) : (s.postPoll n i).turn = s.turn := rfl
@[simp] theorem postPoll_cur (s : State) (n : Nat) (i : Instr) : (s.postPoll n i).cur = s.cur := rfl
@[simp] theorem postPoll_agenda (s : State) (n : Nat) (i : Instr) : (s.postPoll n i).agenda = agendaAdd s.agenda (2 * (s.tick + n) + 1) i := rfl
@[simp] theorem postPoll_held (s : State) (n : Nat) (i : Instr) : (s.postPoll n i).held = s.held := rfl
@[simp] theorem postPoll_freeCount (s : State) (n : Nat) (i : Instr) : (s.postPoll n i).freeCount = s.freeCount := rfl
@[simp] theorem postPoll_mem (s : State) (n : Nat) (i : Instr) : (s.postPoll n i).mem = s.mem := rfl
@[simp] theorem postPoll_cores (s : State) (n : Nat) (i : Instr) : (s.postPoll n i).cores = s.cores := rfl
@[simp] theorem postPoll_quads (s : State) (n : Nat) (i : Instr) : (s.postPoll n i).quads = s.quads := rfl
@[simp] theorem postPoll_groups (s : State) (n : Nat) (i : Instr) : (s.postPoll n i).groups = s.groups := rfl
@[simp] theorem postPoll_dies (s : State) (n : Nat) (i : Instr) : (s.postPoll n i).dies = s.dies := rfl
@[simp] theorem postPoll_squeues (s : State) (n : Nat) (i : Instr) : (s.postPoll n i).squeues = s.squeues := rfl
@[simp] theorem postPoll_chans (s : State) (n : Nat) (i : Instr) : (s.postPoll n i).chans = s.chans := rfl
@[simp] theorem postPoll_dir (s : State) (n : Nat) (i : Instr) : (s.postPoll n i).dir = s.dir := rfl
@[simp] theorem postPoll_caps (s : State) (n : Nat) (i : Instr) : (s.postPoll n i).caps = s.caps := rfl
@[simp] theorem postPoll_launches (s : State) (n : Nat) (i : Instr) : (s.postPoll n i).launches = s.launches := rfl
@[simp] theorem postPoll_budgets (s : State) (n : Nat) (i : Instr) : (s.postPoll n i).budgets = s.budgets := rfl
@[simp] theorem postPoll_hub (s : State) (n : Nat) (i : Instr) : (s.postPoll n i).hub = s.hub := rfl
@[simp] theorem postPoll_out (s : State) (n : Nat) (i : Instr) : (s.postPoll n i).out = s.out := rfl
/-! ### ready -/
@[simp] theorem ready_tick (s : State) (k x : Nat) : (s.ready k x).tick = s.tick := rfl
@[simp] theorem ready_turn (s : State) (k x : Nat) : (s.ready k x).turn = s.turn := rfl
@[simp] theorem ready_cur (s : State) (k x : Nat) : (s.ready k x).cur = s.cur := rfl
@[simp] theorem ready_agenda (s : State) (k x : Nat) : (s.ready k x).agenda = s.agenda := rfl
@[simp] theorem ready_held (s : State) (k x : Nat) : (s.ready k x).held = s.held := rfl
@[simp] theorem ready_freeCount (s : State) (k x : Nat) : (s.ready k x).freeCount = s.freeCount := rfl
@[simp] theorem ready_mem (s : State) (k x : Nat) : (s.ready k x).mem = s.mem := rfl
@[simp] theorem ready_cores (s : State) (k x : Nat) : (s.ready k x).cores = tabSet s.cores k ((s.core k).setCtx x { s.ctx k x with life := .ready, readyAt := s.tick + 1 }) := rfl
@[simp] theorem ready_quads (s : State) (k x : Nat) : (s.ready k x).quads = s.quads := rfl
@[simp] theorem ready_groups (s : State) (k x : Nat) : (s.ready k x).groups = s.groups := rfl
@[simp] theorem ready_dies (s : State) (k x : Nat) : (s.ready k x).dies = s.dies := rfl
@[simp] theorem ready_squeues (s : State) (k x : Nat) : (s.ready k x).squeues = s.squeues := rfl
@[simp] theorem ready_chans (s : State) (k x : Nat) : (s.ready k x).chans = s.chans := rfl
@[simp] theorem ready_dir (s : State) (k x : Nat) : (s.ready k x).dir = s.dir := rfl
@[simp] theorem ready_caps (s : State) (k x : Nat) : (s.ready k x).caps = s.caps := rfl
@[simp] theorem ready_launches (s : State) (k x : Nat) : (s.ready k x).launches = s.launches := rfl
@[simp] theorem ready_budgets (s : State) (k x : Nat) : (s.ready k x).budgets = s.budgets := rfl
@[simp] theorem ready_hub (s : State) (k x : Nat) : (s.ready k x).hub = s.hub := rfl
@[simp] theorem ready_out (s : State) (k x : Nat) : (s.ready k x).out = s.out := rfl
/-! ### A context of a core -/
@[simp] theorem core_setCtx_ctxs (c : Core) (x : Nat) (v : Ctx) : (c.setCtx x v).ctxs = tabSet c.ctxs x v := rfl
@[simp] theorem core_setCtx_store (c : Core) (x : Nat) (v : Ctx) : (c.setCtx x v).store = c.store := rfl
@[simp] theorem core_setCtx_empty (c : Core) (x : Nat) (v : Ctx) : (c.setCtx x v).empty = c.empty := rfl
@[simp] theorem core_setCtx_csteps (c : Core) (x : Nat) (v : Ctx) : (c.setCtx x v).csteps = c.csteps := rfl
@[simp] theorem core_setCtx_q (c : Core) (x : Nat) (v : Ctx) : (c.setCtx x v).q = c.q := rfl
@[simp] theorem core_setCtx_last (c : Core) (x : Nat) (v : Ctx) : (c.setCtx x v).last = c.last := rfl
@[simp] theorem core_setCtx_t0 (c : Core) (x : Nat) (v : Ctx) : (c.setCtx x v).t0 = c.t0 := rfl
@[simp] theorem core_setCtx_det (c : Core) (x : Nat) (v : Ctx) : (c.setCtx x v).det = c.det := rfl
@[simp] theorem core_setCtx_launch (c : Core) (x : Nat) (v : Ctx) : (c.setCtx x v).launch = c.launch := rfl
@[simp] theorem core_setCtx_lane (c : Core) (x : Nat) (v : Ctx) : (c.setCtx x v).lane = c.lane := rfl
@[simp] theorem core_setCtx_startCount (c : Core) (x : Nat) (v : Ctx) : (c.setCtx x v).startCount = c.startCount := rfl
@[simp] theorem core_setCtx_phasePoint (c : Core) (x : Nat) (v : Ctx) : (c.setCtx x v).phasePoint = c.phasePoint := rfl
@[simp] theorem core_setCtx_xbloss (c : Core) (x : Nat) (v : Ctx) : (c.setCtx x v).xbloss = c.xbloss := rfl
@[simp] theorem core_setCtx_layout (c : Core) (x : Nat) (v : Ctx) : (c.setCtx x v).layout = c.layout := rfl
@[simp] theorem core_setCtx_parking (c : Core) (x : Nat) (v : Ctx) : (c.setCtx x v).parking = c.parking := rfl
@[simp] theorem core_setCtx_wrote (c : Core) (x : Nat) (v : Ctx) : (c.setCtx x v).wrote = c.wrote := rfl
@[simp] theorem core_setCtx_deposits (c : Core) (x : Nat) (v : Ctx) : (c.setCtx x v).deposits = c.deposits := rfl
@[simp] theorem core_setCtx_pkRefused (c : Core) (x : Nat) (v : Ctx) : (c.setCtx x v).pkRefused = c.pkRefused := rfl
@[simp] theorem core_setCtx_fmt (c : Core) (x : Nat) (v : Ctx) : (c.setCtx x v).fmt = c.fmt := rfl
@[simp] theorem core_setCtx_tables (c : Core) (x : Nat) (v : Ctx) : (c.setCtx x v).tables = c.tables := rfl
@[simp] theorem core_setCtx_dtenc (c : Core) (x : Nat) (v : Ctx) : (c.setCtx x v).dtenc = c.dtenc := rfl
@[simp] theorem core_setCtx_inuse (c : Core) (x : Nat) (v : Ctx) : (c.setCtx x v).inuse = c.inuse := rfl
@[simp] theorem core_setCtx_rows (c : Core) (x : Nat) (v : Ctx) : (c.setCtx x v).rows = c.rows := rfl
@[simp] theorem core_setCtx_cols (c : Core) (x : Nat) (v : Ctx) : (c.setCtx x v).cols = c.cols := rfl
@[simp] theorem core_setCtx_tiles (c : Core) (x : Nat) (v : Ctx) : (c.setCtx x v).tiles = c.tiles := rfl
@[simp] theorem core_setCtx_sctx (c : Core) (x : Nat) (v : Ctx) : (c.setCtx x v).sctx = c.sctx := rfl
@[simp] theorem core_setCtx_barriers (c : Core) (x : Nat) (v : Ctx) : (c.setCtx x v).barriers = c.barriers := rfl
@[simp] theorem core_setCtx_sems (c : Core) (x : Nat) (v : Ctx) : (c.setCtx x v).sems = c.sems := rfl
@[simp] theorem core_setCtx_wake (c : Core) (x : Nat) (v : Ctx) : (c.setCtx x v).wake = c.wake := rfl
@[simp] theorem core_setCtx_cls (c : Core) (x : Nat) (v : Ctx) : (c.setCtx x v).cls = c.cls := rfl
@[simp] theorem core_setCtx_clsBefore (c : Core) (x : Nat) (v : Ctx) : (c.setCtx x v).clsBefore = c.clsBefore := rfl
@[simp] theorem core_setCtx_msgRefused (c : Core) (x : Nat) (v : Ctx) : (c.setCtx x v).msgRefused = c.msgRefused := rfl
@[simp] theorem core_setCtx_vmroot (c : Core) (x : Nat) (v : Ctx) : (c.setCtx x v).vmroot = c.vmroot := rfl
@[simp] theorem core_setCtx_svent (c : Core) (x : Nat) (v : Ctx) : (c.setCtx x v).svent = c.svent := rfl
@[simp] theorem core_setCtx_svws (c : Core) (x : Nat) (v : Ctx) : (c.setCtx x v).svws = c.svws := rfl
@[simp] theorem core_setCtx_trapq (c : Core) (x : Nat) (v : Ctx) : (c.setCtx x v).trapq = c.trapq := rfl
@[simp] theorem core_setCtx_trapWait (c : Core) (x : Nat) (v : Ctx) : (c.setCtx x v).trapWait = c.trapWait := rfl
@[simp] theorem core_setCtx_trapSeq (c : Core) (x : Nat) (v : Ctx) : (c.setCtx x v).trapSeq = c.trapSeq := rfl
@[simp] theorem core_setCtx_trapNew (c : Core) (x : Nat) (v : Ctx) : (c.setCtx x v).trapNew = c.trapNew := rfl
@[simp] theorem core_setCtx_wakeAt (c : Core) (x : Nat) (v : Ctx) : (c.setCtx x v).wakeAt = c.wakeAt := rfl
@[simp] theorem core_setCtx_svIdle (c : Core) (x : Nat) (v : Ctx) : (c.setCtx x v).svIdle = c.svIdle := rfl
@[simp] theorem core_setCtx_tlb (c : Core) (x : Nat) (v : Ctx) : (c.setCtx x v).tlb = c.tlb := rfl
@[simp] theorem core_setCtx_halting (c : Core) (x : Nat) (v : Ctx) : (c.setCtx x v).halting = c.halting := rfl
@[simp] theorem core_setCtx_stopped (c : Core) (x : Nat) (v : Ctx) : (c.setCtx x v).stopped = c.stopped := rfl
@[simp] theorem core_setCtx_spare (c : Core) (x : Nat) (v : Ctx) : (c.setCtx x v).spare = c.spare := rfl
@[simp] theorem core_setCtx_checker (c : Core) (x : Nat) (v : Ctx) : (c.setCtx x v).checker = c.checker := rfl
@[simp] theorem core_setCtx_mismatch (c : Core) (x : Nat) (v : Ctx) : (c.setCtx x v).mismatch = c.mismatch := rfl
@[simp] theorem core_setCtx_gated (c : Core) (x : Nat) (v : Ctx) : (c.setCtx x v).gated = c.gated := rfl
@[simp] theorem core_setCtx_asleep (c : Core) (x : Nat) (v : Ctx) : (c.setCtx x v).asleep = c.asleep := rfl

end Sys2Proof.Laws
end

