-- ==== Sys2Proof/Laws/Tables.lean ====
section
/-! SUPPORT. Sparse tables: reading after writing and removing, canonical form, and the accessors of the state over them. -/

namespace Sys2Proof.Laws
open Sys2Proof.Machine

@[simp] theorem tabFind_nil {α : Type} (k : Nat) : tabFind ([] : Tab α) k = none := rfl

@[simp] theorem tabFind_tabSet_same {α : Type} (t : Tab α) (k : Nat) (v : α) : tabFind (tabSet t k v) k = some v := by
  induction t with
  | nil => simp [tabSet, tabFind]
  | cons c t ih =>
    obtain ⟨i, w⟩ := c
    unfold tabSet
    split
    · simp [tabFind]
    · split
      · simp [tabFind]
      · simp_all [tabFind]

theorem tabFind_tabSet_other {α : Type} (t : Tab α) {k j : Nat} (v : α) (h : j ≠ k) :
    tabFind (tabSet t k v) j = tabFind t j := by
  induction t with
  | nil => simp [tabSet, tabFind, h]
  | cons c t ih =>
    obtain ⟨i, w⟩ := c
    unfold tabSet
    split
    · subst i; simp [tabFind, h]
    · split
      · rename_i h1 h2
        simp only [tabFind, h, if_false]
        split
        · have : j ≠ i := by omega
          have : j < i := by omega
          simp [*]
        · rfl
      · simp only [tabFind, ih]

@[simp] theorem tabGet_tabSet_same {α : Type} (t : Tab α) (k : Nat) (v d : α) : tabGet (tabSet t k v) k d = v := by
  simp [tabGet]

theorem tabGet_tabSet_other {α : Type} (t : Tab α) {k j : Nat} (v d : α) (h : j ≠ k) :
    tabGet (tabSet t k v) j d = tabGet t j d := by
  simp [tabGet, tabFind_tabSet_other t v h]

/-! ### Canonical form -/

theorem keysFrom_weaken {α : Type} {t : Tab α} {a b : Option Nat} (h : keysFrom b t = true)
    (hab : ∀ x, a = some x → ∃ y, b = some y ∧ x ≤ y) : keysFrom a t = true := by
  cases t with
  | nil => rfl
  | cons c t =>
    cases a with
    | none => simp_all [keysFrom]
    | some x =>
      obtain ⟨y, rfl, hy⟩ := hab x rfl
      simp only [keysFrom, Bool.and_eq_true, decide_eq_true_eq] at h ⊢
      exact ⟨by omega, h.2⟩

theorem keysFrom_none {α : Type} {t : Tab α} {a : Option Nat} (h : keysFrom a t = true) : keysFrom none t = true :=
  keysFrom_weaken h (by simp)

theorem tabFind_below {α : Type} {t : Tab α} {b j : Nat} (h : keysFrom (some b) t = true) (hj : j ≤ b) : tabFind t j = none := by
  cases t with
  | nil => rfl
  | cons c t =>
    obtain ⟨i, w⟩ := c
    simp only [keysFrom, Bool.and_eq_true, decide_eq_true_eq] at h
    simp [tabFind, show j ≠ i by omega, show j < i by omega]

theorem keysFrom_tabSet {α : Type} {t : Tab α} {lo : Option Nat} {k : Nat} (v : α) (h : keysFrom lo t = true)
    (hk : ∀ b, lo = some b → b < k) : keysFrom lo (tabSet t k v) = true := by
  induction t generalizing lo with
  | nil =>
    cases lo with
    | none => rfl
    | some b => simp [tabSet, keysFrom, hk b rfl]
  | cons c t ih =>
    obtain ⟨i, w⟩ := c
    simp only [keysFrom, Bool.and_eq_true] at h
    unfold tabSet
    split
    · subst i; simp only [keysFrom, Bool.and_eq_true]; exact h
    · split
      · simp only [keysFrom, Bool.and_eq_true, decide_eq_true_eq]
        refine ⟨?_, by omega, h.2⟩
        cases lo with
        | none => rfl
        | some b => simp [hk b rfl]
      · simp only [keysFrom, Bool.and_eq_true]
        exact ⟨h.1, ih h.2 (by intro b hb; cases hb; omega)⟩

theorem tabWf_tabSet {α : Type} {t : Tab α} (k : Nat) (v : α) (h : tabWf t = true) : tabWf (tabSet t k v) = true :=
  keysFrom_tabSet v h (by simp)

theorem keysFrom_tabErase {α : Type} {t : Tab α} {lo : Option Nat} (k : Nat) (h : keysFrom lo t = true) :
    keysFrom lo (tabErase t k) = true := by
  induction t generalizing lo with
  | nil => exact h
  | cons c t ih =>
    obtain ⟨i, w⟩ := c
    have h' := h
    simp only [keysFrom, Bool.and_eq_true] at h
    unfold tabErase
    split
    · refine keysFrom_weaken h.2 ?_
      rintro x rfl
      exact ⟨i, rfl, by have := h.1; simp at this; omega⟩
    · split
      · exact h'
      · simp only [keysFrom, Bool.and_eq_true]
        exact ⟨h.1, ih h.2⟩

theorem tabWf_tabErase {α : Type} {t : Tab α} (k : Nat) (h : tabWf t = true) : tabWf (tabErase t k) = true :=
  keysFrom_tabErase k h

theorem tabFind_tabErase_same {α : Type} {t : Tab α} {lo : Option Nat} {k : Nat} (h : keysFrom lo t = true) :
    tabFind (tabErase t k) k = none := by
  induction t generalizing lo with
  | nil => rfl
  | cons c t ih =>
    obtain ⟨i, w⟩ := c
    simp only [keysFrom, Bool.and_eq_true] at h
    unfold tabErase
    split
    · subst i; exact tabFind_below h.2 (Nat.le_refl _)
    · split
      · simp [tabFind, *]
      · rename_i h1 h2
        simp only [tabFind, h1, h2, if_false]
        exact ih h.2

theorem tabFind_tabErase_other {α : Type} {t : Tab α} {lo : Option Nat} {k j : Nat} (h : keysFrom lo t = true) (hj : j ≠ k) :
    tabFind (tabErase t k) j = tabFind t j := by
  induction t generalizing lo with
  | nil => rfl
  | cons c t ih =>
    obtain ⟨i, w⟩ := c
    simp only [keysFrom, Bool.and_eq_true] at h
    unfold tabErase
    split
    · subst i
      by_cases hlt : j < k
      · simp [tabFind, hj, hlt, tabFind_below h.2 (Nat.le_of_lt hlt)]
      · simp [tabFind, hj, hlt]
    · split
      · rfl
      · simp only [tabFind, ih h.2]

theorem keysFrom_filter {α : Type} {t : Tab α} {lo : Option Nat} (p : Nat × α → Bool) (h : keysFrom lo t = true) :
    keysFrom lo (t.filter p) = true := by
  induction t generalizing lo with
  | nil => exact h
  | cons c t ih =>
    obtain ⟨i, w⟩ := c
    simp only [keysFrom, Bool.and_eq_true] at h
    by_cases hp : p (i, w) = true
    · simp only [List.filter_cons, hp, if_true, keysFrom, Bool.and_eq_true]
      exact ⟨h.1, ih h.2⟩
    · simp only [List.filter_cons, hp]
      refine ih (keysFrom_weaken h.2 ?_)
      rintro x rfl
      exact ⟨i, rfl, by have := h.1; simp at this; omega⟩

/-! ### The accessors of the state -/

@[simp] theorem core_setCore (s : State) (k : Nat) (c : Core) : (s.setCore k c).core k = c := by simp [State.core]

theorem core_setCore_other (s : State) {k j : Nat} (c : Core) (h : j ≠ k) : (s.setCore k c).core j = s.core j := by
  simp [State.core, tabGet_tabSet_other _ _ _ h]

@[simp] theorem core_modCore (s : State) (k : Nat) (f : Core → Core) : (s.modCore k f).core k = f (s.core k) := by
  simp [State.core]

theorem core_modCore_other (s : State) {k j : Nat} (f : Core → Core) (h : j ≠ k) : (s.modCore k f).core j = s.core j := by
  simp [State.core, tabGet_tabSet_other _ _ _ h]

@[simp] theorem core_ctx_setCtx (c : Core) (x : Nat) (v : Ctx) : (c.setCtx x v).ctx x = v := by simp [Core.ctx, Core.setCtx]

theorem core_ctx_setCtx_other (c : Core) {x y : Nat} (v : Ctx) (h : y ≠ x) : (c.setCtx x v).ctx y = c.ctx y := by
  simp [Core.ctx, Core.setCtx, tabGet_tabSet_other _ _ _ h]

@[simp] theorem core_setCtx (s : State) (k x : Nat) (v : Ctx) : (s.setCtx k x v).core k = (s.core k).setCtx x v := by
  simp [State.setCtx]

@[simp] theorem core_modCtx (s : State) (k x : Nat) (f : Ctx → Ctx) :
    (s.modCtx k x f).core k = (s.core k).setCtx x (f (s.ctx k x)) := by
  simp [State.modCtx]

theorem core_modCtx_other (s : State) {k j : Nat} (x : Nat) (f : Ctx → Ctx) (h : j ≠ k) : (s.modCtx k x f).core j = s.core j := by
  simp [State.modCtx, State.setCtx, core_modCore_other _ _ h]

@[simp] theorem ctx_setCtx (s : State) (k x : Nat) (v : Ctx) : (s.setCtx k x v).ctx k x = v := by simp [State.ctx]

@[simp] theorem ctx_modCtx (s : State) (k x : Nat) (f : Ctx → Ctx) : (s.modCtx k x f).ctx k x = f (s.ctx k x) := by
  simp [State.modCtx]

@[simp] theorem ctx_setCore (s : State) (k x : Nat) (c : Core) : (s.setCore k c).ctx k x = c.ctx x := by simp [State.ctx]

@[simp] theorem quad_modQuad (s : State) (q : Nat) (f : Quad → Quad) : (s.modQuad q f).quad q = f (s.quad q) := by
  simp [State.quad]

theorem quad_modQuad_other (s : State) {q r : Nat} (f : Quad → Quad) (h : r ≠ q) : (s.modQuad q f).quad r = s.quad r := by
  simp [State.quad, tabGet_tabSet_other _ _ _ h]

@[simp] theorem group_modGroup (s : State) (g : Nat) (f : Group → Group) : (s.modGroup g f).group g = f (s.group g) := by
  simp [State.group]

@[simp] theorem die_modDie (s : State) (d : Nat) (f : Die → Die) : (s.modDie d f).die d = f (s.die d) := by simp [State.die]

@[simp] theorem squeue_modSqueue (s : State) (q : Nat) (f : SliceQueue → SliceQueue) :
    (s.modSqueue q f).squeue q = f (s.squeue q) := by simp [State.squeue]

@[simp] theorem chan_modChan (s : State) (c : Nat) (f : Channel → Channel) : (s.modChan c f).chan c = f (s.chan c) := by
  simp [State.chan]

@[simp] theorem budget_modBudget (s : State) (k : Nat) (f : Budget → Budget) : (s.modBudget k f).budget k = f (s.budget k) := by
  simp [State.budget]

@[simp] theorem part_modPart (s : State) (p : Nat) (f : Part → Part) : (s.modPart p f).part p = f (s.part p) := by
  simp [State.part]

theorem part_modPart_other (s : State) {p q : Nat} (f : Part → Part) (h : q ≠ p) : (s.modPart p f).part q = s.part q := by
  simp [State.part, tabGet_tabSet_other _ _ _ h]

@[simp] theorem vf_modVf (s : State) (k : Nat) (f : Vf → Vf) : (s.modVf k f).vf k = f (s.vf k) := by simp [State.vf]

end Sys2Proof.Laws
end

