-- ==== Sys2Proof/Laws/Memory.lean ====
section
/-! SUPPORT. Byte memories: reading after writing, and that every operation keeps the canonical form. -/

namespace Sys2Proof.Laws
open Sys2Proof Sys2Proof.Machine

/-! ### Canonical form -/

theorem memWf_keys {m : List Host.Cell} (h : memWf m = true) : keysFrom none m = true := by
  simp only [memWf, Bool.and_eq_true] at h; exact h.1

theorem memWf_nil : memWf [] = true := rfl

theorem reset_mem_wf : Memory.wf State.reset.mem = true := rfl

theorem all_tabSet {m : List Host.Cell} {p : Host.Cell → Bool} (a : Nat) (b : Byte) (h : m.all p = true)
    (hb : p (a, b) = true) : List.all (tabSet m a b) p = true := by
  induction m with
  | nil => simp [tabSet, hb]
  | cons c t ih =>
    obtain ⟨i, w⟩ := c
    simp only [List.all_cons, Bool.and_eq_true] at h
    unfold tabSet
    split
    · simp [hb, h.2]
    · split
      · simp [hb, h.1, h.2]
      · simp [h.1, ih h.2]

theorem all_tabErase {m : List Host.Cell} {p : Host.Cell → Bool} (a : Nat) (h : m.all p = true) :
    List.all (tabErase m a) p = true := by
  induction m with
  | nil => exact h
  | cons c t ih =>
    obtain ⟨i, w⟩ := c
    have h' := h
    simp only [List.all_cons, Bool.and_eq_true] at h
    unfold tabErase
    split
    · exact h.2
    · split
      · exact h'
      · simp [h.1, ih h.2]

theorem memWf_memSet {m : List Host.Cell} (a : Nat) (b : Byte) (h : memWf m = true) : memWf (memSet m a b) = true := by
  simp only [memWf, Bool.and_eq_true] at h ⊢
  unfold memSet
  split
  · exact ⟨tabWf_tabErase a h.1, all_tabErase a h.2⟩
  · rename_i hb
    exact ⟨tabWf_tabSet a b h.1, all_tabSet a b h.2 (by simpa using hb)⟩

theorem memWf_memPut {m : List Host.Cell} (a : Nat) (bs : List Byte) (h : memWf m = true) : memWf (memPut m a bs) = true := by
  induction bs generalizing m a with
  | nil => exact h
  | cons b t ih => exact ih (a + 1) (memWf_memSet a b h)

theorem memWf_memWrite {m : List Host.Cell} (a n x : Nat) (h : memWf m = true) : memWf (memWrite m a n x) = true :=
  memWf_memPut a _ h

theorem memWf_filter {m : List Host.Cell} (p : Host.Cell → Bool) (h : memWf m = true) : memWf (m.filter p) = true := by
  simp only [memWf, Bool.and_eq_true] at h ⊢
  refine ⟨keysFrom_filter p h.1, ?_⟩
  have := h.2
  simp only [List.all_eq_true] at this ⊢
  intro c hc
  exact this c (List.mem_of_mem_filter hc)

theorem memWf_memClear {m : List Host.Cell} (a n : Nat) (h : memWf m = true) : memWf (memClear m a n) = true := memWf_filter _ h

theorem memWf_memSlice {m : List Host.Cell} (a n : Nat) (h : memWf m = true) : memWf (memSlice m a n) = true := memWf_filter _ h

theorem memWf_foldSet {β : Type} {m : List Host.Cell} (l : List β) (f : β → Nat × Byte) (h : memWf m = true) :
    memWf (l.foldl (fun m c => memSet m (f c).1 (f c).2) m) = true := by
  induction l generalizing m with
  | nil => exact h
  | cons c t ih => exact ih (memWf_memSet _ _ h)

theorem memWf_memPaste {m : List Host.Cell} (cells : List Host.Cell) (d b : Nat) (h : memWf m = true) :
    memWf (memPaste m cells d b) = true :=
  memWf_foldSet cells (fun c => (c.1 + d - b, c.2)) h

/-! ### Reading after writing -/

theorem memGet_memSet_same {m : List Host.Cell} (a : Nat) (b : Byte) (h : keysFrom none m = true) :
    memGet (memSet m a b) a = b := by
  unfold memSet memGet
  split
  · rename_i hb
    simp [tabGet, tabFind_tabErase_same h, hb]
  · simp

theorem memGet_memSet_other {m : List Host.Cell} {a c : Nat} (b : Byte) (h : keysFrom none m = true) (hc : c ≠ a) :
    memGet (memSet m a b) c = memGet m c := by
  unfold memSet memGet
  split
  · simp [tabGet, tabFind_tabErase_other h hc]
  · simp [tabGet_tabSet_other _ _ _ hc]

theorem memGet_memPut_outside {m : List Host.Cell} {a c : Nat} (bs : List Byte) (h : memWf m = true)
    (hc : c < a ∨ a + bs.length ≤ c) : memGet (memPut m a bs) c = memGet m c := by
  induction bs generalizing m a with
  | nil => rfl
  | cons b t ih =>
    simp only [List.length_cons] at hc
    rw [memPut, ih (memWf_memSet a b h) (by omega), memGet_memSet_other b (memWf_keys h) (by omega)]

theorem memGet_memPut_inside {m : List Host.Cell} {a i : Nat} (bs : List Byte) (h : memWf m = true) (hi : i < bs.length) :
    memGet (memPut m a bs) (a + i) = bs[i] := by
  induction bs generalizing m a i with
  | nil => simp at hi
  | cons b t ih =>
    rw [memPut]
    cases i with
    | zero => rw [memGet_memPut_outside t (memWf_memSet a b h) (by omega), Nat.add_zero, memGet_memSet_same a b (memWf_keys h)]; rfl
    | succ i =>
      simp only [List.length_cons] at hi
      have := ih (a := a + 1) (memWf_memSet a b h) (show i < t.length by omega)
      rw [show a + (i + 1) = a + 1 + i by omega, this]
      rfl

@[simp] theorem memBytes_length (m : List Host.Cell) (a n : Nat) : (memBytes m a n).length = n := by
  induction n generalizing a with
  | zero => rfl
  | succ n ih => simp [memBytes, ih]

theorem memBytes_get {m : List Host.Cell} {a n i : Nat} (h : i < (memBytes m a n).length) : (memBytes m a n)[i] = memGet m (a + i) := by
  induction n generalizing a i with
  | zero => simp at h
  | succ n ih =>
    cases i with
    | zero => rfl
    | succ i =>
      simp only [memBytes, List.getElem_cons_succ]
      rw [ih, show a + 1 + i = a + (i + 1) by omega]

theorem memBytes_congr {m m' : List Host.Cell} {a n : Nat} (h : ∀ c, a ≤ c → c < a + n → memGet m c = memGet m' c) :
    memBytes m a n = memBytes m' a n := by
  induction n generalizing a with
  | zero => rfl
  | succ n ih =>
    simp only [memBytes]
    rw [h a (Nat.le_refl _) (by omega), ih (fun c h1 h2 => h c (by omega) (by omega))]

theorem memBytes_memPut_same {m : List Host.Cell} (a : Nat) (bs : List Byte) (h : memWf m = true) :
    memBytes (memPut m a bs) a bs.length = bs := by
  apply List.ext_getElem (by simp)
  intro i h1 h2
  rw [memBytes_get, memGet_memPut_inside bs h h2]

theorem memBytes_memPut_other {m : List Host.Cell} {a c n : Nat} (bs : List Byte) (h : memWf m = true)
    (hc : c + n ≤ a ∨ a + bs.length ≤ c) : memBytes (memPut m a bs) c n = memBytes m c n :=
  memBytes_congr fun i h1 h2 => memGet_memPut_outside bs h (by omega)

@[simp] theorem toBytes_length (n x : Nat) : (toBytes n x).length = n := by
  induction n generalizing x with
  | zero => rfl
  | succ n ih => simp [toBytes, ih]

theorem ofBytes_toBytes (n x : Nat) : ofBytes (toBytes n x) = x % 256 ^ n := by
  induction n generalizing x with
  | zero => simp [toBytes, ofBytes, Nat.mod_one]
  | succ n ih =>
    simp only [toBytes, ofBytes, ih, BitVec.toNat_ofNat]
    rw [show 256 ^ (n + 1) = 256 * 256 ^ n by rw [Nat.mul_comm]; rfl, Nat.mod_mul]

theorem memRead_memWrite_same {m : List Host.Cell} (a n x : Nat) (h : memWf m = true) :
    memRead (memWrite m a n x) a n = x % 256 ^ n := by
  have := memBytes_memPut_same a (toBytes n x) h
  rw [toBytes_length] at this
  rw [memRead, memWrite, this, ofBytes_toBytes]

theorem memRead_memWrite_other {m : List Host.Cell} {a n x c k : Nat} (h : memWf m = true) (hc : c + k ≤ a ∨ a + n ≤ c) :
    memRead (memWrite m a n x) c k = memRead m c k := by
  rw [memRead, memWrite, memBytes_memPut_other _ h (by simpa using hc), ← memRead]

theorem memWord_memWrite_same {m : List Host.Cell} (a : Nat) (x : Word) (h : memWf m = true) :
    memWord (memWrite m a 8 x.toNat) a = x := by
  rw [memWord, memRead_memWrite_same a 8 x.toNat h, Nat.mod_eq_of_lt (by simpa using x.isLt)]
  simp

theorem toBytes_get {n x i : Nat} (h : i < (toBytes n x).length) : (toBytes n x)[i] = BitVec.ofNat 8 (x / 256 ^ i) := by
  induction n generalizing x i with
  | zero => simp at h
  | succ n ih =>
    cases i with
    | zero => simp [toBytes]
    | succ i =>
      simp only [toBytes, List.getElem_cons_succ]
      rw [ih, Nat.pow_succ, Nat.mul_comm, Nat.div_div_eq_div_mul]

/-- The low bytes of what was written. -/
theorem memRead_memWrite_low {m : List Host.Cell} (a x : Nat) {n k : Nat} (h : memWf m = true) (hk : k ≤ n) :
    memRead (memWrite m a n x) a k = x % 256 ^ k := by
  rw [memRead, ← ofBytes_toBytes k x]
  congr 1
  apply List.ext_getElem (by simp)
  intro i h1 h2
  simp only [toBytes_length] at h2
  rw [memBytes_get, memWrite, memGet_memPut_inside _ h (by simp; omega), toBytes_get, toBytes_get]

theorem memWord_memWrite_other {m : List Host.Cell} {a n c : Nat} (x : Nat) (h : memWf m = true) (hc : c + 8 ≤ a ∨ a + n ≤ c) :
    memWord (memWrite m a n x) c = memWord m c := by
  rw [memWord, memRead_memWrite_other h hc, ← memWord]

theorem memGet_memWrite_outside {m : List Host.Cell} {a n x c : Nat} (h : memWf m = true) (hc : c < a ∨ a + n ≤ c) :
    memGet (memWrite m a n x) c = memGet m c :=
  memGet_memPut_outside _ h (by simpa using hc)

end Sys2Proof.Laws
end

