-- ==== Sys2Proof/Laws/Run.lean ====
section
/-! SUPPORT. How a unit whose computation is known ends: inside a trick, outside tricks, as an irrevocable unit, and at its reply. -/

namespace Sys2Proof.Laws
open Sys2Proof Sys2Proof.Machine

/-! ### The computation of a unit -/

@[simp] theorem U_pure_run {α : Type} (a : α) (s : State) : (pure a : U α).run s = .ok (a, s) := rfl
@[simp] theorem U_pure_apply {α : Type} (a : α) (s : State) : (pure a : U α) s = .ok (a, s) := rfl
@[simp] theorem U_throw_run {α : Type} (e : Stop) (s : State) : (throw e : U α).run s = .error e := rfl
@[simp] theorem U_throw_apply {α : Type} (e : Stop) (s : State) : (throw e : U α) s = .error e := rfl

theorem U_bind_apply {α β : Type} (m : U α) (f : α → U β) (s : State) :
    (m >>= f) s = match m s with | .ok (a, t) => f a t | .error e => .error e := by
  show (m s >>= fun p => f p.1 p.2) = _
  cases m s <;> rfl

theorem U_bind_ok {α β : Type} {m : U α} {f : α → U β} {s t : State} {a : α} (h : m s = .ok (a, t)) : (m >>= f) s = f a t := by
  rw [U_bind_apply, h]

theorem U_bind_error {α β : Type} {m : U α} {f : α → U β} {s : State} {e : Stop} (h : m s = .error e) : (m >>= f) s = .error e := by
  rw [U_bind_apply, h]

/-- What a bind that answers did. -/
theorem U_bind_inv {α β : Type} {m : U α} {f : α → U β} {s t : State} {b : β} (h : (m >>= f) s = .ok (b, t)) :
    ∃ a u, m s = .ok (a, u) ∧ f a u = .ok (b, t) := by
  rw [U_bind_apply] at h
  split at h
  · exact ⟨_, _, ‹_›, h⟩
  · cases h

@[simp] theorem getS_apply (s : State) : getS s = .ok (s, s) := rfl
@[simp] theorem setS_apply (s t : State) : setS t s = .ok ((), t) := rfl
@[simp] theorem modify_apply (f : State → State) (s : State) : (modify f : U Unit) s = .ok ((), f s) := rfl
@[simp] theorem curCtx_apply (s : State) : curCtx s = .ok (s.ctx s.cur.1 s.cur.2, s) := rfl
@[simp] theorem curCore_apply (s : State) : curCore s = .ok (s.core s.cur.1, s) := rfl
@[simp] theorem myCore_apply (s : State) : myCore s = .ok (s.cur.1, s) := rfl
@[simp] theorem myCtx_apply (s : State) : myCtx s = .ok (s.cur.2, s) := rfl
@[simp] theorem updCtx_apply (f : Ctx → Ctx) (s : State) : updCtx f s = .ok ((), s.modCtx s.cur.1 s.cur.2 f) := rfl
@[simp] theorem updCore_apply (f : Core → Core) (s : State) : updCore f s = .ok ((), s.modCore s.cur.1 f) := rfl
@[simp] theorem postIn_apply (n : Nat) (i : Instr) (s : State) : postIn n i s = .ok ((), s.post n i) := rfl
@[simp] theorem curUnit_apply (s : State) : curUnit s = .ok (s.unitOf, s) := rfl
@[simp] theorem payload_apply (s : State) : payload s = .ok (prefixOf s.unitOf, s) := rfl
@[simp] theorem immS_apply {n : Nat} (f : BitVec n) (s : State) : immS f s = .ok (immSOf (prefixOf s.unitOf) f, s) := rfl
@[simp] theorem target_apply {n : Nat} (f : BitVec n) (s : State) : target f s = .ok (targetOf s.unitOf f, s) := rfl
@[simp] theorem linkAddr_apply (s : State) : linkAddr s = .ok (s.unitOf.addr + BitVec.ofNat 64 s.unitOf.size, s) := rfl
@[simp] theorem detLaunch_apply (s : State) : detLaunch s = .ok ((s.core s.cur.1).det, s) := rfl
@[simp] theorem readP_apply (p : PReg) (s : State) : readP p s = .ok (predOf (s.core s.cur.1) (s.ctx s.cur.1 s.cur.2) p, s) := rfl
@[simp] theorem oldV_apply (k : VReg) (s : State) : oldV k s = .ok (tabGet (s.ctx s.cur.1 s.cur.2).v k.toNat 0#2048, s) := rfl
@[simp] theorem vMode_apply (m : BitVec 2) (s : State) : vMode m s = .ok (vModeOf (s.ctx s.cur.1 s.cur.2) m, s) := rfl
@[simp] theorem vSat_apply (m : BitVec 2) (s : State) : vSat m s = .ok (vSatOf (s.ctx s.cur.1 s.cur.2) m, s) := rfl
@[simp] theorem raiseFlags_apply (f : Flags) (s : State) : raiseFlags f s = .ok ((), raised s f) := rfl
@[simp] theorem writeP_apply (p : PReg) (x : Pred) (s : State) :
    writeP p x s = .ok ((), s.modCore s.cur.1 fun c => setP c (s.ctx s.cur.1 s.cur.2) p x) := rfl
@[simp] theorem stopTrap_apply {α : Type} (c : Cause) (a : Word) (d : BitVec 8) (s : State) :
    (stopTrap c a d : U α) s = .error (.trap { cause := c, addr := a, detail := d }) := rfl
@[simp] theorem stopIf_apply (b : Bool) (c : Cause) (a : Word) (s : State) :
    stopIf b c a s = if b then .error (.trap { cause := c, addr := a }) else .ok ((), s) := by cases b <;> rfl
@[simp] theorem stopIf_false (c : Cause) (a : Word) (s : State) : stopIf false c a s = .ok ((), s) := rfl
@[simp] theorem stopIf_true (c : Cause) (a : Word) (s : State) : stopIf true c a s = .error (.trap { cause := c, addr := a }) := rfl
@[simp] theorem waitOn_apply {α : Type} (w : Wait) (s : State) : (waitOn w : U α) s = .error (.wait w) := rfl
@[simp] theorem stallOn_apply {α : Type} (w : Wait) (s : State) : (stallOn w : U α) s = .error (.stall w) := rfl
@[simp] theorem updTrick_apply (f : Trick → Trick) (s : State) :
    updTrick f s = .ok ((), s.modCtx s.cur.1 s.cur.2 fun v => { v with running := f v.running }) := rfl

/-! ### Reads and writes -/

theorem reads_cons {k : GReg} {ks : List GReg} {s t : State} {vs : List Word} (h : Reads (k :: ks) s vs t) :
    ∃ a u r, readG k s = .ok (a, u) ∧ vs = a :: r ∧ Reads ks u r t := h

theorem vReads_mapM {ks : List VReg} {s t : State} {vs : List Vec} (h : VReads ks s vs t) : (ks.mapM readV) s = .ok (vs, t) := by
  induction ks generalizing s vs with
  | nil => obtain ⟨rfl, rfl⟩ := h; rfl
  | cons k ks ih =>
    obtain ⟨a, u, r, h1, rfl, h2⟩ := h
    rw [List.mapM_cons, U_bind_ok h1, U_bind_ok (ih h2)]
    rfl

/-! ### Units inside tricks -/

theorem runIn_ok {m : U After} {s t : State} {a : After} (h : Runs s) (hm : m (begun s) = .ok (a, t)) :
    runIn m s = .next (finishUnit t s.cur.1 s.cur.2 s.unitOf true a) := by
  have h1 : ¬ (s.ctx s.cur.1 s.cur.2).running.units ≥ (s.ctx s.cur.1 s.cur.2).limit.toNat := by
    have := h; simp only [Runs, State.me] at this; omega
  have hm' : m.run (s.startTrick s.cur.1 s.cur.2) = .ok (a, t) := hm
  simp [runIn, h1, hm']

theorem runIn_trap {m : U After} {s : State} {i : TrapInfo} (h : Runs s) (hm : m (begun s) = .error (.trap i)) :
    runIn m s = .next (trapped s i) := by
  have h1 : ¬ (s.ctx s.cur.1 s.cur.2).running.units ≥ (s.ctx s.cur.1 s.cur.2).limit.toNat := by
    have := h; simp only [Runs, State.me] at this; omega
  have hm' : m.run (s.startTrick s.cur.1 s.cur.2) = .error (.trap i) := hm
  have hs : (if (s.ctx s.cur.1 s.cur.2).running.units ≥ (s.ctx s.cur.1 s.cur.2).limit.toNat ∧
      (s.ctx s.cur.1 s.cur.2).pending.isNone = true then s.endTrick s.cur.1 s.cur.2 else s) = s := if_neg fun h => h1 h.1
  simp only [runIn, hs, hm']
  rw [if_neg fun h => h1 h.1]
  rfl

/-- A stop that no queue register causes stands as it is (R135). -/
def Plainly (e : Stop) : Prop := ∀ a b, e ≠ .wait (.queueReg a b)

theorem widen_plain {m : U After} {s : State} {e : Stop} (h : Plainly e) : widen m s e = e := by
  unfold widen
  split
  · exact absurd rfl (h _ _)
  · rfl

theorem plainly_trap (t : TrapInfo) : Plainly (.trap t) := fun _ _ h => by cases h

theorem runIn_stop {m : U After} {s : State} {e : Stop} (h : Runs s) (hm : m (begun s) = .error e) (hc : e ≠ .cut)
    (hp : Plainly e) : runIn m s = .next (stopUnit s s.cur.1 s.cur.2 s.unitOf e) := by
  have h1 : ¬ (s.ctx s.cur.1 s.cur.2).running.units ≥ (s.ctx s.cur.1 s.cur.2).limit.toNat := by
    have := h; simp only [Runs, State.me] at this; omega
  have hm' : m.run (s.startTrick s.cur.1 s.cur.2) = .error e := hm
  cases e <;> first | exact absurd rfl hc | simp [runIn, h1, hm', widen_plain hp]

/-! ### Units outside tricks -/

theorem endTrick_settled {s : State} {k x : Nat} (h : (s.ctx k x).settled = true) : s.endTrick k x = s := by
  simp only [Ctx.settled, Bool.and_eq_true, beq_iff_eq] at h
  simp [State.endTrick, h.1]

theorem runOut_ok {m : U After} {s t : State} {a : After} (h : s.me.settled = true) (hm : m s = .ok (a, t)) :
    runOut m s = .next (finishUnit t s.cur.1 s.cur.2 s.unitOf false a) := by
  have hm' : m.run s = .ok (a, t) := hm
  simp only [State.me] at h
  simp [runOut, endTrick_settled h, h, hm']

theorem runOut_stop {m : U After} {s : State} {e : Stop} (h : s.me.settled = true) (hm : m s = .error e) (hp : Plainly e) :
    runOut m s = .next (stopUnit s s.cur.1 s.cur.2 s.unitOf e) := by
  have hm' : m.run s = .error e := hm
  simp only [State.me] at h
  simp [runOut, endTrick_settled h, h, hm', widen_plain hp]

theorem farDrain_quiet {s : State} (b : Bool) (h : Quiet s) : farDrain b s = .ok ((), s) := by
  have : ((s.ctx s.cur.1 s.cur.2).farq.any fun e => e.old.isNone && (e.ord || !b)) = false := by
    rw [List.any_eq_false]
    intro e he
    have := h.2 e he
    cases hx : e.old <;> simp_all
  unfold farDrain
  rw [U_bind_ok (curCtx_apply s), this]
  rfl

theorem runIrr_ok {m : U After} {s t : State} {a : After} (h : Quiet s) (hm : m s = .ok (a, t)) :
    runIrr m s = .next (finishUnit t s.cur.1 s.cur.2 s.unitOf false a) :=
  runOut_ok h.1 (by rw [U_bind_ok (farDrain_quiet false h), hm])

theorem runIrr_stop {m : U After} {s : State} {e : Stop} (h : Quiet s) (hm : m s = .error e) (hp : Plainly e) :
    runIrr m s = .next (stopUnit s s.cur.1 s.cur.2 s.unitOf e) :=
  runOut_stop h.1 (by rw [U_bind_ok (farDrain_quiet false h), hm]) hp

theorem runOp_ok {m : U After} {s t : State} {a : After} (h : Quiet s) (hm : m s = .ok (a, t)) :
    runOp m s = .next (finishUnit t s.cur.1 s.cur.2 s.unitOf false a) :=
  runOut_ok h.1 (by rw [U_bind_ok (farDrain_quiet true h), hm])

theorem runOp_stop {m : U After} {s : State} {e : Stop} (h : Quiet s) (hm : m s = .error e) (hp : Plainly e) :
    runOp m s = .next (stopUnit s s.cur.1 s.cur.2 s.unitOf e) :=
  runOut_stop h.1 (by rw [U_bind_ok (farDrain_quiet true h), hm]) hp

end Sys2Proof.Laws
end

