-- ==== Sys2Proof/Laws/Operands.lean ====
section
/-! SUPPORT. Scalar, predicate and vector operands: what each read and write answers, and what it leaves alone. -/

namespace Sys2Proof.Laws
open Sys2Proof Sys2Proof.Machine

/-! ### Far atomics that name a register -/

theorem farCheck_ok {s : State} {k : GReg} (h : ∀ e ∈ s.me.farq, e.d ≠ k) : farCheck k s = .ok ((), s) := by
  have : ((s.ctx s.cur.1 s.cur.2).farq.any fun e => e.d == k) = false := by
    rw [List.any_eq_false]
    intro e he
    simpa using h e he
  unfold farCheck
  rw [U_bind_ok (curCtx_apply s), this]
  rfl

theorem farCheck_inv {s t : State} {k : GReg} (h : farCheck k s = .ok ((), t)) : t = s ∧ ∀ e ∈ s.me.farq, e.d ≠ k := by
  unfold farCheck at h
  rw [U_bind_ok (curCtx_apply s)] at h
  split at h
  · cases h
  · rename_i hn
    cases h
    refine ⟨rfl, fun e he hk => hn ?_⟩
    rw [List.any_eq_true]
    exact ⟨e, he, by simpa using hk⟩

/-! ### Scalar registers -/

theorem readG_zero (s : State) : readG 0#5 s = .ok (0#64, s) := rfl
theorem writeG_zero (x : Word) (s : State) : writeG 0#5 x s = .ok ((), s) := rfl

theorem readG_plain {s : State} {k : GReg} (h : Plain s k) : readG k s = .ok (s.g k, s) := by
  rcases h with rfl | ⟨hr, hf⟩
  · rfl
  · by_cases hk : k = 0#5
    · subst hk; rfl
    · unfold readG
      rw [if_neg hk, U_bind_ok (farCheck_ok hf), U_bind_ok (curCtx_apply s)]
      simp only [State.me] at hr
      rw [hr]
      rfl

theorem writeG_plain {s : State} {k : GReg} (x : Word) (h : Plain s k) (hk : k ≠ 0#5) :
    writeG k x s = .ok ((), s.modCore s.cur.1 fun c => setG c s.me k x) := by
  obtain ⟨hr, hf⟩ := h.resolve_left hk
  unfold writeG
  rw [if_neg hk, U_bind_ok (farCheck_ok hf), U_bind_ok (curCtx_apply s)]
  simp only [State.me] at hr
  rw [hr]
  rfl

/-- The state after an entry of queue register `i` is popped (R52, R135). -/
def popped (s : State) (i : Nat) (w : Word) (rest : List Word) : State :=
  (s.modCore s.cur.1 fun c => { c with q := tabSet c.q i rest }).modCtx s.cur.1 s.cur.2 fun v =>
    { v with running := { v.running with pops := (i, w) :: v.running.pops } }

/-- The state after an entry is pushed to queue register `i` (R52, R135). -/
def pushed (s : State) (i : Nat) (w : Word) : State :=
  (if s.me.reserve = some i then s.modCtx s.cur.1 s.cur.2 fun v => { v with reserve := none } else s).modCtx s.cur.1 s.cur.2 fun v =>
    { v with running := { v.running with pushes := v.running.pushes ++ [(i, w)] } }

/-- A push has its place: one is kept for it, or the queue register has room (R52, R135). -/
def Room (s : State) (i : Nat) : Prop := s.me.reserve = some i ∨ s.mine.queueCount i + 1 ≤ queueDepthOf i

theorem popQ_cons {s : State} {i : Nat} {w : Word} {rest : List Word} (h : tabGet s.mine.q i [] = w :: rest) :
    popQ i s = .ok (w, popped s i w rest) := by
  simp only [State.mine] at h
  unfold popQ
  rw [U_bind_ok (curCore_apply s), h]
  rfl

theorem popQ_empty {s : State} {i : Nat} (h : tabGet s.mine.q i [] = []) : popQ i s = .error (.wait (.queueReg [i] [])) := by
  simp only [State.mine] at h
  unfold popQ
  rw [U_bind_ok (curCore_apply s), h]
  rfl

theorem pushQ_room {s : State} {i : Nat} (w : Word) (h : Room s i) : pushQ i w s = .ok ((), pushed s i w) := by
  unfold pushQ pushed
  rw [U_bind_ok (curCore_apply s), U_bind_ok (curCtx_apply s)]
  by_cases hr : s.me.reserve = some i
  · have : (s.ctx s.cur.1 s.cur.2).reserve = some i := hr
    rw [if_pos this, if_pos hr]
    rfl
  · have : ¬ (s.ctx s.cur.1 s.cur.2).reserve = some i := hr
    have h' : ¬ ((s.core s.cur.1).queueCount i + 1 > queueDepthOf i) := by
      have := h.resolve_left hr; simp only [State.mine] at this; omega
    rw [if_neg this, if_neg hr, if_neg h']
    rfl

theorem pushQ_full {s : State} {i : Nat} (w : Word) (h : ¬ Room s i) : pushQ i w s = .error (.wait (.queueReg [] [i])) := by
  have hr : ¬ (s.ctx s.cur.1 s.cur.2).reserve = some i := fun e => h (.inl e)
  have h' : (s.core s.cur.1).queueCount i + 1 > queueDepthOf i := by
    have : ¬ (s.mine.queueCount i + 1 ≤ queueDepthOf i) := fun e => h (.inr e)
    simp only [State.mine] at this; omega
  unfold pushQ
  rw [U_bind_ok (curCore_apply s), U_bind_ok (curCtx_apply s), if_neg hr, if_pos h']
  rfl

/-- What a read that answers did. -/
theorem readG_inv {s t : State} {k : GReg} {a : Word} (h : readG k s = .ok (a, t)) :
    (Plain s k ∧ a = s.g k ∧ t = s) ∨
      ∃ i rest, k ≠ 0#5 ∧ (∀ e ∈ s.me.farq, e.d ≠ k) ∧ remap s.me.cmode k = some i ∧ tabGet s.mine.q i [] = a :: rest ∧ t = popped s i a rest := by
  by_cases hk : k = 0#5
  · subst hk; cases h; exact .inl ⟨.inl rfl, rfl, rfl⟩
  · unfold readG at h
    rw [if_neg hk] at h
    obtain ⟨_, u, h1, h2⟩ := U_bind_inv h
    obtain ⟨rfl, hf⟩ := farCheck_inv h1
    rw [U_bind_ok (curCtx_apply u)] at h2
    cases hr : remap (u.ctx u.cur.1 u.cur.2).cmode k with
    | none =>
      rw [hr] at h2
      cases h2
      exact .inl ⟨.inr ⟨hr, hf⟩, rfl, rfl⟩
    | some i =>
      rw [hr] at h2
      change popQ i u = .ok (a, t) at h2
      cases hq : tabGet (u.core u.cur.1).q i [] with
      | nil => rw [popQ_empty hq] at h2; cases h2
      | cons w rest =>
        rw [popQ_cons hq] at h2
        cases h2
        exact .inr ⟨i, rest, hk, hf, hr, hq, rfl⟩

/-- What a write that answers did. -/
theorem writeG_inv {s t : State} {k : GReg} {x : Word} (h : Writes k x s t) :
    (k = 0#5 ∧ t = s) ∨ (k ≠ 0#5 ∧ Plain s k ∧ t = s.modCore s.cur.1 fun c => setG c s.me k x) ∨
      ∃ i, k ≠ 0#5 ∧ (∀ e ∈ s.me.farq, e.d ≠ k) ∧ remap s.me.cmode k = some i ∧ Room s i ∧ t = pushed s i x := by
  by_cases hk : k = 0#5
  · subst hk; cases h; exact .inl ⟨rfl, rfl⟩
  · have h0 := h
    unfold Writes writeG at h
    rw [if_neg hk] at h
    obtain ⟨_, u, h1, h2⟩ := U_bind_inv h
    obtain ⟨rfl, hf⟩ := farCheck_inv h1
    rw [U_bind_ok (curCtx_apply u)] at h2
    cases hr : remap (u.ctx u.cur.1 u.cur.2).cmode k with
    | none =>
      rw [Writes, writeG_plain x (.inr ⟨hr, hf⟩) hk] at h0
      cases h0
      exact .inr (.inl ⟨hk, .inr ⟨hr, hf⟩, rfl⟩)
    | some i =>
      rw [hr] at h2
      change pushQ i x u = .ok ((), t) at h2
      by_cases hq : Room u i
      · rw [pushQ_room x hq] at h2
        cases h2
        exact .inr (.inr ⟨i, hk, hf, hr, hq, rfl⟩)
      · rw [pushQ_full x hq] at h2
        cases h2

@[simp] theorem popped_cur (s : State) (i : Nat) (w : Word) (r : List Word) : (popped s i w r).cur = s.cur := rfl
@[simp] theorem pushed_cur (s : State) (i : Nat) (w : Word) : (pushed s i w).cur = s.cur := by
  unfold pushed; split <;> rfl

theorem unitOf_congr {s t : State} (hc : t.cur = s.cur) (h : t.me.unit = s.me.unit) : t.unitOf = s.unitOf := by
  simpa [State.unitOf, State.me, hc] using h

@[simp] theorem popped_me (s : State) (i : Nat) (w : Word) (r : List Word) : (popped s i w r).me =
    { s.me with running := { s.me.running with pops := (i, w) :: s.me.running.pops } } := by
  simp [popped, State.me, State.ctx, Core.ctx]

@[simp] theorem pushed_me (s : State) (i : Nat) (w : Word) : (pushed s i w).me =
    { s.me with
      running := { s.me.running with pushes := s.me.running.pushes ++ [(i, w)] }
      reserve := if s.me.reserve = some i then none else s.me.reserve } := by
  unfold pushed
  split <;> simp_all [State.me]

theorem readG_cur {s t : State} {k : GReg} {a : Word} (h : readG k s = .ok (a, t)) : t.cur = s.cur := by
  rcases readG_inv h with ⟨_, _, rfl⟩ | ⟨i, r, _, _, _, _, rfl⟩ <;> rfl

theorem readG_unitOf {s t : State} {k : GReg} {a : Word} (h : readG k s = .ok (a, t)) : t.unitOf = s.unitOf := by
  rcases readG_inv h with ⟨_, _, rfl⟩ | ⟨i, r, _, _, _, _, rfl⟩
  · rfl
  · exact unitOf_congr rfl (by simp)

theorem reads_cur {ks : List GReg} {s t : State} {vs : List Word} (h : Reads ks s vs t) : t.cur = s.cur := by
  induction ks generalizing s vs with
  | nil => exact h.2 ▸ rfl
  | cons k ks ih => obtain ⟨a, u, r, h1, _, h2⟩ := h; rw [ih h2, readG_cur h1]

theorem reads_unitOf {ks : List GReg} {s t : State} {vs : List Word} (h : Reads ks s vs t) : t.unitOf = s.unitOf := by
  induction ks generalizing s vs with
  | nil => exact h.2 ▸ rfl
  | cons k ks ih => obtain ⟨a, u, r, h1, _, h2⟩ := h; rw [ih h2, readG_unitOf h1]

theorem startTrick_cur (s : State) (k x : Nat) : (s.startTrick k x).cur = s.cur := by
  simp only [State.startTrick]
  split <;> rfl

@[simp] theorem begun_cur (s : State) : (begun s).cur = s.cur := startTrick_cur s _ _

theorem begun_me (s : State) : (begun s).me = s.me ∨
    (begun s).me = { s.me with running :=
      { s.me.running with start := some (takeShadow s.mine s.me), age := some (s.me.running.age.getD s.tick) } } := by
  simp only [State.me, begun_cur]
  simp only [begun, State.startTrick]
  split
  · exact .inl rfl
  · exact .inr (by simp [State.ctx, State.mine])

@[simp] theorem begun_unitOf (s : State) : (begun s).unitOf = s.unitOf := by
  refine unitOf_congr (begun_cur s) ?_
  rcases begun_me s with h | h <;> rw [h]

@[simp] theorem begun_cmode (s : State) : (begun s).me.cmode = s.me.cmode := by rcases begun_me s with h | h <;> rw [h]
@[simp] theorem begun_farq (s : State) : (begun s).me.farq = s.me.farq := by rcases begun_me s with h | h <;> rw [h]
@[simp] theorem begun_streams (s : State) : (begun s).me.streams = s.me.streams := by rcases begun_me s with h | h <;> rw [h]
@[simp] theorem begun_wspBlk (s : State) : (begun s).me.wspBlk = s.me.wspBlk := by rcases begun_me s with h | h <;> rw [h]

end Sys2Proof.Laws
end

