-- ==== Sys2Proof/Laws/Frame.lean ====
section
/-! SUPPORT. What the parts of a computing unit leave alone: beginning its trick, reading, writing, raising flags, retiring. -/

namespace Sys2Proof.Laws
open Sys2Proof Sys2Proof.Machine

/-- A change that stays on the issuing core: in its local store, its queue registers and the fields of the issuing context that a
computing unit may change. -/
structure Local (s t : State) : Prop where
  only : OnlyMyCore s t
  cur : t.cur = s.cur
  tick : t.tick = s.tick
  others : OtherContexts s t
  mine : t.mine = { s.mine with ctxs := t.mine.ctxs, store := t.mine.store, q := t.mine.q }
  me : t.me = { s.me with
      pc := t.me.pc, rep := t.me.rep, retire := t.me.retire, running := t.me.running, v := t.me.v, cflags := t.me.cflags,
      req := t.me.req, hostReplies := t.me.hostReplies, streams := t.me.streams, refusals := t.me.refusals,
      reserve := t.me.reserve, tileFree := t.me.tileFree }

theorem Local.refl (s : State) : Local s s :=
  ⟨⟨rfl, rfl, rfl, rfl, rfl, rfl, rfl, rfl, rfl, rfl, rfl, rfl, fun _ _ => rfl⟩, rfl, rfl, fun _ _ => rfl, rfl, rfl⟩

theorem onlyMyCore_trans {s t u : State} (h1 : OnlyMyCore s t) (h2 : OnlyMyCore t u) (hc : t.cur = s.cur) : OnlyMyCore s u := by
  obtain ⟨a1, a2, a3, a4, a5, a6, a7, a8, a9, a10, a11, a12, a13⟩ := h1
  obtain ⟨b1, b2, b3, b4, b5, b6, b7, b8, b9, b10, b11, b12, b13⟩ := h2
  exact ⟨b1.trans a1, b2.trans a2, b3.trans a3, b4.trans a4, b5.trans a5, b6.trans a6, b7.trans a7, b8.trans a8, b9.trans a9,
    b10.trans a10, b11.trans a11, b12.trans a12, fun j hj => (b13 j (hc ▸ hj)).trans (a13 j hj)⟩

theorem Local.trans {s t u : State} (h1 : Local s t) (h2 : Local t u) : Local s u where
  only := onlyMyCore_trans h1.only h2.only h1.cur
  cur := h2.cur.trans h1.cur
  tick := h2.tick.trans h1.tick
  others := fun y hy => (h2.others y (h1.cur ▸ hy)).trans (h1.others y hy)
  mine := by rw [h2.mine, h1.mine]
  me := by rw [h2.me, h1.me]

/-- An update of the issuing context in the fields of a computing unit. -/
theorem local_setCtx (s : State) (v : Ctx) (h : v = { s.me with
      pc := v.pc, rep := v.rep, retire := v.retire, running := v.running, v := v.v, cflags := v.cflags,
      req := v.req, hostReplies := v.hostReplies, streams := v.streams, refusals := v.refusals, reserve := v.reserve,
      tileFree := v.tileFree }) : Local s (s.setCtx s.cur.1 s.cur.2 v) where
  only := by
    refine ⟨by simp, by simp, by simp, by simp, by simp, by simp, by simp, by simp, by simp, by simp, by simp, by simp, fun j hj => ?_⟩
    simp [State.setCtx, core_modCore_other _ _ hj]
  cur := rfl
  tick := rfl
  others := fun y hy => by
    show ((s.setCtx s.cur.1 s.cur.2 v).core s.cur.1).ctx y = _
    rw [core_setCtx, core_ctx_setCtx_other _ _ hy]
    rfl
  mine := by
    show (s.setCtx s.cur.1 s.cur.2 v).core s.cur.1 = _
    rw [core_setCtx]
    simp only [State.mine, setCtx_cur, core_setCtx]
    rfl
  me := by
    have e : (s.setCtx s.cur.1 s.cur.2 v).me = v := by simp [State.me]
    rw [e]
    exact h

theorem local_modCtx (s : State) (f : Ctx → Ctx) (h : f s.me = { s.me with
      pc := (f s.me).pc, rep := (f s.me).rep, retire := (f s.me).retire, running := (f s.me).running, v := (f s.me).v,
      cflags := (f s.me).cflags, req := (f s.me).req, hostReplies := (f s.me).hostReplies, streams := (f s.me).streams,
      refusals := (f s.me).refusals, reserve := (f s.me).reserve, tileFree := (f s.me).tileFree }) :
    Local s (s.modCtx s.cur.1 s.cur.2 f) := local_setCtx s _ h

@[simp] theorem me_modCtx (s : State) (f : Ctx → Ctx) : (s.modCtx s.cur.1 s.cur.2 f).me = f s.me := by simp [State.me]
@[simp] theorem me_setCtx (s : State) (v : Ctx) : (s.setCtx s.cur.1 s.cur.2 v).me = v := by simp [State.me]
@[simp] theorem mine_modCtx (s : State) (f : Ctx → Ctx) : (s.modCtx s.cur.1 s.cur.2 f).mine = s.mine.setCtx s.cur.2 (f s.me) := by
  simp [State.mine, State.me]
@[simp] theorem mine_setCtx (s : State) (v : Ctx) : (s.setCtx s.cur.1 s.cur.2 v).mine = s.mine.setCtx s.cur.2 v := by simp [State.mine]
@[simp] theorem mine_modCore (s : State) (f : Core → Core) : (s.modCore s.cur.1 f).mine = f s.mine := by simp [State.mine]

/-- An update of the local store and the queue registers of the issuing core. -/
theorem local_modCore (s : State) (f : Core → Core) (h : f s.mine = { s.mine with store := (f s.mine).store, q := (f s.mine).q }) :
    Local s (s.modCore s.cur.1 f) where
  only := by
    refine ⟨by simp, by simp, by simp, by simp, by simp, by simp, by simp, by simp, by simp, by simp, by simp, by simp, fun j hj => ?_⟩
    exact core_modCore_other _ _ hj
  cur := rfl
  tick := rfl
  others := fun y _ => by rw [mine_modCore, h]; rfl
  mine := by rw [mine_modCore, h]
  me := by
    have e : (s.modCore s.cur.1 f).me = s.me := by
      show (s.modCore s.cur.1 f).mine.ctx s.cur.2 = _
      rw [mine_modCore, h]; rfl
    rw [e]

/-- A register write leaves the context's own fields alone: registers stand in the local store. -/
@[simp] theorem me_setG (s : State) (v : Ctx) (k : GReg) (x : Word) : (s.modCore s.cur.1 fun c => setG c v k x).me = s.me := by
  have e : (s.modCore s.cur.1 fun c => setG c v k x).me = (s.modCore s.cur.1 fun c => setG c v k x).mine.ctx s.cur.2 := rfl
  rw [e, mine_modCore]
  unfold setG
  split <;> rfl

theorem begun_cases (s : State) : begun s = s ∨ ∃ r, begun s = s.modCtx s.cur.1 s.cur.2 fun v => { v with running := r } := by
  simp only [begun, State.startTrick]
  split
  · exact .inl rfl
  · exact .inr ⟨_, rfl⟩

theorem local_begun (s : State) : Local s (begun s) := by
  rcases begun_cases s with h | ⟨r, h⟩
  · rw [h]; exact .refl s
  · rw [h]; exact local_modCtx s _ rfl

@[simp] theorem begun_store (s : State) : (begun s).mine.store = s.mine.store := by
  rcases begun_cases s with h | ⟨r, h⟩ <;> rw [h]
  simp

theorem local_popped (s : State) (i : Nat) (w : Word) (r : List Word) : Local s (popped s i w r) :=
  (local_modCore s (fun c => { c with q := tabSet c.q i r }) rfl).trans (local_modCtx (s.modCore s.cur.1 _) _ rfl)

theorem local_pushed (s : State) (i : Nat) (w : Word) : Local s (pushed s i w) := by
  unfold pushed
  split
  · exact (local_modCtx s (fun v => { v with reserve := none }) rfl).trans (local_modCtx (s.modCtx s.cur.1 s.cur.2 _) _ rfl)
  · exact local_modCtx s _ rfl

theorem local_readG {s t : State} {k : GReg} {a : Word} (h : readG k s = .ok (a, t)) : Local s t := by
  rcases readG_inv h with ⟨_, _, rfl⟩ | ⟨i, r, _, _, _, _, rfl⟩
  · exact .refl t
  · exact local_popped s i a r

theorem local_reads {ks : List GReg} {s t : State} {vs : List Word} (h : Reads ks s vs t) : Local s t := by
  induction ks generalizing s vs with
  | nil => exact h.2 ▸ .refl s
  | cons k ks ih => obtain ⟨a, u, r, h1, _, h2⟩ := h; exact (local_readG h1).trans (ih h2)

theorem local_writeG {s t : State} {k : GReg} {x : Word} (h : Writes k x s t) : Local s t := by
  rcases writeG_inv h with ⟨_, rfl⟩ | ⟨hk, _, rfl⟩ | ⟨i, _, _, _, _, rfl⟩
  · exact .refl t
  · refine local_modCore s _ ?_
    simp [setG, hk]
  · exact local_pushed s i x

/-- A unit that retires in its trick. -/
theorem retired_eq (s u : State) (hc : u.cur = s.cur) : ∃ pc rep, retired s u = u.modCtx u.cur.1 u.cur.2 fun v => { v with
    pc := pc, rep := rep, retire := v.retire + 1#64, unit := s.unitOf, req := none, hostReplies := [], refusals := 0, reserve := none,
    tileFree := false, running := { v.running with
      units := v.running.units + 1, last := u.tick, used := v.running.used ++ v.fetched.filter (!v.running.used.contains ·) } } := by
  refine ⟨(repStep u.me s.unitOf).1, (repStep u.me s.unitOf).2, ?_⟩
  simp only [retired, State.retireUnit, State.setCtx, State.modCtx, State.modCore, State.me, State.ctx, hc]
  rfl

theorem local_retired {s u : State} (h : Local s u) : Local s (retired s u) := by
  obtain ⟨pc, rep, e⟩ := retired_eq s u h.cur
  rw [e]
  refine h.trans (local_modCtx u _ ?_)
  have : s.unitOf = u.me.unit := by rw [h.me]; rfl
  rw [this]

theorem retired_retire {s u : State} (h : u.cur = s.cur) : (retired s u).me.retire = u.me.retire + 1#64 := by
  obtain ⟨pc, rep, e⟩ := retired_eq s u h
  rw [e, me_modCtx]

@[simp] theorem retired_store {s u : State} (h : u.cur = s.cur) : (retired s u).mine.store = u.mine.store := by
  obtain ⟨pc, rep, e⟩ := retired_eq s u h
  rw [e, mine_modCtx]
  rfl

end Sys2Proof.Laws
end

