-- ==== Sys2Proof/Laws/Units.lean ====
section
/-! SUPPORT. What units of one shape do once their registers are read: they retire with their result, or jump. -/

namespace Sys2Proof.Laws
open Sys2Proof Sys2Proof.Machine

/-! ### Reading registers -/

/-- A unit that reads one register. -/
theorem reads_one {s t : State} {k : GReg} {a : Word} (h : Reads [k] s [a] t) : readG k s = .ok (a, t) := by
  obtain ⟨a', v, r, h3, he, h4⟩ := h
  obtain ⟨rfl, rfl⟩ := h4
  simp only [List.cons.injEq] at he
  obtain ⟨rfl, _⟩ := he
  exact h3

/-- A unit that reads two registers, in order. -/
theorem reads_two {s t : State} {k j : GReg} {a b : Word} (h : Reads [k, j] s [a, b] t) : ∃ u, readG k s = .ok (a, u) ∧ readG j u = .ok (b, t) := by
  obtain ⟨a', v, r, h3, he1, h4⟩ := h
  obtain ⟨b', w, r', h5, he2, h6⟩ := h4
  obtain ⟨rfl, rfl⟩ := h6
  simp only [List.cons.injEq] at he1
  obtain ⟨rfl, rfl⟩ := he1
  simp only [List.cons.injEq] at he2
  obtain ⟨rfl, _⟩ := he2
  exact ⟨_, h3, h5⟩

theorem vReads_one {s t : State} {k : VReg} {a : Vec} (h : VReads [k] s [a] t) : readV k s = .ok (a, t) := by
  obtain ⟨a', v, r, h3, he, h4⟩ := h
  obtain ⟨rfl, rfl⟩ := h4
  simp only [List.cons.injEq] at he
  obtain ⟨rfl, _⟩ := he
  exact h3

theorem vReads_two {s t : State} {k j : VReg} {a b : Vec} (h : VReads [k, j] s [a, b] t) : ∃ u, readV k s = .ok (a, u) ∧ readV j u = .ok (b, t) := by
  obtain ⟨a', v, r, h3, he1, h4⟩ := h
  obtain ⟨b', w, r', h5, he2, h6⟩ := h4
  obtain ⟨rfl, rfl⟩ := h6
  simp only [List.cons.injEq] at he1
  obtain ⟨rfl, rfl⟩ := he1
  simp only [List.cons.injEq] at he2
  obtain ⟨rfl, _⟩ := he2
  exact ⟨_, h3, h5⟩

theorem vReads_three {s t : State} {k j l : VReg} {vs : List Vec} (h : VReads [k, j, l] s vs t) : ∃ a b c u v, vs = [a, b, c] ∧ readV k s = .ok (a, u) ∧ readV j u = .ok (b, v) ∧ readV l v = .ok (c, t) := by
  obtain ⟨a', v, r, h3, rfl, h4⟩ := h
  obtain ⟨b', w, r', h5, rfl, h6⟩ := h4
  obtain ⟨c', w', r'', h7, rfl, h8⟩ := h6
  obtain ⟨rfl, rfl⟩ := h8
  exact ⟨_, _, _, _, _, rfl, h3, h5, h7⟩

theorem vReads_length {ks : List VReg} {s t : State} {vs : List Vec} (h : VReads ks s vs t) : vs.length = ks.length := by
  induction ks generalizing s vs with
  | nil => obtain ⟨rfl, rfl⟩ := h; rfl
  | cons k ks ih => obtain ⟨a, u, r, _, rfl, h2⟩ := h; simp [ih h2]

/-- Registers that are no queue registers and no destination of a queued far atomic read as they are. -/
theorem reads_plain {s : State} {a : GReg} (h1 : Plain s a) : Reads [a] s [s.g a] s :=
  ⟨_, _, _, readG_plain h1, rfl, rfl, rfl⟩

theorem reads_plain_two {s : State} {a b : GReg} (h1 : Plain s a) (h2 : Plain s b) : Reads [a, b] s [s.g a, s.g b] s :=
  ⟨_, _, _, readG_plain h1, rfl, _, _, _, readG_plain h2, rfl, rfl, rfl⟩

/-- Such a register can be written. -/
theorem writes_plain {s : State} {a : GReg} (x : Word) (h1 : Plain s a) : ∃ u, Writes a x s u := by
  by_cases h : a = 0#5
  · subst h; exact ⟨s, rfl⟩
  · exact ⟨_, writeG_plain x h1 h⟩

theorem plain_begun {s : State} {k : GReg} (h : Plain s k) : Plain (begun s) k := by
  rcases h with h | h
  · exact .inl h
  · exact .inr (by simpa using h)

theorem local_unitOf {s t : State} (h : Local s t) : t.unitOf = s.unitOf := by
  have : t.me.unit = s.me.unit := by rw [h.me]
  exact unitOf_congr h.cur this

theorem reads_begun_unitOf {ks : List GReg} {s t : State} {vs : List Word} (h : Reads ks (begun s) vs t) : t.unitOf = s.unitOf :=
  (local_unitOf (local_reads h)).trans (begun_unitOf s)

theorem begun_p (s : State) (p : PReg) : (begun s).p p = s.p p := by
  simp only [State.p, predOf, begun_store, Ctx.wsp, begun_wspBlk]

/-! ### Units that retire or jump -/

/-- A unit that ends with the next one retires (R109). -/
theorem unit_next {m : U After} {s t : State} (h : Runs s) (hm : m (begun s) = .ok (.next, t)) :
  runIn m s = .next (retired s t) := runIn_ok h hm

/-- A unit that ends with a jump goes there. -/
theorem unit_goto {m : U After} {s t : State} {pc : Word} (h : Runs s) (hm : m (begun s) = .ok (.goto pc, t)) :
  runIn m s = .next (jumped s t pc) := runIn_ok h hm

/-- A vector unit retires and holds its lanes. -/
theorem unit_vector {m : U After} {s t : State} {n : Bool} {x : Nat} (h : Runs s) (hm : m (begun s) = .ok (.vector n x, t)) :
   runIn m s = .next (vretired s t n x) := runIn_ok h hm

theorem branchIf_ok {n : Nat} {b : Bool} {off : BitVec n} {s t : State} (h : t.unitOf = s.unitOf) :
    branchIf b off t = .ok (if b then .goto (targetOf s.unitOf off) else .next, t) := by
  unfold branchIf
  cases b
  · rfl
  · simp only [if_true]
    rw [U_bind_ok (target_apply off t), h]; rfl

/-- A conditional branch jumps where its condition holds and retires where it does not (R113). -/
theorem unit_branch {n : Nat} {b : Bool} {off : BitVec n} {m : U After} {s t : State} (hr : Runs s) (h : t.unitOf = s.unitOf)
   (hm : m (begun s) = branchIf b off t) : runIn m s = .next (if b then jumped s t (targetOf s.unitOf off) else retired s t) := by
  rw [branchIf_ok h] at hm
  cases b
  · exact unit_next hr hm
  · exact unit_goto hr hm

/-! ### Instructions of one shape -/

/-- Each retires with the value of its function in its destination. -/
theorem gives1_of {mk : GReg → GReg → Instr} {f : Word → Word}
    (he : ∀ d s1 s, exec (mk d s1) s = runIn (scalar1 d s1 f) s) : Gives1 mk f := by
  intro d s1 s t u a hr h1 h2
  obtain ⟨a', v, r, h3, he1, h4⟩ := h1
  obtain ⟨rfl, rfl⟩ := h4
  simp only [List.cons.injEq] at he1
  obtain ⟨rfl, _⟩ := he1
  rw [he]
  refine (runIn_ok (a := .next) (t := u) hr ?_).trans rfl
  unfold scalar1
  rw [U_bind_ok h3, U_bind_ok h2]
  rfl

theorem gives2_of {mk : GReg → GReg → GReg → Instr} {f : Word → Word → Word}
    (he : ∀ d s1 s2 s, exec (mk d s1 s2) s = runIn (scalar2 d s1 s2 f) s) : Gives2 mk f := by
  intro d s1 s2 s t u a b hr h1 h2
  obtain ⟨a', v, r, h3, he1, h4⟩ := h1
  obtain ⟨b', w, r', h5, he2, h6⟩ := h4
  obtain ⟨rfl, rfl⟩ := h6
  simp only [List.cons.injEq] at he1
  obtain ⟨rfl, rfl⟩ := he1
  simp only [List.cons.injEq] at he2
  obtain ⟨rfl, _⟩ := he2
  rw [he]
  refine (runIn_ok (a := .next) (t := u) hr ?_).trans rfl
  unfold scalar2
  rw [U_bind_ok h3, U_bind_ok h5, U_bind_ok h2]
  rfl

theorem gives3_of {mk : GReg → GReg → GReg → GReg → Instr} {f : Word → Word → Word → Word}
    (he : ∀ d s1 s2 s3 s, exec (mk d s1 s2 s3) s = runIn (scalar3 d s1 s2 s3 f) s) : Gives3 mk f := by
  intro d s1 s2 s3 s t u a b c hr h1 h2
  obtain ⟨a', v, r, h3, he1, h4⟩ := h1
  obtain ⟨b', w, r', h5, he2, h6⟩ := h4
  obtain ⟨c', w', r'', h7, he3, h8⟩ := h6
  obtain ⟨rfl, rfl⟩ := h8
  simp only [List.cons.injEq] at he1
  obtain ⟨rfl, rfl⟩ := he1
  simp only [List.cons.injEq] at he2
  obtain ⟨rfl, rfl⟩ := he2
  simp only [List.cons.injEq] at he3
  obtain ⟨rfl, _⟩ := he3
  rw [he]
  refine (runIn_ok (a := .next) (t := u) hr ?_).trans rfl
  unfold scalar3
  rw [U_bind_ok h3, U_bind_ok h5, U_bind_ok h7, U_bind_ok h2]
  rfl

theorem givesI_of {n : Nat} {mk : GReg → GReg → BitVec n → Instr} {f : Word → Word → Word}
    (he : ∀ d s1 i s, exec (mk d s1 i) s = runIn (scalarI d s1 i f) s) : GivesI mk f := by
  intro d s1 imm s t u a hr h1 h2
  obtain ⟨a', v, r, h3, he1, h4⟩ := h1
  obtain ⟨rfl, rfl⟩ := h4
  simp only [List.cons.injEq] at he1
  obtain ⟨rfl, _⟩ := he1
  rw [he]
  refine (runIn_ok (a := .next) (t := u) hr ?_).trans rfl
  unfold scalarI
  have hu : t.unitOf = s.unitOf := by rw [readG_unitOf h3, begun_unitOf]
  rw [U_bind_ok h3, U_bind_ok (immS_apply imm t), hu, U_bind_ok h2]
  rfl

theorem gives2_congr {mk : GReg → GReg → GReg → Instr} {f g : Word → Word → Word} (h : Gives2 mk f) (e : ∀ a b, f a b = g a b) : Gives2 mk g := by
  have : f = g := by funext a b; exact e a b
  exact this ▸ h

theorem vFinish_ok {d : VReg} {pr : Pred} {r : Vec × Flags} {n : Bool} {x : Nat} {t u : State} (h : VWrites d r.1 pr t u) :
   vFinish d pr r n x t = .ok (.vector n x, raised u r.2) := by
  unfold vFinish; rw [U_bind_ok h, U_bind_ok (raiseFlags_apply _ _)]; rfl

theorem unitRnd_apply (t : State) : unitRnd t = .ok (t.rnd, t) := rfl

theorem direct_of {i : Instr} {d : VReg} {srcs : List VReg} {p : PReg} {t : ElemType} {f : List Nat → Nat × Flags}
   (he : ∀ s, exec i s = runIn (vPure d srcs p t f) s) : Direct i d srcs p t f := by
  intro s u v vs hr h1 r h2
  rw [he]
  apply unit_vector hr
  unfold vPure
  rw [U_bind_ok (vReads_mapM h1), U_bind_ok (oldV_apply _ _), U_bind_ok (readP_apply _ _)]
  exact vFinish_ok h2

theorem elementwise_of {i : Instr} {d : VReg} {srcs : List VReg} {p : PReg} {t : ElemType} {m : BitVec 2} {fop : FOp} {iop} {x : Nat} (ht : t.isInt = true)
   (he : ∀ s, exec i s = runIn (vArith d srcs p t m fop iop x) s) : Elementwise i d srcs p t.width (fun u _ xs => iop (vSatOf u.me m) xs) (fun _ _ => false) x := by
  intro s u v vs hr h1 r h2
  rw [he]
  apply unit_vector hr
  unfold vArith
  rw [U_bind_ok (vReads_mapM h1), U_bind_ok (oldV_apply _ _), U_bind_ok (readP_apply _ _)]
  simp only [ht, if_true]
  rw [U_bind_ok (vSat_apply _ _)]
  exact vFinish_ok (pr := u.p p) h2

theorem onFloats_of {i : Instr} {d : VReg} {srcs : List VReg} {p : PReg} {t : ElemType} {m : BitVec 2} {fop : FOp} {iop} {x : Nat} (ht : t.isInt = false)
   (he : ∀ s, exec i s = runIn (vArith d srcs p t m fop iop x) s) : OnFloats i d srcs p t m fop x := by
  intro s u v vs hr h1 r h2
  rw [he]
  apply unit_vector hr
  unfold vArith
  rw [U_bind_ok (vReads_mapM h1), U_bind_ok (oldV_apply _ _), U_bind_ok (readP_apply _ _)]
  simp only [ht]
  rw [if_neg (by simp), U_bind_ok (vMode_apply _ _), U_bind_ok (unitRnd_apply _)]
  exact vFinish_ok h2

theorem elementwise_congr {i d srcs p w f g n x} (h : Elementwise i d srcs p w f n x) (e : ∀ u j (xs : List Nat), xs.length = srcs.length → f u j xs = g u j xs) :
   Elementwise i d srcs p w g n x := by
  intro s u v vs hr h1 r h2
  have : r = mapActive w (u.p p) (u.v d) fun j => f u j (vs.map (elem · w j)) := by
    show mapActive _ _ _ _ = _
    congr 1; funext j; rw [e]; simp [vReads_length h1]
  rw [this] at h2 ⊢
  exact h s u v vs hr h1 h2

end Sys2Proof.Laws
end

