-- ==== Sys2Proof/Laws/Access.lean ====
section
/-! SUPPORT. Addresses, the decoding of local-store accesses, loads, stores and requests: what each shared operation does. -/

namespace Sys2Proof.Laws
open Sys2Proof Sys2Proof.Machine

/-- Two states in which scalar registers read alike. -/
structure Like (s t : State) : Prop where
  cur : t.cur = s.cur
  q : t.mine.q = s.mine.q
  store : t.mine.store = s.mine.store
  cmode : t.me.cmode = s.me.cmode
  farq : t.me.farq = s.me.farq
  wsp : t.me.wspBlk = s.me.wspBlk
  unit : t.me.unit = s.me.unit

theorem popped_mine (s : State) (i : Nat) (w : Word) (r : List Word) : (popped s i w r).mine.q = tabSet s.mine.q i r ∧ (popped s i w r).mine.store = s.mine.store := by
  simp [popped, State.mine]

theorem begun_mine (s : State) : ∃ c, (begun s).mine = { s.mine with ctxs := c } := by
  rcases begun_cases s with h | ⟨r, h⟩ <;> rw [h]
  · exact ⟨_, rfl⟩
  · exact ⟨_, by rw [mine_modCtx]; rfl⟩

theorem like_begun (s : State) : Like s (begun s) := by
  obtain ⟨c, h⟩ := begun_mine s
  refine ⟨begun_cur s, by rw [h], by rw [h], by simp, by simp, by simp, ?_⟩
  rcases begun_me s with h | h <;> rw [h]

theorem Like.symm {s t : State} (h : Like s t) : Like t s := ⟨h.1.symm, h.2.symm, h.3.symm, h.4.symm, h.5.symm, h.6.symm, h.7.symm⟩

theorem like_popped {s t : State} (h : Like s t) (i : Nat) (w : Word) (r : List Word) : Like (popped s i w r) (popped t i w r) := by
  refine ⟨h.cur, ?_, ?_, ?_, ?_, ?_, ?_⟩
  · rw [(popped_mine ..).1, (popped_mine ..).1, h.q]
  · rw [(popped_mine ..).2, (popped_mine ..).2, h.store]
  · simp [h.cmode]
  · simp [h.farq]
  · simp [h.wsp]
  · simp [h.unit]

theorem Like.g {s t : State} (h : Like s t) (k : GReg) : t.g k = s.g k := by
  simp only [State.g, rawG, h.store, regOff, Ctx.wsp, h.wsp]

theorem Like.plain {s t : State} (h : Like s t) {k : GReg} (p : Plain s k) : Plain t k := by
  rcases p with p | p
  · exact .inl p
  · exact .inr (by rw [h.cmode, h.farq]; exact p)

theorem readG_pop {s : State} {k : GReg} {i : Nat} {w : Word} {r : List Word} (hk : k ≠ 0#5) (hf : ∀ e ∈ s.me.farq, e.d ≠ k)
    (hr : remap s.me.cmode k = some i) (hq : tabGet s.mine.q i [] = w :: r) : readG k s = .ok (w, popped s i w r) := by
  unfold readG
  rw [if_neg hk, U_bind_ok (farCheck_ok hf), U_bind_ok (curCtx_apply s)]
  simp only [State.me] at hr
  rw [hr]
  exact popQ_cons hq

theorem readG_like {s t u : State} {k : GReg} {a : Word} (l : Like s t) (h : readG k s = .ok (a, u)) : ∃ v, readG k t = .ok (a, v) ∧ Like u v := by
  rcases readG_inv h with ⟨p, rfl, rfl⟩ | ⟨i, r, hk, hf, hr, hq, rfl⟩
  · exact ⟨t, by rw [readG_plain (l.plain p), l.g], l⟩
  · exact ⟨popped t i a r, readG_pop hk (by rw [l.farq]; exact hf) (by rw [l.cmode]; exact hr) (by rw [l.q]; exact hq), like_popped l i a r⟩

theorem Like.unitOf {s t : State} (h : Like s t) : t.unitOf = s.unitOf := unitOf_congr h.cur h.unit

/-- A computation of an address that reads alike in states whose registers read alike. -/
def ReadsAlike (m : U Word) : Prop := ∀ s t u a, Like s t → m s = .ok (a, u) → ∃ v, m t = .ok (a, v) ∧ Like u v

theorem eaMI_alike (b : GReg) (off : BitVec 10) (n : Nat) : ReadsAlike (eaMI b off n) := by
  intro s t u a l h
  unfold eaMI at h ⊢
  obtain ⟨x, w, h1, h2⟩ := U_bind_inv h
  obtain ⟨v, h3, l2⟩ := readG_like l h1
  rw [U_bind_ok h3, U_bind_ok (immS_apply ..)]
  rw [U_bind_ok (immS_apply ..)] at h2
  cases h2
  exact ⟨v, by rw [l2.unitOf]; rfl, l2⟩

theorem eaRR_alike (s1 s2 : GReg) (f : Nat) : ReadsAlike (eaRR s1 s2 f) := by
  intro s t u a l h
  unfold eaRR at h ⊢
  obtain ⟨x, w, h1, h2⟩ := U_bind_inv h
  obtain ⟨y, w', h1', h2⟩ := U_bind_inv h2
  cases h2
  obtain ⟨v, h3, l2⟩ := readG_like l h1
  obtain ⟨v', h3', l2'⟩ := readG_like l2 h1'
  rw [U_bind_ok h3, U_bind_ok h3']
  exact ⟨v', rfl, l2'⟩

theorem eaMI_reads {b : GReg} {off : BitVec 10} {n : Nat} {s t : State} {vs : List Word} (h : Reads [b] s vs t) :
    eaMI b off n s = .ok (s.unitOf.ea (vs.getD 0 0#64) off n, t) := by
  obtain ⟨a, u, r, h1, rfl, rfl, rfl⟩ := h
  unfold eaMI
  rw [U_bind_ok h1, U_bind_ok (immS_apply ..), readG_unitOf h1]
  rfl

theorem eaRR_reads {s1 s2 : GReg} {f : Nat} {s t : State} {vs : List Word} (h : Reads [s1, s2] s vs t) :
    eaRR s1 s2 f s = .ok (vs.getD 0 0#64 + vs.getD 1 0#64 <<< f, t) := by
  obtain ⟨a, u, r, h1, rfl, b, u', r', h2, rfl, rfl, rfl⟩ := h
  unfold eaRR
  rw [U_bind_ok h1, U_bind_ok h2]
  rfl

/-- What an address gives inside its trick it gives before. -/
theorem unitRemote_begun {m : U Word} (hm : ReadsAlike m) {s t : State} {ea : Word} (h : m (begun s) = .ok (ea, t)) :
    unitRemote s m = (namesOther s.cur.1 ea && ea.extractLsb' 32 32 == 0#32) := by
  obtain ⟨v, h1, _⟩ := hm _ _ _ _ (like_begun s).symm h
  have : m.run s = .ok (ea, v) := h1
  simp [unitRemote, this]

theorem unitRemote_ok {m : U Word} {s t : State} {ea : Word} (h : m s = .ok (ea, t)) :
    unitRemote s m = (namesOther s.cur.1 ea && ea.extractLsb' 32 32 == 0#32) := by
  have : m.run s = .ok (ea, t) := h
  simp [unitRemote, this]

theorem lsFront_core {me n : Nat} {ea : Word} {win : Bool} {a : LsAddr} (h : lsFront me ea n win = .ok a) :
    a.core = (if ea.getLsbD 31 then (ea.extractLsb' 18 12).toNat else me) ∧ ea.extractLsb' 32 32 = 0#32 := by
  unfold lsFront at h
  simp only [] at h
  generalize (if ea.getLsbD 31 = true then (ea.extractLsb' 18 12).toNat else me) = core at h ⊢
  split at h
  · cases h
  · rename_i hn
    refine ⟨?_, Classical.byContradiction fun hx => hn (.inl hx)⟩
    split at h
    · cases h
    · split at h
      · cases h
      · simp only [Except.ok.injEq] at h; rw [← h]

theorem lsFront_other {me n : Nat} {ea : Word} {win : Bool} {a : LsAddr} (h : lsFront me ea n win = .ok a) :
    (namesOther me ea && ea.extractLsb' 32 32 == 0#32) = decide (a.core ≠ me) := by
  obtain ⟨h1, h2⟩ := lsFront_core h
  rw [h1, h2, namesOther]
  generalize (ea.extractLsb' 18 12).toNat = c
  cases ea.getLsbD 31
  · simp
  · by_cases hh : c = me <;> simp [hh]

theorem ownerFault_own {s : State} {a : LsAddr} {n : Nat} (h1 : a.core = s.cur.1) (h2 : a.mbox = true ∨ a.off + n ≤ s.mine.S) :
    ownerFault s s.cur.1 a n = none := by
  unfold ownerFault
  rcases h2 with h2 | h2
  · simp [h2]
  · have : ¬ (a.off + n > s.mine.S) := by omega
    simp only [State.mine] at this
    simp [h1, this]

theorem lsDecode_own {s : State} {ea : Word} {n : Nat} {win sync : Bool} {a : LsAddr} (h : lsFront s.cur.1 ea n win = .ok a)
    (h1 : a.core = s.cur.1) (h2 : a.mbox = true ∨ a.off + n ≤ s.mine.S) : lsDecode ea n win sync s = .ok (a, s) := by
  unfold lsDecode
  rw [U_bind_ok (getS_apply s)]
  simp only [h]
  rw [if_neg (by simp [h1])]
  simp only [ownerFault_own h1 h2]
  rfl

theorem lsDecode_bad {s : State} {ea : Word} {n : Nat} {win sync : Bool} {c : Cause} (h : lsFront s.cur.1 ea n win = .error c) :
    lsDecode ea n win sync s = .error (.trap { cause := c, addr := ea }) := by
  unfold lsDecode
  rw [U_bind_ok (getS_apply s)]
  simp only [h]
  rfl

theorem lsDecode_other {s : State} {ea : Word} {n : Nat} {win sync : Bool} {a : LsAddr} (h : lsFront s.cur.1 ea n win = .ok a)
    (h1 : a.core ≠ s.cur.1) (h2 : sync = true ∨ Timely s) : lsDecode ea n win sync s = .ok (a, s) := by
  unfold lsDecode
  rw [U_bind_ok (getS_apply s)]
  simp only [h]
  rw [if_pos h1]
  cases sync
  · rcases h2 with h2 | h2
    · cases h2
    · have : ((s.core s.cur.1).det && s.cur.2 != 15) = false := by
        rcases h2 with h2 | h2
        · simp only [State.mine] at h2; simp [h2]
        · simp [h2]
      simp only [Bool.not_false, if_true]
      show (myCtx >>= _ : U LsAddr) s = _
      simp only [U_bind_apply, myCtx_apply, detLaunch_apply, this, stopIf_false]
      rfl
  · rfl

theorem lsDecode_timing {s : State} {ea : Word} {n : Nat} {win : Bool} {a : LsAddr} (h : lsFront s.cur.1 ea n win = .ok a)
    (h1 : a.core ≠ s.cur.1) (h2 : ¬ Timely s) : lsDecode ea n win false s = .error (.trap { cause := .timing, addr := ea }) := by
  have : ((s.core s.cur.1).det && s.cur.2 != 15) = true := by
    simp only [Timely, State.mine] at h2
    simp_all
  unfold lsDecode
  rw [U_bind_ok (getS_apply s)]
  simp only [h]
  rw [if_pos h1]
  simp only [Bool.not_false, if_true]
  show (myCtx >>= _ : U LsAddr) s = _
  simp only [U_bind_apply, myCtx_apply, detLaunch_apply, this, stopIf_true]

theorem touchCheck_free {s : State} {l st : List Nat} (h : s.mine.touched s.cur.2 l st = false) : touchCheck l st s = .ok ((), s) := by
  simp only [State.mine] at h
  unfold touchCheck
  simp only [U_bind_apply, curCore_apply, myCtx_apply, h]
  rfl

theorem lsLoad_free {s : State} {off n : Nat} (h : LoadFree s off n) : lsLoad off n s = .ok (memRead s.mine.store off n, loaded s off n) := by
  unfold lsLoad
  rw [U_bind_ok (touchCheck_free h), U_bind_ok (updTrick_apply _ _), U_bind_ok (curCore_apply _)]
  show Except.ok (memRead (loaded s off n).mine.store off n, loaded s off n) = _
  simp only [loaded, mine_modCtx, core_setCtx_store]

theorem lsStore_free {s : State} {off n v : Nat} (h : StoreFree s off n) (h2 : LogRoom s off n) : lsStore off n v s = .ok ((), stored s off n v) := by
  unfold lsStore
  have : ¬ ((s.ctx s.cur.1 s.cur.2).running.units > 0 ∧ (s.ctx s.cur.1 s.cur.2).running.undo.length + (wordsOf off n).length > Config.undoWords) := by
    simp only [LogRoom, State.me] at h2; omega
  rw [U_bind_ok (touchCheck_free h), U_bind_ok (curCtx_apply _), if_neg this]
  rfl

theorem needAccepted_ok {s : State} (h : s.me.accepted = []) : needAccepted s = .ok ((), s) := by
  simp only [State.me] at h
  unfold needAccepted
  simp only [U_bind_apply, curCtx_apply, h]
  rfl

theorem kept_zero (s : State) : kept s 0#5 = s := by simp [kept, remap]

theorem needDest_free {s : State} {d : GReg} (h : Free s d) : needDest d s = .ok ((), kept s d) := by
  unfold needDest
  by_cases hd : d = 0#5
  · rw [if_pos hd, hd, kept_zero]; rfl
  · rw [if_neg hd]
    obtain ⟨h1, h2⟩ := h.resolve_left hd
    rw [U_bind_ok (farCheck_ok h1), U_bind_ok (curCtx_apply s)]
    cases hr : remap (s.ctx s.cur.1 s.cur.2).cmode d with
    | none =>
      have : remap s.me.cmode d = none := hr
      simp only [kept, this]
      rfl
    | some i =>
      have := h2 i hr
      simp only [State.mine] at this
      have hk : remap s.me.cmode d = some i := hr
      simp only [U_bind_apply, curCore_apply, kept, hk]
      rw [if_neg (by omega)]
      rfl

theorem sendRequest_apply (op : RemoteOp) (a : LsAddr) (d : GReg) (s : State) : sendRequest op a d s = .ok (.hold .reply, sending s op a d) := rfl

theorem finish_hold {s t : State} (w : Wait) : finishUnit t s.cur.1 s.cur.2 s.unitOf false (.hold w) = waiting s t w := rfl
end Sys2Proof.Laws
end

