-- ==== Sys2Proof/Laws/PerInstr.lean ====
section
/-! SUPPORT. The encodings, instruction by instruction: the decoder reads from the word of an instruction that instruction. -/

set_option linter.unusedSimpArgs false

namespace Sys2Proof.Laws
open Sys2Proof

/-! ### Fields of a word put together from its parts -/

theorem bits_low {n m : Nat} (x : BitVec n) (y : BitVec m) (s l : Nat) (h : s + l ≤ m) :
    (BitVec.append x y).extractLsb' s l = y.extractLsb' s l := by
  apply BitVec.eq_of_getLsbD_eq
  intro i hi
  simp [BitVec.getLsbD_append, hi]
  omega

theorem bits_high {n m : Nat} (x : BitVec n) (y : BitVec m) (s l : Nat) (h : m ≤ s) :
    (BitVec.append x y).extractLsb' s l = x.extractLsb' (s - m) l := by
  apply BitVec.eq_of_getLsbD_eq
  intro i hi
  simp [BitVec.getLsbD_append, hi]
  rw [if_neg (by omega), show s + i - m = s - m + i by omega]

theorem bits_all {n : Nat} (x : BitVec n) : x.extractLsb' 0 n = x := by simp

/-- A field is not `v` when a part of it reads otherwise. -/
theorem bits_ne {W : Nat} {w : BitVec W} {l n l2 n2 : Nat} {v : BitVec n} {u : BitVec n2} (t k s : Nat)
    (f : w.extractLsb' l2 n2 = u) (ht : l + t = l2 + s) (hn : t + k ≤ n) (hn2 : s + k ≤ n2)
    (h : v.extractLsb' t k ≠ u.extractLsb' s k) : w.extractLsb' l n ≠ v := by
  intro e
  apply h
  rw [← e, ← f]
  apply BitVec.eq_of_getLsbD_eq
  intro i hi
  simp only [BitVec.getLsbD_extractLsb']
  have h1 : t + i < n := by omega
  have h2 : s + i < n2 := by omega
  simp only [hi, h1, h2, decide_true, Bool.true_and]
  congr 1
  omega

theorem low_reg {d : GReg} (h : d.extractLsb' 3 2 = 1#2) : 1#2 ++ d.extractLsb' 0 3 = d := by
  rw [← h]
  revert d
  decide

theorem low_regs {d b : GReg} (h : ((d.extractLsb' 3 2 == 1#2) && (b.extractLsb' 3 2 == 1#2)) = true) :
    1#2 ++ d.extractLsb' 0 3 = d ∧ 1#2 ++ b.extractLsb' 0 3 = b := by
  simp only [Bool.and_eq_true, beq_iff_eq] at h
  exact ⟨low_reg h.1, low_reg h.2⟩

/-! ### Each named field reads back from its code -/

theorem lowPred_low (p : PReg) : lowPred (0#2 ++ p) = some p := by revert p; decide
theorem lowTile_low (p : TReg) : lowTile (0#3 ++ p) = some p := by revert p; decide
theorem ElemType.ofBits_toBits (t : ElemType) : ElemType.ofBits t.toBits = some t := by cases t <;> rfl
theorem Cond.ofBits_toBits (t : Cond) : Cond.ofBits t.toBits = some t := by cases t <;> rfl
theorem PCond.ofBits_toBits (t : PCond) : PCond.ofBits t.toBits = some t := by cases t <;> rfl
theorem VCond.ofBits_toBits (t : VCond) : VCond.ofBits t.toBits = t := by cases t <;> rfl
theorem Scope.ofBits_toBits (t : Scope) : Scope.ofBits t.toBits = t := by cases t <;> rfl
theorem Rounding.ofBits_toBits (t : Rounding) : Rounding.ofBits t.toBits = some t := by cases t <;> rfl
theorem RepKind.ofBits_toBits (t : RepKind) : RepKind.ofBits t.toBits = t := by cases t <;> rfl
theorem GetIdSel.ofBits_toBits (t : GetIdSel) : GetIdSel.ofBits t.toBits = some t := by cases t <;> rfl
theorem StdTable.ofBits_toBits (t : StdTable) : StdTable.ofBits t.toBits = some t := by cases t <;> rfl
theorem ScanOp.ofBits_toBits (t : ScanOp) : ScanOp.ofBits t.toBits = some t := by cases t <;> rfl
theorem ofBool_beq (b : Bool) : (BitVec.ofBool b == 1#1) = b := by cases b <;> rfl

theorem cwrForm_layout (n : BitVec 5) (s1 : GReg) : cwrForm (2#8 ++ n) s1 = .cwrLayout n s1 := by
  have h : ∀ n : BitVec 5, 2#8 ++ n ≠ 0x10#13 ∧ 2#8 ++ n ≠ 0x12#13 ∧ (2#8 ++ n).extractLsb' 5 8 = 2#8 ∧
    (2#8 ++ n).extractLsb' 0 5 = n := by decide
  obtain ⟨h0, h1, h2, h3⟩ := h n
  rw [cwrForm, if_neg h0, if_neg h1, if_pos h2, h3]

theorem cwrForm_class (n : BitVec 5) (s1 : GReg) : cwrForm (5#8 ++ n) s1 = .cwrClass n s1 := by
  have h : ∀ n : BitVec 5, 5#8 ++ n ≠ 0x10#13 ∧ 5#8 ++ n ≠ 0x12#13 ∧ (5#8 ++ n).extractLsb' 5 8 ≠ 2#8 ∧ 5#8 ++ n ≠ 0x60#13 ∧
    5#8 ++ n ≠ 0x61#13 ∧ (5#8 ++ n).extractLsb' 5 8 = 5#8 ∧ (5#8 ++ n).extractLsb' 0 5 = n := by decide
  obtain ⟨h0, h1, h2, h3, h4, h5, h6⟩ := h n
  rw [cwrForm, if_neg h0, if_neg h1, if_neg h2, if_neg h3, if_neg h4, if_pos h5, h6]

/-! ### From the low bits of a word to its rows of the opcode table -/

/-- The decoder's choice by the low byte of a word. -/
theorem decodeWord_low (w : BitVec 32) (k : BitVec 8) (h : w.extractLsb' 0 8 = k) : decodeWord w =
    if k.extractLsb' 0 1 = 1#1 then
      let lo := (k.extractLsb' 1 3).toNat
      match (k.extractLsb' 4 4).toNat with
      | 0 => decodeMajors00 lo w | 1 => decodeMajors08 lo w | 2 => decodeMajors10 lo w | 3 => decodeMajors18 lo w
      | 4 => decodeMajors20 lo w | 5 => decodeMajors28 lo w | 6 => decodeMajors30 lo w | 7 => decodeMajors38 lo w
      | 8 => decodeMajors40 lo w | 9 => decodeMajors48 lo w | 10 => decodeMajors50 lo w | 11 => decodeMajors58 lo w
      | 12 => decodeMajors60 lo w | 13 => decodeMajors68 lo w | 14 => decodeMajors70 lo w | 15 => decodeMajors78 lo w
      | _ => none
    else none := by
  subst h
  have e : ∀ s l, s + l ≤ 8 → (w.extractLsb' 0 8).extractLsb' s l = w.extractLsb' s l := by
    intro s l hl
    apply BitVec.eq_of_getLsbD_eq
    intro i hi
    have h1 : s + i < 8 := by omega
    simp [hi, h1]
  rw [e 0 1 (by decide), e 1 3 (by decide), e 4 4 (by decide)]
  rfl

/-- The decoder's choice by the low six bits of a halfword. -/
theorem decodeHalf_low (w : BitVec 16) (k : BitVec 6) (h : w.extractLsb' 0 6 = k) : decodeHalf w =
    if k.extractLsb' 0 1 = 0#1 then
      let lo := (k.extractLsb' 1 3).toNat
      match (k.extractLsb' 4 2).toNat with
      | 0 => decodeCompact00 lo w | 1 => decodeCompact08 lo w | 2 => decodeCompact16 lo w | 3 => decodeCompact24 lo w
      | _ => none
    else none := by
  subst h
  have e : ∀ s l, s + l ≤ 6 → (w.extractLsb' 0 6).extractLsb' s l = w.extractLsb' s l := by
    intro s l hl
    apply BitVec.eq_of_getLsbD_eq
    intro i hi
    have h1 : s + i < 6 := by omega
    simp [hi, h1]
  rw [e 0 1 (by decide), e 1 3 (by decide), e 4 2 (by decide)]
  rfl

/-- An instruction spelled as its word spells it is what the decoder reads from its word or halfword; no word has the low
byte of a prefix. -/
def Codes.Statement (i : Instr) : Prop :=
  i.canonical = true → (∀ w, encodeWord i = some w → decodeWord w = some i ∧ w.extractLsb' 0 1 = 1#1 ∧ w.extractLsb' 0 8 ≠ 0xFF#8) ∧
    ∀ w, encodeHalf i = some w → decodeHalf w = some i ∧ w.extractLsb' 0 1 = 0#1

theorem codes_none (i : Instr) (h : encodeWord i = none) (h2 : encodeHalf i = none) : Codes.Statement i := by
  refine fun _ => ⟨fun w e => ?_, fun w e => ?_⟩
  · rw [h] at e; cases e
  · rw [h2] at e; cases e

theorem codes_word (i : Instr) {x : BitVec 32} (h : encodeWord i = some x) (h2 : encodeHalf i = none)
    (hx : i.canonical = true → decodeWord x = some i) (k : BitVec 8) (f0 : x.extractLsb' 0 8 = k) (hk : k.extractLsb' 0 1 = 1#1)
    (hp : k ≠ 0xFF#8) : Codes.Statement i := by
  refine fun hc => ⟨fun w e => ?_, fun w e => ?_⟩
  · rw [h] at e
    cases e
    refine ⟨hx hc, ?_, f0 ▸ hp⟩
    rw [← hk, ← f0]
    apply BitVec.eq_of_getLsbD_eq
    intro i hi
    have h1 : i < 8 := by omega
    simp [hi, h1]
  · rw [h2] at e; cases e

theorem codes_half (i : Instr) {x : BitVec 16} (h : encodeWord i = none) (h2 : encodeHalf i = some x)
    (hx : i.canonical = true → decodeHalf x = some i) (k : BitVec 6) (f0 : x.extractLsb' 0 6 = k) (hk : k.extractLsb' 0 1 = 0#1) :
    Codes.Statement i := by
  refine fun hc => ⟨fun w e => ?_, fun w e => ?_⟩
  · rw [h] at e; cases e
  · rw [h2] at e
    cases e
    refine ⟨hx hc, ?_⟩
    rw [← hk, ← f0]
    apply BitVec.eq_of_getLsbD_eq
    intro i hi
    have h1 : i < 6 := by omega
    simp [hi, h1]

/-! ### The instructions -/

theorem Codes.nop : Codes.Statement .nop := by
  obtain ⟨w, hw⟩ : ∃ w, w = 0#24 ++ 1#8 := ⟨_, rfl⟩
  have hf : w.extractLsb' 8 24 = 0#24 ∧
      w.extractLsb' 0 8 = 1#8 := by
    subst hw; simp only [HAppend.hAppend, bits_low, bits_high, bits_all, Nat.reduceAdd, Nat.reduceSub, Nat.reduceLeDiff, BitVec.reduceExtractLsb', and_self]
  obtain ⟨f8, f0⟩ := hf
  refine codes_word _ (congrArg some hw.symm) rfl (fun hc => ?_) 1#8 f0 rfl (by decide)
  exact (decodeWord_low w 1#8 f0).trans (by
    show decodeMajors00 0 w = _
    simp only [decodeMajors00, f8, BitVec.reduceEq, and_true, and_false, false_and, reduceIte])

theorem Codes.br (off : BitVec 24) : Codes.Statement (.br off) := by
  obtain ⟨w, hw⟩ : ∃ w, w = off ++ 3#8 := ⟨_, rfl⟩
  have hf : w.extractLsb' 8 24 = off ∧
      w.extractLsb' 0 8 = 3#8 := by
    subst hw; simp only [HAppend.hAppend, bits_low, bits_high, bits_all, Nat.reduceAdd, Nat.reduceSub, Nat.reduceLeDiff, BitVec.reduceExtractLsb', and_self]
  obtain ⟨f8, f0⟩ := hf
  refine codes_word _ (congrArg some hw.symm) rfl (fun hc => ?_) 3#8 f0 rfl (by decide)
  exact (decodeWord_low w 3#8 f0).trans (by
    show decodeMajors00 1 w = _
    simp only [decodeMajors00, f8, BitVec.reduceEq, and_true, and_false, false_and, reduceIte])

theorem Codes.bcc (c : Cond) (s1 : GReg) (s2 : GReg) (off : BitVec 9) : Codes.Statement (.bcc c s1 s2 off) := by
  obtain ⟨w, hw⟩ : ∃ w, w = off ++ (s2 ++ (s1 ++ (c.toBits ++ 5#8))) := ⟨_, rfl⟩
  have hf : w.extractLsb' 8 5 = c.toBits ∧
      w.extractLsb' 13 5 = s1 ∧
      w.extractLsb' 18 5 = s2 ∧
      w.extractLsb' 23 9 = off ∧
      w.extractLsb' 0 8 = 5#8 := by
    subst hw; simp only [HAppend.hAppend, bits_low, bits_high, bits_all, Nat.reduceAdd, Nat.reduceSub, Nat.reduceLeDiff, BitVec.reduceExtractLsb', and_self]
  obtain ⟨f8, f13, f18, f23, f0⟩ := hf
  refine codes_word _ (congrArg some hw.symm) rfl (fun hc => ?_) 5#8 f0 rfl (by decide)
  exact (decodeWord_low w 5#8 f0).trans (by
    show decodeMajors00 2 w = _
    simp only [decodeMajors00, f8, f13, f18, f23, Cond.ofBits_toBits, Option.bind_some, BitVec.reduceEq, and_true, and_false, false_and, reduceIte])

theorem Codes.bp (c : PCond) (p : PReg) (off : BitVec 15) : Codes.Statement (.bp c p off) := by
  obtain ⟨w, hw⟩ : ∃ w, w = 0#4 ++ (c.toBits ++ (p ++ (off ++ 7#8))) := ⟨_, rfl⟩
  have hf : w.extractLsb' 28 4 = 0#4 ∧
      w.extractLsb' 26 2 = c.toBits ∧
      w.extractLsb' 23 3 = p ∧
      w.extractLsb' 8 15 = off ∧
      w.extractLsb' 0 8 = 7#8 := by
    subst hw; simp only [HAppend.hAppend, bits_low, bits_high, bits_all, Nat.reduceAdd, Nat.reduceSub, Nat.reduceLeDiff, BitVec.reduceExtractLsb', and_self]
  obtain ⟨f28, f26, f23, f8, f0⟩ := hf
  refine codes_word _ (congrArg some hw.symm) rfl (fun hc => ?_) 7#8 f0 rfl (by decide)
  exact (decodeWord_low w 7#8 f0).trans (by
    show decodeMajors00 3 w = _
    simp only [decodeMajors00, f28, f26, f23, f8, PCond.ofBits_toBits, Option.bind_some, BitVec.reduceEq, and_true, and_false, false_and, reduceIte])

theorem Codes.call (off : BitVec 24) : Codes.Statement (.call off) := by
  obtain ⟨w, hw⟩ : ∃ w, w = off ++ 9#8 := ⟨_, rfl⟩
  have hf : w.extractLsb' 8 24 = off ∧
      w.extractLsb' 0 8 = 9#8 := by
    subst hw; simp only [HAppend.hAppend, bits_low, bits_high, bits_all, Nat.reduceAdd, Nat.reduceSub, Nat.reduceLeDiff, BitVec.reduceExtractLsb', and_self]
  obtain ⟨f8, f0⟩ := hf
  refine codes_word _ (congrArg some hw.symm) rfl (fun hc => ?_) 9#8 f0 rfl (by decide)
  exact (decodeWord_low w 9#8 f0).trans (by
    show decodeMajors00 4 w = _
    simp only [decodeMajors00, f8, BitVec.reduceEq, and_true, and_false, false_and, reduceIte])

theorem Codes.callr (d : GReg) (s1 : GReg) : Codes.Statement (.callr d s1) := by
  obtain ⟨w, hw⟩ : ∃ w, w = 0#14 ++ (s1 ++ (d ++ 11#8)) := ⟨_, rfl⟩
  have hf : w.extractLsb' 18 14 = 0#14 ∧
      w.extractLsb' 8 5 = d ∧
      w.extractLsb' 13 5 = s1 ∧
      w.extractLsb' 0 8 = 11#8 := by
    subst hw; simp only [HAppend.hAppend, bits_low, bits_high, bits_all, Nat.reduceAdd, Nat.reduceSub, Nat.reduceLeDiff, BitVec.reduceExtractLsb', and_self]
  obtain ⟨f18, f8, f13, f0⟩ := hf
  refine codes_word _ (congrArg some hw.symm) rfl (fun hc => ?_) 11#8 f0 rfl (by decide)
  exact (decodeWord_low w 11#8 f0).trans (by
    show decodeMajors00 5 w = _
    simp only [decodeMajors00, f18, f8, f13, BitVec.reduceEq, and_true, and_false, false_and, reduceIte])

theorem Codes.ret : Codes.Statement .ret := by
  obtain ⟨w, hw⟩ : ∃ w, w = 0#24 ++ 13#8 := ⟨_, rfl⟩
  have hf : w.extractLsb' 8 24 = 0#24 ∧
      w.extractLsb' 0 8 = 13#8 := by
    subst hw; simp only [HAppend.hAppend, bits_low, bits_high, bits_all, Nat.reduceAdd, Nat.reduceSub, Nat.reduceLeDiff, BitVec.reduceExtractLsb', and_self]
  obtain ⟨f8, f0⟩ := hf
  refine codes_word _ (congrArg some hw.symm) rfl (fun hc => ?_) 13#8 f0 rfl (by decide)
  exact (decodeWord_low w 13#8 f0).trans (by
    show decodeMajors00 6 w = _
    simp only [decodeMajors00, f8, BitVec.reduceEq, and_true, and_false, false_and, reduceIte])

theorem Codes.jr (s1 : GReg) : Codes.Statement (.jr s1) := by
  obtain ⟨w, hw⟩ : ∃ w, w = 0#14 ++ (s1 ++ (0#5 ++ 15#8)) := ⟨_, rfl⟩
  have hf : w.extractLsb' 8 5 = 0#5 ∧
      w.extractLsb' 18 14 = 0#14 ∧
      w.extractLsb' 13 5 = s1 ∧
      w.extractLsb' 0 8 = 15#8 := by
    subst hw; simp only [HAppend.hAppend, bits_low, bits_high, bits_all, Nat.reduceAdd, Nat.reduceSub, Nat.reduceLeDiff, BitVec.reduceExtractLsb', and_self]
  obtain ⟨f8, f18, f13, f0⟩ := hf
  refine codes_word _ (congrArg some hw.symm) rfl (fun hc => ?_) 15#8 f0 rfl (by decide)
  exact (decodeWord_low w 15#8 f0).trans (by
    show decodeMajors00 7 w = _
    simp only [decodeMajors00, f8, f18, f13, BitVec.reduceEq, and_true, and_false, false_and, reduceIte])

theorem Codes.loop (ctr : GReg) (off : BitVec 9) : Codes.Statement (.loop ctr off) := by
  obtain ⟨w, hw⟩ : ∃ w, w = off ++ (0#10 ++ (ctr ++ 17#8)) := ⟨_, rfl⟩
  have hf : w.extractLsb' 13 10 = 0#10 ∧
      w.extractLsb' 8 5 = ctr ∧
      w.extractLsb' 23 9 = off ∧
      w.extractLsb' 0 8 = 17#8 := by
    subst hw; simp only [HAppend.hAppend, bits_low, bits_high, bits_all, Nat.reduceAdd, Nat.reduceSub, Nat.reduceLeDiff, BitVec.reduceExtractLsb', and_self]
  obtain ⟨f13, f8, f23, f0⟩ := hf
  refine codes_word _ (congrArg some hw.symm) rfl (fun hc => ?_) 17#8 f0 rfl (by decide)
  exact (decodeWord_low w 17#8 f0).trans (by
    show decodeMajors08 0 w = _
    simp only [decodeMajors08, f13, f8, f23, BitVec.reduceEq, and_true, and_false, false_and, reduceIte])

theorem Codes.rep (s1 : GReg) (n : BitVec 4) (kind : RepKind) (base : BitVec 5) (sz : BitVec 3) (stride : BitVec 5) : Codes.Statement (.rep s1 n kind base sz stride) := by
  obtain ⟨w, hw⟩ : ∃ w, w = n ++ (sz ++ (stride ++ (kind.toBits ++ (s1 ++ (base ++ 19#8))))) := ⟨_, rfl⟩
  have hf : w.extractLsb' 13 5 = s1 ∧
      w.extractLsb' 28 4 = n ∧
      w.extractLsb' 18 2 = kind.toBits ∧
      w.extractLsb' 8 5 = base ∧
      w.extractLsb' 25 3 = sz ∧
      w.extractLsb' 20 5 = stride ∧
      w.extractLsb' 0 8 = 19#8 := by
    subst hw; simp only [HAppend.hAppend, bits_low, bits_high, bits_all, Nat.reduceAdd, Nat.reduceSub, Nat.reduceLeDiff, BitVec.reduceExtractLsb', and_self]
  obtain ⟨f13, f28, f18, f8, f25, f20, f0⟩ := hf
  refine codes_word _ (congrArg some hw.symm) rfl (fun hc => ?_) 19#8 f0 rfl (by decide)
  exact (decodeWord_low w 19#8 f0).trans (by
    show decodeMajors08 1 w = _
    simp only [decodeMajors08, f13, f28, f18, f8, f25, f20, RepKind.ofBits_toBits, BitVec.reduceEq, and_true, and_false, false_and, reduceIte])

theorem Codes.start (d : GReg) (s1 : GReg) (off : BitVec 14) : Codes.Statement (.start d s1 off) := by
  obtain ⟨w, hw⟩ : ∃ w, w = off ++ (s1 ++ (d ++ 21#8)) := ⟨_, rfl⟩
  have hf : w.extractLsb' 8 5 = d ∧
      w.extractLsb' 13 5 = s1 ∧
      w.extractLsb' 18 14 = off ∧
      w.extractLsb' 0 8 = 21#8 := by
    subst hw; simp only [HAppend.hAppend, bits_low, bits_high, bits_all, Nat.reduceAdd, Nat.reduceSub, Nat.reduceLeDiff, BitVec.reduceExtractLsb', and_self]
  obtain ⟨f8, f13, f18, f0⟩ := hf
  refine codes_word _ (congrArg some hw.symm) rfl (fun hc => ?_) 21#8 f0 rfl (by decide)
  exact (decodeWord_low w 21#8 f0).trans (by
    show decodeMajors08 2 w = _
    simp only [decodeMajors08, f8, f13, f18, BitVec.reduceEq, and_true, and_false, false_and, reduceIte])

theorem Codes.endCtx : Codes.Statement .endCtx := by
  obtain ⟨w, hw⟩ : ∃ w, w = 0#24 ++ 23#8 := ⟨_, rfl⟩
  have hf : w.extractLsb' 8 24 = 0#24 ∧
      w.extractLsb' 0 8 = 23#8 := by
    subst hw; simp only [HAppend.hAppend, bits_low, bits_high, bits_all, Nat.reduceAdd, Nat.reduceSub, Nat.reduceLeDiff, BitVec.reduceExtractLsb', and_self]
  obtain ⟨f8, f0⟩ := hf
  refine codes_word _ (congrArg some hw.symm) rfl (fun hc => ?_) 23#8 f0 rfl (by decide)
  exact (decodeWord_low w 23#8 f0).trans (by
    show decodeMajors08 3 w = _
    simp only [decodeMajors08, f8, BitVec.reduceEq, and_true, and_false, false_and, reduceIte])

theorem Codes.yield : Codes.Statement .yield := by
  obtain ⟨w, hw⟩ : ∃ w, w = 0#24 ++ 25#8 := ⟨_, rfl⟩
  have hf : w.extractLsb' 8 24 = 0#24 ∧
      w.extractLsb' 0 8 = 25#8 := by
    subst hw; simp only [HAppend.hAppend, bits_low, bits_high, bits_all, Nat.reduceAdd, Nat.reduceSub, Nat.reduceLeDiff, BitVec.reduceExtractLsb', and_self]
  obtain ⟨f8, f0⟩ := hf
  refine codes_word _ (congrArg some hw.symm) rfl (fun hc => ?_) 25#8 f0 rfl (by decide)
  exact (decodeWord_low w 25#8 f0).trans (by
    show decodeMajors08 4 w = _
    simp only [decodeMajors08, f8, BitVec.reduceEq, and_true, and_false, false_and, reduceIte])

theorem Codes.wait (d : GReg) (s1 : GReg) (mask : BitVec 10) : Codes.Statement (.wait d s1 mask) := by
  obtain ⟨w, hw⟩ : ∃ w, w = 0#3 ++ (mask ++ (0#1 ++ (s1 ++ (d ++ 27#8)))) := ⟨_, rfl⟩
  have hf : w.extractLsb' 18 1 = 0#1 ∧
      w.extractLsb' 29 3 = 0#3 ∧
      w.extractLsb' 8 5 = d ∧
      w.extractLsb' 13 5 = s1 ∧
      w.extractLsb' 19 10 = mask ∧
      w.extractLsb' 0 8 = 27#8 := by
    subst hw; simp only [HAppend.hAppend, bits_low, bits_high, bits_all, Nat.reduceAdd, Nat.reduceSub, Nat.reduceLeDiff, BitVec.reduceExtractLsb', and_self]
  obtain ⟨f18, f29, f8, f13, f19, f0⟩ := hf
  refine codes_word _ (congrArg some hw.symm) rfl (fun hc => ?_) 27#8 f0 rfl (by decide)
  exact (decodeWord_low w 27#8 f0).trans (by
    show decodeMajors08 5 w = _
    simp only [decodeMajors08, f18, f29, f8, f13, f19, BitVec.reduceEq, and_true, and_false, false_and, reduceIte])

theorem Codes.getid (d : GReg) (which : GetIdSel) : Codes.Statement (.getid d which) := by
  obtain ⟨w, hw⟩ : ∃ w, w = 0#9 ++ (which.toBits ++ (0#5 ++ (d ++ 29#8))) := ⟨_, rfl⟩
  have hf : w.extractLsb' 13 5 = 0#5 ∧
      w.extractLsb' 23 9 = 0#9 ∧
      w.extractLsb' 8 5 = d ∧
      w.extractLsb' 18 5 = which.toBits ∧
      w.extractLsb' 0 8 = 29#8 := by
    subst hw; simp only [HAppend.hAppend, bits_low, bits_high, bits_all, Nat.reduceAdd, Nat.reduceSub, Nat.reduceLeDiff, BitVec.reduceExtractLsb', and_self]
  obtain ⟨f13, f23, f8, f18, f0⟩ := hf
  refine codes_word _ (congrArg some hw.symm) rfl (fun hc => ?_) 29#8 f0 rfl (by decide)
  exact (decodeWord_low w 29#8 f0).trans (by
    show decodeMajors08 6 w = _
    simp only [decodeMajors08, f13, f23, f8, f18, GetIdSel.ofBits_toBits, Option.bind_some, BitVec.reduceEq, and_true, and_false, false_and, reduceIte])

theorem Codes.brk (code : BitVec 24) : Codes.Statement (.brk code) := by
  obtain ⟨w, hw⟩ : ∃ w, w = code ++ 31#8 := ⟨_, rfl⟩
  have hf : w.extractLsb' 8 24 = code ∧
      w.extractLsb' 0 8 = 31#8 := by
    subst hw; simp only [HAppend.hAppend, bits_low, bits_high, bits_all, Nat.reduceAdd, Nat.reduceSub, Nat.reduceLeDiff, BitVec.reduceExtractLsb', and_self]
  obtain ⟨f8, f0⟩ := hf
  refine codes_word _ (congrArg some hw.symm) rfl (fun hc => ?_) 31#8 f0 rfl (by decide)
  exact (decodeWord_low w 31#8 f0).trans (by
    show decodeMajors08 7 w = _
    simp only [decodeMajors08, f8, BitVec.reduceEq, and_true, and_false, false_and, reduceIte])

theorem Codes.extPrefixedUnit (payload : BitVec 24) (body : Instr) : Codes.Statement (.extPrefixedUnit payload body) :=
  codes_none _ rfl rfl

theorem Codes.add (d : GReg) (s1 : GReg) (s2 : GReg) : Codes.Statement (.add d s1 s2) := by
  obtain ⟨w, hw⟩ : ∃ w, w = 0#9 ++ (s2 ++ (s1 ++ (d ++ 33#8))) := ⟨_, rfl⟩
  have hf : w.extractLsb' 23 9 = 0#9 ∧
      w.extractLsb' 8 5 = d ∧
      w.extractLsb' 13 5 = s1 ∧
      w.extractLsb' 18 5 = s2 ∧
      w.extractLsb' 0 8 = 33#8 := by
    subst hw; simp only [HAppend.hAppend, bits_low, bits_high, bits_all, Nat.reduceAdd, Nat.reduceSub, Nat.reduceLeDiff, BitVec.reduceExtractLsb', and_self]
  obtain ⟨f23, f8, f13, f18, f0⟩ := hf
  refine codes_word _ (congrArg some hw.symm) rfl (fun hc => ?_) 33#8 f0 rfl (by decide)
  exact (decodeWord_low w 33#8 f0).trans (by
    show decodeMajors10 0 w = _
    simp only [decodeMajors10, f23, f8, f13, f18, BitVec.reduceEq, and_true, and_false, false_and, reduceIte])

theorem Codes.addi (d : GReg) (s1 : GReg) (imm : BitVec 14) : Codes.Statement (.addi d s1 imm) := by
  obtain ⟨w, hw⟩ : ∃ w, w = imm ++ (s1 ++ (d ++ 35#8)) := ⟨_, rfl⟩
  have hf : w.extractLsb' 8 5 = d ∧
      w.extractLsb' 13 5 = s1 ∧
      w.extractLsb' 18 14 = imm ∧
      w.extractLsb' 0 8 = 35#8 := by
    subst hw; simp only [HAppend.hAppend, bits_low, bits_high, bits_all, Nat.reduceAdd, Nat.reduceSub, Nat.reduceLeDiff, BitVec.reduceExtractLsb', and_self]
  obtain ⟨f8, f13, f18, f0⟩ := hf
  refine codes_word _ (congrArg some hw.symm) rfl (fun hc => ?_) 35#8 f0 rfl (by decide)
  exact (decodeWord_low w 35#8 f0).trans (by
    show decodeMajors10 1 w = _
    simp only [decodeMajors10, f8, f13, f18, BitVec.reduceEq, and_true, and_false, false_and, reduceIte])

theorem Codes.sub (d : GReg) (s1 : GReg) (s2 : GReg) : Codes.Statement (.sub d s1 s2) := by
  obtain ⟨w, hw⟩ : ∃ w, w = 0#9 ++ (s2 ++ (s1 ++ (d ++ 37#8))) := ⟨_, rfl⟩
  have hf : w.extractLsb' 23 9 = 0#9 ∧
      w.extractLsb' 8 5 = d ∧
      w.extractLsb' 13 5 = s1 ∧
      w.extractLsb' 18 5 = s2 ∧
      w.extractLsb' 0 8 = 37#8 := by
    subst hw; simp only [HAppend.hAppend, bits_low, bits_high, bits_all, Nat.reduceAdd, Nat.reduceSub, Nat.reduceLeDiff, BitVec.reduceExtractLsb', and_self]
  obtain ⟨f23, f8, f13, f18, f0⟩ := hf
  refine codes_word _ (congrArg some hw.symm) rfl (fun hc => ?_) 37#8 f0 rfl (by decide)
  exact (decodeWord_low w 37#8 f0).trans (by
    show decodeMajors10 2 w = _
    simp only [decodeMajors10, f23, f8, f13, f18, BitVec.reduceEq, and_true, and_false, false_and, reduceIte])

theorem Codes.mul (d : GReg) (s1 : GReg) (s2 : GReg) : Codes.Statement (.mul d s1 s2) := by
  obtain ⟨w, hw⟩ : ∃ w, w = 0#9 ++ (s2 ++ (s1 ++ (d ++ 39#8))) := ⟨_, rfl⟩
  have hf : w.extractLsb' 23 9 = 0#9 ∧
      w.extractLsb' 8 5 = d ∧
      w.extractLsb' 13 5 = s1 ∧
      w.extractLsb' 18 5 = s2 ∧
      w.extractLsb' 0 8 = 39#8 := by
    subst hw; simp only [HAppend.hAppend, bits_low, bits_high, bits_all, Nat.reduceAdd, Nat.reduceSub, Nat.reduceLeDiff, BitVec.reduceExtractLsb', and_self]
  obtain ⟨f23, f8, f13, f18, f0⟩ := hf
  refine codes_word _ (congrArg some hw.symm) rfl (fun hc => ?_) 39#8 f0 rfl (by decide)
  exact (decodeWord_low w 39#8 f0).trans (by
    show decodeMajors10 3 w = _
    simp only [decodeMajors10, f23, f8, f13, f18, BitVec.reduceEq, and_true, and_false, false_and, reduceIte])

theorem Codes.mulhI64 (d : GReg) (s1 : GReg) (s2 : GReg) : Codes.Statement (.mulhI64 d s1 s2) := by
  obtain ⟨w, hw⟩ : ∃ w, w = 0#9 ++ (s2 ++ (s1 ++ (d ++ 41#8))) := ⟨_, rfl⟩
  have hf : w.extractLsb' 23 9 = 0#9 ∧
      w.extractLsb' 8 5 = d ∧
      w.extractLsb' 13 5 = s1 ∧
      w.extractLsb' 18 5 = s2 ∧
      w.extractLsb' 0 8 = 41#8 := by
    subst hw; simp only [HAppend.hAppend, bits_low, bits_high, bits_all, Nat.reduceAdd, Nat.reduceSub, Nat.reduceLeDiff, BitVec.reduceExtractLsb', and_self]
  obtain ⟨f23, f8, f13, f18, f0⟩ := hf
  refine codes_word _ (congrArg some hw.symm) rfl (fun hc => ?_) 41#8 f0 rfl (by decide)
  exact (decodeWord_low w 41#8 f0).trans (by
    show decodeMajors10 4 w = _
    simp only [decodeMajors10, f23, f8, f13, f18, BitVec.reduceEq, and_true, and_false, false_and, reduceIte])

theorem Codes.mulhN64 (d : GReg) (s1 : GReg) (s2 : GReg) : Codes.Statement (.mulhN64 d s1 s2) := by
  obtain ⟨w, hw⟩ : ∃ w, w = 32#9 ++ (s2 ++ (s1 ++ (d ++ 41#8))) := ⟨_, rfl⟩
  have hf : w.extractLsb' 23 9 = 32#9 ∧
      w.extractLsb' 8 5 = d ∧
      w.extractLsb' 13 5 = s1 ∧
      w.extractLsb' 18 5 = s2 ∧
      w.extractLsb' 0 8 = 41#8 := by
    subst hw; simp only [HAppend.hAppend, bits_low, bits_high, bits_all, Nat.reduceAdd, Nat.reduceSub, Nat.reduceLeDiff, BitVec.reduceExtractLsb', and_self]
  obtain ⟨f23, f8, f13, f18, f0⟩ := hf
  refine codes_word _ (congrArg some hw.symm) rfl (fun hc => ?_) 41#8 f0 rfl (by decide)
  exact (decodeWord_low w 41#8 f0).trans (by
    show decodeMajors10 4 w = _
    simp only [decodeMajors10, f23, f8, f13, f18, BitVec.reduceEq, and_true, and_false, false_and, reduceIte])

theorem Codes.mulhSu (d : GReg) (s1 : GReg) (s2 : GReg) : Codes.Statement (.mulhSu d s1 s2) := by
  obtain ⟨w, hw⟩ : ∃ w, w = 64#9 ++ (s2 ++ (s1 ++ (d ++ 41#8))) := ⟨_, rfl⟩
  have hf : w.extractLsb' 23 9 = 64#9 ∧
      w.extractLsb' 8 5 = d ∧
      w.extractLsb' 13 5 = s1 ∧
      w.extractLsb' 18 5 = s2 ∧
      w.extractLsb' 0 8 = 41#8 := by
    subst hw; simp only [HAppend.hAppend, bits_low, bits_high, bits_all, Nat.reduceAdd, Nat.reduceSub, Nat.reduceLeDiff, BitVec.reduceExtractLsb', and_self]
  obtain ⟨f23, f8, f13, f18, f0⟩ := hf
  refine codes_word _ (congrArg some hw.symm) rfl (fun hc => ?_) 41#8 f0 rfl (by decide)
  exact (decodeWord_low w 41#8 f0).trans (by
    show decodeMajors10 4 w = _
    simp only [decodeMajors10, f23, f8, f13, f18, BitVec.reduceEq, and_true, and_false, false_and, reduceIte])

theorem Codes.divI64 (d : GReg) (s1 : GReg) (s2 : GReg) : Codes.Statement (.divI64 d s1 s2) := by
  obtain ⟨w, hw⟩ : ∃ w, w = 0#9 ++ (s2 ++ (s1 ++ (d ++ 43#8))) := ⟨_, rfl⟩
  have hf : w.extractLsb' 23 9 = 0#9 ∧
      w.extractLsb' 8 5 = d ∧
      w.extractLsb' 13 5 = s1 ∧
      w.extractLsb' 18 5 = s2 ∧
      w.extractLsb' 0 8 = 43#8 := by
    subst hw; simp only [HAppend.hAppend, bits_low, bits_high, bits_all, Nat.reduceAdd, Nat.reduceSub, Nat.reduceLeDiff, BitVec.reduceExtractLsb', and_self]
  obtain ⟨f23, f8, f13, f18, f0⟩ := hf
  refine codes_word _ (congrArg some hw.symm) rfl (fun hc => ?_) 43#8 f0 rfl (by decide)
  exact (decodeWord_low w 43#8 f0).trans (by
    show decodeMajors10 5 w = _
    simp only [decodeMajors10, f23, f8, f13, f18, BitVec.reduceEq, and_true, and_false, false_and, reduceIte])

theorem Codes.divN64 (d : GReg) (s1 : GReg) (s2 : GReg) : Codes.Statement (.divN64 d s1 s2) := by
  obtain ⟨w, hw⟩ : ∃ w, w = 32#9 ++ (s2 ++ (s1 ++ (d ++ 43#8))) := ⟨_, rfl⟩
  have hf : w.extractLsb' 23 9 = 32#9 ∧
      w.extractLsb' 8 5 = d ∧
      w.extractLsb' 13 5 = s1 ∧
      w.extractLsb' 18 5 = s2 ∧
      w.extractLsb' 0 8 = 43#8 := by
    subst hw; simp only [HAppend.hAppend, bits_low, bits_high, bits_all, Nat.reduceAdd, Nat.reduceSub, Nat.reduceLeDiff, BitVec.reduceExtractLsb', and_self]
  obtain ⟨f23, f8, f13, f18, f0⟩ := hf
  refine codes_word _ (congrArg some hw.symm) rfl (fun hc => ?_) 43#8 f0 rfl (by decide)
  exact (decodeWord_low w 43#8 f0).trans (by
    show decodeMajors10 5 w = _
    simp only [decodeMajors10, f23, f8, f13, f18, BitVec.reduceEq, and_true, and_false, false_and, reduceIte])

theorem Codes.remI64 (d : GReg) (s1 : GReg) (s2 : GReg) : Codes.Statement (.remI64 d s1 s2) := by
  obtain ⟨w, hw⟩ : ∃ w, w = 0#9 ++ (s2 ++ (s1 ++ (d ++ 45#8))) := ⟨_, rfl⟩
  have hf : w.extractLsb' 23 9 = 0#9 ∧
      w.extractLsb' 8 5 = d ∧
      w.extractLsb' 13 5 = s1 ∧
      w.extractLsb' 18 5 = s2 ∧
      w.extractLsb' 0 8 = 45#8 := by
    subst hw; simp only [HAppend.hAppend, bits_low, bits_high, bits_all, Nat.reduceAdd, Nat.reduceSub, Nat.reduceLeDiff, BitVec.reduceExtractLsb', and_self]
  obtain ⟨f23, f8, f13, f18, f0⟩ := hf
  refine codes_word _ (congrArg some hw.symm) rfl (fun hc => ?_) 45#8 f0 rfl (by decide)
  exact (decodeWord_low w 45#8 f0).trans (by
    show decodeMajors10 6 w = _
    simp only [decodeMajors10, f23, f8, f13, f18, BitVec.reduceEq, and_true, and_false, false_and, reduceIte])

theorem Codes.remN64 (d : GReg) (s1 : GReg) (s2 : GReg) : Codes.Statement (.remN64 d s1 s2) := by
  obtain ⟨w, hw⟩ : ∃ w, w = 32#9 ++ (s2 ++ (s1 ++ (d ++ 45#8))) := ⟨_, rfl⟩
  have hf : w.extractLsb' 23 9 = 32#9 ∧
      w.extractLsb' 8 5 = d ∧
      w.extractLsb' 13 5 = s1 ∧
      w.extractLsb' 18 5 = s2 ∧
      w.extractLsb' 0 8 = 45#8 := by
    subst hw; simp only [HAppend.hAppend, bits_low, bits_high, bits_all, Nat.reduceAdd, Nat.reduceSub, Nat.reduceLeDiff, BitVec.reduceExtractLsb', and_self]
  obtain ⟨f23, f8, f13, f18, f0⟩ := hf
  refine codes_word _ (congrArg some hw.symm) rfl (fun hc => ?_) 45#8 f0 rfl (by decide)
  exact (decodeWord_low w 45#8 f0).trans (by
    show decodeMajors10 6 w = _
    simp only [decodeMajors10, f23, f8, f13, f18, BitVec.reduceEq, and_true, and_false, false_and, reduceIte])

theorem Codes.madd (d : GReg) (s1 : GReg) (s2 : GReg) (s3 : GReg) : Codes.Statement (.madd d s1 s2 s3) := by
  obtain ⟨w, hw⟩ : ∃ w, w = 0#4 ++ (s3 ++ (s2 ++ (s1 ++ (d ++ 47#8)))) := ⟨_, rfl⟩
  have hf : w.extractLsb' 28 4 = 0#4 ∧
      w.extractLsb' 8 5 = d ∧
      w.extractLsb' 13 5 = s1 ∧
      w.extractLsb' 18 5 = s2 ∧
      w.extractLsb' 23 5 = s3 ∧
      w.extractLsb' 0 8 = 47#8 := by
    subst hw; simp only [HAppend.hAppend, bits_low, bits_high, bits_all, Nat.reduceAdd, Nat.reduceSub, Nat.reduceLeDiff, BitVec.reduceExtractLsb', and_self]
  obtain ⟨f28, f8, f13, f18, f23, f0⟩ := hf
  refine codes_word _ (congrArg some hw.symm) rfl (fun hc => ?_) 47#8 f0 rfl (by decide)
  exact (decodeWord_low w 47#8 f0).trans (by
    show decodeMajors10 7 w = _
    simp only [decodeMajors10, f28, f8, f13, f18, f23, BitVec.reduceEq, and_true, and_false, false_and, reduceIte])

theorem Codes.msub (d : GReg) (s1 : GReg) (s2 : GReg) (s3 : GReg) : Codes.Statement (.msub d s1 s2 s3) := by
  obtain ⟨w, hw⟩ : ∃ w, w = 1#4 ++ (s3 ++ (s2 ++ (s1 ++ (d ++ 47#8)))) := ⟨_, rfl⟩
  have hf : w.extractLsb' 28 4 = 1#4 ∧
      w.extractLsb' 8 5 = d ∧
      w.extractLsb' 13 5 = s1 ∧
      w.extractLsb' 18 5 = s2 ∧
      w.extractLsb' 23 5 = s3 ∧
      w.extractLsb' 0 8 = 47#8 := by
    subst hw; simp only [HAppend.hAppend, bits_low, bits_high, bits_all, Nat.reduceAdd, Nat.reduceSub, Nat.reduceLeDiff, BitVec.reduceExtractLsb', and_self]
  obtain ⟨f28, f8, f13, f18, f23, f0⟩ := hf
  refine codes_word _ (congrArg some hw.symm) rfl (fun hc => ?_) 47#8 f0 rfl (by decide)
  exact (decodeWord_low w 47#8 f0).trans (by
    show decodeMajors10 7 w = _
    simp only [decodeMajors10, f28, f8, f13, f18, f23, BitVec.reduceEq, and_true, and_false, false_and, reduceIte])

theorem Codes.andR (d : GReg) (s1 : GReg) (s2 : GReg) : Codes.Statement (.andR d s1 s2) := by
  obtain ⟨w, hw⟩ : ∃ w, w = 0#9 ++ (s2 ++ (s1 ++ (d ++ 49#8))) := ⟨_, rfl⟩
  have hf : w.extractLsb' 23 9 = 0#9 ∧
      w.extractLsb' 8 5 = d ∧
      w.extractLsb' 13 5 = s1 ∧
      w.extractLsb' 18 5 = s2 ∧
      w.extractLsb' 0 8 = 49#8 := by
    subst hw; simp only [HAppend.hAppend, bits_low, bits_high, bits_all, Nat.reduceAdd, Nat.reduceSub, Nat.reduceLeDiff, BitVec.reduceExtractLsb', and_self]
  obtain ⟨f23, f8, f13, f18, f0⟩ := hf
  refine codes_word _ (congrArg some hw.symm) rfl (fun hc => ?_) 49#8 f0 rfl (by decide)
  exact (decodeWord_low w 49#8 f0).trans (by
    show decodeMajors18 0 w = _
    simp only [decodeMajors18, f23, f8, f13, f18, BitVec.reduceEq, and_true, and_false, false_and, reduceIte])

theorem Codes.orR (d : GReg) (s1 : GReg) (s2 : GReg) : Codes.Statement (.orR d s1 s2) := by
  obtain ⟨w, hw⟩ : ∃ w, w = 0#9 ++ (s2 ++ (s1 ++ (d ++ 51#8))) := ⟨_, rfl⟩
  have hf : w.extractLsb' 23 9 = 0#9 ∧
      w.extractLsb' 8 5 = d ∧
      w.extractLsb' 13 5 = s1 ∧
      w.extractLsb' 18 5 = s2 ∧
      w.extractLsb' 0 8 = 51#8 := by
    subst hw; simp only [HAppend.hAppend, bits_low, bits_high, bits_all, Nat.reduceAdd, Nat.reduceSub, Nat.reduceLeDiff, BitVec.reduceExtractLsb', and_self]
  obtain ⟨f23, f8, f13, f18, f0⟩ := hf
  refine codes_word _ (congrArg some hw.symm) rfl (fun hc => ?_) 51#8 f0 rfl (by decide)
  exact (decodeWord_low w 51#8 f0).trans (by
    show decodeMajors18 1 w = _
    simp only [decodeMajors18, f23, f8, f13, f18, BitVec.reduceEq, and_true, and_false, false_and, reduceIte])

theorem Codes.xorR (d : GReg) (s1 : GReg) (s2 : GReg) : Codes.Statement (.xorR d s1 s2) := by
  obtain ⟨w, hw⟩ : ∃ w, w = 0#9 ++ (s2 ++ (s1 ++ (d ++ 53#8))) := ⟨_, rfl⟩
  have hf : w.extractLsb' 23 9 = 0#9 ∧
      w.extractLsb' 8 5 = d ∧
      w.extractLsb' 13 5 = s1 ∧
      w.extractLsb' 18 5 = s2 ∧
      w.extractLsb' 0 8 = 53#8 := by
    subst hw; simp only [HAppend.hAppend, bits_low, bits_high, bits_all, Nat.reduceAdd, Nat.reduceSub, Nat.reduceLeDiff, BitVec.reduceExtractLsb', and_self]
  obtain ⟨f23, f8, f13, f18, f0⟩ := hf
  refine codes_word _ (congrArg some hw.symm) rfl (fun hc => ?_) 53#8 f0 rfl (by decide)
  exact (decodeWord_low w 53#8 f0).trans (by
    show decodeMajors18 2 w = _
    simp only [decodeMajors18, f23, f8, f13, f18, BitVec.reduceEq, and_true, and_false, false_and, reduceIte])

theorem Codes.andn (d : GReg) (s1 : GReg) (s2 : GReg) : Codes.Statement (.andn d s1 s2) := by
  obtain ⟨w, hw⟩ : ∃ w, w = 0#9 ++ (s2 ++ (s1 ++ (d ++ 55#8))) := ⟨_, rfl⟩
  have hf : w.extractLsb' 23 9 = 0#9 ∧
      w.extractLsb' 8 5 = d ∧
      w.extractLsb' 13 5 = s1 ∧
      w.extractLsb' 18 5 = s2 ∧
      w.extractLsb' 0 8 = 55#8 := by
    subst hw; simp only [HAppend.hAppend, bits_low, bits_high, bits_all, Nat.reduceAdd, Nat.reduceSub, Nat.reduceLeDiff, BitVec.reduceExtractLsb', and_self]
  obtain ⟨f23, f8, f13, f18, f0⟩ := hf
  refine codes_word _ (congrArg some hw.symm) rfl (fun hc => ?_) 55#8 f0 rfl (by decide)
  exact (decodeWord_low w 55#8 f0).trans (by
    show decodeMajors18 3 w = _
    simp only [decodeMajors18, f23, f8, f13, f18, BitVec.reduceEq, and_true, and_false, false_and, reduceIte])

theorem Codes.logiAnd (d : GReg) (s1 : GReg) (imm : BitVec 12) : Codes.Statement (.logiAnd d s1 imm) := by
  obtain ⟨w, hw⟩ : ∃ w, w = 0#2 ++ (imm ++ (s1 ++ (d ++ 57#8))) := ⟨_, rfl⟩
  have hf : w.extractLsb' 30 2 = 0#2 ∧
      w.extractLsb' 8 5 = d ∧
      w.extractLsb' 13 5 = s1 ∧
      w.extractLsb' 18 12 = imm ∧
      w.extractLsb' 0 8 = 57#8 := by
    subst hw; simp only [HAppend.hAppend, bits_low, bits_high, bits_all, Nat.reduceAdd, Nat.reduceSub, Nat.reduceLeDiff, BitVec.reduceExtractLsb', and_self]
  obtain ⟨f30, f8, f13, f18, f0⟩ := hf
  refine codes_word _ (congrArg some hw.symm) rfl (fun hc => ?_) 57#8 f0 rfl (by decide)
  exact (decodeWord_low w 57#8 f0).trans (by
    show decodeMajors18 4 w = _
    simp only [decodeMajors18, f30, f8, f13, f18, BitVec.reduceEq, and_true, and_false, false_and, reduceIte])

theorem Codes.logiOr (d : GReg) (s1 : GReg) (imm : BitVec 12) : Codes.Statement (.logiOr d s1 imm) := by
  obtain ⟨w, hw⟩ : ∃ w, w = 1#2 ++ (imm ++ (s1 ++ (d ++ 57#8))) := ⟨_, rfl⟩
  have hf : w.extractLsb' 30 2 = 1#2 ∧
      w.extractLsb' 8 5 = d ∧
      w.extractLsb' 13 5 = s1 ∧
      w.extractLsb' 18 12 = imm ∧
      w.extractLsb' 0 8 = 57#8 := by
    subst hw; simp only [HAppend.hAppend, bits_low, bits_high, bits_all, Nat.reduceAdd, Nat.reduceSub, Nat.reduceLeDiff, BitVec.reduceExtractLsb', and_self]
  obtain ⟨f30, f8, f13, f18, f0⟩ := hf
  refine codes_word _ (congrArg some hw.symm) rfl (fun hc => ?_) 57#8 f0 rfl (by decide)
  exact (decodeWord_low w 57#8 f0).trans (by
    show decodeMajors18 4 w = _
    simp only [decodeMajors18, f30, f8, f13, f18, BitVec.reduceEq, and_true, and_false, false_and, reduceIte])

theorem Codes.logiXor (d : GReg) (s1 : GReg) (imm : BitVec 12) : Codes.Statement (.logiXor d s1 imm) := by
  obtain ⟨w, hw⟩ : ∃ w, w = 2#2 ++ (imm ++ (s1 ++ (d ++ 57#8))) := ⟨_, rfl⟩
  have hf : w.extractLsb' 30 2 = 2#2 ∧
      w.extractLsb' 8 5 = d ∧
      w.extractLsb' 13 5 = s1 ∧
      w.extractLsb' 18 12 = imm ∧
      w.extractLsb' 0 8 = 57#8 := by
    subst hw; simp only [HAppend.hAppend, bits_low, bits_high, bits_all, Nat.reduceAdd, Nat.reduceSub, Nat.reduceLeDiff, BitVec.reduceExtractLsb', and_self]
  obtain ⟨f30, f8, f13, f18, f0⟩ := hf
  refine codes_word _ (congrArg some hw.symm) rfl (fun hc => ?_) 57#8 f0 rfl (by decide)
  exact (decodeWord_low w 57#8 f0).trans (by
    show decodeMajors18 4 w = _
    simp only [decodeMajors18, f30, f8, f13, f18, BitVec.reduceEq, and_true, and_false, false_and, reduceIte])

theorem Codes.logiAndn (d : GReg) (s1 : GReg) (imm : BitVec 12) : Codes.Statement (.logiAndn d s1 imm) := by
  obtain ⟨w, hw⟩ : ∃ w, w = 3#2 ++ (imm ++ (s1 ++ (d ++ 57#8))) := ⟨_, rfl⟩
  have hf : w.extractLsb' 30 2 = 3#2 ∧
      w.extractLsb' 8 5 = d ∧
      w.extractLsb' 13 5 = s1 ∧
      w.extractLsb' 18 12 = imm ∧
      w.extractLsb' 0 8 = 57#8 := by
    subst hw; simp only [HAppend.hAppend, bits_low, bits_high, bits_all, Nat.reduceAdd, Nat.reduceSub, Nat.reduceLeDiff, BitVec.reduceExtractLsb', and_self]
  obtain ⟨f30, f8, f13, f18, f0⟩ := hf
  refine codes_word _ (congrArg some hw.symm) rfl (fun hc => ?_) 57#8 f0 rfl (by decide)
  exact (decodeWord_low w 57#8 f0).trans (by
    show decodeMajors18 4 w = _
    simp only [decodeMajors18, f30, f8, f13, f18, BitVec.reduceEq, and_true, and_false, false_and, reduceIte])

theorem Codes.shl (d : GReg) (s1 : GReg) (s2 : GReg) : Codes.Statement (.shl d s1 s2) := by
  obtain ⟨w, hw⟩ : ∃ w, w = 0#9 ++ (s2 ++ (s1 ++ (d ++ 59#8))) := ⟨_, rfl⟩
  have hf : w.extractLsb' 23 9 = 0#9 ∧
      w.extractLsb' 8 5 = d ∧
      w.extractLsb' 13 5 = s1 ∧
      w.extractLsb' 18 5 = s2 ∧
      w.extractLsb' 0 8 = 59#8 := by
    subst hw; simp only [HAppend.hAppend, bits_low, bits_high, bits_all, Nat.reduceAdd, Nat.reduceSub, Nat.reduceLeDiff, BitVec.reduceExtractLsb', and_self]
  obtain ⟨f23, f8, f13, f18, f0⟩ := hf
  refine codes_word _ (congrArg some hw.symm) rfl (fun hc => ?_) 59#8 f0 rfl (by decide)
  exact (decodeWord_low w 59#8 f0).trans (by
    show decodeMajors18 5 w = _
    simp only [decodeMajors18, f23, f8, f13, f18, BitVec.reduceEq, and_true, and_false, false_and, reduceIte])

theorem Codes.shr (d : GReg) (s1 : GReg) (s2 : GReg) : Codes.Statement (.shr d s1 s2) := by
  obtain ⟨w, hw⟩ : ∃ w, w = 0#9 ++ (s2 ++ (s1 ++ (d ++ 61#8))) := ⟨_, rfl⟩
  have hf : w.extractLsb' 23 9 = 0#9 ∧
      w.extractLsb' 8 5 = d ∧
      w.extractLsb' 13 5 = s1 ∧
      w.extractLsb' 18 5 = s2 ∧
      w.extractLsb' 0 8 = 61#8 := by
    subst hw; simp only [HAppend.hAppend, bits_low, bits_high, bits_all, Nat.reduceAdd, Nat.reduceSub, Nat.reduceLeDiff, BitVec.reduceExtractLsb', and_self]
  obtain ⟨f23, f8, f13, f18, f0⟩ := hf
  refine codes_word _ (congrArg some hw.symm) rfl (fun hc => ?_) 61#8 f0 rfl (by decide)
  exact (decodeWord_low w 61#8 f0).trans (by
    show decodeMajors18 6 w = _
    simp only [decodeMajors18, f23, f8, f13, f18, BitVec.reduceEq, and_true, and_false, false_and, reduceIte])

theorem Codes.sar (d : GReg) (s1 : GReg) (s2 : GReg) : Codes.Statement (.sar d s1 s2) := by
  obtain ⟨w, hw⟩ : ∃ w, w = 0#9 ++ (s2 ++ (s1 ++ (d ++ 63#8))) := ⟨_, rfl⟩
  have hf : w.extractLsb' 23 9 = 0#9 ∧
      w.extractLsb' 8 5 = d ∧
      w.extractLsb' 13 5 = s1 ∧
      w.extractLsb' 18 5 = s2 ∧
      w.extractLsb' 0 8 = 63#8 := by
    subst hw; simp only [HAppend.hAppend, bits_low, bits_high, bits_all, Nat.reduceAdd, Nat.reduceSub, Nat.reduceLeDiff, BitVec.reduceExtractLsb', and_self]
  obtain ⟨f23, f8, f13, f18, f0⟩ := hf
  refine codes_word _ (congrArg some hw.symm) rfl (fun hc => ?_) 63#8 f0 rfl (by decide)
  exact (decodeWord_low w 63#8 f0).trans (by
    show decodeMajors18 7 w = _
    simp only [decodeMajors18, f23, f8, f13, f18, BitVec.reduceEq, and_true, and_false, false_and, reduceIte])

theorem Codes.rotL (d : GReg) (s1 : GReg) (s2 : GReg) : Codes.Statement (.rotL d s1 s2) := by
  obtain ⟨w, hw⟩ : ∃ w, w = 0#9 ++ (s2 ++ (s1 ++ (d ++ 65#8))) := ⟨_, rfl⟩
  have hf : w.extractLsb' 23 9 = 0#9 ∧
      w.extractLsb' 8 5 = d ∧
      w.extractLsb' 13 5 = s1 ∧
      w.extractLsb' 18 5 = s2 ∧
      w.extractLsb' 0 8 = 65#8 := by
    subst hw; simp only [HAppend.hAppend, bits_low, bits_high, bits_all, Nat.reduceAdd, Nat.reduceSub, Nat.reduceLeDiff, BitVec.reduceExtractLsb', and_self]
  obtain ⟨f23, f8, f13, f18, f0⟩ := hf
  refine codes_word _ (congrArg some hw.symm) rfl (fun hc => ?_) 65#8 f0 rfl (by decide)
  exact (decodeWord_low w 65#8 f0).trans (by
    show decodeMajors20 0 w = _
    simp only [decodeMajors20, f23, f8, f13, f18, BitVec.reduceEq, and_true, and_false, false_and, reduceIte])

theorem Codes.rotR (d : GReg) (s1 : GReg) (s2 : GReg) : Codes.Statement (.rotR d s1 s2) := by
  obtain ⟨w, hw⟩ : ∃ w, w = 32#9 ++ (s2 ++ (s1 ++ (d ++ 65#8))) := ⟨_, rfl⟩
  have hf : w.extractLsb' 23 9 = 32#9 ∧
      w.extractLsb' 8 5 = d ∧
      w.extractLsb' 13 5 = s1 ∧
      w.extractLsb' 18 5 = s2 ∧
      w.extractLsb' 0 8 = 65#8 := by
    subst hw; simp only [HAppend.hAppend, bits_low, bits_high, bits_all, Nat.reduceAdd, Nat.reduceSub, Nat.reduceLeDiff, BitVec.reduceExtractLsb', and_self]
  obtain ⟨f23, f8, f13, f18, f0⟩ := hf
  refine codes_word _ (congrArg some hw.symm) rfl (fun hc => ?_) 65#8 f0 rfl (by decide)
  exact (decodeWord_low w 65#8 f0).trans (by
    show decodeMajors20 0 w = _
    simp only [decodeMajors20, f23, f8, f13, f18, BitVec.reduceEq, and_true, and_false, false_and, reduceIte])

theorem Codes.shiShl (d : GReg) (s1 : GReg) (n : BitVec 6) : Codes.Statement (.shiShl d s1 n) := by
  obtain ⟨w, hw⟩ : ∃ w, w = 0#8 ++ (n ++ (s1 ++ (d ++ 67#8))) := ⟨_, rfl⟩
  have hf : w.extractLsb' 24 8 = 0#8 ∧
      w.extractLsb' 8 5 = d ∧
      w.extractLsb' 13 5 = s1 ∧
      w.extractLsb' 18 6 = n ∧
      w.extractLsb' 0 8 = 67#8 := by
    subst hw; simp only [HAppend.hAppend, bits_low, bits_high, bits_all, Nat.reduceAdd, Nat.reduceSub, Nat.reduceLeDiff, BitVec.reduceExtractLsb', and_self]
  obtain ⟨f24, f8, f13, f18, f0⟩ := hf
  refine codes_word _ (congrArg some hw.symm) rfl (fun hc => ?_) 67#8 f0 rfl (by decide)
  exact (decodeWord_low w 67#8 f0).trans (by
    show decodeMajors20 1 w = _
    simp only [decodeMajors20, f24, f8, f13, f18, BitVec.reduceEq, and_true, and_false, false_and, reduceIte])

theorem Codes.shiShr (d : GReg) (s1 : GReg) (n : BitVec 6) : Codes.Statement (.shiShr d s1 n) := by
  obtain ⟨w, hw⟩ : ∃ w, w = 1#8 ++ (n ++ (s1 ++ (d ++ 67#8))) := ⟨_, rfl⟩
  have hf : w.extractLsb' 24 8 = 1#8 ∧
      w.extractLsb' 8 5 = d ∧
      w.extractLsb' 13 5 = s1 ∧
      w.extractLsb' 18 6 = n ∧
      w.extractLsb' 0 8 = 67#8 := by
    subst hw; simp only [HAppend.hAppend, bits_low, bits_high, bits_all, Nat.reduceAdd, Nat.reduceSub, Nat.reduceLeDiff, BitVec.reduceExtractLsb', and_self]
  obtain ⟨f24, f8, f13, f18, f0⟩ := hf
  refine codes_word _ (congrArg some hw.symm) rfl (fun hc => ?_) 67#8 f0 rfl (by decide)
  exact (decodeWord_low w 67#8 f0).trans (by
    show decodeMajors20 1 w = _
    simp only [decodeMajors20, f24, f8, f13, f18, BitVec.reduceEq, and_true, and_false, false_and, reduceIte])

theorem Codes.shiSar (d : GReg) (s1 : GReg) (n : BitVec 6) : Codes.Statement (.shiSar d s1 n) := by
  obtain ⟨w, hw⟩ : ∃ w, w = 2#8 ++ (n ++ (s1 ++ (d ++ 67#8))) := ⟨_, rfl⟩
  have hf : w.extractLsb' 24 8 = 2#8 ∧
      w.extractLsb' 8 5 = d ∧
      w.extractLsb' 13 5 = s1 ∧
      w.extractLsb' 18 6 = n ∧
      w.extractLsb' 0 8 = 67#8 := by
    subst hw; simp only [HAppend.hAppend, bits_low, bits_high, bits_all, Nat.reduceAdd, Nat.reduceSub, Nat.reduceLeDiff, BitVec.reduceExtractLsb', and_self]
  obtain ⟨f24, f8, f13, f18, f0⟩ := hf
  refine codes_word _ (congrArg some hw.symm) rfl (fun hc => ?_) 67#8 f0 rfl (by decide)
  exact (decodeWord_low w 67#8 f0).trans (by
    show decodeMajors20 1 w = _
    simp only [decodeMajors20, f24, f8, f13, f18, BitVec.reduceEq, and_true, and_false, false_and, reduceIte])

theorem Codes.shiRot (d : GReg) (s1 : GReg) (n : BitVec 6) : Codes.Statement (.shiRot d s1 n) := by
  obtain ⟨w, hw⟩ : ∃ w, w = 3#8 ++ (n ++ (s1 ++ (d ++ 67#8))) := ⟨_, rfl⟩
  have hf : w.extractLsb' 24 8 = 3#8 ∧
      w.extractLsb' 8 5 = d ∧
      w.extractLsb' 13 5 = s1 ∧
      w.extractLsb' 18 6 = n ∧
      w.extractLsb' 0 8 = 67#8 := by
    subst hw; simp only [HAppend.hAppend, bits_low, bits_high, bits_all, Nat.reduceAdd, Nat.reduceSub, Nat.reduceLeDiff, BitVec.reduceExtractLsb', and_self]
  obtain ⟨f24, f8, f13, f18, f0⟩ := hf
  refine codes_word _ (congrArg some hw.symm) rfl (fun hc => ?_) 67#8 f0 rfl (by decide)
  exact (decodeWord_low w 67#8 f0).trans (by
    show decodeMajors20 1 w = _
    simp only [decodeMajors20, f24, f8, f13, f18, BitVec.reduceEq, and_true, and_false, false_and, reduceIte])

theorem Codes.minI64 (d : GReg) (s1 : GReg) (s2 : GReg) : Codes.Statement (.minI64 d s1 s2) := by
  obtain ⟨w, hw⟩ : ∃ w, w = 0#9 ++ (s2 ++ (s1 ++ (d ++ 69#8))) := ⟨_, rfl⟩
  have hf : w.extractLsb' 23 9 = 0#9 ∧
      w.extractLsb' 8 5 = d ∧
      w.extractLsb' 13 5 = s1 ∧
      w.extractLsb' 18 5 = s2 ∧
      w.extractLsb' 0 8 = 69#8 := by
    subst hw; simp only [HAppend.hAppend, bits_low, bits_high, bits_all, Nat.reduceAdd, Nat.reduceSub, Nat.reduceLeDiff, BitVec.reduceExtractLsb', and_self]
  obtain ⟨f23, f8, f13, f18, f0⟩ := hf
  refine codes_word _ (congrArg some hw.symm) rfl (fun hc => ?_) 69#8 f0 rfl (by decide)
  exact (decodeWord_low w 69#8 f0).trans (by
    show decodeMajors20 2 w = _
    simp only [decodeMajors20, f23, f8, f13, f18, BitVec.reduceEq, and_true, and_false, false_and, reduceIte])

theorem Codes.minN64 (d : GReg) (s1 : GReg) (s2 : GReg) : Codes.Statement (.minN64 d s1 s2) := by
  obtain ⟨w, hw⟩ : ∃ w, w = 32#9 ++ (s2 ++ (s1 ++ (d ++ 69#8))) := ⟨_, rfl⟩
  have hf : w.extractLsb' 23 9 = 32#9 ∧
      w.extractLsb' 8 5 = d ∧
      w.extractLsb' 13 5 = s1 ∧
      w.extractLsb' 18 5 = s2 ∧
      w.extractLsb' 0 8 = 69#8 := by
    subst hw; simp only [HAppend.hAppend, bits_low, bits_high, bits_all, Nat.reduceAdd, Nat.reduceSub, Nat.reduceLeDiff, BitVec.reduceExtractLsb', and_self]
  obtain ⟨f23, f8, f13, f18, f0⟩ := hf
  refine codes_word _ (congrArg some hw.symm) rfl (fun hc => ?_) 69#8 f0 rfl (by decide)
  exact (decodeWord_low w 69#8 f0).trans (by
    show decodeMajors20 2 w = _
    simp only [decodeMajors20, f23, f8, f13, f18, BitVec.reduceEq, and_true, and_false, false_and, reduceIte])

theorem Codes.maxI64 (d : GReg) (s1 : GReg) (s2 : GReg) : Codes.Statement (.maxI64 d s1 s2) := by
  obtain ⟨w, hw⟩ : ∃ w, w = 0#9 ++ (s2 ++ (s1 ++ (d ++ 71#8))) := ⟨_, rfl⟩
  have hf : w.extractLsb' 23 9 = 0#9 ∧
      w.extractLsb' 8 5 = d ∧
      w.extractLsb' 13 5 = s1 ∧
      w.extractLsb' 18 5 = s2 ∧
      w.extractLsb' 0 8 = 71#8 := by
    subst hw; simp only [HAppend.hAppend, bits_low, bits_high, bits_all, Nat.reduceAdd, Nat.reduceSub, Nat.reduceLeDiff, BitVec.reduceExtractLsb', and_self]
  obtain ⟨f23, f8, f13, f18, f0⟩ := hf
  refine codes_word _ (congrArg some hw.symm) rfl (fun hc => ?_) 71#8 f0 rfl (by decide)
  exact (decodeWord_low w 71#8 f0).trans (by
    show decodeMajors20 3 w = _
    simp only [decodeMajors20, f23, f8, f13, f18, BitVec.reduceEq, and_true, and_false, false_and, reduceIte])

theorem Codes.maxN64 (d : GReg) (s1 : GReg) (s2 : GReg) : Codes.Statement (.maxN64 d s1 s2) := by
  obtain ⟨w, hw⟩ : ∃ w, w = 32#9 ++ (s2 ++ (s1 ++ (d ++ 71#8))) := ⟨_, rfl⟩
  have hf : w.extractLsb' 23 9 = 32#9 ∧
      w.extractLsb' 8 5 = d ∧
      w.extractLsb' 13 5 = s1 ∧
      w.extractLsb' 18 5 = s2 ∧
      w.extractLsb' 0 8 = 71#8 := by
    subst hw; simp only [HAppend.hAppend, bits_low, bits_high, bits_all, Nat.reduceAdd, Nat.reduceSub, Nat.reduceLeDiff, BitVec.reduceExtractLsb', and_self]
  obtain ⟨f23, f8, f13, f18, f0⟩ := hf
  refine codes_word _ (congrArg some hw.symm) rfl (fun hc => ?_) 71#8 f0 rfl (by decide)
  exact (decodeWord_low w 71#8 f0).trans (by
    show decodeMajors20 3 w = _
    simp only [decodeMajors20, f23, f8, f13, f18, BitVec.reduceEq, and_true, and_false, false_and, reduceIte])

theorem Codes.cmp (d : GReg) (c : Cond) (s1 : GReg) (s2 : GReg) : Codes.Statement (.cmp d c s1 s2) := by
  obtain ⟨w, hw⟩ : ∃ w, w = 0#4 ++ (c.toBits ++ (s2 ++ (s1 ++ (d ++ 73#8)))) := ⟨_, rfl⟩
  have hf : w.extractLsb' 28 4 = 0#4 ∧
      w.extractLsb' 8 5 = d ∧
      w.extractLsb' 23 5 = c.toBits ∧
      w.extractLsb' 13 5 = s1 ∧
      w.extractLsb' 18 5 = s2 ∧
      w.extractLsb' 0 8 = 73#8 := by
    subst hw; simp only [HAppend.hAppend, bits_low, bits_high, bits_all, Nat.reduceAdd, Nat.reduceSub, Nat.reduceLeDiff, BitVec.reduceExtractLsb', and_self]
  obtain ⟨f28, f8, f23, f13, f18, f0⟩ := hf
  refine codes_word _ (congrArg some hw.symm) rfl (fun hc => ?_) 73#8 f0 rfl (by decide)
  exact (decodeWord_low w 73#8 f0).trans (by
    show decodeMajors20 4 w = _
    simp only [decodeMajors20, f28, f8, f23, f13, f18, Cond.ofBits_toBits, Option.bind_some, BitVec.reduceEq, and_true, and_false, false_and, reduceIte])

theorem Codes.sel (d : GReg) (s1 : GReg) (s2 : GReg) (s3 : GReg) : Codes.Statement (.sel d s1 s2 s3) := by
  obtain ⟨w, hw⟩ : ∃ w, w = 0#4 ++ (s3 ++ (s2 ++ (s1 ++ (d ++ 75#8)))) := ⟨_, rfl⟩
  have hf : w.extractLsb' 28 4 = 0#4 ∧
      w.extractLsb' 8 5 = d ∧
      w.extractLsb' 13 5 = s1 ∧
      w.extractLsb' 18 5 = s2 ∧
      w.extractLsb' 23 5 = s3 ∧
      w.extractLsb' 0 8 = 75#8 := by
    subst hw; simp only [HAppend.hAppend, bits_low, bits_high, bits_all, Nat.reduceAdd, Nat.reduceSub, Nat.reduceLeDiff, BitVec.reduceExtractLsb', and_self]
  obtain ⟨f28, f8, f13, f18, f23, f0⟩ := hf
  refine codes_word _ (congrArg some hw.symm) rfl (fun hc => ?_) 75#8 f0 rfl (by decide)
  exact (decodeWord_low w 75#8 f0).trans (by
    show decodeMajors20 5 w = _
    simp only [decodeMajors20, f28, f8, f13, f18, f23, BitVec.reduceEq, and_true, and_false, false_and, reduceIte])

theorem Codes.ext (d : GReg) (s1 : GReg) (t : BitVec 5) : Codes.Statement (.ext d s1 t) := by
  obtain ⟨w, hw⟩ : ∃ w, w = 0#4 ++ (t ++ (0#5 ++ (s1 ++ (d ++ 77#8)))) := ⟨_, rfl⟩
  have hf : w.extractLsb' 18 5 = 0#5 ∧
      w.extractLsb' 28 4 = 0#4 ∧
      w.extractLsb' 8 5 = d ∧
      w.extractLsb' 13 5 = s1 ∧
      w.extractLsb' 23 5 = t ∧
      w.extractLsb' 0 8 = 77#8 := by
    subst hw; simp only [HAppend.hAppend, bits_low, bits_high, bits_all, Nat.reduceAdd, Nat.reduceSub, Nat.reduceLeDiff, BitVec.reduceExtractLsb', and_self]
  obtain ⟨f18, f28, f8, f13, f23, f0⟩ := hf
  refine codes_word _ (congrArg some hw.symm) rfl (fun hc => ?_) 77#8 f0 rfl (by decide)
  exact (decodeWord_low w 77#8 f0).trans (by
    show decodeMajors20 6 w = _
    simp only [decodeMajors20, f18, f28, f8, f13, f23, BitVec.reduceEq, and_true, and_false, false_and, reduceIte])

theorem Codes.bitcPop (d : GReg) (s1 : GReg) : Codes.Statement (.bitcPop d s1) := by
  obtain ⟨w, hw⟩ : ∃ w, w = 0#14 ++ (s1 ++ (d ++ 79#8)) := ⟨_, rfl⟩
  have hf : w.extractLsb' 18 14 = 0#14 ∧
      w.extractLsb' 8 5 = d ∧
      w.extractLsb' 13 5 = s1 ∧
      w.extractLsb' 0 8 = 79#8 := by
    subst hw; simp only [HAppend.hAppend, bits_low, bits_high, bits_all, Nat.reduceAdd, Nat.reduceSub, Nat.reduceLeDiff, BitVec.reduceExtractLsb', and_self]
  obtain ⟨f18, f8, f13, f0⟩ := hf
  refine codes_word _ (congrArg some hw.symm) rfl (fun hc => ?_) 79#8 f0 rfl (by decide)
  exact (decodeWord_low w 79#8 f0).trans (by
    show decodeMajors20 7 w = _
    simp only [decodeMajors20, f18, f8, f13, BitVec.reduceEq, and_true, and_false, false_and, reduceIte])

theorem Codes.bitcClz (d : GReg) (s1 : GReg) : Codes.Statement (.bitcClz d s1) := by
  obtain ⟨w, hw⟩ : ∃ w, w = 1024#14 ++ (s1 ++ (d ++ 79#8)) := ⟨_, rfl⟩
  have hf : w.extractLsb' 18 14 = 1024#14 ∧
      w.extractLsb' 8 5 = d ∧
      w.extractLsb' 13 5 = s1 ∧
      w.extractLsb' 0 8 = 79#8 := by
    subst hw; simp only [HAppend.hAppend, bits_low, bits_high, bits_all, Nat.reduceAdd, Nat.reduceSub, Nat.reduceLeDiff, BitVec.reduceExtractLsb', and_self]
  obtain ⟨f18, f8, f13, f0⟩ := hf
  refine codes_word _ (congrArg some hw.symm) rfl (fun hc => ?_) 79#8 f0 rfl (by decide)
  exact (decodeWord_low w 79#8 f0).trans (by
    show decodeMajors20 7 w = _
    simp only [decodeMajors20, f18, f8, f13, BitVec.reduceEq, and_true, and_false, false_and, reduceIte])

theorem Codes.bitcCtz (d : GReg) (s1 : GReg) : Codes.Statement (.bitcCtz d s1) := by
  obtain ⟨w, hw⟩ : ∃ w, w = 2048#14 ++ (s1 ++ (d ++ 79#8)) := ⟨_, rfl⟩
  have hf : w.extractLsb' 18 14 = 2048#14 ∧
      w.extractLsb' 8 5 = d ∧
      w.extractLsb' 13 5 = s1 ∧
      w.extractLsb' 0 8 = 79#8 := by
    subst hw; simp only [HAppend.hAppend, bits_low, bits_high, bits_all, Nat.reduceAdd, Nat.reduceSub, Nat.reduceLeDiff, BitVec.reduceExtractLsb', and_self]
  obtain ⟨f18, f8, f13, f0⟩ := hf
  refine codes_word _ (congrArg some hw.symm) rfl (fun hc => ?_) 79#8 f0 rfl (by decide)
  exact (decodeWord_low w 79#8 f0).trans (by
    show decodeMajors20 7 w = _
    simp only [decodeMajors20, f18, f8, f13, BitVec.reduceEq, and_true, and_false, false_and, reduceIte])

theorem Codes.bitcRev (d : GReg) (s1 : GReg) : Codes.Statement (.bitcRev d s1) := by
  obtain ⟨w, hw⟩ : ∃ w, w = 3072#14 ++ (s1 ++ (d ++ 79#8)) := ⟨_, rfl⟩
  have hf : w.extractLsb' 18 14 = 3072#14 ∧
      w.extractLsb' 8 5 = d ∧
      w.extractLsb' 13 5 = s1 ∧
      w.extractLsb' 0 8 = 79#8 := by
    subst hw; simp only [HAppend.hAppend, bits_low, bits_high, bits_all, Nat.reduceAdd, Nat.reduceSub, Nat.reduceLeDiff, BitVec.reduceExtractLsb', and_self]
  obtain ⟨f18, f8, f13, f0⟩ := hf
  refine codes_word _ (congrArg some hw.symm) rfl (fun hc => ?_) 79#8 f0 rfl (by decide)
  exact (decodeWord_low w 79#8 f0).trans (by
    show decodeMajors20 7 w = _
    simp only [decodeMajors20, f18, f8, f13, BitVec.reduceEq, and_true, and_false, false_and, reduceIte])

theorem Codes.bitcBsw (d : GReg) (s1 : GReg) : Codes.Statement (.bitcBsw d s1) := by
  obtain ⟨w, hw⟩ : ∃ w, w = 4096#14 ++ (s1 ++ (d ++ 79#8)) := ⟨_, rfl⟩
  have hf : w.extractLsb' 18 14 = 4096#14 ∧
      w.extractLsb' 8 5 = d ∧
      w.extractLsb' 13 5 = s1 ∧
      w.extractLsb' 0 8 = 79#8 := by
    subst hw; simp only [HAppend.hAppend, bits_low, bits_high, bits_all, Nat.reduceAdd, Nat.reduceSub, Nat.reduceLeDiff, BitVec.reduceExtractLsb', and_self]
  obtain ⟨f18, f8, f13, f0⟩ := hf
  refine codes_word _ (congrArg some hw.symm) rfl (fun hc => ?_) 79#8 f0 rfl (by decide)
  exact (decodeWord_low w 79#8 f0).trans (by
    show decodeMajors20 7 w = _
    simp only [decodeMajors20, f18, f8, f13, BitVec.reduceEq, and_true, and_false, false_and, reduceIte])

theorem Codes.bfxN (d : GReg) (s1 : GReg) (s2 : GReg) : Codes.Statement (.bfxN d s1 s2) := by
  obtain ⟨w, hw⟩ : ∃ w, w = 0#9 ++ (s2 ++ (s1 ++ (d ++ 81#8))) := ⟨_, rfl⟩
  have hf : w.extractLsb' 23 9 = 0#9 ∧
      w.extractLsb' 8 5 = d ∧
      w.extractLsb' 13 5 = s1 ∧
      w.extractLsb' 18 5 = s2 ∧
      w.extractLsb' 0 8 = 81#8 := by
    subst hw; simp only [HAppend.hAppend, bits_low, bits_high, bits_all, Nat.reduceAdd, Nat.reduceSub, Nat.reduceLeDiff, BitVec.reduceExtractLsb', and_self]
  obtain ⟨f23, f8, f13, f18, f0⟩ := hf
  refine codes_word _ (congrArg some hw.symm) rfl (fun hc => ?_) 81#8 f0 rfl (by decide)
  exact (decodeWord_low w 81#8 f0).trans (by
    show decodeMajors28 0 w = _
    simp only [decodeMajors28, f23, f8, f13, f18, BitVec.reduceEq, and_true, and_false, false_and, reduceIte])

theorem Codes.bfxI (d : GReg) (s1 : GReg) (s2 : GReg) : Codes.Statement (.bfxI d s1 s2) := by
  obtain ⟨w, hw⟩ : ∃ w, w = 32#9 ++ (s2 ++ (s1 ++ (d ++ 81#8))) := ⟨_, rfl⟩
  have hf : w.extractLsb' 23 9 = 32#9 ∧
      w.extractLsb' 8 5 = d ∧
      w.extractLsb' 13 5 = s1 ∧
      w.extractLsb' 18 5 = s2 ∧
      w.extractLsb' 0 8 = 81#8 := by
    subst hw; simp only [HAppend.hAppend, bits_low, bits_high, bits_all, Nat.reduceAdd, Nat.reduceSub, Nat.reduceLeDiff, BitVec.reduceExtractLsb', and_self]
  obtain ⟨f23, f8, f13, f18, f0⟩ := hf
  refine codes_word _ (congrArg some hw.symm) rfl (fun hc => ?_) 81#8 f0 rfl (by decide)
  exact (decodeWord_low w 81#8 f0).trans (by
    show decodeMajors28 0 w = _
    simp only [decodeMajors28, f23, f8, f13, f18, BitVec.reduceEq, and_true, and_false, false_and, reduceIte])

theorem Codes.bfi (d : GReg) (s1 : GReg) (s2 : GReg) : Codes.Statement (.bfi d s1 s2) := by
  obtain ⟨w, hw⟩ : ∃ w, w = 0#9 ++ (s2 ++ (s1 ++ (d ++ 83#8))) := ⟨_, rfl⟩
  have hf : w.extractLsb' 23 9 = 0#9 ∧
      w.extractLsb' 8 5 = d ∧
      w.extractLsb' 13 5 = s1 ∧
      w.extractLsb' 18 5 = s2 ∧
      w.extractLsb' 0 8 = 83#8 := by
    subst hw; simp only [HAppend.hAppend, bits_low, bits_high, bits_all, Nat.reduceAdd, Nat.reduceSub, Nat.reduceLeDiff, BitVec.reduceExtractLsb', and_self]
  obtain ⟨f23, f8, f13, f18, f0⟩ := hf
  refine codes_word _ (congrArg some hw.symm) rfl (fun hc => ?_) 83#8 f0 rfl (by decide)
  exact (decodeWord_low w 83#8 f0).trans (by
    show decodeMajors28 1 w = _
    simp only [decodeMajors28, f23, f8, f13, f18, BitVec.reduceEq, and_true, and_false, false_and, reduceIte])

theorem Codes.li (d : GReg) (imm : BitVec 19) : Codes.Statement (.li d imm) := by
  obtain ⟨w, hw⟩ : ∃ w, w = imm ++ (d ++ 85#8) := ⟨_, rfl⟩
  have hf : w.extractLsb' 8 5 = d ∧
      w.extractLsb' 13 19 = imm ∧
      w.extractLsb' 0 8 = 85#8 := by
    subst hw; simp only [HAppend.hAppend, bits_low, bits_high, bits_all, Nat.reduceAdd, Nat.reduceSub, Nat.reduceLeDiff, BitVec.reduceExtractLsb', and_self]
  obtain ⟨f8, f13, f0⟩ := hf
  refine codes_word _ (congrArg some hw.symm) rfl (fun hc => ?_) 85#8 f0 rfl (by decide)
  exact (decodeWord_low w 85#8 f0).trans (by
    show decodeMajors28 2 w = _
    simp only [decodeMajors28, f8, f13, BitVec.reduceEq, and_true, and_false, false_and, reduceIte])

theorem Codes.lih (d : GReg) (imm : BitVec 19) : Codes.Statement (.lih d imm) := by
  obtain ⟨w, hw⟩ : ∃ w, w = imm ++ (d ++ 87#8) := ⟨_, rfl⟩
  have hf : w.extractLsb' 8 5 = d ∧
      w.extractLsb' 13 19 = imm ∧
      w.extractLsb' 0 8 = 87#8 := by
    subst hw; simp only [HAppend.hAppend, bits_low, bits_high, bits_all, Nat.reduceAdd, Nat.reduceSub, Nat.reduceLeDiff, BitVec.reduceExtractLsb', and_self]
  obtain ⟨f8, f13, f0⟩ := hf
  refine codes_word _ (congrArg some hw.symm) rfl (fun hc => ?_) 87#8 f0 rfl (by decide)
  exact (decodeWord_low w 87#8 f0).trans (by
    show decodeMajors28 3 w = _
    simp only [decodeMajors28, f8, f13, BitVec.reduceEq, and_true, and_false, false_and, reduceIte])

theorem Codes.lea (d : GReg) (s1 : GReg) (s2 : GReg) (sh : BitVec 4) : Codes.Statement (.lea d s1 s2 sh) := by
  obtain ⟨w, hw⟩ : ∃ w, w = sh ++ (0#5 ++ (s2 ++ (s1 ++ (d ++ 89#8)))) := ⟨_, rfl⟩
  have hf : w.extractLsb' 23 5 = 0#5 ∧
      w.extractLsb' 8 5 = d ∧
      w.extractLsb' 13 5 = s1 ∧
      w.extractLsb' 18 5 = s2 ∧
      w.extractLsb' 28 4 = sh ∧
      w.extractLsb' 0 8 = 89#8 := by
    subst hw; simp only [HAppend.hAppend, bits_low, bits_high, bits_all, Nat.reduceAdd, Nat.reduceSub, Nat.reduceLeDiff, BitVec.reduceExtractLsb', and_self]
  obtain ⟨f23, f8, f13, f18, f28, f0⟩ := hf
  refine codes_word _ (congrArg some hw.symm) rfl (fun hc => ?_) 89#8 f0 rfl (by decide)
  exact (decodeWord_low w 89#8 f0).trans (by
    show decodeMajors28 4 w = _
    simp only [decodeMajors28, f23, f8, f13, f18, f28, BitVec.reduceEq, and_true, and_false, false_and, reduceIte])

theorem Codes.hdrPack (d : GReg) (s1 : GReg) (n : BitVec 4) : Codes.Statement (.hdrPack d s1 n) := by
  obtain ⟨w, hw⟩ : ∃ w, w = 0#5 ++ (n ++ (0#5 ++ (s1 ++ (d ++ 91#8)))) := ⟨_, rfl⟩
  have hf : w.extractLsb' 18 5 = 0#5 ∧
      w.extractLsb' 27 5 = 0#5 ∧
      w.extractLsb' 8 5 = d ∧
      w.extractLsb' 13 5 = s1 ∧
      w.extractLsb' 23 4 = n ∧
      w.extractLsb' 0 8 = 91#8 := by
    subst hw; simp only [HAppend.hAppend, bits_low, bits_high, bits_all, Nat.reduceAdd, Nat.reduceSub, Nat.reduceLeDiff, BitVec.reduceExtractLsb', and_self]
  obtain ⟨f18, f27, f8, f13, f23, f0⟩ := hf
  refine codes_word _ (congrArg some hw.symm) rfl (fun hc => ?_) 91#8 f0 rfl (by decide)
  exact (decodeWord_low w 91#8 f0).trans (by
    show decodeMajors28 5 w = _
    simp only [decodeMajors28, f18, f27, f8, f13, f23, BitVec.reduceEq, and_true, and_false, false_and, reduceIte])

theorem Codes.hdrSplit (d : GReg) (s1 : GReg) (n : BitVec 4) : Codes.Statement (.hdrSplit d s1 n) := by
  obtain ⟨w, hw⟩ : ∃ w, w = 2#5 ++ (n ++ (0#5 ++ (s1 ++ (d ++ 91#8)))) := ⟨_, rfl⟩
  have hf : w.extractLsb' 18 5 = 0#5 ∧
      w.extractLsb' 27 5 = 2#5 ∧
      w.extractLsb' 8 5 = d ∧
      w.extractLsb' 13 5 = s1 ∧
      w.extractLsb' 23 4 = n ∧
      w.extractLsb' 0 8 = 91#8 := by
    subst hw; simp only [HAppend.hAppend, bits_low, bits_high, bits_all, Nat.reduceAdd, Nat.reduceSub, Nat.reduceLeDiff, BitVec.reduceExtractLsb', and_self]
  obtain ⟨f18, f27, f8, f13, f23, f0⟩ := hf
  refine codes_word _ (congrArg some hw.symm) rfl (fun hc => ?_) 91#8 f0 rfl (by decide)
  exact (decodeWord_low w 91#8 f0).trans (by
    show decodeMajors28 5 w = _
    simp only [decodeMajors28, f18, f27, f8, f13, f23, BitVec.reduceEq, and_true, and_false, false_and, reduceIte])

theorem Codes.shuf (d : GReg) (s1 : GReg) (s2 : GReg) : Codes.Statement (.shuf d s1 s2) := by
  obtain ⟨w, hw⟩ : ∃ w, w = 0#9 ++ (s2 ++ (s1 ++ (d ++ 93#8))) := ⟨_, rfl⟩
  have hf : w.extractLsb' 23 9 = 0#9 ∧
      w.extractLsb' 8 5 = d ∧
      w.extractLsb' 13 5 = s1 ∧
      w.extractLsb' 18 5 = s2 ∧
      w.extractLsb' 0 8 = 93#8 := by
    subst hw; simp only [HAppend.hAppend, bits_low, bits_high, bits_all, Nat.reduceAdd, Nat.reduceSub, Nat.reduceLeDiff, BitVec.reduceExtractLsb', and_self]
  obtain ⟨f23, f8, f13, f18, f0⟩ := hf
  refine codes_word _ (congrArg some hw.symm) rfl (fun hc => ?_) 93#8 f0 rfl (by decide)
  exact (decodeWord_low w 93#8 f0).trans (by
    show decodeMajors28 6 w = _
    simp only [decodeMajors28, f23, f8, f13, f18, BitVec.reduceEq, and_true, and_false, false_and, reduceIte])

theorem Codes.shufKLow (d : GReg) (s1 : GReg) (s2 : GReg) (k : BitVec 5) : Codes.Statement (.shufKLow d s1 s2 k) := by
  obtain ⟨w, hw⟩ : ∃ w, w = 1#4 ++ (k ++ (s2 ++ (s1 ++ (d ++ 93#8)))) := ⟨_, rfl⟩
  have hf : w.extractLsb' 28 4 = 1#4 ∧
      w.extractLsb' 8 5 = d ∧
      w.extractLsb' 13 5 = s1 ∧
      w.extractLsb' 18 5 = s2 ∧
      w.extractLsb' 23 5 = k ∧
      w.extractLsb' 0 8 = 93#8 := by
    subst hw; simp only [HAppend.hAppend, bits_low, bits_high, bits_all, Nat.reduceAdd, Nat.reduceSub, Nat.reduceLeDiff, BitVec.reduceExtractLsb', and_self]
  obtain ⟨f28, f8, f13, f18, f23, f0⟩ := hf
  refine codes_word _ (congrArg some hw.symm) rfl (fun hc => ?_) 93#8 f0 rfl (by decide)
  have n23_9_0 : w.extractLsb' 23 9 ≠ 0#9 := bits_ne 5 4 0 f28 (by decide) (by decide) (by decide) (by decide)
  exact (decodeWord_low w 93#8 f0).trans (by
    show decodeMajors28 6 w = _
    simp only [decodeMajors28, f28, f8, f13, f18, f23, n23_9_0, BitVec.reduceEq, and_true, and_false, false_and, reduceIte])

theorem Codes.shufKHigh (d : GReg) (s1 : GReg) (s2 : GReg) (k : BitVec 5) : Codes.Statement (.shufKHigh d s1 s2 k) := by
  obtain ⟨w, hw⟩ : ∃ w, w = 2#4 ++ (k ++ (s2 ++ (s1 ++ (d ++ 93#8)))) := ⟨_, rfl⟩
  have hf : w.extractLsb' 28 4 = 2#4 ∧
      w.extractLsb' 8 5 = d ∧
      w.extractLsb' 13 5 = s1 ∧
      w.extractLsb' 18 5 = s2 ∧
      w.extractLsb' 23 5 = k ∧
      w.extractLsb' 0 8 = 93#8 := by
    subst hw; simp only [HAppend.hAppend, bits_low, bits_high, bits_all, Nat.reduceAdd, Nat.reduceSub, Nat.reduceLeDiff, BitVec.reduceExtractLsb', and_self]
  obtain ⟨f28, f8, f13, f18, f23, f0⟩ := hf
  refine codes_word _ (congrArg some hw.symm) rfl (fun hc => ?_) 93#8 f0 rfl (by decide)
  have n23_9_0 : w.extractLsb' 23 9 ≠ 0#9 := bits_ne 5 4 0 f28 (by decide) (by decide) (by decide) (by decide)
  exact (decodeWord_low w 93#8 f0).trans (by
    show decodeMajors28 6 w = _
    simp only [decodeMajors28, f28, f8, f13, f18, f23, n23_9_0, BitVec.reduceEq, and_true, and_false, false_and, reduceIte])

theorem Codes.addc (d : GReg) (s1 : GReg) (s2 : GReg) (s3 : GReg) : Codes.Statement (.addc d s1 s2 s3) := by
  obtain ⟨w, hw⟩ : ∃ w, w = 0#4 ++ (s3 ++ (s2 ++ (s1 ++ (d ++ 95#8)))) := ⟨_, rfl⟩
  have hf : w.extractLsb' 28 4 = 0#4 ∧
      w.extractLsb' 8 5 = d ∧
      w.extractLsb' 13 5 = s1 ∧
      w.extractLsb' 18 5 = s2 ∧
      w.extractLsb' 23 5 = s3 ∧
      w.extractLsb' 0 8 = 95#8 := by
    subst hw; simp only [HAppend.hAppend, bits_low, bits_high, bits_all, Nat.reduceAdd, Nat.reduceSub, Nat.reduceLeDiff, BitVec.reduceExtractLsb', and_self]
  obtain ⟨f28, f8, f13, f18, f23, f0⟩ := hf
  refine codes_word _ (congrArg some hw.symm) rfl (fun hc => ?_) 95#8 f0 rfl (by decide)
  exact (decodeWord_low w 95#8 f0).trans (by
    show decodeMajors28 7 w = _
    simp only [decodeMajors28, f28, f8, f13, f18, f23, BitVec.reduceEq, and_true, and_false, false_and, reduceIte])

theorem Codes.addcCo (d : GReg) (s1 : GReg) (s2 : GReg) (s3 : GReg) : Codes.Statement (.addcCo d s1 s2 s3) := by
  obtain ⟨w, hw⟩ : ∃ w, w = 1#4 ++ (s3 ++ (s2 ++ (s1 ++ (d ++ 95#8)))) := ⟨_, rfl⟩
  have hf : w.extractLsb' 28 4 = 1#4 ∧
      w.extractLsb' 8 5 = d ∧
      w.extractLsb' 13 5 = s1 ∧
      w.extractLsb' 18 5 = s2 ∧
      w.extractLsb' 23 5 = s3 ∧
      w.extractLsb' 0 8 = 95#8 := by
    subst hw; simp only [HAppend.hAppend, bits_low, bits_high, bits_all, Nat.reduceAdd, Nat.reduceSub, Nat.reduceLeDiff, BitVec.reduceExtractLsb', and_self]
  obtain ⟨f28, f8, f13, f18, f23, f0⟩ := hf
  refine codes_word _ (congrArg some hw.symm) rfl (fun hc => ?_) 95#8 f0 rfl (by decide)
  exact (decodeWord_low w 95#8 f0).trans (by
    show decodeMajors28 7 w = _
    simp only [decodeMajors28, f28, f8, f13, f18, f23, BitVec.reduceEq, and_true, and_false, false_and, reduceIte])

theorem Codes.vadd (d : VReg) (s1 : VReg) (s2 : VReg) (p : PReg) (t : ElemType) (m : BitVec 2) : Codes.Statement (.vadd d s1 s2 p t m) := by
  obtain ⟨w, hw⟩ : ∃ w, w = m ++ (t.toBits ++ (p ++ (s2 ++ (s1 ++ (d ++ 97#8))))) := ⟨_, rfl⟩
  have hf : w.extractLsb' 8 5 = d ∧
      w.extractLsb' 13 5 = s1 ∧
      w.extractLsb' 18 5 = s2 ∧
      w.extractLsb' 23 3 = p ∧
      w.extractLsb' 26 4 = t.toBits ∧
      w.extractLsb' 30 2 = m ∧
      w.extractLsb' 0 8 = 97#8 := by
    subst hw; simp only [HAppend.hAppend, bits_low, bits_high, bits_all, Nat.reduceAdd, Nat.reduceSub, Nat.reduceLeDiff, BitVec.reduceExtractLsb', and_self]
  obtain ⟨f8, f13, f18, f23, f26, f30, f0⟩ := hf
  refine codes_word _ (congrArg some hw.symm) rfl (fun hc => ?_) 97#8 f0 rfl (by decide)
  exact (decodeWord_low w 97#8 f0).trans (by
    show decodeMajors30 0 w = _
    simp only [decodeMajors30, f8, f13, f18, f23, f26, f30, ElemType.ofBits_toBits, Option.bind_some, BitVec.reduceEq, and_true, and_false, false_and, reduceIte])

theorem Codes.vsub (d : VReg) (s1 : VReg) (s2 : VReg) (p : PReg) (t : ElemType) (m : BitVec 2) : Codes.Statement (.vsub d s1 s2 p t m) := by
  obtain ⟨w, hw⟩ : ∃ w, w = m ++ (t.toBits ++ (p ++ (s2 ++ (s1 ++ (d ++ 99#8))))) := ⟨_, rfl⟩
  have hf : w.extractLsb' 8 5 = d ∧
      w.extractLsb' 13 5 = s1 ∧
      w.extractLsb' 18 5 = s2 ∧
      w.extractLsb' 23 3 = p ∧
      w.extractLsb' 26 4 = t.toBits ∧
      w.extractLsb' 30 2 = m ∧
      w.extractLsb' 0 8 = 99#8 := by
    subst hw; simp only [HAppend.hAppend, bits_low, bits_high, bits_all, Nat.reduceAdd, Nat.reduceSub, Nat.reduceLeDiff, BitVec.reduceExtractLsb', and_self]
  obtain ⟨f8, f13, f18, f23, f26, f30, f0⟩ := hf
  refine codes_word _ (congrArg some hw.symm) rfl (fun hc => ?_) 99#8 f0 rfl (by decide)
  exact (decodeWord_low w 99#8 f0).trans (by
    show decodeMajors30 1 w = _
    simp only [decodeMajors30, f8, f13, f18, f23, f26, f30, ElemType.ofBits_toBits, Option.bind_some, BitVec.reduceEq, and_true, and_false, false_and, reduceIte])

theorem Codes.vmul (d : VReg) (s1 : VReg) (s2 : VReg) (p : PReg) (t : ElemType) (m : BitVec 2) : Codes.Statement (.vmul d s1 s2 p t m) := by
  obtain ⟨w, hw⟩ : ∃ w, w = m ++ (t.toBits ++ (p ++ (s2 ++ (s1 ++ (d ++ 101#8))))) := ⟨_, rfl⟩
  have hf : w.extractLsb' 8 5 = d ∧
      w.extractLsb' 13 5 = s1 ∧
      w.extractLsb' 18 5 = s2 ∧
      w.extractLsb' 23 3 = p ∧
      w.extractLsb' 26 4 = t.toBits ∧
      w.extractLsb' 30 2 = m ∧
      w.extractLsb' 0 8 = 101#8 := by
    subst hw; simp only [HAppend.hAppend, bits_low, bits_high, bits_all, Nat.reduceAdd, Nat.reduceSub, Nat.reduceLeDiff, BitVec.reduceExtractLsb', and_self]
  obtain ⟨f8, f13, f18, f23, f26, f30, f0⟩ := hf
  refine codes_word _ (congrArg some hw.symm) rfl (fun hc => ?_) 101#8 f0 rfl (by decide)
  exact (decodeWord_low w 101#8 f0).trans (by
    show decodeMajors30 2 w = _
    simp only [decodeMajors30, f8, f13, f18, f23, f26, f30, ElemType.ofBits_toBits, Option.bind_some, BitVec.reduceEq, and_true, and_false, false_and, reduceIte])

theorem Codes.vfma (d : VReg) (s1 : VReg) (s2 : VReg) (p : PReg) (t : ElemType) (m : BitVec 2) : Codes.Statement (.vfma d s1 s2 p t m) := by
  obtain ⟨w, hw⟩ : ∃ w, w = m ++ (t.toBits ++ (p ++ (s2 ++ (s1 ++ (d ++ 103#8))))) := ⟨_, rfl⟩
  have hf : w.extractLsb' 8 5 = d ∧
      w.extractLsb' 13 5 = s1 ∧
      w.extractLsb' 18 5 = s2 ∧
      w.extractLsb' 23 3 = p ∧
      w.extractLsb' 26 4 = t.toBits ∧
      w.extractLsb' 30 2 = m ∧
      w.extractLsb' 0 8 = 103#8 := by
    subst hw; simp only [HAppend.hAppend, bits_low, bits_high, bits_all, Nat.reduceAdd, Nat.reduceSub, Nat.reduceLeDiff, BitVec.reduceExtractLsb', and_self]
  obtain ⟨f8, f13, f18, f23, f26, f30, f0⟩ := hf
  refine codes_word _ (congrArg some hw.symm) rfl (fun hc => ?_) 103#8 f0 rfl (by decide)
  exact (decodeWord_low w 103#8 f0).trans (by
    show decodeMajors30 3 w = _
    simp only [decodeMajors30, f8, f13, f18, f23, f26, f30, ElemType.ofBits_toBits, Option.bind_some, BitVec.reduceEq, and_true, and_false, false_and, reduceIte])

theorem Codes.vdiv (d : VReg) (s1 : VReg) (s2 : VReg) (p : PReg) (t : ElemType) (m : BitVec 2) : Codes.Statement (.vdiv d s1 s2 p t m) := by
  obtain ⟨w, hw⟩ : ∃ w, w = m ++ (t.toBits ++ (p ++ (s2 ++ (s1 ++ (d ++ 105#8))))) := ⟨_, rfl⟩
  have hf : w.extractLsb' 8 5 = d ∧
      w.extractLsb' 13 5 = s1 ∧
      w.extractLsb' 18 5 = s2 ∧
      w.extractLsb' 23 3 = p ∧
      w.extractLsb' 26 4 = t.toBits ∧
      w.extractLsb' 30 2 = m ∧
      w.extractLsb' 0 8 = 105#8 := by
    subst hw; simp only [HAppend.hAppend, bits_low, bits_high, bits_all, Nat.reduceAdd, Nat.reduceSub, Nat.reduceLeDiff, BitVec.reduceExtractLsb', and_self]
  obtain ⟨f8, f13, f18, f23, f26, f30, f0⟩ := hf
  refine codes_word _ (congrArg some hw.symm) rfl (fun hc => ?_) 105#8 f0 rfl (by decide)
  exact (decodeWord_low w 105#8 f0).trans (by
    show decodeMajors30 4 w = _
    simp only [decodeMajors30, f8, f13, f18, f23, f26, f30, ElemType.ofBits_toBits, Option.bind_some, BitVec.reduceEq, and_true, and_false, false_and, reduceIte])

theorem Codes.vsqrt (d : VReg) (s1 : VReg) (p : PReg) (t : ElemType) (m : BitVec 2) : Codes.Statement (.vsqrt d s1 p t m) := by
  obtain ⟨w, hw⟩ : ∃ w, w = m ++ (t.toBits ++ (p ++ (0#5 ++ (s1 ++ (d ++ 107#8))))) := ⟨_, rfl⟩
  have hf : w.extractLsb' 18 5 = 0#5 ∧
      w.extractLsb' 8 5 = d ∧
      w.extractLsb' 13 5 = s1 ∧
      w.extractLsb' 23 3 = p ∧
      w.extractLsb' 26 4 = t.toBits ∧
      w.extractLsb' 30 2 = m ∧
      w.extractLsb' 0 8 = 107#8 := by
    subst hw; simp only [HAppend.hAppend, bits_low, bits_high, bits_all, Nat.reduceAdd, Nat.reduceSub, Nat.reduceLeDiff, BitVec.reduceExtractLsb', and_self]
  obtain ⟨f18, f8, f13, f23, f26, f30, f0⟩ := hf
  refine codes_word _ (congrArg some hw.symm) rfl (fun hc => ?_) 107#8 f0 rfl (by decide)
  exact (decodeWord_low w 107#8 f0).trans (by
    show decodeMajors30 5 w = _
    simp only [decodeMajors30, f18, f8, f13, f23, f26, f30, ElemType.ofBits_toBits, Option.bind_some, BitVec.reduceEq, and_true, and_false, false_and, reduceIte])

theorem Codes.vmin (d : VReg) (s1 : VReg) (s2 : VReg) (p : PReg) (t : ElemType) : Codes.Statement (.vmin d s1 s2 p t) := by
  obtain ⟨w, hw⟩ : ∃ w, w = 0#2 ++ (t.toBits ++ (p ++ (s2 ++ (s1 ++ (d ++ 109#8))))) := ⟨_, rfl⟩
  have hf : w.extractLsb' 30 2 = 0#2 ∧
      w.extractLsb' 8 5 = d ∧
      w.extractLsb' 13 5 = s1 ∧
      w.extractLsb' 18 5 = s2 ∧
      w.extractLsb' 23 3 = p ∧
      w.extractLsb' 26 4 = t.toBits ∧
      w.extractLsb' 0 8 = 109#8 := by
    subst hw; simp only [HAppend.hAppend, bits_low, bits_high, bits_all, Nat.reduceAdd, Nat.reduceSub, Nat.reduceLeDiff, BitVec.reduceExtractLsb', and_self]
  obtain ⟨f30, f8, f13, f18, f23, f26, f0⟩ := hf
  refine codes_word _ (congrArg some hw.symm) rfl (fun hc => ?_) 109#8 f0 rfl (by decide)
  exact (decodeWord_low w 109#8 f0).trans (by
    show decodeMajors30 6 w = _
    simp only [decodeMajors30, f30, f8, f13, f18, f23, f26, ElemType.ofBits_toBits, Option.bind_some, BitVec.reduceEq, and_true, and_false, false_and, reduceIte])

theorem Codes.vmax (d : VReg) (s1 : VReg) (s2 : VReg) (p : PReg) (t : ElemType) : Codes.Statement (.vmax d s1 s2 p t) := by
  obtain ⟨w, hw⟩ : ∃ w, w = 0#2 ++ (t.toBits ++ (p ++ (s2 ++ (s1 ++ (d ++ 111#8))))) := ⟨_, rfl⟩
  have hf : w.extractLsb' 30 2 = 0#2 ∧
      w.extractLsb' 8 5 = d ∧
      w.extractLsb' 13 5 = s1 ∧
      w.extractLsb' 18 5 = s2 ∧
      w.extractLsb' 23 3 = p ∧
      w.extractLsb' 26 4 = t.toBits ∧
      w.extractLsb' 0 8 = 111#8 := by
    subst hw; simp only [HAppend.hAppend, bits_low, bits_high, bits_all, Nat.reduceAdd, Nat.reduceSub, Nat.reduceLeDiff, BitVec.reduceExtractLsb', and_self]
  obtain ⟨f30, f8, f13, f18, f23, f26, f0⟩ := hf
  refine codes_word _ (congrArg some hw.symm) rfl (fun hc => ?_) 111#8 f0 rfl (by decide)
  exact (decodeWord_low w 111#8 f0).trans (by
    show decodeMajors30 7 w = _
    simp only [decodeMajors30, f30, f8, f13, f18, f23, f26, ElemType.ofBits_toBits, Option.bind_some, BitVec.reduceEq, and_true, and_false, false_and, reduceIte])

theorem Codes.vunNeg (d : VReg) (s1 : VReg) (p : PReg) (t : ElemType) (m : BitVec 2) : Codes.Statement (.vunNeg d s1 p t m) := by
  obtain ⟨w, hw⟩ : ∃ w, w = m ++ (t.toBits ++ (p ++ (0#5 ++ (s1 ++ (d ++ 113#8))))) := ⟨_, rfl⟩
  have hf : w.extractLsb' 18 5 = 0#5 ∧
      w.extractLsb' 8 5 = d ∧
      w.extractLsb' 13 5 = s1 ∧
      w.extractLsb' 23 3 = p ∧
      w.extractLsb' 26 4 = t.toBits ∧
      w.extractLsb' 30 2 = m ∧
      w.extractLsb' 0 8 = 113#8 := by
    subst hw; simp only [HAppend.hAppend, bits_low, bits_high, bits_all, Nat.reduceAdd, Nat.reduceSub, Nat.reduceLeDiff, BitVec.reduceExtractLsb', and_self]
  obtain ⟨f18, f8, f13, f23, f26, f30, f0⟩ := hf
  refine codes_word _ (congrArg some hw.symm) rfl (fun hc => ?_) 113#8 f0 rfl (by decide)
  exact (decodeWord_low w 113#8 f0).trans (by
    show decodeMajors38 0 w = _
    simp only [decodeMajors38, f18, f8, f13, f23, f26, f30, ElemType.ofBits_toBits, Option.bind_some, BitVec.reduceEq, and_true, and_false, false_and, reduceIte])

theorem Codes.vunAbs (d : VReg) (s1 : VReg) (p : PReg) (t : ElemType) (m : BitVec 2) : Codes.Statement (.vunAbs d s1 p t m) := by
  obtain ⟨w, hw⟩ : ∃ w, w = m ++ (t.toBits ++ (p ++ (1#5 ++ (s1 ++ (d ++ 113#8))))) := ⟨_, rfl⟩
  have hf : w.extractLsb' 18 5 = 1#5 ∧
      w.extractLsb' 8 5 = d ∧
      w.extractLsb' 13 5 = s1 ∧
      w.extractLsb' 23 3 = p ∧
      w.extractLsb' 26 4 = t.toBits ∧
      w.extractLsb' 30 2 = m ∧
      w.extractLsb' 0 8 = 113#8 := by
    subst hw; simp only [HAppend.hAppend, bits_low, bits_high, bits_all, Nat.reduceAdd, Nat.reduceSub, Nat.reduceLeDiff, BitVec.reduceExtractLsb', and_self]
  obtain ⟨f18, f8, f13, f23, f26, f30, f0⟩ := hf
  refine codes_word _ (congrArg some hw.symm) rfl (fun hc => ?_) 113#8 f0 rfl (by decide)
  exact (decodeWord_low w 113#8 f0).trans (by
    show decodeMajors38 0 w = _
    simp only [decodeMajors38, f18, f8, f13, f23, f26, f30, ElemType.ofBits_toBits, Option.bind_some, BitVec.reduceEq, and_true, and_false, false_and, reduceIte])

theorem Codes.vunRint (d : VReg) (s1 : VReg) (p : PReg) (t : ElemType) (m : BitVec 2) : Codes.Statement (.vunRint d s1 p t m) := by
  obtain ⟨w, hw⟩ : ∃ w, w = m ++ (t.toBits ++ (p ++ (2#5 ++ (s1 ++ (d ++ 113#8))))) := ⟨_, rfl⟩
  have hf : w.extractLsb' 18 5 = 2#5 ∧
      w.extractLsb' 8 5 = d ∧
      w.extractLsb' 13 5 = s1 ∧
      w.extractLsb' 23 3 = p ∧
      w.extractLsb' 26 4 = t.toBits ∧
      w.extractLsb' 30 2 = m ∧
      w.extractLsb' 0 8 = 113#8 := by
    subst hw; simp only [HAppend.hAppend, bits_low, bits_high, bits_all, Nat.reduceAdd, Nat.reduceSub, Nat.reduceLeDiff, BitVec.reduceExtractLsb', and_self]
  obtain ⟨f18, f8, f13, f23, f26, f30, f0⟩ := hf
  refine codes_word _ (congrArg some hw.symm) rfl (fun hc => ?_) 113#8 f0 rfl (by decide)
  exact (decodeWord_low w 113#8 f0).trans (by
    show decodeMajors38 0 w = _
    simp only [decodeMajors38, f18, f8, f13, f23, f26, f30, ElemType.ofBits_toBits, Option.bind_some, BitVec.reduceEq, and_true, and_false, false_and, reduceIte])

theorem Codes.vunPopc (d : VReg) (s1 : VReg) (p : PReg) (t : ElemType) : Codes.Statement (.vunPopc d s1 p t) := by
  obtain ⟨w, hw⟩ : ∃ w, w = 0#2 ++ (t.toBits ++ (p ++ (3#5 ++ (s1 ++ (d ++ 113#8))))) := ⟨_, rfl⟩
  have hf : w.extractLsb' 18 5 = 3#5 ∧
      w.extractLsb' 30 2 = 0#2 ∧
      w.extractLsb' 8 5 = d ∧
      w.extractLsb' 13 5 = s1 ∧
      w.extractLsb' 23 3 = p ∧
      w.extractLsb' 26 4 = t.toBits ∧
      w.extractLsb' 0 8 = 113#8 := by
    subst hw; simp only [HAppend.hAppend, bits_low, bits_high, bits_all, Nat.reduceAdd, Nat.reduceSub, Nat.reduceLeDiff, BitVec.reduceExtractLsb', and_self]
  obtain ⟨f18, f30, f8, f13, f23, f26, f0⟩ := hf
  refine codes_word _ (congrArg some hw.symm) rfl (fun hc => ?_) 113#8 f0 rfl (by decide)
  exact (decodeWord_low w 113#8 f0).trans (by
    show decodeMajors38 0 w = _
    simp only [decodeMajors38, f18, f30, f8, f13, f23, f26, ElemType.ofBits_toBits, Option.bind_some, BitVec.reduceEq, and_true, and_false, false_and, reduceIte])

theorem Codes.vunClz (d : VReg) (s1 : VReg) (p : PReg) (t : ElemType) : Codes.Statement (.vunClz d s1 p t) := by
  obtain ⟨w, hw⟩ : ∃ w, w = 0#2 ++ (t.toBits ++ (p ++ (4#5 ++ (s1 ++ (d ++ 113#8))))) := ⟨_, rfl⟩
  have hf : w.extractLsb' 18 5 = 4#5 ∧
      w.extractLsb' 30 2 = 0#2 ∧
      w.extractLsb' 8 5 = d ∧
      w.extractLsb' 13 5 = s1 ∧
      w.extractLsb' 23 3 = p ∧
      w.extractLsb' 26 4 = t.toBits ∧
      w.extractLsb' 0 8 = 113#8 := by
    subst hw; simp only [HAppend.hAppend, bits_low, bits_high, bits_all, Nat.reduceAdd, Nat.reduceSub, Nat.reduceLeDiff, BitVec.reduceExtractLsb', and_self]
  obtain ⟨f18, f30, f8, f13, f23, f26, f0⟩ := hf
  refine codes_word _ (congrArg some hw.symm) rfl (fun hc => ?_) 113#8 f0 rfl (by decide)
  exact (decodeWord_low w 113#8 f0).trans (by
    show decodeMajors38 0 w = _
    simp only [decodeMajors38, f18, f30, f8, f13, f23, f26, ElemType.ofBits_toBits, Option.bind_some, BitVec.reduceEq, and_true, and_false, false_and, reduceIte])

theorem Codes.vlogAnd (d : VReg) (s1 : VReg) (p : PReg) (t : ElemType) : Codes.Statement (.vlogAnd d s1 p t) := by
  obtain ⟨w, hw⟩ : ∃ w, w = 0#2 ++ (t.toBits ++ (p ++ (0#5 ++ (s1 ++ (d ++ 115#8))))) := ⟨_, rfl⟩
  have hf : w.extractLsb' 18 5 = 0#5 ∧
      w.extractLsb' 30 2 = 0#2 ∧
      w.extractLsb' 8 5 = d ∧
      w.extractLsb' 13 5 = s1 ∧
      w.extractLsb' 23 3 = p ∧
      w.extractLsb' 26 4 = t.toBits ∧
      w.extractLsb' 0 8 = 115#8 := by
    subst hw; simp only [HAppend.hAppend, bits_low, bits_high, bits_all, Nat.reduceAdd, Nat.reduceSub, Nat.reduceLeDiff, BitVec.reduceExtractLsb', and_self]
  obtain ⟨f18, f30, f8, f13, f23, f26, f0⟩ := hf
  refine codes_word _ (congrArg some hw.symm) rfl (fun hc => ?_) 115#8 f0 rfl (by decide)
  exact (decodeWord_low w 115#8 f0).trans (by
    show decodeMajors38 1 w = _
    simp only [decodeMajors38, f18, f30, f8, f13, f23, f26, ElemType.ofBits_toBits, Option.bind_some, BitVec.reduceEq, and_true, and_false, false_and, reduceIte])

theorem Codes.vlogOr (d : VReg) (s1 : VReg) (p : PReg) (t : ElemType) : Codes.Statement (.vlogOr d s1 p t) := by
  obtain ⟨w, hw⟩ : ∃ w, w = 0#2 ++ (t.toBits ++ (p ++ (1#5 ++ (s1 ++ (d ++ 115#8))))) := ⟨_, rfl⟩
  have hf : w.extractLsb' 18 5 = 1#5 ∧
      w.extractLsb' 30 2 = 0#2 ∧
      w.extractLsb' 8 5 = d ∧
      w.extractLsb' 13 5 = s1 ∧
      w.extractLsb' 23 3 = p ∧
      w.extractLsb' 26 4 = t.toBits ∧
      w.extractLsb' 0 8 = 115#8 := by
    subst hw; simp only [HAppend.hAppend, bits_low, bits_high, bits_all, Nat.reduceAdd, Nat.reduceSub, Nat.reduceLeDiff, BitVec.reduceExtractLsb', and_self]
  obtain ⟨f18, f30, f8, f13, f23, f26, f0⟩ := hf
  refine codes_word _ (congrArg some hw.symm) rfl (fun hc => ?_) 115#8 f0 rfl (by decide)
  exact (decodeWord_low w 115#8 f0).trans (by
    show decodeMajors38 1 w = _
    simp only [decodeMajors38, f18, f30, f8, f13, f23, f26, ElemType.ofBits_toBits, Option.bind_some, BitVec.reduceEq, and_true, and_false, false_and, reduceIte])

theorem Codes.vlogXor (d : VReg) (s1 : VReg) (p : PReg) (t : ElemType) : Codes.Statement (.vlogXor d s1 p t) := by
  obtain ⟨w, hw⟩ : ∃ w, w = 0#2 ++ (t.toBits ++ (p ++ (2#5 ++ (s1 ++ (d ++ 115#8))))) := ⟨_, rfl⟩
  have hf : w.extractLsb' 18 5 = 2#5 ∧
      w.extractLsb' 30 2 = 0#2 ∧
      w.extractLsb' 8 5 = d ∧
      w.extractLsb' 13 5 = s1 ∧
      w.extractLsb' 23 3 = p ∧
      w.extractLsb' 26 4 = t.toBits ∧
      w.extractLsb' 0 8 = 115#8 := by
    subst hw; simp only [HAppend.hAppend, bits_low, bits_high, bits_all, Nat.reduceAdd, Nat.reduceSub, Nat.reduceLeDiff, BitVec.reduceExtractLsb', and_self]
  obtain ⟨f18, f30, f8, f13, f23, f26, f0⟩ := hf
  refine codes_word _ (congrArg some hw.symm) rfl (fun hc => ?_) 115#8 f0 rfl (by decide)
  exact (decodeWord_low w 115#8 f0).trans (by
    show decodeMajors38 1 w = _
    simp only [decodeMajors38, f18, f30, f8, f13, f23, f26, ElemType.ofBits_toBits, Option.bind_some, BitVec.reduceEq, and_true, and_false, false_and, reduceIte])

theorem Codes.vlogAndn (d : VReg) (s1 : VReg) (p : PReg) (t : ElemType) : Codes.Statement (.vlogAndn d s1 p t) := by
  obtain ⟨w, hw⟩ : ∃ w, w = 0#2 ++ (t.toBits ++ (p ++ (3#5 ++ (s1 ++ (d ++ 115#8))))) := ⟨_, rfl⟩
  have hf : w.extractLsb' 18 5 = 3#5 ∧
      w.extractLsb' 30 2 = 0#2 ∧
      w.extractLsb' 8 5 = d ∧
      w.extractLsb' 13 5 = s1 ∧
      w.extractLsb' 23 3 = p ∧
      w.extractLsb' 26 4 = t.toBits ∧
      w.extractLsb' 0 8 = 115#8 := by
    subst hw; simp only [HAppend.hAppend, bits_low, bits_high, bits_all, Nat.reduceAdd, Nat.reduceSub, Nat.reduceLeDiff, BitVec.reduceExtractLsb', and_self]
  obtain ⟨f18, f30, f8, f13, f23, f26, f0⟩ := hf
  refine codes_word _ (congrArg some hw.symm) rfl (fun hc => ?_) 115#8 f0 rfl (by decide)
  exact (decodeWord_low w 115#8 f0).trans (by
    show decodeMajors38 1 w = _
    simp only [decodeMajors38, f18, f30, f8, f13, f23, f26, ElemType.ofBits_toBits, Option.bind_some, BitVec.reduceEq, and_true, and_false, false_and, reduceIte])

theorem Codes.vlogOrn (d : VReg) (s1 : VReg) (p : PReg) (t : ElemType) : Codes.Statement (.vlogOrn d s1 p t) := by
  obtain ⟨w, hw⟩ : ∃ w, w = 0#2 ++ (t.toBits ++ (p ++ (4#5 ++ (s1 ++ (d ++ 115#8))))) := ⟨_, rfl⟩
  have hf : w.extractLsb' 18 5 = 4#5 ∧
      w.extractLsb' 30 2 = 0#2 ∧
      w.extractLsb' 8 5 = d ∧
      w.extractLsb' 13 5 = s1 ∧
      w.extractLsb' 23 3 = p ∧
      w.extractLsb' 26 4 = t.toBits ∧
      w.extractLsb' 0 8 = 115#8 := by
    subst hw; simp only [HAppend.hAppend, bits_low, bits_high, bits_all, Nat.reduceAdd, Nat.reduceSub, Nat.reduceLeDiff, BitVec.reduceExtractLsb', and_self]
  obtain ⟨f18, f30, f8, f13, f23, f26, f0⟩ := hf
  refine codes_word _ (congrArg some hw.symm) rfl (fun hc => ?_) 115#8 f0 rfl (by decide)
  exact (decodeWord_low w 115#8 f0).trans (by
    show decodeMajors38 1 w = _
    simp only [decodeMajors38, f18, f30, f8, f13, f23, f26, ElemType.ofBits_toBits, Option.bind_some, BitVec.reduceEq, and_true, and_false, false_and, reduceIte])

theorem Codes.vlogNand (d : VReg) (s1 : VReg) (p : PReg) (t : ElemType) : Codes.Statement (.vlogNand d s1 p t) := by
  obtain ⟨w, hw⟩ : ∃ w, w = 0#2 ++ (t.toBits ++ (p ++ (5#5 ++ (s1 ++ (d ++ 115#8))))) := ⟨_, rfl⟩
  have hf : w.extractLsb' 18 5 = 5#5 ∧
      w.extractLsb' 30 2 = 0#2 ∧
      w.extractLsb' 8 5 = d ∧
      w.extractLsb' 13 5 = s1 ∧
      w.extractLsb' 23 3 = p ∧
      w.extractLsb' 26 4 = t.toBits ∧
      w.extractLsb' 0 8 = 115#8 := by
    subst hw; simp only [HAppend.hAppend, bits_low, bits_high, bits_all, Nat.reduceAdd, Nat.reduceSub, Nat.reduceLeDiff, BitVec.reduceExtractLsb', and_self]
  obtain ⟨f18, f30, f8, f13, f23, f26, f0⟩ := hf
  refine codes_word _ (congrArg some hw.symm) rfl (fun hc => ?_) 115#8 f0 rfl (by decide)
  exact (decodeWord_low w 115#8 f0).trans (by
    show decodeMajors38 1 w = _
    simp only [decodeMajors38, f18, f30, f8, f13, f23, f26, ElemType.ofBits_toBits, Option.bind_some, BitVec.reduceEq, and_true, and_false, false_and, reduceIte])

theorem Codes.vlogNor (d : VReg) (s1 : VReg) (p : PReg) (t : ElemType) : Codes.Statement (.vlogNor d s1 p t) := by
  obtain ⟨w, hw⟩ : ∃ w, w = 0#2 ++ (t.toBits ++ (p ++ (6#5 ++ (s1 ++ (d ++ 115#8))))) := ⟨_, rfl⟩
  have hf : w.extractLsb' 18 5 = 6#5 ∧
      w.extractLsb' 30 2 = 0#2 ∧
      w.extractLsb' 8 5 = d ∧
      w.extractLsb' 13 5 = s1 ∧
      w.extractLsb' 23 3 = p ∧
      w.extractLsb' 26 4 = t.toBits ∧
      w.extractLsb' 0 8 = 115#8 := by
    subst hw; simp only [HAppend.hAppend, bits_low, bits_high, bits_all, Nat.reduceAdd, Nat.reduceSub, Nat.reduceLeDiff, BitVec.reduceExtractLsb', and_self]
  obtain ⟨f18, f30, f8, f13, f23, f26, f0⟩ := hf
  refine codes_word _ (congrArg some hw.symm) rfl (fun hc => ?_) 115#8 f0 rfl (by decide)
  exact (decodeWord_low w 115#8 f0).trans (by
    show decodeMajors38 1 w = _
    simp only [decodeMajors38, f18, f30, f8, f13, f23, f26, ElemType.ofBits_toBits, Option.bind_some, BitVec.reduceEq, and_true, and_false, false_and, reduceIte])

theorem Codes.vlogXnor (d : VReg) (s1 : VReg) (p : PReg) (t : ElemType) : Codes.Statement (.vlogXnor d s1 p t) := by
  obtain ⟨w, hw⟩ : ∃ w, w = 0#2 ++ (t.toBits ++ (p ++ (7#5 ++ (s1 ++ (d ++ 115#8))))) := ⟨_, rfl⟩
  have hf : w.extractLsb' 18 5 = 7#5 ∧
      w.extractLsb' 30 2 = 0#2 ∧
      w.extractLsb' 8 5 = d ∧
      w.extractLsb' 13 5 = s1 ∧
      w.extractLsb' 23 3 = p ∧
      w.extractLsb' 26 4 = t.toBits ∧
      w.extractLsb' 0 8 = 115#8 := by
    subst hw; simp only [HAppend.hAppend, bits_low, bits_high, bits_all, Nat.reduceAdd, Nat.reduceSub, Nat.reduceLeDiff, BitVec.reduceExtractLsb', and_self]
  obtain ⟨f18, f30, f8, f13, f23, f26, f0⟩ := hf
  refine codes_word _ (congrArg some hw.symm) rfl (fun hc => ?_) 115#8 f0 rfl (by decide)
  exact (decodeWord_low w 115#8 f0).trans (by
    show decodeMajors38 1 w = _
    simp only [decodeMajors38, f18, f30, f8, f13, f23, f26, ElemType.ofBits_toBits, Option.bind_some, BitVec.reduceEq, and_true, and_false, false_and, reduceIte])

theorem Codes.vlogNot (d : VReg) (s1 : VReg) (p : PReg) (t : ElemType) : Codes.Statement (.vlogNot d s1 p t) := by
  obtain ⟨w, hw⟩ : ∃ w, w = 0#2 ++ (t.toBits ++ (p ++ (8#5 ++ (s1 ++ (d ++ 115#8))))) := ⟨_, rfl⟩
  have hf : w.extractLsb' 18 5 = 8#5 ∧
      w.extractLsb' 30 2 = 0#2 ∧
      w.extractLsb' 8 5 = d ∧
      w.extractLsb' 13 5 = s1 ∧
      w.extractLsb' 23 3 = p ∧
      w.extractLsb' 26 4 = t.toBits ∧
      w.extractLsb' 0 8 = 115#8 := by
    subst hw; simp only [HAppend.hAppend, bits_low, bits_high, bits_all, Nat.reduceAdd, Nat.reduceSub, Nat.reduceLeDiff, BitVec.reduceExtractLsb', and_self]
  obtain ⟨f18, f30, f8, f13, f23, f26, f0⟩ := hf
  refine codes_word _ (congrArg some hw.symm) rfl (fun hc => ?_) 115#8 f0 rfl (by decide)
  exact (decodeWord_low w 115#8 f0).trans (by
    show decodeMajors38 1 w = _
    simp only [decodeMajors38, f18, f30, f8, f13, f23, f26, ElemType.ofBits_toBits, Option.bind_some, BitVec.reduceEq, and_true, and_false, false_and, reduceIte])

theorem Codes.vsh (d : VReg) (s1 : VReg) (s2 : VReg) (p : PReg) (t : ElemType) (m : BitVec 2) : Codes.Statement (.vsh d s1 s2 p t m) := by
  obtain ⟨w, hw⟩ : ∃ w, w = m ++ (t.toBits ++ (p ++ (s2 ++ (s1 ++ (d ++ 117#8))))) := ⟨_, rfl⟩
  have hf : w.extractLsb' 8 5 = d ∧
      w.extractLsb' 13 5 = s1 ∧
      w.extractLsb' 18 5 = s2 ∧
      w.extractLsb' 23 3 = p ∧
      w.extractLsb' 26 4 = t.toBits ∧
      w.extractLsb' 30 2 = m ∧
      w.extractLsb' 0 8 = 117#8 := by
    subst hw; simp only [HAppend.hAppend, bits_low, bits_high, bits_all, Nat.reduceAdd, Nat.reduceSub, Nat.reduceLeDiff, BitVec.reduceExtractLsb', and_self]
  obtain ⟨f8, f13, f18, f23, f26, f30, f0⟩ := hf
  refine codes_word _ (congrArg some hw.symm) rfl (fun hc => ?_) 117#8 f0 rfl (by decide)
  exact (decodeWord_low w 117#8 f0).trans (by
    show decodeMajors38 2 w = _
    simp only [decodeMajors38, f8, f13, f18, f23, f26, f30, ElemType.ofBits_toBits, Option.bind_some, BitVec.reduceEq, and_true, and_false, false_and, reduceIte])

theorem Codes.vcmp (q : PReg) (c : VCond) (s1 : VReg) (s2 : VReg) (p : PReg) (t : ElemType) : Codes.Statement (.vcmp q c s1 s2 p t) := by
  obtain ⟨w, hw⟩ : ∃ w, w = 0#2 ++ (t.toBits ++ (p ++ (s2 ++ (s1 ++ (c.toBits ++ (q ++ 119#8)))))) := ⟨_, rfl⟩
  have hf : w.extractLsb' 30 2 = 0#2 ∧
      w.extractLsb' 8 3 = q ∧
      w.extractLsb' 11 2 = c.toBits ∧
      w.extractLsb' 13 5 = s1 ∧
      w.extractLsb' 18 5 = s2 ∧
      w.extractLsb' 23 3 = p ∧
      w.extractLsb' 26 4 = t.toBits ∧
      w.extractLsb' 0 8 = 119#8 := by
    subst hw; simp only [HAppend.hAppend, bits_low, bits_high, bits_all, Nat.reduceAdd, Nat.reduceSub, Nat.reduceLeDiff, BitVec.reduceExtractLsb', and_self]
  obtain ⟨f30, f8, f11, f13, f18, f23, f26, f0⟩ := hf
  refine codes_word _ (congrArg some hw.symm) rfl (fun hc => ?_) 119#8 f0 rfl (by decide)
  exact (decodeWord_low w 119#8 f0).trans (by
    show decodeMajors38 3 w = _
    simp only [decodeMajors38, f30, f8, f11, f13, f18, f23, f26, VCond.ofBits_toBits, ElemType.ofBits_toBits, Option.bind_some, BitVec.reduceEq, and_true, and_false, false_and, reduceIte])

theorem Codes.whilePred (q : PReg) (l : Bool) (u : Bool) (s1 : GReg) (s2 : GReg) (t : ElemType) : Codes.Statement (.whilePred q l u s1 s2 t) := by
  obtain ⟨w, hw⟩ : ∃ w, w = 0#2 ++ (t.toBits ++ (0#3 ++ (s2 ++ (s1 ++ ((BitVec.ofBool l) ++ ((BitVec.ofBool u) ++ (q ++ 121#8))))))) := ⟨_, rfl⟩
  have hf : w.extractLsb' 23 3 = 0#3 ∧
      w.extractLsb' 30 2 = 0#2 ∧
      w.extractLsb' 8 3 = q ∧
      w.extractLsb' 12 1 = BitVec.ofBool l ∧
      w.extractLsb' 11 1 = BitVec.ofBool u ∧
      w.extractLsb' 13 5 = s1 ∧
      w.extractLsb' 18 5 = s2 ∧
      w.extractLsb' 26 4 = t.toBits ∧
      w.extractLsb' 0 8 = 121#8 := by
    subst hw; simp only [HAppend.hAppend, bits_low, bits_high, bits_all, Nat.reduceAdd, Nat.reduceSub, Nat.reduceLeDiff, BitVec.reduceExtractLsb', and_self]
  obtain ⟨f23, f30, f8, f12, f11, f13, f18, f26, f0⟩ := hf
  refine codes_word _ (congrArg some hw.symm) rfl (fun hc => ?_) 121#8 f0 rfl (by decide)
  exact (decodeWord_low w 121#8 f0).trans (by
    show decodeMajors38 4 w = _
    simp only [decodeMajors38, f23, f30, f8, f12, f11, f13, f18, f26, ofBool_beq, ElemType.ofBits_toBits, Option.bind_some, BitVec.reduceEq, and_true, and_false, false_and, reduceIte])

theorem Codes.vwid (d : GReg) : Codes.Statement (.vwid d) := by
  obtain ⟨w, hw⟩ : ∃ w, w = 0#19 ++ (d ++ 123#8) := ⟨_, rfl⟩
  have hf : w.extractLsb' 13 19 = 0#19 ∧
      w.extractLsb' 8 5 = d ∧
      w.extractLsb' 0 8 = 123#8 := by
    subst hw; simp only [HAppend.hAppend, bits_low, bits_high, bits_all, Nat.reduceAdd, Nat.reduceSub, Nat.reduceLeDiff, BitVec.reduceExtractLsb', and_self]
  obtain ⟨f13, f8, f0⟩ := hf
  refine codes_word _ (congrArg some hw.symm) rfl (fun hc => ?_) 123#8 f0 rfl (by decide)
  exact (decodeWord_low w 123#8 f0).trans (by
    show decodeMajors38 5 w = _
    simp only [decodeMajors38, f13, f8, BitVec.reduceEq, and_true, and_false, false_and, reduceIte])

theorem Codes.plogAnd (q : PReg) (s1 : PReg) (s2 : PReg) (g : PReg) : Codes.Statement (.plogAnd q s1 s2 g) := by
  obtain ⟨w, hw⟩ : ∃ w, w = 4#6 ++ (g ++ ((0#2 ++ s2) ++ ((0#2 ++ s1) ++ (0#2 ++ (q ++ 125#8))))) := ⟨_, rfl⟩
  have hf : w.extractLsb' 11 2 = 0#2 ∧
      w.extractLsb' 26 6 = 4#6 ∧
      w.extractLsb' 8 3 = q ∧
      w.extractLsb' 13 5 = 0#2 ++ s1 ∧
      w.extractLsb' 18 5 = 0#2 ++ s2 ∧
      w.extractLsb' 23 3 = g ∧
      w.extractLsb' 0 8 = 125#8 := by
    subst hw; simp only [HAppend.hAppend, bits_low, bits_high, bits_all, Nat.reduceAdd, Nat.reduceSub, Nat.reduceLeDiff, BitVec.reduceExtractLsb', and_self]
  obtain ⟨f11, f26, f8, f13, f18, f23, f0⟩ := hf
  refine codes_word _ (congrArg some hw.symm) rfl (fun hc => ?_) 125#8 f0 rfl (by decide)
  exact (decodeWord_low w 125#8 f0).trans (by
    show decodeMajors38 6 w = _
    simp only [decodeMajors38, f11, f26, f8, f13, f18, f23, lowPred_low, Option.bind_some, BitVec.reduceEq, and_true, and_false, false_and, reduceIte])

theorem Codes.plogOr (q : PReg) (s1 : PReg) (s2 : PReg) (g : PReg) : Codes.Statement (.plogOr q s1 s2 g) := by
  obtain ⟨w, hw⟩ : ∃ w, w = 4#6 ++ (g ++ ((0#2 ++ s2) ++ ((0#2 ++ s1) ++ (1#2 ++ (q ++ 125#8))))) := ⟨_, rfl⟩
  have hf : w.extractLsb' 11 2 = 1#2 ∧
      w.extractLsb' 26 6 = 4#6 ∧
      w.extractLsb' 8 3 = q ∧
      w.extractLsb' 13 5 = 0#2 ++ s1 ∧
      w.extractLsb' 18 5 = 0#2 ++ s2 ∧
      w.extractLsb' 23 3 = g ∧
      w.extractLsb' 0 8 = 125#8 := by
    subst hw; simp only [HAppend.hAppend, bits_low, bits_high, bits_all, Nat.reduceAdd, Nat.reduceSub, Nat.reduceLeDiff, BitVec.reduceExtractLsb', and_self]
  obtain ⟨f11, f26, f8, f13, f18, f23, f0⟩ := hf
  refine codes_word _ (congrArg some hw.symm) rfl (fun hc => ?_) 125#8 f0 rfl (by decide)
  exact (decodeWord_low w 125#8 f0).trans (by
    show decodeMajors38 6 w = _
    simp only [decodeMajors38, f11, f26, f8, f13, f18, f23, lowPred_low, Option.bind_some, BitVec.reduceEq, and_true, and_false, false_and, reduceIte])

theorem Codes.plogXor (q : PReg) (s1 : PReg) (s2 : PReg) (g : PReg) : Codes.Statement (.plogXor q s1 s2 g) := by
  obtain ⟨w, hw⟩ : ∃ w, w = 4#6 ++ (g ++ ((0#2 ++ s2) ++ ((0#2 ++ s1) ++ (2#2 ++ (q ++ 125#8))))) := ⟨_, rfl⟩
  have hf : w.extractLsb' 11 2 = 2#2 ∧
      w.extractLsb' 26 6 = 4#6 ∧
      w.extractLsb' 8 3 = q ∧
      w.extractLsb' 13 5 = 0#2 ++ s1 ∧
      w.extractLsb' 18 5 = 0#2 ++ s2 ∧
      w.extractLsb' 23 3 = g ∧
      w.extractLsb' 0 8 = 125#8 := by
    subst hw; simp only [HAppend.hAppend, bits_low, bits_high, bits_all, Nat.reduceAdd, Nat.reduceSub, Nat.reduceLeDiff, BitVec.reduceExtractLsb', and_self]
  obtain ⟨f11, f26, f8, f13, f18, f23, f0⟩ := hf
  refine codes_word _ (congrArg some hw.symm) rfl (fun hc => ?_) 125#8 f0 rfl (by decide)
  exact (decodeWord_low w 125#8 f0).trans (by
    show decodeMajors38 6 w = _
    simp only [decodeMajors38, f11, f26, f8, f13, f18, f23, lowPred_low, Option.bind_some, BitVec.reduceEq, and_true, and_false, false_and, reduceIte])

theorem Codes.plogAndn (q : PReg) (s1 : PReg) (s2 : PReg) (g : PReg) : Codes.Statement (.plogAndn q s1 s2 g) := by
  obtain ⟨w, hw⟩ : ∃ w, w = 4#6 ++ (g ++ ((0#2 ++ s2) ++ ((0#2 ++ s1) ++ (3#2 ++ (q ++ 125#8))))) := ⟨_, rfl⟩
  have hf : w.extractLsb' 11 2 = 3#2 ∧
      w.extractLsb' 26 6 = 4#6 ∧
      w.extractLsb' 8 3 = q ∧
      w.extractLsb' 13 5 = 0#2 ++ s1 ∧
      w.extractLsb' 18 5 = 0#2 ++ s2 ∧
      w.extractLsb' 23 3 = g ∧
      w.extractLsb' 0 8 = 125#8 := by
    subst hw; simp only [HAppend.hAppend, bits_low, bits_high, bits_all, Nat.reduceAdd, Nat.reduceSub, Nat.reduceLeDiff, BitVec.reduceExtractLsb', and_self]
  obtain ⟨f11, f26, f8, f13, f18, f23, f0⟩ := hf
  refine codes_word _ (congrArg some hw.symm) rfl (fun hc => ?_) 125#8 f0 rfl (by decide)
  exact (decodeWord_low w 125#8 f0).trans (by
    show decodeMajors38 6 w = _
    simp only [decodeMajors38, f11, f26, f8, f13, f18, f23, lowPred_low, Option.bind_some, BitVec.reduceEq, and_true, and_false, false_and, reduceIte])

theorem Codes.vcvt (d : VReg) (s1 : VReg) (srcT : ElemType) (p : PReg) (t : ElemType) (m : BitVec 2) : Codes.Statement (.vcvt d s1 srcT p t m) := by
  obtain ⟨w, hw⟩ : ∃ w, w = m ++ (t.toBits ++ (p ++ (0#1 ++ (srcT.toBits ++ (s1 ++ (d ++ 127#8)))))) := ⟨_, rfl⟩
  have hf : w.extractLsb' 22 1 = 0#1 ∧
      w.extractLsb' 8 5 = d ∧
      w.extractLsb' 13 5 = s1 ∧
      w.extractLsb' 18 4 = srcT.toBits ∧
      w.extractLsb' 23 3 = p ∧
      w.extractLsb' 26 4 = t.toBits ∧
      w.extractLsb' 30 2 = m ∧
      w.extractLsb' 0 8 = 127#8 := by
    subst hw; simp only [HAppend.hAppend, bits_low, bits_high, bits_all, Nat.reduceAdd, Nat.reduceSub, Nat.reduceLeDiff, BitVec.reduceExtractLsb', and_self]
  obtain ⟨f22, f8, f13, f18, f23, f26, f30, f0⟩ := hf
  refine codes_word _ (congrArg some hw.symm) rfl (fun hc => ?_) 127#8 f0 rfl (by decide)
  exact (decodeWord_low w 127#8 f0).trans (by
    show decodeMajors38 7 w = _
    simp only [decodeMajors38, f22, f8, f13, f18, f23, f26, f30, ElemType.ofBits_toBits, Option.bind_some, BitVec.reduceEq, and_true, and_false, false_and, reduceIte])

theorem Codes.vcvtHi (d : VReg) (s1 : VReg) (srcT : ElemType) (p : PReg) (t : ElemType) (m : BitVec 2) : Codes.Statement (.vcvtHi d s1 srcT p t m) := by
  obtain ⟨w, hw⟩ : ∃ w, w = m ++ (t.toBits ++ (p ++ (1#1 ++ (srcT.toBits ++ (s1 ++ (d ++ 127#8)))))) := ⟨_, rfl⟩
  have hf : w.extractLsb' 22 1 = 1#1 ∧
      w.extractLsb' 8 5 = d ∧
      w.extractLsb' 13 5 = s1 ∧
      w.extractLsb' 18 4 = srcT.toBits ∧
      w.extractLsb' 23 3 = p ∧
      w.extractLsb' 26 4 = t.toBits ∧
      w.extractLsb' 30 2 = m ∧
      w.extractLsb' 0 8 = 127#8 := by
    subst hw; simp only [HAppend.hAppend, bits_low, bits_high, bits_all, Nat.reduceAdd, Nat.reduceSub, Nat.reduceLeDiff, BitVec.reduceExtractLsb', and_self]
  obtain ⟨f22, f8, f13, f18, f23, f26, f30, f0⟩ := hf
  refine codes_word _ (congrArg some hw.symm) rfl (fun hc => ?_) 127#8 f0 rfl (by decide)
  exact (decodeWord_low w 127#8 f0).trans (by
    show decodeMajors38 7 w = _
    simp only [decodeMajors38, f22, f8, f13, f18, f23, f26, f30, ElemType.ofBits_toBits, Option.bind_some, BitVec.reduceEq, and_true, and_false, false_and, reduceIte])

theorem Codes.vfunExp2 (d : VReg) (s1 : VReg) (x : Bool) (p : PReg) (m : BitVec 2) : Codes.Statement (.vfunExp2 d s1 x p m) := by
  obtain ⟨w, hw⟩ : ∃ w, w = m ++ (10#4 ++ (p ++ (0#1 ++ ((BitVec.ofBool x) ++ (0#3 ++ (s1 ++ (d ++ 129#8))))))) := ⟨_, rfl⟩
  have hf : w.extractLsb' 18 3 = 0#3 ∧
      w.extractLsb' 22 1 = 0#1 ∧
      w.extractLsb' 26 4 = 10#4 ∧
      w.extractLsb' 8 5 = d ∧
      w.extractLsb' 13 5 = s1 ∧
      w.extractLsb' 21 1 = BitVec.ofBool x ∧
      w.extractLsb' 23 3 = p ∧
      w.extractLsb' 30 2 = m ∧
      w.extractLsb' 0 8 = 129#8 := by
    subst hw; simp only [HAppend.hAppend, bits_low, bits_high, bits_all, Nat.reduceAdd, Nat.reduceSub, Nat.reduceLeDiff, BitVec.reduceExtractLsb', and_self]
  obtain ⟨f18, f22, f26, f8, f13, f21, f23, f30, f0⟩ := hf
  refine codes_word _ (congrArg some hw.symm) rfl (fun hc => ?_) 129#8 f0 rfl (by decide)
  exact (decodeWord_low w 129#8 f0).trans (by
    show decodeMajors40 0 w = _
    simp only [decodeMajors40, f18, f22, f26, f8, f13, f21, f23, f30, ofBool_beq, BitVec.reduceEq, and_true, and_false, false_and, reduceIte])

theorem Codes.vfunLog2 (d : VReg) (s1 : VReg) (x : Bool) (p : PReg) (m : BitVec 2) : Codes.Statement (.vfunLog2 d s1 x p m) := by
  obtain ⟨w, hw⟩ : ∃ w, w = m ++ (10#4 ++ (p ++ (0#1 ++ ((BitVec.ofBool x) ++ (1#3 ++ (s1 ++ (d ++ 129#8))))))) := ⟨_, rfl⟩
  have hf : w.extractLsb' 18 3 = 1#3 ∧
      w.extractLsb' 22 1 = 0#1 ∧
      w.extractLsb' 26 4 = 10#4 ∧
      w.extractLsb' 8 5 = d ∧
      w.extractLsb' 13 5 = s1 ∧
      w.extractLsb' 21 1 = BitVec.ofBool x ∧
      w.extractLsb' 23 3 = p ∧
      w.extractLsb' 30 2 = m ∧
      w.extractLsb' 0 8 = 129#8 := by
    subst hw; simp only [HAppend.hAppend, bits_low, bits_high, bits_all, Nat.reduceAdd, Nat.reduceSub, Nat.reduceLeDiff, BitVec.reduceExtractLsb', and_self]
  obtain ⟨f18, f22, f26, f8, f13, f21, f23, f30, f0⟩ := hf
  refine codes_word _ (congrArg some hw.symm) rfl (fun hc => ?_) 129#8 f0 rfl (by decide)
  exact (decodeWord_low w 129#8 f0).trans (by
    show decodeMajors40 0 w = _
    simp only [decodeMajors40, f18, f22, f26, f8, f13, f21, f23, f30, ofBool_beq, BitVec.reduceEq, and_true, and_false, false_and, reduceIte])

theorem Codes.vfunRcp (d : VReg) (s1 : VReg) (x : Bool) (p : PReg) (m : BitVec 2) : Codes.Statement (.vfunRcp d s1 x p m) := by
  obtain ⟨w, hw⟩ : ∃ w, w = m ++ (10#4 ++ (p ++ (0#1 ++ ((BitVec.ofBool x) ++ (2#3 ++ (s1 ++ (d ++ 129#8))))))) := ⟨_, rfl⟩
  have hf : w.extractLsb' 18 3 = 2#3 ∧
      w.extractLsb' 22 1 = 0#1 ∧
      w.extractLsb' 26 4 = 10#4 ∧
      w.extractLsb' 8 5 = d ∧
      w.extractLsb' 13 5 = s1 ∧
      w.extractLsb' 21 1 = BitVec.ofBool x ∧
      w.extractLsb' 23 3 = p ∧
      w.extractLsb' 30 2 = m ∧
      w.extractLsb' 0 8 = 129#8 := by
    subst hw; simp only [HAppend.hAppend, bits_low, bits_high, bits_all, Nat.reduceAdd, Nat.reduceSub, Nat.reduceLeDiff, BitVec.reduceExtractLsb', and_self]
  obtain ⟨f18, f22, f26, f8, f13, f21, f23, f30, f0⟩ := hf
  refine codes_word _ (congrArg some hw.symm) rfl (fun hc => ?_) 129#8 f0 rfl (by decide)
  exact (decodeWord_low w 129#8 f0).trans (by
    show decodeMajors40 0 w = _
    simp only [decodeMajors40, f18, f22, f26, f8, f13, f21, f23, f30, ofBool_beq, BitVec.reduceEq, and_true, and_false, false_and, reduceIte])

theorem Codes.vfunRsq (d : VReg) (s1 : VReg) (x : Bool) (p : PReg) (m : BitVec 2) : Codes.Statement (.vfunRsq d s1 x p m) := by
  obtain ⟨w, hw⟩ : ∃ w, w = m ++ (10#4 ++ (p ++ (0#1 ++ ((BitVec.ofBool x) ++ (3#3 ++ (s1 ++ (d ++ 129#8))))))) := ⟨_, rfl⟩
  have hf : w.extractLsb' 18 3 = 3#3 ∧
      w.extractLsb' 22 1 = 0#1 ∧
      w.extractLsb' 26 4 = 10#4 ∧
      w.extractLsb' 8 5 = d ∧
      w.extractLsb' 13 5 = s1 ∧
      w.extractLsb' 21 1 = BitVec.ofBool x ∧
      w.extractLsb' 23 3 = p ∧
      w.extractLsb' 30 2 = m ∧
      w.extractLsb' 0 8 = 129#8 := by
    subst hw; simp only [HAppend.hAppend, bits_low, bits_high, bits_all, Nat.reduceAdd, Nat.reduceSub, Nat.reduceLeDiff, BitVec.reduceExtractLsb', and_self]
  obtain ⟨f18, f22, f26, f8, f13, f21, f23, f30, f0⟩ := hf
  refine codes_word _ (congrArg some hw.symm) rfl (fun hc => ?_) 129#8 f0 rfl (by decide)
  exact (decodeWord_low w 129#8 f0).trans (by
    show decodeMajors40 0 w = _
    simp only [decodeMajors40, f18, f22, f26, f8, f13, f21, f23, f30, ofBool_beq, BitVec.reduceEq, and_true, and_false, false_and, reduceIte])

theorem Codes.vfunSinpi (d : VReg) (s1 : VReg) (x : Bool) (p : PReg) (m : BitVec 2) : Codes.Statement (.vfunSinpi d s1 x p m) := by
  obtain ⟨w, hw⟩ : ∃ w, w = m ++ (10#4 ++ (p ++ (0#1 ++ ((BitVec.ofBool x) ++ (4#3 ++ (s1 ++ (d ++ 129#8))))))) := ⟨_, rfl⟩
  have hf : w.extractLsb' 18 3 = 4#3 ∧
      w.extractLsb' 22 1 = 0#1 ∧
      w.extractLsb' 26 4 = 10#4 ∧
      w.extractLsb' 8 5 = d ∧
      w.extractLsb' 13 5 = s1 ∧
      w.extractLsb' 21 1 = BitVec.ofBool x ∧
      w.extractLsb' 23 3 = p ∧
      w.extractLsb' 30 2 = m ∧
      w.extractLsb' 0 8 = 129#8 := by
    subst hw; simp only [HAppend.hAppend, bits_low, bits_high, bits_all, Nat.reduceAdd, Nat.reduceSub, Nat.reduceLeDiff, BitVec.reduceExtractLsb', and_self]
  obtain ⟨f18, f22, f26, f8, f13, f21, f23, f30, f0⟩ := hf
  refine codes_word _ (congrArg some hw.symm) rfl (fun hc => ?_) 129#8 f0 rfl (by decide)
  exact (decodeWord_low w 129#8 f0).trans (by
    show decodeMajors40 0 w = _
    simp only [decodeMajors40, f18, f22, f26, f8, f13, f21, f23, f30, ofBool_beq, BitVec.reduceEq, and_true, and_false, false_and, reduceIte])

theorem Codes.vfunCospi (d : VReg) (s1 : VReg) (x : Bool) (p : PReg) (m : BitVec 2) : Codes.Statement (.vfunCospi d s1 x p m) := by
  obtain ⟨w, hw⟩ : ∃ w, w = m ++ (10#4 ++ (p ++ (0#1 ++ ((BitVec.ofBool x) ++ (5#3 ++ (s1 ++ (d ++ 129#8))))))) := ⟨_, rfl⟩
  have hf : w.extractLsb' 18 3 = 5#3 ∧
      w.extractLsb' 22 1 = 0#1 ∧
      w.extractLsb' 26 4 = 10#4 ∧
      w.extractLsb' 8 5 = d ∧
      w.extractLsb' 13 5 = s1 ∧
      w.extractLsb' 21 1 = BitVec.ofBool x ∧
      w.extractLsb' 23 3 = p ∧
      w.extractLsb' 30 2 = m ∧
      w.extractLsb' 0 8 = 129#8 := by
    subst hw; simp only [HAppend.hAppend, bits_low, bits_high, bits_all, Nat.reduceAdd, Nat.reduceSub, Nat.reduceLeDiff, BitVec.reduceExtractLsb', and_self]
  obtain ⟨f18, f22, f26, f8, f13, f21, f23, f30, f0⟩ := hf
  refine codes_word _ (congrArg some hw.symm) rfl (fun hc => ?_) 129#8 f0 rfl (by decide)
  exact (decodeWord_low w 129#8 f0).trans (by
    show decodeMajors40 0 w = _
    simp only [decodeMajors40, f18, f22, f26, f8, f13, f21, f23, f30, ofBool_beq, BitVec.reduceEq, and_true, and_false, false_and, reduceIte])

theorem Codes.vfunTanh (d : VReg) (s1 : VReg) (x : Bool) (p : PReg) (m : BitVec 2) : Codes.Statement (.vfunTanh d s1 x p m) := by
  obtain ⟨w, hw⟩ : ∃ w, w = m ++ (10#4 ++ (p ++ (0#1 ++ ((BitVec.ofBool x) ++ (6#3 ++ (s1 ++ (d ++ 129#8))))))) := ⟨_, rfl⟩
  have hf : w.extractLsb' 18 3 = 6#3 ∧
      w.extractLsb' 22 1 = 0#1 ∧
      w.extractLsb' 26 4 = 10#4 ∧
      w.extractLsb' 8 5 = d ∧
      w.extractLsb' 13 5 = s1 ∧
      w.extractLsb' 21 1 = BitVec.ofBool x ∧
      w.extractLsb' 23 3 = p ∧
      w.extractLsb' 30 2 = m ∧
      w.extractLsb' 0 8 = 129#8 := by
    subst hw; simp only [HAppend.hAppend, bits_low, bits_high, bits_all, Nat.reduceAdd, Nat.reduceSub, Nat.reduceLeDiff, BitVec.reduceExtractLsb', and_self]
  obtain ⟨f18, f22, f26, f8, f13, f21, f23, f30, f0⟩ := hf
  refine codes_word _ (congrArg some hw.symm) rfl (fun hc => ?_) 129#8 f0 rfl (by decide)
  exact (decodeWord_low w 129#8 f0).trans (by
    show decodeMajors40 0 w = _
    simp only [decodeMajors40, f18, f22, f26, f8, f13, f21, f23, f30, ofBool_beq, BitVec.reduceEq, and_true, and_false, false_and, reduceIte])

theorem Codes.vredAdd (d : VReg) (s1 : VReg) (p : PReg) (t : ElemType) (m : BitVec 2) : Codes.Statement (.vredAdd d s1 p t m) := by
  obtain ⟨w, hw⟩ : ∃ w, w = m ++ (t.toBits ++ (p ++ (0#5 ++ (s1 ++ (d ++ 131#8))))) := ⟨_, rfl⟩
  have hf : w.extractLsb' 18 5 = 0#5 ∧
      w.extractLsb' 8 5 = d ∧
      w.extractLsb' 13 5 = s1 ∧
      w.extractLsb' 23 3 = p ∧
      w.extractLsb' 26 4 = t.toBits ∧
      w.extractLsb' 30 2 = m ∧
      w.extractLsb' 0 8 = 131#8 := by
    subst hw; simp only [HAppend.hAppend, bits_low, bits_high, bits_all, Nat.reduceAdd, Nat.reduceSub, Nat.reduceLeDiff, BitVec.reduceExtractLsb', and_self]
  obtain ⟨f18, f8, f13, f23, f26, f30, f0⟩ := hf
  refine codes_word _ (congrArg some hw.symm) rfl (fun hc => ?_) 131#8 f0 rfl (by decide)
  exact (decodeWord_low w 131#8 f0).trans (by
    show decodeMajors40 1 w = _
    simp only [decodeMajors40, f18, f8, f13, f23, f26, f30, ElemType.ofBits_toBits, Option.bind_some, BitVec.reduceEq, and_true, and_false, false_and, reduceIte])

theorem Codes.vredMin (d : VReg) (s1 : VReg) (p : PReg) (t : ElemType) (m : BitVec 2) : Codes.Statement (.vredMin d s1 p t m) := by
  obtain ⟨w, hw⟩ : ∃ w, w = m ++ (t.toBits ++ (p ++ (1#5 ++ (s1 ++ (d ++ 131#8))))) := ⟨_, rfl⟩
  have hf : w.extractLsb' 18 5 = 1#5 ∧
      w.extractLsb' 8 5 = d ∧
      w.extractLsb' 13 5 = s1 ∧
      w.extractLsb' 23 3 = p ∧
      w.extractLsb' 26 4 = t.toBits ∧
      w.extractLsb' 30 2 = m ∧
      w.extractLsb' 0 8 = 131#8 := by
    subst hw; simp only [HAppend.hAppend, bits_low, bits_high, bits_all, Nat.reduceAdd, Nat.reduceSub, Nat.reduceLeDiff, BitVec.reduceExtractLsb', and_self]
  obtain ⟨f18, f8, f13, f23, f26, f30, f0⟩ := hf
  refine codes_word _ (congrArg some hw.symm) rfl (fun hc => ?_) 131#8 f0 rfl (by decide)
  exact (decodeWord_low w 131#8 f0).trans (by
    show decodeMajors40 1 w = _
    simp only [decodeMajors40, f18, f8, f13, f23, f26, f30, ElemType.ofBits_toBits, Option.bind_some, BitVec.reduceEq, and_true, and_false, false_and, reduceIte])

theorem Codes.vredMax (d : VReg) (s1 : VReg) (p : PReg) (t : ElemType) (m : BitVec 2) : Codes.Statement (.vredMax d s1 p t m) := by
  obtain ⟨w, hw⟩ : ∃ w, w = m ++ (t.toBits ++ (p ++ (2#5 ++ (s1 ++ (d ++ 131#8))))) := ⟨_, rfl⟩
  have hf : w.extractLsb' 18 5 = 2#5 ∧
      w.extractLsb' 8 5 = d ∧
      w.extractLsb' 13 5 = s1 ∧
      w.extractLsb' 23 3 = p ∧
      w.extractLsb' 26 4 = t.toBits ∧
      w.extractLsb' 30 2 = m ∧
      w.extractLsb' 0 8 = 131#8 := by
    subst hw; simp only [HAppend.hAppend, bits_low, bits_high, bits_all, Nat.reduceAdd, Nat.reduceSub, Nat.reduceLeDiff, BitVec.reduceExtractLsb', and_self]
  obtain ⟨f18, f8, f13, f23, f26, f30, f0⟩ := hf
  refine codes_word _ (congrArg some hw.symm) rfl (fun hc => ?_) 131#8 f0 rfl (by decide)
  exact (decodeWord_low w 131#8 f0).trans (by
    show decodeMajors40 1 w = _
    simp only [decodeMajors40, f18, f8, f13, f23, f26, f30, ElemType.ofBits_toBits, Option.bind_some, BitVec.reduceEq, and_true, and_false, false_and, reduceIte])

theorem Codes.vredAnd (d : VReg) (s1 : VReg) (p : PReg) (t : ElemType) (m : BitVec 2) : Codes.Statement (.vredAnd d s1 p t m) := by
  obtain ⟨w, hw⟩ : ∃ w, w = m ++ (t.toBits ++ (p ++ (3#5 ++ (s1 ++ (d ++ 131#8))))) := ⟨_, rfl⟩
  have hf : w.extractLsb' 18 5 = 3#5 ∧
      w.extractLsb' 8 5 = d ∧
      w.extractLsb' 13 5 = s1 ∧
      w.extractLsb' 23 3 = p ∧
      w.extractLsb' 26 4 = t.toBits ∧
      w.extractLsb' 30 2 = m ∧
      w.extractLsb' 0 8 = 131#8 := by
    subst hw; simp only [HAppend.hAppend, bits_low, bits_high, bits_all, Nat.reduceAdd, Nat.reduceSub, Nat.reduceLeDiff, BitVec.reduceExtractLsb', and_self]
  obtain ⟨f18, f8, f13, f23, f26, f30, f0⟩ := hf
  refine codes_word _ (congrArg some hw.symm) rfl (fun hc => ?_) 131#8 f0 rfl (by decide)
  exact (decodeWord_low w 131#8 f0).trans (by
    show decodeMajors40 1 w = _
    simp only [decodeMajors40, f18, f8, f13, f23, f26, f30, ElemType.ofBits_toBits, Option.bind_some, BitVec.reduceEq, and_true, and_false, false_and, reduceIte])

theorem Codes.vredOr (d : VReg) (s1 : VReg) (p : PReg) (t : ElemType) (m : BitVec 2) : Codes.Statement (.vredOr d s1 p t m) := by
  obtain ⟨w, hw⟩ : ∃ w, w = m ++ (t.toBits ++ (p ++ (4#5 ++ (s1 ++ (d ++ 131#8))))) := ⟨_, rfl⟩
  have hf : w.extractLsb' 18 5 = 4#5 ∧
      w.extractLsb' 8 5 = d ∧
      w.extractLsb' 13 5 = s1 ∧
      w.extractLsb' 23 3 = p ∧
      w.extractLsb' 26 4 = t.toBits ∧
      w.extractLsb' 30 2 = m ∧
      w.extractLsb' 0 8 = 131#8 := by
    subst hw; simp only [HAppend.hAppend, bits_low, bits_high, bits_all, Nat.reduceAdd, Nat.reduceSub, Nat.reduceLeDiff, BitVec.reduceExtractLsb', and_self]
  obtain ⟨f18, f8, f13, f23, f26, f30, f0⟩ := hf
  refine codes_word _ (congrArg some hw.symm) rfl (fun hc => ?_) 131#8 f0 rfl (by decide)
  exact (decodeWord_low w 131#8 f0).trans (by
    show decodeMajors40 1 w = _
    simp only [decodeMajors40, f18, f8, f13, f23, f26, f30, ElemType.ofBits_toBits, Option.bind_some, BitVec.reduceEq, and_true, and_false, false_and, reduceIte])

theorem Codes.vredXor (d : VReg) (s1 : VReg) (p : PReg) (t : ElemType) (m : BitVec 2) : Codes.Statement (.vredXor d s1 p t m) := by
  obtain ⟨w, hw⟩ : ∃ w, w = m ++ (t.toBits ++ (p ++ (5#5 ++ (s1 ++ (d ++ 131#8))))) := ⟨_, rfl⟩
  have hf : w.extractLsb' 18 5 = 5#5 ∧
      w.extractLsb' 8 5 = d ∧
      w.extractLsb' 13 5 = s1 ∧
      w.extractLsb' 23 3 = p ∧
      w.extractLsb' 26 4 = t.toBits ∧
      w.extractLsb' 30 2 = m ∧
      w.extractLsb' 0 8 = 131#8 := by
    subst hw; simp only [HAppend.hAppend, bits_low, bits_high, bits_all, Nat.reduceAdd, Nat.reduceSub, Nat.reduceLeDiff, BitVec.reduceExtractLsb', and_self]
  obtain ⟨f18, f8, f13, f23, f26, f30, f0⟩ := hf
  refine codes_word _ (congrArg some hw.symm) rfl (fun hc => ?_) 131#8 f0 rfl (by decide)
  exact (decodeWord_low w 131#8 f0).trans (by
    show decodeMajors40 1 w = _
    simp only [decodeMajors40, f18, f8, f13, f23, f26, f30, ElemType.ofBits_toBits, Option.bind_some, BitVec.reduceEq, and_true, and_false, false_and, reduceIte])

theorem Codes.vdot (d : VReg) (s1 : VReg) (s2 : VReg) (p : PReg) (t : ElemType) (m : BitVec 2) : Codes.Statement (.vdot d s1 s2 p t m) := by
  obtain ⟨w, hw⟩ : ∃ w, w = m ++ (t.toBits ++ (p ++ (s2 ++ (s1 ++ (d ++ 133#8))))) := ⟨_, rfl⟩
  have hf : w.extractLsb' 8 5 = d ∧
      w.extractLsb' 13 5 = s1 ∧
      w.extractLsb' 18 5 = s2 ∧
      w.extractLsb' 23 3 = p ∧
      w.extractLsb' 26 4 = t.toBits ∧
      w.extractLsb' 30 2 = m ∧
      w.extractLsb' 0 8 = 133#8 := by
    subst hw; simp only [HAppend.hAppend, bits_low, bits_high, bits_all, Nat.reduceAdd, Nat.reduceSub, Nat.reduceLeDiff, BitVec.reduceExtractLsb', and_self]
  obtain ⟨f8, f13, f18, f23, f26, f30, f0⟩ := hf
  refine codes_word _ (congrArg some hw.symm) rfl (fun hc => ?_) 133#8 f0 rfl (by decide)
  exact (decodeWord_low w 133#8 f0).trans (by
    show decodeMajors40 2 w = _
    simp only [decodeMajors40, f8, f13, f18, f23, f26, f30, ElemType.ofBits_toBits, Option.bind_some, BitVec.reduceEq, and_true, and_false, false_and, reduceIte])

theorem Codes.vsel (d : VReg) (s1 : VReg) (s2 : VReg) (p : PReg) (t : ElemType) : Codes.Statement (.vsel d s1 s2 p t) := by
  obtain ⟨w, hw⟩ : ∃ w, w = 0#2 ++ (t.toBits ++ (p ++ (s2 ++ (s1 ++ (d ++ 135#8))))) := ⟨_, rfl⟩
  have hf : w.extractLsb' 30 2 = 0#2 ∧
      w.extractLsb' 8 5 = d ∧
      w.extractLsb' 13 5 = s1 ∧
      w.extractLsb' 18 5 = s2 ∧
      w.extractLsb' 23 3 = p ∧
      w.extractLsb' 26 4 = t.toBits ∧
      w.extractLsb' 0 8 = 135#8 := by
    subst hw; simp only [HAppend.hAppend, bits_low, bits_high, bits_all, Nat.reduceAdd, Nat.reduceSub, Nat.reduceLeDiff, BitVec.reduceExtractLsb', and_self]
  obtain ⟨f30, f8, f13, f18, f23, f26, f0⟩ := hf
  refine codes_word _ (congrArg some hw.symm) rfl (fun hc => ?_) 135#8 f0 rfl (by decide)
  exact (decodeWord_low w 135#8 f0).trans (by
    show decodeMajors40 3 w = _
    simp only [decodeMajors40, f30, f8, f13, f18, f23, f26, ElemType.ofBits_toBits, Option.bind_some, BitVec.reduceEq, and_true, and_false, false_and, reduceIte])

theorem Codes.vperm (d : VReg) (s1 : VReg) (s2 : VReg) (p : PReg) (t : ElemType) : Codes.Statement (.vperm d s1 s2 p t) := by
  obtain ⟨w, hw⟩ : ∃ w, w = 0#2 ++ (t.toBits ++ (p ++ (s2 ++ (s1 ++ (d ++ 137#8))))) := ⟨_, rfl⟩
  have hf : w.extractLsb' 30 2 = 0#2 ∧
      w.extractLsb' 8 5 = d ∧
      w.extractLsb' 13 5 = s1 ∧
      w.extractLsb' 18 5 = s2 ∧
      w.extractLsb' 23 3 = p ∧
      w.extractLsb' 26 4 = t.toBits ∧
      w.extractLsb' 0 8 = 137#8 := by
    subst hw; simp only [HAppend.hAppend, bits_low, bits_high, bits_all, Nat.reduceAdd, Nat.reduceSub, Nat.reduceLeDiff, BitVec.reduceExtractLsb', and_self]
  obtain ⟨f30, f8, f13, f18, f23, f26, f0⟩ := hf
  refine codes_word _ (congrArg some hw.symm) rfl (fun hc => ?_) 137#8 f0 rfl (by decide)
  exact (decodeWord_low w 137#8 f0).trans (by
    show decodeMajors40 4 w = _
    simp only [decodeMajors40, f30, f8, f13, f18, f23, f26, ElemType.ofBits_toBits, Option.bind_some, BitVec.reduceEq, and_true, and_false, false_and, reduceIte])

theorem Codes.vbcast (d : VReg) (s1 : GReg) (p : PReg) (t : ElemType) : Codes.Statement (.vbcast d s1 p t) := by
  obtain ⟨w, hw⟩ : ∃ w, w = 0#2 ++ (t.toBits ++ (p ++ (0#5 ++ (s1 ++ (d ++ 139#8))))) := ⟨_, rfl⟩
  have hf : w.extractLsb' 18 5 = 0#5 ∧
      w.extractLsb' 30 2 = 0#2 ∧
      w.extractLsb' 8 5 = d ∧
      w.extractLsb' 13 5 = s1 ∧
      w.extractLsb' 23 3 = p ∧
      w.extractLsb' 26 4 = t.toBits ∧
      w.extractLsb' 0 8 = 139#8 := by
    subst hw; simp only [HAppend.hAppend, bits_low, bits_high, bits_all, Nat.reduceAdd, Nat.reduceSub, Nat.reduceLeDiff, BitVec.reduceExtractLsb', and_self]
  obtain ⟨f18, f30, f8, f13, f23, f26, f0⟩ := hf
  refine codes_word _ (congrArg some hw.symm) rfl (fun hc => ?_) 139#8 f0 rfl (by decide)
  exact (decodeWord_low w 139#8 f0).trans (by
    show decodeMajors40 5 w = _
    simp only [decodeMajors40, f18, f30, f8, f13, f23, f26, ElemType.ofBits_toBits, Option.bind_some, BitVec.reduceEq, and_true, and_false, false_and, reduceIte])

theorem Codes.vext (d : GReg) (s1 : VReg) (s2 : GReg) (t : ElemType) : Codes.Statement (.vext d s1 s2 t) := by
  obtain ⟨w, hw⟩ : ∃ w, w = 0#2 ++ (t.toBits ++ (0#3 ++ (s2 ++ (s1 ++ (d ++ 141#8))))) := ⟨_, rfl⟩
  have hf : w.extractLsb' 23 3 = 0#3 ∧
      w.extractLsb' 30 2 = 0#2 ∧
      w.extractLsb' 8 5 = d ∧
      w.extractLsb' 13 5 = s1 ∧
      w.extractLsb' 18 5 = s2 ∧
      w.extractLsb' 26 4 = t.toBits ∧
      w.extractLsb' 0 8 = 141#8 := by
    subst hw; simp only [HAppend.hAppend, bits_low, bits_high, bits_all, Nat.reduceAdd, Nat.reduceSub, Nat.reduceLeDiff, BitVec.reduceExtractLsb', and_self]
  obtain ⟨f23, f30, f8, f13, f18, f26, f0⟩ := hf
  refine codes_word _ (congrArg some hw.symm) rfl (fun hc => ?_) 141#8 f0 rfl (by decide)
  exact (decodeWord_low w 141#8 f0).trans (by
    show decodeMajors40 6 w = _
    simp only [decodeMajors40, f23, f30, f8, f13, f18, f26, ElemType.ofBits_toBits, Option.bind_some, BitVec.reduceEq, and_true, and_false, false_and, reduceIte])

theorem Codes.vins (d : VReg) (s1 : GReg) (s2 : GReg) (t : ElemType) : Codes.Statement (.vins d s1 s2 t) := by
  obtain ⟨w, hw⟩ : ∃ w, w = 0#2 ++ (t.toBits ++ (0#3 ++ (s2 ++ (s1 ++ (d ++ 143#8))))) := ⟨_, rfl⟩
  have hf : w.extractLsb' 23 3 = 0#3 ∧
      w.extractLsb' 30 2 = 0#2 ∧
      w.extractLsb' 8 5 = d ∧
      w.extractLsb' 13 5 = s1 ∧
      w.extractLsb' 18 5 = s2 ∧
      w.extractLsb' 26 4 = t.toBits ∧
      w.extractLsb' 0 8 = 143#8 := by
    subst hw; simp only [HAppend.hAppend, bits_low, bits_high, bits_all, Nat.reduceAdd, Nat.reduceSub, Nat.reduceLeDiff, BitVec.reduceExtractLsb', and_self]
  obtain ⟨f23, f30, f8, f13, f18, f26, f0⟩ := hf
  refine codes_word _ (congrArg some hw.symm) rfl (fun hc => ?_) 143#8 f0 rfl (by decide)
  exact (decodeWord_low w 143#8 f0).trans (by
    show decodeMajors40 7 w = _
    simp only [decodeMajors40, f23, f30, f8, f13, f18, f26, ElemType.ofBits_toBits, Option.bind_some, BitVec.reduceEq, and_true, and_false, false_and, reduceIte])

theorem Codes.vzip (d : VReg) (s1 : VReg) (s2 : VReg) (p : PReg) (t : ElemType) : Codes.Statement (.vzip d s1 s2 p t) := by
  obtain ⟨w, hw⟩ : ∃ w, w = 0#2 ++ (t.toBits ++ (p ++ (s2 ++ (s1 ++ (d ++ 145#8))))) := ⟨_, rfl⟩
  have hf : w.extractLsb' 30 2 = 0#2 ∧
      w.extractLsb' 8 5 = d ∧
      w.extractLsb' 13 5 = s1 ∧
      w.extractLsb' 18 5 = s2 ∧
      w.extractLsb' 23 3 = p ∧
      w.extractLsb' 26 4 = t.toBits ∧
      w.extractLsb' 0 8 = 145#8 := by
    subst hw; simp only [HAppend.hAppend, bits_low, bits_high, bits_all, Nat.reduceAdd, Nat.reduceSub, Nat.reduceLeDiff, BitVec.reduceExtractLsb', and_self]
  obtain ⟨f30, f8, f13, f18, f23, f26, f0⟩ := hf
  refine codes_word _ (congrArg some hw.symm) rfl (fun hc => ?_) 145#8 f0 rfl (by decide)
  exact (decodeWord_low w 145#8 f0).trans (by
    show decodeMajors48 0 w = _
    simp only [decodeMajors48, f30, f8, f13, f18, f23, f26, ElemType.ofBits_toBits, Option.bind_some, BitVec.reduceEq, and_true, and_false, false_and, reduceIte])

theorem Codes.vscanAdd (d : VReg) (s1 : VReg) (p : PReg) (t : ElemType) (m : BitVec 2) : Codes.Statement (.vscanAdd d s1 p t m) := by
  obtain ⟨w, hw⟩ : ∃ w, w = m ++ (t.toBits ++ (p ++ (0#5 ++ (s1 ++ (d ++ 147#8))))) := ⟨_, rfl⟩
  have hf : w.extractLsb' 18 5 = 0#5 ∧
      w.extractLsb' 8 5 = d ∧
      w.extractLsb' 13 5 = s1 ∧
      w.extractLsb' 23 3 = p ∧
      w.extractLsb' 26 4 = t.toBits ∧
      w.extractLsb' 30 2 = m ∧
      w.extractLsb' 0 8 = 147#8 := by
    subst hw; simp only [HAppend.hAppend, bits_low, bits_high, bits_all, Nat.reduceAdd, Nat.reduceSub, Nat.reduceLeDiff, BitVec.reduceExtractLsb', and_self]
  obtain ⟨f18, f8, f13, f23, f26, f30, f0⟩ := hf
  refine codes_word _ (congrArg some hw.symm) rfl (fun hc => ?_) 147#8 f0 rfl (by decide)
  exact (decodeWord_low w 147#8 f0).trans (by
    show decodeMajors48 1 w = _
    simp only [decodeMajors48, f18, f8, f13, f23, f26, f30, ElemType.ofBits_toBits, Option.bind_some, BitVec.reduceEq, and_true, and_false, false_and, reduceIte])

theorem Codes.vscanMin (d : VReg) (s1 : VReg) (p : PReg) (t : ElemType) (m : BitVec 2) : Codes.Statement (.vscanMin d s1 p t m) := by
  obtain ⟨w, hw⟩ : ∃ w, w = m ++ (t.toBits ++ (p ++ (1#5 ++ (s1 ++ (d ++ 147#8))))) := ⟨_, rfl⟩
  have hf : w.extractLsb' 18 5 = 1#5 ∧
      w.extractLsb' 8 5 = d ∧
      w.extractLsb' 13 5 = s1 ∧
      w.extractLsb' 23 3 = p ∧
      w.extractLsb' 26 4 = t.toBits ∧
      w.extractLsb' 30 2 = m ∧
      w.extractLsb' 0 8 = 147#8 := by
    subst hw; simp only [HAppend.hAppend, bits_low, bits_high, bits_all, Nat.reduceAdd, Nat.reduceSub, Nat.reduceLeDiff, BitVec.reduceExtractLsb', and_self]
  obtain ⟨f18, f8, f13, f23, f26, f30, f0⟩ := hf
  refine codes_word _ (congrArg some hw.symm) rfl (fun hc => ?_) 147#8 f0 rfl (by decide)
  exact (decodeWord_low w 147#8 f0).trans (by
    show decodeMajors48 1 w = _
    simp only [decodeMajors48, f18, f8, f13, f23, f26, f30, ElemType.ofBits_toBits, Option.bind_some, BitVec.reduceEq, and_true, and_false, false_and, reduceIte])

theorem Codes.vscanMax (d : VReg) (s1 : VReg) (p : PReg) (t : ElemType) (m : BitVec 2) : Codes.Statement (.vscanMax d s1 p t m) := by
  obtain ⟨w, hw⟩ : ∃ w, w = m ++ (t.toBits ++ (p ++ (2#5 ++ (s1 ++ (d ++ 147#8))))) := ⟨_, rfl⟩
  have hf : w.extractLsb' 18 5 = 2#5 ∧
      w.extractLsb' 8 5 = d ∧
      w.extractLsb' 13 5 = s1 ∧
      w.extractLsb' 23 3 = p ∧
      w.extractLsb' 26 4 = t.toBits ∧
      w.extractLsb' 30 2 = m ∧
      w.extractLsb' 0 8 = 147#8 := by
    subst hw; simp only [HAppend.hAppend, bits_low, bits_high, bits_all, Nat.reduceAdd, Nat.reduceSub, Nat.reduceLeDiff, BitVec.reduceExtractLsb', and_self]
  obtain ⟨f18, f8, f13, f23, f26, f30, f0⟩ := hf
  refine codes_word _ (congrArg some hw.symm) rfl (fun hc => ?_) 147#8 f0 rfl (by decide)
  exact (decodeWord_low w 147#8 f0).trans (by
    show decodeMajors48 1 w = _
    simp only [decodeMajors48, f18, f8, f13, f23, f26, f30, ElemType.ofBits_toBits, Option.bind_some, BitVec.reduceEq, and_true, and_false, false_and, reduceIte])

theorem Codes.vld (d : VReg) (s1 : GReg) (s2 : GReg) (p : PReg) (t : ElemType) : Codes.Statement (.vld d s1 s2 p t) := by
  obtain ⟨w, hw⟩ : ∃ w, w = 0#2 ++ (t.toBits ++ (p ++ (s2 ++ (s1 ++ (d ++ 149#8))))) := ⟨_, rfl⟩
  have hf : w.extractLsb' 30 2 = 0#2 ∧
      w.extractLsb' 8 5 = d ∧
      w.extractLsb' 13 5 = s1 ∧
      w.extractLsb' 18 5 = s2 ∧
      w.extractLsb' 23 3 = p ∧
      w.extractLsb' 26 4 = t.toBits ∧
      w.extractLsb' 0 8 = 149#8 := by
    subst hw; simp only [HAppend.hAppend, bits_low, bits_high, bits_all, Nat.reduceAdd, Nat.reduceSub, Nat.reduceLeDiff, BitVec.reduceExtractLsb', and_self]
  obtain ⟨f30, f8, f13, f18, f23, f26, f0⟩ := hf
  refine codes_word _ (congrArg some hw.symm) rfl (fun hc => ?_) 149#8 f0 rfl (by decide)
  exact (decodeWord_low w 149#8 f0).trans (by
    show decodeMajors48 2 w = _
    simp only [decodeMajors48, f30, f8, f13, f18, f23, f26, ElemType.ofBits_toBits, Option.bind_some, BitVec.reduceEq, and_true, and_false, false_and, reduceIte])

theorem Codes.vst (d : VReg) (s1 : GReg) (s2 : GReg) (p : PReg) (t : ElemType) : Codes.Statement (.vst d s1 s2 p t) := by
  obtain ⟨w, hw⟩ : ∃ w, w = 0#2 ++ (t.toBits ++ (p ++ (s2 ++ (s1 ++ (d ++ 151#8))))) := ⟨_, rfl⟩
  have hf : w.extractLsb' 30 2 = 0#2 ∧
      w.extractLsb' 8 5 = d ∧
      w.extractLsb' 13 5 = s1 ∧
      w.extractLsb' 18 5 = s2 ∧
      w.extractLsb' 23 3 = p ∧
      w.extractLsb' 26 4 = t.toBits ∧
      w.extractLsb' 0 8 = 151#8 := by
    subst hw; simp only [HAppend.hAppend, bits_low, bits_high, bits_all, Nat.reduceAdd, Nat.reduceSub, Nat.reduceLeDiff, BitVec.reduceExtractLsb', and_self]
  obtain ⟨f30, f8, f13, f18, f23, f26, f0⟩ := hf
  refine codes_word _ (congrArg some hw.symm) rfl (fun hc => ?_) 151#8 f0 rfl (by decide)
  exact (decodeWord_low w 151#8 f0).trans (by
    show decodeMajors48 3 w = _
    simp only [decodeMajors48, f30, f8, f13, f18, f23, f26, ElemType.ofBits_toBits, Option.bind_some, BitVec.reduceEq, and_true, and_false, false_and, reduceIte])

theorem Codes.vgath (d : VReg) (s1 : GReg) (s2 : VReg) (p : PReg) (t : ElemType) : Codes.Statement (.vgath d s1 s2 p t) := by
  obtain ⟨w, hw⟩ : ∃ w, w = 0#2 ++ (t.toBits ++ (p ++ (s2 ++ (s1 ++ (d ++ 153#8))))) := ⟨_, rfl⟩
  have hf : w.extractLsb' 30 2 = 0#2 ∧
      w.extractLsb' 8 5 = d ∧
      w.extractLsb' 13 5 = s1 ∧
      w.extractLsb' 18 5 = s2 ∧
      w.extractLsb' 23 3 = p ∧
      w.extractLsb' 26 4 = t.toBits ∧
      w.extractLsb' 0 8 = 153#8 := by
    subst hw; simp only [HAppend.hAppend, bits_low, bits_high, bits_all, Nat.reduceAdd, Nat.reduceSub, Nat.reduceLeDiff, BitVec.reduceExtractLsb', and_self]
  obtain ⟨f30, f8, f13, f18, f23, f26, f0⟩ := hf
  refine codes_word _ (congrArg some hw.symm) rfl (fun hc => ?_) 153#8 f0 rfl (by decide)
  exact (decodeWord_low w 153#8 f0).trans (by
    show decodeMajors48 4 w = _
    simp only [decodeMajors48, f30, f8, f13, f18, f23, f26, ElemType.ofBits_toBits, Option.bind_some, BitVec.reduceEq, and_true, and_false, false_and, reduceIte])

theorem Codes.vscat (d : VReg) (s1 : GReg) (s2 : VReg) (p : PReg) (t : ElemType) : Codes.Statement (.vscat d s1 s2 p t) := by
  obtain ⟨w, hw⟩ : ∃ w, w = 0#2 ++ (t.toBits ++ (p ++ (s2 ++ (s1 ++ (d ++ 155#8))))) := ⟨_, rfl⟩
  have hf : w.extractLsb' 30 2 = 0#2 ∧
      w.extractLsb' 8 5 = d ∧
      w.extractLsb' 13 5 = s1 ∧
      w.extractLsb' 18 5 = s2 ∧
      w.extractLsb' 23 3 = p ∧
      w.extractLsb' 26 4 = t.toBits ∧
      w.extractLsb' 0 8 = 155#8 := by
    subst hw; simp only [HAppend.hAppend, bits_low, bits_high, bits_all, Nat.reduceAdd, Nat.reduceSub, Nat.reduceLeDiff, BitVec.reduceExtractLsb', and_self]
  obtain ⟨f30, f8, f13, f18, f23, f26, f0⟩ := hf
  refine codes_word _ (congrArg some hw.symm) rfl (fun hc => ?_) 155#8 f0 rfl (by decide)
  exact (decodeWord_low w 155#8 f0).trans (by
    show decodeMajors48 5 w = _
    simp only [decodeMajors48, f30, f8, f13, f18, f23, f26, ElemType.ofBits_toBits, Option.bind_some, BitVec.reduceEq, and_true, and_false, false_and, reduceIte])

theorem Codes.vshuf (d : VReg) (s1 : VReg) (s2 : GReg) (p : PReg) (t : ElemType) : Codes.Statement (.vshuf d s1 s2 p t) := by
  obtain ⟨w, hw⟩ : ∃ w, w = 0#2 ++ (t.toBits ++ (p ++ (s2 ++ (s1 ++ (d ++ 157#8))))) := ⟨_, rfl⟩
  have hf : w.extractLsb' 30 2 = 0#2 ∧
      w.extractLsb' 8 5 = d ∧
      w.extractLsb' 13 5 = s1 ∧
      w.extractLsb' 18 5 = s2 ∧
      w.extractLsb' 23 3 = p ∧
      w.extractLsb' 26 4 = t.toBits ∧
      w.extractLsb' 0 8 = 157#8 := by
    subst hw; simp only [HAppend.hAppend, bits_low, bits_high, bits_all, Nat.reduceAdd, Nat.reduceSub, Nat.reduceLeDiff, BitVec.reduceExtractLsb', and_self]
  obtain ⟨f30, f8, f13, f18, f23, f26, f0⟩ := hf
  refine codes_word _ (congrArg some hw.symm) rfl (fun hc => ?_) 157#8 f0 rfl (by decide)
  exact (decodeWord_low w 157#8 f0).trans (by
    show decodeMajors48 6 w = _
    simp only [decodeMajors48, f30, f8, f13, f18, f23, f26, ElemType.ofBits_toBits, Option.bind_some, BitVec.reduceEq, and_true, and_false, false_and, reduceIte])

theorem Codes.vmov (d : VReg) (s1 : VReg) (p : PReg) (t : ElemType) : Codes.Statement (.vmov d s1 p t) := by
  obtain ⟨w, hw⟩ : ∃ w, w = 0#2 ++ (t.toBits ++ (p ++ (0#5 ++ (s1 ++ (d ++ 159#8))))) := ⟨_, rfl⟩
  have hf : w.extractLsb' 18 5 = 0#5 ∧
      w.extractLsb' 30 2 = 0#2 ∧
      w.extractLsb' 8 5 = d ∧
      w.extractLsb' 13 5 = s1 ∧
      w.extractLsb' 23 3 = p ∧
      w.extractLsb' 26 4 = t.toBits ∧
      w.extractLsb' 0 8 = 159#8 := by
    subst hw; simp only [HAppend.hAppend, bits_low, bits_high, bits_all, Nat.reduceAdd, Nat.reduceSub, Nat.reduceLeDiff, BitVec.reduceExtractLsb', and_self]
  obtain ⟨f18, f30, f8, f13, f23, f26, f0⟩ := hf
  refine codes_word _ (congrArg some hw.symm) rfl (fun hc => ?_) 159#8 f0 rfl (by decide)
  exact (decodeWord_low w 159#8 f0).trans (by
    show decodeMajors48 7 w = _
    simp only [decodeMajors48, f18, f30, f8, f13, f23, f26, ElemType.ofBits_toBits, Option.bind_some, BitVec.reduceEq, and_true, and_false, false_and, reduceIte])

theorem Codes.ld (d : GReg) (b : GReg) (off : BitVec 10) (z : BitVec 2) (x : Bool) : Codes.Statement (.ld d b off z x) := by
  obtain ⟨w, hw⟩ : ∃ w, w = 0#1 ++ ((BitVec.ofBool x) ++ (z ++ (off ++ (b ++ (d ++ 161#8))))) := ⟨_, rfl⟩
  have hf : w.extractLsb' 31 1 = 0#1 ∧
      w.extractLsb' 8 5 = d ∧
      w.extractLsb' 13 5 = b ∧
      w.extractLsb' 18 10 = off ∧
      w.extractLsb' 28 2 = z ∧
      w.extractLsb' 30 1 = BitVec.ofBool x ∧
      w.extractLsb' 0 8 = 161#8 := by
    subst hw; simp only [HAppend.hAppend, bits_low, bits_high, bits_all, Nat.reduceAdd, Nat.reduceSub, Nat.reduceLeDiff, BitVec.reduceExtractLsb', and_self]
  obtain ⟨f31, f8, f13, f18, f28, f30, f0⟩ := hf
  refine codes_word _ (congrArg some hw.symm) rfl (fun hc => ?_) 161#8 f0 rfl (by decide)
  exact (decodeWord_low w 161#8 f0).trans (by
    show decodeMajors50 0 w = _
    simp only [decodeMajors50, f31, f8, f13, f18, f28, f30, ofBool_beq, BitVec.reduceEq, and_true, and_false, false_and, reduceIte])

theorem Codes.st (d : GReg) (b : GReg) (off : BitVec 10) (z : BitVec 2) : Codes.Statement (.st d b off z) := by
  obtain ⟨w, hw⟩ : ∃ w, w = 0#2 ++ (z ++ (off ++ (b ++ (d ++ 163#8)))) := ⟨_, rfl⟩
  have hf : w.extractLsb' 30 2 = 0#2 ∧
      w.extractLsb' 8 5 = d ∧
      w.extractLsb' 13 5 = b ∧
      w.extractLsb' 18 10 = off ∧
      w.extractLsb' 28 2 = z ∧
      w.extractLsb' 0 8 = 163#8 := by
    subst hw; simp only [HAppend.hAppend, bits_low, bits_high, bits_all, Nat.reduceAdd, Nat.reduceSub, Nat.reduceLeDiff, BitVec.reduceExtractLsb', and_self]
  obtain ⟨f30, f8, f13, f18, f28, f0⟩ := hf
  refine codes_word _ (congrArg some hw.symm) rfl (fun hc => ?_) 163#8 f0 rfl (by decide)
  exact (decodeWord_low w 163#8 f0).trans (by
    show decodeMajors50 1 w = _
    simp only [decodeMajors50, f30, f8, f13, f18, f28, BitVec.reduceEq, and_true, and_false, false_and, reduceIte])

theorem Codes.ldx (d : GReg) (s1 : GReg) (s2 : GReg) (f : BitVec 5) (z : BitVec 2) (x : Bool) : Codes.Statement (.ldx d s1 s2 f z x) := by
  obtain ⟨w, hw⟩ : ∃ w, w = 0#1 ++ ((BitVec.ofBool x) ++ (z ++ (f ++ (s2 ++ (s1 ++ (d ++ 165#8)))))) := ⟨_, rfl⟩
  have hf : w.extractLsb' 31 1 = 0#1 ∧
      w.extractLsb' 8 5 = d ∧
      w.extractLsb' 13 5 = s1 ∧
      w.extractLsb' 18 5 = s2 ∧
      w.extractLsb' 23 5 = f ∧
      w.extractLsb' 28 2 = z ∧
      w.extractLsb' 30 1 = BitVec.ofBool x ∧
      w.extractLsb' 0 8 = 165#8 := by
    subst hw; simp only [HAppend.hAppend, bits_low, bits_high, bits_all, Nat.reduceAdd, Nat.reduceSub, Nat.reduceLeDiff, BitVec.reduceExtractLsb', and_self]
  obtain ⟨f31, f8, f13, f18, f23, f28, f30, f0⟩ := hf
  refine codes_word _ (congrArg some hw.symm) rfl (fun hc => ?_) 165#8 f0 rfl (by decide)
  exact (decodeWord_low w 165#8 f0).trans (by
    show decodeMajors50 2 w = _
    simp only [decodeMajors50, f31, f8, f13, f18, f23, f28, f30, ofBool_beq, BitVec.reduceEq, and_true, and_false, false_and, reduceIte])

theorem Codes.stx (d : GReg) (s1 : GReg) (s2 : GReg) (f : BitVec 5) (z : BitVec 2) : Codes.Statement (.stx d s1 s2 f z) := by
  obtain ⟨w, hw⟩ : ∃ w, w = 0#2 ++ (z ++ (f ++ (s2 ++ (s1 ++ (d ++ 167#8))))) := ⟨_, rfl⟩
  have hf : w.extractLsb' 30 2 = 0#2 ∧
      w.extractLsb' 8 5 = d ∧
      w.extractLsb' 13 5 = s1 ∧
      w.extractLsb' 18 5 = s2 ∧
      w.extractLsb' 23 5 = f ∧
      w.extractLsb' 28 2 = z ∧
      w.extractLsb' 0 8 = 167#8 := by
    subst hw; simp only [HAppend.hAppend, bits_low, bits_high, bits_all, Nat.reduceAdd, Nat.reduceSub, Nat.reduceLeDiff, BitVec.reduceExtractLsb', and_self]
  obtain ⟨f30, f8, f13, f18, f23, f28, f0⟩ := hf
  refine codes_word _ (congrArg some hw.symm) rfl (fun hc => ?_) 167#8 f0 rfl (by decide)
  exact (decodeWord_low w 167#8 f0).trans (by
    show decodeMajors50 3 w = _
    simp only [decodeMajors50, f30, f8, f13, f18, f23, f28, BitVec.reduceEq, and_true, and_false, false_and, reduceIte])

theorem Codes.ldfe (d : GReg) (b : GReg) (off : BitVec 10) : Codes.Statement (.ldfe d b off) := by
  obtain ⟨w, hw⟩ : ∃ w, w = 3#4 ++ (off ++ (b ++ (d ++ 169#8))) := ⟨_, rfl⟩
  have hf : w.extractLsb' 28 4 = 3#4 ∧
      w.extractLsb' 8 5 = d ∧
      w.extractLsb' 13 5 = b ∧
      w.extractLsb' 18 10 = off ∧
      w.extractLsb' 0 8 = 169#8 := by
    subst hw; simp only [HAppend.hAppend, bits_low, bits_high, bits_all, Nat.reduceAdd, Nat.reduceSub, Nat.reduceLeDiff, BitVec.reduceExtractLsb', and_self]
  obtain ⟨f28, f8, f13, f18, f0⟩ := hf
  refine codes_word _ (congrArg some hw.symm) rfl (fun hc => ?_) 169#8 f0 rfl (by decide)
  exact (decodeWord_low w 169#8 f0).trans (by
    show decodeMajors50 4 w = _
    simp only [decodeMajors50, f28, f8, f13, f18, BitVec.reduceEq, and_true, and_false, false_and, reduceIte])

theorem Codes.stfe (d : GReg) (b : GReg) (off : BitVec 10) : Codes.Statement (.stfe d b off) := by
  obtain ⟨w, hw⟩ : ∃ w, w = 3#4 ++ (off ++ (b ++ (d ++ 171#8))) := ⟨_, rfl⟩
  have hf : w.extractLsb' 28 4 = 3#4 ∧
      w.extractLsb' 8 5 = d ∧
      w.extractLsb' 13 5 = b ∧
      w.extractLsb' 18 10 = off ∧
      w.extractLsb' 0 8 = 171#8 := by
    subst hw; simp only [HAppend.hAppend, bits_low, bits_high, bits_all, Nat.reduceAdd, Nat.reduceSub, Nat.reduceLeDiff, BitVec.reduceExtractLsb', and_self]
  obtain ⟨f28, f8, f13, f18, f0⟩ := hf
  refine codes_word _ (congrArg some hw.symm) rfl (fun hc => ?_) 171#8 f0 rfl (by decide)
  exact (decodeWord_low w 171#8 f0).trans (by
    show decodeMajors50 5 w = _
    simp only [decodeMajors50, f28, f8, f13, f18, BitVec.reduceEq, and_true, and_false, false_and, reduceIte])

theorem Codes.feopSet (s1 : GReg) (s2 : GReg) (f : BitVec 5) : Codes.Statement (.feopSet s1 s2 f) := by
  obtain ⟨w, hw⟩ : ∃ w, w = 0#4 ++ (f ++ (s2 ++ (s1 ++ (0#5 ++ 173#8)))) := ⟨_, rfl⟩
  have hf : w.extractLsb' 8 5 = 0#5 ∧
      w.extractLsb' 28 4 = 0#4 ∧
      w.extractLsb' 13 5 = s1 ∧
      w.extractLsb' 18 5 = s2 ∧
      w.extractLsb' 23 5 = f ∧
      w.extractLsb' 0 8 = 173#8 := by
    subst hw; simp only [HAppend.hAppend, bits_low, bits_high, bits_all, Nat.reduceAdd, Nat.reduceSub, Nat.reduceLeDiff, BitVec.reduceExtractLsb', and_self]
  obtain ⟨f8, f28, f13, f18, f23, f0⟩ := hf
  refine codes_word _ (congrArg some hw.symm) rfl (fun hc => ?_) 173#8 f0 rfl (by decide)
  exact (decodeWord_low w 173#8 f0).trans (by
    show decodeMajors50 6 w = _
    simp only [decodeMajors50, f8, f28, f13, f18, f23, BitVec.reduceEq, and_true, and_false, false_and, reduceIte])

theorem Codes.feopClr (s1 : GReg) (s2 : GReg) (f : BitVec 5) : Codes.Statement (.feopClr s1 s2 f) := by
  obtain ⟨w, hw⟩ : ∃ w, w = 1#4 ++ (f ++ (s2 ++ (s1 ++ (0#5 ++ 173#8)))) := ⟨_, rfl⟩
  have hf : w.extractLsb' 8 5 = 0#5 ∧
      w.extractLsb' 28 4 = 1#4 ∧
      w.extractLsb' 13 5 = s1 ∧
      w.extractLsb' 18 5 = s2 ∧
      w.extractLsb' 23 5 = f ∧
      w.extractLsb' 0 8 = 173#8 := by
    subst hw; simp only [HAppend.hAppend, bits_low, bits_high, bits_all, Nat.reduceAdd, Nat.reduceSub, Nat.reduceLeDiff, BitVec.reduceExtractLsb', and_self]
  obtain ⟨f8, f28, f13, f18, f23, f0⟩ := hf
  refine codes_word _ (congrArg some hw.symm) rfl (fun hc => ?_) 173#8 f0 rfl (by decide)
  exact (decodeWord_low w 173#8 f0).trans (by
    show decodeMajors50 6 w = _
    simp only [decodeMajors50, f8, f28, f13, f18, f23, BitVec.reduceEq, and_true, and_false, false_and, reduceIte])

theorem Codes.feopQry (d : GReg) (s1 : GReg) (s2 : GReg) (f : BitVec 5) : Codes.Statement (.feopQry d s1 s2 f) := by
  obtain ⟨w, hw⟩ : ∃ w, w = 2#4 ++ (f ++ (s2 ++ (s1 ++ (d ++ 173#8)))) := ⟨_, rfl⟩
  have hf : w.extractLsb' 28 4 = 2#4 ∧
      w.extractLsb' 8 5 = d ∧
      w.extractLsb' 13 5 = s1 ∧
      w.extractLsb' 18 5 = s2 ∧
      w.extractLsb' 23 5 = f ∧
      w.extractLsb' 0 8 = 173#8 := by
    subst hw; simp only [HAppend.hAppend, bits_low, bits_high, bits_all, Nat.reduceAdd, Nat.reduceSub, Nat.reduceLeDiff, BitVec.reduceExtractLsb', and_self]
  obtain ⟨f28, f8, f13, f18, f23, f0⟩ := hf
  refine codes_word _ (congrArg some hw.symm) rfl (fun hc => ?_) 173#8 f0 rfl (by decide)
  exact (decodeWord_low w 173#8 f0).trans (by
    show decodeMajors50 6 w = _
    simp only [decodeMajors50, f28, f8, f13, f18, f23, BitVec.reduceEq, and_true, and_false, false_and, reduceIte])

theorem Codes.feopLdff (d : GReg) (s1 : GReg) (s2 : GReg) (f : BitVec 5) : Codes.Statement (.feopLdff d s1 s2 f) := by
  obtain ⟨w, hw⟩ : ∃ w, w = 3#4 ++ (f ++ (s2 ++ (s1 ++ (d ++ 173#8)))) := ⟨_, rfl⟩
  have hf : w.extractLsb' 28 4 = 3#4 ∧
      w.extractLsb' 8 5 = d ∧
      w.extractLsb' 13 5 = s1 ∧
      w.extractLsb' 18 5 = s2 ∧
      w.extractLsb' 23 5 = f ∧
      w.extractLsb' 0 8 = 173#8 := by
    subst hw; simp only [HAppend.hAppend, bits_low, bits_high, bits_all, Nat.reduceAdd, Nat.reduceSub, Nat.reduceLeDiff, BitVec.reduceExtractLsb', and_self]
  obtain ⟨f28, f8, f13, f18, f23, f0⟩ := hf
  refine codes_word _ (congrArg some hw.symm) rfl (fun hc => ?_) 173#8 f0 rfl (by decide)
  exact (decodeWord_low w 173#8 f0).trans (by
    show decodeMajors50 6 w = _
    simp only [decodeMajors50, f28, f8, f13, f18, f23, BitVec.reduceEq, and_true, and_false, false_and, reduceIte])

theorem Codes.xch (d : GReg) (s1 : GReg) (s2 : GReg) (f : BitVec 5) (z : BitVec 2) (x : Bool) : Codes.Statement (.xch d s1 s2 f z x) := by
  obtain ⟨w, hw⟩ : ∃ w, w = 0#1 ++ ((BitVec.ofBool x) ++ (z ++ (f ++ (s2 ++ (s1 ++ (d ++ 175#8)))))) := ⟨_, rfl⟩
  have hf : w.extractLsb' 31 1 = 0#1 ∧
      w.extractLsb' 8 5 = d ∧
      w.extractLsb' 13 5 = s1 ∧
      w.extractLsb' 18 5 = s2 ∧
      w.extractLsb' 23 5 = f ∧
      w.extractLsb' 28 2 = z ∧
      w.extractLsb' 30 1 = BitVec.ofBool x ∧
      w.extractLsb' 0 8 = 175#8 := by
    subst hw; simp only [HAppend.hAppend, bits_low, bits_high, bits_all, Nat.reduceAdd, Nat.reduceSub, Nat.reduceLeDiff, BitVec.reduceExtractLsb', and_self]
  obtain ⟨f31, f8, f13, f18, f23, f28, f30, f0⟩ := hf
  refine codes_word _ (congrArg some hw.symm) rfl (fun hc => ?_) 175#8 f0 rfl (by decide)
  exact (decodeWord_low w 175#8 f0).trans (by
    show decodeMajors50 7 w = _
    simp only [decodeMajors50, f31, f8, f13, f18, f23, f28, f30, ofBool_beq, BitVec.reduceEq, and_true, and_false, false_and, reduceIte])

theorem Codes.ldg (d : GReg) (b : GReg) (off : BitVec 10) (z : BitVec 2) (x : Bool) : Codes.Statement (.ldg d b off z x) := by
  obtain ⟨w, hw⟩ : ∃ w, w = 0#1 ++ ((BitVec.ofBool x) ++ (z ++ (off ++ (b ++ (d ++ 177#8))))) := ⟨_, rfl⟩
  have hf : w.extractLsb' 31 1 = 0#1 ∧
      w.extractLsb' 8 5 = d ∧
      w.extractLsb' 13 5 = b ∧
      w.extractLsb' 18 10 = off ∧
      w.extractLsb' 28 2 = z ∧
      w.extractLsb' 30 1 = BitVec.ofBool x ∧
      w.extractLsb' 0 8 = 177#8 := by
    subst hw; simp only [HAppend.hAppend, bits_low, bits_high, bits_all, Nat.reduceAdd, Nat.reduceSub, Nat.reduceLeDiff, BitVec.reduceExtractLsb', and_self]
  obtain ⟨f31, f8, f13, f18, f28, f30, f0⟩ := hf
  refine codes_word _ (congrArg some hw.symm) rfl (fun hc => ?_) 177#8 f0 rfl (by decide)
  exact (decodeWord_low w 177#8 f0).trans (by
    show decodeMajors58 0 w = _
    simp only [decodeMajors58, f31, f8, f13, f18, f28, f30, ofBool_beq, BitVec.reduceEq, and_true, and_false, false_and, reduceIte])

theorem Codes.stg (d : GReg) (b : GReg) (off : BitVec 10) (z : BitVec 2) : Codes.Statement (.stg d b off z) := by
  obtain ⟨w, hw⟩ : ∃ w, w = 0#2 ++ (z ++ (off ++ (b ++ (d ++ 179#8)))) := ⟨_, rfl⟩
  have hf : w.extractLsb' 30 2 = 0#2 ∧
      w.extractLsb' 8 5 = d ∧
      w.extractLsb' 13 5 = b ∧
      w.extractLsb' 18 10 = off ∧
      w.extractLsb' 28 2 = z ∧
      w.extractLsb' 0 8 = 179#8 := by
    subst hw; simp only [HAppend.hAppend, bits_low, bits_high, bits_all, Nat.reduceAdd, Nat.reduceSub, Nat.reduceLeDiff, BitVec.reduceExtractLsb', and_self]
  obtain ⟨f30, f8, f13, f18, f28, f0⟩ := hf
  refine codes_word _ (congrArg some hw.symm) rfl (fun hc => ?_) 179#8 f0 rfl (by decide)
  exact (decodeWord_low w 179#8 f0).trans (by
    show decodeMajors58 1 w = _
    simp only [decodeMajors58, f30, f8, f13, f18, f28, BitVec.reduceEq, and_true, and_false, false_and, reduceIte])

theorem Codes.vldg (d : VReg) (s1 : GReg) (s2 : GReg) (p : PReg) (t : ElemType) : Codes.Statement (.vldg d s1 s2 p t) := by
  obtain ⟨w, hw⟩ : ∃ w, w = 0#2 ++ (t.toBits ++ (p ++ (s2 ++ (s1 ++ (d ++ 181#8))))) := ⟨_, rfl⟩
  have hf : w.extractLsb' 30 2 = 0#2 ∧
      w.extractLsb' 8 5 = d ∧
      w.extractLsb' 13 5 = s1 ∧
      w.extractLsb' 18 5 = s2 ∧
      w.extractLsb' 23 3 = p ∧
      w.extractLsb' 26 4 = t.toBits ∧
      w.extractLsb' 0 8 = 181#8 := by
    subst hw; simp only [HAppend.hAppend, bits_low, bits_high, bits_all, Nat.reduceAdd, Nat.reduceSub, Nat.reduceLeDiff, BitVec.reduceExtractLsb', and_self]
  obtain ⟨f30, f8, f13, f18, f23, f26, f0⟩ := hf
  refine codes_word _ (congrArg some hw.symm) rfl (fun hc => ?_) 181#8 f0 rfl (by decide)
  exact (decodeWord_low w 181#8 f0).trans (by
    show decodeMajors58 2 w = _
    simp only [decodeMajors58, f30, f8, f13, f18, f23, f26, ElemType.ofBits_toBits, Option.bind_some, BitVec.reduceEq, and_true, and_false, false_and, reduceIte])

theorem Codes.vstg (d : VReg) (s1 : GReg) (s2 : GReg) (p : PReg) (t : ElemType) : Codes.Statement (.vstg d s1 s2 p t) := by
  obtain ⟨w, hw⟩ : ∃ w, w = 0#2 ++ (t.toBits ++ (p ++ (s2 ++ (s1 ++ (d ++ 183#8))))) := ⟨_, rfl⟩
  have hf : w.extractLsb' 30 2 = 0#2 ∧
      w.extractLsb' 8 5 = d ∧
      w.extractLsb' 13 5 = s1 ∧
      w.extractLsb' 18 5 = s2 ∧
      w.extractLsb' 23 3 = p ∧
      w.extractLsb' 26 4 = t.toBits ∧
      w.extractLsb' 0 8 = 183#8 := by
    subst hw; simp only [HAppend.hAppend, bits_low, bits_high, bits_all, Nat.reduceAdd, Nat.reduceSub, Nat.reduceLeDiff, BitVec.reduceExtractLsb', and_self]
  obtain ⟨f30, f8, f13, f18, f23, f26, f0⟩ := hf
  refine codes_word _ (congrArg some hw.symm) rfl (fun hc => ?_) 183#8 f0 rfl (by decide)
  exact (decodeWord_low w 183#8 f0).trans (by
    show decodeMajors58 3 w = _
    simp only [decodeMajors58, f30, f8, f13, f18, f23, f26, ElemType.ofBits_toBits, Option.bind_some, BitVec.reduceEq, and_true, and_false, false_and, reduceIte])

theorem Codes.prefRd (b : GReg) (off : BitVec 10) : Codes.Statement (.prefRd b off) := by
  obtain ⟨w, hw⟩ : ∃ w, w = 0#4 ++ (off ++ (b ++ (0#5 ++ 185#8))) := ⟨_, rfl⟩
  have hf : w.extractLsb' 8 5 = 0#5 ∧
      w.extractLsb' 28 4 = 0#4 ∧
      w.extractLsb' 13 5 = b ∧
      w.extractLsb' 18 10 = off ∧
      w.extractLsb' 0 8 = 185#8 := by
    subst hw; simp only [HAppend.hAppend, bits_low, bits_high, bits_all, Nat.reduceAdd, Nat.reduceSub, Nat.reduceLeDiff, BitVec.reduceExtractLsb', and_self]
  obtain ⟨f8, f28, f13, f18, f0⟩ := hf
  refine codes_word _ (congrArg some hw.symm) rfl (fun hc => ?_) 185#8 f0 rfl (by decide)
  exact (decodeWord_low w 185#8 f0).trans (by
    show decodeMajors58 4 w = _
    simp only [decodeMajors58, f8, f28, f13, f18, BitVec.reduceEq, and_true, and_false, false_and, reduceIte])

theorem Codes.prefOwn (b : GReg) (off : BitVec 10) : Codes.Statement (.prefOwn b off) := by
  obtain ⟨w, hw⟩ : ∃ w, w = 0#4 ++ (off ++ (b ++ (1#5 ++ 185#8))) := ⟨_, rfl⟩
  have hf : w.extractLsb' 8 5 = 1#5 ∧
      w.extractLsb' 28 4 = 0#4 ∧
      w.extractLsb' 13 5 = b ∧
      w.extractLsb' 18 10 = off ∧
      w.extractLsb' 0 8 = 185#8 := by
    subst hw; simp only [HAppend.hAppend, bits_low, bits_high, bits_all, Nat.reduceAdd, Nat.reduceSub, Nat.reduceLeDiff, BitVec.reduceExtractLsb', and_self]
  obtain ⟨f8, f28, f13, f18, f0⟩ := hf
  refine codes_word _ (congrArg some hw.symm) rfl (fun hc => ?_) 185#8 f0 rfl (by decide)
  exact (decodeWord_low w 185#8 f0).trans (by
    show decodeMajors58 4 w = _
    simp only [decodeMajors58, f8, f28, f13, f18, BitVec.reduceEq, and_true, and_false, false_and, reduceIte])

theorem Codes.prefSlc (b : GReg) (off : BitVec 10) : Codes.Statement (.prefSlc b off) := by
  obtain ⟨w, hw⟩ : ∃ w, w = 0#4 ++ (off ++ (b ++ (2#5 ++ 185#8))) := ⟨_, rfl⟩
  have hf : w.extractLsb' 8 5 = 2#5 ∧
      w.extractLsb' 28 4 = 0#4 ∧
      w.extractLsb' 13 5 = b ∧
      w.extractLsb' 18 10 = off ∧
      w.extractLsb' 0 8 = 185#8 := by
    subst hw; simp only [HAppend.hAppend, bits_low, bits_high, bits_all, Nat.reduceAdd, Nat.reduceSub, Nat.reduceLeDiff, BitVec.reduceExtractLsb', and_self]
  obtain ⟨f8, f28, f13, f18, f0⟩ := hf
  refine codes_word _ (congrArg some hw.symm) rfl (fun hc => ?_) 185#8 f0 rfl (by decide)
  exact (decodeWord_low w 185#8 f0).trans (by
    show decodeMajors58 4 w = _
    simp only [decodeMajors58, f8, f28, f13, f18, BitVec.reduceEq, and_true, and_false, false_and, reduceIte])

theorem Codes.lease (d : GReg) (s1 : GReg) (s2 : GReg) : Codes.Statement (.lease d s1 s2) := by
  obtain ⟨w, hw⟩ : ∃ w, w = 0#9 ++ (s2 ++ (s1 ++ (d ++ 187#8))) := ⟨_, rfl⟩
  have hf : w.extractLsb' 23 9 = 0#9 ∧
      w.extractLsb' 8 5 = d ∧
      w.extractLsb' 13 5 = s1 ∧
      w.extractLsb' 18 5 = s2 ∧
      w.extractLsb' 0 8 = 187#8 := by
    subst hw; simp only [HAppend.hAppend, bits_low, bits_high, bits_all, Nat.reduceAdd, Nat.reduceSub, Nat.reduceLeDiff, BitVec.reduceExtractLsb', and_self]
  obtain ⟨f23, f8, f13, f18, f0⟩ := hf
  refine codes_word _ (congrArg some hw.symm) rfl (fun hc => ?_) 187#8 f0 rfl (by decide)
  exact (decodeWord_low w 187#8 f0).trans (by
    show decodeMajors58 5 w = _
    simp only [decodeMajors58, f23, f8, f13, f18, BitVec.reduceEq, and_true, and_false, false_and, reduceIte])

theorem Codes.unlease (d : GReg) (s1 : GReg) : Codes.Statement (.unlease d s1) := by
  obtain ⟨w, hw⟩ : ∃ w, w = 1024#14 ++ (s1 ++ (d ++ 187#8)) := ⟨_, rfl⟩
  have hf : w.extractLsb' 18 14 = 1024#14 ∧
      w.extractLsb' 8 5 = d ∧
      w.extractLsb' 13 5 = s1 ∧
      w.extractLsb' 0 8 = 187#8 := by
    subst hw; simp only [HAppend.hAppend, bits_low, bits_high, bits_all, Nat.reduceAdd, Nat.reduceSub, Nat.reduceLeDiff, BitVec.reduceExtractLsb', and_self]
  obtain ⟨f18, f8, f13, f0⟩ := hf
  refine codes_word _ (congrArg some hw.symm) rfl (fun hc => ?_) 187#8 f0 rfl (by decide)
  have n23_9_0 : w.extractLsb' 23 9 ≠ 0#9 := bits_ne 0 9 5 f18 (by decide) (by decide) (by decide) (by decide)
  exact (decodeWord_low w 187#8 f0).trans (by
    show decodeMajors58 5 w = _
    simp only [decodeMajors58, f18, f8, f13, n23_9_0, BitVec.reduceEq, and_true, and_false, false_and, reduceIte])

theorem Codes.lstat (d : GReg) (s1 : GReg) : Codes.Statement (.lstat d s1) := by
  obtain ⟨w, hw⟩ : ∃ w, w = 2048#14 ++ (s1 ++ (d ++ 187#8)) := ⟨_, rfl⟩
  have hf : w.extractLsb' 18 14 = 2048#14 ∧
      w.extractLsb' 8 5 = d ∧
      w.extractLsb' 13 5 = s1 ∧
      w.extractLsb' 0 8 = 187#8 := by
    subst hw; simp only [HAppend.hAppend, bits_low, bits_high, bits_all, Nat.reduceAdd, Nat.reduceSub, Nat.reduceLeDiff, BitVec.reduceExtractLsb', and_self]
  obtain ⟨f18, f8, f13, f0⟩ := hf
  refine codes_word _ (congrArg some hw.symm) rfl (fun hc => ?_) 187#8 f0 rfl (by decide)
  have n23_9_0 : w.extractLsb' 23 9 ≠ 0#9 := bits_ne 0 9 5 f18 (by decide) (by decide) (by decide) (by decide)
  exact (decodeWord_low w 187#8 f0).trans (by
    show decodeMajors58 5 w = _
    simp only [decodeMajors58, f18, f8, f13, n23_9_0, BitVec.reduceEq, and_true, and_false, false_and, reduceIte])

theorem Codes.tcut : Codes.Statement .tcut := by
  obtain ⟨w, hw⟩ : ∃ w, w = 0#24 ++ 189#8 := ⟨_, rfl⟩
  have hf : w.extractLsb' 8 24 = 0#24 ∧
      w.extractLsb' 0 8 = 189#8 := by
    subst hw; simp only [HAppend.hAppend, bits_low, bits_high, bits_all, Nat.reduceAdd, Nat.reduceSub, Nat.reduceLeDiff, BitVec.reduceExtractLsb', and_self]
  obtain ⟨f8, f0⟩ := hf
  refine codes_word _ (congrArg some hw.symm) rfl (fun hc => ?_) 189#8 f0 rfl (by decide)
  exact (decodeWord_low w 189#8 f0).trans (by
    show decodeMajors58 6 w = _
    simp only [decodeMajors58, f8, BitVec.reduceEq, and_true, and_false, false_and, reduceIte])

theorem Codes.fence (scope : Scope) : Codes.Statement (.fence scope) := by
  obtain ⟨w, hw⟩ : ∃ w, w = 4#6 ++ (scope.toBits ++ (0#15 ++ 189#8)) := ⟨_, rfl⟩
  have hf : w.extractLsb' 8 15 = 0#15 ∧
      w.extractLsb' 26 6 = 4#6 ∧
      w.extractLsb' 23 3 = scope.toBits ∧
      w.extractLsb' 0 8 = 189#8 := by
    subst hw; simp only [HAppend.hAppend, bits_low, bits_high, bits_all, Nat.reduceAdd, Nat.reduceSub, Nat.reduceLeDiff, BitVec.reduceExtractLsb', and_self]
  obtain ⟨f8, f26, f23, f0⟩ := hf
  refine codes_word _ (congrArg some hw.symm) rfl (fun hc => ?_) 189#8 f0 rfl (by decide)
  have n8_24_0 : w.extractLsb' 8 24 ≠ 0#24 := bits_ne 18 6 0 f26 (by decide) (by decide) (by decide) (by decide)
  exact (decodeWord_low w 189#8 f0).trans (by
    show decodeMajors58 6 w = _
    simp only [decodeMajors58, f8, f26, f23, n8_24_0, Scope.ofBits_toBits, BitVec.reduceEq, and_true, and_false, false_and, reduceIte])

theorem Codes.acq (scope : Scope) : Codes.Statement (.acq scope) := by
  obtain ⟨w, hw⟩ : ∃ w, w = 8#6 ++ (scope.toBits ++ (0#15 ++ 189#8)) := ⟨_, rfl⟩
  have hf : w.extractLsb' 8 15 = 0#15 ∧
      w.extractLsb' 26 6 = 8#6 ∧
      w.extractLsb' 23 3 = scope.toBits ∧
      w.extractLsb' 0 8 = 189#8 := by
    subst hw; simp only [HAppend.hAppend, bits_low, bits_high, bits_all, Nat.reduceAdd, Nat.reduceSub, Nat.reduceLeDiff, BitVec.reduceExtractLsb', and_self]
  obtain ⟨f8, f26, f23, f0⟩ := hf
  refine codes_word _ (congrArg some hw.symm) rfl (fun hc => ?_) 189#8 f0 rfl (by decide)
  have n8_24_0 : w.extractLsb' 8 24 ≠ 0#24 := bits_ne 18 6 0 f26 (by decide) (by decide) (by decide) (by decide)
  exact (decodeWord_low w 189#8 f0).trans (by
    show decodeMajors58 6 w = _
    simp only [decodeMajors58, f8, f26, f23, n8_24_0, Scope.ofBits_toBits, BitVec.reduceEq, and_true, and_false, false_and, reduceIte])

theorem Codes.rel (scope : Scope) : Codes.Statement (.rel scope) := by
  obtain ⟨w, hw⟩ : ∃ w, w = 12#6 ++ (scope.toBits ++ (0#15 ++ 189#8)) := ⟨_, rfl⟩
  have hf : w.extractLsb' 8 15 = 0#15 ∧
      w.extractLsb' 26 6 = 12#6 ∧
      w.extractLsb' 23 3 = scope.toBits ∧
      w.extractLsb' 0 8 = 189#8 := by
    subst hw; simp only [HAppend.hAppend, bits_low, bits_high, bits_all, Nat.reduceAdd, Nat.reduceSub, Nat.reduceLeDiff, BitVec.reduceExtractLsb', and_self]
  obtain ⟨f8, f26, f23, f0⟩ := hf
  refine codes_word _ (congrArg some hw.symm) rfl (fun hc => ?_) 189#8 f0 rfl (by decide)
  have n8_24_0 : w.extractLsb' 8 24 ≠ 0#24 := bits_ne 18 6 0 f26 (by decide) (by decide) (by decide) (by decide)
  exact (decodeWord_low w 189#8 f0).trans (by
    show decodeMajors58 6 w = _
    simp only [decodeMajors58, f8, f26, f23, n8_24_0, Scope.ofBits_toBits, BitVec.reduceEq, and_true, and_false, false_and, reduceIte])

theorem Codes.faAddN64 (d : GReg) (s1 : GReg) (s2 : GReg) (scope : Scope) (ord : Bool) : Codes.Statement (.faAddN64 d s1 s2 scope ord) := by
  obtain ⟨w, hw⟩ : ∃ w, w = 0#5 ++ ((BitVec.ofBool ord) ++ (scope.toBits ++ (s2 ++ (s1 ++ (d ++ 191#8))))) := ⟨_, rfl⟩
  have hf : w.extractLsb' 27 5 = 0#5 ∧
      w.extractLsb' 8 5 = d ∧
      w.extractLsb' 13 5 = s1 ∧
      w.extractLsb' 18 5 = s2 ∧
      w.extractLsb' 23 3 = scope.toBits ∧
      w.extractLsb' 26 1 = BitVec.ofBool ord ∧
      w.extractLsb' 0 8 = 191#8 := by
    subst hw; simp only [HAppend.hAppend, bits_low, bits_high, bits_all, Nat.reduceAdd, Nat.reduceSub, Nat.reduceLeDiff, BitVec.reduceExtractLsb', and_self]
  obtain ⟨f27, f8, f13, f18, f23, f26, f0⟩ := hf
  refine codes_word _ (congrArg some hw.symm) rfl (fun hc => ?_) 191#8 f0 rfl (by decide)
  exact (decodeWord_low w 191#8 f0).trans (by
    show decodeMajors58 7 w = _
    simp only [decodeMajors58, f27, f8, f13, f18, f23, f26, Scope.ofBits_toBits, ofBool_beq, BitVec.reduceEq, and_true, and_false, false_and, reduceIte])

theorem Codes.faAndN64 (d : GReg) (s1 : GReg) (s2 : GReg) (scope : Scope) (ord : Bool) : Codes.Statement (.faAndN64 d s1 s2 scope ord) := by
  obtain ⟨w, hw⟩ : ∃ w, w = 2#5 ++ ((BitVec.ofBool ord) ++ (scope.toBits ++ (s2 ++ (s1 ++ (d ++ 191#8))))) := ⟨_, rfl⟩
  have hf : w.extractLsb' 27 5 = 2#5 ∧
      w.extractLsb' 8 5 = d ∧
      w.extractLsb' 13 5 = s1 ∧
      w.extractLsb' 18 5 = s2 ∧
      w.extractLsb' 23 3 = scope.toBits ∧
      w.extractLsb' 26 1 = BitVec.ofBool ord ∧
      w.extractLsb' 0 8 = 191#8 := by
    subst hw; simp only [HAppend.hAppend, bits_low, bits_high, bits_all, Nat.reduceAdd, Nat.reduceSub, Nat.reduceLeDiff, BitVec.reduceExtractLsb', and_self]
  obtain ⟨f27, f8, f13, f18, f23, f26, f0⟩ := hf
  refine codes_word _ (congrArg some hw.symm) rfl (fun hc => ?_) 191#8 f0 rfl (by decide)
  exact (decodeWord_low w 191#8 f0).trans (by
    show decodeMajors58 7 w = _
    simp only [decodeMajors58, f27, f8, f13, f18, f23, f26, Scope.ofBits_toBits, ofBool_beq, BitVec.reduceEq, and_true, and_false, false_and, reduceIte])

theorem Codes.faOrN64 (d : GReg) (s1 : GReg) (s2 : GReg) (scope : Scope) (ord : Bool) : Codes.Statement (.faOrN64 d s1 s2 scope ord) := by
  obtain ⟨w, hw⟩ : ∃ w, w = 4#5 ++ ((BitVec.ofBool ord) ++ (scope.toBits ++ (s2 ++ (s1 ++ (d ++ 191#8))))) := ⟨_, rfl⟩
  have hf : w.extractLsb' 27 5 = 4#5 ∧
      w.extractLsb' 8 5 = d ∧
      w.extractLsb' 13 5 = s1 ∧
      w.extractLsb' 18 5 = s2 ∧
      w.extractLsb' 23 3 = scope.toBits ∧
      w.extractLsb' 26 1 = BitVec.ofBool ord ∧
      w.extractLsb' 0 8 = 191#8 := by
    subst hw; simp only [HAppend.hAppend, bits_low, bits_high, bits_all, Nat.reduceAdd, Nat.reduceSub, Nat.reduceLeDiff, BitVec.reduceExtractLsb', and_self]
  obtain ⟨f27, f8, f13, f18, f23, f26, f0⟩ := hf
  refine codes_word _ (congrArg some hw.symm) rfl (fun hc => ?_) 191#8 f0 rfl (by decide)
  exact (decodeWord_low w 191#8 f0).trans (by
    show decodeMajors58 7 w = _
    simp only [decodeMajors58, f27, f8, f13, f18, f23, f26, Scope.ofBits_toBits, ofBool_beq, BitVec.reduceEq, and_true, and_false, false_and, reduceIte])

theorem Codes.faXorN64 (d : GReg) (s1 : GReg) (s2 : GReg) (scope : Scope) (ord : Bool) : Codes.Statement (.faXorN64 d s1 s2 scope ord) := by
  obtain ⟨w, hw⟩ : ∃ w, w = 6#5 ++ ((BitVec.ofBool ord) ++ (scope.toBits ++ (s2 ++ (s1 ++ (d ++ 191#8))))) := ⟨_, rfl⟩
  have hf : w.extractLsb' 27 5 = 6#5 ∧
      w.extractLsb' 8 5 = d ∧
      w.extractLsb' 13 5 = s1 ∧
      w.extractLsb' 18 5 = s2 ∧
      w.extractLsb' 23 3 = scope.toBits ∧
      w.extractLsb' 26 1 = BitVec.ofBool ord ∧
      w.extractLsb' 0 8 = 191#8 := by
    subst hw; simp only [HAppend.hAppend, bits_low, bits_high, bits_all, Nat.reduceAdd, Nat.reduceSub, Nat.reduceLeDiff, BitVec.reduceExtractLsb', and_self]
  obtain ⟨f27, f8, f13, f18, f23, f26, f0⟩ := hf
  refine codes_word _ (congrArg some hw.symm) rfl (fun hc => ?_) 191#8 f0 rfl (by decide)
  exact (decodeWord_low w 191#8 f0).trans (by
    show decodeMajors58 7 w = _
    simp only [decodeMajors58, f27, f8, f13, f18, f23, f26, Scope.ofBits_toBits, ofBool_beq, BitVec.reduceEq, and_true, and_false, false_and, reduceIte])

theorem Codes.faMinI64 (d : GReg) (s1 : GReg) (s2 : GReg) (scope : Scope) (ord : Bool) : Codes.Statement (.faMinI64 d s1 s2 scope ord) := by
  obtain ⟨w, hw⟩ : ∃ w, w = 8#5 ++ ((BitVec.ofBool ord) ++ (scope.toBits ++ (s2 ++ (s1 ++ (d ++ 191#8))))) := ⟨_, rfl⟩
  have hf : w.extractLsb' 27 5 = 8#5 ∧
      w.extractLsb' 8 5 = d ∧
      w.extractLsb' 13 5 = s1 ∧
      w.extractLsb' 18 5 = s2 ∧
      w.extractLsb' 23 3 = scope.toBits ∧
      w.extractLsb' 26 1 = BitVec.ofBool ord ∧
      w.extractLsb' 0 8 = 191#8 := by
    subst hw; simp only [HAppend.hAppend, bits_low, bits_high, bits_all, Nat.reduceAdd, Nat.reduceSub, Nat.reduceLeDiff, BitVec.reduceExtractLsb', and_self]
  obtain ⟨f27, f8, f13, f18, f23, f26, f0⟩ := hf
  refine codes_word _ (congrArg some hw.symm) rfl (fun hc => ?_) 191#8 f0 rfl (by decide)
  exact (decodeWord_low w 191#8 f0).trans (by
    show decodeMajors58 7 w = _
    simp only [decodeMajors58, f27, f8, f13, f18, f23, f26, Scope.ofBits_toBits, ofBool_beq, BitVec.reduceEq, and_true, and_false, false_and, reduceIte])

theorem Codes.faMaxI64 (d : GReg) (s1 : GReg) (s2 : GReg) (scope : Scope) (ord : Bool) : Codes.Statement (.faMaxI64 d s1 s2 scope ord) := by
  obtain ⟨w, hw⟩ : ∃ w, w = 10#5 ++ ((BitVec.ofBool ord) ++ (scope.toBits ++ (s2 ++ (s1 ++ (d ++ 191#8))))) := ⟨_, rfl⟩
  have hf : w.extractLsb' 27 5 = 10#5 ∧
      w.extractLsb' 8 5 = d ∧
      w.extractLsb' 13 5 = s1 ∧
      w.extractLsb' 18 5 = s2 ∧
      w.extractLsb' 23 3 = scope.toBits ∧
      w.extractLsb' 26 1 = BitVec.ofBool ord ∧
      w.extractLsb' 0 8 = 191#8 := by
    subst hw; simp only [HAppend.hAppend, bits_low, bits_high, bits_all, Nat.reduceAdd, Nat.reduceSub, Nat.reduceLeDiff, BitVec.reduceExtractLsb', and_self]
  obtain ⟨f27, f8, f13, f18, f23, f26, f0⟩ := hf
  refine codes_word _ (congrArg some hw.symm) rfl (fun hc => ?_) 191#8 f0 rfl (by decide)
  exact (decodeWord_low w 191#8 f0).trans (by
    show decodeMajors58 7 w = _
    simp only [decodeMajors58, f27, f8, f13, f18, f23, f26, Scope.ofBits_toBits, ofBool_beq, BitVec.reduceEq, and_true, and_false, false_and, reduceIte])

theorem Codes.faMinN64 (d : GReg) (s1 : GReg) (s2 : GReg) (scope : Scope) (ord : Bool) : Codes.Statement (.faMinN64 d s1 s2 scope ord) := by
  obtain ⟨w, hw⟩ : ∃ w, w = 12#5 ++ ((BitVec.ofBool ord) ++ (scope.toBits ++ (s2 ++ (s1 ++ (d ++ 191#8))))) := ⟨_, rfl⟩
  have hf : w.extractLsb' 27 5 = 12#5 ∧
      w.extractLsb' 8 5 = d ∧
      w.extractLsb' 13 5 = s1 ∧
      w.extractLsb' 18 5 = s2 ∧
      w.extractLsb' 23 3 = scope.toBits ∧
      w.extractLsb' 26 1 = BitVec.ofBool ord ∧
      w.extractLsb' 0 8 = 191#8 := by
    subst hw; simp only [HAppend.hAppend, bits_low, bits_high, bits_all, Nat.reduceAdd, Nat.reduceSub, Nat.reduceLeDiff, BitVec.reduceExtractLsb', and_self]
  obtain ⟨f27, f8, f13, f18, f23, f26, f0⟩ := hf
  refine codes_word _ (congrArg some hw.symm) rfl (fun hc => ?_) 191#8 f0 rfl (by decide)
  exact (decodeWord_low w 191#8 f0).trans (by
    show decodeMajors58 7 w = _
    simp only [decodeMajors58, f27, f8, f13, f18, f23, f26, Scope.ofBits_toBits, ofBool_beq, BitVec.reduceEq, and_true, and_false, false_and, reduceIte])

theorem Codes.faMaxN64 (d : GReg) (s1 : GReg) (s2 : GReg) (scope : Scope) (ord : Bool) : Codes.Statement (.faMaxN64 d s1 s2 scope ord) := by
  obtain ⟨w, hw⟩ : ∃ w, w = 14#5 ++ ((BitVec.ofBool ord) ++ (scope.toBits ++ (s2 ++ (s1 ++ (d ++ 191#8))))) := ⟨_, rfl⟩
  have hf : w.extractLsb' 27 5 = 14#5 ∧
      w.extractLsb' 8 5 = d ∧
      w.extractLsb' 13 5 = s1 ∧
      w.extractLsb' 18 5 = s2 ∧
      w.extractLsb' 23 3 = scope.toBits ∧
      w.extractLsb' 26 1 = BitVec.ofBool ord ∧
      w.extractLsb' 0 8 = 191#8 := by
    subst hw; simp only [HAppend.hAppend, bits_low, bits_high, bits_all, Nat.reduceAdd, Nat.reduceSub, Nat.reduceLeDiff, BitVec.reduceExtractLsb', and_self]
  obtain ⟨f27, f8, f13, f18, f23, f26, f0⟩ := hf
  refine codes_word _ (congrArg some hw.symm) rfl (fun hc => ?_) 191#8 f0 rfl (by decide)
  exact (decodeWord_low w 191#8 f0).trans (by
    show decodeMajors58 7 w = _
    simp only [decodeMajors58, f27, f8, f13, f18, f23, f26, Scope.ofBits_toBits, ofBool_beq, BitVec.reduceEq, and_true, and_false, false_and, reduceIte])

theorem Codes.faSwapN64 (d : GReg) (s1 : GReg) (s2 : GReg) (scope : Scope) (ord : Bool) : Codes.Statement (.faSwapN64 d s1 s2 scope ord) := by
  obtain ⟨w, hw⟩ : ∃ w, w = 16#5 ++ ((BitVec.ofBool ord) ++ (scope.toBits ++ (s2 ++ (s1 ++ (d ++ 191#8))))) := ⟨_, rfl⟩
  have hf : w.extractLsb' 27 5 = 16#5 ∧
      w.extractLsb' 8 5 = d ∧
      w.extractLsb' 13 5 = s1 ∧
      w.extractLsb' 18 5 = s2 ∧
      w.extractLsb' 23 3 = scope.toBits ∧
      w.extractLsb' 26 1 = BitVec.ofBool ord ∧
      w.extractLsb' 0 8 = 191#8 := by
    subst hw; simp only [HAppend.hAppend, bits_low, bits_high, bits_all, Nat.reduceAdd, Nat.reduceSub, Nat.reduceLeDiff, BitVec.reduceExtractLsb', and_self]
  obtain ⟨f27, f8, f13, f18, f23, f26, f0⟩ := hf
  refine codes_word _ (congrArg some hw.symm) rfl (fun hc => ?_) 191#8 f0 rfl (by decide)
  exact (decodeWord_low w 191#8 f0).trans (by
    show decodeMajors58 7 w = _
    simp only [decodeMajors58, f27, f8, f13, f18, f23, f26, Scope.ofBits_toBits, ofBool_beq, BitVec.reduceEq, and_true, and_false, false_and, reduceIte])

theorem Codes.faCasN64 (d : GReg) (s1 : GReg) (s2 : GReg) (scope : Scope) (ord : Bool) : Codes.Statement (.faCasN64 d s1 s2 scope ord) := by
  obtain ⟨w, hw⟩ : ∃ w, w = 18#5 ++ ((BitVec.ofBool ord) ++ (scope.toBits ++ (s2 ++ (s1 ++ (d ++ 191#8))))) := ⟨_, rfl⟩
  have hf : w.extractLsb' 27 5 = 18#5 ∧
      w.extractLsb' 8 5 = d ∧
      w.extractLsb' 13 5 = s1 ∧
      w.extractLsb' 18 5 = s2 ∧
      w.extractLsb' 23 3 = scope.toBits ∧
      w.extractLsb' 26 1 = BitVec.ofBool ord ∧
      w.extractLsb' 0 8 = 191#8 := by
    subst hw; simp only [HAppend.hAppend, bits_low, bits_high, bits_all, Nat.reduceAdd, Nat.reduceSub, Nat.reduceLeDiff, BitVec.reduceExtractLsb', and_self]
  obtain ⟨f27, f8, f13, f18, f23, f26, f0⟩ := hf
  refine codes_word _ (congrArg some hw.symm) rfl (fun hc => ?_) 191#8 f0 rfl (by decide)
  exact (decodeWord_low w 191#8 f0).trans (by
    show decodeMajors58 7 w = _
    simp only [decodeMajors58, f27, f8, f13, f18, f23, f26, Scope.ofBits_toBits, ofBool_beq, BitVec.reduceEq, and_true, and_false, false_and, reduceIte])

theorem Codes.faAddF64 (d : GReg) (s1 : GReg) (s2 : GReg) (scope : Scope) (ord : Bool) : Codes.Statement (.faAddF64 d s1 s2 scope ord) := by
  obtain ⟨w, hw⟩ : ∃ w, w = 20#5 ++ ((BitVec.ofBool ord) ++ (scope.toBits ++ (s2 ++ (s1 ++ (d ++ 191#8))))) := ⟨_, rfl⟩
  have hf : w.extractLsb' 27 5 = 20#5 ∧
      w.extractLsb' 8 5 = d ∧
      w.extractLsb' 13 5 = s1 ∧
      w.extractLsb' 18 5 = s2 ∧
      w.extractLsb' 23 3 = scope.toBits ∧
      w.extractLsb' 26 1 = BitVec.ofBool ord ∧
      w.extractLsb' 0 8 = 191#8 := by
    subst hw; simp only [HAppend.hAppend, bits_low, bits_high, bits_all, Nat.reduceAdd, Nat.reduceSub, Nat.reduceLeDiff, BitVec.reduceExtractLsb', and_self]
  obtain ⟨f27, f8, f13, f18, f23, f26, f0⟩ := hf
  refine codes_word _ (congrArg some hw.symm) rfl (fun hc => ?_) 191#8 f0 rfl (by decide)
  exact (decodeWord_low w 191#8 f0).trans (by
    show decodeMajors58 7 w = _
    simp only [decodeMajors58, f27, f8, f13, f18, f23, f26, Scope.ofBits_toBits, ofBool_beq, BitVec.reduceEq, and_true, and_false, false_and, reduceIte])

theorem Codes.faGetN64 (d : GReg) (s1 : GReg) (s2 : GReg) (scope : Scope) (ord : Bool) : Codes.Statement (.faGetN64 d s1 s2 scope ord) := by
  obtain ⟨w, hw⟩ : ∃ w, w = 22#5 ++ ((BitVec.ofBool ord) ++ (scope.toBits ++ (s2 ++ (s1 ++ (d ++ 191#8))))) := ⟨_, rfl⟩
  have hf : w.extractLsb' 27 5 = 22#5 ∧
      w.extractLsb' 8 5 = d ∧
      w.extractLsb' 13 5 = s1 ∧
      w.extractLsb' 18 5 = s2 ∧
      w.extractLsb' 23 3 = scope.toBits ∧
      w.extractLsb' 26 1 = BitVec.ofBool ord ∧
      w.extractLsb' 0 8 = 191#8 := by
    subst hw; simp only [HAppend.hAppend, bits_low, bits_high, bits_all, Nat.reduceAdd, Nat.reduceSub, Nat.reduceLeDiff, BitVec.reduceExtractLsb', and_self]
  obtain ⟨f27, f8, f13, f18, f23, f26, f0⟩ := hf
  refine codes_word _ (congrArg some hw.symm) rfl (fun hc => ?_) 191#8 f0 rfl (by decide)
  exact (decodeWord_low w 191#8 f0).trans (by
    show decodeMajors58 7 w = _
    simp only [decodeMajors58, f27, f8, f13, f18, f23, f26, Scope.ofBits_toBits, ofBool_beq, BitVec.reduceEq, and_true, and_false, false_and, reduceIte])

theorem Codes.capGive (d : GReg) (s1 : GReg) (s2 : GReg) : Codes.Statement (.capGive d s1 s2) := by
  obtain ⟨w, hw⟩ : ∃ w, w = 0#9 ++ (s2 ++ (s1 ++ (d ++ 193#8))) := ⟨_, rfl⟩
  have hf : w.extractLsb' 23 9 = 0#9 ∧
      w.extractLsb' 8 5 = d ∧
      w.extractLsb' 13 5 = s1 ∧
      w.extractLsb' 18 5 = s2 ∧
      w.extractLsb' 0 8 = 193#8 := by
    subst hw; simp only [HAppend.hAppend, bits_low, bits_high, bits_all, Nat.reduceAdd, Nat.reduceSub, Nat.reduceLeDiff, BitVec.reduceExtractLsb', and_self]
  obtain ⟨f23, f8, f13, f18, f0⟩ := hf
  refine codes_word _ (congrArg some hw.symm) rfl (fun hc => ?_) 193#8 f0 rfl (by decide)
  exact (decodeWord_low w 193#8 f0).trans (by
    show decodeMajors60 0 w = _
    simp only [decodeMajors60, f23, f8, f13, f18, BitVec.reduceEq, and_true, and_false, false_and, reduceIte])

theorem Codes.capClaim (d : GReg) (s1 : GReg) : Codes.Statement (.capClaim d s1) := by
  obtain ⟨w, hw⟩ : ∃ w, w = 0#14 ++ (s1 ++ (d ++ 195#8)) := ⟨_, rfl⟩
  have hf : w.extractLsb' 18 14 = 0#14 ∧
      w.extractLsb' 8 5 = d ∧
      w.extractLsb' 13 5 = s1 ∧
      w.extractLsb' 0 8 = 195#8 := by
    subst hw; simp only [HAppend.hAppend, bits_low, bits_high, bits_all, Nat.reduceAdd, Nat.reduceSub, Nat.reduceLeDiff, BitVec.reduceExtractLsb', and_self]
  obtain ⟨f18, f8, f13, f0⟩ := hf
  refine codes_word _ (congrArg some hw.symm) rfl (fun hc => ?_) 195#8 f0 rfl (by decide)
  exact (decodeWord_low w 195#8 f0).trans (by
    show decodeMajors60 1 w = _
    simp only [decodeMajors60, f18, f8, f13, BitVec.reduceEq, and_true, and_false, false_and, reduceIte])

theorem Codes.capSeal (d : GReg) (s1 : GReg) : Codes.Statement (.capSeal d s1) := by
  obtain ⟨w, hw⟩ : ∃ w, w = 0#14 ++ (s1 ++ (d ++ 197#8)) := ⟨_, rfl⟩
  have hf : w.extractLsb' 18 14 = 0#14 ∧
      w.extractLsb' 8 5 = d ∧
      w.extractLsb' 13 5 = s1 ∧
      w.extractLsb' 0 8 = 197#8 := by
    subst hw; simp only [HAppend.hAppend, bits_low, bits_high, bits_all, Nat.reduceAdd, Nat.reduceSub, Nat.reduceLeDiff, BitVec.reduceExtractLsb', and_self]
  obtain ⟨f18, f8, f13, f0⟩ := hf
  refine codes_word _ (congrArg some hw.symm) rfl (fun hc => ?_) 197#8 f0 rfl (by decide)
  exact (decodeWord_low w 197#8 f0).trans (by
    show decodeMajors60 2 w = _
    simp only [decodeMajors60, f18, f8, f13, BitVec.reduceEq, and_true, and_false, false_and, reduceIte])

theorem Codes.capUnseal (d : GReg) (s1 : GReg) : Codes.Statement (.capUnseal d s1) := by
  obtain ⟨w, hw⟩ : ∃ w, w = 1024#14 ++ (s1 ++ (d ++ 197#8)) := ⟨_, rfl⟩
  have hf : w.extractLsb' 18 14 = 1024#14 ∧
      w.extractLsb' 8 5 = d ∧
      w.extractLsb' 13 5 = s1 ∧
      w.extractLsb' 0 8 = 197#8 := by
    subst hw; simp only [HAppend.hAppend, bits_low, bits_high, bits_all, Nat.reduceAdd, Nat.reduceSub, Nat.reduceLeDiff, BitVec.reduceExtractLsb', and_self]
  obtain ⟨f18, f8, f13, f0⟩ := hf
  refine codes_word _ (congrArg some hw.symm) rfl (fun hc => ?_) 197#8 f0 rfl (by decide)
  exact (decodeWord_low w 197#8 f0).trans (by
    show decodeMajors60 2 w = _
    simp only [decodeMajors60, f18, f8, f13, BitVec.reduceEq, and_true, and_false, false_and, reduceIte])

theorem Codes.capQry (d : GReg) (s1 : GReg) : Codes.Statement (.capQry d s1) := by
  obtain ⟨w, hw⟩ : ∃ w, w = 0#14 ++ (s1 ++ (d ++ 199#8)) := ⟨_, rfl⟩
  have hf : w.extractLsb' 18 14 = 0#14 ∧
      w.extractLsb' 8 5 = d ∧
      w.extractLsb' 13 5 = s1 ∧
      w.extractLsb' 0 8 = 199#8 := by
    subst hw; simp only [HAppend.hAppend, bits_low, bits_high, bits_all, Nat.reduceAdd, Nat.reduceSub, Nat.reduceLeDiff, BitVec.reduceExtractLsb', and_self]
  obtain ⟨f18, f8, f13, f0⟩ := hf
  refine codes_word _ (congrArg some hw.symm) rfl (fun hc => ?_) 199#8 f0 rfl (by decide)
  exact (decodeWord_low w 199#8 f0).trans (by
    show decodeMajors60 3 w = _
    simp only [decodeMajors60, f18, f8, f13, BitVec.reduceEq, and_true, and_false, false_and, reduceIte])

theorem Codes.capQryWait (d : GReg) (s1 : GReg) : Codes.Statement (.capQryWait d s1) := by
  obtain ⟨w, hw⟩ : ∃ w, w = 1024#14 ++ (s1 ++ (d ++ 199#8)) := ⟨_, rfl⟩
  have hf : w.extractLsb' 18 14 = 1024#14 ∧
      w.extractLsb' 8 5 = d ∧
      w.extractLsb' 13 5 = s1 ∧
      w.extractLsb' 0 8 = 199#8 := by
    subst hw; simp only [HAppend.hAppend, bits_low, bits_high, bits_all, Nat.reduceAdd, Nat.reduceSub, Nat.reduceLeDiff, BitVec.reduceExtractLsb', and_self]
  obtain ⟨f18, f8, f13, f0⟩ := hf
  refine codes_word _ (congrArg some hw.symm) rfl (fun hc => ?_) 199#8 f0 rfl (by decide)
  exact (decodeWord_low w 199#8 f0).trans (by
    show decodeMajors60 3 w = _
    simp only [decodeMajors60, f18, f8, f13, BitVec.reduceEq, and_true, and_false, false_and, reduceIte])

theorem Codes.tcfg (mm : BitVec 7) (nn : BitVec 7) : Codes.Statement (.tcfg mm nn) := by
  obtain ⟨w, hw⟩ : ∃ w, w = nn ++ (mm ++ (0#10 ++ 201#8)) := ⟨_, rfl⟩
  have hf : w.extractLsb' 8 10 = 0#10 ∧
      w.extractLsb' 18 7 = mm ∧
      w.extractLsb' 25 7 = nn ∧
      w.extractLsb' 0 8 = 201#8 := by
    subst hw; simp only [HAppend.hAppend, bits_low, bits_high, bits_all, Nat.reduceAdd, Nat.reduceSub, Nat.reduceLeDiff, BitVec.reduceExtractLsb', and_self]
  obtain ⟨f8, f18, f25, f0⟩ := hf
  refine codes_word _ (congrArg some hw.symm) rfl (fun hc => ?_) 201#8 f0 rfl (by decide)
  exact (decodeWord_low w 201#8 f0).trans (by
    show decodeMajors60 4 w = _
    simp only [decodeMajors60, f8, f18, f25, BitVec.reduceEq, and_true, and_false, false_and, reduceIte])

theorem Codes.trel (k : BitVec 4) : Codes.Statement (.trel k) := by
  obtain ⟨w, hw⟩ : ∃ w, w = 0#10 ++ (k ++ (0#10 ++ 203#8)) := ⟨_, rfl⟩
  have hf : w.extractLsb' 8 10 = 0#10 ∧
      w.extractLsb' 22 10 = 0#10 ∧
      w.extractLsb' 18 4 = k ∧
      w.extractLsb' 0 8 = 203#8 := by
    subst hw; simp only [HAppend.hAppend, bits_low, bits_high, bits_all, Nat.reduceAdd, Nat.reduceSub, Nat.reduceLeDiff, BitVec.reduceExtractLsb', and_self]
  obtain ⟨f8, f22, f18, f0⟩ := hf
  refine codes_word _ (congrArg some hw.symm) rfl (fun hc => ?_) 203#8 f0 rfl (by decide)
  exact (decodeWord_low w 203#8 f0).trans (by
    show decodeMajors60 5 w = _
    simp only [decodeMajors60, f8, f22, f18, BitVec.reduceEq, and_true, and_false, false_and, reduceIte])

theorem Codes.dtld (d : TReg) (s1 : GReg) : Codes.Statement (.dtld d s1) := by
  obtain ⟨w, hw⟩ : ∃ w, w = 0#14 ++ (s1 ++ ((0#3 ++ d) ++ 205#8)) := ⟨_, rfl⟩
  have hf : w.extractLsb' 18 14 = 0#14 ∧
      w.extractLsb' 8 5 = 0#3 ++ d ∧
      w.extractLsb' 13 5 = s1 ∧
      w.extractLsb' 0 8 = 205#8 := by
    subst hw; simp only [HAppend.hAppend, bits_low, bits_high, bits_all, Nat.reduceAdd, Nat.reduceSub, Nat.reduceLeDiff, BitVec.reduceExtractLsb', and_self]
  obtain ⟨f18, f8, f13, f0⟩ := hf
  refine codes_word _ (congrArg some hw.symm) rfl (fun hc => ?_) 205#8 f0 rfl (by decide)
  exact (decodeWord_low w 205#8 f0).trans (by
    show decodeMajors60 6 w = _
    simp only [decodeMajors60, f18, f8, f13, lowTile_low, Option.bind_some, BitVec.reduceEq, and_true, and_false, false_and, reduceIte])

theorem Codes.dtldStd (d : TReg) (k : StdTable) : Codes.Statement (.dtldStd d k) := by
  obtain ⟨w, hw⟩ : ∃ w, w = 32#9 ++ (k.toBits ++ (0#5 ++ ((0#3 ++ d) ++ 205#8))) := ⟨_, rfl⟩
  have hf : w.extractLsb' 13 5 = 0#5 ∧
      w.extractLsb' 23 9 = 32#9 ∧
      w.extractLsb' 8 5 = 0#3 ++ d ∧
      w.extractLsb' 18 5 = k.toBits ∧
      w.extractLsb' 0 8 = 205#8 := by
    subst hw; simp only [HAppend.hAppend, bits_low, bits_high, bits_all, Nat.reduceAdd, Nat.reduceSub, Nat.reduceLeDiff, BitVec.reduceExtractLsb', and_self]
  obtain ⟨f13, f23, f8, f18, f0⟩ := hf
  refine codes_word _ (congrArg some hw.symm) rfl (fun hc => ?_) 205#8 f0 rfl (by decide)
  have n18_14_0 : w.extractLsb' 18 14 ≠ 0#14 := bits_ne 5 9 0 f23 (by decide) (by decide) (by decide) (by decide)
  exact (decodeWord_low w 205#8 f0).trans (by
    show decodeMajors60 6 w = _
    simp only [decodeMajors60, f13, f23, f8, f18, n18_14_0, lowTile_low, StdTable.ofBits_toBits, Option.bind_some, BitVec.reduceEq, and_true, and_false, false_and, reduceIte])

theorem Codes.fctx (s1 : GReg) : Codes.Statement (.fctx s1) := by
  obtain ⟨w, hw⟩ : ∃ w, w = 0#14 ++ (s1 ++ (0#5 ++ 207#8)) := ⟨_, rfl⟩
  have hf : w.extractLsb' 8 5 = 0#5 ∧
      w.extractLsb' 18 14 = 0#14 ∧
      w.extractLsb' 13 5 = s1 ∧
      w.extractLsb' 0 8 = 207#8 := by
    subst hw; simp only [HAppend.hAppend, bits_low, bits_high, bits_all, Nat.reduceAdd, Nat.reduceSub, Nat.reduceLeDiff, BitVec.reduceExtractLsb', and_self]
  obtain ⟨f8, f18, f13, f0⟩ := hf
  refine codes_word _ (congrArg some hw.symm) rfl (fun hc => ?_) 207#8 f0 rfl (by decide)
  exact (decodeWord_low w 207#8 f0).trans (by
    show decodeMajors60 7 w = _
    simp only [decodeMajors60, f8, f18, f13, BitVec.reduceEq, and_true, and_false, false_and, reduceIte])

theorem Codes.fctxRd (d : GReg) : Codes.Statement (.fctxRd d) := by
  obtain ⟨w, hw⟩ : ∃ w, w = 32768#19 ++ (d ++ 207#8) := ⟨_, rfl⟩
  have hf : w.extractLsb' 13 19 = 32768#19 ∧
      w.extractLsb' 8 5 = d ∧
      w.extractLsb' 0 8 = 207#8 := by
    subst hw; simp only [HAppend.hAppend, bits_low, bits_high, bits_all, Nat.reduceAdd, Nat.reduceSub, Nat.reduceLeDiff, BitVec.reduceExtractLsb', and_self]
  obtain ⟨f13, f8, f0⟩ := hf
  refine codes_word _ (congrArg some hw.symm) rfl (fun hc => ?_) 207#8 f0 rfl (by decide)
  have n18_14_0 : w.extractLsb' 18 14 ≠ 0#14 := bits_ne 0 14 5 f13 (by decide) (by decide) (by decide) (by decide)
  exact (decodeWord_low w 207#8 f0).trans (by
    show decodeMajors60 7 w = _
    simp only [decodeMajors60, f13, f8, n18_14_0, BitVec.reduceEq, and_true, and_false, false_and, reduceIte])

theorem Codes.tldb (s2 : GReg) (s1 : GReg) (s3 : GReg) : Codes.Statement (.tldb s2 s1 s3) := by
  obtain ⟨w, hw⟩ : ∃ w, w = 0#4 ++ (s3 ++ (s2 ++ (s1 ++ (0#5 ++ 209#8)))) := ⟨_, rfl⟩
  have hf : w.extractLsb' 8 5 = 0#5 ∧
      w.extractLsb' 28 4 = 0#4 ∧
      w.extractLsb' 18 5 = s2 ∧
      w.extractLsb' 13 5 = s1 ∧
      w.extractLsb' 23 5 = s3 ∧
      w.extractLsb' 0 8 = 209#8 := by
    subst hw; simp only [HAppend.hAppend, bits_low, bits_high, bits_all, Nat.reduceAdd, Nat.reduceSub, Nat.reduceLeDiff, BitVec.reduceExtractLsb', and_self]
  obtain ⟨f8, f28, f18, f13, f23, f0⟩ := hf
  refine codes_word _ (congrArg some hw.symm) rfl (fun hc => ?_) 209#8 f0 rfl (by decide)
  exact (decodeWord_low w 209#8 f0).trans (by
    show decodeMajors68 0 w = _
    simp only [decodeMajors68, f8, f28, f18, f13, f23, BitVec.reduceEq, and_true, and_false, false_and, reduceIte])

theorem Codes.mma (d : TReg) (s1 : GReg) (z : Bool) : Codes.Statement (.mma d s1 z) := by
  obtain ⟨w, hw⟩ : ∃ w, w = 0#3 ++ ((BitVec.ofBool z) ++ (0#10 ++ (s1 ++ ((0#3 ++ d) ++ 211#8)))) := ⟨_, rfl⟩
  have hf : w.extractLsb' 18 10 = 0#10 ∧
      w.extractLsb' 29 3 = 0#3 ∧
      w.extractLsb' 8 5 = 0#3 ++ d ∧
      w.extractLsb' 13 5 = s1 ∧
      w.extractLsb' 28 1 = BitVec.ofBool z ∧
      w.extractLsb' 0 8 = 211#8 := by
    subst hw; simp only [HAppend.hAppend, bits_low, bits_high, bits_all, Nat.reduceAdd, Nat.reduceSub, Nat.reduceLeDiff, BitVec.reduceExtractLsb', and_self]
  obtain ⟨f18, f29, f8, f13, f28, f0⟩ := hf
  refine codes_word _ (congrArg some hw.symm) rfl (fun hc => ?_) 211#8 f0 rfl (by decide)
  exact (decodeWord_low w 211#8 f0).trans (by
    show decodeMajors68 1 w = _
    simp only [decodeMajors68, f18, f29, f8, f13, f28, lowTile_low, ofBool_beq, Option.bind_some, BitVec.reduceEq, and_true, and_false, false_and, reduceIte])

theorem Codes.mmaV (d : TReg) (s1 : GReg) (v : VReg) (z : Bool) : Codes.Statement (.mmaV d s1 v z) := by
  obtain ⟨w, hw⟩ : ∃ w, w = 1#3 ++ ((BitVec.ofBool z) ++ (v ++ (0#5 ++ (s1 ++ ((0#3 ++ d) ++ 211#8))))) := ⟨_, rfl⟩
  have hf : w.extractLsb' 18 5 = 0#5 ∧
      w.extractLsb' 29 3 = 1#3 ∧
      w.extractLsb' 8 5 = 0#3 ++ d ∧
      w.extractLsb' 13 5 = s1 ∧
      w.extractLsb' 23 5 = v ∧
      w.extractLsb' 28 1 = BitVec.ofBool z ∧
      w.extractLsb' 0 8 = 211#8 := by
    subst hw; simp only [HAppend.hAppend, bits_low, bits_high, bits_all, Nat.reduceAdd, Nat.reduceSub, Nat.reduceLeDiff, BitVec.reduceExtractLsb', and_self]
  obtain ⟨f18, f29, f8, f13, f23, f28, f0⟩ := hf
  refine codes_word _ (congrArg some hw.symm) rfl (fun hc => ?_) 211#8 f0 rfl (by decide)
  exact (decodeWord_low w 211#8 f0).trans (by
    show decodeMajors68 1 w = _
    simp only [decodeMajors68, f18, f29, f8, f13, f23, f28, lowTile_low, ofBool_beq, Option.bind_some, BitVec.reduceEq, and_true, and_false, false_and, reduceIte])

theorem Codes.tstcF32 (d : TReg) (s2 : GReg) (s1 : GReg) : Codes.Statement (.tstcF32 d s2 s1) := by
  obtain ⟨w, hw⟩ : ∃ w, w = 0#9 ++ (s2 ++ (s1 ++ ((0#3 ++ d) ++ 213#8))) := ⟨_, rfl⟩
  have hf : w.extractLsb' 23 9 = 0#9 ∧
      w.extractLsb' 8 5 = 0#3 ++ d ∧
      w.extractLsb' 18 5 = s2 ∧
      w.extractLsb' 13 5 = s1 ∧
      w.extractLsb' 0 8 = 213#8 := by
    subst hw; simp only [HAppend.hAppend, bits_low, bits_high, bits_all, Nat.reduceAdd, Nat.reduceSub, Nat.reduceLeDiff, BitVec.reduceExtractLsb', and_self]
  obtain ⟨f23, f8, f18, f13, f0⟩ := hf
  refine codes_word _ (congrArg some hw.symm) rfl (fun hc => ?_) 213#8 f0 rfl (by decide)
  exact (decodeWord_low w 213#8 f0).trans (by
    show decodeMajors68 2 w = _
    simp only [decodeMajors68, f23, f8, f18, f13, lowTile_low, Option.bind_some, BitVec.reduceEq, and_true, and_false, false_and, reduceIte])

theorem Codes.tstcBf16 (d : TReg) (s2 : GReg) (s1 : GReg) : Codes.Statement (.tstcBf16 d s2 s1) := by
  obtain ⟨w, hw⟩ : ∃ w, w = 32#9 ++ (s2 ++ (s1 ++ ((0#3 ++ d) ++ 213#8))) := ⟨_, rfl⟩
  have hf : w.extractLsb' 23 9 = 32#9 ∧
      w.extractLsb' 8 5 = 0#3 ++ d ∧
      w.extractLsb' 18 5 = s2 ∧
      w.extractLsb' 13 5 = s1 ∧
      w.extractLsb' 0 8 = 213#8 := by
    subst hw; simp only [HAppend.hAppend, bits_low, bits_high, bits_all, Nat.reduceAdd, Nat.reduceSub, Nat.reduceLeDiff, BitVec.reduceExtractLsb', and_self]
  obtain ⟨f23, f8, f18, f13, f0⟩ := hf
  refine codes_word _ (congrArg some hw.symm) rfl (fun hc => ?_) 213#8 f0 rfl (by decide)
  exact (decodeWord_low w 213#8 f0).trans (by
    show decodeMajors68 2 w = _
    simp only [decodeMajors68, f23, f8, f18, f13, lowTile_low, Option.bind_some, BitVec.reduceEq, and_true, and_false, false_and, reduceIte])

theorem Codes.tstcF16 (d : TReg) (s2 : GReg) (s1 : GReg) : Codes.Statement (.tstcF16 d s2 s1) := by
  obtain ⟨w, hw⟩ : ∃ w, w = 64#9 ++ (s2 ++ (s1 ++ ((0#3 ++ d) ++ 213#8))) := ⟨_, rfl⟩
  have hf : w.extractLsb' 23 9 = 64#9 ∧
      w.extractLsb' 8 5 = 0#3 ++ d ∧
      w.extractLsb' 18 5 = s2 ∧
      w.extractLsb' 13 5 = s1 ∧
      w.extractLsb' 0 8 = 213#8 := by
    subst hw; simp only [HAppend.hAppend, bits_low, bits_high, bits_all, Nat.reduceAdd, Nat.reduceSub, Nat.reduceLeDiff, BitVec.reduceExtractLsb', and_self]
  obtain ⟨f23, f8, f18, f13, f0⟩ := hf
  refine codes_word _ (congrArg some hw.symm) rfl (fun hc => ?_) 213#8 f0 rfl (by decide)
  exact (decodeWord_low w 213#8 f0).trans (by
    show decodeMajors68 2 w = _
    simp only [decodeMajors68, f23, f8, f18, f13, lowTile_low, Option.bind_some, BitVec.reduceEq, and_true, and_false, false_and, reduceIte])

theorem Codes.tqnt (d : TReg) (s1 : GReg) : Codes.Statement (.tqnt d s1) := by
  obtain ⟨w, hw⟩ : ∃ w, w = 0#14 ++ (s1 ++ ((0#3 ++ d) ++ 215#8)) := ⟨_, rfl⟩
  have hf : w.extractLsb' 18 14 = 0#14 ∧
      w.extractLsb' 8 5 = 0#3 ++ d ∧
      w.extractLsb' 13 5 = s1 ∧
      w.extractLsb' 0 8 = 215#8 := by
    subst hw; simp only [HAppend.hAppend, bits_low, bits_high, bits_all, Nat.reduceAdd, Nat.reduceSub, Nat.reduceLeDiff, BitVec.reduceExtractLsb', and_self]
  obtain ⟨f18, f8, f13, f0⟩ := hf
  refine codes_word _ (congrArg some hw.symm) rfl (fun hc => ?_) 215#8 f0 rfl (by decide)
  exact (decodeWord_low w 215#8 f0).trans (by
    show decodeMajors68 3 w = _
    simp only [decodeMajors68, f18, f8, f13, lowTile_low, Option.bind_some, BitVec.reduceEq, and_true, and_false, false_and, reduceIte])

theorem Codes.scfg (d : GReg) (op : ScanOp) (rmode : Rounding) : Codes.Statement (.scfg d op rmode) := by
  obtain ⟨w, hw⟩ : ∃ w, w = 0#8 ++ (rmode.toBits ++ (op.toBits ++ (0#5 ++ (d ++ 217#8)))) := ⟨_, rfl⟩
  have hf : w.extractLsb' 13 5 = 0#5 ∧
      w.extractLsb' 24 8 = 0#8 ∧
      w.extractLsb' 8 5 = d ∧
      w.extractLsb' 18 3 = op.toBits ∧
      w.extractLsb' 21 3 = rmode.toBits ∧
      w.extractLsb' 0 8 = 217#8 := by
    subst hw; simp only [HAppend.hAppend, bits_low, bits_high, bits_all, Nat.reduceAdd, Nat.reduceSub, Nat.reduceLeDiff, BitVec.reduceExtractLsb', and_self]
  obtain ⟨f13, f24, f8, f18, f21, f0⟩ := hf
  refine codes_word _ (congrArg some hw.symm) rfl (fun hc => ?_) 217#8 f0 rfl (by decide)
  exact (decodeWord_low w 217#8 f0).trans (by
    show decodeMajors68 4 w = _
    simp only [decodeMajors68, f13, f24, f8, f18, f21, ScanOp.ofBits_toBits, Rounding.ofBits_toBits, Option.bind_some, BitVec.reduceEq, and_true, and_false, false_and, reduceIte])

theorem Codes.stile (s1 : GReg) : Codes.Statement (.stile s1) := by
  obtain ⟨w, hw⟩ : ∃ w, w = 0#14 ++ (s1 ++ (0#5 ++ 219#8)) := ⟨_, rfl⟩
  have hf : w.extractLsb' 8 5 = 0#5 ∧
      w.extractLsb' 18 14 = 0#14 ∧
      w.extractLsb' 13 5 = s1 ∧
      w.extractLsb' 0 8 = 219#8 := by
    subst hw; simp only [HAppend.hAppend, bits_low, bits_high, bits_all, Nat.reduceAdd, Nat.reduceSub, Nat.reduceLeDiff, BitVec.reduceExtractLsb', and_self]
  obtain ⟨f8, f18, f13, f0⟩ := hf
  refine codes_word _ (congrArg some hw.symm) rfl (fun hc => ?_) 219#8 f0 rfl (by decide)
  exact (decodeWord_low w 219#8 f0).trans (by
    show decodeMajors68 5 w = _
    simp only [decodeMajors68, f8, f18, f13, BitVec.reduceEq, and_true, and_false, false_and, reduceIte])

theorem Codes.sjoinT (d : GReg) (s1 : GReg) : Codes.Statement (.sjoinT d s1) := by
  obtain ⟨w, hw⟩ : ∃ w, w = 2560#14 ++ (s1 ++ (d ++ 221#8)) := ⟨_, rfl⟩
  have hf : w.extractLsb' 18 14 = 2560#14 ∧
      w.extractLsb' 8 5 = d ∧
      w.extractLsb' 13 5 = s1 ∧
      w.extractLsb' 0 8 = 221#8 := by
    subst hw; simp only [HAppend.hAppend, bits_low, bits_high, bits_all, Nat.reduceAdd, Nat.reduceSub, Nat.reduceLeDiff, BitVec.reduceExtractLsb', and_self]
  obtain ⟨f18, f8, f13, f0⟩ := hf
  refine codes_word _ (congrArg some hw.symm) rfl (fun hc => ?_) 221#8 f0 rfl (by decide)
  exact (decodeWord_low w 221#8 f0).trans (by
    show decodeMajors68 6 w = _
    simp only [decodeMajors68, f18, f8, f13, BitVec.reduceEq, and_true, and_false, false_and, reduceIte])

theorem Codes.sjoinR (d : GReg) (s1 : GReg) (s2 : GReg) : Codes.Statement (.sjoinR d s1 s2) := by
  obtain ⟨w, hw⟩ : ∃ w, w = 208#9 ++ (s2 ++ (s1 ++ (d ++ 221#8))) := ⟨_, rfl⟩
  have hf : w.extractLsb' 23 9 = 208#9 ∧
      w.extractLsb' 8 5 = d ∧
      w.extractLsb' 13 5 = s1 ∧
      w.extractLsb' 18 5 = s2 ∧
      w.extractLsb' 0 8 = 221#8 := by
    subst hw; simp only [HAppend.hAppend, bits_low, bits_high, bits_all, Nat.reduceAdd, Nat.reduceSub, Nat.reduceLeDiff, BitVec.reduceExtractLsb', and_self]
  obtain ⟨f23, f8, f13, f18, f0⟩ := hf
  refine codes_word _ (congrArg some hw.symm) rfl (fun hc => ?_) 221#8 f0 rfl (by decide)
  have n18_14_2560 : w.extractLsb' 18 14 ≠ 2560#14 := bits_ne 5 9 0 f23 (by decide) (by decide) (by decide) (by decide)
  exact (decodeWord_low w 221#8 f0).trans (by
    show decodeMajors68 6 w = _
    simp only [decodeMajors68, f23, f8, f13, f18, n18_14_2560, BitVec.reduceEq, and_true, and_false, false_and, reduceIte])

theorem Codes.chainPost (d : GReg) (s1 : GReg) (s2 : GReg) : Codes.Statement (.chainPost d s1 s2) := by
  obtain ⟨w, hw⟩ : ∃ w, w = 0#9 ++ (s2 ++ (s1 ++ (d ++ 223#8))) := ⟨_, rfl⟩
  have hf : w.extractLsb' 23 9 = 0#9 ∧
      w.extractLsb' 8 5 = d ∧
      w.extractLsb' 13 5 = s1 ∧
      w.extractLsb' 18 5 = s2 ∧
      w.extractLsb' 0 8 = 223#8 := by
    subst hw; simp only [HAppend.hAppend, bits_low, bits_high, bits_all, Nat.reduceAdd, Nat.reduceSub, Nat.reduceLeDiff, BitVec.reduceExtractLsb', and_self]
  obtain ⟨f23, f8, f13, f18, f0⟩ := hf
  refine codes_word _ (congrArg some hw.symm) rfl (fun hc => ?_) 223#8 f0 rfl (by decide)
  exact (decodeWord_low w 223#8 f0).trans (by
    show decodeMajors68 7 w = _
    simp only [decodeMajors68, f23, f8, f13, f18, BitVec.reduceEq, and_true, and_false, false_and, reduceIte])

theorem Codes.chainWait (d : GReg) (s1 : GReg) (s2 : GReg) : Codes.Statement (.chainWait d s1 s2) := by
  obtain ⟨w, hw⟩ : ∃ w, w = 32#9 ++ (s2 ++ (s1 ++ (d ++ 223#8))) := ⟨_, rfl⟩
  have hf : w.extractLsb' 23 9 = 32#9 ∧
      w.extractLsb' 8 5 = d ∧
      w.extractLsb' 13 5 = s1 ∧
      w.extractLsb' 18 5 = s2 ∧
      w.extractLsb' 0 8 = 223#8 := by
    subst hw; simp only [HAppend.hAppend, bits_low, bits_high, bits_all, Nat.reduceAdd, Nat.reduceSub, Nat.reduceLeDiff, BitVec.reduceExtractLsb', and_self]
  obtain ⟨f23, f8, f13, f18, f0⟩ := hf
  refine codes_word _ (congrArg some hw.symm) rfl (fun hc => ?_) 223#8 f0 rfl (by decide)
  exact (decodeWord_low w 223#8 f0).trans (by
    show decodeMajors68 7 w = _
    simp only [decodeMajors68, f23, f8, f13, f18, BitVec.reduceEq, and_true, and_false, false_and, reduceIte])

theorem Codes.chainPos (d : GReg) : Codes.Statement (.chainPos d) := by
  obtain ⟨w, hw⟩ : ∃ w, w = 65536#19 ++ (d ++ 223#8) := ⟨_, rfl⟩
  have hf : w.extractLsb' 13 19 = 65536#19 ∧
      w.extractLsb' 8 5 = d ∧
      w.extractLsb' 0 8 = 223#8 := by
    subst hw; simp only [HAppend.hAppend, bits_low, bits_high, bits_all, Nat.reduceAdd, Nat.reduceSub, Nat.reduceLeDiff, BitVec.reduceExtractLsb', and_self]
  obtain ⟨f13, f8, f0⟩ := hf
  refine codes_word _ (congrArg some hw.symm) rfl (fun hc => ?_) 223#8 f0 rfl (by decide)
  have n23_9_0 : w.extractLsb' 23 9 ≠ 0#9 := bits_ne 0 9 10 f13 (by decide) (by decide) (by decide) (by decide)
  have n23_9_32 : w.extractLsb' 23 9 ≠ 32#9 := bits_ne 0 9 10 f13 (by decide) (by decide) (by decide) (by decide)
  exact (decodeWord_low w 223#8 f0).trans (by
    show decodeMajors68 7 w = _
    simp only [decodeMajors68, f13, f8, n23_9_0, n23_9_32, BitVec.reduceEq, and_true, and_false, false_and, reduceIte])

theorem Codes.binit (d : GReg) (s1 : GReg) (s2 : GReg) (scope : Scope) : Codes.Statement (.binit d s1 s2 scope) := by
  obtain ⟨w, hw⟩ : ∃ w, w = 0#6 ++ (scope.toBits ++ (s2 ++ (s1 ++ (d ++ 225#8)))) := ⟨_, rfl⟩
  have hf : w.extractLsb' 26 6 = 0#6 ∧
      w.extractLsb' 8 5 = d ∧
      w.extractLsb' 13 5 = s1 ∧
      w.extractLsb' 18 5 = s2 ∧
      w.extractLsb' 23 3 = scope.toBits ∧
      w.extractLsb' 0 8 = 225#8 := by
    subst hw; simp only [HAppend.hAppend, bits_low, bits_high, bits_all, Nat.reduceAdd, Nat.reduceSub, Nat.reduceLeDiff, BitVec.reduceExtractLsb', and_self]
  obtain ⟨f26, f8, f13, f18, f23, f0⟩ := hf
  refine codes_word _ (congrArg some hw.symm) rfl (fun hc => ?_) 225#8 f0 rfl (by decide)
  exact (decodeWord_low w 225#8 f0).trans (by
    show decodeMajors70 0 w = _
    simp only [decodeMajors70, f26, f8, f13, f18, f23, Scope.ofBits_toBits, BitVec.reduceEq, and_true, and_false, false_and, reduceIte])

theorem Codes.barv (d : GReg) (s1 : GReg) (s2 : GReg) (scope : Scope) : Codes.Statement (.barv d s1 s2 scope) := by
  obtain ⟨w, hw⟩ : ∃ w, w = 0#6 ++ (scope.toBits ++ (s2 ++ (s1 ++ (d ++ 227#8)))) := ⟨_, rfl⟩
  have hf : w.extractLsb' 26 6 = 0#6 ∧
      w.extractLsb' 8 5 = d ∧
      w.extractLsb' 13 5 = s1 ∧
      w.extractLsb' 18 5 = s2 ∧
      w.extractLsb' 23 3 = scope.toBits ∧
      w.extractLsb' 0 8 = 227#8 := by
    subst hw; simp only [HAppend.hAppend, bits_low, bits_high, bits_all, Nat.reduceAdd, Nat.reduceSub, Nat.reduceLeDiff, BitVec.reduceExtractLsb', and_self]
  obtain ⟨f26, f8, f13, f18, f23, f0⟩ := hf
  refine codes_word _ (congrArg some hw.symm) rfl (fun hc => ?_) 227#8 f0 rfl (by decide)
  exact (decodeWord_low w 227#8 f0).trans (by
    show decodeMajors70 1 w = _
    simp only [decodeMajors70, f26, f8, f13, f18, f23, Scope.ofBits_toBits, BitVec.reduceEq, and_true, and_false, false_and, reduceIte])

theorem Codes.barvX (d : GReg) (s1 : GReg) (s2 : GReg) (scope : Scope) : Codes.Statement (.barvX d s1 s2 scope) := by
  obtain ⟨w, hw⟩ : ∃ w, w = 4#6 ++ (scope.toBits ++ (s2 ++ (s1 ++ (d ++ 227#8)))) := ⟨_, rfl⟩
  have hf : w.extractLsb' 26 6 = 4#6 ∧
      w.extractLsb' 8 5 = d ∧
      w.extractLsb' 13 5 = s1 ∧
      w.extractLsb' 18 5 = s2 ∧
      w.extractLsb' 23 3 = scope.toBits ∧
      w.extractLsb' 0 8 = 227#8 := by
    subst hw; simp only [HAppend.hAppend, bits_low, bits_high, bits_all, Nat.reduceAdd, Nat.reduceSub, Nat.reduceLeDiff, BitVec.reduceExtractLsb', and_self]
  obtain ⟨f26, f8, f13, f18, f23, f0⟩ := hf
  refine codes_word _ (congrArg some hw.symm) rfl (fun hc => ?_) 227#8 f0 rfl (by decide)
  exact (decodeWord_low w 227#8 f0).trans (by
    show decodeMajors70 1 w = _
    simp only [decodeMajors70, f26, f8, f13, f18, f23, Scope.ofBits_toBits, BitVec.reduceEq, and_true, and_false, false_and, reduceIte])

theorem Codes.bwait (d : GReg) (s1 : GReg) (s2 : GReg) (scope : Scope) : Codes.Statement (.bwait d s1 s2 scope) := by
  obtain ⟨w, hw⟩ : ∃ w, w = 0#6 ++ (scope.toBits ++ (s2 ++ (s1 ++ (d ++ 229#8)))) := ⟨_, rfl⟩
  have hf : w.extractLsb' 26 6 = 0#6 ∧
      w.extractLsb' 8 5 = d ∧
      w.extractLsb' 13 5 = s1 ∧
      w.extractLsb' 18 5 = s2 ∧
      w.extractLsb' 23 3 = scope.toBits ∧
      w.extractLsb' 0 8 = 229#8 := by
    subst hw; simp only [HAppend.hAppend, bits_low, bits_high, bits_all, Nat.reduceAdd, Nat.reduceSub, Nat.reduceLeDiff, BitVec.reduceExtractLsb', and_self]
  obtain ⟨f26, f8, f13, f18, f23, f0⟩ := hf
  refine codes_word _ (congrArg some hw.symm) rfl (fun hc => ?_) 229#8 f0 rfl (by decide)
  exact (decodeWord_low w 229#8 f0).trans (by
    show decodeMajors70 2 w = _
    simp only [decodeMajors70, f26, f8, f13, f18, f23, Scope.ofBits_toBits, BitVec.reduceEq, and_true, and_false, false_and, reduceIte])

theorem Codes.btest (d : GReg) (s1 : GReg) (s2 : GReg) (scope : Scope) : Codes.Statement (.btest d s1 s2 scope) := by
  obtain ⟨w, hw⟩ : ∃ w, w = 0#6 ++ (scope.toBits ++ (s2 ++ (s1 ++ (d ++ 231#8)))) := ⟨_, rfl⟩
  have hf : w.extractLsb' 26 6 = 0#6 ∧
      w.extractLsb' 8 5 = d ∧
      w.extractLsb' 13 5 = s1 ∧
      w.extractLsb' 18 5 = s2 ∧
      w.extractLsb' 23 3 = scope.toBits ∧
      w.extractLsb' 0 8 = 231#8 := by
    subst hw; simp only [HAppend.hAppend, bits_low, bits_high, bits_all, Nat.reduceAdd, Nat.reduceSub, Nat.reduceLeDiff, BitVec.reduceExtractLsb', and_self]
  obtain ⟨f26, f8, f13, f18, f23, f0⟩ := hf
  refine codes_word _ (congrArg some hw.symm) rfl (fun hc => ?_) 231#8 f0 rfl (by decide)
  exact (decodeWord_low w 231#8 f0).trans (by
    show decodeMajors70 3 w = _
    simp only [decodeMajors70, f26, f8, f13, f18, f23, Scope.ofBits_toBits, BitVec.reduceEq, and_true, and_false, false_and, reduceIte])

theorem Codes.semi (d : GReg) (s1 : GReg) (s2 : GReg) (scope : Scope) : Codes.Statement (.semi d s1 s2 scope) := by
  obtain ⟨w, hw⟩ : ∃ w, w = 0#6 ++ (scope.toBits ++ (s2 ++ (s1 ++ (d ++ 233#8)))) := ⟨_, rfl⟩
  have hf : w.extractLsb' 26 6 = 0#6 ∧
      w.extractLsb' 8 5 = d ∧
      w.extractLsb' 13 5 = s1 ∧
      w.extractLsb' 18 5 = s2 ∧
      w.extractLsb' 23 3 = scope.toBits ∧
      w.extractLsb' 0 8 = 233#8 := by
    subst hw; simp only [HAppend.hAppend, bits_low, bits_high, bits_all, Nat.reduceAdd, Nat.reduceSub, Nat.reduceLeDiff, BitVec.reduceExtractLsb', and_self]
  obtain ⟨f26, f8, f13, f18, f23, f0⟩ := hf
  refine codes_word _ (congrArg some hw.symm) rfl (fun hc => ?_) 233#8 f0 rfl (by decide)
  exact (decodeWord_low w 233#8 f0).trans (by
    show decodeMajors70 4 w = _
    simp only [decodeMajors70, f26, f8, f13, f18, f23, Scope.ofBits_toBits, BitVec.reduceEq, and_true, and_false, false_and, reduceIte])

theorem Codes.semiSet (d : GReg) (s1 : GReg) (s2 : GReg) (scope : Scope) : Codes.Statement (.semiSet d s1 s2 scope) := by
  obtain ⟨w, hw⟩ : ∃ w, w = 4#6 ++ (scope.toBits ++ (s2 ++ (s1 ++ (d ++ 233#8)))) := ⟨_, rfl⟩
  have hf : w.extractLsb' 26 6 = 4#6 ∧
      w.extractLsb' 8 5 = d ∧
      w.extractLsb' 13 5 = s1 ∧
      w.extractLsb' 18 5 = s2 ∧
      w.extractLsb' 23 3 = scope.toBits ∧
      w.extractLsb' 0 8 = 233#8 := by
    subst hw; simp only [HAppend.hAppend, bits_low, bits_high, bits_all, Nat.reduceAdd, Nat.reduceSub, Nat.reduceLeDiff, BitVec.reduceExtractLsb', and_self]
  obtain ⟨f26, f8, f13, f18, f23, f0⟩ := hf
  refine codes_word _ (congrArg some hw.symm) rfl (fun hc => ?_) 233#8 f0 rfl (by decide)
  exact (decodeWord_low w 233#8 f0).trans (by
    show decodeMajors70 4 w = _
    simp only [decodeMajors70, f26, f8, f13, f18, f23, Scope.ofBits_toBits, BitVec.reduceEq, and_true, and_false, false_and, reduceIte])

theorem Codes.semw (d : GReg) (s1 : GReg) (s2 : GReg) (scope : Scope) : Codes.Statement (.semw d s1 s2 scope) := by
  obtain ⟨w, hw⟩ : ∃ w, w = 0#6 ++ (scope.toBits ++ (s2 ++ (s1 ++ (d ++ 235#8)))) := ⟨_, rfl⟩
  have hf : w.extractLsb' 26 6 = 0#6 ∧
      w.extractLsb' 8 5 = d ∧
      w.extractLsb' 13 5 = s1 ∧
      w.extractLsb' 18 5 = s2 ∧
      w.extractLsb' 23 3 = scope.toBits ∧
      w.extractLsb' 0 8 = 235#8 := by
    subst hw; simp only [HAppend.hAppend, bits_low, bits_high, bits_all, Nat.reduceAdd, Nat.reduceSub, Nat.reduceLeDiff, BitVec.reduceExtractLsb', and_self]
  obtain ⟨f26, f8, f13, f18, f23, f0⟩ := hf
  refine codes_word _ (congrArg some hw.symm) rfl (fun hc => ?_) 235#8 f0 rfl (by decide)
  exact (decodeWord_low w 235#8 f0).trans (by
    show decodeMajors70 5 w = _
    simp only [decodeMajors70, f26, f8, f13, f18, f23, Scope.ofBits_toBits, BitVec.reduceEq, and_true, and_false, false_and, reduceIte])

theorem Codes.semwDec (d : GReg) (s1 : GReg) (s2 : GReg) (scope : Scope) : Codes.Statement (.semwDec d s1 s2 scope) := by
  obtain ⟨w, hw⟩ : ∃ w, w = 4#6 ++ (scope.toBits ++ (s2 ++ (s1 ++ (d ++ 235#8)))) := ⟨_, rfl⟩
  have hf : w.extractLsb' 26 6 = 4#6 ∧
      w.extractLsb' 8 5 = d ∧
      w.extractLsb' 13 5 = s1 ∧
      w.extractLsb' 18 5 = s2 ∧
      w.extractLsb' 23 3 = scope.toBits ∧
      w.extractLsb' 0 8 = 235#8 := by
    subst hw; simp only [HAppend.hAppend, bits_low, bits_high, bits_all, Nat.reduceAdd, Nat.reduceSub, Nat.reduceLeDiff, BitVec.reduceExtractLsb', and_self]
  obtain ⟨f26, f8, f13, f18, f23, f0⟩ := hf
  refine codes_word _ (congrArg some hw.symm) rfl (fun hc => ?_) 235#8 f0 rfl (by decide)
  exact (decodeWord_low w 235#8 f0).trans (by
    show decodeMajors70 5 w = _
    simp only [decodeMajors70, f26, f8, f13, f18, f23, Scope.ofBits_toBits, BitVec.reduceEq, and_true, and_false, false_and, reduceIte])

theorem Codes.qinit (d : GReg) (s1 : GReg) (s2 : GReg) : Codes.Statement (.qinit d s1 s2) := by
  obtain ⟨w, hw⟩ : ∃ w, w = 0#9 ++ (s2 ++ (s1 ++ (d ++ 237#8))) := ⟨_, rfl⟩
  have hf : w.extractLsb' 23 9 = 0#9 ∧
      w.extractLsb' 8 5 = d ∧
      w.extractLsb' 13 5 = s1 ∧
      w.extractLsb' 18 5 = s2 ∧
      w.extractLsb' 0 8 = 237#8 := by
    subst hw; simp only [HAppend.hAppend, bits_low, bits_high, bits_all, Nat.reduceAdd, Nat.reduceSub, Nat.reduceLeDiff, BitVec.reduceExtractLsb', and_self]
  obtain ⟨f23, f8, f13, f18, f0⟩ := hf
  refine codes_word _ (congrArg some hw.symm) rfl (fun hc => ?_) 237#8 f0 rfl (by decide)
  exact (decodeWord_low w 237#8 f0).trans (by
    show decodeMajors70 6 w = _
    simp only [decodeMajors70, f23, f8, f13, f18, BitVec.reduceEq, and_true, and_false, false_and, reduceIte])

theorem Codes.enq (d : GReg) (s1 : GReg) (s2 : GReg) : Codes.Statement (.enq d s1 s2) := by
  obtain ⟨w, hw⟩ : ∃ w, w = 32#9 ++ (s2 ++ (s1 ++ (d ++ 237#8))) := ⟨_, rfl⟩
  have hf : w.extractLsb' 23 9 = 32#9 ∧
      w.extractLsb' 8 5 = d ∧
      w.extractLsb' 13 5 = s1 ∧
      w.extractLsb' 18 5 = s2 ∧
      w.extractLsb' 0 8 = 237#8 := by
    subst hw; simp only [HAppend.hAppend, bits_low, bits_high, bits_all, Nat.reduceAdd, Nat.reduceSub, Nat.reduceLeDiff, BitVec.reduceExtractLsb', and_self]
  obtain ⟨f23, f8, f13, f18, f0⟩ := hf
  refine codes_word _ (congrArg some hw.symm) rfl (fun hc => ?_) 237#8 f0 rfl (by decide)
  exact (decodeWord_low w 237#8 f0).trans (by
    show decodeMajors70 6 w = _
    simp only [decodeMajors70, f23, f8, f13, f18, BitVec.reduceEq, and_true, and_false, false_and, reduceIte])

theorem Codes.enqB (d : GReg) (s1 : GReg) (s2 : GReg) : Codes.Statement (.enqB d s1 s2) := by
  obtain ⟨w, hw⟩ : ∃ w, w = 33#9 ++ (s2 ++ (s1 ++ (d ++ 237#8))) := ⟨_, rfl⟩
  have hf : w.extractLsb' 23 9 = 33#9 ∧
      w.extractLsb' 8 5 = d ∧
      w.extractLsb' 13 5 = s1 ∧
      w.extractLsb' 18 5 = s2 ∧
      w.extractLsb' 0 8 = 237#8 := by
    subst hw; simp only [HAppend.hAppend, bits_low, bits_high, bits_all, Nat.reduceAdd, Nat.reduceSub, Nat.reduceLeDiff, BitVec.reduceExtractLsb', and_self]
  obtain ⟨f23, f8, f13, f18, f0⟩ := hf
  refine codes_word _ (congrArg some hw.symm) rfl (fun hc => ?_) 237#8 f0 rfl (by decide)
  exact (decodeWord_low w 237#8 f0).trans (by
    show decodeMajors70 6 w = _
    simp only [decodeMajors70, f23, f8, f13, f18, BitVec.reduceEq, and_true, and_false, false_and, reduceIte])

theorem Codes.deq (d : GReg) (s1 : GReg) : Codes.Statement (.deq d s1) := by
  obtain ⟨w, hw⟩ : ∃ w, w = 2048#14 ++ (s1 ++ (d ++ 237#8)) := ⟨_, rfl⟩
  have hf : w.extractLsb' 18 14 = 2048#14 ∧
      w.extractLsb' 8 5 = d ∧
      w.extractLsb' 13 5 = s1 ∧
      w.extractLsb' 0 8 = 237#8 := by
    subst hw; simp only [HAppend.hAppend, bits_low, bits_high, bits_all, Nat.reduceAdd, Nat.reduceSub, Nat.reduceLeDiff, BitVec.reduceExtractLsb', and_self]
  obtain ⟨f18, f8, f13, f0⟩ := hf
  refine codes_word _ (congrArg some hw.symm) rfl (fun hc => ?_) 237#8 f0 rfl (by decide)
  have n23_9_0 : w.extractLsb' 23 9 ≠ 0#9 := bits_ne 0 9 5 f18 (by decide) (by decide) (by decide) (by decide)
  have n23_9_32 : w.extractLsb' 23 9 ≠ 32#9 := bits_ne 0 9 5 f18 (by decide) (by decide) (by decide) (by decide)
  have n23_9_33 : w.extractLsb' 23 9 ≠ 33#9 := bits_ne 0 9 5 f18 (by decide) (by decide) (by decide) (by decide)
  exact (decodeWord_low w 237#8 f0).trans (by
    show decodeMajors70 6 w = _
    simp only [decodeMajors70, f18, f8, f13, n23_9_0, n23_9_32, n23_9_33, BitVec.reduceEq, and_true, and_false, false_and, reduceIte])

theorem Codes.deqB (d : GReg) (s1 : GReg) (s2 : GReg) : Codes.Statement (.deqB d s1 s2) := by
  obtain ⟨w, hw⟩ : ∃ w, w = 65#9 ++ (s2 ++ (s1 ++ (d ++ 237#8))) := ⟨_, rfl⟩
  have hf : w.extractLsb' 23 9 = 65#9 ∧
      w.extractLsb' 8 5 = d ∧
      w.extractLsb' 13 5 = s1 ∧
      w.extractLsb' 18 5 = s2 ∧
      w.extractLsb' 0 8 = 237#8 := by
    subst hw; simp only [HAppend.hAppend, bits_low, bits_high, bits_all, Nat.reduceAdd, Nat.reduceSub, Nat.reduceLeDiff, BitVec.reduceExtractLsb', and_self]
  obtain ⟨f23, f8, f13, f18, f0⟩ := hf
  refine codes_word _ (congrArg some hw.symm) rfl (fun hc => ?_) 237#8 f0 rfl (by decide)
  have n18_14_2048 : w.extractLsb' 18 14 ≠ 2048#14 := bits_ne 5 9 0 f23 (by decide) (by decide) (by decide) (by decide)
  exact (decodeWord_low w 237#8 f0).trans (by
    show decodeMajors70 6 w = _
    simp only [decodeMajors70, f23, f8, f13, f18, n18_14_2048, BitVec.reduceEq, and_true, and_false, false_and, reduceIte])

theorem Codes.deqPoll (d : GReg) (s1 : GReg) (s2 : GReg) : Codes.Statement (.deqPoll d s1 s2) := by
  obtain ⟨w, hw⟩ : ∃ w, w = 67#9 ++ (s2 ++ (s1 ++ (d ++ 237#8))) := ⟨_, rfl⟩
  have hf : w.extractLsb' 23 9 = 67#9 ∧
      w.extractLsb' 8 5 = d ∧
      w.extractLsb' 13 5 = s1 ∧
      w.extractLsb' 18 5 = s2 ∧
      w.extractLsb' 0 8 = 237#8 := by
    subst hw; simp only [HAppend.hAppend, bits_low, bits_high, bits_all, Nat.reduceAdd, Nat.reduceSub, Nat.reduceLeDiff, BitVec.reduceExtractLsb', and_self]
  obtain ⟨f23, f8, f13, f18, f0⟩ := hf
  refine codes_word _ (congrArg some hw.symm) rfl (fun hc => ?_) 237#8 f0 rfl (by decide)
  have n18_14_2048 : w.extractLsb' 18 14 ≠ 2048#14 := bits_ne 5 9 0 f23 (by decide) (by decide) (by decide) (by decide)
  exact (decodeWord_low w 237#8 f0).trans (by
    show decodeMajors70 6 w = _
    simp only [decodeMajors70, f23, f8, f13, f18, n18_14_2048, BitVec.reduceEq, and_true, and_false, false_and, reduceIte])

theorem Codes.send (d : GReg) (s1 : GReg) (s2 : GReg) (n : BitVec 5) : Codes.Statement (.send d s1 s2 n) := by
  obtain ⟨w, hw⟩ : ∃ w, w = 0#4 ++ (n ++ (s2 ++ (s1 ++ (d ++ 239#8)))) := ⟨_, rfl⟩
  have hf : w.extractLsb' 28 4 = 0#4 ∧
      w.extractLsb' 8 5 = d ∧
      w.extractLsb' 13 5 = s1 ∧
      w.extractLsb' 18 5 = s2 ∧
      w.extractLsb' 23 5 = n ∧
      w.extractLsb' 0 8 = 239#8 := by
    subst hw; simp only [HAppend.hAppend, bits_low, bits_high, bits_all, Nat.reduceAdd, Nat.reduceSub, Nat.reduceLeDiff, BitVec.reduceExtractLsb', and_self]
  obtain ⟨f28, f8, f13, f18, f23, f0⟩ := hf
  refine codes_word _ (congrArg some hw.symm) rfl (fun hc => ?_) 239#8 f0 rfl (by decide)
  exact (decodeWord_low w 239#8 f0).trans (by
    show decodeMajors70 7 w = _
    simp only [decodeMajors70, f28, f8, f13, f18, f23, BitVec.reduceEq, and_true, and_false, false_and, reduceIte])

theorem Codes.sendRep (d : GReg) (s1 : GReg) (s2 : GReg) (n : BitVec 5) : Codes.Statement (.sendRep d s1 s2 n) := by
  obtain ⟨w, hw⟩ : ∃ w, w = 1#4 ++ (n ++ (s2 ++ (s1 ++ (d ++ 239#8)))) := ⟨_, rfl⟩
  have hf : w.extractLsb' 28 4 = 1#4 ∧
      w.extractLsb' 8 5 = d ∧
      w.extractLsb' 13 5 = s1 ∧
      w.extractLsb' 18 5 = s2 ∧
      w.extractLsb' 23 5 = n ∧
      w.extractLsb' 0 8 = 239#8 := by
    subst hw; simp only [HAppend.hAppend, bits_low, bits_high, bits_all, Nat.reduceAdd, Nat.reduceSub, Nat.reduceLeDiff, BitVec.reduceExtractLsb', and_self]
  obtain ⟨f28, f8, f13, f18, f23, f0⟩ := hf
  refine codes_word _ (congrArg some hw.symm) rfl (fun hc => ?_) 239#8 f0 rfl (by decide)
  exact (decodeWord_low w 239#8 f0).trans (by
    show decodeMajors70 7 w = _
    simp only [decodeMajors70, f28, f8, f13, f18, f23, BitVec.reduceEq, and_true, and_false, false_and, reduceIte])

theorem Codes.sendRef (d : GReg) (s1 : GReg) : Codes.Statement (.sendRef d s1) := by
  obtain ⟨w, hw⟩ : ∃ w, w = 2048#14 ++ (s1 ++ (d ++ 239#8)) := ⟨_, rfl⟩
  have hf : w.extractLsb' 18 14 = 2048#14 ∧
      w.extractLsb' 8 5 = d ∧
      w.extractLsb' 13 5 = s1 ∧
      w.extractLsb' 0 8 = 239#8 := by
    subst hw; simp only [HAppend.hAppend, bits_low, bits_high, bits_all, Nat.reduceAdd, Nat.reduceSub, Nat.reduceLeDiff, BitVec.reduceExtractLsb', and_self]
  obtain ⟨f18, f8, f13, f0⟩ := hf
  refine codes_word _ (congrArg some hw.symm) rfl (fun hc => ?_) 239#8 f0 rfl (by decide)
  have n28_4_0 : w.extractLsb' 28 4 ≠ 0#4 := bits_ne 0 4 10 f18 (by decide) (by decide) (by decide) (by decide)
  have n28_4_1 : w.extractLsb' 28 4 ≠ 1#4 := bits_ne 0 4 10 f18 (by decide) (by decide) (by decide) (by decide)
  exact (decodeWord_low w 239#8 f0).trans (by
    show decodeMajors70 7 w = _
    simp only [decodeMajors70, f18, f8, f13, n28_4_0, n28_4_1, BitVec.reduceEq, and_true, and_false, false_and, reduceIte])

theorem Codes.cpy (d : GReg) (s1 : GReg) (s2 : GReg) : Codes.Statement (.cpy d s1 s2) := by
  obtain ⟨w, hw⟩ : ∃ w, w = 0#9 ++ (s2 ++ (s1 ++ (d ++ 241#8))) := ⟨_, rfl⟩
  have hf : w.extractLsb' 23 9 = 0#9 ∧
      w.extractLsb' 8 5 = d ∧
      w.extractLsb' 13 5 = s1 ∧
      w.extractLsb' 18 5 = s2 ∧
      w.extractLsb' 0 8 = 241#8 := by
    subst hw; simp only [HAppend.hAppend, bits_low, bits_high, bits_all, Nat.reduceAdd, Nat.reduceSub, Nat.reduceLeDiff, BitVec.reduceExtractLsb', and_self]
  obtain ⟨f23, f8, f13, f18, f0⟩ := hf
  refine codes_word _ (congrArg some hw.symm) rfl (fun hc => ?_) 241#8 f0 rfl (by decide)
  exact (decodeWord_low w 241#8 f0).trans (by
    show decodeMajors78 0 w = _
    simp only [decodeMajors78, f23, f8, f13, f18, BitVec.reduceEq, and_true, and_false, false_and, reduceIte])

theorem Codes.cpyStat (d : GReg) (s1 : GReg) : Codes.Statement (.cpyStat d s1) := by
  obtain ⟨w, hw⟩ : ∃ w, w = 1024#14 ++ (s1 ++ (d ++ 241#8)) := ⟨_, rfl⟩
  have hf : w.extractLsb' 18 14 = 1024#14 ∧
      w.extractLsb' 8 5 = d ∧
      w.extractLsb' 13 5 = s1 ∧
      w.extractLsb' 0 8 = 241#8 := by
    subst hw; simp only [HAppend.hAppend, bits_low, bits_high, bits_all, Nat.reduceAdd, Nat.reduceSub, Nat.reduceLeDiff, BitVec.reduceExtractLsb', and_self]
  obtain ⟨f18, f8, f13, f0⟩ := hf
  refine codes_word _ (congrArg some hw.symm) rfl (fun hc => ?_) 241#8 f0 rfl (by decide)
  have n23_9_0 : w.extractLsb' 23 9 ≠ 0#9 := bits_ne 0 9 5 f18 (by decide) (by decide) (by decide) (by decide)
  exact (decodeWord_low w 241#8 f0).trans (by
    show decodeMajors78 0 w = _
    simp only [decodeMajors78, f18, f8, f13, n23_9_0, BitVec.reduceEq, and_true, and_false, false_and, reduceIte])

theorem Codes.cpyStatErr (d : GReg) (s1 : GReg) : Codes.Statement (.cpyStatErr d s1) := by
  obtain ⟨w, hw⟩ : ∃ w, w = 1056#14 ++ (s1 ++ (d ++ 241#8)) := ⟨_, rfl⟩
  have hf : w.extractLsb' 18 14 = 1056#14 ∧
      w.extractLsb' 8 5 = d ∧
      w.extractLsb' 13 5 = s1 ∧
      w.extractLsb' 0 8 = 241#8 := by
    subst hw; simp only [HAppend.hAppend, bits_low, bits_high, bits_all, Nat.reduceAdd, Nat.reduceSub, Nat.reduceLeDiff, BitVec.reduceExtractLsb', and_self]
  obtain ⟨f18, f8, f13, f0⟩ := hf
  refine codes_word _ (congrArg some hw.symm) rfl (fun hc => ?_) 241#8 f0 rfl (by decide)
  have n23_9_0 : w.extractLsb' 23 9 ≠ 0#9 := bits_ne 0 9 5 f18 (by decide) (by decide) (by decide) (by decide)
  exact (decodeWord_low w 241#8 f0).trans (by
    show decodeMajors78 0 w = _
    simp only [decodeMajors78, f18, f8, f13, n23_9_0, BitVec.reduceEq, and_true, and_false, false_and, reduceIte])

theorem Codes.cpyStatWait (d : GReg) (s1 : GReg) (s2 : GReg) : Codes.Statement (.cpyStatWait d s1 s2) := by
  obtain ⟨w, hw⟩ : ∃ w, w = 34#9 ++ (s2 ++ (s1 ++ (d ++ 241#8))) := ⟨_, rfl⟩
  have hf : w.extractLsb' 23 9 = 34#9 ∧
      w.extractLsb' 8 5 = d ∧
      w.extractLsb' 13 5 = s1 ∧
      w.extractLsb' 18 5 = s2 ∧
      w.extractLsb' 0 8 = 241#8 := by
    subst hw; simp only [HAppend.hAppend, bits_low, bits_high, bits_all, Nat.reduceAdd, Nat.reduceSub, Nat.reduceLeDiff, BitVec.reduceExtractLsb', and_self]
  obtain ⟨f23, f8, f13, f18, f0⟩ := hf
  refine codes_word _ (congrArg some hw.symm) rfl (fun hc => ?_) 241#8 f0 rfl (by decide)
  have n18_14_1024 : w.extractLsb' 18 14 ≠ 1024#14 := bits_ne 5 9 0 f23 (by decide) (by decide) (by decide) (by decide)
  have n18_14_1056 : w.extractLsb' 18 14 ≠ 1056#14 := bits_ne 5 9 0 f23 (by decide) (by decide) (by decide) (by decide)
  exact (decodeWord_low w 241#8 f0).trans (by
    show decodeMajors78 0 w = _
    simp only [decodeMajors78, f23, f8, f13, f18, n18_14_1024, n18_14_1056, BitVec.reduceEq, and_true, and_false, false_and, reduceIte])

theorem Codes.gath (d : GReg) (s1 : GReg) (s2 : GReg) : Codes.Statement (.gath d s1 s2) := by
  obtain ⟨w, hw⟩ : ∃ w, w = 0#9 ++ (s2 ++ (s1 ++ (d ++ 243#8))) := ⟨_, rfl⟩
  have hf : w.extractLsb' 23 9 = 0#9 ∧
      w.extractLsb' 8 5 = d ∧
      w.extractLsb' 13 5 = s1 ∧
      w.extractLsb' 18 5 = s2 ∧
      w.extractLsb' 0 8 = 243#8 := by
    subst hw; simp only [HAppend.hAppend, bits_low, bits_high, bits_all, Nat.reduceAdd, Nat.reduceSub, Nat.reduceLeDiff, BitVec.reduceExtractLsb', and_self]
  obtain ⟨f23, f8, f13, f18, f0⟩ := hf
  refine codes_word _ (congrArg some hw.symm) rfl (fun hc => ?_) 243#8 f0 rfl (by decide)
  exact (decodeWord_low w 243#8 f0).trans (by
    show decodeMajors78 1 w = _
    simp only [decodeMajors78, f23, f8, f13, f18, BitVec.reduceEq, and_true, and_false, false_and, reduceIte])

theorem Codes.scat (d : GReg) (s1 : GReg) (s2 : GReg) : Codes.Statement (.scat d s1 s2) := by
  obtain ⟨w, hw⟩ : ∃ w, w = 0#9 ++ (s2 ++ (s1 ++ (d ++ 245#8))) := ⟨_, rfl⟩
  have hf : w.extractLsb' 23 9 = 0#9 ∧
      w.extractLsb' 8 5 = d ∧
      w.extractLsb' 13 5 = s1 ∧
      w.extractLsb' 18 5 = s2 ∧
      w.extractLsb' 0 8 = 245#8 := by
    subst hw; simp only [HAppend.hAppend, bits_low, bits_high, bits_all, Nat.reduceAdd, Nat.reduceSub, Nat.reduceLeDiff, BitVec.reduceExtractLsb', and_self]
  obtain ⟨f23, f8, f13, f18, f0⟩ := hf
  refine codes_word _ (congrArg some hw.symm) rfl (fun hc => ?_) 245#8 f0 rfl (by decide)
  exact (decodeWord_low w 245#8 f0).trans (by
    show decodeMajors78 2 w = _
    simp only [decodeMajors78, f23, f8, f13, f18, BitVec.reduceEq, and_true, and_false, false_and, reduceIte])

theorem Codes.strmOff (d : GReg) (v : VReg) : Codes.Statement (.strmOff d v) := by
  obtain ⟨w, hw⟩ : ∃ w, w = 0#9 ++ (v ++ (0#5 ++ (d ++ 247#8))) := ⟨_, rfl⟩
  have hf : w.extractLsb' 13 5 = 0#5 ∧
      w.extractLsb' 23 9 = 0#9 ∧
      w.extractLsb' 8 5 = d ∧
      w.extractLsb' 18 5 = v ∧
      w.extractLsb' 0 8 = 247#8 := by
    subst hw; simp only [HAppend.hAppend, bits_low, bits_high, bits_all, Nat.reduceAdd, Nat.reduceSub, Nat.reduceLeDiff, BitVec.reduceExtractLsb', and_self]
  obtain ⟨f13, f23, f8, f18, f0⟩ := hf
  refine codes_word _ (congrArg some hw.symm) rfl (fun hc => ?_) 247#8 f0 rfl (by decide)
  exact (decodeWord_low w 247#8 f0).trans (by
    show decodeMajors78 3 w = _
    simp only [decodeMajors78, f13, f23, f8, f18, BitVec.reduceEq, and_true, and_false, false_and, reduceIte])

theorem Codes.strmIn (d : GReg) (v : VReg) (s1 : GReg) (f : BitVec 5) : Codes.Statement (.strmIn d v s1 f) := by
  obtain ⟨w, hw⟩ : ∃ w, w = 1#4 ++ (f ++ (v ++ (s1 ++ (d ++ 247#8)))) := ⟨_, rfl⟩
  have hf : w.extractLsb' 28 4 = 1#4 ∧
      w.extractLsb' 8 5 = d ∧
      w.extractLsb' 18 5 = v ∧
      w.extractLsb' 13 5 = s1 ∧
      w.extractLsb' 23 5 = f ∧
      w.extractLsb' 0 8 = 247#8 := by
    subst hw; simp only [HAppend.hAppend, bits_low, bits_high, bits_all, Nat.reduceAdd, Nat.reduceSub, Nat.reduceLeDiff, BitVec.reduceExtractLsb', and_self]
  obtain ⟨f28, f8, f18, f13, f23, f0⟩ := hf
  refine codes_word _ (congrArg some hw.symm) rfl (fun hc => ?_) 247#8 f0 rfl (by decide)
  have n23_9_0 : w.extractLsb' 23 9 ≠ 0#9 := bits_ne 5 4 0 f28 (by decide) (by decide) (by decide) (by decide)
  exact (decodeWord_low w 247#8 f0).trans (by
    show decodeMajors78 3 w = _
    simp only [decodeMajors78, f28, f8, f18, f13, f23, n23_9_0, BitVec.reduceEq, and_true, and_false, false_and, reduceIte])

theorem Codes.strmOut (d : GReg) (v : VReg) (s1 : GReg) (f : BitVec 5) : Codes.Statement (.strmOut d v s1 f) := by
  obtain ⟨w, hw⟩ : ∃ w, w = 2#4 ++ (f ++ (v ++ (s1 ++ (d ++ 247#8)))) := ⟨_, rfl⟩
  have hf : w.extractLsb' 28 4 = 2#4 ∧
      w.extractLsb' 8 5 = d ∧
      w.extractLsb' 18 5 = v ∧
      w.extractLsb' 13 5 = s1 ∧
      w.extractLsb' 23 5 = f ∧
      w.extractLsb' 0 8 = 247#8 := by
    subst hw; simp only [HAppend.hAppend, bits_low, bits_high, bits_all, Nat.reduceAdd, Nat.reduceSub, Nat.reduceLeDiff, BitVec.reduceExtractLsb', and_self]
  obtain ⟨f28, f8, f18, f13, f23, f0⟩ := hf
  refine codes_word _ (congrArg some hw.symm) rfl (fun hc => ?_) 247#8 f0 rfl (by decide)
  have n23_9_0 : w.extractLsb' 23 9 ≠ 0#9 := bits_ne 5 4 0 f28 (by decide) (by decide) (by decide) (by decide)
  exact (decodeWord_low w 247#8 f0).trans (by
    show decodeMajors78 3 w = _
    simp only [decodeMajors78, f28, f8, f18, f13, f23, n23_9_0, BitVec.reduceEq, and_true, and_false, false_and, reduceIte])

theorem Codes.strmInD (d : GReg) (v : VReg) (s1 : GReg) (f : BitVec 5) : Codes.Statement (.strmInD d v s1 f) := by
  obtain ⟨w, hw⟩ : ∃ w, w = 3#4 ++ (f ++ (v ++ (s1 ++ (d ++ 247#8)))) := ⟨_, rfl⟩
  have hf : w.extractLsb' 28 4 = 3#4 ∧
      w.extractLsb' 8 5 = d ∧
      w.extractLsb' 18 5 = v ∧
      w.extractLsb' 13 5 = s1 ∧
      w.extractLsb' 23 5 = f ∧
      w.extractLsb' 0 8 = 247#8 := by
    subst hw; simp only [HAppend.hAppend, bits_low, bits_high, bits_all, Nat.reduceAdd, Nat.reduceSub, Nat.reduceLeDiff, BitVec.reduceExtractLsb', and_self]
  obtain ⟨f28, f8, f18, f13, f23, f0⟩ := hf
  refine codes_word _ (congrArg some hw.symm) rfl (fun hc => ?_) 247#8 f0 rfl (by decide)
  have n23_9_0 : w.extractLsb' 23 9 ≠ 0#9 := bits_ne 5 4 0 f28 (by decide) (by decide) (by decide) (by decide)
  exact (decodeWord_low w 247#8 f0).trans (by
    show decodeMajors78 3 w = _
    simp only [decodeMajors78, f28, f8, f18, f13, f23, n23_9_0, BitVec.reduceEq, and_true, and_false, false_and, reduceIte])

theorem Codes.strmOutD (d : GReg) (v : VReg) (s1 : GReg) (f : BitVec 5) : Codes.Statement (.strmOutD d v s1 f) := by
  obtain ⟨w, hw⟩ : ∃ w, w = 4#4 ++ (f ++ (v ++ (s1 ++ (d ++ 247#8)))) := ⟨_, rfl⟩
  have hf : w.extractLsb' 28 4 = 4#4 ∧
      w.extractLsb' 8 5 = d ∧
      w.extractLsb' 18 5 = v ∧
      w.extractLsb' 13 5 = s1 ∧
      w.extractLsb' 23 5 = f ∧
      w.extractLsb' 0 8 = 247#8 := by
    subst hw; simp only [HAppend.hAppend, bits_low, bits_high, bits_all, Nat.reduceAdd, Nat.reduceSub, Nat.reduceLeDiff, BitVec.reduceExtractLsb', and_self]
  obtain ⟨f28, f8, f18, f13, f23, f0⟩ := hf
  refine codes_word _ (congrArg some hw.symm) rfl (fun hc => ?_) 247#8 f0 rfl (by decide)
  have n23_9_0 : w.extractLsb' 23 9 ≠ 0#9 := bits_ne 5 4 0 f28 (by decide) (by decide) (by decide) (by decide)
  exact (decodeWord_low w 247#8 f0).trans (by
    show decodeMajors78 3 w = _
    simp only [decodeMajors78, f28, f8, f18, f13, f23, n23_9_0, BitVec.reduceEq, and_true, and_false, false_and, reduceIte])

theorem Codes.trap (s1 : GReg) (n : BitVec 5) : Codes.Statement (.trap s1 n) := by
  obtain ⟨w, hw⟩ : ∃ w, w = 0#4 ++ (n ++ (0#5 ++ (s1 ++ (0#5 ++ 249#8)))) := ⟨_, rfl⟩
  have hf : w.extractLsb' 8 5 = 0#5 ∧
      w.extractLsb' 18 5 = 0#5 ∧
      w.extractLsb' 28 4 = 0#4 ∧
      w.extractLsb' 13 5 = s1 ∧
      w.extractLsb' 23 5 = n ∧
      w.extractLsb' 0 8 = 249#8 := by
    subst hw; simp only [HAppend.hAppend, bits_low, bits_high, bits_all, Nat.reduceAdd, Nat.reduceSub, Nat.reduceLeDiff, BitVec.reduceExtractLsb', and_self]
  obtain ⟨f8, f18, f28, f13, f23, f0⟩ := hf
  refine codes_word _ (congrArg some hw.symm) rfl (fun hc => ?_) 249#8 f0 rfl (by decide)
  exact (decodeWord_low w 249#8 f0).trans (by
    show decodeMajors78 4 w = _
    simp only [decodeMajors78, f8, f18, f28, f13, f23, BitVec.reduceEq, and_true, and_false, false_and, reduceIte])

theorem Codes.eret (s1 : GReg) : Codes.Statement (.eret s1) := by
  obtain ⟨w, hw⟩ : ∃ w, w = 1024#14 ++ (s1 ++ (0#5 ++ 249#8)) := ⟨_, rfl⟩
  have hf : w.extractLsb' 8 5 = 0#5 ∧
      w.extractLsb' 18 14 = 1024#14 ∧
      w.extractLsb' 13 5 = s1 ∧
      w.extractLsb' 0 8 = 249#8 := by
    subst hw; simp only [HAppend.hAppend, bits_low, bits_high, bits_all, Nat.reduceAdd, Nat.reduceSub, Nat.reduceLeDiff, BitVec.reduceExtractLsb', and_self]
  obtain ⟨f8, f18, f13, f0⟩ := hf
  refine codes_word _ (congrArg some hw.symm) rfl (fun hc => ?_) 249#8 f0 rfl (by decide)
  have n28_4_0 : w.extractLsb' 28 4 ≠ 0#4 := bits_ne 0 4 10 f18 (by decide) (by decide) (by decide) (by decide)
  exact (decodeWord_low w 249#8 f0).trans (by
    show decodeMajors78 4 w = _
    simp only [decodeMajors78, f8, f18, f13, n28_4_0, BitVec.reduceEq, and_true, and_false, false_and, reduceIte])

theorem Codes.eretEnd (s1 : GReg) : Codes.Statement (.eretEnd s1) := by
  obtain ⟨w, hw⟩ : ∃ w, w = 1056#14 ++ (s1 ++ (0#5 ++ 249#8)) := ⟨_, rfl⟩
  have hf : w.extractLsb' 8 5 = 0#5 ∧
      w.extractLsb' 18 14 = 1056#14 ∧
      w.extractLsb' 13 5 = s1 ∧
      w.extractLsb' 0 8 = 249#8 := by
    subst hw; simp only [HAppend.hAppend, bits_low, bits_high, bits_all, Nat.reduceAdd, Nat.reduceSub, Nat.reduceLeDiff, BitVec.reduceExtractLsb', and_self]
  obtain ⟨f8, f18, f13, f0⟩ := hf
  refine codes_word _ (congrArg some hw.symm) rfl (fun hc => ?_) 249#8 f0 rfl (by decide)
  have n28_4_0 : w.extractLsb' 28 4 ≠ 0#4 := bits_ne 0 4 10 f18 (by decide) (by decide) (by decide) (by decide)
  exact (decodeWord_low w 249#8 f0).trans (by
    show decodeMajors78 4 w = _
    simp only [decodeMajors78, f8, f18, f13, n28_4_0, BitVec.reduceEq, and_true, and_false, false_and, reduceIte])

theorem Codes.parkrd (d : GReg) (s1 : GReg) : Codes.Statement (.parkrd d s1) := by
  obtain ⟨w, hw⟩ : ∃ w, w = 2048#14 ++ (s1 ++ (d ++ 249#8)) := ⟨_, rfl⟩
  have hf : w.extractLsb' 18 14 = 2048#14 ∧
      w.extractLsb' 8 5 = d ∧
      w.extractLsb' 13 5 = s1 ∧
      w.extractLsb' 0 8 = 249#8 := by
    subst hw; simp only [HAppend.hAppend, bits_low, bits_high, bits_all, Nat.reduceAdd, Nat.reduceSub, Nat.reduceLeDiff, BitVec.reduceExtractLsb', and_self]
  obtain ⟨f18, f8, f13, f0⟩ := hf
  refine codes_word _ (congrArg some hw.symm) rfl (fun hc => ?_) 249#8 f0 rfl (by decide)
  have n28_4_0 : w.extractLsb' 28 4 ≠ 0#4 := bits_ne 0 4 10 f18 (by decide) (by decide) (by decide) (by decide)
  exact (decodeWord_low w 249#8 f0).trans (by
    show decodeMajors78 4 w = _
    simp only [decodeMajors78, f18, f8, f13, n28_4_0, BitVec.reduceEq, and_true, and_false, false_and, reduceIte])

theorem Codes.parkwr (s1 : GReg) (s2 : GReg) : Codes.Statement (.parkwr s1 s2) := by
  obtain ⟨w, hw⟩ : ∃ w, w = 96#9 ++ (s2 ++ (s1 ++ (0#5 ++ 249#8))) := ⟨_, rfl⟩
  have hf : w.extractLsb' 8 5 = 0#5 ∧
      w.extractLsb' 23 9 = 96#9 ∧
      w.extractLsb' 13 5 = s1 ∧
      w.extractLsb' 18 5 = s2 ∧
      w.extractLsb' 0 8 = 249#8 := by
    subst hw; simp only [HAppend.hAppend, bits_low, bits_high, bits_all, Nat.reduceAdd, Nat.reduceSub, Nat.reduceLeDiff, BitVec.reduceExtractLsb', and_self]
  obtain ⟨f8, f23, f13, f18, f0⟩ := hf
  refine codes_word _ (congrArg some hw.symm) rfl (fun hc => ?_) 249#8 f0 rfl (by decide)
  have n28_4_0 : w.extractLsb' 28 4 ≠ 0#4 := bits_ne 0 4 5 f23 (by decide) (by decide) (by decide) (by decide)
  have n18_14_1024 : w.extractLsb' 18 14 ≠ 1024#14 := bits_ne 5 9 0 f23 (by decide) (by decide) (by decide) (by decide)
  have n18_14_1056 : w.extractLsb' 18 14 ≠ 1056#14 := bits_ne 5 9 0 f23 (by decide) (by decide) (by decide) (by decide)
  have n18_14_2048 : w.extractLsb' 18 14 ≠ 2048#14 := bits_ne 5 9 0 f23 (by decide) (by decide) (by decide) (by decide)
  exact (decodeWord_low w 249#8 f0).trans (by
    show decodeMajors78 4 w = _
    simp only [decodeMajors78, f8, f23, f13, f18, n28_4_0, n18_14_1024, n18_14_1056, n18_14_2048, BitVec.reduceEq, and_true, and_false, false_and, reduceIte])

theorem Codes.erlog (d : GReg) (s1 : GReg) : Codes.Statement (.erlog d s1) := by
  obtain ⟨w, hw⟩ : ∃ w, w = 4096#14 ++ (s1 ++ (d ++ 249#8)) := ⟨_, rfl⟩
  have hf : w.extractLsb' 18 14 = 4096#14 ∧
      w.extractLsb' 8 5 = d ∧
      w.extractLsb' 13 5 = s1 ∧
      w.extractLsb' 0 8 = 249#8 := by
    subst hw; simp only [HAppend.hAppend, bits_low, bits_high, bits_all, Nat.reduceAdd, Nat.reduceSub, Nat.reduceLeDiff, BitVec.reduceExtractLsb', and_self]
  obtain ⟨f18, f8, f13, f0⟩ := hf
  refine codes_word _ (congrArg some hw.symm) rfl (fun hc => ?_) 249#8 f0 rfl (by decide)
  have n28_4_0 : w.extractLsb' 28 4 ≠ 0#4 := bits_ne 0 4 10 f18 (by decide) (by decide) (by decide) (by decide)
  have n23_9_96 : w.extractLsb' 23 9 ≠ 96#9 := bits_ne 0 9 5 f18 (by decide) (by decide) (by decide) (by decide)
  exact (decodeWord_low w 249#8 f0).trans (by
    show decodeMajors78 4 w = _
    simp only [decodeMajors78, f18, f8, f13, n28_4_0, n23_9_96, BitVec.reduceEq, and_true, and_false, false_and, reduceIte])

theorem Codes.erlogEsc (s1 : GReg) : Codes.Statement (.erlogEsc s1) := by
  obtain ⟨w, hw⟩ : ∃ w, w = 4128#14 ++ (s1 ++ (0#5 ++ 249#8)) := ⟨_, rfl⟩
  have hf : w.extractLsb' 8 5 = 0#5 ∧
      w.extractLsb' 18 14 = 4128#14 ∧
      w.extractLsb' 13 5 = s1 ∧
      w.extractLsb' 0 8 = 249#8 := by
    subst hw; simp only [HAppend.hAppend, bits_low, bits_high, bits_all, Nat.reduceAdd, Nat.reduceSub, Nat.reduceLeDiff, BitVec.reduceExtractLsb', and_self]
  obtain ⟨f8, f18, f13, f0⟩ := hf
  refine codes_word _ (congrArg some hw.symm) rfl (fun hc => ?_) 249#8 f0 rfl (by decide)
  have n28_4_0 : w.extractLsb' 28 4 ≠ 0#4 := bits_ne 0 4 10 f18 (by decide) (by decide) (by decide) (by decide)
  have n23_9_96 : w.extractLsb' 23 9 ≠ 96#9 := bits_ne 0 9 5 f18 (by decide) (by decide) (by decide) (by decide)
  exact (decodeWord_low w 249#8 f0).trans (by
    show decodeMajors78 4 w = _
    simp only [decodeMajors78, f8, f18, f13, n28_4_0, n23_9_96, BitVec.reduceEq, and_true, and_false, false_and, reduceIte])

theorem Codes.crd (d : GReg) (r : BitVec 13) : Codes.Statement (.crd d r) := by
  obtain ⟨w, hw⟩ : ∃ w, w = 0#1 ++ (r ++ (0#5 ++ (d ++ 251#8))) := ⟨_, rfl⟩
  have hf : w.extractLsb' 13 5 = 0#5 ∧
      w.extractLsb' 31 1 = 0#1 ∧
      w.extractLsb' 8 5 = d ∧
      w.extractLsb' 18 13 = r ∧
      w.extractLsb' 0 8 = 251#8 := by
    subst hw; simp only [HAppend.hAppend, bits_low, bits_high, bits_all, Nat.reduceAdd, Nat.reduceSub, Nat.reduceLeDiff, BitVec.reduceExtractLsb', and_self]
  obtain ⟨f13, f31, f8, f18, f0⟩ := hf
  refine codes_word _ (congrArg some hw.symm) rfl (fun hc => ?_) 251#8 f0 rfl (by decide)
  exact (decodeWord_low w 251#8 f0).trans (by
    show decodeMajors78 5 w = _
    simp only [decodeMajors78, f13, f31, f8, f18, BitVec.reduceEq, and_true, and_false, false_and, reduceIte])

theorem Codes.cwr (r : BitVec 13) (s1 : GReg) : Codes.Statement (.cwr r s1) := by
  obtain ⟨w, hw⟩ : ∃ w, w = 1#1 ++ (r ++ (s1 ++ (0#5 ++ 251#8))) := ⟨_, rfl⟩
  have hf : w.extractLsb' 8 5 = 0#5 ∧
      w.extractLsb' 31 1 = 1#1 ∧
      w.extractLsb' 18 13 = r ∧
      w.extractLsb' 13 5 = s1 ∧
      w.extractLsb' 0 8 = 251#8 := by
    subst hw; simp only [HAppend.hAppend, bits_low, bits_high, bits_all, Nat.reduceAdd, Nat.reduceSub, Nat.reduceLeDiff, BitVec.reduceExtractLsb', and_self]
  obtain ⟨f8, f31, f18, f13, f0⟩ := hf
  refine codes_word _ (congrArg some hw.symm) rfl (fun hc => ?_) 251#8 f0 rfl (by decide)
  have hd : (r != 0x0010#13 && r != 0x0012#13 && r.extractLsb' 5 8 != 2#8 && r != 0x0060#13 && r != 0x0061#13 && r.extractLsb' 5 8 != 5#8 && r != 0x00D0#13) = true := hc
  simp only [Bool.and_eq_true, bne_iff_ne, ne_eq] at hd
  obtain ⟨⟨⟨⟨⟨⟨c0, c1⟩, c2⟩, c3⟩, c4⟩, c5⟩, c6⟩ := hd
  exact (decodeWord_low w 251#8 f0).trans (by
    show decodeMajors78 5 w = _
    simp only [decodeMajors78, f8, f31, f18, f13, cwrForm, c0, c1, c2, c3, c4, c5, c6, BitVec.reduceEq, and_true, and_false, false_and, reduceIte])

theorem Codes.tlbiVa (s1 : GReg) (s2 : GReg) (scope : Scope) : Codes.Statement (.tlbiVa s1 s2 scope) := by
  obtain ⟨w, hw⟩ : ∃ w, w = 0#6 ++ (scope.toBits ++ (s2 ++ (s1 ++ (0#5 ++ 253#8)))) := ⟨_, rfl⟩
  have hf : w.extractLsb' 8 5 = 0#5 ∧
      w.extractLsb' 26 6 = 0#6 ∧
      w.extractLsb' 13 5 = s1 ∧
      w.extractLsb' 18 5 = s2 ∧
      w.extractLsb' 23 3 = scope.toBits ∧
      w.extractLsb' 0 8 = 253#8 := by
    subst hw; simp only [HAppend.hAppend, bits_low, bits_high, bits_all, Nat.reduceAdd, Nat.reduceSub, Nat.reduceLeDiff, BitVec.reduceExtractLsb', and_self]
  obtain ⟨f8, f26, f13, f18, f23, f0⟩ := hf
  refine codes_word _ (congrArg some hw.symm) rfl (fun hc => ?_) 253#8 f0 rfl (by decide)
  exact (decodeWord_low w 253#8 f0).trans (by
    show decodeMajors78 6 w = _
    simp only [decodeMajors78, f8, f26, f13, f18, f23, Scope.ofBits_toBits, BitVec.reduceEq, and_true, and_false, false_and, reduceIte])

theorem Codes.tlbiAsid (s2 : GReg) (scope : Scope) : Codes.Statement (.tlbiAsid s2 scope) := by
  obtain ⟨w, hw⟩ : ∃ w, w = 4#6 ++ (scope.toBits ++ (s2 ++ (0#10 ++ 253#8))) := ⟨_, rfl⟩
  have hf : w.extractLsb' 8 10 = 0#10 ∧
      w.extractLsb' 26 6 = 4#6 ∧
      w.extractLsb' 18 5 = s2 ∧
      w.extractLsb' 23 3 = scope.toBits ∧
      w.extractLsb' 0 8 = 253#8 := by
    subst hw; simp only [HAppend.hAppend, bits_low, bits_high, bits_all, Nat.reduceAdd, Nat.reduceSub, Nat.reduceLeDiff, BitVec.reduceExtractLsb', and_self]
  obtain ⟨f8, f26, f18, f23, f0⟩ := hf
  refine codes_word _ (congrArg some hw.symm) rfl (fun hc => ?_) 253#8 f0 rfl (by decide)
  exact (decodeWord_low w 253#8 f0).trans (by
    show decodeMajors78 6 w = _
    simp only [decodeMajors78, f8, f26, f18, f23, Scope.ofBits_toBits, BitVec.reduceEq, and_true, and_false, false_and, reduceIte])

theorem Codes.tlbiAll (scope : Scope) : Codes.Statement (.tlbiAll scope) := by
  obtain ⟨w, hw⟩ : ∃ w, w = 8#6 ++ (scope.toBits ++ (0#15 ++ 253#8)) := ⟨_, rfl⟩
  have hf : w.extractLsb' 8 15 = 0#15 ∧
      w.extractLsb' 26 6 = 8#6 ∧
      w.extractLsb' 23 3 = scope.toBits ∧
      w.extractLsb' 0 8 = 253#8 := by
    subst hw; simp only [HAppend.hAppend, bits_low, bits_high, bits_all, Nat.reduceAdd, Nat.reduceSub, Nat.reduceLeDiff, BitVec.reduceExtractLsb', and_self]
  obtain ⟨f8, f26, f23, f0⟩ := hf
  refine codes_word _ (congrArg some hw.symm) rfl (fun hc => ?_) 253#8 f0 rfl (by decide)
  exact (decodeWord_low w 253#8 f0).trans (by
    show decodeMajors78 6 w = _
    simp only [decodeMajors78, f8, f26, f23, Scope.ofBits_toBits, BitVec.reduceEq, and_true, and_false, false_and, reduceIte])

theorem Codes.cBrk (code : BitVec 10) : Codes.Statement (.cBrk code) := by
  obtain ⟨w, hw⟩ : ∃ w, w = code ++ 0#6 := ⟨_, rfl⟩
  have hf : w.extractLsb' 6 10 = code ∧
      w.extractLsb' 0 6 = 0#6 := by
    subst hw; simp only [HAppend.hAppend, bits_low, bits_high, bits_all, Nat.reduceAdd, Nat.reduceSub, Nat.reduceLeDiff, BitVec.reduceExtractLsb', and_self]
  obtain ⟨f6, f0⟩ := hf
  refine codes_half _ rfl (congrArg some hw.symm) (fun hc => ?_) 0#6 f0 rfl
  exact (decodeHalf_low w 0#6 f0).trans (by
    show decodeCompact00 0 w = _
    simp only [decodeCompact00, f6, BitVec.reduceEq, and_true, and_false, false_and, reduceIte])

theorem Codes.cNop : Codes.Statement .cNop := by
  obtain ⟨w, hw⟩ : ∃ w, w = 0#10 ++ 2#6 := ⟨_, rfl⟩
  have hf : w.extractLsb' 6 10 = 0#10 ∧
      w.extractLsb' 0 6 = 2#6 := by
    subst hw; simp only [HAppend.hAppend, bits_low, bits_high, bits_all, Nat.reduceAdd, Nat.reduceSub, Nat.reduceLeDiff, BitVec.reduceExtractLsb', and_self]
  obtain ⟨f6, f0⟩ := hf
  refine codes_half _ rfl (congrArg some hw.symm) (fun hc => ?_) 2#6 f0 rfl
  exact (decodeHalf_low w 2#6 f0).trans (by
    show decodeCompact00 1 w = _
    simp only [decodeCompact00, f6, BitVec.reduceEq, and_true, and_false, false_and, reduceIte])

theorem Codes.cMov (d : GReg) (src : GReg) : Codes.Statement (.cMov d src) := by
  obtain ⟨w, hw⟩ : ∃ w, w = d ++ (src ++ 4#6) := ⟨_, rfl⟩
  have hf : w.extractLsb' 11 5 = d ∧
      w.extractLsb' 6 5 = src ∧
      w.extractLsb' 0 6 = 4#6 := by
    subst hw; simp only [HAppend.hAppend, bits_low, bits_high, bits_all, Nat.reduceAdd, Nat.reduceSub, Nat.reduceLeDiff, BitVec.reduceExtractLsb', and_self]
  obtain ⟨f11, f6, f0⟩ := hf
  refine codes_half _ rfl (congrArg some hw.symm) (fun hc => ?_) 4#6 f0 rfl
  exact (decodeHalf_low w 4#6 f0).trans (by
    show decodeCompact00 2 w = _
    simp only [decodeCompact00, f11, f6, BitVec.reduceEq, and_true, and_false, false_and, reduceIte])

theorem Codes.cAdd (d : GReg) (src : GReg) : Codes.Statement (.cAdd d src) := by
  obtain ⟨w, hw⟩ : ∃ w, w = d ++ (src ++ 6#6) := ⟨_, rfl⟩
  have hf : w.extractLsb' 11 5 = d ∧
      w.extractLsb' 6 5 = src ∧
      w.extractLsb' 0 6 = 6#6 := by
    subst hw; simp only [HAppend.hAppend, bits_low, bits_high, bits_all, Nat.reduceAdd, Nat.reduceSub, Nat.reduceLeDiff, BitVec.reduceExtractLsb', and_self]
  obtain ⟨f11, f6, f0⟩ := hf
  refine codes_half _ rfl (congrArg some hw.symm) (fun hc => ?_) 6#6 f0 rfl
  exact (decodeHalf_low w 6#6 f0).trans (by
    show decodeCompact00 3 w = _
    simp only [decodeCompact00, f11, f6, BitVec.reduceEq, and_true, and_false, false_and, reduceIte])

theorem Codes.cSub (d : GReg) (src : GReg) : Codes.Statement (.cSub d src) := by
  obtain ⟨w, hw⟩ : ∃ w, w = d ++ (src ++ 8#6) := ⟨_, rfl⟩
  have hf : w.extractLsb' 11 5 = d ∧
      w.extractLsb' 6 5 = src ∧
      w.extractLsb' 0 6 = 8#6 := by
    subst hw; simp only [HAppend.hAppend, bits_low, bits_high, bits_all, Nat.reduceAdd, Nat.reduceSub, Nat.reduceLeDiff, BitVec.reduceExtractLsb', and_self]
  obtain ⟨f11, f6, f0⟩ := hf
  refine codes_half _ rfl (congrArg some hw.symm) (fun hc => ?_) 8#6 f0 rfl
  exact (decodeHalf_low w 8#6 f0).trans (by
    show decodeCompact00 4 w = _
    simp only [decodeCompact00, f11, f6, BitVec.reduceEq, and_true, and_false, false_and, reduceIte])

theorem Codes.cAnd (d : GReg) (src : GReg) : Codes.Statement (.cAnd d src) := by
  obtain ⟨w, hw⟩ : ∃ w, w = d ++ (src ++ 10#6) := ⟨_, rfl⟩
  have hf : w.extractLsb' 11 5 = d ∧
      w.extractLsb' 6 5 = src ∧
      w.extractLsb' 0 6 = 10#6 := by
    subst hw; simp only [HAppend.hAppend, bits_low, bits_high, bits_all, Nat.reduceAdd, Nat.reduceSub, Nat.reduceLeDiff, BitVec.reduceExtractLsb', and_self]
  obtain ⟨f11, f6, f0⟩ := hf
  refine codes_half _ rfl (congrArg some hw.symm) (fun hc => ?_) 10#6 f0 rfl
  exact (decodeHalf_low w 10#6 f0).trans (by
    show decodeCompact00 5 w = _
    simp only [decodeCompact00, f11, f6, BitVec.reduceEq, and_true, and_false, false_and, reduceIte])

theorem Codes.cOr (d : GReg) (src : GReg) : Codes.Statement (.cOr d src) := by
  obtain ⟨w, hw⟩ : ∃ w, w = d ++ (src ++ 12#6) := ⟨_, rfl⟩
  have hf : w.extractLsb' 11 5 = d ∧
      w.extractLsb' 6 5 = src ∧
      w.extractLsb' 0 6 = 12#6 := by
    subst hw; simp only [HAppend.hAppend, bits_low, bits_high, bits_all, Nat.reduceAdd, Nat.reduceSub, Nat.reduceLeDiff, BitVec.reduceExtractLsb', and_self]
  obtain ⟨f11, f6, f0⟩ := hf
  refine codes_half _ rfl (congrArg some hw.symm) (fun hc => ?_) 12#6 f0 rfl
  exact (decodeHalf_low w 12#6 f0).trans (by
    show decodeCompact00 6 w = _
    simp only [decodeCompact00, f11, f6, BitVec.reduceEq, and_true, and_false, false_and, reduceIte])

theorem Codes.cXor (d : GReg) (src : GReg) : Codes.Statement (.cXor d src) := by
  obtain ⟨w, hw⟩ : ∃ w, w = d ++ (src ++ 14#6) := ⟨_, rfl⟩
  have hf : w.extractLsb' 11 5 = d ∧
      w.extractLsb' 6 5 = src ∧
      w.extractLsb' 0 6 = 14#6 := by
    subst hw; simp only [HAppend.hAppend, bits_low, bits_high, bits_all, Nat.reduceAdd, Nat.reduceSub, Nat.reduceLeDiff, BitVec.reduceExtractLsb', and_self]
  obtain ⟨f11, f6, f0⟩ := hf
  refine codes_half _ rfl (congrArg some hw.symm) (fun hc => ?_) 14#6 f0 rfl
  exact (decodeHalf_low w 14#6 f0).trans (by
    show decodeCompact00 7 w = _
    simp only [decodeCompact00, f11, f6, BitVec.reduceEq, and_true, and_false, false_and, reduceIte])

theorem Codes.cAddi (d : GReg) (imm : BitVec 5) : Codes.Statement (.cAddi d imm) := by
  obtain ⟨w, hw⟩ : ∃ w, w = d ++ (imm ++ 16#6) := ⟨_, rfl⟩
  have hf : w.extractLsb' 11 5 = d ∧
      w.extractLsb' 6 5 = imm ∧
      w.extractLsb' 0 6 = 16#6 := by
    subst hw; simp only [HAppend.hAppend, bits_low, bits_high, bits_all, Nat.reduceAdd, Nat.reduceSub, Nat.reduceLeDiff, BitVec.reduceExtractLsb', and_self]
  obtain ⟨f11, f6, f0⟩ := hf
  refine codes_half _ rfl (congrArg some hw.symm) (fun hc => ?_) 16#6 f0 rfl
  exact (decodeHalf_low w 16#6 f0).trans (by
    show decodeCompact08 0 w = _
    simp only [decodeCompact08, f11, f6, BitVec.reduceEq, and_true, and_false, false_and, reduceIte])

theorem Codes.cLi (d : GReg) (imm : BitVec 5) : Codes.Statement (.cLi d imm) := by
  obtain ⟨w, hw⟩ : ∃ w, w = d ++ (imm ++ 18#6) := ⟨_, rfl⟩
  have hf : w.extractLsb' 11 5 = d ∧
      w.extractLsb' 6 5 = imm ∧
      w.extractLsb' 0 6 = 18#6 := by
    subst hw; simp only [HAppend.hAppend, bits_low, bits_high, bits_all, Nat.reduceAdd, Nat.reduceSub, Nat.reduceLeDiff, BitVec.reduceExtractLsb', and_self]
  obtain ⟨f11, f6, f0⟩ := hf
  refine codes_half _ rfl (congrArg some hw.symm) (fun hc => ?_) 18#6 f0 rfl
  exact (decodeHalf_low w 18#6 f0).trans (by
    show decodeCompact08 1 w = _
    simp only [decodeCompact08, f11, f6, BitVec.reduceEq, and_true, and_false, false_and, reduceIte])

theorem Codes.cShiShl (d : GReg) (imm : BitVec 5) : Codes.Statement (.cShiShl d imm) := by
  obtain ⟨w, hw⟩ : ∃ w, w = d ++ (imm ++ 20#6) := ⟨_, rfl⟩
  have hf : w.extractLsb' 11 5 = d ∧
      w.extractLsb' 6 5 = imm ∧
      w.extractLsb' 0 6 = 20#6 := by
    subst hw; simp only [HAppend.hAppend, bits_low, bits_high, bits_all, Nat.reduceAdd, Nat.reduceSub, Nat.reduceLeDiff, BitVec.reduceExtractLsb', and_self]
  obtain ⟨f11, f6, f0⟩ := hf
  refine codes_half _ rfl (congrArg some hw.symm) (fun hc => ?_) 20#6 f0 rfl
  exact (decodeHalf_low w 20#6 f0).trans (by
    show decodeCompact08 2 w = _
    simp only [decodeCompact08, f11, f6, BitVec.reduceEq, and_true, and_false, false_and, reduceIte])

theorem Codes.cShiShr (d : GReg) (imm : BitVec 5) : Codes.Statement (.cShiShr d imm) := by
  obtain ⟨w, hw⟩ : ∃ w, w = d ++ (imm ++ 22#6) := ⟨_, rfl⟩
  have hf : w.extractLsb' 11 5 = d ∧
      w.extractLsb' 6 5 = imm ∧
      w.extractLsb' 0 6 = 22#6 := by
    subst hw; simp only [HAppend.hAppend, bits_low, bits_high, bits_all, Nat.reduceAdd, Nat.reduceSub, Nat.reduceLeDiff, BitVec.reduceExtractLsb', and_self]
  obtain ⟨f11, f6, f0⟩ := hf
  refine codes_half _ rfl (congrArg some hw.symm) (fun hc => ?_) 22#6 f0 rfl
  exact (decodeHalf_low w 22#6 f0).trans (by
    show decodeCompact08 3 w = _
    simp only [decodeCompact08, f11, f6, BitVec.reduceEq, and_true, and_false, false_and, reduceIte])

theorem Codes.cShiSar (d : GReg) (imm : BitVec 5) : Codes.Statement (.cShiSar d imm) := by
  obtain ⟨w, hw⟩ : ∃ w, w = d ++ (imm ++ 24#6) := ⟨_, rfl⟩
  have hf : w.extractLsb' 11 5 = d ∧
      w.extractLsb' 6 5 = imm ∧
      w.extractLsb' 0 6 = 24#6 := by
    subst hw; simp only [HAppend.hAppend, bits_low, bits_high, bits_all, Nat.reduceAdd, Nat.reduceSub, Nat.reduceLeDiff, BitVec.reduceExtractLsb', and_self]
  obtain ⟨f11, f6, f0⟩ := hf
  refine codes_half _ rfl (congrArg some hw.symm) (fun hc => ?_) 24#6 f0 rfl
  exact (decodeHalf_low w 24#6 f0).trans (by
    show decodeCompact08 4 w = _
    simp only [decodeCompact08, f11, f6, BitVec.reduceEq, and_true, and_false, false_and, reduceIte])

theorem Codes.cLd (d : GReg) (b : GReg) (off : BitVec 4) : Codes.Statement (.cLd d b off) := by
  obtain ⟨w, hw⟩ : ∃ w, w = (d.extractLsb' 0 3) ++ ((b.extractLsb' 0 3) ++ (off ++ 26#6)) := ⟨_, rfl⟩
  have hf : w.extractLsb' 13 3 = d.extractLsb' 0 3 ∧
      w.extractLsb' 10 3 = b.extractLsb' 0 3 ∧
      w.extractLsb' 6 4 = off ∧
      w.extractLsb' 0 6 = 26#6 := by
    subst hw; simp only [HAppend.hAppend, bits_low, bits_high, bits_all, Nat.reduceAdd, Nat.reduceSub, Nat.reduceLeDiff, BitVec.reduceExtractLsb', and_self]
  obtain ⟨f13, f10, f6, f0⟩ := hf
  refine codes_half _ rfl (congrArg some hw.symm) (fun hc => ?_) 26#6 f0 rfl
  have hd : ((d.extractLsb' 3 2 == 1#2) && (b.extractLsb' 3 2 == 1#2)) = true := hc
  obtain ⟨c0, c1⟩ := low_regs hd
  exact (decodeHalf_low w 26#6 f0).trans (by
    show decodeCompact08 5 w = _
    simp only [decodeCompact08, f13, f10, f6, c0, c1, BitVec.reduceEq, and_true, and_false, false_and, reduceIte])

theorem Codes.cSt (d : GReg) (b : GReg) (off : BitVec 4) : Codes.Statement (.cSt d b off) := by
  obtain ⟨w, hw⟩ : ∃ w, w = (d.extractLsb' 0 3) ++ ((b.extractLsb' 0 3) ++ (off ++ 28#6)) := ⟨_, rfl⟩
  have hf : w.extractLsb' 13 3 = d.extractLsb' 0 3 ∧
      w.extractLsb' 10 3 = b.extractLsb' 0 3 ∧
      w.extractLsb' 6 4 = off ∧
      w.extractLsb' 0 6 = 28#6 := by
    subst hw; simp only [HAppend.hAppend, bits_low, bits_high, bits_all, Nat.reduceAdd, Nat.reduceSub, Nat.reduceLeDiff, BitVec.reduceExtractLsb', and_self]
  obtain ⟨f13, f10, f6, f0⟩ := hf
  refine codes_half _ rfl (congrArg some hw.symm) (fun hc => ?_) 28#6 f0 rfl
  have hd : ((d.extractLsb' 3 2 == 1#2) && (b.extractLsb' 3 2 == 1#2)) = true := hc
  obtain ⟨c0, c1⟩ := low_regs hd
  exact (decodeHalf_low w 28#6 f0).trans (by
    show decodeCompact08 6 w = _
    simp only [decodeCompact08, f13, f10, f6, c0, c1, BitVec.reduceEq, and_true, and_false, false_and, reduceIte])

theorem Codes.cLdg (d : GReg) (b : GReg) (off : BitVec 4) : Codes.Statement (.cLdg d b off) := by
  obtain ⟨w, hw⟩ : ∃ w, w = (d.extractLsb' 0 3) ++ ((b.extractLsb' 0 3) ++ (off ++ 30#6)) := ⟨_, rfl⟩
  have hf : w.extractLsb' 13 3 = d.extractLsb' 0 3 ∧
      w.extractLsb' 10 3 = b.extractLsb' 0 3 ∧
      w.extractLsb' 6 4 = off ∧
      w.extractLsb' 0 6 = 30#6 := by
    subst hw; simp only [HAppend.hAppend, bits_low, bits_high, bits_all, Nat.reduceAdd, Nat.reduceSub, Nat.reduceLeDiff, BitVec.reduceExtractLsb', and_self]
  obtain ⟨f13, f10, f6, f0⟩ := hf
  refine codes_half _ rfl (congrArg some hw.symm) (fun hc => ?_) 30#6 f0 rfl
  have hd : ((d.extractLsb' 3 2 == 1#2) && (b.extractLsb' 3 2 == 1#2)) = true := hc
  obtain ⟨c0, c1⟩ := low_regs hd
  exact (decodeHalf_low w 30#6 f0).trans (by
    show decodeCompact08 7 w = _
    simp only [decodeCompact08, f13, f10, f6, c0, c1, BitVec.reduceEq, and_true, and_false, false_and, reduceIte])

theorem Codes.cStg (d : GReg) (b : GReg) (off : BitVec 4) : Codes.Statement (.cStg d b off) := by
  obtain ⟨w, hw⟩ : ∃ w, w = (d.extractLsb' 0 3) ++ ((b.extractLsb' 0 3) ++ (off ++ 32#6)) := ⟨_, rfl⟩
  have hf : w.extractLsb' 13 3 = d.extractLsb' 0 3 ∧
      w.extractLsb' 10 3 = b.extractLsb' 0 3 ∧
      w.extractLsb' 6 4 = off ∧
      w.extractLsb' 0 6 = 32#6 := by
    subst hw; simp only [HAppend.hAppend, bits_low, bits_high, bits_all, Nat.reduceAdd, Nat.reduceSub, Nat.reduceLeDiff, BitVec.reduceExtractLsb', and_self]
  obtain ⟨f13, f10, f6, f0⟩ := hf
  refine codes_half _ rfl (congrArg some hw.symm) (fun hc => ?_) 32#6 f0 rfl
  have hd : ((d.extractLsb' 3 2 == 1#2) && (b.extractLsb' 3 2 == 1#2)) = true := hc
  obtain ⟨c0, c1⟩ := low_regs hd
  exact (decodeHalf_low w 32#6 f0).trans (by
    show decodeCompact16 0 w = _
    simp only [decodeCompact16, f13, f10, f6, c0, c1, BitVec.reduceEq, and_true, and_false, false_and, reduceIte])

theorem Codes.cBr (off : BitVec 10) : Codes.Statement (.cBr off) := by
  obtain ⟨w, hw⟩ : ∃ w, w = off ++ 34#6 := ⟨_, rfl⟩
  have hf : w.extractLsb' 6 10 = off ∧
      w.extractLsb' 0 6 = 34#6 := by
    subst hw; simp only [HAppend.hAppend, bits_low, bits_high, bits_all, Nat.reduceAdd, Nat.reduceSub, Nat.reduceLeDiff, BitVec.reduceExtractLsb', and_self]
  obtain ⟨f6, f0⟩ := hf
  refine codes_half _ rfl (congrArg some hw.symm) (fun hc => ?_) 34#6 f0 rfl
  exact (decodeHalf_low w 34#6 f0).trans (by
    show decodeCompact16 1 w = _
    simp only [decodeCompact16, f6, BitVec.reduceEq, and_true, and_false, false_and, reduceIte])

theorem Codes.cBccEq (x : GReg) (off : BitVec 7) : Codes.Statement (.cBccEq x off) := by
  obtain ⟨w, hw⟩ : ∃ w, w = (x.extractLsb' 0 3) ++ (off ++ 36#6) := ⟨_, rfl⟩
  have hf : w.extractLsb' 13 3 = x.extractLsb' 0 3 ∧
      w.extractLsb' 6 7 = off ∧
      w.extractLsb' 0 6 = 36#6 := by
    subst hw; simp only [HAppend.hAppend, bits_low, bits_high, bits_all, Nat.reduceAdd, Nat.reduceSub, Nat.reduceLeDiff, BitVec.reduceExtractLsb', and_self]
  obtain ⟨f13, f6, f0⟩ := hf
  refine codes_half _ rfl (congrArg some hw.symm) (fun hc => ?_) 36#6 f0 rfl
  have c0 := low_reg (eq_of_beq (show (x.extractLsb' 3 2 == 1#2) = true from hc))
  exact (decodeHalf_low w 36#6 f0).trans (by
    show decodeCompact16 2 w = _
    simp only [decodeCompact16, f13, f6, c0, BitVec.reduceEq, and_true, and_false, false_and, reduceIte])

theorem Codes.cBccNe (x : GReg) (off : BitVec 7) : Codes.Statement (.cBccNe x off) := by
  obtain ⟨w, hw⟩ : ∃ w, w = (x.extractLsb' 0 3) ++ (off ++ 38#6) := ⟨_, rfl⟩
  have hf : w.extractLsb' 13 3 = x.extractLsb' 0 3 ∧
      w.extractLsb' 6 7 = off ∧
      w.extractLsb' 0 6 = 38#6 := by
    subst hw; simp only [HAppend.hAppend, bits_low, bits_high, bits_all, Nat.reduceAdd, Nat.reduceSub, Nat.reduceLeDiff, BitVec.reduceExtractLsb', and_self]
  obtain ⟨f13, f6, f0⟩ := hf
  refine codes_half _ rfl (congrArg some hw.symm) (fun hc => ?_) 38#6 f0 rfl
  have c0 := low_reg (eq_of_beq (show (x.extractLsb' 3 2 == 1#2) = true from hc))
  exact (decodeHalf_low w 38#6 f0).trans (by
    show decodeCompact16 3 w = _
    simp only [decodeCompact16, f13, f6, c0, BitVec.reduceEq, and_true, and_false, false_and, reduceIte])

theorem Codes.cRet : Codes.Statement .cRet := by
  obtain ⟨w, hw⟩ : ∃ w, w = 0#10 ++ 40#6 := ⟨_, rfl⟩
  have hf : w.extractLsb' 6 10 = 0#10 ∧
      w.extractLsb' 0 6 = 40#6 := by
    subst hw; simp only [HAppend.hAppend, bits_low, bits_high, bits_all, Nat.reduceAdd, Nat.reduceSub, Nat.reduceLeDiff, BitVec.reduceExtractLsb', and_self]
  obtain ⟨f6, f0⟩ := hf
  refine codes_half _ rfl (congrArg some hw.symm) (fun hc => ?_) 40#6 f0 rfl
  exact (decodeHalf_low w 40#6 f0).trans (by
    show decodeCompact16 4 w = _
    simp only [decodeCompact16, f6, BitVec.reduceEq, and_true, and_false, false_and, reduceIte])

theorem Codes.cJr (src : GReg) : Codes.Statement (.cJr src) := by
  obtain ⟨w, hw⟩ : ∃ w, w = 0#5 ++ (src ++ 42#6) := ⟨_, rfl⟩
  have hf : w.extractLsb' 11 5 = 0#5 ∧
      w.extractLsb' 6 5 = src ∧
      w.extractLsb' 0 6 = 42#6 := by
    subst hw; simp only [HAppend.hAppend, bits_low, bits_high, bits_all, Nat.reduceAdd, Nat.reduceSub, Nat.reduceLeDiff, BitVec.reduceExtractLsb', and_self]
  obtain ⟨f11, f6, f0⟩ := hf
  refine codes_half _ rfl (congrArg some hw.symm) (fun hc => ?_) 42#6 f0 rfl
  exact (decodeHalf_low w 42#6 f0).trans (by
    show decodeCompact16 5 w = _
    simp only [decodeCompact16, f11, f6, BitVec.reduceEq, and_true, and_false, false_and, reduceIte])

theorem Codes.cCallr (src : GReg) : Codes.Statement (.cCallr src) := by
  obtain ⟨w, hw⟩ : ∃ w, w = 0#5 ++ (src ++ 44#6) := ⟨_, rfl⟩
  have hf : w.extractLsb' 11 5 = 0#5 ∧
      w.extractLsb' 6 5 = src ∧
      w.extractLsb' 0 6 = 44#6 := by
    subst hw; simp only [HAppend.hAppend, bits_low, bits_high, bits_all, Nat.reduceAdd, Nat.reduceSub, Nat.reduceLeDiff, BitVec.reduceExtractLsb', and_self]
  obtain ⟨f11, f6, f0⟩ := hf
  refine codes_half _ rfl (congrArg some hw.symm) (fun hc => ?_) 44#6 f0 rfl
  exact (decodeHalf_low w 44#6 f0).trans (by
    show decodeCompact16 6 w = _
    simp only [decodeCompact16, f11, f6, BitVec.reduceEq, and_true, and_false, false_and, reduceIte])

theorem Codes.cYield : Codes.Statement .cYield := by
  obtain ⟨w, hw⟩ : ∃ w, w = 0#10 ++ 46#6 := ⟨_, rfl⟩
  have hf : w.extractLsb' 6 10 = 0#10 ∧
      w.extractLsb' 0 6 = 46#6 := by
    subst hw; simp only [HAppend.hAppend, bits_low, bits_high, bits_all, Nat.reduceAdd, Nat.reduceSub, Nat.reduceLeDiff, BitVec.reduceExtractLsb', and_self]
  obtain ⟨f6, f0⟩ := hf
  refine codes_half _ rfl (congrArg some hw.symm) (fun hc => ?_) 46#6 f0 rfl
  exact (decodeHalf_low w 46#6 f0).trans (by
    show decodeCompact16 7 w = _
    simp only [decodeCompact16, f6, BitVec.reduceEq, and_true, and_false, false_and, reduceIte])

theorem Codes.cEnd : Codes.Statement .cEnd := by
  obtain ⟨w, hw⟩ : ∃ w, w = 0#10 ++ 48#6 := ⟨_, rfl⟩
  have hf : w.extractLsb' 6 10 = 0#10 ∧
      w.extractLsb' 0 6 = 48#6 := by
    subst hw; simp only [HAppend.hAppend, bits_low, bits_high, bits_all, Nat.reduceAdd, Nat.reduceSub, Nat.reduceLeDiff, BitVec.reduceExtractLsb', and_self]
  obtain ⟨f6, f0⟩ := hf
  refine codes_half _ rfl (congrArg some hw.symm) (fun hc => ?_) 48#6 f0 rfl
  exact (decodeHalf_low w 48#6 f0).trans (by
    show decodeCompact24 0 w = _
    simp only [decodeCompact24, f6, BitVec.reduceEq, and_true, and_false, false_and, reduceIte])

theorem Codes.cTcut : Codes.Statement .cTcut := by
  obtain ⟨w, hw⟩ : ∃ w, w = 0#10 ++ 50#6 := ⟨_, rfl⟩
  have hf : w.extractLsb' 6 10 = 0#10 ∧
      w.extractLsb' 0 6 = 50#6 := by
    subst hw; simp only [HAppend.hAppend, bits_low, bits_high, bits_all, Nat.reduceAdd, Nat.reduceSub, Nat.reduceLeDiff, BitVec.reduceExtractLsb', and_self]
  obtain ⟨f6, f0⟩ := hf
  refine codes_half _ rfl (congrArg some hw.symm) (fun hc => ?_) 50#6 f0 rfl
  exact (decodeHalf_low w 50#6 f0).trans (by
    show decodeCompact24 1 w = _
    simp only [decodeCompact24, f6, BitVec.reduceEq, and_true, and_false, false_and, reduceIte])

theorem Codes.cVaddF32 (d : VReg) (src : VReg) : Codes.Statement (.cVaddF32 d src) := by
  obtain ⟨w, hw⟩ : ∃ w, w = d ++ (src ++ 52#6) := ⟨_, rfl⟩
  have hf : w.extractLsb' 11 5 = d ∧
      w.extractLsb' 6 5 = src ∧
      w.extractLsb' 0 6 = 52#6 := by
    subst hw; simp only [HAppend.hAppend, bits_low, bits_high, bits_all, Nat.reduceAdd, Nat.reduceSub, Nat.reduceLeDiff, BitVec.reduceExtractLsb', and_self]
  obtain ⟨f11, f6, f0⟩ := hf
  refine codes_half _ rfl (congrArg some hw.symm) (fun hc => ?_) 52#6 f0 rfl
  exact (decodeHalf_low w 52#6 f0).trans (by
    show decodeCompact24 2 w = _
    simp only [decodeCompact24, f11, f6, BitVec.reduceEq, and_true, and_false, false_and, reduceIte])

theorem Codes.cVmulF32 (d : VReg) (src : VReg) : Codes.Statement (.cVmulF32 d src) := by
  obtain ⟨w, hw⟩ : ∃ w, w = d ++ (src ++ 54#6) := ⟨_, rfl⟩
  have hf : w.extractLsb' 11 5 = d ∧
      w.extractLsb' 6 5 = src ∧
      w.extractLsb' 0 6 = 54#6 := by
    subst hw; simp only [HAppend.hAppend, bits_low, bits_high, bits_all, Nat.reduceAdd, Nat.reduceSub, Nat.reduceLeDiff, BitVec.reduceExtractLsb', and_self]
  obtain ⟨f11, f6, f0⟩ := hf
  refine codes_half _ rfl (congrArg some hw.symm) (fun hc => ?_) 54#6 f0 rfl
  exact (decodeHalf_low w 54#6 f0).trans (by
    show decodeCompact24 3 w = _
    simp only [decodeCompact24, f11, f6, BitVec.reduceEq, and_true, and_false, false_and, reduceIte])

theorem Codes.cVmov (d : VReg) (src : VReg) : Codes.Statement (.cVmov d src) := by
  obtain ⟨w, hw⟩ : ∃ w, w = d ++ (src ++ 56#6) := ⟨_, rfl⟩
  have hf : w.extractLsb' 11 5 = d ∧
      w.extractLsb' 6 5 = src ∧
      w.extractLsb' 0 6 = 56#6 := by
    subst hw; simp only [HAppend.hAppend, bits_low, bits_high, bits_all, Nat.reduceAdd, Nat.reduceSub, Nat.reduceLeDiff, BitVec.reduceExtractLsb', and_self]
  obtain ⟨f11, f6, f0⟩ := hf
  refine codes_half _ rfl (congrArg some hw.symm) (fun hc => ?_) 56#6 f0 rfl
  exact (decodeHalf_low w 56#6 f0).trans (by
    show decodeCompact24 4 w = _
    simp only [decodeCompact24, f11, f6, BitVec.reduceEq, and_true, and_false, false_and, reduceIte])

theorem Codes.cVld (d : VReg) (src : GReg) : Codes.Statement (.cVld d src) := by
  obtain ⟨w, hw⟩ : ∃ w, w = d ++ (src ++ 58#6) := ⟨_, rfl⟩
  have hf : w.extractLsb' 11 5 = d ∧
      w.extractLsb' 6 5 = src ∧
      w.extractLsb' 0 6 = 58#6 := by
    subst hw; simp only [HAppend.hAppend, bits_low, bits_high, bits_all, Nat.reduceAdd, Nat.reduceSub, Nat.reduceLeDiff, BitVec.reduceExtractLsb', and_self]
  obtain ⟨f11, f6, f0⟩ := hf
  refine codes_half _ rfl (congrArg some hw.symm) (fun hc => ?_) 58#6 f0 rfl
  exact (decodeHalf_low w 58#6 f0).trans (by
    show decodeCompact24 5 w = _
    simp only [decodeCompact24, f11, f6, BitVec.reduceEq, and_true, and_false, false_and, reduceIte])

theorem Codes.cVst (d : VReg) (src : GReg) : Codes.Statement (.cVst d src) := by
  obtain ⟨w, hw⟩ : ∃ w, w = d ++ (src ++ 60#6) := ⟨_, rfl⟩
  have hf : w.extractLsb' 11 5 = d ∧
      w.extractLsb' 6 5 = src ∧
      w.extractLsb' 0 6 = 60#6 := by
    subst hw; simp only [HAppend.hAppend, bits_low, bits_high, bits_all, Nat.reduceAdd, Nat.reduceSub, Nat.reduceLeDiff, BitVec.reduceExtractLsb', and_self]
  obtain ⟨f11, f6, f0⟩ := hf
  refine codes_half _ rfl (congrArg some hw.symm) (fun hc => ?_) 60#6 f0 rfl
  exact (decodeHalf_low w 60#6 f0).trans (by
    show decodeCompact24 6 w = _
    simp only [decodeCompact24, f11, f6, BitVec.reduceEq, and_true, and_false, false_and, reduceIte])

theorem Codes.cBpAny (p : PReg) (off : BitVec 7) : Codes.Statement (.cBpAny p off) := by
  obtain ⟨w, hw⟩ : ∃ w, w = p ++ (off ++ 62#6) := ⟨_, rfl⟩
  have hf : w.extractLsb' 13 3 = p ∧
      w.extractLsb' 6 7 = off ∧
      w.extractLsb' 0 6 = 62#6 := by
    subst hw; simp only [HAppend.hAppend, bits_low, bits_high, bits_all, Nat.reduceAdd, Nat.reduceSub, Nat.reduceLeDiff, BitVec.reduceExtractLsb', and_self]
  obtain ⟨f13, f6, f0⟩ := hf
  refine codes_half _ rfl (congrArg some hw.symm) (fun hc => ?_) 62#6 f0 rfl
  exact (decodeHalf_low w 62#6 f0).trans (by
    show decodeCompact24 7 w = _
    simp only [decodeCompact24, f13, f6, BitVec.reduceEq, and_true, and_false, false_and, reduceIte])

theorem Codes.cwrCmode (s1 : GReg) : Codes.Statement (.cwrCmode s1) := by
  obtain ⟨w, hw⟩ : ∃ w, w = 1#1 ++ (0x0010#13 ++ (s1 ++ (0#5 ++ 0xFB#8))) := ⟨_, rfl⟩
  have hf : w.extractLsb' 8 5 = 0#5 ∧
      w.extractLsb' 31 1 = 1#1 ∧
      w.extractLsb' 18 13 = 0x0010#13 ∧
      w.extractLsb' 13 5 = s1 ∧
      w.extractLsb' 0 8 = 251#8 := by
    subst hw; simp only [HAppend.hAppend, bits_low, bits_high, bits_all, Nat.reduceAdd, Nat.reduceSub, Nat.reduceLeDiff, BitVec.reduceExtractLsb', and_self]
  obtain ⟨f8, f31, f18, f13, f0⟩ := hf
  refine codes_word _ (congrArg some hw.symm) rfl (fun hc => ?_) 251#8 f0 rfl (by decide)
  exact (decodeWord_low w 251#8 f0).trans (by
    show decodeMajors78 5 w = _
    simp only [decodeMajors78, f8, f31, f18, f13, cwrForm, BitVec.reduceExtractLsb', BitVec.reduceEq, and_true, and_false, false_and, reduceIte])

theorem Codes.cwrWsp (s1 : GReg) : Codes.Statement (.cwrWsp s1) := by
  obtain ⟨w, hw⟩ : ∃ w, w = 1#1 ++ (0x0012#13 ++ (s1 ++ (0#5 ++ 0xFB#8))) := ⟨_, rfl⟩
  have hf : w.extractLsb' 8 5 = 0#5 ∧
      w.extractLsb' 31 1 = 1#1 ∧
      w.extractLsb' 18 13 = 0x0012#13 ∧
      w.extractLsb' 13 5 = s1 ∧
      w.extractLsb' 0 8 = 251#8 := by
    subst hw; simp only [HAppend.hAppend, bits_low, bits_high, bits_all, Nat.reduceAdd, Nat.reduceSub, Nat.reduceLeDiff, BitVec.reduceExtractLsb', and_self]
  obtain ⟨f8, f31, f18, f13, f0⟩ := hf
  refine codes_word _ (congrArg some hw.symm) rfl (fun hc => ?_) 251#8 f0 rfl (by decide)
  exact (decodeWord_low w 251#8 f0).trans (by
    show decodeMajors78 5 w = _
    simp only [decodeMajors78, f8, f31, f18, f13, cwrForm, BitVec.reduceExtractLsb', BitVec.reduceEq, and_true, and_false, false_and, reduceIte])

theorem Codes.cwrLayout (n : BitVec 5) (s1 : GReg) : Codes.Statement (.cwrLayout n s1) := by
  obtain ⟨w, hw⟩ : ∃ w, w = 1#1 ++ ((2#8 ++ n) ++ (s1 ++ (0#5 ++ 0xFB#8))) := ⟨_, rfl⟩
  have hf : w.extractLsb' 8 5 = 0#5 ∧
      w.extractLsb' 31 1 = 1#1 ∧
      w.extractLsb' 18 13 = (2#8 ++ n) ∧
      w.extractLsb' 13 5 = s1 ∧
      w.extractLsb' 0 8 = 251#8 := by
    subst hw; simp only [HAppend.hAppend, bits_low, bits_high, bits_all, Nat.reduceAdd, Nat.reduceSub, Nat.reduceLeDiff, BitVec.reduceExtractLsb', and_self]
  obtain ⟨f8, f31, f18, f13, f0⟩ := hf
  refine codes_word _ (congrArg some hw.symm) rfl (fun hc => ?_) 251#8 f0 rfl (by decide)
  exact (decodeWord_low w 251#8 f0).trans (by
    show decodeMajors78 5 w = _
    simp only [decodeMajors78, f8, f31, f18, f13, cwrForm_layout, BitVec.reduceEq, and_true, and_false, false_and, reduceIte])

theorem Codes.cwrSplit (s1 : GReg) : Codes.Statement (.cwrSplit s1) := by
  obtain ⟨w, hw⟩ : ∃ w, w = 1#1 ++ (0x0060#13 ++ (s1 ++ (0#5 ++ 0xFB#8))) := ⟨_, rfl⟩
  have hf : w.extractLsb' 8 5 = 0#5 ∧
      w.extractLsb' 31 1 = 1#1 ∧
      w.extractLsb' 18 13 = 0x0060#13 ∧
      w.extractLsb' 13 5 = s1 ∧
      w.extractLsb' 0 8 = 251#8 := by
    subst hw; simp only [HAppend.hAppend, bits_low, bits_high, bits_all, Nat.reduceAdd, Nat.reduceSub, Nat.reduceLeDiff, BitVec.reduceExtractLsb', and_self]
  obtain ⟨f8, f31, f18, f13, f0⟩ := hf
  refine codes_word _ (congrArg some hw.symm) rfl (fun hc => ?_) 251#8 f0 rfl (by decide)
  exact (decodeWord_low w 251#8 f0).trans (by
    show decodeMajors78 5 w = _
    simp only [decodeMajors78, f8, f31, f18, f13, cwrForm, BitVec.reduceExtractLsb', BitVec.reduceEq, and_true, and_false, false_and, reduceIte])

theorem Codes.cwrVpool (s1 : GReg) : Codes.Statement (.cwrVpool s1) := by
  obtain ⟨w, hw⟩ : ∃ w, w = 1#1 ++ (0x0061#13 ++ (s1 ++ (0#5 ++ 0xFB#8))) := ⟨_, rfl⟩
  have hf : w.extractLsb' 8 5 = 0#5 ∧
      w.extractLsb' 31 1 = 1#1 ∧
      w.extractLsb' 18 13 = 0x0061#13 ∧
      w.extractLsb' 13 5 = s1 ∧
      w.extractLsb' 0 8 = 251#8 := by
    subst hw; simp only [HAppend.hAppend, bits_low, bits_high, bits_all, Nat.reduceAdd, Nat.reduceSub, Nat.reduceLeDiff, BitVec.reduceExtractLsb', and_self]
  obtain ⟨f8, f31, f18, f13, f0⟩ := hf
  refine codes_word _ (congrArg some hw.symm) rfl (fun hc => ?_) 251#8 f0 rfl (by decide)
  exact (decodeWord_low w 251#8 f0).trans (by
    show decodeMajors78 5 w = _
    simp only [decodeMajors78, f8, f31, f18, f13, cwrForm, BitVec.reduceExtractLsb', BitVec.reduceEq, and_true, and_false, false_and, reduceIte])

theorem Codes.cwrClass (n : BitVec 5) (s1 : GReg) : Codes.Statement (.cwrClass n s1) := by
  obtain ⟨w, hw⟩ : ∃ w, w = 1#1 ++ ((5#8 ++ n) ++ (s1 ++ (0#5 ++ 0xFB#8))) := ⟨_, rfl⟩
  have hf : w.extractLsb' 8 5 = 0#5 ∧
      w.extractLsb' 31 1 = 1#1 ∧
      w.extractLsb' 18 13 = (5#8 ++ n) ∧
      w.extractLsb' 13 5 = s1 ∧
      w.extractLsb' 0 8 = 251#8 := by
    subst hw; simp only [HAppend.hAppend, bits_low, bits_high, bits_all, Nat.reduceAdd, Nat.reduceSub, Nat.reduceLeDiff, BitVec.reduceExtractLsb', and_self]
  obtain ⟨f8, f31, f18, f13, f0⟩ := hf
  refine codes_word _ (congrArg some hw.symm) rfl (fun hc => ?_) 251#8 f0 rfl (by decide)
  exact (decodeWord_low w 251#8 f0).trans (by
    show decodeMajors78 5 w = _
    simp only [decodeMajors78, f8, f31, f18, f13, cwrForm_class, BitVec.reduceEq, and_true, and_false, false_and, reduceIte])

theorem Codes.cwrVmroot (s1 : GReg) : Codes.Statement (.cwrVmroot s1) := by
  obtain ⟨w, hw⟩ : ∃ w, w = 1#1 ++ (0x00D0#13 ++ (s1 ++ (0#5 ++ 0xFB#8))) := ⟨_, rfl⟩
  have hf : w.extractLsb' 8 5 = 0#5 ∧
      w.extractLsb' 31 1 = 1#1 ∧
      w.extractLsb' 18 13 = 0x00D0#13 ∧
      w.extractLsb' 13 5 = s1 ∧
      w.extractLsb' 0 8 = 251#8 := by
    subst hw; simp only [HAppend.hAppend, bits_low, bits_high, bits_all, Nat.reduceAdd, Nat.reduceSub, Nat.reduceLeDiff, BitVec.reduceExtractLsb', and_self]
  obtain ⟨f8, f31, f18, f13, f0⟩ := hf
  refine codes_word _ (congrArg some hw.symm) rfl (fun hc => ?_) 251#8 f0 rfl (by decide)
  exact (decodeWord_low w 251#8 f0).trans (by
    show decodeMajors78 5 w = _
    simp only [decodeMajors78, f8, f31, f18, f13, cwrForm, BitVec.reduceExtractLsb', BitVec.reduceEq, and_true, and_false, false_and, reduceIte])

theorem Codes.supervisorWake (core : CoreId) : Codes.Statement (.supervisorWake core) :=
  codes_none _ rfl rfl

theorem Codes.blockedIntervalEnd (core : CoreId) (ctx : CtxId) : Codes.Statement (.blockedIntervalEnd core ctx) :=
  codes_none _ rfl rfl

theorem Codes.forfeitEnd (core : CoreId) (ctx : CtxId) : Codes.Statement (.forfeitEnd core ctx) :=
  codes_none _ rfl rfl

theorem Codes.normaliserService (quad : QuadId) : Codes.Statement (.normaliserService quad) :=
  codes_none _ rfl rfl

theorem Codes.queueRegisterUnblock (core : CoreId) (ctx : CtxId) : Codes.Statement (.queueRegisterUnblock core ctx) :=
  codes_none _ rfl rfl

theorem Codes.waitRelease (core : CoreId) (ctx : CtxId) : Codes.Statement (.waitRelease core ctx) :=
  codes_none _ rfl rfl

theorem Codes.waitLimitExpiry (core : CoreId) (ctx : CtxId) : Codes.Statement (.waitLimitExpiry core ctx) :=
  codes_none _ rfl rfl

theorem Codes.helperTaken (core : CoreId) (ctx : CtxId) : Codes.Statement (.helperTaken core ctx) :=
  codes_none _ rfl rfl

theorem Codes.taskLaneRetire (core : CoreId) : Codes.Statement (.taskLaneRetire core) :=
  codes_none _ rfl rfl

theorem Codes.remoteAccessPerform (core : CoreId) (ctx : CtxId) : Codes.Statement (.remoteAccessPerform core ctx) :=
  codes_none _ rfl rfl

theorem Codes.remoteStorePerform (core : CoreId) (ctx : CtxId) : Codes.Statement (.remoteStorePerform core ctx) :=
  codes_none _ rfl rfl

theorem Codes.vectorRemoteChecks (core : CoreId) (ctx : CtxId) : Codes.Statement (.vectorRemoteChecks core ctx) :=
  codes_none _ rfl rfl

theorem Codes.parkedRequestServe (core : CoreId) : Codes.Statement (.parkedRequestServe core) :=
  codes_none _ rfl rfl

theorem Codes.parkRefusalRetry (core : CoreId) (ctx : CtxId) : Codes.Statement (.parkRefusalRetry core ctx) :=
  codes_none _ rfl rfl

theorem Codes.evictionRetryResend (core : CoreId) (ctx : CtxId) : Codes.Statement (.evictionRetryResend core ctx) :=
  codes_none _ rfl rfl

theorem Codes.commitGrant (core : CoreId) (ctx : CtxId) : Codes.Statement (.commitGrant core ctx) :=
  codes_none _ rfl rfl

theorem Codes.localCommit (core : CoreId) (ctx : CtxId) : Codes.Statement (.localCommit core ctx) :=
  codes_none _ rfl rfl

theorem Codes.trumpAdmission (part : BitVec 2) : Codes.Statement (.trumpAdmission part) :=
  codes_none _ rfl rfl

theorem Codes.homeLineRequest (line : LineId) (agent : CoreId) (kind : LineKind) : Codes.Statement (.homeLineRequest line agent kind) :=
  codes_none _ rfl rfl

theorem Codes.probeTimeout (line : LineId) (agent : CoreId) : Codes.Statement (.probeTimeout line agent) :=
  codes_none _ rfl rfl

theorem Codes.leaseGrant (core : CoreId) (ctx : CtxId) : Codes.Statement (.leaseGrant core ctx) :=
  codes_none _ rfl rfl

theorem Codes.leaseExpiry (core : CoreId) (ctx : CtxId) (slot : BitVec 2) : Codes.Statement (.leaseExpiry core ctx slot) :=
  codes_none _ rfl rfl

theorem Codes.farAtomicPerform (core : CoreId) (ctx : CtxId) : Codes.Statement (.farAtomicPerform core ctx) :=
  codes_none _ rfl rfl

theorem Codes.farAtomicReply (core : CoreId) (ctx : CtxId) (answer : Option PeerAnswer) : Codes.Statement (.farAtomicReply core ctx answer) :=
  codes_none _ rfl rfl

theorem Codes.capStateChange (core : CoreId) (turn : CapTurn) : Codes.Statement (.capStateChange core turn) :=
  codes_none _ rfl rfl

theorem Codes.capQryWaitRelease (core : CoreId) (ctx : CtxId) : Codes.Statement (.capQryWaitRelease core ctx) :=
  codes_none _ rfl rfl

theorem Codes.matrixRequestStart (quad : QuadId) : Codes.Statement (.matrixRequestStart quad) :=
  codes_none _ rfl rfl

theorem Codes.matrixRequestComplete (quad : QuadId) : Codes.Statement (.matrixRequestComplete quad) :=
  codes_none _ rfl rfl

theorem Codes.mxwdogExpiry (quad : QuadId) : Codes.Statement (.mxwdogExpiry quad) :=
  codes_none _ rfl rfl

theorem Codes.uncorrectableSoftError (place : SoftErrorAt) (job : BitVec 48) (storage : BitVec 3) : Codes.Statement (.uncorrectableSoftError place job storage) :=
  codes_none _ rfl rfl

theorem Codes.scanRequestStart (quad : QuadId) : Codes.Statement (.scanRequestStart quad) :=
  codes_none _ rfl rfl

theorem Codes.scanRequestComplete (quad : QuadId) : Codes.Statement (.scanRequestComplete quad) :=
  codes_none _ rfl rfl

theorem Codes.chainPostPerform (core : CoreId) (ctx : CtxId) : Codes.Statement (.chainPostPerform core ctx) :=
  codes_none _ rfl rfl

theorem Codes.chainDelivery (quad : QuadId) : Codes.Statement (.chainDelivery quad) :=
  codes_none _ rfl rfl

theorem Codes.chainWaitPerform (core : CoreId) (ctx : CtxId) : Codes.Statement (.chainWaitPerform core ctx) :=
  codes_none _ rfl rfl

theorem Codes.barrierArrival (core : CoreId) (ctx : CtxId) : Codes.Statement (.barrierArrival core ctx) :=
  codes_none _ rfl rfl

theorem Codes.semaphoreAtHome (core : CoreId) (ctx : CtxId) : Codes.Statement (.semaphoreAtHome core ctx) :=
  codes_none _ rfl rfl

theorem Codes.syncWaiterAnswer (core : CoreId) (ctx : CtxId) (answer : Option PeerAnswer) : Codes.Statement (.syncWaiterAnswer core ctx answer) :=
  codes_none _ rfl rfl

theorem Codes.wakeListRetry (core : CoreId) (ctx : CtxId) : Codes.Statement (.wakeListRetry core ctx) :=
  codes_none _ rfl rfl

theorem Codes.sliceQueueOp (core : CoreId) (ctx : CtxId) : Codes.Statement (.sliceQueueOp core ctx) :=
  codes_none _ rfl rfl

theorem Codes.messageArrival (dest : CoreId) (msg : MessageData) : Codes.Statement (.messageArrival dest msg) :=
  codes_none _ rfl rfl

theorem Codes.sendReply (core : CoreId) (ctx : CtxId) (turn : SendTurn) : Codes.Statement (.sendReply core ctx turn) :=
  codes_none _ rfl rfl

theorem Codes.granuleRead (chan : ChanId) (job : BitVec 48) : Codes.Statement (.granuleRead chan job) :=
  codes_none _ rfl rfl

theorem Codes.granuleWrite (chan : ChanId) (job : BitVec 48) : Codes.Statement (.granuleWrite chan job) :=
  codes_none _ rfl rfl

theorem Codes.jobEnd (chan : ChanId) (turn : JobTurn) : Codes.Statement (.jobEnd chan turn) :=
  codes_none _ rfl rfl

theorem Codes.gathScatRow (chan : ChanId) (job : BitVec 48) : Codes.Statement (.gathScatRow chan job) :=
  codes_none _ rfl rfl

theorem Codes.streamStripFill (core : CoreId) (ctx : CtxId) (k : VReg) : Codes.Statement (.streamStripFill core ctx k) :=
  codes_none _ rfl rfl

theorem Codes.streamStripWrite (core : CoreId) (ctx : CtxId) (k : VReg) : Codes.Statement (.streamStripWrite core ctx k) :=
  codes_none _ rfl rfl

theorem Codes.cpyStatWaitRelease (core : CoreId) (ctx : CtxId) : Codes.Statement (.cpyStatWaitRelease core ctx) :=
  codes_none _ rfl rfl

theorem Codes.trapRecordEnqueue (core : CoreId) : Codes.Statement (.trapRecordEnqueue core) :=
  codes_none _ rfl rfl

theorem Codes.pageWalk (core : CoreId) (va : BitVec 64) : Codes.Statement (.pageWalk core va) :=
  codes_none _ rfl rfl

theorem Codes.tlbiComplete (core : CoreId) (ctx : CtxId) : Codes.Statement (.tlbiComplete core ctx) :=
  codes_none _ rfl rfl

theorem Codes.pageGrant (page : PageId) (write : Bool) (answer : PageAnswer) : Codes.Statement (.pageGrant page write answer) :=
  codes_none _ rfl rfl

theorem Codes.pageRevocation (wanted : PageRecall) : Codes.Statement (.pageRevocation wanted) :=
  codes_none _ rfl rfl

theorem Codes.malformedDealRemoval (queue : QueueId) : Codes.Statement (.malformedDealRemoval queue) :=
  codes_none _ rfl rfl

theorem Codes.dealPlacement (part : BitVec 2) : Codes.Statement (.dealPlacement part) :=
  codes_none _ rfl rfl

theorem Codes.launchCompletion (tag : BitVec 16) : Codes.Statement (.launchCompletion tag) :=
  codes_none _ rfl rfl

theorem Codes.pendingInterruptSend (fn : Nat) (vector : BitVec 6) : Codes.Statement (.pendingInterruptSend fn vector) :=
  codes_none _ rfl rfl

theorem Codes.preemption (part : BitVec 2) : Codes.Statement (.preemption part) :=
  codes_none _ rfl rfl

theorem Codes.coreResume (tag : BitVec 16) (lane : BitVec 12) : Codes.Statement (.coreResume tag lane) :=
  codes_none _ rfl rfl

theorem Codes.budgetPeriodStart : Codes.Statement .budgetPeriodStart :=
  codes_none _ rfl rfl

theorem Codes.trapEntry (core : CoreId) (ctx : CtxId) : Codes.Statement (.trapEntry core ctx) :=
  codes_none _ rfl rfl

theorem Codes.lockstepMismatch (core : CoreId) (code : BitVec 8) : Codes.Statement (.lockstepMismatch core code) :=
  codes_none _ rfl rfl

theorem Codes.machineCheck (target : CheckTarget) : Codes.Statement (.machineCheck target) :=
  codes_none _ rfl rfl

theorem Codes.heartbeatMiss (core : CoreId) : Codes.Statement (.heartbeatMiss core) :=
  codes_none _ rfl rfl

theorem Codes.coreRepair (core : CoreId) (clean : Bool) : Codes.Statement (.coreRepair core clean) :=
  codes_none _ rfl rfl

theorem Codes.quiesce (w : BitVec 64) : Codes.Statement (.quiesce w) :=
  codes_none _ rfl rfl

theorem Codes.quiesceDone : Codes.Statement .quiesceDone :=
  codes_none _ rfl rfl

theorem Codes.quiesceLimitExpiry : Codes.Statement .quiesceLimitExpiry :=
  codes_none _ rfl rfl

theorem Codes.resume (w : BitVec 64) : Codes.Statement (.resume w) :=
  codes_none _ rfl rfl

theorem Codes.merge (w : BitVec 64) : Codes.Statement (.merge w) :=
  codes_none _ rfl rfl

theorem Codes.split (w : BitVec 64) : Codes.Statement (.split w) :=
  codes_none _ rfl rfl

theorem Codes.treset (w : BitVec 64) : Codes.Statement (.treset w) :=
  codes_none _ rfl rfl

theorem Codes.tchange (w : BitVec 64) : Codes.Statement (.tchange w) :=
  codes_none _ rfl rfl

theorem Codes.tchangeDone : Codes.Statement .tchangeDone :=
  codes_none _ rfl rfl

theorem Codes.partRegisterWrite (part : BitVec 2) (reg : PartReg) (value : BitVec 64) : Codes.Statement (.partRegisterWrite part reg value) :=
  codes_none _ rfl rfl

theorem Codes.vfRegisterWrite (vf : BitVec 6) (value : BitVec 64) : Codes.Statement (.vfRegisterWrite vf value) :=
  codes_none _ rfl rfl

theorem Codes.xpRegisterWrite (port : BitVec 3) (value : BitVec 64) : Codes.Statement (.xpRegisterWrite port value) :=
  codes_none _ rfl rfl

theorem Codes.podRegisterWrite (part : Option (BitVec 2)) (value : BitVec 64) : Codes.Statement (.podRegisterWrite part value) :=
  codes_none _ rfl rfl

theorem Codes.bclassWrite (cls : BitVec 6) (b : Bool) (value : BitVec 64) : Codes.Statement (.bclassWrite cls b value) :=
  codes_none _ rfl rfl

theorem Codes.lsclassWrite (value : BitVec 64) : Codes.Statement (.lsclassWrite value) :=
  codes_none _ rfl rfl

theorem Codes.pwrctlWrite (value : BitVec 64) : Codes.Statement (.pwrctlWrite value) :=
  codes_none _ rfl rfl

theorem Codes.dpctlWrite (die : BitVec 2) (value : BitVec 64) : Codes.Statement (.dpctlWrite die value) :=
  codes_none _ rfl rfl

theorem Codes.hubRegisterWrite (hubOff : BitVec 24) (value : BitVec 64) : Codes.Statement (.hubRegisterWrite hubOff value) :=
  codes_none _ rfl rfl

theorem Codes.doorbellWrite (requester : BitVec 16) (vf : BitVec 6) (barOff : BitVec 19) (bytes : List (BitVec 8)) : Codes.Statement (.doorbellWrite requester vf barOff bytes) :=
  codes_none _ rfl rfl

theorem Codes.doorbellTrigger (vf : BitVec 6) (queue : QueueId) : Codes.Statement (.doorbellTrigger vf queue) :=
  codes_none _ rfl rfl

theorem Codes.doorbellStatusRead (requester : BitVec 16) (vf : BitVec 6) (queue : QueueId) : Codes.Statement (.doorbellStatusRead requester vf queue) :=
  codes_none _ rfl rfl

theorem Codes.hostPostedWrite (requester : BitVec 16) (place : HostAddress) (bytes : List (BitVec 8)) : Codes.Statement (.hostPostedWrite requester place bytes) :=
  codes_none _ rfl rfl

theorem Codes.hostRead (requester : BitVec 16) (place : HostAddress) (len : BitVec 12) : Codes.Statement (.hostRead requester place len) :=
  codes_none _ rfl rfl

theorem Codes.ideFailure (port : Bool) (requester : BitVec 16) : Codes.Statement (.ideFailure port requester) :=
  codes_none _ rfl rfl

theorem Codes.spdmAttestation (part : BitVec 2) (nonce : BitVec 256) : Codes.Statement (.spdmAttestation part nonce) :=
  codes_none _ rfl rfl

theorem Codes.debugUnlock (part : BitVec 2) (nonce : BitVec 256) (signed : Bool) : Codes.Statement (.debugUnlock part nonce signed) :=
  codes_none _ rfl rfl

theorem Codes.fabricRequestArrival (source : BitVec 7) (seq : BitVec 32) (request : PeerRequest) : Codes.Statement (.fabricRequestArrival source seq request) :=
  codes_none _ rfl rfl

theorem Codes.fabricRetransmit (seq : BitVec 32) (target : BitVec 7) : Codes.Statement (.fabricRetransmit seq target) :=
  codes_none _ rfl rfl

theorem Codes.secondTierTimeout (part : BitVec 2) : Codes.Statement (.secondTierTimeout part) :=
  codes_none _ rfl rfl

theorem Codes.expanderLinkDown (port : BitVec 3) : Codes.Statement (.expanderLinkDown port) :=
  codes_none _ rfl rfl

theorem Codes.expanderLinkTrained (port : BitVec 3) : Codes.Statement (.expanderLinkTrained port) :=
  codes_none _ rfl rfl

theorem Codes.thermalSample (junctions : List Nat) (averageOver : Bool) (averageUnder : Bool) : Codes.Statement (.thermalSample junctions averageOver averageUnder) :=
  codes_none _ rfl rfl

theorem Codes.agentGate (agent : PowerAgent) : Codes.Statement (.agentGate agent) :=
  codes_none _ rfl rfl

theorem Codes.agentSleep (agent : PowerAgent) : Codes.Statement (.agentSleep agent) :=
  codes_none _ rfl rfl

theorem Codes.agentWake (agent : PowerAgent) : Codes.Statement (.agentWake agent) :=
  codes_none _ rfl rfl

theorem Codes.coldReset (signatureGood : Bool) (up : Bringup) : Codes.Statement (.coldReset signatureGood up) :=
  codes_none _ rfl rfl

theorem Codes.warmReset (up : Bringup) : Codes.Statement (.warmReset up) :=
  codes_none _ rfl rfl

theorem Codes.firmwareUpdate (image : Nat) (good : Bool) : Codes.Statement (.firmwareUpdate image good) :=
  codes_none _ rfl rfl

theorem Codes.recoveryLoad (image : Nat) (good : Bool) : Codes.Statement (.recoveryLoad image good) :=
  codes_none _ rfl rfl

theorem Codes.partitionOpComplete : Codes.Statement .partitionOpComplete :=
  codes_none _ rfl rfl

theorem Codes.hostLoadReply (reader : HostReader) (pa : BitVec 52) (value : BitVec 64) : Codes.Statement (.hostLoadReply reader pa value) :=
  codes_none _ rfl rfl

theorem Codes.fabricAcknowledgement (source : BitVec 7) (upTo : BitVec 32) : Codes.Statement (.fabricAcknowledgement source upTo) :=
  codes_none _ rfl rfl

end Sys2Proof.Laws
end

