-- ==== Sys2Proof/Laws/Rebuilt.lean ====
section
/-! SUPPORT. The operations that rebuild a memory as a whole keep its canonical form: a page of a save slot, and a package's new number. -/

namespace Sys2Proof.Laws
open Sys2Proof Sys2Proof.Machine

theorem keysFrom_some {α : Type} {t : Tab α} {b : Nat} : keysFrom (some b) t = true ↔ (∀ e ∈ t, b < e.1) ∧ t.Pairwise (·.1 < ·.1) := by
  induction t generalizing b with
  | nil => simp [keysFrom]
  | cons c t ih =>
    simp only [keysFrom, Bool.and_eq_true, decide_eq_true_eq, ih, List.forall_mem_cons, List.pairwise_cons]
    exact ⟨fun ⟨h, g, p⟩ => ⟨⟨h, fun e he => h.trans (g e he)⟩, g, p⟩, fun ⟨⟨h, _⟩, g, p⟩ => ⟨h, g, p⟩⟩

/-- A table is in canonical form when its keys rise strictly. -/
theorem tabWf_iff {α : Type} {t : Tab α} : tabWf t = true ↔ t.Pairwise (·.1 < ·.1) := by
  cases t with
  | nil => simp [tabWf, keysFrom]
  | cons c t => simp only [tabWf, keysFrom, Bool.true_and, keysFrom_some, List.pairwise_cons]

theorem tabWf_rekeyed {α : Type} {unit old new : Nat} {t : Tab α} (h : tabWf t = true) : tabWf (rekeyed unit old new t) = true := by
  rw [tabWf_iff] at h ⊢
  unfold rekeyed
  refine List.pairwise_map.2 ((List.Pairwise.filter _ h).imp_of_mem fun {a b} ha hb hab => ?_)
  simp only [List.mem_filter, beq_iff_eq] at ha hb
  have h1 := Nat.div_add_mod a.1 (2 ^ 44 / unit)
  have h2 := Nat.div_add_mod b.1 (2 ^ 44 / unit)
  rw [ha.2] at h1
  rw [hb.2] at h2
  omega

/-- R471: a package's memory under its new number is canonical. -/
theorem memWf_rekeyed {m : List Host.Cell} (old new : Nat) (h : memWf m = true) : memWf (rekeyed 1 old new m) = true := by
  simp only [memWf, Bool.and_eq_true, List.all_eq_true] at h ⊢
  refine ⟨tabWf_rekeyed h.1, fun c hc => ?_⟩
  simp only [rekeyed, List.mem_map, List.mem_filter] at hc
  obtain ⟨e, ⟨he, -⟩, rfl⟩ := hc
  exact h.2 e he

/-- Cells of the range replaced, at rising addresses and none of them 0, leave a memory canonical. -/
theorem memWf_memSplice {m cells : List Host.Cell} {a n : Nat} (h : memWf m = true) (hc : memWf cells = true)
    (hr : ∀ c ∈ cells, a ≤ c.1 ∧ c.1 < a + n) : memWf (memSplice m a n cells) = true := by
  simp only [memWf, Bool.and_eq_true, List.all_eq_true] at h hc ⊢
  refine ⟨tabWf_iff.2 ?_, fun c hm => ?_⟩
  · have hp := tabWf_iff.1 h.1
    refine List.pairwise_append.2 ⟨List.pairwise_append.2 ⟨List.Pairwise.filter _ hp, tabWf_iff.1 hc.1, ?_⟩, List.Pairwise.filter _ hp, ?_⟩
    · intro x hx y hy
      have := hr y hy
      simp only [List.mem_filter, decide_eq_true_eq] at hx
      omega
    · intro x hx y hy
      simp only [List.mem_append, List.mem_filter, decide_eq_true_eq] at hx hy
      rcases hx with hx | hx
      · omega
      · have := hr x hx
        omega
  · simp only [memSplice, List.mem_append, List.mem_filter] at hm
    rcases hm with (hm | hm) | hm
    · exact h.2 c hm.1
    · exact hc.2 c hm
    · exact h.2 c hm.1

/-- The cells of a page of a slot lie in the page, at rising addresses, and none is 0 (R421). -/
theorem slotCells_range {c : Core} {count i pa : Nat} : ∀ e ∈ slotCells c count i pa, pa ≤ e.1 ∧ e.1 < pa + 4096 := by
  intro e he
  simp only [slotCells, List.mem_filterMap, List.mem_range] at he
  obtain ⟨j, hj, h⟩ := he
  split at h
  · cases h
  · obtain rfl := Option.some.inj h
    exact ⟨Nat.le_add_right pa j, Nat.add_lt_add_left hj pa⟩

theorem memWf_cells (b : Nat → Byte) (pa n : Nat) :
    memWf ((List.range n).filterMap fun j => if b j = 0#8 then none else some (pa + j, b j)) = true := by
  simp only [memWf, Bool.and_eq_true, List.all_eq_true]
  refine ⟨tabWf_iff.2 (List.Pairwise.filterMap _ (fun i j hij x hx y hy => ?_) (List.pairwise_lt_range (n := n))), fun e he => ?_⟩
  · split at hx <;> split at hy <;> simp_all
    subst hx hy
    simpa using hij
  · simp only [List.mem_filterMap] at he
    obtain ⟨j, -, h⟩ := he
    split at h
    · cases h
    · obtain rfl := Option.some.inj h
      simpa using ‹_›

theorem memWf_slotCells {c : Core} {count i pa : Nat} : memWf (slotCells c count i pa) = true :=
  memWf_cells (fun j => slotByte c count (4096 * i + j)) pa 4096

theorem memWf_slotPage {m : List Host.Cell} {c : Core} {count i pa : Nat} (h : memWf m = true) :
    memWf (memSplice m pa 4096 (slotCells c count i pa)) = true :=
  memWf_memSplice h memWf_slotCells slotCells_range

end Sys2Proof.Laws
end

