-- ==== Sys2Proof/Tests/Slice0.lean ====
section
/-! SUPPORT. Tests: ill-formed terms, words of the encodings, small steps, and states that meet the hypotheses of the statements. -/

set_option maxRecDepth 100000
set_option Elab.async false

namespace Sys2Proof.Tests
open Sys2Proof Sys2Proof.Machine

/-! ### Small states, and what a unit or an event makes of them -/

/-- The next state, if there is one. -/
def next (o : Host.Outcome State Fault Refusal) : Option State := match o with | .next s => some s | _ => none

/-- What a computation answers, and the state it leaves. -/
def got {α : Type} (m : U α) (s : State) : Option α := match m s with | .ok (a, _) => some a | .error _ => none
def after {α : Type} (m : U α) (s : State) : State := match m s with | .ok (_, t) => t | .error _ => s

theorem answers {α : Type} {m : U α} {s : State} {a : α} (h : got m s = some a) : m s = .ok (a, after m s) := by
  unfold got at h
  unfold after
  split at h <;> simp_all

/-- The state after registers are read, and after one is written. -/
def red : List GReg → State → State
  | [], s => s
  | k :: ks, s => red ks (after (readG k) s)
def vred (ks : List VReg) (s : State) : State := ks.foldl (fun s k => after (readV k) s) s
def wrote (k : GReg) (x : Word) (s : State) : State := after (writeG k x) s
def vwrote (k : VReg) (x : Vec) (p : Pred) (s : State) : State := after (writeV k x p) s
def values : List GReg → State → Option (List Word)
  | [], _ => some []
  | k :: ks, s => match got (readG k) s, values ks (after (readG k) s) with
    | some a, some r => some (a :: r)
    | _, _ => none
def vvalues : List VReg → State → Option (List Vec)
  | [], _ => some []
  | k :: ks, s => match got (readV k) s, vvalues ks (after (readV k) s) with
    | some a, some r => some (a :: r)
    | _, _ => none

theorem reads_of {ks : List GReg} {s : State} {vs : List Word} (h : values ks s = some vs) : Reads ks s vs (red ks s) := by
  induction ks generalizing s vs with
  | nil => cases h; exact ⟨rfl, rfl⟩
  | cons k ks ih =>
    unfold values at h
    split at h
    · cases h
      exact ⟨_, _, _, answers ‹_›, rfl, ih ‹_›⟩
    · cases h

theorem vreads_of {ks : List VReg} {s : State} {vs : List Vec} (h : vvalues ks s = some vs) : VReads ks s vs (vred ks s) := by
  induction ks generalizing s vs with
  | nil => cases h; exact ⟨rfl, rfl⟩
  | cons k ks ih =>
    unfold vvalues at h
    split at h
    · cases h
      exact ⟨_, _, _, answers ‹_›, rfl, ih ‹_›⟩
    · cases h

theorem writes_of {k : GReg} {x : Word} {s : State} (h : got (writeG k x) s = some ()) : Writes k x s (wrote k x s) := answers h
theorem vwrites_of {k : VReg} {x : Vec} {p : Pred} {s : State} (h : got (writeV k x p) s = some ()) : VWrites k x p s (vwrote k x p s) := answers h
theorem replies_of {k x : Nat} {d : GReg} {w : Word} {s : State} (h : got (writeG d w) { s with cur := (k, x) } = some ()) :
    ReplyWrites s k x d w (wrote d w { s with cur := (k, x) }) := answers h
theorem runs_of {s : State} (h : s.me.running.units < s.me.limit.toNat) : Runs s := h
theorem quiet_of {s : State} (h : s.me.settled = true ∧ ∀ e ∈ s.me.farq, e.old.isSome = true) : Quiet s := h
theorem timely_of {s : State} (h : s.mine.det = false ∨ s.cur.2 = 15) : Timely s := h
theorem plain_of {s : State} {k : GReg} (h : remap s.me.cmode k = none ∧ ∀ e ∈ s.me.farq, e.d ≠ k) : Plain s k := .inr h
theorem own_of {s : State} {a : Word} {off : Nat} (h : lsFront s.cur.1 a 1 false = .ok ⟨s.cur.1, off, false⟩) : Own s a off := ⟨_, h⟩
theorem free_of {s : State} {d : GReg} (h : remap s.me.cmode d = none ∧ ∀ e ∈ s.me.farq, e.d ≠ d) : Free s d :=
  .inr ⟨h.2, fun i hi => by rw [h.1] at hi; cases hi⟩
/-- A queue register's room. -/
theorem free_queue {s : State} {d : GReg} {i : Nat} (h : remap s.me.cmode d = some i ∧ s.mine.queueCount i + 1 ≤ queueDepthOf i)
    (hf : ∀ e ∈ s.me.farq, e.d ≠ d) : Free s d :=
  .inr ⟨hf, fun j hj => by rw [h.1] at hj; cases hj; exact h.2⟩

/-- A launch of four lanes, of priority 6, with the matrix unit and the chain granted. -/
def theLaunch : Launch := { fetchLaunch with deal := List.replicate 24 0#8 ++ [3, 0, 0, 0, 6] ++ List.replicate 99 0#8 }

/-- Context 0 of core 0, about to perform the unit at 0x300000. -/
def aUnit : UnitInfo := ⟨0x300000#64, 4, 0#32, none⟩
def aCtx : Ctx := { life := .ready, pc := 0x300000#64, unit := aUnit }

/-- Its core, with the words of a few scalar registers. -/
def storeOf (gs : List (Nat × Nat)) : List Host.Cell := gs.foldl (fun m e => memWrite m (8 * e.1) 8 e.2) []
def aCore (gs : List (Nat × Nat)) : Core := { ctxs := [(0, aCtx)], store := storeOf gs, launch := some 1, vmroot := 0x100000#64 }

/-- A state in which its unit is being performed. -/
def st (c : Core) : State := { State.reset with cores := [(0, c)], launches := [(1, theLaunch)] }
def sg (gs : List (Nat × Nat)) : State := st (aCore gs)

/-- The same core with the supervisor's entry at 0x400000, so that a trap is recorded (R431). -/
def svCore (gs : List (Nat × Nat)) : Core := { aCore gs with svent := 0x400000#64, svws := 1#64 }

/-- The first elements of a vector; a queued far atomic; a second core; a waiting context. -/
def aFar : FarEntry := { op := 0, addr := 0x1000#64, v := 1#64, c := 0#64, ord := false, pod := false, d := 3, unit := aUnit, retire := 0#64, rep := none, queue := none, seq := 0 }
def elems (w n : Nat) (v : Vec) : List Nat := (List.range n).map (elem v w)
def coreB : Core := { store := memWrite [] 0x2000 8 77, launch := some 1, lane := 1 }
def waits (w : Wait) (r : Option Request) : Ctx := { aCtx with life := .blocked w, req := r }
def wt (v : Ctx) : State := st { aCore [] with ctxs := [(0, v)] }

/-! ### Ill-formed terms, one for each check, and well-formed ones at the same bounds -/

theorem test_wf_control : ([.loop 0 4, .rep 1 3 .vec 30 2 0, .rep 1 3 .vec 0 6 0, .rep 1 3 .vec 8 2 4, .rep 1 3 .scalar 0 2 1, .rep 1 3 .both 0 2 1,
    .rep 1 3 .nothing 8 0 0, .rep 1 3 .nothing 0 1 0, .rep 1 3 .nothing 0 1 1, .extPrefixedUnit 0 (.loop 0 4)] : List Instr).all (!·.wf) = true ∧
    ([.loop 31 4, .rep 1 3 .vec 28 2 3, .rep 1 3 .vec 0 5 31, .rep 1 3 .scalar 1 2 1, .rep 1 3 .nothing 0 0 0] : List Instr).all (·.wf) = true := by decide +kernel

theorem test_wf_scalar : ([.ext 1 2 3, .ext 1 2 7, .ext 1 2 8, .lea 1 2 3 5, .hdrPack 1 25 7, .hdrSplit 25 1 7, .shufKHigh 1 2 3 24,
    .ldx 1 2 3 5 3 false, .stx 1 2 3 5 3, .xch 1 2 3 5 3 false, .feopSet 1 2 5, .feopClr 1 2 5, .feopQry 1 2 3 5, .feopLdff 1 2 3 5,
    .ld 1 2 0 3 true, .ldx 1 2 3 0 3 true, .xch 1 2 3 0 3 true, .ldg 1 2 0 3 true] : List Instr).all (!·.wf) = true ∧
    ([.ext 1 2 6, .lea 1 2 3 4, .hdrPack 1 24 7, .hdrSplit 24 1 7, .shufKHigh 1 2 3 23, .ldx 1 2 3 4 2 true, .stx 1 2 3 4 3, .xch 1 2 3 4 3 false,
      .feopQry 1 2 3 4, .ldg 1 2 0 3 false] : List Instr).all (·.wf) = true := by decide +kernel

theorem test_wf_vector_types : ([.vadd 1 2 3 0 .f19 0, .vsub 1 2 3 0 .c8 0, .vmul 1 2 3 0 .c4 0, .vfma 1 2 3 0 .f19 0, .vdiv 1 2 3 0 .c8 0, .vsqrt 1 2 0 .i32 0,
    .vmin 1 2 3 0 .f19, .vmax 1 2 3 0 .c8, .vunNeg 1 2 0 .f19 0, .vunAbs 1 2 0 .c4 0, .vunRint 1 2 0 .n8 0, .vunPopc 1 2 0 .f32, .vunClz 1 2 0 .f16,
    .vlogAnd 1 2 0 .f32, .vlogOr 1 2 0 .f32, .vlogXor 1 2 0 .f32, .vlogAndn 1 2 0 .f32, .vlogOrn 1 2 0 .f32, .vlogNand 1 2 0 .f32,
    .vlogNor 1 2 0 .f32, .vlogXnor 1 2 0 .f32, .vlogNot 1 2 0 .f64, .vsh 1 2 3 0 .bf16 0, .vcmp 1 .eq 1 2 0 .f19, .whilePred 1 true true 1 2 .f32,
    .vcvt 1 2 .c8 0 .f32 0, .vcvt 1 2 .f32 0 .c4 0, .vcvtHi 1 2 .f16 0 .bf16 0] : List Instr).all (!·.wf) = true ∧
    ([.vredAdd 1 2 0 .f19 0, .vredMin 1 2 0 .c8 0, .vredMax 1 2 0 .f19 0, .vredAnd 1 2 0 .f32 0, .vredOr 1 2 0 .f32 0, .vredXor 1 2 0 .f64 0, .vdot 1 2 3 0 .f19 0,
    .vsel 1 2 3 0 .c8, .vperm 1 2 3 0 .c4, .vbcast 1 2 0 .c8, .vext 1 2 3 .c8, .vins 1 2 3 .c4, .vzip 1 2 3 0 .c8, .vscanAdd 1 2 0 .f19 0, .vscanMin 1 2 0 .c8 0,
    .vscanMax 1 2 0 .c4 0, .vld 1 2 3 0 .c8, .vst 1 2 3 0 .c4, .vgath 1 2 3 0 .c8, .vscat 1 2 3 0 .c4, .vshuf 1 2 3 0 .i32, .vmov 1 2 0 .c8, .vldg 1 2 3 0 .c8,
    .vstg 1 2 3 0 .c4] : List Instr).all (!·.wf) = true ∧
    ([.vadd 1 2 3 0 .f64 3, .vsqrt 1 2 0 .bf16 3, .vunNeg 1 2 0 .n8 1, .vcvt 1 2 .f19 0 .i8 1, .vcvtHi 1 2 .f19 0 .f16 2, .vshuf 1 2 30 0 .n8] : List Instr).all (·.wf) = true := by
  decide +kernel

theorem test_wf_fields : ([.vadd 1 2 3 0 .i32 2, .vsub 1 2 3 0 .n8 3, .vmul 1 2 3 0 .i8 2, .vfma 1 2 3 0 .i8 2, .vdiv 1 2 3 0 .i8 2, .vunNeg 1 2 0 .f32 1, .vunAbs 1 2 0 .i32 2,
    .vsh 1 2 3 0 .i8 2, .vcvt 1 2 .f32 0 .i8 2, .vcvtHi 1 2 .f32 0 .i8 3, .vredAdd 1 2 0 .i8 2, .vredMin 1 2 0 .i8 2, .vredMax 1 2 0 .i8 2, .vredAnd 1 2 0 .i8 2,
    .vredOr 1 2 0 .i8 2, .vredXor 1 2 0 .i8 2, .vdot 1 2 3 0 .i8 2, .vscanAdd 1 2 0 .i8 2, .vscanMin 1 2 0 .i8 2, .vscanMax 1 2 0 .i8 2, .vshuf 1 2 31 0 .n8,
    .vcmp 0 .eq 1 2 0 .f32, .whilePred 0 true true 1 2 .n32, .plogAnd 0 1 2 3, .plogOr 0 1 2 3, .plogXor 0 1 2 3, .plogAndn 0 1 2 3] : List Instr).all (!·.wf) = true := by
  decide +kernel

theorem test_wf_scopes : ([.faAddN64 1 2 3 .lane false, .faAndN64 1 2 3 .core false, .faOrN64 1 2 3 .quad false, .faXorN64 1 2 3 .group false, .faMinI64 1 2 3 .sgrp false,
    .faMaxI64 1 2 3 .die false, .faMinN64 1 2 3 .lane false, .faMaxN64 1 2 3 .lane false, .faSwapN64 1 2 3 .lane false, .faCasN64 1 2 3 .lane false,
    .faAddF64 1 2 3 .lane false, .faGetN64 1 2 3 .die true, .binit 1 2 3 .lane, .barv 1 2 3 .lane, .barvX 1 2 3 .lane, .bwait 1 2 3 .lane, .btest 1 2 3 .lane,
    .semi 1 2 3 .lane, .semiSet 1 2 3 .lane, .semw 1 2 3 .lane, .semwDec 1 2 3 .lane, .tlbiVa 1 2 .lane, .tlbiAsid 1 .lane, .tlbiAll .lane] : List Instr).all (!·.wf) = true ∧
    ([.faAddN64 1 2 3 .pkg false, .faGetN64 1 2 3 .pod true, .binit 1 2 3 .core, .semw 1 2 3 .pod, .tlbiAll .core, .fence .lane] : List Instr).all (·.wf) = true := by decide +kernel

theorem test_wf_units : ([.tcfg 96 0, .mma 0 30 false, .mmaV 0 30 0 false, .scfg 1 .add .rst, .stile 31, .sjoinT 31 1, .send 1 2 0 9, .send 1 2 28 5, .send 1 2 3 0,
    .sendRep 1 2 0 9, .sendRep 1 2 31 2, .sendRep 1 2 3 0, .strmOff 1 23, .strmIn 1 23 2 0, .strmIn 1 24 30 0, .strmOut 1 23 2 0, .strmOut 1 24 30 0, .strmInD 1 23 2 0,
    .strmOutD 1 23 2 0] : List Instr).all (!·.wf) = true ∧
    ([.tcfg 95 127, .mma 3 29 false, .scfg 1 .add .rna, .stile 30, .sjoinT 30 1, .send 1 2 24 8, .sendRep 1 2 31 1, .strmOff 1 24, .strmIn 1 31 29 0] : List Instr).all (·.wf) = true := by
  decide +kernel

/-! ### Words of the encodings, written out field by field (R31, R39 to R43) -/

/-- One word of each family, its fields in the order of its format: RR, RI, LW, BC, J, BP, V, MI, SC. -/
theorem test_decode_formats :
    decodeWord (0#4 ++ (0#5 ++ (2#5 ++ (1#5 ++ (3#5 ++ (0x10#7 ++ 1#1)))))) = some (.add 3 1 2) ∧
    decodeWord (0x2A5F#14 ++ (7#5 ++ (9#5 ++ (0x11#7 ++ 1#1)))) = some (.addi 9 7 0x2A5F) ∧
    decodeWord (0x4321F#19 ++ (30#5 ++ (0x2A#7 ++ 1#1))) = some (.li 30 0x4321F) ∧
    decodeWord (0x1FD#9 ++ (2#5 ++ (1#5 ++ (2#5 ++ (0x02#7 ++ 1#1))))) = some (.bcc .lt 1 2 0x1FD) ∧
    decodeWord (0x80001F#24 ++ (0x01#7 ++ 1#1)) = some (.br 0x80001F) ∧
    decodeWord (0#4 ++ (1#2 ++ (5#3 ++ (0x4003#15 ++ (0x03#7 ++ 1#1))))) = some (.bp .all 5 0x4003) ∧
    decodeWord (1#2 ++ (10#4 ++ (4#3 ++ (3#5 ++ (2#5 ++ (1#5 ++ (0x30#7 ++ 1#1))))))) = some (.vadd 1 2 3 4 .f32 1) ∧
    decodeWord (0#1 ++ (1#1 ++ (2#2 ++ (0x205#10 ++ (8#5 ++ (7#5 ++ (0x50#7 ++ 1#1))))))) = some (.ld 7 8 0x205 2 true) ∧
    decodeWord (0#4 ++ (1#2 ++ (6#3 ++ (7#5 ++ (10#5 ++ (5#5 ++ (0x5F#7 ++ 1#1))))))) = some (.faAddN64 5 10 7 .pkg true) ∧
    decodeWord (1#4 ++ (0#2 ++ (6#3 ++ (0#5 ++ (0#5 ++ (0#5 ++ (0x5E#7 ++ 1#1))))))) = some (.fence .pkg) ∧
    decodeWord (1#1 ++ (0x62#13 ++ (9#5 ++ (0#5 ++ (0x7D#7 ++ 1#1))))) = some (.cwr 0x62 9) := by decide +kernel

/-- The same of the compact formats: CX, CR, CI, CM, CB, CJ; 0x0000 is BRK with code 0 (R44). -/
theorem test_decode_compact_formats :
    decodeHalf 0x0000#16 = some (.cBrk 0) ∧ decodeHalf (0x155#10 ++ (0#5 ++ 0#1)) = some (.cBrk 0x155) ∧
    decodeHalf (21#5 ++ (10#5 ++ (3#5 ++ 0#1))) = some (.cAdd 21 10) ∧ decodeHalf (21#5 ++ (0x1F#5 ++ (9#5 ++ 0#1))) = some (.cLi 21 0x1F) ∧
    decodeHalf (3#3 ++ (6#3 ++ (15#4 ++ (13#5 ++ 0#1)))) = some (.cLd 11 14 15) ∧ decodeHalf (7#3 ++ (0x41#7 ++ (18#5 ++ 0#1))) = some (.cBccEq 15 0x41) ∧
    decodeHalf (7#3 ++ (0x41#7 ++ (31#5 ++ 0#1))) = some (.cBpAny 7 0x41) ∧ decodeHalf (0x3FF#10 ++ (17#5 ++ 0#1)) = some (.cBr 0x3FF) := by decide +kernel

/-- A prefix and its word (R36): the payload of ADDI; a prefix before a compact unit, before another prefix, and before ADD. -/
theorem test_decode_prefix :
    (decode [0xFF, 1, 2, 3, 0x23, 0x09, 0, 0]).toOption.map (fun d => (d.instr, d.size)) = some (.extPrefixedUnit 0x030201 (.addi 9 0 0), 8) ∧
    (decode [0x21, 0x23, 8, 0]).toOption.map (fun d => (d.instr, d.size)) = some (.add 3 1 2, 4) ∧
    (decode [0xFF, 1, 2, 3, 0x22, 0x09, 0, 0]).toOption.isNone = true ∧ (decode [0xFF, 1, 2, 3, 0xFF, 0x09, 0, 0]).toOption.isNone = true ∧
    (decode [0x21, 0x23, 8, 1]).toOption.isNone = true := by decide +kernel

/-! ### A word for every constructor, from the opcode table's fixed bits with the operands' fields put in -/

theorem test_words_nop_to_div_i64 : ([
    (0x00000001, .nop),
    (0xB74B5B03, .br 0xB74B5B),
    (0xB76D4405, .bcc .ltn 10 27 0x16E),
    (0x0B5BA507, .bp .none 6 0x5BA5),
    (0xB74B5B09, .call 0xB74B5B),
    (0x0001550B, .callr 21 10),
    (0x0000000D, .ret),
    (0x0001400F, .jr 10),
    (0xB7001311, .loop 19 0x16E),
    (0x98DD4813, .rep 10 9 .both 8 4 13),
    (0xB7495515, .start 21 10 0x2DD2),
    (0x00000017, .endCtx),
    (0x00000019, .yield),
    (0x16E9551B, .wait 21 10 0x2DD),
    (0x0010151D, .getid 21 .cid),
    (0xB74B5B1F, .brk 0xB74B5B),
    (0x006D5521, .add 21 10 27),
    (0xB7495523, .addi 21 10 0x2DD2),
    (0x006D5525, .sub 21 10 27),
    (0x006D5527, .mul 21 10 27),
    (0x006D5529, .mulhI64 21 10 27),
    (0x106D5529, .mulhN64 21 10 27),
    (0x206D5529, .mulhSu 21 10 27),
    (0x006D552B, .divI64 21 10 27)] : List (BitVec 32 × Instr)).all (fun e => decodeWord e.1 == some e.2 && e.2.wf) = true := by decide +kernel

theorem test_words_div_n64_to_min_n64 : ([
    (0x106D552B, .divN64 21 10 27),
    (0x006D552D, .remI64 21 10 27),
    (0x106D552D, .remN64 21 10 27),
    (0x036D552F, .madd 21 10 27 6),
    (0x136D552F, .msub 21 10 27 6),
    (0x006D5531, .andR 21 10 27),
    (0x006D5533, .orR 21 10 27),
    (0x006D5535, .xorR 21 10 27),
    (0x006D5537, .andn 21 10 27),
    (0x2DD15539, .logiAnd 21 10 0xB74),
    (0x6DD15539, .logiOr 21 10 0xB74),
    (0xADD15539, .logiXor 21 10 0xB74),
    (0xEDD15539, .logiAndn 21 10 0xB74),
    (0x006D553B, .shl 21 10 27),
    (0x006D553D, .shr 21 10 27),
    (0x006D553F, .sar 21 10 27),
    (0x006D5541, .rotL 21 10 27),
    (0x106D5541, .rotR 21 10 27),
    (0x00B55543, .shiShl 21 10 0x2D),
    (0x01B55543, .shiShr 21 10 0x2D),
    (0x02B55543, .shiSar 21 10 0x2D),
    (0x03B55543, .shiRot 21 10 0x2D),
    (0x006D5545, .minI64 21 10 27),
    (0x106D5545, .minN64 21 10 27)] : List (BitVec 32 × Instr)).all (fun e => decodeWord e.1 == some e.2 && e.2.wf) = true := by decide +kernel

theorem test_words_max_i64_to_vadd : ([
    (0x006D5547, .maxI64 21 10 27),
    (0x106D5547, .maxN64 21 10 27),
    (0x026D5549, .cmp 21 .ltn 10 27),
    (0x036D554B, .sel 21 10 27 6),
    (0x0301554D, .ext 21 10 6),
    (0x0001554F, .bitcPop 21 10),
    (0x1001554F, .bitcClz 21 10),
    (0x2001554F, .bitcCtz 21 10),
    (0x3001554F, .bitcRev 21 10),
    (0x4001554F, .bitcBsw 21 10),
    (0x006D5551, .bfxN 21 10 27),
    (0x106D5551, .bfxI 21 10 27),
    (0x006D5553, .bfi 21 10 27),
    (0xB74B5555, .li 21 0x5BA5A),
    (0xB74B5557, .lih 21 0x5BA5A),
    (0x306D5559, .lea 21 10 27 3),
    (0x0581555B, .hdrPack 21 10 0xB),
    (0x1581545B, .hdrSplit 20 10 0xB),
    (0x006D555D, .shuf 21 10 27),
    (0x1B6D555D, .shufKLow 21 10 27 0x16),
    (0x2B6D555D, .shufKHigh 21 10 27 22),
    (0x036D555F, .addc 21 10 27 6),
    (0x136D555F, .addcCo 21 10 27 6),
    (0x6B6D5561, .vadd 21 10 27 6 .f32 0x1)] : List (BitVec 32 × Instr)).all (fun e => decodeWord e.1 == some e.2 && e.2.wf) = true := by decide +kernel

theorem test_words_vsub_to_while : ([
    (0x6B6D5563, .vsub 21 10 27 6 .f32 0x1),
    (0x6B6D5565, .vmul 21 10 27 6 .f32 0x1),
    (0x6B6D5567, .vfma 21 10 27 6 .f32 0x1),
    (0x6B6D5569, .vdiv 21 10 27 6 .f32 0x1),
    (0x6B01556B, .vsqrt 21 10 6 .f32 0x1),
    (0x2B6D556D, .vmin 21 10 27 6 .f32),
    (0x2B6D556F, .vmax 21 10 27 6 .f32),
    (0x5B015571, .vunNeg 21 10 6 .n32 0x1),
    (0x5B055571, .vunAbs 21 10 6 .n32 0x1),
    (0x6B095571, .vunRint 21 10 6 .f32 0x1),
    (0x1B0D5571, .vunPopc 21 10 6 .n32),
    (0x1B115571, .vunClz 21 10 6 .n32),
    (0x1B015573, .vlogAnd 21 10 6 .n32),
    (0x1B055573, .vlogOr 21 10 6 .n32),
    (0x1B095573, .vlogXor 21 10 6 .n32),
    (0x1B0D5573, .vlogAndn 21 10 6 .n32),
    (0x1B115573, .vlogOrn 21 10 6 .n32),
    (0x1B155573, .vlogNand 21 10 6 .n32),
    (0x1B195573, .vlogNor 21 10 6 .n32),
    (0x1B1D5573, .vlogXnor 21 10 6 .n32),
    (0x1B215573, .vlogNot 21 10 6 .n32),
    (0x5B6D5575, .vsh 21 10 27 6 .n32 0x1),
    (0x2B6D5577, .vcmp 5 .lt 10 27 6 .f32),
    (0x186D5D79, .whilePred 5 true true 10 27 .n32)] : List (BitVec 32 × Instr)).all (fun e => decodeWord e.1 == some e.2 && e.2.wf) = true := by decide +kernel

theorem test_words_vwid_to_vbcast : ([
    (0x0000157B, .vwid 21),
    (0x1184C57D, .plogAnd 5 6 1 3),
    (0x1184CD7D, .plogOr 5 6 1 3),
    (0x1184D57D, .plogXor 5 6 1 3),
    (0x1184DD7D, .plogAndn 5 6 1 3),
    (0x6B05557F, .vcvt 21 10 .i16 6 .f32 0x1),
    (0x6B45557F, .vcvtHi 21 10 .i16 6 .f32 0x1),
    (0x6B215581, .vfunExp2 21 10 true 6 0x1),
    (0x6B255581, .vfunLog2 21 10 true 6 0x1),
    (0x6B295581, .vfunRcp 21 10 true 6 0x1),
    (0x6B2D5581, .vfunRsq 21 10 true 6 0x1),
    (0x6B315581, .vfunSinpi 21 10 true 6 0x1),
    (0x6B355581, .vfunCospi 21 10 true 6 0x1),
    (0x6B395581, .vfunTanh 21 10 true 6 0x1),
    (0x6B015583, .vredAdd 21 10 6 .f32 0x1),
    (0x6B055583, .vredMin 21 10 6 .f32 0x1),
    (0x6B095583, .vredMax 21 10 6 .f32 0x1),
    (0x5B0D5583, .vredAnd 21 10 6 .n32 0x1),
    (0x5B115583, .vredOr 21 10 6 .n32 0x1),
    (0x5B155583, .vredXor 21 10 6 .n32 0x1),
    (0x6B6D5585, .vdot 21 10 27 6 .f32 0x1),
    (0x2B6D5587, .vsel 21 10 27 6 .f32),
    (0x2B6D5589, .vperm 21 10 27 6 .f32),
    (0x2B01558B, .vbcast 21 10 6 .f32)] : List (BitVec 32 × Instr)).all (fun e => decodeWord e.1 == some e.2 && e.2.wf) = true := by decide +kernel

theorem test_words_vext_to_ldg : ([
    (0x286D558D, .vext 21 10 27 .f32),
    (0x286D558F, .vins 21 10 27 .f32),
    (0x2B6D5591, .vzip 21 10 27 6 .f32),
    (0x6B015593, .vscanAdd 21 10 6 .f32 0x1),
    (0x6B055593, .vscanMin 21 10 6 .f32 0x1),
    (0x6B095593, .vscanMax 21 10 6 .f32 0x1),
    (0x2B6D5595, .vld 21 10 27 6 .f32),
    (0x2B6D5597, .vst 21 10 27 6 .f32),
    (0x2B6D5599, .vgath 21 10 27 6 .f32),
    (0x2B6D559B, .vscat 21 10 27 6 .f32),
    (0x1B71559D, .vshuf 21 10 28 6 .n32),
    (0x2B01559F, .vmov 21 10 6 .f32),
    (0x6B75D5A1, .ld 21 14 0x2DD 0x2 true),
    (0x2B75D5A3, .st 21 14 0x2DD 0x2),
    (0x61ED55A5, .ldx 21 10 27 3 0x2 true),
    (0x21ED55A7, .stx 21 10 27 3 0x2),
    (0x3B75D5A9, .ldfe 21 14 0x2DD),
    (0x3B75D5AB, .stfe 21 14 0x2DD),
    (0x01ED40AD, .feopSet 10 27 3),
    (0x11ED40AD, .feopClr 10 27 3),
    (0x21ED55AD, .feopQry 21 10 27 3),
    (0x31ED55AD, .feopLdff 21 10 27 3),
    (0x61ED55AF, .xch 21 10 27 3 0x2 true),
    (0x6B75D5B1, .ldg 21 14 0x2DD 0x2 true)] : List (BitVec 32 × Instr)).all (fun e => decodeWord e.1 == some e.2 && e.2.wf) = true := by decide +kernel

theorem test_words_stg_to_fa_add_f64 : ([
    (0x2B75D5B3, .stg 21 14 0x2DD 0x2),
    (0x2B6D55B5, .vldg 21 10 27 6 .f32),
    (0x2B6D55B7, .vstg 21 10 27 6 .f32),
    (0x0B75C0B9, .prefRd 14 0x2DD),
    (0x0B75C1B9, .prefOwn 14 0x2DD),
    (0x0B75C2B9, .prefSlc 14 0x2DD),
    (0x006D55BB, .lease 21 10 27),
    (0x100155BB, .unlease 21 10),
    (0x200155BB, .lstat 21 10),
    (0x000000BD, .tcut),
    (0x130000BD, .fence .pkg),
    (0x230000BD, .acq .pkg),
    (0x330000BD, .rel .pkg),
    (0x076D55BF, .faAddN64 21 10 27 .pkg true),
    (0x176D55BF, .faAndN64 21 10 27 .pkg true),
    (0x276D55BF, .faOrN64 21 10 27 .pkg true),
    (0x376D55BF, .faXorN64 21 10 27 .pkg true),
    (0x476D55BF, .faMinI64 21 10 27 .pkg true),
    (0x576D55BF, .faMaxI64 21 10 27 .pkg true),
    (0x676D55BF, .faMinN64 21 10 27 .pkg true),
    (0x776D55BF, .faMaxN64 21 10 27 .pkg true),
    (0x876D55BF, .faSwapN64 21 10 27 .pkg true),
    (0x976D55BF, .faCasN64 21 10 27 .pkg true),
    (0xA76D55BF, .faAddF64 21 10 27 .pkg true)] : List (BitVec 32 × Instr)).all (fun e => decodeWord e.1 == some e.2 && e.2.wf) = true := by decide +kernel

theorem test_words_fa_get_n64_to_sjoin_r : ([
    (0xB76D55BF, .faGetN64 21 10 27 .pkg true),
    (0x006D55C1, .capGive 21 10 27),
    (0x000155C3, .capClaim 21 10),
    (0x000155C5, .capSeal 21 10),
    (0x100155C5, .capUnseal 21 10),
    (0x000155C7, .capQry 21 10),
    (0x100155C7, .capQryWait 21 10),
    (0xB76800C9, .tcfg 0x5A 0x5B),
    (0x002C00CB, .trel 0xB),
    (0x000142CD, .dtld 2 10),
    (0x100802CD, .dtldStd 2 .intf),
    (0x000140CF, .fctx 10),
    (0x100015CF, .fctxRd 21),
    (0x036D40D1, .tldb 27 10 6),
    (0x100142D3, .mma 2 10 true),
    (0x3D0142D3, .mmaV 2 10 26 true),
    (0x006D42D5, .tstcF32 2 27 10),
    (0x106D42D5, .tstcBf16 2 27 10),
    (0x206D42D5, .tstcF16 2 27 10),
    (0x000142D7, .tqnt 2 10),
    (0x006C15D9, .scfg 21 .maxp .rup),
    (0x000140DB, .stile 10),
    (0x280155DD, .sjoinT 21 10),
    (0x686D55DD, .sjoinR 21 10 27)] : List (BitVec 32 × Instr)).all (fun e => decodeWord e.1 == some e.2 && e.2.wf) = true := by decide +kernel

theorem test_words_chain_post_to_cpy_stat_err : ([
    (0x006D55DF, .chainPost 21 10 27),
    (0x106D55DF, .chainWait 21 10 27),
    (0x200015DF, .chainPos 21),
    (0x036D55E1, .binit 21 10 27 .pkg),
    (0x036D55E3, .barv 21 10 27 .pkg),
    (0x136D55E3, .barvX 21 10 27 .pkg),
    (0x036D55E5, .bwait 21 10 27 .pkg),
    (0x036D55E7, .btest 21 10 27 .pkg),
    (0x036D55E9, .semi 21 10 27 .pkg),
    (0x136D55E9, .semiSet 21 10 27 .pkg),
    (0x036D55EB, .semw 21 10 27 .pkg),
    (0x136D55EB, .semwDec 21 10 27 .pkg),
    (0x006D55ED, .qinit 21 10 27),
    (0x106D55ED, .enq 21 10 27),
    (0x10ED55ED, .enqB 21 10 27),
    (0x200155ED, .deq 21 10),
    (0x20ED55ED, .deqB 21 10 27),
    (0x21ED55ED, .deqPoll 21 10 27),
    (0x02E955EF, .send 21 10 26 5),
    (0x12E955EF, .sendRep 21 10 26 5),
    (0x200155EF, .sendRef 21 10),
    (0x006D55F1, .cpy 21 10 27),
    (0x100155F1, .cpyStat 21 10),
    (0x108155F1, .cpyStatErr 21 10)] : List (BitVec 32 × Instr)).all (fun e => decodeWord e.1 == some e.2 && e.2.wf) = true := by decide +kernel

theorem test_words_cpy_stat_wait_to_tlbi_all : ([
    (0x116D55F1, .cpyStatWait 21 10 27),
    (0x006D55F3, .gath 21 10 27),
    (0x006D55F5, .scat 21 10 27),
    (0x006815F7, .strmOff 21 26),
    (0x1B6955F7, .strmIn 21 26 10 0x16),
    (0x2B6955F7, .strmOut 21 26 10 0x16),
    (0x3B6955F7, .strmInD 21 26 10 0x16),
    (0x4B6955F7, .strmOutD 21 26 10 0x16),
    (0x0B0140F9, .trap 10 0x16),
    (0x100140F9, .eret 10),
    (0x108140F9, .eretEnd 10),
    (0x200155F9, .parkrd 21 10),
    (0x306D40F9, .parkwr 10 27),
    (0x400155F9, .erlog 21 10),
    (0x408140F9, .erlogEsc 10),
    (0x018815FB, .crd 21 0x62),
    (0x818940FB, .cwr 0x62 10),
    (0x036D40FD, .tlbiVa 10 27 .pkg),
    (0x136C00FD, .tlbiAsid 27 .pkg),
    (0x230000FD, .tlbiAll .pkg)] : List (BitVec 32 × Instr)).all (fun e => decodeWord e.1 == some e.2 && e.2.wf) = true := by decide +kernel

theorem test_halves_c_brk_to_c_yield : ([
    (0xB740, .cBrk 0x2DD),
    (0x0002, .cNop),
    (0xAA44, .cMov 21 9),
    (0xAA46, .cAdd 21 9),
    (0xAA48, .cSub 21 9),
    (0xAA4A, .cAnd 21 9),
    (0xAA4C, .cOr 21 9),
    (0xAA4E, .cXor 21 9),
    (0xAD90, .cAddi 21 0x16),
    (0xAD92, .cLi 21 0x16),
    (0xAD94, .cShiShl 21 0x16),
    (0xAD96, .cShiShr 21 0x16),
    (0xAD98, .cShiSar 21 0x16),
    (0x7ADA, .cLd 11 14 0xB),
    (0x7ADC, .cSt 11 14 0xB),
    (0x7ADE, .cLdg 11 14 0xB),
    (0x7AE0, .cStg 11 14 0xB),
    (0xB762, .cBr 0x2DD),
    (0x76E4, .cBccEq 11 0x5B),
    (0x76E6, .cBccNe 11 0x5B),
    (0x0028, .cRet),
    (0x026A, .cJr 9),
    (0x026C, .cCallr 9),
    (0x002E, .cYield)] : List (BitVec 16 × Instr)).all (fun e => decodeHalf e.1 == some e.2 && e.2.wf) = true := by decide +kernel

theorem test_halves_c_end_to_c_bp_any : ([
    (0x0030, .cEnd),
    (0x0032, .cTcut),
    (0xAA74, .cVaddF32 21 9),
    (0xAA76, .cVmulF32 21 9),
    (0xAA78, .cVmov 21 9),
    (0xAA7A, .cVld 21 9),
    (0xAA7C, .cVst 21 9),
    (0xD6FE, .cBpAny 6 0x5B)] : List (BitVec 16 × Instr)).all (fun e => decodeHalf e.1 == some e.2 && e.2.wf) = true := by decide +kernel

/-! ### Scalar units: what the statements' hypotheses name, and what the unit then does -/

/-- g1 = 8, g2 = -9, g3 = 100, g10 = 2^63. -/
def s1 : State := sg [(1, 8), (2, 2 ^ 64 - 9), (3, 100), (10, 2 ^ 63)]

/-- R144, R149, R150: ADD, MADD, ADDI, LI, CMP, BFI and a compact form, with what they read and write. -/
theorem test_scalar_arithmetic :
    Runs s1 ∧ Reads [1, 2] (begun s1) [8, 2 ^ 64 - 9] (red [1, 2] (begun s1)) ∧ Writes 5 (2 ^ 64 - 1) (red [1, 2] (begun s1)) (wrote 5 (2 ^ 64 - 1) (red [1, 2] (begun s1))) ∧
    next (exec (.add 5 1 2) s1) = some (retired s1 (wrote 5 (2 ^ 64 - 1) (red [1, 2] (begun s1)))) ∧
    Reads [1, 2, 3] (begun s1) [8, 2 ^ 64 - 9, 100] (red [1, 2, 3] (begun s1)) ∧ Writes 3 28 (red [1, 2, 3] (begun s1)) (wrote 3 28 (red [1, 2, 3] (begun s1))) ∧
    next (exec (.madd 3 1 2 3) s1) = some (retired s1 (wrote 3 28 (red [1, 2, 3] (begun s1)))) ∧
    next (exec (.addi 1 1 0x3FF7) s1) = some (retired s1 (wrote 1 (2 ^ 64 - 1) (red [1] (begun s1)))) ∧
    next (exec (.li 0 5) s1) = some (retired s1 (wrote 0 5 (begun s1))) ∧
    Plain (begun s1) 3 ∧ next (exec (.lih 3 5) s1) = some (retired s1 (wrote 3 (5 * 2 ^ 32 + 100) (begun s1))) ∧
    next (exec (.cmp 5 .lt 2 1) s1) = some (retired s1 (wrote 5 1 (red [2, 1] (begun s1)))) ∧
    next (exec (.cmp 5 .ltn 2 1) s1) = some (retired s1 (wrote 5 0 (red [2, 1] (begun s1)))) ∧
    s1.unitOf.pre = none ∧ next (exec (.cAddi 1 0x1F) s1) = some (retired s1 (wrote 1 7 (red [1] (begun s1)))) := by
  and_intros <;> first | decide +kernel | exact runs_of (by decide +kernel) | exact reads_of (by decide +kernel) | exact writes_of (by decide +kernel) | exact plain_of (by decide +kernel)

/-- BFX and BFI: a field of 8 bits at bit 4 (R146): 0x1A84 has 0xA8 there. -/
def s2 : State := sg [(1, 0x1A84), (2, 4 + 7 * 256), (3, 0xAB), (4, 2 ^ 64 - 1)]
theorem test_fields : (next (exec (.bfxN 5 1 2) s2)).map (·.g 5) = some 0xA8 ∧ (next (exec (.bfxI 5 1 2) s2)).map (·.g 5) = some (2 ^ 64 - 88) ∧
    remap s2.me.cmode 4 = none ∧ (next (exec (.bfi 4 3 2) s2)).map (·.g 4) = some 0xFFFFFFFFFFFFFABF := by decide +kernel

/-- A destination that CMODE remaps to queue register 0: LIH and BFI trap (R138). -/
def s3 : State := st { aCore [(1, 8)] with ctxs := [(0, { aCtx with cmode := 0x20#64 })], q := [(0, [7#64, 9#64])] }
theorem test_remapped : Runs s3 ∧ (remap s3.me.cmode 28).isSome = true ∧ (28 : GReg) ≠ 0#5 ∧
    next (exec (.lih 28 1) s3) = some (trapped s3 { cause := .illegal }) ∧ next (exec (.bfi 28 1 1) s3) = some (trapped s3 { cause := .illegal }) := by
  and_intros <;> first | decide +kernel | exact runs_of (by decide +kernel)

/-- Reading the queue register takes its oldest entry; with none it waits; a write adds a pending entry while the 8 entries are not full (R135, R136). -/
def s4 : State := s3.modCore 0 fun c => { c with q := [] }
def s5 : State := s3.modCore 0 fun c => { c with q := [(0, List.replicate 8 7#64)] }
theorem test_queue_registers : remap s3.me.cmode 28 = some 0 ∧ (∀ e ∈ s3.me.farq, e.d ≠ 28) ∧ tabGet s3.mine.q 0 [] = [7#64, 9#64] ∧
    got (readG 28) s3 = some 7#64 ∧ tabGet (after (readG 28) s3).mine.q 0 [] = [9#64] ∧ (after (readG 28) s3).me.running.pops = [(0, 7#64)] ∧
    tabGet s4.mine.q 0 [] = [] ∧ got (readG 28) s4 = none ∧ s3.mine.queueCount 0 + 1 ≤ queueDepthOf 0 ∧ got (writeG 28 5) s3 = some () ∧
    (after (writeG 28 5) s3).me.running.pushes = [(0, 5#64)] ∧ queueDepthOf 0 < s5.mine.queueCount 0 + 1 ∧ got (writeG 28 5) s5 = none ∧
    (28 : GReg) ≠ 0#5 ∧ remap 0x10#64 24 = some 4 ∧ remap 0x10#64 27 = some 7 ∧ remap 0x20#64 31 = some 3 ∧ remap 0x30#64 23 = none := by decide +kernel

/-- g0 and a plain register (R52, R130): the write is read back, the others are as before; the store is canonical. -/
theorem test_register_writes : Plain s1 3 ∧ Memory.wf s1.mine.store = true ∧ (3 : GReg) ≠ 0#5 ∧ (wrote 3 77 s1).g 3 = 77 ∧ (wrote 3 77 s1).g 2 = s1.g 2 ∧
    wrote 0 77 s1 = s1 ∧ got (readG 0) s1 = some 0 ∧ (after (writeP 2 5) s1).p 2 = 5 ∧ (after (writeP 0 5) s1).p 0 = BitVec.allOnes 256 ∧ (2 : PReg) ≠ 0#3 := by
  and_intros <;> first | decide +kernel | exact plain_of (by decide +kernel)

/-- A far atomic that will still write the register: its reader does not retire (R261). -/
def s6 : State := s1.modCtx 0 0 fun v => { v with farq := [aFar] }
theorem test_far_register : (∃ e ∈ s6.me.farq, e.d = 3) ∧ got (readG 3) s6 = none ∧ (next (exec (.add 5 3 1) s6)).map (·.me.life) = some (.blocked (.farReg 3)) := by
  decide +kernel

/-- R145: -2^63 by -1, -9 by 0 and -9 by 8; 34 ticks. -/
def s7 : State := sg [(1, 8), (2, 2 ^ 64 - 9), (3, 2 ^ 63), (4, 2 ^ 64 - 1)]
theorem test_division : Runs s7 ∧ Reads [3, 4] (begun s7) [2 ^ 63, 2 ^ 64 - 1] (red [3, 4] (begun s7)) ∧
    Writes 5 (2 ^ 63) (red [3, 4] (begun s7)) (wrote 5 (2 ^ 63) (red [3, 4] (begun s7))) ∧
    next (exec (.divI64 5 3 4) s7) = some (paused s7 (wrote 5 (2 ^ 63) (red [3, 4] (begun s7))) (s7.tick + 35)) ∧
    next (exec (.remI64 5 3 4) s7) = some (paused s7 (wrote 5 0 (red [3, 4] (begun s7))) (s7.tick + 35)) ∧
    next (exec (.divI64 5 2 0) s7) = some (paused s7 (wrote 5 0 (red [2, 0] (begun s7))) (s7.tick + 35)) ∧
    next (exec (.remN64 5 2 0) s7) = some (paused s7 (wrote 5 (2 ^ 64 - 9) (red [2, 0] (begun s7))) (s7.tick + 35)) ∧
    next (exec (.divI64 5 2 1) s7) = some (paused s7 (wrote 5 (2 ^ 64 - 1) (red [2, 1] (begun s7))) (s7.tick + 35)) ∧
    next (exec (.remI64 5 2 1) s7) = some (paused s7 (wrote 5 (2 ^ 64 - 1) (red [2, 1] (begun s7))) (s7.tick + 35)) := by
  and_intros <;> first | decide +kernel | exact runs_of (by decide +kernel) | exact reads_of (by decide +kernel) | exact writes_of (by decide +kernel)

/-- R146, R147: two fields of a layout, of 4 bits at 0 and 12 bits at 4: 0xA and 0xBCD make 0xBCDA, and split again. -/
def s8 : State := (sg [(1, 0xA), (2, 0xBCD), (9, 0xBCDA)]).modCore 0 fun c => { c with layout := [(0, 4#64 * 64#64 + (4#64 + 12#64 * 64#64) * 65536#64)] }
theorem test_header : layoutField s8.mine 0 0 = (0, 4) ∧ (layoutField s8.mine 0 1).2 ≠ 0 ∧ (layoutField s8.mine 0 2).2 = 0 ∧
    got (hdrPackFrom (begun s8).mine 1 0 8 0 0#64) (begun s8) = some 0xBCDA ∧ (next (exec (.hdrPack 9 1 0) s8)).map (·.g 9) = some 0xBCDA ∧
    got (hdrSplitFrom (begun s8).mine 20 0 0xBCDA 8 0) (begun s8) = some () ∧
    (next (exec (.hdrSplit 20 9 0) s8)).map (fun t => (t.g 20, t.g 21, t.g 22)) = some (0xA, 0xBCD, 0) := by decide +kernel

/-- The scalar results of the rules' own arithmetic (R144, R148, R149). -/
def s9 : State := sg [(1, 3), (2, 2 ^ 64 - 2), (3, 0xF0F1), (4, 65)]
theorem test_scalar_results_1 : ([(.sub 9 1 2, 5), (.mul 9 1 2, 2 ^ 64 - 6), (.mulhI64 9 1 2, 2 ^ 64 - 1), (.mulhN64 9 1 2, 2), (.mulhSu 9 2 1, 2 ^ 64 - 1),
    (.andR 9 1 3, 1), (.orR 9 1 3, 0xF0F3), (.xorR 9 1 3, 0xF0F2), (.andn 9 1 3, 2), (.shl 9 1 4, 6), (.shr 9 2 4, 2 ^ 63 - 1), (.sar 9 2 4, 2 ^ 64 - 1),
    (.rotL 9 2 4, 2 ^ 64 - 3), (.rotR 9 1 4, 2 ^ 63 + 1), (.minI64 9 1 2, 2 ^ 64 - 2), (.minN64 9 1 2, 3), (.maxI64 9 1 2, 3), (.maxN64 9 1 2, 2 ^ 64 - 2)] :
    List (Instr × Word)).all (fun e => (next (exec e.1 s9)).map (·.g 9) == some e.2) = true := by decide +kernel
theorem test_scalar_results_2 : ([(.msub 9 1 2 3, 0xF0F7), (.sel 9 1 2 0, 2 ^ 64 - 2), (.ext 9 2 4, 0xFE), (.ext 9 2 0, 2 ^ 64 - 2), (.bitcPop 9 3, 9), (.bitcClz 9 1, 62), (.bitcCtz 9 2, 1),
    (.bitcRev 9 1, 2 ^ 62 + 2 ^ 63), (.bitcBsw 9 3, 0xF1F0 * 2 ^ 48), (.lea 9 1 1 4, 51), (.addc 9 2 1 1, 2), (.addcCo 9 2 1 1, 1), (.logiAnd 9 3 0xFF1, 0xF0F1), (.logiOr 9 1 8, 11),
    (.logiXor 9 1 1, 2), (.logiAndn 9 1 1, 2), (.shiShl 9 1 63, 2 ^ 63), (.shiShr 9 2 63, 1), (.shiSar 9 2 63, 2 ^ 64 - 1), (.shiRot 9 1 63, 2 ^ 63 + 1)] :
    List (Instr × Word)).all (fun e => (next (exec e.1 s9)).map (·.g 9) == some e.2) = true := by decide +kernel

/-! ### Control, decoding and issue -/

/-- g1 = 0x300100, g2 = 0x300101, g3 = 1. -/
def c1 : State := sg [(1, 0x300100), (2, 0x300101), (3, 1)]

/-- R112, R115, R117 to R120: targets and links; the odd target traps; BCC taken and not; LOOP to 0 and past it. -/
theorem test_transfers : Runs c1 ∧ next (exec .nop c1) = some (retired c1 (begun c1)) ∧
    next (exec (.br 0xFFFFFE) c1) = some (jumped c1 (begun c1) 0x2FFFFC) ∧ next (exec (.cBr 0x200) c1) = some (jumped c1 (begun c1) 0x2FFC00) ∧
    Writes 1 0x300004 (begun c1) (wrote 1 0x300004 (begun c1)) ∧ next (exec (.call 4) c1) = some (jumped c1 (wrote 1 0x300004 (begun c1)) 0x300008) ∧
    Reads [1] (begun c1) [0x300100] (red [1] (begun c1)) ∧ (0x300100 : Word).getLsbD 0 = false ∧
    next (exec (.jr 1) c1) = some (jumped c1 (red [1] (begun c1)) 0x300100) ∧ next (exec .ret c1) = some (jumped c1 (red [1] (begun c1)) 0x300100) ∧
    next (exec (.callr 1 1) c1) = some (jumped c1 (wrote 1 0x300004 (begun c1)) 0x300100) ∧ next (exec (.cCallr 1) c1) = next (exec (.callr 1 1) c1) ∧
    Reads [2] (begun c1) [0x300101] (red [2] (begun c1)) ∧ (0x300101 : Word).getLsbD 0 = true ∧
    next (exec (.callr 5 2) c1) = some (trapped c1 { cause := .misalignedTarget, addr := 0x300101 }) ∧
    Reads [1, 2] (begun c1) [0x300100, 0x300101] (red [1, 2] (begun c1)) ∧
    next (exec (.bcc .ltn 1 2 0x100) c1) = some (jumped c1 (red [1, 2] (begun c1)) 0x2FFE00) ∧
    next (exec (.bcc .gen 1 2 0x100) c1) = some (retired c1 (red [1, 2] (begun c1))) ∧
    next (exec (.cBccNe 3 4) c1) = some (jumped c1 (begun c1) 0x300008) ∧ next (exec (.bp .all 0 4) c1) = some (jumped c1 (begun c1) 0x300008) ∧
    next (exec (.loop 3 4) c1) = some (retired c1 (wrote 3 0 (red [3] (begun c1)))) ∧
    next (exec (.loop 4 4) c1) = some (jumped c1 (wrote 4 (2 ^ 64 - 1) (red [4] (begun c1))) 0x300008) := by
  and_intros <;> first | decide +kernel | exact runs_of (by decide +kernel) | exact reads_of (by decide +kernel) | exact writes_of (by decide +kernel)

/-- A REP of 2 units at 0x300000, its count in g1; NOPs follow (R123). -/
def repWord : Nat := 0x10000000 + 1 * 2 ^ 13 + 0x13
def c2 (n : Nat) : State :=
  ((sg [(1, n)]).withFetchWord 32 repWord).modCtx 0 0 fun v => { v with unit := ⟨0x300000#64, 4, BitVec.ofNat 32 repWord, none⟩ }
def c3 (n : Nat) : State := { c2 n with mem := memPut (c2 n).mem 0x300004 [1, 0, 0, 0, 2, 0] }
theorem test_repetition : Runs (c2 4097) ∧ Reads [1] (begun (c2 4097)) [4097] (red [1] (begun (c2 4097))) ∧
    next (exec (.rep 1 1 .nothing 0 0 0) (c2 4097)) = some (trapped (c2 4097) { cause := .repeatCount }) ∧
    Reads [1] (begun (c2 4096)) [4096] (red [1] (begun (c2 4096))) ∧
    ((next (exec (.rep 1 1 .nothing 0 0 0) (c2 4096))).bind fun t => t.me.rep.map fun r => (t.me.pc, r.remaining)) = some (0x300004, 4095) ∧
    Reads [1] (begun (c3 0)) [0] (red [1] (begun (c3 0))) ∧ got (skipUnits 2 0x300004) (begun (c3 0)) = some 0x30000A ∧
    (next (exec (.rep 1 1 .nothing 0 0 0) (c3 0))).map (fun t => (t.me.pc, t.me.rep)) = some (0x30000A, none) := by
  and_intros <;> first | decide +kernel | exact runs_of (by decide +kernel) | exact reads_of (by decide +kernel)

/-- In the body of that REP: the next captured unit, the next pass, the end of the repetition (R123). -/
def aRep (index remaining : Nat) : RepState := { word := BitVec.ofNat 32 repWord, addr := 0x300000, index := index, pass := 0, remaining := remaining }
theorem test_rep_step : (aRep 0 3).word.extractLsb' 28 4 = 1#4 ∧
    (repStep { aCtx with rep := some (aRep 0 3) } ⟨0x300000, 4, 0, none⟩).1 = 0x300004 ∧
    repStep { aCtx with rep := some (aRep 0 3) } ⟨0x300004, 4, 0, none⟩ = (0x300008, some (aRep 1 3)) ∧
    repStep { aCtx with rep := some (aRep 1 3) } ⟨0x300008, 2, 0, none⟩ = (0x300004, some { aRep 0 2 with pass := 1 }) ∧
    repStep { aCtx with rep := some (aRep 1 0) } ⟨0x300008, 2, 0, none⟩ = (0x30000A, none) ∧
    repStep aCtx ⟨0x300008, 2, 0, none⟩ = (0x30000A, none) := by decide +kernel

/-- The prefix of ADDI with payload 1: the immediate is 2^14 + 5; before ADD it traps (R36, R38). -/
def c4 : State := (sg [(1, 8)]).modCtx 0 0 fun v => { v with unit := ⟨0x300000#64, 8, 0#32, some 0x000001FF#32⟩ }
theorem test_prefixed : prefixFits 1 (.addi 9 1 5) = true ∧ prefixFits 1 (.add 9 1 1) = false ∧ Runs c4 ∧
    (next (exec (.extPrefixedUnit 1 (.addi 9 1 5)) c4)).map (·.g 9) = some (2 ^ 14 + 13) ∧
    next (exec (.extPrefixedUnit 1 (.add 9 1 1)) c4) = some (trapped c4 { cause := .illegal }) := by
  and_intros <;> first | decide +kernel | exact runs_of (by decide +kernel)

/-- YIELD, BRK and GETID (R113, R116, R129). -/
def c5 : State := st (svCore [(1, 0x800), (2, 0x801), (4, 0)])
theorem test_own_context : Runs c5 ∧ c5.mine.det = false ∧ next (exec .yield c5) = some (retired c5 (begun c5)) ∧
    next (exec (.brk 7) c5) = some ((retired c5 (begun c5)).trapUnit 0 0 c5.unitOf (begun c5).me.retire { cause := .breakpoint, addr := 7 }) ∧
    (next (exec (.brk 7) c5)).map (fun t => (t.me.life, t.mine.trapq.length, t.me.retire)) = some (.blocked (.trapEntry { cause := .breakpoint, addr := 7 }), 0, 1) ∧
    Writes 9 0x300000 (begun c5) (wrote 9 0x300000 (begun c5)) ∧ next (exec (.getid 9 .pc) c5) = some (retired c5 (wrote 9 0x300000 (begun c5))) ∧
    (next (exec (.getid 9 .nlane) c5)).map (·.g 9) = some 4 := by
  and_intros <;> first | decide +kernel | exact runs_of (by decide +kernel) | exact writes_of (by decide +kernel)

/-- START at a misaligned workspace, with a helper idle, and with none; WAIT for them; END of a helper (R114, R126, R128). -/
def c6 : State := c5.modCore 0 fun c => { c with ctxs := c.ctxs ++ ((List.range 10).map fun i => (i + 1, { ({} : Ctx) with life := .ready })) }
theorem test_helpers : Quiet c5 ∧ Reads [2] c5 [0x801] (red [2] c5) ∧ c5.mine.workspaceAligned 0x801 = false ∧
    next (exec (.start 9 2 8) c5) = some (stopUnit c5 0 0 c5.unitOf (.trap { cause := .misalignedWorkspace })) ∧
    Reads [1] c5 [0x800] (red [1] c5) ∧ c5.mine.workspaceAligned 0x800 = true ∧ helperIdle (red [1] c5) 0 1 = true ∧
    (next (exec (.start 9 1 8) c5)).map (fun t => (t.g 9, (t.ctx 0 1).life, (t.ctx 0 1).pc, (t.ctx 0 1).wsp, (t.ctx 0 1).readyAt)) = some (1, .ready, 0x300010, 0x800, 1) ∧
    (∀ h ∈ List.range 10, helperIdle (red [1] c6) 0 (h + 1) = false) ∧ (next (exec (.start 9 1 8) c6)).map (·.g 9) = some 0 ∧
    Reads [4] c5 [0] (red [4] c5) ∧ liveOf c5 0 0x7FE = 0 ∧ (next (exec (.wait 9 4 0x3FF) c5)).map (·.g 9) = some 0 ∧
    liveOf c6 0 0x7FE = 0x7FE ∧ next (exec (.wait 9 4 0x3FF) c6) = some (waiting c6 (red [4] c6) (.helpers 0x7FE none 9)) ∧
    tasksIdle c5 0 = true ∧ c5.me.streams = [] ∧ (next (exec .endCtx c5)).map (fun t => (t.me.life, t.me.retire)) = some (.idle, 1) := by
  and_intros <;> first | decide +kernel | exact quiet_of (by decide +kernel) | exact reads_of (by decide +kernel)

/-- Bytes that are no unit (R28, R38): a halfword with compact opcode 16 is a unit, 0x7FF is none; the word of a reserved sub is none. -/
theorem test_reserved : decodeWord 0x10000001#32 = none ∧ (0x01#8).extractLsb' 0 1 ≠ 0#1 ∧ (0x01#8) ≠ 0xFF#8 ∧ decodeHalf (0x0842#16) = none ∧
    (0x42#8).extractLsb' 0 1 = 0#1 ∧ (0x22#8).extractLsb' 0 1 = 0#1 ∧ 2 ≤ [0#8, 0#8].length := by decide +kernel

/-- ADD g3, g1, g2 at the program counter: the core's turn runs it; in the body of a repetition with a vector renaming too; in a
repetition BR traps (R121, R124). -/
def c7 : State := (sg [(1, 7), (2, 9)]).withFetchWord 32 0x82321
def c7' : State := c7.modCtx 0 0 fun v => { v with rep := some { aRep 0 3 with addr := 0x2FFFFC } }
def c8 : State := ((sg []).withFetchWord 32 0x403).modCtx 0 0 fun v => { v with rep := some { aRep 0 3 with addr := 0x2FFFFC } }
def turned (s : State) : State := noteIssue (pickIssuer (wakeLive { s with turn := 1 } 0) 0).1 0 0
def fetched (s : State) : State := after (fetchUnit 0x300000) (fetching (turned s) 0 0)
theorem picked_of {s : State} (h : (pickIssuer (wakeLive { s with turn := 1 } 0) 0).2 = some 0) :
    ∃ u, pickIssuer (wakeLive { s with turn := 1 } 0) 0 = (u, some 0) ∧ turned s = noteIssue u 0 0 := ⟨_, Prod.ext rfl h, rfl⟩
theorem fetches_of {s : State} {bs : List Byte} (h : ((turned s).ctx 0 0).pc = 0x300000 ∧ got (fetchUnit 0x300000) (fetching (turned s) 0 0) = some bs) :
    Fetches (turned s) 0 0 bs (fetched s) := by
  unfold Fetches; rw [h.1]; exact answers h.2
theorem test_step_of_a_core : Turns c7 0 0 (turned c7) ∧ Fetches (turned c7) 0 0 [0x21, 0x23, 0x08, 0x00] (fetched c7) ∧
    (decode [0x21, 0x23, 0x08, 0x00]).toOption.map (·.instr) = some (.add 3 1 2) ∧ ((fetched c7).ctx 0 0).rep = none ∧ ((fetched c7).ctx 0 0).accepted = [] ∧
    (next (step c7)).map (·.g 3) = some 16 ∧
    Turns c7' 0 0 (turned c7') ∧ Fetches (turned c7') 0 0 [0x21, 0x23, 0x08, 0x00] (fetched c7') ∧ ((fetched c7').ctx 0 0).rep.isSome = true ∧
    repForbidden ⟨0x300000, 4, 0x82321, none⟩ = false ∧ (next (step c7')).map (fun t => (t.g 3, t.me.pc)) = some (16, 0x300004) ∧
    Turns c8 0 0 (turned c8) ∧ Fetches (turned c8) 0 0 [3, 4, 0, 0] (fetched c8) ∧ repForbidden ⟨0x300000, 4, 0x403, none⟩ = true ∧
    next (step c8) = some (stopUnit (fetched c8) 0 0 ⟨0x300000, 4, 0x403, none⟩ (.trap { cause := .illegal, detail := 2 })) := by
  and_intros <;> first | decide +kernel | exact picked_of (by decide +kernel) | exact fetches_of (by decide +kernel)

/-- Who issues (R99, R100): behind pointer 3, context 5 before context 2; in a deterministic launch the context of the slot, tick 5. -/
def twoReady (c : Core) : State := st { c with ctxs := [(2, aCtx), (5, aCtx)] }
def c9 : State := twoReady { aCore [] with last := 3 }
def c10 : State := { twoReady { aCore [] with det := true } with tick := 5 }
def c11 : State := { twoReady { aCore [] with det := true } with tick := 6 }
theorem test_issuer : (c9.core 0).det = false ∧ (c9.core 0).wakeAt ≠ some c9.tick ∧ (pickIssuer c9 0).2 = some 5 ∧ ((pickIssuer c9 0).1.core 0).last = 5 ∧
    (pickIssuer (sg []) 0).2 = some 0 ∧ (pickIssuer (st {}) 0).2 = none ∧ (c10.core 0).det = true ∧
    pickIssuer c10 0 = (c10, some 5) ∧ (pickIssuer c11 0).2 = none := by decide +kernel

/-- A fetch from a page without permission to execute traps with the halfword's address (R48). -/
def c12 : State := { c7 with mem := memWrite c7.mem 0x200000 8 0x7 }
theorem test_fetch_fault : got (fetchHalf 0x300002) c7 = some [0x08, 0x00] ∧ hostResident 0x300002 = false ∧ got (fetchHalf 0x300002) c12 = none ∧
    (after (translateU 0x300002 2) c7).needPage 0x300002 0 false = none := by decide +kernel

/-- What reset leaves, and a step that keeps memory canonical: the end of a tick. -/
theorem test_reset : State.reset.sound ∧ c7.sound ∧ (next (step State.reset)).map (·.tick) = some 1 := by
  and_intros <;> first | decide +kernel | (unfold State.sound; decide +kernel)

/-! ### Vector units -/

/-- A context with vector registers, p2 with the first four bytes, and some scalar registers. -/
def sv (vs : List (Nat × Vec)) (gs : List (Nat × Nat)) : State :=
  after (writeP 2 0xF) ((sg gs).modCtx 0 0 fun v => { v with v := vs })

/-- v1 = 3, -4, 100, 7; v2 = -2, 2, 100, 0, as bytes and as words; v4 = 9 everywhere low. -/
def v1s : State := sv [(1, pack 8 [3, 252, 100, 7, 50]), (2, pack 8 [254, 2, 100, 0, 1]), (4, pack 8 [9, 9, 9, 9, 9])] []
/-- 1.5, 2.25 and 1.0, 3.0 in binary32. -/
def v2s : State := sv [(1, pack 32 [0x3FC00000, 0x3F800000]), (2, pack 32 [0x40100000, 0x40400000]), (3, pack 32 [0x3F800000]), (5, pack 32 [0xFFC00000 + 0x3F])] []


/-- R76, R154, R159: an addition on bytes, saturating or not, only in the active elements; the inactive one keeps its value. -/
theorem test_vector_hypotheses : Runs v1s ∧ ElemType.i8.isInt = true ∧ VReads [1, 2] (begun v1s) [pack 8 [3, 252, 100, 7, 50], pack 8 [254, 2, 100, 0, 1]] (vred [1, 2] (begun v1s)) ∧
    VWrites 4 (pack 8 [1, 254, 200, 7, 9]) 0xF (vred [1, 2] (begun v1s)) (vwrote 4 (pack 8 [1, 254, 200, 7, 9]) 0xF (vred [1, 2] (begun v1s))) ∧
    next (exec (.vadd 4 1 2 2 .i8 0) v1s) = some (retired v1s (raised (vwrote 4 (pack 8 [1, 254, 200, 7, 9]) 0xF (begun v1s)) 0)) ∧
    next (exec (.vadd 4 1 2 2 .i8 1) v1s) = some (retired v1s (raised (vwrote 4 (pack 8 [1, 254, 127, 7, 9]) 0xF (begun v1s)) flagSA)) ∧
    Unbound v1s 4 ∧ Unbound v1s 1 ∧ ElemType.f32.isInt = false ∧ Runs v2s ∧
    VReads [1, 2] (begun v2s) [pack 32 [0x3FC00000, 0x3F800000], pack 32 [0x40100000, 0x40400000]] (vred [1, 2] (begun v2s)) ∧
    VWrites 4 (pack 32 [0x40700000]) 0xF (begun v2s) (vwrote 4 (pack 32 [0x40700000]) 0xF (begun v2s)) ∧
    next (exec (.vadd 4 1 2 2 .f32 0) v2s) = some (retired v2s (raised (vwrote 4 (pack 32 [0x40700000]) 0xF (begun v2s)) 0)) := by
  and_intros <;> first | decide +kernel | exact runs_of (by decide +kernel) | exact vreads_of (by decide +kernel) | exact vwrites_of (by decide +kernel) | (unfold Unbound; decide +kernel)

/-- Results of the integer instructions on the first bytes of v1 and v2 (R162 to R167). -/
theorem test_vector_integers : ([(.vsub 4 1 2 0 .i8 0, [5, 250, 0, 7]), (.vmul 4 1 2 0 .i8 1, [250, 248, 127, 0]), (.vfma 4 1 2 0 .n8 0, [3, 1, 25, 9]), (.vdiv 4 1 2 0 .i8 0, [255, 254, 1, 0]),
    (.vmin 4 1 2 0 .i8, [254, 252, 100, 0]), (.vmax 4 1 2 0 .n8, [254, 252, 100, 7]), (.vunNeg 4 1 0 .i8 0, [253, 4, 156, 249]), (.vunAbs 4 1 0 .i8 0, [3, 4, 100, 7]),
    (.vunPopc 4 1 0 .i8, [2, 6, 3, 3]), (.vunClz 4 1 0 .i8, [6, 0, 1, 5]), (.vlogAnd 4 1 0 .i8, [1, 8, 0, 1]), (.vlogOr 4 1 0 .i8, [11, 253, 109, 15]),
    (.vlogXor 4 1 0 .i8, [10, 245, 109, 14])] : List (Instr × List Nat)).all (fun e => (next (exec e.1 v1s)).map (fun t => elems 8 4 (t.v 4)) == some e.2) = true := by decide +kernel
theorem test_vector_logic : ([(.vlogAndn 4 1 0 .i8, [8, 1, 9, 8]), (.vlogOrn 4 1 0 .i8, [253, 11, 155, 249]), (.vlogNand 4 1 0 .i8, [254, 247, 255, 254]),
    (.vlogNor 4 1 0 .i8, [244, 2, 146, 240]), (.vlogXnor 4 1 0 .i8, [245, 10, 146, 241]), (.vlogNot 4 1 0 .i8, [252, 3, 155, 248]), (.vmov 4 1 0 .i8, [3, 252, 100, 7]),
    (.vsel 4 1 2 2 .i16, [3, 252, 100, 7]), (.vzip 4 1 2 0 .i8, [3, 254, 252, 2]), (.vperm 4 2 1 0 .n8, [0, 0, 0, 0]), (.vscanAdd 4 1 0 .i8 0, [3, 255, 99, 106]),
    (.vscanMin 4 1 0 .i8 0, [3, 252, 252, 252]), (.vscanMax 4 1 0 .i8 0, [3, 3, 100, 100]), (.vredAdd 4 1 0 .i8 1, [127, 0, 0, 0]), (.vredAdd 4 1 2 .i8 0, [106, 0, 0, 0]),
    (.vredMin 4 1 2 .i8 0, [252, 0, 0, 0]), (.vredMax 4 1 2 .n8 0, [252, 0, 0, 0]), (.vredAnd 4 1 2 .n8 0, [0, 0, 0, 0]), (.vredOr 4 1 2 .n8 0, [255, 0, 0, 0]),
    (.vredXor 4 1 2 .n8 0, [156, 0, 0, 0])] : List (Instr × List Nat)).all (fun e => (next (exec e.1 v1s)).map (fun t => elems 8 4 (t.v 4)) == some e.2) = true := by decide +kernel

/-- Results on binary32 (R160 to R162, R165, R173): 1.5 and 2.25, 1.0 and 3.0; 2^1.5 rounds to 0x403504F3; flags NX. -/
theorem test_vector_floats : ([(.vsub 4 1 2 2 .f32 0, 0xBF400000), (.vmul 4 1 2 2 .f32 0, 0x40580000), (.vfma 4 1 2 2 .f32 1, 0x40580000), (.vdiv 4 3 2 2 .f32 1, 0x3EE38E39),
    (.vdiv 4 3 2 2 .f32 2, 0x3EE38E38), (.vsqrt 4 2 2 .f32 0, 0x3FC00000), (.vunRint 4 1 2 .f32 0, 0x40000000), (.vmin 4 1 2 2 .f32, 0x3FC00000), (.vmax 4 1 2 2 .f32, 0x40100000),
    (.vunNeg 4 1 2 .f32 0, 0xBFC00000), (.vunAbs 4 1 2 .f32 0, 0x3FC00000), (.vredAdd 4 1 0 .f32 0, 0x40200000), (.vdot 4 1 2 0 .f32 0, 0x40CC0000), (.cVaddF32 1 2, 0x40700000),
    (.cVmulF32 1 2, 0x40580000)] : List (Instr × Nat)).all (fun e => (next (exec e.1 v2s)).map (fun t => (elem (t.v (match e.1 with | .cVaddF32 d _ => d | .cVmulF32 d _ => d | _ => 4)) 32 0)) == some e.2) = true := by
  decide +kernel
def v3s : State := sv [(1, pack 32 [0x40000000]), (2, pack 32 [0x41000000]), (3, pack 32 [0x40800000]), (5, pack 32 [0x3F000000]), (6, pack 32 [0x3F800000])] []
theorem test_vector_functions : ([(.vfunExp2 4 1 false 2 0, 0x40800000), (.vfunLog2 4 2 false 2 0, 0x40400000), (.vfunRcp 4 3 false 2 0, 0x3E800000), (.vfunRsq 4 3 false 2 0, 0x3F000000),
    (.vfunSinpi 4 5 false 2 0, 0x3F800000), (.vfunCospi 4 6 false 2 0, 0xBF800000), (.vfunTanh 4 7 false 2 0, 0)] : List (Instr × Nat)).all
    (fun e => (next (exec e.1 v3s)).map (fun t => (elem (t.v 4) 32 0, t.me.life)) == some (e.2, .blocked (.interval 25))) = true := by decide +kernel

/-- A subnormal operand takes the normaliser (R85): the context forfeits its turns. -/
def v4s : State := sv [(1, pack 32 [1]), (2, pack 32 [0x3F800000])] []
theorem test_normaliser : anySubnormal fmtF32 32 0xF (pack 32 [1]) = true ∧
    (next (exec (.vmul 4 1 2 2 .f32 0) v4s)).map (fun t => (elem (t.v 4) 32 0, (t.quad 0).norm, t.me.life == .ready)) = some (1, [(0, 0)], false) := by decide +kernel

/-- VCMP, WHILE, PLOG, VWID (R168 to R171, R153). -/
def v5s : State := after (writeP 3 0x33) (sv [(1, pack 8 [3, 252, 100, 7]), (2, pack 8 [254, 2, 100, 0])] [(1, 62), (2, 64)])
theorem test_predicates : Runs v5s ∧ VReads [1, 2] (begun v5s) [pack 8 [3, 252, 100, 7], pack 8 [254, 2, 100, 0]] (vred [1, 2] (begun v5s)) ∧
    got (writeP 4 2) (vred [1, 2] (begun v5s)) = some () ∧ (next (exec (.vcmp 4 .lt 1 2 2 .i8) v5s)).map (·.p 4) = some 2 ∧
    (next (exec (.vcmp 4 .le 1 2 2 .n8) v5s)).map (·.p 4) = some 5 ∧ Reads [1, 2] (begun v5s) [62, 64] (red [1, 2] (begun v5s)) ∧
    (next (exec (.whilePred 4 false true 1 2 .n32) v5s)).map (·.p 4) = some 0xFF ∧ (next (exec (.whilePred 4 true true 1 2 .n32) v5s)).map (·.p 4) = some 0xFFF ∧
    (next (exec (.plogAnd 4 2 3 0) v5s)).map (·.p 4) = some 3 ∧ (next (exec (.plogOr 4 2 3 0) v5s)).map (·.p 4) = some 0x3F ∧
    (next (exec (.plogXor 4 2 3 0) v5s)).map (·.p 4) = some 0x3C ∧ (next (exec (.plogAndn 4 2 3 0) v5s)).map (·.p 4) = some 0xC ∧
    Writes 9 2048 (begun v5s) (wrote 9 2048 (begun v5s)) ∧ next (exec (.vwid 9) v5s) = some (retired v5s (wrote 9 2048 (begun v5s))) := by
  and_intros <;> first | decide +kernel | exact runs_of (by decide +kernel) | exact vreads_of (by decide +kernel) | exact reads_of (by decide +kernel) | exact writes_of (by decide +kernel)

/-- VBCAST, VEXT and VINS at the last element and beyond it, VSHUF with a legal and an illegal width (R177 to R180). -/
def v6s : State := sv [(1, pack 8 [0x12, 0x80] ||| BitVec.ofNat 2048 (0x81 * 2 ^ 2040))] [(1, 255), (2, 256), (3, 0x1FF), (20, 0x123456708), (21, 8), (22, 0), (23, 7), (25, 9)]
theorem test_vector_movement : Reads [3] (begun v6s) [0x1FF] (red [3] (begun v6s)) ∧ (next (exec (.vbcast 4 3 2 .n8) v6s)).map (fun t => elems 8 5 (t.v 4)) = some [255, 255, 255, 255, 0] ∧
    (255 : Word).toNat < 2048 / ElemType.i8.width ∧ 2048 / ElemType.i8.width ≤ (256 : Word).toNat ∧ (next (exec (.vext 9 1 1 .i8) v6s)).map (·.g 9) = some (2 ^ 64 - 127) ∧
    (next (exec (.vext 9 1 2 .i8) v6s)).map (·.g 9) = some 0 ∧ (next (exec (.vins 1 3 1 .n8) v6s)).map (fun t => elem (t.v 1) 8 255) = some 255 ∧
    (next (exec (.vins 1 3 2 .n8) v6s)).map (fun t => t.v 1) = some (v6s.v 1) ∧
    Reads [20, 21] (begun v6s) [0x123456708, 8] (red [20, 21] (begun v6s)) ∧ (8 : Word).toNat % 128 ≤ ElemType.n8.width ∧
    Reads [22, 23] (begun v6s) [0, 7] (red [22, 23] (begun v6s)) ∧ (7 : Word).toNat % 128 < 8 ∧
    next (exec (.vshuf 4 1 22 0 .n8) v6s) = some (trapped v6s { cause := .operandRange }) ∧ (next (exec (.vshuf 4 1 20 0 .n8) v6s)).map (fun t => t.me.life) = some .ready := by
  and_intros <;> first | decide +kernel | exact reads_of (by decide +kernel)

/-- VCVT (R172): bf16 3.0 to binary32; binary32 1000.5 to n8, saturating, with NV and SA (R77); the high form takes the high places. -/
def v7s : State := sv [(1, pack 16 [0x4040] ||| BitVec.ofNat 2048 (0x4080 * 2 ^ 1024)), (2, pack 32 [0x447A2000])] []
theorem test_conversions : Runs v7s ∧ vvalues [1] (begun v7s) = some [v7s.v 1] ∧ (next (exec (.vcvt 4 1 .bf16 0 .f32 0) v7s)).map (fun t => elem (t.v 4) 32 0) = some 0x40400000 ∧
    (next (exec (.vcvtHi 4 1 .bf16 0 .f32 0) v7s)).map (fun t => elem (t.v 4) 32 0) = some 0x40800000 ∧
    (next (exec (.vcvt 4 2 .f32 0 .n8 1) v7s)).map (fun t => (elem (t.v 4) 8 0, t.me.cflags)) = some (255, 48) ∧
    (intInto .i8 true 128) = (127, flagSA) ∧ (intInto .i8 false 128) = (128, 0) ∧ (intInto .i8 true (-129)) = (128, flagSA) ∧ intMax .i8 < 128 ∧ (-129 : Int) < intMin .i8 ∧
    pickGrid .rne 0 false ⟨5, 0, false⟩ 1 = (2, true) ∧ pickGrid .rna 0 false ⟨5, 0, false⟩ 1 = (3, true) ∧ pickGrid .rz 0 false ⟨7, 0, false⟩ 1 = (3, true) ∧
    pickGrid .rdn 0 true ⟨5, 0, false⟩ 1 = (3, true) ∧ pickGrid .rup 0 false ⟨5, 0, false⟩ 1 = (3, true) ∧ (1 : Int) ≤ 1 ∧ pickGrid .rne 0 false ⟨5, 1, false⟩ 1 = (5, false) := by
  and_intros <;> first | decide +kernel | exact runs_of (by decide +kernel)

/-- Reductions without an active element give the identities; a dot product on bytes (R90, R174, R175). -/
def v8s : State := after (writeP 3 0) v1s
theorem test_reductions : (∀ i, i < 2048 / 8 → active (v8s.p 3) 8 i = false) ∧ (next (exec (.vredMin 4 1 3 .i8 0) v8s)).map (fun t => elem (t.v 4) 8 0) = some 127 ∧
    (next (exec (.vredAnd 4 1 3 .n8 0) v8s)).map (fun t => elem (t.v 4) 8 0) = some 255 ∧ (next (exec (.vredAdd 4 1 3 .n8 0) v8s)).map (fun t => elem (t.v 4) 8 0) = some 0 ∧
    (next (exec (.vdot 4 1 2 2 .i8 0) v8s)).map (fun t => elem (t.v 4) 64 0) = some (9 * (1 + 256 + 65536 + 2 ^ 24 + 2 ^ 32) + 9986) ∧ ElemType.f16 ≠ .f64 := by decide +kernel

/-! ### The local store -/

/-- Core 0 with g1 = 0x1000, g2 = 1, g3 = the word of offset 0x20000 of core 1, g4 = 0x1001, g6 = 5; core 1 has 77 at 0x2000. -/
def f1 : State :=
  let c := aCore [(1, 0x1000), (2, 1), (3, 2 ^ 31 + 2 ^ 18 + 0x2000), (4, 0x1001), (6, 5)]
  { st { c with store := memWrite c.store 0x1000 8 0x8899AABBCCDDEEFF } with
    cores := [(0, { c with store := memWrite c.store 0x1000 8 0x8899AABBCCDDEEFF }), (1, coreB)] }

/-- R193, R195, R206, R207: LD of 2 and 4 bytes, sign- and zero-extended; ST of a byte; XCH; what the load set and the undo log then hold. -/
theorem test_own_loads : Runs f1 ∧ Reads [1] (begun f1) [0x1000] (red [1] (begun f1)) ∧ lsFront 0 0x1000 8 false = .ok ⟨0, 0x1000, false⟩ ∧ 0x1000 + 8 ≤ f1.mine.S ∧
    (begun f1).mine.touched 0 (wordsOf 0x1000 8) [] = false ∧ Writes 9 0x8899AABBCCDDEEFF (loaded (begun f1) 0x1000 8) (wrote 9 0x8899AABBCCDDEEFF (loaded (begun f1) 0x1000 8)) ∧
    next (exec (.ld 9 1 0 3 false) f1) = some (retired f1 (wrote 9 0x8899AABBCCDDEEFF (loaded (begun f1) 0x1000 8))) ∧
    next (exec (.ld 9 1 0 1 true) f1) = some (retired f1 (wrote 9 0xFFFFFFFFFFFFEEFF (loaded (begun f1) 0x1000 2))) ∧
    next (exec (.ldx 9 1 2 2 2 false) f1) = some (retired f1 (wrote 9 0x8899AABB (loaded (begun f1) 0x1004 4))) ∧
    next (exec (.cLd 9 1 0) f1) = next (exec (.ld 9 1 0 3 false) f1) ∧ f1.me.accepted = [] ∧ (begun f1).me.running.units = 0 ∧
    (begun f1).mine.touched 0 [] (wordsOf 0x1008 1) = false ∧ Reads [1, 6] (begun f1) [0x1000, 5] (red [1, 6] (begun f1)) ∧
    next (exec (.st 6 1 8 0) f1) = some (retired f1 (stored (begun f1) 0x1008 1 5)) ∧ next (exec (.stx 6 1 2 3 3) f1) = some (retired f1 (stored (begun f1) 0x1008 8 5)) ∧
    next (exec (.xch 6 1 2 3 3 false) f1) = some (retired f1 (wrote 6 0 (stored (loaded (begun f1) 0x1008 8) 0x1008 8 5))) ∧
    (stored (begun f1) 0x1000 1 5).me.running.undo = [(0x200, 0x8899AABBCCDDEEFF)] := by
  and_intros <;> first | decide +kernel | exact runs_of (by decide +kernel) | exact reads_of (by decide +kernel) | exact writes_of (by decide +kernel)

/-- The same on core 1: the request leaves and takes 1 tick; misaligned it traps; the windows of R188. -/
theorem test_remote_requests : Quiet f1 ∧ Timely f1 ∧ Reads [3] f1 [0x80042000] (red [3] f1) ∧ lsFront 0 0x80042000 8 false = .ok ⟨1, 0x2000, false⟩ ∧ (1 : Nat) ≠ 0 ∧ Free f1 9 ∧
    next (exec (.ld 9 3 0 3 false) f1) = some (waiting f1 (sending f1 (.load 8 false) ⟨1, 0x2000, false⟩ 9) .reply) ∧
    next (exec (.st 6 3 0 0) f1) = some (waiting f1 (sending f1 (.store 1 5) ⟨1, 0x2000, false⟩ 0) .reply) ∧
    next (exec (.xch 6 3 0 0 3 true) f1) = some (waiting f1 (sending f1 (.xch 8 true 5) ⟨1, 0x2000, false⟩ 6) .reply) ∧
    latency f1 0 1 = 1 ∧ latency f1 0 4 = 3 ∧ latency f1 0 16 = 5 ∧ latency f1 0 64 = 24 ∧ latency f1 0 1024 = 96 ∧
    Reads [4] (begun f1) [0x1001] (red [4] (begun f1)) ∧ namesOther 0 0x1001 = false ∧ lsFront 0 0x1001 8 false = .error .misaligned ∧
    next (exec (.ld 9 4 0 3 false) f1) = some (trapped f1 { cause := .misaligned, addr := 0x1001 }) ∧
    next (exec (.st 9 4 0 3) f1) = some (trapped f1 { cause := .misaligned, addr := 0x1001 }) ∧
    next (exec (.ldfe 9 4 0) f1) = some (trapped f1 { cause := .misaligned, addr := 0x1001 }) ∧
    lsFront 0 (2 ^ 32) 8 false = .error .localAddress ∧ lsFront 0 (2 ^ 18) 8 false = .error .localAddress ∧ lsFront 0 (2 ^ 18 - 8) 8 false = .ok ⟨0, 2 ^ 18 - 8, false⟩ ∧
    lsFront 0 0xC0040018 8 true = .ok ⟨1, 3, true⟩ ∧ lsFront 0 0xC0040020 8 true = .error .localAddress ∧ lsFront 0 0xC0000018 8 true = .error .localAddress ∧
    lsFront 0 0xC0040018 8 false = .error .localAddress := by
  and_intros <;> first | decide +kernel | exact quiet_of (by decide +kernel) | exact timely_of (by decide +kernel) | exact reads_of (by decide +kernel) | exact free_of (by decide +kernel)

/-- A deterministic launch may not load from another core (R278). -/
def f2 : State := f1.modCore 0 fun c => { c with det := true }
theorem test_remote_timing : ¬ (f2.mine.det = false ∨ f2.cur.2 = 15) ∧ Reads [3] f2 [0x80042000] (red [3] f2) ∧
    next (exec (.ld 9 3 0 3 false) f2) = some (trapped f2 { cause := .timing, addr := 0x80042000 }) := by
  and_intros <;> first | decide +kernel | exact reads_of (by decide +kernel)

/-- The owner's checks (R189): the last word of the scratchpad, one beyond it, a core of no launch. -/
theorem test_owner_fault : f1.mine.S = 196608 ∧ ownerFault f1 0 ⟨1, 196600, false⟩ 8 = none ∧ ownerFault f1 0 ⟨1, 196601, false⟩ 8 = some .outsideScratchpad ∧
    ownerFault f1 0 ⟨2, 0, false⟩ 8 = some .remoteBoundary ∧ f1.partOf 1 = f1.partOf 0 ∧ f1.mates 0 1 = true ∧ f1.mates 0 2 = false ∧ (f1.modCore 1 fun c => { c with lane := 3 }).mates 0 1 = true ∧ (f1.modCore 1 fun c => { c with lane := 4 }).mates 0 1 = false ∧ ownerFault f1 0 ⟨2, 0, true⟩ 8 = none := by
  decide +kernel

/-- Full/empty units (R198, R209, R210): LDFE of a full word empties it; of an empty one it waits; STFE the other way round; FEOP. -/
def f3 : State := f1.modCore 0 fun c => { c with empty := [0x201] }
theorem test_full_empty : Quiet f3 ∧ opTouches f3.mine 0 .ldfe 0x1000 false = false ∧ fullAt f3.mine 0x1000 false = true ∧ fullAt f3.mine 0x1008 false = false ∧
    next (exec (.ldfe 9 1 0) f3) = some (retiredOut f3 (wrote 9 0x8899AABBCCDDEEFF (performedOwn f3 .ldfe 0x1000))) ∧
    next (exec (.ldfe 9 1 1) f3) = some (waiting f3 (sending f3 .ldfe ⟨0, 0x1008, false⟩ 9) .reply) ∧
    (next (exec (.stfe 6 1 1) f3)).map (fun t => (memWord t.mine.store 0x1008, t.mine.empty)) = some (5, []) ∧
    next (exec (.stfe 6 1 0) f3) = some (waiting f3 (sending f3 (.stfe 5) ⟨0, 0x1000, false⟩ 0) .reply) ∧
    (next (exec (.feopQry 9 1 0 0) f3)).map (·.g 9) = some 1 ∧ (next (exec (.feopQry 9 1 2 3) f3)).map (·.g 9) = some 0 ∧
    (next (exec (.feopSet 1 2 3) f3)).map (·.mine.empty) = some [] ∧ (next (exec (.feopClr 1 0 0) f3)).map (·.mine.empty) = some [0x201, 0x200] ∧
    (next (exec (.feopLdff 9 1 0 0) f3)).map (·.g 9) = some 0x8899AABBCCDDEEFF ∧
    next (exec (.ldfe 9 3 0) f3) = some (waiting f3 (sending f3 .ldfe ⟨1, 0x2000, false⟩ 9) .reply) := by
  and_intros <;> decide +kernel

/-- A word that another context's trick loaded: a store to it, and a full/empty unit on it, wait (R195). -/
def f4 : State := f1.modCore 0 fun c => { c with ctxs := c.ctxs ++ [(3, { ({} : Ctx) with life := .ready, running := { ({} : Trick) with loads := [0x200] } })] }
theorem test_touched : f4.mine.touched 0 [] (wordsOf 0x1000 8) = true ∧ f4.mine.touched 0 (wordsOf 0x1000 8) [] = false ∧ opTouches f4.mine 0 .feSet 0x1000 false = true ∧
    next (exec (.feopSet 1 0 0) f4) = some (stopUnit f4 0 0 f4.unitOf (.wait (.touch [] (wordsOf 0x1000 8)))) ∧
    (next (exec (.st 6 1 0 3) f4)).map (·.me.life) = some (.blocked (.touch [] [0x200])) := by decide +kernel

/-- VLD and VST of four words under p2, VGATH and VSCAT by their indices (R181 to R183). -/
def f5 : State := after (writeP 2 0xFFFF) ((f1.modCtx 0 0 fun v => { v with v := [(1, pack 32 [1, 2, 3, 4]), (2, pack 32 [3, 2, 1, 0])] }).modCore 0 fun c =>
  { c with store := memWrite c.store 0x1008 8 0x1122334455667788 })
theorem test_vector_accesses :
    activeAddrs (f5.p 2) 32 (fun i => 0x1000 + 0 + BitVec.ofNat 64 (i * 4)) = [(0, 0x1000), (1, 0x1004), (2, 0x1008), (3, 0x100C)] ∧ (0x1000 + 0 : Word).toNat % 4 = 0 ∧
    (∀ e ∈ activeAddrs (f5.p 2) 32 (fun i => 0x1000 + 0 + BitVec.ofNat 64 (i * 4)), lsFront 0 e.2 4 false = .ok ⟨0, e.2.toNat % 2 ^ 18, false⟩ ∧ e.2.toNat % 2 ^ 18 + 4 ≤ f5.mine.S) ∧
    got (loadElems 4 (activeAddrs (f5.p 2) 32 fun i => 0x1000 + 0 + BitVec.ofNat 64 (i * 4))) (begun f5) = some [(0, 0xCCDDEEFF), (1, 0x8899AABB), (2, 0x55667788), (3, 0x11223344)] ∧
    (next (exec (.vld 5 1 0 2 .n32) f5)).map (fun t => elems 32 4 (t.v 5)) = some [0xCCDDEEFF, 0x8899AABB, 0x55667788, 0x11223344] ∧
    f5.me.accepted = [] ∧ (next (exec (.vst 1 1 0 2 .n32) f5)).map (fun t => memWord t.mine.store 0x1000) = some 0x200000001 ∧
    (next (exec (.vgath 5 1 2 2 .n32) f5)).map (fun t => elems 32 4 (t.v 5)) = some [0x11223344, 0x55667788, 0x8899AABB, 0xCCDDEEFF] ∧
    (next (exec (.vscat 1 1 2 2 .n32) f5)).map (fun t => memWord t.mine.store 0x1008) = some 0x100000002 := by decide +kernel

/-- With an element of core 1 the access leaves its trick (R193, R528). -/
theorem test_vector_remote :
    (∃ e ∈ activeAddrs (f5.p 2) 32 (fun i => 0x80042000 + 0 + BitVec.ofNat 64 (i * 4)), namesOther 0 e.2 = true ∧ e.2.extractLsb' 32 32 = 0#32) ∧
    got (frontFault 4 (activeAddrs (f5.p 2) 32 fun i => 0x80042000 + 0 + BitVec.ofNat 64 (i * 4))) f5 = some () ∧ Quiet f5 ∧
    next (exec (.vld 5 3 0 2 .n32) f5) = some (waiting f5 (sendingVector f5 false 5 2 .n32 [(0, 0x80042000), (1, 0x80042004), (2, 0x80042008), (3, 0x8004200C)] (f5.v 5)) .reply) ∧
    next (exec (.vst 5 3 0 2 .n32) f5) = some (waiting f5 (sendingVector f5 true 5 2 .n32 [(0, 0x80042000), (1, 0x80042004), (2, 0x80042008), (3, 0x8004200C)] (f5.v 5)) .reply) ∧
    next (exec (.vscat 1 3 2 2 .n32) f5) = some (waiting f5 (sendingVector f5 true 1 2 .n32 [(0, 0x8004200C), (1, 0x80042008), (2, 0x80042004), (3, 0x80042000)] (f5.v 1)) .reply) := by
  and_intros <;> decide +kernel

/-- The frame's hypotheses: a plain destination and base, a canonical store, an address in the own scratchpad. -/
theorem test_local_frame : Runs f1 ∧ Plain f1 6 ∧ Plain f1 1 ∧ Memory.wf f1.mine.store = true ∧ InOwn f1 (f1.unitOf.ea (f1.g 1) (0 : BitVec 10) 8) 8 0x1000 ∧
    f1.mine.touched 0 (wordsOf 0x1000 8) [] = false ∧ f1.mine.touched 0 [] (wordsOf 0x1000 8) = false ∧ f1.me.running.units = 0 ∧ f1.me.accepted = [] := by
  and_intros <;> first | decide +kernel | exact runs_of (by decide +kernel) | exact plain_of (by decide +kernel)

/-! ### What happens beside the units: waits that end, and requests at their owners -/

/-- R101, R128, R135, R158: an interval that ends and one that does not; a queue register with an entry and with room; helpers and tasks. -/
theorem test_waits_end : next (exec (.blockedIntervalEnd 0 0) (wt (waits (.interval 1) none))) = some ((wt (waits (.interval 1) none)).ready 0 0) ∧
    next (exec (.blockedIntervalEnd 0 0) (wt (waits (.interval 2) none))) = some ((wt (waits (.interval 2) none)).postPoll 1 (.blockedIntervalEnd 0 0)) ∧
    next (exec (.blockedIntervalEnd 0 0) (wt { waits (.farReg 3) none with farq := [aFar] })) =
      some ((wt { waits (.farReg 3) none with farq := [aFar] }).postPoll 1 (.blockedIntervalEnd 0 0)) ∧
    (wt (waits (.touch [1] [2]) none)).mine.touched 0 [1] [2] = false ∧
    next (exec (.blockedIntervalEnd 0 0) (wt (waits (.touch [1] [2]) none))) = some ((wt (waits (.touch [1] [2]) none)).ready 0 0) ∧
    next (exec (.queueRegisterUnblock 0 0) (wt (waits (.queueReg [7] []) none))) = some ((wt (waits (.queueReg [7] []) none)).postPoll 1 (.queueRegisterUnblock 0 0)) ∧
    next (exec (.queueRegisterUnblock 0 0) (wt (waits (.queueReg [] [7]) none))) = some ((wt (waits (.queueReg [] [7]) none)).ready 0 0) ∧
    liveOf (wt (waits (.helpers 2 none 9) none)) 0 2 = 0 ∧ ReplyWrites (wt (waits (.helpers 2 none 9) none)) 0 0 9 0 (wrote 9 0 (wt (waits (.helpers 2 none 9) none))) ∧
    next (exec (.waitRelease 0 0) (wt (waits (.helpers 2 none 9) none))) =
      some (replied (wt (waits (.helpers 2 none 9) none)) 0 0 (wrote 9 0 (wt (waits (.helpers 2 none 9) none)))) ∧
    next (exec (.waitLimitExpiry 0 0) (wt (waits (.helpers 1 (some 0) 9) none))) =
      some (replied (wt (waits (.helpers 1 (some 0) 9) none)) 0 0 (wrote 9 1 (wt (waits (.helpers 1 (some 0) 9) none)))) ∧
    next (exec (.helperTaken 0 0) (wt (waits (.helper 1) none))) = some ((wt (waits (.helper 1) none)).ready 0 0) ∧
    next (exec (.taskLaneRetire 0) (wt (waits .tasks none))) = some ((wt (waits .tasks none)).ready 0 0) ∧
    next (exec (.forfeitEnd 0 0) (wt { waits .normaliser none with normEnd := some 0 })) = some ((wt { waits .normaliser none with normEnd := some 0 }).ready 0 0) ∧
    next (exec (.forfeitEnd 0 0) (wt { waits .normaliser none with normEnd := some 1, interval := 3 })) =
      some ((wt { waits .normaliser none with normEnd := some 1, interval := 3 }).block 0 0 (.interval 5)) := by
  and_intros <;> first | decide +kernel | exact replies_of (by decide +kernel)

/-- The supervisor with a record wakes (R101); the normaliser serves its first entry in 8 ticks (R85). -/
def g1s : State := st { svCore [] with trapq := [List.replicate 64 0] }
def g2s : State := (wt (waits .normaliser none)).modQuad 0 fun q => { q with norm := [(0, 0), (1, 0)], normFree := 5 }
theorem test_wakes : (g1s.ctx 0 15).life = .idle ∧ (g1s.core 0).trapq ≠ [] ∧ g1s.ended 0 = false ∧ (g1s.core 0).svIdle ≤ g1s.tick ∧ (g1s.core 0).det = false ∧
    (next (exec (.supervisorWake 0) g1s)).map (fun t => ((t.ctx 0 15).life, (t.ctx 0 15).pc, (t.ctx 0 15).wsp, (t.core 0).wakeAt)) = some (.idle, 0, 0, some 1) ∧ ((liveSupervisor g1s 0).ctx 0 15).life = .ready ∧ ((liveSupervisor g1s 0).ctx 0 15).pc = 0x400000 ∧ ((liveSupervisor g1s 0).ctx 0 15).wsp = 2048 ∧
    (g2s.quad 0).norm = [(0, 0), (1, 0)] ∧ (next (exec (.normaliserService 0) g2s)).map (fun t => ((t.quad 0).norm, (t.quad 0).normFree, (t.ctx 0 0).normEnd)) = some ([(1, 0)], 13, some 12) := by
  decide +kernel

/-- Requests of core 0 at core 1, which holds 77 at 0x2000; one of core 2, which is in no launch. -/
def rq (op : RemoteOp) (owner off : Nat) (n : Nat) (b : Core) : State :=
  { wt (waits .reply (some (.remote op owner off false 9 n))) with cores := [(0, { aCore [] with ctxs := [(0, waits .reply (some (.remote op owner off false 9 n)))] }), (1, b)] }
def fullTable : Core := { coreB with parking := List.replicate 64 { core := 0, ctx := 5, off := 0, mbox := false, held := false } }
def anEmpty : Core := { coreB with empty := [0x400] }
theorem test_requests_at_owners :
    (rq (.load 8 false) 1 0x2000 0 coreB).away (some 1) 1 = false ∧ ownerFault (rq (.load 8 false) 1 0x2000 0 coreB) 0 ⟨1, 0x2000, false⟩ 8 = none ∧ opTouches coreB 16 (.load 8 false) 0x2000 false = false ∧
    ReplyWrites (rq (.load 8 false) 1 0x2000 0 coreB) 0 0 9 77 (wrote 9 77 (rq (.load 8 false) 1 0x2000 0 coreB)) ∧
    next (exec (.remoteAccessPerform 0 0) (rq (.load 8 false) 1 0x2000 0 coreB)) = some (replied (rq (.load 8 false) 1 0x2000 0 coreB) 0 0 (wrote 9 77 (rq (.load 8 false) 1 0x2000 0 coreB))) ∧
    (next (exec (.remoteAccessPerform 0 0) (rq (.store 1 5) 1 0x2000 0 coreB))).map (fun t => ((t.ctx 0 0).accepted, (t.ctx 0 0).life, memRead (t.core 1).store 0x2000 8)) = some ([{ owner := 1, off := 0x2000, bytes := 1, value := 5 }], .ready, 77) ∧
    ownerFault (rq (.load 8 false) 2 0 0 coreB) 0 ⟨2, 0, false⟩ 8 = some .remoteBoundary ∧
    next (exec (.remoteAccessPerform 0 0) (rq (.load 8 false) 2 0 0 coreB)) = some (replyTraps (rq (.load 8 false) 2 0 0 coreB) 0 0 { cause := .remoteBoundary, addr := 0x80080000 }) ∧
    opAllowed anEmpty .ldfe 0x2000 false = false ∧ (rq .ldfe 1 0x2000 0 anEmpty).parkUsed 1 < 64 ∧
    next (exec (.remoteAccessPerform 0 0) (rq .ldfe 1 0x2000 0 anEmpty)) = some (parkAt (rq .ldfe 1 0x2000 0 anEmpty) 1 { core := 0, ctx := 0, off := 0x2000, mbox := false, held := false }) ∧
    64 ≤ (rq .ldfe 1 0x2000 14 { fullTable with empty := [0x400] }).parkUsed 1 ∧
    (next (exec (.remoteAccessPerform 0 0) (rq .ldfe 1 0x2000 14 { fullTable with empty := [0x400] }))).map (fun t => ((t.core 1).pkRefused, (t.ctx 0 0).req)) =
      some (1, some (.remote .ldfe 1 0x2000 false 9 15)) ∧
    (next (exec (.remoteAccessPerform 0 0) (rq .ldfe 1 0x2000 15 { fullTable with empty := [0x400] }))).map (fun t => (t.core 1).pkRefused) = some 1 ∧
    next (exec (.remoteAccessPerform 0 0) (rq (.load 8 false) 1 0x2000 0 { coreB with stopped := true })) =
      some ((rq (.load 8 false) 1 0x2000 0 { coreB with stopped := true }).post 256 (.evictionRetryResend 0 0)) ∧
    next (exec (.parkRefusalRetry 0 0) (rq (.load 8 false) 1 0x2000 0 coreB)) = some ((rq (.load 8 false) 1 0x2000 0 coreB).post 1 (.remoteAccessPerform 0 0)) ∧
    next (exec (.evictionRetryResend 0 0) (rq (.load 8 false) 1 0x2000 0 coreB)) = some ((rq (.load 8 false) 1 0x2000 0 coreB).post 1 (.remoteAccessPerform 0 0)) := by
  and_intros <;> first | decide +kernel | exact replies_of (by decide +kernel)

/-- An accepted store is deposited (R194); a parked request is served once its word is full (R199); a vector access is performed whole (R528). -/
def g3s : State := { wt aCtx with cores := [(0, { aCore [] with ctxs := [(0, { aCtx with accepted := [{ owner := 1, off := 0x2000, bytes := 1, value := 5 }] })] }), (1, coreB)] }
def g4s (e : List Nat) : State := (rq .ldfe 1 0x2000 0 { coreB with empty := e, parking := [{ core := 0, ctx := 0, off := 0x2000, mbox := false, held := false }] })
def g5v : VecGroup := { owner := 1, elems := [(0, 0x80042000), (1, 0x80042008)] }
def g5s : State := { wt aCtx with cores := [(0, { aCore [] with ctxs := [(0, waits .reply (some (.vec false 5 0 .n64 [g5v] 0)))] }), (1, coreB)] }
theorem test_deposits : (g3s.core 1).touched 16 [] (wordsOf 0x2000 1) = false ∧ g3s.away (g3s.core 0).launch 1 = false ∧
    (next (exec (.remoteStorePerform 0 0) g3s)).map (fun t => ((t.ctx 0 0).accepted, memRead (t.core 1).store 0x2000 8)) = some ([], 5) ∧
    (next (exec (.parkedRequestServe 1) (g4s []))).map (fun t => ((t.core 1).parking, (t.core 1).empty, t.g 9, (t.ctx 0 0).life)) = some ([], [0x400], 77, .ready) ∧
    (next (exec (.parkedRequestServe 1) (g4s [0x400]))).map (fun t => ((t.core 1).parking.length, (t.ctx 0 0).life == .ready)) = some (1, false) ∧
    elemFault g5s 0 0 8 true [(0, 0x80042000), (1, 0x80042008)] = none ∧ groupHeld g5s 0 0 false 8 g5v = false ∧
    (next (exec (.vectorRemoteChecks 0 0) g5s)).map (fun t => (elem (t.v 5) 64 0, elem (t.v 5) 64 1, (t.ctx 0 0).life)) = some (77, 0, .ready) := by
  and_intros <;> decide +kernel

/-- A deposit that a trick of the owner holds, in the tick after that trick, and behind the owner's own write of its tick; a request behind one
of a lower context; a vector access whose group a trick holds is parked (R191, R196, R201, R528). -/
def acc : Accepted := { owner := 1, off := 0x2000, bytes := 1, value := 5 }
def g6s (b : Core) (a : Accepted) : State := { wt aCtx with cores := [(0, { aCore [] with ctxs := [(0, { aCtx with accepted := [a] })] }), (1, b)] }
def trickB : Core := { coreB with ctxs := [(3, { ({} : Ctx) with life := .ready, running := { ({} : Trick) with stores := [0x400] } })] }
def g7s : State := { g5s with cores := [(0, (g5s.core 0)), (1, trickB)] }
def g8s : State := (rq (.load 8 false) 1 0x2000 0 coreB).modCore 0 fun c => { c with ctxs := c.ctxs ++ [(1, waits .reply (some (.remote (.load 8 false) 1 0x2000 false 9 0)))] }
theorem test_deposits_held : trickB.touched 16 [] (wordsOf 0x2000 1) = true ∧ (g6s trickB acc).lowerDue 0 0 bankRequest = false ∧
    (next (exec (.remoteStorePerform 0 0) (g6s trickB acc))).map (·.me.accepted) = some [{ acc with held := true, entry := true }] ∧
    64 ≤ (g6s { trickB with parking := fullTable.parking } acc).parkUsed 1 ∧
    (next (exec (.remoteStorePerform 0 0) (g6s { trickB with parking := fullTable.parking } acc))).map (·.me.accepted) = some [{ acc with held := true }] ∧
    (next (exec (.remoteStorePerform 0 0) (g6s coreB { acc with held := true }))).map (fun t => (t.me.accepted, memRead (t.core 1).store 0x2000 8)) =
      some ([{ acc with held := true, free := some 0 }], 77) ∧
    (next (exec (.remoteStorePerform 0 0) (g6s coreB { acc with held := true, free := some 0 }))).map (fun t => (t.me.accepted, memRead (t.core 1).store 0x2000 8)) = some ([], 5) ∧
    (next (exec (.remoteStorePerform 0 0) (g6s { coreB with wrote := (0, [0x400]) } acc))).map (·.me.accepted) = some [acc] ∧
    (g8s.post 0 (.remoteAccessPerform 0 0)).lowerDue 0 1 bankRequest = true ∧
    next (exec (.remoteAccessPerform 0 1) (g8s.post 0 (.remoteAccessPerform 0 0))) = some ((g8s.post 0 (.remoteAccessPerform 0 0)).postPoll 0 (.remoteAccessPerform 0 1)) ∧
    elemFault g7s 0 0 8 true (allElems [g5v]) = none ∧ groupHeld g7s 0 0 false 8 g5v = true ∧ g7s.parkUsed 1 < 64 ∧
    (next (exec (.vectorRemoteChecks 0 0) g7s)).map (fun t => ((t.core 1).parking.length, t.me.req)) = some (1, some (.vec false 5 0 .n64 [{ g5v with parked := true }] 0)) := by
  and_intros <;> decide +kernel

/-- R200, R201, R475, R528: a group that a full table refuses goes again after 32 ticks; local stores of a word that a deposit met wait for the next tick,
others are performed and noted; a gated owner wakes at a request; a deposit is noted. -/
def g9s : State := { g7s with cores := [(0, g7s.core 0), (1, { trickB with parking := fullTable.parking })] }
def g10v : VecGroup := { owner := 0, elems := [(0, 0x1000)] }
def g10s (n : Nat) : State := wt (waits .reply (some (.vec true 5 0 .n64 [g10v] 9))) |>.modCore 0 fun c => { c with deposits := (0, [n]) }
theorem test_owner_cases : 64 ≤ g9s.parkUsed 1 ∧
    (next (exec (.vectorRemoteChecks 0 0) g9s)).map (fun t => ((t.core 1).pkRefused, t.me.req, t.agenda.head?)) =
      some (1, some (.vec false 5 0 .n64 [{ g5v with refusals := 1 }] 0), some (64, .parkRefusalRetry 0 0)) ∧
    (g10s 0x200).mine.depositedNow 0 [0x200] = true ∧
    (next (exec (.vectorRemoteChecks 0 0) (g10s 0x200))).map (fun t => (memRead t.mine.store 0x1000 8, t.agenda.head?)) = some (0, some (2, .vectorRemoteChecks 0 0)) ∧
    (next (exec (.vectorRemoteChecks 0 0) (g10s 0x201))).map (fun t => (memRead t.mine.store 0x1000 8, t.mine.wrote, t.me.life)) = some (9, (0, [0x200]), .ready) ∧
    (next (exec (.remoteAccessPerform 0 0) (rq (.load 8 false) 1 0x2000 0 { coreB with gated := some 0 }))).map (fun t => ((t.core 1).gated, t.g 9)) = some (none, 77) ∧
    (next (exec (.remoteAccessPerform 0 0) (rq .feClr 1 0x2000 0 coreB))).map (fun t => ((t.core 1).deposits, (t.core 1).empty)) = some ((0, [0x400]), [0x400]) := by
  and_intros <;> decide +kernel

/-! ### Global memory -/

/-- Virtual addresses below 1 GiB are physical ones, mapped by one leaf; g1 = 0x1000, g2 = 0x1001, g3 = 0x7FC0000000 (not mapped), g6 = 5; 0x1122334455667788 at
0x1000, whose line core 0 owns; 9 at 0x1040, whose line it does not hold. -/
def h0 (gs : List (Nat × Nat)) (d : Tab DirEntry) : State :=
  let s := (sg gs).withFetchWord 32 1
  { s.modCtx 0 0 fun v => { v with unit := aUnit } with mem := memWrite (memWrite s.mem 0x1000 8 0x1122334455667788) 0x1040 8 9, dir := d }
def h1 : State := h0 [(1, 0x1000), (2, 0x1001), (3, 0x7FC0000000), (6, 5), (7, 0x1040)] [(0x40, { owner := some 0, sharers := [] })]

/-- R216, R231, R242, R245: a load, a store and a load of what the trick stored; a line not held; misaligned; not mapped. -/
theorem test_global_units : Runs h1 ∧ Reads [1] (begun h1) [0x1000] (red [1] (begun h1)) ∧ (h1.unitOf.ea 0x1000 (0 : BitVec 10) 8) = 0x1000 ∧ (0x1000 : Word).toNat % 8 = 0 ∧
    got (gLoad 0x1000 8) (begun h1) = some 0x1122334455667788 ∧ (next (exec (.ldg 9 1 0 3 false) h1)).map (fun t => (t.g 9, t.me.life, t.me.running.rlines)) = some (0x1122334455667788, .ready, [0x40]) ∧
    got (gStore 0x1000 8 5) (begun h1) = some () ∧
    (next (exec (.stg 6 1 0 0) h1)).map (fun t => (t.me.running.wlines, t.me.running.writes, memRead t.mem 0x1000 1)) = some ([0x40], [(0x1000, 5)], 0x88) ∧
    (next (exec (.stg 6 1 0 0) h1)).map (fun t => readOver t.mem t.me 0x1000 2) = some [5, 0x77] ∧
    got (gLoad 0x1040 8) (begun h1) = none ∧ (next (exec (.ldg 9 7 0 3 false) h1)).map (·.me.life) = some (.blocked (.line 0x41 false)) ∧
    next (exec (.ldg 9 2 0 3 false) h1) = some (trapped h1 { cause := .misaligned, addr := 0x1001 }) ∧
    next (exec (.stg 9 2 0 3) h1) = some (trapped h1 { cause := .misaligned, addr := 0x1001 }) ∧
    hostResident 0x1000 = false ∧ h1.capReadFails 0 0x1000 1 0 false = false ∧ h1.holdsLine 0 0x40 true = true ∧ h1.holdsLine 0 0x41 false = false ∧ h1.me.running.units = 0 ∧
    got (translateU 0x7FC0000000 0) h1 = none ∧ (next (exec (.ldg 9 3 0 3 false) h1)).map (·.me.life == .ready) = some false := by
  and_intros <;> first | decide +kernel | exact runs_of (by decide +kernel) | exact reads_of (by decide +kernel)

/-- R216, R231, R236: virtual 1 GiB is host-resident; the word read there is asked for, and the reply holds the byte that the trick has stored. -/
def hostGot : State := (h1.modCtx 0 0 fun v => { v with hostReplies := [(2 ^ 51, 0x1122334455667788#64)] })
def hostMap (s : State) : State := { s with mem := memWrite s.mem (fetchTable + 8) 8 (2 ^ 51 + 15) }
def hostS : State := (hostMap hostGot).modCtx 0 0 fun v => { v with running := { v.running with hostWrites := [(2 ^ 51 + 3, [5#8])] } }
theorem test_host_load : (got (translateU 0x40000000 0) hostS).map (·.1) = some (2 ^ 51) ∧ hostResident (2 ^ 51) = true ∧
    got (do noteUsed (← translateU 0x40000000 0).2; hostTiming 0x40000000) hostS = some () ∧
    got (gLoad 0x40000000 8) hostS = some 0x1122334405667788 ∧ got (gLoad 0x40000000 8) (hostMap hostGot) = some 0x1122334455667788 ∧
    got (gLoad 0x40000004 2) hostS = some 0x3344 ∧ got (gLoad 0x40000008 8) hostS = none := by decide +kernel

/-- A region that another launch's lane holds: the access traps with cause "capability" (R269). -/
def h2 : State := { h1 with caps := [(1, { bytes := 4096, cap := .held 0 2 0 })] }
theorem test_capability_fault : h2.capFails 0 0x1000 1 0 false = true ∧ h2.capAt 0x1000 = .held 0 2 0 ∧ h2.capAt 0x2000 = .opened ∧
    next (exec (.stg 6 1 0 3) h2) = some (trapped h2 { cause := .capability, addr := 0x1000 }) ∧
    h2.capFails 0 0x1000 2 0 false = false ∧ h2.capReadFails 0 0x1000 1 0 false = false ∧ h2.capReadFails 0 0x1000 1 0 true = true ∧ h2.capFails 0 0x2000 1 0 true = true ∧
    ({ h1 with caps := [(1, { bytes := 4096, cap := .sealed })] }).capFails 0 0x1FFF 1 0 false = true := by decide +kernel

/-- Vector accesses by element (R243). -/
def h3 : State := after (writeP 2 0xFFFF) (h1.modCtx 0 0 fun v => { v with v := [(1, pack 32 [1, 2, 3, 4])] })
theorem test_vector_global : got (gLoadElems 4 (activeAddrs (h3.p 2) 32 fun i => 0x1000 + BitVec.ofNat 64 (i * 4))) (begun h3) =
      some [(0, 0x55667788), (1, 0x11223344), (2, 0), (3, 0)] ∧
    (next (exec (.vldg 5 1 0 2 .n32) h3)).map (fun t => elems 32 4 (t.v 5)) = some [0x55667788, 0x11223344, 0, 0] ∧
    (next (exec (.vstg 1 1 0 2 .n32) h3)).map (fun t => (t.me.running.writes.map (·.1), t.me.life)) = some ((List.range 16).map (· + 0x1000), .ready) ∧
    next (exec (.vldg 5 2 0 2 .n32) h3) = some (trapped h3 { cause := .misaligned, addr := 0x1001 }) := by decide +kernel

/-- A pending trick that stored 5 at 0x1000 commits when the home grants it (R221); one that stored nothing, at once (R222). -/
def aTrick : Trick := { ({} : Trick) with units := 1, writes := [(0x1000, 5#8)], wlines := [0x40] }
def h4 : State := h1.modCtx 0 0 fun v => { v with pending := some aTrick }
def h5 : State := h1.modCtx 0 0 fun v => { v with pending := some { ({} : Trick) with units := 1 } }
theorem test_commit : h4.sound ∧ (h4.ctx 0 0).pending = some aTrick ∧ tabWf aTrick.writes = true ∧ commitHeld h4 0 0 aTrick = false ∧ h4.exhausted 0 3 = false ∧
    (∀ l ∈ aTrick.wlines, h4.needPage (l * 64) 0 true = none) ∧ (h4.commit 0 0).sound ∧
    (next (exec (.commitGrant 0 0) h4)).map (fun t => (memRead t.mem 0x1000 8, tabFind t.dir 0x40, t.me.pending)) = some (0x1122334455667705, some { owner := some 0, sharers := [] }, none) ∧
    next (exec (.localCommit 0 0) h5) = some (h5.commit 0 0) ∧ commitHeld (h4.modCtx 0 0 fun v => { v with accepted := [{ owner := 1, off := 0, bytes := 8, value := 0 }] }) 0 0 aTrick = true := by
  and_intros <;> first | decide +kernel | (unfold State.sound; decide +kernel)

/-- PREF of a mapped and of an unmapped address; the fences of a context with nothing outstanding (R235, R239). -/
def h6 : State := after (translateU 0x1000 0) h1
theorem test_prefetch_fences : h6.tlbHit 0 h6.mine.vmroot 0x1000 ≠ none ∧ h6.leaseHeld (· == 0x40) (some h6.cur) = false ∧
    (next (exec (.prefSlc 1 0) h6)).map (fun t => (t.agenda.map (·.2)).contains (.homeLineRequest 0x40 0 .prefSlc)) = some true ∧ (next (exec (.prefOwn 1 0) h6)).map (fun t => (t.agenda.map (·.2)).contains (.homeLineRequest 0x40 0 .prefOwn)) = some true ∧
    h6.tlbHit 0 h6.mine.vmroot 0x7FC0000000 = none ∧ next (exec (.prefRd 3 0) h6) = some (retired h6 (begun h6)) ∧
    Quiet h1 ∧ next (exec .tcut h1) = some (retiredOut h1 h1) ∧ next (exec (.fence .pod) h1) = some (retiredOut h1 h1) ∧ next (exec (.acq .core) h1) = some (retiredOut h1 h1) ∧
    next (exec (.rel .lane) h1) = some (retiredOut h1 h1) := by
  and_intros <;> decide +kernel

/-- A line request at the home, owned or shared; a stopped owner's line; an idle trump (R224, R246, R248). -/
def h7 : State := { h1 with dir := [(0x40, { owner := some 1, sharers := [] }), (0x41, { owner := none, sharers := [1, 2] })], cores := tabSet h1.cores 1 { ({} : Core) with stopped := true } }
def h8 : State := wt (waits .trump none)
theorem test_lines : tabFind h1.dir 0x41 = none ∧ h1.needPage 0x1040 0 true = none ∧ h1.podRemote 0x1040 = false ∧ h1.exhausted 0 0 = false ∧ tabWf h1.cores = true ∧
    (next (exec (.homeLineRequest 0x41 0 .own) h1)).map (fun t => tabFind t.dir 0x41) = some (some { owner := some 0, sharers := [] }) ∧
    (next (exec (.homeLineRequest 0x41 0 .rd) h1)).map (fun t => tabFind t.dir 0x41) = some (some { owner := none, sharers := [0] }) ∧
    next (exec (.probeTimeout 0x40 1) h7) = some (({ h7 with dir := tabSet h7.dir 0x40 { owner := none, sharers := [] } }).post 0 (.machineCheck (.partition 0))) ∧
    next (exec (.probeTimeout 0x41 1) h7) = some (({ h7 with dir := tabSet h7.dir 0x41 { owner := none, sharers := [2] } }).post 0 (.machineCheck (.core 1))) ∧
    trumpActive h8 0 = false ∧ h8.partOf 0 = 0 ∧ next (exec (.trumpAdmission 0) h8) = some ((h8.modCtx 0 0 fun v => { v with running := { v.running with trump := true } }).ready 0 0) ∧
    trumpActive (wt { aCtx with running := { ({} : Trick) with trump := true } }) 0 = true := by decide +kernel

/-- Leases (R250 to R256): granted for the asked 8 ticks, with no slot free, held already; UNLEASE and LSTAT; a grant and the expiry. -/
def aLease (g : Option Nat) : Lease := { va := 0x1000, pa := 0x1000, grant := g, dur := 8, ended := false }
def l1 : State := h0 [(1, 0x1008), (2, 8), (3, 513)] []
def l2 : State := l1.modCtx 0 0 fun v => { v with leases := [(0, aLease (some 0))] }
def l3 : State := l1.modCtx 0 0 fun v => { v with leases := (List.range 4).map fun i => (i, { aLease (some 0) with va := 0x2000 + 64 * i, pa := 0x2000 + 64 * i }) }
def l4 : State := l1.modCtx 0 0 fun v => { v with leases := [(0, aLease none)], life := .blocked (.lease 0), req := some (.lease 0 9) }
theorem test_leases : Quiet l1 ∧ Reads [1, 2] l1 [0x1008, 8] (red [1, 2] l1) ∧ (0x1008 &&& ~~~63#64 : Word) = 0x1000 ∧ got (translateU 0x1000 1) l1 ≠ none ∧
    (next (exec (.lease 9 1 2) l1)).map (fun t => (tabFind t.me.leases 0, t.me.life, t.me.req)) = some (some (aLease none), .blocked (.lease 0), some (.lease 0 9)) ∧
    (next (exec (.lease 9 1 3) l1)).map (fun t => (tabFind t.me.leases 0).map (·.dur)) = some (some 512) ∧
    slotOf l2.me 0x1000 = some 0 ∧ (next (exec (.lease 9 1 2) l2)).map (·.g 9) = some 2 ∧ (∀ i, i < 4 → (tabFind l3.me.leases i).isSome = true) ∧ (next (exec (.lease 9 1 2) l3)).map (·.g 9) = some 0 ∧
    Timely l2 ∧ (next (exec (.unlease 9 1) l2)).map (fun t => (t.g 9, tabFind t.me.leases 0)) = some (1, none) ∧ (next (exec (.unlease 9 1) l1)).map (·.g 9) = some 0 ∧
    next (exec (.lstat 9 1) l2) = some (retiredOut l2 (wrote 9 (leaseStatus l2.me 0x1000 0) l2)) ∧
    l4.leaseHeld (· == 0x40) (some (0, 0)) = false ∧ (next (exec (.leaseGrant 0 0) l4)).map (fun t => (t.g 9, tabFind t.me.leases 0, tabFind t.dir 0x40, t.me.life)) =
      some (1, some (aLease (some 0)), some { owner := some 0, sharers := [] }, .ready) ∧
    (next (exec (.leaseExpiry 0 0 0) { l2 with tick := 8 })).map (fun t => (tabFind t.me.leases 0).map (·.ended)) = some (some true) := by
  and_intros <;> first | decide +kernel | exact timely_of (by decide +kernel) | exact reads_of (by decide +kernel)

/-- Far atomics (R259 to R261): queued, misaligned, a full queue; performed at the home; the reply. -/
def fa1 : State := h0 [(1, 0x1000), (2, 5), (3, 0x1004), (4, 7)] []
def fa2 : State := fa1.modCtx 0 0 fun v => { v with farq := List.replicate 8 aFar }
def fa3 : State := fa1.modCtx 0 0 fun v => { v with farq := [{ aFar with due := some 0 }] }
def fa4 : State := fa1.modCtx 0 0 fun v => { v with farq := [{ aFar with old := some (0x99, 1), due := some 0 }] }
theorem test_far_atomics : fa1.me.settled = true ∧ Reads [1, 2, 4] fa1 [0x1000, 5, 7] (red [1, 2, 4] fa1) ∧
    (next (exec (.faAddN64 4 1 2 .pkg false) fa1)).map (fun t => (t.me.farq.map fun e => { e with due := none }, t.me.farq.map (·.due), t.me.retire)) =
      some ([farEntry fa1 0 0x1000 5 7 false false 4], [some (farLatency fa1 0 aFar)], 1) ∧
    next (exec (.faCasN64 4 3 2 .pkg true) fa1) = some (trapped fa1 { cause := .misaligned, addr := 0x1004 }) ∧
    8 ≤ fa2.me.farq.length ∧ next (exec (.faAddN64 4 1 2 .pkg false) fa2) = some (fa2.block 0 0 .farFull) ∧
    nextFar fa3 0 0 [] fa3.me.farq = some (0, { aFar with due := some 0 }) ∧ fa3.podRemote 0x1000 = false ∧ fa3.needPage 0x1000 0 true = none ∧
    (next (exec (.farAtomicPerform 0 0) fa3)).map (fun t => (memRead t.mem 0x1000 8, t.me.farq.map (·.old))) = some (0x1122334455667789, [some (0x1122334455667788, 0)]) ∧
    (next (exec (.farAtomicReply 0 0 none) fa4)).map (fun t => (t.g 3, t.me.farq, t.me.cflags)) = some (0x99, [], 1) ∧
    remap fa4.me.cmode 3 = none ∧ Memory.wf fa4.mine.store = true ∧
    (farNew 4 (2 ^ 64 - 1) 1 0).1 = 2 ^ 64 - 1 ∧ (farNew 6 (2 ^ 64 - 1) 1 0).1 = 1 ∧ (farNew 9 7 5 7).1 = 5 ∧ (farNew 9 7 5 8).1 = 7 ∧ (farNew 10 0x3FF0000000000000 0x4000000000000000 0).1 = 0x4008000000000000 := by
  and_intros <;> first | decide +kernel | exact reads_of (by decide +kernel)

/-- Capability units and what their directory does (R265 to R276): a lane of the launch gives its region to all; claims; seals; asks. -/
def cp (c : CapState) (gs : List (Nat × Nat)) : State := { h0 gs [] with caps := [(1, { bytes := 4096, cap := c })] }
def cpq (c : CapState) (op : CapOp) : State := (cp c []).modCtx 0 0 fun v => { v with life := .blocked .cap, req := some (.cap op 1 4096 0x1000 9 none) }
theorem test_capability_units : Quiet (cp .opened [(1, 0x1000), (2, 0xFFFF)]) ∧ Reads [1] (cp .opened [(1, 0x1000), (2, 0xFFFF)]) [0x1000] (red [1] (cp .opened [(1, 0x1000), (2, 0xFFFF)])) ∧
    got (translateU 0x1000 1) (cp .opened [(1, 0x1000)]) ≠ none ∧ ((cp .opened []).launchOf 0).isSome = true ∧ (cp .opened []).mine.phasePoint = true ∧ Timely (cp .opened []) ∧
    (next (exec (.capSeal 9 1) (cp .opened [(1, 0x1000)]))).map (fun t => (t.me.life, (t.me.req.map fun r => match r with | .cap o p _ _ d _ => (decide (o = .seal), p, d) | _ => (false, 0, 0)))) =
      some (.blocked .cap, some (true, 0, 9)) ∧
    (next (exec (.capGive 9 1 2) (cp .opened [(1, 0x1000), (2, 0xFFFF)]))).map (·.me.life) = some (.blocked .cap) ∧ (next (exec (.capQry 9 1) (cp .opened [(1, 0x1000)]))).map (·.me.life) = some (.blocked .cap) ∧
    (cpq .sealed .claim).holderOf 0 = (1, 0, false) ∧ capEarlier (cpq .sealed .claim) (.capStateChange 0 (.own 0)) 1 0 = false ∧
    (next (exec (.capStateChange 0 (.own 0)) (cpq .sealed .claim))).map (fun t => (t.g 9, t.capAt 0x1000, t.me.life)) = some (1, .held 0 1 0, .ready) ∧
    (next (exec (.capStateChange 0 (.own 0)) (cpq (.held 0 1 0) .claim))).map (fun t => (t.g 9, t.capAt 0x1000)) = some (2, .held 0 1 0) ∧
    (next (exec (.capStateChange 0 (.own 0)) (cpq .opened .claim))).map (fun t => (t.g 9, t.capAt 0x1000)) = some (0, .opened) ∧
    (next (exec (.capStateChange 0 (.own 0)) (cpq (.held 0 1 0) (.give 0xFFFF)))).map (fun t => (t.g 9, t.capAt 0x1000)) = some (1, .opened) ∧
    (next (exec (.capStateChange 0 (.own 0)) (cpq (.held 0 1 0) (.give 0)))).map (fun t => (t.g 9, t.capAt 0x1000)) = some (2, .held 0 1 0) ∧
    (next (exec (.capStateChange 0 (.own 0)) (cpq .opened (.give 0)))).map (·.me.life == .ready) = some false ∧
    (next (exec (.capStateChange 0 (.own 0)) (cpq .opened .seal))).map (fun t => (t.g 9, t.capAt 0x1000)) = some (1, .sealed) ∧
    (next (exec (.capStateChange 0 (.own 0)) (cpq .sealed .unseal))).map (fun t => (t.g 9, t.capAt 0x1FFF, t.capAt 0x2000)) = some (1, .opened, .opened) ∧
    (next (exec (.capQryWaitRelease 0 0) (cpq (.held 0 1 0) .qryWait))).map (·.me.life) = some .ready ∧ drainWaits (cpq (.held 0 1 0) .seal) 0 1 4096 = false ∧
    (next (exec (.capQryWaitRelease 0 0) (cpq .sealed .qryWait))).map (fun t => t.agenda.map (·.2)) = some ((cpq .sealed .qryWait).postPoll 1 (.capQryWaitRelease 0 0) |>.agenda.map (·.2)) := by
  and_intros <;> first | decide +kernel | exact timely_of (by decide +kernel) | exact reads_of (by decide +kernel)

/-- What waits in the order of arrival at a home, batches of grants, page releases at scope pod, and queue registers that a far atomic writes. -/
def heldBy (s : State) (i : Instr) (keys : List Nat) : State := { s with held := [(i, keys)] }
def dirtyPage : State := { h1 with hub := { h1.hub with grants := [{ page := paPackage 0x1000 + 2 ^ 40, write := true, seq := 0, core := 0, dirty := [1] }] } }
def fullBatch : State := { h4 with hub := { h4.hub with parts := [(0, { h4.part 0 with batchAt := 0, batch := List.replicate 8 ⟨[0], [], [0x99], 0, 0⟩ })] } }
def awaitsCap : State := { cpq .opened .claim with hub := { Hub.reset with outstanding := [{ seq := 1, target := 1, core := 0, ctx := 0, cls := none, request := ⟨0, .cap 1 4096 .claim 1 0 false 0⟩, retries := 0 }] } }
theorem test_homes : goesAhead h1 0 0x41 (.homeLineRequest 0x41 0 .rd) = false ∧ h1.behind (.homeLineRequest 0x41 0 .rd) [lineKey 0x41] = false ∧ leasedAway h1 0 0x41 = false ∧
    next (exec (.homeLineRequest 0x41 0 .prefSlc) h1) = some { (h1.unhold (.homeLineRequest 0x41 0 .prefSlc)).charge (h1.clsOf 0) 0 1 with dir := tabSet h1.dir 0x41 { owner := none, sharers := [] } } ∧
    (heldBy h1 (.leaseGrant 3 0) [lineKey 0x41]).behind (.homeLineRequest 0x41 0 .rd) [lineKey 0x41] = true ∧
    (next (exec (.homeLineRequest 0x41 0 .rd) (heldBy h1 (.leaseGrant 3 0) [lineKey 0x41]))).map (fun t => (t.held.map (·.1), tabFind t.dir 0x41)) =
      some ([.leaseGrant 3 0, .homeLineRequest 0x41 0 .rd], none) ∧
    aTrick.due = h4.tick ∧ h4.lowerDue 0 1 (commitDue h4) = false ∧ (∀ l ∈ aTrick.wlines, h4.podRemote (l * 64) = false ∧ probeStopped h4 0 l true = none) ∧
    h4.behind (.commitGrant 0 0) (aTrick.wlines.map lineKey) = false ∧ mayJoin ((h4.part 0).batchNow h4.tick) (granted h4 0 aTrick) = true ∧
    (h4.writeEvent (h4.near 0) aTrick.wlines (some (0, 0)) true).isSome = true ∧
    mayJoin ((fullBatch.part 0).batchNow fullBatch.tick) (granted fullBatch 0 aTrick) = false ∧
    next (exec (.commitGrant 0 0) fullBatch) = some ((redue fullBatch 0 0 1).post 1 (.commitGrant 0 0)) ∧
    h1.podReleased 0 = true ∧ dirtyPage.podReleased 0 = false ∧ dirtyPage.exhausted (dirtyPage.clsOf 0) 1 = false ∧
    (next (exec (.fence .pod) dirtyPage)).map (·.me.life) = some (.blocked .podRelease) ∧ (next (exec (.fence .pkg) dirtyPage)).map (·.me.life) = some .ready ∧
    l4.behind (.leaseGrant 0 0) [lineKey 0x40] = false ∧ l4.needPage 0x1000 0 true = none ∧ probeStopped l4 0 0x40 true = none ∧ l4.exhausted (l4.clsOf 0) 0 = false ∧
    fa3.behind (.farAtomicPerform 0 0) [lineKey 0x40] = false ∧ fa3.leaseHeld (· == 0x40) (some (0, 0)) = false ∧ probeStopped fa3 0 0x40 true = none ∧
    (fa3.writeEvent (fa3.near 0) [0x40] (some (0, 0)) false).isSome = true ∧
    (let t := writeThrough fa4 0 0 3 (some 2) 0x77 1; (tabGet (t.core 0).q 2 [], rawG (t.core 0) (t.ctx 0 0) 3, (t.ctx 0 0).cflags)) = ([0x77], 0x1004, 1) ∧
    paPackage (1 * 4096) = (cpq .sealed .claim).pkg ∧ (cpq .sealed .claim).behind (.capStateChange 0 (.own 0)) [regionKey 1] = false ∧ copyAwaited (cpq .sealed .claim) 1 = false ∧
    awaitsCap.hub.outstanding.any (fun o => o.isCap 0 0 && o.answeredBy ⟨1, 1, .value 2⟩) = true ∧
    (next (exec (.capStateChange 0 (.answered 0 ⟨1, 1, .value 2⟩)) awaitsCap)).map (fun t => (t.g 9, t.me.life, t.hub.outstanding)) = some (2, .ready, []) ∧
    h2.capUnknown 0 0x1000 = false := by
  and_intros <;> decide +kernel

/-- Walks that wait for a meter, and those that pay; room for a line; a far atomic at its turn, and one that leaves for its home; copies of a region's
state; a trump's core that is halted; a lease's line at the home (R185, R213, R224, R260, R266, R401, R424). -/
def aCopy : State := (cpq (.held 0 1 0) .claim).modCtx 0 0 fun v => { v with req := some (.cap .claim 1 4096 0x1000 9 (some (.value 1))) }
theorem test_global_cases : h1.walkWaits 0 0 h1.mine.vmroot 0x1000 = false ∧ h1.walksAlone 0 h1.mine.vmroot 0x1000 = true ∧
    (h1.payWalk 0 0 h1.mine.vmroot 0x1000).walksAlone 0 h1.mine.vmroot 0x1000 = false ∧
    ((h1.payWalk 0 0 h1.mine.vmroot 0x1000).translate 0 h1.mine.vmroot 0x7FC0000000 0).isOk = false ∧
    ((begun h1).mine.pinned 0).length < (begun h1).mine.l1Lines ∧
    (farAddress (fa3.payWalk 0 0 fa3.mine.vmroot 0x1000) 0 0 { aFar with due := some 0 }).isOk = true ∧ fa3.walkWaits 0 0 fa3.mine.vmroot 0x1000 = false ∧
    fa3.meterOut 0 0 = false ∧ (∀ e ∈ (fa1.modCtx 0 0 fun v => { v with farq := [aFar] }).me.farq, e.old = none ∧ e.fault = none ∧ e.sent = none ∧ e.due = none ∧ e.refused = none) ∧
    ((startFar (fa1.modCtx 0 0 fun v => { v with farq := [aFar] }) 0 0).me.farq.map (·.due)) = [some (farLatency fa1 0 aFar)] ∧
    copyAwaited aCopy 1 = false ∧ aCopy.hub.owed = [] ∧ ((capCopied aCopy 1).g 9, (capCopied aCopy 1).me.life) = (1, .ready) ∧
    (next (exec (.capStateChange 0 (.answered 0 ⟨1, 1, .value 1⟩)) awaitsCap)).map (fun t => (t.g 9, t.me.life, t.capAt 0x1000)) = some (1, .ready, .held 0 1 0) ∧
    capAfter 0 1 0 .claim = some (.held 0 1 0) ∧
    next (exec (.trumpAdmission 0) (h8.modCore 0 fun c => { c with stopped := true })) = some (h8.modCore 0 fun c => { c with stopped := true }) ∧
    admissible h8.me = true ∧ admissible { h8.me with pending := some aTrick } = false ∧
    h2.behind (.capStateChange 0 (.own 0)) [regionKey 1] = false := by
  and_intros <;> decide +kernel

/-! ### Matrix and scan units, the carry chain -/

/-- The default format is MMA's F8 (R291); g1 = 0x2000, g2 = 0x1FFFC0 (an operand-buffer offset), g3 = 64, g4 = 0x2004, g5 = the last table block. -/
def m1 : State := sg [(1, 0x2000), (2, 0x1FFFC0), (3, 64), (4, 0x2004), (5, 196608 - 1024), (6, 196608 - 960), (7, 0x200000)]
def m0 : State := m1.modCore 0 fun c => { c with rows := 1, cols := 2 }
def m2 : State := { m1 with launches := [(1, { theLaunch with deal := List.replicate 128 0#8 })] }

/-- R282 to R285, R294, R295: requests join the queue; the first one starts; the bounds of DTLD and TLDB; without the grant they trap. -/
theorem test_matrix_units : Quiet m1 ∧ m1.launchFlag 0 33 = true ∧ m1.exhausted 0 3 = false ∧ (fmtTime (m1.currentFmt 0)).isSome = true ∧ fmtLegal 0x4D0000A99 = true ∧ fmtLegal 0 = false ∧
    next (exec (.tcfg 95 127) m1) = some (waiting m1 (atMatrix m1 (.tcfg 96 128)) .unitReq) ∧ next (exec (.trel 5) m1) = some (waiting m1 (atMatrix m1 (.trel 5)) .unitReq) ∧
    Free m1 9 ∧ next (exec (.fctxRd 9) m1) = some (waiting m1 (atMatrix m1 (.fctxRd 9)) .unitReq) ∧ next (exec (.fctx 1) m1) = some (trapped m1 { cause := .operandRange }) ∧
    Own m1 (196608 - 1024) (196608 - 1024) ∧ next (exec (.dtld 3 5) m1) = some (waiting m1 (atMatrix m1 (.dtld 3 195584)) .unitReq) ∧
    next (exec (.dtld 3 6) m1) = some (trapped m1 { cause := .outsideScratchpad, addr := 195648 }) ∧ next (exec (.dtld 3 4) m1) = some (trapped m1 { cause := .misaligned, addr := 0x2004 }) ∧
    (0x1FFFC0 + 64 ≤ 0x200000) ∧ next (exec (.tldb 2 1 3) m1) = some (waiting m1 (atMatrix (metered m1 (.tldb 0x2000 0x1FFFC0 64)) (.tldb 0x2000 0x1FFFC0 64)) .unitReq) ∧
    next (exec (.tqnt 1 1) m0) = some (waiting m0 (atMatrix (metered m0 (.tqnt 1 0x2000 0 0x4D0000A99)) (.tqnt 1 0x2000 0 0x4D0000A99)) .unitReq) ∧
    (next (exec (.mma 2 8 true) m1)).map (fun t => (t.me.life, (t.quad 0).matrix.map (·.req))) = some (.matrix, [.mma 2 true none 0 0 0 0x4D0000A99]) ∧
    m2.launchFlag 0 33 = false ∧ next (exec (.tcfg 0 0) m2) = some (trapped m2 { cause := .matrixNotGranted }) ∧ next (exec (.tldb 0 0 0) m2) = some (trapped m2 { cause := .matrixNotGranted }) := by
  and_intros <;> first | decide +kernel | exact free_of (by decide +kernel) | exact own_of (by decide +kernel)

/-- An unsupported format: MMA takes the trap of an illegal instruction with detail 1 (R288). -/
def m3 : State := m1.modCore 0 fun c => { c with fmt := 0x8C }
theorem test_mma_format : (fmtTime (m3.currentFmt 0)).isSome = false ∧ next (exec (.mma 0 1 false) m3) = some (trapped m3 { cause := .illegal, detail := 1 }) := by decide +kernel

/-- TSTC of one row of a tile of 2 columns: 1.5 and -2.0 as binary32 and as bf16 (R293). -/
def m4 : State := m1.modCore 0 fun c => { c with rows := 1, cols := 2, tiles := [(1, [(0, 0x3FC00000), (1, 0xC0000000)])] }
theorem test_tile_store : Runs m4 ∧ (begun m4).launchFlag 0 33 = true ∧ Own m4 0x2000 0x2000 ∧ 0 + 1 ≤ m4.mine.rows ∧ (begun m4).mine.touched 0 [] (wordsOf 0x2000 8) = false ∧
    (next (exec (.tstcF32 1 0 1) m4)).map (fun t => (memRead t.mine.store 0x2000 8, t.me.cflags)) = some (0xC00000003FC00000, 0) ∧
    (next (exec (.tstcBf16 1 0 1) m4)).map (fun t => memRead t.mine.store 0x2000 8) = some 0xC0003FC0 ∧
    (next (exec (.tstcF16 1 0 1) m4)).map (fun t => memRead t.mine.store 0x2000 8) = some 0xC0003E00 := by
  and_intros <;> first | decide +kernel | exact runs_of (by decide +kernel) | exact own_of (by decide +kernel)

/-- A request at the head of the queue starts, waits for another context's trick, completes; the next one starts (R284, R306). -/
def mq (r : MatrixReq) (done : Option Nat) (gs : List (Nat × Nat)) : State :=
  (st { aCore gs with ctxs := [(0, waits .unitReq (some .atUnit))] }).modQuad 0 fun q => { q with matrix := [{ core := 0, ctx := 0, done := done, req := r }, { core := 0, ctx := 1, req := .trel 1 }] }
theorem test_matrix_requests : ((mq (.tcfg 3 4) none []).quad 0).matrix ≠ [] ∧ matrixTicks (mq (.tcfg 3 4) none []) { core := 0, ctx := 0, req := .tcfg 3 4 } = 1 ∧
    (next (exec (.matrixRequestStart 0) (mq (.tcfg 3 4) none []))).map (fun t => ((t.quad 0).matrix.map (·.done), t.agenda.map (·.1))) = some ([some 1, none], [2, 20999]) ∧
    matrixTouched (mq (.tcfg 3 4) (some 0) []) { core := 0, ctx := 0, done := some 0, req := .tcfg 3 4 } = false ∧
    (next (exec (.matrixRequestComplete 0) (mq (.tcfg 3 4) (some 0) []))).map (fun t => (t.mine.rows, t.mine.cols, (t.quad 0).matrix.length, t.me.life)) = some (3, 4, 1, .ready) ∧
    (next (exec (.matrixRequestComplete 0) ((mq (.tcfg 3 4) (some 0) []).modCore 0 fun c => { c with inuse := 1 }))).map (fun t => (t.mine.rows, t.me.life == .ready)) = some (96, false) ∧
    (next (exec (.matrixRequestComplete 0) (mq (.fctxRd 9) (some 0) []))).map (·.g 9) = some 0x4D0000A99 ∧
    (next (exec (.matrixRequestComplete 0) (mq (.fctx 5) (some 0) []))).map (·.mine.fmt) = some 5 ∧
    (next (exec (.matrixRequestComplete 0) (mq (.tldb 8 0x40 8) (some 0) [(1, 0x1122)]))).map (fun t => memRead (t.quad 0).bsram 0x40 8) = some 0x1122 ∧
    (next (exec (.matrixRequestComplete 0) ((mq (.trel 1) (some 0) []).modCore 0 fun c => { c with inuse := 3, tiles := [(0, [(0, 1)]), (1, [(0, 2)])] }))).map
      (fun t => (t.mine.inuse, t.mine.tiles)) = some (2, [(1, [(0, 2)])]) := by
  and_intros <;> decide +kernel

/-- The watchdog counts the busy ticks of the quad's requests and fires at its limit; a soft error repeats a request once (R307, R308). -/
def m5 (limit : BitVec 32) : State := ((mq (.tcfg 3 4) (some 9) []).modGroup 0 fun g => { g with wdLimit := limit }).modQuad 0 fun q =>
  { q with matrix := q.matrix.map fun e => { e with count := 1 } }
theorem test_watchdog : ((m5 2).quad 0).matrix ≠ [] ∧ watchStopped (m5 2) 0 = false ∧ (next (exec (.mxwdogExpiry 0) (m5 2))).map (fun t => ((t.group 0).wdFired, (t.quad 0).matrix.length)) = some (false, 2) ∧
    (next (exec (.mxwdogExpiry 0) (m5 1))).map (fun t => ((t.group 0).wdFired, (t.agenda.map (·.2)).contains (.machineCheck (.quad 0)))) = some (true, true) ∧
    (next (exec (.mxwdogExpiry 0) (m5 0))).map (fun t => ((t.group 0).wdFired, (t.quad 0).matrix.length)) = some (false, 2) ∧
    (next (exec (.uncorrectableSoftError (.matrix 0) 0 4) (m5 2))).map (fun t => (t.quad 0).matrix.map (fun e => (e.done, e.retried))) = some [(none, true), (none, false)] ∧ (4 : BitVec 3) ≠ 0#3 ∧ (4 : BitVec 3).toNat ≤ 4 ∧
    (next (exec (.uncorrectableSoftError (.matrix 0) 0 4) ((m5 2).modQuad 0 fun q => { q with matrix := q.matrix.map fun e => { e with retried := true } }))).map
      (fun t => ((t.quad 0).matrix.length, t.me.life)) = some (1, .parked) ∧
    (next (exec (.uncorrectableSoftError (.trick 0 0 none) 0 1) (speculated (begun m1) 0x1000 8 5))).map (fun t => (t.me.running.writes, t.me.squash, t.me.life)) = some ([], 1, .ready) := by
  and_intros <;> decide +kernel

/-- One MMA element (R301): 96 by 128 by 1 of F8 1.0 times 2.0 without scales is not run here; the tile scan of two records is (R320). -/
def z1 : State := sg [(1, 0x2000), (2, 5), (3, 6), (4, 0x2000), (5, 0x2100)]
def zq (r : ScanReq) (done : Option Nat) : State :=
  (st { aCore [(10, 0x3F800000 + 0x40000000 * 2 ^ 32), (12, 0x40400000 + 0x3F800000 * 2 ^ 32)] with ctxs := [(0, waits .unitReq (some .atUnit))], sctx := 1 }).modQuad 0 fun q => { q with scan := [{ core := 0, ctx := 0, done := done, req := r }] }
theorem test_scan_units : Quiet z1 ∧ Free z1 9 ∧ next (exec (.scfg 9 .mul .rup) z1) = some (waiting z1 (atScan z1 (.scfg (3 * 8 + 2) 9)) .unitReq) ∧
    Reads [2, 3] z1 [5, 6] (red [2, 3] z1) ∧ next (exec (.stile 2) z1) = some (waiting z1 (atScan z1 (.stile 5 6)) .unitReq) ∧ Own z1 0x2000 0x2000 ∧
    next (exec (.sjoinT 2 1) z1) = some (waiting z1 (atScan z1 (.sjoinT 5 6 0x2000)) .unitReq) ∧ next (exec (.sjoinR 2 1 5) z1) = some (waiting z1 (atScan z1 (.sjoinR 5 0x2000 0x2100)) .unitReq) ∧
    (next (exec (.scanRequestStart 0) (zq (.scfg 7 9) none))).map (fun t => (t.quad 0).scan.map (·.done.isSome)) = some [true] ∧ scanTouched (zq (.scfg 7 9) (some 0)) { core := 0, ctx := 0, done := some 0, req := .scfg 7 9 } = false ∧
    (next (exec (.scanRequestComplete 0) (zq (.scfg 7 9) (some 0)))).map (fun t => (t.g 9, t.mine.sctx, (t.quad 0).scan.length)) = some (1, 7, 0) ∧ scanK 1 = 1 ∧
    (next (exec (.scanRequestComplete 0) (zq (.sjoinR 2 80 96) (some 0)))).map (fun t => (memRead t.mine.store 96 8, t.me.life)) = some (0x4040000040800000, .ready) ∧
    tileScan 1 .rne 13 1 [[0x3F800000], [0x40000000]] = ([[0x3F800000], [0x40400000]], 0) := by
  and_intros <;> first | decide +kernel | exact free_of (by decide +kernel) | exact reads_of (by decide +kernel) | exact own_of (by decide +kernel)

/-- Requests whose frames are stated: a quantisation in a legal format, a tile and a join of results, over well-formed stores (R293, R320, R326). -/
theorem test_unit_frames : fmtLegal 0x4D0000A99 = true ∧ Memory.wf m0.mine.store = true ∧
    (match performMatrix (.tqnt 1 0x2000 0x3000 0x4D0000A99) m0 with | .ok (.next, u) => u.mine.tiles == m0.mine.tiles | _ => false) = true ∧
    Memory.wf (zq (.stile 80 0) none).mine.store = true ∧
    (match performScan (.stile 80 0) (zq (.stile 80 0) none) with | .ok (.next, u) => u.mine.sctx == 1 | _ => false) = true ∧
    (match performScan (.sjoinR 2 80 96) (zq (.stile 80 0) none) with | .ok (.next, u) => u.mine.sctx == 1 | _ => false) = true := by
  and_intros <;> decide +kernel

/-- A chain of two quads: core 0 at position 0, core 4 at position 1 (R327 to R337). -/
def chLaunch : Launch := { theLaunch with deal := List.replicate 24 0#8 ++ [7#8, 0, 0, 0, 6] ++ List.replicate 99 0#8, cores := List.range 8 }
def ch (k : Nat) (gs : List (Nat × Nat)) : State :=
  { st {} with cores := [(k, { aCore gs with lane := k })], launches := [(1, chLaunch)], cur := (k, 0) }
def chw (k : Nat) (r : Request) : State := (ch k [(10, 0xABCD)]).modCtx k 0 fun v => { v with life := .blocked .chain, req := some r }
theorem test_chain_units : chLaunch.positions = 2 ∧ (ch 0 []).launchOf 0 = some chLaunch ∧ chLaunch.flags.getLsbD 34 = true ∧
    (next (exec (.chainPos 9) (ch 4 []))).map (·.g 9) = some (2 ^ 32 + 2 * 65536 + 1) ∧ (next (exec (.chainPos 9) m2)).map (·.g 9) = some 0 ∧ m2.chainOf 0 = none ∧
    next (exec (.chainPost 9 1 3) m2) = some (trapped m2 { cause := .chainNotGranted }) ∧ next (exec (.chainPost 9 1 2) (ch 0 [(1, 64), (2, 4097)])) = some (trapped (ch 0 [(1, 64), (2, 4097)]) { cause := .operandRange }) ∧
    next (exec (.chainWait 9 1 2) (ch 0 [(1, 64), (2, 0)])) = some (trapped (ch 0 [(1, 64), (2, 0)]) { cause := .operandRange }) ∧
    next (exec (.chainPost 9 1 2) (ch 0 [(1, 72), (2, 64)])) = some (trapped (ch 0 [(1, 72), (2, 64)]) { cause := .misaligned, addr := 72 }) ∧
    next (exec (.chainPost 9 1 2) (ch 0 [(1, 196544), (2, 128)])) = some (trapped (ch 0 [(1, 196544), (2, 128)]) { cause := .outsideScratchpad, addr := 196544 }) ∧ Own (ch 0 [(1, 64), (2, 4096)]) 64 64 ∧
    (next (exec (.chainPost 9 1 2) (ch 0 [(1, 64), (2, 4096)]))).map (fun t => (t.me.life, t.me.req)) = some (.blocked .chain, some (.chainPost 64 4096 9)) ∧
    (next (exec (.chainPost 9 1 2) (ch 4 [(1, 64), (2, 64)]))).map (·.g 9) = some 0 ∧ (next (exec (.chainWait 9 1 2) (ch 0 [(1, 64), (2, 64)]))).map (·.g 9) = some 0 ∧
    (next (exec (.chainWait 9 1 2) (ch 4 [(1, 64), (2, 64)]))).map (fun t => (t.me.life, t.me.req)) = some (.blocked .chain, some (.chainWait 64 64 9)) := by
  and_intros <;> first | decide +kernel | exact own_of (by decide +kernel)

/-- A post fills the successor's buffer, which is full at its delivery; a wait takes it whole; a buffer too long traps (R329, R330, R333, R334). -/
def chBuf (n : Nat) : State := (chw 4 (.chainWait 64 64 9)).modQuad 1 fun q => { q with chainBuf := some (List.replicate n 7#8), chainFull := true }
theorem test_chain_events : (chw 0 (.chainPost 64 64 9)).quadAt chLaunch 1 = some 1 ∧ (next (exec (.chainPostPerform 0 0) (chw 0 (.chainPost 64 64 9)))).map
      (fun t => (((t.quad 1).chainBuf.map fun b => ofBytes (b.drop 16)), (t.quad 1).chainFull, t.g 9, (t.quad 0).posts)) = some (some 0xABCD, false, 1, 1) ∧
    next (exec (.chainPostPerform 0 0) ((chw 0 (.chainPost 64 64 9)).modQuad 1 fun q => { q with chainBuf := some [] })) =
      some (((chw 0 (.chainPost 64 64 9)).modQuad 1 fun q => { q with chainBuf := some [] }).post 1 (.chainPostPerform 0 0)) ∧
    (next (exec (.chainDelivery 1) ((ch 4 []).modQuad 1 fun q => { q with chainBuf := some [] }))).map (fun t => (t.quad 1).chainFull) = some true ∧
    next (exec (.chainWaitPerform 4 0) (chw 4 (.chainWait 64 64 9))) = some ((chw 4 (.chainWait 64 64 9)).postPoll 1 (.chainWaitPerform 4 0)) ∧ chainBehind (chBuf 64) 4 0 false = false ∧
    (next (exec (.chainWaitPerform 4 0) (chBuf 64))).map (fun t => (t.g 9, memRead (t.core 4).store 64 8, (t.quad 1).chainBuf, (t.quad 1).waits)) = some (64, 0x0707070707070707, none, 1) ∧
    next (exec (.chainWaitPerform 4 0) (chBuf 128)) = some (replyTraps (chBuf 128) 4 0 { cause := .operandRange }) := by
  and_intros <;> decide +kernel

/-! ### Barriers and semaphores, queues, messages -/

/-- Core 0 with a handle of object 3 of core 1 in g1 (R340) and the operand in g2; core 1 is a lane of its launch. -/
def y0 (h v : Nat) : State := { sg [(1, h), (2, v)] with cores := [(0, aCore [(1, h), (2, v)]), (1, coreB)] }
def asked (s : State) (op : SyncOp) (bar : Bool) : Option State :=
  some (waiting s ((requested s (.sync op .die 0 1 3 9)).postPoll 24 (if bar then .barrierArrival 0 0 else .semaphoreAtHome 0 0)) .reply)

/-- R340, R341, R346: the parts of a handle; an accepted one, and one for each way in which it is refused. -/
theorem test_sync_home : (got (syncHome 67 .die) (y0 67 1)) = some (0, 1) ∧ after (syncHome 67 .die) (y0 67 1) = y0 67 1 ∧
    (got (syncHome 67 .lane) (y0 67 1)) = none ∧ (got (syncHome (2 ^ 18) .die) (y0 67 1)) = none ∧ (got (syncHome (2 ^ 18) .pod) (y0 67 1)) = some (1, 0) ∧
    (got (syncHome (64 * 1024) .die) (y0 67 1)) = none ∧ (got (syncHome 131 .die) (y0 67 1)) = none ∧ sameScope .die 0 1 = true ∧ sameScope .die 0 1024 = false ∧
    (y0 67 1).mates 0 1 = true ∧ (y0 67 1).mates 0 2 = false := by
  and_intros <;> decide +kernel

/-- R346 to R351, R354: every form sends its request; range errors; another package. -/
theorem test_sync_units : Quiet (y0 67 1) ∧ Reads [1, 2] (y0 67 1) [67, 1] (red [1, 2] (y0 67 1)) ∧ red [1, 2] (y0 67 1) = y0 67 1 ∧ Free (y0 67 1) 9 ∧
    next (exec (.binit 9 1 2 .die) (y0 67 1)) = asked (y0 67 1) (.binit 1) true ∧ next (exec (.binit 9 1 2 .die) (y0 67 0)) = some (trapped (y0 67 0) { cause := .operandRange }) ∧
    next (exec (.binit 9 1 2 .die) (y0 67 (2 ^ 32))) = some (trapped (y0 67 (2 ^ 32)) { cause := .operandRange }) ∧
    next (exec (.barv 9 1 2 .die) (y0 67 (2 ^ 64 - 5))) = asked (y0 67 (2 ^ 64 - 5)) (.barv (-5) true) true ∧
    next (exec (.barvX 9 1 2 .die) (y0 67 5)) = asked (y0 67 5) (.barv 5 false) true ∧ next (exec (.bwait 9 1 2 .die) (y0 67 0x10005)) = asked (y0 67 0x10005) (.bwait 5) true ∧
    next (exec (.btest 9 1 2 .die) (y0 67 3)) = asked (y0 67 3) (.btest true) true ∧ next (exec (.semi 9 1 2 .die) (y0 67 4)) = asked (y0 67 4) (.semi false 4) false ∧
    next (exec (.semiSet 9 1 2 .die) (y0 67 4)) = asked (y0 67 4) (.semi true 4) false ∧ next (exec (.semw 9 1 2 .die) (y0 67 4)) = asked (y0 67 4) (.semw false 4) false ∧
    next (exec (.semwDec 9 1 2 .die) (y0 67 4)) = asked (y0 67 4) (.semw true 4) false ∧
    next (exec (.btest 9 1 2 .die) (y0 99 3)) = some (trapped (y0 99 3) { cause := .operandRange }) ∧
    next (exec (.semi 9 1 2 .die) (y0 (2 ^ 25) 3)) = some (trapped (y0 (2 ^ 25) 3) { cause := .operandRange }) ∧
    next (exec (.semi 9 1 2 .quad) (y0 (64 * 4) 3)) = some (trapped (y0 (64 * 4) 3) { cause := .syncScope }) ∧ (y0 (2 ^ 18 + 67) 3).exhausted 0 1 = false ∧
    next (exec (.semi 9 1 2 .pod) (y0 (2 ^ 18 + 67) 3)) = some (waiting (y0 (2 ^ 18 + 67) 3)
      ((requested (y0 (2 ^ 18 + 67) 3) (.sync (.semi false 3) .pod 1 1 3 9)).sendPeer 1 0 0 (.sync 1 3 (.semi false 3) 0)) .reply) := by
  and_intros <;> first | decide +kernel | exact free_of (by decide +kernel) | exact reads_of (by decide +kernel)

/-- A class whose FABRIC meter has passed its limit for this period, and a page whose written bytes are not yet at their home (R239, R424). -/
def outOfFabric (s : State) : State := { s with budgets := [(s.clsOf 0, { count := [0, 9, 0, 0], a := 1, b := 1, nextA := 1, nextB := 1 })] }
def unreleased (s : State) : State := { s with hub := { s.hub with grants := [{ page := 2 ^ 28, write := true, seq := 0, core := 0, dirty := [2 ^ 34] }] } }
def yPod : State := y0 (2 ^ 18 + 67) 3
theorem test_sync_pod : (outOfFabric yPod).exhausted 0 1 = true ∧ yPod.podReleased 0 = true ∧ (unreleased yPod).podReleased 0 = false ∧ syncReleases (.semi false 3) = true ∧ syncReleases (.semw false 3) = false ∧
    (next (exec (.semi 9 1 2 .pod) (unreleased yPod))).map (·.me.life) = some (.blocked .podRelease) ∧ (next (exec (.semw 9 1 2 .pod) (unreleased yPod))).map (·.me.life) = some (.blocked .reply) ∧
    (next (exec (.semi 9 1 2 .pod) (outOfFabric yPod))).map (·.me.life) = some (.blocked (.meter 1)) := by
  and_intros <;> decide +kernel

/-- Answers (R352, R353, R368), with and without a reply of another package. -/
def ya (r : Request) : State := wt (waits .reply (some r))
def yPeer : Request := .sync (.semi false 3) .pod 1 1 3 9
def outOf (s : State) (p : PeerOp) : State := { s with hub := { s.hub with outstanding := [{ seq := 1, target := 1, core := 0, ctx := 0, cls := none, request := ⟨0, p⟩, retries := 0 }] } }
def yOut : State := outOf (ya yPeer) (.sync 1 3 (.semi false 3) 0)
def ans (r : PeerReply) : PeerAnswer := ⟨1, 1, r⟩
def ygot (r : PeerReply) : State := yOut.gotPeer (fun o => o.isSync 0 0 && o.answeredBy (ans r)) r
def yLand : State := outOf (ya (.sync (.land 8) .pod 1 1 3 9)) (.sync 1 3 (.land 8) 0)
theorem test_sync_answers : next (exec (.syncWaiterAnswer 0 0 none) (ya (.answer 9 5 false))) = some (replied (ya (.answer 9 5 false)) 0 0 (wrote 9 5 (ya (.answer 9 5 false)))) ∧
    ReplyWrites (ya (.answer 9 5 false)) 0 0 9 5 (wrote 9 5 (ya (.answer 9 5 false))) ∧
    (next (exec (.syncWaiterAnswer 0 0 none) ((ya (.answer 9 5 true)).modCore 0 fun c => { c with phasePoint := false }))).map (fun t => (t.g 9, t.mine.phasePoint)) = some (5, true) ∧
    ReplyWrites (ygot (.value 5)) 0 0 9 5 (wrote 9 5 (ygot (.value 5))) ∧
    next (exec (.syncWaiterAnswer 0 0 (some (ans (.value 5)))) yOut) = some (replied (ygot (.value 5)) 0 0 (wrote 9 5 (ygot (.value 5)))) ∧
    next (exec (.syncWaiterAnswer 0 0 (some (ans .retry))) yOut) = some ((ygot .retry).post 64 (.wakeListRetry 0 0)) ∧
    next (exec (.syncWaiterAnswer 0 0 (some (ans .syncState))) yOut) = some (replyTraps (ygot .syncState) 0 0 { cause := .syncState }) ∧
    yOut.hub.outstanding.any (fun o => o.isSync 0 0 && o.answeredBy (ans .eviction)) = true ∧ next (exec (.syncWaiterAnswer 0 0 (some (ans .eviction))) yOut) = some ((ygot .eviction).post 256 (.evictionRetryResend 0 0)) ∧
    next (exec (.syncWaiterAnswer 0 0 (some ⟨1, 2, .eviction⟩)) yOut) = some yOut ∧
    next (exec (.syncWaiterAnswer 0 0 (some (ans .syncScope))) yOut) = some (replyTraps (ygot .syncScope) 0 0 { cause := .syncScope }) ∧
    next (exec (.syncWaiterAnswer 0 0 (some (ans .range))) yOut) = some (replyTraps (ygot .range) 0 0 { cause := .operandRange }) ∧
    next (exec (.syncWaiterAnswer 0 0 (some (ans .boundary))) yOut) = some (replyTraps (ygot .boundary) 0 0 { cause := .remoteBoundary }) ∧
    (next (exec (.syncWaiterAnswer 0 0 (some (ans (.value 0)))) yLand)).map (fun t => (t.me.hostReplies, t.me.life)) = some ([(handleKey 1 1 3, 1)], .ready) ∧
    next (exec (.wakeListRetry 0 0) (ya yPeer)) = some ((ya yPeer).sendPeer 1 0 0 (.sync 1 3 (.semi false 3) 0)) ∧
    (let u := (ya yPeer).modCore 0 fun c => { c with halting := some 0 }; next (exec (.wakeListRetry 0 0) u) = some (u.post 1 (.wakeListRetry 0 0))) ∧
    ((outOfFabric (ya yPeer)).exhausted ((ya yPeer).clsOf 0) 1 = true ∧ next (exec (.wakeListRetry 0 0) (outOfFabric (ya yPeer))) = some ((outOfFabric (ya yPeer)).post 1 (.wakeListRetry 0 0))) ∧
    next (exec (.wakeListRetry 0 0) (ya (.sync (.binit 4) .die 0 1 3 9))) = some ((ya (.sync (.binit 4) .die 0 1 3 9)).postPoll 24 (.barrierArrival 0 0)) ∧
    next (exec (.wakeListRetry 0 0) (ya (.sync (.semw true 4) .quad 0 1 3 9))) = some ((ya (.sync (.semw true 4) .quad 0 1 3 9)).postPoll 2 (.semaphoreAtHome 0 0)) := by
  and_intros <;> first | decide +kernel | exact replies_of (by decide +kernel)

/-- The request of core 0 at core 1, whose object 3 is `b` or holds `n`. -/
def yh (op : SyncOp) (c : Core) : State :=
  { ya (.sync op .die 0 1 3 9) with cores := [(0, { aCore [] with ctxs := [(0, waits .reply (some (.sync op .die 0 1 3 9)))] }), (1, c)], agenda := [] }
def yb (b : Barrier) : Core := { coreB with barriers := [(3, b)] }
def ys (n : Nat) : Core := { coreB with sems := [(3, BitVec.ofNat 32 n)] }
def yw (op : SyncOp) (bar : Bool) : Waiter := ⟨0, 0, none, .die, bar, 3, op⟩
def seen (o : Option State) : Option (Option Request × Barrier × BitVec 32 × List Waiter) := o.map fun t => ((t.ctx 0 0).req, (t.core 1).barrier 3, (t.core 1).sem 3, (t.core 1).wake)
def bAt (op : SyncOp) (b : Barrier) := next (exec (.barrierArrival 0 0) (yh op (yb b)))
def sAt (op : SyncOp) (n : Nat) := next (exec (.semaphoreAtHome 0 0) (yh op (ys n)))
theorem test_barrier_home : syncAway (yh (.binit 2) (yb {})) 0 1 .die = false ∧ (yh (.binit 2) (yb {})).agenda = [] ∧ launchBarrier (yh (.binit 2) (yb {})) 0 0 1 3 = false ∧
    bAt (.binit 2) {} = some (barrierAt (yh (.binit 2) (yb {})) 1 (yw (.binit 2) true)) ∧ seen (bAt (.binit 2) {}) = some (some (.answer 9 1 false), { scope := 5, expected := 2 }, 0, []) ∧
    seen (bAt (.binit 2) { arrived := 1 }) = some (some (.answer 9 0 false), { arrived := 1 }, 0, []) ∧
    bAt (.barv 0 true) {} = some ((yh (.barv 0 true) (yb {})).failSync (yw (.barv 0 true) true) .syncState) ∧ bAt (.bwait 0) { scope := 1 } = some ((yh (.bwait 0) (yb { scope := 1 })).failSync (yw (.bwait 0) true) .syncScope) ∧
    seen (bAt (.barv 0 true) ⟨5, 2, 0, 7, 0⟩) = some (some (.answer 9 7 false), ⟨5, 2, 1, 7, 0⟩, 0, []) ∧ seen (bAt (.barv 0 true) ⟨5, 2, 1, 7, 0⟩) = some (some (.answer 9 7 false), ⟨5, 2, 0, 8, 0⟩, 0, []) ∧
    seen (bAt (.barv (-5) true) ⟨5, 2, 1, 7, 0⟩) = some (some (.answer 9 7 false), ⟨5, 2, 2, 7, 0xFFFFFB⟩, 0, []) ∧
    seen (bAt (.barv 5 false) ⟨5, 2, 2, 0xFFFF, 0xFFFFFB⟩) = some (some (.answer 9 0xFFFF false), ⟨5, 2, 0, 0, 0⟩, 0, []) ∧
    (seen (bAt (.barv 0 true) ⟨5, 2, 2, 7, 1⟩)).map (·.2) = some (⟨5, 2, 2, 7, 1⟩, 0, [yw (.barv 0 true) true]) ∧
    seen (bAt (.bwait 7) ⟨5, 2, 1, 8, 0⟩) = some (some (.answer 9 8 false), ⟨5, 2, 1, 8, 0⟩, 0, []) ∧ (seen (bAt (.bwait 8) ⟨5, 2, 1, 8, 0⟩)).map (·.2.2.2) = some [yw (.bwait 8) true] ∧
    (seen (bAt (.btest false) ⟨5, 2, 1, 8, 0⟩)).map (·.1) = some (some (.answer 9 0 false)) ∧ (seen (bAt (.btest true) ⟨5, 2, 1, 8, 0⟩)).map (·.1) = some (some (.answer 9 1 false)) ∧
    (⟨5, 2, 1, 7, 0x7FFFFF⟩ : Barrier).count 1 false = none ∧ (⟨5, 2, 1, 7, 0x800000⟩ : Barrier).count (-1) false = none ∧
    ((⟨5, 2, 1, 7, 0x7FFFFE⟩ : Barrier).count 1 false).map (·.pending) = some 0x7FFFFF ∧ phaseDone 0 0xFFFF = true ∧ phaseDone 0x8000 0 = false ∧ phaseDone 0x7FFF 0 = true ∧
    next (exec (.barrierArrival 0 0) (yh (.bwait 7) { yb {} with stopped := true })) = some ((yh (.bwait 7) { yb {} with stopped := true }).post 256 (.evictionRetryResend 0 0)) ∧
    syncAway (yh (.bwait 7) { yb {} with stopped := true }) 0 1 .die = true := by
  and_intros <;> decide +kernel

/-- R354: an addition that wraps, a setting, waiters that take, do not take, and stay behind one that must take first; a full list (R352). -/
def yBehind : State := yh (.semw false 1) { ys 5 with wake := [{ yw (.semw true 9) false with ctx := 4 }] }
def yFull : State := yh (.semw false 6) { ys 5 with wake := List.replicate 128 (yw (.semw true 9) true) }
theorem test_semaphore_home : sAt (.semi false 4) 7 = some (semAt (yh (.semi false 4) (ys 7)) 1 (yw (.semi false 4) false)) ∧
    (seen (sAt (.semi false 0xFFFFFFFF) 7)).map (fun r => (r.1, r.2.2.1)) = some (some (.answer 9 7 false), 6) ∧ (seen (sAt (.semi true 2) 7)).map (fun r => (r.1, r.2.2.1)) = some (some (.answer 9 7 false), 2) ∧
    (seen (sAt (.semw false 7) 7)).map (fun r => (r.1, r.2.2.1)) = some (some (.answer 9 7 false), 7) ∧ (seen (sAt (.semw true 7) 7)).map (fun r => (r.1, r.2.2.1)) = some (some (.answer 9 7 false), 0) ∧
    (seen (sAt (.semw true 8) 7)).map (·.2.2.2) = some [yw (.semw true 8) false] ∧ ((next (exec (.semaphoreAtHome 0 0) yBehind)).map fun t => (t.core 1).wake.length) = some 2 ∧
    (let s := yh (.semi true 6) { ys 6 with wake := [yw (.binit 1) true, { yw (.semw false 6) false with ctx := 1 }, { yw (.semw true 4) false with ctx := 2 }, { yw (.semw true 9) false with ctx := 3 }, { yw (.semw false 1) false with ctx := 4 }] };
      (settleSem 3 1 s = serveSem 3 1 (s.core 3).wake s) ∧ ((settleSem 1 3 s).core 1).wake.map (·.ctx) = [0, 3, 4] ∧ ((settleSem 1 3 s).core 1).sem 3 = 2) ∧
    (∀ u ∈ ((yh (.semw false 7) (ys 7)).core 1).wake, u.barrier = true ∨ u.index ≠ 3) ∧
    next (exec (.semaphoreAtHome 0 0) yFull) = some (yFull.post 64 (.wakeListRetry 0 0)) ∧ 128 ≤ (yFull.core 1).wake.length := by
  and_intros <;> decide +kernel

/-- Queue 3 of slice 0, and a core with its number in g1 and a word or an address in g2 (R356, R358, R359). -/
def q1 : SliceQueue := { en := true, c := 1 }
def q2 : SliceQueue := { en := true, z := 1, c := 0 }
def k0 (q : SliceQueue) (gs : List (Nat × Nat)) : State := { sg gs with squeues := [(3, q)] }
def kAsks (s : State) (op : QueueOp) : Option State := some (waiting s ((requested s (.queue op 3 9)).post 40 (.sliceQueueOp 0 0)) .reply)
theorem test_queue_units : Quiet (k0 q1 [(1, 3), (2, 5)]) ∧ Timely (k0 q1 [(1, 3), (2, 5)]) ∧ Reads [1, 2] (k0 q1 [(1, 3), (2, 5)]) [3, 5] (red [1, 2] (k0 q1 [(1, 3), (2, 5)])) ∧
    red [1, 2] (k0 q1 [(1, 3), (2, 5)]) = k0 q1 [(1, 3), (2, 5)] ∧ Reads [1] (k0 q1 [(1, 3), (2, 5)]) [3] (red [1] (k0 q1 [(1, 3), (2, 5)])) ∧ Free (k0 q1 [(1, 3), (2, 5)]) 9 ∧
    (k0 q1 []).partOfDie 0 = (k0 q1 []).partOf 0 ∧ queueLatency 0 3 = 40 ∧ q1.entry = 8 ∧ q2.entry = 16 ∧
    next (exec (.qinit 9 1 2) (k0 q1 [(1, 3), (2, 0x147)])) = kAsks (k0 q1 [(1, 3), (2, 0x147)]) (.qinit 0x147) ∧
    next (exec (.qinit 9 1 2) (k0 q1 [(1, 4096), (2, 0x147)])) = some (trapped (k0 q1 [(1, 4096), (2, 0x147)]) { cause := .operandRange }) ∧
    next (exec (.qinit 9 1 2) (k0 q1 [(1, 3), (2, 0x148)])) = some (trapped (k0 q1 [(1, 3), (2, 0x148)]) { cause := .operandRange }) ∧
    (2 ^ 8 * (8 * 2 ^ 3) ≤ 16384) ∧ next (exec (.qinit 9 1 2) (k0 q1 [(1, 3), (2, 0x138)])) = kAsks (k0 q1 [(1, 3), (2, 0x138)]) (.qinit 0x138) ∧
    next (exec (.enq 9 1 2) (k0 q1 [(1, 3), (2, 0x1234)])) = kAsks (k0 q1 [(1, 3), (2, 0x1234)]) (.enq [0x34, 0x12, 0, 0, 0, 0, 0, 0]) ∧
    next (exec (.deq 9 1) (k0 q1 [(1, 3)])) = kAsks (k0 q1 [(1, 3)]) (.deq none false) ∧ next (exec (.deq 9 1) (k0 q2 [(1, 3)])) = some (trapped (k0 q2 [(1, 3)]) { cause := .operandRange }) ∧
    Own (k0 q2 [(1, 3), (2, 0x2000)]) 0x2000 0x2000 ∧ (k0 q2 [(1, 3), (2, 196608 - 16)]).mine.S = 196608 ∧
    next (exec (.deqB 9 1 2) (k0 q2 [(1, 3), (2, 196608 - 16)])) = kAsks (k0 q2 [(1, 3), (2, 196608 - 16)]) (.deq (some 196592) false) ∧
    next (exec (.deqPoll 9 1 2) (k0 q2 [(1, 3), (2, 0x2000)])) = kAsks (k0 q2 [(1, 3), (2, 0x2000)]) (.deq (some 0x2000) true) ∧
    next (exec (.deqPoll 9 1 2) (k0 q2 [(1, 3), (2, 0x2004)])) = some (trapped (k0 q2 [(1, 3), (2, 0x2004)]) { cause := .misaligned, addr := 0x2004 }) ∧
    next (exec (.enqB 9 1 2) (k0 q1 [(1, 3), (2, 8)])) = kAsks (k0 q1 [(1, 3), (2, 8)]) (.enq [3, 0, 0, 0, 0, 0, 0, 0]) ∧
    next (exec (.enqB 9 1 2) ((k0 q1 [(1, 3), (2, 8)]).modCore 0 fun c => { c with det := true })) =
      some (trapped ((k0 q1 [(1, 3), (2, 8)]).modCore 0 fun c => { c with det := true }) { cause := .timing }) := by
  and_intros <;> first | decide +kernel | exact timely_of (by decide +kernel) | exact free_of (by decide +kernel) | exact reads_of (by decide +kernel) | exact own_of (by decide +kernel)

/-- The request of a context of core 0 at the slice; context 4 waits there in its turn. -/
def ke (op : QueueOp) (q : SliceQueue) : State :=
  { st { aCore [] with ctxs := [(0, waits .reply (some (.queue op 3 9))), (4, waits .reply (some (.queue (.deq none false) 3 10)))] } with squeues := [(3, q)], agenda := [] }
def kAt (op : QueueOp) (q : SliceQueue) := next (exec (.sliceQueueOp 0 0) (ke op q))
def kSeen (o : Option State) : Option (Word × List (List Byte) × List (Nat × Nat)) := o.map fun t => ({ t with cur := (0, 0) }.g 9, (t.squeue 3).items, (t.squeue 3).waiters)
def e8 (n : Nat) : List Byte := toBytes 8 n
def kBack (op : QueueOp) (q : SliceQueue) (r : Request) : State := ((ke op q).modCtx 0 0 fun v => { v with req := some r }).post 40 (.sliceQueueOp 0 0)
def kDone (o : Option State) := kSeen (o.bind fun t => next (exec (.sliceQueueOp 0 0) { t with agenda := [] }))
theorem test_queue_slice : kDone (kAt (.qinit 0x102) {}) = some (1, [], []) ∧ (kAt (.qinit 0x102) {}).map (fun t => ((t.squeue 3).en, (t.squeue 3).capacity)) = some (true, 4) ∧
    kDone (kAt (.qinit 0x102) { q1 with items := [e8 5] }) = some (0, [e8 5], []) ∧ kAt (.enq (e8 5)) { q1 with en := false } = some (kBack (.enq (e8 5)) { q1 with en := false } (.trapped .syncState)) ∧
    kAt (.enq (e8 5)) q2 = some (kBack (.enq (e8 5)) q2 (.trapped .operandRange)) ∧ kDone (kAt (.enq (e8 5)) { q1 with items := [e8 4] }) = some (1, [e8 4, e8 5], []) ∧
    kDone (kAt (.enq (e8 5)) { q1 with items := [e8 4, e8 6] }) = some (0, [e8 4, e8 6], []) ∧ kDone (kAt (.enq (e8 5)) { q1 with waiters := [(0, 4)] }) = some (1, [], []) ∧
    (kAt (.enq (e8 5)) { q1 with waiters := [(0, 4)] }).map (fun t => ((t.ctx 0 4).req, t.agenda.map (·.1))) = some (some (.answer 10 5 false), [80, 80]) ∧
    deviceHeld (ke (.enq (List.replicate 128 7)) { q1 with z := 4, host := true }) 3 = false ∧
    kDone (kAt (.enq (List.replicate 128 7)) { q1 with z := 4, host := true }) = some (1, [List.replicate 128 7], []) ∧
    kAt (.deq none false) { q1 with host := true } = some (kBack (.deq none false) { q1 with host := true } (.trapped .queueBound)) ∧
    kDone (kAt (.deq none false) { q1 with items := [e8 5, e8 6] }) = some (5, [e8 6], []) ∧ (kAt (.deq (some 0x2000) false) { q1 with items := [e8 5] }).map (fun t => (t.me.req, memRead t.mine.store 0x2000 8)) = some (some (.answer 9 1 false), 5) ∧
    kDone (kAt (.deq (some 0x2000) true) q1) = some (0, [], []) ∧ sliceWaiters (ke (.deq none false) q1) 3 = 0 ∧ (kSeen (kAt (.deq none false) q1)).map (·.2.2) = some [(0, 0)] ∧
    kAt (.deq none false) { q1 with waiters := List.replicate 64 (1, 1) } = some ((ke (.deq none false) { q1 with waiters := List.replicate 64 (1, 1) }).post 144 (.sliceQueueOp 0 0)) ∧
    bufferHeld (ke (.deq (some 0x2000) true) q1) 0 0 (some 0x2000) 8 = false ∧ deqDone (ke (.deq none false) q1) 0 0 3 none 9 (e8 5) = kBack (.deq none false) q1 (.answer 9 5 false) ∧
    (let s := (ke (.deq none false) q1).modCtx 0 0 fun v => { v with req := some (.trapped .queueBound) }; next (exec (.sliceQueueOp 0 0) s) = some (replyTraps s 0 0 { cause := .queueBound })) ∧
    (let c := { aCore [] with ctxs := [(0, waits .reply (some (.queue (.deq (some 0x2000) true) 3 9))), (3, { aCtx with running := { ({} : Trick) with stores := [0x400] } })] };
      bufferHeld { st c with squeues := [(3, { q1 with items := [e8 5] })] } 0 0 (some 0x2000) 8 = true) := by
  and_intros <;> decide +kernel

/-- A core with class 2 in context 12; a message of two words for it (R361 to R365). -/
def mB : Core := { coreB with cls := [(4, 0x300000), (5, 0x200 + 0x80 + 4)] }
def mMsg : MessageData := ⟨0, 2, .send, [7, 8]⟩
def mb (c : Core) (gs : List (Nat × Nat)) : State := { sg gs with cores := [(0, aCore gs), (1, c)] }
def mSends (s : State) (core : Nat) (m : MessageData) : Option State := some (waiting s ((requested s (.send 0 core m 9)).post 1 (.messageArrival (cid core) m)) .reply)
def mMail (x : Nat) : State := { (mb mB [(1, 2), (2, 7), (3, 8)]).modCtx 0 x fun _ => { aCtx with mailbox := some ⟨0x10, 0, .send, [9]⟩ } with cur := (0, x) }
def mDirty : State := { mb mB [(1, 0x10012)] with hub := { Hub.reset with grants := [{ page := 2 ^ 28, write := true, seq := 0, core := 0, dirty := [2 ^ 34] }] } }
theorem test_message_units : Reads [1] (mb mB [(1, 0x12), (2, 7), (3, 8)]) [0x12] (red [1] (mb mB [(1, 0x12), (2, 7), (3, 8)])) ∧
    Reads [2, 3] (mb mB [(1, 0x12), (2, 7), (3, 8)]) [7, 8] (red [2, 3] (mb mB [(1, 0x12), (2, 7), (3, 8)])) ∧ Free (mb mB [(1, 0x12), (2, 7), (3, 8)]) 9 ∧
    next (exec (.send 9 1 2 2) (mb mB [(1, 0x12), (2, 7), (3, 8)])) = mSends (mb mB [(1, 0x12), (2, 7), (3, 8)]) 1 mMsg ∧
    next (exec (.send 9 1 2 0) (mb mB [(1, 2 ^ 23)])) = some (trapped (mb mB [(1, 2 ^ 23)]) { cause := .operandRange }) ∧
    next (exec (.send 9 1 2 0) (mb mB [(1, 0x22)])) = some (trapped (mb mB [(1, 0x22)]) { cause := .remoteBoundary }) ∧ (mb mB [(1, 0x10012)]).exhausted 0 1 = false ∧
    next (exec (.send 9 1 2 0) (mb mB [(1, 0x10012)])) = some (waiting (mb mB [(1, 0x10012)]) ((requested (mb mB [(1, 0x10012)]) (.send 1 1 ⟨0, 2, .send, []⟩ 9)).sendPeer 1 0 0 (.message 1 ⟨0, 2, .send, []⟩)) .reply) ∧
    (mb mB [(1, 0x10012)]).podReleased 0 = true ∧ mDirty.podReleased 0 = false ∧ (next (exec (.send 9 1 2 0) mDirty)).map (·.me.life) = some (.blocked .podRelease) ∧
    next (exec (.sendRef 9 1) (mb mB [(1, 2)])) = some (trapped (mb mB [(1, 2)]) { cause := .noMessage }) ∧ (mMail 11).me.mailbox = some ⟨0x10, 0, .send, [9]⟩ ∧
    (next (exec (.sendRef 9 1) (mMail 11))).map (fun t => t.me.req) = some (some (.send 0 1 ⟨11, 2, .ref, [9]⟩ 9)) ∧
    next (exec (.sendRep 9 1 2 2) (mMail 10)) = some (trapped (mMail 10) { cause := .noMessage }) := by
  and_intros <;> first | decide +kernel | exact free_of (by decide +kernel) | exact reads_of (by decide +kernel)

/-- Arrivals at core 1: one is accepted, others are refused, find no class, or come after the end (R365). -/
def ma (c : Core) : State := { mb c [] with agenda := [] }
def mAt (c : Core) (m : MessageData) := next (exec (.messageArrival 1 m) (ma c))
def mSent (r : SendReply) (s : State) : Option State := some (s.post 1 (.sendReply 0 0 (.own r)))
theorem test_message_arrivals : ((classC mB.cls 2).getLsbD 9 = true ∧ classCtx mB.cls 2 = 12 ∧ classWs mB.cls 2 = 8192 ∧ mB.touched 16 [] (depositWords mB.cls mMsg) = false) ∧
    helperIdle (ma mB) 1 12 = true ∧ (mAt mB mMsg).map (fun t => ((t.ctx 1 12).life, (t.ctx 1 12).pc, (t.ctx 1 12).wspBlk, memRead (t.core 1).store 8248 8, memRead (t.core 1).store 8256 8)) =
      some (.ready, 0x300000, 4, 0x201000000, 7) ∧
    (mAt mB mMsg).map (fun t => (t.agenda, (t.ctx 1 12).mailbox, memRead (t.core 1).store 8264 8)) = some ([(2, .sendReply 0 0 (.own .accepted))], some mMsg, 8) ∧
    mAt { mB with msgRefused := 0xFFFFFFFF, ctxs := [(12, aCtx)] } mMsg = mSent .refused (ma { mB with msgRefused := 0, ctxs := [(12, aCtx)] }) ∧
    mAt mB ⟨0, 3, .send, []⟩ = mSent .cls (ma mB) ∧ mAt { mB with cls := [(5, 0x2E0)] } mMsg = some ((ma { mB with cls := [(5, 0x2E0)] }).post 1 (.sendReply 0 0 (.own .cls))) ∧
    mAt { mB with launch := none } mMsg = mSent .boundary (ma { mB with launch := none }) ∧ mAt { mB with stopped := true } mMsg = mSent .eviction (ma { mB with stopped := true }) ∧
    (let c := { mB with ctxs := [(3, { aCtx with running := { ({} : Trick) with stores := [1031] } })] }; c.touched 16 [] (depositWords c.cls mMsg) = true ∧ (ma c).parkUsed 1 < 64 ∧
      (mAt c mMsg).map (fun t => (t.held.map (·.1), (t.ctx 1 12).mailbox)) = some ([.messageArrival 1 mMsg], none)) ∧
    (let c := { mB with wrote := (0, [1031]) }; c.wroteNow 0 (depositWords c.cls mMsg) = true ∧ mAt c mMsg = some ((ma c).post 1 (.messageArrival 1 mMsg))) := by
  and_intros <;> decide +kernel
theorem test_message_replies : ReplyWrites (ya (.send 0 1 mMsg 9)) 0 0 9 1 (wrote 9 1 (ya (.send 0 1 mMsg 9))) ∧
    next (exec (.sendReply 0 0 (.own .accepted)) (ya (.send 0 1 mMsg 9))) = some (replied (ya (.send 0 1 mMsg 9)) 0 0 (wrote 9 1 (ya (.send 0 1 mMsg 9)))) ∧
    (next (exec (.sendReply 0 0 (.own .refused)) (ya (.send 0 1 mMsg 9)))).map (fun t => (t.g 9, t.me.life)) = some (0, .ready) ∧
    next (exec (.sendReply 0 0 (.own .cls)) (ya (.send 0 1 mMsg 9))) = some (replyTraps (ya (.send 0 1 mMsg 9)) 0 0 { cause := .messageClass }) ∧
    next (exec (.sendReply 0 0 (.own .eviction)) (ya (.send 0 1 mMsg 9))) = some ((ya (.send 0 1 mMsg 9)).post 256 (.evictionRetryResend 0 0)) ∧
    next (exec (.evictionRetryResend 0 0) (ya (.send 0 1 mMsg 9))) = some ((ya (.send 0 1 mMsg 9)).post 1 (.messageArrival 1 mMsg)) ∧
    (outOf (ya (.send 1 1 mMsg 9)) (.message 1 mMsg)).hub.outstanding.any (·.isMessage 0 0) = true ∧
    (next (exec (.sendReply 0 0 (.answered ⟨1, 1, .send .accepted⟩)) (outOf (ya (.send 1 1 mMsg 9)) (.message 1 mMsg)))).map (fun t => (t.g 9, t.me.life, t.hub.outstanding)) = some (1, .ready, []) := by
  and_intros <;> first | decide +kernel | exact replies_of (by decide +kernel)

/-! ### Copy channels and streams -/

theorem block_of {s : State} {a : Word} {n off : Nat} {ws : List Word} (h : lsFront s.cur.1 a 1 false = .ok ⟨s.cur.1, off, false⟩)
    (g : a.toNat % 64 = 0 ∧ off + n ≤ s.mine.S ∧ s.mine.touched s.cur.2 (wordsOf off n) [] = false ∧ ws = (List.range (n / 8)).map fun i => memWord s.mine.store (off + 8 * i)) :
    Block s a n ws := ⟨off, own_of h, g⟩

/-- Two elements of 8 bytes from 0x2000 of the scratchpad to 0x1000 of memory (R374 to R376); with an increment of semaphore 5 by 7 at the end. -/
def card1 : List Nat := [0x2000, 0x1000, 3 + 4096, 0, 0, 8, 8, 1 + 2 ^ 42]
def card2 : List Nat := [0x2000, 0x1000, 3 + 4096 + 2 ^ 14 + 2 ^ 16 + 7 * 2 ^ 48, 5, 0, 8, 8, 1 + 2 ^ 42]
def cardOf (c : List Nat) : Card := (c ++ List.replicate (32 - c.length) 0).map (BitVec.ofNat 64)
def inStore (c : List Nat) : List (Nat × Nat) := c.zipIdx.map fun e => (128 + e.2, e.1)
def cs1 (card : List Nat) (ch : Nat) (q : Channel) : State := { h0 ([(1, 0x400), (2, ch), (1024, 0xAAAA), (1025, 0xBBBB)] ++ inStore card) [] with chans := [(3, q)] }
def aJob : Job := { id := 1, core := 0, ctx := 0, launch := some 1, lane := 0, cls := 0, det := false, root := 0x100000, kind := .cpy (cardOf card1), rd := [], wr := [(0x1000, 16)], after := [] }
def sent (o : Option State) := o.map fun t => (t.g 9, (t.chan 3).jobs.map fun j => ({ aJob with id := j.id, rd := j.rd, wr := j.wr, after := j.after } : Job))
theorem test_copy_units : Quiet (cs1 card1 3 {}) ∧ Reads [2] (cs1 card1 3 {}) [3] (red [2] (cs1 card1 3 {})) ∧ Block (cs1 card1 3 {}) 0x400 256 (cardOf card1) ∧ (cardOf card1).fpt = 0 ∧
    got (footprintBlock 0) (cs1 card1 3 {}) = some (.ok none) ∧ (got (checkCard (cardOf card1) (.ok none)) (cs1 card1 3 {})) = some ([⟨0x1000, 16, true⟩], none) ∧ sent (next (exec (.cpy 9 1 2) (cs1 card1 3 {}))) = some (1, [aJob]) ∧
    sent (next (exec (.cpy 9 1 2) (cs1 card1 3 { next := 2, jobs := [aJob] }))) = some (2, [aJob, { aJob with id := 2, after := [(3, 1)] }]) ∧
    next (exec (.cpy 9 1 2) (cs1 card1 512 {})) = some (trapped (cs1 card1 512 {}) { cause := .operandRange }) ∧
    next (exec (.cpy 9 1 2) (cs1 card1 3 { jobs := List.replicate 16 aJob })) = some (stopUnit (cs1 card1 3 { jobs := List.replicate 16 aJob }) 0 0 aUnit (.wait (.channel 3))) ∧
    next (exec (.cpy 9 1 2) (cs1 (0x2004 :: card1.tail) 3 {})) = some (trapped (cs1 (0x2004 :: card1.tail) 3 {}) { cause := .misaligned }) ∧
    next (exec (.cpy 9 1 2) (cs1 [0x2000, 0x1000, 3 + 4096 + 144] 3 {})) = some (trapped (cs1 [0x2000, 0x1000, 3 + 4096 + 144] 3 {}) { cause := .operandRange }) ∧
    (spanOf 0x1000 8 [(8, 0, 1)] = some (0x1000, 16)) ∧ spanOf 0x1000 4 [(-8, 1, 2), (100, 0, 0)] = some (0xFF0, 12) := by
  and_intros <;> first | decide +kernel | exact reads_of (by decide +kernel) | exact block_of (off := 0x400) (by decide +kernel) (by decide +kernel)

/-- GATH and SCAT of two rows (R390, R391): indices 1 and 12 of 10 rows; the status forms (R389). -/
def desc : List Nat := [0x600 + 2 ^ 32, 0x3000, 0x2000 + 10 * 2 ^ 32, 0, 0, 0, 0, 0]
def cs2 : State := cs1 (desc ++ List.replicate 56 0 ++ [1 + 12 * 2 ^ 32]) 3 {}
def cs3 : State := { sg [(1, 3), (2, 2 ^ 48 + 5)] with chans := [(3, { next := 5, done := 3, code := 2, codeId := 1 })] }
theorem test_gather_status : Block cs2 0x400 64 (desc.map (BitVec.ofNat 64)) ∧ cs2.mine.touched 0 (wordsOf 0x600 8) [] = false ∧ (cs2.launchOf 0).map (·.lanes) = some 1 ∧
    (next (exec (.gath 9 1 2) cs2)).map (fun t => (t.g 9, (t.chan 3).jobs.map (·.kind))) = some (1, [.rows false (desc.map (BitVec.ofNat 64)) [1, 12]]) ∧
    (next (exec (.scat 9 1 2) cs2)).map (fun t => (t.g 9, (t.chan 3).jobs.map (·.kind))) = some (1, [.rows true (desc.map (BitVec.ofNat 64)) [1, 12]]) ∧
    Timely cs3 ∧ (next (exec (.cpyStat 9 1) cs3)).map (·.g 9) = some (BitVec.ofNat 64 (2 * 2 ^ 61 + 3)) ∧
    (next (exec (.cpyStatErr 9 1) cs3)).map (fun t => (t.g 9, (t.chan 3).code, (t.chan 3).codeId)) = some (BitVec.ofNat 64 (2 * 2 ^ 61 + 1), 0, 0) ∧
    Free cs3 9 ∧ next (exec (.cpyStatWait 9 1 2) cs3) = some (waiting cs3 cs3 (.copyStat 3 5 9)) ∧ atOrPast 3 5 = false ∧ atOrPast 5 5 = true ∧ atOrPast 1 0xFFFFFFFFFFFF = true := by
  and_intros <;> first | decide +kernel | exact timely_of (by decide +kernel) | exact free_of (by decide +kernel) | exact block_of (off := 0x400) (by decide +kernel) (by decide +kernel)

/-- The release of a CPY.stat.wait (R389). -/
def cs4 (q : Channel) : State := { wt (waits (.copyStat 3 5 9) none) with chans := [(3, q)] }
theorem test_status_wait : next (exec (.cpyStatWaitRelease 0 0) (cs4 { done := 4 })) = some ((cs4 { done := 4 }).postPoll 1 (.cpyStatWaitRelease 0 0)) ∧
    ReplyWrites (cs4 { done := 5 }) 0 0 9 1 (wrote 9 1 (cs4 { done := 5 })) ∧ next (exec (.cpyStatWaitRelease 0 0) (cs4 { done := 5 })) = some (replied (cs4 { done := 5 }) 0 0 (wrote 9 1 (cs4 { done := 5 }))) ∧
    (next (exec (.cpyStatWaitRelease 0 0) (cs4 { done := 6, code := 4 }))).map (·.g 9) = some 0 := by
  and_intros <;> first | decide +kernel | exact replies_of (by decide +kernel)

/-- A job's granule is read and then written; what holds it; its end (R233, R353, R372, R376 to R378, R381 to R386). -/
def cs5 (j : Job) : State := cs1 card1 3 { next := 2, jobs := [j] }
def bytes16 : List (Word × List Byte) := [(0x1000, toBytes 8 0xAAAA), (0x1008, toBytes 8 0xBBBB)]
def job1 (o : Option State) := o.map fun t => ((t.chan 3).jobs, (t.agenda.head?.map (·.2)))
theorem test_copy_job : (cs5 aJob).job 3 1 = some aJob ∧ jobWaits (cs5 aJob) aJob = false ∧ boxSize (cardOf card1).dims = 2 ∧ chunkOf (cardOf card1) 2 4096 512 none 0 = ([(0, true), (1, true)], 2) ∧
    job1 (next (exec (.granuleRead 3 1) (cs5 aJob))) = some ([{ aJob with pos := 2, buf := bytes16 }], some (.granuleRead 3 1)) ∧
    next (exec (.granuleRead 3 1) (cs5 { aJob with pos := 2, buf := bytes16 })) = some ((cs5 { aJob with pos := 2, buf := bytes16 }).post 0 (.granuleWrite 3 1)) ∧
    next (exec (.granuleRead 3 1) (cs5 { aJob with pos := 2 })) = some ((cs5 { aJob with pos := 2 }).post 1 (.jobEnd 3 (.own 1))) ∧
    (next (exec (.granuleWrite 3 1) (cs5 { aJob with pos := 2, buf := bytes16 }))).map (fun t => (memRead t.mem 0x1000 8, memRead t.mem 0x1008 8, (t.chan 3).jobs)) =
      some (0xAAAA, 0xBBBB, [{ aJob with pos := 2 }]) ∧
    jobWaits (cs5 { aJob with after := [(3, 1)] }) { aJob with after := [(3, 1)] } = true ∧
    next (exec (.granuleRead 3 1) (cs5 { aJob with after := [(3, 1)] })) = some ((cs5 { aJob with after := [(3, 1)] }).post 1 (.granuleRead 3 1)) ∧ (cs5 aJob).sound ∧
    (next (exec (.jobEnd 3 (.own 1)) (cs5 { aJob with kind := .cpy (cardOf card2) }))).map (fun t => ((t.core 0).sem 5, (t.chan 3).done, (t.chan 3).jobs.length)) = some (7, 1, 0) ∧
    next (exec (.jobEnd 3 (.own 1)) (cs5 aJob)) = some (removeJob (cs5 aJob) 3 aJob) ∧ ((removeJob (cs5 aJob) 3 aJob).chan 3).done = 1 ∧
    next (exec (.jobEnd 3 (.own 1)) (cs5 { aJob with code := 4 })) = some (leaveRecord ((cs5 { aJob with code := 4 }).setJob 3 { aJob with code := 4, reported := true }) 0 0 (copyRecord 4 3 1) (some (3, 1))) ∧
    ((captureError (cs5 aJob) 3 1 4).chan 3).code = 4 ∧ ((captureError (captureError (cs5 aJob) 3 1 4) 3 2 5).chan 3).code = 4 := by
  and_intros <;> first | decide +kernel | (unfold State.sound; decide +kernel)

/-- Rows of a gather and of a scatter: in range, past the end (R390, R391). -/
def cs6 (sc : Bool) (pos : Nat) : State := cs1 [] 3 { next := 2, jobs := [{ aJob with kind := .rows sc (desc.map (BitVec.ofNat 64)) [1, 12], pos := pos }] }
def rowOf (o : Option State) := o.map fun t => (memRead (t.core 0).store 0x3000 8, memRead (t.core 0).store 0x3008 8, memRead (t.core 0).store 0x2008 8, (t.chan 3).jobs.map fun j => (j.pos, j.code))
theorem test_rows : rowOf (next (exec (.gathScatRow 3 1) (cs6 false 0))) = some (0xBBBB, 0, 0xBBBB, [(1, 0)]) ∧ rowOf (next (exec (.gathScatRow 3 1) (cs6 false 1))) = some (0, 0, 0xBBBB, [(2, 4)]) ∧
    rowOf (next (exec (.gathScatRow 3 1) (cs6 true 0))) = some (0, 0, 0, [(1, 0)]) ∧ rowOf (next (exec (.gathScatRow 3 1) (cs6 true 1))) = some (0, 0, 0xBBBB, [(2, 4)]) ∧
    next (exec (.gathScatRow 3 1) (cs6 true 2)) = some ((cs6 true 2).post 1 (.jobEnd 3 (.own 1))) := by
  and_intros <;> decide +kernel

/-- A record that parks nothing enters the queue, or waits behind 17 others (R430). -/
def cs7 (n : Nat) : State := st { svCore [] with trapWait := [{ ctx := 0, info := copyRecord 4 3 1, job := none }], trapq := List.replicate n (List.replicate 64 0) }
theorem test_records : (cs7 16).ended 0 = false ∧ freeRecords (List.replicate 16 (List.replicate 64 0)) = 16 ∧ (next (exec (.trapRecordEnqueue 0) (cs7 16))).map (fun t => (t.mine.trapq.length, t.mine.trapWait.length)) = some (17, 0) ∧
    next (exec (.trapRecordEnqueue 0) (cs7 17)) = some ((cs7 17).post 1 (.trapRecordEnqueue 0)) := by
  and_intros <;> decide +kernel

/-- Streams (R156, R387, R392 to R394): bound, busy, unbound; strips filled, written, and in error. -/
def sIn : Stream := { out := false, ls := true, base := 0x2000, dims := [(2, 256)], next := 0, buf := [], err := false, root := 0x100000 }
def sOut : Stream := { sIn with out := true, buf := [{ index := 1, data := 0x11223344, pred := 5 }] }
def cs8 (gs : List (Nat × Nat)) (m : List (Nat × Stream)) : State := (sg (gs ++ [(1024, 0xAAAA)])).modCtx 0 0 fun v => { v with streams := m }
def strip (o : Option State) := o.map fun t => t.me.streams.map fun e => (e.2.next, e.2.buf.map fun p => (p.index, p.data.toNat % 2 ^ 64, p.pred.toNat % 2 ^ 16))
theorem test_stream_units : Reads [1, 1 + 1, 1 + 2] (cs8 [(1, 0x1000), (2, 8), (3, 2 ^ 32)] []) [0x1000, 8, BitVec.ofNat 64 (2 ^ 32)] (red [1, 2, 3] (cs8 [(1, 0x1000), (2, 8), (3, 2 ^ 32)] [])) ∧
    (next (exec (.strmIn 9 24 1 0) (cs8 [(1, 0x1000), (2, 8), (3, 2 ^ 32)] []))).map (fun t => (t.g 9, t.me.streams, t.agenda.head?)) =
      some (1, [(24, { sIn with ls := false, base := 0x1000, dims := [(2 ^ 32, 8)] })], some (2, .streamStripFill 0 0 24)) ∧
    next (exec (.strmIn 9 24 1 0) (cs8 [(1, 0x1000), (2, 8), (3, 2 ^ 32 + 1)] [])) = some (trapped (cs8 [(1, 0x1000), (2, 8), (3, 2 ^ 32 + 1)] []) { cause := .operandRange }) ∧
    next (exec (.strmOut 9 24 1 0) (cs8 [(1, 0x1000), (2, 8), (3, 0)] [])) = some (trapped (cs8 [(1, 0x1000), (2, 8), (3, 0)] []) { cause := .operandRange }) ∧
    next (exec (.strmOut 9 24 1 0) (cs8 [(1, 0x1000), (2, 4), (3, 2)] [])) = some (trapped (cs8 [(1, 0x1000), (2, 4), (3, 2)] []) { cause := .misaligned, addr := 0x1000 }) ∧
    next (exec (.strmOut 9 24 1 0) (cs8 [(1, 0x1000), (2, 4), (3, 1)] [(24, sIn)])) = some (trapped (cs8 [(1, 0x1000), (2, 4), (3, 1)] [(24, sIn)]) { cause := .streamBusy }) ∧
    (next (exec (.strmOutD 9 25 1 0) (cs8 ((1, 0x400) :: inStore [0x2000, 3, 3 * 2 ^ 48 + 8, 2 ^ 48 + (2 ^ 48 - 8), 0, 0, 0, 0]) []))).map (fun t => (t.g 9, t.me.streams)) =
      some (1, [(25, { sOut with buf := [], dims := [(4, 8), (2, -8)] })]) ∧
    (next (exec (.strmOff 9 24) (cs8 [] []))).map (·.g 9) = some 0 ∧ (next (exec (.strmOff 9 24) (cs8 [] [(24, sIn)]))).map (fun t => (t.g 9, t.me.streams)) = some (1, []) ∧
    next (exec (.strmOff 9 24) (cs8 [] [(24, sOut)])) = some (stopUnit (cs8 [] [(24, sOut)]) 0 0 aUnit (.wait (.strmOff 24))) := by
  and_intros <;> first | decide +kernel | exact reads_of (by decide +kernel)
theorem test_strips : (next (exec (.streamStripFill 0 0 24) (cs8 [] [(24, sIn)]))).map (fun t => t.me.streams.map fun e => (e.2.next, e.2.part)) = some [(0, toBytes 64 0xAAAA)] ∧
    granulesLeft (sIn.addr 0) 0 = [(0x2000, 64), (0x2040, 64), (0x2080, 64), (0x20C0, 64)] ∧ granulesLeft (sIn.addr 0) 256 = [] ∧
    strip (next (exec (.streamStripFill 0 0 24) (cs8 [] [(24, { sIn with part := toBytes 256 0xAAAA })]))) = some [(1, [(0, 0xAAAA, 0xFFFF)])] ∧
    strip (next (exec (.streamStripFill 0 0 24) (cs8 [] [(24, { sIn with base := 0x2FFF0, part := List.replicate 16 0 })]))) = some [(1, [(0, 0, 0)])] ∧ Config.streamDepth = 4 ∧
    next (exec (.streamStripFill 0 0 24) (cs8 [] [(24, { sIn with buf := List.replicate 4 { index := 0, data := 0, pred := 0 } })])) =
      some ((cs8 [] [(24, { sIn with buf := List.replicate 4 { index := 0, data := 0, pred := 0 } })]).post 1 (.streamStripFill 0 0 24)) ∧ sIn.total = 2 ∧ sOut.addr 1 = 0x2100 ∧
    (next (exec (.streamStripWrite 0 0 24) (cs8 [] [(24, sOut)]))).map (fun t => (memRead t.mine.store 0x2100 8, t.me.streams.map fun e => e.2.buf.map (·.pred))) = some (0x00220044, [[0]]) ∧
    (next (exec (.streamStripWrite 0 0 24) (cs8 [] [(24, { sOut with buf := [{ index := 1, data := 0, pred := 0, begun := true }] })]))).map (fun t => t.me.streams.map fun e => e.2.buf.length) = some [0] ∧
    stripGranule sOut { index := 1, data := 0x11223344, pred := 5 } = some ([(0x2100, [0x44]), (0x2102, [0x22])], 0, 64) ∧
    (next (exec (.streamStripWrite 0 0 24) (cs8 [] [(24, { sOut with base := 0x2FFF0 })]))).map (fun t => (t.me.streams.map fun e => e.2.err, t.mine.trapWait.map (·.info))) = some ([true], [copyRecord 3 0 0]) ∧
    granulesOf 0x2030 = [(0x2030, 16), (0x2040, 64), (0x2080, 64), (0x20C0, 64), (0x2100, 48)] ∧
    next (exec (.hostLoadReply (.ctx 0 0) 0x80 7) (wt (waits (.hostLoad 0x80) none))) = some (((wt (waits (.hostLoad 0x80) none)).modCtx 0 0 fun w => { w with hostReplies := [(0x80, 7)] }).ready 0 0) := by
  and_intros <;> decide +kernel

/-- From memory to the scratchpad; an element outside the valid range; a source that is not mapped (R376, R384). -/
def aJob2 (c : List Nat) : Job := { aJob with kind := .cpy (cardOf c) }
theorem test_copy_source : job1 (next (exec (.granuleRead 3 1) (cs5 (aJob2 [0x1000, 0x2000, 3 + 8192, 0, 0, 8, 8, 1 + 2 ^ 42])))) =
      some ([{ aJob2 [0x1000, 0x2000, 3 + 8192, 0, 0, 8, 8, 1 + 2 ^ 42] with pos := 2, buf := [(0x2000, toBytes 8 0x1122334455667788), (0x2008, toBytes 8 0)] }], some (.granuleRead 3 1)) ∧
    job1 (next (exec (.granuleRead 3 1) (cs5 (aJob2 [0x2000, 0x1000, 3 + 4096, 0, 0, 8, 8, 1 + 2 ^ 21 + 2 ^ 42])))) =
      some ([{ aJob2 [0x2000, 0x1000, 3 + 4096, 0, 0, 8, 8, 1 + 2 ^ 21 + 2 ^ 42] with pos := 2, buf := [(0x1000, toBytes 8 0), (0x1008, toBytes 8 0xBBBB)] }], some (.granuleRead 3 1)) ∧
    (next (exec (.granuleRead 3 1) (cs5 (aJob2 [0x7FC0000000, 0x2000, 3 + 8192, 0, 0, 8, 8, 1 + 2 ^ 42])))).map
      (fun t => ((t.chan 3).jobs.map (·.code), (t.chan 3).code, (t.budget 0).count)) = some ([2], 2, [2, 0, 0, 0]) := by
  and_intros <;> decide +kernel

/-- What ends or holds a job at a segment boundary; a signal to another package; granules in box order; an error in what a job reads (R353, R377, R383, R384). -/
def aJob3 : Job := { aJob with kind := .cpy (cardOf (card2.set 3 (2 ^ 18 + 5))) }
def cs9j (j : Job) : State := let s := cs5 j
  { s with hub := { s.hub with outstanding := [{ seq := 1, target := 1, core := 0, ctx := jobKey 3 1, cls := none, request := ⟨0, .sync 0 5 (.semi false 7) 0⟩, retries := 0 }] } }
theorem test_copy_more : jobPauses (cs5 aJob) aJob = false ∧ jobPauses ((cs5 aJob).modCore 0 fun c => { c with halting := some 0 }) aJob = true ∧
    (cardOf card1).readyGranule aJob = none ∧ (cardOf card1).readyGranule { aJob with pos := 2, buf := bytes16 } = some 0x40 ∧
    next (exec (.granuleRead 3 1) (cs5 { aJob with cancelled := true })) = some (failJob ((cs5 { aJob with cancelled := true }).unhold (.granuleRead 3 1)) 3 { aJob with cancelled := true } 6) ∧
    (aJob3.signal.2.2.extractLsb' 18 7).toNat = 1 ∧ (cs5 aJob3).hub.outstanding.any (·.ctx == jobKey 3 aJob3.id) = false ∧ (cs5 aJob3).exhausted aJob3.cls 1 = false ∧
    (next (exec (.jobEnd 3 (.own 1)) (cs5 aJob3))).map (fun t => (t.hub.outstanding.map (·.ctx), (t.chan 3).done)) = some ([jobKey 3 1], 0) ∧
    (cs9j aJob3).hub.outstanding.any (·.ctx == jobKey 3 1) = true ∧ next (exec (.jobEnd 3 (.own 1)) (cs9j aJob3)) = some ((cs9j aJob3).post 1 (.jobEnd 3 (.own 1))) ∧
    (next (exec (.jobEnd 3 (.answered 1 ⟨1, 1, .value 0⟩)) (cs9j aJob3))).map (fun t => ((t.chan 3).done, (t.chan 3).jobs.length)) = some (1, 0) ∧
    (next (exec (.jobEnd 3 (.answered 1 ⟨1, 1, .eviction⟩)) (cs9j aJob3))).map (fun t => (t.chan 3).jobs.map (·.retryAt)) = some [256] ∧
    jobAway (cs5 aJob) aJob 0 = false ∧ (cs5 aJob).savedAt (some 1) 0 = false ∧
    next (exec (.uncorrectableSoftError (.copy 3) 1 1) (cs5 aJob)) = some (failJob (cs5 aJob) 3 aJob 5) ∧
    jobPauses (cs6 false 0) { aJob with kind := .rows false (desc.map (BitVec.ofNat 64)) [1, 12] } = false := by
  and_intros <;> decide +kernel
theorem test_engine_write : (match (cs5 aJob).translate 0 0x100000 0x1000 1 with | .ok (pa, _, _) => pa | .error _ => 0) = 0x1000 ∧
    (match engineWrite (cs5 aJob) (.granuleWrite 3 1) 0 0 (some 1) 0x100000 (1, 0, false) bytes16 with | (.ok (), t) => (memRead t.mem 0x1000 8, memRead t.mem 0x1008 8) | _ => (0, 0)) = (0xAAAA, 0xBBBB) := by
  and_intros <;> decide +kernel

/-! ### Traps, system units, control registers, translation -/

/-- A trap with a supervisor, and one without: the launch ends (R431, R432, R435). -/
def n0 : State := st (svCore [])
def aTrap : TrapInfo := { cause := .operandRange, addr := 7, aux := 9 }
def n1 : State := n0.takeTrap 0 0 aUnit 5 aTrap
def n2 : State := (st (aCore [])).takeTrap 0 0 aUnit 5 aTrap
theorem test_trap_taken : Memory.wf (n0.core 0).store = true ∧ (n0.core 0).svent.extractLsb' 1 55 ≠ 0#55 ∧ n1.me = { aCtx with life := .parked } ∧
    (n1.core 0).trapq = [trapRecord (n0.core 0) aCtx 0 aUnit 5 aTrap true] ∧ (n1.core 0).trapSeq = 1 ∧ memWord (n1.core 0).store 1280 = 0x300000 ∧ memWord (n1.core 0).store 1304 = 0 ∧
    n1.agenda.head? = some (0, .supervisorWake 0) ∧ (n1.resume 0 0 true).me = { aCtx with readyAt := 1 } ∧
    (st (aCore [])).launch 1 = some theLaunch ∧ theLaunch.ending = none ∧ (n2.launch 1).map (·.ending) = some (some 3) ∧ n2.agenda.head? = some (1, .launchCompletion 1) := by
  and_intros <;> decide +kernel
theorem test_trap_record : trapRecord (n0.core 0) aCtx 3 aUnit 5 aTrap true =
    (([BitVec.ofNat 64 (2 ^ 20 + 3 * 65536 + Cause.operandRange.code), 0x300000, 0, 7, 9, 5] : List Word).flatMap fun w => toBytes 8 w.toNat) ++ (trapRecord (n0.core 0) aCtx 3 aUnit 5 aTrap true).drop 48 ∧
    (trapRecord (n0.core 0) aCtx 3 aUnit 5 aTrap true).length = 64 := by
  and_intros <;> decide +kernel

/-- R224, R437: a context whose next attempt is a trump's waits again to be admitted. -/
theorem test_trap_trump : let t := (n1.modCtx 0 0 fun v => { v with running := { v.running with squashes := 4 } }).resume 0 0 true
    t.me.life = .blocked .trump ∧ t.agenda.any (·.2 == .trumpAdmission 0) = true := by decide +kernel

/-- A trap waits for the trick before it (R226); TRAP (R437); forms of the supervisor in another context. -/
def n3 (p : Option Trick) : State := wt { waits (.trapEntry aTrap) none with pending := p }
theorem test_trap_units : (n3 none).me.settled = true ∧ next (exec (.trapEntry 0 0) (n3 none)) = some ((n3 none).takeTrap 0 0 aUnit 0 aTrap) ∧ (n3 (some { ({} : Trick) with units := 1 })).me.settled = false ∧
    next (exec (.trapEntry 0 0) (n3 (some { ({} : Trick) with units := 1 }))) = some (((n3 (some { ({} : Trick) with units := 1 })).endTrick 0 0).postPoll 1 (.trapEntry 0 0)) ∧
    Quiet n0 ∧ (next (exec (.trap 9 5) n0)).map (fun t => (t.me.life, t.mine.trapq.map fun r => (r.getD 0 0, r.getD 1 0, r.getD 40 0))) = some (.parked, [(BitVec.ofNat 8 Cause.trap.code, 5, 0)]) ∧
    next (exec (.eret 1) n0) = some (trapped n0 { cause := .privileged }) ∧ next (exec (.parkwr 1 2) n0) = some (trapped n0 { cause := .privileged }) ∧
    next (exec (.erlogEsc 1) n0) = some (trapped n0 { cause := .privileged }) ∧ next (exec (.cwrVmroot 1) n0) = some (trapped n0 { cause := .privileged }) ∧
    next (exec (.tlbiAll .core) n0) = some (trapped n0 { cause := .privileged }) := by
  and_intros <;> decide +kernel

/-- The supervisor of core 0 beside a parked context 3, whose save area is at 3328; g1 selects (R437). -/
def parked3 : Ctx := { aCtx with life := .parked, wspBlk := 1, v := [(2, 0x1122334455667788)] }
def sup (gs : List (Nat × Nat)) : State := { st { svCore (gs ++ [(416, 0x300010), (417, 0x21), (418, 2), (419, 77)]) with ctxs := [(3, parked3), (15, aCtx)] } with cur := (0, 15) }
theorem test_supervisor : Quiet (sup [(1, 3)]) ∧ Reads [1] (sup [(1, 3)]) [3] (red [1] (sup [(1, 3)])) ∧ ((sup [(1, 3)]).mine.ctx 3).life = .parked ∧ memWord (sup [(1, 3)]).mine.store (parked3.wsp + 1280) = 0x300010 ∧ cmodeBad 0x21 = false ∧
    (next (exec (.eret 1) (sup [(1, 3)]))).map (fun t => t.ctx 0 3) = some { parked3 with life := .ready, readyAt := 1, pc := 0x300010, cmode := 0x21, cflags := 2, retire := 77 } ∧
    (next (exec (.eretEnd 1) (sup [(1, 3)]))).map (fun t => ((t.ctx 0 3).life, t.me.life)) = some (.ready, .idle) ∧
    next (exec (.eret 1) (sup [(1, 4)])) = some (trapped (sup [(1, 4)]) { cause := .operandRange }) ∧ next (exec (.eret 1) (sup [(1, 19)])) = some (trapped (sup [(1, 19)]) { cause := .operandRange }) ∧
    (next (exec (.parkrd 9 1) (sup [(1, 3 + 2 * 16)]))).map (·.g 9) = some 0x1122334455667788 ∧ (next (exec (.parkrd 9 1) (sup [(1, 3 + 16384)]))).map (·.g 9) = some 0 ∧
    next (exec (.parkrd 9 1) (sup [(1, 3 + 4 * 16 + 16384)])) = some (trapped (sup [(1, 3 + 4 * 16 + 16384)]) { cause := .operandRange }) ∧
    (next (exec (.parkwr 1 2) (sup [(1, 3 + 2 * 16 + 512), (2, 5)]))).map (fun t => elems 64 2 (tabGet (t.ctx 0 3).v 2 0)) = some [0x1122334455667788, 5] ∧
    next (exec (.parkwr 1 2) (sup [(1, 3 + 16384), (2, 5)])) = some (trapped (sup [(1, 3 + 16384), (2, 5)]) { cause := .operandRange }) ∧
    (next (exec (.parkwr 1 2) (sup [(1, 3 + 16384)]))).map (fun t => (t.me.life, t.me.retire)) = some (.ready, 1) ∧
    next (exec (.parkwr 1 2) (sup [(1, 3 + 32768)])) = some (trapped (sup [(1, 3 + 32768)]) { cause := .operandRange }) := by
  and_intros <;> first | decide +kernel | exact reads_of (by decide +kernel)
def n4 (q : List (List Byte)) (a : Nat) : State := (sup [(1, a)]).modCore 0 fun c => { c with trapq := q }
theorem test_trap_log : Own (n4 [] 0x2000) 0x2000 0x2000 ∧ (next (exec (.erlog 9 1) (n4 [] 0x2000))).map (·.g 9) = some 0 ∧
    (next (exec (.erlog 9 1) (n4 [List.replicate 64 7, List.replicate 64 8] 0x2FFC0))).map (fun t => (t.g 9, t.mine.trapq, memRead t.mine.store 0x2FFF8 8)) = some (1, [List.replicate 64 8], 0x0707070707070707) ∧
    next (exec (.erlog 9 1) (n4 [] 0x2020)) = some (trapped (n4 [] 0x2020) { cause := .misaligned, addr := 0x2020 }) ∧
    (n4 [] 0x2000).mine.touched 15 [] (wordsOf 0x2000 64) = false ∧ (n4 [] 0x2000).mine.touched 15 (wordsOf 0x2000 64) [] = false ∧
    (next (exec (.erlogEsc 1) (n4 [] 0x2000))).map (fun t => (t.launch 1).map (·.ending)) = some (some (some 3)) := by
  and_intros <;> first | decide +kernel | exact own_of (by decide +kernel)

/-- Control registers: one that does not exist, timing-dependent ones, fields (R9, R438, R439). -/
def n5 : State := (st { svCore [(1, 0xFFFFFFFFFFFFFFFF), (2, 5), (3, 0x1000), (4, 0x40), (5, 0x3E)] with pkRefused := 3, ctxs := [(0, { aCtx with cflags := 0x7F, trumps := 1, squash := 2 })] }).modGroup 0 fun g => { g with wdFired := true }
def n6 : State := n5.modCore 0 fun c => { c with det := true }
theorem test_control_registers : ctlValue n5 0 0 0x13 = none ∧ next (exec (.crd 9 0x13) n5) = some (trapped n5 { cause := .illegal }) ∧ next (exec (.cwr 0x13 1) n5) = some (trapped n5 { cause := .illegal }) ∧
    (next (exec (.crd 9 0x70) n5)).map (·.g 9) = some (2048 * 2 ^ 32 + 65536 + 2) ∧ (next (exec (.crd 9 0xE0) n5)).map (·.g 9) = some 0x400000 ∧ (next (exec (.crd 9 0x80) n5)).map (·.g 9) = some (0x95 * 2 ^ 20 + 127 * 256 + 95) ∧
    (next (exec (.crd 9 0x81) n5)).map (·.g 9) = some (2 ^ 32 + 0x400000) ∧ (next (exec (.crd 9 0x62) n5)).map (·.g 9) = some 0x300 ∧ (next (exec (.crd 9 0x20) n5)).map (·.g 9) = some 1 ∧
    (¬ (n6.mine.det = false ∨ n6.cur.2 = 15)) ∧ next (exec (.crd 9 0x62) n6) = some (trapped n6 { cause := .timing }) ∧ (next (exec (.crd 9 0x10) n6)).map (·.g 9) = some 0 ∧ ctlTiming 0x38 = false ∧ ctlTiming 0x37 = true ∧ ctlTiming 0x2F = false := by
  and_intros <;> decide +kernel
theorem test_control_writes : (next (exec (.cwr 0x11 2) n5)).map (·.me.cflags) = some 0x7A ∧ (next (exec (.cwr 0x37 1) n5)).map (fun t => t.mine.xbloss) = some [(7, 0xFFFFFFFFFFFF)] ∧
    (next (exec (.cwr 0x62 1) n5)).map (·.mine.pkRefused) = some 0xFFFFFFFF ∧ (next (exec (.cwr 0x70 1) n5)).map (fun t => (t.me.trumps, t.me.squash, t.me.limit)) = some (0xFFFF, 0xFFFF, 2048) ∧
    (next (exec (.cwr 0x81 2) n5)).map (fun t => ((t.group 0).wdLimit, (t.group 0).wdFired)) = some (5, true) ∧ (next (exec (.cwr 0x81 1) n5)).map (fun t => (t.group 0).wdFired) = some false ∧
    (next (exec (.cwr 0x20 1) n5)).map (fun t => (t.mine.store, t.me.retire)) = some (n5.mine.store, 1) ∧ next (exec (.cwr 0xE1 1) n5) = some (trapped n5 { cause := .privileged }) ∧
    (next (exec (.cwrCmode 2) n5)).map (·.me.cmode) = some 5 ∧ next (exec (.cwrCmode 1) n5) = some (trapped n5 { cause := .illegal }) ∧ next (exec (.cwrCmode 5) n5) = some (trapped n5 { cause := .illegal }) ∧
    (next (exec (.cwrWsp 3) n5)).map (·.me.wsp) = some 0x1000 ∧ next (exec (.cwrWsp 1) n5) = some (trapped n5 { cause := .misalignedWorkspace }) ∧
    layoutBad (64 * 64) = false ∧ layoutBad (65 * 64) = true ∧ layoutBad (64 * 64 + 1) = true ∧ (next (exec (.cwrLayout 31 4) n5)).map (fun t => tabGet t.mine.layout 31 0) = some 0x40 ∧
    next (exec (.cwrLayout 0 1) n5) = some (trapped n5 { cause := .illegal }) ∧ (next (exec (.cwrVpool 1) n5)).map (fun t => (t.group 0).vpool) = some 0x1FFFF ∧
    (next (exec (.cwrClass 2 1) n5)).map (fun t => (t.mine.cls, t.mine.clsBefore.isSome)) = some ([(2, 0x00FFFFFFFFFFFFFE)], true) ∧ next (exec (.cwrClass 3 1) n5) = some (trapped n5 { cause := .misalignedWorkspace }) ∧
    (next (exec (.cwrClass 3 5) n5)).map (·.mine.cls) = some [(3, 0x3E)] ∧ (next (exec (.cwrVmroot 1) (sup [(1, 2 ^ 64 - 1)]))).map (·.mine.vmroot) = some 0x000FFFFFFFF0FFFF ∧
    (next (exec (.cwrSplit 2) n5)).map (fun t => (t.mine.csteps, t.mine.S)) = some (5, 98304) ∧ next (exec (.cwrSplit 4) n5) = some (trapped n5 { cause := .illegal }) ∧
    next (exec (.cwrSplit 2) (n5.modCtx 0 3 fun _ => aCtx)) = some (trapped (n5.modCtx 0 3 fun _ => aCtx) { cause := .splitBusy }) := by
  and_intros <;> decide +kernel

/-- TLBI and its event, walks, and a page's grant and return (R399 to R407). -/
def aTlb : TlbEntry := { asid := 0, va := 1, level := 0, bytes := 4096, pa := 0x1000, g := false, x := false, w := true }
def n7 : State := { (wt (waits .tlbi (some (.tlbi 0 0x1000 0 .core)))).modCore 0 fun c => { c with tlb := [aTlb, { aTlb with va := 2 }] } with agenda := [] }
def n8 (gs : List Grant) (o : List Outstanding) : State := { n0 with hub := { n0.hub with grants := gs, outstanding := o } }
def askPage : Outstanding := { seq := 0, target := 1, core := 0, ctx := 16 + 2 ^ 32, cls := some 0, request := ⟨0, .grant (BitVec.ofNat 40 (2 ^ 32)) true⟩, retries := 0 }
theorem test_translation_events : next (exec (.tlbiVa 1 2 .core) (sup [(1, 0x1000), (2, 0xFFFF)])) =
      some (waiting (sup [(1, 0x1000), (2, 0xFFFF)]) ((requested (sup [(1, 0x1000), (2, 0xFFFF)]) (.tlbi 0 0x1000 0xFFFF .core)).post Config.homeDie (.tlbiComplete 0 15)) .tlbi) ∧
    next (exec (.tlbiVa 1 2 .core) (sup [(1, 2 ^ 56)])) = some (trapped (sup [(1, 2 ^ 56)]) { cause := .operandRange }) ∧ next (exec (.tlbiAsid 2 .core) (sup [(2, 65536)])) = some (trapped (sup [(2, 65536)]) { cause := .operandRange }) ∧
    next (exec (.tlbiAsid 2 .pkg) (sup [(2, 5)])) = some (waiting (sup [(2, 5)]) ((requested (sup [(2, 5)]) (.tlbi 1 0 5 .pkg)).post Config.homePkg (.tlbiComplete 0 15)) .tlbi) ∧
    next (exec (.tlbiAll .die) (sup [])) = some (waiting (sup []) ((requested (sup []) (.tlbi 2 0 0 .die)).post Config.homeDie (.tlbiComplete 0 15)) .tlbi) ∧
    (next (exec (.tlbiComplete 0 0) n7)).map (fun t => (t.mine.tlb, t.me.life)) = some ([{ aTlb with va := 2 }], .ready) ∧ farUnderWay n7 .core 0 0 = false ∧ (tlbiPerform n7 0 0 0x1000 0 .core).isSome = true ∧ tabWf n7.cores = true ∧ inScope n7 .core 0 0 = true ∧
    tlbiRemoves 0 0x1FFF 0 aTlb = true ∧ tlbiRemoves 0 0x2000 0 aTlb = false ∧ tlbiRemoves 0 0x1000 1 aTlb = false ∧ tlbiRemoves 0 0x1000 1 { aTlb with g := true } = true ∧ tlbiRemoves 1 0 0 { aTlb with g := true } = false ∧
    h1.tlbHit 0 h1.mine.vmroot 0x1000 = none ∧ (next (exec (.pageWalk 0 0x1000) h1)).map (fun t => t.mine.tlb.map (·.bytes)) = some [2 ^ 30] ∧
    n7.tlbHit 0 0 0x1FFF = some aTlb ∧ (got (translateU 0x1004 1) h1).map (·.1) = some 0x1004 := by
  and_intros <;> decide +kernel
/-- A page of package 1 is granted, held, and returned (R405). -/
def pageOf : PageId := BitVec.ofNat 40 (2 ^ 32)
def pData : PageData := { bytes := 5 :: List.replicate 4095 0, size := 4096, cap := .opened }
def aGrant : Grant := { page := 2 ^ 32, write := true, seq := 0, core := 0 }
def twoParts (gs : List Grant) (o : List Outstanding) : State := ((n8 gs o).modPart 0 fun a => { a with part := 0x111 }).modPart 1 fun a => { a with part := 0x211 }
theorem test_grants : (n8 [] [askPage]).sound ∧ paPackage (2 ^ 32 * 4096) = 1 ∧ askPage.asks pageOf.toNat = true ∧
    (next (exec (.pageGrant pageOf true ⟨0, some pData⟩) (n8 [] [askPage]))).map (fun t => (t.mem, t.hub.grants, t.hub.outstanding)) = some ([(2 ^ 44, 5)], [{ aGrant with seq := (n8 [] [askPage]).hub.grantSeq }], []) ∧
    (n8 [aGrant] []).hub.grants.find? (fun g => g.page == pageOf.toNat) = some aGrant ∧
    (next (exec (.pageRevocation ⟨pageOf, false, some ⟨1, 9⟩⟩) (n8 [aGrant] []))).map (fun t => (t.hub.grants, t.hub.outstanding.map (·.request.op))) = some ([], [.returned pageOf (List.replicate 4096 0) false]) ∧
    next (exec (.pageRevocation ⟨pageOf, false, some ⟨1, 9⟩⟩) (n8 [] [askPage])) = some ((n8 [] [{ askPage with ctx := 0 }]).replyPeer 1 9 (.value 0)) ∧
    (let s := n8 [] [{ askPage with request := ⟨0, .returned pageOf [] false⟩ }]; s.hub.outstanding.any (·.returns pageOf.toNat) = true ∧ next (exec (.pageRevocation ⟨pageOf, false, some ⟨1, 9⟩⟩) s) = some (s.replyPeer 1 9 (.value 1))) ∧
    (next (exec (.pageRevocation ⟨pageOf, true, none⟩) (n8 [aGrant] []))).map (fun t => (t.granted 0 (2 ^ 44) false, t.granted 0 (2 ^ 44) true)) = some (true, false) ∧
    (next (exec (.pageGrant pageOf true ⟨0, none⟩) (n8 [] [askPage]))).map (fun t => (t.hub.refused, t.hub.outstanding)) = some ([(0, 2 ^ 32)], []) ∧
    next (exec (.pageGrant pageOf true ⟨1, none⟩) (n8 [] [askPage])) = some (n8 [] [askPage]) ∧
    (next (exec (.pageGrant pageOf true ⟨0, some pData⟩) (n8 [] [{ askPage with ctx := 0 }]))).map (fun t => (t.mem, t.hub.grants, t.hub.outstanding)) = some ([], [], []) ∧
    (next (exec (.pageGrant pageOf true ⟨0, some pData⟩) (twoParts [{ aGrant with core := 1024 }] [askPage]))).map (fun t => (t.mem, t.hub.grants.map (·.core))) = some ([], [1024, 0]) ∧
    ((n8 [aGrant] []).writeEvent (fun _ => true) (pageLines (2 ^ 32)) none false).isSome = true ∧ oldestGrant [aGrant] = some aGrant ∧ Config.grantTable = 32768 := by
  and_intros <;> first | decide +kernel | (unfold State.sound; decide +kernel)

/-- Records of one tick stand in ascending context number and sequence (R430); a count of lost reads is read (R140). -/
def recOf (c : Core) (x : Nat) : TrapRecord := trapRecord c aCtx x aUnit 0 aTrap true
def oneRecord : Core := let c := svCore []; { (c.addRecord 4 (recOf c 5)) with trapSeq := 1 }
theorem test_record_order : oneRecord.trapNew = (4, 1) ∧ (oneRecord.addRecord 4 (recOf oneRecord 3)).trapq.map (fun r => (r.ctx, r.seq)) = [(3, 1), (5, 2)] ∧
    (oneRecord.addRecord 5 (recOf oneRecord 3)).trapq.map (·.ctx) = [5, 3] ∧ (recOf oneRecord 3).length = 64 ∧
    (next (exec (.crd 9 0x37) n5)).map (fun t => (t.freeCount, t.me.life)) = some (1, .ready) ∧ (match ctlValue n5 0 0 0x37 with | some _ => true | none => false) = true := by
  and_intros <;> decide +kernel

/-! ### Deals, launches, pre-emption, machine checks -/

/-- A deal: entry 0x300000, root 0x100000, arguments 11 and 12, launch barrier 5, the save area at 2 MiB, and a few fields that vary (R408). -/
def deal (flags wblk completion save : Nat) : List Byte :=
  ([0x300000, 0x100000, 0, flags, wblk, 11, 12, completion, 0x25, 0, save].flatMap fun w => toBytes 8 w) ++ List.replicate 40 0#8
def d0 (e : List Byte) : State := { State.reset with agenda := [], squeues := [(3, { en := true, host := true, z := 4, c := 2, items := [e] })] }
def goodDeal : List Byte := deal (3 * 2 ^ 16) 1 0 (2 ^ 21)
def placed0 : Option State := next (exec (.dealPlacement 0) (d0 goodDeal))
theorem test_deal_placed : (headOf (d0 goodDeal) 3).map (fun l => (malformed (d0 goodDeal) l, l.lanes, mayBegin (d0 goodDeal) l, metersAllow (d0 goodDeal) l)) = some (false, 1, true, true) ∧ ((d0 goodDeal).part 0).mode = 1 ∧
    noteQueues (d0 goodDeal) 0 = d0 goodDeal ∧ (workQueues (d0 goodDeal) 0).map (·.1) = [3] ∧ (headOf (d0 goodDeal) 3).bind (fun l => chooseCores (d0 goodDeal) l (freeFor (d0 goodDeal) l)) = some [(0, 0, false)] := by
  and_intros <;> decide +kernel
theorem test_one_deal : (placed0.map fun t => (t.part 0).placedAt) = some (some 0) ∧ (d0 goodDeal).agenda = [] ∧
    (let s := (d0 goodDeal).modHub (fun h => { h with parts := tabSet h.parts 0 { (d0 goodDeal).part 0 with placedAt := some 0 } });
      (s.part 0).placedAt = some s.tick ∧ next (exec (.dealPlacement 0) s) = some (s.post 1 (.dealPlacement 0))) := by
  and_intros <;> decide +kernel
theorem test_deal_state : placed0.map (fun t => ((t.core 0).launch, (t.ctx 0 0).life, (t.ctx 0 0).pc, (t.ctx 0 0).wspBlk, (t.ctx 0 1).life)) = some (some 1, .ready, 0x300000, 1, .idle) ∧
    placed0.map (fun t => (rawG (t.core 0) (t.ctx 0 0) 8, rawG (t.core 0) (t.ctx 0 0) 9, rawG (t.core 0) (t.ctx 0 0) 10, (t.squeue 3).items)) = some (11, 12, 0, []) ∧
    placed0.map (fun t => ((t.core 0).barrier 5, (t.launch 1).map (·.tag))) = some ({ scope := 6, expected := 1 }, some 1) := by
  and_intros <;> decide +kernel

/-- Malformed deals (R410): their removal; a Dealer that does not run. -/
def bad (e : List Byte) : Option Bool := (headOf (d0 e) 3).map (malformed (d0 e))
theorem test_malformed : bad (deal 0 95 0 (2 ^ 21)) = some false ∧ bad (deal 0 96 0 (2 ^ 21)) = some true ∧ bad (deal 0 128 0 (2 ^ 21)) = some true ∧ bad (deal 0 1 4 (2 ^ 21)) = some true ∧ bad (deal 0 1 8 (2 ^ 21)) = some false ∧
    bad (deal 0 1 0 0) = some true ∧ bad (deal 0 1 0 (2 ^ 20)) = some true ∧ bad (deal (255 * 2 ^ 40) 1 0 (2 ^ 21)) = some true ∧ bad (deal (256 * 2 ^ 40) 1 0 (2 ^ 21)) = some false ∧
    bad (deal (8192 * 2 ^ 40) 1 0 (2 ^ 21)) = some false ∧ bad (deal (8193 * 2 ^ 40) 1 0 (2 ^ 21)) = some true ∧ bad (deal 4095 1 0 (2 ^ 21)) = some false ∧
    (next (exec (.malformedDealRemoval 3) (d0 (deal 0 1 0 0)))).map (fun t => ((t.squeue 3).items, (t.die 0).ring.length)) = some ([], 1) ∧
    (writeCompletion (d0 goodDeal) { theLaunch with deal := goodDeal } 1 0) = (d0 goodDeal, true) ∧
    next (exec (.dealPlacement 1) (d0 goodDeal)) = some (d0 goodDeal) := by
  and_intros <;> decide +kernel

/-- A launch whose lane has retired completes and frees its core; one with a job does not (R417, R418, R456). -/
def doneLaunch (flags : Nat) : Launch := { theLaunch with deal := deal flags 1 0 (2 ^ 21), retired := [0] }
def cs9 (flags : Nat) : State := { st (aCore []) with launches := [(1, doneLaunch flags)], agenda := [] }
theorem test_completion : launchDone (cs9 (2 ^ 36)) (doneLaunch (2 ^ 36)) = true ∧ tabWf (cs9 (2 ^ 36)).launches = true ∧ openHeld 1 (cs9 (2 ^ 36)).caps (cs9 (2 ^ 36)) = (cs9 (2 ^ 36), true) ∧
    (next (exec (.launchCompletion 1) (cs9 (2 ^ 36)))).map (fun t => ((t.core 0).launch, (t.ctx 0 0).life, t.agenda)) = some (none, .idle, [(2, .dealPlacement 0)]) ∧
    (next (exec (.launchCompletion 1) (cs9 (2 ^ 36)))).map (fun t => (t.launches.length, t.out)) = some (0, [.interrupt 64 0]) ∧
    (cs9 (2 ^ 36)).podReleased 0 = true ∧ launchDone { cs9 0 with chans := [(3, { jobs := [aJob] })] } (doneLaunch 0) = false ∧
    next (exec (.launchCompletion 1) { cs9 0 with chans := [(3, { jobs := [aJob] })] }) = some ({ cs9 0 with chans := [(3, { jobs := [aJob] })] }.postPoll 1 (.launchCompletion 1)) ∧
    (next (exec (.pendingInterruptSend 64 3) { State.reset with hub := { Hub.reset with pendingIrq := [(64, 3, 0)] } })).map (fun t => (t.out, t.hub.pendingIrq)) = some ([.interrupt 64 3], []) := by
  and_intros <;> decide +kernel

/-- Pre-emption saves a settled core to a save area that the host holds, and resumption brings it back (R420 to R422). -/
def cs10 (m : List Host.Cell) (a : Ctx) : State :=
  { st { aCore [] with ctxs := [(0, a)], halting := some 0 } with launches := [(1, { theLaunch with deal := deal 0 1 0 (2 ^ 30) })], mem := m, tick := 1 }
def slotTables : List Host.Cell := memWrite (memWrite [] 0x100000 8 0x200001) 0x200008 8 (2 ^ 51 + 7)
def backing : Launch := { theLaunch with deal := deal 0 1 0 (2 ^ 30), saved := [(0, { aCore [(5, 6)] with ctxs := [(0, aCtx)] })] }
def cs11 (c : List (Nat × Core)) : State := { State.reset with cores := c, launches := [(1, backing)] }
theorem test_preemption : coreSettled (cs10 slotTables aCtx) 0 = true ∧ (next (exec (.preemption 0) (cs10 slotTables aCtx))).map (fun t => ((t.core 0).launch, (t.launch 1).map fun l => (l.saved.map (·.1), l.ending))) = some (none, some ([0], none)) ∧
    (next (exec (.preemption 0) (cs10 [] aCtx))).map (fun t => (t.launch 1).map (·.ending)) = some (some (some 3)) ∧
    next (exec (.preemption 0) (cs10 [] { aCtx with accepted := [{ owner := 1, off := 0, bytes := 8, value := 0 }] })) = some ((cs10 [] { aCtx with accepted := [{ owner := 1, off := 0, bytes := 8, value := 0 }] }).post 1 (.preemption 0)) ∧
    outranked (cs11 []) backing [0] = false ∧ (next (exec (.coreResume 1 0) (cs11 []))).map (fun t => ((t.core 0).launch, (t.ctx 0 0).life, (t.ctx 0 0).readyAt, memRead (t.core 0).store 40 8, (t.launch 1).map (·.saved.length))) = some (some 1, .ready, 1, 6, some 0) ∧
    next (exec (.coreResume 1 0) (cs11 [(0, coreB)])) = some ((cs11 [(0, coreB)]).post 1 (.coreResume 1 0)) := by
  and_intros <;> decide +kernel

/-- A budget period: what exceeds an allotment carries over; what only reaches it carries 0 (R424). -/
theorem test_budget : (({ count := [9, 5, 0, 4], a := 5 + 6 * 2 ^ 24 } : Budget).period).count = [4, 0, 0, 0] ∧ ({ count := [5], a := 5 } : Budget).exhausted 0 = true ∧ ({ count := [4], a := 5 } : Budget).exhausted 0 = false ∧
    (({ count := [5], a := 5 } : Budget).period).periods = 1 ∧ ({ count := [0xFFFFFF, 0, 0, 0xFFFF] } : Budget).exhausted 0 = false ∧
    (next (exec .budgetPeriodStart { State.reset with tick := 10499, agenda := [], budgets := [(3, { count := [9, 0, 0, 0], a := 5 })] })).map (fun t => (t.budgets.map fun b => (b.1, b.2.count), t.agenda)) = some ([(3, [4, 0, 0, 0])], [(2 * Config.period, .budgetPeriodStart)]) ∧
    (next (exec .budgetPeriodStart { State.reset with tick := 10499, agenda := [(20999, .malformedDealRemoval 0)] })).map (·.agenda) = some [(20999, .malformedDealRemoval 0), (20999, .budgetPeriodStart)] := by
  and_intros <;> decide +kernel

/-- Machine checks and repair (R444, R445); a lock-step mismatch (R443). -/
def cs12 (spares : Nat) : State := { st { aCore [] with stopped := true } with dies := [(0, { spares := spares })] }
def locked : State := { st { aCore [] with ctxs := [(0, { aCtx with pending := some { ({} : Trick) with units := 1, age := some 7 } })] } with launches := [(1, { theLaunch with lock := true })] }
theorem test_machine_checks : (next (exec (.machineCheck (.core 5)) State.reset)).map (fun t => ((t.core 5).stopped, (t.core 4).stopped, (t.die 0).ring.length)) = some (true, false, 1) ∧
    (next (exec (.heartbeatMiss 5) State.reset)).map (fun t => (t.agenda.map (·.1)).contains (2 * (2000 * Config.microsecond))) = some true ∧
    (next (exec (.machineCheck (.quad 1)) State.reset)).map (fun t => (List.range 9).map fun k => (t.core k).stopped) = some [false, false, false, false, true, true, true, true, false] ∧
    (next (exec (.machineCheck (.partition 0)) (st (aCore [])))).map (fun t => ((t.die 3).frozen, (t.launch 1).map (·.ending))) = some (true, some (some 3)) ∧
    (next (exec (.coreRepair 0 true) (cs12 1))).map (fun t => ((t.core 0).stopped, (t.core 0).spare)) = some (false, false) ∧ (next (exec (.coreRepair 0 false) (cs12 1))).map (fun t => ((t.core 0).stopped, (t.core 0).spare, (t.die 0).spares)) = some (false, true, 0) ∧
    next (exec (.coreRepair 0 false) (cs12 0)) = some ((cs12 0).endLaunch 1 3) ∧ ((cs12 0).endLaunch 1 3).agenda.head? = some (1, .launchCompletion 1) ∧
    (next (exec (.lockstepMismatch 1 5) locked)).map (fun t => ((t.core 0).mismatch, (t.core 0).stopped)) = some ([(0, 7)], false) ∧
    (next (exec (.lockstepMismatch 0 5) (locked.modCore 0 fun c => { c with mismatch := [(0, 7)] }))).map (fun t => ((t.core 0).stopped, (t.core 1).stopped)) = some (true, true) ∧
    (let s := (wt { waits (.trapEntry { cause := .breakpoint }) none with pc := 0x300004, retire := 5 }); ((untrap s 0).ctx 0 0).life = .ready ∧ ((untrap s 0).ctx 0 0).pc = 0x300000 ∧ ((untrap s 0).ctx 0 0).retire = 4) ∧
    (let s := { n0 with launches := [(1, { theLaunch with lock := true })] }; (s.launchOf 0).any (·.lock) = true ∧ s.me.settled = true ∧ (s.trapUnit 0 0 aUnit 5 aTrap).me.life = .blocked (.trapEntry aTrap) ∧
      (s.trapUnit 0 0 aUnit 5 aTrap).agenda.head? = some (1, .trapEntry 0 0)) := by
  and_intros <;> decide +kernel

/-- Several work queues: the head of the highest priority, and among equals the one after the queue last served (R412); a placement that frees the
core of a launch of lower priority (R419); a partition without power, and one that has placed a deal in this tick. -/
def dq (qs : List (Nat × List Byte)) : State := { State.reset with agenda := [], squeues := qs.map fun e => (e.1, ({ en := true, host := true, z := 4, c := 2, items := [e.2] } : SliceQueue)) }
def prioDeal (n p : Nat) : List Byte := deal (n + p * 2 ^ 16) 1 0 (2 ^ 21)
def able (s : State) : List (Launch × Chance) := ((workQueues s 0).filterMap fun q => headOf s q.1).filterMap fun l => (chanceOf s l).map fun c => (l, c)
def best (s : State) : Option Nat := (bestHead s 0 (able s)).map (·.1.queue)
def served (q : Nat) (s : State) : State := s.modHub fun h => { h with parts := tabSet h.parts 0 { s.part 0 with lastQueue := [(3, q)] } }
def threeDeals : State := dq [(3, prioDeal 0 3), (5, prioDeal 0 2), (7, prioDeal 0 3)]
theorem test_best_head : best threeDeals = some 3 ∧ best (served 3 threeDeals) = some 7 ∧ best (served 7 threeDeals) = some 3 ∧ best (dq [(3, prioDeal 0 3), (5, prioDeal 0 5), (7, prioDeal 0 3)]) = some 5 ∧
    bestHead (dq []) 0 [] = none ∧ ((able threeDeals).map (·.1.queue)) = [3, 5, 7] ∧ noteQueues threeDeals 0 = threeDeals := by
  and_intros <;> decide +kernel
def lowLaunch (t prio : Nat) : Launch := { theLaunch with tag := t, deal := prioDeal 0 prio }
def victimState : State := { dq [(3, prioDeal 0 3)] with launches := [(1, lowLaunch 1 2), (2, lowLaunch 2 2), (3, lowLaunch 3 1), (4, lowLaunch 4 3)], cores := [(0, { launch := some 1 }), (1, { launch := some 2 }), (2, { launch := some 3 }), (3, { launch := some 4 })] }
def allStopped (d : Nat) : State := { dq [(3, prioDeal 0 3)] with launches := [(1, lowLaunch 1 2)], cores := (List.range 4).map fun k => (k, { launch := some 1 }), hub := { Hub.reset with parts := [(0, { (State.reset.part 0) with part := BitVec.ofNat 64 (d * 256 + 17) })] } }
theorem test_victims : (headOf victimState 3).map (victimUnits victimState) = some [[2], [1], [0]] ∧ ([lowLaunch 1 2, lowLaunch 2 2, lowLaunch 3 1].foldr victimInsert []).map (·.tag) = [3, 2, 1] ∧
    (headOf (allStopped 1) 3).map (victimUnits (allStopped 1)) = some [[3], [2], [1], [0]] ∧ (headOf (allStopped 1) 3).bind (fun l => victims (allStopped 1) l [[5], [6]] []) = some [5] := by
  and_intros <;> decide +kernel
theorem test_dealer_idle : next (exec (.dealPlacement 0) ((d0 goodDeal).modHub fun h => { h with removed := true })) = some ((d0 goodDeal).modHub fun h => { h with removed := true }) := by decide +kernel

/-- Requests that wait for a meter go out in the first tick of the next period, in their order (R424, R427); a period does not start before the
tick's other events (R423). -/
def held1 (r : Request) : State := { wt (waits (.meter 1) (some r)) with hub := { Hub.reset with metered := [(0, 0)] } }
theorem test_metered : ((outOfFabric (held1 yPeer)).exhausted ((held1 yPeer).clsOf 0) 1 = true ∧ serveMetered (outOfFabric (held1 yPeer)) = outOfFabric (held1 yPeer)) ∧
    (serveMetered (held1 yPeer)).hub.metered = [] ∧ (serveMetered (held1 yPeer)).me.life = .blocked .reply ∧ (serveMetered (held1 yPeer)).hub.outstanding.length = 1 ∧
    ((serveMetered (held1 (.matrix (.tcfg 3 4)))).quad 0).matrix.length = 1 ∧
    (let s := { State.reset with tick := Config.period, hub := { Hub.reset with metered := [] } }; s.tick % Config.period = 0 ∧ (next (exec .budgetPeriodStart s)).map (·.hub.metered) = some []) ∧
    (let s := { State.reset with tick := 10499 }; s.tick % Config.period ≠ 0 ∧ (s.agenda.any fun e => decide (e.1 ≤ 2 * s.tick + 1) && e.2 != .budgetPeriodStart) = false) := by
  and_intros <;> decide +kernel

/-! ### Partitions and hub registers -/

/-- Partition 0 with the dies `m`, partition 1 with `n`, and their modes (R449); PCTL words (R452). -/
def partW (dies mode : Nat) : Part := { part := BitVec.ofNat 64 (dies * 256 + mode * 16 + 1), pcls := BitVec.ofNat 64 dies }
def pp (m0 m1 : Nat) (d0 d1 : Nat) : State := { State.reset with hub := { Hub.reset with parts := [(0, partW d0 m0), (1, partW d1 m1)], vfs := [(5, { reg := 0x9002001 })] }, agenda := [] }
def pctlW (op dst src moved limit : Nat) : Word := BitVec.ofNat 64 (op + 16 * moved + 256 * dst + 1024 * src + 65536 * limit)
def opSeen (o : Option State) := o.map fun t => (t.hub.status, t.hub.opStart, t.agenda)
theorem test_partition_operations : (pp 1 3 3 12).mode 0 = 1 ∧ (pp 1 3 3 12).mode 1 = 3 ∧ (pp 1 3 3 12).hub.status = 0 ∧
    opSeen (next (exec (.quiesce (pctlW 1 0 0 0 7)) (pp 1 3 3 12))) = some (1, some (1, 0), [(1, .quiesceDone), (14 * Config.microsecond + 1, .quiesceLimitExpiry)]) ∧
    (next (exec (.quiesce (pctlW 1 0 0 0 7)) (pp 1 3 3 12))).map (·.mode 0) = some 2 ∧ opSeen (next (exec (.quiesce (pctlW 1 1 0 0 7)) (pp 1 3 3 12))) = some (4, none, []) ∧
    opSeen (next (exec (.resume (pctlW 2 1 0 0 0)) (pp 1 3 3 12))) = some (1, some (2, 0), [(2, .dealPlacement 1), (2 * Config.microsecond, .partitionOpComplete)]) ∧ opSeen (next (exec (.resume (pctlW 2 0 0 0 0)) (pp 1 3 3 12))) = some (4, none, []) ∧
    (next (exec (.merge (pctlW 3 1 0 0 0)) (pp 3 3 3 12))).map (fun t => ((t.part 1).dies, (t.part 0).dies, (t.part 1).pcls, t.mode 0, (t.vf 5).part, t.hub.status)) = some (15, 0, 15, 0, 1, 1) ∧
    opSeen (next (exec (.merge (pctlW 3 1 1 0 0)) (pp 3 3 3 12))) = some (4, none, []) ∧ opSeen (next (exec (.merge (pctlW 3 1 0 0 0)) (pp 1 3 3 12))) = some (4, none, []) ∧
    (next (exec (.split (pctlW 4 0 1 2 0)) (pp 3 0 3 0))).map (fun t => ((t.part 0).dies, (t.part 1).dies, t.mode 1, t.hub.status)) = some (1, 2, 3, 1) ∧
    opSeen (next (exec (.split (pctlW 4 0 1 3 0)) (pp 3 0 3 0))) = some (4, none, []) ∧ opSeen (next (exec (.split (pctlW 4 0 1 0 0)) (pp 3 0 3 0))) = some (4, none, []) ∧ opSeen (next (exec (.split (pctlW 4 0 1 4 0)) (pp 3 0 3 0))) = some (4, none, []) ∧
    opSeen (next (exec (.treset (pctlW 5 1 0 0 0)) (pp 3 0 3 0))) = some (4, none, []) ∧ opSeen (next (exec (.tchange (pctlW 6 0 0 0 0)) (pp 1 0 3 0))) = some (4, none, []) ∧
    (next (exec (.hubRegisterWrite 0x30100 (pctlW 7 0 0 0 0)) (pp 1 0 3 0))).map (fun t => (t.hub.status, t.agenda)) = some (4, []) ∧
    next (exec (.resume (pctlW 2 1 0 0 0)) ((pp 1 3 3 12).setStatus 1 0)) = some ((pp 1 3 3 12).setStatus 1 0) ∧ ((pp 1 3 3 12).setStatus 1 0).hub.status = 1 ∧ next (exec (.quiesce (pctlW 2 1 0 0 0)) (pp 1 3 3 12)) = some (pp 1 3 3 12) := by
  and_intros <;> decide +kernel

/-- TRESET, TCHANGE, and how operations end (R453, R454, R457, R458). -/
def busy (m : Nat) : State :=
  { pp m 0 3 0 with launches := [(1, theLaunch)], cores := [(0, aCore []), (4095, coreB)], squeues := [(3, q1), (4095, q1)], chans := [(3, { jobs := [aJob] })], mem := [(5, 1), (2 ^ 40, 2)], budgets := [(0, { count := [1, 2, 3, 4] })] }
def under (s : State) (op : Nat) : State := { (s.setStatus 1 0) with hub := { (s.setStatus 1 0).hub with opStart := some (op, 0) } }
theorem test_tenant_operations : (next (exec (.treset (pctlW 5 0 0 0 0)) (busy 1))).map (fun t => (t.mode 0, t.hub.status, (t.launch 1).map (·.ending), (t.squeue 3).en, (t.squeue 4095).en)) = some (2, 1, some (some 2), false, true) ∧
    (next (exec (.treset (pctlW 5 0 0 0 0)) (busy 1))).map (fun t => ((t.chan 3).jobs.map (·.cancelled), t.agenda.map (·.1))) = some ([true], [1, 2]) ∧
    (next (exec (.tchange (pctlW 6 0 0 0 0)) (busy 3))).map (fun t => (t.mem, t.core 0 == {}, t.core 4095 == coreB, (t.die 1).key, (t.die 2).key, t.hub.tchanges)) = some ([(2 ^ 40, 2)], true, true, 1, 0, 1) ∧
    (next (exec (.tchange (pctlW 6 0 0 0 0)) (busy 3))).map (fun t => ((t.budget 0).count, t.agenda)) = some ([0, 0, 0, 0], [(2 * changeTicks (busy 3) 0, .tchangeDone)]) ∧ changeTicks (busy 3) 0 = 25000 * Config.microsecond ∧
    next (exec .quiesceDone (pp 1 0 3 0)) = some (pp 1 0 3 0) ∧ next (exec .tchangeDone (pp 1 0 3 0)) = some (pp 1 0 3 0) ∧ quiet (under (busy 2) 1) 0 = false ∧
    next (exec .quiesceDone (under (busy 2) 1)) = some ((expireQuiesce (under (busy 2) 1)).postPoll 1 .quiesceDone) ∧ quiet (under (pp 2 0 3 0) 1) 0 = true ∧
    (next (exec .quiesceDone (under (pp 2 0 3 0) 1))).map (fun t => (t.mode 0, t.hub.status, t.hub.opStart)) = some (3, 2, none) ∧
    (next (exec .quiesceLimitExpiry (under { pp 2 0 3 0 with tick := 1000 * Config.microsecond, squeues := [(7, { en := true, host := true, z := 4, items := [[]] })] } 1))).map (fun t => (t.hub.status, t.hub.pctl.extractLsb' 48 12)) = some (3, 7) ∧
    next (exec .quiesceLimitExpiry (under (pp 2 0 3 0) 1)) = some (under (pp 2 0 3 0) 1) ∧ (next (exec .partitionOpComplete (under (pp 2 0 3 0) 5))).map (fun t => (t.mode 0, t.hub.status)) = some (3, 2) ∧
    (next (exec .partitionOpComplete (under (pp 2 0 3 0) 3))).map (fun t => (t.mode 0, t.hub.status)) = some (2, 2) ∧ (next (exec .tchangeDone (under (pp 3 0 3 0) 6))).map (fun t => (t.hub.status, t.hub.opStart)) = some (2, none) := by
  and_intros <;> decide +kernel

/-- Writes of the hub's registers (R425, R449, R456, R466, R468, R471, R475, R481). -/
def hw : State := { pp 3 1 3 12 with hub := { (pp 3 1 3 12).hub with vfs := [(5, { reg := 0x9002001, drops := 0xFF })], xps := [(2, 0x0000000300010003)] }, dies := [(1, { frozen := true })], cores := [(0, { aCore [] with gated := some 0, asleep := true })] }
def hubReads (o : Nat) : Option Nat := (next (exec (.hostRead 9 (.device (BitVec.ofNat 52 (2 ^ 43 + o))) 8) hw)).bind fun t => match t.out with | [.reply _ bs] => some (ofBytes bs) | _ => none
theorem test_hub_registers : next (exec (.partRegisterWrite 1 .pcls 0) hw) = some hw ∧ (next (exec (.partRegisterWrite 0 .part (2 ^ 64 - 1)) hw)).map (fun t => (t.part 0).part) = some 0xFFFF000000000331 ∧
    (next (exec (.partRegisterWrite 0 .pcls 0x11) hw)).map (fun t => (t.part 0).pcls) = some 0x11 ∧ (next (exec (.partRegisterWrite 0 .pcls 0x14) hw)).map (fun t => (t.part 0).pcls) = some 3 ∧
    (next (exec (.partRegisterWrite 0 .ilv 5) hw)).map (fun t => (t.part 0).ilv) = some 6 ∧ (next (exec (.partRegisterWrite 0 .ilv (0x215 + 0x40)) hw)).map (fun t => (t.part 0).ilv) = some 0x215 ∧
    (next (exec (.partRegisterWrite 0 .bnd (2 ^ 64 - 1)) hw)).map (fun t => (t.part 0).bnd) = some 0x00000FFF0FFF0001 ∧
    next (exec (.vfRegisterWrite 3 0x8003002) hw) = some hw ∧ (next (exec (.vfRegisterWrite 3 (0x8004003 + 2 ^ 40)) hw)).map (fun t => ((t.vf 3).reg, (t.vf 3).qfirst, (t.vf 3).qlast)) = some (0x8004003, 3, 4) ∧
    (next (exec (.xpRegisterWrite 3 0x0000000400030003) hw)).map (fun t => tabGet t.hub.xps 3 0) = some 0 ∧ (next (exec (.xpRegisterWrite 3 0x0000000500040003) hw)).map (fun t => tabGet t.hub.xps 3 0) = some 0x0000000500040001 ∧
    (next (exec (.podRegisterWrite none 0xFF) hw)).map (·.hub.podcfg) = some 0 ∧ (next (exec (.podRegisterWrite none 0xFF) (pp 3 0 3 12))).map (·.hub.podcfg) = some 0x7F ∧
    (next (exec (.podRegisterWrite (some 0) 0x12345) hw)).map (fun t => (t.part 0).pod) = some 0x2345 ∧ (next (exec (.bclassWrite 3 true (2 ^ 64 - 1)) hw)).map (fun t => ((t.budget 3).nextB, (t.budget 3).b)) = some (0xFFFFFFFFFF, 0xFFFFFFFFFF) ∧
    (next (exec (.bclassWrite 3 false 7) hw)).map (fun t => ((t.budget 3).nextA, (t.budget 3).a)) = some (7, 0xFFFFFFFFFFFF) ∧ (next (exec (.lsclassWrite 5) hw)).map (·.hub.lsclass) = some 5 ∧
    (next (exec (.pwrctlWrite 1) hw)).map (fun t => ((t.core 0).gated, (t.core 0).asleep, t.hub.pwrctl)) = some (some 0, false, 1) ∧ (next (exec (.pwrctlWrite 6) hw)).map (fun t => ((t.core 0).gated, (t.core 0).asleep, t.hub.pwrctl)) = some (none, false, 2) ∧
    (next (exec (.dpctlWrite 1 (2 ^ 32)) hw)).map (fun t => (t.die 1).frozen) = some false ∧ next (exec (.dpctlWrite 1 (2 ^ 31)) hw) = some hw ∧ next (exec (.hubRegisterWrite 0x30001 7) hw) = some hw ∧
    next (exec (.hubRegisterWrite 0x30048 7) hw) = next (exec (.partRegisterWrite 1 .pcls 7) hw) ∧ next (exec (.hubRegisterWrite 0x303F8 7) hw) = next (exec (.vfRegisterWrite 63 7) hw) ∧ next (exec (.hubRegisterWrite 0x203F8 7) hw) = next (exec (.bclassWrite 63 true 7) hw) ∧
    next (exec (.hubRegisterWrite 0x40038 7) hw) = next (exec (.xpRegisterWrite 7 7) hw) ∧ next (exec (.hubRegisterWrite 0x50030 (2 ^ 32)) hw) = next (exec (.dpctlWrite 3 (2 ^ 32)) hw) ∧ next (exec (.hubRegisterWrite 0x40120 7) hw) = next (exec (.podRegisterWrite (some 3) 7) hw) ∧
    (next (exec (.partRegisterWrite 0 (.svent 5) (2 ^ 64 - 1)) hw)).map (fun t => ((t.core 5).svent, (t.core 4).svent)) = some (0x00FFFFFFFFFFFFFE, 0) ∧
    (next (exec (.partRegisterWrite 0 (.svws 5) 0xFF) hw)).map (fun t => ((t.core 5).svws, (t.core 5).svent)) = some (0x7F, 0) ∧
    (next (exec (.partRegisterWrite 0 (.svent 4095) 8) hw)).map (fun t => (t.core 4095).svent) = some 0 ∧
    hubReads 0x30008 = some 3 ∧ hubReads 0x30228 = some 0x9002001 ∧ hubReads 0x40428 = some 0xFF ∧ hubReads 0x50010 = some (2 ^ 32) ∧ hubReads 0x160000 = some 0 ∧
    (next (exec (.hostRead 9 (.device (BitVec.ofNat 52 (2 ^ 43 + 0x60000 + 0x40000 + 64 * 3 + 8))) 8) (hw.modDie 1 fun x => { x with ring := [(3, [5, 6])] }))).map (·.out) = some [.reply 9 (toBytes 8 6)] ∧
    (next (exec (.hubRegisterWrite 0x40428 0xF) hw)).map (fun t => (t.vf 5).drops) = some 0xF0 ∧ next (exec (.hubRegisterWrite 0x30100 (pctlW 6 0 0 0 0)) hw) = next (exec (.tchange (pctlW 6 0 0 0 0)) hw) := by
  and_intros <;> decide +kernel

/-- A QUIESCE that is late; one that is not; a rejected operation leaves BUSYQ (R454, R518, R523); what the end of a QUIESCE and of a TRESET looks at; a
package under a new number finds its memory there (R471). -/
def lateQ (t : Nat) (m : List Nat) : State := under { pp 2 0 3 0 with tick := t * Config.microsecond, squeues := m.map fun q => (q, ({ en := true, host := true, z := 4, items := [[]] } : SliceQueue)) } 1
theorem test_quiesce_late : expireQuiesce (lateQ 999 [7]) = lateQ 999 [7] ∧ (expireQuiesce (lateQ 1000 [7])).hub.status = 3 ∧ (expireQuiesce (lateQ 1000 [7])).hub.busyq = 7 ∧
    quiet (lateQ 1000 []) 0 = true ∧ expireQuiesce (lateQ 1000 []) = lateQ 1000 [] ∧
    (let s := pp 3 0 3 0; let t := s.modHub fun h => { h with pctl := h.pctl ||| BitVec.ofNat 64 (0x25 * 2 ^ 48) }; t.hub.busyq = 0x25 ∧ expireQuiesce t = t ∧ t.hub.status ≠ 1 ∧
      (next (exec (.merge (pctlW 3 1 1 0 0)) t)).map (fun u => (u.hub.status, u.hub.busyq)) = some (4, 0x25) ∧ (next (exec (.resume (pctlW 2 0 0 0 0)) t)).map (fun u => (u.hub.status, u.hub.busyq)) = some (1, 0)) ∧
    (next (exec (.quiesce (pctlW 1 0 0 0 9)) (lateQ 1000 [7]))).map (fun t => (t.hub.status, t.hub.limit, t.hub.busyq)) = some (1, 9, 0) := by
  and_intros <;> decide +kernel
theorem test_quiesce_ends : returnGrants (under (pp 2 0 3 0) 1) 0 = .ok (under (pp 2 0 3 0) 1) ∧ (under (pp 2 0 3 0) 1).podReleased ((under (pp 2 0 3 0) 1).coreOfPart 0) = true ∧
    (let s := (unreleased (under (pp 2 0 3 0) 1)); (match returnGrants s 0 with | .ok t => (t.podReleased 0, t.hub.dst) | .error _ => (true, 9)) = (false, 0)) ∧
    (let s := unreleased (under (pp 2 0 3 0) 1);
      let t := { s with hub := { s.hub with outstanding := [{ seq := 1, target := 1, core := 0, ctx := 0, cls := none, request := ⟨0, .write (BitVec.ofNat 52 (2 ^ 40)) []⟩, retries := 0 }] } }
      (match returnGrants t 0 with | .ok _ => 0 | .error e => e.1) = 1) ∧
    (let s := under (pp 2 0 3 0) 5; s.launchesOf 0 = [] ∧ dealsLeft s 0 = [] ∧ s.chans = []) := by
  and_intros <;> decide +kernel
theorem test_new_package : (let s := { pp 3 0 3 12 with mem := [(5, 7)] }; (next (exec (.podRegisterWrite none 2) s)).map (fun t => (t.mem, t.pkg)) = some ([(2 * 2 ^ 44 + 5, 7)], 2) ∧ paPackage 5 = s.pkg) ∧
    (next (exec (.pwrctlWrite 1) { hw with dies := [(0, { engGated := [(3, 0)], engAsleep := [3] })] })).map (fun t => ((t.die 0).engGated, (t.die 0).engAsleep)) = some ([(3, 0)], []) ∧
    (next (exec (.vfRegisterWrite 5 0x8003003) (hw.modVf 5 fun v => { v with reg := 0, slots := [(2, { count := 9 })] }))).map (fun t => (t.vf 5).slots.map fun e => e.2.count) = some [0] := by
  and_intros <;> decide +kernel

/-! ### The host, peers, power and resets -/

/-- Function 5 with queues 3 to 4 (R456); a slot's bytes, triggers and status (R464). -/
def vfOf (slots : Tab Slot) : Vf := { reg := 0x8004003, slots := slots }
def hs (slots : Tab Slot) (q : SliceQueue) : State := { State.reset with hub := { Hub.reset with vfs := [(5, vfOf slots)] }, squeues := [(3, q)], agenda := [] }
def hq : SliceQueue := { en := true, host := true, z := 4, c := 0 }
def late : State := { hs [] hq with hub := { (hs [] hq).hub with posted := [(9, .device 0, [1])] } }
def slotOf (o : Option State) (q : Nat) := o.map fun t => tabGet (t.vf 5).slots q {}
theorem test_doorbells : next (exec (.doorbellWrite 9 6 0 [1]) (hs [] hq)) = some (hs [] hq) ∧ next (exec (.doorbellWrite 9 5 0 [1]) late) = some (late.addPosted 9 (.bar0 5 0) [1]) ∧ (next (exec (.hostPostedWrite 9 (.device 0) []) (late.addPosted 9 (.bar0 5 127) [7]))).map (fun t => (t.mem, t.hub.posted.length, (tabGet (t.vf 5).slots 3 {}).sent.length)) = some ([(0, 1)], 0, 1) ∧
    (next (exec (.hostPostedWrite 9 (.device 4096) [1]) (hs [(4, { sent := [(9, [])] })] hq))).map (fun t => (t.mem, t.hub.posted.length, t.agenda)) = some ([], 1, [(3, postedAgain 9)]) ∧
    next (exec (.doorbellWrite 9 5 256 [1]) (hs [] hq)) = some (hs [] hq) ∧ slotOf (next (exec (.doorbellWrite 9 5 130 [7, 8]) (hs [(4, { bytes := [(2, 5)] })] hq))) 4 = some { bytes := [(2, 7), (3, 8)] } ∧
    slotOf (next (exec (.doorbellWrite 9 5 126 [7, 8]) (hs [] hq))) 3 = some { sent := [(9, List.replicate 126 0 ++ [7, 8])] } ∧
    (next (exec (.doorbellWrite 9 5 127 [7, 8]) (hs [] hq))).map (fun t => (t.agenda, (tabGet (t.vf 5).slots 4 {}).bytes)) = some ([(2 * Config.homePkg + 1, .doorbellTrigger 5 3)], [(0, 8)]) ∧
    next (exec (.doorbellTrigger 5 3) (hs [] hq)) = some (hs [] hq) ∧
    (next (exec (.doorbellTrigger 5 3) (hs [(3, { sent := [(9, goodDeal)] })] hq))).map (fun t => ((t.squeue 3).items, (t.vf 5).drops, t.agenda)) = some ([goodDeal], 0, [(0, .dealPlacement 0)]) ∧
    slotOf (next (exec (.doorbellTrigger 5 3) (hs [(3, { sent := [(9, goodDeal)] })] hq))) 3 = some { count := 1, outcome := 1 } ∧
    slotOf (next (exec (.doorbellTrigger 5 3) (hs [(3, { sent := [(9, goodDeal)] })] { hq with items := [goodDeal] }))) 3 = some { count := 1, outcome := 2 } ∧
    slotOf (next (exec (.doorbellTrigger 5 3) (hs [(3, { sent := [(9, goodDeal)] })] { hq with host := false }))) 3 = some { count := 1, outcome := 3 } ∧
    slotOf (next (exec (.doorbellTrigger 5 3) ((hs [(3, { sent := [(9, goodDeal)] })] hq).setMode 0 2))) 3 = some { count := 1, outcome := 5 } ∧
    slotOf (next (exec (.doorbellTrigger 5 3) ((hs [(3, { sent := [(9, goodDeal)] })] hq).modVf 5 fun v => { v with reg := 0x9004003 }))) 3 = some { count := 1, outcome := 4 } ∧
    (next (exec (.doorbellStatusRead 9 5 3) (hs [(3, { count := 2, outcome := 5 })] hq))).map (·.out) = some [.reply 9 (toBytes 8 0x20005)] ∧
    next (exec (.doorbellStatusRead 9 5 3) late) = some (late.postPoll 1 (.doorbellStatusRead 9 5 3)) := by
  and_intros <;> decide +kernel

/-- Posted writes, reads, attestation, debug unlock (R236, R271, R460, R461, R463). -/
def pw (c : List (Nat × CapEntry)) : State := { State.reset with caps := c, agenda := [] }
def reported (t : Nat) : State := (State.reset.modPart 0 fun a => { a with reports := [(80, 4), (77, 3)] }) |> fun s => { s with tick := t, agenda := [] }
theorem test_host : addressOwner (pw []) 0x1000 = some 0 ∧ addressOwner (pw []) (2 ^ 44) = none ∧ (pw []).recall 0x1000 true none = none ∧ (next (exec (.hostPostedWrite 9 (.device 0x1000) [1, 2]) (pw []))).map (fun t => (t.mem, t.hub.posted)) = some ([(0x1000, 1), (0x1001, 2)], []) ∧
    (next (exec (.hostPostedWrite 9 (.device (BitVec.ofNat 52 (2 ^ 44))) [1, 2]) (pw []))).map (fun t => (t.mem, t.hub.posted)) = some ([], []) ∧
    regionOpen (pw [(1, { bytes := 4096, cap := .sealed })]) 0x1000 none = false ∧ (next (exec (.hostPostedWrite 9 (.device 0x1000) [1]) (pw [(1, { bytes := 4096, cap := .sealed })]))).map (fun t => (t.mem.length, t.hub.posted.length, (t.die 0).ring.length)) = some (0, 0, 1) ∧
    (next (exec (.hostPostedWrite 9 (.device 0x1000) [1]) late)).map (fun t => (t.mem, t.hub.posted.length)) = some ([], 2) ∧ (next (exec (.hostRead 9 (.device 0x1000) 3) (pw []))).map (fun t => (t.out.length, t.mem, t.freeCount)) = some (1, [], 0) ∧
    (next (exec (.spdmAttestation 0 77) (pw []))).map (fun t => ((t.part 0).reports, t.out.map fun o => match o with | .report p n _ regs _ => (p, n == 77, regs) | _ => (9, false, []))) =
      some ([(77, 0)], [(0, true, [0xF11, 0xFFFFFFFFFFFFFFFF, 6, 0] ++ List.replicate 66 0)]) ∧
    (next (exec (.debugUnlock 0 77 true) (reported (3 + 60000000 * Config.microsecond)))).map (fun t => (t.part 0).unlocked) = some true ∧
    next (exec (.debugUnlock 0 77 true) (reported (4 + 60000000 * Config.microsecond))) = some (reported (4 + 60000000 * Config.microsecond)) ∧ next (exec (.debugUnlock 0 77 false) (reported 3)) = some (reported 3) ∧
    (next (exec (.ideFailure true 9) (pw []))).map (fun t => (t.die 0).ring.length) = some 1 := by
  and_intros <;> decide +kernel

/-- Peers and expanders (R264, R405, R468 to R472). -/
def pd (w : Window) (out : List Outstanding) : State :=
  { (State.reset.modPart 0 fun a => { a with pod := 5 }) with hub := { (State.reset.modPart 0 fun a => { a with pod := 5 }).hub with windows := [(1, w)], outstanding := out }, mem := memWrite [] 0x1000 8 9, agenda := [] }
def asks (domain : BitVec 16) (op : PeerOp) : Instr := .fabricRequestArrival 1 8 ⟨domain, op⟩
def peerSeen (o : Option State) := o.map fun t => (memRead t.mem 0x1000 8, t.out, (tabGet t.hub.windows 1 {}).done)
def sentTo (n : Nat) : Outstanding := { seq := 8, target := 1, core := 0, ctx := 0, cls := none, request := ⟨5, .read 0x1000 8⟩, retries := n }
theorem test_peers : addressed (pd {} []) (.read 0x1000 8) = some 0 ∧ ((pd {} []).part 0).pod.extractLsb' 0 16 = 5 ∧ peerSeen (next (exec (asks 5 (.read 0x1000 8)) (pd {} []))) = some (9, [.peerReply 1 8 (.data (toBytes 8 9))], [(8, some (.data (toBytes 8 9)))]) ∧
    peerSeen (next (exec (asks 5 (.write 0x1000 [7])) (pd {} []))) = some (7, [.peerReply 1 8 (.value 0)], [(8, some (.value 0))]) ∧
    peerSeen (next (exec (asks 5 (.atomic 0x1000 0 3 0 1 0 false)) (pd {} []))) = some (12, [.peerReply 1 8 (.value 9)], [(8, some (.value 9))]) ∧
    (next (exec (asks 5 (.atomic 0x1000 0 3 0 1 0 false)) { pd {} [] with caps := [(1, { bytes := 4096, cap := .sealed })] })).map (fun t => (memRead t.mem 0x1000 8, t.out)) = some (9, [.peerReply 1 8 .capability]) ∧
    peerSeen (next (exec (asks 0 (.write 0x1000 [7])) (pd {} []))) = some (9, [.peerReply 1 8 .boundary], [(8, some .boundary)]) ∧ peerSeen (next (exec (asks 4 (.write 0x1000 [7])) (pd {} []))) = some (9, [.peerReply 1 8 .boundary], [(8, some .boundary)]) ∧
    (next (exec (asks 5 (.write 0x1000 [7])) (pd { done := [(8, some (.value 3))] } []))).map (fun t => (memRead t.mem 0x1000 8, t.out)) = some (9, [.peerReply 1 8 (.value 3)]) ∧
    next (exec (asks 5 (.write 0x1000 [7])) (pd { done := [(8, none)] } [])) = some (pd { done := [(8, none)] } []) ∧ next (exec (asks 5 (.write 0x1000 [7])) (pd { base := 9 } [])) = some (pd { base := 9 } []) ∧
    ((next (exec (asks 5 (.write 0x1000 [7])) (pd { done := List.replicate 4096 (7, none) } []))).map fun t => (t.agenda == [(2, asks 5 (.write 0x1000 [7]))], t.out)) = some (true, []) ∧
    next (exec (.fabricRetransmit 8 1) (pd {} [])) = some (pd {} []) ∧ (next (exec (.fabricRetransmit 8 1) (pd {} [sentTo 7]))).map (fun t => (t.hub.outstanding, t.out, t.agenda)) = some ([sentTo 8], [.peer 1 8 ⟨5, .read 0x1000 8⟩], [(20 * Config.microsecond, .fabricRetransmit 8 1)]) ∧
    (next (exec (.fabricRetransmit 8 1) (pd {} [sentTo 8]))).map (fun t => (t.hub.outstanding, t.out, t.agenda)) = some ([], [.ack 1 0xFFFFFFFF], [(0, .machineCheck (.partition 0))]) ∧
    (next (exec (.fabricAcknowledgement 1 8) (pd { base := 7, done := [(7, some (.value 1)), (8, some (.value 2)), (9, none)] } []))).map (fun t => tabGet t.hub.windows 1 {}) = some { base := 9, done := [(9, none)] } ∧
    (next (exec (.fabricAcknowledgement 1 5) (pd { base := 7 } []))).map (fun t => tabGet t.hub.windows 1 {}) = some { base := 7 } ∧ next (exec (.secondTierTimeout 2) (pd {} [])) = some ((pd {} []).post 0 (.machineCheck (.partition 2))) ∧
    (next (exec (.expanderLinkTrained 2) (pd {} []))).map (fun t => tabGet t.hub.xps 2 0) = some 2 ∧ (next (exec (.expanderLinkDown 2) hw)).map (fun t => tabGet t.hub.xps 2 0) = some 0x0000000300010001 := by
  and_intros <;> decide +kernel

/-- Cooling, gating, resets, firmware (R474 to R479). -/
def hot (stage : Nat) (since : Option Nat) : State := { st (aCore []) with hub := { Hub.reset with stage := stage, coolSince := since }, tick := 1000 * Config.microsecond }
def stageOf (o : Option State) := o.map fun t => (t.hub.stage, t.hub.coolSince)
theorem test_cooling : stageOf (next (exec (.thermalSample [20, 94] false false) (hot 0 none))) = some (0, none) ∧ stageOf (next (exec (.thermalSample [20, 95] false false) (hot 0 none))) = some (1, none) ∧ stageOf (next (exec (.thermalSample [20, 20] true false) (hot 0 none))) = some (1, none) ∧
    stageOf (next (exec (.thermalSample [20, 105] false false) (hot 1 none))) = some (2, none) ∧ stageOf (next (exec (.thermalSample [20, 90] false true) (hot 1 none))) = some (1, none) ∧ stageOf (next (exec (.thermalSample [20, 89] false true) (hot 1 none))) = some (1, some (1000 * Config.microsecond)) ∧
    stageOf (next (exec (.thermalSample [20, 89] false true) (hot 1 (some 0)))) = some (0, none) ∧ stageOf (next (exec (.thermalSample [20, 89] false true) (hot 1 (some 1)))) = some (1, some 1) ∧
    stageOf (next (exec (.thermalSample [20, 99] false false) (hot 2 (some 0)))) = some (1, none) ∧ stageOf (next (exec (.thermalSample [20, 100] false false) (hot 2 (some 0)))) = some (2, none) ∧
    (next (exec (.thermalSample [20, 115] false false) (hot 0 none))).map (fun t => (t.hub.stage, t.hub.removed, (t.launch 1).map (·.ending))) = some (3, true, some (some 3)) := by
  and_intros <;> decide +kernel
def idle9 : State := { State.reset with cores := [(0, { gated := some 0, ctxs := [(0, {})] }), (1, { ctxs := [(0, {})] })], tick := 1000 * Config.microsecond, agenda := [] }
theorem test_gating : coreIdle idle9 1 = true ∧ next (exec (.agentGate (.core 1)) idle9) = some ((idle9.modCore 1 fun c => { c with gated := some idle9.tick }).post (1000 * Config.microsecond) (.agentSleep (.core 1))) ∧ next (exec (.agentGate (.core 0)) (sg [])) = some (sg []) ∧
    next (exec (.agentSleep (.core 0)) idle9) = some (idle9.modCore 0 fun c => { c with asleep := true }) ∧ next (exec (.agentWake (.core 0)) idle9) = some ((idle9.modCore 0 fun c => { c with gated := none, asleep := false }).gateSoon 0) ∧
    (next (exec (.agentGate (.engine 1 15)) idle9)).map (fun t => (t.die 1).engGated) = some [(15, idle9.tick)] ∧ engineIdle (cs5 aJob) 0 0 = false ∧ next (exec (.agentGate (.engine 0 0)) (cs5 aJob)) = some (cs5 aJob) ∧
    (next (exec (.agentGate (.quadUnits 0)) idle9)).map (fun t => (t.quad 0).gated) = some (some idle9.tick) ∧ quadIdle idle9 0 = true := by
  and_intros <;> decide +kernel
def used : State := { busy 1 with hub := { (busy 1).hub with xps := [(1, 1)] }, dies := [(2, { ring := [(0, [])], next := 1, events := 1 })], tick := 5 }
theorem test_resets : (next (exec (.coldReset true ⟨6, [5]⟩) used)).map (fun t => (t.tick, t.mem.length + t.launches.length, t.hub.xps)) = some (0, 0, [(1, 2), (2, 2)]) ∧ (next (exec (.coldReset true ⟨6, [5]⟩) used)).map (fun t => ((t.core 5).spare, (t.die 0).spares)) = some (true, 15) ∧
    (next (exec (.coldReset true ⟨6, [5]⟩) used)).map (fun t => ((t.part 0).tierKey, t.hub.running, t.hub.removed, t.agenda)) = some (1, some 0, false, [(20999, .budgetPeriodStart)]) ∧
    (next (exec (.coldReset false ⟨0, [5]⟩) used)).map (fun t => (t.hub.removed, t.hub.running, t.mem)) = some (true, none, used.mem) ∧
    (next (exec (.warmReset ⟨0, [5]⟩) used)).map (fun t => (t.tick, t.mem.length, t.hub.xps)) = some (5, 0, []) ∧ (next (exec (.warmReset ⟨0, [5]⟩) used)).map (fun t => ((t.core 5).spare, (t.die 0).spares, (t.part 0).tierKey)) = some (true, 15, 1) ∧ (next (exec (.warmReset ⟨0, [5]⟩) used)).map (fun t => ((t.die 2).ring, (t.die 2).events, (t.die 2).key, t.agenda)) = some ([(0, [])], 1, 1, [(20999, .budgetPeriodStart)]) ∧
    (next (exec (.firmwareUpdate 7 true) used)).map (fun t => (t.hub.flash, t.hub.running)) = some (some 7, some 0) ∧ (next (exec (.firmwareUpdate 7 false) used)).map (·.hub.flash) = some none ∧
    (next (exec (.recoveryLoad 7 true) used)).map (fun t => (t.hub.sram, t.hub.flash, t.hub.running)) = some (some 7, some 0, some 0) := by
  and_intros <;> decide +kernel

/-- BAR2 shows a tenant its own events, or zeros; the posted window is full; what a home holds waits; a page goes to a peer and a waiting
request is withdrawn (R236, R370, R405, R482). -/
def barS (t : Nat) : State := { (hs [] hq).modDie 1 (fun x => { x with ring := [(2, [7, BitVec.ofNat 64 (t * 2 ^ 48), 9])] }) with tick := 1 }
def barRead (t : Nat) (o : Nat) : Option (List Outgoing) := (next (exec (.hostRead 9 (.bar2 5 (BitVec.ofNat 21 o)) 8) (barS t))).map (·.out)
def fullPosted : State := { pw [] with hub := { (pw []).hub with posted := List.replicate 256 (7, .device 0, [1]) } }
def waitingPeer : State := { pd {} [] with cores := [(0, { aCore [] with wake := [⟨0, 0, some (1, 4), .pod, false, 3, .semw true 9⟩] })] }
theorem test_windows : barRead 0 (0x1000 + 0x40000 + 128 + 16) = some [.reply 9 (toBytes 8 9)] ∧ barRead 3 (0x1000 + 0x40000 + 128 + 16) = some [.reply 9 (toBytes 8 0)] ∧
    barRead 0 8 = some [.reply 9 (toBytes 8 0)] ∧ ((barS 0).part 0).tenant = 0 ∧
    postedBefore fullPosted 9 = false ∧ (next (exec (.hostPostedWrite 9 (.device 0x1000) [1, 2]) fullPosted)).map (fun t => (t.mem, t.hub.posted.length)) = some ([], 257) ∧
    outsideWaits (pw []) (postedAgain 9) 0x1000 [0x40] true none = none ∧ ((pw []).writeEvent ((pw []).nearAddress 0x1000) [0x40] none false).isSome = true ∧
    (let s := heldBy (pw []) (.leaseGrant 3 0) [lineKey 0x40]; (outsideWaits s (postedAgain 9) 0x1000 [0x40] true none).isSome = true ∧
      (next (exec (.hostPostedWrite 9 (.device 0x1000) [1]) s)).map (fun t => (t.mem, t.held.length)) = some ([], 2)) ∧
    joinedTo (pd {} []) ⟨5, .grant 1 true⟩ = true ∧ (next (exec (asks 5 (.grant 1 true)) (pd {} []))).map (fun t => (tabGet t.hub.pageDir 1 {}).writer) = some (some 1) ∧
    (next (exec (asks 5 (.cancel 4)) waitingPeer)).map (fun t => (t.out, (t.core 0).wake.length)) = some ([.peerReply 1 8 (.value 1)], 0) ∧
    (next (exec (asks 5 (.cancel 5)) waitingPeer)).map (·.out) = some [.peerReply 1 8 (.value 0)] ∧
    (let s := { pd {} [] with cores := [(0, { aCore [] with stopped := true })] }; peerLater s (asks 5 (.sync 0 3 (.semi false 1) 0)) (.sync 0 3 (.semi false 1) 0) = false ∧ leftCore s 0 = true ∧
      (next (exec (asks 5 (.sync 0 3 (.semi false 1) 0)) s)).map (·.out) = some [.peerReply 1 8 .eviction]) := by
  and_intros <;> decide +kernel

/-! ### States in which requests and the events at their homes complete -/

/-- Units that ask slices and message contexts: the registers, the slice, the destination (R358 to R360, R364). -/
def kOk : State := k0 q1 [(1, 3), (2, 0x147)]
def kBuf : State := k0 q1 [(1, 3), (2, 0x2000)]
def mOk : State := mb mB [(1, 0x12), (2, 7), (3, 8)]
theorem test_requests_leave : Quiet kOk ∧ Timely kOk ∧ Plain kOk 1 ∧ Plain kOk 2 ∧ Plain kOk 9 ∧ (kOk.g 1).toNat = 3 ∧ (kOk.g 2).toNat = 0x147 ∧
    kOk.partOfDie 0 = kOk.partOf 0 ∧ (kOk.squeue 3).entry = 8 ∧ Own kBuf (kBuf.g 2) 0x2000 ∧ 0x2000 + 8 ≤ kBuf.mine.S ∧ kBuf.mine.touched 0 (wordsOf 0x2000 8) [] = false ∧
    Quiet mOk ∧ Timely mOk ∧ Plain mOk 1 ∧ Plain mOk 9 ∧ Plain mOk 2 ∧ Plain mOk 3 ∧ (mOk.g 1).toNat / 2 ^ 16 = mOk.pkg ∧ mOk.mates 0 1 = true ∧
    Quiet (mMail 11) ∧ Timely (mMail 11) ∧ ((mMail 11).g 1).toNat < 16 ∧ originCore 0x10 = (0, 1) ∧ (mMail 11).mates 0 1 = true := by
  and_intros <;> first | decide +kernel | exact timely_of (by decide +kernel) | exact plain_of (by decide +kernel) | exact own_of (by decide +kernel)

/-- The events at their homes, with no request of the same tick before them (R343, R348 to R354, R359, R365, R376, R377, R391, R393, R430). -/
theorem test_events_take_place : (let s := yh (.binit 2) (yb {}); s.lowerDue 0 (contextId s 0 0).toNat (syncRequester s 1 3 true) = false ∧ (s.core 1).wake = []) ∧
    (let s := yh (.semw true 7) (ys 7); s.lowerDue 0 (contextId s 0 0).toNat (syncRequester s 1 3 false) = false ∧ (7 : BitVec 32) ≤ (s.core 1).sem 3) ∧
    ((⟨5, 2, 1, 7, 0⟩ : Barrier).count 0 true).isSome = true ∧ scopeCode .die = 5 ∧
    (let s := ke (.enq (e8 5)) q1; s.lowerDue 0 0 (queueRequester s 3) = false ∧ remap ((s.ctx 0 0).cmode) 9 = none ∧ (s.ctx 0 0).farq = [] ∧ (0, 0) ∉ (s.squeue 3).waiters) ∧
    (let s := ma mB; s.lowerDue 0 mMsg.origin.toNat (sameMailbox s 1 mMsg) = false ∧ messageVerdict s 1 mMsg = .accepted ∧ depositsHeld s 1 mMsg = (false, false)) ∧
    aJob.signal.1 ≠ 2 ∧ (match (chunkBytes (cs5 aJob) (.granuleRead 3 1) aJob (cardOf card1) [(0, true), (1, true)]).1 with | .ok l => l == bytes16 | _ => false) = true ∧
    (match (engineWrite (cs5 aJob) (.granuleWrite 3 1) 0 0 (some 1) 0x100000 (1, 0, false) bytes16).1 with | .ok () => true | _ => false) = true ∧
    (cs6 false 0).savedAt (some 1) 0 = false ∧ ((cs6 false 0).core 0).stopped = false ∧ engineHeld (cs6 false 0) 0 [(0x2008, 8)] [] = false ∧ engineHeld (cs6 false 0) 0 [] [(0x3000, 8)] = false ∧
    (match (readGranule (cs8 [] [(24, sIn)]) (.streamStripFill 0 0 24) 0 sIn 0x2000 64).1 with | .ok b => b == toBytes 64 0xAAAA | _ => false) = true ∧
    (cs8 [] [(24, sOut)]).exhausted 0 2 = false ∧ (match (writeGranule (cs8 [] [(24, sOut)]) (.streamStripWrite 0 0 24) 0 sOut [(0x2100, [0x44]), (0x2102, [0x22])]).1 with | .ok () => true | _ => false) = true ∧
    (cs7 16).ended 0 = false ∧ ((cs7 16).core 0).svent.extractLsb' 1 55 ≠ 0 := by
  and_intros <;> decide +kernel

/-! ### More witnesses: forms at the edges of the statements -/

/-- Odd targets of the compact jumps (R112); units of 2, 4, 6 and 8 bytes passed over (R28, R37). -/
def b1 : State := sg [(1, 0x300101)]
def b2 : State := { c2 0 with mem := memPut (c2 0).mem 0x300004 [2, 0, 1, 0, 0, 0, 255, 0, 0, 0, 2, 0, 255, 0, 0, 0, 1, 0, 0, 0] }
theorem test_odd_targets : Reads [1] (begun b1) [0x300101] (red [1] (begun b1)) ∧
    ([Instr.jr 1, .cJr 1, .callr 5 1, .cCallr 1, .ret, .cRet].all fun i => next (exec i b1) == some (trapped b1 { cause := .misalignedTarget, addr := 0x300101 })) = true ∧
    ([0, 1, 2, 3, 4].map fun n => got (skipUnits n 0x300004) b2) = [some 0x300004, some 0x300006, some 0x30000A, some 0x300010, some 0x300018] ∧
    ([(0x300004, 2), (0x300006, 4), (0x30000A, 6), (0x300010, 8)] : List (Word × Nat)).all (fun e => (got (fetchUnit e.1) b2).map (·.length) == some e.2) = true := by
  and_intros <;> first | decide +kernel | exact reads_of (by decide +kernel)

/-- What a prefix may stand before (R36 to R38): bits 2:0 round, bit 3 saturates, bit 4 takes the mode from CMODE. -/
theorem test_prefixes : (([(0x800000, .br 0), (1, .logiXor 1 1 1), (5, .ld 1 1 1 3 false), (0, .vadd 1 2 3 0 .f32 0), (5, .vmul 1 2 3 0 .f32 0), (0x10, .vfma 1 2 3 0 .bf16 0), (8, .vadd 1 2 3 0 .i8 0),
      (1, .vredAdd 1 2 0 .f32 0), (0, .vsel 1 2 3 0 .f32), (1, .vcvt 1 2 .f32 0 .i8 0), (8, .vcvt 1 2 .f32 0 .i8 0), (4, .vunRint 1 2 0 .f32 0), (3, .vfunTanh 1 2 false 0 0)] : List (BitVec 24 × Instr)).all
      fun e => prefixFits e.1 e.2) = true ∧
    (([(0, .add 1 1 1), (6, .vadd 1 2 3 0 .f32 0), (0x12, .vadd 1 2 3 0 .f32 0), (8, .vadd 1 2 3 0 .f32 0), (1, .vadd 1 2 3 0 .i8 0), (32, .vadd 1 2 3 0 .f32 0), (0, .vadd 1 2 3 0 .f32 1), (1, .vsel 1 2 3 0 .f32),
      (1, .vld 1 2 3 0 .n8), (8, .vfunTanh 1 2 false 0 0), (0, .nop), (0, .cNop)] : List (BitVec 24 × Instr)).all fun e => !prefixFits e.1 e.2) = true ∧
    encodeWord (.addi 9 1 5) ≠ none ∧ encodeWord .cNop = none := by
  and_intros <;> decide +kernel

/-- A queue register as destination (R136, R52), DIV, BFI and LIH in their frames, the layout registers' two halves (R141, R147). -/
def b3 : State := s8.modCore 0 fun c => { c with layout := [(2, 63#64 + 1#64 * 64#64), (3, (5#64 + 7#64 * 64#64) * 2#64 ^ 48)] }
theorem test_frames : Plain (begun s3) 1 ∧ (remap s3.me.cmode 28).isSome = true ∧ (next (exec (.add 28 1 1) s3)).map (fun t => (t.me.running.pushes, t.g 1)) = some ([(0, 16#64)], 8) ∧ (next (exec (.add 28 1 1) s3)).map (fun t => (t.mine.store, t.mine.q)) = some (s3.mine.store, s3.mine.q) ∧
    (next (exec (.divN64 9 1 4) s7)).map (fun t => (t.g 9, t.g 1, t.g 4, t.me.life)) = some (0, 8, 2 ^ 64 - 1, .blocked (.interval 35)) ∧ Plain s2 4 ∧ (next (exec (.bfi 4 3 2) s2)).map (fun t => (t.g 1, t.g 2, t.g 3)) = some (0x1A84, 1796, 0xAB) ∧
    Plain s1 3 ∧ (next (exec (.lih 3 5) s1)).map (fun t => (t.g 1, t.g 10)) = some (8, 2 ^ 63) ∧ layoutField b3.mine 1 0 = (63, 1) ∧ layoutField b3.mine 1 7 = (5, 7) ∧ (layoutField b3.mine 1 6).2 = 0 ∧
    Memory.wf s8.mine.store = true ∧ (next (exec (.hdrSplit 20 9 0) s8)).map (fun t => (t.g 1, t.g 2, t.g 22)) = some (0xA, 0xBCD, 0) := by
  and_intros <;> first | decide +kernel | exact plain_of (by decide +kernel)

/-- Vector stores of the own scratchpad and of global memory leave what lies beside their elements (R182, R183, R243). -/
def b4 : State := f5.modCtx 0 0 fun v => { v with v := (3, pack 32 [0, 4]) :: v.v }
theorem test_store_frames : Unbound f5 1 ∧ Unbound f5 2 ∧ Memory.wf f5.mine.store = true ∧
    (next (exec (.vst 1 1 0 2 .n32) f5)).map (fun t => (memWord t.mine.store 0x1010, memRead t.mine.store 0x1008 8, t.me.v)) = some (0, 0x400000003, f5.me.v) ∧
    (next (exec (.vscat 1 1 2 2 .n32) f5)).map (fun t => (memWord t.mine.store 0xFF8, memWord t.mine.store 0x1000)) = some (0, 0x300000004) ∧
    (next (exec (.stg 6 1 0 3) h1)).map (fun t => (t.mem, t.mine.store, tabFind t.me.running.writes 0x1008, tabFind t.me.running.writes 0x1007)) = some (h1.mem, h1.mine.store, none, some 0) ∧
    (got (translateU 0x1000 1) h1).map (·.1) = some 0x1000 ∧ gStoreAddrs 4 .n32 (pack 32 [1, 2, 3, 4]) (activeAddrs (h3.p 2) 32 fun i => 0x1000 + BitVec.ofNat 64 (i * 4)) (begun h3) = [0x1000, 0x1004, 0x1008, 0x100C] ∧
    (next (exec (.vstg 1 1 0 2 .n32) h3)).map (fun t => (t.mem, tabFind t.me.running.writes 0x1010)) = some (h3.mem, none) := by
  and_intros <;> first | decide +kernel | (unfold Unbound; decide +kernel)

/-- The matrix units without the grant, with operands that a check refuses, and a TSTC behind a request, out of its tile or its store (R293 to R300). -/
def noGrant : State := m2
def b5 (r : Nat) (a : Nat) : State := (m4.modCore 0 fun c => { c with store := memWrite (memWrite c.store 8 8 a) 16 8 r }).modQuad 0 fun q => q
def behind4 : State := m4.modQuad 0 fun q => { q with matrix := [{ core := 0, ctx := 3, req := .tcfg 1 2 }] }
def one : Word := 0x4D0000A99
def checks (v : Option Nat) (d0 d1 d2 : Word) : Option Cause := match mmaChecks v d0 d1 d2 one m0 with | .error (.trap i) => some i.cause | _ => none
theorem test_matrix_traps : ([Instr.trel 3, .dtld 1 2, .dtldStd 1 .e4m3, .fctx 3, .fctxRd 3, .tldb 1 2 3, .tqnt 1 2, .mma 1 2 true, .mmaV 1 2 3 false].all fun i => next (exec i noGrant) == some (trapped noGrant { cause := .matrixNotGranted })) = true ∧
    ([Instr.tstcF32 1 2 3, .tstcBf16 1 2 3, .tstcF16 1 2 3].all fun i => next (exec i noGrant) == some (trapped noGrant { cause := .matrixNotGranted })) = true ∧
    next (exec (.tldb 7 1 3) m1) = some (trapped m1 { cause := .operandRange }) ∧ next (exec (.tldb 0 4 3) m1) = some (trapped m1 { cause := .misaligned, addr := 0x2004 }) ∧
    next (exec (.tldb 0 6 5) m1) = some (trapped m1 { cause := .outsideScratchpad, addr := 195648 }) ∧
    checks none 0 0 0 = none ∧ checks none (2 ^ 52) 0 0 = some .operandRange ∧ checks none 0 0 (2 ^ 12) = some .operandRange ∧ checks none 0 0x1FFFFF 0 = some .operandRange ∧ checks (some 32) 0 0 0 = some .operandRange ∧
    checks none 1 0 0 = some .misaligned ∧ checks (some 0) 1 0 0 = none ∧ checks none 0 1 0 = some .misaligned ∧ checks none 196608 0 0 = some .outsideScratchpad ∧
    ((behind4.quad 0).matrix.filter fun e => e.core == 0 && tstcAwaits 1 e.req).length = 1 ∧ next (exec (.tstcF32 1 0 1) behind4) = some (behind4.block 0 0 (.tileBusy 1 0 1 0 1)) ∧
    next (exec (.tstcF32 1 2 1) (b5 1 0x2000)) = some (trapped (b5 1 0x2000) { cause := .operandRange }) ∧ next (exec (.tstcF32 1 2 1) (b5 0 0x2004)) = some (trapped (b5 0 0x2004) { cause := .misaligned, addr := 0x2004 }) := by
  and_intros <;> decide +kernel

/-! ### More witnesses: values of the matrix unit, hosts, peers, power -/

/-- A block of one product: 2 times 3 of F8 (R301); the first code of 1.0 and the scale steps (R303, R304). -/
def ops (kk : Nat) : MmaOperands := { mmaOperands m0.mine (m0.quad 0) m0.me none 0 0 0 one with kk := kk }
def q8 : Quantiser := quantiserOf m0.mine one
theorem test_matrix_values : mmaElem (ops 0) 0 0 0 0x3F800000 = (0x3F800000, 0) ∧ mmaElem (ops 1) 0 0 0 0x3F800000 = mmaBlock (ops 1) 0 0 0 (0x3F800000, 0) 0 ∧ (mmaElem (ops 1) 0 0 0 0x3F800000).1 = 0x3F800000 ∧
    present 0 0 0 5 = true ∧ present 1 0 4 5 = false ∧ present 1 1 4 5 = true ∧ present 2 1 4 5 = false ∧ present 3 1 4 5 = true ∧ present 3 2 4 5 = false ∧
    (q8.steps (.fin false 1 0) 0 5).1 = 5 ∧ tabWf m0.mine.tiles = true ∧ tqntRanges m0.mine 0x2000 0x3000 one ≠ [] := by
  and_intros <;> decide +kernel

/-- Reads and writes from outside beside memory: a doorbell page that waits, BAR2 written, a sensor, the lock word, a hub register (R463 to R465, R478). -/
def outH : State := { hs [] hq with hub := { (hs [] hq).hub with sensors := [61, 70] } }
def dropped : State := (hs [] hq).modVf 5 fun v => { v with drops := 0xFF }
def outAgenda (o : Option State) := o.map fun t => (t.out, t.agenda)
theorem test_windows_more : slotWaits late 9 = true ∧ outAgenda (next (exec (.hostRead 9 (.bar0 5 384) 8) late)) = some ([], [(3, .hostRead 9 (.bar0 5 384) 8)]) ∧ slotWaits outH 9 = false ∧
    outAgenda (next (exec (.hostRead 9 (.sensor 1) 8) outH)) = some ([.reply 9 (toBytes 8 70)], []) ∧ outAgenda (next (exec (.hostRead 9 (.tdi 5) 8) outH)) = some ([.reply 9 (toBytes 8 1)], []) ∧
    outAgenda (next (exec (.hostRead 9 (.tdi 5) 8) (outH.setMode 0 3))) = some ([.reply 9 (toBytes 8 0)], []) ∧
    (next (exec (.hostPostedWrite 9 (.bar2 5 0) (toBytes 8 0xF0)) dropped)).map (fun t => (t.vf 5).drops) = some 0x0F ∧ (next (exec (.hostPostedWrite 9 (.bar2 5 8) (toBytes 8 0xF0)) dropped)).map (fun t => (t.vf 5).drops) = some 0xFF ∧
    hubWrite outH 0x40402 [1] = outH ∧ addressOwner (pd {} []) (0x40 * 64) = some 0 ∧ 0x40 * 64 / 2 ^ 42 % 4 = 0 := by
  and_intros <;> decide +kernel

/-- A peer takes its page back, sends one back, asks for one back; a request is given up, or waits for its class's port (R405, R472, R473). -/
def given : State := { pd {} [] with hub := { (pd {} []).hub with pageDir := [(1, { writer := some 1, readers := [], awaited := [1] })] } }
def portBusy : State := { pd {} [{ sentTo 0 with cls := some 2 }] with hub := { (pd {} [{ sentTo 0 with cls := some 2 }]).hub with port := [(2, .ack 1 0)] } }
def askedRead (n : Nat) : Outstanding := { sentTo n with seq := 9 }
theorem test_peers_more : joinedTo given ⟨5, .returned 1 (List.replicate 4096 3) false⟩ = true ∧
    (next (exec (asks 5 (.returned 1 (List.replicate 4096 3) false)) given)).map (fun t => (memRead t.mem 0x1000 2, (tabGet t.hub.pageDir 1 {}).writer, t.out)) = some (0x0303, none, [.peerReply 1 8 (.value 0)]) ∧
    (next (exec (asks 5 (.returned 1 (List.replicate 4096 3) false)) (pd {} []))).map (fun t => memRead t.mem 0x1000 2) = some 9 ∧
    (next (exec (asks 5 (.revoke 1 true)) (pd {} []))).map (fun t => (t.agenda, t.out)) = some ([(0, .pageRevocation ⟨1, true, some ⟨1, 8⟩⟩)], []) ∧
    ((portBusy.core 0).halting.isSome || !(portBusy.exhausted 2 1 || portBusy.hub.port.any (·.1 == 2))) = false ∧
    (next (exec (.fabricRetransmit 8 1) portBusy)).map (fun t => (t.out, t.hub.port.length)) = some ([], 2) ∧
    (pd {} [sentTo 8, askedRead 0]).hub.outstanding.find? (·.target == 1) = some (sentTo 8) ∧ ((pd {} [sentTo 8, askedRead 0]).endPeer (sentTo 8)).out = [.ack 1 8] ∧
    ((pd {} [sentTo 8, askedRead 0]).endPeer (askedRead 0)).out = [] ∧ ((pd {} [sentTo 8, askedRead 0]).endPeer (askedRead 0)).hub.outstanding = [sentTo 8] := by
  and_intros <;> decide +kernel

/-- Idle engines and quads are gated, an image is loaded at a boot that waits for it, and a package without power ignores a warm reset (R475 to R479). -/
def noImage (up : Bringup) : State := { used with hub := { used.hub with flash := none, sram := none, removed := true, boot := some up } }
theorem test_power_more : idle9.hub.gate = true ∧ gateable idle9 (.engine 1 15) = true ∧ gateable idle9 (.quadUnits 0) = true ∧
    (next (exec (.agentGate (.engine 1 15)) idle9)).map (fun t => (t.agenda, gateable t (.engine 1 15))) = some ([(2 * (2000 * Config.microsecond), .agentSleep (.engine 1 15))], false) ∧
    (next (exec (.coldReset true ⟨0, []⟩) (noImage ⟨0, []⟩))).map (fun t => (t.hub.removed, t.hub.boot)) = some (true, some ⟨0, []⟩) ∧
    (next (exec (.recoveryLoad 7 true) (noImage ⟨2, [5]⟩))).map (fun t => (t.hub.running, t.hub.removed, (t.core 5).spare, t.hub.xps)) = some (some 7, false, true, [(1, 2)]) ∧
    (next (exec (.recoveryLoad 7 false) (noImage ⟨2, [5]⟩))).map (fun t => (t.hub.running, t.hub.sram, t.hub.removed)) = some (used.hub.running, none, true) ∧
    next (exec (.warmReset ⟨0, []⟩) (noImage ⟨0, []⟩)) = some (noImage ⟨0, []⟩) := by
  and_intros <;> decide +kernel

end Sys2Proof.Tests
end

section
/-! PROOF. Control registers: what CRD reads and CWR writes (R438, R439), with what an irrevocable unit leaves when it retires. -/

namespace Sys2Proof.Proofs
open Sys2Proof Sys2Proof.Machine Sys2Proof.Laws

/-! ### Irrevocable units -/

theorem runIrr_next {m : U After} {s t : State} (h : Quiet s) (hm : m s = .ok (.next, t)) : runIrr m s = .next (retiredOut s t) :=
  runIrr_ok h hm

theorem runIrr_trap {m : U After} {s : State} {i : TrapInfo} (h : Quiet s) (hm : m s = .error (.trap i)) :
    runIrr m s = .next (trapped s i) := runIrr_stop h hm (plainly_trap i)

theorem timingTrap_timely {s : State} (h : Timely s) : timingTrap s = .ok ((), s) := by
  have hb : (s.mine.det && s.cur.2 != 15) = false := by rcases h with h | h <;> simp [h]
  exact (stopIf_apply (s.mine.det && s.cur.2 != 15) .timing 0#64 s).trans (by rw [hb]; rfl)

theorem timingTrap_untimely {s : State} (h : ¬ Timely s) : timingTrap s = .error (.trap { cause := .timing }) := by
  have hb : (s.mine.det && s.cur.2 != 15) = true := by simpa [Timely] using h
  exact (stopIf_apply (s.mine.det && s.cur.2 != 15) .timing 0#64 s).trans (by rw [hb]; rfl)

/-! ### Retiring outside tricks -/

/-- The strips that a context pushed are let out: nothing of its core changes but the streams of its contexts. -/
structure StripsOut (k x : Nat) (s t : State) : Prop where
  cur : t.cur = s.cur
  mem : t.mem = s.mem
  core : t.core k = { s.core k with ctxs := (t.core k).ctxs }
  ctx : t.ctx k x = { s.ctx k x with streams := (t.ctx k x).streams }

theorem StripsOut.refl (k x : Nat) (s : State) : StripsOut k x s s := ⟨rfl, rfl, rfl, rfl⟩

theorem StripsOut.trans {k x : Nat} {s t u : State} (h : StripsOut k x s t) (g : StripsOut k x t u) : StripsOut k x s u :=
  ⟨g.cur.trans h.cur, g.mem.trans h.mem, by rw [g.core, h.core], by rw [g.ctx, h.ctx]⟩

@[simp] theorem post_core (s : State) (n j : Nat) (i : Instr) : (s.post n i).core j = s.core j := rfl

theorem stripsOut_post (k x : Nat) (s : State) (f : Tab Stream → Tab Stream) (i : Instr) :
    StripsOut k x s ((s.modCtx k x fun v => { v with streams := f v.streams }).post 1 i) := by
  refine ⟨rfl, rfl, ?_, ?_⟩
  · rw [post_core, core_modCtx]; rfl
  · rw [State.ctx, post_core, core_modCtx, core_ctx_setCtx]

theorem stripsOut_postStrips (s : State) (k x : Nat) (t : Trick) : StripsOut k x s (s.postStrips k x t) := by
  unfold State.postStrips
  induction t.stripPushes generalizing s with
  | nil => exact .refl k x s
  | cons p l ih =>
    refine StripsOut.trans ?_ (ih _)
    dsimp only
    split
    · split
      · exact .refl k x s
      · exact stripsOut_post k x s (fun st => tabSet st p.1 _) _
    · exact .refl k x s

@[simp] theorem trumpGone_cur (s : State) (k : Nat) (b : Bool) : (s.trumpGone k b).cur = s.cur := by cases b <;> rfl
@[simp] theorem trumpGone_mem (s : State) (k : Nat) (b : Bool) : (s.trumpGone k b).mem = s.mem := by cases b <;> rfl
@[simp] theorem trumpGone_core (s : State) (k j : Nat) (b : Bool) : (s.trumpGone k b).core j = s.core j := by cases b <;> rfl

/-- A unit that retires outside tricks leaves memory as it is, and of its core all but contexts and queue registers (R82, R135). -/
theorem retiredOut_keeps (s t : State) (hc : t.cur = s.cur) :
    (retiredOut s t).mem = t.mem ∧ (retiredOut s t).me.retire = t.me.retire + 1#64 ∧
      (retiredOut s t).mine = { t.mine with ctxs := (retiredOut s t).mine.ctxs, q := (retiredOut s t).mine.q } := by
  obtain ⟨v, hv, c, hq, e⟩ : ∃ v : Ctx, v.retire = t.me.retire + 1#64 ∧ ∃ c : Core, c = { t.mine with q := c.q } ∧ retiredOut s t =
      ((t.setCore s.cur.1 (c.setCtx s.cur.2 v)).trumpGone s.cur.1 t.me.running.trump).postStrips s.cur.1 s.cur.2 t.me.running := by
    simp only [State.me, State.mine, hc]
    exact ⟨_, rfl, _, rfl, rfl⟩
  have h := stripsOut_postStrips ((t.setCore s.cur.1 (c.setCtx s.cur.2 v)).trumpGone s.cur.1 t.me.running.trump) s.cur.1 s.cur.2 t.me.running
  rw [← e] at h
  obtain ⟨hcur, hmem, hcore, hctx⟩ := h
  simp only [trumpGone_cur, trumpGone_mem, trumpGone_core, core_setCore, State.ctx, core_ctx_setCtx] at hcur hmem hcore hctx
  have hcur' : (retiredOut s t).cur = s.cur := hcur.trans hc
  refine ⟨hmem, ?_, ?_⟩
  · rw [State.me, hcur', State.ctx, hctx, hv]
  · rw [State.mine, hcur', hcore, hq]; rfl

/-! ### Numbers that name a register -/

/-- Which numbers name a control register does not depend on the state. -/
theorem ctlValue_isSome (s t : State) (k x j y r : Nat) : (ctlValue s k x r).isSome = (ctlValue t j y r).isSome := by
  simp only [ctlValue, apply_ite Option.isSome, Option.isSome_some, Option.isSome_none]

theorem ctlUnit_some {s : State} {k x r : Nat} {w : Word} (m : U After) (h : ctlValue s k x r = some w) : ctlUnit r m s = runIrr m s := by
  rw [ctlUnit, ctlValue_isSome s s 0 0 k x, h]
  rfl

theorem ctlUnit_none {s : State} {k x r : Nat} (m : U After) (h : ctlValue s k x r = none) (hr : Runs s) :
    ctlUnit r m s = .next (trapped s { cause := .illegal }) := by
  rw [ctlUnit, ctlValue_isSome s s 0 0 k x, h]
  exact runIn_trap hr (stopTrap_apply _ _ _ _)

/-! ### What the registers hold -/

theorem ctlValue_lost (s : State) (k x : Nat) {b : Nat} (hb : b < 8) :
    ctlValue s k x (0x30 + b) = some ((tabGet (s.core k).xbloss b 0#48).setWidth 64) := by
  simp (disch := omega) only [ctlValue, if_neg, if_pos, Nat.add_sub_cancel_left, BitVec.ofNat_toNat]

theorem ctlValue_layout (s : State) (k x : Nat) {i : Nat} (hi : i < 32) : ctlValue s k x (0x40 + i) = some (tabGet (s.core k).layout i 0#64) := by
  simp (disch := omega) only [ctlValue, if_neg, if_pos, Nat.add_sub_cancel_left]

theorem ctlValue_class (s : State) (k x : Nat) {i : Nat} (hi : i < 32) : ctlValue s k x (0xA0 + i) = some (tabGet (s.core k).cls i 0#64) := by
  simp (disch := omega) only [ctlValue, if_neg, if_pos, Nat.add_sub_cancel_left]

/-! ### CRD -/

section
variable {s u : State} {r : BitVec 13} {d : GReg} {w : Word}

theorem exec_crd_timing (h : Quiet s) (hv : ctlValue s s.cur.1 s.cur.2 r.toNat = some w) (ht : ctlTiming r.toNat = true) (hn : ¬ Timely s) :
    exec (.crd d r) s = .next (trapped s { cause := .timing }) := by
  refine (ctlUnit_some _ hv).trans (runIrr_trap h ?_)
  rw [if_pos ht, U_bind_error (timingTrap_untimely hn)]

/-- A timing-dependent register is no bar to a unit that the check of R105 lets pass. -/
theorem timingGate_pass {c : Bool} {m : U After} (ht : c = false ∨ Timely s) : (do
    if c then timingTrap
    m) s = m s := by
  cases c with
  | false => rfl
  | true => exact U_bind_ok (timingTrap_timely (ht.resolve_left (by simp)))

/-- CRD of a register without a count of lost reads writes its value (R438). -/
theorem exec_crd (h : Quiet s) (hv : ctlValue s s.cur.1 s.cur.2 r.toNat = some w) (ht : ctlTiming r.toNat = false ∨ Timely s)
    (hr : r.toNat < 0x30 ∨ 0x37 < r.toNat) (hw : Writes d w s u) : exec (.crd d r) s = .next (retiredOut s u) := by
  refine (ctlUnit_some _ hv).trans (runIrr_next h ((timingGate_pass ht).trans ?_))
  rw [if_neg (by omega)]
  refine (U_bind_ok (getS_apply s)).trans ?_
  rw [hv]
  exact U_bind_ok hw

/-- The state in which a bank's count of lost reads has been brought up to date (R139, R140). -/
def lostCounted (s : State) (b : Nat) : State :=
  ({ s with freeCount := s.freeCount + 1 } : State).modCore s.cur.1 fun c =>
    { c with xbloss := tabSet c.xbloss b (tabGet s.mine.xbloss b 0#48 + Config.lostReads s.freeCount) }

theorem countLost_apply (s : State) (b : Nat) : countLost b s = .ok ((), lostCounted s b) := rfl

theorem ctlValue_lostCounted (s : State) {b : Nat} (hb : b < 8) :
    ctlValue (lostCounted s b) (lostCounted s b).cur.1 (lostCounted s b).cur.2 (0x30 + b) =
      some ((tabGet s.mine.xbloss b 0#48 + Config.lostReads s.freeCount).setWidth 64) := by
  have hc : ((lostCounted s b).core (lostCounted s b).cur.1).xbloss =
      tabSet s.mine.xbloss b (tabGet s.mine.xbloss b 0#48 + Config.lostReads s.freeCount) :=
    congrArg Core.xbloss (core_modCore _ _ _)
  rw [ctlValue_lost _ _ _ hb, hc, tabGet_tabSet_same]

/-- CRD of a bank's count of lost reads brings it up to date and writes it (R139, R140, R438). -/
theorem exec_crd_lost {b : Nat} (h : Quiet s) (ht : ctlTiming r.toNat = false ∨ Timely s) (hb : b < 8) (hr : r.toNat = 0x30 + b)
    (hw : Writes d ((tabGet s.mine.xbloss b 0#48 + Config.lostReads s.freeCount).setWidth 64) (lostCounted s b) u) :
    exec (.crd d r) s = .next (retiredOut s u) := by
  refine (ctlUnit_some _ (hr ▸ ctlValue_lost s 0 0 hb)).trans (runIrr_next h ((timingGate_pass ht).trans ?_))
  rw [hr, if_pos (by omega), Nat.add_sub_cancel_left, U_bind_ok (countLost_apply s b)]
  refine (U_bind_ok (getS_apply (lostCounted s b))).trans ?_
  rw [ctlValue_lostCounted s hb]
  exact U_bind_ok hw

end

/-! ### CWR -/

section
variable {s t : State} {s1 : GReg} {w : Word} (h : Quiet s) (hr : Reads [s1] s [w] t)
include h hr

/-- CWR of a register without a form of its own: the value is read and written, and the unit retires (R438). -/
theorem exec_cwr {r : BitVec 13} {u : State} (hv : (ctlValue s 0 0 r.toNat).isSome = true) (hw : ctlWrite r.toNat w t = .ok ((), u)) :
    exec (.cwr r s1) s = .next (retiredOut s u) := by
  refine (if_pos hv).trans (runIrr_next h ?_)
  rw [U_bind_ok (reads_one hr), U_bind_ok hw]
  rfl

theorem exec_cwr_trap {r : BitVec 13} {i : TrapInfo} (hv : (ctlValue s 0 0 r.toNat).isSome = true) (hw : ctlWrite r.toNat w t = .error (.trap i)) :
    exec (.cwr r s1) s = .next (trapped s i) := by
  refine (if_pos hv).trans (runIrr_trap h ?_)
  rw [U_bind_ok (reads_one hr), U_bind_error hw]

theorem exec_cwr_cflags : exec (.cwr 0x11 s1) s = .next (retiredOut s (t.modCtx s.cur.1 s.cur.2 fun v => { v with cflags := v.cflags &&& ~~~w })) := by
  rw [← reads_cur hr]; exact exec_cwr h hr rfl rfl

theorem exec_cwr_xbloss : exec (.cwr 0x30 s1) s =
    .next (retiredOut s (t.modCore s.cur.1 fun c => { c with xbloss := tabSet c.xbloss 0 (w.extractLsb' 0 48) })) := by
  rw [← reads_cur hr]; exact exec_cwr h hr rfl rfl

theorem exec_cwr_parking : exec (.cwr 0x62 s1) s = .next (retiredOut s (t.modCore s.cur.1 fun c => { c with pkRefused := w.extractLsb' 8 32 })) := by
  rw [← reads_cur hr]; exact exec_cwr h hr rfl rfl

theorem exec_cwr_trick : exec (.cwr 0x70 s1) s =
    .next (retiredOut s (t.modCtx s.cur.1 s.cur.2 fun v => { v with trumps := w.extractLsb' 16 16, squash := w.extractLsb' 0 16 })) := by
  rw [← reads_cur hr]; exact exec_cwr h hr rfl rfl

theorem exec_cwr_watchdog : exec (.cwr 0x81 s1) s = .next (retiredOut s
    (t.modGroup (groupOf s.cur.1) fun g => { g with wdLimit := w.extractLsb' 0 32, wdFired := g.wdFired && !w.getLsbD 32 })) := by
  rw [← reads_cur hr]; exact exec_cwr h hr rfl rfl

theorem exec_cwr_messages : exec (.cwr 0xC0 s1) s = .next (retiredOut s (t.modCore s.cur.1 fun c => { c with msgRefused := w.extractLsb' 4 32 })) := by
  rw [← reads_cur hr]; exact exec_cwr h hr rfl rfl

/-- Registers whose fields are all read-only take a write and keep what they hold (R9). -/
theorem exec_cwr_readOnly : ∀ r ∈ [0x20#13, 0x21#13, 0x80#13, 0x90#13], exec (.cwr r s1) s = .next (retiredOut s t) := by
  simp only [List.forall_mem_cons, List.not_mem_nil, false_implies, implies_true, and_true]
  exact ⟨exec_cwr h hr rfl rfl, exec_cwr h hr rfl rfl, exec_cwr h hr rfl rfl, exec_cwr h hr rfl rfl⟩

/-- The registers of the supervisor's entry are written by no unit (R434). -/
theorem exec_cwr_supervisor : ∀ r ∈ [0xE0#13, 0xE1#13], exec (.cwr r s1) s = .next (trapped s { cause := .privileged }) := by
  simp only [List.forall_mem_cons, List.not_mem_nil, false_implies, implies_true, and_true]
  exact ⟨exec_cwr_trap h hr rfl rfl, exec_cwr_trap h hr rfl rfl⟩

/-! ### CWR of the registers with a form of their own -/

theorem exec_cwrCmode (hm : (w.extractLsb' 0 3).toNat < 6) :
    exec (.cwrCmode s1) s = .next (retiredOut s (t.modCtx s.cur.1 s.cur.2 fun v => { v with cmode := w &&& 0x37#64 })) := by
  have hb : decide ((w.extractLsb' 0 3).toNat ≥ 6) = false := decide_eq_false (by omega)
  refine runIrr_next h ?_
  rw [← reads_cur hr, U_bind_ok (reads_one hr), hb]
  rfl

theorem exec_cwrCmode_illegal (hm : 6 ≤ (w.extractLsb' 0 3).toNat) : exec (.cwrCmode s1) s = .next (trapped s { cause := .illegal }) := by
  refine runIrr_trap h ?_
  rw [U_bind_ok (reads_one hr), decide_eq_true hm]
  rfl

theorem exec_cwrWsp (ha : t.mine.workspaceAligned ((w.extractLsb' 11 7).toNat * 2048) = true) :
    exec (.cwrWsp s1) s = .next (retiredOut s (t.modCtx s.cur.1 s.cur.2 fun v => { v with wspBlk := w.extractLsb' 11 7 })) := by
  refine runIrr_next h ?_
  rw [← reads_cur hr, U_bind_ok (reads_one hr), U_bind_ok (curCore_apply t)]
  simp only [State.mine] at ha
  rw [ha]
  rfl

theorem exec_cwrWsp_misaligned (ha : t.mine.workspaceAligned ((w.extractLsb' 11 7).toNat * 2048) = false) :
    exec (.cwrWsp s1) s = .next (trapped s { cause := .misalignedWorkspace }) := by
  refine runIrr_trap h ?_
  rw [U_bind_ok (reads_one hr), U_bind_ok (curCore_apply t)]
  simp only [State.mine] at ha
  rw [ha]
  rfl

theorem exec_cwrLayout (n : BitVec 5) (hl : layoutBad w = false) : exec (.cwrLayout n s1) s =
    .next (retiredOut s (t.modCore s.cur.1 fun c => { c with layout := tabSet c.layout n.toNat (w &&& 0x1FFF1FFF1FFF1FFF#64) })) := by
  refine runIrr_next h ?_
  rw [← reads_cur hr, U_bind_ok (reads_one hr), hl]
  rfl

theorem exec_cwrLayout_illegal (n : BitVec 5) (hl : layoutBad w = true) : exec (.cwrLayout n s1) s = .next (trapped s { cause := .illegal }) := by
  refine runIrr_trap h ?_
  rw [U_bind_ok (reads_one hr), hl]
  rfl

theorem exec_cwrVpool : exec (.cwrVpool s1) s =
    .next (retiredOut s (t.modGroup (groupOf s.cur.1) fun g => { g with vpool := w &&& 0x1FFFF#64 })) := by
  refine runIrr_next h ?_
  rw [← reads_cur hr, U_bind_ok (reads_one hr)]
  rfl

theorem exec_cwrClass (n : BitVec 5) (ha : n.getLsbD 0 = false ∨ t.mine.workspaceAligned ((w.extractLsb' 0 7).toNat * 2048) = true) :
    exec (.cwrClass n s1) s = .next (retiredOut s (t.modCore s.cur.1 fun c => { c with
      clsBefore := some (s.tick, c.cls)
      cls := tabSet c.cls n.toNat (w &&& (if n.getLsbD 0 then 0x3FF#64 else 0x00FFFFFFFFFFFFFE#64)) })) := by
  have hb : (n.getLsbD 0 && !(t.core t.cur.1).workspaceAligned ((w.extractLsb' 0 7).toNat * 2048)) = false := by
    rcases ha with ha | ha
    · rw [ha]; rfl
    · simp only [State.mine] at ha; rw [ha, Bool.not_true, Bool.and_false]
  refine runIrr_next h ?_
  rw [← reads_cur hr, ← (local_reads hr).tick, U_bind_ok (reads_one hr), U_bind_ok (curCore_apply t)]
  dsimp only
  rw [hb]
  rfl

theorem exec_cwrVmroot (hx : s.cur.2 = 15) : exec (.cwrVmroot s1) s =
    .next (retiredOut s (t.modCore s.cur.1 fun c => { c with vmroot := w &&& 0x000FFFFFFFF0FFFF#64 })) := by
  have hp : privileged s = .ok ((), s) := by
    rw [privileged, U_bind_ok (myCtx_apply s), hx]; rfl
  refine runIrr_next h ?_
  rw [← reads_cur hr, U_bind_ok hp, U_bind_ok (reads_one hr)]
  rfl

end

/-! ### CWR of SPLIT -/

/-- A table cut down by its keys reads as before where the key stays, and has no entry elsewhere. -/
theorem tabFind_filter_keys {α : Type} {t : Tab α} {lo : Option Nat} (p : Nat → Bool) (h : keysFrom lo t = true) (j : Nat) :
    tabFind (t.filter fun c => p c.1) j = if p j then tabFind t j else none := by
  induction t generalizing lo with
  | nil => simp
  | cons c t ih =>
    obtain ⟨i, v⟩ := c
    simp only [keysFrom, Bool.and_eq_true] at h
    by_cases hp : p i = true
    · simp only [List.filter_cons, hp, if_true, tabFind, ih h.2]
      split_ifs <;> simp_all
    · rw [List.filter_cons_of_neg (p := fun c : Nat × α => p c.1) hp, ih h.2]
      by_cases hpj : p j = true
      · rw [if_pos hpj, if_pos hpj, tabFind, if_neg fun e : j = i => hp (e ▸ hpj)]
        split_ifs with hl
        · exact tabFind_below h.2 (Nat.le_of_lt hl)
        · rfl
      · rw [if_neg hpj, if_neg hpj]

/-- A range of bytes made 0, and the others as before. -/
theorem memGet_memClear {m : List Host.Cell} (a n c : Nat) (h : memWf m = true) :
    memGet (memClear m a n) c = if c < a ∨ a + n ≤ c then memGet m c else 0#8 := by
  have := tabFind_filter_keys (fun i => decide (i < a) || decide (a + n ≤ i)) (memWf_keys h) c
  simp only [memGet, memClear, tabGet, this]
  split_ifs <;> simp_all

/-- A core whose SPLIT is set: its local store is 0 from the smaller scratchpad portion on (R185, R186). -/
def resplit (n : BitVec 3) (c : Core) : Core :=
  let low := min c.S (Config.localBytes - 32768 * n.toNat)
  { c with csteps := n, store := memClear c.store low (Config.localBytes - low), empty := c.empty.filter fun w => decide (8 * w < low) }

/-- The state in which the issuing context has set SPLIT: lines that may be displaced have left the L1 portion (R186, R252). -/
def splitSet (t : State) (n : BitVec 3) : State :=
  (dropLines t t.cur.1 fun l => !(t.mine.pinned t.tick).contains l).modCore t.cur.1 (resplit n)

theorem splitSet_mine (t : State) (n : BitVec 3) : (splitSet t n).mine = resplit n t.mine := mine_modCore (dropLines t t.cur.1 _) _

theorem memGet_resplit (n : BitVec 3) (c : Core) (a : Nat) (h : memWf c.store = true) : memGet (resplit n c).store a =
    if a < min c.S (resplit n c).S ∨ Config.localBytes ≤ a then memGet c.store a else 0#8 := by
  have e : (resplit n c).store = memClear c.store (min c.S (resplit n c).S) (Config.localBytes - min c.S (resplit n c).S) := rfl
  have hS : c.S ≤ Config.localBytes := Nat.sub_le _ _
  rw [e, memGet_memClear _ _ _ h, Nat.add_sub_cancel' (by omega)]

/-- What stands once a unit that set SPLIT has retired: the new portions, and the local store zeroed above the smaller scratchpad. -/
theorem retiredOut_splitSet {s t : State} (hc : t.cur = s.cur) (n : BitVec 3) : let u := retiredOut s (splitSet t n)
    u.mine.csteps = n ∧ u.me.retire = t.me.retire + 1#64 ∧ u.mem = t.mem ∧ (memWf t.mine.store = true → ∀ a, memGet u.mine.store a =
      if a < min t.mine.S u.mine.S ∨ Config.localBytes ≤ a then memGet t.mine.store a else 0#8) := by
  intro u
  obtain ⟨hmem, hret, hmine⟩ := retiredOut_keeps s (splitSet t n) hc
  rw [splitSet_mine] at hmine
  have hme : (splitSet t n).me = t.me := (congrArg (Core.ctx · t.cur.2) (splitSet_mine t n) :)
  have hn : u.mine.csteps = n := (congrArg Core.csteps hmine :)
  have hst : u.mine.store = (resplit n t.mine).store := (congrArg Core.store hmine :)
  have hS : u.mine.S = (resplit n t.mine).S := congrArg (fun m : BitVec 3 => Config.localBytes - 32768 * m.toNat) hn
  refine ⟨hn, by rw [hret, hme], hmem, fun hw a => ?_⟩
  rw [hst, hS, memGet_resplit n t.mine a hw]

section
variable {s t : State} {s1 : GReg} {w : Word} (h : Quiet s) (hr : Reads [s1] s [w] t)
include h hr

theorem exec_cwrSplit_illegal (hn : w.extractLsb' 0 3 = 0#3) : exec (.cwrSplit s1) s = .next (trapped s { cause := .illegal }) := by
  refine runIrr_trap h ?_
  rw [U_bind_ok (reads_one hr), hn]
  rfl

theorem exec_cwrSplit_busy (hn : w.extractLsb' 0 3 ≠ 0#3) (hx : ∃ p ∈ t.mine.ctxs, p.1 ≠ s.cur.2 ∧ p.2.life ≠ .idle) :
    exec (.cwrSplit s1) s = .next (trapped s { cause := .splitBusy }) := by
  have hb : ((t.core t.cur.1).ctxs.any fun p => p.1 != t.cur.2 && p.2.life != .idle) = true := by
    rw [reads_cur hr]
    simpa [State.mine, reads_cur hr] using hx
  refine runIrr_trap h ?_
  rw [U_bind_ok (reads_one hr), beq_false_of_ne hn, U_bind_ok (stopIf_false _ _ _), U_bind_ok (curCore_apply t), U_bind_ok (myCtx_apply t), hb]
  rfl

theorem exec_cwrSplit (hn : w.extractLsb' 0 3 ≠ 0#3) (hx : ∀ p ∈ t.mine.ctxs, p.1 = s.cur.2 ∨ p.2.life = .idle) :
    exec (.cwrSplit s1) s = .next (retiredOut s (splitSet t (w.extractLsb' 0 3))) := by
  have hb : ((t.core t.cur.1).ctxs.any fun p => p.1 != t.cur.2 && p.2.life != .idle) = false := by
    rw [List.any_eq_false]
    intro p hp
    rcases hx p hp with e | e <;> simp [e, reads_cur hr]
  refine runIrr_next h ?_
  rw [U_bind_ok (reads_one hr), beq_false_of_ne hn, U_bind_ok (stopIf_false _ _ _), U_bind_ok (curCore_apply t), U_bind_ok (myCtx_apply t), hb]
  rfl

end

/-! ### The field layouts -/

/-- R141: a layout is bad when one of its four fields would reach beyond its word. -/
theorem layoutBad_iff (w : Word) : layoutBad w = true ↔ ∃ j, j < 4 ∧ 64 < w.toNat / 2 ^ (16 * j) % 64 + w.toNat / 2 ^ (16 * j + 6) % 128 := by
  simp only [layoutBad, List.any_eq_true, List.mem_range, Bool.or_eq_true, decide_eq_true_eq]
  refine exists_congr fun j => and_congr_right fun _ => ?_
  simp only [field]
  omega

/-- Settles O50: each clause is the equation of one control-register unit, from what its register holds and what its write does. -/
theorem controlRegisters : Obligations.ControlRegisters := by
  refine ⟨fun s r d s1 h hv => ⟨ctlUnit_none _ hv h, ctlUnit_none _ hv h⟩, fun s u r d w h hv => ⟨?_, fun ht => ⟨?_, ?_⟩⟩, ?_, ?_, layoutBad_iff⟩
  · exact fun ⟨ht, hn⟩ => exec_crd_timing h hv ht hn
  · exact fun hr hw => exec_crd h hv ht hr hw
  · exact fun b hb hr hw => exec_crd_lost h ht hb hr hw
  · exact fun s k x => ⟨rfl, rfl, rfl, fun i hi => ctlValue_layout s k x hi, rfl, rfl, rfl, fun i hi => ctlValue_class s k x hi,
      rfl, rfl, rfl, rfl, rfl⟩
  · intro s t s1 w h hr
    refine ⟨exec_cwr_cflags h hr, exec_cwr_xbloss h hr, exec_cwr_parking h hr, exec_cwr_trick h hr, exec_cwr_watchdog h hr,
      exec_cwr_messages h hr, exec_cwr_readOnly h hr, exec_cwr_supervisor h hr, exec_cwrCmode h hr, exec_cwrCmode_illegal h hr,
      exec_cwrWsp h hr, exec_cwrWsp_misaligned h hr, exec_cwrLayout h hr, exec_cwrLayout_illegal h hr, exec_cwrVpool h hr,
      exec_cwrClass h hr, exec_cwrVmroot h hr, exec_cwrSplit_illegal h hr, exec_cwrSplit_busy h hr, fun hn hx => ?_⟩
    obtain ⟨hcs, hret, hmem, hst⟩ := retiredOut_splitSet (reads_cur hr) (w.extractLsb' 0 3)
    exact ⟨retiredOut s (splitSet t _), exec_cwrSplit h hr hn hx, hcs, hret, hmem.trans (local_reads hr).only.1, hst⟩

end Sys2Proof.Proofs
end

section
/-! PROOF. What later proofs about events share: tables that are mapped or listed, what posting does to the agenda, and what the discard pile,
a change of a die or core and the end of a launch leave as it was (R418, R444, R480). -/

namespace Sys2Proof.Proofs
open Sys2Proof Sys2Proof.Machine Sys2Proof.Laws

/-! ### Tables -/

theorem tabFind_map {α β : Type} (f : α → β) (t : Tab α) (k : Nat) :
    tabFind (t.map fun e => (e.1, f e.2)) k = (tabFind t k).map f := by
  induction t with
  | nil => rfl
  | cons e t ih =>
    simp only [List.map_cons, tabFind, ih]
    split_ifs <;> rfl

/-- A table whose values are all mapped reads mapped, where the default maps to the default. -/
theorem tabGet_map {α β : Type} (f : α → β) (t : Tab α) (k : Nat) (d : α) :
    tabGet (t.map fun e => (e.1, f e.2)) k (f d) = f (tabGet t k d) := by
  rw [tabGet, tabFind_map, tabGet, Option.getD_map]

/-- A table that gives a value to each of a rising list of keys. -/
theorem tabFind_keyed {α : Type} (f : Nat → α) {l : List Nat} (h : l.Pairwise (· < ·)) (k : Nat) :
    tabFind (l.map fun i => (i, f i)) k = if k ∈ l then some (f k) else none := by
  induction l with
  | nil => rfl
  | cons i l ih =>
    obtain ⟨hi, hl⟩ := List.pairwise_cons.1 h
    rw [List.map_cons, tabFind, ih hl]
    by_cases hk : k = i
    · simp [hk]
    · by_cases hlt : k < i
      · have hn : k ∉ l := fun hm => Nat.lt_asymm hlt (hi k hm)
        simp [hk, hlt, hn]
      · simp [hk, hlt]

theorem mem_of_tabFind {α : Type} {t : Tab α} {k : Nat} {v : α} (h : tabFind t k = some v) : (k, v) ∈ t := by
  induction t with
  | nil => cases h
  | cons e t ih =>
    rw [tabFind] at h
    split_ifs at h with hk
    · exact List.mem_cons.2 (.inl (Prod.ext hk (Option.some.inj h).symm))
    · exact List.mem_cons_of_mem e (ih h)

/-! ### The agenda -/

@[simp] theorem mem_agendaAdd (a : List (Nat × Instr)) (n : Nat) (i : Instr) (e : Nat × Instr) : e ∈ agendaAdd a n i ↔ e = (n, i) ∨ e ∈ a := by
  induction a with
  | nil => simp [agendaAdd]
  | cons b a ih =>
    rw [agendaAdd]
    split_ifs
    · simp only [List.mem_cons, ih]; exact or_left_comm
    · exact List.mem_cons

/-- A run of posts changes the agenda alone, and takes nothing from it. -/
theorem foldl_post {α : Type} (n : Nat) (f : α → Instr) (l : List α) (s : State) :
    ∃ a, (∀ e ∈ s.agenda, e ∈ a) ∧ l.foldl (fun s x => s.post n (f x)) s = { s with agenda := a } := by
  induction l generalizing s with
  | nil => exact ⟨s.agenda, fun _ h => h, rfl⟩
  | cons x l ih =>
    obtain ⟨a, ha, h⟩ := ih (s.post n (f x))
    exact ⟨a, fun e he => ha e ((mem_agendaAdd ..).2 (.inr he)), h⟩

/-! ### Dies and quads -/

theorem die_modDie_other (s : State) {d j : Nat} (f : Die → Die) (h : j ≠ d) : (s.modDie d f).die j = s.die j := tabGet_tabSet_other _ _ _ h

/-- A change of a die that keeps a reading of it keeps that reading of every die. -/
theorem die_modDie_keeps {α : Type} (g : Die → α) (s : State) (d j : Nat) (f : Die → Die) (h : ∀ x, g (f x) = g x) :
    g ((s.modDie d f).die j) = g (s.die j) := by
  by_cases e : j = d
  · rw [e, die_modDie, h]
  · rw [die_modDie_other s f e]

/-- A change of a core that keeps a reading of it keeps that reading of every core. -/
theorem core_modCore_keeps {α : Type} (g : Core → α) (s : State) (k j : Nat) (f : Core → Core) (h : g (f (s.core k)) = g (s.core k)) :
    g ((s.modCore k f).core j) = g (s.core j) := by
  by_cases e : j = k
  · rw [e, core_modCore, h]
  · rw [core_modCore_other s f e]

/-! ### The discard pile -/

/-- The die whose ring takes an event of a partition, or of none (R480). -/
def discardDie (s : State) : Option Nat → Nat
  | some p => (s.part p).lowDie
  | none => 0

section
variable (s : State) (part : Option Nat) (core tag ty detail : Nat) (data : List Word)

/-- An event of the discard pile goes to the ring of one die, or nowhere (R480, R481). -/
theorem discard_cases : s.discard part core tag ty detail data = s ∨ ∃ now hub e,
    s.discard part core tag ty detail data = s.modDie (discardDie s part) fun x => x.addEvent now hub e := by
  cases part with
  | none => exact (ite_eq_or_eq _ _ _).imp id fun h => ⟨_, _, _, h⟩
  | some p => exact (ite_eq_or_eq _ _ _).imp id fun h => ⟨_, _, _, h⟩

theorem discard_eq : ∃ d, s.discard part core tag ty detail data = { s with dies := d } := by
  rcases discard_cases s part core tag ty detail data with h | ⟨_, _, _, h⟩ <;> exact ⟨_, h⟩

@[simp] theorem discard_tick : (s.discard part core tag ty detail data).tick = s.tick := by
  obtain ⟨d, h⟩ := discard_eq s part core tag ty detail data; rw [h]
@[simp] theorem discard_agenda : (s.discard part core tag ty detail data).agenda = s.agenda := by
  obtain ⟨d, h⟩ := discard_eq s part core tag ty detail data; rw [h]
@[simp] theorem discard_mem : (s.discard part core tag ty detail data).mem = s.mem := by
  obtain ⟨d, h⟩ := discard_eq s part core tag ty detail data; rw [h]
@[simp] theorem discard_cores : (s.discard part core tag ty detail data).cores = s.cores := by
  obtain ⟨d, h⟩ := discard_eq s part core tag ty detail data; rw [h]
@[simp] theorem discard_core (j : Nat) : (s.discard part core tag ty detail data).core j = s.core j := by
  obtain ⟨d, h⟩ := discard_eq s part core tag ty detail data; rw [h]; rfl
@[simp] theorem discard_launches : (s.discard part core tag ty detail data).launches = s.launches := by
  obtain ⟨d, h⟩ := discard_eq s part core tag ty detail data; rw [h]
@[simp] theorem discard_hub : (s.discard part core tag ty detail data).hub = s.hub := by
  obtain ⟨d, h⟩ := discard_eq s part core tag ty detail data; rw [h]

@[simp] theorem discard_part (p : Nat) : (s.discard part core tag ty detail data).part p = s.part p := by rw [State.part, discard_hub]; rfl
@[simp] theorem discard_launchOf (k : Nat) : (s.discard part core tag ty detail data).launchOf k = s.launchOf k := by
  obtain ⟨d, h⟩ := discard_eq s part core tag ty detail data; rw [h]; rfl

/-- An event of the discard pile changes the ring of a die and the counts of its events, and nothing else of it (R480). -/
theorem discard_die_keeps {α : Type} (g : Die → α) (h : ∀ x now hub e, g (Die.addEvent x now hub e) = g x) (j : Nat) :
    g ((s.discard part core tag ty detail data).die j) = g (s.die j) := by
  rcases discard_cases s part core tag ty detail data with he | ⟨now, hub, e, he⟩ <;> rw [he]
  exact die_modDie_keeps g s _ j _ fun x => h x now hub e

theorem discard_die_other {j : Nat} (h : j ≠ discardDie s part) : (s.discard part core tag ty detail data).die j = s.die j := by
  rcases discard_cases s part core tag ty detail data with he | ⟨now, hub, e, he⟩ <;> rw [he]
  exact die_modDie_other s _ h

@[simp] theorem discard_die_frozen (j : Nat) : ((s.discard part core tag ty detail data).die j).frozen = (s.die j).frozen :=
  discard_die_keeps s part core tag ty detail data Die.frozen (fun _ _ _ _ => rfl) j
@[simp] theorem discard_die_key (j : Nat) : ((s.discard part core tag ty detail data).die j).key = (s.die j).key :=
  discard_die_keeps s part core tag ty detail data Die.key (fun _ _ _ _ => rfl) j
@[simp] theorem discard_die_walk (j : Nat) : ((s.discard part core tag ty detail data).die j).walk = (s.die j).walk :=
  discard_die_keeps s part core tag ty detail data Die.walk (fun _ _ _ _ => rfl) j

end

/-! ### The end of a launch -/

/-- A core whose launch ends: it is halting, and its records that wait are dropped (R420). -/
def haltedBy (tag now : Nat) (c : Core) : Core :=
  if c.launch == some tag then { c with halting := some (c.halting.getD now), trapWait := [] } else c

/-- A job of a launch that ends is cancelled (R384). -/
def cancelledBy (tag : Nat) (j : Job) : Job := if j.launch == some tag then { j with cancelled := true } else j

/-- A launch that ends with a status, all its lanes retired (R418). -/
def endedWith (status : Nat) (l : Launch) : Launch := { l with ending := some status, retired := List.range l.lanes }

theorem endLaunch_none {s : State} {n status : Nat} (h : s.launch n = none) : s.endLaunch n status = s := by
  rw [State.endLaunch, h]

theorem endLaunch_ending {s : State} {n status : Nat} {l : Launch} (h : s.launch n = some l) (he : l.ending.isSome = true) : s.endLaunch n status = s := by
  rw [State.endLaunch, h]
  exact if_pos he

/-- All that the end of a live launch changes. -/
theorem endLaunch_live {s : State} {n : Nat} (status : Nat) {l : Launch} (h : s.launch n = some l) (he : l.ending = none) :
    ∃ a, (2 * s.tick + 1, .launchCompletion (BitVec.ofNat 16 n)) ∈ a ∧ s.endLaunch n status = { s with
      agenda := a
      chans := s.chans.map fun c => (c.1, { c.2 with jobs := c.2.jobs.map (cancelledBy n) })
      cores := s.cores.map fun c => (c.1, haltedBy n s.tick c.2)
      launches := tabSet s.launches n (endedWith status l) } := by
  obtain ⟨a, -, ha⟩ := foldl_post 0 (fun j : Nat × BitVec 48 => Instr.jobEnd (BitVec.ofNat 11 j.1) (.own j.2))
    (((s.cores.filter fun c => c.2.launch == some n).map (·.2) ++ l.saved.map (·.2)).flatMap fun c => c.trapWait.filterMap (·.job))
    { s with
      chans := s.chans.map fun c => (c.1, { c.2 with jobs := c.2.jobs.map (cancelledBy n) })
      cores := s.cores.map fun c => (c.1, haltedBy n s.tick c.2)
      launches := tabSet s.launches n (endedWith status l) }
  refine ⟨agendaAdd a (2 * s.tick + 1) _, (mem_agendaAdd ..).2 (.inl rfl), ?_⟩
  have hm : ∀ (c : Tab Channel) (d : Tab Core), ({ s with chans := c, cores := d } : State).modLaunch n (endedWith status) =
      { s with chans := c, cores := d, launches := tabSet s.launches n (endedWith status l) } := by
    intro c d
    unfold State.modLaunch
    split
    · rename_i m hm
      obtain rfl : l = m := Option.some.inj (h.symm.trans hm)
      rfl
    · rename_i hm
      exact absurd (h.symm.trans hm) (by simp)
  rw [State.endLaunch, h]
  refine (if_neg (by simp [he])).trans ?_
  dsimp only [cancelJobs]
  exact congrArg (fun t : State => t.postPoll 0 _) ((congrArg (List.foldl _ · _) (hm _ _)).trans ha)

section
variable (s : State) (n status : Nat)

theorem endLaunch_cases : s.endLaunch n status = s ∨ ∃ l, s.launch n = some l ∧ l.ending = none := by
  cases h : s.launch n with
  | none => exact .inl (endLaunch_none h)
  | some l =>
    cases he : l.ending with
    | none => exact .inr ⟨l, rfl, he⟩
    | some e => exact .inl (endLaunch_ending h (by rw [he]; rfl))

/-- The end of a launch changes the agenda, jobs, cores and that launch, and nothing else (R384, R418). -/
theorem endLaunch_keeps {α : Type} (g : State → α) (h : ∀ a c d l, g { s with agenda := a, chans := c, cores := d, launches := l } = g s) :
    g (s.endLaunch n status) = g s := by
  rcases endLaunch_cases s n status with e | ⟨l, hl, he⟩
  · rw [e]
  · obtain ⟨a, -, e⟩ := endLaunch_live status hl he
    rw [e, h]

@[simp] theorem endLaunch_mem : (s.endLaunch n status).mem = s.mem := endLaunch_keeps s n status State.mem fun _ _ _ _ => rfl
@[simp] theorem endLaunch_hub : (s.endLaunch n status).hub = s.hub := endLaunch_keeps s n status State.hub fun _ _ _ _ => rfl
@[simp] theorem endLaunch_die (d : Nat) : (s.endLaunch n status).die d = s.die d := endLaunch_keeps s n status (State.die · d) fun _ _ _ _ => rfl

theorem endLaunch_launch_other {m : Nat} (h : m ≠ n) : (s.endLaunch n status).launch m = s.launch m := by
  rcases endLaunch_cases s n status with e | ⟨l, hl, he⟩
  · rw [e]
  · obtain ⟨a, -, e⟩ := endLaunch_live status hl he
    rw [e]
    exact tabFind_tabSet_other _ _ h

end

section
variable {s : State} {n : Nat} (status : Nat) {l : Launch} (h : s.launch n = some l) (he : l.ending = none)
include h he

theorem endLaunch_launch : (s.endLaunch n status).launch n = some (endedWith status l) := by
  obtain ⟨a, -, e⟩ := endLaunch_live status h he
  rw [e]
  exact tabFind_tabSet_same _ _ _

theorem endLaunch_completion : (2 * s.tick + 1, .launchCompletion (BitVec.ofNat 16 n)) ∈ (s.endLaunch n status).agenda := by
  obtain ⟨a, ha, e⟩ := endLaunch_live status h he
  rw [e]
  exact ha

theorem endLaunch_core (k : Nat) : (s.endLaunch n status).core k = haltedBy n s.tick (s.core k) := by
  obtain ⟨a, -, e⟩ := endLaunch_live status h he
  rw [e]
  exact tabGet_map (haltedBy n s.tick) s.cores k {}

theorem endLaunch_job (q : Nat) (id : BitVec 48) : (s.endLaunch n status).job q id = (s.job q id).map (cancelledBy n) := by
  obtain ⟨a, -, e⟩ := endLaunch_live status h he
  have hc : (s.endLaunch n status).chan q = { s.chan q with jobs := (s.chan q).jobs.map (cancelledBy n) } := by
    rw [e]
    exact tabGet_map (fun c : Channel => { c with jobs := c.jobs.map (cancelledBy n) }) s.chans q {}
  have hid : ((fun j : Job => j.id == id) ∘ cancelledBy n) = fun j => j.id == id := by
    funext j
    simp only [Function.comp, cancelledBy]
    split <;> rfl
  rw [State.job, hc, List.find?_map, hid, State.job]

end
end Sys2Proof.Proofs
end

section
/-! PROOF. Machine checks, repair and lock-step mismatches (R228, R441 to R448). -/

namespace Sys2Proof.Proofs
open Sys2Proof Sys2Proof.Machine Sys2Proof.Laws

/-! ### What a squash leaves as it was -/

/-- A core without what a squash can change: its contexts, local store and queue registers. -/
def besideTricks (c : Core) : Core := { c with ctxs := [], store := [], q := [] }

/-- Tricks have been discarded or requests answered: the tick and memory stand, and of the cores all but what a squash can change. -/
structure OnlyTricks (s t : State) : Prop where
  tick : t.tick = s.tick
  mem : t.mem = s.mem
  core (j : Nat) : besideTricks (t.core j) = besideTricks (s.core j)

theorem OnlyTricks.refl (s : State) : OnlyTricks s s := ⟨rfl, rfl, fun _ => rfl⟩

theorem OnlyTricks.trans {s t u : State} (h : OnlyTricks s t) (g : OnlyTricks t u) : OnlyTricks s u :=
  ⟨g.tick.trans h.tick, g.mem.trans h.mem, fun j => (g.core j).trans (h.core j)⟩

theorem OnlyTricks.foldl {α : Type} {f : State → α → State} (h : ∀ s x, OnlyTricks s (f s x)) (l : List α) (s : State) : OnlyTricks s (l.foldl f s) :=
  List.foldlRecOn l f (OnlyTricks.refl s) fun t ht x _ => ht.trans (h t x)

theorem OnlyTricks.stopped {s t : State} (h : OnlyTricks s t) (j : Nat) : (t.core j).stopped = (s.core j).stopped := (congrArg Core.stopped (h.core j) :)
theorem OnlyTricks.parking {s t : State} (h : OnlyTricks s t) (j : Nat) : (t.core j).parking = (s.core j).parking := (congrArg Core.parking (h.core j) :)

theorem onlyTricks_post (s : State) (n : Nat) (i : Instr) : OnlyTricks s (s.post n i) := ⟨rfl, rfl, fun _ => rfl⟩

theorem onlyTricks_trumpGone (s : State) (k : Nat) (b : Bool) : OnlyTricks s (s.trumpGone k b) := by
  cases b
  · exact .refl s
  · exact onlyTricks_post s 0 _

theorem onlyTricks_dir (s : State) (d : Tab DirEntry) : OnlyTricks s { s with dir := d } := ⟨rfl, rfl, fun _ => rfl⟩

theorem onlyTricks_setCore (s : State) (k : Nat) (c : Core) (h : besideTricks c = besideTricks (s.core k)) : OnlyTricks s (s.setCore k c) :=
  ⟨rfl, rfl, fun j => core_modCore_keeps besideTricks s k j (fun _ => c) h⟩

theorem onlyTricks_modCtx (s : State) (k x : Nat) (f : Ctx → Ctx) : OnlyTricks s (s.modCtx k x f) := onlyTricks_setCore s k _ rfl

theorem onlyTricks_squash (s : State) (k x : Nat) (b : Bool) : OnlyTricks s (s.squash k x b) := by
  unfold State.squash
  dsimp only
  split
  · exact .refl s
  · refine OnlyTricks.trans ?_ (onlyTricks_trumpGone _ _ _)
    refine (onlyTricks_dir s _).trans (onlyTricks_setCore _ k _ ?_)
    rfl

theorem onlyTricks_discardTricks (s : State) (k : Nat) : OnlyTricks s (discardTricks s k) := by
  refine .foldl (fun t x => ?_) _ s
  have h := onlyTricks_squash t k x.1 false
  dsimp only
  split
  · exact h.trans ((onlyTricks_modCtx _ k x.1 _).trans (onlyTricks_trumpGone _ k true))
  · exact h

/-- The requests parked at a core are answered, and its table is empty (R202, R445). -/
theorem onlyTricks_bounceParked (s : State) (k : Nat) : OnlyTricks (s.modCore k fun c => { c with parking := [] }) (bounceParked s k) :=
  .foldl (fun t (e : Parked) => (onlyTricks_modCtx t e.core e.ctx _).trans (onlyTricks_post _ 256 _)) _ _

/-! ### Stopping cores -/

theorem stopCore_stays {s : State} {k : Nat} (h : (s.core k).stopped = true) : stopCore s k = s := if_pos h

/-- A core with its table of parked requests empty, that stands still and has met no mismatch. -/
def stoodStill (c : Core) : Core := { c with stopped := true, mismatch := [] }

theorem stopCore_running {s : State} {k : Nat} (h : (s.core k).stopped = false) :
    ∃ n, stopCore s k = ({ (bounceParked (discardTricks s k) k).modCore k stoodStill with freeCount := n + 1 } : State).post
      (2000 * Config.microsecond) (.coreRepair (cid k) (Config.selfTest n)) :=
  ⟨_, if_neg (by simp [h])⟩

section
variable {s : State} {k : Nat} (h : (s.core k).stopped = false)
include h

theorem stopCore_parking : ((stopCore s k).core k).parking = [] := by
  obtain ⟨n, e⟩ := stopCore_running h
  have hb := (onlyTricks_bounceParked (discardTricks s k) k).parking k
  rw [core_modCore] at hb
  rw [e, post_core]
  exact (congrArg Core.parking (core_modCore (bounceParked (discardTricks s k) k) k stoodStill)).trans hb

/-- A core that a check stops is repaired within 2 ms (R445). -/
theorem stopCore_repair : ∃ b, (2 * (s.tick + 2000 * Config.microsecond), .coreRepair (cid k) b) ∈ (stopCore s k).agenda := by
  obtain ⟨n, e⟩ := stopCore_running h
  have ht : (bounceParked (discardTricks s k) k).tick = s.tick :=
    (onlyTricks_bounceParked (discardTricks s k) k).tick.trans (onlyTricks_discardTricks s k).tick
  refine ⟨Config.selfTest n, ?_⟩
  rw [e, post_agenda, mem_agendaAdd, modCore_tick, ht]
  exact .inl rfl

end

@[simp] theorem stopCore_mem (s : State) (k : Nat) : (stopCore s k).mem = s.mem := by
  cases h : (s.core k).stopped with
  | true => rw [stopCore_stays h]
  | false =>
    obtain ⟨n, e⟩ := stopCore_running h
    rw [e]
    exact (onlyTricks_bounceParked (discardTricks s k) k).mem.trans (onlyTricks_discardTricks s k).mem

/-- A check of a core stops that core, and starts or stops no other (R444). -/
theorem stopCore_stopped (s : State) (k j : Nat) : ((stopCore s k).core j).stopped = true ↔ j = k ∨ (s.core j).stopped = true := by
  cases h : (s.core k).stopped with
  | true =>
    rw [stopCore_stays h]
    exact ⟨.inr, fun e => e.elim (fun e => e ▸ h) id⟩
  | false =>
    obtain ⟨n, e⟩ := stopCore_running h
    rw [e, post_core]
    by_cases hj : j = k
    · subst hj
      exact ⟨fun _ => .inl rfl, fun _ => congrArg Core.stopped (core_modCore (bounceParked (discardTricks s j) j) j stoodStill)⟩
    · have hs : ((bounceParked (discardTricks s k) k).core j).stopped = (s.core j).stopped := by
        rw [(onlyTricks_bounceParked _ k).stopped j, core_modCore_other _ _ hj, (onlyTricks_discardTricks s k).stopped j]
      have hc := congrArg Core.stopped (core_modCore_other (bounceParked (discardTricks s k) k) stoodStill hj)
      exact ⟨fun ht => .inr (hs.symm.trans (hc.symm.trans ht)), fun ht => hc.trans (hs.trans (ht.resolve_left hj))⟩

theorem stopCores_mem (l : List Nat) (s : State) : (l.foldl stopCore s).mem = s.mem := by
  induction l generalizing s with
  | nil => rfl
  | cons k l ih => rw [List.foldl_cons, ih, stopCore_mem]

theorem stopCores_stopped (l : List Nat) (s : State) (j : Nat) : ((l.foldl stopCore s).core j).stopped = true ↔ j ∈ l ∨ (s.core j).stopped = true := by
  induction l generalizing s with
  | nil => simp
  | cons k l ih => rw [List.foldl_cons, ih, stopCore_stopped, List.mem_cons]; tauto

/-- The machine check of a core that runs no launch is that of the core alone (R444). -/
theorem checkCore_alone {s : State} {k : Nat} (h : s.launchOf k = none) :
    checkCore s k = stopCore (s.discard (some (s.partOf k)) k ((s.core k).launch.getD 0) 0x02 1 []) k := by
  have hk : checkedCores (s.discard (some (s.partOf k)) k ((s.core k).launch.getD 0) 0x02 1 []) k = [k] := by
    rw [checkedCores, discard_launchOf, h]
  rw [checkCore, hk]
  rfl

/-- R444, R445: a checked core without a launch stands still with no request parked, and is repaired within 2 ms. -/
theorem checkCore_idle {s : State} {k : Nat} (h : (s.core k).stopped = false) (hl : s.launchOf k = none) : let t := checkCore s k
    (t.core k).stopped = true ∧ (t.core k).parking = [] ∧ t.mem = s.mem ∧
      ∃ b, (2 * (s.tick + 2000 * Config.microsecond), .coreRepair (cid k) b) ∈ t.agenda := by
  rw [checkCore_alone hl]
  have hd := (congrArg Core.stopped (discard_core s (some (s.partOf k)) k ((s.core k).launch.getD 0) 0x02 1 [] k)).trans h
  refine ⟨(stopCore_stopped _ k k).2 (.inl rfl), stopCore_parking hd, (stopCore_mem _ k).trans (discard_mem ..), ?_⟩
  have hr := stopCore_repair hd
  rwa [discard_tick] at hr

/-- R444: the check of a quad stops its four cores. -/
theorem checkQuad_stops (s : State) (q : Nat) : (checkQuad s q).mem = s.mem ∧ ∀ i, i < 4 → ((checkQuad s q).core (4 * q + i)).stopped = true := by
  refine ⟨(stopCores_mem _ _).trans (discard_mem ..), fun i hi => (stopCores_stopped _ _ _).2 (.inl ?_)⟩
  interval_cases i <;> simp

/-! ### The check of a partition -/

/-- The ring of a die with `p` takes no more (R481). -/
def freeze (p : Nat → Bool) (s : State) (d : Nat) : State := if p d then s.modDie d fun x => { x with frozen := true } else s

theorem freeze_eq (p : Nat → Bool) (s : State) (d : Nat) : ∃ x, freeze p s d = { s with dies := x } := by
  unfold freeze
  split
  · exact ⟨_, rfl⟩
  · exact ⟨_, rfl⟩

theorem freeze_frozen (p : Nat → Bool) (s : State) (d j : Nat) :
    ((freeze p s d).die j).frozen = true ↔ (j = d ∧ p d = true) ∨ (s.die j).frozen = true := by
  unfold freeze
  split_ifs with hp
  · by_cases hj : j = d
    · subst hj; simp [hp]
    · simp [die_modDie_other s _ hj, hj]
  · simp [hp]

theorem foldl_freeze_eq (p : Nat → Bool) (l : List Nat) (s : State) : ∃ x, l.foldl (freeze p) s = { s with dies := x } :=
  List.foldlRecOn l (freeze p) (motive := fun t => ∃ x, t = { s with dies := x }) ⟨_, rfl⟩ fun t ⟨x, h⟩ d _ => by
    obtain ⟨y, e⟩ := freeze_eq p t d
    exact ⟨y, by rw [e, h]⟩

theorem foldl_freeze_frozen (p : Nat → Bool) (l : List Nat) (s : State) (j : Nat) :
    ((l.foldl (freeze p) s).die j).frozen = true ↔ (j ∈ l ∧ p j = true) ∨ (s.die j).frozen = true := by
  induction l generalizing s with
  | nil => simp
  | cons d l ih =>
    rw [List.foldl_cons, ih, freeze_frozen, List.mem_cons]
    constructor
    · rintro (⟨h, hp⟩ | ⟨rfl, hp⟩ | h)
      exacts [.inl ⟨.inr h, hp⟩, .inl ⟨.inl rfl, hp⟩, .inr h]
    · rintro (⟨rfl | h, hp⟩ | h)
      exacts [.inr (.inl ⟨rfl, hp⟩), .inl ⟨h, hp⟩, .inr (.inr h)]

/-- The state of a checked partition in which its event is recorded and its rings are frozen (R444, R481). -/
def partitionFrozen (s : State) (p : Nat) : State :=
  (List.range 4).foldl (freeze (s.part p).hasDie) (s.discard (some p) Config.hub 0 0x02 3 [])

theorem partitionFrozen_eq (s : State) (p : Nat) : ∃ d, partitionFrozen s p = { s with dies := d } := by
  obtain ⟨x, hx⟩ := discard_eq s (some p) Config.hub 0 0x02 3 []
  obtain ⟨y, hy⟩ := foldl_freeze_eq (s.part p).hasDie (List.range 4) (s.discard (some p) Config.hub 0 0x02 3 [])
  exact ⟨y, by rw [partitionFrozen, hy, hx]⟩

theorem checkPartition_eq (s : State) (p : Nat) : checkPartition s p = (s.launchesOf p).foldl (fun s n => s.endLaunch n 3) (partitionFrozen s p) := by
  have hf : ∀ (l : List Nat) (t : State), t.hub = s.hub →
      l.foldl (fun s d => if (s.part p).hasDie d then s.modDie d fun x => { x with frozen := true } else s) t = l.foldl (freeze (s.part p).hasDie) t := by
    intro l
    induction l with
    | nil => exact fun _ _ => rfl
    | cons d l ih =>
      intro t ht
      have hp : t.part p = s.part p := by rw [State.part, ht]; rfl
      obtain ⟨x, hx⟩ := freeze_eq (s.part p).hasDie t d
      rw [List.foldl_cons, List.foldl_cons, hp]
      exact ih (freeze (s.part p).hasDie t d) (by rw [hx]; exact ht)
  have hl : (partitionFrozen s p).launchesOf p = s.launchesOf p := by
    obtain ⟨d, h⟩ := partitionFrozen_eq s p
    rw [h]
    rfl
  rw [checkPartition, hf _ _ (discard_hub ..), ← hl]
  rfl

theorem endLaunches_keeps {α : Type} (g : State → α) (h : ∀ s n, g (s.endLaunch n 3) = g s) (l : List Nat) (s : State) :
    g (l.foldl (fun s n => s.endLaunch n 3) s) = g s :=
  List.foldlRecOn l _ (motive := fun t => g t = g s) rfl fun t ht n _ => (h t n).trans ht

@[simp] theorem checkPartition_mem (s : State) (p : Nat) : (checkPartition s p).mem = s.mem := by
  obtain ⟨d, h⟩ := partitionFrozen_eq s p
  rw [checkPartition_eq, endLaunches_keeps State.mem (fun _ _ => endLaunch_mem ..), h]

@[simp] theorem checkPartition_hub (s : State) (p : Nat) : (checkPartition s p).hub = s.hub := by
  obtain ⟨d, h⟩ := partitionFrozen_eq s p
  rw [checkPartition_eq, endLaunches_keeps State.hub (fun _ _ => endLaunch_hub ..), h]

/-- R444, R481: the rings of a checked partition's dies freeze. -/
theorem checkPartition_frozen {s : State} {p d : Nat} (hd : d < 4) (h : (s.part p).hasDie d = true) : ((checkPartition s p).die d).frozen = true := by
  rw [checkPartition_eq, endLaunches_keeps (State.die · d) (fun _ _ => endLaunch_die ..), partitionFrozen, foldl_freeze_frozen]
  exact .inl ⟨List.mem_range.2 hd, h⟩

/-- Of launches that end in turn, a live one ends with that status. -/
theorem endLaunches_launch {l : List Nat} {n : Nat} (hn : n ∈ l) {s : State} {v : Launch} (h : s.launch n = some v) (he : v.ending = none) :
    (l.foldl (fun s n => s.endLaunch n 3) s).launch n = some (endedWith 3 v) := by
  induction l generalizing s with
  | nil => cases hn
  | cons m l ih =>
    rw [List.foldl_cons]
    by_cases hm : n = m
    · subst hm
      have h3 := endLaunch_launch 3 h he
      exact List.foldlRecOn l _ (motive := fun t : State => t.launch n = some (endedWith 3 v)) h3 fun t ht k _ => by
        by_cases hk : n = k
        · subst hk; rw [endLaunch_ending ht rfl, ht]
        · rw [endLaunch_launch_other t k 3 hk, ht]
    · exact ih ((List.mem_cons.1 hn).resolve_left hm) (by rw [endLaunch_launch_other s m 3 hm, h])

/-- R444: the live launches of a checked partition end with status 3. -/
theorem checkPartition_launch {s : State} {p n : Nat} {l : Launch} (h : s.launch n = some l) (hp : l.part = p) (he : l.ending = none) :
    (checkPartition s p).launch n = some (endedWith 3 l) := by
  have hn : n ∈ s.launchesOf p := by
    refine List.mem_map.2 ⟨(n, l), List.mem_filter.2 ⟨mem_of_tabFind h, ?_⟩, rfl⟩
    rw [hp]
    exact beq_self_eq_true p
  have hf : (partitionFrozen s p).launch n = some l := by
    obtain ⟨d, hd⟩ := partitionFrozen_eq s p
    rw [hd]
    exact h
  rw [checkPartition_eq, endLaunches_launch hn hf he]

/-! ### Repair -/

section
variable {s : State} {c : CoreId} (h : (s.core c.toNat).stopped = true)
include h

/-- R445: a core whose readout and self-test are clean resumes in place. -/
theorem exec_coreRepair_clean : exec (.coreRepair c true) s =
    .next ((s.setCore c.toNat { s.core c.toNat with stopped := false }).post 0 (.trumpAdmission (BitVec.ofNat 2 (s.partOf c.toNat)))) :=
  if_neg (by simp [h])

/-- R18, R445: a spare of the die takes the index of a core that is not clean. -/
theorem exec_coreRepair_spare (hs : 0 < (s.die (dieOf c.toNat)).spares) : ∃ t, exec (.coreRepair c false) s = .next t ∧
    t.core c.toNat = { s.core c.toNat with stopped := false, spare := true } ∧
    (t.die (dieOf c.toNat)).spares = (s.die (dieOf c.toNat)).spares - 1 ∧ t.mem = s.mem := by
  have e : exec (.coreRepair c false) s = .next ((((dropLines s c.toNat fun _ => true).modDie (dieOf c.toNat) fun d =>
      { d with spares := d.spares - 1 }).setCore c.toNat { s.core c.toNat with stopped := false, spare := true }).post 0
        (.trumpAdmission (BitVec.ofNat 2 (s.partOf c.toNat)))) :=
    (if_neg (by simp [h])).trans (if_pos hs)
  refine ⟨_, e, core_setCore .., ?_, rfl⟩
  exact congrArg Die.spares (die_modDie (dropLines s c.toNat fun _ => true) (dieOf c.toNat) fun d => { d with spares := d.spares - 1 })

/-- R445: with no spare left the launch of a core that is not clean ends with status 3. -/
theorem exec_coreRepair_lost {n : Nat} (hs : (s.die (dieOf c.toNat)).spares = 0) (hn : (s.core c.toNat).launch = some n) :
    exec (.coreRepair c false) s = .next (s.endLaunch n 3) := by
  have h0 : ¬ (s.die (dieOf c.toNat)).spares > 0 := by omega
  refine (if_neg (by simp [h])).trans ((if_neg h0).trans ?_)
  rw [hn]

end

/-! ### Mismatches in lock step -/

/-- A context of which a trap waits to be taken stands at its unit again (R448); `w` is how it stood before the event. -/
def restood (now : Nat) (w v : Ctx) : Ctx :=
  match w.life with
  | .blocked (.trapEntry t) => { v with
      life := .ready, readyAt := now + 1, pc := v.unit.addr
      retire := if t.cause = .breakpoint ∨ t.cause = .trap then v.retire - 1#64 else v.retire }
  | _ => v

theorem restood_trap {now : Nat} {w : Ctx} {t : TrapInfo} (v : Ctx) (h : w.life = .blocked (.trapEntry t)) : restood now w v = { v with
    life := .ready, readyAt := now + 1, pc := v.unit.addr
    retire := if t.cause = .breakpoint ∨ t.cause = .trap then v.retire - 1#64 else v.retire } := by
  rw [restood, h]

theorem restood_other {now : Nat} {w : Ctx} (v : Ctx) (h : ∀ t, w.life ≠ .blocked (.trapEntry t)) : restood now w v = v := by
  unfold restood
  split
  · rename_i t ht
    exact absurd ht (h t)
  · rfl

theorem ctx_modCtx_other (s : State) (k : Nat) {x y : Nat} (f : Ctx → Ctx) (h : y ≠ x) : (s.modCtx k x f).ctx k y = s.ctx k y := by
  rw [State.ctx, core_modCtx, core_ctx_setCtx_other _ _ h]
  rfl

/-- One context of a core stands at its unit again, if its trap waits. -/
def untrapOne (k : Nat) (s : State) (p : Nat × Ctx) : State :=
  match p.2.life with
  | .blocked (.trapEntry t) => s.modCtx k p.1 fun v => { v with
      life := .ready, readyAt := s.tick + 1, pc := v.unit.addr
      retire := if t.cause = .breakpoint ∨ t.cause = .trap then v.retire - 1#64 else v.retire }
  | _ => s

theorem untrap_eq (s : State) (k : Nat) : untrap s k = (s.core k).ctxs.foldl (untrapOne k) s := rfl

@[simp] theorem untrapOne_tick (k : Nat) (s : State) (p : Nat × Ctx) : (untrapOne k s p).tick = s.tick := by
  unfold untrapOne
  split <;> rfl

theorem untrapOne_ctx (k : Nat) (s : State) (p : Nat × Ctx) (y : Nat) :
    (untrapOne k s p).ctx k y = if y = p.1 then restood s.tick p.2 (s.ctx k y) else s.ctx k y := by
  unfold untrapOne restood
  split_ifs with hy
  · subst hy
    split
    · exact ctx_modCtx ..
    · rfl
  · split
    · exact ctx_modCtx_other s k _ hy
    · rfl

theorem foldl_untrapOne_ctx (k : Nat) {l : Tab Ctx} {lo : Option Nat} (h : keysFrom lo l = true) (s : State) (y : Nat) :
    (l.foldl (untrapOne k) s).ctx k y = (tabFind l y).elim (s.ctx k y) fun w => restood s.tick w (s.ctx k y) := by
  induction l generalizing s lo with
  | nil => rfl
  | cons p l ih =>
    simp only [keysFrom, Bool.and_eq_true] at h
    rw [List.foldl_cons, ih h.2, untrapOne_ctx, untrapOne_tick, tabFind]
    by_cases hy : y = p.1
    · rw [if_pos hy, if_pos hy, tabFind_below h.2 (Nat.le_of_eq hy)]
      rfl
    · rw [if_neg hy, if_neg hy]
      split_ifs with hlt
      · rw [tabFind_below h.2 (Nat.le_of_lt hlt)]
      · rfl

/-- R448: every context of the core stands again at the unit whose trap is not taken, and the others stand as they did. -/
theorem untrap_ctx {s : State} {k : Nat} (h : tabWf (s.core k).ctxs = true) (y : Nat) : (untrap s k).ctx k y = restood s.tick (s.ctx k y) (s.ctx k y) := by
  rw [untrap_eq, foldl_untrapOne_ctx k h]
  cases ht : tabFind (s.core k).ctxs y with
  | none =>
    have hv : s.ctx k y = {} := by rw [State.ctx, Core.ctx, tabGet, ht]; rfl
    rw [hv]
    rfl
  | some w =>
    have hv : s.ctx k y = w := by rw [State.ctx, Core.ctx, tabGet, ht]; rfl
    rw [hv]
    rfl

/-- The current tricks of the contexts of a core, by the tick of their first attempt (R443). -/
def trickAges (c : Core) : Tab Nat := c.ctxs.filterMap fun p => p.2.trickAge.map fun a => (p.1, a)

/-- R228, R443: a mismatch is tried again once; it is the machine check of the pair when a trick has met one before. -/
theorem exec_lockstepMismatch {s : State} {c : CoreId} {code : BitVec 8} {l : Launch} (hl : s.launchOf (c.toNat - c.toNat % 2) = some l)
    (hk : l.lock = true) : let k := c.toNat - c.toNat % 2; let u := untrap s k
    let d := discardTricks (u.discard (some (u.partOf k)) k l.tag 0x03 code.toNat []) k
    exec (.lockstepMismatch c code) s = .next (if (trickAges (u.core k)).any fun p => tabFind (u.core k).mismatch p.1 == some p.2 then checkCore d k
      else d.modCore k fun c => { c with mismatch := trickAges (u.core k) }) := by
  show execLockstepMismatch c code s = _
  unfold execLockstepMismatch
  dsimp only
  rw [hl]
  exact if_neg (by simp [hk])

/-- Settles O54: what a check stops, ends or freezes, what a repair leaves, what the end of a launch changes, and when a mismatch is tried again. -/
theorem checksAndRepair : Obligations.ChecksAndRepair := by
  refine ⟨fun s c hs hl => ?_, fun s q => ?_, fun s p => ?_, fun s c hs => ?_, fun s n status l h he => ?_,
    fun s c code l hl hk => ⟨fun y hw => ?_, ?_, ?_⟩⟩
  · exact ⟨checkCore s c.toNat, rfl, rfl, checkCore_idle hs hl⟩
  · exact ⟨checkQuad s q.toNat, rfl, checkQuad_stops s q.toNat⟩
  · exact ⟨checkPartition s p.toNat, rfl, checkPartition_mem .., fun d => checkPartition_frozen,
      fun _ n l h hp he => ⟨_, checkPartition_launch h hp he, rfl⟩⟩
  · exact ⟨exec_coreRepair_clean hs, exec_coreRepair_spare hs, fun h0 n hn => exec_coreRepair_lost hs h0 hn⟩
  · refine ⟨endLaunch_mem .., ⟨_, endLaunch_launch status h he, rfl⟩, endLaunch_completion status h he, funext fun k => ?_, fun q id => ?_⟩
    · simp only [endLaunch_core status h he, haltedBy, beq_iff_eq]
    · rw [endLaunch_job status h he]
      exact congrArg (Option.map · _) (funext fun j => by simp only [cancelledBy, beq_iff_eq])
  · rw [untrap_ctx hw]
    exact ⟨restood_other _, fun i hi => restood_trap _ hi⟩
  · intro hn
    refine (exec_lockstepMismatch hl hk).trans (congrArg _ (if_neg fun ha => ?_))
    obtain ⟨p, hp, hm⟩ := List.any_eq_true.1 ha
    exact hn p hp (beq_iff_eq.1 hm)
  · rintro ⟨p, hp, hm⟩
    refine (exec_lockstepMismatch hl hk).trans (congrArg _ (if_pos ?_))
    exact List.any_eq_true.2 ⟨p, hp, beq_iff_eq.2 hm⟩

end Sys2Proof.Proofs
end

section
/-! PROOF. Cooling and gating (R95, R474, R475). -/

namespace Sys2Proof.Proofs
open Sys2Proof Sys2Proof.Machine Sys2Proof.Laws

/-! ### The thermal stage -/

section
variable {stage j : Nat} {hot cool : Bool}

theorem nextStage_trip (h : 115 ≤ j) : nextStage stage j hot cool = 3 := if_pos h

theorem nextStage_throttled (h : 105 ≤ j) (h1 : j < 115) : nextStage stage j hot cool = max stage 2 :=
  (if_neg (by omega)).trans (if_pos h)

theorem nextStage_warm (h : j < 105) (hw : 95 ≤ j ∨ hot = true) : nextStage stage j hot cool = if stage = 2 ∧ cool = true then 1 else max stage 1 :=
  (if_neg (by omega)).trans ((if_neg (by omega)).trans (if_pos hw))

theorem nextStage_calm (h : j < 95) (hh : hot = false) : nextStage stage j hot cool =
    if stage = 2 then (if cool then 1 else 2) else if stage = 1 then (if cool then 0 else 1) else stage :=
  (if_neg (by omega)).trans ((if_neg (by omega)).trans (if_neg (by simp [hh]; omega)))

/-- Below 105 °C stage 2 is left only once its condition for leaving has held (R474). -/
theorem nextStage_two (h : j < 105) : nextStage 2 j hot cool = if cool then 1 else 2 := by
  by_cases hw : 95 ≤ j ∨ hot = true
  · rw [nextStage_warm h hw]
    cases cool <;> rfl
  · rw [not_or, Bool.not_eq_true] at hw
    exact nextStage_calm (by omega) hw.2

/-- Below 105 °C stage 1 stays while its condition for leaving has not held (R474). -/
theorem nextStage_one (h : j < 105) (hc : cool = false) : nextStage 1 j hot cool = 1 := by
  subst hc
  by_cases hw : 95 ≤ j ∨ hot = true
  · rw [nextStage_warm h hw]
    rfl
  · rw [not_or, Bool.not_eq_true] at hw
    exact nextStage_calm (by omega) hw.2

/-- Below 115 °C a stage stays, or the new one is not that of a trip (R474). -/
theorem nextStage_untripped (h : j < 115) : nextStage stage j hot cool = stage ∨ nextStage stage j hot cool < 3 := by
  unfold nextStage
  split_ifs <;> omega

end

/-! ### The condition for leaving a stage -/

/-- Since when the condition for leaving the stage has held, after a sample (R474). -/
def coolingSince (s : State) (j : Nat) (cold : Bool) : Option Nat :=
  if cooling s.hub.stage j cold then some (s.hub.coolSince.getD s.tick) else none

/-- Whether a condition that has held since a tick has held for 1 ms (R474). -/
def heldFor1ms (now : Nat) : Option Nat → Bool
  | some t => decide (t + 1000 * Config.microsecond ≤ now)
  | none => false

theorem heldFor1ms_since {now t : Nat} (h : t + 1000 * Config.microsecond ≤ now) : heldFor1ms now (some t) = true := decide_eq_true h

theorem heldFor1ms_now (now : Nat) : heldFor1ms now (some now) = false := by
  have h : 0 < 1000 * Config.microsecond := by decide
  exact decide_eq_false (by omega)

section
variable {s : State} {j : Nat} {cold : Bool}

theorem coolingSince_none (h : cooling s.hub.stage j cold = false) : coolingSince s j cold = none := if_neg (by simp [h])

theorem coolingSince_some (h : cooling s.hub.stage j cold = true) : coolingSince s j cold = some (s.hub.coolSince.getD s.tick) := if_pos h

theorem coolingSince_two_hot (hs : s.hub.stage = 2) (h : 100 ≤ j) : coolingSince s j cold = none :=
  coolingSince_none (by simpa [cooling, hs] using h)

theorem coolingSince_one_hot (hs : s.hub.stage = 1) (h : 90 ≤ j) : coolingSince s j cold = none :=
  coolingSince_none (by simp [cooling, hs]; omega)

theorem coolingSince_two_cool (hs : s.hub.stage = 2) (h : j < 100) : coolingSince s j cold = some (s.hub.coolSince.getD s.tick) :=
  coolingSince_some (by simpa [cooling, hs] using h)

theorem coolingSince_one_cool (hs : s.hub.stage = 1) (h : j < 90) : coolingSince s j true = some (s.hub.coolSince.getD s.tick) :=
  coolingSince_some (by simpa [cooling, hs] using h)

end

/-! ### The stage after a sample -/

/-- The stage after a sample. -/
def stageAfter (s : State) (js : List Nat) (hot cold : Bool) : Nat :=
  nextStage s.hub.stage (js.foldl max 0) hot (heldFor1ms s.tick (coolingSince s (js.foldl max 0) cold))

section
variable {s : State} {js : List Nat} {hot cold : Bool} {j : Nat} (hj : js.foldl max 0 = j)
include hj

theorem stageAfter_eq {n : Nat} {o : Option Nat} (hs : s.hub.stage = n) (ho : coolingSince s j cold = o) :
    stageAfter s js hot cold = nextStage n j hot (heldFor1ms s.tick o) := by
  rw [stageAfter, hj, ho, hs]

theorem stageAfter_trip (h : 115 ≤ j) : stageAfter s js hot cold = 3 := (stageAfter_eq hj rfl rfl).trans (nextStage_trip h)

theorem stageAfter_untripped (h : j < 115) : stageAfter s js hot cold = s.hub.stage ∨ stageAfter s js hot cold < 3 := by
  rw [stageAfter_eq hj rfl rfl]
  exact nextStage_untripped h

theorem stageAfter_throttled (h : 105 ≤ j) (h1 : j < 115) (hs : s.hub.stage < 3) : stageAfter s js hot cold = 2 := by
  rw [stageAfter_eq hj rfl rfl, nextStage_throttled h h1]
  omega

theorem stageAfter_warm (h : j < 105) (hw : 95 ≤ j ∨ hot = true) (hs : s.hub.stage < 2) : stageAfter s js hot cold = 1 := by
  rw [stageAfter_eq hj rfl rfl, nextStage_warm h hw, if_neg fun hc => absurd hc.1 (Nat.ne_of_lt hs)]
  omega

theorem stageAfter_calm (h : j < 95) (hh : hot = false) (hs : s.hub.stage = 0) : stageAfter s js hot cold = 0 := by
  rw [stageAfter_eq hj hs rfl, nextStage_calm h hh]
  rfl

theorem stageAfter_one_stays (h : 90 ≤ j) (h1 : j < 105) (hs : s.hub.stage = 1) : stageAfter s js hot cold = 1 :=
  (stageAfter_eq hj hs (coolingSince_one_hot hs h)).trans (nextStage_one h1 rfl)

theorem stageAfter_two_stays (h : 100 ≤ j) (h1 : j < 115) (hs : s.hub.stage = 2) : stageAfter s js hot cold = 2 := by
  by_cases h5 : 105 ≤ j
  · exact stageAfter_throttled hj h5 h1 (by omega)
  · exact (stageAfter_eq hj hs (coolingSince_two_hot hs h)).trans (nextStage_two (by omega))

/-- R474: stage 2 is left once the junctions have stayed below 100 °C for 1 ms. -/
theorem stageAfter_two_cooled (h : j < 100) (hs : s.hub.stage = 2) {t : Nat} (ht : s.hub.coolSince = some t)
    (hl : t + 1000 * Config.microsecond ≤ s.tick) : stageAfter s js hot cold = 1 := by
  have ho := coolingSince_two_cool (cold := cold) hs h
  rw [ht, Option.getD_some] at ho
  rw [stageAfter_eq hj hs ho, nextStage_two (by omega), heldFor1ms_since hl]
  rfl

/-- R474: stage 1 is left once the junctions have stayed below 90 °C and power below 2,600 W for 1 ms. -/
theorem stageAfter_one_cooled (h : j < 90) (hh : hot = false) (hs : s.hub.stage = 1) {t : Nat} (ht : s.hub.coolSince = some t)
    (hl : t + 1000 * Config.microsecond ≤ s.tick) : stageAfter s js hot true = 0 := by
  have ho := coolingSince_one_cool hs h
  rw [ht, Option.getD_some] at ho
  rw [stageAfter_eq hj hs ho, nextStage_calm (by omega) hh, heldFor1ms_since hl]
  rfl

/-- R474: the sample that first meets the condition for leaving stage 2 starts its 1 ms. -/
theorem stageAfter_two_cooling (h : j < 100) (hs : s.hub.stage = 2) (hn : s.hub.coolSince = none) :
    stageAfter s js hot cold = 2 ∧ coolingSince s j cold = some s.tick := by
  have ho := coolingSince_two_cool (cold := cold) hs h
  rw [hn, Option.getD_none] at ho
  refine ⟨?_, ho⟩
  rw [stageAfter_eq hj hs ho, nextStage_two (by omega), heldFor1ms_now]
  rfl

end

/-! ### Samples -/

/-- The hub after a sample, power apart (R474). -/
def sampledHub (s : State) (js : List Nat) (hot cold : Bool) : Hub :=
  { s.hub with
    sensors := js, stage := stageAfter s js hot cold
    coolSince := if stageAfter s js hot cold = s.hub.stage then coolingSince s (js.foldl max 0) cold else none }

/-- A trip: every partition stops, power is removed, and only what comes from outside is left (R474). -/
def tripped (s : State) : State :=
  let t := (List.range 4).foldl (fun s p => if (s.part p).mode = 0 then s else checkPartition s p) s
  { t.modHub (fun h => { h with removed := true }) with agenda := t.agenda.filter fun e => fromOutside e.2 }

theorem exec_thermalSample {s : State} (js : List Nat) (hot cold : Bool) (h : s.hub.removed = false) :
    exec (.thermalSample js hot cold) s =
      let n := stageAfter s js hot cold
      let t := s.modHub fun _ => sampledHub s js hot cold
      let u := t.discard none Config.hub 0 0x08 n (js.map (BitVec.ofNat 64))
      if n = s.hub.stage then .next t else if n < 3 then .next u else .next (tripped u) :=
  if_neg (by simp [h])

/-- A trip keeps memory and of the hub all but power. -/
theorem tripped_keeps (s : State) : (tripped s).mem = s.mem ∧ (tripped s).hub = { s.hub with removed := true } := by
  have h := List.foldlRecOn (List.range 4) (fun (s : State) p => if (s.part p).mode = 0 then s else checkPartition s p) (b := s)
    (motive := fun t : State => t.mem = s.mem ∧ t.hub = s.hub) ⟨rfl, rfl⟩ fun t ⟨hm, hh⟩ p _ => by
      split
      · exact ⟨hm, hh⟩
      · exact ⟨(checkPartition_mem t p).trans hm, (checkPartition_hub t p).trans hh⟩
  exact ⟨h.1, congrArg (fun h : Hub => { h with removed := true }) h.2⟩

theorem tripped_outside (s : State) : ∀ e ∈ (tripped s).agenda, fromOutside e.2 = true := fun _ he => (List.mem_filter.1 he).2

/-- What a sample leaves: the new stage, and with it what a trip does or all as it was. -/
theorem thermalSample_leaves {s : State} (js : List Nat) (hot cold : Bool) (h : s.hub.removed = false) : let n := stageAfter s js hot cold
    ∃ t r, exec (.thermalSample js hot cold) s = .next t ∧ t.mem = s.mem ∧ t.hub = { sampledHub s js hot cold with removed := r } ∧
      (n = s.hub.stage ∨ n < 3 → r = false ∧ t.cores = s.cores ∧ t.launches = s.launches ∧ t.agenda = s.agenda) ∧
      (n ≠ s.hub.stage → 3 ≤ n → r = true ∧ ∀ e ∈ t.agenda, fromOutside e.2 = true) := by
  intro n
  have hr : sampledHub s js hot cold = { sampledHub s js hot cold with removed := false } := by rw [← h]; rfl
  rw [exec_thermalSample js hot cold h]
  dsimp only
  split_ifs with hs h3
  · exact ⟨_, false, rfl, rfl, hr, fun _ => ⟨rfl, rfl, rfl, rfl⟩, fun hn => absurd hs hn⟩
  · exact ⟨_, false, rfl, discard_mem .., (discard_hub ..).trans hr, fun _ => ⟨rfl, discard_cores .., discard_launches .., discard_agenda ..⟩,
      fun _ hn => absurd h3 (Nat.not_lt.2 hn)⟩
  · obtain ⟨hm, hh⟩ := tripped_keeps ((s.modHub fun _ => sampledHub s js hot cold).discard none Config.hub 0 0x08 n (js.map (BitVec.ofNat 64)))
    exact ⟨_, true, rfl, hm.trans (discard_mem ..), by rw [hh, discard_hub]; rfl, fun hn => absurd hn (by simp [n, hs, h3]),
      fun _ _ => ⟨rfl, tripped_outside _⟩⟩

theorem exec_thermalSample_removed {s : State} (js : List Nat) (hot cold : Bool) (h : s.hub.removed = true) :
    exec (.thermalSample js hot cold) s = .next (s.modHub fun h => { h with sensors := js }) := if_pos h

/-- R444, R474: what a sample does while the package has power. -/
theorem thermalSample_stages {s : State} (js : List Nat) (hot cold : Bool) (hr : s.hub.removed = false) : let h := s.hub; let j := js.foldl max 0
    ∃ t, exec (.thermalSample js hot cold) s = .next t ∧ t.mem = s.mem ∧ t.hub.sensors = js ∧
      (115 ≤ j → h.stage < 3 → t.hub.stage = 3 ∧ t.hub.removed = true ∧ ∀ e ∈ t.agenda, fromOutside e.2 = true) ∧
      (j < 115 → t.hub.removed = false ∧ t.cores = s.cores ∧ t.launches = s.launches ∧ t.agenda = s.agenda) ∧
      t.hub.stage = stageAfter s js hot cold ∧
      (stageAfter s js hot cold = h.stage → t.hub.coolSince = coolingSince s j cold) := by
  obtain ⟨t, r, he, hm, hh, hstay, htrip⟩ := thermalSample_leaves js hot cold hr
  refine ⟨t, he, hm, by rw [hh]; rfl, fun hj hs => ?_, fun hj => ?_, by rw [hh]; rfl, fun hn => by rw [hh]; exact if_pos hn⟩
  · have h3 : stageAfter s js hot cold = 3 := stageAfter_trip rfl hj
    obtain ⟨rfl, ho⟩ := htrip (by omega) h3.ge
    exact ⟨by rw [hh]; exact h3, by rw [hh], ho⟩
  · obtain ⟨rfl, hkeep⟩ := hstay (stageAfter_untripped rfl hj)
    exact ⟨by rw [hh], hkeep⟩

/-! ### Gating -/

/-- A core, whether it is gated or sleeping apart. -/
def besideGating (c : Core) : Core := { c with gated := none, asleep := false }

/-- Nothing that a unit can see has changed, and nothing due is lost (R475). -/
structure OnlyGating (s t : State) : Prop where
  mem : t.mem = s.mem
  hub : t.hub = s.hub
  launches : t.launches = s.launches
  agenda : ∀ e ∈ s.agenda, e ∈ t.agenda
  core (k : Nat) : besideGating (t.core k) = besideGating (s.core k)

theorem OnlyGating.refl (s : State) : OnlyGating s s := ⟨rfl, rfl, rfl, fun _ h => h, fun _ => rfl⟩

theorem OnlyGating.post {s t : State} (h : OnlyGating s t) (n : Nat) (i : Instr) : OnlyGating s (t.post n i) :=
  ⟨h.mem, h.hub, h.launches, fun e he => (mem_agendaAdd ..).2 (.inr (h.agenda e he)), h.core⟩

theorem onlyGating_modCore (s : State) (k : Nat) (f : Core → Core) (h : besideGating (f (s.core k)) = besideGating (s.core k)) :
    OnlyGating s (s.modCore k f) :=
  ⟨rfl, rfl, rfl, fun _ h => h, fun j => core_modCore_keeps besideGating s k j f h⟩

theorem onlyGating_modDie (s : State) (d : Nat) (f : Die → Die) : OnlyGating s (s.modDie d f) := ⟨rfl, rfl, rfl, fun _ h => h, fun _ => rfl⟩
theorem onlyGating_modQuad (s : State) (q : Nat) (f : Quad → Quad) : OnlyGating s (s.modQuad q f) := ⟨rfl, rfl, rfl, fun _ h => h, fun _ => rfl⟩

/-- An agent marked as gated, as sleeping, and as neither (R475). -/
def gateMark (s : State) : PowerAgent → State
  | .core k => s.modCore k.toNat fun c => { c with gated := some s.tick }
  | .engine d e => s.modDie d.toNat fun x => { x with engGated := tabSet x.engGated e.toNat s.tick }
  | .quadUnits q => s.modQuad q.toNat fun u => { u with gated := some s.tick }

def sleepMark (s : State) : PowerAgent → State
  | .core k => if gatedLong s (s.core k.toNat).gated then s.modCore k.toNat fun c => { c with asleep := true } else s
  | .engine d e => if gatedLong s (tabFind (s.die d.toNat).engGated e.toNat) && !(s.die d.toNat).engAsleep.contains e.toNat then
      s.modDie d.toNat fun x => { x with engAsleep := x.engAsleep ++ [e.toNat] } else s
  | .quadUnits q => if gatedLong s (s.quad q.toNat).gated then s.modQuad q.toNat fun u => { u with asleep := true } else s

def wakeMark (s : State) : PowerAgent → State
  | .core k => wakeAgent s k.toNat
  | .engine d e => s.modDie d.toNat fun x => { x with engGated := tabErase x.engGated e.toNat, engAsleep := x.engAsleep.filter (· != e.toNat) }
  | .quadUnits q => wakeQuad s q.toNat

theorem gatedLong_eq (s : State) (g : Option Nat) : gatedLong s g = heldFor1ms s.tick g := by cases g <;> rfl

theorem exec_agentGate (s : State) (a : PowerAgent) : exec (.agentGate a) s =
    .next (if !s.hub.gate || !gateable s a then s else (gateMark s a).post (1000 * Config.microsecond) (.agentSleep a)) := by
  rw [apply_ite Host.Outcome.next]
  cases a <;> rfl

theorem exec_agentSleep (s : State) (a : PowerAgent) : exec (.agentSleep a) s = .next (if !(s.hub.gate && s.hub.sleep) then s else sleepMark s a) := by
  rw [apply_ite Host.Outcome.next]
  cases a <;> rfl

theorem exec_agentWake (s : State) (a : PowerAgent) : exec (.agentWake a) s = .next (wakeMark s a) := by cases a <;> rfl

theorem onlyGating_gateMark (s : State) (a : PowerAgent) : OnlyGating s (gateMark s a) := by
  cases a with
  | core k => rw [gateMark]; exact onlyGating_modCore s _ _ rfl
  | engine d e => rw [gateMark]; exact onlyGating_modDie s _ _
  | quadUnits q => rw [gateMark]; exact onlyGating_modQuad s _ _

theorem OnlyGating.ite {s t : State} (c : Prop) [Decidable c] (h : OnlyGating s t) : OnlyGating s (if c then t else s) := by
  split
  · exact h
  · exact .refl s

theorem onlyGating_sleepMark (s : State) (a : PowerAgent) : OnlyGating s (sleepMark s a) := by
  cases a with
  | core k => exact .ite _ (onlyGating_modCore s _ _ rfl)
  | engine d e => exact .ite _ (onlyGating_modDie s _ _)
  | quadUnits q => exact .ite _ (onlyGating_modQuad s _ _)

theorem onlyGating_wakeMark (s : State) (a : PowerAgent) : OnlyGating s (wakeMark s a) := by
  cases a with
  | core k => exact .ite _ (((onlyGating_modCore s _ _ rfl).post _ _).post _ _)
  | engine d e => rw [wakeMark]; exact onlyGating_modDie s _ _
  | quadUnits q => exact .ite _ (onlyGating_modQuad s _ _)

/-- R475: gating, sleeping and waking change nothing that a unit can see. -/
theorem gating_invisible (s : State) (a : PowerAgent) : ∃ t u v, exec (.agentGate a) s = .next t ∧ exec (.agentSleep a) s = .next u ∧
    exec (.agentWake a) s = .next v ∧ ∀ x ∈ [t, u, v], OnlyGating s x := by
  refine ⟨_, _, _, exec_agentGate s a, exec_agentSleep s a, exec_agentWake s a, ?_⟩
  simp only [List.forall_mem_cons, List.not_mem_nil, false_implies, implies_true, and_true]
  refine ⟨?_, ?_, onlyGating_wakeMark s a⟩
  · split
    · exact .refl s
    · exact (onlyGating_gateMark s a).post _ _
  · split
    · exact .refl s
    · exact onlyGating_sleepMark s a

@[simp] theorem post_die (s : State) (n d : Nat) (i : Instr) : (s.post n i).die d = s.die d := rfl
@[simp] theorem post_quad (s : State) (n q : Nat) (i : Instr) : (s.post n i).quad q = s.quad q := rfl

/-- An agent just gated is not gated again (R475). -/
theorem gateable_gateMark (s : State) (a : PowerAgent) : gateable (gateMark s a) a = false := by
  cases a with
  | core k => simp [gateable, gateMark]
  | engine d e => simp [gateable, gateMark]
  | quadUnits q => simp [gateable, gateMark]

/-- R475: an idle agent is gated, and may be marked sleeping 1 ms later. -/
theorem agentGate_idle {s : State} {a : PowerAgent} (h : s.hub.gate = true) (hg : gateable s a = true) : ∃ t, exec (.agentGate a) s = .next t ∧
    (2 * (s.tick + 1000 * Config.microsecond), .agentSleep a) ∈ t.agenda ∧ gateable t a = false ∧
    (∀ c, a = .core c → t.core c.toNat = { s.core c.toNat with gated := some s.tick }) ∧
    (∀ d e, a = .engine d e → tabFind (t.die d.toNat).engGated e.toNat = some s.tick) ∧
    ∀ q, a = .quadUnits q → t.quad q.toNat = { s.quad q.toNat with gated := some s.tick } := by
  have ht : (gateMark s a).tick = s.tick := by cases a <;> rfl
  have hn : gateable ((gateMark s a).post (1000 * Config.microsecond) (.agentSleep a)) a = false := by
    refine Eq.trans ?_ (gateable_gateMark s a)
    cases a <;> rfl
  refine ⟨_, (exec_agentGate s a).trans (congrArg _ (if_neg (by simp [h, hg]))), ?_, hn, ?_, ?_, ?_⟩
  · rw [post_agenda, ht, mem_agendaAdd]
    exact .inl rfl
  · rintro c rfl
    rw [post_core, gateMark, core_modCore]
  · rintro d e rfl
    rw [post_die, gateMark, die_modDie, tabFind_tabSet_same]
  · rintro q rfl
    rw [post_quad, gateMark, quad_modQuad]

end Sys2Proof.Proofs
end

section
/-! PROOF. Resets and firmware (R18, R459, R468, R476 to R480), and with them power as a whole. -/

namespace Sys2Proof.Proofs
open Sys2Proof Sys2Proof.Machine Sys2Proof.Laws

/-! ### Counting in ranges -/

theorem filter_range_lt {k n : Nat} (h : k ≤ n) : (List.range n).filter (fun j => decide (j < k)) = List.range k := by
  obtain ⟨m, rfl⟩ := Nat.exists_eq_add_of_le h
  have h1 : (List.range k).filter (fun j => decide (j < k)) = List.range k := by simp
  have h2 : ((List.range m).map (k + ·)).filter (fun j => decide (j < k)) = [] := by simp
  rw [List.range_add, List.filter_append, h1, h2, List.append_nil]

/-- The numbers of a block of `w` numbers. -/
theorem filter_range_div {a w n : Nat} (hw : 0 < w) (h : (a + 1) * w ≤ n) :
    (List.range n).filter (fun j => j / w == a) = (List.range w).map (a * w + ·) := by
  obtain ⟨m, rfl⟩ := Nat.exists_eq_add_of_le h
  have h1 : (List.range (a * w)).filter (fun j => j / w == a) = [] := by
    simp only [List.filter_eq_nil_iff, List.mem_range, beq_iff_eq]
    exact fun j hj e => absurd (Nat.div_lt_of_lt_mul (Nat.mul_comm a w ▸ hj)) (by omega)
  have h2 : ((List.range w).map (a * w + ·)).filter (fun j => j / w == a) = (List.range w).map (a * w + ·) := by
    simp only [List.filter_eq_self, List.mem_map, List.mem_range, beq_iff_eq]
    rintro _ ⟨i, hi, rfl⟩
    rw [Nat.mul_comm, Nat.mul_add_div hw, Nat.div_eq_of_lt hi, Nat.add_zero]
  have h3 : ((List.range m).map ((a + 1) * w + ·)).filter (fun j => j / w == a) = [] := by
    simp only [List.filter_eq_nil_iff, List.mem_map, List.mem_range, beq_iff_eq]
    rintro _ ⟨i, hi, rfl⟩ e
    rw [Nat.mul_comm, Nat.mul_add_div hw] at e
    exact absurd e (Nat.ne_of_gt (Nat.lt_add_right _ (Nat.lt_succ_self a)))
  rw [List.range_add, List.filter_append, h3, List.append_nil, Nat.add_mul, Nat.one_mul, List.range_add, List.filter_append, h1, h2, List.nil_append]

/-! ### One update for each number of a range -/

/-- Updates of the entries 0 to `n - 1` in turn, each of which changes its own entry only. -/
theorem foldl_range_update {α : Type} (get : State → Nat → α) (upd : State → Nat → State) (f : Nat → α → α)
    (hs : ∀ s d, get (upd s d) d = f d (get s d)) (ho : ∀ s d j, j ≠ d → get (upd s d) j = get s j) (n : Nat) (s : State) (j : Nat) :
    get ((List.range n).foldl upd s) j = if j < n then f j (get s j) else get s j := by
  induction n with
  | zero => rfl
  | succ n ih =>
    rw [List.range_succ, List.foldl_append, List.foldl_cons, List.foldl_nil]
    by_cases h : j = n
    · subst h
      rw [hs, ih, if_neg (Nat.lt_irrefl j), if_pos (Nat.lt_succ_self j)]
    · rw [ho _ _ _ h, ih]
      exact if_congr (by omega) rfl rfl

/-! ### Steps 2 to 4 of a reset -/

/-- The cores whose self-test failed (R476); irreducible, so that no comparison of two states lists the 4,096 numbers. -/
@[irreducible] def failedCores (up : Bringup) : List Nat := (List.range 4096).filter fun k => up.failed.contains (cid k)

theorem failedCores_eq (up : Bringup) : failedCores up = (List.range 4096).filter fun k => up.failed.contains (cid k) := by
  delta failedCores
  rfl

theorem mem_failedCores {up : Bringup} {k : Nat} : k ∈ failedCores up ↔ k < 4096 ∧ up.failed.contains (cid k) = true := by
  rw [failedCores_eq, List.mem_filter, List.mem_range]

theorem failedCores_rise (up : Bringup) : (failedCores up).Pairwise (· < ·) := by
  rw [failedCores_eq]
  exact List.Pairwise.filter _ List.pairwise_lt_range

/-- The dies of `r` get new keys and their spares (R18, R459). -/
def dieUp (s : State) (bad : List Nat) (r : State) (d : Nat) : State := r.modDie d fun x => testedDie bad d { x with key := (s.die d).key + 1 }

/-- The second tier gets a new key for each partition of `r` (R459). -/
def tierUp (s r : State) (p : Nat) : State := r.modPart p fun a => { a with tierKey := (s.part p).tierKey + 1 }

/-- A reset state with the cores and the counts of free values and of what has left that a reset has. -/
def coresUp (s : State) (bad : List Nat) (r : State) : State := { r with cores := testedCores bad, freeCount := s.freeCount, out := s.out }

theorem foldl_dieUp_eq (s : State) (bad l : List Nat) (r : State) : ∃ d, l.foldl (dieUp s bad) r = { r with dies := d } := by
  induction l generalizing r with
  | nil => exact ⟨_, rfl⟩
  | cons d l ih => exact ih (dieUp s bad r d)

theorem foldl_tierUp_eq (s : State) (l : List Nat) (r : State) : ∃ p, l.foldl (tierUp s) r = { r with hub := { r.hub with parts := p } } := by
  induction l generalizing r with
  | nil => exact ⟨_, rfl⟩
  | cons p l ih => exact ih (tierUp s r p)

theorem bringUp_steps (s r : State) (up : Bringup) : bringUp s r up =
    ((List.range 4).foldl (tierUp s) ((List.range 4).foldl (dieUp s (failedCores up)) (coresUp s (failedCores up) r))).modHub
      fun h => { h with xps := trainedPorts up.trained, flash := s.hub.flash, sensors := s.hub.sensors } := by
  rw [failedCores_eq]
  rfl

/-- All that steps 2 to 4 of a reset change. -/
theorem bringUp_eq (s r : State) (up : Bringup) : ∃ d p, bringUp s r up = { coresUp s (failedCores up) r with
    dies := d, hub := { r.hub with parts := p, xps := trainedPorts up.trained, flash := s.hub.flash, sensors := s.hub.sensors } } := by
  obtain ⟨d, hd⟩ := foldl_dieUp_eq s (failedCores up) (List.range 4) (coresUp s (failedCores up) r)
  obtain ⟨p, hp⟩ := foldl_tierUp_eq s (List.range 4) { coresUp s (failedCores up) r with dies := d }
  exact ⟨d, p, by rw [bringUp_steps, hd, hp]; rfl⟩

theorem bringUp_cores (s r : State) (up : Bringup) : (bringUp s r up).cores = testedCores (failedCores up) := by
  obtain ⟨d, p, h⟩ := bringUp_eq s r up
  rw [h]
  rfl

/-- Each die has a new key, and the spares that its failed cores have left (R18, R459). -/
theorem bringUp_die (s r : State) (up : Bringup) {d : Nat} (hd : d < 4) :
    (bringUp s r up).die d = testedDie (failedCores up) d { r.die d with key := (s.die d).key + 1 } := by
  have h := foldl_range_update State.die (dieUp s (failedCores up)) (fun d x => testedDie (failedCores up) d { x with key := (s.die d).key + 1 })
    (fun t d => die_modDie t d _) (fun t d j hj => die_modDie_other t _ hj) 4 (coresUp s (failedCores up) r) d
  rw [if_pos hd] at h
  obtain ⟨p, hp⟩ := foldl_tierUp_eq s (List.range 4) ((List.range 4).foldl (dieUp s (failedCores up)) (coresUp s (failedCores up) r))
  rw [bringUp_steps, hp]
  exact h

/-- The second tier has a new key for each partition, whose registers are those of the reset state (R459). -/
theorem bringUp_part (s r : State) (up : Bringup) (p : Nat) :
    (bringUp s r up).part p = if p < 4 then { r.part p with tierKey := (s.part p).tierKey + 1 } else r.part p := by
  obtain ⟨d, hd⟩ := foldl_dieUp_eq s (failedCores up) (List.range 4) (coresUp s (failedCores up) r)
  rw [bringUp_steps, hd]
  exact foldl_range_update State.part (tierUp s) (fun p a => { a with tierKey := (s.part p).tierKey + 1 })
    (fun t p => part_modPart t p _) (fun t p j hj => part_modPart_other t _ hj) 4 { coresUp s (failedCores up) r with dies := d } p

/-- The failed cores of a core's die below it (R18). -/
theorem failedBefore (up : Bringup) {k : Nat} (hk : k ≤ 4096) : (failedCores up).filter (fun j => dieOf j == dieOf k && decide (j < k)) =
    (List.range k).filter fun j => dieOf j == dieOf k && up.failed.contains (cid j) := by
  rw [← filter_range_lt hk, failedCores_eq, List.filter_filter, List.filter_filter]
  refine List.filter_congr fun j _ => ?_
  rw [Bool.and_right_comm]

/-- A core after self-test is new, a spare, or without a spare for it (R18, R476). -/
theorem bringUp_core (s r : State) (up : Bringup) {k : Nat} (hk : k < 4096) : (bringUp s r up).core k = if up.failed.contains (cid k) then
      (if ((List.range k).filter fun j => dieOf j == dieOf k && up.failed.contains (cid j)).length < 16 then { spare := true } else { stopped := true })
      else {} := by
  have hf : tabFind (testedCores (failedCores up)) k = _ := tabFind_keyed _ (failedCores_rise up) k
  rw [State.core, bringUp_cores, tabGet, hf, failedBefore up hk.le]
  by_cases hb : up.failed.contains (cid k) = true
  · rw [if_pos (mem_failedCores.2 ⟨hk, hb⟩), if_pos hb]
    rfl
  · rw [if_neg (fun hc => hb (mem_failedCores.1 hc).2), if_neg hb]
    rfl

/-- The spares of a die that are left once its failed cores have got theirs (R18). -/
theorem testedDie_spares (up : Bringup) {d : Nat} (hd : d < 4) (x : Die) : (testedDie (failedCores up) d x).spares =
    16 - ((List.range 1024).filter fun n => up.failed.contains (cid (d * 1024 + n))).length := by
  have hr : (List.range 4096).filter (fun k => k / 1024 == d) = (List.range 1024).map (d * 1024 + ·) := filter_range_div (by omega) (by omega)
  have h : (failedCores up).filter (fun k => dieOf k == d) =
      ((List.range 1024).filter fun n => up.failed.contains (cid (d * 1024 + n))).map (d * 1024 + ·) := by
    rw [failedCores_eq, List.filter_filter, ← Function.comp_def (fun k => up.failed.contains (cid k)), ← List.filter_map, ← hr, List.filter_filter]
    exact List.filter_congr fun j _ => Bool.and_comm ..
  rw [testedDie, h, List.length_map]

theorem trainedPorts_port (trained : BitVec 8) {n : Nat} (hn : n < 8) : tabGet (trainedPorts trained) n 0#64 = if trained.getLsbD n then 2#64 else 0#64 := by
  have hf : tabFind (trainedPorts trained) n = _ := tabFind_keyed (fun _ => 2#64) (List.Pairwise.filter _ List.pairwise_lt_range) n
  rw [tabGet, hf]
  by_cases hb : trained.getLsbD n = true
  · rw [if_pos (List.mem_filter.2 ⟨List.mem_range.2 hn, hb⟩), if_pos hb]
    rfl
  · rw [if_neg fun hm => hb (List.mem_filter.1 hm).2, if_neg hb]
    rfl

/-! ### What comes from outside -/

@[simp] theorem keepOutside_die (a : List (Nat × Instr)) (old new d : Nat) (s : State) : (keepOutside a old new s).die d = s.die d := rfl
@[simp] theorem keepOutside_part (a : List (Nat × Instr)) (old new p : Nat) (s : State) : (keepOutside a old new s).part p = s.part p := rfl
@[simp] theorem modHub_die (s : State) (f : Hub → Hub) (d : Nat) : (s.modHub f).die d = s.die d := rfl
@[simp] theorem postPoll_die (s : State) (n d : Nat) (i : Instr) : (s.postPoll n i).die d = s.die d := rfl
@[simp] theorem postPoll_part (s : State) (n p : Nat) (i : Instr) : (s.postPoll n i).part p = s.part p := rfl

@[simp] theorem keepOutside_cores (a : List (Nat × Instr)) (old new : Nat) (s : State) : (keepOutside a old new s).cores = s.cores := rfl

/-- A change of the hub that keeps the partitions' registers. -/
theorem modHub_part (s : State) (f : Hub → Hub) {p : Nat} (h : ∀ x, (f x).parts = x.parts) : (s.modHub f).part p = s.part p :=
  congrArg (fun t : Tab Part => tabGet t p {}) (h s.hub)

theorem keepOutside_eq (a : List (Nat × Instr)) (old new : Nat) (s : State) : ∃ b, keepOutside a old new s = { s with agenda := b } := ⟨_, rfl⟩

/-- What a reset keeps of the agenda comes from outside (R476). -/
theorem keepOutside_outside {a : List (Nat × Instr)} {old new : Nat} {s : State} (h : ∀ e ∈ s.agenda, fromOutside e.2 = true) :
    ∀ e ∈ (keepOutside a old new s).agenda, fromOutside e.2 = true := by
  refine List.foldlRecOn _ _ (motive := fun b : List (Nat × Instr) => ∀ e ∈ b, fromOutside e.2 = true) h fun b hb x hx e he => ?_
  rcases (mem_agendaAdd ..).1 he with rfl | he
  · exact (Bool.and_eq_true_iff.1 (List.mem_filter.1 hx).2).1
  · exact hb e he

/-! ### Cold reset -/

/-- The package as steps 2 to 4 leave it, with the image that runs (R476). -/
def coldState (s : State) (i : Nat) (up : Bringup) : State := (bringUp s State.reset up).modHub fun h => { h with running := some i }

/-- A reset's events of the discard pile, each of which goes to the ring of die 0 (R480). -/
theorem hubEvent_ring {s : State} (ty detail : Nat) (data : List Word) (h : (s.die 0).frozen = false) :
    ((s.discard none Config.hub 0 ty detail data).die 0).frozen = false ∧
      ((s.discard none Config.hub 0 ty detail data).die 0).events = (s.die 0).events + 1 := by
  refine ⟨(discard_die_frozen ..).trans h, ?_⟩
  have e : ∃ x, s.discard none Config.hub 0 ty detail data = s.modDie 0 fun d => d.addEvent s.tick true x := ⟨_, if_neg (by simp [h])⟩
  obtain ⟨x, e⟩ := e
  rw [e, die_modDie]
  rfl

theorem firmwareEvents_ring (l : List Nat) {s : State} (h : (s.die 0).frozen = false) :
    ((l.foldl (fun r a => r.discard none Config.hub 0 0x09 a []) s).die 0).frozen = false ∧
      ((l.foldl (fun r a => r.discard none Config.hub 0 0x09 a []) s).die 0).events = (s.die 0).events + l.length := by
  induction l generalizing s with
  | nil => exact ⟨h, rfl⟩
  | cons a l ih =>
    obtain ⟨hf, he⟩ := hubEvent_ring 0x09 a [] h
    obtain ⟨hf', he'⟩ := ih hf
    exact ⟨hf', by rw [List.foldl_cons, he', he, List.length_cons]; omega⟩

theorem firmwareEvents_eq (l : List Nat) (s : State) : ∃ d, l.foldl (fun r a => r.discard none Config.hub 0 0x09 a []) s = { s with dies := d } := by
  induction l generalizing s with
  | nil => exact ⟨_, rfl⟩
  | cons a l ih =>
    obtain ⟨x, hx⟩ := discard_eq s none Config.hub 0 0x09 a []
    obtain ⟨d, hd⟩ := ih { s with dies := x }
    exact ⟨d, by rw [List.foldl_cons, hx, hd]⟩

theorem coldStart_steps (s : State) (i : Nat) (actions : List Nat) (up : Bringup) : coldStart s i actions up =
    (actions.foldl (fun r a => r.discard none Config.hub 0 0x09 a []) (keepOutside s.agenda s.tick 0 (coldState s i up))).discard none Config.hub 0 0x06 1 [] :=
  rfl

/-- A cold reset leaves the package as steps 2 to 4 do, but for the ring of die 0 and what is still to come from outside (R476). -/
theorem coldStart_eq (s : State) (i : Nat) (actions : List Nat) (up : Bringup) : ∃ d a,
    coldStart s i actions up = { coldState s i up with dies := d, agenda := a } := by
  obtain ⟨a, ha⟩ := keepOutside_eq s.agenda s.tick 0 (coldState s i up)
  obtain ⟨d, hd⟩ := firmwareEvents_eq actions { coldState s i up with agenda := a }
  obtain ⟨x, hx⟩ := discard_eq { coldState s i up with agenda := a, dies := d } none Config.hub 0 0x06 1 []
  exact ⟨x, a, by rw [coldStart_steps, ha, hd, hx]⟩

theorem coldStart_events (s : State) (i : Nat) (actions : List Nat) (up : Bringup) : ((coldStart s i actions up).die 0).events = actions.length + 1 := by
  have h0 : (keepOutside s.agenda s.tick 0 (coldState s i up)).die 0 = testedDie (failedCores up) 0 { key := (s.die 0).key + 1 } := by
    rw [keepOutside_die, coldState, modHub_die, bringUp_die s State.reset up (by decide)]
    rfl
  obtain ⟨hf, he⟩ := firmwareEvents_ring actions (s := keepOutside s.agenda s.tick 0 (coldState s i up)) (by rw [h0]; rfl)
  rw [coldStart_steps, (hubEvent_ring 0x06 1 [] hf).2, he, h0]
  exact congrArg (· + 1) (Nat.zero_add _)

theorem coldStart_leaves (s : State) (up : Bringup) (i : Nat) (actions : List Nat) : let t := coldStart s i actions up
    t.tick = 0 ∧ t.mem = [] ∧ t.launches = [] ∧ t.dir = [] ∧ t.caps = [] ∧ t.budgets = [] ∧ t.squeues = [] ∧ t.chans = [] ∧
      t.hub.running = some i ∧ t.hub.flash = s.hub.flash ∧ t.hub.sram = none ∧ t.hub.removed = false ∧ t.hub.boot = none ∧
      (t.die 0).events = actions.length + 1 := by
  intro t
  have hev : (t.die 0).events = actions.length + 1 := coldStart_events s i actions up
  obtain ⟨d, a, e⟩ := coldStart_eq s i actions up
  obtain ⟨x, p, b⟩ := bringUp_eq s State.reset up
  have ht : t = _ := e
  rw [coldState, b] at ht
  refine ⟨?_, ?_, ?_, ?_, ?_, ?_, ?_, ?_, ?_, ?_, ?_, ?_, ?_, hev⟩ <;> rw [ht] <;> rfl

/-- R476, R479: a cold reset with a good image starts the package with it. -/
theorem exec_coldReset_starts {s : State} (up : Bringup) {i : Nat} (h : s.hub.sram = some i ∨ (s.hub.sram = none ∧ s.hub.flash = some i)) :
    exec (.coldReset true up) s = .next (coldStart s i [2] up) := by
  show execColdReset true up s = _
  rcases h with h | ⟨h, h'⟩
  · simp only [execColdReset, h]
  · simp only [execColdReset, h, h']

/-- The package without power, waiting on the recovery path (R476, R480). -/
def unpowered (s : State) (up : Bringup) : State :=
  { s.modHub (fun h => { h with removed := true, running := none, sram := none, boot := some up }) with agenda := [] }

theorem exec_coldReset_waits {s : State} {good : Bool} (up : Bringup) (h : good = false ∨ (s.hub.sram = none ∧ s.hub.flash = none)) :
    exec (.coldReset good up) s = .next ((keepOutside s.agenda s.tick s.tick (unpowered s up)).discard none Config.hub 0 0x09 2 []) := by
  show execColdReset good up s = _
  rcases h with rfl | ⟨h, h'⟩
  · cases hs : s.hub.sram with
    | some i => simp only [execColdReset, hs]; rfl
    | none => cases hf : s.hub.flash <;> simp only [execColdReset, hs, hf] <;> rfl
  · simp only [execColdReset, h, h']
    rfl

theorem coldReset_waits {s : State} {good : Bool} (up : Bringup) (h : good = false ∨ (s.hub.sram = none ∧ s.hub.flash = none)) :
    ∃ t, exec (.coldReset good up) s = .next t ∧ t.hub.removed = true ∧ t.hub.running = none ∧ t.hub.boot = some up ∧ t.mem = s.mem ∧
      ∀ e ∈ t.agenda, fromOutside e.2 = true := by
  refine ⟨_, exec_coldReset_waits up h, ?_⟩
  rw [discard_hub, discard_mem, discard_agenda]
  exact ⟨rfl, rfl, rfl, rfl, keepOutside_outside fun e he => by cases he⟩

/-! ### Warm reset -/

/-- What a warm reset keeps of a die: its ring (R477). -/
def ringOnly (x : Die) : Die := { ring := x.ring, next := x.next, frozen := x.frozen, events := x.events, fresh := x.fresh }

/-- The reset state of a warm reset (R477). -/
def warmBase (s : State) : State := { State.reset with tick := s.tick, dies := (List.range 4).map fun d => (d, ringOnly (s.die d)), agenda := [] }

theorem warmBase_die (s : State) {d : Nat} (hd : d < 4) : (warmBase s).die d = ringOnly (s.die d) := by
  have hf := tabFind_keyed (fun d => ringOnly (s.die d)) (List.pairwise_lt_range (n := 4)) d
  rw [if_pos (List.mem_range.2 hd)] at hf
  exact congrArg (Option.getD · {}) hf

/-- The package as steps 2 to 4 leave it in a warm reset, with what the hub keeps (R477). -/
def warmState (s : State) (up : Bringup) : State :=
  ((bringUp s (warmBase s) up).modHub fun h => { h with
    sram := s.hub.sram, running := s.hub.running, tchanges := s.hub.tchanges, stage := s.hub.stage, coolSince := s.hub.coolSince }).postPoll
      (Config.period - 1 - s.tick % Config.period) .budgetPeriodStart

/-- The package after a warm reset (R477). -/
def warmEnd (s : State) (up : Bringup) : State := (keepOutside s.agenda s.tick s.tick (warmState s up)).discard none Config.hub 0 0x06 2 []

theorem exec_warmReset {s : State} (up : Bringup) (h : s.hub.removed = false) : exec (.warmReset up) s = .next (warmEnd s up) := if_neg (by simp [h])

theorem warmEnd_leaves (s : State) (up : Bringup) : let t := warmEnd s up
    t.tick = s.tick ∧ t.mem = [] ∧ t.launches = [] ∧ t.dir = [] ∧ t.caps = [] ∧ t.budgets = [] ∧ t.squeues = [] ∧ t.chans = [] ∧
      t.hub.running = s.hub.running ∧ t.hub.sram = s.hub.sram := by
  intro t
  obtain ⟨a, ha⟩ := keepOutside_eq s.agenda s.tick s.tick (warmState s up)
  obtain ⟨x, hx⟩ := discard_eq { warmState s up with agenda := a } none Config.hub 0 0x06 2 []
  obtain ⟨d, p, hb⟩ := bringUp_eq s (warmBase s) up
  have ht : t = { warmState s up with agenda := a, dies := x } := by rw [← hx, ← ha]; rfl
  rw [warmState, hb] at ht
  refine ⟨?_, ?_, ?_, ?_, ?_, ?_, ?_, ?_, ?_, ?_⟩ <;> rw [ht] <;> rfl

theorem warmEnd_core (s : State) (up : Bringup) (k : Nat) : (warmEnd s up).core k = (bringUp s State.reset up).core k := by
  have h : (warmEnd s up).cores = (bringUp s State.reset up).cores := by
    rw [warmEnd, discard_cores, keepOutside_cores, warmState, postPoll_cores, modHub_cores, bringUp_cores, bringUp_cores]
  rw [State.core, h]
  rfl

theorem warmEnd_part (s : State) (up : Bringup) (p : Nat) : (warmEnd s up).part p = (bringUp s State.reset up).part p := by
  rw [warmEnd, discard_part, keepOutside_part, warmState, postPoll_part, modHub_part, bringUp_part, bringUp_part]
  · rfl
  · exact fun _ => rfl

theorem warmState_die (s : State) (up : Bringup) {d : Nat} (hd : d < 4) :
    (warmState s up).die d = testedDie (failedCores up) d { ringOnly (s.die d) with key := (s.die d).key + 1 } := by
  rw [warmState, postPoll_die, modHub_die, bringUp_die s _ up hd, warmBase_die s hd]

/-- R477, R480: the rings stay, but for the event of the reset itself in that of die 0. -/
theorem warmEnd_die (s : State) (up : Bringup) {d : Nat} (hd : d < 4) : let x := (warmEnd s up).die d
    x.frozen = (s.die d).frozen ∧ x.key = (s.die d).key + 1 ∧ x.walk = [] ∧
      (0 < d → x.ring = (s.die d).ring ∧ x.next = (s.die d).next ∧ x.events = (s.die d).events) := by
  have h := (keepOutside_die s.agenda s.tick s.tick d (warmState s up)).trans (warmState_die s up hd)
  refine ⟨?_, ?_, ?_, fun h0 => ?_⟩
  · rw [warmEnd, discard_die_frozen, h]; rfl
  · rw [warmEnd, discard_die_key, h]; rfl
  · rw [warmEnd, discard_die_walk, h]; rfl
  · rw [warmEnd, discard_die_other _ none _ _ _ _ _ (Nat.ne_of_gt h0), h]
    exact ⟨rfl, rfl, rfl⟩

/-! ### Firmware -/

/-- R479: an image is written to the flash, and what runs is as it was. -/
theorem firmwareUpdate_leaves (s : State) (i : Nat) (good : Bool) : ∃ t, exec (.firmwareUpdate i good) s = .next t ∧
    t.hub.flash = (if good then some i else none) ∧ t.hub.running = s.hub.running ∧ t.mem = s.mem ∧ t.cores = s.cores := by
  refine ⟨_, rfl, ?_⟩
  simp only [discard_hub, discard_mem, discard_cores]
  exact ⟨rfl, rfl, rfl, rfl⟩

/-- The package with an image in the hub's SRAM, or without one (R479). -/
def recoveryLoaded (s : State) (i : Nat) (good : Bool) : State := s.modHub fun h => { h with sram := if good then some i else none }

/-- R479, R480: an image that comes over the recovery path while no reset waits for one, or a bad one, changes nothing that runs. -/
theorem recoveryLoad_leaves {s : State} {good : Bool} (i : Nat) (h : good = false ∨ s.hub.boot = none) : ∃ t, exec (.recoveryLoad i good) s = .next t ∧
    t.hub.sram = (if good then some i else none) ∧ t.hub.flash = s.hub.flash ∧ t.hub.running = s.hub.running ∧ t.mem = s.mem ∧ t.cores = s.cores := by
  have e : exec (.recoveryLoad i good) s = .next
      (((recoveryLoaded s i good).discard none Config.hub 0 0x09 3 []).discard none Config.hub 0 0x09 2 []) := by
    show execRecoveryLoad i good s = _
    unfold execRecoveryLoad
    dsimp only
    split
    · rename_i hb
      exact absurd ((h.resolve_left (by decide)).symm.trans hb) (by simp)
    · rfl
  refine ⟨_, e, ?_⟩
  simp only [discard_hub, discard_mem, discard_cores]
  exact ⟨rfl, rfl, rfl, rfl, rfl⟩

/-- R476, R479: a good image starts the cold reset that waits for it. -/
theorem exec_recoveryLoad_starts {s : State} {i : Nat} {up : Bringup} (h : s.hub.boot = some up) :
    exec (.recoveryLoad i true) s = .next (coldStart (s.modHub fun h => { h with sram := some i }) i [3, 2] up) := by
  show execRecoveryLoad i true s = _
  unfold execRecoveryLoad
  dsimp only
  split
  · rename_i v hb _
    obtain rfl : up = v := Option.some.inj (h.symm.trans hb)
    rfl
  · rename_i hn
    exact absurd rfl (hn up h)

/-- Settles O59: each clause is what the event's lemma above says of it. -/
theorem powerAndResets : Obligations.PowerAndResets := by
  refine ⟨fun s js hot cold => ⟨exec_thermalSample_removed js hot cold, fun hr => ?_⟩, fun s a => ⟨fun h => ?_, fun h => ?_, ?_⟩,
    fun s a h hg => agentGate_idle h hg, fun s c => ⟨fun h => ?_, fun t hg hs ht hl => ?_, fun h => ?_, fun h h' => ?_⟩,
    fun s up i h => exec_coldReset_starts up h, coldStart_leaves,
    fun s r up => ⟨fun k hk => bringUp_core s r up hk, fun d hd => ?_, fun p hp => ?_, ?_, fun n hn => ?_⟩,
    fun s good up h => coldReset_waits up h, fun s up => ⟨fun h => if_pos h, fun h => ?_⟩,
    fun s i good => ⟨firmwareUpdate_leaves s i good, recoveryLoad_leaves i, fun up hg hb => ?_⟩⟩
  · obtain ⟨t, he, hm, hsens, htrip, hstay, hst, hcool⟩ := thermalSample_stages js hot cold hr
    refine ⟨t, he, hm, hsens, htrip, hstay, ?_⟩
    rw [hst]
    refine ⟨stageAfter_throttled rfl, fun h h' => stageAfter_warm rfl h' (.inl h), fun h h' => stageAfter_warm rfl h (.inr h'),
      stageAfter_calm rfl, stageAfter_one_stays rfl, stageAfter_two_stays rfl, ?_, ?_, fun h hs hn => ?_⟩
    · exact fun h hs ⟨t, ht, hl⟩ => stageAfter_two_cooled rfl h hs ht hl
    · rintro h hh rfl hs ⟨t, ht, hl⟩
      exact stageAfter_one_cooled rfl h hh hs ht hl
    · obtain ⟨h2, ho⟩ := stageAfter_two_cooling (hot := hot) (cold := cold) rfl h hs hn
      exact ⟨h2, (hcool (h2.trans hs.symm)).trans ho⟩
  · exact (exec_agentGate s a).trans (congrArg _ (if_pos (by simp [h])))
  · exact (exec_agentSleep s a).trans (congrArg _ (if_pos (by rcases h with h | h <;> simp [h])))
  · obtain ⟨t, u, v, ht, hu, hv, h⟩ := gating_invisible s a
    exact ⟨t, u, v, ht, hu, hv, fun x hx => have g := h x hx; ⟨g.mem, g.hub, g.launches, g.agenda, g.core⟩⟩
  · exact (exec_agentGate s _).trans (congrArg _ (if_pos (by simp [gateable, h])))
  · rw [exec_agentSleep, if_neg (by simp [hg, hs]), sleepMark, ht, gatedLong_eq, if_pos (heldFor1ms_since hl)]
  · exact (exec_agentWake s _).trans (congrArg _ (if_pos (by simpa using h)))
  · exact (exec_agentWake s _).trans (congrArg _ (if_neg (by simp [h, h'])))
  · rw [bringUp_die s r up hd]
    exact ⟨rfl, testedDie_spares up hd _⟩
  · exact (bringUp_part s r up p).trans (if_pos hp)
  · obtain ⟨d, p, h⟩ := bringUp_eq s r up
    rw [h]
    rfl
  · obtain ⟨d, p, h⟩ := bringUp_eq s r up
    rw [h]
    exact trainedPorts_port up.trained hn
  · obtain ⟨htick, hmem, hl, hdir, hcaps, hbud, hsq, hch, hrun, hsram⟩ := warmEnd_leaves s up
    exact ⟨_, exec_warmReset up h, htick, hmem, hl, hdir, hcaps, hbud, hsq, hch, hrun, hsram, warmEnd_core s up, warmEnd_part s up,
      fun d hd => warmEnd_die s up hd⟩
  · subst hg
    exact exec_recoveryLoad_starts hb

end Sys2Proof.Proofs
end

section
/-! PROOF. The decoder reads back what the encoder writes, and refuses the rest (R28, R29, R36, R38). -/

namespace Sys2Proof.Proofs
open Sys2Proof Sys2Proof.Machine Sys2Proof.Laws

/-! ### The bytes of halfwords and words -/

theorem ofNat_shift (n k : Nat) (w : BitVec n) : BitVec.ofNat 8 (w.toNat / 2 ^ k) = w.extractLsb' k 8 := by
  apply BitVec.eq_of_toNat_eq
  rw [BitVec.toNat_ofNat, BitVec.extractLsb'_toNat, Nat.shiftRight_eq_div_pow]

theorem bytesLE_half (h : BitVec 16) : bytesLE 2 h.toNat = [h.extractLsb' 0 8, h.extractLsb' 8 8] := by
  simp only [bytesLE, ← ofNat_shift, Nat.pow_zero, Nat.div_one, Nat.reducePow]

theorem bytesLE_word (w : BitVec 32) :
    bytesLE 4 w.toNat = [w.extractLsb' 0 8, w.extractLsb' 8 8, w.extractLsb' 16 8, w.extractLsb' 24 8] := by
  simp only [bytesLE, ← ofNat_shift, Nat.div_div_eq_div_mul, Nat.pow_zero, Nat.div_one, Nat.reducePow, Nat.reduceMul]

theorem half_of_bytes (h : BitVec 16) : h.extractLsb' 8 8 ++ h.extractLsb' 0 8 = h := by
  rw [BitVec.extractLsb'_append_extractLsb'_eq_extractLsb' (by decide)]
  exact BitVec.extractLsb'_eq_self

theorem word_of_bytes (w : BitVec 32) :
    w.extractLsb' 24 8 ++ (w.extractLsb' 16 8 ++ (w.extractLsb' 8 8 ++ w.extractLsb' 0 8)) = w := by
  rw [BitVec.extractLsb'_append_extractLsb'_eq_extractLsb' (by decide), BitVec.extractLsb'_append_extractLsb'_eq_extractLsb' (by decide),
    BitVec.extractLsb'_append_extractLsb'_eq_extractLsb' (by decide)]
  exact BitVec.extractLsb'_eq_self

theorem lowBit_lowByte {n : Nat} (w : BitVec n) : (w.extractLsb' 0 8).extractLsb' 0 1 = w.extractLsb' 0 1 := by
  ext i hi
  simp

/-! ### The decoder, by the low byte of the unit -/

section
variable (b0 b1 b2 b3 c0 c1 c2 c3 : BitVec 8) (rest : List (BitVec 8))

theorem decode_compact (h : b0.extractLsb' 0 1 = 0#1) : decode (b0 :: b1 :: rest) =
    match decodeHalf (b1 ++ b0) with
    | some i => .ok ⟨i, 2, 0#16 ++ (b1 ++ b0), none⟩
    | none => .error (.reserved 2 (0#16 ++ (b1 ++ b0)) none) := if_pos h

theorem decode_word (h : b0.extractLsb' 0 1 ≠ 0#1) (hp : b0 ≠ 0xFF#8) : decode (b0 :: b1 :: b2 :: b3 :: rest) =
    match decodeWord (b3 ++ (b2 ++ (b1 ++ b0))) with
    | some i => .ok ⟨i, 4, b3 ++ (b2 ++ (b1 ++ b0)), none⟩
    | none => .error (.reserved 4 (b3 ++ (b2 ++ (b1 ++ b0))) none) := (if_neg h).trans (if_neg hp)

theorem decode_prefix : decode (0xFF#8 :: b1 :: b2 :: b3 :: c0 :: c1 :: c2 :: c3 :: rest) =
    if c0.extractLsb' 0 1 = 0#1 then .error (.reserved 6 (0#16 ++ (c1 ++ c0)) (some (b3 ++ (b2 ++ (b1 ++ 0xFF#8)))))
    else match decodeWord (c3 ++ (c2 ++ (c1 ++ c0))) with
      | some i => .ok ⟨.extPrefixedUnit ((b3 ++ (b2 ++ (b1 ++ 0xFF#8))).extractLsb' 8 24) i, 8, c3 ++ (c2 ++ (c1 ++ c0)),
          some (b3 ++ (b2 ++ (b1 ++ 0xFF#8)))⟩
      | none => .error (.reserved 8 (c3 ++ (c2 ++ (c1 ++ c0))) (some (b3 ++ (b2 ++ (b1 ++ 0xFF#8))))) :=
  rfl

end

theorem decode_bytes_half {h : BitVec 16} {i : Instr} (rest : List (BitVec 8)) (hd : decodeHalf h = some i) (hl : h.extractLsb' 0 1 = 0#1) :
    decode (bytesLE 2 h.toNat ++ rest) = .ok ⟨i, 2, 0#16 ++ h, none⟩ := by
  rw [bytesLE_half]
  refine (decode_compact _ _ _ ((lowBit_lowByte h).trans hl)).trans ?_
  rw [half_of_bytes, hd]

theorem decode_bytes_word {w : BitVec 32} {i : Instr} (rest : List (BitVec 8)) (hd : decodeWord w = some i) (hl : w.extractLsb' 0 1 = 1#1)
    (hp : w.extractLsb' 0 8 ≠ 0xFF#8) : decode (bytesLE 4 w.toNat ++ rest) = .ok ⟨i, 4, w, none⟩ := by
  rw [bytesLE_word]
  refine (decode_word _ _ _ _ _ (by rw [lowBit_lowByte, hl]; decide) hp).trans ?_
  rw [word_of_bytes, hd]

theorem decode_bytes_prefixed {w : BitVec 32} {i : Instr} (p : BitVec 24) (rest : List (BitVec 8)) (hd : decodeWord w = some i)
    (hl : w.extractLsb' 0 1 = 1#1) : decode (bytesLE 4 (p ++ 0xFF#8).toNat ++ bytesLE 4 w.toNat ++ rest) =
      .ok ⟨.extPrefixedUnit p i, 8, w, some (p ++ 0xFF#8)⟩ := by
  have h0 : (p ++ 0xFF#8).extractLsb' 0 8 = 0xFF#8 := (bits_low p 0xFF#8 0 8 (by decide)).trans (bits_all _)
  have h8 : (p ++ 0xFF#8).extractLsb' 8 24 = p := (bits_high p 0xFF#8 8 24 (by decide)).trans (bits_all _)
  have hw : (p ++ 0xFF#8).extractLsb' 24 8 ++ ((p ++ 0xFF#8).extractLsb' 16 8 ++ ((p ++ 0xFF#8).extractLsb' 8 8 ++ 0xFF#8)) =
      p ++ 0xFF#8 := by simpa only [h0] using word_of_bytes (p ++ 0xFF#8)
  rw [bytesLE_word, bytesLE_word, h0]
  refine (decode_prefix _ _ _ _ _ _ _ _).trans ?_
  rw [if_neg (by rw [lowBit_lowByte, hl]; decide), word_of_bytes, hd, hw, h8]

/-! ### Decoding the encoding -/

/-- What the encoder and the decoder say of the word or halfword of one instruction holds of each. -/
theorem codes (i : Instr) : Codes.Statement i := by
  cases i
  exacts [
    Codes.extPrefixedUnit _ _, Codes.cwrCmode _, Codes.cwrWsp _, Codes.cwrLayout _ _, Codes.cwrSplit _, Codes.cwrVpool _, Codes.cwrClass _ _,
    Codes.cwrVmroot _, Codes.supervisorWake _, Codes.blockedIntervalEnd _ _, Codes.forfeitEnd _ _, Codes.normaliserService _,
    Codes.queueRegisterUnblock _ _, Codes.waitRelease _ _, Codes.waitLimitExpiry _ _, Codes.helperTaken _ _, Codes.taskLaneRetire _,
    Codes.remoteAccessPerform _ _, Codes.remoteStorePerform _ _, Codes.vectorRemoteChecks _ _, Codes.parkedRequestServe _,
    Codes.parkRefusalRetry _ _, Codes.evictionRetryResend _ _, Codes.commitGrant _ _, Codes.localCommit _ _, Codes.trumpAdmission _,
    Codes.homeLineRequest _ _ _, Codes.probeTimeout _ _, Codes.leaseGrant _ _, Codes.leaseExpiry _ _ _, Codes.farAtomicPerform _ _,
    Codes.farAtomicReply _ _ _, Codes.capStateChange _ _, Codes.capQryWaitRelease _ _, Codes.matrixRequestStart _, Codes.matrixRequestComplete _,
    Codes.mxwdogExpiry _, Codes.uncorrectableSoftError _ _ _, Codes.scanRequestStart _, Codes.scanRequestComplete _, Codes.chainPostPerform _ _,
    Codes.chainDelivery _, Codes.chainWaitPerform _ _, Codes.barrierArrival _ _, Codes.semaphoreAtHome _ _, Codes.syncWaiterAnswer _ _ _,
    Codes.wakeListRetry _ _, Codes.sliceQueueOp _ _, Codes.messageArrival _ _, Codes.sendReply _ _ _, Codes.granuleRead _ _, Codes.granuleWrite _ _,
    Codes.jobEnd _ _, Codes.gathScatRow _ _, Codes.streamStripFill _ _ _, Codes.streamStripWrite _ _ _, Codes.cpyStatWaitRelease _ _,
    Codes.trapRecordEnqueue _, Codes.pageWalk _ _, Codes.tlbiComplete _ _, Codes.pageGrant _ _ _, Codes.pageRevocation _,
    Codes.malformedDealRemoval _, Codes.dealPlacement _, Codes.launchCompletion _, Codes.pendingInterruptSend _ _, Codes.preemption _,
    Codes.coreResume _ _, Codes.budgetPeriodStart, Codes.trapEntry _ _, Codes.lockstepMismatch _ _, Codes.machineCheck _, Codes.heartbeatMiss _,
    Codes.coreRepair _ _, Codes.quiesce _, Codes.quiesceDone, Codes.quiesceLimitExpiry, Codes.resume _, Codes.merge _, Codes.split _, Codes.treset _,
    Codes.tchange _, Codes.tchangeDone, Codes.partRegisterWrite _ _ _, Codes.vfRegisterWrite _ _, Codes.xpRegisterWrite _ _,
    Codes.podRegisterWrite _ _, Codes.bclassWrite _ _ _, Codes.lsclassWrite _, Codes.pwrctlWrite _, Codes.dpctlWrite _ _, Codes.hubRegisterWrite _ _,
    Codes.doorbellWrite _ _ _ _, Codes.doorbellTrigger _ _, Codes.doorbellStatusRead _ _ _, Codes.hostPostedWrite _ _ _, Codes.hostRead _ _ _,
    Codes.ideFailure _ _, Codes.spdmAttestation _ _, Codes.debugUnlock _ _ _, Codes.fabricRequestArrival _ _ _, Codes.fabricRetransmit _ _,
    Codes.secondTierTimeout _, Codes.expanderLinkDown _, Codes.expanderLinkTrained _, Codes.thermalSample _ _ _, Codes.agentGate _,
    Codes.agentSleep _, Codes.agentWake _, Codes.coldReset _ _, Codes.warmReset _, Codes.firmwareUpdate _ _, Codes.recoveryLoad _ _,
    Codes.partitionOpComplete, Codes.hostLoadReply _ _ _, Codes.fabricAcknowledgement _ _, Codes.nop, Codes.br _, Codes.bcc _ _ _ _, Codes.bp _ _ _,
    Codes.call _, Codes.callr _ _, Codes.ret, Codes.jr _, Codes.loop _ _, Codes.rep _ _ _ _ _ _, Codes.start _ _ _, Codes.endCtx, Codes.yield,
    Codes.wait _ _ _, Codes.getid _ _, Codes.brk _, Codes.add _ _ _, Codes.addi _ _ _, Codes.sub _ _ _, Codes.mul _ _ _, Codes.mulhI64 _ _ _,
    Codes.mulhN64 _ _ _, Codes.mulhSu _ _ _, Codes.divI64 _ _ _, Codes.divN64 _ _ _, Codes.remI64 _ _ _, Codes.remN64 _ _ _, Codes.madd _ _ _ _,
    Codes.msub _ _ _ _, Codes.andR _ _ _, Codes.orR _ _ _, Codes.xorR _ _ _, Codes.andn _ _ _, Codes.logiAnd _ _ _, Codes.logiOr _ _ _,
    Codes.logiXor _ _ _, Codes.logiAndn _ _ _, Codes.shl _ _ _, Codes.shr _ _ _, Codes.sar _ _ _, Codes.rotL _ _ _, Codes.rotR _ _ _,
    Codes.shiShl _ _ _, Codes.shiShr _ _ _, Codes.shiSar _ _ _, Codes.shiRot _ _ _, Codes.minI64 _ _ _, Codes.minN64 _ _ _, Codes.maxI64 _ _ _,
    Codes.maxN64 _ _ _, Codes.cmp _ _ _ _, Codes.sel _ _ _ _, Codes.ext _ _ _, Codes.bitcPop _ _, Codes.bitcClz _ _, Codes.bitcCtz _ _,
    Codes.bitcRev _ _, Codes.bitcBsw _ _, Codes.bfxN _ _ _, Codes.bfxI _ _ _, Codes.bfi _ _ _, Codes.li _ _, Codes.lih _ _, Codes.lea _ _ _ _,
    Codes.hdrPack _ _ _, Codes.hdrSplit _ _ _, Codes.shuf _ _ _, Codes.shufKLow _ _ _ _, Codes.shufKHigh _ _ _ _, Codes.addc _ _ _ _,
    Codes.addcCo _ _ _ _, Codes.vadd _ _ _ _ _ _, Codes.vsub _ _ _ _ _ _, Codes.vmul _ _ _ _ _ _, Codes.vfma _ _ _ _ _ _, Codes.vdiv _ _ _ _ _ _,
    Codes.vsqrt _ _ _ _ _, Codes.vmin _ _ _ _ _, Codes.vmax _ _ _ _ _, Codes.vunNeg _ _ _ _ _, Codes.vunAbs _ _ _ _ _, Codes.vunRint _ _ _ _ _,
    Codes.vunPopc _ _ _ _, Codes.vunClz _ _ _ _, Codes.vlogAnd _ _ _ _, Codes.vlogOr _ _ _ _, Codes.vlogXor _ _ _ _, Codes.vlogAndn _ _ _ _,
    Codes.vlogOrn _ _ _ _, Codes.vlogNand _ _ _ _, Codes.vlogNor _ _ _ _, Codes.vlogXnor _ _ _ _, Codes.vlogNot _ _ _ _, Codes.vsh _ _ _ _ _ _,
    Codes.vcmp _ _ _ _ _ _, Codes.whilePred _ _ _ _ _ _, Codes.vwid _, Codes.plogAnd _ _ _ _, Codes.plogOr _ _ _ _, Codes.plogXor _ _ _ _,
    Codes.plogAndn _ _ _ _, Codes.vcvt _ _ _ _ _ _, Codes.vcvtHi _ _ _ _ _ _, Codes.vfunExp2 _ _ _ _ _, Codes.vfunLog2 _ _ _ _ _,
    Codes.vfunRcp _ _ _ _ _, Codes.vfunRsq _ _ _ _ _, Codes.vfunSinpi _ _ _ _ _, Codes.vfunCospi _ _ _ _ _, Codes.vfunTanh _ _ _ _ _,
    Codes.vredAdd _ _ _ _ _, Codes.vredMin _ _ _ _ _, Codes.vredMax _ _ _ _ _, Codes.vredAnd _ _ _ _ _, Codes.vredOr _ _ _ _ _,
    Codes.vredXor _ _ _ _ _, Codes.vdot _ _ _ _ _ _, Codes.vsel _ _ _ _ _, Codes.vperm _ _ _ _ _, Codes.vbcast _ _ _ _, Codes.vext _ _ _ _,
    Codes.vins _ _ _ _, Codes.vzip _ _ _ _ _, Codes.vscanAdd _ _ _ _ _, Codes.vscanMin _ _ _ _ _, Codes.vscanMax _ _ _ _ _, Codes.vld _ _ _ _ _,
    Codes.vst _ _ _ _ _, Codes.vgath _ _ _ _ _, Codes.vscat _ _ _ _ _, Codes.vshuf _ _ _ _ _, Codes.vmov _ _ _ _, Codes.ld _ _ _ _ _,
    Codes.st _ _ _ _, Codes.ldx _ _ _ _ _ _, Codes.stx _ _ _ _ _, Codes.ldfe _ _ _, Codes.stfe _ _ _, Codes.feopSet _ _ _, Codes.feopClr _ _ _,
    Codes.feopQry _ _ _ _, Codes.feopLdff _ _ _ _, Codes.xch _ _ _ _ _ _, Codes.ldg _ _ _ _ _, Codes.stg _ _ _ _, Codes.vldg _ _ _ _ _,
    Codes.vstg _ _ _ _ _, Codes.prefRd _ _, Codes.prefOwn _ _, Codes.prefSlc _ _, Codes.lease _ _ _, Codes.unlease _ _, Codes.lstat _ _, Codes.tcut,
    Codes.fence _, Codes.acq _, Codes.rel _, Codes.faAddN64 _ _ _ _ _, Codes.faAndN64 _ _ _ _ _, Codes.faOrN64 _ _ _ _ _, Codes.faXorN64 _ _ _ _ _,
    Codes.faMinI64 _ _ _ _ _, Codes.faMaxI64 _ _ _ _ _, Codes.faMinN64 _ _ _ _ _, Codes.faMaxN64 _ _ _ _ _, Codes.faSwapN64 _ _ _ _ _,
    Codes.faCasN64 _ _ _ _ _, Codes.faAddF64 _ _ _ _ _, Codes.faGetN64 _ _ _ _ _, Codes.capGive _ _ _, Codes.capClaim _ _, Codes.capSeal _ _,
    Codes.capUnseal _ _, Codes.capQry _ _, Codes.capQryWait _ _, Codes.tcfg _ _, Codes.trel _, Codes.dtld _ _, Codes.dtldStd _ _, Codes.fctx _,
    Codes.fctxRd _, Codes.tldb _ _ _, Codes.mma _ _ _, Codes.mmaV _ _ _ _, Codes.tstcF32 _ _ _, Codes.tstcBf16 _ _ _, Codes.tstcF16 _ _ _,
    Codes.tqnt _ _, Codes.scfg _ _ _, Codes.stile _, Codes.sjoinT _ _, Codes.sjoinR _ _ _, Codes.chainPost _ _ _, Codes.chainWait _ _ _,
    Codes.chainPos _, Codes.binit _ _ _ _, Codes.barv _ _ _ _, Codes.barvX _ _ _ _, Codes.bwait _ _ _ _, Codes.btest _ _ _ _, Codes.semi _ _ _ _,
    Codes.semiSet _ _ _ _, Codes.semw _ _ _ _, Codes.semwDec _ _ _ _, Codes.qinit _ _ _, Codes.enq _ _ _, Codes.enqB _ _ _, Codes.deq _ _,
    Codes.deqB _ _ _, Codes.deqPoll _ _ _, Codes.send _ _ _ _, Codes.sendRep _ _ _ _, Codes.sendRef _ _, Codes.cpy _ _ _, Codes.cpyStat _ _,
    Codes.cpyStatErr _ _, Codes.cpyStatWait _ _ _, Codes.gath _ _ _, Codes.scat _ _ _, Codes.strmOff _ _, Codes.strmIn _ _ _ _,
    Codes.strmOut _ _ _ _, Codes.strmInD _ _ _ _, Codes.strmOutD _ _ _ _, Codes.trap _ _, Codes.eret _, Codes.eretEnd _, Codes.parkrd _ _,
    Codes.parkwr _ _, Codes.erlog _ _, Codes.erlogEsc _, Codes.crd _ _, Codes.cwr _ _, Codes.tlbiVa _ _ _, Codes.tlbiAsid _ _, Codes.tlbiAll _,
    Codes.cBrk _, Codes.cNop, Codes.cMov _ _, Codes.cAdd _ _, Codes.cSub _ _, Codes.cAnd _ _, Codes.cOr _ _, Codes.cXor _ _, Codes.cAddi _ _,
    Codes.cLi _ _, Codes.cShiShl _ _, Codes.cShiShr _ _, Codes.cShiSar _ _, Codes.cLd _ _ _, Codes.cSt _ _ _, Codes.cLdg _ _ _, Codes.cStg _ _ _,
    Codes.cBr _, Codes.cBccEq _ _, Codes.cBccNe _ _, Codes.cRet, Codes.cJr _, Codes.cCallr _, Codes.cYield, Codes.cEnd, Codes.cTcut,
    Codes.cVaddF32 _ _, Codes.cVmulF32 _ _, Codes.cVmov _ _, Codes.cVld _ _, Codes.cVst _ _, Codes.cBpAny _ _]

theorem encode_unprefixed {i : Instr} {bs : List (BitVec 8)} (hi : ∀ p b, i ≠ .extPrefixedUnit p b) (h : encode i = some bs) :
    (∃ w, encodeWord i = some w ∧ bs = bytesLE 4 w.toNat) ∨ ∃ w, encodeHalf i = some w ∧ bs = bytesLE 2 w.toNat := by
  rw [encode.eq_2 i hi] at h
  split at h
  · exact .inl ⟨_, ‹_›, (Option.some.inj h).symm⟩
  · obtain ⟨w, hw, rfl⟩ := Option.map_eq_some_iff.1 h
    exact .inr ⟨w, hw, rfl⟩

/-- Settles O10: by the shape of the encoding, a word behind an EXT, a word, or a halfword. -/
theorem decodingEncoded : Obligations.DecodingEncoded := by
  intro i bs rest hc he
  by_cases hi : ∃ p b, i = .extPrefixedUnit p b
  · obtain ⟨p, b, rfl⟩ := hi
    obtain ⟨w, hw, rfl⟩ := Option.map_eq_some_iff.1 he
    obtain ⟨hd, hl, -⟩ := (codes b hc).1 w hw
    exact ⟨_, decode_bytes_prefixed p rest hd hl, rfl, rfl⟩
  · rcases encode_unprefixed (fun p b e => hi ⟨p, b, e⟩) he with ⟨w, hw, rfl⟩ | ⟨w, hw, rfl⟩
    · obtain ⟨hd, hl, hp⟩ := (codes i hc).1 w hw
      exact ⟨_, decode_bytes_word rest hd hl hp, rfl, rfl⟩
    · obtain ⟨hd, hl⟩ := (codes i hc).2 w hw
      exact ⟨_, decode_bytes_half rest hd hl, rfl, rfl⟩

/-- The decoder reads an instruction from its word. -/
theorem decodeWord_of_encodeWord {i : Instr} {w : BitVec 32} (hc : i.canonical = true) (h : encodeWord i = some w) : decodeWord w = some i :=
  ((codes i hc).1 w h).1

/-- Settles O11: each word is what the encoder gives for its instruction. -/
theorem wordsOfFamilies : Obligations.WordsOfFamilies :=
  ⟨decodeWord_of_encodeWord rfl rfl, decodeWord_of_encodeWord rfl rfl, decodeWord_of_encodeWord rfl rfl, decodeWord_of_encodeWord rfl rfl,
    decodeWord_of_encodeWord rfl rfl, decodeWord_of_encodeWord rfl rfl, decodeWord_of_encodeWord rfl rfl, decodeWord_of_encodeWord rfl rfl⟩

/-! ### Bytes that are no unit -/

/-- R36: a second EXT is no body of a prefixed unit: no instruction has its low byte. -/
theorem decodeWord_prefix {w : BitVec 32} (h : w.extractLsb' 0 8 = 0xFF#8) : decodeWord w = none := decodeWord_low w _ h

/-- Settles O12: the decoder's choice by the low byte of the unit, and of the unit behind its EXT. -/
theorem reservedEncodings : Obligations.ReservedEncodings := by
  refine ⟨fun b0 b1 b2 b3 c0 c1 rest hc hp hr => ?_, fun b1 b2 b3 c1 c2 c3 rest => ?_, fun b0 => rfl, fun b0 b1 rest hb hn => ?_,
    fun b0 b1 b2 b3 rest hb hp hn => ?_⟩
  · obtain ⟨c2, c3, more, rfl⟩ : ∃ c2 c3 more, rest = c2 :: c3 :: more := by
      match rest, hr with
      | c2 :: c3 :: more, _ => exact ⟨c2, c3, more, rfl⟩
    rw [hp, decode_prefix, if_pos hc]
  · have hw : (c3 ++ (c2 ++ (c1 ++ 0xFF#8))).extractLsb' 0 8 = 0xFF#8 := by
      simp only [HAppend.hAppend, bits_low, bits_all, Nat.reduceAdd, Nat.reduceLeDiff]
    rw [decode_prefix, if_neg (by decide), decodeWord_prefix hw]
  · rw [decode_compact _ _ _ hb, hn]
  · rw [decode_word _ _ _ _ _ hb hp, hn]

end Sys2Proof.Proofs
end

section
/-! PROOF. Scalar and predicate registers: what a read gives and what a write changes (R50 to R52, R130, R135, R153, R261). -/

namespace Sys2Proof.Proofs
open Sys2Proof Sys2Proof.Machine Sys2Proof.Laws

/-! ### The registers that CMODE remaps -/

theorem remap_low (m : Word) {k : GReg} (h : k.toNat < 24) : remap m k = none := by
  unfold remap
  rw [if_neg (by simp; omega), if_neg (by simp; omega)]

theorem remap_mailbox (m : Word) {k : GReg} (h : 24 ≤ k.toNat) (h' : k.toNat ≤ 27) :
    remap m k = if m.getLsbD 4 then some (k.toNat - 20) else none := by
  unfold remap
  rw [if_neg (c := (m.getLsbD 5 && decide (28 ≤ k.toNat)) = true) (by simp; omega)]
  simp [h, h']

theorem remap_queue (m : Word) {k : GReg} (h : 28 ≤ k.toNat) : remap m k = if m.getLsbD 5 then some (k.toNat - 28) else none := by
  unfold remap
  rw [if_neg (by simp; omega)]
  simp [h]

/-! ### Reads -/

theorem g_word (s : State) {k : GReg} (h : k ≠ 0#5) : s.g k = memWord s.mine.store (s.me.wsp + 8 * k.toNat) := if_neg h

theorem readG_far {s : State} {k : GReg} (hk : k ≠ 0#5) (h : ∃ e ∈ s.me.farq, e.d = k) : readG k s = .error (.stall (.farReg k.toNat)) := by
  have hf : farCheck k s = .error (.stall (.farReg k.toNat)) := by
    unfold farCheck
    rw [U_bind_ok (curCtx_apply s), if_pos (by simpa [State.me] using h)]
    rfl
  unfold readG
  rw [if_neg hk]
  exact U_bind_error hf

theorem readG_empty {s : State} {k : GReg} {i : Nat} (hk : k ≠ 0#5) (hf : ∀ e ∈ s.me.farq, e.d ≠ k) (hr : remap s.me.cmode k = some i)
    (hq : tabGet s.mine.q i [] = []) : readG k s = .error (.wait (.queueReg [i] [])) := by
  unfold readG
  rw [if_neg hk, U_bind_ok (farCheck_ok hf), U_bind_ok (curCtx_apply s)]
  simp only [State.me] at hr
  rw [hr]
  exact popQ_empty hq

/-- Settles O4: g0, a word of the workspace, and the oldest entry of a queue register; then the codes that CMODE remaps. -/
theorem scalarReads : Obligations.ScalarReads := by
  refine ⟨fun s k => ⟨readG_zero s, fun hk hp => ?_, readG_far, fun i hk hf hr => ⟨readG_empty hk hf hr, fun w rest hq => ?_⟩⟩,
    fun m k => ⟨remap_low m, remap_mailbox m, remap_queue m, fun i h => if_pos h, fun i h _ => if_neg (by omega)⟩⟩
  · rw [readG_plain hp, g_word s hk]
  · refine ⟨popped s i w rest, readG_pop hk hf hr hq, ?_, by rw [popped_me], (popped_mine s i w rest).2, rfl⟩
    rw [(popped_mine s i w rest).1, tabGet_tabSet_same]

/-! ### Writes -/

theorem writeG_queue {s : State} {k : GReg} {i : Nat} (x : Word) (hk : k ≠ 0#5) (hf : ∀ e ∈ s.me.farq, e.d ≠ k)
    (hr : remap s.me.cmode k = some i) : writeG k x s = pushQ i x s := by
  unfold writeG
  rw [if_neg hk, U_bind_ok (farCheck_ok hf), U_bind_ok (curCtx_apply s)]
  simp only [State.me] at hr
  rw [hr]

@[simp] theorem pushed_store (s : State) (i : Nat) (w : Word) : (pushed s i w).mine.store = s.mine.store := by
  unfold pushed
  split <;> simp [State.mine]

@[simp] theorem pushed_q (s : State) (i : Nat) (w : Word) : (pushed s i w).mine.q = s.mine.q := by
  unfold pushed
  split <;> simp [State.mine]

@[simp] theorem pushed_mem (s : State) (i : Nat) (w : Word) : (pushed s i w).mem = s.mem := (local_pushed s i w).only.1

theorem setG_store (c : Core) (v : Ctx) {k : GReg} (x : Word) (h : k ≠ 0#5) :
    (setG c v k x).store = memWrite c.store (regOff v k) 8 x.toNat := by rw [setG, if_neg h]

section
variable {c : Core} (v : Ctx) {k : GReg} (x : Word) (h : Memory.wf c.store = true)
include h

theorem rawG_setG_same (hk : k ≠ 0#5) : rawG (setG c v k x) v k = x := by
  rw [rawG, if_neg hk, setG_store c v x hk]
  exact memWord_memWrite_same _ x h

theorem rawG_setG_other {j : GReg} (hj : j ≠ k) : rawG (setG c v k x) v j = rawG c v j := by
  by_cases hk : k = 0#5
  · rw [setG, if_pos hk]
  · have : j.toNat ≠ k.toNat := fun e => hj (BitVec.eq_of_toNat_eq e)
    rw [rawG, rawG, setG_store c v x hk, memWord_memWrite_other x.toNat h (by simp only [regOff]; omega)]

theorem predOf_setG (q : PReg) : predOf (setG c v k x) v q = predOf c v q := by
  by_cases hk : k = 0#5
  · rw [setG, if_pos hk]
  · rw [predOf, predOf, setG_store c v x hk, memRead_memWrite_other h (by simp only [regOff]; omega)]

theorem memGet_setG {a : Nat} (ha : a < regOff v k ∨ regOff v k + 8 ≤ a) : memGet (setG c v k x).store a = memGet c.store a := by
  by_cases hk : k = 0#5
  · rw [setG, if_pos hk]
  · rw [setG_store c v x hk]
    exact memGet_memWrite_outside h ha

end

section
variable {c : Core} (v : Ctx) {q : PReg} (x : Pred) (h : Memory.wf c.store = true)
include h

theorem predOf_setP_same (hq : q ≠ 0#3) : predOf (setP c v q x) v q = x := by
  rw [predOf, if_neg hq, setP, if_neg hq, memRead_memWrite_low _ _ h (by decide), Nat.mod_eq_of_lt (lt_of_lt_of_eq x.isLt (by decide)),
    BitVec.ofNat_toNat, BitVec.setWidth_eq]

theorem predOf_setP_other {r : PReg} (hr : r ≠ q) : predOf (setP c v q x) v r = predOf c v r := by
  by_cases hq : q = 0#3
  · rw [setP, if_pos hq]
  · have : r.toNat ≠ q.toNat := fun e => hr (BitVec.eq_of_toNat_eq e)
    rw [predOf, predOf, setP, if_neg hq, memRead_memWrite_other h (by omega)]

theorem rawG_setP (k : GReg) : rawG (setP c v q x) v k = rawG c v k := by
  by_cases hq : q = 0#3
  · rw [setP, if_pos hq]
  · have := k.isLt
    rw [rawG, rawG, setP, if_neg hq, memWord_memWrite_other _ h (by simp only [regOff]; omega)]

end

section
variable (s : State) (f : Core → Core) (hc : (f s.mine).ctxs = s.mine.ctxs)
include hc

theorem me_modCore : (s.modCore s.cur.1 f).me = s.me := by
  show (s.modCore s.cur.1 f).mine.ctx s.cur.2 = s.mine.ctx s.cur.2
  rw [mine_modCore, Core.ctx, hc, Core.ctx]

theorem g_modCore (k : GReg) : (s.modCore s.cur.1 f).g k = rawG (f s.mine) s.me k := by
  rw [State.g, me_modCore s f hc, mine_modCore]

theorem p_modCore (q : PReg) : (s.modCore s.cur.1 f).p q = predOf (f s.mine) s.me q := by
  rw [State.p, me_modCore s f hc, mine_modCore]

end

theorem setG_ctxs (c : Core) (v : Ctx) (k : GReg) (x : Word) : (setG c v k x).ctxs = c.ctxs := by unfold setG; split <;> rfl
theorem setP_ctxs (c : Core) (v : Ctx) (q : PReg) (x : Pred) : (setP c v q x).ctxs = c.ctxs := by unfold setP; split <;> rfl

/-- Settles O5: a word of the workspace, the queue of a remapped register with room and without, and a predicate's slot. -/
theorem registerWrites : Obligations.RegisterWrites := by
  refine ⟨fun s k x => ⟨writeG_zero x s, fun hk hp hw => ⟨_, writeG_plain x hp hk, ?_, fun j hj => ?_, fun q => ?_, me_setG s s.me k x,
      fun a ha => ?_, rfl⟩, fun i hk hf hr => ⟨fun h => ⟨pushed s i x, (writeG_queue x hk hf hr).trans (pushQ_room x h), ?_⟩, fun hn hfull => ?_⟩⟩,
    fun s q x hw => ⟨_, writeP_apply q x s, (if_pos rfl : predOf s.mine s.me 0#3 = _), fun hq => ?_, fun r hr => ?_, fun k => ?_, fun hq => ?_⟩⟩
  · rw [g_modCore s _ (setG_ctxs _ _ _ _)]; exact rawG_setG_same s.me x hw hk
  · rw [g_modCore s _ (setG_ctxs _ _ _ _)]; exact rawG_setG_other s.me x hw hj
  · rw [p_modCore s _ (setG_ctxs _ _ _ _)]; exact predOf_setG s.me x hw q
  · rw [mine_modCore]; exact memGet_setG s.me x hw ha
  · exact ⟨by rw [pushed_me], pushed_q s i x, pushed_store s i x, pushed_mem s i x⟩
  · rw [writeG_queue x hk hf hr, pushQ_full x fun h => h.elim hn (by omega)]
  · rw [p_modCore s _ (setP_ctxs _ _ _ _)]; exact predOf_setP_same s.me x hw hq
  · rw [p_modCore s _ (setP_ctxs _ _ _ _)]; exact predOf_setP_other s.me x hw hr
  · rw [g_modCore s _ (setP_ctxs _ _ _ _)]; exact rawG_setP s.me x hw k
  · rw [mine_modCore, setP, if_pos hq]

end Sys2Proof.Proofs
end

section
/-! PROOF. What the scalar units leave alone (R52, R97, R138, R144 to R150). -/

namespace Sys2Proof.Proofs
open Sys2Proof Sys2Proof.Machine Sys2Proof.Laws

/-! ### Computing on scalar registers -/

/-- What a unit that works on scalar registers does until it retires: it stays on its core, and of its context it changes the running trick and the
place kept for it. -/
structure Computed (s t : State) : Prop where
  loc : Local s t
  me : t.me = { s.me with running := t.me.running, reserve := t.me.reserve }

/-- What it does while it reads: it writes no byte of the local store and no entry of a queue register. -/
structure OnlyRead (s t : State) : Prop extends Computed s t where
  pushes : t.me.running.pushes = s.me.running.pushes
  store : t.mine.store = s.mine.store

theorem Computed.trans {s t u : State} (h : Computed s t) (g : Computed t u) : Computed s u := ⟨h.loc.trans g.loc, by rw [g.me, h.me]⟩

theorem OnlyRead.refl (s : State) : OnlyRead s s := ⟨⟨.refl s, rfl⟩, rfl, rfl⟩

theorem OnlyRead.trans {s t u : State} (h : OnlyRead s t) (g : OnlyRead t u) : OnlyRead s u :=
  ⟨h.toComputed.trans g.toComputed, g.pushes.trans h.pushes, g.store.trans h.store⟩

theorem onlyRead_begun (s : State) : OnlyRead s (begun s) := by
  refine ⟨⟨local_begun s, ?_⟩, ?_, begun_store s⟩ <;> rcases begun_me s with h | h <;> rw [h]

theorem onlyRead_readG {s t : State} {k : GReg} {a : Word} (h : readG k s = .ok (a, t)) : OnlyRead s t := by
  rcases readG_inv h with ⟨-, -, rfl⟩ | ⟨i, rest, -, -, -, -, rfl⟩
  · exact .refl t
  · refine ⟨⟨local_popped s i a rest, ?_⟩, ?_, (popped_mine s i a rest).2⟩ <;> rw [popped_me]

theorem onlyRead_reads {ks : List GReg} {s t : State} {vs : List Word} (h : Reads ks s vs t) : OnlyRead s t := by
  induction ks generalizing s vs with
  | nil => exact h.2 ▸ .refl s
  | cons k ks ih =>
    obtain ⟨a, u, r, h1, -, h2⟩ := h
    exact (onlyRead_readG h1).trans (ih h2)

theorem onlyRead_reads_begun {ks : List GReg} {s t : State} {vs : List Word} (h : Reads ks (begun s) vs t) : OnlyRead s t :=
  (onlyRead_begun s).trans (onlyRead_reads h)

theorem computed_writeG {s t : State} {k : GReg} {x : Word} (h : Writes k x s t) : Computed s t := by
  refine ⟨local_writeG h, ?_⟩
  rcases writeG_inv h with ⟨-, rfl⟩ | ⟨-, -, rfl⟩ | ⟨i, -, -, -, -, rfl⟩
  · rfl
  · rw [me_setG]
  · rw [pushed_me]

section
variable {s t : State} (h : Computed s t)
include h

theorem Computed.cmode : t.me.cmode = s.me.cmode := by rw [h.me]
theorem Computed.farq : t.me.farq = s.me.farq := by rw [h.me]
theorem Computed.wsp : t.me.wspBlk = s.me.wspBlk := by rw [h.me]

theorem Computed.plain (k : GReg) : Plain t k ↔ Plain s k := by rw [Plain, Plain, h.cmode, h.farq]

theorem Computed.regOff (k : GReg) : regOff t.me k = regOff s.me k := by rw [Machine.regOff, Machine.regOff, Ctx.wsp, Ctx.wsp, h.wsp]

end

/-! ### Retiring -/

section
variable {s u : State}

theorem retired_q (h : u.cur = s.cur) : (retired s u).mine.q = u.mine.q := by
  obtain ⟨pc, rep, e⟩ := retired_eq s u h
  rw [e, mine_modCtx]
  rfl

theorem retired_pushes (h : u.cur = s.cur) : (retired s u).me.running.pushes = u.me.running.pushes := by
  obtain ⟨pc, rep, e⟩ := retired_eq s u h
  rw [e, me_modCtx]

theorem retired_wsp (h : u.cur = s.cur) : (retired s u).me.wspBlk = u.me.wspBlk := by
  obtain ⟨pc, rep, e⟩ := retired_eq s u h
  rw [e, me_modCtx]

theorem retired_g (h : u.cur = s.cur) (k : GReg) : (retired s u).g k = u.g k := by
  simp only [State.g, rawG, regOff, Ctx.wsp, retired_store h, retired_wsp h]

theorem retired_p (h : u.cur = s.cur) (q : PReg) : (retired s u).p q = u.p q := by
  simp only [State.p, predOf, Ctx.wsp, retired_store h, retired_wsp h]

variable (h : Computed s u)
include h

/-- The frame of a unit that only computes on scalar registers. -/
theorem Computed.frame : ComputeFrame s (retired s u) ∧ (retired s u).me.v = s.me.v ∧ (retired s u).me.cflags = s.me.cflags := by
  have hl := local_retired h.loc
  obtain ⟨pc, rep, e⟩ := retired_eq s u h.loc.cur
  have hm : (retired s u).me = _ := (congrArg State.me e).trans (me_modCtx u _)
  have hu : s.unitOf = s.me.unit := rfl
  refine ⟨⟨hl.only, hl.cur, hl.others, hl.mine, ?_⟩, ?_, ?_⟩
  · rw [hm, h.me, hu]
  · rw [hm, h.me]
  · rw [hm, h.me]

end

/-! ### The frame of a write -/

theorem modCore_setG_g {r : State} {d k : GReg} (x : Word) (hw : Memory.wf r.mine.store = true) (hk : k ≠ d) :
    (r.modCore r.cur.1 fun c => setG c r.me d x).g k = r.g k := by
  rw [g_modCore r _ (setG_ctxs _ _ _ _)]
  exact rawG_setG_other r.me x hw hk

theorem modCore_setG_p {r : State} {d : GReg} (x : Word) (hw : Memory.wf r.mine.store = true) (q : PReg) :
    (r.modCore r.cur.1 fun c => setG c r.me d x).p q = r.p q := by
  rw [p_modCore r _ (setG_ctxs _ _ _ _)]
  exact predOf_setG r.me x hw q

section
variable {d : GReg} {x : Word} {s r u t : State}

theorem OnlyRead.g (h : OnlyRead s r) (k : GReg) : r.g k = s.g k := by
  rw [State.g, State.g, rawG, rawG, h.store, h.toComputed.regOff]

theorem OnlyRead.p (h : OnlyRead s r) (q : PReg) : r.p q = s.p q := by
  rw [State.p, State.p, predOf, predOf, h.store, Ctx.wsp, Ctx.wsp, h.toComputed.wsp]

/-- A register that CMODE does not remap is written where its word stands. -/
theorem registerFrame_retired (h : OnlyRead s r) (hu : Writes d x r u) (hp : Plain s d) (hw : Memory.wf s.mine.store = true) :
    RegisterFrame d s (retired s u) ∧ (retired s u).mine.q = r.mine.q ∧ (retired s u).me.running.pushes = s.me.running.pushes := by
  have hc := h.toComputed.trans (computed_writeG hu)
  have hcur := hc.loc.cur
  obtain ⟨hf, hv, hfl⟩ := hc.frame
  have hwr : Memory.wf r.mine.store = true := h.store ▸ hw
  rw [RegisterFrame, StoreFrame, retired_store hcur, retired_q hcur, retired_pushes hcur]
  simp only [retired_g hcur, retired_p hcur]
  rcases writeG_inv hu with ⟨rfl, rfl⟩ | ⟨hd, -, rfl⟩ | ⟨i, hd, -, hr, -, -⟩
  · exact ⟨⟨hf, hv, hfl, fun a _ => by rw [h.store], fun k _ => h.g k, h.p, fun _ => h.store⟩, rfl, h.pushes⟩
  · refine ⟨⟨hf, hv, hfl, fun a ha => ?_, fun k hk => (modCore_setG_g x hwr hk).trans (h.g k), fun q => (modCore_setG_p x hwr q).trans (h.p q),
      fun e => absurd e hd⟩, ?_, by rw [me_setG]; exact h.pushes⟩
    · rw [mine_modCore, memGet_setG r.me x hwr (by rwa [h.toComputed.regOff]), h.store]
    · rw [mine_modCore, setG, if_neg hd]
  · rw [h.toComputed.cmode, (hp.resolve_left hd).1] at hr
    cases hr

/-- One that it remaps takes one entry more. -/
theorem queueFrame_retired {i : Nat} (h : OnlyRead s r) (hu : Writes d x r u) (hd : d ≠ 0#5) (hi : remap s.me.cmode d = some i) :
    QueueFrame i s (retired s u) ∧ (retired s u).mine.q = r.mine.q := by
  have hc := h.toComputed.trans (computed_writeG hu)
  have hcur := hc.loc.cur
  obtain ⟨hf, hv, hfl⟩ := hc.frame
  rw [QueueFrame, retired_store hcur, retired_q hcur, retired_pushes hcur]
  rcases writeG_inv hu with ⟨h0, -⟩ | ⟨-, hp, -⟩ | ⟨j, -, -, hr, -, rfl⟩
  · exact absurd h0 hd
  · rw [((h.toComputed.plain d).1 hp |>.resolve_left hd).1] at hi
    cases hi
  · rw [h.toComputed.cmode, hi] at hr
    obtain rfl := Option.some.inj hr
    exact ⟨⟨hf, hv, hfl, (pushed_store r i x).trans h.store, x, by rw [pushed_me, ← h.pushes]⟩, pushed_q r i x⟩

/-- A unit that has read and computed retires with its result wherever its destination can be written. -/
theorem frameAfter_of (h : OnlyRead s r) (ht : ∀ u, Writes d x r u → t = retired s u) : FrameAfter d s r t := by
  refine ⟨fun hp hw => ?_, fun i hd hf hi hroom => ?_⟩
  · obtain ⟨u, hu⟩ := writes_plain x ((h.toComputed.plain d).2 hp)
    exact ht u hu ▸ registerFrame_retired h hu hp hw
  · have hu : Writes d x r (pushed r i x) :=
      (writeG_queue x hd (by rwa [h.toComputed.farq]) (by rwa [h.toComputed.cmode])).trans (pushQ_room x (.inr hroom))
    exact ht _ hu ▸ queueFrame_retired h hu hd hi

end

/-! ### Units of one destination -/

/-- An instruction that reads registers, and writes a value to one and retires. -/
def Yields (i : Instr) (d : GReg) (srcs : List GReg) : Prop :=
  ∀ (s r : State) (vs : List Word), Runs s → Reads srcs (begun s) vs r → ∃ x, ∀ u, Writes d x r u → exec i s = .next (retired s u)

theorem frames_of_yields {i : Instr} {d : GReg} {srcs : List GReg} (h : Yields i d srcs) : Frames i d srcs := by
  intro s r t vs hr hv he
  obtain ⟨x, hx⟩ := h s r vs hr hv
  exact frameAfter_of (onlyRead_reads_begun hv) fun u hu => Host.Outcome.next.inj (he.symm.trans (hx u hu))

theorem reads_length {ks : List GReg} {s t : State} {vs : List Word} (h : Reads ks s vs t) : vs.length = ks.length := by
  induction ks generalizing s vs with
  | nil => simp [h.1]
  | cons k ks ih =>
    obtain ⟨a, u, r, -, rfl, h2⟩ := h
    simp [ih h2]

section
variable {d s1 s2 s3 : GReg} {i : Instr}

theorem frames0 {m : U Word} {f : State → Word} (hm : ∀ t, m t = .ok (f t, t))
    (h : ∀ s, exec i s = runIn (do let x ← m; writeG d x; pure .next) s) : Frames i d [] := by
  refine frames_of_yields fun s r vs hr hv => ⟨f (begun s), fun u hu => ?_⟩
  rw [hv.2] at hu
  exact (h s).trans (unit_next hr (by rw [U_bind_ok (hm _), U_bind_ok hu]; rfl))

theorem frames1 {f : Word → Word} (he : ∀ s, exec i s = runIn (scalar1 d s1 f) s) : Frames i d [s1] := by
  refine frames_of_yields fun s r vs hr hv => ?_
  obtain ⟨a, rfl⟩ := List.length_eq_one_iff.1 (reads_length hv)
  refine ⟨f a, fun u hu => (he s).trans (unit_next hr ?_)⟩
  unfold scalar1
  rw [U_bind_ok (reads_one hv), U_bind_ok hu]
  rfl

theorem frames2 {f : Word → Word → Word} (he : ∀ s, exec i s = runIn (scalar2 d s1 s2 f) s) : Frames i d [s1, s2] := by
  refine frames_of_yields fun s r vs hr hv => ?_
  obtain ⟨a, b, rfl⟩ := List.length_eq_two.1 (reads_length hv)
  obtain ⟨v, h1, h2⟩ := reads_two hv
  refine ⟨f a b, fun u hu => (he s).trans (unit_next hr ?_)⟩
  unfold scalar2
  rw [U_bind_ok h1, U_bind_ok h2, U_bind_ok hu]
  rfl

theorem frames3 {mk : GReg → GReg → GReg → GReg → Instr} {f : Word → Word → Word → Word}
    (he : ∀ d s1 s2 s3 s, exec (mk d s1 s2 s3) s = runIn (scalar3 d s1 s2 s3 f) s) : Frames (mk d s1 s2 s3) d [s1, s2, s3] := by
  refine frames_of_yields fun s r vs hr hv => ?_
  obtain ⟨a, b, c, rfl⟩ := List.length_eq_three.1 (reads_length hv)
  exact ⟨f a b c, fun u hu => gives3_of he d s1 s2 s3 s r u a b c hr hv hu⟩

theorem framesI {n : Nat} {imm : BitVec n} {f : Word → Word → Word} (he : ∀ s, exec i s = runIn (scalarI d s1 imm f) s) : Frames i d [s1] := by
  refine frames_of_yields fun s r vs hr hv => ?_
  obtain ⟨a, rfl⟩ := List.length_eq_one_iff.1 (reads_length hv)
  refine ⟨f a (immSOf (prefixOf r.unitOf) imm), fun u hu => (he s).trans (unit_next hr ?_)⟩
  unfold scalarI
  rw [U_bind_ok (reads_one hv), U_bind_ok (immS_apply imm r), U_bind_ok hu]
  rfl

/-- The compact move is an OR with g0 (R43). -/
theorem frames_cMov : Frames (.cMov d s1) d [s1] := by
  refine frames_of_yields fun s r vs hr hv => ?_
  obtain ⟨a, rfl⟩ := List.length_eq_one_iff.1 (reads_length hv)
  refine ⟨a ||| 0#64, fun u hu => unit_next hr ?_⟩
  unfold scalar2
  rw [U_bind_ok (reads_one hv), U_bind_ok (readG_zero r), U_bind_ok hu]
  rfl

end

/-! ### Units that read their destination -/

theorem noRemap_plain {s : State} {d : GReg} (h : Plain s d) : noRemap d s = .ok ((), s) := by
  have hr : remap (s.ctx s.cur.1 s.cur.2).cmode d = none := by
    rcases h with rfl | ⟨h, -⟩
    · exact remap_low _ (by decide)
    · exact h
  unfold noRemap
  rw [U_bind_ok (curCtx_apply s), hr]
  rfl

theorem exec_bfi {d s1 s2 : GReg} {s r u : State} {a b : Word} (hs : Runs s) (hp : Plain s d) (hr : Reads [s1, s2] (begun s) [a, b] r)
    (hu : Writes d (fieldIn (r.g d) a b) r u) : exec (.bfi d s1 s2) s = .next (retired s u) := by
  obtain ⟨v, h1, h2⟩ := reads_two hr
  have hpr := ((onlyRead_reads_begun hr).toComputed.plain d).2 hp
  refine unit_next hs ?_
  rw [U_bind_ok (noRemap_plain (plain_begun hp)), U_bind_ok h1, U_bind_ok h2, U_bind_ok (readG_plain hpr), U_bind_ok hu]
  rfl

theorem exec_lih {d : GReg} {imm : BitVec 19} {s u : State} (hs : Runs s) (hp : Plain s d)
    (hu : Writes d ((immSOf (prefixOf s.unitOf) imm).setWidth 32 ++ ((begun s).g d).setWidth 32) (begun s) u) :
    exec (.lih d imm) s = .next (retired s u) := by
  have hb := plain_begun hp
  refine unit_next hs ?_
  rw [U_bind_ok (noRemap_plain hb), U_bind_ok (readG_plain hb), U_bind_ok (immS_apply imm _), begun_unitOf, U_bind_ok hu]
  rfl

/-! ### Header fields -/

theorem onlyRead_hdrPackFrom {c : Core} {s1 : GReg} {n k i : Nat} {x y : Word} {s t : State} (h : hdrPackFrom c s1 n k i x s = .ok (y, t)) :
    OnlyRead s t := by
  induction k generalizing i x s with
  | zero => cases h; exact .refl _
  | succ k ih =>
    unfold hdrPackFrom at h
    dsimp only at h
    split at h
    · exact ih h
    · obtain ⟨a, u, h1, h2⟩ := U_bind_inv h
      exact (onlyRead_readG h1).trans (ih h2)

theorem exec_hdrPack {d s1 : GReg} {n : BitVec 4} {s r u : State} {x : Word} (hs : Runs s)
    (hr : hdrPackFrom (begun s).mine s1 n.toNat 8 0 0#64 (begun s) = .ok (x, r)) (hu : Writes d x r u) :
    exec (.hdrPack d s1 n) s = .next (retired s u) :=
  unit_next hs ((U_bind_ok (curCore_apply _)).trans ((U_bind_ok hr).trans (U_bind_ok hu)))

theorem exec_hdrSplit {d s1 : GReg} {n : BitVec 4} {s r u : State} {x : Word} (hs : Runs s) (hr : Reads [s1] (begun s) [x] r)
    (hu : hdrSplitFrom r.mine d n.toNat x 8 0 r = .ok ((), u)) : exec (.hdrSplit d s1 n) s = .next (retired s u) := by
  refine unit_next hs ?_
  rw [U_bind_ok (reads_one hr), U_bind_ok (curCore_apply _)]
  exact U_bind_ok hu

/-- What writes to the registers that a property names leave as it was. -/
structure OnlyWrote (p : GReg → Prop) (s t : State) : Prop extends Computed s t where
  q : t.mine.q = s.mine.q
  wf : Memory.wf t.mine.store = true
  g : ∀ k, ¬ p k → t.g k = s.g k
  preds : ∀ k, t.p k = s.p k
  bytes : ∀ a, (∀ k, p k → a < regOff s.me k ∨ regOff s.me k + 8 ≤ a) → memGet t.mine.store a = memGet s.mine.store a

theorem OnlyWrote.refl (p : GReg → Prop) {s : State} (h : Memory.wf s.mine.store = true) : OnlyWrote p s s :=
  ⟨⟨.refl s, rfl⟩, rfl, h, fun _ _ => rfl, fun _ => rfl, fun _ _ => rfl⟩

theorem OnlyWrote.trans {p : GReg → Prop} {s t u : State} (h : OnlyWrote p s t) (g : OnlyWrote p t u) : OnlyWrote p s u :=
  ⟨h.toComputed.trans g.toComputed, g.q.trans h.q, g.wf, fun k hk => (g.g k hk).trans (h.g k hk), fun k => (g.preds k).trans (h.preds k),
    fun a ha => (g.bytes a (by simpa only [h.toComputed.regOff] using ha)).trans (h.bytes a ha)⟩

theorem pushed_g (s : State) (i : Nat) (w : Word) (k : GReg) : (pushed s i w).g k = s.g k := by
  simp only [State.g, rawG, regOff, Ctx.wsp, pushed_store, pushed_me]

theorem pushed_p (s : State) (i : Nat) (w : Word) (q : PReg) : (pushed s i w).p q = s.p q := by
  simp only [State.p, predOf, Ctx.wsp, pushed_store, pushed_me]

theorem onlyWrote_writeG {p : GReg → Prop} {s t : State} {k : GReg} {x : Word} (hp : p k) (h : Writes k x s t)
    (hw : Memory.wf s.mine.store = true) : OnlyWrote p s t := by
  have hc := computed_writeG h
  rcases writeG_inv h with ⟨-, rfl⟩ | ⟨hk, -, rfl⟩ | ⟨i, -, -, -, -, rfl⟩
  · exact .refl p hw
  · refine ⟨hc, ?_, ?_, fun j hj => modCore_setG_g x hw fun e => hj (e ▸ hp), modCore_setG_p x hw, fun a ha => ?_⟩ <;> rw [mine_modCore]
    · rw [setG, if_neg hk]
    · rw [setG_store _ _ x hk]
      exact memWf_memWrite _ _ _ hw
    · exact memGet_setG s.me x hw (ha k hp)
  · exact ⟨hc, pushed_q s i x, by rwa [pushed_store], fun j _ => pushed_g s i x j, pushed_p s i x, fun a _ => by rw [pushed_store]⟩

/-- HDR.split writes the registers of the fields that have a width. -/
theorem onlyWrote_hdrSplitFrom {c : Core} {d : GReg} {n k i : Nat} {x : Word} {s t : State} (h : hdrSplitFrom c d n x k i s = .ok ((), t))
    (hw : Memory.wf s.mine.store = true) :
    OnlyWrote (fun r => ∃ j, j < i + k ∧ (layoutField c n j).2 ≠ 0 ∧ r = d + BitVec.ofNat 5 j) s t := by
  induction k generalizing i s with
  | zero => cases h; exact .refl _ hw
  | succ k ih =>
    rw [show i + (k + 1) = i + 1 + k by omega]
    unfold hdrSplitFrom at h
    dsimp only at h
    split at h
    · obtain ⟨_, u, h1, h2⟩ := U_bind_inv h
      have hu := onlyWrote_writeG (p := fun r => ∃ j, j < i + 1 + k ∧ (layoutField c n j).2 ≠ 0 ∧ r = d + BitVec.ofNat 5 j)
        ⟨i, by omega, ‹_›, rfl⟩ h1 hw
      exact hu.trans (ih h2 hu.wf)
    · exact ih h hw

theorem hdrSplit_frame {d s1 : GReg} {n : BitVec 4} {s r u : State} {x : Word} (hr : Reads [s1] (begun s) [x] r)
    (hu : hdrSplitFrom r.mine d n.toNat x 8 0 r = .ok ((), u)) (hw : Memory.wf s.mine.store = true) :
    let t := retired s u
    let fields := (List.range 8).filter fun i => (layoutField s.mine n.toNat i).2 ≠ 0
    ComputeFrame s t ∧ t.me.v = s.me.v ∧ t.me.cflags = s.me.cflags ∧ (∀ q, t.p q = s.p q) ∧ t.mine.q = r.mine.q ∧
      (∀ k, (∀ i ∈ fields, k ≠ d + BitVec.ofNat 5 i) → t.g k = s.g k) ∧
      ∀ a, (∀ i ∈ fields, a < regOff s.me (d + BitVec.ofNat 5 i) ∨ regOff s.me (d + BitVec.ofNat 5 i) + 8 ≤ a) →
        memGet t.mine.store a = memGet s.mine.store a := by
  intro t fields
  have h := onlyRead_reads_begun hr
  have g := onlyWrote_hdrSplitFrom hu (h.store ▸ hw)
  have hc := h.toComputed.trans g.toComputed
  have hcur := hc.loc.cur
  have hl : ∀ j, layoutField r.mine n.toNat j = layoutField s.mine n.toNat j := fun j => by rw [layoutField, layoutField, h.loc.mine]
  have hm : ∀ {q : GReg → Prop}, (∀ i ∈ fields, q (d + BitVec.ofNat 5 i)) →
      ∀ k, (∃ j, j < 0 + 8 ∧ (layoutField r.mine n.toNat j).2 ≠ 0 ∧ k = d + BitVec.ofNat 5 j) → q k := by
    rintro q hq _ ⟨j, hj, hj0, rfl⟩
    exact hq j (List.mem_filter.2 ⟨List.mem_range.2 (by omega), by simpa [hl] using hj0⟩)
  obtain ⟨hf, hv, hfl⟩ := hc.frame
  refine ⟨hf, hv, hfl, fun q => ?_, (retired_q hcur).trans g.q, fun k hk => ?_, fun a ha => ?_⟩
  · exact (retired_p hcur q).trans ((g.preds q).trans (h.p q))
  · exact (retired_g hcur k).trans ((g.g k fun hj => hm (q := (k ≠ ·)) hk k hj rfl).trans (h.g k))
  · rw [retired_store hcur, g.bytes a (by simpa only [h.toComputed.regOff] using hm ha), h.store]

/-! ### Division -/

theorem writes_any {d : GReg} {x : Word} (y : Word) {r u : State} (h : Writes d x r u) : ∃ v, Writes d y r v := by
  rcases writeG_inv h with ⟨rfl, rfl⟩ | ⟨hd, hp, rfl⟩ | ⟨i, hd, hf, hr, hq, rfl⟩
  · exact ⟨_, writeG_zero y _⟩
  · exact writes_plain y hp
  · exact ⟨_, (writeG_queue y hd hf hr).trans (pushQ_room y hq)⟩

/-- DIV and REM retire with their result and leave the context BLOCKED (R142). -/
theorem divide_frame {i : Instr} {f : Word → Word → Word} {d s1 s2 : GReg} (he : ∀ s, exec i s = runIn (divide d s1 s2 f) s) {s r u t : State}
    {a b x : Word} (hs : Runs s) (hr : Reads [s1, s2] (begun s) [a, b] r) (hu : Writes d x r u) (ht : exec i s = .next t) :
    ∃ v, t = v.block s.cur.1 s.cur.2 (.interval (s.tick + 35)) ∧ FrameAfter d s r v := by
  obtain ⟨w, h1, h2⟩ := reads_two hr
  have hl := onlyRead_reads_begun hr
  have hd : ∀ v, Writes d (f a b) r v → exec i s = .next (paused s v (s.tick + 35)) := by
    intro v hv
    have htick : v.tick = s.tick := (hl.loc.trans (local_writeG hv)).tick
    have hm : divide d s1 s2 f (begun s) = .ok (.pause (.interval (s.tick + 35)), v) := by
      unfold divide
      rw [U_bind_ok h1, U_bind_ok h2, U_bind_ok hv, U_bind_ok (getS_apply v), htick]
      rfl
    exact (he s).trans (runIn_ok hs hm)
  obtain ⟨v, hv⟩ := writes_any (f a b) hu
  refine ⟨retired s v, Host.Outcome.next.inj (ht.symm.trans (hd v hv)), frameAfter_of (x := f a b) hl fun z hz => ?_⟩
  cases hv.symm.trans hz
  rfl

/-- Settles O6: by the shape of each unit; BFI and LIH read a destination that CMODE does not remap, HDR.split writes one register for each field. -/
theorem scalarFrame : Obligations.ScalarFrame := by
  refine ⟨⟨fun d s1 s2 s3 => ⟨?_, fun c => frames2 fun _ => rfl, fun sh => frames2 fun _ => rfl,
      fun k => ⟨frames2 fun _ => rfl, frames2 fun _ => rfl⟩, ?_, ?_, fun t => frames1 fun _ => rfl, ?_, fun imm => framesI fun _ => rfl, ?_,
      fun imm => frames0 (immS_apply imm) fun _ => rfl, frames0 (U_pure_apply _) fun _ => rfl⟩,
    fun d s1 => ⟨frames_cMov, ?_, ?_, fun n => frames0 (U_pure_apply _) fun _ => rfl⟩⟩,
    fun d s1 s2 s r t vs hs hp hr ht => ?_, fun d imm s t hs hp ht => ?_, fun d s1 n s r t x hs hr ht => ?_,
    fun d s1 n s r u t x hs hr hu hw ht => ?_, fun d s1 s2 s r u a b x hs hr hu mk hmk t ht => ?_⟩
  · intro mk hmk
    fin_cases hmk <;> exact frames2 fun _ => rfl
  · intro mk hmk
    fin_cases hmk <;> exact frames3 fun _ _ _ _ _ => rfl
  · intro mk hmk
    fin_cases hmk <;> exact frames1 fun _ => rfl
  · intro mk hmk n
    fin_cases hmk <;> exact frames1 fun _ => rfl
  · intro mk hmk imm
    fin_cases hmk <;> exact framesI fun _ => rfl
  · intro mk hmk
    fin_cases hmk <;> exact frames2 fun _ => rfl
  · intro mk hmk n
    fin_cases hmk
    · exact framesI fun _ => rfl
    all_goals exact frames1 fun _ => rfl
  · obtain ⟨a, b, rfl⟩ := List.length_eq_two.1 (reads_length hr)
    exact frameAfter_of (onlyRead_reads_begun hr) fun u hu => Host.Outcome.next.inj (ht.symm.trans (exec_bfi hs hp hr hu))
  · exact frameAfter_of (onlyRead_begun s) fun u hu => Host.Outcome.next.inj (ht.symm.trans (exec_lih hs hp hu))
  · exact frameAfter_of ((onlyRead_begun s).trans (onlyRead_hdrPackFrom hr)) fun u hu => Host.Outcome.next.inj (ht.symm.trans (exec_hdrPack hs hr hu))
  · rw [Host.Outcome.next.inj (ht.symm.trans (exec_hdrSplit hs hr hu))]
    exact hdrSplit_frame hr hu hw
  · fin_cases hmk <;> exact divide_frame (fun _ => rfl) hs hr hu ht

end Sys2Proof.Proofs
end

section
/-! PROOF. Control transfers (R35, R43, R48, R111 to R120, R431). -/

namespace Sys2Proof.Proofs
open Sys2Proof Sys2Proof.Machine Sys2Proof.Laws

/-! ### Branches and calls -/

section
variable {s t u : State} {n : Nat} (off : BitVec n)

/-- A branch that is always taken goes to its target (R115). -/
theorem unit_target (hs : Runs s) : runIn (do pure (.goto (← target off))) s = .next (jumped s (begun s) (targetOf s.unitOf off)) := by
  refine unit_goto hs ?_
  rw [U_bind_ok (target_apply off _), begun_unitOf]
  rfl

theorem unitOf_writeG {d : GReg} {x : Word} (h : Writes d x t u) : u.unitOf = t.unitOf := local_unitOf (local_writeG h)

theorem linkAddr_read (h : t.unitOf = s.unitOf) : linkAddr t = .ok (s.unitOf.addr + BitVec.ofNat 64 s.unitOf.size, t) := by
  rw [linkAddr_apply, h]

theorem exec_call (off : BitVec 24) (hs : Runs s) (hu : Writes 1#5 (s.unitOf.addr + BitVec.ofNat 64 s.unitOf.size) (begun s) u) :
    exec (.call off) s = .next (jumped s u (targetOf s.unitOf off)) := by
  refine unit_goto hs ?_
  rw [U_bind_ok (linkAddr_read (begun_unitOf s)), U_bind_ok hu, U_bind_ok (target_apply off u), unitOf_writeG hu, begun_unitOf]
  rfl

/-- A unit that branches on a condition. -/
theorem unit_branch_iff {b : Bool} {p : Prop} [Decidable p] {m : U After} (hs : Runs s) (hu : t.unitOf = s.unitOf)
    (hm : m (begun s) = branchIf b off t) (hb : b = true ↔ p) :
    runIn m s = .next (if p then jumped s t (targetOf s.unitOf off) else retired s t) :=
  (unit_branch hs hu hm).trans (by simp only [hb])

theorem exec_bcc {c : Cond} {s1 s2 : GReg} {off : BitVec 9} {a b : Word} (hs : Runs s) (hr : Reads [s1, s2] (begun s) [a, b] t) :
    exec (.bcc c s1 s2 off) s = .next (if condTrue c a b then jumped s t (targetOf s.unitOf off) else retired s t) := by
  obtain ⟨v, h1, h2⟩ := reads_two hr
  refine unit_branch hs (reads_begun_unitOf hr) ?_
  rw [U_bind_ok h1, U_bind_ok h2]

/-- A compact branch compares its register with g0 (R43). -/
theorem unit_compare {x : GReg} {a : Word} {c : Cond} {p : Prop} [Decidable p] (hs : Runs s) (hr : Reads [x] (begun s) [a] t)
    (hc : condTrue c a 0#64 = true ↔ p) :
    runIn (do branchIf (condTrue c (← readG x) 0#64) off) s = .next (if p then jumped s t (targetOf s.unitOf off) else retired s t) :=
  unit_branch_iff off hs (reads_begun_unitOf hr) (by rw [U_bind_ok (reads_one hr)]) hc

/-- A branch on a predicate (R119). -/
theorem unit_predTest {q : PReg} {c : PCond} {p : Prop} [Decidable p] (hs : Runs s) (hc : predTest c (s.p q) = true ↔ p) :
    runIn (do branchIf (predTest c (← readP q)) off) s =
      .next (if p then jumped s (begun s) (targetOf s.unitOf off) else retired s (begun s)) :=
  unit_branch_iff off hs (begun_unitOf s) (U_bind_ok (readP_apply q _)) (by rw [← hc, ← begun_p]; rfl)

theorem exec_loop {ctr : GReg} {off : BitVec 9} {w : Word} (hs : Runs s) (hr : Reads [ctr] (begun s) [w] t) (hu : Writes ctr (w - 1#64) t u) :
    exec (.loop ctr off) s = .next (if w ≠ 1#64 then jumped s u (targetOf s.unitOf off) else retired s u) := by
  refine unit_branch_iff (b := w - 1#64 != 0#64) off hs ((unitOf_writeG hu).trans (reads_begun_unitOf hr)) ?_ ?_
  · rw [U_bind_ok (reads_one hr)]
    exact U_bind_ok hu
  · rw [bne_iff_ne, ne_eq, ne_eq, BitVec.sub_eq_iff_eq_add, BitVec.zero_add]

end

/-! ### Jumps through a register -/

section
variable {s t u : State} {s1 : GReg} {a : Word}

/-- An even target is jumped to, with nothing written where no link is asked for (R112, R120). -/
theorem unit_jump (hs : Runs s) (hr : Reads [s1] (begun s) [a] t) (ha : a.getLsbD 0 = false) : runIn (jumpReg s1 none) s = .next (jumped s t a) := by
  refine unit_goto hs ?_
  unfold jumpReg
  rw [U_bind_ok (reads_one hr), ha]
  rfl

theorem unit_jump_link {d : GReg} (hs : Runs s) (hr : Reads [s1] (begun s) [a] t) (ha : a.getLsbD 0 = false)
    (hu : Writes d (s.unitOf.addr + BitVec.ofNat 64 s.unitOf.size) t u) : runIn (jumpReg s1 (some d)) s = .next (jumped s u a) := by
  refine unit_goto hs ?_
  unfold jumpReg
  rw [U_bind_ok (reads_one hr), ha, U_bind_ok (stopIf_false _ _ t)]
  dsimp only
  rw [U_bind_ok (linkAddr_read (reads_begun_unitOf hr)), U_bind_ok hu]
  rfl

/-- An odd target traps before anything is written (R48). -/
theorem unit_jump_odd (link : Option GReg) (hs : Runs s) (hr : Reads [s1] (begun s) [a] t) (ha : a.getLsbD 0 = true) :
    runIn (jumpReg s1 link) s = .next (trapped s { cause := .misalignedTarget, addr := a }) := by
  refine runIn_trap hs ?_
  unfold jumpReg
  rw [U_bind_ok (reads_one hr), ha]
  exact U_bind_error (stopIf_true _ _ t)

end

/-! ### Conditions -/

/-- The conditions compare for equality and, as signed and as unsigned numbers, for order (R35). -/
theorem condTrue_eq (a b : Word) : condTrue .eq a b = decide (a = b) ∧ condTrue .ne a b = decide (a ≠ b) ∧
    condTrue .lt a b = decide (a.toInt < b.toInt) ∧ condTrue .ge a b = decide (b.toInt ≤ a.toInt) ∧
    condTrue .ltn a b = decide (a.toNat < b.toNat) ∧ condTrue .gen a b = decide (b.toNat ≤ a.toNat) := by
  refine ⟨rfl, ?_, rfl, ?_, rfl, ?_⟩
  · exact (decide_not (p := a = b)).symm
  · show (!decide (a.toInt < b.toInt)) = _
    rw [← decide_not]
    exact decide_eq_decide.2 Int.not_lt
  · show (!decide (a.toNat < b.toNat)) = _
    rw [← decide_not]
    exact decide_eq_decide.2 Nat.not_lt

/-- Settles O7: units without a condition, jumps through a register to even and to odd targets, and branches on each condition. -/
theorem controlTransfers : Obligations.ControlTransfers := by
  refine ⟨fun s hs => ⟨unit_next (m := pure .next) hs rfl, unit_next (m := pure .next) hs rfl, fun off => unit_target off hs, fun off => unit_target off hs,
      fun off u hu => exec_call off hs hu, fun s1 t a hr ha => ⟨unit_jump hs hr ha, unit_jump hs hr ha, ?_, fun d u hu => ⟨unit_jump_link hs hr ha hu, ?_⟩⟩,
      fun s1 t a d hr ha => ⟨unit_jump_odd _ hs hr ha, unit_jump_odd _ hs hr ha, unit_jump_odd _ hs hr ha, unit_jump_odd _ hs hr ha, ?_⟩⟩,
    fun s t hs => ⟨fun c s1 s2 off a b hr => exec_bcc hs hr,
      fun x off a hr => ⟨unit_compare off hs hr beq_iff_eq, unit_compare off hs hr bne_iff_ne⟩,
      fun q off => unit_predTest off hs bne_iff_ne, fun q off => unit_predTest off hs beq_iff_eq, fun q off => unit_predTest off hs beq_iff_eq,
      fun q off => unit_predTest off hs bne_iff_ne, fun ctr off w u hr hu => exec_loop hs hr hu⟩, condTrue_eq⟩
  · rintro rfl
    exact ⟨unit_jump hs hr ha, unit_jump hs hr ha⟩
  · rintro rfl
    exact unit_jump_link hs hr ha hu
  · rintro rfl
    exact ⟨unit_jump_odd _ hs hr ha, unit_jump_odd _ hs hr ha⟩

end Sys2Proof.Proofs
end

section
/-! PROOF. Repetition, and units behind an EXT (R28, R36 to R38, R109, R121, R123). -/

namespace Sys2Proof.Proofs
open Sys2Proof Sys2Proof.Machine Sys2Proof.Laws

/-! ### REP -/

section
variable {s t : State} {s1 : GReg} {n : BitVec 4} {kind : RepKind} {base : BitVec 5} {sz : BitVec 3} {stride : BitVec 5} {c : Word}
  (hs : Runs s) (hr : Reads [s1] (begun s) [c] t)
include hs hr

theorem exec_rep_trap (hc : c.toNat > 4096) : exec (.rep s1 n kind base sz stride) s = .next (trapped s { cause := .repeatCount }) := by
  refine runIn_trap hs ?_
  rw [U_bind_ok (reads_one hr), decide_eq_true hc]
  exact U_bind_error (stopIf_true _ _ t)

theorem exec_rep_zero {pc : Word} {u : State} (hc : c = 0#64)
    (hu : skipUnits (n.toNat + 1) (s.unitOf.addr + BitVec.ofNat 64 s.unitOf.size) t = .ok (pc, u)) :
    exec (.rep s1 n kind base sz stride) s = .next (jumped s u pc) := by
  refine unit_goto hs ?_
  subst hc
  rw [U_bind_ok (reads_one hr), decide_eq_false (by decide), U_bind_ok (stopIf_false _ _ t), U_bind_ok (curUnit_apply t), reads_begun_unitOf hr]
  exact U_bind_ok hu

theorem exec_rep_begins (h0 : 0 < c.toNat) (hc : c.toNat ≤ 4096) : exec (.rep s1 n kind base sz stride) s = .next (jumped s
    (t.modCtx s.cur.1 s.cur.2 fun v => { v with
      rep := some { word := s.unitOf.word, addr := s.unitOf.addr, index := 0, pass := 0, remaining := c.toNat - 1 } })
    (s.unitOf.addr + BitVec.ofNat 64 s.unitOf.size)) := by
  refine unit_goto hs ?_
  have hcur : t.cur = s.cur := (reads_cur hr).trans (begun_cur s)
  have hne : c ≠ 0#64 := by
    rintro rfl
    exact absurd h0 (by decide)
  rw [U_bind_ok (reads_one hr), decide_eq_false (by omega), U_bind_ok (stopIf_false _ _ t), U_bind_ok (curUnit_apply t),
    reads_begun_unitOf hr]
  rw [if_neg hne, U_bind_ok (updCtx_apply _ t), hcur]
  rfl

end

/-! ### Fetched bytes -/

theorem fetchHalf_length {va : Word} {s t : State} {bs : List Byte} (h : fetchHalf va s = .ok (bs, t)) : bs.length = 2 := by
  unfold fetchHalf at h
  obtain ⟨⟨pa, e⟩, u, -, h⟩ := U_bind_inv h
  dsimp only at h
  rw [U_bind_ok (updCtx_apply _ u), U_bind_ok (getS_apply _)] at h
  split at h
  · obtain ⟨x, v, -, h⟩ := U_bind_inv h
    cases h
    exact toBytes_length 2 x
  · split at h
    · cases h
    · cases h
      exact memBytes_length _ _ _

/-- The halfwords of a unit, by the low bytes of its first and its third (R28). -/
theorem fetchUnit_cases {pc : Word} {s t : State} {bs : List Byte} (h : fetchUnit pc s = .ok (bs, t)) :
    ∃ a : List Byte, a.length = 2 ∧
      (((a.headD 0#8).getLsbD 0 = false ∧ bs = a) ∨ ((a.headD 0#8).getLsbD 0 = true ∧ a.headD 0#8 ≠ 0xFF#8 ∧ ∃ b : List Byte, b.length = 2 ∧ bs = a ++ b) ∨
        (a.headD 0#8 = 0xFF#8 ∧ ∃ b c : List Byte, b.length = 2 ∧ c.length = 2 ∧
          (((c.headD 0#8).getLsbD 0 = false ∧ bs = a ++ b ++ c) ∨
            ((c.headD 0#8).getLsbD 0 = true ∧ ∃ d : List Byte, d.length = 2 ∧ bs = a ++ b ++ c ++ d)))) := by
  unfold fetchUnit at h
  obtain ⟨a, u, ha, h⟩ := U_bind_inv h
  refine ⟨a, fetchHalf_length ha, ?_⟩
  split at h
  · cases h
    exact .inl ⟨‹_›, rfl⟩
  · obtain ⟨b, v, hb, h⟩ := U_bind_inv h
    split at h
    · cases h
      exact .inr (.inl ⟨by simpa using ‹¬ (a.headD 0#8).getLsbD 0 = false›, ‹_›, b, fetchHalf_length hb, rfl⟩)
    · obtain ⟨c, w, hc, h⟩ := U_bind_inv h
      refine .inr (.inr ⟨not_not.1 ‹_›, b, c, fetchHalf_length hb, fetchHalf_length hc, ?_⟩)
      split at h
      · cases h
        exact .inl ⟨‹_›, rfl⟩
      · obtain ⟨d, x, hd, h⟩ := U_bind_inv h
        cases h
        exact .inr ⟨by simpa using ‹¬ (c.headD 0#8).getLsbD 0 = false›, d, fetchHalf_length hd, rfl⟩

theorem headD_append {a : List Byte} (b : List Byte) (h : a.length = 2) : (a ++ b).headD 0#8 = a.headD 0#8 := by
  match a, h with
  | _ :: _, _ => rfl

theorem getD_third {a b : List Byte} (c : List Byte) (ha : a.length = 2) (hb : b.length = 2) : (a ++ b ++ c).getD 4 0#8 = c.headD 0#8 := by
  match a, b, ha, hb with
  | [_, _], [_, _], _, _ => cases c <;> rfl

/-- The bytes of a unit tell its length (R28). -/
theorem fetchUnit_length {pc : Word} {s t : State} {bs : List Byte} (h : fetchUnit pc s = .ok (bs, t)) :
    ((bs.headD 0#8).getLsbD 0 = false → bs.length = 2) ∧ ((bs.headD 0#8).getLsbD 0 = true → bs.headD 0#8 ≠ 0xFF#8 → bs.length = 4) ∧
      (bs.headD 0#8 = 0xFF#8 → bs.length = if (bs.getD 4 0#8).getLsbD 0 then 8 else 6) := by
  obtain ⟨a, ha, ⟨h0, rfl⟩ | ⟨h0, h1, b, hb, rfl⟩ | ⟨h1, b, c, hb, hc, hc'⟩⟩ := fetchUnit_cases h
  · refine ⟨fun _ => ha, fun e => absurd (h0.symm.trans e) (by decide), fun e => ?_⟩
    rw [e] at h0
    exact absurd h0 (by decide)
  · rw [headD_append b ha]
    exact ⟨fun e => absurd (h0.symm.trans e) (by decide), fun _ _ => by simp [ha, hb], fun e => absurd e h1⟩
  · have hh : bs.headD 0#8 = 0xFF#8 := by
      rcases hc' with ⟨-, rfl⟩ | ⟨-, d, -, rfl⟩ <;> simp only [List.append_assoc, headD_append _ ha, h1]
    rw [hh]
    refine ⟨fun e => absurd e (by decide), fun _ e => absurd rfl e, fun _ => ?_⟩
    rcases hc' with ⟨h2, rfl⟩ | ⟨h2, d, hd, rfl⟩
    · rw [getD_third c ha hb, h2]
      simp [ha, hb, hc]
    · rw [List.append_assoc (a ++ b), getD_third (c ++ d) ha hb, headD_append d hc, h2]
      simp [ha, hb, hc, hd]

theorem skipUnits_succ {pc : Word} {s t : State} {bs : List Byte} (n : Nat) (h : fetchUnit pc s = .ok (bs, t)) :
    skipUnits (n + 1) pc s = skipUnits n (pc + BitVec.ofNat 64 bs.length) t := U_bind_ok h

/-! ### Prefixes -/

/-- The payload of an EXT as the modifiers of a format V body: the mod field is 0, the payload's bits 5 to 23 are, and its mode, dynamic and saturation
fields have a meaning (R36). -/
def FitsModifiers (p : BitVec 24) (m : BitVec 2) (rounds saturates : Prop) : Prop :=
  m = 0#2 ∧ p.extractLsb' 5 19 = 0#19 ∧ (p.extractLsb' 0 3).toNat ≤ 5 ∧ (p.getLsbD 4 = true → p.extractLsb' 0 3 = 0#3) ∧
    (¬ rounds → p.extractLsb' 0 3 = 0#3 ∧ p.getLsbD 4 = false) ∧ (¬ saturates → p.getLsbD 3 = false)

section
variable {p : BitVec 24} {i : Instr} {m : BitVec 2} {r s : Bool}

theorem prefixFits_modifiers {R S : Prop} (hi : takesImmediate i = false) (hm : vModifiers i = some (m, r, s)) (hr : r = true ↔ R) (hs : s = true ↔ S) :
    prefixFits p i = true ↔ FitsModifiers p m R S := by
  rw [prefixFits, hi, hm, FitsModifiers, ← hr, ← hs]
  simp only [Bool.false_or, Bool.and_eq_true, Bool.or_eq_true, Bool.not_eq_true', Bool.and_eq_false_iff, beq_iff_eq, bne_eq_false_iff_eq,
    decide_eq_true_eq, Bool.not_eq_true, and_assoc]
  grind

/-- With no meaning for a modifier, only the payload 0 fits. -/
theorem fitsModifiers_none : FitsModifiers p 0#2 False False ↔ p = 0#24 := by
  refine ⟨fun h => ?_, fun h => by subst h; simp [FitsModifiers]⟩
  obtain ⟨-, h5, -, -, h0, h3⟩ := h
  obtain ⟨h0, h4⟩ := h0 not_false
  apply BitVec.eq_of_getLsbD_eq
  intro i hi
  have f0 := congrArg (·.getLsbD i) h0
  have f5 := congrArg (·.getLsbD (i - 5)) h5
  have f3 := h3 not_false
  rcases (by omega : i < 3 ∨ i = 3 ∨ i = 4 ∨ 5 ≤ i) with h | rfl | rfl | h
  · simpa [h] using f0
  · simpa using f3
  · simpa using h4
  · simpa [show 5 + (i - 5) = i by omega, show i - 5 < 19 by omega] using f5

theorem prefixFits_plain (hi : takesImmediate i = false) (hm : vModifiers i = some (0#2, false, false)) : prefixFits p i = true ↔ p = 0#24 :=
  (prefixFits_modifiers hi hm (by decide) (by decide)).trans fitsModifiers_none

theorem prefixFits_immediate (hi : takesImmediate i = true) : prefixFits p i = true := by rw [prefixFits, hi, Bool.true_or]

end

/-- The majors of the bodies that an EXT may stand before (R36). -/
def BodyMajor (n : Nat) : Prop :=
  n ∈ [1, 2, 3, 4, 8, 0x11, 0x1C, 0x2A, 0x2B, 0x50, 0x51, 0x54, 0x55, 0x58, 0x59, 0x5A, 0x5B, 0x5C, 0x6E] ∨ (0x30 ≤ n ∧ n ≤ 0x4F ∧ n ≠ 0x3D)

theorem takesImmediate_word {i : Instr} (h : takesImmediate i = true) : ∃ w, encodeWord i = some w ∧ BodyMajor (w.extractLsb' 1 7).toNat := by
  unfold takesImmediate at h
  split at h
  case h_22 => cases h
  all_goals
    refine ⟨_, rfl, ?_⟩
    simp only [HAppend.hAppend, bits_low, Nat.reduceAdd, Nat.reduceLeDiff, BitVec.reduceExtractLsb']
    simp [BodyMajor]

theorem vModifiers_word {i : Instr} {m : BitVec 2 × Bool × Bool} (h : vModifiers i = some m) :
    ∃ w, encodeWord i = some w ∧ BodyMajor (w.extractLsb' 1 7).toNat := by
  unfold vModifiers at h
  split at h
  case h_64 => cases h
  all_goals
    refine ⟨_, rfl, ?_⟩
    simp only [HAppend.hAppend, bits_low, Nat.reduceAdd, Nat.reduceLeDiff, BitVec.reduceExtractLsb']
    simp [BodyMajor]

theorem exec_prefixed_immediate {p : BitVec 24} {i : Instr} (s : State) (h : takesImmediate i = true) : exec (.extPrefixedUnit p i) s = exec i s := by
  refine (if_pos (prefixFits_immediate h)).trans ?_
  unfold takesImmediate at h
  split at h
  case h_22 => cases h
  all_goals rfl

theorem exec_prefixed_modifiers {p : BitVec 24} {i : Instr} (s : State) {m : BitVec 2 × Bool × Bool} (h : vModifiers i = some m)
    (hp : prefixFits p i = true) : exec (.extPrefixedUnit p i) s = exec i s := by
  refine (if_pos hp).trans ?_
  unfold vModifiers at h
  split at h
  case h_64 => cases h
  all_goals rfl

/-- What an EXT may stand before has an immediate, or modifiers that the payload fits (R36). -/
theorem prefixFits_body {p : BitVec 24} {i : Instr} (h : prefixFits p i = true) : takesImmediate i = true ∨ ∃ m, vModifiers i = some m := by
  rw [prefixFits, Bool.or_eq_true] at h
  refine h.imp_right fun h => ?_
  split at h
  · cases h
  · exact ⟨_, ‹_›⟩

theorem prefixFits_word {p : BitVec 24} {i : Instr} (h : prefixFits p i = true) : ∃ w, encodeWord i = some w ∧ BodyMajor (w.extractLsb' 1 7).toNat :=
  (prefixFits_body h).elim takesImmediate_word fun ⟨_, hm⟩ => vModifiers_word hm

theorem exec_prefixed {p : BitVec 24} {i : Instr} (s : State) (h : prefixFits p i = true) : exec (.extPrefixedUnit p i) s = exec i s :=
  (prefixFits_body h).elim (exec_prefixed_immediate s) fun ⟨_, hm⟩ => exec_prefixed_modifiers s hm h

theorem exec_prefixed_illegal {p : BitVec 24} {i : Instr} {s : State} (hs : Runs s) (h : prefixFits p i = false) :
    exec (.extPrefixedUnit p i) s = .next (trapped s { cause := .illegal }) :=
  (if_neg (by simp [h])).trans (runIn_trap hs rfl)

/-! ### What follows a unit -/

theorem repStep_none {x : Ctx} (u : UnitInfo) (h : x.rep = none) : repStep x u = (u.addr + BitVec.ofNat 64 u.size, none) := by rw [repStep, h]

section
variable {x : Ctx} {u : UnitInfo} {r : RepState} (h : x.rep = some r)
include h

theorem repStep_rep (ha : u.addr = r.addr) : repStep x u = (u.addr + BitVec.ofNat 64 u.size, some r) := by
  simp only [repStep, h, if_pos ha]

theorem repStep_body (ha : u.addr ≠ r.addr) (hi : r.index < (r.word.extractLsb' 28 4).toNat) :
    repStep x u = (u.addr + BitVec.ofNat 64 u.size, some { r with index := r.index + 1 }) := by
  simp only [repStep, h, if_neg ha, if_pos hi]

theorem repStep_pass (ha : u.addr ≠ r.addr) (hi : (r.word.extractLsb' 28 4).toNat ≤ r.index) (hr : 0 < r.remaining) :
    repStep x u = (r.addr + 4#64, some { r with index := 0, pass := r.pass + 1, remaining := r.remaining - 1 }) := by
  simp only [repStep, h, if_neg ha, if_neg hi.not_gt, if_neg hr.ne']

theorem repStep_end (ha : u.addr ≠ r.addr) (hi : (r.word.extractLsb' 28 4).toNat ≤ r.index) (hr : r.remaining = 0) :
    repStep x u = (u.addr + BitVec.ofNat 64 u.size, none) := by
  simp only [repStep, h, if_neg ha, if_neg hi.not_gt, if_pos hr]

end

/-- Settles O8: REP by its count, the units passed over, the bodies that take an EXT by what the payload means to them, and immediates. -/
theorem repetition : Obligations.Repetition := by
  refine ⟨⟨fun s t s1 n kind base sz stride c hs hr => ⟨exec_rep_trap hs hr, fun pc u => exec_rep_zero hs hr, exec_rep_begins hs hr⟩,
      fun x u => ⟨repStep_none u, fun r h => ⟨repStep_rep h, fun ha => ⟨repStep_body h ha, repStep_pass h ha, repStep_end h ha⟩⟩⟩⟩,
    fun pc n bs s t => ⟨rfl, fun h => ⟨skipUnits_succ n h, fetchUnit_length h⟩⟩, ?_,
    fun i p h => by_contra fun hp => ?_, fun p i s => exec_prefixed s,
    fun p => givesI_of fun d s1 imm s => exec_prefixed s (prefixFits_immediate rfl), fun p i s hs => exec_prefixed_illegal hs,
    fun u n f => ⟨fun h => ?_, fun w h => ?_⟩⟩
  · intro p fits takes
    refine ⟨⟨fun _ => ⟨rfl, rfl⟩, fun _ _ _ _ => rfl, fun _ _ => rfl, fun _ _ _ => rfl, fun _ _ _ => rfl, fun _ _ _ => ⟨rfl, rfl, rfl, rfl⟩,
        fun _ _ => ⟨rfl, rfl⟩, fun _ _ _ _ _ => ⟨rfl, rfl, rfl, rfl, rfl, rfl, rfl, rfl, rfl⟩⟩,
      fun d a b q t st m x => ⟨fun mk h => ?_, fun mk h => ?_, fun mk h => ?_, fun mk h => ?_, fun mk h => ?_, fun mk h => ?_, fun mk h => ?_, fun mk h => ?_⟩,
      fun d a g h k q r n c t l u => ⟨fun mk h => ?_, fun mk h => ?_, fun mk h => ?_, prefixFits_plain rfl rfl, prefixFits_plain rfl rfl,
        prefixFits_plain rfl rfl, prefixFits_plain rfl rfl, prefixFits_plain rfl rfl, prefixFits_plain rfl rfl, prefixFits_plain rfl rfl⟩,
      fun i w hw hp => ?_⟩
    · fin_cases h <;> exact prefixFits_modifiers rfl rfl (by simp) .rfl
    · fin_cases h <;> exact prefixFits_modifiers rfl rfl (by simp) .rfl
    · fin_cases h <;> exact prefixFits_modifiers rfl rfl (by simp) (by simp)
    · fin_cases h <;> exact prefixFits_modifiers rfl rfl (by simp) (by simp)
    · fin_cases h <;> exact prefixFits_modifiers rfl rfl (by simp) .rfl
    · fin_cases h <;> exact prefixFits_modifiers rfl rfl (by simp) .rfl
    · fin_cases h <;> exact prefixFits_plain rfl rfl
    · fin_cases h <;> exact prefixFits_plain rfl rfl
    · fin_cases h <;> exact prefixFits_plain rfl rfl
    · fin_cases h <;> exact prefixFits_plain rfl rfl
    · fin_cases h <;> exact prefixFits_plain rfl rfl
    · obtain ⟨v, hv, hm⟩ := prefixFits_word hp
      cases hw.symm.trans hv
      exact hm
  · obtain ⟨v, hv, -⟩ := prefixFits_word (eq_true_of_ne_false hp)
    cases h.symm.trans hv
  · rw [prefixOf, h]
    rfl
  · rw [prefixOf, h]
    rfl

end Sys2Proof.Proofs
end

section
/-! PROOF. Fetching, and which context issues (R28, R45 to R49, R99 to R102, R113, R123, R124). -/

namespace Sys2Proof.Proofs
open Sys2Proof Sys2Proof.Machine Sys2Proof.Laws

/-! ### What a translation leaves as it was -/

/-- A translation and what it costs stay in the TLBs, the walk caches and the budgets: contexts, memory and whose turn it is are as they were. -/
structure Translated (s t : State) : Prop where
  cur : t.cur = s.cur
  tick : t.tick = s.tick
  mem : t.mem = s.mem
  ctx : ∀ k x, t.ctx k x = s.ctx k x

theorem Translated.refl (s : State) : Translated s s := ⟨rfl, rfl, rfl, fun _ _ => rfl⟩

theorem Translated.trans {s t u : State} (h : Translated s t) (g : Translated t u) : Translated s u :=
  ⟨g.cur.trans h.cur, g.tick.trans h.tick, g.mem.trans h.mem, fun k x => (g.ctx k x).trans (h.ctx k x)⟩

theorem translated_payWalk (s : State) (k cls : Nat) (root : Word) (ea tick : Nat) : Translated s (s.payWalk k cls root ea tick) := by
  unfold State.payWalk
  split
  · exact ⟨rfl, rfl, rfl, fun _ _ => rfl⟩
  · exact .refl s

theorem ctx_modCore_keeps (s : State) (k j y : Nat) (f : Core → Core) (h : (f (s.core k)).ctxs = (s.core k).ctxs) :
    (s.modCore k f).ctx j y = s.ctx j y := by
  by_cases hj : j = k
  · subst hj
    rw [State.ctx, core_modCore, Core.ctx, h]
    rfl
  · rw [State.ctx, core_modCore_other s f hj]
    rfl

theorem translated_tlbFill (s : State) (k : Nat) (e : TlbEntry) (tables : List TlbEntry) : Translated s (s.tlbFill k e tables) :=
  ⟨rfl, rfl, rfl, fun j y => ctx_modCore_keeps s k j y (fun c => { c with tlb := tlbPut Config.l1Tlb c.tlb e }) rfl⟩

theorem except_bind_ok {ε α β : Type} {x : Except ε α} {f : α → Except ε β} {b : β} (h : x >>= f = .ok b) : ∃ a, x = .ok a ∧ f a = .ok b := by
  cases x with
  | ok a => exact ⟨a, rfl, h⟩
  | error e => cases h

theorem translated_translate {s t : State} {k kind pa : Nat} {root ea : Word} {e : TlbEntry} (h : s.translate k root ea kind = .ok (pa, e, t)) :
    Translated s t := by
  unfold State.translate at h
  dsimp only at h
  split at h
  · cases h
  · split at h
    · obtain ⟨a, -, h⟩ := except_bind_ok h
      cases h
      exact .refl _
    · obtain ⟨⟨e', tables⟩, -, h⟩ := except_bind_ok h
      obtain ⟨a, -, h⟩ := except_bind_ok h
      cases h
      exact translated_tlbFill s k _ tables

theorem translated_translateU {s t : State} {ea : Word} {kind : Nat} {r : Nat × TlbEntry} (h : translateU ea kind s = .ok (r, t)) : Translated s t := by
  unfold translateU at h
  rw [U_bind_ok (getS_apply s)] at h
  dsimp only at h
  split at h
  · cases h
  · generalize hx : State.translate _ _ _ _ _ = x at h
    cases x with
    | error f => cases h
    | ok y =>
      cases h
      exact (translated_payWalk ..).trans (translated_translate hx)

/-! ### Fetching -/

/-- Fetching changes of the contexts only which translations the unit of the issuing one has used (R407). -/
structure Fetched (s t : State) : Prop where
  cur : t.cur = s.cur
  tick : t.tick = s.tick
  mem : t.mem = s.mem
  ctx : ∀ k x, t.ctx k x = { s.ctx k x with fetched := (t.ctx k x).fetched }

theorem Fetched.refl (s : State) : Fetched s s := ⟨rfl, rfl, rfl, fun _ _ => rfl⟩

theorem Fetched.trans {s t u : State} (h : Fetched s t) (g : Fetched t u) : Fetched s u :=
  ⟨g.cur.trans h.cur, g.tick.trans h.tick, g.mem.trans h.mem, fun k x => by rw [g.ctx, h.ctx]⟩

theorem Translated.fetched {s t : State} (h : Translated s t) : Fetched s t := ⟨h.cur, h.tick, h.mem, fun k x => by rw [h.ctx]⟩

theorem fetched_modCtx (s : State) (k x : Nat) (f : Ctx → Ctx) (h : ∀ v, f v = { v with fetched := (f v).fetched }) : Fetched s (s.modCtx k x f) := by
  refine ⟨rfl, rfl, rfl, fun j y => ?_⟩
  by_cases hj : j = k
  · subst hj
    by_cases hy : y = x
    · subst hy
      rw [ctx_modCtx, h]
    · simp only [State.ctx, core_modCtx, core_ctx_setCtx_other _ _ hy]
  · simp only [State.ctx, core_modCtx_other s x f hj]

theorem fetched_hostLoad {s t : State} {pa n x : Nat} (h : hostLoad pa n s = .ok (x, t)) : t = s := by
  unfold hostLoad at h
  rw [U_bind_ok (curCtx_apply s)] at h
  generalize List.find? _ _ = y at h
  cases y <;> cases h
  rfl

theorem noteFetched_apply (e : TlbEntry) (s : State) :
    updCtx (fun v => { v with fetched := if v.fetched.contains e then v.fetched else v.fetched ++ [e] }) s = .ok ((), fetchedThrough s e) := rfl

theorem fetched_fetchedThrough (s : State) (e : TlbEntry) : Fetched s (fetchedThrough s e) := fetched_modCtx s _ _ _ fun _ => rfl

theorem fetched_fetchHalf {va : Word} {s t : State} {bs : List Byte} (h : fetchHalf va s = .ok (bs, t)) : Fetched s t := by
  unfold fetchHalf at h
  obtain ⟨⟨pa, e⟩, u, hu, h⟩ := U_bind_inv h
  dsimp only at h
  rw [U_bind_ok (noteFetched_apply e u), U_bind_ok (getS_apply _)] at h
  refine (translated_translateU hu).fetched.trans ((fetched_fetchedThrough u e).trans ?_)
  split at h
  · obtain ⟨x, v, hv, h⟩ := U_bind_inv h
    cases h
    rw [fetched_hostLoad hv]
    exact .refl _
  · split at h <;> cases h
    exact .refl _

theorem fetched_fetchUnit {pc : Word} {s t : State} {bs : List Byte} (h : fetchUnit pc s = .ok (bs, t)) : Fetched s t := by
  unfold fetchUnit at h
  obtain ⟨a, u, ha, h⟩ := U_bind_inv h
  refine (fetched_fetchHalf ha).trans ?_
  split at h
  · cases h
    exact .refl _
  · obtain ⟨b, v, hb, h⟩ := U_bind_inv h
    refine (fetched_fetchHalf hb).trans ?_
    split at h
    · cases h
      exact .refl _
    · obtain ⟨c, w, hc, h⟩ := U_bind_inv h
      refine (fetched_fetchHalf hc).trans ?_
      split at h
      · cases h
        exact .refl _
      · obtain ⟨d, x, hd, h⟩ := U_bind_inv h
        cases h
        exact fetched_fetchHalf hd

theorem fetchHalf_apply {va : Word} {s t : State} {pa : Nat} {e : TlbEntry} (h : translateU va 2 s = .ok ((pa, e), t)) (hh : hostResident pa = false)
    (hp : (fetchedThrough t e).needPage pa t.cur.1 false = none) : fetchHalf va s = .ok (memBytes t.mem pa 2, fetchedThrough t e) := by
  unfold fetchHalf
  rw [U_bind_ok h]
  dsimp only
  rw [U_bind_ok (noteFetched_apply e t), U_bind_ok (getS_apply _), hh, if_neg (by decide),
    show (fetchedThrough t e).cur = t.cur from rfl, hp]
  rfl

/-- The halfwords of a unit, as many as its first and its third one ask for (R28). -/
theorem fetchUnit_apply {pc : Word} {s t u v w : State} {a b c d : List Byte} (ha : fetchHalf pc s = .ok (a, t)) (hb : fetchHalf (pc + 2#64) t = .ok (b, u))
    (hc : fetchHalf (pc + 4#64) u = .ok (c, v)) (hd : fetchHalf (pc + 6#64) v = .ok (d, w)) : fetchUnit pc s =
      if (a.headD 0#8).getLsbD 0 = false then .ok (a, t)
      else if a.headD 0#8 ≠ 0xFF#8 then .ok (a ++ b, u)
      else if (c.headD 0#8).getLsbD 0 = false then .ok (a ++ b ++ c, v)
      else .ok (a ++ b ++ c ++ d, w) := by
  unfold fetchUnit
  rw [U_bind_ok ha]
  split
  · rfl
  · rw [U_bind_ok hb]
    split
    · rfl
    · rw [U_bind_ok hc]
      split
      · rfl
      · rw [U_bind_ok hd]
        rfl

/-! ### The unit that a turn runs -/

section
variable {s t u : State} {k x : Nat} {bytes : List Byte}

theorem step_of_turns (h : Turns s k x t) : step s = issue t k x := by
  obtain ⟨hn, hr, v, hp, rfl⟩ := h
  unfold step
  rw [hn]
  show (if coreRuns { s with turn := k + 1 } k then _ else _) = _
  rw [if_pos hr, hp]

theorem fetching_ctx (t : State) (k x : Nat) : (fetching t k x).ctx k x = { t.ctx k x with fetched := [] } := ctx_modCtx _ k x _

/-- What fetching leaves of the context that issues. -/
theorem fetches_ctx (h : Fetches t k x bytes u) : u.ctx k x = { t.ctx k x with fetched := (u.ctx k x).fetched } := by
  rw [(fetched_fetchUnit h).ctx, fetching_ctx]

/-- Whether the unit at a program counter is captured by a repetition (R123). -/
def captured (v : Ctx) : Bool := match v.rep with
  | some r => v.pc != r.addr
  | none => false

theorem captured_iff (v : Ctx) : captured v = true ↔ ∃ r, v.rep = some r ∧ v.pc ≠ r.addr := by
  unfold captured
  cases v.rep <;> simp

/-- The decoded unit with the fields that its pass renames (R123). -/
noncomputable def renamed (v : Ctx) (i : Instr) : Instr := match v.rep with
  | some r => if captured v then renameFields (renamings r).1 (renamings r).2 i else i
  | none => i

theorem renamed_free {v : Ctx} (i : Instr) (h : captured v = false) : renamed v i = i := by
  unfold renamed
  rw [h]
  split <;> rfl

theorem renamed_captured {v : Ctx} {r : RepState} (i : Instr) (hr : v.rep = some r) (h : captured v = true) :
    renamed v i = renameFields (renamings r).1 (renamings r).2 i := by
  unfold renamed
  rw [hr, h]
  rfl

theorem prepare_eq (h : Fetches t k x bytes u) : prepare t k x =
    match decode bytes with
    | .error .short => .error (⟨(t.ctx k x).pc, bytes.length, 0#32, none⟩, .trap { cause := .illegal }, u)
    | .error (.reserved n w p) => .error (⟨(t.ctx k x).pc, n, w, p⟩,
        .trap { cause := .illegal, detail := if captured (t.ctx k x) && repForbidden ⟨(t.ctx k x).pc, n, w, p⟩ then 2#8 else 0#8 }, u)
    | .ok d =>
      if captured (t.ctx k x) && repForbidden ⟨(t.ctx k x).pc, d.size, d.word, d.pre⟩ then
        .error (⟨(t.ctx k x).pc, d.size, d.word, d.pre⟩, .trap { cause := .illegal, detail := 2#8 }, u)
      else
        let i := renamed (t.ctx k x) d.instr
        if !i.wf then .error (⟨(t.ctx k x).pc, d.size, d.word, d.pre⟩, .trap { cause := .illegal }, u)
        else if !(u.ctx k x).accepted.isEmpty && !isPlainStore i then .error (⟨(t.ctx k x).pc, d.size, d.word, d.pre⟩, .wait .accepted, u)
        else .ok (i, u.modCtx k x fun v => { v with unit := ⟨(t.ctx k x).pc, d.size, d.word, d.pre⟩ }) := by
  have hf : (fetchUnit ((fetching t k x).ctx k x).pc).run (fetching t k x) = .ok (bytes, u) := by rw [fetching_ctx]; exact h
  have hp : ((fetching t k x).ctx k x).pc = (t.ctx k x).pc := by rw [fetching_ctx]
  have hr : ((fetching t k x).ctx k x).rep = (t.ctx k x).rep := by rw [fetching_ctx]
  have hu : (u.ctx k x).rep = (t.ctx k x).rep := by rw [fetches_ctx h]
  unfold prepare
  rw [show (({ t with cur := (k, x) } : State).modCtx k x fun v => { v with fetched := [] }) = fetching t k x from rfl]
  dsimp only
  rw [hf, hp, hr]
  dsimp only
  rw [hu]
  rfl

section
variable (ht : Turns s k x t) (hf : Fetches t k x bytes u) {d : Decoded} (hd : decode bytes = .ok d)
include ht hf hd

theorem step_forbidden (hc : captured (t.ctx k x) = true) (hr : repForbidden ⟨(t.ctx k x).pc, d.size, d.word, d.pre⟩ = true) :
    step s = .next (stopUnit u k x ⟨(t.ctx k x).pc, d.size, d.word, d.pre⟩ (.trap { cause := .illegal, detail := 2#8 })) := by
  rw [step_of_turns ht, issue, prepare_eq hf, hd]
  simp only [hc, hr, Bool.and_self, if_true]

variable (hp : (captured (t.ctx k x) && repForbidden ⟨(t.ctx k x).pc, d.size, d.word, d.pre⟩) = false)
include hp

theorem step_illFormed (hw : (renamed (t.ctx k x) d.instr).wf = false) :
    step s = .next (stopUnit u k x ⟨(t.ctx k x).pc, d.size, d.word, d.pre⟩ (.trap { cause := .illegal })) := by
  rw [step_of_turns ht, issue, prepare_eq hf, hd]
  simp only [hp, hw, Bool.not_false, if_true, Bool.false_eq_true, if_false]

theorem step_runs (hw : (renamed (t.ctx k x) d.instr).wf = true) (ha : (u.ctx k x).accepted = []) :
    step s = exec (renamed (t.ctx k x) d.instr) (u.modCtx k x fun v => { v with unit := ⟨(t.ctx k x).pc, d.size, d.word, d.pre⟩ }) := by
  rw [step_of_turns ht, issue, prepare_eq hf, hd]
  simp only [hp, hw, ha, List.isEmpty_nil, Bool.not_true, Bool.false_and, Bool.false_eq_true, if_false]

end

theorem step_reserved (ht : Turns s k x t) (hf : Fetches t k x bytes u) {n : Nat} {w : BitVec 32} {p : Option (BitVec 32)}
    (hd : decode bytes = .error (.reserved n w p)) : step s = .next (stopUnit u k x ⟨(t.ctx k x).pc, n, w, p⟩
      (.trap { cause := .illegal, detail := if captured (t.ctx k x) && repForbidden ⟨(t.ctx k x).pc, n, w, p⟩ then 2#8 else 0#8 })) := by
  rw [step_of_turns ht, issue, prepare_eq hf, hd]

end

/-- Settles O13: what is fetched and decoded, by whether a repetition captures the unit. -/
theorem stepRunsDecoded : Obligations.StepRunsDecoded := by
  intro s t u k x bytes ht hf pc body
  have hrep : (u.ctx k x).rep = (t.ctx k x).rep := by rw [fetches_ctx hf]
  have hbody : body ↔ captured (t.ctx k x) = true := by rw [captured_iff, ← hrep]
  refine ⟨fun d hd => ?_, fun n w p hd => ?_⟩
  · intro info named
    have free (hb : ¬ body) : renamed (t.ctx k x) d.instr = d.instr ∧ (captured (t.ctx k x) && repForbidden info) = false := by
      have hc := eq_false_of_ne_true (mt hbody.2 hb)
      exact ⟨renamed_free d.instr hc, by rw [hc, Bool.false_and]⟩
    refine ⟨fun hb hw ha => ?_, fun hb hw => ?_, fun hb hr => step_forbidden ht hf hd (hbody.1 hb) hr, fun r hr hpc hn => ?_⟩
    · obtain ⟨hi, hp⟩ := free hb
      exact (step_runs ht hf hd hp (by rwa [hi]) ha).trans (by rw [hi])
    · obtain ⟨hi, hp⟩ := free hb
      exact step_illFormed ht hf hd hp (by rwa [hi])
    · have hc := hbody.1 ⟨r, hr, hpc⟩
      have hp : (captured (t.ctx k x) && repForbidden info) = false := by rw [hn, Bool.and_false]
      rw [← renamed_captured d.instr (hrep.symm.trans hr) hc]
      exact ⟨step_runs ht hf hd hp, step_illFormed ht hf hd hp⟩
  · intro info
    rw [step_reserved ht hf hd, hbody, ← Bool.and_eq_true]
    exact ⟨fun h => by rw [if_pos h], fun h => by rw [if_neg h]⟩

/-! ### The context that issues -/

theorem mayIssue_iff (s : State) (k x : Nat) : (s.ctx k x).mayIssue s.tick = true ↔ MayIssue s k x := by
  rw [Ctx.mayIssue, Ctx.isReady, MayIssue, Bool.and_eq_true, Bool.and_eq_true, beq_iff_eq, decide_eq_true_eq, and_assoc]
  refine and_congr_right fun _ => and_congr_right fun _ => ?_
  cases hy : (s.ctx k x).yield with
  | none => simp
  | some y =>
    obtain ⟨til, l⟩ := y
    simp [List.isEmpty_iff]

theorem passTurn_tick (s : State) (k x : Nat) : (passTurn s k x).tick = s.tick := by
  unfold passTurn
  split
  · split
    · unfold State.block
      dsimp only
      split <;> rfl
    · rfl
  · rfl

theorem foldl_passTurn_tick (k : Nat) (l : List Nat) (s : State) : (l.foldl (fun s x => passTurn s k x) s).tick = s.tick := by
  induction l generalizing s with
  | nil => rfl
  | cons x l ih => exact (ih _).trans (passTurn_tick s k x)

/-- How far a context is from the pointer in cyclic order (R100). -/
def rankFrom (last x : Nat) : Nat := (x + 15 - last % 16) % 16

theorem scanOrder_length (last : Nat) : (scanOrder last).length = 16 := by simp [scanOrder]

theorem rankFrom_scanOrder {last i : Nat} (h : i < (scanOrder last).length) : rankFrom last (scanOrder last)[i] = i := by
  rw [scanOrder_length] at h
  simp only [scanOrder, List.getElem_map, List.getElem_range, rankFrom]
  omega

theorem scanOrder_rankFrom {last x : Nat} (h : x < 16) : ∃ hi : rankFrom last x < (scanOrder last).length, (scanOrder last)[rankFrom last x] = x := by
  have hr : rankFrom last x < 16 := Nat.mod_lt _ (by decide)
  refine ⟨by rwa [scanOrder_length], ?_⟩
  simp only [scanOrder, List.getElem_map, List.getElem_range, rankFrom]
  omega

theorem mem_scanOrder {last x : Nat} : x ∈ scanOrder last ↔ x < 16 := by
  refine ⟨fun h => ?_, fun h => ?_⟩
  · obtain ⟨i, -, rfl⟩ := List.mem_map.1 h
    exact Nat.mod_lt _ (by decide)
  · obtain ⟨hi, he⟩ := scanOrder_rankFrom (last := last) h
    exact he ▸ List.getElem_mem hi

/-- The first context of the scan with a property is one with no other nearer to the pointer (R100). -/
theorem find_scanOrder {last x : Nat} {p : Nat → Bool} (h : (scanOrder last).find? p = some x) :
    x < 16 ∧ p x = true ∧ ∀ y, y < 16 → p y = true → rankFrom last x ≤ rankFrom last y := by
  refine ⟨mem_scanOrder.1 (List.mem_of_find?_eq_some h), List.find?_some h, fun y hy hp => ?_⟩
  obtain ⟨-, i, hi, rfl, hn⟩ := List.find?_eq_some_iff_getElem.1 h
  obtain ⟨hj, he⟩ := scanOrder_rankFrom (last := last) hy
  rw [rankFrom_scanOrder]
  by_contra hlt
  have := hn (rankFrom last y) (Nat.lt_of_not_le hlt)
  rw [he, hp] at this
  cases this

section
variable {s t : State} {k : Nat} {r : Option Nat}

theorem pickIssuer_wakes (hd : (s.core k).det = false) (hw : wakeTurn s k = true) : pickIssuer s k = (liveSupervisor s k, some 15) := by
  unfold pickIssuer
  simp only [hd, hw, Bool.false_eq_true, if_false, if_true]

/-- In throughput mode the scan from the pointer finds the context that issues, and the pointer moves to it (R100). -/
theorem pickIssuer_scan (hd : (s.core k).det = false) (hw : wakeTurn s k = false) (hp : pickIssuer s k = (t, r)) :
    (scanOrder (s.core k).last).find? (fun x => (s.ctx k x).mayIssue s.tick) = r ∧ ∀ x, r = some x → (t.core k).last = x := by
  unfold pickIssuer at hp
  simp only [hd, hw, Bool.false_eq_true, if_false, foldl_passTurn_tick] at hp
  change (match (scanOrder (s.core k).last).find? fun x => (s.ctx k x).mayIssue s.tick with | some x => _ | none => _) = _ at hp
  split at hp
  · cases hp
    refine ⟨‹_›, fun x hx => ?_⟩
    cases hx
    rw [core_modCore]
  · cases hp
    exact ⟨‹_›, fun x hx => by cases hx⟩

/-- In a deterministic launch only the context of the slot issues (R100). -/
theorem pickIssuer_det (hd : (s.core k).det = true) : pickIssuer s k =
    let x := (s.tick - (s.core k).t0) % 16
    if x = 15 ∧ wakeTurn s k = true then (liveSupervisor s k, some 15)
    else if (s.ctx k x).mayIssue s.tick = true then (s, some x) else (passTurn s k x, none) := by
  unfold pickIssuer
  simp only [hd, if_true]
  rfl

end

/-- Settles O14: the scan and the slot, then the fetch of a halfword and the halfwords of a unit. -/
theorem fetchAndIssue : Obligations.FetchAndIssue := by
  refine ⟨⟨fun s t k r hd hp => ⟨fun hw => ?_, fun hw => ⟨fun x hx => ?_, fun hr y hy hm => ?_⟩⟩, fun s k hd => ⟨fun hx hw => ?_, fun hx => ⟨fun hm => ?_, fun hm => ?_⟩⟩⟩,
    fun va s t pa e => fetchHalf_apply, fun va s i h => U_bind_error h, fun pc s t u v w a b c d ha hb hc hd => ?_⟩
  · cases (pickIssuer_wakes hd hw).symm.trans hp
    exact ⟨rfl, rfl⟩
  · obtain ⟨hf, hl⟩ := pickIssuer_scan hd hw hp
    obtain ⟨h16, hm, hn⟩ := find_scanOrder (hf.trans hx)
    exact ⟨h16, (mayIssue_iff s k x).1 hm, hl x hx, fun y hy hy' => hn y hy ((mayIssue_iff s k y).2 hy')⟩
  · obtain ⟨hf, -⟩ := pickIssuer_scan hd hw hp
    exact List.find?_eq_none.1 (hf.trans hr) y (mem_scanOrder.2 hy) ((mayIssue_iff s k y).2 hm)
  · rw [pickIssuer_det hd]
    exact if_pos ⟨hx, hw⟩
  · rw [pickIssuer_det hd]
    exact (if_neg fun h => hx.elim (absurd h.1) fun hw => by simp [h.2] at hw).trans (if_pos ((mayIssue_iff s k _).2 hm))
  · rw [pickIssuer_det hd]
    dsimp only
    rw [if_neg fun h => hx.elim (absurd h.1) fun hw => by simp [h.2] at hw, if_neg fun h => hm ((mayIssue_iff s k _).1 h)]
  · rw [fetchUnit_apply ha hb hc hd]
    have hff : a.headD 0#8 = 0xFF#8 → ¬ (a.headD 0#8).getLsbD 0 = false := fun h => by rw [h]; decide
    refine ⟨fun h => if_pos h, fun h hn => ?_, fun h h2 => ?_, fun h h2 => ?_⟩
    · rw [if_neg (by rw [h]; decide), if_pos hn]
    · rw [if_neg (hff h), if_neg (not_not.2 h), if_pos h2]
    · rw [if_neg (hff h), if_neg (not_not.2 h), if_neg (by rw [h2]; decide)]

end Sys2Proof.Proofs
end

section
/-! PROOF. The functions of the model that leave memory as it is (R28, R246, R397). -/

namespace Sys2Proof.Proofs
open Sys2Proof Sys2Proof.Machine Sys2Proof.Laws

/-- A fold of steps that leave memory as it is leaves memory as it is. -/
@[simp] theorem foldl_mem {α : Type} (f : State → α → State) (h : ∀ s a, (f s a).mem = s.mem) (l : List α) (s : State) :
    (l.foldl f s).mem = s.mem := by
  induction l generalizing s with
  | nil => rfl
  | cons a l ih => rw [List.foldl_cons, ih, h]

@[simp] theorem ite_mem (c : Prop) [Decidable c] (s t : State) : (if c then s else t).mem = if c then s.mem else t.mem :=
  apply_ite State.mem c s t
@[simp] theorem modLaunch_mem (s : State) (t : Nat) (f : Launch → Launch) : (s.modLaunch t f).mem = s.mem := by
  unfold State.modLaunch; split <;> simp
@[simp] theorem hold_mem (s : State) (i : Instr) (keys : List Nat) (n : Nat) : (s.hold i keys n).mem = s.mem := rfl
@[simp] theorem unhold_mem (s : State) (i : Instr) : (s.unhold i).mem = s.mem := rfl
@[simp] theorem gateSoon_mem (s : State) (k : Nat) : (s.gateSoon k).mem = s.mem := rfl
@[simp] theorem wakeAgent_mem (s : State) (k : Nat) : (wakeAgent s k).mem = s.mem := by simp [wakeAgent]
@[simp] theorem wakeQuad_mem (s : State) (q : Nat) : (wakeQuad s q).mem = s.mem := by simp [wakeQuad]
@[simp] theorem invalidate_mem (s : State) (lines : List Nat) (owner : Option Nat) : (s.invalidate lines owner).mem = s.mem := by
  simp [State.invalidate]
@[simp] theorem tlbFill_mem (s : State) (k : Nat) (e : TlbEntry) (tables : List TlbEntry) : (s.tlbFill k e tables).mem = s.mem := rfl
theorem translate_mem {s t : State} {k kind pa : Nat} {root ea : Word} {e : TlbEntry}
    (h : s.translate k root ea kind = .ok (pa, e, t)) : t.mem = s.mem := (translated_translate h).mem
@[simp] theorem payWalk_mem (s : State) (k cls : Nat) (root : Word) (ea tick : Nat) :
    (s.payWalk k cls root ea tick).mem = s.mem := by simp [State.payWalk]

@[simp] theorem startTrick_mem (s : State) (k x : Nat) : (s.startTrick k x).mem = s.mem := by
  unfold State.startTrick
  dsimp only
  repeat' split
  all_goals simp

@[simp] theorem block_mem (s : State) (k x : Nat) (w : Wait) : (s.block k x w).mem = s.mem := by
  unfold State.block
  dsimp only
  repeat' split
  all_goals simp

@[simp] theorem emit_mem (s : State) (o : Outgoing) : (s.emit o).mem = s.mem := by unfold State.emit; split <;> simp
@[simp] theorem sendPort_mem (s : State) (cls : Nat) (o : Outgoing) : (s.sendPort cls o).mem = s.mem := by simp [State.sendPort]
@[simp] theorem drainPort_mem (s : State) : (s.drainPort).mem = s.mem := by simp [State.drainPort]

@[simp] theorem postStrips_mem (s : State) (k x : Nat) (t : Trick) : (s.postStrips k x t).mem = s.mem := by
  refine foldl_mem _ (fun s p => ?_) _ _
  repeat' split
  all_goals simp

@[simp] theorem noteDirty_mem (s : State) (lines : List Nat) : (s.noteDirty lines).mem = s.mem := by simp [State.noteDirty]
@[simp] theorem emitPeer_mem (s : State) (o : Outstanding) : (s.emitPeer o).mem = s.mem := by unfold State.emitPeer; split <;> simp
@[simp] theorem sendPeerAs_mem (s : State) (pkg k x : Nat) (cls : Option Nat) (op : PeerOp) :
    (s.sendPeerAs pkg k x cls op).mem = s.mem := by simp [State.sendPeerAs]
@[simp] theorem sendPeer_mem (s : State) (pkg k x : Nat) (op : PeerOp) : (s.sendPeer pkg k x op).mem = s.mem := by simp [State.sendPeer]

@[simp] theorem endPeer_mem (s : State) (o : Outstanding) : (s.endPeer o).mem = s.mem := by
  unfold State.endPeer
  dsimp only
  repeat' split
  all_goals simp

@[simp] theorem gotPeer_mem (s : State) (p : Outstanding → Bool) (r : PeerReply) : (s.gotPeer p r).mem = s.mem := by
  unfold State.gotPeer
  split
  · rfl
  · rw [endPeer_mem]
    split <;> simp

@[simp] theorem flushLines_mem (s : State) (k x cls : Nat) (p : Nat → Bool) : (s.flushLines k x cls p).mem = s.mem := by
  simp [State.flushLines]
@[simp] theorem flushDirty_mem (s : State) (k x cls : Nat) : (s.flushDirty k x cls).mem = s.mem := by simp [State.flushDirty]
@[simp] theorem replyPeer_mem (s : State) (pkg : Nat) (seq : BitVec 32) (r : PeerReply) : (s.replyPeer pkg seq r).mem = s.mem := rfl

@[simp] theorem answerSync_mem (s : State) (w : Waiter) (v : Word) (phase : Bool) : (s.answerSync w v phase).mem = s.mem := by
  unfold State.answerSync
  repeat' split
  all_goals rfl

@[simp] theorem serveSem_mem (home i : Nat) (l0 : List Waiter) (s : State) : (serveSem home i l0 s).mem = s.mem := by
  induction l0 generalizing s with
  | nil => rfl
  | cons w l0 ih =>
    unfold serveSem
    dsimp only
    repeat' split
    all_goals simp [ih]

@[simp] theorem settleSem_mem (home i : Nat) (s : State) : (settleSem home i s).mem = s.mem := by simp [settleSem]
@[simp] theorem unlist_mem (s : State) (gone : Waiter → Bool) : (s.unlist gone).mem = s.mem := by simp [State.unlist]

@[simp] theorem dropRequests_mem (s : State) (gone : Nat → Nat → Bool) : (s.dropRequests gone).mem = s.mem := by
  refine (foldl_mem _ (fun s n => ?_) _ _).trans ?_
  · rfl
  · exact unlist_mem ..

@[simp] theorem purge_mem (s : State) (gone : Nat → Bool) : (s.purge gone).mem = s.mem := rfl
@[simp] theorem stoppedCores_mem (s : State) (tag : Nat) : (stopCores s tag).mem = s.mem := by simp [stopCores]
@[simp] theorem cancelJobs_mem (s : State) (mine : Nat → Job → Bool) : (cancelJobs s mine).mem = s.mem := rfl
@[simp] theorem escalate_mem (s : State) (k : Nat) (r : TrapRecord) : (s.escalate k r).mem = s.mem := by simp [State.escalate]
@[simp] theorem enqueueRecord_mem (s : State) (k : Nat) (raised15 : Bool) (r : TrapRecord) :
    (s.enqueueRecord k raised15 r).mem = s.mem := by simp [State.enqueueRecord]
@[simp] theorem takeTrap_mem (s : State) (k x : Nat) (u : UnitInfo) (retire : Word) (t : TrapInfo) :
    (s.takeTrap k x u retire t).mem = s.mem := by simp [State.takeTrap]
@[simp] theorem resume_mem (s : State) (k x : Nat) (kept : Bool) : (s.resume k x kept).mem = s.mem := by simp [State.resume]
@[simp] theorem retireUnit_mem (s : State) (k x : Nat) (u : UnitInfo) (inTrick : Bool) (target : Option Word) :
    (s.retireUnit k x u inTrick target).mem = s.mem := by simp [State.retireUnit]
@[simp] theorem normalise_mem (s : State) (k x extra : Nat) : (s.normalise k x extra).mem = s.mem := rfl
@[simp] theorem padQueue_mem (s : State) (i : Nat) : (s.padQueue i).mem = s.mem := rfl
@[simp] theorem roomQueue_mem (s : State) (i : Nat) : (s.roomQueue i).mem = s.mem := rfl
@[simp] theorem unpopHeld_mem (s : State) (k x : Nat) : (s.unpopHeld k x).mem = s.mem := rfl
@[simp] theorem askGrant_mem (s : State) (pa k : Nat) (write : Bool) : (askGrant s pa k write).mem = s.mem := by
  unfold askGrant; split <;> simp

theorem recall_mem {s t : State} {pa : Nat} {write : Bool} {src : Option Nat} (h : s.recall pa write src = some t) :
    t.mem = s.mem := by
  unfold State.recall at h
  dsimp only at h
  split at h
  · cases h
  · split at h
    · cases h
      rfl
    · obtain ⟨-, h⟩ := Option.ite_none_left_eq_some.1 h
      cases h
      exact foldl_mem _ (fun _ _ => sendPeerAs_mem ..) _ _

theorem needPage_mem {s t : State} {pa k : Nat} {write : Bool} (h : s.needPage pa k write = some t) : t.mem = s.mem := by
  unfold State.needPage at h
  repeat' split at h
  case isFalse.isFalse => exact recall_mem h
  all_goals cases h
  all_goals simp

@[simp] theorem needPage_getD_mem (s : State) (pa k : Nat) (write : Bool) : ((s.needPage pa k write).getD s).mem = s.mem := by
  cases h : s.needPage pa k write with
  | none => rfl
  | some t => exact needPage_mem h

@[simp] theorem squash_mem (s : State) (k x : Nat) (counted : Bool) : (s.squash k x counted).mem = s.mem := by
  unfold State.squash
  dsimp only
  repeat' split
  all_goals simp

@[simp] theorem squashRunning_mem (s : State) (k x : Nat) : (s.squashRunning k x).mem = s.mem := by simp [State.squashRunning]
@[simp] theorem squashIn_mem (s : State) (p : Nat → Bool) (q : Ctx → Trick → Bool) (maker : Option (Nat × Nat)) :
    (s.squashIn p q maker).mem = s.mem := by simp [State.squashIn]

theorem writeEvent_mem {s t : State} {p : Nat → Bool} {lines : List Nat} {agent : Option (Nat × Nat)} {byTrick : Bool}
    (h : s.writeEvent p lines agent byTrick = some t) : t.mem = s.mem := by
  unfold State.writeEvent at h
  split at h
  · cases h
  · cases h
    simp

@[simp] theorem parkAt_mem (s : State) (owner : Nat) (e : Parked) : (parkAt s owner e).mem = s.mem := by
  unfold parkAt
  dsimp only
  repeat' split
  all_goals simp

@[simp] theorem acceptStores_mem (s : State) (k x : Nat) (l : List Accepted) : (acceptStores s k x l).mem = s.mem :=
  foldl_mem _ (by intros; rfl) _ _
@[simp] theorem wakeAccepted_mem (s : State) (k x : Nat) : (wakeAccepted s k x).mem = s.mem := by simp [wakeAccepted]
@[simp] theorem withdrawParked_mem (s : State) (k x : Nat) : (withdrawParked s k x).mem = s.mem := rfl
@[simp] theorem mapGroups_mem (s : State) (k x : Nat) (f : VecGroup → VecGroup) : (mapGroups s k x f).mem = s.mem := rfl
@[simp] theorem parkGroup_mem (s : State) (k x : Nat) (g : VecGroup) : (parkGroup s k x g).mem = s.mem := by simp [parkGroup]
@[simp] theorem resend_mem (s : State) (k x : Nat) : (resend s k x).mem = s.mem := by unfold resend; split <;> simp
@[simp] theorem watchQuad_mem (s : State) (n : Nat) : (watchQuad s n).mem = s.mem := by simp [watchQuad]
@[simp] theorem joinMatrix_mem (s : State) (k x : Nat) (r : MatrixReq) : (s.joinMatrix k x r).mem = s.mem := by simp [State.joinMatrix]
@[simp] theorem startNext_mem (n : Nat) (s : State) : (startNext n s).mem = s.mem := by simp [startNext]

@[simp] theorem wakeLine_mem (s : State) (k l : Nat) (own : Bool) : (wakeLine s k l own).mem = s.mem := by
  refine foldl_mem _ (fun s p => ?_) _ _
  split <;> simp

theorem probeStopped_mem {s t : State} {k l n : Nat} {own : Bool} (h : probeStopped s k l own = some (n, t)) : t.mem = s.mem := by
  obtain ⟨a, -, ha⟩ := List.exists_of_findSome?_eq_some h
  split at ha
  · cases ha
    simp
  · cases ha

@[simp] theorem fillLine_mem (s : State) (k l : Nat) (kind : LineKind) : (fillLine s k l kind).mem = s.mem := by simp [fillLine]
@[simp] theorem startFar_mem (s : State) (k x : Nat) : (startFar s k x).mem = s.mem := foldl_mem _ (by intros; rfl) _ _
@[simp] theorem wakeFar_mem (s : State) (k x : Nat) : (wakeFar s k x).mem = s.mem := by simp [wakeFar]

theorem farAddress_mem {s t : State} {k x pa : Nat} {e : FarEntry} {u : TlbEntry} (h : farAddress s k x e = .ok (pa, u, t)) :
    t.mem = s.mem := by
  unfold farAddress at h
  dsimp only at h
  repeat' split at h
  all_goals cases h
  all_goals exact translate_mem ‹_›

@[simp] theorem cancelSync_mem (s : State) (k x : Nat) : (cancelSync s k x).mem = s.mem := by unfold cancelSync; split <;> simp
@[simp] theorem joinBatch_mem (s : State) (p : Nat) (g : Granted) (trump : Bool) : (joinBatch s p g trump).mem = s.mem := rfl
@[simp] theorem redue_mem (s : State) (k x n : Nat) : (redue s k x n).mem = s.mem := rfl
@[simp] theorem setCap_mem (s : State) (page bytes : Nat) (c : CapState) : (s.setCap page bytes c).mem = s.mem := rfl
@[simp] theorem downgrade_mem (s : State) (k page bytes : Nat) : (downgrade s k page bytes).mem = s.mem := rfl
@[simp] theorem endRegionLeases_mem (s : State) (k page bytes : Nat) : (endRegionLeases s k page bytes).mem = s.mem := rfl
@[simp] theorem copyCaps_mem (s : State) (page bytes : Nat) (c : CapState) (cls : Option Nat) :
    (copyCaps s page bytes c cls).mem = s.mem := by simp [copyCaps]

theorem capChange_mem {s t : State} {page bytes : Nat} {c : CapState} {agent : Option Nat} (h : capChange s page bytes c agent = some t) :
    t.mem = s.mem := by
  unfold capChange at h
  dsimp only at h
  generalize (regionLeased s page bytes agent || _) = held at h
  cases held <;> cases h
  simp

@[simp] theorem capAway_mem (s : State) (i : Instr) (k x : Nat) (op : CapOp) (page bytes : Nat) :
    (capAway s i k x op page bytes).mem = s.mem := by simp [capAway]

@[simp] theorem openHeld_mem (tag : Nat) (l : List (Nat × CapEntry)) (s : State) : (openHeld tag l s).1.mem = s.mem := by
  induction l generalizing s with
  | nil => rfl
  | cons e l ih =>
    unfold openHeld
    split
    · split
      · dsimp only
        rw [ih]
        repeat' split
        · cases hc : capChange s e.1 e.2.bytes .opened none with
          | none => rfl
          | some t => exact capChange_mem hc
        · rfl
        · simp
      · exact ih s
    · exact ih s

@[simp] theorem strike_mem (s : State) (page src : Nat) (kept : Bool) : (s.strike page src kept).mem = s.mem := rfl

@[simp] theorem retireLane_mem (s : State) (k : Nat) : (retireLane s k).mem = s.mem := by
  unfold retireLane
  dsimp only
  repeat' split
  all_goals simp

@[simp] theorem startScan_mem (n : Nat) (s : State) : (startScan n s).mem = s.mem := by simp [startScan]
@[simp] theorem operandErrorAt_mem (s : State) (k x storage : Nat) : (operandErrorAt s k x storage).mem = s.mem := by simp [operandErrorAt]

@[simp] theorem scanError_mem (quad : QuadId) (storage : BitVec 3) (s : State) : (scanError quad storage s).mem = s.mem := by
  unfold scanError
  dsimp only
  repeat' split
  all_goals simp

@[simp] theorem listSync_mem (s : State) (home : Nat) (w : Waiter) : (s.listSync home w).mem = s.mem := by
  unfold State.listSync
  repeat' split
  all_goals rfl

@[simp] theorem setBarrier_mem (s : State) (home i : Nat) (b : Barrier) : (s.setBarrier home i b).mem = s.mem := rfl
@[simp] theorem answerPhase_mem (home i : Nat) (s : State) : (answerPhase home i s).mem = s.mem := by simp [answerPhase]
@[simp] theorem setSem_mem (s : State) (home i : Nat) (v : BitVec 32) : (s.setSem home i v).mem = s.mem := by simp [State.setSem]
@[simp] theorem semAt_mem (s : State) (home : Nat) (w : Waiter) : (semAt s home w).mem = s.mem := by unfold semAt; split <;> simp
@[simp] theorem resendSync_mem (s : State) (k x : Nat) : (resendSync s k x).mem = s.mem := by unfold resendSync; split <;> simp
@[simp] theorem wakeEngine_mem (s : State) (ch : Nat) : (wakeEngine s ch).mem = s.mem := rfl
@[simp] theorem setJob_mem (s : State) (ch : Nat) (j : Job) : (s.setJob ch j).mem = s.mem := rfl
@[simp] theorem captureError_mem (s : State) (ch : Nat) (id : BitVec 48) (code : Nat) :
    (captureError s ch id code).mem = s.mem := rfl
@[simp] theorem failJob_mem (s : State) (ch : Nat) (j : Job) (code : Nat) : (failJob s ch j code).mem = s.mem := by simp [failJob]
@[simp] theorem signalPeer_mem (s : State) (ch : Nat) (j : Job) (op : SyncOp) : (signalPeer s ch j op).mem = s.mem := by simp [signalPeer]

/-- What a pair's state keeps, by the pair's parts. -/
theorem snd_mem {α : Type} {p : α × State} {a : α} {s t : State} (h : p.2.mem = s.mem) (e : p = (a, t)) : t.mem = s.mem := by
  rwa [e] at h

@[simp] theorem engineAddress_mem (s : State) (k cls : Nat) (launch : Option Nat) (root ea : Word) (kind : Nat) :
    (engineAddress s k cls launch root ea kind).2.mem = s.mem := by
  unfold engineAddress
  split
  · rfl
  · dsimp only
    split
    · simp
    · next h => simp [translate_mem h]

theorem engineLine_mem {s : State} {i : Instr} {k cls pa : Nat} {launch : Option Nat} {write : Bool} {r : Reach Unit × State}
    (h : engineLine s i k cls launch pa write = some r) : r.2.mem = s.mem := by
  unfold engineLine at h
  dsimp only at h
  repeat' split at h
  all_goals cases h
  · rfl
  · exact needPage_mem ‹_›
  · exact probeStopped_mem ‹_›
  · rfl

@[simp] theorem engineRead_mem (s : State) (i : Instr) (k cls : Nat) (launch : Option Nat) (root : Word) (data : List (Nat × Word))
    (ea : Word) (n : Nat) : (engineRead s i k cls launch root data ea n).2.mem = s.mem := by
  have ha := engineAddress_mem s k cls launch root ea 0
  unfold engineRead
  split
  · next pa t h =>
    replace ha := snd_mem ha h
    dsimp only
    split
    · split <;> exact ha
    · split
      · exact (engineLine_mem ‹_›).trans ha
      · exact (engineLine_mem ‹_›).trans ha
      · dsimp only
        split <;> simpa using ha
  · exact snd_mem ha ‹_›
  · exact snd_mem ha ‹_›

@[simp] theorem jobHost_mem (s : State) (ch : Nat) (j : Job) (pa : Nat) : (jobHost s ch j pa).mem = s.mem := by simp [jobHost]

@[simp] theorem chunkBytes_mem (s : State) (i : Instr) (j : Job) (c : Card) (es : List (Nat × Bool)) :
    (chunkBytes s i j c es).2.mem = s.mem := by
  unfold chunkBytes
  dsimp only
  split
  · rfl
  · split
    · split
      · split <;> rfl
      all_goals rfl
    · split
      all_goals exact snd_mem (engineRead_mem ..) ‹_›

@[simp] theorem removeJob_mem (s : State) (ch : Nat) (j : Job) : (removeJob s ch j).mem = s.mem := rfl
@[simp] theorem leaveRecord_mem (s : State) (k x : Nat) (t : TrapInfo) (job : Option (Nat × BitVec 48)) :
    (leaveRecord s k x t job).mem = s.mem := rfl

@[simp] theorem jobAnswer_mem (s : State) (ch : Nat) (j : Job) (r : PeerReply) : (jobAnswer s ch j r).mem = s.mem := by
  unfold jobAnswer
  split <;> split <;> simp

@[simp] theorem readGranule_mem (s : State) (i : Instr) (k : Nat) (m : Stream) (ea : Word) (n : Nat) :
    (readGranule s i k m ea n).2.mem = s.mem := by
  have ha := engineAddress_mem s k (s.clsOf k) (s.core k).launch m.root ea 0
  unfold readGranule
  split
  · split
    · repeat' split
      all_goals rfl
    all_goals rfl
  · split
    · dsimp only
      split
      · exact snd_mem ha ‹_›
      · exact (engineRead_mem ..).trans (snd_mem ha ‹_›)
    · exact snd_mem ha ‹_›
    · exact snd_mem ha ‹_›

@[simp] theorem setStream_mem (s : State) (k x n : Nat) (m : Stream) : (s.setStream k x n m).mem = s.mem := rfl
@[simp] theorem streamHost_mem (s : State) (k x n : Nat) (m : Stream) (pa : Nat) : (streamHost s k x n m pa).mem = s.mem := by
  simp [streamHost]

@[simp] theorem refill_mem (s : State) (k x : Nat) : (refill s k x).mem = s.mem := by
  refine foldl_mem _ (fun s e => ?_) _ _
  dsimp only
  repeat' split
  all_goals simp

@[simp] theorem dropLines_mem (s : State) (k : Nat) (p : Nat → Bool) : (dropLines s k p).mem = s.mem := rfl
@[simp] theorem tlbiRemove_mem (s : State) (k kind : Nat) (va asid : Word) (sc : Scope) :
    (tlbiRemove s k kind va asid sc).mem = s.mem := rfl
@[simp] theorem markStale_mem (s : State) (sc : Scope) (k kind : Nat) (va asid : Word) :
    (markStale s sc k kind va asid).mem = s.mem := rfl

theorem tlbiPerform_mem {s t : State} {k kind : Nat} {va asid : Word} {sc : Scope} (h : tlbiPerform s k kind va asid sc = some t) :
    t.mem = s.mem := by
  unfold tlbiPerform at h
  dsimp only at h
  split at h
  · cases h
  · cases h
    simp

@[simp] theorem bounceParked_mem (s : State) (k : Nat) : (bounceParked s k).mem = s.mem := by
  unfold bounceParked
  rw [foldl_mem _ fun s e => by simp]
  rfl

@[simp] theorem discardTricks_mem (s : State) (k : Nat) : (discardTricks s k).mem = s.mem := by simp [discardTricks]
@[simp] theorem checkCore_mem (s : State) (k : Nat) : (checkCore s k).mem = s.mem := by simp [checkCore]
@[simp] theorem checkQuad_mem (s : State) (q : Nat) : (checkQuad s q).mem = s.mem := by simp [checkQuad]
@[simp] theorem readError_mem (s : State) (k x : Nat) (line : Option LineId) : (readError s k x line).mem = s.mem := by
  unfold readError; split <;> simp

@[simp] theorem untrap_mem (s : State) (k : Nat) : (untrap s k).mem = s.mem := by
  refine foldl_mem _ (fun s p => ?_) _ _
  split <;> simp

@[simp] theorem queueAnswer_mem (s : State) (k x q : Nat) (r : Request) : (queueAnswer s k x q r).mem = s.mem := rfl
@[simp] theorem queueStatus_mem (s : State) (k x q : Nat) (d : GReg) (w : Word) : (queueStatus s k x q d w).mem = s.mem := rfl
@[simp] theorem dealerLooks_mem (s : State) (q : Nat) : (dealerLooks s q).mem = s.mem := by simp [dealerLooks]
@[simp] theorem qinitAt_mem (s : State) (k x q : Nat) (w : Word) (d : GReg) : (qinitAt s k x q w d).mem = s.mem := by simp [qinitAt]
@[simp] theorem resendAny_mem (s : State) (k x : Nat) : (resendAny s k x).mem = s.mem := by unfold resendAny; split <;> simp

@[simp] theorem serveMetered_mem (s : State) : (serveMetered s).mem = s.mem := by
  unfold serveMetered
  rw [foldl_mem _ fun s e => ?_]
  · rfl
  · dsimp only
    repeat' split
    all_goals simp

@[simp] theorem wakeWalk_mem (s : State) (k va : Nat) : (wakeWalk s k va).mem = s.mem := by
  refine foldl_mem _ (fun s p => ?_) _ _
  split <;> simp

/-- The state that something leaves, whether it could be done or waits. -/
def leftState : Except (Nat × State) State → State
  | .ok t => t
  | .error (_, t) => t

theorem returnWaits_mem (s : State) (page : Nat) (toRead : Bool) : (leftState (returnWaits s page toRead)).mem = s.mem := by
  unfold returnWaits
  dsimp only
  split
  · rfl
  · split
    · obtain ⟨a, -, ha⟩ := List.exists_of_findSome?_eq_some ‹_›
      exact probeStopped_mem ha
    · split
      · rfl
      · split
        · rfl
        · exact writeEvent_mem ‹_›

theorem returnPage_mem (s : State) (page : Nat) (toRead : Bool) : (leftState (returnPage s page toRead)).mem = s.mem := by
  have hw := returnWaits_mem s page toRead
  unfold returnPage
  split
  · next w h => rwa [h] at hw
  · next t h =>
    rw [h] at hw
    dsimp only
    split
    · simpa [leftState] using hw
    · simpa [leftState] using hw

@[simp] theorem abandonUnits_mem (s : State) (q : Nat) (mine : Nat → Bool) : (abandonUnits s q mine).mem = s.mem := by
  unfold abandonUnits
  dsimp only
  split
  · rfl
  · rw [startNext_mem, startScan_mem, foldl_mem _ fun s p => by simp]
    rfl

@[simp] theorem settlePort_mem (s : State) (mine : Nat → Bool) : (settlePort s mine).mem = s.mem := by
  unfold settlePort
  dsimp only
  rw [foldl_mem _ fun s e => ?_]
  · rfl
  · repeat' split
    all_goals simp

@[simp] theorem settleCores_mem (s : State) (ks : List Nat) : (settleCores s ks).mem = s.mem := by simp [settleCores]
@[simp] theorem askDealer_mem (s : State) (p n : Nat) : (s.askDealer p n).mem = s.mem := rfl

@[simp] theorem dealAsk_mem (s : State) (l : Launch) : (dealAsk s l).mem = s.mem := by
  unfold dealAsk
  repeat' split
  all_goals simp

/-- What a step on a launch leaves of memory. Said of the function itself: the kernel then never evaluates the table walk in it. -/
structure LeavesMem (f : State → Launch → State) : Prop where
  mem : ∀ s l, (f s l).mem = s.mem

theorem have_mem {α : Type} (f : α → State) (a : α) {s : State} (h : (f a).mem = s.mem) : (have b := a; f b).mem = s.mem := h

theorem leavesMem_completionAsk : LeavesMem completionAsk := by
  delta completionAsk
  refine ⟨fun s l => have_mem _ _ ?_⟩
  split
  · split
    · exact needPage_getD_mem ..
    · rfl
  · rfl

@[simp] theorem completionAsk_mem (s : State) (l : Launch) : (completionAsk s l).mem = s.mem := leavesMem_completionAsk.mem s l

@[simp] theorem place_mem (s : State) (l : Launch) (cores : List (Nat × Nat × Bool)) : (place s l cores).mem = s.mem := by
  unfold place
  dsimp only
  have hp := fun (l : Launch) (t : State) (qs : List Nat) => foldl_mem (fun s q => s.modQuad q (placedQuad l)) (by intros; rfl) qs t
  have hc := fun (l : Launch) (t : State) => foldl_mem
    (fun (s : State) (e : Nat × Nat × Bool) => s.modCore e.1 (placedCore s.tick l e.2.1 e.2.2)) (by intros; rfl) cores t
  split
  · split
    · rw [setBarrier_mem]
      exact (hc ..).trans ((hp ..).trans rfl)
    · exact (hc ..).trans ((hp ..).trans rfl)
  · exact (hc ..).trans ((hp ..).trans rfl)

@[simp] theorem noteQueues_mem (s : State) (p : Nat) : (noteQueues s p).mem = s.mem := by simp [noteQueues]
@[simp] theorem removeMalformed_mem (s : State) (heads : List Launch) : (removeMalformed s heads).mem = s.mem := by simp [removeMalformed]
@[simp] theorem sendInterrupt_mem (s : State) (fn : Nat) (v : BitVec 6) (cls : Nat) : (sendInterrupt s fn v cls).mem = s.mem := rfl
@[simp] theorem raiseInterrupt_mem (s : State) (l : Launch) : (raiseInterrupt s l).mem = s.mem := by simp [raiseInterrupt]

@[simp] theorem freeCores_mem (s : State) (tag : Nat) : (freeCores s tag).mem = s.mem := by
  unfold freeCores
  dsimp only
  exact (foldl_mem _ (by intros; rfl) _ _).trans (stoppedCores_mem s tag)

theorem slotAsk_mem {s t : State} {k lane : Nat} {l : Launch} {pages : List Nat} (h : slotAsk s k lane l pages = some t) :
    t.mem = s.mem := by
  obtain ⟨a, -, ha⟩ := List.exists_of_findSome?_eq_some h
  split at ha
  · exact needPage_mem ha
  · cases ha

@[simp] theorem bounceWake_mem (s : State) (k : Nat) : (bounceWake s k).mem = s.mem := by
  unfold bounceWake
  rw [foldl_mem _ fun s w => ?_]
  · rfl
  · split <;> rfl

@[simp] theorem saveQuad_mem (s : State) (l : Launch) (q : Nat) : (saveQuad s l q).mem = s.mem := by simp [saveQuad]

@[simp] theorem repost_mem (s : State) (k : Nat) : (repost s k).mem = s.mem := by
  unfold repost
  dsimp only
  rw [ite_mem, post_mem, ite_self, ite_mem, post_mem, ite_self]
  refine foldl_mem _ (fun s p => ?_) _ _
  rw [ite_mem, post_mem, ite_self]
  refine (foldl_mem _ (fun s e => ?_) _ _).trans ((foldl_mem _ (by intros; rfl) _ _).trans (startFar_mem ..))
  split
  · exact foldl_mem _ (by intros; rfl) _ _
  · rfl

@[simp] theorem endPeriod_mem (s : State) : (endPeriod s).mem = s.mem := by
  refine foldl_mem _ (fun s e => ?_) _ _
  split <;> simp

@[simp] theorem setStatus_mem (s : State) (status busy : Nat) : (s.setStatus status busy).mem = s.mem := rfl
@[simp] theorem pctlFields_mem (s : State) (w : Word) : (s.pctlFields w).mem = s.mem := rfl
@[simp] theorem endOp_mem (s : State) (op status busy : Nat) : (endOp s op status busy).mem = s.mem := by simp [endOp]
@[simp] theorem setMode_mem (s : State) (p m : Nat) : (s.setMode p m).mem = s.mem := rfl
@[simp] theorem expireQuiesce_mem (s : State) : (expireQuiesce s).mem = s.mem := by unfold expireQuiesce; split <;> simp
@[simp] theorem invalidateLines_mem (s : State) (p : Nat) : (invalidateLines s p).mem = s.mem := rfl

theorem returnGrants_mem (s : State) (p : Nat) : (leftState (returnGrants s p)).mem = s.mem := by
  unfold returnGrants
  refine List.foldlRecOn (motive := fun r => (leftState r).mem = s.mem) _ _ rfl fun r h g _ => ?_
  cases r with
  | error w => exact h
  | ok t => exact (returnPage_mem t g.page false).trans h

@[simp] theorem passDies_mem (s : State) (m : BitVec 4) (p : Nat) : (s.passDies m p).mem = s.mem := by simp [State.passDies]
@[simp] theorem disableQueues_mem (s : State) (p : Nat) : (disableQueues s p).mem = s.mem := foldl_mem _ (by intros; rfl) _ _
@[simp] theorem resetChannels_mem (s : State) (p : Nat) : (resetChannels s p).mem = s.mem := rfl

@[simp] theorem writePart_mem (s : State) (p : Nat) (reg : PartReg) (v : Word) : (writePart s p reg v).mem = s.mem := by
  unfold writePart
  dsimp only
  repeat' split
  all_goals simp

@[simp] theorem writeVf_mem (s : State) (k : Nat) (v : Word) : (writeVf s k v).mem = s.mem := by simp [writeVf]
@[simp] theorem writeXp_mem (s : State) (n : Nat) (v : Word) : (writeXp s n v).mem = s.mem := by simp [writeXp]
@[simp] theorem writeClass_mem (s : State) (k : Nat) (b : Bool) (v : Word) : (writeClass s k b v).mem = s.mem := rfl

@[simp] theorem writePower_mem (s : State) (v : Word) : (writePower s v).mem = s.mem := by
  unfold writePower
  dsimp only
  split
  · exact foldl_mem _ (by intros; rfl) _ _
  · rfl

@[simp] theorem writeDpctl_mem (s : State) (d : Nat) (v : Word) : (writeDpctl s d v).mem = s.mem := by simp [writeDpctl]
@[simp] theorem writeSlotBytes_mem (s : State) (r : BitVec 16) (k q o : Nat) (bs : List Byte) :
    (writeSlotBytes s r k q o bs).mem = s.mem := by simp [writeSlotBytes]

@[simp] theorem writeSlots_mem (r : BitVec 16) (k l0 l1 : Nat) (l2 : List Byte) (s : State) :
    (writeSlots r k l0 l1 l2 s).mem = s.mem := by
  induction l0 generalizing l1 l2 s with
  | zero => rfl
  | succ n ih =>
    unfold writeSlots
    split
    · rfl
    · dsimp only
      rw [ih, ite_mem, writeSlotBytes_mem, ite_self]

@[simp] theorem addPosted_mem (s : State) (r : BitVec 16) (place : HostAddress) (bs : List Byte) :
    (s.addPosted r place bs).mem = s.mem := rfl
@[simp] theorem ringSlots_mem (s : State) (r : BitVec 16) (k off : Nat) (bs : List Byte) :
    (ringSlots s r k off bs).mem = s.mem := by simp [ringSlots]

theorem outsideWaits_mem {s t : State} {i : Instr} {pa n : Nat} {lines : List Nat} {write : Bool} {src : Option Nat}
    (h : outsideWaits s i pa lines write src = some (n, t)) : t.mem = s.mem := by
  unfold outsideWaits at h
  repeat' split at h
  · cases h
    rfl
  · cases h
    exact recall_mem ‹_›
  · obtain ⟨a, -, ha⟩ := List.exists_of_findSome?_eq_some h
    exact probeStopped_mem ha

@[simp] theorem pollPosted_mem (s : State) (r : BitVec 16) : (s.pollPosted r).mem = s.mem := by simp [State.pollPosted]
@[simp] theorem tenantWrite_mem (s : State) (k o : Nat) (bs : List Byte) : (tenantWrite s k o bs).mem = s.mem := rfl
@[simp] theorem received_mem (s : State) (src : Nat) (seq : BitVec 32) : (s.received src seq).mem = s.mem := rfl

theorem grantPage_mem (s : State) (i : Instr) (src page : Nat) (write : Bool) : (leftState (grantPage s i src page write)).mem = s.mem := by
  unfold grantPage
  dsimp only
  split
  · exact outsideWaits_mem ‹_›
  · split
    · rfl
    · next t h =>
      have ht : t.mem = s.mem := by
        split at h
        · exact writeEvent_mem h
        · cases h
          rfl
      simpa [leftState] using ht

theorem peerCap_mem (s : State) (i : Instr) (src : Nat) (seq : BitVec 32) (page size : Nat) (op : CapOp) (tag lane : Nat) (det : Bool) :
    (leftState (peerCap s i src seq page size op tag lane det)).mem = s.mem := by
  unfold peerCap
  dsimp only
  split
  · rfl
  · split
    · simp [leftState]
    · simp [leftState]
    · rfl
    · split
      · next t h =>
        split
        · simp [leftState, capChange_mem h]
        · simp [leftState, capChange_mem h]
      · rfl

theorem peerTlbi_mem {s t : State} {domain : BitVec 16} {kind : Nat} {va asid : Word} (h : peerTlbi s domain kind va asid = some t) :
    t.mem = s.mem := by
  unfold peerTlbi at h
  obtain ⟨-, h⟩ := Option.ite_none_left_eq_some.1 h
  refine List.foldlRecOn (motive := fun r : Option State => ∀ t ∈ r, t.mem = s.mem) _ _ ?_ (fun r hr p _ t ht => ?_) t h
  · simp
  · obtain ⟨u, hu, ht⟩ := Option.bind_eq_some_iff.1 ht
    exact (tlbiPerform_mem ht).trans (hr u hu)

@[simp] theorem peerCancel_mem (s : State) (src : Nat) (seq : BitVec 32) : (peerCancel s src seq).1.mem = s.mem := by
  unfold peerCancel
  dsimp only
  split <;> simp

@[simp] theorem setUp_mem (s : State) (n : Nat) (up : Bool) : (setUp s n up).mem = s.mem := rfl
@[simp] theorem noteIssue_mem (s : State) (k x : Nat) : (noteIssue s k x).mem = s.mem := rfl
@[simp] theorem liveSupervisor_mem (s : State) (k : Nat) : (liveSupervisor s k).mem = s.mem := rfl
@[simp] theorem passTurn_mem (s : State) (k x : Nat) : (passTurn s k x).mem = s.mem := by unfold passTurn; split <;> simp

@[simp] theorem pickIssuer_mem (s : State) (k : Nat) : (pickIssuer s k).1.mem = s.mem := by
  unfold pickIssuer
  dsimp only
  repeat' split
  all_goals simp

@[simp] theorem wakeLive_mem (s : State) (k : Nat) : (wakeLive s k).mem = s.mem := by simp [wakeLive]

end Sys2Proof.Proofs
end

section
/-! PROOF. Commits and ends of units keep the form of memory (R28, R215, R220, R222, R246). -/

namespace Sys2Proof.Proofs
open Sys2Proof Sys2Proof.Machine Sys2Proof.Laws

theorem sound_of_mem {s t : State} (h : s.sound) (e : t.mem = s.mem) : t.sound := by
  rwa [State.sound, e]

theorem memWf_foldl {α : Type} {f : State → α → State} (hf : ∀ s a, memWf s.mem = true → memWf (f s a).mem = true)
    (l : List α) {s : State} (h : memWf s.mem = true) : memWf (l.foldl f s).mem = true := by
  induction l generalizing s with
  | nil => exact h
  | cons a l ih => exact ih (hf s a h)

@[simp] theorem memWf_putMem {s : State} (pa : Nat) (bs : List Byte) (h : memWf s.mem = true) : memWf (s.putMem pa bs).mem = true :=
  memWf_memPut pa bs h

@[simp] theorem memWf_commit {s : State} (k x : Nat) (h : memWf s.mem = true) : memWf (s.commit k x).mem = true := by
  unfold State.commit
  dsimp only
  split
  · exact h
  · next t _ =>
    have hw := memWf_foldSet (m := s.mem) t.writes (fun w => (w.1, w.2)) h
    split <;> simpa using hw

@[simp] theorem memWf_endTrick {s : State} (k x : Nat) (h : memWf s.mem = true) : memWf (s.endTrick k x).mem = true := by
  unfold State.endTrick
  dsimp only
  repeat' split
  all_goals simp [h]

@[simp] theorem memWf_commitNext {s : State} (k x : Nat) (h : memWf s.mem = true) : memWf (s.commitNext k x).mem = true := by
  unfold State.commitNext
  split <;> simp [h]

@[simp] theorem memWf_trapUnit {s : State} (k x : Nat) (u : UnitInfo) (retire : Word) (t : TrapInfo) (h : memWf s.mem = true) :
    memWf (s.trapUnit k x u retire t).mem = true := by
  unfold State.trapUnit
  dsimp only
  split <;> simp [h]

@[simp] theorem memWf_finishUnit {s : State} (k x : Nat) (u : UnitInfo) (inTrick : Bool) (a : After) (h : memWf s.mem = true) :
    memWf (finishUnit s k x u inTrick a).mem = true := by
  cases a with
  | trapAfter t => exact memWf_trapUnit _ _ _ _ _ (by simpa using h)
  | _ =>
    dsimp only [finishUnit]
    repeat' split
    all_goals simp [h]

@[simp] theorem memWf_holdUnit {s : State} (k x : Nat) (u : UnitInfo) (w : Wait) (h : memWf s.mem = true) :
    memWf (holdUnit s k x u w).mem = true := by
  unfold holdUnit
  dsimp only
  repeat' split
  all_goals simp [h]

@[simp] theorem memWf_stopUnit {s : State} (k x : Nat) (u : UnitInfo) (e : Stop) (h : memWf s.mem = true) :
    memWf (stopUnit s k x u e).mem = true := by
  unfold stopUnit
  repeat' split
  all_goals simp [h]

end Sys2Proof.Proofs
end

section
/-! PROOF. What a unit does in itself keeps the form of memory (R28, R246). -/

namespace Sys2Proof.Proofs
open Sys2Proof Sys2Proof.Machine Sys2Proof.Laws
open Std.Do
set_option mvcgen.warning false

/-- A unit started in a state whose memory has its canonical form leaves such a state, if it ends. -/
abbrev Kp {α : Type} (m : U α) : Prop := ⦃fun s => ⌜s.sound⌝⦄ m ⦃⇓? _ s => ⌜s.sound⌝⦄

theorem kp_iff {α : Type} {m : U α} : Kp m ↔ ∀ s a t, s.sound → m s = .ok (a, t) → t.sound := by
  have key : ∀ s : State, (wp⟦m⟧ (PostCond.mayThrow fun _ s => ⌜s.sound⌝) s).down ↔ ∀ a t, m s = .ok (a, t) → t.sound := by
    intro s
    show (wp⟦m s⟧ (PostCond.mayThrow fun p => ⌜p.2.sound⌝)).down ↔ _
    cases m s with
    | error e => exact ⟨fun _ _ _ h => (by cases h), fun _ => trivial⟩
    | ok p => exact ⟨fun h _ _ e => (by cases e; exact h), fun h => h _ _ rfl⟩
  simp only [Kp, Triple, SPred.entails_1]
  exact ⟨fun h s a t hs => (key s).1 (h s hs) a t, fun h s hs => (key s).2 fun a t => h s a t hs⟩

theorem kp_throw {α : Type} (e : Stop) : Kp (throw e : U α) := kp_iff.2 fun _ _ _ _ h => by cases h
theorem kp_stopTrap {α : Type} (c : Cause) (addr : Word) (detail : BitVec 8) : Kp (stopTrap c addr detail : U α) := kp_throw _
theorem kp_getS : ⦃fun s => ⌜s.sound⌝⦄ getS ⦃⇓? r s => ⌜s.sound ∧ r.sound⌝⦄ := by
  mvcgen [getS]

theorem kp_forM {α : Type} {f : α → U PUnit} (hf : ∀ a, Kp (f a)) (l : List α) : Kp (l.forM f) := by
  induction l with
  | nil => mvcgen [List.forM]
  | cons a l ih =>
    rw [List.forM_eq_forM, List.forM_cons]
    mvcgen [hf, ih]

theorem kp_modify {f : State → State} (hf : ∀ s, s.sound → (f s).sound) : Kp (modify f : U Unit) := by
  mvcgen
  exact hf _ ‹_›

theorem kp_setS {t : State} (h : t.sound) : Kp (setS t) := by
  mvcgen [setS]
theorem kp_updCtx (f : Ctx → Ctx) : Kp (updCtx f) := kp_modify fun _ h => h
theorem kp_updCore (f : Core → Core) : Kp (updCore f) := kp_modify fun _ h => h
theorem kp_postIn (n : Nat) (i : Instr) : Kp (postIn n i) := kp_modify fun _ h => h
theorem kp_waitOn {α : Type} (w : Wait) : Kp (waitOn w : U α) := kp_throw _
theorem kp_stallOn {α : Type} (w : Wait) : Kp (stallOn w : U α) := kp_throw _

theorem kp_mapM {α β : Type} {f : α → U β} (hf : ∀ a, Kp (f a)) (l : List α) : Kp (l.mapM f) := by
  induction l with
  | nil => mvcgen
  | cons a l ih =>
    rw [List.mapM_cons]
    mvcgen [hf, ih]

theorem kp_stopIf (b : Bool) (c : Cause) (addr : Word) : Kp (stopIf b c addr) := by
  mvcgen [stopIf, kp_stopTrap, kp_throw]

theorem kp_curCtx : Kp (curCtx) := by
  mvcgen [curCtx, kp_getS]
  all_goals simp_all [State.sound]

theorem kp_curCore : Kp (curCore) := by
  mvcgen [curCore, kp_getS]
  all_goals simp_all [State.sound]

theorem kp_myCore : Kp (myCore) := by
  mvcgen [myCore, kp_getS]
  all_goals simp_all [State.sound]

theorem kp_myCtx : Kp (myCtx) := by
  mvcgen [myCtx, kp_getS, kp_modify]
  all_goals simp_all [State.sound]

theorem kp_raiseFlags (f : Flags) : Kp (raiseFlags f) := by
  mvcgen [raiseFlags, kp_updCtx]
theorem kp_detLaunch : Kp (detLaunch) := by
  mvcgen [detLaunch, kp_curCore]
theorem kp_timingTrap : Kp (timingTrap) := by
  mvcgen [timingTrap, kp_detLaunch, kp_myCtx, kp_stopIf]

theorem kp_meterHold (m : Nat) (r : Request) : Kp (meterHold m r) := by
  mvcgen [meterHold, kp_getS, kp_setS, kp_updCtx]
  all_goals simp_all [State.sound]

theorem kp_podRelease : Kp (podRelease) := by
  mvcgen [podRelease, kp_getS, kp_waitOn]
  all_goals simp_all [State.sound]

theorem kp_farDrain (orderedOnly : Bool) : Kp (farDrain orderedOnly) := by
  mvcgen [farDrain, kp_curCtx, kp_waitOn]
theorem kp_translateU (ea : Word) (kind : Nat) : Kp (translateU ea kind) :=
  kp_iff.2 fun _ _ _ h e => sound_of_mem h (translated_translateU e).mem

theorem kp_capCheckU (pa : Nat) (ea : Word) : Kp (capCheckU pa ea) := by
  mvcgen [capCheckU, kp_getS, kp_stopIf]
  all_goals simp_all [State.sound]

theorem kp_capCheckReadU (pa : Nat) (ea : Word) : Kp (capCheckReadU pa ea) := by
  mvcgen [capCheckReadU, kp_getS, kp_stopIf]
  all_goals simp_all [State.sound]

theorem kp_touchCheck (loads stores : List Nat) : Kp (touchCheck loads stores) := by
  mvcgen [touchCheck, kp_curCore, kp_myCtx, kp_waitOn]
theorem kp_updTrick (f : Trick → Trick) : Kp (updTrick f) := by
  mvcgen [updTrick, kp_updCtx]
theorem kp_lsLoad (off n : Nat) : Kp (lsLoad off n) := by
  mvcgen [lsLoad, kp_touchCheck, kp_updTrick, kp_curCore]
theorem kp_lsStore (off n v : Nat) : Kp (lsStore off n v) := by
  mvcgen [lsStore, kp_touchCheck, kp_curCtx, kp_curCore, kp_updTrick, kp_updCore, kp_throw, - Spec.throw_MonadExcept]

theorem kp_noteLine (l : Nat) (write : Bool) : Kp (noteLine l write) := by
  mvcgen [noteLine, kp_curCtx, kp_curCore, kp_getS, kp_updTrick, kp_throw, - Spec.throw_MonadExcept]
  all_goals simp_all [State.sound]

theorem kp_needLine (l : Nat) (own : Bool) : Kp (needLine l own) := by
  mvcgen [needLine, kp_getS, kp_stallOn]
  all_goals simp_all [State.sound]

theorem kp_noteUsed (e : TlbEntry) : Kp (noteUsed e) := by
  mvcgen [noteUsed, kp_updTrick]
theorem kp_hostLoad (pa n : Nat) : Kp (hostLoad pa n) := by
  mvcgen [hostLoad, kp_curCtx, kp_stallOn]
theorem kp_hostTiming (ea : Word) : Kp (hostTiming ea) := by
  mvcgen [hostTiming, kp_detLaunch, kp_myCtx, kp_stopIf]
theorem kp_gLoad (ea : Word) (n : Nat) : Kp (gLoad ea n) := by
  mvcgen [gLoad, kp_translateU, kp_noteUsed, kp_hostTiming, kp_hostLoad, kp_curCtx, kp_capCheckReadU, kp_needLine, kp_noteLine, kp_getS]
theorem kp_gStore (ea : Word) (n v : Nat) : Kp (gStore ea n v) := by
  mvcgen [gStore, kp_translateU, kp_noteUsed, kp_hostTiming, kp_updTrick, kp_capCheckU, kp_needLine, kp_noteLine]
theorem kp_popQ (i : Nat) : Kp (popQ i) := by
  mvcgen [popQ, kp_curCore, kp_waitOn, kp_updCore, kp_updTrick]
theorem kp_pushQ (i : Nat) (w : Word) : Kp (pushQ i w) := by
  mvcgen [pushQ, kp_curCore, kp_curCtx, kp_updTrick, kp_updCtx, kp_waitOn]
theorem kp_farCheck (k : GReg) : Kp (farCheck k) := by
  mvcgen [farCheck, kp_curCtx, kp_stallOn]
theorem kp_readG (k : GReg) : Kp (readG k) := by
  mvcgen [readG, kp_farCheck, kp_curCtx, kp_popQ, kp_curCore]
theorem kp_writeG (k : GReg) (x : Word) : Kp (writeG k x) := by
  mvcgen [writeG, kp_farCheck, kp_curCtx, kp_pushQ, kp_updCore]
theorem kp_needDest (d : GReg) : Kp (needDest d) := by
  mvcgen [needDest, kp_farCheck, kp_curCtx, kp_curCore, kp_updCtx, kp_waitOn]
theorem kp_noRemap (k : GReg) : Kp (noRemap k) := by
  mvcgen [noRemap, kp_curCtx, kp_stopIf]
theorem kp_curUnit : Kp (curUnit) := by
  mvcgen [curUnit, kp_curCtx]
theorem kp_payload : Kp (payload) := by
  mvcgen [payload, kp_curUnit]
theorem kp_immS {n : Nat} (f : BitVec n) : Kp (immS f) := by
  mvcgen [immS, kp_payload]
theorem kp_target {n : Nat} (f : BitVec n) : Kp (target f) := by
  mvcgen [target, kp_curUnit]
theorem kp_linkAddr : Kp (linkAddr) := by
  mvcgen [linkAddr, kp_curUnit]
theorem kp_vMode (m : BitVec 2) : Kp (vMode m) := by
  mvcgen [vMode, kp_curCtx]
theorem kp_vSat (m : BitVec 2) : Kp (vSat m) := by
  mvcgen [vSat, kp_curCtx]

theorem kp_unitRnd : Kp (unitRnd) := by
  mvcgen [unitRnd, kp_getS, kp_curCore, kp_curCtx]
  all_goals simp_all [State.sound]

theorem kp_readP (p : PReg) : Kp (readP p) := by
  mvcgen [readP, kp_curCore, kp_curCtx]
theorem kp_writeP (p : PReg) (x : Pred) : Kp (writeP p x) := by
  mvcgen [writeP, kp_curCtx, kp_updCore]
theorem kp_readV (k : VReg) : Kp (readV k) := by
  mvcgen [readV, kp_curCtx, kp_stopIf, kp_stopTrap, kp_waitOn, kp_updCtx, kp_throw, - Spec.throw_MonadExcept]
theorem kp_writeV (k : VReg) (x : Vec) (p : Pred) : Kp (writeV k x p) := by
  mvcgen [writeV, kp_curCtx, kp_updCtx, kp_stopIf, kp_waitOn]
theorem kp_oldV (k : VReg) : Kp (oldV k) := by
  mvcgen [oldV, kp_curCtx]
theorem kp_vectorEnd (norm : Bool) (interval : Nat) : Kp (vectorEnd norm interval) := by
  mvcgen [vectorEnd]
theorem kp_scalar2 (d s1 s2 : GReg) (f : Word → Word → Word) : Kp (scalar2 d s1 s2 f) := by
  mvcgen [scalar2, kp_readG, kp_writeG]
theorem kp_scalar1 (d s1 : GReg) (f : Word → Word) : Kp (scalar1 d s1 f) := by
  mvcgen [scalar1, kp_readG, kp_writeG]
theorem kp_scalar3 (d s1 s2 s3 : GReg) (f : Word → Word → Word → Word) : Kp (scalar3 d s1 s2 s3 f) := by
  mvcgen [scalar3, kp_readG, kp_writeG]
theorem kp_divide (d s1 s2 : GReg) (f : Word → Word → Word) : Kp (divide d s1 s2 f) := by
  mvcgen [divide, kp_readG, kp_writeG, kp_getS]

theorem kp_hdrPackFrom (c : Core) (s1 : GReg) (n l0 l1 : Nat) (l2 : Word) : Kp (hdrPackFrom c s1 n l0 l1 l2) := by
  induction l0 generalizing l1 l2 with
  | zero => mvcgen [hdrPackFrom]
  | succ n ih => mvcgen [hdrPackFrom, kp_readG, ih]

theorem kp_hdrSplitFrom (c : Core) (d : GReg) (n : Nat) (x : Word) (l0 l1 : Nat) : Kp (hdrSplitFrom c d n x l0 l1) := by
  induction l0 generalizing l1 with
  | zero => mvcgen [hdrSplitFrom]
  | succ n ih => mvcgen [hdrSplitFrom, kp_writeG, ih]

theorem kp_scalarI {n : Nat} (d s1 : GReg) (imm : BitVec n) (f : Word → Word → Word) : Kp (scalarI d s1 imm f) := by
  mvcgen [scalarI, kp_readG, kp_immS, kp_writeG]

theorem kp_vFinish (d : VReg) (pr : Pred) (r : Vec × Flags) (norm : Bool) (interval : Nat) :
    Kp (vFinish d pr r norm interval) := by
  mvcgen [vFinish, kp_writeV, kp_raiseFlags, kp_vectorEnd]

theorem kp_vArith (d : VReg) (srcs : List VReg) (p : PReg) (t : ElemType) (m : BitVec 2) (fop : FOp)
    (iop : Bool → List Nat → Nat × Flags) (interval : Nat) (integral : Bool) :
    Kp (vArith d srcs p t m fop iop interval integral) := by
  mvcgen [vArith, kp_readV, kp_oldV, kp_readP, kp_vSat, kp_vFinish, kp_vMode, kp_unitRnd, kp_mapM]

theorem kp_vPure (d : VReg) (srcs : List VReg) (p : PReg) (t : ElemType) (f : List Nat → Nat × Flags) :
    Kp (vPure d srcs p t f) := by
  mvcgen [vPure, kp_readV, kp_oldV, kp_readP, kp_vFinish, kp_mapM]

theorem kp_vSign (d s1 : VReg) (p : PReg) (t : ElemType) (m : BitVec 2) (neg : Bool) : Kp (vSign d s1 p t m neg) := by
  mvcgen [vSign, kp_vSat, kp_vPure]

theorem kp_vLogic (d s1 : VReg) (p : PReg) (t : ElemType) (f : BitVec 64 → BitVec 64 → BitVec 64) :
    Kp (vLogic d s1 p t f) := by
  mvcgen [vLogic, kp_vPure]

theorem kp_pLogic (q s1 s2 g : PReg) (f : Pred → Pred → Pred) : Kp (pLogic q s1 s2 g f) := by
  mvcgen [pLogic, kp_readP, kp_writeP]

theorem kp_vConvert (d s1 : VReg) (src : ElemType) (p : PReg) (t : ElemType) (m : BitVec 2) (hi : Bool) :
    Kp (vConvert d s1 src p t m hi) := by
  mvcgen [vConvert, kp_readV, kp_oldV, kp_readP, kp_vSat, kp_unitRnd, kp_writeV, kp_raiseFlags, kp_vectorEnd, kp_vMode]

theorem kp_vFun (g : Fun) (d s1 : VReg) (x : Bool) (p : PReg) (m : BitVec 2) : Kp (vFun g d s1 x p m) := by
  mvcgen [vFun, kp_vArith]
theorem kp_writeScalar (d : VReg) (pr : Pred) (w : Nat) (r : Nat × Flags) (norm : Bool) : Kp (writeScalar d pr w r norm) := by
  mvcgen [writeScalar, kp_vFinish]
theorem kp_redMinMax (d s1 : VReg) (p : PReg) (t : ElemType) (least : Bool) : Kp (redMinMax d s1 p t least) := by
  mvcgen [redMinMax, kp_readV, kp_readP, kp_writeScalar]

theorem kp_redLogic (d s1 : VReg) (p : PReg) (t : ElemType) (f : Nat → Nat → Nat) (ident : Nat) :
    Kp (redLogic d s1 p t f ident) := by
  mvcgen [redLogic, kp_readV, kp_readP, kp_writeScalar]

theorem kp_scanMinMax (d s1 : VReg) (p : PReg) (t : ElemType) (least : Bool) : Kp (scanMinMax d s1 p t least) := by
  mvcgen [scanMinMax, kp_readV, kp_oldV, kp_readP, kp_vFinish]
theorem kp_vMove (d s1 s2 : VReg) (p : PReg) (t : ElemType) (g : Nat → Vec → Vec → Nat → Nat) : Kp (vMove d s1 s2 p t g) := by
  mvcgen [vMove, kp_readV, kp_oldV, kp_readP, kp_vFinish]

theorem kp_lsDecode (ea : Word) (n : Nat) (win sync : Bool) : Kp (lsDecode ea n win sync) := by
  mvcgen [lsDecode, kp_getS, kp_stopTrap, kp_myCtx, kp_detLaunch, kp_stopIf]
  all_goals simp_all [State.sound]

theorem kp_eaMI (b : GReg) (off : BitVec 10) (scale : Nat) : Kp (eaMI b off scale) := by
  mvcgen [eaMI, kp_readG, kp_immS]
theorem kp_eaRR (s1 s2 : GReg) (f : Nat) : Kp (eaRR s1 s2 f) := by
  mvcgen [eaRR, kp_readG]
theorem kp_needAccepted : Kp (needAccepted) := by
  mvcgen [needAccepted, kp_curCtx, kp_waitOn]

theorem kp_performOp (op : RemoteOp) (owner off : Nat) (mbox : Bool) (d : GReg) : Kp (performOp op owner off mbox d) := by
  mvcgen [performOp, kp_getS, kp_setS, kp_writeG]
  all_goals simp_all [State.sound]

theorem kp_sendRequest (op : RemoteOp) (a : LsAddr) (d : GReg) : Kp (sendRequest op a d) := by
  mvcgen [sendRequest, kp_getS, kp_updCtx, kp_postIn]
  all_goals simp_all [State.sound]

theorem kp_loadElems (n : Nat) (l0 : List (Nat × Word)) : Kp (loadElems n l0) := by
  induction l0 with
  | nil => mvcgen [loadElems]
  | cons e l ih => mvcgen [loadElems, kp_lsLoad, ih]

theorem kp_storeElems (n : Nat) (t : ElemType) (data : Vec) (l0 : List (Nat × Word)) : Kp (storeElems n t data l0) := by
  induction l0 with
  | nil => mvcgen [storeElems]
  | cons e l ih => mvcgen [storeElems, kp_lsStore, ih]

theorem kp_sendVector (store : Bool) (d : VReg) (p : PReg) (t : ElemType) (es : List (Nat × Word)) (data : Vec) :
    Kp (sendVector store d p t es data) := by
  mvcgen [sendVector, kp_getS, kp_updCtx, kp_postIn]
  all_goals simp_all [State.sound]

theorem kp_needAligned (a : Word) (n : Nat) : Kp (needAligned a n) := by
  mvcgen [needAligned, kp_stopIf]
theorem kp_rowAddrs (s1 s2 : GReg) (p : PReg) (t : ElemType) : Kp (rowAddrs s1 s2 p t) := by
  mvcgen [rowAddrs, kp_readG, kp_needAligned, kp_readP]
theorem kp_gatherAddrs (s1 : GReg) (s2 : VReg) (p : PReg) (t : ElemType) : Kp (gatherAddrs s1 s2 p t) := by
  mvcgen [gatherAddrs, kp_readG, kp_needAligned, kp_readV, kp_readP]

theorem kp_frontFault (n : Nat) (es : List (Nat × Word)) : Kp (frontFault n es) := by
  mvcgen [frontFault, kp_getS, kp_stopTrap]
  all_goals simp_all [State.sound]

theorem kp_ownOffset (ea : Word) : Kp (ownOffset ea) := by
  mvcgen [ownOffset, kp_myCore, kp_stopTrap]

theorem kp_needMatrix : Kp (needMatrix) := by
  mvcgen [needMatrix, kp_getS, kp_stopIf]
  all_goals simp_all [State.sound]

theorem kp_mmaChecks (v : Option Nat) (d0 d1 d2 fmt : Word) : Kp (mmaChecks v d0 d1 d2 fmt) := by
  mvcgen [mmaChecks, kp_curCore, kp_curCtx, kp_stopIf]

theorem kp_performMma (tile : Nat) (z : Bool) (v : Option Nat) (d0 d1 d2 fmt : Word) :
    Kp (performMma tile z v d0 d1 d2 fmt) := by
  mvcgen [performMma, kp_getS, kp_curCore, kp_curCtx, kp_unitRnd, kp_updCore, kp_raiseFlags]
  all_goals simp_all [State.sound]

theorem kp_performTqnt (tile coff soff : Nat) (fmt : Word) : Kp (performTqnt tile coff soff fmt) := by
  mvcgen [performTqnt, kp_curCore, kp_unitRnd, kp_stopIf, kp_updCore, kp_raiseFlags]

theorem kp_matrixRequest (r : MatrixReq) : Kp (matrixRequest r) := by
  mvcgen [matrixRequest, kp_getS, kp_meterHold, kp_setS]
  all_goals simp_all [State.sound]

theorem kp_performTcfg (m n : Nat) : Kp (performTcfg m n) := by
  mvcgen [performTcfg, kp_curCore, kp_stopIf, kp_updCore]

theorem kp_performMatrix (r : MatrixReq) : Kp (performMatrix r) := by
  mvcgen [performMatrix, kp_performTcfg, kp_updCore, kp_curCore, kp_writeG, kp_getS, kp_setS, kp_performMma, kp_performTqnt]
  all_goals simp_all [State.sound]

theorem kp_tstcU (fmt : Nat) (tile : TReg) (s2 s1 : GReg) : Kp (tstcU fmt tile s2 s1) := by
  mvcgen [tstcU, kp_needMatrix, kp_readG, kp_getS, kp_curCore, kp_curCtx, kp_ownOffset, kp_stopIf, kp_unitRnd, kp_lsStore,
    kp_raiseFlags, kp_stallOn]
  all_goals simp_all [State.sound]

theorem kp_gAddr (b : GReg) (off : BitVec 10) (n : Nat) : Kp (gAddr b off n) := by
  mvcgen [gAddr, kp_eaMI, kp_needAligned]
theorem kp_globalLoad (d b : GReg) (off : BitVec 10) (z : BitVec 2) (x : Bool) : Kp (globalLoad d b off z x) := by
  mvcgen [globalLoad, kp_gAddr, kp_gLoad, kp_writeG]
theorem kp_globalStore (d b : GReg) (off : BitVec 10) (z : BitVec 2) : Kp (globalStore d b off z) := by
  mvcgen [globalStore, kp_gAddr, kp_readG, kp_gStore]

theorem kp_gLoadElems (n : Nat) (l0 : List (Nat × Word)) : Kp (gLoadElems n l0) := by
  induction l0 with
  | nil => mvcgen [gLoadElems]
  | cons e l ih => mvcgen [gLoadElems, kp_gLoad, ih]

theorem kp_gStoreElems (n : Nat) (t : ElemType) (data : Vec) (l0 : List (Nat × Word)) : Kp (gStoreElems n t data l0) := by
  induction l0 with
  | nil => mvcgen [gStoreElems]
  | cons e l ih => mvcgen [gStoreElems, kp_gStore, ih]

theorem kp_prefetch (b : GReg) (off : BitVec 10) (kind : LineKind) : Kp (prefetch b off kind) := by
  mvcgen [prefetch, kp_eaMI, kp_getS, kp_postIn]
  all_goals simp_all [State.sound]

theorem kp_leaseU (d s1 s2 : GReg) : Kp (leaseU d s1 s2) := by
  mvcgen [leaseU, kp_readG, kp_needDest, kp_translateU, kp_getS, kp_stopIf, kp_capCheckU, kp_curCtx, kp_writeG, kp_updCtx, kp_postIn]
  all_goals simp_all [State.sound]

theorem kp_capDone (d : GReg) (w : Word) : Kp (capDone d w) := by
  mvcgen [capDone, kp_writeG]

theorem kp_fetchHalf (va : Word) : Kp (fetchHalf va) := by
  mvcgen [fetchHalf, kp_translateU, kp_updCtx, kp_getS, kp_hostLoad, kp_stallOn]
  all_goals simp_all [State.sound]

theorem kp_fetchUnit (pc : Word) : Kp (fetchUnit pc) := by
  mvcgen [fetchUnit, kp_fetchHalf]

theorem kp_skipUnits (l0 : Nat) (l1 : Word) : Kp (skipUnits l0 l1) := by
  induction l0 generalizing l1 with
  | zero => mvcgen [skipUnits]
  | succ n ih => mvcgen [skipUnits, kp_fetchUnit, ih]

theorem kp_branchIf {n : Nat} (b : Bool) (off : BitVec n) : Kp (branchIf b off) := by
  mvcgen [branchIf, kp_target]
theorem kp_jumpReg (s1 : GReg) (link : Option GReg) : Kp (jumpReg s1 link) := by
  mvcgen [jumpReg, kp_readG, kp_stopIf, kp_linkAddr, kp_writeG]

theorem kp_takeHelper (d : GReg) (h : Nat) (w entry : Word) : Kp (takeHelper d h w entry) := by
  mvcgen [takeHelper, kp_getS, kp_updCore, kp_writeG]
  all_goals simp_all [State.sound]

theorem kp_startU (d s1 : GReg) (off : BitVec 14) : Kp (startU d s1 off) := by
  mvcgen [startU, kp_detLaunch, kp_myCtx, kp_stopIf, kp_readG, kp_curCore, kp_target, kp_getS, kp_updCore, kp_takeHelper,
    kp_waitOn, kp_writeG]
  all_goals simp_all [State.sound]

theorem kp_offAll : Kp (offAll) := by
  mvcgen [offAll, kp_curCtx, kp_waitOn, kp_updCtx]

theorem kp_endU : Kp (endU) := by
  mvcgen [endU, kp_myCtx, kp_offAll, kp_getS, kp_setS, kp_waitOn, kp_updCore, kp_curCore, kp_postIn]
  all_goals simp_all [State.sound]

theorem kp_yieldU : Kp (yieldU) := by
  mvcgen [yieldU, kp_detLaunch, kp_getS, kp_curCore, kp_updCtx]
  all_goals simp_all [State.sound]

theorem kp_waitU (d s1 : GReg) (mask : BitVec 10) : Kp (waitU d s1 mask) := by
  mvcgen [waitU, kp_readG, kp_detLaunch, kp_getS, kp_stopIf, kp_writeG, kp_needDest, kp_postIn]
  all_goals simp_all [State.sound]

theorem kp_getidU (d : GReg) (which : GetIdSel) : Kp (getidU d which) := by
  mvcgen [getidU, kp_getS, kp_curCore, kp_curCtx, kp_writeG, kp_stopIf]
  all_goals simp_all [State.sound]

theorem kp_breakWith (code : Word) : Kp (breakWith code) := by
  mvcgen [breakWith]
theorem kp_checkTile (t0 t1 : Word) (ca : Option Nat) (k : Nat) : Kp (checkTile t0 t1 ca k) := by
  mvcgen [checkTile, kp_curCore, kp_stopIf]
theorem kp_performStile (t0 t1 : Word) : Kp (performStile t0 t1) := by
  mvcgen [performStile, kp_curCore, kp_checkTile, kp_updCore, kp_raiseFlags]
theorem kp_performSjoinT (t0 t1 : Word) (ca : Nat) : Kp (performSjoinT t0 t1 ca) := by
  mvcgen [performSjoinT, kp_curCore, kp_checkTile, kp_updCore, kp_raiseFlags]
theorem kp_performSjoinR (n : Word) (ca ya : Nat) : Kp (performSjoinR n ca ya) := by
  mvcgen [performSjoinR, kp_curCore, kp_stopIf, kp_updCore, kp_raiseFlags]
theorem kp_performScan (r : ScanReq) : Kp (performScan r) := by
  mvcgen [performScan, kp_curCore, kp_updCore, kp_writeG, kp_performStile, kp_performSjoinT, kp_performSjoinR]
theorem kp_chainChecks (a m : Word) : Kp (chainChecks a m) := by
  mvcgen [chainChecks, kp_ownOffset, kp_stopIf, kp_curCore]

theorem kp_syncHome (h : Word) (scope : Scope) : Kp (syncHome h scope) := by
  mvcgen [syncHome, kp_getS, kp_stopIf]
  all_goals simp_all [State.sound]

theorem kp_lsRange (r : Option (Nat × Nat)) (e : Nat) : Kp (lsRange r e) := by
  mvcgen [lsRange, kp_getS, kp_stopTrap]
  all_goals simp_all [State.sound]

theorem kp_signalCheck (sk scope : Nat) (h : Word) : Kp (signalCheck sk scope h) := by
  mvcgen [signalCheck, kp_stopIf, kp_syncHome, kp_getS, kp_curCtx]

theorem kp_askHandle (q : Nat × Nat × Nat) (d : GReg) : Kp (askHandle q d) := by
  mvcgen [askHandle, kp_getS, kp_updCtx, kp_meterHold]
  all_goals simp_all +zetaDelta [State.sound]

theorem kp_walkRange (kind l0 l1 l2 : Nat) : Kp (walkRange kind l0 l1 l2) := by
  induction l0 generalizing l1 with
  | zero => mvcgen [walkRange]
  | succ n ih => mvcgen [walkRange, kp_translateU, ih]

theorem kp_checkPageU (write : Bool) (pa : Nat) (ea : Word) : Kp (checkPageU write pa ea) := by
  mvcgen [checkPageU, kp_getS, kp_stallOn, kp_stopIf, kp_capCheckU, kp_capCheckReadU]
  all_goals simp_all [State.sound]

theorem kp_checkRegions (es : List FpEntry) : Kp (checkRegions es) := by
  mvcgen [checkRegions, kp_walkRange, kp_checkPageU, kp_mapM, kp_forM]
theorem kp_checkCard (c : Card) (block : Except Cause (Option (List Word))) : Kp (checkCard c block) := by
  mvcgen [checkCard, kp_stopIf, kp_signalCheck, kp_checkRegions, kp_stopTrap, kp_lsRange]
theorem kp_channelOf (w : Word) : Kp (channelOf w) := by
  mvcgen [channelOf, kp_stopIf, kp_myCore]
theorem kp_blockOffset (a : Word) (n : Nat) : Kp (blockOffset a n) := by
  mvcgen [blockOffset, kp_ownOffset, kp_stopIf, kp_curCore]
theorem kp_ownWords (off n : Nat) : Kp (ownWords off n) := by
  mvcgen [ownWords, kp_curCore, kp_myCtx, kp_waitOn]

theorem kp_needRoom (ch : Nat) : Kp (needRoom ch) := by
  mvcgen [needRoom, kp_getS, kp_waitOn]
  all_goals simp_all [State.sound]

theorem kp_placeJob (ch : Nat) (kind : JobKind) (rd wr : List (Nat × Nat)) : Kp (placeJob ch kind rd wr) := by
  mvcgen [placeJob, kp_getS, kp_setS, kp_postIn]
  all_goals simp_all [State.sound]

theorem kp_footprintBlock (a : Word) : Kp (footprintBlock a) := by
  mvcgen [footprintBlock, kp_myCore, kp_curCore, kp_ownWords]

theorem kp_gathScat (scatter : Bool) (d s1 s2 : GReg) : Kp (gathScat scatter d s1 s2) := by
  mvcgen [gathScat, kp_readG, kp_channelOf, kp_blockOffset, kp_needRoom, kp_ownWords, kp_getS, kp_stopIf, kp_curCore,
    kp_signalCheck, kp_askHandle, kp_myCtx, kp_placeJob, kp_writeG, kp_waitOn]
  all_goals simp_all [State.sound]

theorem kp_bindStream (d : GReg) (k : VReg) (m : Stream) : Kp (bindStream d k m) := by
  mvcgen [bindStream, kp_curCtx, kp_stopIf, kp_getS, kp_updCtx, kp_writeG, kp_postIn]
  all_goals simp_all [State.sound]

theorem kp_stripAligned (base : Word) (dims : List (Nat × ℤ)) : Kp (stripAligned base dims) := by
  mvcgen [stripAligned, kp_stopIf]
theorem kp_strmAffine (out : Bool) (d : GReg) (k : VReg) (s1 : GReg) : Kp (strmAffine out d k s1) := by
  mvcgen [strmAffine, kp_readG, kp_stopIf, kp_stripAligned, kp_curCore, kp_bindStream]
theorem kp_strmDescr (out : Bool) (d : GReg) (k : VReg) (s1 : GReg) : Kp (strmDescr out d k s1) := by
  mvcgen [strmDescr, kp_readG, kp_blockOffset, kp_ownWords, kp_stopIf, kp_stripAligned, kp_curCore, kp_bindStream]
theorem kp_privileged : Kp (privileged) := by
  mvcgen [privileged, kp_myCtx, kp_stopIf]
theorem kp_needParked (x : Nat) : Kp (needParked x) := by
  mvcgen [needParked, kp_curCore, kp_stopIf]

theorem kp_eretU (s1 : GReg) : Kp (eretU s1) := by
  mvcgen [eretU, kp_privileged, kp_readG, kp_needParked, kp_curCore, kp_stopIf, kp_myCore]
  all_goals simp_all +zetaDelta [State.sound]

theorem kp_parkSelect (s1 : GReg) : Kp (parkSelect s1) := by
  mvcgen [parkSelect, kp_privileged, kp_readG, kp_stopIf, kp_needParked]
theorem kp_countLost (b : Nat) : Kp (countLost b) := by
  mvcgen [countLost, kp_modify]
theorem kp_ctlWrite (r : Nat) (w : Word) : Kp (ctlWrite r w) := by
  mvcgen [ctlWrite, kp_myCore, kp_updCtx, kp_updCore, kp_stopTrap, kp_modify]

theorem kp_needQueue (q : Nat) : Kp (needQueue q) := by
  mvcgen [needQueue, kp_getS, kp_stopIf]
  all_goals simp_all [State.sound]

theorem kp_queueRequest (op : QueueOp) (q : Nat) (d : GReg) : Kp (queueRequest op q d) := by
  mvcgen [queueRequest, kp_needQueue, kp_needDest, kp_getS, kp_updCtx, kp_postIn]

theorem kp_queueNumber (s1 : GReg) (word : Bool) : Kp (queueNumber s1 word) := by
  mvcgen [queueNumber, kp_timingTrap, kp_readG, kp_stopIf, kp_getS]
  all_goals simp_all [State.sound]

theorem kp_queueBuffer (a : Word) (q : Nat) : Kp (queueBuffer a q) := by
  mvcgen [queueBuffer, kp_ownOffset, kp_stopIf, kp_getS, kp_curCore]
  all_goals simp_all [State.sound]

theorem kp_deqBuffer (poll : Bool) (d s1 s2 : GReg) : Kp (deqBuffer poll d s1 s2) := by
  mvcgen [deqBuffer, kp_queueNumber, kp_readG, kp_queueBuffer, kp_queueRequest]
theorem kp_currentMessage : Kp (currentMessage) := by
  mvcgen [currentMessage, kp_curCtx, kp_myCtx, kp_stopTrap]

theorem kp_readPayload (l0 : Nat) (l1 : GReg) : Kp (readPayload l0 l1) := by
  induction l0 generalizing l1 with
  | zero => mvcgen [readPayload]
  | succ n ih => mvcgen [readPayload, kp_readG, ih]

theorem kp_sendTo (pkg core : Nat) (msg : MessageData) (d : GReg) : Kp (sendTo pkg core msg d) := by
  mvcgen [sendTo, kp_getS, kp_stopIf, kp_needDest, kp_podRelease, kp_meterHold, kp_updCtx, kp_postIn]
  all_goals simp_all +zetaDelta [State.sound]

theorem kp_originId : Kp (originId) := by
  mvcgen [originId, kp_getS]
  all_goals simp_all [State.sound]

theorem kp_replyHeader (s1 : GReg) : Kp (replyHeader s1) := by
  mvcgen [replyHeader, kp_timingTrap, kp_currentMessage, kp_readG, kp_stopIf]

end Sys2Proof.Proofs
end

section
/-! PROOF. Units that run inside tricks, outside them, and on the answer they await (R28, R214, R235, R246). -/

namespace Sys2Proof.Proofs
open Sys2Proof Sys2Proof.Machine Sys2Proof.Laws
set_option mvcgen.warning false

/-- A step that leaves a memory in its canonical form, if it was so before. -/
def KeepsForm (f : State → Out) : Prop := ∀ s t, memWf s.mem = true → f s = .next t → memWf t.mem = true

/-- A step that cannot be refused keeps the form where its outcome does. -/
theorem keepsForm_next {f : State → State} (h : ∀ s, memWf s.mem = true → memWf (f s).mem = true) :
    KeepsForm fun s => .next (f s) := by
  intro s t hs e
  cases e
  exact h s hs

theorem Kp.memWf {α : Type} {m : U α} {s t : State} {a : α} (hm : Kp m) (hs : memWf s.mem = true) (e : m.run s = .ok (a, t)) :
    memWf t.mem = true := kp_iff.1 hm s a t hs e

theorem keepsForm_runIn {m : U After} (hm : Kp m) : KeepsForm (runIn m) := by
  intro s t hs h
  unfold runIn at h
  dsimp only at h
  repeat' split at h
  all_goals cases h
  any_goals refine memWf_finishUnit _ _ _ _ _ (hm.memWf ?_ ‹_›)
  all_goals simp [hs]

theorem keepsForm_runOut {m : U After} (hm : Kp m) : KeepsForm (runOut m) := by
  intro s t hs h
  have h1 := memWf_endTrick s.cur.1 s.cur.2 hs
  unfold runOut at h
  dsimp only at h
  split at h
  · split at h
    · cases h
      exact memWf_finishUnit _ _ _ _ _ (hm.memWf h1 ‹_›)
    · cases h
      exact memWf_stopUnit _ _ _ _ h1
  · cases h
    simpa using h1

theorem keepsForm_runIrr {m : U After} (hm : Kp m) : KeepsForm (runIrr m) := keepsForm_runOut (by mvcgen [kp_farDrain, hm])
theorem keepsForm_runOp {m : U After} (hm : Kp m) : KeepsForm (runOp m) := keepsForm_runOut (by mvcgen [kp_farDrain, hm])

@[simp] theorem memWf_completeUnit {s : State} (k x : Nat) {m : U After} (hm : Kp m) (h : memWf s.mem = true) :
    memWf (completeUnit s k x m).mem = true := by
  unfold completeUnit
  dsimp only
  split
  · next e => simpa using hm.memWf (s := { s with cur := (k, x) }) h e
  · next a t _ e =>
    have ht := hm.memWf (s := { s with cur := (k, x) }) h e
    repeat' split
    all_goals simp [ht]
  · exact memWf_stopUnit _ _ _ _ (by simpa using h)

end Sys2Proof.Proofs
end

section
/-! PROOF. The units that read and write as they go, and those that go to a unit of their own, keep the form of memory (R28, R246). -/

namespace Sys2Proof.Proofs
open Sys2Proof Sys2Proof.Machine Sys2Proof.Laws
open Std.Do
set_option mvcgen.warning false

theorem keepsForm_execBfi (d s1 s2 : GReg) : KeepsForm (execBfi d s1 s2) := keepsForm_runIn (by mvcgen [kp_noRemap, kp_readG, kp_writeG])
theorem keepsForm_execHdrPack (d s1 : GReg) (n : BitVec 4) : KeepsForm (execHdrPack d s1 n) :=
  keepsForm_runIn (by mvcgen [kp_curCore, kp_hdrPackFrom, kp_writeG])
theorem keepsForm_execHdrSplit (d s1 : GReg) (n : BitVec 4) : KeepsForm (execHdrSplit d s1 n) :=
  keepsForm_runIn (by mvcgen [kp_readG, kp_curCore, kp_hdrSplitFrom])
theorem keepsForm_execLi (d : GReg) (imm : BitVec 19) : KeepsForm (execLi d imm) := keepsForm_runIn (by mvcgen [kp_immS, kp_writeG])
theorem keepsForm_execLih (d : GReg) (imm : BitVec 19) : KeepsForm (execLih d imm) :=
  keepsForm_runIn (by mvcgen [kp_noRemap, kp_readG, kp_immS, kp_writeG])
theorem keepsForm_execVcmp (q : PReg) (c : VCond) (s1 s2 : VReg) (p : PReg) (t : ElemType) :
    KeepsForm (execVcmp q c s1 s2 p t) := keepsForm_runIn (by mvcgen [kp_readV, kp_readP, kp_writeP, kp_raiseFlags])
theorem keepsForm_execWhilePred (q : PReg) (l u : Bool) (s1 s2 : GReg) (t : ElemType) :
    KeepsForm (execWhilePred q l u s1 s2 t) := keepsForm_runIn (by mvcgen [kp_readG, kp_writeP])
theorem keepsForm_execVwid (d : GReg) : KeepsForm (execVwid d) := keepsForm_runIn (by mvcgen [kp_writeG])
theorem keepsForm_execVredAdd (d s1 : VReg) (p : PReg) (t : ElemType) (m : BitVec 2) : KeepsForm (execVredAdd d s1 p t m) :=
  keepsForm_runIn (by mvcgen [kp_readV, kp_readP, kp_vSat, kp_writeScalar, kp_vMode, kp_unitRnd])
theorem keepsForm_execVdot (d s1 s2 : VReg) (p : PReg) (t : ElemType) (m : BitVec 2) : KeepsForm (execVdot d s1 s2 p t m) :=
  keepsForm_runIn (by mvcgen [kp_readV, kp_readP, kp_vSat, kp_writeScalar, kp_vMode, kp_unitRnd])

theorem keepsForm_execVscanAdd (d s1 : VReg) (p : PReg) (t : ElemType) (m : BitVec 2) :
    KeepsForm (execVscanAdd d s1 p t m) := keepsForm_runIn (by mvcgen [kp_readV, kp_oldV, kp_readP, kp_vSat, kp_vFinish,
      kp_vMode, kp_unitRnd])

theorem keepsForm_execVsel (d s1 s2 : VReg) (p : PReg) (t : ElemType) : KeepsForm (execVsel d s1 s2 p t) :=
  keepsForm_runIn (by mvcgen [kp_readV, kp_readP, kp_vFinish])
theorem keepsForm_execVbcast (d : VReg) (s1 : GReg) (p : PReg) (t : ElemType) : KeepsForm (execVbcast d s1 p t) :=
  keepsForm_runIn (by mvcgen [kp_readG, kp_oldV, kp_readP, kp_vFinish])
theorem keepsForm_execVext (d : GReg) (s1 : VReg) (s2 : GReg) (t : ElemType) : KeepsForm (execVext d s1 s2 t) :=
  keepsForm_runIn (by mvcgen [kp_readV, kp_readG, kp_writeG])
theorem keepsForm_execVins (d : VReg) (s1 s2 : GReg) (t : ElemType) : KeepsForm (execVins d s1 s2 t) :=
  keepsForm_runIn (by mvcgen [kp_readG, kp_oldV, kp_writeV])
theorem keepsForm_execVshuf (d s1 : VReg) (s2 : GReg) (p : PReg) (t : ElemType) : KeepsForm (execVshuf d s1 s2 p t) :=
  keepsForm_runIn (by mvcgen [kp_readG, kp_stopIf, kp_readV, kp_oldV, kp_readP, kp_vFinish])

theorem keepsForm_loadUnit (addr : U Word) (d : GReg) (z : BitVec 2) (sx : Bool) (ha : Kp addr) :
    KeepsForm (loadUnit addr d z sx) := by
  intro s t hs h
  unfold loadUnit at h
  dsimp only at h
  split at h
  · exact keepsForm_runOp (by mvcgen [ha, kp_lsDecode, kp_needDest, kp_sendRequest]) s t hs h
  · exact keepsForm_runIn (by mvcgen [ha, kp_lsDecode, kp_lsLoad, kp_writeG]) s t hs h

theorem keepsForm_storeUnit (addr : U Word) (d : GReg) (z : BitVec 2) (ha : Kp addr) : KeepsForm (storeUnit addr d z) := by
  intro s t hs h
  unfold storeUnit at h
  dsimp only at h
  split at h
  · exact keepsForm_runIrr (by mvcgen [ha, kp_readG, kp_lsDecode, kp_sendRequest]) s t hs h
  · exact keepsForm_runIn (by mvcgen [kp_needAccepted, ha, kp_readG, kp_lsDecode, kp_lsStore]) s t hs h

theorem keepsForm_execXch (d s1 s2 : GReg) (f : BitVec 5) (z : BitVec 2) (x : Bool) : KeepsForm (execXch d s1 s2 f z x) := by
  intro s t hs h
  unfold execXch at h
  dsimp only at h
  split at h
  · exact keepsForm_runIrr (by mvcgen [kp_eaRR, kp_readG, kp_lsDecode, kp_needDest, kp_sendRequest]) s t hs h
  · exact keepsForm_runIn (by mvcgen [kp_eaRR, kp_readG, kp_lsDecode, kp_lsLoad, kp_lsStore, kp_writeG]) s t hs h

theorem keepsForm_syncAccess (addr : U Word) (op : U RemoteOp) (win : Bool) (d : GReg) (ha : Kp addr) (ho : Kp op) :
    KeepsForm (syncAccess addr op win d) := by
  refine keepsForm_runIrr ?_
  mvcgen [kp_lsDecode, kp_getS, kp_sendRequest, kp_myCtx, kp_performOp, kp_waitOn, kp_needDest, ha, ho]
  all_goals simp_all [State.sound]

theorem keepsForm_vectorLoad (addrs : U (List (Nat × Word))) (d : VReg) (p : PReg) (t : ElemType) (ha : Kp addrs) :
    KeepsForm (vectorLoad addrs d p t) := by
  intro s t hs h
  unfold vectorLoad at h
  dsimp only at h
  split at h
  · exact keepsForm_runOp (by mvcgen [ha, kp_frontFault, kp_oldV, kp_sendVector]) s t hs h
  · exact keepsForm_runIn (by mvcgen [ha, kp_frontFault, kp_loadElems, kp_oldV, kp_readP, kp_writeV]) s t hs h

theorem keepsForm_vectorStore (addrs : U (List (Nat × Word))) (d : VReg) (p : PReg) (t : ElemType) (ha : Kp addrs) :
    KeepsForm (vectorStore addrs d p t) := by
  intro s t hs h
  unfold vectorStore at h
  dsimp only at h
  split at h
  · exact keepsForm_runIrr (by mvcgen [ha, kp_frontFault, kp_readV, kp_sendVector]) s t hs h
  · exact keepsForm_runIn (by mvcgen [kp_needAccepted, ha, kp_frontFault, kp_readV, kp_storeElems]) s t hs h

theorem keepsForm_matrixUnit (m : U MatrixReq) (hm : Kp m) : KeepsForm (matrixUnit m) :=
  keepsForm_runOp (by mvcgen [kp_needMatrix, kp_matrixRequest, hm])
theorem keepsForm_execVldg (d : VReg) (s1 s2 : GReg) (p : PReg) (t : ElemType) : KeepsForm (execVldg d s1 s2 p t) :=
  keepsForm_runIn (by mvcgen [kp_rowAddrs, kp_gLoadElems, kp_oldV, kp_readP, kp_writeV])
theorem keepsForm_execVstg (d : VReg) (s1 s2 : GReg) (p : PReg) (t : ElemType) : KeepsForm (execVstg d s1 s2 p t) :=
  keepsForm_runIn (by mvcgen [kp_rowAddrs, kp_readV, kp_gStoreElems])
theorem keepsForm_execLease (d s1 s2 : GReg) : KeepsForm (execLease d s1 s2) := keepsForm_runOp (by mvcgen [kp_leaseU])

theorem keepsForm_execUnlease (d s1 : GReg) : KeepsForm (execUnlease d s1) := by
  refine keepsForm_runOp ?_
  mvcgen [kp_readG, kp_curCtx, kp_getS, kp_writeG, kp_updCtx, kp_timingTrap]
  all_goals simp_all [State.sound]

theorem keepsForm_execLstat (d s1 : GReg) : KeepsForm (execLstat d s1) := by
  refine keepsForm_runOp ?_
  mvcgen [kp_timingTrap, kp_readG, kp_curCtx, kp_getS, kp_writeG]
  all_goals simp_all [State.sound]

theorem keepsForm_farAtomic (op : Nat) (d s1 s2 : GReg) (scope : Scope) (ord : Bool) :
    KeepsForm (farAtomic op d s1 s2 scope ord) := by
  refine keepsForm_runOut ?_
  mvcgen [kp_readG, kp_needAligned, kp_curCtx, kp_needDest, kp_getS, kp_updCtx, kp_waitOn]
  all_goals simp_all +zetaDelta [State.sound]

theorem keepsForm_capUnit (op : U CapOp) (kind : Nat) (d s1 : GReg) (ho : Kp op) : KeepsForm (capUnit op kind d s1) :=
  keepsForm_runIrr (by mvcgen [kp_readG, kp_translateU, kp_stopIf, kp_needDest, kp_getS, kp_updCtx, kp_postIn, ho])
theorem keepsForm_execBr (off : BitVec 24) : KeepsForm (execBr off) := keepsForm_runIn (by mvcgen [kp_target])
theorem keepsForm_execBcc (c : Cond) (s1 s2 : GReg) (off : BitVec 9) : KeepsForm (execBcc c s1 s2 off) :=
  keepsForm_runIn (by mvcgen [kp_readG, kp_branchIf])
theorem keepsForm_execBp (c : PCond) (p : PReg) (off : BitVec 15) : KeepsForm (execBp c p off) :=
  keepsForm_runIn (by mvcgen [kp_readP, kp_branchIf])
theorem keepsForm_execCall (off : BitVec 24) : KeepsForm (execCall off) := keepsForm_runIn (by mvcgen [kp_linkAddr, kp_writeG, kp_target])
theorem keepsForm_execLoop (ctr : GReg) (off : BitVec 9) : KeepsForm (execLoop ctr off) :=
  keepsForm_runIn (by mvcgen [kp_readG, kp_writeG, kp_branchIf])

theorem keepsForm_execRep (s1 : GReg) (n : BitVec 4) (_kind : RepKind) (_base : BitVec 5) (_sz : BitVec 3) (_stride : BitVec 5) :
    KeepsForm (execRep s1 n _kind _base _sz _stride) := keepsForm_runIn (by mvcgen [kp_readG, kp_stopIf, kp_curUnit,
      kp_skipUnits, kp_updCtx])

theorem keepsForm_scanUnit (m : U ScanReq) (hm : Kp m) : KeepsForm (scanUnit m) := by
  refine keepsForm_runOp ?_
  mvcgen [kp_getS, kp_updCtx, kp_postIn, hm]
  all_goals simp_all +zetaDelta [State.sound]

theorem keepsForm_execChainPost (d s1 s2 : GReg) : KeepsForm (execChainPost d s1 s2) := by
  refine keepsForm_runIrr ?_
  mvcgen [kp_getS, kp_stopTrap, kp_readG, kp_chainChecks, kp_writeG, kp_needDest, kp_updCtx, kp_postIn]
  all_goals simp_all [State.sound]

theorem keepsForm_execChainWait (d s1 s2 : GReg) : KeepsForm (execChainWait d s1 s2) := by
  refine keepsForm_runIrr ?_
  mvcgen [kp_getS, kp_stopTrap, kp_readG, kp_chainChecks, kp_writeG, kp_needDest, kp_updCtx]
  all_goals simp_all [State.sound]

theorem keepsForm_execChainPos (d : GReg) : KeepsForm (execChainPos d) := by
  refine keepsForm_runIrr ?_
  mvcgen [kp_getS, kp_writeG]
  all_goals simp_all [State.sound]

theorem keepsForm_syncUnit (barrier : Bool) (op : Word → U SyncOp) (d s1 s2 : GReg) (scope : Scope) (ho : ∀ v, Kp (op v)) :
    KeepsForm (syncUnit barrier op d s1 s2 scope) := by
  refine keepsForm_runIrr ?_
  mvcgen [kp_readG, kp_stopIf, kp_syncHome, kp_needDest, kp_getS, kp_meterHold, kp_updCtx, kp_podRelease, ho]
  all_goals simp_all +zetaDelta [State.sound]

theorem keepsForm_execCpy (d s1 s2 : GReg) : KeepsForm (execCpy d s1 s2) :=
  keepsForm_runIrr (by mvcgen [kp_readG, kp_channelOf, kp_blockOffset, kp_needRoom, kp_ownWords, kp_footprintBlock, kp_checkCard,
    kp_askHandle, kp_placeJob, kp_writeG])

theorem keepsForm_execCpyStat (d s1 : GReg) : KeepsForm (execCpyStat d s1) := by
  refine keepsForm_runIrr ?_
  mvcgen [kp_timingTrap, kp_readG, kp_channelOf, kp_getS, kp_writeG]
  all_goals simp_all [State.sound]

theorem keepsForm_execCpyStatErr (d s1 : GReg) : KeepsForm (execCpyStatErr d s1) := by
  refine keepsForm_runIrr ?_
  mvcgen [kp_timingTrap, kp_readG, kp_channelOf, kp_getS, kp_writeG]
  all_goals simp_all +zetaDelta [State.sound]

theorem keepsForm_execCpyStatWait (d s1 s2 : GReg) : KeepsForm (execCpyStatWait d s1 s2) :=
  keepsForm_runIrr (by mvcgen [kp_readG, kp_channelOf, kp_needDest])
theorem keepsForm_execStrmOff (d : GReg) (v : VReg) : KeepsForm (execStrmOff d v) :=
  keepsForm_runIrr (by mvcgen [kp_curCtx, kp_writeG, kp_updCtx, kp_waitOn])
theorem keepsForm_execFence (scope : Scope) : KeepsForm (execFence scope) := keepsForm_runIrr (by mvcgen [kp_podRelease])
theorem keepsForm_execRel (scope : Scope) : KeepsForm (execRel scope) := keepsForm_runIrr (by mvcgen [kp_podRelease])
theorem keepsForm_execTrap (s1 : GReg) (n : BitVec 5) : KeepsForm (execTrap s1 n) := keepsForm_runIrr (by mvcgen [kp_readG])
theorem keepsForm_execEret (s1 : GReg) : KeepsForm (execEret s1) := keepsForm_runIrr (by mvcgen [kp_eretU])
theorem keepsForm_execEretEnd (s1 : GReg) : KeepsForm (execEretEnd s1) := keepsForm_runIrr (by mvcgen [kp_eretU, kp_endU])

theorem keepsForm_execParkrd (d s1 : GReg) : KeepsForm (execParkrd d s1) := by
  refine keepsForm_runIrr ?_
  mvcgen [kp_parkSelect, kp_curCore, kp_getS, kp_writeG]
  all_goals simp_all [State.sound]

theorem keepsForm_execParkwr (s1 s2 : GReg) : KeepsForm (execParkwr s1 s2) :=
  keepsForm_runIrr (by mvcgen [kp_parkSelect, kp_readG, kp_stopIf, kp_getS, kp_updCore])
theorem keepsForm_execErlog (d s1 : GReg) : KeepsForm (execErlog d s1) :=
  keepsForm_runIrr (by mvcgen [kp_privileged, kp_readG, kp_blockOffset, kp_curCore, kp_writeG, kp_touchCheck, kp_updCore])

theorem keepsForm_execErlogEsc (s1 : GReg) : KeepsForm (execErlogEsc s1) := by
  refine keepsForm_runIrr ?_
  mvcgen [kp_privileged, kp_readG, kp_blockOffset, kp_ownWords, kp_myCore]
  all_goals simp_all +zetaDelta [State.sound]

theorem keepsForm_ctlUnit (r : Nat) (m : U After) (hm : Kp m) : KeepsForm (ctlUnit r m) := by
  intro s t hs h
  unfold ctlUnit at h
  split at h
  · exact keepsForm_runIrr hm s t hs h
  · exact keepsForm_runIn (kp_stopTrap _ _ _) s t hs h

theorem keepsForm_execCwrCmode (s1 : GReg) : KeepsForm (execCwrCmode s1) := keepsForm_runIrr (by mvcgen [kp_readG, kp_stopIf, kp_updCtx])
theorem keepsForm_execCwrWsp (s1 : GReg) : KeepsForm (execCwrWsp s1) :=
  keepsForm_runIrr (by mvcgen [kp_readG, kp_curCore, kp_stopIf, kp_updCtx])
theorem keepsForm_execCwrLayout (n : BitVec 5) (s1 : GReg) : KeepsForm (execCwrLayout n s1) :=
  keepsForm_runIrr (by mvcgen [kp_readG, kp_stopIf, kp_updCore])
theorem keepsForm_execCwrSplit (s1 : GReg) : KeepsForm (execCwrSplit s1) :=
  keepsForm_runIrr (by mvcgen [kp_readG, kp_stopIf, kp_curCore, kp_myCtx, kp_myCore, kp_getS, kp_updCore])
theorem keepsForm_execCwrVpool (s1 : GReg) : KeepsForm (execCwrVpool s1) := keepsForm_runIrr (by mvcgen [kp_readG, kp_myCore])
theorem keepsForm_execCwrClass (n : BitVec 5) (s1 : GReg) : KeepsForm (execCwrClass n s1) :=
  keepsForm_runIrr (by mvcgen [kp_readG, kp_curCore, kp_stopIf, kp_getS, kp_updCore])
theorem keepsForm_execCwrVmroot (s1 : GReg) : KeepsForm (execCwrVmroot s1) :=
  keepsForm_runIrr (by mvcgen [kp_privileged, kp_readG, kp_updCore])
theorem keepsForm_tlbiU (kind : Nat) (va asid : U Word) (scope : Scope) (hv : Kp va) (ha : Kp asid) :
    KeepsForm (tlbiU kind va asid scope) := keepsForm_runIrr (by mvcgen [kp_privileged, kp_stopIf, kp_getS, kp_updCtx, kp_postIn, hv, ha])
theorem keepsForm_execCLi (d : GReg) (imm : BitVec 5) : KeepsForm (execCLi d imm) := keepsForm_runIn (by mvcgen [kp_writeG])
theorem keepsForm_execCBr (off : BitVec 10) : KeepsForm (execCBr off) := keepsForm_runIn (by mvcgen [kp_target])
theorem keepsForm_execCBccEq (x : GReg) (off : BitVec 7) : KeepsForm (execCBccEq x off) :=
  keepsForm_runIn (by mvcgen [kp_readG, kp_branchIf])
theorem keepsForm_execCBccNe (x : GReg) (off : BitVec 7) : KeepsForm (execCBccNe x off) :=
  keepsForm_runIn (by mvcgen [kp_readG, kp_branchIf])
theorem keepsForm_execCBpAny (p : PReg) (off : BitVec 7) : KeepsForm (execCBpAny p off) :=
  keepsForm_runIn (by mvcgen [kp_readP, kp_branchIf])
theorem keepsForm_execQinit (d s1 s2 : GReg) : KeepsForm (execQinit d s1 s2) :=
  keepsForm_runIrr (by mvcgen [kp_readG, kp_stopIf, kp_queueRequest])
theorem keepsForm_execEnq (d s1 s2 : GReg) : KeepsForm (execEnq d s1 s2) :=
  keepsForm_runIrr (by mvcgen [kp_queueNumber, kp_readG, kp_queueRequest])

theorem keepsForm_execEnqB (d s1 s2 : GReg) : KeepsForm (execEnqB d s1 s2) := by
  refine keepsForm_runIrr ?_
  mvcgen [kp_queueNumber, kp_readG, kp_queueBuffer, kp_getS, kp_curCore, kp_myCtx, kp_queueRequest, kp_waitOn]
  all_goals simp_all [State.sound]

theorem keepsForm_execDeq (d s1 : GReg) : KeepsForm (execDeq d s1) := keepsForm_runIrr (by mvcgen [kp_queueNumber, kp_queueRequest])
theorem keepsForm_execSend (d s1 s2 : GReg) (n : BitVec 5) : KeepsForm (execSend d s1 s2 n) :=
  keepsForm_runIrr (by mvcgen [kp_timingTrap, kp_readG, kp_stopIf, kp_readPayload, kp_originId, kp_sendTo])
theorem keepsForm_execSendRep (d s1 s2 : GReg) (n : BitVec 5) : KeepsForm (execSendRep d s1 s2 n) :=
  keepsForm_runIrr (by mvcgen [kp_replyHeader, kp_readPayload, kp_originId, kp_sendTo])
theorem keepsForm_execSendRef (d s1 : GReg) : KeepsForm (execSendRef d s1) :=
  keepsForm_runIrr (by mvcgen [kp_replyHeader, kp_originId, kp_sendTo])

theorem keepsForm_mmaUnit (d : TReg) (s1 : GReg) (z : Bool) (v : Option Nat) : KeepsForm (mmaUnit d s1 z v) := by
  intro s t hs h
  unfold mmaUnit at h
  dsimp only at h
  split at h
  · next u e =>
    have hu : memWf u.mem = true := by
      refine keepsForm_matrixUnit _ ?_ s u hs e
      mvcgen [kp_getS, kp_readG, kp_mmaChecks, kp_stopTrap]
      all_goals simp_all [State.sound]
    split at h
    all_goals cases h
    all_goals simp [hu]
  · next hn => exact absurd h (hn t)

end Sys2Proof.Proofs
end

section
/-! PROOF. Accesses at their owners, and what comes due at a core (R28, R246): the form of memory is kept. -/

namespace Sys2Proof.Proofs
open Sys2Proof Sys2Proof.Machine Sys2Proof.Laws
open Std.Do
set_option mvcgen.warning false

/-- An outcome whose next state, if it has one, has a canonical memory. -/
def SoundOut (o : Out) : Prop := ∀ t, o = .next t → memWf t.mem = true

theorem soundOut_next {t : State} (h : memWf t.mem = true) : SoundOut (.next t) := by
  rintro u ⟨⟩
  exact h

theorem soundOut_ite {c : Prop} [Decidable c] {a b : Out} (ha : SoundOut a) (hb : SoundOut b) :
    SoundOut (if c then a else b) := by
  split
  · exact ha
  · exact hb

theorem keepsForm_of_soundOut {f : State → Out} (h : ∀ s, memWf s.mem = true → SoundOut (f s)) : KeepsForm f :=
  fun s t hs e => h s hs t e
theorem kp_pure {α : Type} (a : α) : Kp (pure a : U α) := by mvcgen
theorem kp_writeG_next (d : GReg) (w : Word) : Kp (do writeG d w; pure After.next) := by mvcgen [kp_writeG]
theorem kp_updCore_writeG_next (f : Core → Core) (d : GReg) (w : Word) : Kp (do updCore f; writeG d w; pure After.next) := by
  mvcgen [kp_updCore, kp_writeG]
theorem memWf_of_mem {s t : State} (e : t.mem = s.mem) (h : memWf s.mem = true) : memWf t.mem = true := by rwa [e]

@[simp] theorem memWf_requestAt {s : State} (k x : Nat) (h : memWf s.mem = true) : memWf (requestAt s k x).mem = true := by
  unfold requestAt
  dsimp only
  repeat' split
  all_goals simp [h, kp_stopTrap, kp_performOp, kp_pure]

theorem keepsForm_execRemoteAccessPerform (core : CoreId) (ctx : CtxId) : KeepsForm (execRemoteAccessPerform core ctx) := by
  intro s t hs h
  unfold execRemoteAccessPerform at h
  dsimp only at h
  repeat' split at h
  all_goals cases h
  all_goals simp [hs]

theorem keepsForm_execRemoteStorePerform (core : CoreId) (ctx : CtxId) : KeepsForm (execRemoteStorePerform core ctx) := by
  intro s t hs h
  unfold execRemoteStorePerform at h
  dsimp only at h
  repeat' split at h
  all_goals cases h
  all_goals simp [hs]

@[simp] theorem memWf_vectorDone {s : State} (k x : Nat) (h : memWf s.mem = true) : memWf (vectorDone s k x).mem = true := by
  unfold vectorDone
  split
  · exact memWf_completeUnit k x (by mvcgen [kp_readP, kp_writeV]) h
  · exact h

@[simp] theorem memWf_performGroup {s : State} (k x : Nat) (g : VecGroup) (h : memWf s.mem = true) :
    memWf (performGroup s k x g).mem = true := by unfold performGroup; split <;> simp [h]

@[simp] theorem memWf_vectorAt {s : State} (k x : Nat) (h : memWf s.mem = true) : memWf (vectorAt s k x).mem = true := by
  unfold vectorAt
  split
  · dsimp only
    repeat' split
    any_goals simp [h, kp_stopTrap]
    exact memWf_vectorDone k x (memWf_foldl (fun _ g hs => memWf_performGroup k x g hs) _ (by simpa using h))
  · exact h

theorem keepsForm_execVectorRemoteChecks (core : CoreId) (ctx : CtxId) : KeepsForm (execVectorRemoteChecks core ctx) := by
  intro s t hs h
  unfold execVectorRemoteChecks at h
  dsimp only at h
  repeat' split at h
  all_goals cases h
  all_goals simp [hs]

theorem memWf_serveOne {s t : State} {owner : Nat} {e : Parked} {done : List (Nat × Bool)} (h : memWf s.mem = true)
    (hs : serveOne s owner e done = .inl t) : memWf t.mem = true := by
  unfold serveOne at hs
  dsimp only at hs
  repeat' split at hs
  all_goals cases hs
  all_goals simp [h, kp_stopTrap, kp_performOp]

@[simp] theorem memWf_serveAll {s : State} (owner : Nat) (l0 : List Parked) (l1 : List (Nat × Bool)) (h : memWf s.mem = true) :
    memWf (serveAll owner l0 l1 s).mem = true := by
  induction l0 generalizing l1 s with
  | nil => exact h
  | cons e l ih =>
    unfold serveAll
    dsimp only
    split
    · exact ih _ (memWf_serveOne h ‹_›)
    · exact ih _ h

theorem keepsForm_execParkedRequestServe (core : CoreId) : KeepsForm (execParkedRequestServe core) := by
  intro s t hs h
  unfold execParkedRequestServe at h
  dsimp only at h
  repeat' split at h
  all_goals cases h
  all_goals simp [hs]

theorem keepsForm_execMatrixRequestStart (quad : QuadId) : KeepsForm (execMatrixRequestStart quad) := by
  intro s t hs h
  unfold execMatrixRequestStart at h
  dsimp only at h
  repeat' split at h
  all_goals cases h
  all_goals simp [hs]

@[simp] theorem memWf_advanceTstc {s : State} (k : Nat) (fewer : TReg → Nat → Nat) (h : memWf s.mem = true) :
    memWf (advanceTstc k fewer s).mem = true := by
  refine memWf_foldl (fun s p hs => ?_) _ h
  split
  · dsimp only
    split
    · exact hs
    · split
      · exact hs
      · split
        · next t ht =>
          have hu := keepsForm_runIn (kp_tstcU _ _ _ _) _ t (by exact hs) ht
          split
          · exact hu
          · exact hu
        · exact hs
  · exact hs

@[simp] theorem memWf_wakeTstc {s : State} (r : MatrixReq) (k : Nat) (h : memWf s.mem = true) :
    memWf (wakeTstc r k s).mem = true := by simp [wakeTstc, h]
@[simp] theorem memWf_dropFromUnits {s : State} (q : Nat) (gone : Nat → Nat → Nat → Bool) (h : memWf s.mem = true) :
    memWf (dropFromUnits q gone s).mem = true := memWf_foldl (fun _ _ hs => memWf_advanceTstc _ _ hs) _ h

theorem keepsForm_execMatrixRequestComplete (quad : QuadId) : KeepsForm (execMatrixRequestComplete quad) := by
  intro s t hs h
  unfold execMatrixRequestComplete at h
  dsimp only at h
  repeat' split at h
  all_goals cases h
  all_goals simp [hs, kp_performMatrix]

theorem keepsForm_execHomeLineRequest (line : LineId) (agent : CoreId) (kind : LineKind) :
    KeepsForm (execHomeLineRequest line agent kind) := by
  intro s t hs h
  unfold execHomeLineRequest at h
  dsimp only at h
  repeat' split at h
  all_goals cases h
  any_goals simp [hs]
  all_goals grind [→ needPage_mem, → probeStopped_mem]

theorem keepsForm_execLeaseGrant (core : CoreId) (ctx : CtxId) : KeepsForm (execLeaseGrant core ctx) := by
  intro s t hs h
  unfold execLeaseGrant at h
  dsimp only at h
  repeat' split at h
  all_goals cases h
  any_goals refine memWf_completeUnit _ _ (kp_writeG_next _ _) ?_
  any_goals simp [hs]
  all_goals grind [→ needPage_mem, → probeStopped_mem]

theorem keepsForm_execLeaseExpiry (core : CoreId) (ctx : CtxId) (slot : BitVec 2) : KeepsForm (execLeaseExpiry core ctx slot) :=
  keepsForm_next fun _ h => by simp [h]

theorem findSome_needPage_mem {s t : State} {k : Nat} {write : Bool} {pa : Nat → Nat} {lines : List Nat}
    (h : lines.findSome? (fun l => s.needPage (pa l) k write) = some t) : t.mem = s.mem := by
  obtain ⟨l, -, hl⟩ := List.exists_of_findSome?_eq_some h
  exact needPage_mem hl

theorem findSome_probeStopped_mem {s t : State} {k n : Nat} {own : Bool} {lines : List Nat}
    (h : lines.findSome? (fun l => probeStopped s k l own) = some (n, t)) : t.mem = s.mem := by
  obtain ⟨l, -, hl⟩ := List.exists_of_findSome?_eq_some h
  exact probeStopped_mem hl

@[simp] theorem memWf_withdraw {s : State} (k x : Nat) (h : memWf s.mem = true) : memWf (withdraw s k x).mem = true := by
  unfold withdraw
  dsimp only
  repeat' split
  all_goals simp [h]

@[simp] theorem memWf_queuedFault {s : State} (k x i : Nat) (e : FarEntry) (t : TrapInfo) (h : memWf s.mem = true) :
    memWf (queuedFault s k x i e t).mem = true := by simp [queuedFault, h]
@[simp] theorem memWf_farDone {s : State} (k x pa : Nat) (e : FarEntry) (h : memWf s.mem = true) :
    memWf (farDone s k x pa e).mem = true := by unfold farDone; split <;> simp [h]

theorem keepsForm_execFarAtomicPerform (core : CoreId) (ctx : CtxId) : KeepsForm (execFarAtomicPerform core ctx) := by
  intro s t hs h
  unfold execFarAtomicPerform at h
  dsimp only at h
  repeat' split at h
  all_goals cases h
  any_goals simp [hs]
  all_goals grind [→ needPage_mem, → probeStopped_mem, → farAddress_mem, payWalk_mem, memWf_farDone, unhold_mem, squashIn_mem,
    hold_mem, sendPeer_mem, modCtx_mem]

@[simp] theorem memWf_writeThrough {s : State} (k x : Nat) (d : GReg) (queue : Option Nat) (w : Word) (fl : Flags)
    (h : memWf s.mem = true) :
    memWf (writeThrough s k x d queue w fl).mem = true := by simp [writeThrough, h]

@[simp] theorem memWf_farReturn {s : State} (k x : Nat) (e : FarEntry) (w : Word) (fl : Flags) (h : memWf s.mem = true) :
    memWf (farReturn s k x e w fl).mem = true := by simp [farReturn, h]

theorem keepsForm_execLocalCommit (core : CoreId) (ctx : CtxId) : KeepsForm (execLocalCommit core ctx) := by
  intro s t hs h
  unfold execLocalCommit at h
  dsimp only at h
  repeat' split at h
  all_goals cases h
  all_goals simp [hs]

theorem keepsForm_execCommitGrant (core : CoreId) (ctx : CtxId) : KeepsForm (execCommitGrant core ctx) := by
  intro s t hs h
  unfold execCommitGrant at h
  dsimp only at h
  repeat' split at h
  all_goals cases h
  any_goals simp [hs]
  any_goals exact memWf_of_mem (findSome_needPage_mem ‹_›) hs
  all_goals exact memWf_of_mem (findSome_probeStopped_mem ‹_›) hs

theorem keepsForm_execTrumpAdmission (part : BitVec 2) : KeepsForm (execTrumpAdmission part) := by
  intro s t hs h
  unfold execTrumpAdmission at h
  dsimp only at h
  repeat' split at h
  all_goals cases h
  all_goals simp [hs]

@[simp] theorem memWf_capCopied {s : State} (page : Nat) (h : memWf s.mem = true) : memWf (capCopied s page).mem = true := by
  unfold capCopied
  split
  · exact h
  · exact memWf_foldl (fun _ _ hs => memWf_completeUnit _ _ (kp_capDone _ _) hs) _ (memWf_foldl (by intro _ _ hs; exact hs) _ h)

theorem memWf_capPerform {s t : State} {k x page bytes : Nat} {c : CapState} (h : memWf s.mem = true)
    (hs : capPerform s k x page bytes c = some t) : memWf t.mem = true := by
  obtain ⟨u, hu, rfl⟩ := Option.map_eq_some_iff.1 hs
  refine memWf_capCopied _ ?_
  simp [capChange_mem hu, h]

theorem memWf_capAct {s t : State} {k x page bytes va : Nat} {op : CapOp} {d : GReg} (h : memWf s.mem = true)
    (hs : capAct s k x op page bytes va d = .ok t) : memWf t.mem = true := by
  unfold capAct at hs
  dsimp only at hs
  repeat' split at hs
  all_goals cases hs
  · simp [h, kp_stopTrap]
  · simp [h, kp_capDone]
  · refine memWf_capPerform ?_ ‹_›
    split <;> simp [h]

@[simp] theorem memWf_capAnswer {s : State} (k x : Nat) (op : CapOp) (page bytes va : Nat) (d : GReg) (r : PeerReply)
    (h : memWf s.mem = true) :
    memWf (capAnswer s k x op page bytes va d r).mem = true := by
  cases r with
  | value w =>
    unfold capAnswer
    dsimp only
    refine memWf_completeUnit _ _ (kp_capDone _ _) ?_
    repeat' split
    all_goals simp [h]
  | capability =>
    unfold capAnswer
    exact memWf_completeUnit _ _ (kp_stopTrap _ _ _) h
  | _ =>
    unfold capAnswer
    dsimp only
    exact memWf_completeUnit _ _ (kp_throw _) h

theorem keepsForm_execCapStateChange (core : CoreId) (turn : CapTurn) : KeepsForm (execCapStateChange core turn) := by
  intro s t hs h
  unfold execCapStateChange at h
  dsimp only at h
  repeat' split at h
  all_goals cases h
  any_goals simp [hs]
  all_goals grind [→ memWf_capAct, unhold_mem]

theorem keepsForm_execCapQryWaitRelease (core : CoreId) (ctx : CtxId) : KeepsForm (execCapQryWaitRelease core ctx) := by
  intro s t hs h
  unfold execCapQryWaitRelease at h
  dsimp only at h
  repeat' split at h
  all_goals cases h
  any_goals simp [hs]
  all_goals grind [→ memWf_capAct]

@[simp] theorem memWf_farAnswer {s : State} (o : Outstanding) (r : PeerReply) (h : memWf s.mem = true) :
    memWf (farAnswer s o r).mem = true := by
  unfold farAnswer
  dsimp only
  repeat' split
  all_goals simp [h]

@[simp] theorem memWf_hubAnswer {s : State} (o : Outstanding) (r : PeerReply) (h : memWf s.mem = true) :
    memWf (hubAnswer s o r).mem = true := by
  unfold hubAnswer
  repeat' split
  all_goals simp [h]

theorem keepsForm_execFarAtomicReply (core : CoreId) (ctx : CtxId) (answer : Option PeerAnswer) :
    KeepsForm (execFarAtomicReply core ctx answer) := by
  intro s t hs h
  unfold execFarAtomicReply at h
  dsimp only at h
  repeat' split at h
  all_goals cases h
  all_goals simp [hs]

theorem keepsForm_execSupervisorWake (core : CoreId) : KeepsForm (execSupervisorWake core) := by
  intro s t hs h
  unfold execSupervisorWake at h
  dsimp only at h
  repeat' split at h
  all_goals cases h
  all_goals simp [hs]

@[simp] theorem memWf_lookAt {s : State} (k x : Nat) (self : Instr) (h : memWf s.mem = true) :
    memWf (lookAt s k x self).mem = true := by
  unfold lookAt
  repeat' split
  all_goals simp [h]

theorem keepsForm_execBlockedIntervalEnd (core : CoreId) (ctx : CtxId) : KeepsForm (execBlockedIntervalEnd core ctx) := by
  intro s t hs h
  unfold execBlockedIntervalEnd at h
  repeat' split at h
  all_goals cases h
  all_goals simp [hs]

theorem keepsForm_execQueueRegisterUnblock (core : CoreId) (ctx : CtxId) : KeepsForm (execQueueRegisterUnblock core ctx) := by
  intro s t hs h
  unfold execQueueRegisterUnblock at h
  repeat' split at h
  all_goals cases h
  all_goals simp [hs]

theorem keepsForm_execForfeitEnd (core : CoreId) (ctx : CtxId) : KeepsForm (execForfeitEnd core ctx) := by
  intro s t hs h
  unfold execForfeitEnd at h
  dsimp only at h
  repeat' split at h
  all_goals cases h
  all_goals simp [hs]

theorem keepsForm_execNormaliserService (quad : QuadId) : KeepsForm (execNormaliserService quad) := by
  intro s t hs h
  unfold execNormaliserService at h
  dsimp only at h
  repeat' split at h
  all_goals cases h
  all_goals simp [hs]

theorem keepsForm_execWaitRelease (core : CoreId) (ctx : CtxId) : KeepsForm (execWaitRelease core ctx) := by
  intro s t hs h
  unfold execWaitRelease at h
  dsimp only at h
  repeat' split at h
  all_goals cases h
  any_goals refine memWf_completeUnit _ _ (kp_writeG_next _ _) ?_
  all_goals simp [hs]

theorem keepsForm_execWaitLimitExpiry (core : CoreId) (ctx : CtxId) : KeepsForm (execWaitLimitExpiry core ctx) := by
  intro s t hs h
  unfold execWaitLimitExpiry at h
  dsimp only at h
  repeat' split at h
  all_goals cases h
  any_goals refine memWf_completeUnit _ _ (kp_writeG_next _ _) ?_
  all_goals simp [hs]

theorem keepsForm_execHelperTaken (core : CoreId) (ctx : CtxId) : KeepsForm (execHelperTaken core ctx) := by
  intro s t hs h
  unfold execHelperTaken at h
  dsimp only at h
  repeat' split at h
  all_goals cases h
  all_goals simp [hs]

theorem keepsForm_execTaskLaneRetire (core : CoreId) : KeepsForm (execTaskLaneRetire core) := by
  intro s t hs h
  unfold execTaskLaneRetire at h
  dsimp only at h
  repeat' split at h
  all_goals cases h
  all_goals simp [hs]

theorem keepsForm_execTrapEntry (core : CoreId) (ctx : CtxId) : KeepsForm (execTrapEntry core ctx) := by
  intro s t hs h
  unfold execTrapEntry at h
  dsimp only at h
  repeat' split at h
  all_goals cases h
  all_goals simp [hs]

theorem keepsForm_execScanRequestStart (quad : QuadId) : KeepsForm (execScanRequestStart quad) := by
  intro s t hs h
  unfold execScanRequestStart at h
  dsimp only at h
  repeat' split at h
  all_goals cases h
  all_goals simp [hs]

theorem keepsForm_execScanRequestComplete (quad : QuadId) : KeepsForm (execScanRequestComplete quad) := by
  intro s t hs h
  unfold execScanRequestComplete at h
  dsimp only at h
  repeat' split at h
  all_goals cases h
  all_goals simp [hs, kp_performScan]

theorem keepsForm_execMxwdogExpiry (quad : QuadId) : KeepsForm (execMxwdogExpiry quad) := by
  intro s t hs h
  unfold execMxwdogExpiry at h
  dsimp only at h
  repeat' split at h
  all_goals cases h
  any_goals simp [hs]
  refine memWf_foldl ?_ _ (memWf_foldl ?_ _ (memWf_dropFromUnits _ _ hs)) <;> (intro s p h; simpa using h)

@[simp] theorem memWf_matrixError {s : State} (quad : QuadId) (storage : BitVec 3) (h : memWf s.mem = true) :
    memWf (matrixError quad storage s).mem = true := by
  unfold matrixError
  dsimp only
  repeat' split
  all_goals simp [h]

theorem keepsForm_execChainPostPerform (core : CoreId) (ctx : CtxId) : KeepsForm (execChainPostPerform core ctx) := by
  intro s t hs h
  unfold execChainPostPerform at h
  dsimp only at h
  repeat' split at h
  all_goals cases h
  any_goals refine memWf_completeUnit _ _ (kp_writeG_next _ _) ?_
  all_goals simp [hs]

theorem keepsForm_execChainDelivery (quad : QuadId) : KeepsForm (execChainDelivery quad) := keepsForm_next fun _ h => by simp [h]

theorem keepsForm_execChainWaitPerform (core : CoreId) (ctx : CtxId) : KeepsForm (execChainWaitPerform core ctx) := by
  refine keepsForm_of_soundOut fun s hs => ?_
  unfold execChainWaitPerform
  extract_lets k x again q u
  have hagain : SoundOut again := soundOut_next (by simpa using hs)
  split
  · next a cap d _ _ =>
    split
    · exact hagain
    · next bs _ =>
      refine soundOut_ite hagain (soundOut_ite (soundOut_next (memWf_completeUnit _ _ (kp_stopTrap _ _ _) hs)) (soundOut_ite hagain ?_))
      exact soundOut_next (memWf_completeUnit _ _ (kp_updCore_writeG_next _ _ _) (by simpa [u] using hs))
  · exact soundOut_next hs

end Sys2Proof.Proofs
end

section
/-! PROOF. Synchronisation, engines and streams, messages and pages (R28, R246): the form of memory is kept. -/

namespace Sys2Proof.Proofs
open Sys2Proof Sys2Proof.Machine Sys2Proof.Laws
open Std.Do
set_option mvcgen.warning false

@[simp] theorem memWf_failSync {s : State} (w : Waiter) (c : Cause) (h : memWf s.mem = true) :
    memWf (s.failSync w c).mem = true := by unfold State.failSync; split <;> simp [h, kp_stopTrap]
theorem memWf_of_snd {α : Type} {p : α × State} {a : α} {t : State} (h : memWf p.2.mem = true) (e : p = (a, t)) :
    memWf t.mem = true := by rwa [e] at h
theorem memWf_of_fst {α : Type} {p : State × α} {a : α} {t : State} (h : memWf p.1.mem = true) (e : p = (t, a)) :
    memWf t.mem = true := by rwa [e] at h

@[simp] theorem memWf_countHeld {s : State} (home i l0 : Nat) (h : memWf s.mem = true) :
    memWf (countHeld home i l0 s).mem = true := by
  induction l0 generalizing s with
  | zero => exact h
  | succ n ih =>
    unfold countHeld
    dsimp only
    repeat' split
    all_goals simp [h, ih]

@[simp] theorem memWf_settleBarrier {s : State} (home i : Nat) (h : memWf s.mem = true) :
    memWf (settleBarrier home i s).mem = true := by simp [settleBarrier, h]

theorem memWf_barrierBytes {s t : State} {home i n : Nat} (h : memWf s.mem = true) (hs : barrierBytes s home i n = some t) :
    memWf t.mem = true := by
  unfold barrierBytes at hs
  dsimp only at hs
  split at hs
  · cases hs
  · cases hs
    simp [h]

@[simp] theorem memWf_barrierAt {s : State} (home : Nat) (w : Waiter) (h : memWf s.mem = true) :
    memWf (barrierAt s home w).mem = true := by
  unfold barrierAt
  dsimp only
  repeat' split
  any_goals simp [h]
  all_goals exact memWf_barrierBytes h ‹_›

@[simp] theorem memWf_syncArrival {s : State} (k x : Nat) (barrier : Bool) (self : Instr) (h : memWf s.mem = true) :
    memWf (syncArrival s k x barrier self).mem = true := by
  unfold syncArrival
  dsimp only
  repeat' split
  all_goals simp [h]

theorem keepsForm_execBarrierArrival (core : CoreId) (ctx : CtxId) : KeepsForm (execBarrierArrival core ctx) :=
  keepsForm_next fun _ h => by simp [h]
theorem keepsForm_execSemaphoreAtHome (core : CoreId) (ctx : CtxId) : KeepsForm (execSemaphoreAtHome core ctx) :=
  keepsForm_next fun _ h => by simp [h]

theorem keepsForm_execSyncWaiterAnswer (core : CoreId) (ctx : CtxId) (answer : Option PeerAnswer) :
    KeepsForm (execSyncWaiterAnswer core ctx answer) := by
  refine keepsForm_of_soundOut fun s hs => ?_
  unfold execSyncWaiterAnswer
  extract_lets k x mine
  have stop (u : State) (hu : memWf u.mem = true) (c : Cause) : memWf (completeUnit u k x (stopTrap c)).mem = true :=
    memWf_completeUnit _ _ (kp_stopTrap _ _ _) hu
  split
  · exact soundOut_next (memWf_completeUnit _ _ (by mvcgen [kp_updCore, kp_writeG]) hs)
  · next op _ pkg home i d a _ _ =>
    obtain ⟨from_, n, reply⟩ := a
    refine soundOut_ite (soundOut_next hs) ?_
    extract_lets u
    have hu : memWf u.mem = true := by simpa [u] using hs
    clear_value u
    cases reply
    case value w =>
      cases op
      case land => exact soundOut_next (by simpa using hu)
      all_goals exact soundOut_next (memWf_completeUnit _ _ (kp_writeG_next _ _) hu)
    case retry => exact soundOut_next (by simpa using hu)
    case eviction => exact soundOut_next (by simpa using hu)
    all_goals exact soundOut_next (stop u hu _)
  · refine soundOut_next ?_
    split
    · simpa using hs
    · exact hs

theorem keepsForm_execWakeListRetry (core : CoreId) (ctx : CtxId) : KeepsForm (execWakeListRetry core ctx) := by
  intro s t hs h
  unfold execWakeListRetry at h
  repeat' split at h
  all_goals cases h
  all_goals simp [hs]

theorem keepsForm_execCpyStatWaitRelease (core : CoreId) (ctx : CtxId) : KeepsForm (execCpyStatWaitRelease core ctx) := by
  intro s t hs h
  unfold execCpyStatWaitRelease at h
  dsimp only at h
  repeat' split at h
  all_goals cases h
  any_goals refine memWf_completeUnit _ _ (kp_writeG_next _ _) ?_
  all_goals simp [hs]

@[simp] theorem memWf_payBarrier {s : State} (ch : Nat) (j : Job) (h : memWf s.mem = true) :
    memWf (payBarrier s ch j).mem = true := by
  unfold payBarrier
  dsimp only
  repeat' split
  any_goals simp [h]
  exact memWf_barrierBytes h ‹_›

theorem memWf_engineWrite {s : State} (i : Instr) (k cls : Nat) (launch : Option Nat) (root : Word) (holder : Nat × Nat × Bool)
    (bs : List (Word × List Byte)) (h : memWf s.mem = true) : memWf (engineWrite s i k cls launch root holder bs).2.mem = true := by
  have ha := engineAddress_mem s k cls launch root ((bs.head?.map (·.1)).getD 0#64) 1
  unfold engineWrite
  split
  · next pa t e =>
    have ht : memWf t.mem = true := memWf_of_mem (snd_mem ha e) h
    dsimp only
    split
    · rw [foldl_mem _ (fun s b => sendPort_mem ..)]
      exact ht
    · split
      · exact memWf_of_mem (engineLine_mem ‹_›) ht
      · split
        · exact ht
        · split
          · exact ht
          · next u hu =>
            have hw := memWf_foldSet (granuleBytes bs) (fun b => (pa / 64 * 64 + b.1, b.2)) (memWf_of_mem (writeEvent_mem hu) ht)
            split <;> simpa using hw
  · exact memWf_of_mem (snd_mem ha ‹_›) h
  · exact memWf_of_mem (snd_mem ha ‹_›) h

theorem keepsForm_execGranuleRead (chan : ChanId) (job : BitVec 48) : KeepsForm (execGranuleRead chan job) := by
  intro s t hs h
  unfold execGranuleRead at h
  dsimp only at h
  repeat' split at h
  all_goals cases h
  any_goals simp [hs]
  all_goals exact memWf_of_mem (snd_mem (chunkBytes_mem ..) ‹_›) hs

@[simp] theorem memWf_depositRuns {s : State} (k : Nat) (runs : List (Nat × List Byte)) (h : memWf s.mem = true) :
    memWf (depositRuns s k runs).mem = true := by simp [depositRuns, h]

theorem memWf_engineDeposit {s : State} (j : Job) (bs : List (Word × List Byte)) (h : memWf s.mem = true) :
    memWf (engineDeposit s j bs).2.mem = true := by
  unfold engineDeposit
  dsimp only
  repeat' split
  all_goals simp [h]

theorem keepsForm_execGranuleWrite (chan : ChanId) (job : BitVec 48) : KeepsForm (execGranuleWrite chan job) := by
  refine keepsForm_of_soundOut fun s hs => ?_
  unfold execGranuleWrite
  extract_lets ch i
  split
  · exact soundOut_next (by simpa using hs)
  · next j _ =>
    split
    · exact soundOut_next hs
    · next c _ =>
      split
      · exact soundOut_next (by simpa using hs)
      · next g _ =>
        extract_lets mine bs r
        have hr : memWf r.2.mem = true := by
          unfold r
          split
          · exact memWf_engineDeposit _ _ hs
          · exact memWf_engineWrite _ _ _ _ _ _ _ hs
        clear_value r
        obtain ⟨o, t⟩ := r
        cases o
        all_goals exact soundOut_next (by simp [hr])

theorem keepsForm_execGathScatRow (chan : ChanId) (job : BitVec 48) : KeepsForm (execGathScatRow chan job) := by
  refine keepsForm_of_soundOut fun s hs => ?_
  unfold execGathScatRow
  extract_lets ch again
  split
  · exact soundOut_next hs
  next j _ =>
  split
  · exact soundOut_next hs
  next scatter ws idx _ =>
  extract_lets w row mine p put u j'
  have hagain (u : State) (hu : memWf u.mem = true) : SoundOut (again u) := soundOut_next (by simpa using hu)
  refine soundOut_ite (soundOut_next hs) (soundOut_ite (hagain _ (memWf_payBarrier _ _ hs)) (soundOut_ite
    (soundOut_next (by simpa using hs)) (soundOut_ite (hagain _ hs) ?_)))
  split
  · exact soundOut_next (by simpa using hs)
  next i _ =>
  have hput (v : State) (hv : memWf v.mem = true) (j : Job) (k a : Nat) (bs : List Byte) : SoundOut (put v j k a bs) :=
    hagain _ (memWf_payBarrier _ _ (by simpa using memWf_depositRuns _ _ hv))
  have hu : memWf u.mem = true := by simpa [u] using hs
  clear_value again put
  refine soundOut_ite ?_ ?_
  · exact soundOut_ite (hagain _ (by simpa using hu)) (soundOut_ite (hagain _ hu) (hput u hu _ _ _ _))
  · split
    · exact soundOut_next (by simpa using hs)
    · refine soundOut_ite (hagain _ hs) (soundOut_ite (soundOut_next (by simpa using hs)) (soundOut_ite
        (soundOut_next (by simpa using hs)) ?_))
      split
      exact soundOut_ite (hagain _ hs) (hput s hs _ _ _ _)

theorem keepsForm_execJobEnd (chan : ChanId) (turn : JobTurn) : KeepsForm (execJobEnd chan turn) := by
  intro s t hs h
  unfold execJobEnd at h
  dsimp only at h
  repeat' split at h
  all_goals cases h
  all_goals simp [hs]

theorem keepsForm_execTrapRecordEnqueue (core : CoreId) : KeepsForm (execTrapRecordEnqueue core) := by
  intro s t hs h
  unfold execTrapRecordEnqueue at h
  dsimp only at h
  repeat' split at h
  all_goals cases h
  all_goals simp [hs]

theorem keepsForm_execStreamStripFill (core : CoreId) (ctx : CtxId) (r : VReg) : KeepsForm (execStreamStripFill core ctx r) := by
  intro s t hs h
  unfold execStreamStripFill at h
  dsimp only at h
  repeat' split at h
  all_goals cases h
  any_goals simp [hs]
  all_goals exact memWf_of_mem (snd_mem (readGranule_mem ..) ‹_›) hs

theorem memWf_writeGranule {s : State} (i : Instr) (k : Nat) (m : Stream) (bs : List (Word × List Byte)) (h : memWf s.mem = true) :
    memWf (writeGranule s i k m bs).2.mem = true := by
  unfold writeGranule
  dsimp only
  repeat' split
  any_goals simp [h]
  exact memWf_engineWrite _ _ _ _ _ _ _ h

theorem keepsForm_execStreamStripWrite (core : CoreId) (ctx : CtxId) (r : VReg) : KeepsForm (execStreamStripWrite core ctx r) := by
  intro s t hs h
  unfold execStreamStripWrite at h
  dsimp only at h
  repeat' split at h
  all_goals cases h
  any_goals simp [hs]
  all_goals exact memWf_of_snd (memWf_writeGranule _ _ _ _ hs) ‹_›

theorem keepsForm_execHostLoadReply (reader : HostReader) (pa : BitVec 52) (value : BitVec 64) :
    KeepsForm (execHostLoadReply reader pa value) := by
  intro s t hs h
  unfold execHostLoadReply at h
  dsimp only at h
  repeat' split at h
  all_goals cases h
  all_goals simp [hs]

theorem keepsForm_execTlbiComplete (core : CoreId) (ctx : CtxId) : KeepsForm (execTlbiComplete core ctx) := by
  intro s t hs h
  unfold execTlbiComplete at h
  dsimp only at h
  repeat' split at h
  all_goals cases h
  any_goals refine memWf_completeUnit _ _ (kp_pure _) ?_
  any_goals simp [hs]
  all_goals exact memWf_of_mem (tlbiPerform_mem ‹_›) hs

theorem keepsForm_execMachineCheck (target : CheckTarget) : KeepsForm (execMachineCheck target) := keepsForm_next fun s h => by
  split <;> simp [h]

theorem keepsForm_execUncorrectableSoftError (place : SoftErrorAt) (job : BitVec 48) (storage : BitVec 3) :
    KeepsForm (execUncorrectableSoftError place job storage) := keepsForm_next fun s h => by
  repeat' split
  all_goals simp [h]

theorem keepsForm_execHeartbeatMiss (core : CoreId) : KeepsForm (execHeartbeatMiss core) := keepsForm_next fun _ h => by simp [h]

theorem keepsForm_execLockstepMismatch (core : CoreId) (code : BitVec 8) : KeepsForm (execLockstepMismatch core code) := by
  intro s t hs h
  unfold execLockstepMismatch at h
  dsimp only at h
  repeat' split at h
  all_goals cases h
  all_goals simp [hs]

theorem keepsForm_execCoreRepair (core : CoreId) (clean : Bool) : KeepsForm (execCoreRepair core clean) := by
  intro s t hs h
  unfold execCoreRepair at h
  dsimp only at h
  repeat' split at h
  all_goals cases h
  all_goals simp [hs]

@[simp] theorem memWf_deqDone {s : State} (k x q : Nat) (buffer : Option Nat) (d : GReg) (e : List Byte) (h : memWf s.mem = true) :
    memWf (deqDone s k x q buffer d e).mem = true := by unfold deqDone; split <;> simp [h]

theorem memWf_enqAt {s t : State} {k x q : Nat} {e : List Byte} {d : GReg}
    (h : memWf s.mem = true) (ht : enqAt s k x q e d = some t) :
    memWf t.mem = true := by
  unfold enqAt at ht
  dsimp only at ht
  repeat' split at ht
  all_goals cases ht
  all_goals simp [h]

theorem memWf_deqAt {s t : State} {k x q : Nat} {buffer : Option Nat} {poll : Bool} {d : GReg} (h : memWf s.mem = true)
    (ht : deqAt s k x q buffer poll d = some t) : memWf t.mem = true := by
  unfold deqAt at ht
  dsimp only at ht
  repeat' split at ht
  all_goals cases ht
  all_goals simp [h]

theorem memWf_getD {o : Option State} {s : State} (ho : ∀ t, o = some t → memWf t.mem = true) (h : memWf s.mem = true) :
    memWf (o.getD s).mem = true := by
  cases o
  case none => exact h
  case some t => exact ho t rfl

theorem keepsForm_execSliceQueueOp (core : CoreId) (ctx : CtxId) : KeepsForm (execSliceQueueOp core ctx) := by
  refine keepsForm_of_soundOut fun s hs => ?_
  unfold execSliceQueueOp
  extract_lets k x
  split
  · next op q d _ _ =>
    refine soundOut_ite (soundOut_next hs) (soundOut_ite (soundOut_next (by simpa using hs)) ?_)
    extract_lets r
    refine soundOut_next (memWf_getD (fun t ht => ?_) (by simpa using hs))
    unfold r at ht
    split at ht
    · cases ht
      simpa using hs
    · exact memWf_enqAt hs ht
    · exact memWf_deqAt hs ht
  · exact soundOut_next (memWf_completeUnit _ _ (kp_writeG_next _ _) hs)
  · exact soundOut_next (memWf_completeUnit _ _ (kp_stopTrap _ _ _) hs)
  · exact soundOut_next hs

@[simp] theorem messageAt_mem (s : State) (dest : Nat) (m : MessageData) : (messageAt s dest m).1.mem = s.mem := by
  unfold messageAt
  dsimp only
  split <;> rfl

theorem keepsForm_execMessageArrival (dest : CoreId) (msg : MessageData) : KeepsForm (execMessageArrival dest msg) := by
  refine keepsForm_of_soundOut fun s hs => ?_
  unfold execMessageArrival
  dsimp only
  refine soundOut_ite (soundOut_next (by simpa using hs)) (soundOut_ite ?_ (soundOut_ite (soundOut_next (by simpa using hs)) ?_))
  · refine soundOut_ite (soundOut_next (by simpa using hs)) (soundOut_ite (soundOut_next ?_) (soundOut_next ?_))
    · exact memWf_completeUnit _ _ (kp_stopTrap _ _ _) (by simpa using hs)
    · rw [post_mem, ite_mem]
      simpa using hs
  · exact soundOut_ite (soundOut_next (by simpa using hs)) (soundOut_next (by simpa using hs))

theorem keepsForm_execParkRefusalRetry (core : CoreId) (ctx : CtxId) : KeepsForm (execParkRefusalRetry core ctx) := by
  refine keepsForm_of_soundOut fun s hs => ?_
  unfold execParkRefusalRetry
  exact soundOut_ite (soundOut_next (by simpa using hs)) (soundOut_next (by simpa using hs))

@[simp] theorem memWf_sendVerdict {s : State} (k x : Nat) (d : GReg) (r : SendReply) (h : memWf s.mem = true) :
    memWf (sendVerdict s k x d r).mem = true := by
  unfold sendVerdict
  cases r
  case accepted => exact memWf_completeUnit _ _ (kp_writeG_next _ _) h
  case refused => exact memWf_completeUnit _ _ (kp_writeG_next _ _) h
  case eviction => simpa using h
  all_goals exact memWf_completeUnit _ _ (kp_stopTrap _ _ _) h

theorem keepsForm_execSendReply (core : CoreId) (ctx : CtxId) (turn : SendTurn) : KeepsForm (execSendReply core ctx turn) := by
  intro s t hs h
  unfold execSendReply at h
  dsimp only at h
  repeat' split at h
  all_goals cases h
  all_goals simp [hs, kp_stopTrap]

theorem keepsForm_execEvictionRetryResend (core : CoreId) (ctx : CtxId) : KeepsForm (execEvictionRetryResend core ctx) := by
  refine keepsForm_of_soundOut fun s hs => ?_
  unfold execEvictionRetryResend
  exact soundOut_ite (soundOut_next (by simpa using hs)) (soundOut_next (by simpa using hs))

theorem keepsForm_execProbeTimeout (line : LineId) (agent : CoreId) : KeepsForm (execProbeTimeout line agent) := by
  intro s t hs h
  unfold execProbeTimeout at h
  dsimp only at h
  repeat' split at h
  all_goals cases h
  all_goals simp [hs]

theorem keepsForm_execPageWalk (core : CoreId) (va : BitVec 64) : KeepsForm (execPageWalk core va) := by
  intro s t hs h
  unfold execPageWalk at h
  dsimp only at h
  repeat' split at h
  all_goals cases h
  all_goals simp [hs]

theorem keepsForm_execPageGrant (page : PageId) (write : Bool) (answer : PageAnswer) :
    KeepsForm (execPageGrant page write answer) := by
  intro s t hs h
  unfold execPageGrant at h
  dsimp only at h
  repeat' split at h
  all_goals cases h
  all_goals simp [hs]

theorem keepsForm_execPageRevocation (wanted : PageRecall) : KeepsForm (execPageRevocation wanted) := by
  refine keepsForm_of_soundOut fun s hs => ?_
  unfold execPageRevocation
  extract_lets p answer
  have ha (u : State) (w : Word) (hu : memWf u.mem = true) : memWf (answer u w).mem = true := by
    unfold answer
    split
    · simpa using hu
    · exact hu
  clear_value answer
  refine soundOut_ite ?_ (soundOut_ite (soundOut_next (ha _ _ hs)) (soundOut_next (ha _ _ hs)))
  have hr := returnPage_mem s p wanted.toRead
  split
  · next t e =>
    rw [e] at hr
    exact soundOut_next (ha _ _ (memWf_of_mem hr hs))
  · next n t e =>
    rw [e] at hr
    exact soundOut_next (memWf_of_mem (by simpa [leftState] using hr) hs)

@[simp] theorem memWf_trapFirst {s : State} (k : Nat) (h : memWf s.mem = true) : memWf (trapFirst s k).mem = true := by
  refine memWf_foldl (fun s p hs => ?_) _ h
  split
  · split
    · exact keepsForm_execTrapEntry _ _ _ _ hs ‹_›
    · exact hs
  · exact hs

@[simp] theorem memWf_haltCores {s : State} (ks : List Nat) (h : memWf s.mem = true) : memWf (haltCores s ks).mem = true := by
  unfold haltCores
  have hf := memWf_foldl (f := fun s k => (trapFirst (discardTricks s k) k).modCore k fun c => { c with halting := some s.tick })
    (fun s k hs => by simp [hs]) ks h
  simpa using hf

end Sys2Proof.Proofs
end

section
/-! PROOF. Deals, saves, and the operations on partitions (R28, R246): the form of memory is kept. -/

namespace Sys2Proof.Proofs
open Sys2Proof Sys2Proof.Machine Sys2Proof.Laws

/-- A pair whose state has a canonical memory. Said of the pair itself: the kernel then never evaluates a table walk in it. -/
structure SoundFst {α : Type} (p : State × α) : Prop where
  wf : memWf p.1.mem = true

theorem soundFst_ite {α : Type} {c : Prop} [Decidable c] {a b : State × α} (ha : SoundFst a) (hb : SoundFst b) :
    SoundFst (if c then a else b) := by
  split
  · exact ha
  · exact hb

theorem memWf_post {s : State} (n : Nat) (i : Instr) (h : memWf s.mem = true) : memWf (s.post n i).mem = true := by simpa using h

theorem soundFst_writeCompletion {s : State} (l : Launch) (status tag : Nat) (h : memWf s.mem = true) :
    SoundFst (writeCompletion s l status tag) := by
  delta writeCompletion
  extract_lets a w fail
  have hf : SoundFst fail := ⟨by simpa [fail] using h⟩
  clear_value fail
  refine soundFst_ite ⟨h⟩ (soundFst_ite hf ?_)
  split
  · exact hf
  · split
    · exact hf
    · refine soundFst_ite ?_ (soundFst_ite hf ?_)
      · constructor
        dsimp only
        split <;> simpa using h
      · split
        · exact ⟨memWf_of_mem (needPage_mem ‹_›) h⟩
        · split
          · exact ⟨h⟩
          · next t ht =>
            have ht' := memWf_of_mem (writeEvent_mem ht) h
            exact ⟨by simp [ht']⟩

/-- A pass over the pages of a slot that leaves a canonical memory. Said of the function itself, as `SoundFst`. -/
structure SoundPages {α : Type} (f : List Nat → State → State × α) : Prop where
  wf : ∀ pages s, memWf s.mem = true → SoundFst (f pages s)

theorem memWf_ite {c : Prop} [Decidable c] {a b : State} (ha : memWf a.mem = true) (hb : memWf b.mem = true) :
    memWf (if c then a else b).mem = true := by
  split
  · exact ha
  · exact hb

@[simp] theorem memWf_writeCompletion {s : State} (l : Launch) (status tag : Nat) (h : memWf s.mem = true) :
    memWf (writeCompletion s l status tag).1.mem = true := (soundFst_writeCompletion l status tag h).wf

theorem keepsForm_execMalformedDealRemoval (queue : QueueId) : KeepsForm (execMalformedDealRemoval queue) := by
  refine keepsForm_of_soundOut fun s hs => ?_
  unfold execMalformedDealRemoval
  extract_lets q
  split
  · exact soundOut_next hs
  · next l _ =>
    refine soundOut_ite (soundOut_next hs) ?_
    split
    · exact soundOut_next (memWf_post _ _ (memWf_of_mem (completionAsk_mem s l) hs))
    · next t e =>
      exact soundOut_next (by simpa using memWf_of_fst (memWf_writeCompletion l 1 0 hs) e)

@[simp] theorem memWf_dealAct {s : State} (part : BitVec 2) (heads : List Launch) (h : memWf s.mem = true) :
    memWf (dealAct s part heads).mem = true := by
  unfold dealAct
  extract_lets p u able
  have hu : memWf u.mem = true := memWf_foldl (fun s l hs => memWf_foldl (fun s l hs => by simpa using hs) _ hs) _ h
  clear_value u
  split
  · simpa using hu
  · split
    · exact hu
    · simp [hu]
  · exact hu

theorem keepsForm_execDealPlacement (part : BitVec 2) : KeepsForm (execDealPlacement part) := by
  intro s t hs h
  unfold execDealPlacement at h
  dsimp only at h
  repeat' split at h
  all_goals cases h
  all_goals simp [hs]

theorem keepsForm_execPendingInterruptSend (fn : Nat) (vector : BitVec 6) : KeepsForm (execPendingInterruptSend fn vector) := by
  refine keepsForm_of_soundOut fun s hs => ?_
  unfold execPendingInterruptSend
  split
  · exact soundOut_next hs
  · exact soundOut_ite (soundOut_next (by simpa using hs)) (soundOut_next (by simpa using hs))

theorem keepsForm_execLaunchCompletion (tag : BitVec 16) : KeepsForm (execLaunchCompletion tag) := by
  refine keepsForm_of_soundOut fun s hs => ?_
  unfold execLaunchCompletion
  extract_lets t s0 again
  split
  · exact soundOut_next hs
  · next l _ =>
    extract_lets k s1 status
    have hagain (u : State) (hu : memWf u.mem = true) : SoundOut (again u) := soundOut_next (by simpa using hu)
    have h1 : memWf s1.mem = true := by
      unfold s1
      split
      · simpa using hs
      · exact hs
    clear_value s1 again
    refine soundOut_ite (hagain _ h1) (soundOut_ite (hagain _ (by simpa using h1)) ?_)
    have ho := openHeld_mem t s1.caps s1
    split
    · exact hagain _ h1
    · next s2 e =>
      rw [e] at ho
      have h2 := memWf_of_mem ho h1
      have hw := memWf_writeCompletion l status t h2
      split
      · exact hagain _ (memWf_of_mem (completionAsk_mem s1 l) h1)
      · next s3 e =>
        have h3 := memWf_of_fst hw e
        refine soundOut_next ?_
        rw [askDealer_mem]
        split <;> simpa using h3

theorem soundPages_writeSlot (k lane : Nat) (l : Launch) (c : Core) (count : Nat) : SoundPages (writeSlot k lane l c count) := by
  delta writeSlot
  delta writeSlot._f
  -- The table walk becomes a variable: the kernel cannot evaluate it while it unfolds the recursion.
  obtain ⟨f, hf⟩ : ∃ f, f = State.translate := ⟨_, rfl⟩
  rw [← hf]
  clear hf
  refine ⟨fun pages => ?_⟩
  induction pages with
  | nil => exact fun s h => ⟨h⟩
  | cons i pages ih =>
    intro s h
    simp only []
    split
    · exact ⟨h⟩
    · next pa _ _ _ =>
      refine soundFst_ite (ih _ (by simpa using h)) (ih _ ?_)
      have hp := memWf_slotPage (c := c) (count := count) (i := i) (pa := pa) h
      split <;> simpa using hp

theorem memWf_writeSlot (k lane : Nat) (l : Launch) (c : Core) (count : Nat) (pages : List Nat) {s : State}
    (h : memWf s.mem = true) :
    memWf (writeSlot k lane l c count pages s).1.mem = true := ((soundPages_writeSlot k lane l c count).wf pages s h).wf

@[simp] theorem memWf_saveCore {s : State} (l : Launch) (k : Nat) (h : memWf s.mem = true) : memWf (saveCore s l k).mem = true := by
  unfold saveCore
  extract_lets c s0 s1 n s2
  have h2 : memWf s2.mem = true := by simpa [s2, s1, s0] using h
  clear_value s2
  have hw := memWf_writeSlot k c.lane l c n (slotPages l c) h2
  split
  · next t ea e => simpa using memWf_of_fst hw e
  · next t e =>
    have ht := memWf_of_fst hw e
    dsimp only
    split <;> simpa using ht

@[simp] theorem memWf_saveGroup {s : State} (k : Nat) (h : memWf s.mem = true) : memWf (saveGroup s k).mem = true := by
  unfold saveGroup
  split
  · next t l _ _ =>
    dsimp only
    split
    · exact h
    · split
      · next u hu =>
        obtain ⟨j, -, hj⟩ := List.exists_of_findSome?_eq_some hu
        exact memWf_of_mem (slotAsk_mem hj) h
      · rw [foldl_mem _ (fun s n => post_mem ..)]
        exact memWf_foldl (fun s j hs => memWf_saveCore _ _ hs) _ (by simpa using h)
  · simpa using h
  · exact h

theorem keepsForm_execPreemption (part : BitVec 2) : KeepsForm (execPreemption part) := by
  refine keepsForm_of_soundOut fun s hs => ?_
  unfold execPreemption
  dsimp only
  refine soundOut_ite (soundOut_next hs) (soundOut_next (memWf_post _ _ ?_))
  refine memWf_foldl (fun s k hs => memWf_saveGroup _ hs) _ (memWf_foldl (fun s k hs => ?_) _ hs)
  exact memWf_foldl (fun s p hs => by simpa using hs) _ hs

@[simp] theorem memWf_serveMetered {s : State} (h : memWf s.mem = true) : memWf (serveMetered s).mem = true := by
  refine memWf_foldl (fun s e hs => ?_) _ h
  dsimp only
  split
  · split
    · exact hs
    · split <;> simpa using hs
  · exact hs

theorem keepsForm_execCoreResume (tag : BitVec 16) (lane : BitVec 12) : KeepsForm (execCoreResume tag lane) := by
  intro s t hs h
  unfold execCoreResume at h
  dsimp only at h
  repeat' split at h
  all_goals cases h
  all_goals simp [hs]

theorem keepsForm_execBudgetPeriodStart : KeepsForm (execBudgetPeriodStart) := by
  refine keepsForm_of_soundOut fun s hs => ?_
  unfold execBudgetPeriodStart
  exact soundOut_ite (soundOut_next (by simp [hs])) (soundOut_ite (soundOut_next (by simp [hs])) (soundOut_next (by simp [hs])))

@[simp] theorem memWf_startOp {s : State} (w : Word) (op : Nat) (ok : State → Bool) (act : State → State)
    (ha : ∀ s, memWf s.mem = true → memWf (act s).mem = true) (h : memWf s.mem = true) :
    memWf (startOp s w op ok act).mem = true := by
  unfold startOp
  dsimp only
  split
  · simpa using h
  · split
    · exact ha _ (by simpa using h)
    · simpa using h

@[simp] theorem memWf_startQuiesce {s : State} (w : Word) (h : memWf s.mem = true) : memWf (startQuiesce w s).mem = true :=
  memWf_startOp w 1 _ _ (fun s hs => by simpa using hs) h
theorem keepsForm_execQuiesce (w : BitVec 64) : KeepsForm (execQuiesce w) := keepsForm_next fun _ h => by simp [h]

theorem keepsForm_execQuiesceDone : KeepsForm (execQuiesceDone) := by
  refine keepsForm_of_soundOut fun s hs => ?_
  unfold execQuiesceDone
  split
  · extract_lets p again
    have hagain (n : Nat) (u : State) (hu : memWf u.mem = true) : SoundOut (again n u) := soundOut_next (by simpa using hu)
    clear_value again
    refine soundOut_ite (hagain _ _ (by simpa using hs)) ?_
    have hr := returnGrants_mem s p
    split
    · next n t e =>
      rw [e] at hr
      exact hagain _ _ (memWf_of_mem hr hs)
    · next t e =>
      rw [e] at hr
      have ht : memWf t.mem = true := memWf_of_mem hr hs
      exact soundOut_ite (soundOut_next (by simpa using ht)) (hagain _ _ ht)
  · exact soundOut_next hs

theorem keepsForm_execQuiesceLimitExpiry : KeepsForm (execQuiesceLimitExpiry) := keepsForm_next fun _ h => by simp [h]
@[simp] theorem memWf_startResume {s : State} (w : Word) (h : memWf s.mem = true) : memWf (startResume w s).mem = true :=
  memWf_startOp w 2 _ _ (fun s hs => by simpa using hs) h
theorem keepsForm_execResume (w : BitVec 64) : KeepsForm (execResume w) := keepsForm_next fun _ h => by simp [h]
@[simp] theorem memWf_startMerge {s : State} (w : Word) (h : memWf s.mem = true) : memWf (startMerge w s).mem = true := by
  simp [startMerge, h]
theorem keepsForm_execMerge (w : BitVec 64) : KeepsForm (execMerge w) := keepsForm_next fun _ h => by simp [h]
@[simp] theorem memWf_startSplit {s : State} (w : Word) (h : memWf s.mem = true) : memWf (startSplit w s).mem = true := by
  simp [startSplit, h]
theorem keepsForm_execSplit (w : BitVec 64) : KeepsForm (execSplit w) := keepsForm_next fun _ h => by simp [h]

@[simp] theorem memWf_cancelDeals {s : State} (q p : Nat) (l0 : List (List Byte)) (h : memWf s.mem = true) :
    memWf (cancelDeals q p l0 s).mem = true := by
  induction l0 generalizing s with
  | nil => exact h
  | cons d t ih =>
    unfold cancelDeals
    extract_lets l
    have hw := memWf_writeCompletion l 2 0 h
    split
    · exact memWf_of_mem (completionAsk_mem s l) h
    · next u e => exact ih (by simpa using memWf_of_fst hw e)

@[simp] theorem memWf_startTreset {s : State} (w : Word) (h : memWf s.mem = true) : memWf (startTreset w s).mem = true := by
  simp [startTreset, h]
theorem keepsForm_execTreset (w : BitVec 64) : KeepsForm (execTreset w) := keepsForm_next fun _ h => by simp [h]

theorem keepsForm_execPartitionOpComplete : KeepsForm (execPartitionOpComplete) := by
  refine keepsForm_of_soundOut fun s hs => ?_
  unfold execPartitionOpComplete
  split
  · extract_lets p s1 busy
    have h1 : memWf s1.mem = true := memWf_foldl (fun s q hs => memWf_cancelDeals _ _ _ hs) _ hs
    clear_value s1
    exact soundOut_ite (soundOut_next (by simpa using h1)) (soundOut_next (by simpa using h1))
  · exact soundOut_ite (soundOut_next (by simpa using hs)) (soundOut_next hs)
  · exact soundOut_next hs

@[simp] theorem memWf_changeDies {s : State} (p : Nat) (h : memWf s.mem = true) : memWf (changeDies s p).mem = true :=
  memWf_filter _ h
@[simp] theorem memWf_startTchange {s : State} (w : Word) (h : memWf s.mem = true) : memWf (startTchange w s).mem = true :=
  memWf_startOp w 6 _ _ (fun s hs => by simpa using memWf_changeDies s.hub.dst hs) h
theorem keepsForm_execTchange (w : BitVec 64) : KeepsForm (execTchange w) := keepsForm_next fun _ h => by simp [h]

theorem keepsForm_execTchangeDone : KeepsForm (execTchangeDone) := by
  refine keepsForm_of_soundOut fun s hs => ?_
  unfold execTchangeDone
  split
  · exact soundOut_next (by simpa using hs)
  · exact soundOut_next hs

end Sys2Proof.Proofs
end

section
/-! PROOF. The host, other packages, power and resets (R28, R246, R397): the form of memory is kept. -/

namespace Sys2Proof.Proofs
open Sys2Proof Sys2Proof.Machine Sys2Proof.Laws

theorem keepsForm_execPartRegisterWrite (part : BitVec 2) (reg : PartReg) (value : BitVec 64) :
    KeepsForm (execPartRegisterWrite part reg value) := keepsForm_next fun _ h => by simp [h]
theorem keepsForm_execVfRegisterWrite (vf : BitVec 6) (value : BitVec 64) : KeepsForm (execVfRegisterWrite vf value) :=
  keepsForm_next fun _ h => by simp [h]
theorem keepsForm_execXpRegisterWrite (port : BitVec 3) (value : BitVec 64) : KeepsForm (execXpRegisterWrite port value) :=
  keepsForm_next fun _ h => by simp [h]
@[simp] theorem memWf_renumber {s : State} (n : Nat) (h : memWf s.mem = true) : memWf (renumber s n).mem = true :=
  memWf_rekeyed _ _ h

@[simp] theorem memWf_writePod {s : State} (part : Option Nat) (v : Word) (h : memWf s.mem = true) :
    memWf (writePod s part v).mem = true := by
  unfold writePod
  split
  · split <;> simp [h]
  · split <;> simp [h]

theorem keepsForm_execPodRegisterWrite (part : Option (BitVec 2)) (value : BitVec 64) :
    KeepsForm (execPodRegisterWrite part value) := keepsForm_next fun _ h => by simp [h]
theorem keepsForm_execBclassWrite (cls : BitVec 6) (b : Bool) (value : BitVec 64) : KeepsForm (execBclassWrite cls b value) :=
  keepsForm_next fun _ h => by simp [h]
theorem keepsForm_execLsclassWrite (value : BitVec 64) : KeepsForm (execLsclassWrite value) := keepsForm_next fun _ h => by simp [h]
theorem keepsForm_execPwrctlWrite (value : BitVec 64) : KeepsForm (execPwrctlWrite value) := keepsForm_next fun _ h => by simp [h]
theorem keepsForm_execDpctlWrite (die : BitVec 2) (value : BitVec 64) : KeepsForm (execDpctlWrite die value) :=
  keepsForm_next fun _ h => by simp [h]
@[simp] theorem memWf_writePctl {s : State} (v : Word) (h : memWf s.mem = true) : memWf (writePctl s v).mem = true := by
  unfold writePctl; split <;> simp [h]

@[simp] theorem memWf_writeHub {s : State} (o : Nat) (v : Word) (h : memWf s.mem = true) : memWf (writeHub s o v).mem = true := by
  unfold writeHub
  refine memWf_ite h (memWf_ite (by simp [h]) (memWf_ite (by simp [h]) (memWf_ite (by simp [h]) (memWf_ite ?_ ?_))))
  · split <;> simp [h]
  · refine memWf_ite (by simp [h]) (memWf_ite (by simp [h]) (memWf_ite (by simp [h]) (memWf_ite (by simp [h]) ?_)))
    exact memWf_ite (by simp [h]) (memWf_ite (by simp [h]) (memWf_ite (by simp [h]) (memWf_ite (by simp [h]) h)))

theorem keepsForm_execHubRegisterWrite (hubOff : BitVec 24) (value : BitVec 64) : KeepsForm (execHubRegisterWrite hubOff value) :=
  keepsForm_next fun _ h => by simp [h]

theorem keepsForm_execDoorbellWrite (requester : BitVec 16) (vf : BitVec 6) (barOff : BitVec 19) (bytes : List (BitVec 8)) :
    KeepsForm (execDoorbellWrite requester vf barOff bytes) := by
  refine keepsForm_of_soundOut fun s hs => ?_
  unfold execDoorbellWrite
  exact soundOut_ite (soundOut_next (by simpa using hs)) (soundOut_next (by simpa using hs))

theorem keepsForm_execDoorbellTrigger (vf : BitVec 6) (queue : QueueId) : KeepsForm (execDoorbellTrigger vf queue) := by
  intro s t hs h
  unfold execDoorbellTrigger at h
  dsimp only at h
  repeat' split at h
  all_goals cases h
  all_goals simp [hs]

theorem keepsForm_execDoorbellStatusRead (requester : BitVec 16) (vf : BitVec 6) (queue : QueueId) :
    KeepsForm (execDoorbellStatusRead requester vf queue) := by
  refine keepsForm_of_soundOut fun s hs => ?_
  unfold execDoorbellStatusRead
  exact soundOut_ite (soundOut_next (by simpa using hs)) (soundOut_next (by simpa using hs))

theorem memWf_outsideWrite {s : State} (i : Instr) (pa : Nat) (bs : List Byte) (src : Option Nat) (d1 : Word)
    (h : memWf s.mem = true) :
    memWf (leftState (outsideWrite s i pa bs src d1)).mem = true := by
  unfold outsideWrite
  dsimp only
  split
  · simpa [leftState] using h
  · split
    · next w hw => exact memWf_of_mem (outsideWaits_mem hw) h
    · split
      · exact h
      · next t ht =>
        have ht' := memWf_of_mem (writeEvent_mem ht) h
        simp [leftState, ht']

@[simp] theorem memWf_popPosted {s : State} (e : BitVec 16 × HostAddress × List Byte) (h : memWf s.mem = true) :
    memWf (popPosted s e).mem = true := by
  unfold popPosted
  dsimp only
  repeat' split
  all_goals simp [h]

@[simp] theorem memWf_hubWrite {s : State} (a : Nat) (bs : List Byte) (h : memWf s.mem = true) :
    memWf (hubWrite s a bs).mem = true := by unfold hubWrite; split <;> simp [h]

@[simp] theorem memWf_drainPosted {s : State} (r : BitVec 16) (l0 : Nat) (h : memWf s.mem = true) :
    memWf (drainPosted r l0 s).mem = true := by
  induction l0 generalizing s with
  | zero => exact h
  | succ n ih =>
    unfold drainPosted
    extract_lets again
    split
    · simpa using h
    · next r' place bs _ =>
      extract_lets done
      have hd (u : State) (hu : memWf u.mem = true) : memWf (done u).mem = true := by simp [done, hu]
      clear_value done
      split
      · exact ih (by simp [hd _ h])
      · exact ih (hd _ h)
      · exact ih (hd _ h)
      · exact memWf_ite (by simpa using h) (ih (by simp [hd _ h]))
      · next a _ =>
        refine memWf_ite (by simpa using h) (memWf_ite (ih (by simp [hd _ h])) (memWf_ite (ih (hd _ h)) ?_))
        have hw := memWf_outsideWrite again a.toNat bs none (1#2 ++ 0#46 ++ r) h
        split
        · next t e =>
          rw [e] at hw
          exact ih (hd _ hw)
        · next n t e =>
          rw [e] at hw
          simpa [leftState] using hw

theorem keepsForm_execHostPostedWrite (requester : BitVec 16) (place : HostAddress) (bytes : List (BitVec 8)) :
    KeepsForm (execHostPostedWrite requester place bytes) := by
  intro s t hs h
  unfold execHostPostedWrite at h
  dsimp only at h
  repeat' split at h
  all_goals cases h
  all_goals simp [hs]

theorem keepsForm_execHostRead (requester : BitVec 16) (place : HostAddress) (len : BitVec 12) :
    KeepsForm (execHostRead requester place len) := by
  refine keepsForm_of_soundOut fun s hs => ?_
  unfold execHostRead
  extract_lets n i reply
  have hr (u : State) (bs : List Byte) (hu : memWf u.mem = true) : SoundOut (reply u bs) := soundOut_next (by simpa using hu)
  clear_value reply
  split
  · exact soundOut_ite (soundOut_next (by simpa using hs)) (hr _ _ hs)
  · exact hr _ _ hs
  · exact hr _ _ hs
  · exact hr _ _ hs
  · dsimp only
    refine soundOut_ite (hr _ _ hs) ?_
    split
    · next n t e => exact soundOut_next (by simpa using memWf_of_mem (outsideWaits_mem e) hs)
    · exact hr _ _ (by simpa using hs)

theorem keepsForm_execIdeFailure (_port : Bool) (_requester : BitVec 16) : KeepsForm (execIdeFailure _port _requester) :=
  keepsForm_next fun _ h => by simp [h]
theorem keepsForm_execSpdmAttestation (part : BitVec 2) (nonce : BitVec 256) : KeepsForm (execSpdmAttestation part nonce) :=
  keepsForm_next fun _ h => by simp [h]

theorem keepsForm_execDebugUnlock (part : BitVec 2) (nonce : BitVec 256) (signed : Bool) :
    KeepsForm (execDebugUnlock part nonce signed) := by
  intro s t hs h
  unfold execDebugUnlock at h
  dsimp only at h
  repeat' split at h
  all_goals cases h
  all_goals simp [hs]

@[simp] theorem memWf_peerMessage {s : State} (i : Instr) (src : Nat) (seq : BitVec 32) (dest : Nat) (m : MessageData)
    (h : memWf s.mem = true) :
    memWf (peerMessage s i src seq dest m).mem = true := by
  unfold peerMessage
  extract_lets held answer
  have ha (u : State) (r : PeerReply) (hu : memWf u.mem = true) : memWf (answer u r).mem = true := by simp [answer, hu]
  clear_value answer
  refine memWf_ite (ha _ _ h) (memWf_ite (memWf_ite (by simpa using h) (ha _ _ (by simpa using h))) (memWf_ite (by simpa using h) ?_))
  split
  next t r e => exact ha _ _ (memWf_of_fst (by simpa using h) e)

/-- What is left of a request of another package, done or refused, has a canonical memory. -/
def SoundLeft (r : Except (Nat × State) State) : Prop := memWf (leftState r).mem = true
theorem soundLeft_ok {s : State} (h : memWf s.mem = true) : SoundLeft (.ok s) := h
theorem soundLeft_error {n : Nat} {s : State} (h : memWf s.mem = true) : SoundLeft (.error (n, s)) := h
theorem soundLeft_of_mem {r : Except (Nat × State) State} {s : State} (e : (leftState r).mem = s.mem) (h : memWf s.mem = true) :
    SoundLeft r := memWf_of_mem e h

theorem soundLeft_map {r : Except (Nat × State) State} {f : State → State} (hf : ∀ s, memWf s.mem = true → memWf (f s).mem = true)
    (h : SoundLeft r) : SoundLeft (r.map f) := by
  cases r
  case error => exact h
  case ok s => exact hf s h

theorem soundLeft_ite {c : Prop} [Decidable c] {a b : Except (Nat × State) State} (ha : SoundLeft a) (hb : SoundLeft b) :
    SoundLeft (if c then a else b) := by
  split
  · exact ha
  · exact hb

theorem soundLeft_peerPerform {s : State} (i : Instr) (src : Nat) (seq : BitVec 32) (r : PeerRequest) (h : memWf s.mem = true) :
    SoundLeft (peerPerform s i src seq r) := by
  unfold peerPerform
  extract_lets kind answer s1
  have ha (u : State) (r : PeerReply) (hu : memWf u.mem = true) : memWf (answer u r).mem = true := by simp [answer, hu]
  have h1 : memWf s1.mem = true := by simpa [s1] using h
  clear_value answer s1
  split
  · exact soundLeft_map (fun u hu => ha _ _ hu) (memWf_outsideWrite _ _ _ _ _ h)
  · split
    · next w hw => exact soundLeft_error (memWf_of_mem (outsideWaits_mem hw) h)
    · exact soundLeft_ok (ha _ _ h)
  · extract_lets a old get bad
    refine soundLeft_ite (soundLeft_ok (ha _ _ h)) ?_
    · split
      · next w hw => exact soundLeft_error (memWf_of_mem (outsideWaits_mem hw) h)
      · refine soundLeft_ite (soundLeft_ok (ha _ _ h)) ?_
        · split
          · exact soundLeft_error h
          · next t ht =>
            have ht' := memWf_of_mem (writeEvent_mem ht) h
            exact soundLeft_ok (ha _ _ (by simp [ht']))
  · exact soundLeft_map (fun u hu => ha _ _ hu) (soundLeft_of_mem (grantPage_mem ..) h)
  · refine soundLeft_ite (soundLeft_ok (ha _ _ h)) (soundLeft_ok (memWf_ite ?_ ?_)) <;> simp [h1]
  · exact soundLeft_ok (by simp [h])
  · exact soundLeft_of_mem (peerCap_mem ..) h
  · split
    · exact soundLeft_ok (ha _ _ (memWf_of_mem (capChange_mem ‹_›) h))
    · exact soundLeft_error h
  · split
    · exact soundLeft_ok (ha _ _ (memWf_of_mem (peerTlbi_mem ‹_›) h))
    · exact soundLeft_error h
  · exact soundLeft_ok (ha _ _ (by simpa using h))
  · exact soundLeft_ok (by simpa using h)
  · extract_lets n wrote u
    have hu : memWf u.mem = true := memWf_ite (memWf_putMem _ _ h) h
    exact soundLeft_ok (ha _ _ (by simpa using hu))

theorem keepsForm_execFabricRequestArrival (source : BitVec 7) (seq : BitVec 32) (request : PeerRequest) :
    KeepsForm (execFabricRequestArrival source seq request) := by
  refine keepsForm_of_soundOut fun s hs => ?_
  unfold execFabricRequestArrival
  extract_lets src w i
  split
  · exact soundOut_next hs
  · exact soundOut_next (by simpa using hs)
  · refine soundOut_ite (soundOut_next (by simpa using hs)) (soundOut_ite (soundOut_next (by simpa using hs))
      (soundOut_ite (soundOut_next (by simpa using hs)) (soundOut_ite (soundOut_next (by simpa using hs)) ?_)))
    extract_lets
    have hp := soundLeft_peerPerform i src seq request hs
    split
    · next e =>
      rw [e] at hp
      exact soundOut_next hp
    · next t e _ =>
      rw [e] at hp
      exact soundOut_next (by simpa [SoundLeft, leftState] using hp)
    · next n t e =>
      rw [e] at hp
      refine soundOut_next (memWf_ite ?_ ?_) <;> simpa [SoundLeft, leftState] using hp

theorem keepsForm_execFabricRetransmit (seq : BitVec 32) (target : BitVec 7) : KeepsForm (execFabricRetransmit seq target) := by
  intro s t hs h
  unfold execFabricRetransmit at h
  dsimp only at h
  repeat' split at h
  all_goals cases h
  all_goals simp [hs]

theorem keepsForm_execFabricAcknowledgement (source : BitVec 7) (upTo : BitVec 32) :
    KeepsForm (execFabricAcknowledgement source upTo) := keepsForm_next fun _ h => by simp [h]
theorem keepsForm_execSecondTierTimeout (part : BitVec 2) : KeepsForm (execSecondTierTimeout part) :=
  keepsForm_next fun _ h => by simp [h]
theorem keepsForm_execExpanderLinkDown (port : BitVec 3) : KeepsForm (execExpanderLinkDown port) :=
  keepsForm_next fun _ h => by simp [h]
theorem keepsForm_execExpanderLinkTrained (port : BitVec 3) : KeepsForm (execExpanderLinkTrained port) :=
  keepsForm_next fun _ h => by simp [h]

theorem keepsForm_execThermalSample (junctions : List Nat) (averageOver averageUnder : Bool) :
    KeepsForm (execThermalSample junctions averageOver averageUnder) := by
  intro s t hs h
  unfold execThermalSample at h
  dsimp only at h
  repeat' split at h
  all_goals cases h
  all_goals simp [hs]

theorem bringUp_mem (s r : State) (up : Bringup) : (bringUp s r up).mem = r.mem := by
  obtain ⟨d, p, e⟩ := bringUp_eq s r up
  rw [e]
  rfl

theorem keepsForm_execAgentGate (agent : PowerAgent) : KeepsForm (execAgentGate agent) := by
  refine keepsForm_of_soundOut fun s hs => ?_
  unfold execAgentGate
  refine soundOut_ite (soundOut_next hs) (soundOut_next (memWf_post _ _ ?_))
  split <;> simpa using hs

theorem keepsForm_execAgentSleep (agent : PowerAgent) : KeepsForm (execAgentSleep agent) := by
  refine keepsForm_of_soundOut fun s hs => ?_
  unfold execAgentSleep
  refine soundOut_ite (soundOut_next hs) (soundOut_next ?_)
  split
  all_goals exact memWf_ite (by simpa using hs) hs

theorem keepsForm_execAgentWake (agent : PowerAgent) : KeepsForm (execAgentWake agent) := by
  refine keepsForm_of_soundOut fun s hs => soundOut_next ?_
  split <;> simpa using hs

@[simp] theorem memWf_keepOutside {s : State} (agenda : List (Nat × Instr)) (old new : Nat) (h : memWf s.mem = true) :
    memWf (keepOutside agenda old new s).mem = true := by simp [keepOutside, h]

@[simp] theorem memWf_coldStart (s : State) (image : Nat) (actions : List Nat) (up : Bringup) :
    memWf (coldStart s image actions up).mem = true := by
  obtain ⟨d, a, e⟩ := coldStart_eq s image actions up
  obtain ⟨x, p, b⟩ := bringUp_eq s State.reset up
  rw [e, coldState, b]
  exact reset_mem_wf

theorem keepsForm_execColdReset (signatureGood : Bool) (up : Bringup) : KeepsForm (execColdReset signatureGood up) := by
  intro s t hs h
  unfold execColdReset at h
  dsimp only at h
  repeat' split at h
  all_goals cases h
  all_goals simp [hs]

theorem keepsForm_execWarmReset (up : Bringup) : KeepsForm (execWarmReset up) := by
  refine keepsForm_of_soundOut fun s hs => ?_
  unfold execWarmReset
  refine soundOut_ite (soundOut_next hs) ?_
  dsimp only
  refine soundOut_next ?_
  rw [discard_mem]
  refine memWf_keepOutside _ _ _ ?_
  rw [postPoll_mem, modHub_mem, bringUp_mem]
  exact reset_mem_wf

theorem keepsForm_execFirmwareUpdate (image : Nat) (good : Bool) : KeepsForm (execFirmwareUpdate image good) :=
  keepsForm_next fun _ h => by simp [h]

theorem keepsForm_execRecoveryLoad (image : Nat) (good : Bool) : KeepsForm (execRecoveryLoad image good) := by
  intro s t hs h
  unfold execRecoveryLoad at h
  dsimp only at h
  repeat' split at h
  all_goals cases h
  all_goals simp [hs]

end Sys2Proof.Proofs
end

section
/-! PROOF. Every step keeps the form of memory (R28, R246, R397). -/

namespace Sys2Proof.Proofs
open Sys2Proof Sys2Proof.Machine Sys2Proof.Laws
open Std.Do
set_option mvcgen.warning false

/-- A unit behind an EXT is its body, or traps. -/
theorem keepsForm_prefixed (p : BitVec 24) {i : Instr} (hi : KeepsForm (exec i)) : KeepsForm (exec (.extPrefixedUnit p i)) := by
  intro s t hs h
  by_cases hp : prefixFits p i = true
  · rw [exec_prefixed s hp] at h
    exact hi s t hs h
  · have hx : exec (.extPrefixedUnit p i) s = runIn (stopTrap .illegal) s := if_neg hp
    rw [hx] at h
    exact keepsForm_runIn (kp_stopTrap _ _ _) s t hs h

theorem keepsForm_execCapGive (d s1 s2 : GReg) : KeepsForm (execCapGive d s1 s2) := by
  refine keepsForm_capUnit _ _ _ _ ?_
  mvcgen [kp_readG, kp_getS, kp_stopIf]
  all_goals simp_all

theorem keepsForm_execTqnt (d : TReg) (s1 : GReg) : KeepsForm (execTqnt d s1) := by
  refine keepsForm_matrixUnit _ ?_
  mvcgen [kp_readG, kp_getS, kp_stopIf]
  all_goals simp_all

theorem keepsForm_execCrd (d : GReg) (r : BitVec 13) : KeepsForm (execCrd d r) := by
  refine keepsForm_ctlUnit _ _ ?_
  mvcgen [kp_getS, kp_writeG, kp_stopTrap, kp_countLost, kp_timingTrap]
  all_goals simp_all

/-- What every instruction and every event leaves: by its own lemma, or by that of the units of its shape. -/
theorem keepsForm_exec (i : Instr) : KeepsForm (exec i) := by
  induction i
  case extPrefixedUnit => exact keepsForm_prefixed _ ‹_›
  all_goals
    intro s t hs h
    delta exec at h
    simp only [] at h
  case nop | cNop => exact keepsForm_runIn (kp_pure _) _ _ hs h
  case callr | ret | jr | cRet | cJr | cCallr => exact keepsForm_runIn (kp_jumpReg _ _) _ _ hs h
  case start => exact keepsForm_runIrr (kp_startU _ _ _) _ _ hs h
  case endCtx | cEnd => exact keepsForm_runIrr kp_endU _ _ hs h
  case yield | cYield => exact keepsForm_runIn kp_yieldU _ _ hs h
  case wait => exact keepsForm_runIrr (kp_waitU _ _ _) _ _ hs h
  case getid => exact keepsForm_runIn (kp_getidU _ _) _ _ hs h
  case brk | cBrk => exact keepsForm_runIn (kp_breakWith _) _ _ hs h
  case add | sub | mul | mulhI64 | mulhN64 | mulhSu | andR | orR | xorR | andn | shl | shr | sar | rotL | rotR |
      minI64 | minN64 | maxI64 | maxN64 | cmp | bfxN | bfxI | lea | shuf | shufKLow | shufKHigh | cMov | cAdd |
      cSub | cAnd | cOr | cXor => exact keepsForm_runIn (kp_scalar2 _ _ _ _) _ _ hs h
  case addi | logiAnd | logiOr | logiXor | logiAndn | cAddi => exact keepsForm_runIn (kp_scalarI _ _ _ _) _ _ hs h
  case divI64 | divN64 | remI64 | remN64 => exact keepsForm_runIn (kp_divide _ _ _ _) _ _ hs h
  case madd | msub | sel | addc | addcCo => exact keepsForm_runIn (kp_scalar3 _ _ _ _ _) _ _ hs h
  case shiShl | shiShr | shiSar | shiRot | ext | bitcPop | bitcClz | bitcCtz | bitcRev | bitcBsw | cShiShl |
      cShiShr | cShiSar => exact keepsForm_runIn (kp_scalar1 _ _ _) _ _ hs h
  case vadd | vsub | vmul | vfma | vdiv | vsqrt | vunRint | vsh | cVaddF32 | cVmulF32 =>
    exact keepsForm_runIn (kp_vArith _ _ _ _ _ _ _ _ _) _ _ hs h
  case vmin | vmax | vunPopc | vunClz | vmov | cVmov => exact keepsForm_runIn (kp_vPure _ _ _ _ _) _ _ hs h
  case vunNeg | vunAbs => exact keepsForm_runIn (kp_vSign _ _ _ _ _ _) _ _ hs h
  case vlogAnd | vlogOr | vlogXor | vlogAndn | vlogOrn | vlogNand | vlogNor | vlogXnor | vlogNot =>
    exact keepsForm_runIn (kp_vLogic _ _ _ _ _) _ _ hs h
  case plogAnd | plogOr | plogXor | plogAndn => exact keepsForm_runIn (kp_pLogic _ _ _ _ _) _ _ hs h
  case vcvt | vcvtHi => exact keepsForm_runIn (kp_vConvert _ _ _ _ _ _ _) _ _ hs h
  case vfunExp2 | vfunLog2 | vfunRcp | vfunRsq | vfunSinpi | vfunCospi | vfunTanh =>
    exact keepsForm_runIn (kp_vFun _ _ _ _ _ _) _ _ hs h
  case vredMin | vredMax => exact keepsForm_runIn (kp_redMinMax _ _ _ _ _) _ _ hs h
  case vredAnd | vredOr | vredXor => exact keepsForm_runIn (kp_redLogic _ _ _ _ _ _) _ _ hs h
  case vperm | vzip => exact keepsForm_runIn (kp_vMove _ _ _ _ _ _) _ _ hs h
  case vscanMin | vscanMax => exact keepsForm_runIn (kp_scanMinMax _ _ _ _ _) _ _ hs h
  case vld | cVld => exact keepsForm_vectorLoad _ _ _ _ (kp_rowAddrs _ _ _ _) _ _ hs h
  case vst | cVst => exact keepsForm_vectorStore _ _ _ _ (kp_rowAddrs _ _ _ _) _ _ hs h
  case vgath => exact keepsForm_vectorLoad _ _ _ _ (kp_gatherAddrs _ _ _ _) _ _ hs h
  case vscat => exact keepsForm_vectorStore _ _ _ _ (kp_gatherAddrs _ _ _ _) _ _ hs h
  case ld | cLd => exact keepsForm_loadUnit _ _ _ _ (kp_eaMI _ _ _) _ _ hs h
  case st | cSt => exact keepsForm_storeUnit _ _ _ (kp_eaMI _ _ _) _ _ hs h
  case ldx => exact keepsForm_loadUnit _ _ _ _ (kp_eaRR _ _ _) _ _ hs h
  case stx => exact keepsForm_storeUnit _ _ _ (kp_eaRR _ _ _) _ _ hs h
  case ldfe => exact keepsForm_syncAccess _ _ _ _ (kp_eaMI _ _ _) (kp_pure _) _ _ hs h
  case stfe => exact keepsForm_syncAccess _ _ _ _ (kp_eaMI _ _ _) (by mvcgen [kp_readG]) _ _ hs h
  case feopSet | feopClr | feopQry | feopLdff => exact keepsForm_syncAccess _ _ _ _ (kp_eaRR _ _ _) (kp_pure _) _ _ hs h
  case ldg | cLdg => exact keepsForm_runIn (kp_globalLoad _ _ _ _ _) _ _ hs h
  case stg | cStg => exact keepsForm_runIn (kp_globalStore _ _ _ _) _ _ hs h
  case prefRd | prefOwn | prefSlc => exact keepsForm_runIn (kp_prefetch _ _ _) _ _ hs h
  case tcut | acq | cTcut => exact keepsForm_runIrr (kp_pure _) _ _ hs h
  case faAddN64 | faAndN64 | faOrN64 | faXorN64 | faMinI64 | faMaxI64 | faMinN64 | faMaxN64 | faSwapN64 | faCasN64 |
      faAddF64 | faGetN64 => exact keepsForm_farAtomic _ _ _ _ _ _ _ _ hs h
  case capGive => exact keepsForm_execCapGive _ _ _ _ _ hs h
  case capClaim => exact keepsForm_capUnit _ _ _ _ (by mvcgen [kp_curCore, kp_stopIf]) _ _ hs h
  case capSeal | capQryWait => exact keepsForm_capUnit _ _ _ _ (kp_pure _) _ _ hs h
  case capUnseal => exact keepsForm_capUnit _ _ _ _ (by mvcgen [kp_myCtx, kp_stopIf]) _ _ hs h
  case capQry => exact keepsForm_capUnit _ _ _ _ (by mvcgen [kp_timingTrap]) _ _ hs h
  case tcfg | trel | dtldStd => exact keepsForm_matrixUnit _ (kp_pure _) _ _ hs h
  case dtld | tldb => exact keepsForm_matrixUnit _ (by mvcgen [kp_readG, kp_ownOffset, kp_stopIf, kp_curCore]) _ _ hs h
  case fctx => exact keepsForm_matrixUnit _ (by mvcgen [kp_readG, kp_stopIf]) _ _ hs h
  case fctxRd => exact keepsForm_matrixUnit _ (by mvcgen [kp_needDest]) _ _ hs h
  case mma | mmaV => exact keepsForm_mmaUnit _ _ _ _ _ _ hs h
  case tstcF32 | tstcBf16 | tstcF16 => exact keepsForm_runIn (kp_tstcU _ _ _ _) _ _ hs h
  case tqnt => exact keepsForm_execTqnt _ _ _ _ hs h
  case scfg => exact keepsForm_scanUnit _ (by mvcgen [kp_needDest]) _ _ hs h
  case stile => exact keepsForm_scanUnit _ (by mvcgen [kp_readG]) _ _ hs h
  case sjoinT | sjoinR => exact keepsForm_scanUnit _ (by mvcgen [kp_readG, kp_ownOffset]) _ _ hs h
  case binit => exact keepsForm_syncUnit _ _ _ _ _ _ (fun _ => by mvcgen [kp_stopIf]) _ _ hs h
  case barv | barvX | bwait | btest | semi | semiSet | semw | semwDec =>
    exact keepsForm_syncUnit _ _ _ _ _ _ (fun _ => kp_pure _) _ _ hs h
  case deqB | deqPoll => exact keepsForm_runIrr (kp_deqBuffer _ _ _ _) _ _ hs h
  case gath | scat => exact keepsForm_runIrr (kp_gathScat _ _ _ _) _ _ hs h
  case strmIn | strmOut => exact keepsForm_runIrr (kp_strmAffine _ _ _ _) _ _ hs h
  case strmInD | strmOutD => exact keepsForm_runIrr (kp_strmDescr _ _ _ _) _ _ hs h
  case crd => exact keepsForm_execCrd _ _ _ _ hs h
  case cwr => exact keepsForm_ctlUnit _ _ (by mvcgen [kp_readG, kp_ctlWrite]) _ _ hs h
  case tlbiVa => exact keepsForm_tlbiU _ _ _ _ (kp_readG _) (kp_readG _) _ _ hs h
  case tlbiAsid => exact keepsForm_tlbiU _ _ _ _ (kp_pure _) (kp_readG _) _ _ hs h
  case tlbiAll => exact keepsForm_tlbiU _ _ _ _ (kp_pure _) (kp_pure _) _ _ hs h
  case br => exact keepsForm_execBr _ _ _ hs h
  case bcc => exact keepsForm_execBcc _ _ _ _ _ _ hs h
  case bp => exact keepsForm_execBp _ _ _ _ _ hs h
  case call => exact keepsForm_execCall _ _ _ hs h
  case loop => exact keepsForm_execLoop _ _ _ _ hs h
  case rep => exact keepsForm_execRep _ _ _ _ _ _ _ _ hs h
  case bfi => exact keepsForm_execBfi _ _ _ _ _ hs h
  case li => exact keepsForm_execLi _ _ _ _ hs h
  case lih => exact keepsForm_execLih _ _ _ _ hs h
  case hdrPack => exact keepsForm_execHdrPack _ _ _ _ _ hs h
  case hdrSplit => exact keepsForm_execHdrSplit _ _ _ _ _ hs h
  case vcmp => exact keepsForm_execVcmp _ _ _ _ _ _ _ _ hs h
  case whilePred => exact keepsForm_execWhilePred _ _ _ _ _ _ _ _ hs h
  case vwid => exact keepsForm_execVwid _ _ _ hs h
  case vredAdd => exact keepsForm_execVredAdd _ _ _ _ _ _ _ hs h
  case vdot => exact keepsForm_execVdot _ _ _ _ _ _ _ _ hs h
  case vsel => exact keepsForm_execVsel _ _ _ _ _ _ _ hs h
  case vbcast => exact keepsForm_execVbcast _ _ _ _ _ _ hs h
  case vext => exact keepsForm_execVext _ _ _ _ _ _ hs h
  case vins => exact keepsForm_execVins _ _ _ _ _ _ hs h
  case vscanAdd => exact keepsForm_execVscanAdd _ _ _ _ _ _ _ hs h
  case vshuf => exact keepsForm_execVshuf _ _ _ _ _ _ _ hs h
  case xch => exact keepsForm_execXch _ _ _ _ _ _ _ _ hs h
  case vldg => exact keepsForm_execVldg _ _ _ _ _ _ _ hs h
  case vstg => exact keepsForm_execVstg _ _ _ _ _ _ _ hs h
  case lease => exact keepsForm_execLease _ _ _ _ _ hs h
  case unlease => exact keepsForm_execUnlease _ _ _ _ hs h
  case lstat => exact keepsForm_execLstat _ _ _ _ hs h
  case fence => exact keepsForm_execFence _ _ _ hs h
  case rel => exact keepsForm_execRel _ _ _ hs h
  case chainPost => exact keepsForm_execChainPost _ _ _ _ _ hs h
  case chainWait => exact keepsForm_execChainWait _ _ _ _ _ hs h
  case chainPos => exact keepsForm_execChainPos _ _ _ hs h
  case qinit => exact keepsForm_execQinit _ _ _ _ _ hs h
  case enq => exact keepsForm_execEnq _ _ _ _ _ hs h
  case enqB => exact keepsForm_execEnqB _ _ _ _ _ hs h
  case deq => exact keepsForm_execDeq _ _ _ _ hs h
  case send => exact keepsForm_execSend _ _ _ _ _ _ hs h
  case sendRep => exact keepsForm_execSendRep _ _ _ _ _ _ hs h
  case sendRef => exact keepsForm_execSendRef _ _ _ _ hs h
  case cpy => exact keepsForm_execCpy _ _ _ _ _ hs h
  case cpyStat => exact keepsForm_execCpyStat _ _ _ _ hs h
  case cpyStatErr => exact keepsForm_execCpyStatErr _ _ _ _ hs h
  case cpyStatWait => exact keepsForm_execCpyStatWait _ _ _ _ _ hs h
  case strmOff => exact keepsForm_execStrmOff _ _ _ _ hs h
  case trap => exact keepsForm_execTrap _ _ _ _ hs h
  case eret => exact keepsForm_execEret _ _ _ hs h
  case eretEnd => exact keepsForm_execEretEnd _ _ _ hs h
  case parkrd => exact keepsForm_execParkrd _ _ _ _ hs h
  case parkwr => exact keepsForm_execParkwr _ _ _ _ hs h
  case erlog => exact keepsForm_execErlog _ _ _ _ hs h
  case erlogEsc => exact keepsForm_execErlogEsc _ _ _ hs h
  case cLi => exact keepsForm_execCLi _ _ _ _ hs h
  case cBr => exact keepsForm_execCBr _ _ _ hs h
  case cBccEq => exact keepsForm_execCBccEq _ _ _ _ hs h
  case cBccNe => exact keepsForm_execCBccNe _ _ _ _ hs h
  case cBpAny => exact keepsForm_execCBpAny _ _ _ _ hs h
  case cwrCmode => exact keepsForm_execCwrCmode _ _ _ hs h
  case cwrWsp => exact keepsForm_execCwrWsp _ _ _ hs h
  case cwrLayout => exact keepsForm_execCwrLayout _ _ _ _ hs h
  case cwrSplit => exact keepsForm_execCwrSplit _ _ _ hs h
  case cwrVpool => exact keepsForm_execCwrVpool _ _ _ hs h
  case cwrClass => exact keepsForm_execCwrClass _ _ _ _ hs h
  case cwrVmroot => exact keepsForm_execCwrVmroot _ _ _ hs h
  case supervisorWake => exact keepsForm_execSupervisorWake _ _ _ hs h
  case blockedIntervalEnd => exact keepsForm_execBlockedIntervalEnd _ _ _ _ hs h
  case forfeitEnd => exact keepsForm_execForfeitEnd _ _ _ _ hs h
  case normaliserService => exact keepsForm_execNormaliserService _ _ _ hs h
  case queueRegisterUnblock => exact keepsForm_execQueueRegisterUnblock _ _ _ _ hs h
  case waitRelease => exact keepsForm_execWaitRelease _ _ _ _ hs h
  case waitLimitExpiry => exact keepsForm_execWaitLimitExpiry _ _ _ _ hs h
  case helperTaken => exact keepsForm_execHelperTaken _ _ _ _ hs h
  case taskLaneRetire => exact keepsForm_execTaskLaneRetire _ _ _ hs h
  case remoteAccessPerform => exact keepsForm_execRemoteAccessPerform _ _ _ _ hs h
  case remoteStorePerform => exact keepsForm_execRemoteStorePerform _ _ _ _ hs h
  case vectorRemoteChecks => exact keepsForm_execVectorRemoteChecks _ _ _ _ hs h
  case parkedRequestServe => exact keepsForm_execParkedRequestServe _ _ _ hs h
  case parkRefusalRetry => exact keepsForm_execParkRefusalRetry _ _ _ _ hs h
  case evictionRetryResend => exact keepsForm_execEvictionRetryResend _ _ _ _ hs h
  case commitGrant => exact keepsForm_execCommitGrant _ _ _ _ hs h
  case localCommit => exact keepsForm_execLocalCommit _ _ _ _ hs h
  case trumpAdmission => exact keepsForm_execTrumpAdmission _ _ _ hs h
  case homeLineRequest => exact keepsForm_execHomeLineRequest _ _ _ _ _ hs h
  case probeTimeout => exact keepsForm_execProbeTimeout _ _ _ _ hs h
  case leaseGrant => exact keepsForm_execLeaseGrant _ _ _ _ hs h
  case leaseExpiry => exact keepsForm_execLeaseExpiry _ _ _ _ _ hs h
  case farAtomicPerform => exact keepsForm_execFarAtomicPerform _ _ _ _ hs h
  case farAtomicReply => exact keepsForm_execFarAtomicReply _ _ _ _ _ hs h
  case capStateChange => exact keepsForm_execCapStateChange _ _ _ _ hs h
  case capQryWaitRelease => exact keepsForm_execCapQryWaitRelease _ _ _ _ hs h
  case matrixRequestStart => exact keepsForm_execMatrixRequestStart _ _ _ hs h
  case matrixRequestComplete => exact keepsForm_execMatrixRequestComplete _ _ _ hs h
  case mxwdogExpiry => exact keepsForm_execMxwdogExpiry _ _ _ hs h
  case uncorrectableSoftError => exact keepsForm_execUncorrectableSoftError _ _ _ _ _ hs h
  case scanRequestStart => exact keepsForm_execScanRequestStart _ _ _ hs h
  case scanRequestComplete => exact keepsForm_execScanRequestComplete _ _ _ hs h
  case chainPostPerform => exact keepsForm_execChainPostPerform _ _ _ _ hs h
  case chainDelivery => exact keepsForm_execChainDelivery _ _ _ hs h
  case chainWaitPerform => exact keepsForm_execChainWaitPerform _ _ _ _ hs h
  case barrierArrival => exact keepsForm_execBarrierArrival _ _ _ _ hs h
  case semaphoreAtHome => exact keepsForm_execSemaphoreAtHome _ _ _ _ hs h
  case syncWaiterAnswer => exact keepsForm_execSyncWaiterAnswer _ _ _ _ _ hs h
  case wakeListRetry => exact keepsForm_execWakeListRetry _ _ _ _ hs h
  case sliceQueueOp => exact keepsForm_execSliceQueueOp _ _ _ _ hs h
  case messageArrival => exact keepsForm_execMessageArrival _ _ _ _ hs h
  case sendReply => exact keepsForm_execSendReply _ _ _ _ _ hs h
  case granuleRead => exact keepsForm_execGranuleRead _ _ _ _ hs h
  case granuleWrite => exact keepsForm_execGranuleWrite _ _ _ _ hs h
  case jobEnd => exact keepsForm_execJobEnd _ _ _ _ hs h
  case gathScatRow => exact keepsForm_execGathScatRow _ _ _ _ hs h
  case streamStripFill => exact keepsForm_execStreamStripFill _ _ _ _ _ hs h
  case streamStripWrite => exact keepsForm_execStreamStripWrite _ _ _ _ _ hs h
  case cpyStatWaitRelease => exact keepsForm_execCpyStatWaitRelease _ _ _ _ hs h
  case trapRecordEnqueue => exact keepsForm_execTrapRecordEnqueue _ _ _ hs h
  case pageWalk => exact keepsForm_execPageWalk _ _ _ _ hs h
  case tlbiComplete => exact keepsForm_execTlbiComplete _ _ _ _ hs h
  case pageGrant => exact keepsForm_execPageGrant _ _ _ _ _ hs h
  case pageRevocation => exact keepsForm_execPageRevocation _ _ _ hs h
  case malformedDealRemoval => exact keepsForm_execMalformedDealRemoval _ _ _ hs h
  case dealPlacement => exact keepsForm_execDealPlacement _ _ _ hs h
  case launchCompletion => exact keepsForm_execLaunchCompletion _ _ _ hs h
  case pendingInterruptSend => exact keepsForm_execPendingInterruptSend _ _ _ _ hs h
  case preemption => exact keepsForm_execPreemption _ _ _ hs h
  case coreResume => exact keepsForm_execCoreResume _ _ _ _ hs h
  case budgetPeriodStart => exact keepsForm_execBudgetPeriodStart _ _ hs h
  case trapEntry => exact keepsForm_execTrapEntry _ _ _ _ hs h
  case lockstepMismatch => exact keepsForm_execLockstepMismatch _ _ _ _ hs h
  case machineCheck => exact keepsForm_execMachineCheck _ _ _ hs h
  case heartbeatMiss => exact keepsForm_execHeartbeatMiss _ _ _ hs h
  case coreRepair => exact keepsForm_execCoreRepair _ _ _ _ hs h
  case quiesce => exact keepsForm_execQuiesce _ _ _ hs h
  case quiesceDone => exact keepsForm_execQuiesceDone _ _ hs h
  case quiesceLimitExpiry => exact keepsForm_execQuiesceLimitExpiry _ _ hs h
  case resume => exact keepsForm_execResume _ _ _ hs h
  case merge => exact keepsForm_execMerge _ _ _ hs h
  case split => exact keepsForm_execSplit _ _ _ hs h
  case treset => exact keepsForm_execTreset _ _ _ hs h
  case tchange => exact keepsForm_execTchange _ _ _ hs h
  case tchangeDone => exact keepsForm_execTchangeDone _ _ hs h
  case partRegisterWrite => exact keepsForm_execPartRegisterWrite _ _ _ _ _ hs h
  case vfRegisterWrite => exact keepsForm_execVfRegisterWrite _ _ _ _ hs h
  case xpRegisterWrite => exact keepsForm_execXpRegisterWrite _ _ _ _ hs h
  case podRegisterWrite => exact keepsForm_execPodRegisterWrite _ _ _ _ hs h
  case bclassWrite => exact keepsForm_execBclassWrite _ _ _ _ _ hs h
  case lsclassWrite => exact keepsForm_execLsclassWrite _ _ _ hs h
  case pwrctlWrite => exact keepsForm_execPwrctlWrite _ _ _ hs h
  case dpctlWrite => exact keepsForm_execDpctlWrite _ _ _ _ hs h
  case hubRegisterWrite => exact keepsForm_execHubRegisterWrite _ _ _ _ hs h
  case doorbellWrite => exact keepsForm_execDoorbellWrite _ _ _ _ _ _ hs h
  case doorbellTrigger => exact keepsForm_execDoorbellTrigger _ _ _ _ hs h
  case doorbellStatusRead => exact keepsForm_execDoorbellStatusRead _ _ _ _ _ hs h
  case hostPostedWrite => exact keepsForm_execHostPostedWrite _ _ _ _ _ hs h
  case hostRead => exact keepsForm_execHostRead _ _ _ _ _ hs h
  case ideFailure => exact keepsForm_execIdeFailure _ _ _ _ hs h
  case spdmAttestation => exact keepsForm_execSpdmAttestation _ _ _ _ hs h
  case debugUnlock => exact keepsForm_execDebugUnlock _ _ _ _ _ hs h
  case fabricRequestArrival => exact keepsForm_execFabricRequestArrival _ _ _ _ _ hs h
  case fabricRetransmit => exact keepsForm_execFabricRetransmit _ _ _ _ hs h
  case secondTierTimeout => exact keepsForm_execSecondTierTimeout _ _ _ hs h
  case expanderLinkDown => exact keepsForm_execExpanderLinkDown _ _ _ hs h
  case expanderLinkTrained => exact keepsForm_execExpanderLinkTrained _ _ _ hs h
  case thermalSample => exact keepsForm_execThermalSample _ _ _ _ _ hs h
  case agentGate => exact keepsForm_execAgentGate _ _ _ hs h
  case agentSleep => exact keepsForm_execAgentSleep _ _ _ hs h
  case agentWake => exact keepsForm_execAgentWake _ _ _ hs h
  case coldReset => exact keepsForm_execColdReset _ _ _ _ hs h
  case warmReset => exact keepsForm_execWarmReset _ _ _ hs h
  case firmwareUpdate => exact keepsForm_execFirmwareUpdate _ _ _ _ hs h
  case recoveryLoad => exact keepsForm_execRecoveryLoad _ _ _ _ hs h
  case partitionOpComplete => exact keepsForm_execPartitionOpComplete _ _ hs h
  case hostLoadReply => exact keepsForm_execHostLoadReply _ _ _ _ _ hs h
  case fabricAcknowledgement => exact keepsForm_execFabricAcknowledgement _ _ _ _ hs h

end Sys2Proof.Proofs
end

section
/-! PROOF. What a turn and a step do to the form of memory (R28, R99, R246, R397). -/

namespace Sys2Proof.Proofs
open Sys2Proof Sys2Proof.Machine Sys2Proof.Laws

/-- What is prepared, or what remains where the unit cannot be prepared. -/
def preparedState : Except (UnitInfo × Stop × State) (Instr × State) → State
  | .ok (_, t) => t
  | .error (_, _, t) => t

/-- A unit that is fetched leaves memory alone (R28, R49). -/
theorem prepare_mem (s : State) (k x : Nat) : (preparedState (prepare s k x)).mem = s.mem := by
  unfold prepare
  extract_lets u pc body
  split
  · rfl
  · next bytes t e =>
    have ht : t.mem = s.mem := (fetched_fetchUnit e).mem
    split
    · exact ht
    · exact ht
    · next d _ =>
      dsimp only
      split
      · exact ht
      · repeat' split
        all_goals exact ht

theorem keepsForm_issue (k x : Nat) : KeepsForm fun s => issue s k x := by
  intro s t hs h
  have hp := prepare_mem s k x
  dsimp only [issue] at h
  split at h
  · next u e v ev =>
    rw [ev] at hp
    cases h
    exact memWf_stopUnit _ _ _ _ (memWf_of_mem hp hs)
  · next i v ev =>
    rw [ev] at hp
    exact keepsForm_exec i v t (memWf_of_mem hp hs) h

theorem keepsForm_coreTurn (k : Nat) : KeepsForm fun s => coreTurn s k := by
  intro s t hs h
  dsimp only [coreTurn] at h
  split at h
  · have hp : (pickIssuer (wakeLive { s with turn := k + 1 } k) k).1.mem = s.mem := by simp
    split at h
    · next u x e =>
      rw [e] at hp
      exact keepsForm_issue k x (noteIssue u k x) t (memWf_of_mem hp hs) h
    · next u e =>
      rw [e] at hp
      cases h
      exact memWf_of_mem hp hs
  · cases h
    exact hs

/-- A step is a core's turn, a happening that is due, or the end of a tick (R99). -/
theorem keepsForm_step : KeepsForm step := by
  intro s t hs h
  unfold step at h
  split at h
  · exact keepsForm_coreTurn _ s t hs h
  · split at h
    · split at h
      · split at h
        · cases h
          exact hs
        · refine keepsForm_exec _ _ t ?_ h
          exact hs
      · cases h
        exact hs
    · split at h
      · cases h
      · cases h
        exact hs

/-- Settles O16: by what each kind of step leaves of memory, its units and its events by the lemma on each instruction. -/
theorem stepKeepsMemory : Obligations.StepKeepsMemory := by
  unfold Obligations.StepKeepsMemory
  exact fun s t hs h => keepsForm_step s t hs h

end Sys2Proof.Proofs
end

section
/-! PROOF. Reductions and dot products on the fixed tree (R90, R91, R174, R175). -/

namespace Sys2Proof.Proofs
open Sys2Proof Sys2Proof.Machine Sys2Proof.Laws

/-! ### Units that write one element -/

theorem vReads_single {k : VReg} {s t : State} {vs : List Vec} (h : VReads [k] s vs t) : ∃ a, vs = [a] ∧ readV k s = .ok (a, t) := by
  obtain ⟨a, u, r, h1, rfl, rfl, rfl⟩ := h
  exact ⟨a, rfl, h1⟩

/-- A unit that reads its vector registers and then writes one scalar result (R174, R175). -/
theorem vScalar_of {i : Instr} {m : U After} {d : VReg} {srcs : List VReg} {p : PReg} {w : Nat} {f : State → List Vec → Nat × Flags}
    {norm : State → List Vec → Nat × Flags → Bool} (he : ∀ s, exec i s = runIn m s)
    (hm : ∀ s t vs, VReads srcs s vs t → m s = writeScalar d (t.p p) w (f t vs) (norm t vs (f t vs)) t) :
    VScalar i d srcs p w f norm := by
  intro s t u vs hs hr r hw
  rw [he]
  refine unit_vector hs ?_
  rw [hm _ _ _ hr]
  exact vFinish_ok hw

theorem vScalar_redMinMax {i : Instr} {d s1 : VReg} {p : PReg} {t : ElemType} {least : Bool}
    (he : ∀ s, exec i s = runIn (redMinMax d s1 p t least) s) :
    VScalar i d [s1] p t.width (fun u vs => bitTree t.width (minMax t least)
      (fun x => if !t.isInt && (fmtOf t).isNaN x then ((fmtOf t).canonNaN, (fmtOf t).sFlag x) else (x, 0#7))
      (if t.isInt then (intInto t false (if least then intMax t else intMin t)).1 else (fmtOf t).infBits (!least))
      (leaves t.width (u.p p) (elem (vs.getD 0 0#2048) t.width))) fun _ _ _ => false := by
  refine vScalar_of he fun s u vs hr => ?_
  obtain ⟨a, rfl, h1⟩ := vReads_single hr
  unfold redMinMax
  rw [U_bind_ok h1, U_bind_ok (readP_apply p u)]
  rfl

theorem vScalar_redLogic {i : Instr} {d s1 : VReg} {p : PReg} {t : ElemType} {g : Nat → Nat → Nat} {e : Nat}
    (he : ∀ s, exec i s = runIn (redLogic d s1 p t g e) s) :
    VScalar i d [s1] p t.width (fun u vs => bitTree t.width (fun x y => (g x y, 0#7)) (fun x => (x, 0#7)) e
      (leaves t.width (u.p p) (elem (vs.getD 0 0#2048) t.width))) fun _ _ _ => false := by
  refine vScalar_of he fun s u vs hr => ?_
  obtain ⟨a, rfl, h1⟩ := vReads_single hr
  unfold redLogic
  rw [U_bind_ok h1, U_bind_ok (readP_apply p u)]
  rfl

section
variable {d s1 s2 : VReg} {p : PReg} {t : ElemType} {m : BitVec 2}

theorem vScalar_vredAdd_int (ht : t.isInt = true) :
    VScalar (.vredAdd d s1 p t m) d [s1] p t.width (fun u vs =>
      iTreeSum t (vSatOf u.me m) t.width (leaves t.width (u.p p) fun i => intOf t (elem (vs.getD 0 0#2048) t.width i))) fun _ _ _ => false := by
  refine vScalar_of (fun _ => rfl) fun s u vs hr => ?_
  obtain ⟨a, rfl, h1⟩ := vReads_single hr
  rw [U_bind_ok h1, U_bind_ok (readP_apply p u)]
  dsimp only
  rw [if_pos ht, U_bind_ok (vSat_apply m u)]
  rfl

theorem vScalar_vredAdd_float (ht : t.isInt = false) :
    VScalar (.vredAdd d s1 p t m) d [s1] p t.width (fun u vs =>
        let a := vs.getD 0 0#2048
        let r := fTreeSum (fmtOf t) (vModeOf u.me m) (u.rnd 0) t.width (leaves t.width (u.p p) fun i => (fmtOf t).value (elem a t.width i))
        (r.1, r.2 ||| activeSFlags (fmtOf t) t.width (u.p p) a))
      (fun u vs r => anySubnormal (fmtOf t) t.width (u.p p) (vs.getD 0 0#2048) || (fmtOf t).isSubnormal r.1) := by
  refine vScalar_of (fun _ => rfl) fun s u vs hr => ?_
  obtain ⟨a, rfl, h1⟩ := vReads_single hr
  rw [U_bind_ok h1, U_bind_ok (readP_apply p u)]
  dsimp only
  rw [if_neg (by simp [ht]), U_bind_ok (vMode_apply m u), U_bind_ok (unitRnd_apply u)]
  rfl

theorem vScalar_vdot_int (ht : t.isInt = true) :
    VScalar (.vdot d s1 s2 p t m) d [s1, s2, d] p 64 (fun u vs =>
      let ft : ElemType := if t.isUns then .n64 else .i64
      let r := iTreeSum ft (vSatOf u.me m) t.width
        (leaves t.width (u.p p) fun i => intOf t (elem (vs.getD 0 0#2048) t.width i) * intOf t (elem (vs.getD 1 0#2048) t.width i))
      let x := intInto ft (vSatOf u.me m) (intOf ft (elem (vs.getD 2 0#2048) 64 0) + intOf ft r.1)
      (x.1, r.2 ||| x.2)) fun _ _ _ => false := by
  refine vScalar_of (fun _ => rfl) fun s u vs hr => ?_
  obtain ⟨a, b, c, v, w, rfl, h1, h2, h3⟩ := vReads_three hr
  rw [U_bind_ok h1, U_bind_ok h2, U_bind_ok h3, U_bind_ok (readP_apply p u)]
  dsimp only
  rw [if_pos ht, U_bind_ok (vSat_apply m u)]
  rfl

theorem vScalar_vdot_f64 :
    VScalar (.vdot d s1 s2 p .f64 m) d [s1, s2, d] p 64 (fun u vs =>
      let a := vs.getD 0 0#2048
      let b := vs.getD 1 0#2048
      let r := groupDot (vModeOf u.me m) (u.rnd 0) (u.p p) a b 16 0 (elem (vs.getD 2 0#2048) 64 0) false
      (r.1, r.2.1 ||| activeSFlags fmtF64 64 (u.p p) a ||| activeSFlags fmtF64 64 (u.p p) b)) (fun u vs _ =>
        anySubnormal fmtF64 64 (u.p p) (vs.getD 0 0#2048) || anySubnormal fmtF64 64 (u.p p) (vs.getD 1 0#2048) ||
          fmtF64.isSubnormal (elem (vs.getD 2 0#2048) 64 0) ||
            (groupDot (vModeOf u.me m) (u.rnd 0) (u.p p) (vs.getD 0 0#2048) (vs.getD 1 0#2048) 16 0 (elem (vs.getD 2 0#2048) 64 0) false).2.2) := by
  refine vScalar_of (fun _ => rfl) fun s u vs hr => ?_
  obtain ⟨a, b, c, v, w, rfl, h1, h2, h3⟩ := vReads_three hr
  rw [U_bind_ok h1, U_bind_ok h2, U_bind_ok h3, U_bind_ok (readP_apply p u)]
  dsimp only
  rw [if_neg (by decide), U_bind_ok (vMode_apply m u), U_bind_ok (unitRnd_apply u), if_pos rfl]
  rfl

theorem vScalar_vdot_f32 (ht : t.isInt = false) (hf : t ≠ .f64) :
    VScalar (.vdot d s1 s2 p t m) d [s1, s2, d] p 32 (fun u vs =>
      dotF32 t (vModeOf u.me m) (u.rnd 0) (u.p p) (vs.getD 0 0#2048) (vs.getD 1 0#2048) (elem (vs.getD 2 0#2048) 32 0)) (fun u vs r =>
        anySubnormal (fmtOf t) t.width (u.p p) (vs.getD 0 0#2048) || anySubnormal (fmtOf t) t.width (u.p p) (vs.getD 1 0#2048) ||
          fmtF32.isSubnormal (elem (vs.getD 2 0#2048) 32 0) || fmtF32.isSubnormal r.1) := by
  refine vScalar_of (fun _ => rfl) fun s u vs hr => ?_
  obtain ⟨a, b, c, v, w, rfl, h1, h2, h3⟩ := vReads_three hr
  rw [U_bind_ok h1, U_bind_ok h2, U_bind_ok h3, U_bind_ok (readP_apply p u)]
  dsimp only
  rw [if_neg (by simp [ht]), U_bind_ok (vMode_apply m u), U_bind_ok (unitRnd_apply u), if_neg hf]
  rfl

end

end Sys2Proof.Proofs
end

section
/-! PROOF. The fixed tree on integers and on no element at all (R75, R76, R90, R174, R175). -/

namespace Sys2Proof.Proofs
open Sys2Proof Sys2Proof.Machine Sys2Proof.Laws

/-! ### Bringing an integer into its type -/

/-- Without saturation a value is taken modulo 2^w (R76). -/
theorem intInto_wraps (t : ElemType) (v : Int) : intInto t false v = ((v % 2 ^ t.width).toNat, 0#7) := rfl

/-- The integer that an element stands for is the element modulo 2^w (R75). -/
theorem intOf_modEq (t : ElemType) (x : Nat) : intOf t x ≡ x [ZMOD 2 ^ t.width] := by
  have h : ((x : Int) - 2 ^ t.width) ≡ x [ZMOD 2 ^ t.width] := by simp [Int.ModEq]
  unfold intOf
  split
  case h_5 => rfl
  all_goals
    split
    · exact h
    · rfl

theorem intOf_wrapped (t : ElemType) (v : Int) : intOf t (intInto t false v).1 ≡ v [ZMOD 2 ^ t.width] := by
  refine (intOf_modEq t _).trans ?_
  rw [intInto_wraps, Int.toNat_of_nonneg (Int.emod_nonneg v (by positivity))]
  exact Int.mod_modEq v _

/-! ### Sums on the tree -/

/-- What a place of the tree counts for in a sum: nothing where no element is active. -/
def leafValue : Option (Bool × Int) → Int
  | none => 0
  | some (_, x) => x

/-- The sum of the places of a level. -/
def leafSum (l : List (Option (Bool × Int))) : Int := (l.map leafValue).sum

section
variable {n : Int} {comb : Int → Int → Int × Flags}

/-- Combining neighbours keeps the sum of a level, where combining two values keeps theirs. -/
theorem leafSum_pairUp (hc : ∀ a b, (comb a b).1 ≡ a + b [ZMOD n]) : ∀ l, leafSum (pairUp comb l).1 ≡ leafSum l [ZMOD n]
  | [] => .refl _
  | [_] => .refl _
  | x :: y :: l => by
    have ih := leafSum_pairUp hc l
    rcases x with _ | ⟨_, a⟩ <;> rcases y with _ | ⟨_, b⟩ <;>
      simp only [pairUp, leafSum, List.map_cons, List.sum_cons, leafValue, ← add_assoc, zero_add] at ih ⊢
    · exact ih
    · exact ih.add_left _
    · exact ih.add_left _
    · exact (hc a b).add ih

theorem pairUp_noFlags {α : Type} {comb : α → α → α × Flags} (hc : ∀ a b, (comb a b).2 = 0#7) : ∀ l, (pairUp comb l).2 = 0#7
  | [] => rfl
  | [_] => rfl
  | x :: y :: l => by
    have ih := pairUp_noFlags hc l
    rcases x with _ | ⟨_, a⟩ <;> rcases y with _ | ⟨_, b⟩ <;> simp [pairUp, ih, hc]

/-- A level has half as many places as the one below it. -/
theorem length_pairUp {α : Type} (comb : α → α → α × Flags) : ∀ (k : Nat) (l : List (Option (Bool × α))),
    l.length = 2 * k → (pairUp comb l).1.length = k
  | 0, l, h => by simp [List.eq_nil_of_length_eq_zero (by simpa using h), pairUp]
  | k + 1, [], h | k + 1, [_], h => by simp at h <;> omega
  | k + 1, x :: y :: l, h => by
    have ih := length_pairUp comb k l (by simp at h; omega)
    rcases x with _ | ⟨_, a⟩ <;> rcases y with _ | ⟨_, b⟩ <;> simp [pairUp, ih]

/-- The whole tree keeps the sum of its leaves. -/
theorem leafValue_treeReduce (hc : ∀ a b, (comb a b).1 ≡ a + b [ZMOD n]) : ∀ (k : Nat) (l : List (Option (Bool × Int))),
    l.length = 2 ^ k → leafValue (treeReduce comb k l).1 ≡ leafSum l [ZMOD n]
  | 0, l, h => by
    obtain ⟨x, rfl⟩ := List.length_eq_one_iff.1 h
    simp [treeReduce, leafSum]
  | k + 1, l, h => by
    have hl := length_pairUp comb (2 ^ k) l (by rw [h]; ring)
    exact (leafValue_treeReduce hc k _ hl).trans (leafSum_pairUp hc l)

theorem treeReduce_noFlags {α : Type} {comb : α → α → α × Flags} (hc : ∀ a b, (comb a b).2 = 0#7) :
    ∀ (k : Nat) (l : List (Option (Bool × α))), (treeReduce comb k l).2 = 0#7
  | 0, _ => rfl
  | k + 1, l => by simp [treeReduce, pairUp_noFlags hc, treeReduce_noFlags hc k]

end

/-- The leaves sum to the values of the active elements. -/
theorem leafSum_leaves (w : Nat) (p : Pred) (f : Nat → Int) :
    leafSum (leaves w p f) = ((List.range (2048 / w)).filter (active p w ·)).foldl (fun a i => a + f i) 0 := by
  have h (l : List Nat) (a : Int) : a + leafSum (l.map fun i => if active p w i then some (false, f i) else none) =
      (l.filter (active p w ·)).foldl (fun a i => a + f i) a := by
    induction l generalizing a with
    | nil => simp [leafSum]
    | cons i l ih =>
      cases hi : active p w i
      · simpa [leafSum, leafValue, hi] using ih a
      · simpa [leafSum, leafValue, hi, add_assoc] using ih (a + f i)
  exact (zero_add _).symm.trans (h _ 0)

/-- A vector holds a power of two of the elements of an integer type (R153). -/
theorem count_pow : ∀ {t : ElemType}, t.isInt = true → ∃ k, count t.width = 2 ^ k
  | .i8, _ | .n8, _ => ⟨8, rfl⟩
  | .i16, _ | .n16, _ => ⟨7, rfl⟩
  | .i32, _ | .n32, _ => ⟨6, rfl⟩
  | .i64, _ | .n64, _ => ⟨5, rfl⟩

/-- The leaves of an integer type fill the lowest level of their tree (R90). -/
theorem length_leaves {α : Type} {t : ElemType} (ht : t.isInt = true) (p : Pred) (f : Nat → α) :
    (leaves t.width p f).length = 2 ^ Nat.log2 (count t.width) := by
  obtain ⟨k, hk⟩ := count_pow ht
  simp [leaves, hk]

/-- The sum on the tree, as one value modulo 2^w with no flag. -/
theorem iTreeSum_eq {t : ElemType} (ht : t.isInt = true) (p : Pred) (f : Nat → Int) :
    iTreeSum t false t.width (leaves t.width p f) = ((leafSum (leaves t.width p f) % 2 ^ t.width).toNat, 0#7) := by
  unfold iTreeSum
  dsimp only
  generalize hr : treeReduce _ _ _ = r
  have hv : leafValue r.1 ≡ leafSum (leaves t.width p f) [ZMOD 2 ^ t.width] :=
    hr ▸ leafValue_treeReduce (fun _ _ => intOf_wrapped t _) _ _ (length_leaves ht p f)
  have hf : r.2 = 0#7 := hr ▸ treeReduce_noFlags (fun _ _ => rfl) _ _
  obtain ⟨_ | ⟨_, x⟩, fl⟩ := r <;> obtain rfl : fl = 0#7 := hf
  · simp [← hv.eq, leafValue]
  · simp [intInto_wraps, ← hv.eq, leafValue]

/-! ### No active element -/

theorem pairUp_none {α : Type} (comb : α → α → α × Flags) : ∀ l : List (Option (Bool × α)), (∀ x ∈ l, x = none) →
    (∀ x ∈ (pairUp comb l).1, x = none) ∧ (pairUp comb l).2 = 0#7
  | [], h | [_], h => ⟨h, rfl⟩
  | x :: y :: l, h => by
    obtain ⟨rfl, rfl, hl⟩ : x = none ∧ y = none ∧ ∀ x ∈ l, x = none := by simpa using h
    simpa [pairUp] using pairUp_none comb l hl

theorem treeReduce_none {α : Type} (comb : α → α → α × Flags) : ∀ (k : Nat) (l : List (Option (Bool × α))), (∀ x ∈ l, x = none) →
    treeReduce comb k l = (none, 0#7)
  | 0, l, h => by cases l <;> simp_all [treeReduce]
  | k + 1, l, h => by
    obtain ⟨h1, h2⟩ := pairUp_none comb l h
    simp [treeReduce, h2, treeReduce_none comb k _ h1]

/-- With no active element a reduction gives its identity and no flag (R174). -/
theorem bitTree_identity {w : Nat} {p : Pred} (h : ∀ i, i < 2048 / w → active p w i = false) (comb : Nat → Nat → Nat × Flags)
    (fin : Nat → Nat × Flags) (id : Nat) (g : Nat → Nat) : bitTree w comb fin id (leaves w p g) = (id, 0#7) := by
  have hn : ∀ x ∈ leaves w p g, x = none := by
    simp only [leaves, List.mem_map, List.mem_range]
    rintro x ⟨i, hi, rfl⟩
    simp [h i hi]
  unfold bitTree
  rw [treeReduce_none comb _ _ hn]

/-- Settles O22: the units by what each writes to element 0; the tree by what its levels keep. -/
theorem vectorReductions : Obligations.VectorReductions := by
  unfold Obligations.VectorReductions
  refine ⟨fun d s1 s2 p t m => ⟨?_, ?_, ?_, ?_, ?_, fun ht => ⟨?_, ?_⟩, fun ht => ?_, ?_, fun ht hf => ?_⟩, fun t p f ht => ⟨?_, ?_, ?_⟩⟩
  · exact vScalar_redMinMax fun _ => rfl
  · exact vScalar_redMinMax fun _ => rfl
  · exact vScalar_redLogic fun _ => rfl
  · exact vScalar_redLogic fun _ => rfl
  · exact vScalar_redLogic fun _ => rfl
  · exact vScalar_vredAdd_int ht
  · exact vScalar_vdot_int ht
  · exact vScalar_vredAdd_float ht
  · exact vScalar_vdot_f64
  · exact vScalar_vdot_f32 ht hf
  · rw [iTreeSum_eq ht, leafSum_leaves]
  · rw [iTreeSum_eq ht]
  · exact fun comb fin id g h => bitTree_identity h comb fin id g

end Sys2Proof.Proofs
end

section
/-! PROOF. Active and inactive elements, and the units that make predicates (R84, R153, R154, R168 to R171). -/

namespace Sys2Proof.Proofs
open Sys2Proof Sys2Proof.Machine Sys2Proof.Laws

/-! ### Elements of a packed vector -/

theorem packFrom_digit (w : Nat) : ∀ (es : List Nat) (i : Nat), packFrom w es / 2 ^ (w * i) % 2 ^ w = es.getD i 0 % 2 ^ w
  | [], i => by simp [packFrom]
  | e :: es, 0 => by simp [packFrom]
  | e :: es, i + 1 => by
    have hd : (e % 2 ^ w + 2 ^ w * packFrom w es) / 2 ^ w = packFrom w es := by
      rw [Nat.add_mul_div_left _ _ (by positivity), Nat.div_eq_of_lt (Nat.mod_lt _ (by positivity)), zero_add]
    rw [packFrom, Nat.mul_succ, Nat.add_comm (w * i), pow_add, ← Nat.div_div_eq_div_mul, hd, packFrom_digit w es i]
    rfl

/-- An element of a packed vector is the value packed there, cut to its width (R153). -/
theorem elem_pack {w i : Nat} (es : List Nat) (hi : i < 2048 / w) : elem (pack w es) w i = es.getD i 0 % 2 ^ w := by
  have hw : w * i + w ≤ 2048 := by
    have := (Nat.le_div_iff_mul_le (Nat.pos_of_ne_zero (by rintro rfl; simp at hi))).1 hi
    rwa [Nat.mul_comm, Nat.mul_succ] at this
  rw [elem, pack, BitVec.toNat_ofNat, ← packFrom_digit w es i]
  obtain ⟨k, hk⟩ := Nat.exists_eq_add_of_le hw
  rw [hk, add_assoc, pow_add 2 (w * i), Nat.mod_mul_right_div_self, Nat.mod_mod_of_dvd _ (pow_dvd_pow 2 (Nat.le_add_right w k))]

/-! ### Unions of flags -/

theorem foldl_or_getLsbD {α : Type} {n : Nat} (g : α → BitVec n) (b : Nat) (l : List α) (z : BitVec n) :
    (l.foldl (fun a e => a ||| g e) z).getLsbD b = (z.getLsbD b || l.any fun e => (g e).getLsbD b) := by
  induction l generalizing z with
  | nil => simp
  | cons e l ih => simp [ih, Bool.or_assoc]

/-! ### Active and inactive elements -/

section
variable {w i : Nat} {p : Pred} {old : Vec} {f : Nat → Nat × Flags}

theorem elem_mapActive (hi : i < 2048 / w) :
    elem (mapActive w p old f).1 w i = (if active p w i then (f i).1 else elem old w i) % 2 ^ w := by
  rw [mapActive]
  dsimp only
  rw [elem_pack _ hi]
  simp [count, hi, apply_ite Prod.fst]

/-- The flags of a result are those of its active elements (R84). -/
theorem flags_mapActive (b : Nat) : (mapActive w p old f).2.getLsbD b = true ↔
    ∃ j, j < 2048 / w ∧ active p w j = true ∧ (f j).2.getLsbD b = true := by
  rw [mapActive]
  dsimp only
  rw [foldl_or_getLsbD]
  simp only [count, BitVec.getLsbD_zero, Bool.false_or, List.any_map, List.any_eq_true, List.mem_range, Function.comp_apply]
  refine exists_congr fun j => and_congr_right fun _ => ?_
  cases active p w j <;> simp

end

/-! ### Units that make predicates -/

section
variable {s u v : State}

theorem exec_vcmp {q p : PReg} {c : VCond} {s1 s2 : VReg} {t : ElemType} {a b : Vec} (hs : Runs s) (hr : VReads [s1, s2] (begun s) [a, b] u)
    (hw : writeP q (predFrom t.width fun i => active (u.p p) t.width i && (vCompare c t (elem a t.width i) (elem b t.width i)).1) u = .ok ((), v)) :
    exec (.vcmp q c s1 s2 p t) s = .next (retired s (raised v ((List.range (2048 / t.width)).foldl (fun fl i =>
      if active (u.p p) t.width i then fl ||| (vCompare c t (elem a t.width i) (elem b t.width i)).2 else fl) 0#7))) := by
  obtain ⟨x, h1, h2⟩ := vReads_two hr
  refine unit_next hs ?_
  rw [U_bind_ok h1, U_bind_ok h2, U_bind_ok (readP_apply p u)]
  exact (U_bind_ok hw).trans (U_bind_ok (raiseFlags_apply _ v))

theorem exec_whilePred {q : PReg} {l un : Bool} {s1 s2 : GReg} {t : ElemType} {a b : Word} (hs : Runs s) (hr : Reads [s1, s2] (begun s) [a, b] u)
    (hw : writeP q (predFrom t.width fun i =>
      if l then decide ((if un then (a.toNat : Int) else a.toInt) + i ≤ if un then (b.toNat : Int) else b.toInt)
      else decide ((if un then (a.toNat : Int) else a.toInt) + i < if un then (b.toNat : Int) else b.toInt)) u = .ok ((), v)) :
    exec (.whilePred q l un s1 s2 t) s = .next (retired s v) := by
  obtain ⟨x, h1, h2⟩ := reads_two hr
  refine unit_next hs ?_
  rw [U_bind_ok h1, U_bind_ok h2]
  exact U_bind_ok hw

/-- PLOG combines two predicates under a third (R170). -/
theorem unit_pLogic {q s1 s2 g : PReg} {f : Pred → Pred → Pred} (hs : Runs s)
    (hw : writeP q (f ((begun s).p s1) ((begun s).p s2) &&& (begun s).p g) (begun s) = .ok ((), v)) :
    runIn (pLogic q s1 s2 g f) s = .next (retired s v) := by
  refine unit_next hs ?_
  unfold pLogic
  rw [U_bind_ok (readP_apply s1 _), U_bind_ok (readP_apply s2 _), U_bind_ok (readP_apply g _)]
  exact U_bind_ok hw

theorem exec_vwid {d : GReg} (hs : Runs s) (hw : Writes d 2048#64 (begun s) u) : exec (.vwid d) s = .next (retired s u) :=
  unit_next hs (U_bind_ok hw)

end

/-- Settles O17: elements and flags of a result by what is packed, then each unit by what it writes. -/
theorem vectorPredicates : Obligations.VectorPredicates := by
  unfold Obligations.VectorPredicates
  refine ⟨fun w i p old f _ hi => ⟨fun ha => ?_, fun ha => ?_, flags_mapActive⟩, ?_, ?_, ?_, ?_⟩
  · rw [elem_mapActive hi, active, ha, if_pos rfl]
  · rw [elem_mapActive hi, active, ha, if_neg Bool.false_ne_true, elem, Nat.mod_mod]
  · exact fun q p c s1 s2 t s u v a b hs hr hw => exec_vcmp hs hr hw
  · exact fun q l un s1 s2 t s u v a b hs hr hw => exec_whilePred hs hr hw
  · exact fun q s1 s2 g s v hs => ⟨unit_pLogic (f := fun a b => a &&& b) hs, unit_pLogic (f := fun a b => a ||| b) hs,
      unit_pLogic (f := fun a b => a ^^^ b) hs, unit_pLogic (f := fun a b => a &&& ~~~b) hs⟩
  · exact fun d s u hs hw => exec_vwid hs hw

end Sys2Proof.Proofs
end

section
/-! PROOF. Moving elements about (R65, R177 to R180). -/

namespace Sys2Proof.Proofs
open Sys2Proof Sys2Proof.Machine Sys2Proof.Laws

section
variable {d s1 s2 : VReg} {p : PReg} {t : ElemType} {s u v z : State} {a b : Vec}

/-- A unit that ends by writing a vector, without the normaliser or an interval, retires. -/
theorem unit_vFinish {m : U After} {r : Vec × Flags} {pr : Pred} (hs : Runs s) (hm : m (begun s) = vFinish d pr r false 0 u)
    (hw : VWrites d r.1 pr u v) : runIn m s = .next (vretired s (raised v r.2) false 0) :=
  unit_vector hs (hm.trans (vFinish_ok hw))

theorem exec_vbcast {g : GReg} {x : Word} {r : Vec × Flags} (hs : Runs s) (hr : Reads [g] (begun s) [x] u)
    (he : r = mapActive t.width (u.p p) (u.v d) fun _ => (laneOf t (x.toNat % 2 ^ t.width), 0#7)) (hw : VWrites d r.1 (u.p p) u v) :
    exec (.vbcast d g p t) s = .next (vretired s (raised v r.2) false 0) := by
  subst he
  refine unit_vFinish hs ?_ hw
  rw [U_bind_ok (reads_one hr), U_bind_ok (oldV_apply d u), U_bind_ok (readP_apply p u)]
  rfl

theorem exec_vsel (hs : Runs s) (hr : VReads [s1, s2] (begun s) [a, b] u)
    (hw : VWrites d (pack t.width ((List.range (2048 / t.width)).map fun i =>
      laneOf t (if active (u.p p) t.width i then elem a t.width i else elem b t.width i))) (u.p p) u v) :
    exec (.vsel d s1 s2 p t) s = .next (retired s (raised v 0#7)) := by
  obtain ⟨x, h1, h2⟩ := vReads_two hr
  refine unit_vFinish (r := (_, 0#7)) hs ?_ hw
  rw [U_bind_ok h1, U_bind_ok h2, U_bind_ok (readP_apply p u)]
  rfl

/-- A rearrangement writes, in each active element, what its function gives for that place (R178). -/
theorem unit_vMove {g : Nat → Vec → Vec → Nat → Nat} {h : Nat → Nat × Flags} (hs : Runs s) (hr : VReads [s1, s2] (begun s) [a, b] u)
    (hg : ∀ i, h i = (laneOf t (g t.width a b i), 0#7)) (hw : VWrites d (mapActive t.width (u.p p) (u.v d) h).1 (u.p p) u v) :
    runIn (vMove d s1 s2 p t g) s = .next (vretired s (raised v (mapActive t.width (u.p p) (u.v d) h).2) false 0) := by
  obtain ⟨x, h1, h2⟩ := vReads_two hr
  refine unit_vFinish hs ?_ hw
  obtain rfl : h = _ := funext hg
  unfold vMove
  rw [U_bind_ok h1, U_bind_ok h2, U_bind_ok (oldV_apply d u), U_bind_ok (readP_apply p u)]
  rfl

theorem exec_vext {g k : GReg} {x : Word} (hs : Runs s) (hv : VReads [s1] (begun s) [a] u) (hr : Reads [k] u [x] v)
    (hw : Writes g (if x.toNat < 2048 / t.width then BitVec.ofInt 64 (intOf t (laneOf t (elem a t.width x.toNat))) else 0#64) v z) :
    exec (.vext g s1 k t) s = .next (retired s z) := by
  refine unit_next hs ?_
  rw [U_bind_ok (vReads_one hv), U_bind_ok (reads_one hr)]
  exact U_bind_ok hw

section
variable {g k : GReg} {y x : Word}

/-- VINS beyond the last element writes nothing (R179). -/
theorem exec_vins_beyond (hs : Runs s) (hr : Reads [g, k] (begun s) [y, x] u) (hx : 2048 / t.width ≤ x.toNat) :
    exec (.vins d g k t) s = .next (retired s u) := by
  obtain ⟨w, h1, h2⟩ := reads_two hr
  refine unit_next hs ?_
  rw [U_bind_ok h1, U_bind_ok h2]
  dsimp only
  rw [count, if_neg (Nat.not_lt.2 hx)]
  rfl

theorem exec_vins (hs : Runs s) (hr : Reads [g, k] (begun s) [y, x] u) (hx : x.toNat < 2048 / t.width)
    (hw : VWrites d (pack t.width ((List.range (2048 / t.width)).map fun i =>
      if i = x.toNat then laneOf t (y.toNat % 2 ^ t.width) else elem (u.v d) t.width i)) (BitVec.allOnes 256) u v) :
    exec (.vins d g k t) s = .next (retired s v) := by
  obtain ⟨w, h1, h2⟩ := reads_two hr
  refine unit_next hs ?_
  rw [U_bind_ok h1, U_bind_ok h2]
  dsimp only
  rw [count, if_pos hx, U_bind_ok (oldV_apply d u)]
  exact U_bind_ok hw

end

section
variable {g : GReg} {key ctl : Word} {r : Vec × Flags}

/-- VSHUF with a number of bits that is no width of the element traps (R180). -/
theorem exec_vshuf_range (hs : Runs s) (hr : Reads [g, g + 1#5] (begun s) [key, ctl] u)
    (hk : ctl.toNat % 128 < 8 ∨ t.width < ctl.toNat % 128) :
    exec (.vshuf d s1 g p t) s = .next (trapped s { cause := .operandRange }) := by
  obtain ⟨w, h1, h2⟩ := reads_two hr
  have hb : (decide (ctl.toNat % 128 < 8) || decide (ctl.toNat % 128 > t.width)) = true := by simpa using hk
  refine runIn_trap hs ?_
  rw [U_bind_ok h1, U_bind_ok h2]
  exact U_bind_error (by rw [hb, stopIf_true])

theorem exec_vshuf (hs : Runs s) (hr : Reads [g, g + 1#5] (begun s) [key, ctl] u) (hl : 8 ≤ ctl.toNat % 128)
    (hu : ctl.toNat % 128 ≤ t.width) (hv : VReads [s1] u [a] v)
    (he : r = mapActive t.width (v.p p) (v.v d) fun i => ((shufK key (BitVec.ofNat 64 (elem a t.width i)) (ctl.toNat % 128)).toNat, 0#7))
    (hw : VWrites d r.1 (v.p p) v z) : exec (.vshuf d s1 g p t) s = .next (vretired s (raised z r.2) false 0) := by
  subst he
  obtain ⟨w, h1, h2⟩ := reads_two hr
  have hb : (decide (ctl.toNat % 128 < 8) || decide (ctl.toNat % 128 > t.width)) = false := by simp [hl, hu]
  refine unit_vFinish hs ?_ hw
  rw [U_bind_ok h1, U_bind_ok h2, hb, U_bind_ok (stopIf_false _ _ u), U_bind_ok (vReads_one hv), U_bind_ok (oldV_apply d v), U_bind_ok (readP_apply p v)]
  rfl

end

end

/-- Settles O20: each unit by what it reads and writes; VPERM and VZIP as rearrangements. -/
theorem vectorMovement : Obligations.VectorMovement := by
  unfold Obligations.VectorMovement
  refine ⟨⟨fun d s1 p t => ⟨direct_of fun _ => rfl, direct_of fun _ => rfl⟩, ?_, ?_⟩, ?_, ?_, ?_, ?_⟩
  · exact fun d s1 p t s u v x hs hr hw => exec_vbcast hs hr rfl hw
  · exact fun d s1 s2 p t s u v a b hs hr hw => exec_vsel hs hr hw
  · refine fun d s1 s2 p t s u v a b hs hr => ⟨fun hw => unit_vMove hs hr (fun _ => rfl) hw, fun hw => unit_vMove hs hr (fun i => ?_) hw⟩
    rw [apply_ite (fun x => elem x t.width (i / 2))]
  · exact fun d s2 s1 t s u v z a x hs hv hr hw => exec_vext hs hv hr hw
  · exact fun d s1 s2 t s u v y x hs hr => ⟨exec_vins_beyond hs hr, exec_vins hs hr⟩
  · exact fun d s1 s2 p t s u v z key ctl a hs hr => ⟨exec_vshuf_range hs hr, fun hl hu hv hw => exec_vshuf hs hr hl hu hv rfl hw⟩

end Sys2Proof.Proofs
end

section
/-! PROOF. What ends the waits of contexts (R85, R98, R101, R103, R114, R126, R128, R135, R158). -/

namespace Sys2Proof.Proofs
open Sys2Proof Sys2Proof.Machine Sys2Proof.Laws

/-! ### Waits that a context looks at itself -/

section
variable {s : State} {k x : Nat} {c : CoreId} {y : CtxId} {w : Wait}

/-- A context whose wait is over is READY from the next tick; another looks again then, and its trick ends if the wait cuts it (R98, R135). -/
theorem lookAt_blocked (self : Instr) (h : (s.ctx k x).life = .blocked w) : lookAt s k x self =
    if waitOver s k x w then s.ready k x else (if waitCuts w then s.endTrick k x else s).postPoll 1 self := by
  rw [lookAt, h]

theorem exec_intervalEnd {til : Nat} (h : (s.ctx c.toNat y.toNat).life = .blocked (.interval til)) :
    exec (.blockedIntervalEnd c y) s =
      .next (if til ≤ s.tick + 1 then s.ready c.toNat y.toNat else s.postPoll 1 (.blockedIntervalEnd c y)) := by
  change execBlockedIntervalEnd c y s = _
  rw [execBlockedIntervalEnd, h]
  dsimp only
  rw [lookAt_blocked _ h]
  exact congrArg _ (if_congr decide_eq_true_iff rfl rfl)

theorem exec_farRegEnd {d : Nat} (h : (s.ctx c.toNat y.toNat).life = .blocked (.farReg d)) :
    exec (.blockedIntervalEnd c y) s = .next (if ∃ e ∈ (s.ctx c.toNat y.toNat).farq, e.d.toNat = d
      then s.postPoll 1 (.blockedIntervalEnd c y) else s.ready c.toNat y.toNat) := by
  change execBlockedIntervalEnd c y s = _
  rw [execBlockedIntervalEnd, h]
  dsimp only
  rw [lookAt_blocked _ h]
  refine congrArg _ ((if_congr ?_ rfl rfl).trans (ite_not ..))
  change (!(s.ctx c.toNat y.toNat).farq.any fun e => e.d.toNat == d) = true ↔ _
  simp

theorem exec_touchEnd {loads stores : List Nat} (h : (s.ctx c.toNat y.toNat).life = .blocked (.touch loads stores))
    (hf : (s.core c.toNat).touched y.toNat loads stores = false) :
    exec (.blockedIntervalEnd c y) s = .next (s.ready c.toNat y.toNat) := by
  change execBlockedIntervalEnd c y s = _
  rw [execBlockedIntervalEnd, h]
  dsimp only
  rw [lookAt_blocked _ h, waitOver, hf]
  rfl

theorem exec_queueUnblock {pops pushes : List Nat} (h : (s.ctx c.toNat y.toNat).life = .blocked (.queueReg pops pushes)) :
    exec (.queueRegisterUnblock c y) s = .next (if waitOver s c.toNat y.toNat (.queueReg pops pushes) then s.ready c.toNat y.toNat
      else (s.endTrick c.toNat y.toNat).postPoll 1 (.queueRegisterUnblock c y)) := by
  change execQueueRegisterUnblock c y s = _
  rw [execQueueRegisterUnblock, h]
  dsimp only
  rw [lookAt_blocked _ h]
  rfl

/-- A wait on queue registers ends when the unit's pops and pushes can all be made (R135). -/
theorem waitOver_queueReg {pops pushes : List Nat} : waitOver s k x (.queueReg pops pushes) = true ↔ ∀ i < 8,
    pops.count i ≤ (tabGet (s.core k).q i []).length ∧
      ((s.core k).queueCount i + pushes.count i ≤ queueDepthOf i ∨ pushes.count i = 0) := by
  simp [waitOver]

theorem waitOver_pop {q : Nat} (hq : q < 8) : waitOver s k x (.queueReg [q] []) = true ↔ tabGet (s.core k).q q [] ≠ [] := by
  rw [waitOver_queueReg, ← List.length_pos_iff]
  refine ⟨fun h => by simpa [Nat.succ_le_iff] using (h q hq).1, fun h i _ => ⟨?_, .inr rfl⟩⟩
  by_cases e : q = i
  · subst e; simpa [Nat.succ_le_iff] using h
  · simp [e]

theorem waitOver_push {q : Nat} (hq : q < 8) :
    waitOver s k x (.queueReg [] [q]) = true ↔ (s.core k).queueCount q + 1 ≤ queueDepthOf q := by
  rw [waitOver_queueReg]
  refine ⟨fun h => by simpa using (h q hq).2, fun h i _ => ⟨Nat.zero_le _, ?_⟩⟩
  by_cases e : q = i
  · subst e; exact .inl (by simpa using h)
  · exact .inr (by simp [e])

/-- A context that the normaliser has served waits for what is left of the interval of its unit (R85, R158). -/
theorem exec_forfeitEnd {e : Nat} (h : (s.ctx c.toNat y.toNat).life = .blocked .normaliser)
    (hn : (c.toNat, y.toNat) ∉ (s.quad (quadOf c.toNat)).norm) (he : (s.ctx c.toNat y.toNat).normEnd = some e) :
    exec (.forfeitEnd c y) s = .next (if e + 1 + (s.ctx c.toNat y.toNat).interval ≤ s.tick + 1 then s.ready c.toNat y.toNat
      else s.block c.toNat y.toNat (.interval (e + 1 + (s.ctx c.toNat y.toNat).interval))) := by
  change execForfeitEnd c y s = _
  rw [execForfeitEnd]
  dsimp only
  rw [if_neg (not_not.2 h), if_neg (by simpa using hn), he, apply_ite Host.Outcome.next]

end

/-! ### Waits that end with a reply -/

section
variable {s u : State} {k x : Nat} {d : GReg} {w : Word}

/-- Retiring outside tricks leaves open what a context waits for. -/
theorem life_retireUnit_out (s : State) (k x : Nat) (i : UnitInfo) :
    ((s.retireUnit k x i false none).ctx k x).life = (s.ctx k x).life := by
  change ((State.postStrips _ k x _).ctx k x).life = _
  rw [(stripsOut_postStrips _ k x _).ctx]
  simp only [State.ctx, trumpGone_core, core_setCore, core_ctx_setCtx]

/-- A reply that writes its register leaves open what its context waits for. -/
theorem life_replyWrites (h : ReplyWrites s k x d w u) : (u.ctx k x).life = (s.ctx k x).life := by
  have hl := local_writeG h
  have hm : u.me.life = (s.ctx k x).life := by rw [hl.me]; rfl
  rwa [State.me, hl.cur] at hm

/-- A waiting unit whose reply writes its register retires (R98, R190). -/
theorem completeUnit_writes (hp : (s.ctx k x).life ≠ .parked) (h : ReplyWrites s k x d w u) :
    completeUnit s k x (do writeG d w; pure .next) = replied s k x u := by
  have hm : (do writeG d w; pure After.next : U After).run { s with cur := (k, x) } = .ok (.next, u) := U_bind_ok h
  have hl : ((u.retireUnit k x (s.ctx k x).unit false none).ctx k x).life ≠ .parked := by
    rwa [life_retireUnit_out, life_replyWrites h]
  rw [completeUnit]
  dsimp only
  rw [hm]
  dsimp only [finishUnit]
  rw [if_neg (by simp)]
  exact if_neg hl

end

section
variable {s u : State} {c : CoreId} {y : CtxId} {m : BitVec 11} {d : GReg}

theorem exec_waitRelease {l : Option Nat} (h : (s.ctx c.toNat y.toNat).life = .blocked (.helpers m l d)) (hm : liveOf s c.toNat m = 0#64)
    (hw : ReplyWrites s c.toNat y.toNat d 0#64 u) : exec (.waitRelease c y) s = .next (replied s c.toNat y.toNat u) := by
  change execWaitRelease c y s = _
  rw [execWaitRelease, h]
  dsimp only
  rw [if_pos hm, completeUnit_writes (by simp [h]) hw]

theorem exec_waitLimitExpiry {til : Nat} (h : (s.ctx c.toNat y.toNat).life = .blocked (.helpers m (some til) d)) (ht : til ≤ s.tick)
    (hw : ReplyWrites s c.toNat y.toNat d (liveOf s c.toNat m) u) :
    exec (.waitLimitExpiry c y) s = .next (replied s c.toNat y.toNat u) := by
  change execWaitLimitExpiry c y s = _
  rw [execWaitLimitExpiry, h]
  dsimp only
  rw [if_pos ht, completeUnit_writes (by simp [h]) hw]

end

/-! ### Supervisors, helpers, task lanes, the normaliser -/

section
variable {s : State} {c : CoreId}

theorem exec_supervisorWake (h : (s.ctx c.toNat 15).life = .idle) (hq : (s.core c.toNat).trapq ≠ []) (he : s.ended c.toNat = false) :
    exec (.supervisorWake c) s = .next (if s.tick < (s.core c.toNat).svIdle then s.post 1 (.supervisorWake c)
      else s.setCore c.toNat { s.core c.toNat with wakeAt := some (s.tick + 1) }) := by
  change execSupervisorWake c s = _
  rw [execSupervisorWake]
  dsimp only
  have hn : ¬ (((s.core c.toNat).ctx 15).life ≠ .idle ∨ (s.core c.toNat).trapq.isEmpty = true ∨ s.ended c.toNat = true) := by
    rw [State.ctx] at h
    simp [h, hq, he]
  rw [if_neg hn, apply_ite Host.Outcome.next]

theorem exec_helperTaken {y : CtxId} {n : Nat} (h : (s.ctx c.toNat y.toNat).life = .blocked (.helper n)) :
    exec (.helperTaken c y) s =
      .next (if helperIdle s c.toNat n then s.ready c.toNat y.toNat else s.postPoll 1 (.helperTaken c y)) := by
  change execHelperTaken c y s = _
  rw [execHelperTaken, h, apply_ite Host.Outcome.next]

theorem exec_taskLaneRetire (h : (s.ctx c.toNat 0).life = .blocked .tasks) :
    exec (.taskLaneRetire c) s = .next (if tasksIdle s c.toNat then s.ready c.toNat 0 else s.postPoll 1 (.taskLaneRetire c)) := by
  change execTaskLaneRetire c s = _
  rw [execTaskLaneRetire, h, apply_ite Host.Outcome.next]

theorem exec_normaliserService {q : QuadId} {j i : Nat} {rest : List (Nat × Nat)} (h : (s.quad q.toNat).norm = (j, i) :: rest) :
    exec (.normaliserService q) s = .next
      ((s.modQuad q.toNat fun u => { u with norm := rest, normFree := max s.tick (s.quad q.toNat).normFree + 7 + 1 }).modCtx j i
        fun w => { w with normEnd := some (max s.tick (s.quad q.toNat).normFree + 7) }) := by
  change execNormaliserService q s = _
  rw [execNormaliserService]
  dsimp only
  rw [h]

end

/-- Settles O30: each event by what its context waits for, and a WAIT by the reply that retires it. -/
theorem coreEvents : Obligations.CoreEvents := by
  unfold Obligations.CoreEvents
  refine fun s c x => ⟨exec_supervisorWake, fun til => exec_intervalEnd, fun d => exec_farRegEnd, fun loads stores => exec_touchEnd,
    fun q hq h => ?_, fun q hq h => ?_, fun e => exec_forfeitEnd, fun m l d u => exec_waitRelease, fun m til d u => exec_waitLimitExpiry,
    fun n => exec_helperTaken, exec_taskLaneRetire, fun q j i rest => exec_normaliserService⟩
  · rw [exec_queueUnblock h]
    exact congrArg _ ((if_congr (waitOver_pop hq) rfl rfl).trans (ite_not ..))
  · rw [exec_queueUnblock h]
    exact congrArg _ (if_congr (waitOver_push hq) rfl rfl)

end Sys2Proof.Proofs
end

section
/-! PROOF. What the vector units that only compute leave alone (R97, R154, R158). -/

namespace Sys2Proof.Proofs
open Sys2Proof Sys2Proof.Machine Sys2Proof.Laws

/-! ### Vector registers that no stream is bound to -/

/-- A vector register of the issuing context takes a value (R154). -/
def vWritten (s : State) (d : VReg) (x : Vec) : State := s.modCtx s.cur.1 s.cur.2 fun v => { v with v := tabSet v.v d.toNat x }

section
variable {s : State} {k : VReg}

theorem readV_unbound (h : Unbound s k) : readV k s = .ok (s.v k, s) := by
  have hn : tabFind (s.ctx s.cur.1 s.cur.2).streams k.toNat = none := h
  rw [readV, U_bind_ok (curCtx_apply s), hn]
  rfl

theorem writeV_unbound (x : Vec) (p : Pred) (h : Unbound s k) : VWrites k x p s (vWritten s k x) := by
  have hn : tabFind (s.ctx s.cur.1 s.cur.2).streams k.toNat = none := h
  rw [VWrites, writeV, U_bind_ok (curCtx_apply s), hn]
  rfl

theorem unbound_begun (h : Unbound s k) : Unbound (begun s) k := by rwa [Unbound, begun_streams]

theorem vReads_unbound {ks : List VReg} (h : ∀ k ∈ ks, Unbound s k) : VReads ks s (ks.map s.v) s := by
  induction ks with
  | nil => exact ⟨rfl, rfl⟩
  | cons k ks ih =>
    obtain ⟨hk, hks⟩ := List.forall_mem_cons.1 h
    exact ⟨_, _, _, readV_unbound hk, rfl, ih hks⟩

end

/-! ### Until a vector unit retires -/

/-- What a vector unit with destination `d` does until it retires: of its core it changes its own context alone, and there the running trick,
its destination and CFLAGS. -/
structure VectorComputed (d : VReg) (s t : State) : Prop where
  loc : Local s t
  mine : t.mine = { s.mine with ctxs := t.mine.ctxs }
  me : t.me = { s.me with running := t.me.running, v := t.me.v, cflags := t.me.cflags }
  v : ∀ k, k ≠ d → t.v k = s.v k

section
variable {d : VReg} {s t u : State}

theorem VectorComputed.refl (d : VReg) (s : State) : VectorComputed d s s := ⟨.refl s, rfl, rfl, fun _ _ => rfl⟩

theorem VectorComputed.trans (h : VectorComputed d s t) (g : VectorComputed d t u) : VectorComputed d s u :=
  ⟨h.loc.trans g.loc, by rw [g.mine, h.mine], by rw [g.me, h.me], fun k hk => (g.v k hk).trans (h.v k hk)⟩

/-- An update of the issuing context in the fields of a vector unit. -/
theorem vectorComputed_modCtx (s : State) (f : Ctx → Ctx)
    (hf : f s.me = { s.me with running := (f s.me).running, v := (f s.me).v, cflags := (f s.me).cflags })
    (hv : ∀ k : VReg, k ≠ d → tabGet (f s.me).v k.toNat 0#2048 = s.v k) : VectorComputed d s (s.modCtx s.cur.1 s.cur.2 f) := by
  refine ⟨local_modCtx s f ?_, ?_, ?_, fun k hk => ?_⟩
  · rw [hf]
  · rw [mine_modCtx]; rfl
  · rw [me_modCtx]; exact hf
  · rw [State.v, me_modCtx]; exact hv k hk

theorem vectorComputed_begun (d : VReg) (s : State) : VectorComputed d s (begun s) := by
  rcases begun_cases s with h | ⟨r, h⟩ <;> rw [h]
  · exact .refl d s
  · exact vectorComputed_modCtx s _ rfl fun _ _ => rfl

theorem vectorComputed_vWritten (s : State) (d : VReg) (x : Vec) : VectorComputed d s (vWritten s d x) :=
  vectorComputed_modCtx s _ rfl fun _ hk => tabGet_tabSet_other _ _ _ fun e => hk (BitVec.eq_of_toNat_eq e)

theorem vectorComputed_raised (d : VReg) (s : State) (f : Flags) : VectorComputed d s (raised s f) :=
  vectorComputed_modCtx s _ rfl fun _ _ => rfl

/-- A trick has begun, the destination is written, and flags are raised. -/
theorem vectorComputed_result (s : State) (d : VReg) (x : Vec) (f : Flags) : VectorComputed d s (raised (vWritten (begun s) d x) f) :=
  (vectorComputed_begun d s).trans ((vectorComputed_vWritten _ d x).trans (vectorComputed_raised d _ f))

end

/-! ### From its retirement on -/

section
variable {d : VReg} {s t u : State}

theorem vectorFrame_retired (h : VectorComputed d s u) : VectorFrame d s (retired s u) := by
  obtain ⟨pc, rep, e⟩ := retired_eq s u h.loc.cur
  have hl := local_retired h.loc
  obtain ⟨h1, h2, h3, h4, h5, h6, h7, h8, h9, h10, h11, h12, h13⟩ := hl.only
  have hm : (retired s u).me = _ := (congrArg State.me e).trans (me_modCtx u _)
  have hu : s.unitOf = s.me.unit := rfl
  refine ⟨h1, h2, h4, h5, h6, h7, h8, h9, h10, h11, h12, hl.cur, fun q => ?_, h13, hl.others, ?_, fun k hk => ?_, ?_⟩
  · rw [State.quad, h3]; rfl
  · rw [e, mine_modCtx, h.mine]; rfl
  · rw [State.v, hm]; exact h.v k hk
  · rw [hm, h.me, hu]

/-- What the context waits for after its unit is outside the frame (R85, R97, R103, R158). -/
theorem vectorFrame_modCtx {f : Ctx → Ctx} (h : VectorFrame d s t)
    (hf : ∀ v, f v = { v with life := (f v).life, interval := (f v).interval, normEnd := (f v).normEnd }) :
    VectorFrame d s (t.modCtx s.cur.1 s.cur.2 f) := by
  obtain ⟨h1, h2, h3, h4, h5, h6, h7, h8, h9, h10, h11, hc, hq, hj, ho, hmine, hv, hme⟩ := h
  rw [← hc] at hj ⊢
  refine ⟨h1, h2, h3, h4, h5, h6, h7, h8, h9, h10, h11, hc, hq, fun j hk => ?_, fun y hy => ?_, ?_, fun k hk => ?_, ?_⟩
  · rw [core_modCtx_other _ _ _ (hc ▸ hk)]; exact hj j (hc ▸ hk)
  · rw [mine_modCtx, core_ctx_setCtx_other _ _ (hc ▸ hy)]; exact ho y hy
  · rw [mine_modCtx, hmine]; rfl
  · rw [State.v, me_modCtx, hf]; exact hv k hk
  · rw [me_modCtx, hf, hme]

theorem vectorFrame_norm {q : Nat} {f : Quad → Quad} (h : VectorFrame d s t) (hf : ∀ u, f u = { u with norm := (f u).norm }) :
    VectorFrame d s (t.modQuad q f) := by
  obtain ⟨h1, h2, h3, h4, h5, h6, h7, h8, h9, h10, h11, hc, hq, hrest⟩ := h
  refine ⟨h1, h2, h3, h4, h5, h6, h7, h8, h9, h10, h11, hc, fun r => ?_, hrest⟩
  by_cases hr : r = q
  · subst hr; rw [quad_modQuad, hf, hq]
  · rw [quad_modQuad_other _ _ hr]; exact hq r

theorem vectorFrame_block (w : Wait) (h : VectorFrame d s t) : VectorFrame d s (t.block s.cur.1 s.cur.2 w) := by
  have hb : VectorFrame d s (t.modCtx s.cur.1 s.cur.2 fun v => { v with life := .blocked w }) := vectorFrame_modCtx h fun _ => rfl
  rw [State.block]
  split
  · exact hb
  · exact hb

theorem vectorFrame_normalise (n : Nat) (h : VectorFrame d s t) : VectorFrame d s (t.normalise s.cur.1 s.cur.2 n) :=
  vectorFrame_norm (f := fun q => { q with norm := q.norm ++ [s.cur] })
    (vectorFrame_modCtx (f := fun v => { v with life := .forfeit 8, interval := n, normEnd := none }) h fun _ => rfl) fun _ => rfl

theorem vectorFrame_vretired (n : Bool) (x : Nat) (h : VectorComputed d s u) : VectorFrame d s (vretired s u n x) := by
  have hr := vectorFrame_retired h
  rw [vretired]
  split_ifs
  · exact vectorFrame_normalise x hr
  · exact hr
  · exact vectorFrame_block _ hr

end

/-! ### Units of one destination -/

/-- A computation writes a value to a vector register, raises flags and ends as a vector unit does. -/
def EndsVector (d : VReg) (m : U After) (s : State) : Prop := ∃ x f n e, m s = .ok (.vector n e, raised (vWritten s d x) f)

section
variable {d s1 s2 : VReg} {p : PReg} {t : ElemType} {m : BitVec 2} {s : State} {i : Instr} {c : U After}

theorem vectorFrame_of {u : State} (hs : Runs s) (hu : exec i s = .next u) (hi : exec i s = runIn c s) (hc : EndsVector d c (begun s)) :
    VectorFrame d s u := by
  obtain ⟨x, f, n, e, h⟩ := hc
  cases hu.symm.trans (hi.trans (unit_vector hs h))
  exact vectorFrame_vretired n e (vectorComputed_result s d x f)

theorem endsVector_vFinish (hd : Unbound s d) (pr : Pred) (r : Vec × Flags) (n : Bool) (e : Nat) : EndsVector d (vFinish d pr r n e) s :=
  ⟨r.1, r.2, n, e, vFinish_ok (writeV_unbound r.1 pr hd)⟩

theorem endsVector_vArith {srcs : List VReg} {g : FOp} {f : Bool → List Nat → Nat × Flags} {n : Nat} {b : Bool} (hd : Unbound s d)
    (hs : ∀ k ∈ srcs, Unbound s k) : EndsVector d (vArith d srcs p t m g f n b) s := by
  rw [EndsVector, vArith, U_bind_ok (vReads_mapM (vReads_unbound hs)), U_bind_ok (oldV_apply d s), U_bind_ok (readP_apply p s)]
  dsimp only
  split
  · rw [U_bind_ok (vSat_apply m s)]
    exact endsVector_vFinish hd ..
  · rw [U_bind_ok (vMode_apply m s), U_bind_ok (unitRnd_apply s)]
    exact endsVector_vFinish hd ..

theorem endsVector_vPure {srcs : List VReg} {f : List Nat → Nat × Flags} (hd : Unbound s d) (hs : ∀ k ∈ srcs, Unbound s k) :
    EndsVector d (vPure d srcs p t f) s := by
  rw [EndsVector, vPure, U_bind_ok (vReads_mapM (vReads_unbound hs)), U_bind_ok (oldV_apply d s), U_bind_ok (readP_apply p s)]
  exact endsVector_vFinish hd ..

/-- VLOG reads its destination too (R166). -/
theorem endsVector_vLogic {f : BitVec 64 → BitVec 64 → BitVec 64} (hd : Unbound s d) (h1 : Unbound s s1) : EndsVector d (vLogic d s1 p t f) s :=
  endsVector_vPure hd (by simp [h1, hd])

theorem endsVector_vSign {neg : Bool} (hd : Unbound s d) (h1 : Unbound s s1) : EndsVector d (vSign d s1 p t m neg) s := by
  rw [EndsVector, vSign, U_bind_ok (vSat_apply m s)]
  exact endsVector_vPure hd (by simpa using h1)

theorem endsVector_scanMinMax {b : Bool} (hd : Unbound s d) (h1 : Unbound s s1) : EndsVector d (scanMinMax d s1 p t b) s := by
  rw [EndsVector, scanMinMax, U_bind_ok (readV_unbound h1), U_bind_ok (oldV_apply d s), U_bind_ok (readP_apply p s)]
  exact endsVector_vFinish hd ..

theorem endsVector_vMove {f : Nat → Vec → Vec → Nat → Nat} (hd : Unbound s d) (h1 : Unbound s s1) (h2 : Unbound s s2) :
    EndsVector d (vMove d s1 s2 p t f) s := by
  rw [EndsVector, vMove, U_bind_ok (readV_unbound h1), U_bind_ok (readV_unbound h2), U_bind_ok (oldV_apply d s), U_bind_ok (readP_apply p s)]
  exact endsVector_vFinish hd ..

/-- VSEL (R177). -/
theorem vsel_frame {u : State} (hs : Runs s) (hd : Unbound s d) (h1 : Unbound s s1) (h2 : Unbound s s2)
    (hu : exec (.vsel d s1 s2 p t) s = .next u) : VectorFrame d s u := by
  refine vectorFrame_of hs hu rfl ?_
  rw [EndsVector, U_bind_ok (readV_unbound (unbound_begun h1)), U_bind_ok (readV_unbound (unbound_begun h2)), U_bind_ok (readP_apply p _)]
  exact endsVector_vFinish (unbound_begun hd) ..

theorem vscanAdd_frame {u : State} (hs : Runs s) (hd : Unbound s d) (h1 : Unbound s s1)
    (hu : exec (.vscanAdd d s1 p t m) s = .next u) : VectorFrame d s u := by
  refine vectorFrame_of hs hu rfl ?_
  rw [EndsVector, U_bind_ok (readV_unbound (unbound_begun h1)), U_bind_ok (oldV_apply d _), U_bind_ok (readP_apply p _)]
  dsimp only
  split
  · rw [U_bind_ok (vSat_apply m _)]
    exact endsVector_vFinish (unbound_begun hd) ..
  · rw [U_bind_ok (vMode_apply m _), U_bind_ok (unitRnd_apply _)]
    exact endsVector_vFinish (unbound_begun hd) ..

/-- A unit that writes element 0 alone (R174, R175). -/
theorem vScalar_frame {srcs : List VReg} {w : Nat} {f : State → List Vec → Nat × Flags} {norm : State → List Vec → Nat × Flags → Bool} {u : State}
    (hs : Runs s) (hu : exec i s = .next u) (hi : VScalar i d srcs p w f norm) (hd : Unbound s d) (h : ∀ k ∈ srcs, Unbound s k) :
    VectorFrame d s u := by
  have he := hi s _ _ _ hs (vReads_unbound fun k hk => unbound_begun (h k hk)) (writeV_unbound _ _ (unbound_begun hd))
  cases hu.symm.trans he
  exact vectorFrame_vretired _ _ (vectorComputed_result s d _ _)

theorem vdot_frame {u : State} (hs : Runs s) (hd : Unbound s d) (h1 : Unbound s s1) (h2 : Unbound s s2)
    (hu : exec (.vdot d s1 s2 p t m) s = .next u) : VectorFrame d s u := by
  have h : ∀ k ∈ [s1, s2, d], Unbound s k := by simp [h1, h2, hd]
  cases ht : t.isInt
  · by_cases hf : t = .f64
    · subst hf
      exact vScalar_frame hs hu vScalar_vdot_f64 hd h
    · exact vScalar_frame hs hu (vScalar_vdot_f32 ht hf) hd h
  · exact vScalar_frame hs hu (vScalar_vdot_int ht) hd h

theorem vredAdd_frame {u : State} (hs : Runs s) (hd : Unbound s d) (h1 : Unbound s s1)
    (hu : exec (.vredAdd d s1 p t m) s = .next u) : VectorFrame d s u := by
  have h : ∀ k ∈ [s1], Unbound s k := by simp [h1]
  cases ht : t.isInt
  · exact vScalar_frame hs hu (vScalar_vredAdd_float ht) hd h
  · exact vScalar_frame hs hu (vScalar_vredAdd_int ht) hd h

end

section
variable {d s1 s2 : VReg} {p : PReg} {t : ElemType} {m : BitVec 2} {s u : State} (hs : Runs s) (hd : Unbound s d) (h1 : Unbound s s1)
include hs hd h1

/-- Two sources and a rounding mode (R159, R162, R167, R175). -/
theorem vectorFrame_rounded (h2 : Unbound s s2) : ∀ mk ∈ [Instr.vadd, .vsub, .vmul, .vfma, .vdiv, .vsh, .vdot],
    exec (mk d s1 s2 p t m) s = .next u → VectorFrame d s u := by
  intro mk hm hu
  have bd := unbound_begun hd
  have hb : ∀ k ∈ [s1, s2], Unbound (begun s) k := by simp [unbound_begun h1, unbound_begun h2]
  have hb' : ∀ k ∈ [s1, s2, d], Unbound (begun s) k := by simp [unbound_begun h1, unbound_begun h2, bd]
  fin_cases hm
  · exact vectorFrame_of hs hu rfl (endsVector_vArith bd hb)
  · exact vectorFrame_of hs hu rfl (endsVector_vArith bd hb)
  · exact vectorFrame_of hs hu rfl (endsVector_vArith bd hb)
  · exact vectorFrame_of hs hu rfl (endsVector_vArith bd hb')
  · exact vectorFrame_of hs hu rfl (endsVector_vArith bd hb)
  · exact vectorFrame_of hs hu rfl (endsVector_vArith bd hb)
  · exact vdot_frame hs hd h1 h2 hu

/-- One source and a rounding mode: roots, signs, reductions and scans (R159, R165, R174, R176). -/
theorem vectorFrame_rounded_one : ∀ mk ∈ [Instr.vsqrt, .vunNeg, .vunAbs, .vunRint, .vredAdd, .vredMin, .vredMax, .vredAnd, .vredOr, .vredXor,
    .vscanAdd, .vscanMin, .vscanMax], exec (mk d s1 p t m) s = .next u → VectorFrame d s u := by
  intro mk hm hu
  have bd := unbound_begun hd
  have b1 := unbound_begun h1
  have hr : ∀ k ∈ [s1], Unbound s k := by simp [h1]
  have hb : ∀ k ∈ [s1], Unbound (begun s) k := by simp [b1]
  fin_cases hm
  · exact vectorFrame_of hs hu rfl (endsVector_vArith bd hb)
  · exact vectorFrame_of hs hu rfl (endsVector_vSign bd b1)
  · exact vectorFrame_of hs hu rfl (endsVector_vSign bd b1)
  · exact vectorFrame_of hs hu rfl (endsVector_vArith bd hb)
  · exact vredAdd_frame hs hd h1 hu
  · exact vScalar_frame hs hu (vScalar_redMinMax fun _ => rfl) hd hr
  · exact vScalar_frame hs hu (vScalar_redMinMax fun _ => rfl) hd hr
  · exact vScalar_frame hs hu (vScalar_redLogic fun _ => rfl) hd hr
  · exact vScalar_frame hs hu (vScalar_redLogic fun _ => rfl) hd hr
  · exact vScalar_frame hs hu (vScalar_redLogic fun _ => rfl) hd hr
  · exact vscanAdd_frame hs hd h1 hu
  · exact vectorFrame_of hs hu rfl (endsVector_scanMinMax bd b1)
  · exact vectorFrame_of hs hu rfl (endsVector_scanMinMax bd b1)

/-- Two sources without a mode (R162, R177, R178). -/
theorem vectorFrame_two (h2 : Unbound s s2) : ∀ mk ∈ [Instr.vmin, .vmax, .vperm, .vzip, .vsel],
    exec (mk d s1 s2 p t) s = .next u → VectorFrame d s u := by
  intro mk hm hu
  have bd := unbound_begun hd
  have b1 := unbound_begun h1
  have b2 := unbound_begun h2
  have hb : ∀ k ∈ [s1, s2], Unbound (begun s) k := by simp [b1, b2]
  fin_cases hm
  · exact vectorFrame_of hs hu rfl (endsVector_vPure bd hb)
  · exact vectorFrame_of hs hu rfl (endsVector_vPure bd hb)
  · exact vectorFrame_of hs hu rfl (endsVector_vMove bd b1 b2)
  · exact vectorFrame_of hs hu rfl (endsVector_vMove bd b1 b2)
  · exact vsel_frame hs hd h1 h2 hu

/-- One source without a mode: counts, logic and moves (R165, R166, R177). -/
theorem vectorFrame_one : ∀ mk ∈ [Instr.vunPopc, .vunClz, .vlogAnd, .vlogOr, .vlogXor, .vlogAndn, .vlogOrn, .vlogNand, .vlogNor, .vlogXnor,
    .vlogNot, .vmov], exec (mk d s1 p t) s = .next u → VectorFrame d s u := by
  intro mk hm hu
  have bd := unbound_begun hd
  have b1 := unbound_begun h1
  have hb : ∀ k ∈ [s1], Unbound (begun s) k := by simp [b1]
  fin_cases hm
  · exact vectorFrame_of hs hu rfl (endsVector_vPure bd hb)
  · exact vectorFrame_of hs hu rfl (endsVector_vPure bd hb)
  · exact vectorFrame_of hs hu rfl (endsVector_vLogic bd b1)
  · exact vectorFrame_of hs hu rfl (endsVector_vLogic bd b1)
  · exact vectorFrame_of hs hu rfl (endsVector_vLogic bd b1)
  · exact vectorFrame_of hs hu rfl (endsVector_vLogic bd b1)
  · exact vectorFrame_of hs hu rfl (endsVector_vLogic bd b1)
  · exact vectorFrame_of hs hu rfl (endsVector_vLogic bd b1)
  · exact vectorFrame_of hs hu rfl (endsVector_vLogic bd b1)
  · exact vectorFrame_of hs hu rfl (endsVector_vLogic bd b1)
  · exact vectorFrame_of hs hu rfl (endsVector_vLogic bd b1)
  · exact vectorFrame_of hs hu rfl (endsVector_vPure bd hb)

end

/-- Settles O24: each unit writes its destination and raises flags, whatever it computes; then it retires and may wait. -/
theorem vectorComputeFrame : Obligations.VectorComputeFrame := by
  intro d s1 s2 p t m s u hs hd h1 h2
  exact ⟨vectorFrame_rounded hs hd h1 h2, vectorFrame_rounded_one hs hd h1, vectorFrame_two hs hd h1 h2, vectorFrame_one hs hd h1⟩

end Sys2Proof.Proofs
end

section
/-! PROOF. YIELD, BRK, GETID, START, WAIT and END (R105, R113, R114, R116, R126, R128, R129). -/

namespace Sys2Proof.Proofs
open Sys2Proof Sys2Proof.Machine Sys2Proof.Laws

/-! ### What a begun trick leaves as it was -/

section
variable (s : State)

theorem begun_tick : (begun s).tick = s.tick := (local_begun s).tick
theorem begun_det : (begun s).mine.det = s.mine.det := by obtain ⟨c, h⟩ := begun_mine s; rw [h]
theorem begun_lane : (begun s).mine.lane = s.mine.lane := by obtain ⟨c, h⟩ := begun_mine s; rw [h]
theorem begun_retire : (begun s).me.retire = s.me.retire := by rcases begun_me s with h | h <;> rw [h]
theorem begun_contextId (k x : Nat) : contextId (begun s) k x = contextId s k x := by
  rcases begun_cases s with h | ⟨r, h⟩ <;> rw [h]
  rfl
theorem begun_launchOf : (begun s).launchOf s.cur.1 = s.launchOf s.cur.1 := by
  rcases begun_cases s with h | ⟨r, h⟩ <;> rw [h]
  rw [State.launchOf, core_modCtx]
  rfl

end

/-! ### YIELD and BRK -/

section
variable {s : State}

theorem unit_yield_throughput (hs : Runs s) (hd : s.mine.det = false) :
    let others := ((begun s).mine.ctxs.filter fun p => p.1 != s.cur.2 && p.2.isReady s.tick).map (·.1)
    runIn yieldU s = .next (retired s ((begun s).modCtx s.cur.1 s.cur.2 fun v =>
      { v with yield := if others = [] then none else some (s.tick + 16, others) })) := by
  refine unit_next hs ?_
  have h : ((begun s).core (begun s).cur.1).det = false := (begun_det s).trans hd
  rw [yieldU, U_bind_ok (detLaunch_apply _), h, if_neg Bool.false_ne_true, U_bind_ok (getS_apply _), U_bind_ok (curCore_apply _),
    U_bind_ok (updCtx_apply _ _)]
  simp only [State.mine, begun_tick, begun_cur, List.isEmpty_iff]
  rfl

theorem unit_yield_det (hs : Runs s) (hd : s.mine.det = true) :
    runIn yieldU s = .next ((retired s (begun s)).modCtx s.cur.1 s.cur.2 fun v => { v with life := .forfeit 1 }) := by
  refine runIn_ok (a := .forfeit 1) hs ?_
  have h : ((begun s).core (begun s).cur.1).det = true := (begun_det s).trans hd
  rw [yieldU, U_bind_ok (detLaunch_apply _), h, if_pos rfl]
  rfl

theorem unit_break (hs : Runs s) (code : Word) : runIn (breakWith code) s =
    .next ((retired s (begun s)).trapUnit s.cur.1 s.cur.2 s.unitOf (begun s).me.retire { cause := .breakpoint, addr := code }) := by
  rw [State.me, begun_cur]
  exact runIn_ok (a := .trapAfter { cause := .breakpoint, addr := code }) hs rfl

end

/-! ### GETID -/

section
variable {s u : State} {d : GReg}

/-- What GETID names (R129). -/
def idOf (s : State) : GetIdSel → Word
  | .pc => s.unitOf.addr
  | .wsp => BitVec.ofNat 64 s.me.wsp
  | .ctx => BitVec.ofNat 64 s.cur.2
  | .lane => BitVec.ofNat 64 s.mine.lane
  | .cid => (contextId s s.cur.1 s.cur.2).setWidth 64
  | .core => BitVec.ofNat 64 s.cur.1
  | .nlane => BitVec.ofNat 64 (match s.launchOf s.cur.1 with | some l => l.lanes | none => 0)
  | .retire => s.me.retire
  | .tick => BitVec.ofNat 64 s.tick

theorem idOf_begun (s : State) (w : GetIdSel) : idOf (begun s) w = idOf s w := by
  cases w with
  | pc => simp only [idOf, begun_unitOf]
  | wsp => simp only [idOf, Ctx.wsp, begun_wspBlk]
  | ctx => simp only [idOf, begun_cur]
  | lane => simp only [idOf, begun_lane]
  | cid => simp only [idOf, begun_cur, begun_contextId]
  | core => simp only [idOf, begun_cur]
  | nlane => simp only [idOf, begun_cur, begun_launchOf]
  | retire => simp only [idOf, begun_retire]
  | tick => simp only [idOf, begun_tick]

theorem getidU_ok {w : GetIdSel} (ht : w = .tick → s.mine.det = false) (h : Writes d (idOf s w) s u) : getidU d w s = .ok (.next, u) := by
  rw [getidU, U_bind_ok (getS_apply s), U_bind_ok (curCore_apply s), U_bind_ok (curCtx_apply s)]
  cases w with
  | tick =>
    have hd : (s.core s.cur.1).det = false := ht rfl
    dsimp only
    rw [hd, U_bind_ok (stopIf_false _ _ s), U_bind_ok (U_pure_apply _ s)]
    exact U_bind_ok h
  | _ => exact (U_bind_ok (U_pure_apply _ s)).trans (U_bind_ok h)

theorem exec_getid {w : GetIdSel} (hs : Runs s) (ht : w = .tick → s.mine.det = false) (h : Writes d (idOf s w) (begun s) u) :
    exec (.getid d w) s = .next (retired s u) :=
  unit_next hs (getidU_ok (fun e => (begun_det s).trans (ht e)) (by rwa [idOf_begun]))

end

/-! ### START -/

/-- The state in which the unit of the issuing context of `s` has made a helper live (R107, R126). -/
def helperStarted (s v : State) (off : BitVec 14) (w : Word) (h : Nat) : State :=
  v.modCore s.cur.1 fun c => c.setCtx h (startCtx (c.ctx h) (targetOf s.unitOf off) (w.extractLsb' 11 7) s.tick)

/-- The core counts the helpers that it has started (R105). -/
def startCounted (s v : State) : State := v.modCore s.cur.1 fun c => { c with startCount := c.startCount + 1 }

section
variable {p : Nat → Bool}

/-- The first helper of which a test holds. -/
theorem find_helper {h : Nat} (h1 : 1 ≤ h) (h10 : h ≤ 10) (hp : p h = true) (hf : ∀ j, 1 ≤ j → j < h → p j = false) :
    ((List.range 10).map (· + 1)).find? p = some h := by
  obtain ⟨i, rfl⟩ := Nat.exists_eq_add_of_le' h1
  have hi : (List.range 10).find? (p ∘ (· + 1)) = some i := by
    rw [List.find?_range_eq_some]
    exact ⟨hp, List.mem_range.2 (by omega), fun j hj => by simp [hf (j + 1) (by omega) (by omega)]⟩
  rw [List.find?_map, hi]
  rfl

theorem find_helper_none (hf : ∀ h, 1 ≤ h → h ≤ 10 → p h = false) : ((List.range 10).map (· + 1)).find? p = none := by
  simp only [List.find?_eq_none, List.mem_map, List.mem_range]
  rintro _ ⟨i, hi, rfl⟩
  simp [hf (i + 1) (by omega) (by omega)]

end

section
variable {s t u : State} {d s1 : GReg} {off : BitVec 14} {w : Word}

theorem takeHelper_ok {v : State} {h : Nat} (hc : v.cur = s.cur) (ht : v.tick = s.tick)
    (hw : Writes d (BitVec.ofNat 64 h) (helperStarted s v off w h) u) : takeHelper d h w (targetOf s.unitOf off) v = .ok ((), u) := by
  rw [takeHelper, U_bind_ok (getS_apply v), U_bind_ok (updCore_apply _ v), hc, ht]
  exact hw

section
variable (hd : s.mine.det = false ∨ s.cur.2 = 0) (hr : Reads [s1] s [w] t)
include hd hr

theorem startU_misaligned (ha : t.mine.workspaceAligned w.toNat = false) :
    startU d s1 off s = .error (.trap { cause := .misalignedWorkspace }) := by
  have hb : ((s.core s.cur.1).det && s.cur.2 != 0) = false := by rcases hd with h | h <;> simp_all [State.mine]
  have ha' : (t.core t.cur.1).workspaceAligned w.toNat = false := ha
  rw [startU, U_bind_ok (detLaunch_apply s), U_bind_ok (myCtx_apply s), hb, U_bind_ok (stopIf_false _ _ s), U_bind_ok (reads_one hr),
    U_bind_ok (curCore_apply t), ha']
  exact U_bind_error (stopIf_true _ _ t)

/-- What START does past its checks, in a deterministic launch and in throughput mode (R105, R126). -/
theorem startU_aligned (ha : t.mine.workspaceAligned w.toNat = true) :
    (s.mine.det = false → ((List.range 10).map (· + 1)).find? (helperIdle t s.cur.1) = none →
      startU d s1 off s = (do writeG d 0#64; pure .next : U After) t) ∧
    (s.mine.det = false → ∀ h, ((List.range 10).map (· + 1)).find? (helperIdle t s.cur.1) = some h →
      startU d s1 off s = (do takeHelper d h w (targetOf s.unitOf off); pure .next : U After) t) ∧
    (s.mine.det = true → helperIdle t s.cur.1 (t.mine.startCount % 10 + 1) = false →
      startU d s1 off s = .error (.wait (.helper (t.mine.startCount % 10 + 1)))) ∧
    (s.mine.det = true → helperIdle t s.cur.1 (t.mine.startCount % 10 + 1) = true → startU d s1 off s =
      (do takeHelper d (t.mine.startCount % 10 + 1) w (targetOf s.unitOf off); pure .next : U After) (startCounted s t)) := by
  have hb : ((s.core s.cur.1).det && s.cur.2 != 0) = false := by rcases hd with h | h <;> simp_all [State.mine]
  have ha' : (t.core t.cur.1).workspaceAligned w.toNat = true := ha
  have hc : t.cur = s.cur := reads_cur hr
  rw [startU, U_bind_ok (detLaunch_apply s), U_bind_ok (myCtx_apply s), hb, U_bind_ok (stopIf_false _ _ s), U_bind_ok (reads_one hr),
    U_bind_ok (curCore_apply t), ha', Bool.not_true, U_bind_ok (stopIf_false _ _ t), U_bind_ok (target_apply off t), U_bind_ok (getS_apply t),
    reads_unitOf hr]
  simp only [State.mine, hc]
  refine ⟨fun h hn => ?_, fun h i hf => ?_, fun h hi => ?_, fun h hi => ?_⟩
  · rw [h, if_neg Bool.false_ne_true, hn]
  · rw [h, if_neg Bool.false_ne_true, hf]
  · rw [if_pos h, if_neg (by simp [hi])]
    rfl
  · rw [if_pos h, if_pos hi, U_bind_ok (updCore_apply _ t), hc]
    rfl

end

/-- A unit that waits for a helper is looked at again from the state before it (R97, R105). -/
theorem stopUnit_helper {h : Nat} (hq : Quiet s) :
    stopUnit s s.cur.1 s.cur.2 s.unitOf (.wait (.helper h)) = s.block s.cur.1 s.cur.2 (.helper h) := by
  have hs : (s.ctx s.cur.1 s.cur.2).settled = true := hq.1
  unfold stopUnit
  dsimp only
  rw [endTrick_settled hs]
  exact if_pos hs

section
variable (hq : Quiet s) (hd : s.mine.det = false ∨ s.cur.2 = 0) (hr : Reads [s1] s [w] t)
include hq hd hr

theorem exec_start_misaligned (ha : t.mine.workspaceAligned w.toNat = false) :
    exec (.start d s1 off) s = .next (trapped s { cause := .misalignedWorkspace }) :=
  runIrr_trap hq (startU_misaligned hd hr ha)

variable (ha : t.mine.workspaceAligned w.toNat = true)
include ha

theorem exec_start_none (hn : s.mine.det = false) (hi : ∀ h, 1 ≤ h → h ≤ 10 → helperIdle t s.cur.1 h = false) (hw : Writes d 0#64 t u) :
    exec (.start d s1 off) s = .next (retiredOut s u) := by
  obtain ⟨he, -, -, -⟩ := startU_aligned (d := d) (off := off) hd hr ha
  exact runIrr_next hq ((he hn (find_helper_none hi)).trans (U_bind_ok hw))

theorem exec_start_first {h : Nat} (hn : s.mine.det = false) (h1 : 1 ≤ h) (h10 : h ≤ 10) (hi : helperIdle t s.cur.1 h = true)
    (hf : ∀ j, 1 ≤ j → j < h → helperIdle t s.cur.1 j = false) (hw : Writes d (BitVec.ofNat 64 h) (helperStarted s t off w h) u) :
    exec (.start d s1 off) s = .next (retiredOut s u) := by
  obtain ⟨-, he, -, -⟩ := startU_aligned (d := d) (off := off) hd hr ha
  have ht := takeHelper_ok (reads_cur hr) (local_reads hr).tick hw
  exact runIrr_next hq ((he hn h (find_helper h1 h10 hi hf)).trans (U_bind_ok ht))

theorem exec_start_busy (hn : s.mine.det = true) (hi : helperIdle t s.cur.1 (t.mine.startCount % 10 + 1) = false) :
    exec (.start d s1 off) s = .next (s.block s.cur.1 s.cur.2 (.helper (t.mine.startCount % 10 + 1))) := by
  obtain ⟨-, -, he, -⟩ := startU_aligned (d := d) (off := off) hd hr ha
  exact (runIrr_stop hq (he hn hi) fun _ _ e => by cases e).trans (by rw [stopUnit_helper hq])

theorem exec_start_counted (hn : s.mine.det = true) (hi : helperIdle t s.cur.1 (t.mine.startCount % 10 + 1) = true)
    (hw : Writes d (BitVec.ofNat 64 (t.mine.startCount % 10 + 1)) (helperStarted s (startCounted s t) off w (t.mine.startCount % 10 + 1)) u) :
    exec (.start d s1 off) s = .next (retiredOut s u) := by
  obtain ⟨-, -, -, he⟩ := startU_aligned (d := d) (off := off) hd hr ha
  have hc : (startCounted s t).cur = s.cur := (reads_cur hr : t.cur = s.cur)
  have hk : (startCounted s t).tick = s.tick := (local_reads hr).tick
  exact runIrr_next hq ((he hn hi).trans (U_bind_ok (takeHelper_ok hc hk hw)))

end

end

/-! ### WAIT -/

/-- The helpers that WAIT names but its own context (R128). -/
def waitMask (s : State) (mask : BitVec 10) : BitVec 11 :=
  (mask ++ 0#1) &&& ~~~(if s.cur.2 ≤ 10 then BitVec.ofNat 11 (2 ^ s.cur.2) else 0#11)

section
variable {s t u : State} {d s1 : GReg} {mask : BitVec 10} {w : Word}

theorem reads_det {ks : List GReg} {vs : List Word} (hr : Reads ks s vs t) : t.mine.det = s.mine.det := by rw [(local_reads hr).mine]

/-- What WAIT does: nothing is live that it waits for, or it waits without a limit, or with one (R128). -/
theorem waitU_ok (hd : s.mine.det = false ∨ w = 0#64) (hr : Reads [s1] s [w] t) :
    (liveOf t s.cur.1 (waitMask s mask) = 0#64 → waitU d s1 mask s = (do writeG d 0#64; pure .next : U After) t) ∧
    (liveOf t s.cur.1 (waitMask s mask) ≠ 0#64 → Free t d →
      (w = 0#64 → waitU d s1 mask s = .ok (.hold (.helpers (waitMask s mask) none d), kept t d)) ∧
      (w ≠ 0#64 → waitU d s1 mask s = .ok (.hold (.helpers (waitMask s mask) (some (s.tick + w.toNat)) d),
        (kept t d).post w.toNat (.waitLimitExpiry (cid s.cur.1) (xid s.cur.2))))) := by
  have hc : t.cur = s.cur := reads_cur hr
  have ht : t.tick = s.tick := (local_reads hr).tick
  have hb : ((t.core t.cur.1).det && w != 0#64) = false := by
    rcases hd with h | rfl
    · have : (t.core t.cur.1).det = false := (reads_det hr).trans h
      rw [this, Bool.false_and]
    · rw [bne_self_eq_false, Bool.and_false]
  rw [waitU, U_bind_ok (reads_one hr), U_bind_ok (detLaunch_apply t), U_bind_ok (getS_apply t), hb, U_bind_ok (stopIf_false _ _ t), hc, ht]
  refine ⟨fun h => congrFun (if_pos h) t, fun h hf => ⟨fun hw => ?_, fun hw => ?_⟩⟩
  · refine (congrFun (if_neg h) t).trans ?_
    rw [U_bind_ok (needDest_free hf), if_pos hw]
    rfl
  · refine (congrFun (if_neg h) t).trans ?_
    rw [U_bind_ok (needDest_free hf), if_neg hw]
    dsimp only
    rw [Nat.add_sub_cancel_left]
    rfl

end

section
variable {s t u : State} {d s1 : GReg} {mask : BitVec 10} {w : Word} (hq : Quiet s) (hd : s.mine.det = false ∨ w = 0#64) (hr : Reads [s1] s [w] t)
include hq hd hr

theorem exec_wait_none (hl : liveOf t s.cur.1 (waitMask s mask) = 0#64) (hw : Writes d 0#64 t u) :
    exec (.wait d s1 mask) s = .next (retiredOut s u) := by
  obtain ⟨he, -⟩ := waitU_ok (d := d) (mask := mask) hd hr
  exact runIrr_next hq ((he hl).trans (U_bind_ok hw))

variable (hl : liveOf t s.cur.1 (waitMask s mask) ≠ 0#64) (hf : Free t d)
include hl hf

theorem exec_wait_unlimited (hw : w = 0#64) :
    exec (.wait d s1 mask) s = .next (waiting s (kept t d) (.helpers (waitMask s mask) none d)) := by
  obtain ⟨-, he⟩ := waitU_ok (d := d) (mask := mask) hd hr
  obtain ⟨hu, -⟩ := he hl hf
  exact (runIrr_ok hq (hu hw)).trans (by rw [finish_hold])

theorem exec_wait_limited (hw : w ≠ 0#64) :
    exec (.wait d s1 mask) s = .next (waiting s ((kept t d).post w.toNat (.waitLimitExpiry (cid s.cur.1) (xid s.cur.2)))
      (.helpers (waitMask s mask) (some (s.tick + w.toNat)) d)) := by
  obtain ⟨-, he⟩ := waitU_ok (d := d) (mask := mask) hd hr
  obtain ⟨-, hu⟩ := he hl hf
  exact (runIrr_ok hq (hu hw)).trans (by rw [finish_hold])

end

/-! ### END -/

section
variable {s t u : State}

/-- A context without streams has none to wait for (R393). -/
theorem offAll_none (h : s.me.streams = []) : offAll s = .ok ((), s.modCtx s.cur.1 s.cur.2 fun v => { v with streams := [] }) := by
  have hn : (s.ctx s.cur.1 s.cur.2).streams = [] := h
  rw [offAll, U_bind_ok (curCtx_apply s), hn]
  rfl

theorem retireUnit_out_cur (s : State) (k x : Nat) (i : UnitInfo) : (s.retireUnit k x i false none).cur = s.cur :=
  (stripsOut_postStrips _ k x _).cur.trans (trumpGone_cur _ k _)

theorem gateSoon_ctx (s : State) (k j y : Nat) : (s.gateSoon k).ctx j y = s.ctx j y := rfl

/-- A context that ends is idle, with its END counted (R106, R114). -/
theorem finish_idle (hc : u.cur = s.cur) (ht : t = finishUnit u s.cur.1 s.cur.2 s.unitOf false .idle) :
    t.me.life = .idle ∧ t.me.retire = u.me.retire + 1#64 := by
  have hr := (retiredOut_keeps s u hc).2.1
  have hrc : (retiredOut s u).cur = s.cur := (retireUnit_out_cur u _ _ _).trans hc
  have hcur : t.cur = s.cur := by
    rw [ht, finishUnit]
    split_ifs <;> exact hrc
  rw [State.me, hrc] at hr
  rw [← hr, State.me, hcur, ht, finishUnit]
  split_ifs
  · rw [gateSoon_ctx, ctx_modCore_keeps, ctx_modCtx]
    · exact ⟨rfl, rfl⟩
    · rfl
  · rw [gateSoon_ctx, ctx_modCtx]
    exact ⟨rfl, rfl⟩

theorem tasksIdle_iff {k : Nat} : tasksIdle s k = true ↔ ∀ i < 14, helperIdle s k (i + 1) = true := by
  rw [tasksIdle, List.all_map, List.all_eq_true]
  simp only [List.mem_range]
  rfl

/-- The control context is not among those that its END waits for. -/
theorem tasksIdle_modCtx {f : Ctx → Ctx} {k : Nat} (h : tasksIdle s k = true) : tasksIdle (s.modCtx k 0 f) k = true := by
  rw [tasksIdle_iff] at h ⊢
  intro i hi
  rw [helperIdle, ctx_modCtx_other s k f (Nat.succ_ne_zero i)]
  exact h i hi

theorem retireLane_contexts (s : State) (k : Nat) : (retireLane s k).cur = s.cur ∧ (retireLane s k).me = s.me := by
  unfold retireLane State.modLaunch
  dsimp only
  split
  · exact ⟨rfl, rfl⟩
  · split <;> exact ⟨rfl, rfl⟩

/-- The control context, the supervisor and a helper end (R114). -/
theorem endU_ok (hs : s.me.streams = []) (h : s.cur.2 ≠ 0 ∨ tasksIdle s s.cur.1 = true) :
    ∃ u, endU s = .ok (.idle, u) ∧ u.cur = s.cur ∧ u.me.retire = s.me.retire := by
  rw [endU, U_bind_ok (myCtx_apply s), U_bind_ok (offAll_none hs), U_bind_ok (getS_apply _)]
  have hm := congrArg Ctx.retire (me_modCtx s fun v => { v with streams := [] })
  have hi := fun h0 => tasksIdle_modCtx (f := fun v => { v with streams := [] }) (h.resolve_left (not_not.2 h0))
  generalize hv : (s.modCtx s.cur.1 s.cur.2 fun v => { v with streams := [] }) = v at hm ⊢
  have hc : v.cur = s.cur := by rw [← hv]; rfl
  rw [hc]
  by_cases h0 : s.cur.2 = 0
  · obtain ⟨hl, hme⟩ := retireLane_contexts v s.cur.1
    have hi := hi h0
    rw [← h0, hv] at hi
    exact ⟨_, (congrFun (if_pos h0) _).trans ((congrFun (if_pos hi) _).trans rfl), hl.trans hc, (congrArg Ctx.retire hme).trans hm⟩
  · by_cases h15 : s.cur.2 = 15
    · have hk := ctx_modCore_keeps v v.cur.1 v.cur.1 v.cur.2 (fun c => { c with svIdle := v.tick + 1 }) rfl
      rw [if_neg h0, if_pos h15, U_bind_ok (updCore_apply _ v), U_bind_ok (curCore_apply _)]
      split
      · exact ⟨_, rfl, hc, (congrArg Ctx.retire hk).trans hm⟩
      · exact ⟨_, rfl, hc, (congrArg Ctx.retire hk).trans hm⟩
    · exact ⟨_, (congrFun (if_neg h0) _).trans (congrFun (if_neg h15) _), hc, hm⟩

theorem exec_end (hq : Quiet s) (hs : s.me.streams = []) (h : s.cur.2 ≠ 0 ∨ tasksIdle s s.cur.1 = true) :
    ∃ t, exec .endCtx s = .next t ∧ exec .cEnd s = .next t ∧ t.me.life = .idle ∧ t.me.retire = s.me.retire + 1#64 := by
  obtain ⟨u, hu, hc, hr⟩ := endU_ok hs h
  have he : runIrr endU s = _ := runIrr_ok hq hu
  obtain ⟨hl, ht⟩ := finish_idle hc rfl
  exact ⟨_, he, he, hl, by rw [ht, hr]⟩

end

/-- Settles O9: YIELD, BRK and GETID inside their trick, then START, WAIT and END by what each finds of the other contexts. -/
theorem contextControl : Obligations.ContextControl := by
  unfold Obligations.ContextControl
  refine ⟨fun s hs => ⟨fun hd => ⟨unit_yield_throughput hs hd, unit_yield_throughput hs hd⟩,
      fun hd => ⟨unit_yield_det hs hd, unit_yield_det hs hd⟩,
      fun code => unit_break hs _, fun code => unit_break hs _, fun d w u ht hw => exec_getid hs ht ?_⟩,
    fun s t u d s1 off w hq hd hr => ⟨exec_start_misaligned hq hd hr,
      fun ha hn => ⟨exec_start_none hq hd hr ha hn, fun h => exec_start_first hq hd hr ha hn⟩,
      fun ha hn => ⟨exec_start_busy hq hd hr ha hn, exec_start_counted hq hd hr ha hn⟩⟩,
    fun s t u d s1 mask w hq hd hr => ⟨exec_wait_none hq hd hr, fun hl hf => ⟨exec_wait_unlimited hq hd hr hl hf, exec_wait_limited hq hd hr hl hf⟩⟩,
    fun s => exec_end⟩
  cases w <;> exact hw

end Sys2Proof.Proofs
end

section
/-! PROOF. What the scalar units compute: arithmetic and logic, division, and the fields of headers (R42, R43, R138, R141 to R150). -/

namespace Sys2Proof.Proofs
open Sys2Proof Sys2Proof.Machine Sys2Proof.Laws

/-! ### Units on given registers -/

section
variable {d s1 s2 : GReg} {s t u : State} {a b : Word} (hs : Runs s)
include hs

theorem unit_scalar1 {f : Word → Word} (hr : Reads [s1] (begun s) [a] t) (hu : Writes d (f a) t u) :
    runIn (scalar1 d s1 f) s = .next (retired s u) := by
  refine unit_next hs ?_
  rw [scalar1, U_bind_ok (reads_one hr), U_bind_ok hu]
  rfl

theorem unit_scalar2 {f : Word → Word → Word} (hr : Reads [s1, s2] (begun s) [a, b] t) (hu : Writes d (f a b) t u) :
    runIn (scalar2 d s1 s2 f) s = .next (retired s u) := by
  obtain ⟨v, h1, h2⟩ := reads_two hr
  refine unit_next hs ?_
  rw [scalar2, U_bind_ok h1, U_bind_ok h2, U_bind_ok hu]
  rfl

theorem unit_scalarI {n : Nat} {imm : BitVec n} {f : Word → Word → Word} (hr : Reads [s1] (begun s) [a] t)
    (hu : Writes d (f a (immSOf (prefixOf s.unitOf) imm)) t u) : runIn (scalarI d s1 imm f) s = .next (retired s u) := by
  refine unit_next hs ?_
  rw [scalarI, U_bind_ok (reads_one hr), U_bind_ok (immS_apply imm t), reads_begun_unitOf hr, U_bind_ok hu]
  rfl

/-- DIV and REM retire, and their context is BLOCKED for the 34 ticks after the tick of issue (R142). -/
theorem unit_divide {f : Word → Word → Word} (hr : Reads [s1, s2] (begun s) [a, b] t) (hu : Writes d (f a b) t u) :
    runIn (divide d s1 s2 f) s = .next (paused s u (s.tick + 35)) := by
  obtain ⟨v, h1, h2⟩ := reads_two hr
  have htick : u.tick = s.tick := ((local_begun s).trans ((local_reads hr).trans (local_writeG hu))).tick
  have hm : divide d s1 s2 f (begun s) = .ok (.pause (.interval (s.tick + 35)), u) := by
    rw [divide, U_bind_ok h1, U_bind_ok h2, U_bind_ok hu, U_bind_ok (getS_apply u), htick]
    rfl
  exact runIn_ok hs hm

end

/-! ### Quotients and remainders -/

/-- A register as the number that DIV and REM take it for (R145). -/
def divOperand (sg : Bool) (a : Word) : Int := if sg then a.toInt else a.toNat

/-- The quotient of R145: toward zero, 0 for a divisor of 0, and the dividend where the signed quotient has no word. -/
def quotient (sg : Bool) (x y : Int) : Int := if y = 0 then 0 else if sg ∧ x = -2 ^ 63 ∧ y = -1 then -2 ^ 63 else x.tdiv y

/-- The remainder of R145: the dividend for a divisor of 0, and 0 where the signed quotient has no word. -/
def remainder (sg : Bool) (x y : Int) : Int :=
  if y = 0 then x else if sg ∧ x = -2 ^ 63 ∧ y = -1 then 0 else x - quotient sg x y * y

theorem divRem_eq (sg : Bool) (a b : Word) : divRem sg a b =
    if divOperand sg b = 0 then (0#64, BitVec.ofInt 64 (divOperand sg a))
    else (BitVec.ofInt 64 ((divOperand sg a).tdiv (divOperand sg b)), BitVec.ofInt 64 ((divOperand sg a).tmod (divOperand sg b))) := rfl

theorem divRem_quotient (sg : Bool) (a b : Word) : (divRem sg a b).1 = BitVec.ofInt 64 (quotient sg (divOperand sg a) (divOperand sg b)) := by
  rw [divRem_eq]
  generalize divOperand sg a = x, divOperand sg b = y
  unfold quotient
  split_ifs with hy ho
  · rfl
  · obtain ⟨-, rfl, rfl⟩ := ho
    decide
  · rfl

/-- The special cases of the remainder are those in which truncation gives the same. -/
theorem remainder_eq_tmod (sg : Bool) (x y : Int) : remainder sg x y = x.tmod y := by
  unfold remainder
  split_ifs with hy ho
  · rw [hy, Int.tmod_zero]
  · obtain ⟨-, rfl, rfl⟩ := ho
    rfl
  · rw [quotient, if_neg hy, if_neg ho, Int.tmod_def, Int.mul_comm]

theorem divRem_remainder (sg : Bool) (a b : Word) : (divRem sg a b).2 = BitVec.ofInt 64 (remainder sg (divOperand sg a) (divOperand sg b)) := by
  rw [divRem_eq, remainder_eq_tmod]
  split_ifs with hy
  · rw [hy, Int.tmod_zero]
  · rfl

/-- The remainder takes the sign of the dividend (R145). -/
theorem remainder_sign (sg : Bool) (x y : Int) : remainder sg x y = 0 ∨ (0 < remainder sg x y ↔ 0 < x) := by
  rw [remainder_eq_tmod, ← Int.sign_eq_one_iff_pos, ← Int.sign_eq_one_iff_pos (a := x), Int.sign_tmod]
  split_ifs with h
  · exact .inl (Int.tmod_eq_zero_of_dvd h)
  · exact .inr Iff.rfl

/-- Settles O2: the unit's pause, with the quotient and the remainder that the model computes brought to those of R145. -/
theorem scalarDivision : Obligations.ScalarDivision := by
  intro sg d s1 s2 s t u a b hs hr x y q m
  have hq : (divRem sg a b).1 = BitVec.ofInt 64 q := divRem_quotient sg a b
  have hm : (divRem sg a b).2 = BitVec.ofInt 64 m := divRem_remainder sg a b
  refine ⟨fun hu => ?_, fun hu => ?_, remainder_sign sg x y⟩
  · rw [← hq] at hu
    cases sg <;> exact unit_divide (f := fun a b => (divRem _ a b).1) hs hr hu
  · rw [← hm] at hu
    cases sg <;> exact unit_divide (f := fun a b => (divRem _ a b).2) hs hr hu

/-! ### The values of R144 -/

theorem gives1_congr {mk : GReg → GReg → Instr} {f g : Word → Word} (h : Gives1 mk f) (e : ∀ a, f a = g a) : Gives1 mk g :=
  (funext e : f = g) ▸ h

theorem gives3_congr {mk : GReg → GReg → GReg → GReg → Instr} {f g : Word → Word → Word → Word} (h : Gives3 mk f)
    (e : ∀ a b c, f a b c = g a b c) : Gives3 mk g :=
  (funext fun a => funext fun b => funext (e a b) : f = g) ▸ h

section
variable (a b c : Word)

theorem ite_slt {α : Type} (x y : α) : (if a.slt b then x else y) = if a.toInt < b.toInt then x else y :=
  if_congr BitVec.slt_iff_toInt_lt rfl rfl

theorem ite_ult {α : Type} (x y : α) : (if a.ult b then x else y) = if a.toNat < b.toNat then x else y :=
  if_congr BitVec.ult_iff_lt rfl rfl

/-- The lowest bit of the third register is the carry in. -/
theorem add_add_carry : a + b + (c &&& 1#64) = BitVec.ofNat 64 (a.toNat + b.toNat + c.toNat % 2) := by
  have hc : (c &&& 1#64).toNat = c.toNat % 2 := by rw [BitVec.toNat_and]; exact Nat.and_one_is_mod _
  rw [BitVec.ofNat_add, BitVec.ofNat_add, ← hc]
  simp only [BitVec.ofNat_toNat, BitVec.setWidth_eq]

end

/-! ### A destination that CMODE remaps -/

theorem noRemap_trap {s : State} {d : GReg} (h : (remap s.me.cmode d).isSome = true) : noRemap d s = .error (.trap { cause := .illegal }) := by
  have h' : (remap (s.ctx s.cur.1 s.cur.2).cmode d).isSome = true := h
  rw [noRemap, U_bind_ok (curCtx_apply s), h']
  rfl

/-- A unit that begins with the check of R138 traps where CMODE remaps its destination. -/
theorem unit_noRemap {s : State} {d : GReg} (m : U After) (hs : Runs s) (h : (remap s.me.cmode d).isSome = true) :
    runIn (do noRemap d; m) s = .next (trapped s { cause := .illegal }) :=
  runIn_trap hs (U_bind_error (noRemap_trap (by rwa [begun_cmode])))

/-! ### The scalar instructions -/

section
variable {d s1 : GReg} {s t u : State} {a b : Word} (hs : Runs s)
include hs

/-- The compact forms on two registers have their first source as destination (R42, R43). -/
theorem exec_compact2 (hr : Reads [d, s1] (begun s) [a, b] t) :
    (Writes d (a + b) t u → exec (.cAdd d s1) s = .next (retired s u)) ∧ (Writes d (a - b) t u → exec (.cSub d s1) s = .next (retired s u)) ∧
    (Writes d (a &&& b) t u → exec (.cAnd d s1) s = .next (retired s u)) ∧ (Writes d (a ||| b) t u → exec (.cOr d s1) s = .next (retired s u)) ∧
    (Writes d (a ^^^ b) t u → exec (.cXor d s1) s = .next (retired s u)) :=
  ⟨unit_scalar2 hs hr, unit_scalar2 hs hr, unit_scalar2 hs hr, unit_scalar2 hs hr, unit_scalar2 hs hr⟩

/-- The compact forms with an immediate (R42, R43). -/
theorem exec_compactI {n : BitVec 5} (hr : Reads [d] (begun s) [a] t) :
    (s.unitOf.pre = none → Writes d (a + n.signExtend 64) t u → exec (.cAddi d n) s = .next (retired s u)) ∧
    (Writes d (a <<< n.toNat) t u → exec (.cShiShl d n) s = .next (retired s u)) ∧
    (Writes d (a >>> n.toNat) t u → exec (.cShiShr d n) s = .next (retired s u)) ∧
    (Writes d (a.sshiftRight n.toNat) t u → exec (.cShiSar d n) s = .next (retired s u)) := by
  refine ⟨fun hp hu => ?_, unit_scalar1 (f := fun a => a <<< n.toNat) hs hr, unit_scalar1 (f := fun a => a >>> n.toNat) hs hr,
    unit_scalar1 (f := fun a => a.sshiftRight n.toNat) hs hr⟩
  have hu' : Writes d (a + immSOf (prefixOf s.unitOf) n) t u := by rwa [prefixOf, hp]
  exact unit_scalarI (f := fun a i => a + i) hs hr hu'

/-- A unit that writes a value it knows without reading a register. -/
theorem unit_write {x : Word} (hu : Writes d x (begun s) u) : runIn (do writeG d x; pure .next) s = .next (retired s u) :=
  unit_next hs (U_bind_ok hu)

theorem exec_li {imm : BitVec 19} (hu : Writes d (immSOf (prefixOf s.unitOf) imm) (begun s) u) :
    exec (.li d imm) s = .next (retired s u) := by
  refine unit_next hs ?_
  rw [U_bind_ok (immS_apply imm _), begun_unitOf, U_bind_ok hu]
  rfl

end

/-- Settles O1: each unit has the shape of `scalar1`, `scalar2`, `scalar3` or `scalarI`; where the model writes its function another way, the values
agree; BFI and LIH read a destination that CMODE does not remap, and trap at one that it does. -/
theorem scalarArithmetic : Obligations.ScalarArithmetic := by
  refine ⟨⟨?two, fun c => gives2_of fun _ _ _ _ => rfl, fun sh => gives2_of fun _ _ _ _ => rfl,
      ?madd, gives3_of fun _ _ _ _ _ => rfl, ?sel, ?addc, gives3_of fun _ _ _ _ _ => rfl,
      fun n => gives1_of fun _ _ _ => rfl, fun n => gives1_of fun _ _ _ => rfl, fun n => gives1_of fun _ _ _ => rfl, ?rot,
      fun t => gives1_of fun _ _ _ => rfl, gives1_of fun _ _ _ => rfl, gives1_of fun _ _ _ => rfl, gives1_of fun _ _ _ => rfl,
      gives1_of fun _ _ _ => rfl, gives1_of fun _ _ _ => rfl,
      gives2_of fun _ _ _ _ => rfl, gives2_of fun _ _ _ _ => rfl, gives2_of fun _ _ _ _ => rfl,
      fun k => gives2_of fun _ _ _ _ => rfl, fun k => gives2_of fun _ _ _ _ => rfl, ?cMov,
      fun d s1 s t a b hs hr u => exec_compact2 hs hr,
      fun d n s t u a hs => ⟨unit_write hs, exec_compactI hs⟩⟩,
    givesI_of fun _ _ _ _ => rfl, givesI_of fun _ _ _ _ => rfl, givesI_of fun _ _ _ _ => rfl, givesI_of fun _ _ _ _ => rfl,
    givesI_of fun _ _ _ _ => rfl, fun d imm s u hs => exec_li hs, ?lih, ?bfi,
    fun d s1 s2 imm s hs hd _ => ⟨unit_noRemap _ hs hd, unit_noRemap _ hs hd⟩⟩
  case two =>
    refine ⟨?_, ?_, ?_, ?_, ?_, ?_, ?_, ?_, ?_, ?_, ?_, ?_, ?_, ?rotL, ?rotR, ?minI64, ?maxI64, ?minN64, ?maxN64⟩
    case rotL => exact gives2_congr (gives2_of fun _ _ _ _ => rfl) fun _ _ => BitVec.rotateLeft_mod_eq_rotateLeft
    case rotR => exact gives2_congr (gives2_of fun _ _ _ _ => rfl) fun _ _ => BitVec.rotateRight_mod_eq_rotateRight
    case minI64 => exact gives2_congr (gives2_of fun _ _ _ _ => rfl) fun a b => ite_slt b a b a
    case maxI64 => exact gives2_congr (gives2_of fun _ _ _ _ => rfl) fun a b => ite_slt a b b a
    case minN64 => exact gives2_congr (gives2_of fun _ _ _ _ => rfl) fun a b => ite_ult b a b a
    case maxN64 => exact gives2_congr (gives2_of fun _ _ _ _ => rfl) fun a b => ite_ult a b b a
    all_goals exact gives2_of fun _ _ _ _ => rfl
  case madd => exact gives3_congr (gives3_of fun _ _ _ _ _ => rfl) fun a b c => BitVec.add_comm (a * b) c
  case sel => exact gives3_congr (gives3_of fun _ _ _ _ _ => rfl) fun a b c => (ite_not (c = 0#64) a b).symm
  case addc => exact gives3_congr (gives3_of fun _ _ _ _ _ => rfl) add_add_carry
  case rot => exact fun n => gives1_congr (gives1_of fun _ _ _ => rfl) fun _ => BitVec.rotateLeft_mod_eq_rotateLeft
  case cMov =>
    intro d s1 s t u a hs hr hu
    refine unit_scalar2 hs ⟨_, _, _, reads_one hr, rfl, _, _, _, readG_zero t, rfl, rfl, rfl⟩ ?_
    rwa [BitVec.or_zero]
  case lih => exact fun d imm s u hs hp hu => exec_lih hs (((onlyRead_begun s).toComputed.plain d).1 hp) hu
  case bfi => exact fun d s1 s2 s t u a b hs _ hr hp hu => exec_bfi hs (((onlyRead_reads_begun hr).toComputed.plain d).1 hp) hr hu

/-! ### Header fields -/

section
variable {c : Core} {s1 d : GReg} {n i r : Nat} {x a : Word} {s t u : State}

theorem hdrPackFrom_absent (h : (layoutField c n i).2 = 0) : hdrPackFrom c s1 n (r + 1) i x s = hdrPackFrom c s1 n r (i + 1) x s := by
  rw [hdrPackFrom]
  exact congrFun (if_pos h) s

theorem hdrSplitFrom_absent (h : (layoutField c n i).2 = 0) : hdrSplitFrom c d n x (r + 1) i s = hdrSplitFrom c d n x r (i + 1) s := by
  rw [hdrSplitFrom]
  exact congrFun (if_neg (not_not_intro h)) s

theorem hdrPackFrom_field (h : (layoutField c n i).2 ≠ 0) (hr : Reads [s1 + BitVec.ofNat 5 i] s [a] t) :
    hdrPackFrom c s1 n (r + 1) i x s = hdrPackFrom c s1 n r (i + 1)
      ((x &&& ~~~(BitVec.ofNat 64 ((2 ^ (layoutField c n i).2 - 1) * 2 ^ (layoutField c n i).1))) |||
        BitVec.ofNat 64 (a.toNat % 2 ^ (layoutField c n i).2 * 2 ^ (layoutField c n i).1)) t := by
  rw [hdrPackFrom]
  exact (congrFun (if_neg h) s).trans (U_bind_ok (reads_one hr))

theorem hdrSplitFrom_field (h : (layoutField c n i).2 ≠ 0)
    (hu : Writes (d + BitVec.ofNat 5 i) (BitVec.ofNat 64 (x.toNat / 2 ^ (layoutField c n i).1 % 2 ^ (layoutField c n i).2)) s u) :
    hdrSplitFrom c d n x (r + 1) i s = hdrSplitFrom c d n x r (i + 1) u := by
  rw [hdrSplitFrom]
  exact (congrFun (if_pos h) s).trans (U_bind_ok hu)

end

/-- Four fields stand in a layout register, 16 bits each: a position in 6 of them and a width in the next 7 (R141). -/
theorem layoutField_bits {c : Core} {n i j : Nat} {w : Word} (hw : tabGet c.layout (2 * n + i / 4) 0#64 = w) (hj : i % 4 = j) :
    layoutField c n i = ((w.extractLsb' (16 * j) 6).toNat, (w.extractLsb' (16 * j + 6) 7).toNat) := by
  subst hw hj
  simp only [layoutField, BitVec.extractLsb'_toNat, Nat.shiftRight_eq_div_pow, Nat.pow_add, Nat.div_div_eq_div_mul]

/-- Settles O3: the units, then one equation for a field that is there and one for an absent one, and the bits of a layout register. -/
theorem headerFields : Obligations.HeaderFields := by
  refine ⟨fun d s1 n s t u x => exec_hdrPack, fun d s1 n s t u x => exec_hdrSplit,
    fun c s1 d n i r x s => ⟨rfl, rfl, fun h => ⟨hdrPackFrom_absent h, hdrSplitFrom_absent h⟩⟩,
    fun c n j r _ hj => ⟨fun hr => ?_, fun hr => ?_⟩,
    fun c s1 d n i r x a s t u h => ⟨hdrPackFrom_field h, hdrSplitFrom_field h⟩⟩
  · exact layoutField_bits (by rwa [Nat.div_eq_of_lt hj]) (Nat.mod_eq_of_lt hj)
  · exact layoutField_bits (by rwa [show (j + 4) / 4 = 1 by omega]) (by omega)

end Sys2Proof.Proofs
end

section
/-! PROOF. Reading vector registers: what a read gives, from a register or from a stream, and what it leaves as it was (R156, R393). -/

namespace Sys2Proof.Proofs
open Sys2Proof Sys2Proof.Machine Sys2Proof.Laws

/-! ### Registers and streams -/

/-- The state after the oldest strip of an input stream is read: the running trick retains it (R156). -/
def stripRead (s : State) (k : VReg) (m : Stream) (p : Strip) (rest : List Strip) : State := s.modCtx s.cur.1 s.cur.2 fun v => { v with
  streams := tabSet v.streams k.toNat { m with buf := rest }
  running := { v.running with stripPops := (k.toNat, p) :: v.running.stripPops } }

section
variable {s t u : State} {k : VReg} {a : Vec}

theorem readV_strip {m : Stream} {p : Strip} {rest : List Strip} (hm : tabFind s.me.streams k.toNat = some m) (ho : m.out = false)
    (hb : m.buf = p :: rest) (hp : p.fault = none) : readV k s = .ok (p.data, stripRead s k m p rest) := by
  rw [State.me] at hm
  have hd : stopIf m.out .streamDirection 0#64 s = .ok ((), s) := by rw [ho]; rfl
  rw [readV, U_bind_ok (curCtx_apply s), hm]
  dsimp only
  rw [U_bind_ok hd, hb]
  dsimp only
  rw [hp]
  exact U_bind_ok (updCtx_apply _ s)

/-- What a read that answers did: it read a register as it is, or took the oldest strip of an input stream. -/
theorem readV_inv (h : readV k s = .ok (a, t)) : (Unbound s k ∧ a = s.v k ∧ t = s) ∨
    ∃ m p rest, tabFind s.me.streams k.toNat = some m ∧ m.out = false ∧ m.buf = p :: rest ∧ p.fault = none ∧ a = p.data ∧
      t = stripRead s k m p rest := by
  cases hm : tabFind s.me.streams k.toNat with
  | none =>
    cases (readV_unbound hm).symm.trans h
    exact .inl ⟨hm, rfl, rfl⟩
  | some m =>
    have h' := h
    have hm' : tabFind (s.ctx s.cur.1 s.cur.2).streams k.toNat = some m := hm
    rw [readV, U_bind_ok (curCtx_apply s), hm'] at h'
    obtain ⟨_, _, h1, h2⟩ := U_bind_inv h'
    cases ho : m.out
    case true => rw [ho] at h1; cases h1
    rw [ho] at h1
    cases h1
    cases hb : m.buf with
    | nil => rw [hb] at h2; dsimp only at h2; split at h2 <;> cases h2
    | cons p rest =>
      rw [hb] at h2
      cases hp : p.fault with
      | some f => dsimp only at h2; rw [hp] at h2; cases h2
      | none =>
        cases (readV_strip hm ho hb hp).symm.trans h
        exact .inr ⟨m, p, rest, rfl, ho, hb, hp, rfl, rfl⟩

end

/-! ### States that read alike -/

/-- Two states in which scalar and vector registers read alike. -/
structure VLike (s t : State) : Prop extends Like s t where
  v : t.me.v = s.me.v
  streams : t.me.streams = s.me.streams

section
variable {s t u : State}

theorem vLike_begun (s : State) : VLike s (begun s) := by
  refine ⟨like_begun s, ?_, begun_streams s⟩
  rcases begun_me s with h | h <;> rw [h]

theorem VLike.symm (h : VLike s t) : VLike t s := ⟨h.toLike.symm, h.v.symm, h.streams.symm⟩

theorem like_p (h : Like s t) (q : PReg) : t.p q = s.p q := by simp only [State.p, predOf, h.store, Ctx.wsp, h.wsp]

theorem reads_like {ks : List GReg} {vs : List Word} (l : VLike s t) (h : Reads ks s vs u) : ∃ w, Reads ks t vs w ∧ VLike u w := by
  induction ks generalizing s t vs with
  | nil =>
    obtain ⟨rfl, rfl⟩ := h
    exact ⟨t, ⟨rfl, rfl⟩, l⟩
  | cons k ks ih =>
    obtain ⟨a, u', r, h1, rfl, h2⟩ := h
    obtain ⟨t', h3, l'⟩ := readG_like l.toLike h1
    have hs := (onlyRead_readG h1).me
    have ht := (onlyRead_readG h3).me
    obtain ⟨w, h4, l''⟩ := ih ⟨l', by rw [ht, hs]; exact l.v, by rw [ht, hs]; exact l.streams⟩ h2
    exact ⟨w, ⟨a, t', r, h3, rfl, h4⟩, l''⟩

theorem vLike_stripRead (l : VLike s t) (k : VReg) (m : Stream) (p : Strip) (rest : List Strip) :
    VLike (stripRead s k m p rest) (stripRead t k m p rest) := by
  obtain ⟨⟨hc, hq, hst, hm, hf, hw, hu⟩, hv, hstr⟩ := l
  refine ⟨⟨hc, ?_, ?_, ?_, ?_, ?_, ?_⟩, ?_, ?_⟩ <;> simp only [stripRead, me_modCtx, mine_modCtx]
  · exact hq
  · exact hst
  · exact hm
  · exact hf
  · exact hw
  · exact hu
  · exact hv
  · rw [hstr]

theorem readV_like {k : VReg} {a : Vec} (l : VLike s t) (h : readV k s = .ok (a, u)) : ∃ w, readV k t = .ok (a, w) ∧ VLike u w := by
  rcases readV_inv h with ⟨hk, rfl, rfl⟩ | ⟨m, p, rest, hm, ho, hb, hp, rfl, rfl⟩
  · have hk' : Unbound t k := by rwa [Unbound, l.streams]
    exact ⟨t, by rw [readV_unbound hk', State.v, l.v]; rfl, l⟩
  · exact ⟨_, readV_strip (by rw [l.streams]; exact hm) ho hb hp, vLike_stripRead l k m p rest⟩

end

/-! ### What a read leaves as it was -/

section
variable {s t : State} {vs : List Vec}

theorem local_stripRead (s : State) (k : VReg) (m : Stream) (p : Strip) (rest : List Strip) : Local s (stripRead s k m p rest) :=
  local_modCtx s _ rfl

theorem local_readV {k : VReg} {a : Vec} (h : readV k s = .ok (a, t)) : Local s t := by
  rcases readV_inv h with ⟨-, -, rfl⟩ | ⟨m, p, rest, -, -, -, -, -, rfl⟩
  · exact .refl t
  · exact local_stripRead s k m p rest

theorem local_vReads {ks : List VReg} (h : VReads ks s vs t) : Local s t := by
  induction ks generalizing s vs with
  | nil => exact h.2 ▸ .refl s
  | cons k ks ih =>
    obtain ⟨a, u, r, h1, -, h2⟩ := h
    exact (local_readV h1).trans (ih h2)

/-- Whether a unit saturates stands in its own word: reading operands does not change it (R34, R36). -/
theorem vSatOf_local (h : Local s t) (m : BitVec 2) : vSatOf t.me m = vSatOf s.me m := by rw [vSatOf, vSatOf, h.me]

end

end Sys2Proof.Proofs
end

section
/-! PROOF. Element-wise vector arithmetic on integers and on floating-point formats (R158, R159, R161 to R167, R173). -/

namespace Sys2Proof.Proofs
open Sys2Proof Sys2Proof.Machine Sys2Proof.Laws

/-! ### Operands of an element -/

/-- An operand that is there, as the integer it stands for. -/
theorem getD_map_intOf (t : ElemType) {xs : List Nat} {i : Nat} (h : i < xs.length) : (xs.map (intOf t)).getD i 0 = intOf t (arg xs i) := by
  simp [arg, h]

/-- An instruction on an integer type that computes exactly and brings the result into the type (R76, R159). -/
theorem onIntegers_of {i : Instr} {d : VReg} {srcs : List VReg} {p : PReg} {t : ElemType} {m : BitVec 2} {fop : FOp}
    {iop : Bool → List Nat → Nat × Flags} {f : List Int → Int} {x : Nat} (ht : t.isInt = true)
    (he : ∀ s, exec i s = runIn (vArith d srcs p t m fop iop x) s)
    (hf : ∀ sat (xs : List Nat), xs.length = srcs.length → iop sat xs = intInto t sat (f (xs.map (intOf t)))) :
    OnIntegers i d srcs p t m f x :=
  elementwise_congr (elementwise_of ht he) fun _ _ xs hl => hf _ xs hl

theorem intOp_eq (t : ElemType) (f : Int → Int → Int) (sat : Bool) {xs : List Nat} (h : xs.length = 2) :
    intOp t f sat xs = intInto t sat (f ((xs.map (intOf t)).getD 0 0) ((xs.map (intOf t)).getD 1 0)) := by
  rw [getD_map_intOf t (by omega), getD_map_intOf t (by omega), intOp]

theorem direct_congr {i : Instr} {d : VReg} {srcs : List VReg} {p : PReg} {t : ElemType} {f g : List Nat → Nat × Flags}
    (h : Direct i d srcs p t f) (e : ∀ xs, f xs = g xs) : Direct i d srcs p t g := funext e ▸ h

/-! ### Signs -/

section
variable {i : Instr} {d s1 : VReg} {p : PReg} {t : ElemType} {m : BitVec 2} {neg : Bool}

/-- VUN neg and abs on an integer type: exact, then brought into the type (R76, R165). -/
theorem onIntegers_vSign (ht : t.isInt = true) (he : ∀ s, exec i s = runIn (vSign d s1 p t m neg) s) :
    OnIntegers i d [s1] p t m (fun xs => if neg then -xs.getD 0 0 else ((xs.getD 0 0).natAbs : Int)) 0 := by
  intro s u v vs hs hr r hw
  obtain ⟨a, rfl, h1⟩ := vReads_single hr
  rw [he]
  refine unit_vFinish hs ?_ hw
  rw [vSign, U_bind_ok (vSat_apply m _), vPure, U_bind_ok (vReads_mapM hr), U_bind_ok (oldV_apply d u), U_bind_ok (readP_apply p u)]
  simp only [ht]
  have hsat : vSatOf (begun s).me m = vSatOf u.me m := (vSatOf_local (local_readV h1) m).symm
  rw [State.me] at hsat
  rw [hsat]
  rfl

/-- On a floating-point format they change the sign alone (R165). -/
theorem direct_vSign (ht : t.isInt = false) (he : ∀ s, exec i s = runIn (vSign d s1 p t m neg) s) :
    Direct i d [s1] p t fun xs => fSign (fmtOf t) neg (xs.getD 0 0) := by
  intro s u v vs hs hr r hw
  rw [he]
  refine unit_vFinish hs ?_ hw
  rw [vSign, U_bind_ok (vSat_apply m _), vPure, U_bind_ok (vReads_mapM hr), U_bind_ok (oldV_apply d u), U_bind_ok (readP_apply p u)]
  simp only [ht]
  rfl

end

/-! ### The least and the greatest of two -/

theorem minMax_int {t : ElemType} (ht : t.isInt = true) (least : Bool) (a b : Nat) :
    minMax t least a b = (if intOf t a < intOf t b then (if least then a else b) else if least then b else a, 0#7) := by
  rw [minMax, if_pos ht]
  cases least <;> by_cases h : intOf t a < intOf t b <;> simp [h]

theorem minMax_float {t : ElemType} (ht : t.isInt = false) (least : Bool) (a b : Nat) : minMax t least a b = fMinMax (fmtOf t) least a b :=
  if_neg (by simp [ht])

/-- Settles O18: units on two operands and on three, the signs, the shift; then those that neither round nor saturate. -/
theorem vectorIntegers : Obligations.VectorIntegers := by
  unfold Obligations.VectorIntegers
  refine ⟨fun d s1 s2 p t m ht => ⟨?_, ?_, ?_, ?_, ?_, ?_, ?_, ?_⟩, fun d s1 s2 p t => ⟨fun ht => ⟨?_, ?_⟩, fun ht => ⟨?_, ?_⟩, ?_⟩⟩
  · exact onIntegers_of ht (fun s => show execVadd d s1 s2 p t m s = _ from rfl) fun sat xs hl => intOp_eq t _ sat hl
  · exact onIntegers_of ht (fun s => show execVsub d s1 s2 p t m s = _ from rfl) fun sat xs hl => intOp_eq t _ sat hl
  · exact onIntegers_of ht (fun s => show execVmul d s1 s2 p t m s = _ from rfl) fun sat xs hl => intOp_eq t _ sat hl
  · refine onIntegers_of ht (fun s => show execVfma d s1 s2 p t m s = _ from rfl) fun sat xs hl => ?_
    have hl : xs.length = 3 := hl
    rw [getD_map_intOf t (by omega), getD_map_intOf t (by omega), getD_map_intOf t (by omega)]
  · exact onIntegers_of ht (fun s => show execVdiv d s1 s2 p t m s = _ from rfl) fun sat xs hl => intOp_eq t _ sat hl
  · exact onIntegers_vSign (neg := true) ht fun _ => rfl
  · exact onIntegers_vSign (neg := false) ht fun _ => rfl
  · exact elementwise_of (iop := fun sat xs => shiftElem t sat (arg xs 0) (arg xs 1)) ht fun s => show execVsh d s1 s2 p t m s = _ from rfl
  · exact direct_congr (direct_of fun _ => rfl) fun xs => minMax_int ht true _ _
  · exact direct_congr (direct_of fun _ => rfl) fun xs => minMax_int ht false _ _
  · exact direct_congr (direct_of fun _ => rfl) fun xs => minMax_float ht true _ _
  · exact direct_congr (direct_of fun _ => rfl) fun xs => minMax_float ht false _ _
  · exact ⟨direct_of fun _ => rfl, direct_of fun _ => rfl, direct_of fun _ => rfl, direct_of fun _ => rfl, direct_of fun _ => rfl,
      direct_of fun _ => rfl, direct_of fun _ => rfl, direct_of fun _ => rfl, direct_of fun _ => rfl, direct_of fun _ => rfl, direct_of fun _ => rfl⟩

/-! ### Rounding to an integral value -/

/-- VUN rint takes the normaliser for a subnormal operand alone (R85, R165). -/
theorem elementwise_vunRint {d s1 : VReg} {p : PReg} {t : ElemType} {m : BitVec 2} (ht : t.isInt = false) :
    Elementwise (.vunRint d s1 p t m) d [s1] p t.width (fun u e xs => fRint (fmtOf t) (vModeOf u.me m) (u.rnd e) (xs.getD 0 0))
      (fun u vs => anySubnormal (fmtOf t) t.width (u.p p) (vs.getD 0 0#2048)) 0 := by
  intro s u v vs hs hr r hw
  obtain ⟨a, rfl, -⟩ := vReads_single hr
  refine unit_vector hs ?_
  rw [vArith, U_bind_ok (vReads_mapM hr), U_bind_ok (oldV_apply d u), U_bind_ok (readP_apply p u)]
  dsimp only
  rw [if_neg (by simp [ht]), U_bind_ok (vMode_apply m u), U_bind_ok (unitRnd_apply u), Bool.not_true, Bool.false_and, Bool.or_false,
    List.any_cons, List.any_nil, Bool.or_false]
  exact vFinish_ok hw

/-- VFUN on a function, in full precision or not (R158, R173). -/
theorem onFloats_vFun {i : Instr} {d s1 : VReg} {p : PReg} {m : BitVec 2} {g : Fun} {a : Bool} (he : ∀ s, exec i s = runIn (vFun g d s1 a p m) s) :
    OnFloats i d [s1] p .f32 m (fun _ md r xs => fFun g a md r (xs.getD 0 0)) (if a then 4 else 24) := onFloats_of rfl he

/-- Settles O19: each unit by the operation it rounds; VUN rint, whose results are never tiny, and the signs, which round nothing. -/
theorem vectorFloats : Obligations.VectorFloats := by
  unfold Obligations.VectorFloats
  intro d s1 s2 p t m ht
  refine ⟨?_, ?_, ?_, ?_, ?_, ?_, elementwise_vunRint ht, direct_vSign (neg := true) ht fun _ => rfl,
    direct_vSign (neg := false) ht fun _ => rfl, fun a => ?_, ?_, ?_⟩
  · exact onFloats_of ht fun s => show execVadd d s1 s2 p t m s = _ from rfl
  · exact onFloats_of ht fun s => show execVsub d s1 s2 p t m s = _ from rfl
  · exact onFloats_of ht fun s => show execVmul d s1 s2 p t m s = _ from rfl
  · exact onFloats_of ht fun s => show execVfma d s1 s2 p t m s = _ from rfl
  · exact onFloats_of ht fun s => show execVdiv d s1 s2 p t m s = _ from rfl
  · exact onFloats_of ht fun s => show execVsqrt d s1 p t m s = _ from rfl
  · exact ⟨onFloats_vFun fun _ => rfl, onFloats_vFun fun _ => rfl, onFloats_vFun fun _ => rfl, onFloats_vFun fun _ => rfl,
      onFloats_vFun fun _ => rfl, onFloats_vFun fun _ => rfl, onFloats_vFun fun _ => rfl⟩
  · exact onFloats_of rfl fun s => show execCVaddF32 d s1 s = _ from rfl
  · exact onFloats_of rfl fun s => show execCVmulF32 d s1 s = _ from rfl

end Sys2Proof.Proofs
end

section
/-! PROOF. VCVT, and exact results brought into a type and onto a grid (R76 to R79, R172). -/

namespace Sys2Proof.Proofs
open Sys2Proof Sys2Proof.Machine Sys2Proof.Laws

/-- A choice between two computations, and then one more. -/
theorem ite_bind {α β : Type} (c : Prop) [Decidable c] (m n : U α) (f : α → U β) : (if c then m >>= f else n >>= f) = (if c then m else n) >>= f :=
  (apply_ite (· >>= f) c m n).symm

/-! ### Integers brought into a type -/

section
variable {t : ElemType} {v : Int}

theorem intMin_le_intMax (t : ElemType) : intMin t ≤ intMax t := by cases t <;> decide

theorem intInto_below (h : v < intMin t) : intInto t true v = ((intInto t false (intMin t)).1, flagSA) := by simp [intInto, h]

theorem intInto_above (h : intMax t < v) : intInto t true v = ((intInto t false (intMax t)).1, flagSA) := by
  have hl : ¬ v < intMin t := not_lt.2 ((intMin_le_intMax t).trans h.le)
  simp [intInto, hl, h]

theorem intInto_inside (hl : intMin t ≤ v) (hu : v ≤ intMax t) : intInto t true v = intInto t false v := by
  simp [intInto, not_lt.2 hl, not_lt.2 hu]

/-- A value inside the range of an integer type is the one its element stands for (R75, R76). -/
theorem intOf_intInto (ht : t.isInt = true) (hl : intMin t ≤ v) (hu : v ≤ intMax t) : intOf t (intInto t false v).1 = v := by
  rw [intInto_wraps]
  cases t <;> simp only [ElemType.isInt, Bool.false_eq_true] at ht <;> simp only [intMin, intMax, intOf, ElemType.width] at hl hu ⊢ <;> omega

end

/-! ### Neighbours on a grid -/

section
variable {mode : Rounding} {rnd : Nat} {neg : Bool} {m : Nat} {e q : Int}

theorem pickGrid_on (h : q ≤ e) : pickGrid mode rnd neg ⟨m, e, false⟩ q = (m * 2 ^ (e - q).toNat, false) := if_pos h

theorem pickGrid_between (h : e < q) : pickGrid mode rnd neg ⟨m, e, false⟩ q =
    (if selectUp mode rnd neg (m / 2 ^ (q - e).toNat % 2 == 1) (m % 2 ^ (q - e).toNat) (q - e).toNat false
      then m / 2 ^ (q - e).toNat + 1 else m / 2 ^ (q - e).toNat, m % 2 ^ (q - e).toNat != 0) := by
  rw [pickGrid, if_neg (not_le.2 h)]
  simp

end

section
variable {mode : Rounding} {rnd : Nat} {neg odd : Bool} {rem k : Nat}

/-- A value on the grid is kept in every mode (R79, R81). -/
theorem selectUp_zero (hr : rnd < 2 ^ 32) : selectUp mode rnd neg odd 0 k false = false := by
  cases mode <;> simp [selectUp]
  case rne => exact fun h => absurd h (Nat.two_pow_pos k).ne
  case rst => exact hr

/-- To nearest, the upper neighbour is selected from the middle on, and the lower one up to the middle (R79). -/
theorem selectUp_nearest (hm : mode = .rne ∨ mode = .rna) : if selectUp mode rnd neg odd rem k false then 2 ^ k ≤ 2 * rem else 2 * rem ≤ 2 ^ k := by
  rcases hm with rfl | rfl
  · by_cases h : 2 ^ k < 2 * rem
    · simp [selectUp, h, h.le]
    · by_cases h2 : 2 * rem = 2 ^ k
      · simp [selectUp, h2]
      · simp [selectUp, h, h2, not_lt.1 h]
  · by_cases h : 2 ^ k ≤ 2 * rem
    · have : rem ≠ 0 := by rintro rfl; exact absurd (Nat.two_pow_pos k) (not_lt.2 h)
      simp [selectUp, h, this]
    · simp [selectUp, h, (not_le.1 h).le]

/-- On a tie the mode to even looks at the lower neighbour, and the one away from zero takes the upper (R79). -/
theorem selectUp_tie_even (h : 2 * rem = 2 ^ k) : selectUp .rne rnd neg odd rem k false = odd := by simp [selectUp, h]

theorem selectUp_tie_away (h : 2 * rem = 2 ^ k) : selectUp .rna rnd neg odd rem k false = true := by
  have : rem ≠ 0 := by rintro rfl; exact (Nat.two_pow_pos k).ne h
  simp [selectUp, h, this]

end

/-- One of the two neighbours of `m` among the multiples of `g`, as its factor. -/
def neighbour (m g : Nat) (up : Bool) : Nat := if up then m / g + 1 else m / g

theorem neighbour_or (m g : Nat) (up : Bool) : neighbour m g up = m / g ∨ neighbour m g up = m / g + 1 := by
  cases up
  · exact .inl rfl
  · exact .inr rfl

theorem neighbour_mul_eq_iff {m g : Nat} {up : Bool} (hz : m % g = 0 → up = false) : neighbour m g up * g = m ↔ m % g = 0 := by
  refine ⟨fun h => ?_, fun h => ?_⟩
  · rw [← h, Nat.mul_mod_left]
  · rw [hz h]; exact Nat.div_mul_cancel (Nat.dvd_of_mod_eq_zero h)

/-- The neighbour selected from the middle of its gap on is at most half a gap away. -/
theorem neighbour_near {m g : Nat} {up : Bool} (h : if up then g ≤ 2 * (m % g) else 2 * (m % g) ≤ g) (hg : 0 < g) :
    2 * (neighbour m g up * g) ≤ 2 * m + g ∧ 2 * m ≤ 2 * (neighbour m g up * g) + g := by
  have hd := Nat.div_add_mod' m g
  have hl := Nat.mod_lt m hg
  cases up
  · simp only [neighbour, Bool.false_eq_true, if_false] at h ⊢
    omega
  · simp only [neighbour, if_true, Nat.add_mul, Nat.one_mul] at h ⊢
    omega

/-- Settles O21: VCVT by what it reads and writes; an integer below, inside and above the range of its type; a value on the grid, and one between
two of its points by the neighbour that each mode selects. -/
theorem vectorConversions : Obligations.VectorConversions := by
  unfold Obligations.VectorConversions
  refine ⟨?_, fun t v ht => ⟨congrArg Prod.fst (intInto_wraps t v), congrArg Prod.snd (intInto_wraps t v),
    fun hl hu => ⟨intOf_intInto ht hl hu, intInto_inside hl hu⟩, intInto_below, intInto_above⟩, fun mode rnd neg m e q hr => ⟨pickGrid_on, fun h => ?_⟩⟩
  · intro d s1 st p t m hi s u v a hs hr ns nt n dj dk sat mode x act es norm hw
    have he : exec (if hi then .vcvtHi d s1 st p t m else .vcvt d s1 st p t m) s = runIn (vConvert d s1 st p t m hi) s := by cases hi <;> rfl
    have hmode : (if t.isInt then vMode 0#2 else vMode m) u = .ok (mode, u) := by cases ht : t.isInt <;> simp [mode, ht, State.me]
    rw [he]
    refine unit_vector hs ?_
    rw [vConvert, U_bind_ok (vReads_one hr), U_bind_ok (oldV_apply d u), U_bind_ok (readP_apply p u), U_bind_ok (vSat_apply m u),
      ite_bind, U_bind_ok hmode]
    exact (U_bind_ok (unitRnd_apply u)).trans <| (U_bind_ok hw).trans (U_bind_ok (raiseFlags_apply _ v))
  · rw [pickGrid_between h]
    generalize (q - e).toNat = k
    intro g n
    have hg : 0 < g := Nat.two_pow_pos k
    set up := selectUp mode rnd neg (m / g % 2 == 1) (m % g) k false with hup
    have hn : n = neighbour m g up := rfl
    have hz : m % g = 0 → up = false := fun h0 => by rw [hup, h0]; exact selectUp_zero hr
    have hi := neighbour_mul_eq_iff hz
    rw [hn]
    refine ⟨neighbour_or m g up, fun hd => hi.2 (Nat.mod_eq_zero_of_dvd hd), bne_iff_ne.trans (not_congr hi.symm), ?_, ?_, ?_, ?_⟩
    · rintro rfl; rfl
    · exact fun hm => neighbour_near (selectUp_nearest hm) hg
    · rintro rfl ht
      rw [hup, selectUp_tie_even ht, neighbour]
      cases hb : m / g % 2 == 1 <;> simp at hb ⊢ <;> omega
    · rintro rfl ht
      rw [hup, selectUp_tie_away ht]; rfl

end Sys2Proof.Proofs
end

section
/-! PROOF. Scans of vectors (R176). -/

namespace Sys2Proof.Proofs
open Sys2Proof Sys2Proof.Machine Sys2Proof.Laws

/-! ### Element by element -/

section
variable {w n i : Nat} {p : Pred} {a old : Vec} {first : Nat → Nat → Nat × Flags} {comb : Nat → Nat → Nat → Nat × Flags}

theorem scanFrom_inactive (run : Option Nat) (h : active p w i = false) : scanFrom w p a old first comb (n + 1) i run =
    (elem old w i :: (scanFrom w p a old first comb n (i + 1) run).1, (scanFrom w p a old first comb n (i + 1) run).2) := by
  rw [scanFrom, h]
  rfl

theorem scanFrom_first (h : active p w i = true) : scanFrom w p a old first comb (n + 1) i none =
    ((first i (elem a w i)).1 :: (scanFrom w p a old first comb n (i + 1) (some (first i (elem a w i)).1)).1,
      (first i (elem a w i)).2 ||| (scanFrom w p a old first comb n (i + 1) (some (first i (elem a w i)).1)).2) := by
  rw [scanFrom, h]
  rfl

theorem scanFrom_next (z : Nat) (h : active p w i = true) : scanFrom w p a old first comb (n + 1) i (some z) =
    ((comb i z (elem a w i)).1 :: (scanFrom w p a old first comb n (i + 1) (some (comb i z (elem a w i)).1)).1,
      (comb i z (elem a w i)).2 ||| (scanFrom w p a old first comb n (i + 1) (some (comb i z (elem a w i)).1)).2) := by
  rw [scanFrom, h]
  rfl

end

/-! ### The units -/

/-- What a scan gives for its first active element: the element as it is, but the canonical NaN for a NaN (R66, R176). -/
def scanFirst (t : ElemType) (x : Nat) : Nat × Flags :=
  if !t.isInt && (fmtOf t).isNaN x then ((fmtOf t).canonNaN, (fmtOf t).sFlag x) else (x, 0#7)

/-- The elements that a scan writes under a predicate, with its flags (R176). -/
def scanned (t : ElemType) (p : Pred) (a old : Vec) (comb : Nat → Nat → Nat → Nat × Flags) : List Nat × Flags :=
  scanFrom t.width p a old (fun _ x => scanFirst t x) comb (2048 / t.width) 0 none

section
variable {d s1 : VReg} {p : PReg} {t : ElemType} {m : BitVec 2} {s u v : State} {a : Vec} {r : List Nat × Flags}
  (hs : Runs s) (hr : VReads [s1] (begun s) [a] u) (hw : VWrites d (pack t.width r.1) (u.p p) u v)
include hs hr hw

theorem unit_scanMinMax {least : Bool} (he : r = scanned t (u.p p) a (u.v d) fun _ z x => minMax t least z x) :
    runIn (scanMinMax d s1 p t least) s = .next (vretired s (raised v r.2) false 0) := by
  subst he
  refine unit_vFinish (r := (_, _)) hs ?_ hw
  rw [scanMinMax, U_bind_ok (vReads_one hr), U_bind_ok (oldV_apply d u), U_bind_ok (readP_apply p u)]
  rfl

theorem exec_vscanAdd_int (ht : t.isInt = true)
    (he : r = scanned t (u.p p) a (u.v d) fun _ z x => intInto t (vSatOf u.me m) (intOf t z + intOf t x)) :
    exec (.vscanAdd d s1 p t m) s = .next (vretired s (raised v r.2) false 0) := by
  have hf : (fun _ x => scanFirst t x : Nat → Nat → Nat × Flags) = fun _ x => (x, 0#7) := by simp [scanFirst, ht]
  rw [scanned, hf] at he
  subst he
  refine unit_vFinish (r := (_, _)) hs ?_ hw
  rw [U_bind_ok (vReads_one hr), U_bind_ok (oldV_apply d u), U_bind_ok (readP_apply p u)]
  dsimp only
  rw [if_pos ht, U_bind_ok (vSat_apply m u)]
  rfl

theorem exec_vscanAdd_float (ht : t.isInt = false)
    (he : r = scanned t (u.p p) a (u.v d) fun i z x => fAdd (fmtOf t) (vModeOf u.me m) (u.rnd i) z x) :
    exec (.vscanAdd d s1 p t m) s = .next (vretired s (raised v r.2)
      (anySubnormal (fmtOf t) t.width (u.p p) a || anySubnormal (fmtOf t) t.width (u.p p) (pack t.width r.1)) 0) := by
  have hf : (fun _ x => scanFirst t x : Nat → Nat → Nat × Flags) =
      fun _ x => if (fmtOf t).isNaN x then ((fmtOf t).canonNaN, (fmtOf t).sFlag x) else (x, 0#7) := by simp [scanFirst, ht]
  rw [scanned, hf] at he
  subst he
  refine unit_vector hs ?_
  rw [U_bind_ok (vReads_one hr), U_bind_ok (oldV_apply d u), U_bind_ok (readP_apply p u)]
  dsimp only
  rw [if_neg (by simp [ht]), U_bind_ok (vMode_apply m u), U_bind_ok (unitRnd_apply u)]
  exact vFinish_ok (r := (_, _)) hw

end

/-- Settles O23: each unit by the elements that it writes; a step of a scan by whether its element is active, and whether it is the first one. -/
theorem vectorScans : Obligations.VectorScans := by
  unfold Obligations.VectorScans
  refine ⟨fun d s1 p t m s u v a hs hr => ⟨fun hw => unit_scanMinMax hs hr hw rfl, fun hw => unit_scanMinMax hs hr hw rfl,
    fun ht hw => exec_vscanAdd_int hs hr hw ht rfl, fun ht hw => exec_vscanAdd_float hs hr hw ht rfl⟩,
    fun w p a old first comb n i run => ⟨scanFrom_inactive run, fun h => ?_⟩⟩
  cases run with
  | none => exact scanFrom_first h
  | some z => exact scanFrom_next z h

end Sys2Proof.Proofs
end

section
/-! PROOF. VLD, VST, VGATH and VSCAT (R154, R181 to R183, R193, R528). -/

namespace Sys2Proof.Proofs
open Sys2Proof Sys2Proof.Machine Sys2Proof.Laws

/-! ### Elements and their addresses -/

section
variable {s t u w : State} {p : PReg} {y : ElemType}

theorem needAligned_ok {a : Word} {n : Nat} (h : a.toNat % n = 0) : needAligned a n s = .ok ((), s) := by
  rw [needAligned, h]
  rfl

theorem rowAddrs_reads {s1 s2 : GReg} {a o : Word} (hr : Reads [s1, s2] s [a, o] u) (ha : (a + o).toNat % (y.width / 8) = 0) :
    rowAddrs s1 s2 p y s = .ok (activeAddrs (u.p p) y.width fun i => a + o + BitVec.ofNat 64 (i * (y.width / 8)), u) := by
  obtain ⟨v, h1, h2⟩ := reads_two hr
  rw [rowAddrs, U_bind_ok h1, U_bind_ok h2, U_bind_ok (needAligned_ok ha), U_bind_ok (readP_apply p u)]
  rfl

theorem gatherAddrs_reads {s1 : GReg} {s2 : VReg} {a : Word} {idx : Vec} (hr : Reads [s1] s [a] t) (ha : a.toNat % (y.width / 8) = 0)
    (hi : VReads [s2] t [idx] u) : gatherAddrs s1 s2 p y s =
      .ok (activeAddrs (u.p p) y.width fun i => a + BitVec.ofNat 64 (elem idx y.width i * (y.width / 8)), u) := by
  rw [gatherAddrs, U_bind_ok (reads_one hr), U_bind_ok (needAligned_ok ha), U_bind_ok (vReads_one hi), U_bind_ok (readP_apply p u)]
  rfl

/-- A computation of elements and their addresses gives, inside the trick of its unit, what it gives before: the unit finds itself remote or not
by the addresses it then uses (R193). -/
def Addresses (m : U (List (Nat × Word))) (s : State) (es : List (Nat × Word)) (u : State) : Prop :=
  m (begun s) = .ok (es, u) ∧ u.cur = s.cur ∧ ∃ w, m s = .ok (es, w)

theorem addresses_row {s1 s2 : GReg} {a o : Word} (hr : Reads [s1, s2] (begun s) [a, o] u) (ha : (a + o).toNat % (y.width / 8) = 0) :
    Addresses (rowAddrs s1 s2 p y) s (activeAddrs (u.p p) y.width fun i => a + o + BitVec.ofNat 64 (i * (y.width / 8))) u := by
  obtain ⟨w, hw, l⟩ := reads_like (vLike_begun s).symm hr
  refine ⟨rowAddrs_reads hr ha, (reads_cur hr).trans (begun_cur s), w, ?_⟩
  rw [← like_p l.toLike]
  exact rowAddrs_reads hw ha

theorem addresses_gather {s1 : GReg} {s2 : VReg} {a : Word} {idx : Vec} (hr : Reads [s1] (begun s) [a] t)
    (ha : a.toNat % (y.width / 8) = 0) (hi : VReads [s2] t [idx] u) :
    Addresses (gatherAddrs s1 s2 p y) s (activeAddrs (u.p p) y.width fun i => a + BitVec.ofNat 64 (elem idx y.width i * (y.width / 8))) u := by
  obtain ⟨t', ht, l⟩ := reads_like (vLike_begun s).symm hr
  obtain ⟨w, hw, l'⟩ := readV_like l (vReads_one hi)
  refine ⟨gatherAddrs_reads hr ha hi, (local_vReads hi).cur.trans ((reads_cur hr).trans (begun_cur s)), w, ?_⟩
  rw [← like_p l'.toLike]
  exact gatherAddrs_reads ht ha ⟨_, _, _, hw, rfl, rfl, rfl⟩

end

/-! ### Elements of the own scratchpad -/

section
variable {s t u v w : State} {n i : Nat} {es : List (Nat × Word)}

theorem vectorRemote_ok {m : U (List (Nat × Word))} (h : m s = .ok (es, t)) :
    vectorRemote s m = es.any fun e => namesOther s.cur.1 e.2 && e.2.extractLsb' 32 32 == 0#32 := by
  have hm : m.run s = .ok (es, t) := h
  simp [vectorRemote, hm]

theorem elemFault_own (h : ∀ e ∈ es, InOwn s e.2 n (e.2.toNat % 2 ^ 18)) : elemFault s s.cur.1 s.cur.2 n false es = none := by
  induction es with
  | nil => rfl
  | cons e es ih =>
    obtain ⟨⟨hf, hS⟩, hes⟩ := List.forall_mem_cons.1 h
    rw [elemFault, hf]
    dsimp only
    rw [if_neg (fun h => h.1 rfl), if_pos (.inl rfl), ownerFault_own rfl (.inr hS)]
    exact ih hes

theorem frontFault_own (h : ∀ e ∈ es, InOwn s e.2 n (e.2.toNat % 2 ^ 18)) : frontFault n es s = .ok ((), s) := by
  rw [frontFault, U_bind_ok (getS_apply s)]
  rw [elemFault_own]
  · rfl
  · intro e he
    refine h e ?_
    split at he
    · exact he
    · exact List.takeWhile_subset _ he

theorem vectorRemote_own {m : U (List (Nat × Word))} (ha : Addresses m s es u) (h : ∀ e ∈ es, InOwn u e.2 n (e.2.toNat % 2 ^ 18)) :
    vectorRemote s m = false := by
  obtain ⟨-, hc, w, hw⟩ := ha
  rw [vectorRemote_ok hw, List.any_eq_false]
  intro e he
  obtain ⟨hf, -⟩ := h e he
  rw [hc] at hf
  rw [lsFront_other hf]
  simp

theorem begun_accepted (s : State) : (begun s).me.accepted = s.me.accepted := by rcases begun_me s with h | h <;> rw [h]

section
variable {m : U (List (Nat × Word))} {d : VReg} {p : PReg} {y : ElemType} (hs : Runs s) (ha : Addresses m s es u)
  (h : ∀ e ∈ es, InOwn u e.2 (y.width / 8) (e.2.toNat % 2 ^ 18))
include hs ha h

/-- VLD and VGATH on the own scratchpad: the elements are loaded in order and merged into the destination (R181 to R183). -/
theorem vectorLoad_own {l : List (Nat × Nat)} (hl : loadElems (y.width / 8) es u = .ok (l, v))
    (hw : VWrites d (mergeElems y (v.v d) l) (v.p p) v w) : vectorLoad m d p y s = .next (retired s w) := by
  rw [vectorLoad, vectorRemote_own ha h]
  refine unit_next hs ?_
  rw [U_bind_ok ha.1, U_bind_ok (frontFault_own h), U_bind_ok hl, U_bind_ok (oldV_apply d v), U_bind_ok (readP_apply p v)]
  exact U_bind_ok hw

/-- VST and VSCAT on the own scratchpad: the elements of the source are stored in order (R181 to R183, R194). -/
theorem vectorStore_own {x : Vec} (hacc : s.me.accepted = []) (hx : VReads [d] u [x] v) (hw : storeElems (y.width / 8) y x es v = .ok ((), w)) :
    vectorStore m d p y s = .next (retired s w) := by
  rw [vectorStore, vectorRemote_own ha h]
  refine unit_next hs ?_
  rw [U_bind_ok (needAccepted_ok ((begun_accepted s).trans hacc)), U_bind_ok ha.1, U_bind_ok (frontFault_own h), U_bind_ok (vReads_one hx)]
  exact U_bind_ok hw

end

/-! ### Loads and stores, element by element -/

theorem loadElems_cons {l : List (Nat × Nat)} {ea : Word} (hf : LoadFree s (ea.toNat % 2 ^ 18) n)
    (h : loadElems n es (loaded s (ea.toNat % 2 ^ 18) n) = .ok (l, t)) :
    loadElems n ((i, ea) :: es) s = .ok ((i, memRead s.mine.store (ea.toNat % 2 ^ 18) n) :: l, t) := by
  rw [loadElems, U_bind_ok (lsLoad_free hf), U_bind_ok h]
  rfl

theorem storeElems_cons {y : ElemType} {x : Vec} {ea : Word} (hf : StoreFree s (ea.toNat % 2 ^ 18) n) (hg : LogRoom s (ea.toNat % 2 ^ 18) n)
    (h : storeElems n y x es (stored s (ea.toNat % 2 ^ 18) n (laneOf y (elem x y.width i))) = .ok ((), t)) :
    storeElems n y x ((i, ea) :: es) s = .ok ((), t) := by
  rw [storeElems, U_bind_ok (lsStore_free hf hg), h]

end

/-! ### Loaded elements in their vector -/

section
variable {y : ElemType} {i : Nat} {old : Vec} {l : List (Nat × Nat)}

/-- An element that was not loaded keeps its value (R154). -/
theorem elem_mergeElems_absent (hi : i < 2048 / y.width) (h : ∀ e ∈ l, e.1 ≠ i) :
    elem (mergeElems y old l) y.width i = elem old y.width i := by
  have hn : l.find? (·.1 == i) = none := by simpa using h
  rw [mergeElems, elem_pack _ hi, List.getD_eq_getElem?_getD]
  simp [count, hi, hn, elem]

/-- A loaded element is the one value that was loaded for its place (R65, R181). -/
theorem elem_mergeElems_loaded {x : Nat} (hi : i < 2048 / y.width) (hm : (i, x) ∈ l) (hd : (l.map (·.1)).Nodup) :
    elem (mergeElems y old l) y.width i = laneOf y x % 2 ^ y.width := by
  have hf : l.find? (·.1 == i) = some (i, x) := by
    cases hq : l.find? (·.1 == i) with
    | none => exact absurd (List.find?_eq_none.1 hq _ hm) (by simp)
    | some q =>
      have hqi : q.1 = i := by simpa using List.find?_some hq
      exact congrArg some (List.inj_on_of_nodup_map hd (List.mem_of_find?_eq_some hq) hm hqi)
  rw [mergeElems, elem_pack _ hi, List.getD_eq_getElem?_getD]
  simp [count, hi, hf]

end

/-! ### Elements in other cores' scratchpads -/

theorem sendVector_apply (st : Bool) (d : VReg) (p : PReg) (y : ElemType) (es : List (Nat × Word)) (x : Vec) (s : State) :
    sendVector st d p y es x s = .ok (.hold .reply, sendingVector s st d p y es x) := rfl

section
variable {s u v : State} {m : U (List (Nat × Word))} {es : List (Nat × Word)} {d : VReg} {p : PReg} {y : ElemType} (hs : Quiet s)
  (ha : m s = .ok (es, u)) (he : ∃ e ∈ es, namesOther s.cur.1 e.2 = true ∧ e.2.extractLsb' 32 32 = 0#32)
  (hf : frontFault (y.width / 8) es u = .ok ((), u))

include ha he in
theorem vectorRemote_other : vectorRemote s m = true := by
  obtain ⟨e, hm, h1, h2⟩ := he
  rw [vectorRemote_ok ha, List.any_eq_true]
  exact ⟨e, hm, by simp [h1, h2]⟩

include hs ha he hf

/-- VLD and VGATH with an element elsewhere leave the trick and wait for the owners (R193, R528). -/
theorem vectorLoad_other : vectorLoad m d p y s = .next (waiting s (sendingVector u false d p y es (u.v d)) .reply) := by
  rw [vectorLoad, vectorRemote_other ha he]
  refine (runOp_ok (a := .hold .reply) hs ?_).trans (congrArg _ (finish_hold _))
  rw [U_bind_ok ha, U_bind_ok hf, U_bind_ok (oldV_apply d u)]
  exact sendVector_apply ..

/-- So do VST and VSCAT, with the values that they store. -/
theorem vectorStore_other {x : Vec} (hx : VReads [d] u [x] v) :
    vectorStore m d p y s = .next (waiting s (sendingVector v true d p y es x) .reply) := by
  rw [vectorStore, vectorRemote_other ha he]
  refine (runIrr_ok (a := .hold .reply) hs ?_).trans (congrArg _ (finish_hold _))
  rw [U_bind_ok ha, U_bind_ok hf, U_bind_ok (vReads_one hx)]
  exact sendVector_apply ..

end

/-- Settles O28: rows, then gathered elements, in the own scratchpad; one element after the other; a vector with what was loaded; then rows and
gathered elements elsewhere. -/
theorem vectorAccesses : Obligations.VectorAccesses := by
  unfold Obligations.VectorAccesses
  refine ⟨⟨?_, ?_, ?_, fun y i old l hi => ⟨elem_mergeElems_absent hi, fun x hm hd => elem_mergeElems_loaded hi hm hd⟩⟩, ?_, ?_⟩
  · intro d s1 s2 p t s u v w a o l n es hs hr ha he
    have h := addresses_row (p := p) hr ha
    refine ⟨fun hl hw => ⟨vectorLoad_own hs h he hl hw, ?_⟩, fun hacc x hx hw => ⟨vectorStore_own hs h he hacc hx hw, ?_⟩⟩
    · rintro rfl rfl rfl; exact vectorLoad_own hs h he hl hw
    · rintro rfl rfl rfl; exact vectorStore_own hs h he hacc hx hw
  · intro d s2 s1 p t s r u v w a idx l n es hs hr ha hi he
    have h := addresses_gather (p := p) hr ha hi
    exact ⟨fun hl hw => vectorLoad_own hs h he hl hw, fun hacc x hx hw => vectorStore_own hs h he hacc hx hw⟩
  · exact fun n i y x ea es s t l => ⟨rfl, rfl, loadElems_cons, storeElems_cons⟩
  · intro d s1 s2 p t s u a o n es hs hr ha he hf
    have h := rowAddrs_reads (p := p) hr ha
    refine ⟨vectorLoad_other hs h he hf, ?_, fun x v hx => ⟨vectorStore_other hs h he hf hx, ?_⟩⟩
    · rintro rfl rfl rfl; exact vectorLoad_other hs h he hf
    · rintro rfl rfl rfl; exact vectorStore_other hs h he hf hx
  · intro d s2 s1 p t s r u a idx n es hs hr ha hi he hf
    have h := gatherAddrs_reads (p := p) hr ha hi
    exact ⟨vectorLoad_other hs h he hf, fun x v hx => vectorStore_other hs h he hf hx⟩

end Sys2Proof.Proofs
end

section
/-! PROOF. Strips of streams, and the host's replies to loads (R156, R236, R387, R392 to R394). -/

namespace Sys2Proof.Proofs
open Sys2Proof Sys2Proof.Machine Sys2Proof.Laws

/-! ### Strips in memory -/

/-- The granules of a strip make up its 256 bytes (R393). -/
theorem sum_granulesOf (a : Word) : ((granulesOf a).map (·.2)).sum = 256 := by
  by_cases h : a.toNat % 64 = 0
  · simp [granulesOf, h, List.range_succ]
  · simp [granulesOf, h, List.range_succ]
    omega

/-- The bytes of a granule that are written: those whose predicate bits are 1 (R156). -/
theorem mem_stripBytes {p : Strip} {first n : Nat} {ea : Word} {b : Word × List Byte} : b ∈ stripBytes p first n ea ↔
    ∃ i, i < n ∧ p.pred.getLsbD (first + i) = true ∧ b = (ea + BitVec.ofNat 64 i, [p.data.extractLsb' (8 * (first + i)) 8]) := by
  simp only [stripBytes, List.mem_map, List.mem_filter, List.mem_range, and_assoc, eq_comm]

/-- What is written next is the part under the predicate of one granule of the strip (R156, R393). -/
theorem stripGranule_some {m : Stream} {p : Strip} {bs : List (Word × List Byte)} {first len : Nat} (h : stripGranule m p = some (bs, first, len)) :
    ∃ ea, first = (ea - m.addr p.index).toNat ∧ bs = stripBytes p first len ea := by
  obtain ⟨g, -, hg⟩ := List.exists_of_findSome?_eq_some h
  dsimp only at hg
  split at hg
  · cases hg
  · cases hg
    exact ⟨g.1, rfl, rfl⟩

theorem stripGranule_bytes {m : Stream} {p : Strip} {bs : List (Word × List Byte)} {first len : Nat} (h : stripGranule m p = some (bs, first, len)) :
    ∀ b ∈ bs, ∃ i, first ≤ i ∧ i < first + len ∧ p.pred.getLsbD i = true ∧
      b = (m.addr p.index + BitVec.ofNat 64 i, [p.data.extractLsb' (8 * i) 8]) := by
  obtain ⟨ea, hf, rfl⟩ := stripGranule_some h
  have hea : ea = m.addr p.index + BitVec.ofNat 64 first := by rw [hf, BitVec.ofNat_toNat, BitVec.setWidth_eq]; bv_omega
  intro b hb
  obtain ⟨i, hi, hp, rfl⟩ := mem_stripBytes.1 hb
  refine ⟨first + i, by omega, by omega, hp, ?_⟩
  rw [hea, BitVec.ofNat_add, BitVec.add_assoc]

theorem addr_affine {m : Stream} {n : Nat} {b : Int} (h : m.dims = [(n, b)]) (y : Nat) :
    m.addr y = m.base + BitVec.ofInt 64 ((y % n : Nat) * b) := by
  rw [Stream.addr, h]
  rfl

/-! ### Filling -/

/-- What a fill makes of the answer to its read of a granule: the bytes join the strip, or the fill waits, or the strip is done with a fault
(R236, R393, R394). -/
def fillAnswered (c : CoreId) (x : CtxId) (r : VReg) (m : Stream) (ea : Word) : Reach (List Byte) × State → Out
  | (.ok b, t) => .next ((t.setStream c.toNat x.toNat r.toNat { m with part := m.part ++ b, hostWait := none, hostData := [] }).post 1
      (.streamStripFill c x r))
  | (.later, t) => .next (t.post 1 (.streamStripFill c x r))
  | (.line l n, t) => .next (t.hold (.streamStripFill c x r) [lineKey l] n)
  | (.fail _, t) => .next (((t.unhold (.streamStripFill c x r)).setStream c.toNat x.toNat r.toNat (m.filled
      { index := m.next, data := 0#2048, pred := 0#256, fault := some (fillFault t c.toNat m ea) })).post 1 (.streamStripFill c x r))
  | (.host pa, t) => .next ((streamHost t c.toNat x.toNat r.toNat m pa).post 1 (.streamStripFill c x r))

section
variable {s : State} {c : CoreId} {x : CtxId} {r : VReg} {m : Stream}
  (hm : tabFind (s.ctx c.toNat x.toNat).streams r.toNat = some m) (ho : m.out = false) (hn : m.next < m.total)
include hm ho hn

theorem exec_streamStripFill_full (hb : Config.streamDepth ≤ m.buf.length + (s.ctx c.toNat x.toNat).stripsHeld r.toNat) :
    exec (.streamStripFill c x r) s = .next (s.post 1 (.streamStripFill c x r)) := by
  show execStreamStripFill c x r s = _
  rw [execStreamStripFill]
  dsimp only
  rw [hm]
  dsimp only
  rw [if_neg (by simp [ho, hn]), if_pos hb]

variable (hb : m.buf.length + (s.ctx c.toNat x.toNat).stripsHeld r.toNat < Config.streamDepth)
include hb

theorem exec_streamStripFill_whole (hg : granulesLeft (m.addr m.next) m.part.length = []) : exec (.streamStripFill c x r) s =
    .next ((s.setStream c.toNat x.toNat r.toNat (m.filled
      { index := m.next, data := BitVec.ofNat 2048 (ofBytes m.part), pred := BitVec.allOnes 256 })).post 1 (.streamStripFill c x r)) := by
  show execStreamStripFill c x r s = _
  rw [execStreamStripFill]
  dsimp only
  rw [hm]
  dsimp only
  rw [if_neg (by simp [ho, hn]), if_neg (not_le.2 hb), hg]

/-- A fill makes of its granule what the answer to the read says (R393). -/
theorem exec_streamStripFill_granule {ea : Word} {len : Nat} {rest : List (Word × Nat)}
    (hg : granulesLeft (m.addr m.next) m.part.length = (ea, len) :: rest) : exec (.streamStripFill c x r) s =
      fillAnswered c x r m ea (readGranule s (.streamStripFill c x r) c.toNat m ea len) := by
  show execStreamStripFill c x r s = _
  rw [execStreamStripFill]
  dsimp only
  rw [hm]
  dsimp only
  rw [if_neg (by simp [ho, hn]), if_neg (not_le.2 hb), hg]
  rfl

end

/-! ### Writing -/

/-- What a write makes of the answer for a granule: the granule is done, or waits, or its stream ends with an error and a record (R384, R385,
R393, R394). -/
def writeAnswered (c : CoreId) (x : CtxId) (r : VReg) (m : Stream) (p : Strip) (rest : List Strip) (first len : Nat) : Reach Unit × State → Out
  | (.ok (), t) => .next (((t.charge (t.clsOf c.toNat) 2 1).setStream c.toNat x.toNat r.toNat
      { m with buf := p.written first len :: rest }).post 1 (.streamStripWrite c x r))
  | (.line l n, t) => .next (t.hold (.streamStripWrite c x r) [lineKey l] n)
  | (.fail e, t) => .next (leaveRecord ((t.unhold (.streamStripWrite c x r)).setStream c.toNat x.toNat r.toNat { m with err := true, buf := [] })
      c.toNat x.toNat (copyRecord e 0 0#48) none)
  | (_, t) => .next (t.post 1 (.streamStripWrite c x r))

section
variable {s : State} {c : CoreId} {x : CtxId} {r : VReg} {m : Stream} {p : Strip} {rest : List Strip}
  (hm : tabFind (s.ctx c.toNat x.toNat).streams r.toNat = some m) (ho : m.out = true) (hb : m.buf = p :: rest)
include hm ho hb

/-- A strip of which no byte is left to write leaves the buffer. -/
theorem exec_streamStripWrite_whole (hg : stripGranule m p = none) :
    exec (.streamStripWrite c x r) s = .next (s.setStream c.toNat x.toNat r.toNat { m with buf := rest }) := by
  show execStreamStripWrite c x r s = _
  rw [execStreamStripWrite]
  dsimp only
  rw [hm]
  dsimp only
  rw [hb]
  dsimp only
  rw [if_neg (by simp [ho]), hg]

variable {bs : List (Word × List Byte)} {first len : Nat} (hg : stripGranule m p = some (bs, first, len))
include hg

/-- Between strips the stream pauses for its meter; a strip makes of its granule what the answer to the write says (R385, R393). -/
theorem exec_streamStripWrite_granule : exec (.streamStripWrite c x r) s =
    if !p.begun && s.meterOut c.toNat 2 then .next (s.post 1 (.streamStripWrite c x r))
    else writeAnswered c x r m p rest first len (writeGranule s (.streamStripWrite c x r) c.toNat m bs) := by
  show execStreamStripWrite c x r s = _
  rw [execStreamStripWrite]
  dsimp only
  rw [hm]
  dsimp only
  rw [hb]
  dsimp only
  rw [if_neg (by simp [ho]), hg]
  rfl

end

/-! ### Replies of the host -/

theorem streamHost_asks {s : State} {k x n : Nat} {m : Stream} {pa : Nat} (h : m.hostWait ≠ some pa) :
    streamHost s k x n m pa = (s.setStream k x n { m with hostWait := some pa }).sendPort (s.clsOf k)
      (.hostRead pa (.stream (cid k) (xid x) (BitVec.ofNat 5 n))) := if_neg h

section
variable {s : State} {v : BitVec 64} {pa : BitVec 52}

theorem exec_hostLoadReply_ctx {c : CoreId} {x : CtxId} (h : (s.ctx c.toNat x.toNat).life = .blocked (.hostLoad pa.toNat)) :
    exec (.hostLoadReply (.ctx c x) pa v) s = .next ((s.modCtx c.toNat x.toNat fun w =>
      { w with hostReplies := w.hostReplies ++ [(pa.toNat, v)] }).ready c.toNat x.toNat) := if_pos h

theorem exec_hostLoadReply_ctx_other {c : CoreId} {x : CtxId} (h : (s.ctx c.toNat x.toNat).life ≠ .blocked (.hostLoad pa.toNat)) :
    exec (.hostLoadReply (.ctx c x) pa v) s = .next s := if_neg h

theorem exec_hostLoadReply_stream {c : CoreId} {x : CtxId} {r : VReg} {m : Stream} (h : tabFind (s.ctx c.toNat x.toNat).streams r.toNat = some m) :
    exec (.hostLoadReply (.stream c x r) pa v) s = .next (if m.hostWait = some pa.toNat then
      s.setStream c.toNat x.toNat r.toNat { m with hostWait := none, hostData := m.hostData ++ [(pa.toNat, v)] } else s) := by
  show execHostLoadReply (.stream c x r) pa v s = _
  rw [execHostLoadReply, h, apply_ite Host.Outcome.next]

theorem exec_hostLoadReply_job {ch : ChanId} {id : BitVec 48} {j : Job} (h : s.job ch.toNat id = some j) :
    exec (.hostLoadReply (.job ch id) pa v) s = .next (if j.hostWait = some pa.toNat then
      s.setJob ch.toNat { j with hostWait := none, hostData := j.hostData ++ [(pa.toNat, v)] } else s) := by
  show execHostLoadReply (.job ch id) pa v s = _
  rw [execHostLoadReply, h, apply_ite Host.Outcome.next]

theorem exec_hostLoadReply_dealer : exec (.hostLoadReply .dealer pa v) s = .next (if s.hub.dealWait = some pa.toNat then
    s.modHub fun h => { h with dealWait := none, dealWords := h.dealWords ++ [(pa.toNat, v)] } else s) :=
  (apply_ite Host.Outcome.next _ _ _).symm

end

/-- Settles O47: a fill and a write by what each finds of its strip and by the answer for its granule; the bytes of a granule and the address of a
strip; then the replies of the host. -/
theorem streamStrips : Obligations.StreamStrips := by
  unfold Obligations.StreamStrips
  refine ⟨?_, ?_, fun m p bs first len => stripGranule_bytes, fun m n y b h => addr_affine h y, sum_granulesOf,
    fun s k x n m pa => streamHost_asks, fun s c x v pa => ⟨exec_hostLoadReply_ctx, exec_hostLoadReply_ctx_other⟩,
    fun s c x r m v pa => exec_hostLoadReply_stream, fun s ch id j v pa => exec_hostLoadReply_job, fun s v pa => exec_hostLoadReply_dealer⟩
  · intro s c x r m k y n ev hm ho hn
    refine ⟨exec_streamStripFill_full hm ho hn, fun hb => ⟨exec_streamStripFill_whole hm ho hn hb, fun ea len rest hg => ?_⟩⟩
    rw [exec_streamStripFill_granule hm ho hn hb hg]
    refine ⟨fun b t h => ?_, fun e t h => ?_, fun l d t h => ?_, fun t h => ?_⟩ <;> exact congrArg (fillAnswered c x r m ea) h
  · intro s c x r m p rest k y n ev hm ho hb
    refine ⟨exec_streamStripWrite_whole hm ho hb, fun bs first len hg => ?_⟩
    rw [exec_streamStripWrite_granule hm ho hb hg]
    refine ⟨fun hp hs => if_pos (by rw [hp]; exact hs), fun hp => ?_⟩
    rw [if_neg (by rcases hp with hp | (hp : s.meterOut c.toNat 2 = false) <;> simp [hp])]
    refine ⟨fun t h => ?_, fun l d t h => ?_, fun t h => ?_, fun e t h => ?_⟩ <;> exact congrArg (writeAnswered c x r m p rest first len) h

end Sys2Proof.Proofs
end

section
/-! PROOF. Addresses of the local store, full/empty bits and the units that wait for them (R189, R193, R195, R199, R201, R209, R210). -/

namespace Sys2Proof.Proofs
open Sys2Proof Sys2Proof.Machine Sys2Proof.Laws

/-! ### Addresses -/

section
variable {me n : Nat} {ea : Word} {win : Bool}

/-- An address that lies in one of the windows of R188 is decoded by its fields. -/
theorem lsFront_inside (hi : ea.extractLsb' 32 32 = 0#32) (hm : ea.getLsbD 31 = true ∨ ea.extractLsb' 18 13 = 0#13) :
    lsFront me ea n win =
      if ea.getLsbD 30 = true ∧ (win = false ∨ (if ea.getLsbD 31 then (ea.extractLsb' 18 12).toNat else me) = me ∨ (ea.extractLsb' 0 18).toNat > 24) then
        .error .localAddress
      else if ea.toNat % n ≠ 0 then .error .misaligned
      else .ok ⟨if ea.getLsbD 31 then (ea.extractLsb' 18 12).toNat else me,
        if ea.getLsbD 30 then (ea.extractLsb' 0 18).toNat / 8 else (ea.extractLsb' 0 18).toNat, ea.getLsbD 30⟩ := by
  rw [lsFront]
  exact if_neg fun h => h.elim (fun h => h hi) fun h => hm.elim (fun m => Bool.false_ne_true (h.1.symm.trans m)) h.2

/-- In a mailbox window the mailbox's number is the word's place. -/
theorem mailbox_number (h : (ea.extractLsb' 0 18).toNat ≤ 24) : (ea.extractLsb' 0 18).toNat / 8 = (ea.extractLsb' 3 2).toNat := by
  simp only [BitVec.extractLsb'_toNat, Nat.shiftRight_eq_div_pow] at h ⊢
  omega

theorem lsFront_cases (me n : Nat) (ea : Word) (win : Bool) :
    let core := if ea.getLsbD 31 then (ea.extractLsb' 18 12).toNat else me
    let off := (ea.extractLsb' 0 18).toNat
    (ea.extractLsb' 32 32 ≠ 0#32 ∨ (ea.getLsbD 31 = false ∧ ea.extractLsb' 18 13 ≠ 0#13) → lsFront me ea n win = .error .localAddress) ∧
    (ea.extractLsb' 32 32 = 0#32 → ea.getLsbD 31 = true ∨ ea.extractLsb' 18 13 = 0#13 →
      (ea.getLsbD 30 = true → win = false ∨ core = me ∨ 24 < off → lsFront me ea n win = .error .localAddress) ∧
      (ea.getLsbD 30 = false ∨ (win = true ∧ core ≠ me ∧ off ≤ 24) →
        (ea.toNat % n ≠ 0 → lsFront me ea n win = .error .misaligned) ∧
        (ea.toNat % n = 0 → ea.getLsbD 30 = true → lsFront me ea n win = .ok ⟨core, (ea.extractLsb' 3 2).toNat, true⟩) ∧
        (ea.toNat % n = 0 → ea.getLsbD 30 = false → lsFront me ea n win = .ok ⟨core, off, false⟩))) := by
  refine ⟨fun h => by rw [lsFront]; exact if_pos h, fun hi hm => ?_⟩
  rw [lsFront_inside hi hm]
  refine ⟨fun hw h => if_pos ⟨hw, h⟩, fun h => ?_⟩
  have hn : ¬ (ea.getLsbD 30 = true ∧ (win = false ∨ (if ea.getLsbD 31 then (ea.extractLsb' 18 12).toNat else me) = me ∨
      (ea.extractLsb' 0 18).toNat > 24)) := by
    rintro ⟨hw, hx⟩
    rcases h with h | ⟨h1, h2, h3⟩
    · exact Bool.false_ne_true (h.symm.trans hw)
    · rcases hx with hx | hx | hx
      · simp [hx] at h1
      · exact h2 hx
      · omega
  rw [if_neg hn]
  refine ⟨fun ha => if_pos ha, fun ha hw => ?_, fun ha hw => ?_⟩
  · have h3 : (ea.extractLsb' 0 18).toNat ≤ 24 := by
      rcases h with h | h
      · exact absurd (h.symm.trans hw) Bool.false_ne_true
      · exact h.2.2
    rw [if_neg (not_not.2 ha), hw, if_pos rfl, mailbox_number h3]
  · rw [if_neg (not_not.2 ha), hw, if_neg Bool.false_ne_true]

end

/-- What the owner of an address finds (R189). -/
theorem ownerFault_cases (s : State) (me n : Nat) (a : LsAddr) :
    (a.mbox = true → ownerFault s me a n = none) ∧
    (a.mbox = false → a.core ≠ me → s.partOf a.core ≠ s.partOf me ∨ s.mates me a.core = false → ownerFault s me a n = some .remoteBoundary) ∧
    (a.mbox = false → a.core = me ∨ (s.partOf a.core = s.partOf me ∧ s.mates me a.core = true) →
      ((s.core a.core).S < a.off + n → ownerFault s me a n = some .outsideScratchpad) ∧
      (a.off + n ≤ (s.core a.core).S → ownerFault s me a n = none)) := by
  rw [ownerFault]
  refine ⟨fun h => if_pos h, fun h hc hx => ?_, fun h hx => ?_⟩
  · rw [h, if_neg Bool.false_ne_true, if_pos ⟨hc, hx⟩]
  · have hn : ¬ (a.core ≠ me ∧ (s.partOf a.core ≠ s.partOf me ∨ s.mates me a.core = false)) := by
      rintro ⟨hc, hy⟩
      obtain ⟨hp, hm⟩ := hx.resolve_left hc
      rcases hy with hy | hy
      · exact hy hp
      · simp [hm] at hy
    rw [h, if_neg Bool.false_ne_true, if_neg hn]
    exact ⟨fun hS => if_pos hS, fun hS => if_neg (by omega)⟩

/-! ### Full/empty bits -/

section
variable (c : Core) (off : Nat) (b : Bool)

theorem setFull_store : (setFull c off b).store = c.store := by cases b <;> rfl

/-- The empty words after a word's bit is set. -/
theorem setFull_empty_contains (w : Nat) : (setFull c off b).empty.contains w = if w = off / 8 then !b else c.empty.contains w := by
  cases b with
  | true => by_cases hw : w = off / 8 <;> simp [setFull, hw]
  | false =>
    have he : (setFull c off false).empty = if c.empty.contains (off / 8) then c.empty else c.empty ++ [off / 8] := rfl
    rw [he]
    split_ifs with hc hw hw
    · rw [hw, hc]; rfl
    · rfl
    · simp [hw]
    · simp [hw]

theorem fullAt_setFull : fullAt (setFull c off b) off false = b := by
  simp only [fullAt, Bool.false_eq_true, if_false, setFull_empty_contains, if_true, Bool.not_not]

theorem fullAt_setFull_other {o : Nat} (h : o / 8 ≠ off / 8) : fullAt (setFull c off b) o false = fullAt c o false := by
  simp only [fullAt, Bool.false_eq_true, if_false, setFull_empty_contains, if_neg h]

theorem emptyAt_setFull : emptyAt (setFull c off b) off false = !b := by
  simp only [emptyAt, Bool.false_eq_true, if_false, setFull_empty_contains, if_true]

end

/-! ### The core that keeps room for a reply -/

theorem any_tabSet_except {α : Type} (t : Tab α) (x : Nat) (v : α) (f : Nat × α → Bool) :
    (tabSet t x v).any (fun p => p.1 != x && f p) = t.any fun p => p.1 != x && f p := by
  induction t with
  | nil => simp [tabSet]
  | cons e t ih =>
    rw [tabSet]
    split_ifs with h1 h2
    · simp [h1]
    · simp
    · simp only [List.any_cons, ih]

/-- The tricks of the other contexts do not see a change of one context (R195). -/
theorem touched_setCtx (c : Core) (x : Nat) (v : Ctx) (l st : List Nat) : (c.setCtx x v).touched x l st = c.touched x l st :=
  any_tabSet_except c.ctxs x v fun p => p.2.touched l st

theorem opTouches_setCtx (c : Core) (x : Nat) (v : Ctx) (op : RemoteOp) (off : Nat) (m : Bool) :
    opTouches (c.setCtx x v) x op off m = opTouches c x op off m := by
  simp only [opTouches, touched_setCtx]

theorem opAllowed_setCtx (c : Core) (x : Nat) (v : Ctx) (op : RemoteOp) (off : Nat) :
    opAllowed (c.setCtx x v) op off false = opAllowed c op off false := rfl

theorem opPerform_setCtx (c : Core) (x : Nat) (v : Ctx) (op : RemoteOp) (off : Nat) (m : Bool) :
    (opPerform (c.setCtx x v) op off m).2 = (opPerform c op off m).2 := by
  cases op <;> cases m <;> rfl

theorem kept_cases (s : State) (d : GReg) : kept s d = s ∨ ∃ i, kept s d = s.modCtx s.cur.1 s.cur.2 fun v => { v with reserve := some i } := by
  rw [kept]
  split
  · exact .inr ⟨_, rfl⟩
  · exact .inl rfl

@[simp] theorem kept_cur (s : State) (d : GReg) : (kept s d).cur = s.cur := by
  rcases kept_cases s d with h | ⟨i, h⟩ <;> rw [h]
  rfl

/-- The core of a unit that keeps room for its result differs in that context alone. -/
theorem kept_mine (s : State) (d : GReg) : (kept s d).mine = s.mine ∨ ∃ v, (kept s d).mine = s.mine.setCtx s.cur.2 v := by
  rcases kept_cases s d with h | ⟨i, h⟩ <;> rw [h]
  · exact .inl rfl
  · exact .inr ⟨_, mine_modCtx s _⟩

/-- Room that is kept for a result changes nothing that a full/empty operation on the own core sees. -/
theorem kept_sees (t : State) (d : GReg) (op : RemoteOp) (off : Nat) :
    opTouches (kept t d).mine t.cur.2 op off false = opTouches t.mine t.cur.2 op off false ∧
      opAllowed (kept t d).mine op off false = opAllowed t.mine op off false ∧ queuedOn (kept t d).mine off false = queuedOn t.mine off false ∧
      (opPerform (kept t d).mine op off false).2 = (opPerform t.mine op off false).2 := by
  rcases kept_mine t d with h | ⟨v, h⟩ <;> rw [h]
  · exact ⟨rfl, rfl, rfl, rfl⟩
  · exact ⟨opTouches_setCtx .., opAllowed_setCtx .., rfl, opPerform_setCtx ..⟩

/-! ### The full/empty units -/

/-- What the performance of a request leaves of its owner's core (R201): in the unit of the core itself its write is noted, elsewhere the
deposit. -/
def ownerAfter (s : State) (op : RemoteOp) (owner off : Nat) (mbox : Bool) : Core :=
  let c := (opPerform (s.core owner) op off mbox).1
  if !op.deposits || mbox then c else if owner = s.cur.1 then noteWrote c s.tick (off / 8) else noteDeposit c s.tick (wordsOf off op.size)

/-- A request is performed: its owner's core is changed, and a result is written to the register (R201, R207 to R210). -/
theorem performOp_ok {s u : State} {op : RemoteOp} {owner off : Nat} {mbox : Bool} {d : GReg}
    (hw : Writes (if op.writes then d else 0#5) (opPerform (s.core owner) op off mbox).2 (s.setCore owner (ownerAfter s op owner off mbox)) u) :
    performOp op owner off mbox d s = .ok (.next, u) := by
  have hp : performOp op owner off mbox d s =
      (if op.writes = true then writeG d (opPerform (s.core owner) op off mbox).2 >>= fun _ => pure .next else pure .next : U After)
        (s.setCore owner (ownerAfter s op owner off mbox)) := rfl
  rw [hp]
  split_ifs at hw ⊢
  · rw [U_bind_ok hw]; rfl
  · cases hw; rfl

theorem performedOwn_eq (s : State) (op : RemoteOp) (off : Nat) : performedOwn s op off = s.setCore s.cur.1 (ownerAfter s op s.cur.1 off false) := by
  have h : ownerAfter s op s.cur.1 off false =
      if op.deposits = true then noteWrote (opPerform s.mine op off false).1 s.tick (off / 8) else (opPerform s.mine op off false).1 := by
    rw [ownerAfter, if_pos rfl, Bool.or_false]
    cases op.deposits <;> rfl
  rw [h]
  rfl

/-- A unit asks for room for its result where it has one. -/
theorem needDest_if {t : State} {op : RemoteOp} {d : GReg} (hd : op.writes = true ∨ d = 0#5) (hr : Free t d) (f : Unit → U After) :
    (if op.writes = true then needDest d >>= f else f ()) t = f () (kept t d) := by
  split
  · rw [U_bind_ok (needDest_free hr)]
  · next h => rw [hd.resolve_left h, kept_zero]

section
variable {s t : State} {addr : U Word} {o : U RemoteOp} {op : RemoteOp} {win : Bool} {d : GReg} {ea : Word} {a : LsAddr}

/-- What a full/empty unit does once its registers are read and its address is decoded (R193, R195, R199, R209, R210). -/
theorem syncAccess_decoded {w : State} (hs : Quiet s) (ha : addr s = .ok (ea, w)) (ho : o w = .ok (op, t)) (hc : t.cur = s.cur)
    (hf : lsFront s.cur.1 ea 8 win = .ok a) (hd : op.writes = true ∨ d = 0#5) (hr : Free t d) :
    (a.core ≠ s.cur.1 → syncAccess addr o win d s = .next (waiting s (sending (kept t d) op a d) .reply)) ∧
    (a.core = s.cur.1 → a.off + 8 ≤ t.mine.S →
      let waits := op.waitsFor.isSome && (!opAllowed t.mine op a.off false || queuedOn t.mine a.off false)
      (opTouches t.mine s.cur.2 op a.off false = true →
        syncAccess addr o win d s = .next (stopUnit s s.cur.1 s.cur.2 s.unitOf (.wait (.touch [] (wordsOf a.off 8))))) ∧
      (opTouches t.mine s.cur.2 op a.off false = false → waits = true →
        syncAccess addr o win d s = .next (waiting s (sending (kept t d) op a d) .reply)) ∧
      (opTouches t.mine s.cur.2 op a.off false = false → waits = false →
        ∀ u, Writes d (opPerform t.mine op a.off false).2 (performedOwn (kept t d) op a.off) u → syncAccess addr o win d s = .next (retiredOut s u))) := by
  have hf' : lsFront t.cur.1 ea 8 win = .ok a := by rw [hc]; exact hf
  have hk : (kept t d).cur = s.cur := (kept_cur t d).trans hc
  refine ⟨fun h => ?_, fun h hS => ?_⟩
  · rw [syncAccess]
    refine (runIrr_ok (a := .hold .reply) hs ?_).trans (congrArg _ (finish_hold _))
    rw [U_bind_ok ha, U_bind_ok ho, U_bind_ok (lsDecode_other hf' (by rw [hc]; exact h) (.inl rfl))]
    dsimp only
    rw [needDest_if hd hr, U_bind_ok (getS_apply _), hk, if_pos h]
    rfl
  · obtain ⟨hT, hA, hQ, hP⟩ := kept_sees t d op a.off
    rw [hc] at hT
    have hm : (kept t d).core a.core = (kept t d).mine := by rw [State.mine, h, hk]
    have hdec := lsDecode_own (sync := true) hf' (h.trans (congrArg _ hc.symm)) (.inr hS)
    refine ⟨fun ht => ?_, fun ht hw => ?_, fun ht hw u hu => ?_⟩ <;> rw [syncAccess]
    · refine runIrr_stop hs ?_ fun _ _ h => by cases h
      rw [U_bind_ok ha, U_bind_ok ho, U_bind_ok hdec]
      dsimp only
      rw [needDest_if hd hr, U_bind_ok (getS_apply _), hk, if_neg (not_not.2 h), U_bind_ok (myCtx_apply _), hm, hk, hT, if_pos ht]
      rfl
    · refine (runIrr_ok (a := .hold .reply) hs ?_).trans (congrArg _ (finish_hold _))
      rw [U_bind_ok ha, U_bind_ok ho, U_bind_ok hdec]
      dsimp only
      rw [needDest_if hd hr, U_bind_ok (getS_apply _), hk, if_neg (not_not.2 h), U_bind_ok (myCtx_apply _), hm, hk, hT, hA, hQ, ht,
        if_neg Bool.false_ne_true, if_pos hw]
      rfl
    · refine runIrr_next hs ?_
      rw [U_bind_ok ha, U_bind_ok ho, U_bind_ok hdec]
      dsimp only
      rw [needDest_if hd hr, U_bind_ok (getS_apply _), hk, if_neg (not_not.2 h), U_bind_ok (myCtx_apply _), hm, hk, hT, hA, hQ, ht,
        if_neg Bool.false_ne_true, hw, if_neg Bool.false_ne_true]
      refine performOp_ok ?_
      rw [hm, hP]
      rw [performedOwn_eq, hk, ← h] at hu
      rcases hd with hd | rfl
      · rw [hd]; exact hu
      · split <;> exact hu

end

/-- A unit that reads the register of its address and then a value. -/
theorem eaMI_reads_value {b d : GReg} {off : BitVec 10} {n : Nat} {s t : State} {vs : List Word} (h : Reads [b, d] s vs t) :
    ∃ a x w, vs = [a, x] ∧ eaMI b off n s = .ok (s.unitOf.ea a off n, w) ∧ readG d w = .ok (x, t) := by
  obtain ⟨a, w, r, h1, rfl, x, u, r', h2, rfl, rfl, rfl⟩ := h
  exact ⟨a, x, w, rfl, eaMI_reads (vs := [a]) ⟨a, w, [], h1, rfl, rfl, rfl⟩, h2⟩

/-- A full/empty unit whose address and operation come from the registers that it reads. -/
theorem syncUnit_of {i : Instr} {ks : List GReg} {ea : UnitInfo → List Word → Word} {op : List Word → RemoteOp} {win : Bool} {d : GReg}
    {addr : U Word} {o : U RemoteOp} (he : ∀ s, exec i s = syncAccess addr o win d s)
    (hr : ∀ s t vs, Reads ks s vs t → ∃ w, addr s = .ok (ea s.unitOf vs, w) ∧ o w = .ok (op vs, t)) (hd : ∀ vs, (op vs).writes = true ∨ d = 0#5) :
    SyncUnit i ks ea op win d := by
  intro s t vs a hs hv hf hfree
  obtain ⟨w, h1, h2⟩ := hr s t vs hv
  rw [he]
  exact syncAccess_decoded hs h1 h2 (reads_cur hv) hf (hd vs) hfree

/-- Settles O25: addresses at the issuing core and at the owner; the six full/empty units; what each operation does to its word. -/
theorem localAddresses : Obligations.LocalAddresses := by
  unfold Obligations.LocalAddresses
  refine ⟨⟨lsFront_cases, ownerFault_cases⟩, fun d b s1 s2 off f => ?_, fun c off v => ?_⟩
  · have hrr (op : RemoteOp) (s t : State) (vs : List Word) (h : Reads [s1, s2] s vs t) :
        ∃ w, eaRR s1 s2 f.toNat s = .ok (vs.getD 0 0#64 + vs.getD 1 0#64 <<< f.toNat, w) ∧ (pure op : U RemoteOp) w = .ok (op, t) :=
      ⟨t, eaRR_reads h, rfl⟩
    refine ⟨syncUnit_of (fun _ => rfl) (fun s t vs h => ⟨t, eaMI_reads h, rfl⟩) fun _ => .inl rfl,
      syncUnit_of (fun _ => rfl) (fun s t vs h => ?_) fun _ => .inr rfl,
      syncUnit_of (fun _ => rfl) (hrr .feSet) fun _ => .inr rfl, syncUnit_of (fun _ => rfl) (hrr .feClr) fun _ => .inr rfl,
      syncUnit_of (fun _ => rfl) (hrr .feQry) fun _ => .inl rfl, syncUnit_of (fun _ => rfl) (hrr .ldff) fun _ => .inl rfl⟩
    obtain ⟨a, x, w, rfl, h1, h2⟩ := eaMI_reads_value (off := off) (n := 8) h
    refine ⟨w, h1, ?_⟩
    rw [U_bind_ok h2]
    rfl
  · exact ⟨rfl, rfl, rfl, rfl, rfl, rfl, fun b => fullAt_setFull c off b, fun b o h => fullAt_setFull_other c off b h,
      fun b => emptyAt_setFull c off b, fun b => setFull_store c off b⟩

end Sys2Proof.Proofs
end

section
/-! PROOF. LD, LDX, ST, STX and XCH: on the own scratchpad inside the trick, elsewhere by a request (R189, R190, R193 to R195, R197, R206 to R208,
R278). -/

namespace Sys2Proof.Proofs
open Sys2Proof Sys2Proof.Machine Sys2Proof.Laws

/-! ### Addresses and values -/

section
variable {s t : State} {vs : List Word}

theorem eaRR_reads_value {s1 s2 d : GReg} {f : Nat} (h : Reads [s1, s2, d] s vs t) :
    ∃ a i x w, vs = [a, i, x] ∧ eaRR s1 s2 f s = .ok (a + i <<< f, w) ∧ readG d w = .ok (x, t) := by
  obtain ⟨a, u, r, h1, rfl, i, w, r', h2, rfl, x, y, r'', h3, rfl, rfl, rfl⟩ := h
  exact ⟨a, i, x, w, rfl, eaRR_reads (vs := [a, i]) ⟨a, u, [i], h1, rfl, i, w, [], h2, rfl, rfl, rfl⟩, h3⟩

/-- A computation that gives the address of a unit from the registers `ks`. -/
structure Gives (addr : U Word) (ks : List GReg) (ea : UnitInfo → List Word → Word) : Prop where
  alike : ReadsAlike addr
  gives : ∀ s t vs, Reads ks s vs t → addr s = .ok (ea s.unitOf vs, t)

/-- One that gives it from registers that are read before the value `d` is. -/
structure GivesThen (addr : U Word) (d : GReg) (ks : List GReg) (ea : UnitInfo → List Word → Word) : Prop where
  alike : ReadsAlike addr
  gives : ∀ s t vs, Reads ks s vs t → ∃ w, addr s = .ok (ea s.unitOf vs, w) ∧ readG d w = .ok (vs.getLastD 0#64, t)

variable (d b s1 s2 : GReg) (off : BitVec 10) (f n : Nat)

theorem gives_eaMI : Gives (eaMI b off n) [b] fun u vs => u.ea (vs.getD 0 0#64) off n :=
  ⟨eaMI_alike b off n, fun _ _ _ h => eaMI_reads h⟩

theorem gives_eaRR : Gives (eaRR s1 s2 f) [s1, s2] fun _ vs => vs.getD 0 0#64 + vs.getD 1 0#64 <<< f :=
  ⟨eaRR_alike s1 s2 f, fun _ _ _ h => eaRR_reads h⟩

theorem givesThen_eaMI : GivesThen (eaMI b off n) d [b, d] fun u vs => u.ea (vs.getD 0 0#64) off n := by
  refine ⟨eaMI_alike b off n, fun s t vs h => ?_⟩
  obtain ⟨a, x, w, rfl, h1, h2⟩ := eaMI_reads_value (off := off) (n := n) h
  exact ⟨w, h1, h2⟩

theorem givesThen_eaRR : GivesThen (eaRR s1 s2 f) d [s1, s2, d] fun _ vs => vs.getD 0 0#64 + vs.getD 1 0#64 <<< f := by
  refine ⟨eaRR_alike s1 s2 f, fun s t vs h => ?_⟩
  obtain ⟨a, i, x, w, rfl, h1, h2⟩ := eaRR_reads_value (f := f) h
  exact ⟨w, h1, h2⟩

end

/-! ### The own scratchpad -/

theorem storeFree_loaded {t : State} {o n p m : Nat} (h : StoreFree t o n) : StoreFree (loaded t p m) o n := by
  rw [StoreFree, loaded, mine_modCtx, modCtx_cur, touched_setCtx]
  exact h

/-- A store meets every trick that a load meets (R195). -/
theorem trick_touched_of_store {r : Trick} {ws : List Nat} (h : r.touched [] ws = false) : r.touched ws [] = false := by
  simp only [Trick.touched, List.any_nil, Bool.false_or, Bool.or_false, List.any_eq_false] at h ⊢
  exact fun w hw hs => h w hw (by rw [hs, Bool.or_true])

theorem ctx_touched_of_store {v : Ctx} {ws : List Nat} (h : v.touched [] ws = false) : v.touched ws [] = false := by
  rw [Ctx.touched, Bool.or_eq_false_iff] at h ⊢
  refine ⟨trick_touched_of_store h.1, ?_⟩
  have h2 := h.2
  cases hp : v.pending with
  | none => rfl
  | some r =>
    rw [hp] at h2
    exact trick_touched_of_store h2

/-- Words that may be stored to may be loaded. -/
theorem loadFree_of_storeFree {t : State} {o n : Nat} (h : StoreFree t o n) : LoadFree t o n := by
  rw [StoreFree, Core.touched, List.any_eq_false] at h
  rw [LoadFree, Core.touched, List.any_eq_false]
  intro p hp ht
  rw [Bool.and_eq_true] at ht
  refine h p hp ?_
  rw [ht.1, Bool.true_and, ← Bool.not_eq_false]
  exact fun hn => Bool.false_ne_true ((ctx_touched_of_store hn).symm.trans ht.2)

section
variable {s t u w : State} {addr : U Word} {ea v : Word} {d : GReg} {z : BitVec 2} {x : Bool} {o : Nat} {i : TrapInfo}

/-- A unit whose address lies in the own scratchpad finds itself local before its trick begins (R193). -/
theorem unitRemote_own {n : Nat} (hm : ReadsAlike addr) (ha : addr (begun s) = .ok (ea, w)) (hc : t.cur = s.cur) (hi : InOwn t ea n o) :
    unitRemote s addr = false := by
  obtain ⟨hf, -⟩ := hi
  rw [hc] at hf
  rw [unitRemote_begun hm ha, lsFront_other hf]
  exact decide_eq_false fun h => h rfl

theorem lsDecode_inOwn {n : Nat} (hi : InOwn t ea n o) : lsDecode ea n false false t = .ok (⟨t.cur.1, o, false⟩, t) :=
  lsDecode_own hi.1 rfl (.inr hi.2)

section
variable (hs : Runs s) (hl : unitRemote s addr = false)
include hs hl

theorem loadUnit_own (ha : addr (begun s) = .ok (ea, t)) (hi : InOwn t ea (2 ^ z.toNat) o) (hf : LoadFree t o (2 ^ z.toNat))
    (hw : Writes d (extendLoad (2 ^ z.toNat) x (memRead t.mine.store o (2 ^ z.toNat))) (loaded t o (2 ^ z.toNat)) u) :
    loadUnit addr d z x s = .next (retired s u) := by
  rw [loadUnit, hl]
  refine unit_next hs ?_
  rw [U_bind_ok ha, U_bind_ok (lsDecode_inOwn hi), U_bind_ok (lsLoad_free hf)]
  exact U_bind_ok hw

theorem loadUnit_trap (ha : addr (begun s) = .ok (ea, t)) (hd : lsDecode ea (2 ^ z.toNat) false false t = .error (.trap i)) :
    loadUnit addr d z x s = .next (trapped s i) := by
  rw [loadUnit, hl]
  refine runIn_trap hs ?_
  rw [U_bind_ok ha, U_bind_error hd]

theorem storeUnit_own (hacc : s.me.accepted = []) (ha : addr (begun s) = .ok (ea, w)) (hv : readG d w = .ok (v, t))
    (hi : InOwn t ea (2 ^ z.toNat) o) (hf : StoreFree t o (2 ^ z.toNat)) (hg : LogRoom t o (2 ^ z.toNat)) :
    storeUnit addr d z s = .next (retired s (stored t o (2 ^ z.toNat) (v.toNat % 2 ^ (8 * 2 ^ z.toNat)))) := by
  rw [storeUnit, hl]
  refine unit_next hs ?_
  rw [U_bind_ok (needAccepted_ok ((begun_accepted s).trans hacc)), U_bind_ok ha, U_bind_ok hv, U_bind_ok (lsDecode_inOwn hi)]
  exact U_bind_ok (lsStore_free hf hg)

theorem storeUnit_trap (hacc : s.me.accepted = []) (ha : addr (begun s) = .ok (ea, w)) (hv : readG d w = .ok (v, t))
    (hd : lsDecode ea (2 ^ z.toNat) false false t = .error (.trap i)) : storeUnit addr d z s = .next (trapped s i) := by
  rw [storeUnit, hl]
  refine runIn_trap hs ?_
  rw [U_bind_ok (needAccepted_ok ((begun_accepted s).trans hacc)), U_bind_ok ha, U_bind_ok hv, U_bind_error hd]

end

/-- XCH on the own scratchpad loads and then stores (R193, R208). -/
theorem execXch_own {s1 s2 : GReg} {f : BitVec 5} (hs : Runs s) (hl : unitRemote s (eaRR s1 s2 f.toNat) = false)
    (ha : eaRR s1 s2 f.toNat (begun s) = .ok (ea, w)) (hv : readG d w = .ok (v, t)) (hi : InOwn t ea (2 ^ z.toNat) o)
    (hf : StoreFree t o (2 ^ z.toNat)) (hg : LogRoom (loaded t o (2 ^ z.toNat)) o (2 ^ z.toNat))
    (hw : Writes d (extendLoad (2 ^ z.toNat) x (memRead t.mine.store o (2 ^ z.toNat)))
      (stored (loaded t o (2 ^ z.toNat)) o (2 ^ z.toNat) (v.toNat % 2 ^ (8 * 2 ^ z.toNat))) u) :
    execXch d s1 s2 f z x s = .next (retired s u) := by
  rw [execXch, hl]
  refine unit_next hs ?_
  rw [U_bind_ok ha, U_bind_ok hv, U_bind_ok (lsDecode_inOwn hi), U_bind_ok (lsLoad_free (loadFree_of_storeFree hf)), U_bind_ok (lsStore_free (storeFree_loaded hf) hg)]
  exact U_bind_ok hw

end

/-- The instructions of one shape on the own scratchpad. -/
theorem loadsOwn_of {i : Instr} {ks : List GReg} {ea : UnitInfo → List Word → Word} {z : BitVec 2} {x : Bool} {d : GReg} {addr : U Word}
    (he : ∀ s, exec i s = loadUnit addr d z x s) (hg : Gives addr ks ea) : LoadsOwn i ks ea (2 ^ z.toNat) x d := by
  intro s t u vs o hs hr hi hf hw
  have ha := hg.gives _ _ _ hr
  rw [begun_unitOf] at ha
  rw [he]
  exact loadUnit_own hs (unitRemote_own hg.alike ha ((reads_cur hr).trans (begun_cur s)) hi) ha hi hf hw

theorem storesOwn_of {i : Instr} {ks : List GReg} {ea : UnitInfo → List Word → Word} {z : BitVec 2} {d : GReg} {addr : U Word}
    (he : ∀ s, exec i s = storeUnit addr d z s) (hg : GivesThen addr d ks ea) : StoresOwn i ks ea (2 ^ z.toNat) := by
  intro s t vs o hs hacc hr hi hf hl
  obtain ⟨w, ha, hv⟩ := hg.gives _ _ _ hr
  rw [begun_unitOf] at ha
  rw [he]
  exact storeUnit_own hs (unitRemote_own hg.alike ha ((reads_cur hr).trans (begun_cur s)) hi) hacc ha hv hi hf hl

/-- Settles O26: each form by the computation of its address; XCH is a load and a store. -/
theorem ownLoadsAndStores : Obligations.OwnLoadsAndStores := by
  unfold Obligations.OwnLoadsAndStores
  refine ⟨fun d b s1 s2 off f z x => ⟨loadsOwn_of (fun _ => rfl) (gives_eaMI b off _), loadsOwn_of (fun _ => rfl) (gives_eaRR s1 s2 _),
    storesOwn_of (fun _ => rfl) (givesThen_eaMI d b off _), storesOwn_of (fun _ => rfl) (givesThen_eaRR d s1 s2 _), ?_⟩, fun d b off =>
    ⟨loadsOwn_of (z := 3#2) (fun _ => rfl) (gives_eaMI b (off.setWidth 10) 8), storesOwn_of (z := 3#2) (fun _ => rfl) (givesThen_eaMI d b (off.setWidth 10) 8)⟩⟩
  intro s t u a i v o hs hr hi hf hg hw
  obtain ⟨w, ha, hv⟩ := (givesThen_eaRR d s1 s2 f.toNat).gives _ _ _ hr
  exact execXch_own hs (unitRemote_own (eaRR_alike s1 s2 _) ha ((reads_cur hr).trans (begun_cur s)) hi) ha hv hi hf hg hw

/-! ### Another core's scratchpad -/

section
variable {s t u w : State} {addr : U Word} {ea v : Word} {d : GReg} {z : BitVec 2} {x : Bool} {a : LsAddr} {i : TrapInfo}

theorem unitRemote_other {n : Nat} (ha : addr s = .ok (ea, w)) (hf : lsFront s.cur.1 ea n false = .ok a) (hne : a.core ≠ s.cur.1) :
    unitRemote s addr = true := by
  rw [unitRemote_ok ha, lsFront_other hf]
  exact decide_eq_true hne

section
variable (hs : Quiet s) (hl : unitRemote s addr = true)
include hs hl

theorem loadUnit_other (ha : addr s = .ok (ea, t)) (hd : lsDecode ea (2 ^ z.toNat) false false t = .ok (a, t)) (hr : Free t d) :
    loadUnit addr d z x s = .next (waiting s (sending (kept t d) (.load (2 ^ z.toNat) x) a d) .reply) := by
  rw [loadUnit, hl]
  refine (runOp_ok (a := .hold .reply) hs ?_).trans (congrArg _ (finish_hold _))
  rw [U_bind_ok ha, U_bind_ok hd, U_bind_ok (needDest_free hr)]
  exact sendRequest_apply ..

theorem loadUnit_other_trap (ha : addr s = .ok (ea, t)) (hd : lsDecode ea (2 ^ z.toNat) false false t = .error (.trap i)) :
    loadUnit addr d z x s = .next (trapped s i) := by
  rw [loadUnit, hl]
  refine runOp_stop hs ?_ (plainly_trap i)
  rw [U_bind_ok ha, U_bind_error hd]

theorem storeUnit_other (ha : addr s = .ok (ea, w)) (hv : readG d w = .ok (v, t)) (hd : lsDecode ea (2 ^ z.toNat) false false t = .ok (a, t)) :
    storeUnit addr d z s =
      .next (waiting s (sending t (.store (2 ^ z.toNat) (BitVec.ofNat 64 (v.toNat % 2 ^ (8 * 2 ^ z.toNat)))) a 0#5) .reply) := by
  rw [storeUnit, hl]
  refine (runIrr_ok (a := .hold .reply) hs ?_).trans (congrArg _ (finish_hold _))
  rw [U_bind_ok ha, U_bind_ok hv, U_bind_ok hd]
  exact sendRequest_apply ..

end

theorem execXch_other {s1 s2 : GReg} {f : BitVec 5} (hs : Quiet s) (hl : unitRemote s (eaRR s1 s2 f.toNat) = true)
    (ha : eaRR s1 s2 f.toNat s = .ok (ea, w)) (hv : readG d w = .ok (v, t)) (hd : lsDecode ea (2 ^ z.toNat) false false t = .ok (a, t)) (hr : Free t d) :
    execXch d s1 s2 f z x s =
      .next (waiting s (sending (kept t d) (.xch (2 ^ z.toNat) x (BitVec.ofNat 64 (v.toNat % 2 ^ (8 * 2 ^ z.toNat)))) a d) .reply) := by
  rw [execXch, hl]
  refine (runIrr_ok (a := .hold .reply) hs ?_).trans (congrArg _ (finish_hold _))
  rw [U_bind_ok ha, U_bind_ok hv, U_bind_ok hd, U_bind_ok (needDest_free hr)]
  exact sendRequest_apply ..

/-- Reading registers does not make a context timely. -/
theorem timely_reads {ks : List GReg} {vs : List Word} (hr : Reads ks s vs t) : Timely t ↔ Timely s := by
  have h := local_reads hr
  rw [Timely, Timely, h.cur, h.mine]

theorem lsDecode_reads {ks : List GReg} {vs : List Word} {n : Nat} (ht : Timely s) (hr : Reads ks s vs t) (hf : lsFront s.cur.1 ea n false = .ok a)
    (hne : a.core ≠ s.cur.1) : lsDecode ea n false false t = .ok (a, t) := by
  rw [← reads_cur hr] at hf hne
  exact lsDecode_other hf hne (.inr ((timely_reads hr).2 ht))

end

theorem loadsOther_of {i : Instr} {ks : List GReg} {ea : UnitInfo → List Word → Word} {z : BitVec 2} {x : Bool} {d : GReg} {addr : U Word}
    (he : ∀ s, exec i s = loadUnit addr d z x s) (hg : Gives addr ks ea) : LoadsOther i ks ea (2 ^ z.toNat) x d := by
  intro s t vs a hs ht hr hf hne hfree
  have ha := hg.gives _ _ _ hr
  rw [he]
  exact loadUnit_other hs (unitRemote_other ha hf hne) ha (lsDecode_reads ht hr hf hne) hfree

theorem storesOther_of {i : Instr} {ks : List GReg} {ea : UnitInfo → List Word → Word} {z : BitVec 2} {d : GReg} {addr : U Word}
    (he : ∀ s, exec i s = storeUnit addr d z s) (hg : GivesThen addr d ks ea) : StoresOther i ks ea (2 ^ z.toNat) := by
  intro s t vs a hs ht hr hf hne
  obtain ⟨w, ha, hv⟩ := hg.gives _ _ _ hr
  rw [he]
  exact storeUnit_other hs (unitRemote_other ha hf hne) ha hv (lsDecode_reads ht hr hf hne)

/-! ### Addresses at fault -/

section
variable {s t w : State} {addr : U Word} {ea : Word}

theorem unitRemote_near (hm : ReadsAlike addr) (ha : addr (begun s) = .ok (ea, w)) (hn : namesOther s.cur.1 ea = false) :
    unitRemote s addr = false := by
  rw [unitRemote_begun hm ha, hn]
  rfl

theorem lsDecode_fault {n : Nat} {win sync : Bool} {c : Cause} (hc : t.cur = s.cur) (hf : lsFront s.cur.1 ea n win = .error c) :
    lsDecode ea n win sync t = .error (.trap { cause := c, addr := ea }) := by
  rw [← hc] at hf
  exact lsDecode_bad hf

/-- A full/empty unit whose address is at fault traps outside tricks (R189, R209). -/
theorem syncAccess_trap {o : U RemoteOp} {op : RemoteOp} {win : Bool} {d : GReg} {c : Cause} (hs : Quiet s) (ha : addr s = .ok (ea, w)) (ho : o w = .ok (op, t))
    (hc : t.cur = s.cur) (hf : lsFront s.cur.1 ea 8 win = .error c) : syncAccess addr o win d s = .next (trapped s { cause := c, addr := ea }) := by
  rw [syncAccess]
  refine runIrr_trap hs ?_
  rw [U_bind_ok ha, U_bind_ok ho, U_bind_error (lsDecode_fault hc hf)]

end

/-- The unloaded latency between two cores that are no spares (R190). -/
theorem latency_cases {s : State} {a b : Nat} (ha : (s.core a).spare = false) (hb : (s.core b).spare = false) :
    (a = b → latency s a b = 0) ∧ (a ≠ b → a / 4 = b / 4 → latency s a b = 1) ∧ (a / 4 ≠ b / 4 → a / 16 = b / 16 → latency s a b = 3) ∧
    (a / 16 ≠ b / 16 → a / 64 = b / 64 → latency s a b = 5) ∧ (a / 64 ≠ b / 64 → a / 1024 = b / 1024 → latency s a b = 24) ∧
    (a / 1024 ≠ b / 1024 → latency s a b = 96) := by
  have h : latency s a b = if a = b then 0 else if a / 4 = b / 4 then 1 else if a / 16 = b / 16 then 3 else if a / 64 = b / 64 then 5
      else if a / 1024 = b / 1024 then 24 else 96 := by
    rw [latency, ha, hb]
    rfl
  rw [h]
  refine ⟨fun _ => ?_, fun _ _ => ?_, fun _ _ => ?_, fun _ _ => ?_, fun _ _ => ?_, fun _ => ?_⟩ <;> split_ifs <;> omega

/-- Settles O27: requests to another core by the forms of an address, then the latencies, then addresses at fault. -/
theorem localStoreRequests : Obligations.LocalStoreRequests := by
  unfold Obligations.LocalStoreRequests
  refine ⟨⟨fun d b s1 s2 off f z x => ⟨loadsOther_of (fun _ => rfl) (gives_eaMI b off _), loadsOther_of (fun _ => rfl) (gives_eaRR s1 s2 _),
    storesOther_of (fun _ => rfl) (givesThen_eaMI d b off _), storesOther_of (fun _ => rfl) (givesThen_eaRR d s1 s2 _), ?_⟩, fun d b off =>
    ⟨loadsOther_of (z := 3#2) (fun _ => rfl) (gives_eaMI b (off.setWidth 10) 8),
      storesOther_of (z := 3#2) (fun _ => rfl) (givesThen_eaMI d b (off.setWidth 10) 8)⟩, fun s a b => latency_cases⟩,
    fun d b s1 s2 off f z x s c => ⟨?_, ?_, ?_, ?_, ?_⟩⟩
  · intro s t a i v la hs ht hr hf hne hfree
    obtain ⟨w, ha, hv⟩ := (givesThen_eaRR d s1 s2 f.toNat).gives _ _ _ hr
    exact execXch_other hs (unitRemote_other ha hf hne) ha hv (lsDecode_reads ht hr hf hne) hfree
  · intro t a hs hr hn hf
    have ha := (gives_eaMI b off (2 ^ z.toNat)).gives _ _ _ hr
    rw [begun_unitOf] at ha
    exact loadUnit_trap hs (unitRemote_near (eaMI_alike b off _) ha hn) ha (lsDecode_fault ((reads_cur hr).trans (begun_cur s)) hf)
  · intro t a i hs hr hn hf
    have ha := (gives_eaRR s1 s2 f.toNat).gives _ _ _ hr
    exact loadUnit_trap hs (unitRemote_near (eaRR_alike s1 s2 _) ha hn) ha (lsDecode_fault ((reads_cur hr).trans (begun_cur s)) hf)
  · intro t a v hs hacc hr hn hf
    obtain ⟨w, ha, hv⟩ := (givesThen_eaMI d b off (2 ^ z.toNat)).gives _ _ _ hr
    rw [begun_unitOf] at ha
    exact storeUnit_trap hs (unitRemote_near (eaMI_alike b off _) ha hn) hacc ha hv (lsDecode_fault ((reads_cur hr).trans (begun_cur s)) hf)
  · intro t a hs hr hf
    exact syncAccess_trap hs ((gives_eaMI b off 8).gives _ _ _ hr) rfl (reads_cur hr) hf
  · intro t a la hs ht hr hf hne
    have ha := (gives_eaMI b off (2 ^ z.toNat)).gives _ _ _ hr
    refine loadUnit_other_trap hs (unitRemote_other ha hf hne) ha ?_
    rw [← reads_cur hr] at hf hne
    exact lsDecode_timing hf hne (mt (timely_reads hr).1 ht)

end Sys2Proof.Proofs
end

section
/-! PROOF. The end of a launch that holds a region of another package (R266, R268, R417). -/

namespace Sys2Proof.Proofs
open Sys2Proof Sys2Proof.Machine Sys2Proof.Laws

/-- A launch of one lane, which has retired. -/
def heldLaunch : Launch := { tag := 1, part := 0, queue := 0, deal := [], cores := [0], retired := [0], saved := [], savedQuads := [], ending := none }

/-- The package with that launch, whose lane holds the 4 KiB region at the first address of package 1. -/
def heldAway : State :=
  { State.reset with agenda := [], caps := [(2 ^ 32, { bytes := 4096, cap := .held 0 1 0 })], launches := [(1, heldLaunch)] }

theorem heldAway_done : launchDone heldAway heldLaunch = true := by decide
theorem heldAway_released : heldAway.podReleased (heldAway.coreOfPart 0) = true := by decide
theorem heldAway_open : (openHeld 1 heldAway.caps heldAway).2 = false ∧ (openHeld 1 heldAway.caps heldAway).1.hub.outstanding.length = 1 := by decide

/-- A launch that is done, but holds a region that cannot be opened yet, is looked at again in the next tick, in the state as it was: what was
asked of the homes of other packages is dropped. -/
theorem exec_launchCompletion_unopened {s : State} {tag : BitVec 16} {l : Launch} (hl : s.launch tag.toNat = some l) (ha : s.agenda = [])
    (he : l.ending = none) (hd : launchDone s l = true) (hr : s.podReleased (s.coreOfPart l.part) = true)
    (ho : (openHeld tag.toNat s.caps s).2 = false) : exec (.launchCompletion tag) s = .next (s.postPoll 1 (.launchCompletion tag)) := by
  have hs : ({ s with agenda := s.agenda.filter fun a => a.2 != Instr.launchCompletion tag } : State) = s := by
    rw [ha, List.filter_nil, ← ha]
  show execLaunchCompletion tag s = _
  simp only [execLaunchCompletion, hl, hs, he, hd, hr, Option.isSome_none, Bool.not_true, Bool.false_eq_true, if_false]
  split
  · rfl
  · next h => rw [h] at ho; cases ho

/-- Refutes O53: a launch of package 0 is done and holds a region of package 1. To open it a request goes to package 1, in the state `t` of the
statement; but the model looks at the launch again in the state without the request, so that this is sent afresh, and dropped, in every tick
(R268). -/
theorem not_launchesEnd : ¬ Obligations.LaunchesEnd := by
  unfold Obligations.LaunchesEnd
  rintro ⟨h, -⟩
  obtain ⟨-, -, h⟩ := h heldAway 1#16 heldLaunch rfl rfl
  obtain ⟨hopen, hout⟩ := heldAway_open
  have hasked := (h heldAway_done heldAway_released (openHeld 1 heldAway.caps heldAway).1 false (by rw [← hopen]; rfl)).1 rfl
  have hdropped : exec (.launchCompletion 1#16) heldAway = .next (heldAway.postPoll 1 (.launchCompletion 1#16)) :=
    exec_launchCompletion_unopened rfl rfl rfl heldAway_done heldAway_released hopen
  have heq := congrArg (fun t : State => t.hub.outstanding.length) (Host.Outcome.next.inj (hdropped.symm.trans hasked))
  simp only [postPoll_hub, hout] at heq
  exact absurd heq (by decide)

end Sys2Proof.Proofs
end

section
/-! PROOF. What loads and stores leave alone, of the local store and of global memory (R181, R182, R193, R195, R206, R242, R243). -/

namespace Sys2Proof.Proofs
open Sys2Proof Sys2Proof.Machine Sys2Proof.Laws

/-! ### A store of the own scratchpad -/

section
variable {s t u : State} {o n x : Nat}

theorem onlyRead_loaded (s : State) (o n : Nat) : OnlyRead s (loaded s o n) := by
  refine ⟨⟨local_modCtx s _ rfl, ?_⟩, ?_, ?_⟩ <;> rw [loaded]
  · rw [me_modCtx]
  · rw [me_modCtx]
  · rw [mine_modCtx, core_setCtx_store]

theorem stored_me (s : State) (o n x : Nat) : ∃ r, (stored s o n x).me = { s.me with running := r } :=
  ⟨_, (ctx_modCore_keeps (s.modCtx s.cur.1 s.cur.2 _) s.cur.1 s.cur.1 s.cur.2 _ rfl).trans (me_modCtx s _)⟩

theorem computed_stored (s : State) (o n x : Nat) : Computed s (stored s o n x) := by
  refine ⟨(local_modCtx s _ rfl).trans (local_modCore (s.modCtx s.cur.1 s.cur.2 _) (fun c => { c with store := memWrite c.store o n x }) rfl), ?_⟩
  obtain ⟨r, h⟩ := stored_me s o n x
  rw [h]

theorem stored_mine (s : State) (o n x : Nat) :
    (stored s o n x).mine = { s.mine with ctxs := (stored s o n x).mine.ctxs, store := memWrite s.mine.store o n x } := by
  have h : (stored s o n x).mine = _ := mine_modCore (s.modCtx s.cur.1 s.cur.2 _) _
  rw [h, mine_modCtx]
  rfl

theorem lsStore_inv (h : lsStore o n x s = .ok ((), t)) : t = stored s o n x := by
  obtain ⟨_, u, h1, h2⟩ := U_bind_inv h
  have hu : u = s := by
    simp only [touchCheck, U_bind_apply, curCore_apply, myCtx_apply] at h1
    split at h1
    · cases h1
    · cases h1; rfl
  subst hu
  rw [U_bind_ok (curCtx_apply u)] at h2
  dsimp only at h2
  split at h2
  · cases h2
  · cases h2; rfl

/-- What stores of elements change of the local store: the bytes of one of the places in `p`. -/
structure StoredOnly (p : Nat → Prop) (s t : State) : Prop extends Computed s t where
  wf : Memory.wf t.mine.store = true
  q : t.mine.q = s.mine.q
  bytes : ∀ a, ¬ p a → memGet t.mine.store a = memGet s.mine.store a

theorem storedOnly_stored (hw : Memory.wf s.mine.store = true) : StoredOnly (fun a => o ≤ a ∧ a < o + n) s (stored s o n x) := by
  have h := stored_mine s o n x
  refine ⟨computed_stored s o n x, ?_, by rw [h], fun a ha => ?_⟩
  · rw [h]; exact memWf_memWrite _ _ _ hw
  · rw [h]; exact memGet_memWrite_outside hw (by omega)

theorem storedOnly_storeElems {y : ElemType} {v : Vec} {es : List (Nat × Word)} (h : storeElems n y v es s = .ok ((), t))
    (hw : Memory.wf s.mine.store = true) :
    StoredOnly (fun a => ∃ e ∈ es, e.2.toNat % 2 ^ 18 ≤ a ∧ a < e.2.toNat % 2 ^ 18 + n) s t := by
  induction es generalizing s with
  | nil => cases h; exact ⟨⟨.refl _, rfl⟩, hw, rfl, fun _ _ => rfl⟩
  | cons e es ih =>
    obtain ⟨_, u, h1, h2⟩ := U_bind_inv h
    have g := storedOnly_stored (o := e.2.toNat % 2 ^ 18) (n := n) (x := laneOf y (elem v y.width e.1)) hw
    rw [← lsStore_inv h1] at g
    have g' := ih h2 g.wf
    refine ⟨g.toComputed.trans g'.toComputed, g'.wf, g'.q.trans g.q, fun a ha => ?_⟩
    rw [g'.bytes a fun ⟨e', he', hx⟩ => ha ⟨e', .tail _ he', hx⟩, g.bytes a fun hx => ha ⟨e, .head _, hx⟩]

/-- The own scratchpad, the tricks of the other contexts and the undo log are at the beginning of a trick what they were. -/
theorem inOwn_begun {ea : Word} (h : InOwn s ea n o) : InOwn (begun s) ea n o := by
  obtain ⟨c, hc⟩ := begun_mine s
  rw [InOwn, begun_cur, hc]
  exact h

theorem touched_begun (s : State) (l st : List Nat) : (begun s).mine.touched s.cur.2 l st = s.mine.touched s.cur.2 l st := by
  rcases begun_cases s with h | ⟨r, h⟩ <;> rw [h]
  rw [mine_modCtx, touched_setCtx]

theorem loadFree_begun (h : LoadFree s o n) : LoadFree (begun s) o n := by
  rw [LoadFree, begun_cur, touched_begun]
  exact h

theorem storeFree_begun (h : StoreFree s o n) : StoreFree (begun s) o n := by
  rw [StoreFree, begun_cur, touched_begun]
  exact h

theorem logRoom_begun (h : LogRoom s o n) : LogRoom (begun s) o n := by
  rw [LogRoom]
  rcases begun_me s with e | e <;> rw [e] <;> exact h

/-- The frame of a unit that stored to the own scratchpad after it had read. -/
theorem storedOnly_frame {p : Nat → Prop} {r : State} (hr : OnlyRead s r) (h : StoredOnly p r u) :
    ComputeFrame s (retired s u) ∧ (retired s u).me.v = s.me.v ∧ (retired s u).me.cflags = s.me.cflags ∧ (retired s u).mine.q = r.mine.q ∧
      ∀ a, ¬ p a → memGet (retired s u).mine.store a = memGet s.mine.store a := by
  have hc := hr.toComputed.trans h.toComputed
  obtain ⟨hf, hv, hfl⟩ := hc.frame
  refine ⟨hf, hv, hfl, (retired_q hc.loc.cur).trans h.q, fun a ha => ?_⟩
  rw [retired_store hc.loc.cur, h.bytes a ha, hr.store]

end

/-! ### The units of the own scratchpad -/

section
variable {s t : State} {d b : GReg} {off : BitVec 10} {z : BitVec 2} {o : Nat}

theorem eaMI_begun (hb : Plain s b) (n : Nat) : eaMI b off n (begun s) = .ok (s.unitOf.ea (s.g b) off n, begun s) := by
  rw [← (onlyRead_begun s).g b, ← begun_unitOf]
  exact eaMI_reads (reads_plain (plain_begun hb))

variable (hs : Runs s) (hd : Plain s d) (hb : Plain s b) (hi : InOwn s (s.unitOf.ea (s.g b) off (2 ^ z.toNat)) (2 ^ z.toNat) o)
  (hw : Memory.wf s.mine.store = true)
include hs hd hb hi hw

theorem frame_ld {x : Bool} (hf : LoadFree s o (2 ^ z.toNat)) (he : exec (.ld d b off z x) s = .next t) : RegisterFrame d s t := by
  have ha := eaMI_begun (off := off) hb (2 ^ z.toNat)
  have hr := (onlyRead_begun s).trans (onlyRead_loaded (begun s) o (2 ^ z.toNat))
  obtain ⟨u, hu⟩ := writes_plain (extendLoad (2 ^ z.toNat) x (memRead (begun s).mine.store o (2 ^ z.toNat))) ((hr.toComputed.plain d).2 hd)
  have h : exec (.ld d b off z x) s = .next (retired s u) :=
    loadUnit_own hs (unitRemote_own (eaMI_alike b off _) ha (begun_cur s) (inOwn_begun hi)) ha (inOwn_begun hi) (loadFree_begun hf) hu
  cases he.symm.trans h
  exact (registerFrame_retired hr hu hd hw).1

theorem frame_st (hf : StoreFree s o (2 ^ z.toNat)) (hl : LogRoom s o (2 ^ z.toNat)) (hacc : s.me.accepted = [])
    (he : exec (.st d b off z) s = .next t) :
    ComputeFrame s t ∧ t.me.v = s.me.v ∧ t.me.cflags = s.me.cflags ∧ t.mine.q = s.mine.q ∧ StoreFrame o (2 ^ z.toNat) s t ∧
      memRead t.mine.store o (2 ^ z.toNat) = (s.g d).toNat % 2 ^ (8 * 2 ^ z.toNat) := by
  have ha := eaMI_begun (off := off) hb (2 ^ z.toNat)
  have hr := onlyRead_begun s
  have h : exec (.st d b off z) s = .next _ :=
    storeUnit_own hs (unitRemote_own (eaMI_alike b off _) ha (begun_cur s) (inOwn_begun hi)) hacc ha (readG_plain (plain_begun hd)) (inOwn_begun hi)
      (storeFree_begun hf) (logRoom_begun hl)
  cases he.symm.trans h
  have hwb : Memory.wf (begun s).mine.store = true := hr.store ▸ hw
  obtain ⟨c, hc⟩ := begun_mine s
  have ho := storedOnly_stored (o := o) (n := 2 ^ z.toNat) (x := ((begun s).g d).toNat % 2 ^ (8 * 2 ^ z.toNat)) hwb
  obtain ⟨h1, h2, h3, h4, h5⟩ := storedOnly_frame hr ho
  refine ⟨h1, h2, h3, h4.trans (by rw [hc]), fun a ha => h5 a (by omega), ?_⟩
  rw [retired_store (ho.loc.cur.trans (begun_cur s)), stored_mine, memRead_memWrite_same _ _ _ hwb, hr.g d, Nat.pow_mul 2 8]
  exact Nat.mod_mod _ _

end

theorem vReads_unbound_one {r v : State} {d : VReg} {x : Vec} (hd : Unbound r d) (h : VReads [d] r [x] v) : v = r := by
  cases (readV_unbound hd).symm.trans (vReads_one h)
  rfl

theorem unbound_onlyRead {s r : State} {d : VReg} (h : OnlyRead s r) (hd : Unbound s d) : Unbound r d := by
  rw [Unbound, h.me]
  exact hd

/-- Elements of a row or of a gather that are stored to the own scratchpad. -/
theorem frame_vectorStore {m : U (List (Nat × Word))} {d : VReg} {p : PReg} {y : ElemType} {s r v w u : State} {es : List (Nat × Word)} {x : Vec}
    (hs : Runs s) (hacc : s.me.accepted = []) (hd : Unbound s d) (hw : Memory.wf s.mine.store = true) (hr : OnlyRead s r)
    (hi : ∀ e ∈ es, InOwn r e.2 (y.width / 8) (e.2.toNat % 2 ^ 18)) (hx : VReads [d] r [x] v) (hst : storeElems (y.width / 8) y x es v = .ok ((), w))
    (ha : Addresses m s es r) (he : vectorStore m d p y s = .next u) :
    ComputeFrame s u ∧ u.me.v = s.me.v ∧ u.me.cflags = s.me.cflags ∧ u.mine.q = r.mine.q ∧
      ∀ a, (∀ e ∈ es, a < e.2.toNat % 2 ^ 18 ∨ e.2.toNat % 2 ^ 18 + y.width / 8 ≤ a) → memGet u.mine.store a = memGet s.mine.store a := by
  cases he.symm.trans (vectorStore_own hs ha hi hacc hx hst)
  rw [vReads_unbound_one (unbound_onlyRead hr hd) hx] at hst
  obtain ⟨h1, h2, h3, h4, h5⟩ := storedOnly_frame hr (storedOnly_storeElems hst (hr.store ▸ hw))
  refine ⟨h1, h2, h3, h4, fun a ha => h5 a ?_⟩
  rintro ⟨e, he, hx⟩
  have := ha e he
  omega

/-! ### Stores of global memory -/

/-- What a unit changes until it retires that stores to global memory inside its trick: translations, the reads of walks and their charges, the queue
registers that it reads, and the running trick. -/
structure StoresGlobally (s t : State) : Prop where
  mem : t.mem = s.mem
  dir : t.dir = s.dir
  caps : t.caps = s.caps
  hub : t.hub = s.hub
  groups : t.groups = s.groups
  squeues : t.squeues = s.squeues
  chans : t.chans = s.chans
  launches : t.launches = s.launches
  out : t.out = s.out
  cur : t.cur = s.cur
  quad : ∀ q, t.quad q = { s.quad q with tlb := (t.quad q).tlb }
  die : ∀ n, t.die n = { s.die n with walk := (t.die n).walk, walked := (t.die n).walked }
  core : ∀ j, j ≠ s.cur.1 → t.core j = s.core j
  others : OtherContexts s t
  mine : t.mine = { s.mine with ctxs := t.mine.ctxs, q := t.mine.q, tlb := t.mine.tlb }
  me : t.me = { s.me with running := t.me.running, reserve := t.me.reserve }

section
variable {s t u : State}

theorem StoresGlobally.refl (s : State) : StoresGlobally s s :=
  ⟨rfl, rfl, rfl, rfl, rfl, rfl, rfl, rfl, rfl, rfl, fun _ => rfl, fun _ => rfl, fun _ _ => rfl, fun _ _ => rfl, rfl, rfl⟩

theorem StoresGlobally.trans (h : StoresGlobally s t) (g : StoresGlobally t u) : StoresGlobally s u where
  mem := g.mem.trans h.mem
  dir := g.dir.trans h.dir
  caps := g.caps.trans h.caps
  hub := g.hub.trans h.hub
  groups := g.groups.trans h.groups
  squeues := g.squeues.trans h.squeues
  chans := g.chans.trans h.chans
  launches := g.launches.trans h.launches
  out := g.out.trans h.out
  cur := g.cur.trans h.cur
  quad q := by rw [g.quad, h.quad]
  die n := by rw [g.die, h.die]
  core j hj := (g.core j (h.cur ▸ hj)).trans (h.core j hj)
  others y hy := (g.others y (h.cur ▸ hy)).trans (h.others y hy)
  mine := by rw [g.mine, h.mine]
  me := by rw [g.me, h.me]

/-- A unit that has only read its operands. -/
theorem OnlyRead.storesGlobally (h : OnlyRead s t) : StoresGlobally s t := by
  obtain ⟨h1, h2, h3, h4, h5, h6, h7, h8, h9, h10, h11, h12, h13⟩ := h.loc.only
  refine ⟨h1, h8, h9, h2, h4, h6, h7, h10, h12, h.loc.cur, fun q => ?_, fun n => ?_, h13, h.loc.others, ?_, h.me⟩
  · rw [State.quad, h3]; rfl
  · rw [State.die, h5]; rfl
  · rw [h.loc.mine, h.store]

theorem storesGlobally_modCtx (s : State) (f : Ctx → Ctx) (hf : f s.me = { s.me with running := (f s.me).running }) :
    StoresGlobally s (s.modCtx s.cur.1 s.cur.2 f) := by
  refine ⟨rfl, rfl, rfl, rfl, rfl, rfl, rfl, rfl, rfl, rfl, fun _ => rfl, fun _ => rfl, fun j hj => core_modCtx_other _ _ _ hj, fun y hy => ?_, ?_, ?_⟩
  · rw [mine_modCtx, core_ctx_setCtx_other _ _ hy]
  · rw [mine_modCtx]; rfl
  · rw [me_modCtx, hf]

/-- The frame of a unit that stored to global memory. -/
theorem StoresGlobally.frame (h : StoresGlobally s u) : GlobalFrame s (retired s u) := by
  obtain ⟨pc, rep, e⟩ := retired_eq s u h.cur
  have hu : s.unitOf = s.me.unit := rfl
  have hm : (retired s u).me = _ := (congrArg State.me e).trans (me_modCtx u _)
  refine ⟨h.mem, h.dir, h.caps, h.hub, h.groups, h.squeues, h.chans, h.launches, h.out, h.cur, h.quad, h.die, fun j hj => ?_, fun y hy => ?_, ?_, ?_⟩
  · rw [e, core_modCtx_other _ _ _ (h.cur ▸ hj)]; exact h.core j hj
  · rw [e, mine_modCtx, core_ctx_setCtx_other _ _ (h.cur ▸ hy)]; exact h.others y hy
  · rw [e, mine_modCtx, h.mine]; rfl
  · rw [hm, h.me, hu]

/-! ### Translations -/

theorem quad_modQuad_keeps (s : State) (q r : Nat) (f : Quad → Quad) (hf : ∀ x, f x = { x with tlb := (f x).tlb }) :
    (s.modQuad q f).quad r = { s.quad r with tlb := ((s.modQuad q f).quad r).tlb } := by
  by_cases hr : r = q
  · subst hr; rw [quad_modQuad, hf]
  · rw [quad_modQuad_other _ _ hr]

theorem die_modDie_walks (s : State) (d n : Nat) (f : Die → Die) (hf : ∀ x, f x = { x with walk := (f x).walk, walked := (f x).walked }) :
    (s.modDie d f).die n = { s.die n with walk := ((s.modDie d f).die n).walk, walked := ((s.modDie d f).die n).walked } := by
  by_cases hn : n = d
  · subst hn; rw [die_modDie, hf]
  · rw [die_modDie_other _ _ hn]

/-- What a unit changes inside its trick while it stores to global memory, once its registers are read: of the trick's stores those at places in
`p`. -/
structure StoresAt (p : Nat → Prop) (s t : State) : Prop extends StoresGlobally s t where
  q : t.mine.q = s.mine.q
  writes : ∀ c, ¬ p c → tabFind t.me.running.writes c = tabFind s.me.running.writes c

theorem StoresAt.refl (p : Nat → Prop) (s : State) : StoresAt p s s := ⟨.refl s, rfl, fun _ _ => rfl⟩

theorem StoresAt.trans {p : Nat → Prop} (h : StoresAt p s t) (g : StoresAt p t u) : StoresAt p s u :=
  ⟨h.toStoresGlobally.trans g.toStoresGlobally, g.q.trans h.q, fun c hc => (g.writes c hc).trans (h.writes c hc)⟩

theorem StoresAt.mono {p r : Nat → Prop} (h : StoresAt p s t) (hp : ∀ c, p c → r c) : StoresAt r s t :=
  ⟨h.toStoresGlobally, h.q, fun c hc => h.writes c (mt (hp c) hc)⟩

section
variable (p : Nat → Prop)

theorem storesAt_payWalk (s : State) (cls : Nat) (root : Word) (ea tick : Nat) : StoresAt p s (s.payWalk s.cur.1 cls root ea tick) := by
  unfold State.payWalk
  split
  · exact ⟨⟨rfl, rfl, rfl, rfl, rfl, rfl, rfl, rfl, rfl, rfl, fun _ => rfl, fun n => die_modDie_walks _ _ _ _ fun _ => rfl, fun _ _ => rfl,
      fun _ _ => rfl, rfl, rfl⟩, rfl, fun _ _ => rfl⟩
  · exact .refl p s

theorem storesAt_tlbFill (s : State) (e : TlbEntry) (tables : List TlbEntry) : StoresAt p s (s.tlbFill s.cur.1 e tables) := by
  have hm : (s.tlbFill s.cur.1 e tables).mine = { s.mine with tlb := tlbPut Config.l1Tlb s.mine.tlb e } :=
    mine_modCore s fun c => { c with tlb := tlbPut Config.l1Tlb c.tlb e }
  have hme : (s.tlbFill s.cur.1 e tables).me = s.me := congrArg (·.ctx s.cur.2) hm
  refine ⟨⟨rfl, rfl, rfl, rfl, rfl, rfl, rfl, rfl, rfl, rfl, fun q => ?_, fun n => die_modDie_walks _ _ _ _ fun _ => rfl,
    fun j hj => core_modCore_other s (fun c => { c with tlb := tlbPut Config.l1Tlb c.tlb e }) hj,
    fun y _ => by rw [hm]; rfl, by rw [hm], by rw [hme]⟩, by rw [hm], fun _ _ => by rw [hme]⟩
  exact quad_modQuad_keeps (s.modCore s.cur.1 _) _ q (fun x => { x with tlb := tlbPut Config.quadTlb x.tlb e }) fun _ => rfl

theorem storesAt_translate {k : Nat} {root ea : Word} {kind pa : Nat} {e : TlbEntry} (hk : k = s.cur.1) (h : s.translate k root ea kind = .ok (pa, e, t)) :
    StoresAt p s t := by
  subst hk
  unfold State.translate at h
  dsimp only at h
  split at h
  · cases h
  · split at h
    · obtain ⟨a, -, h⟩ := except_bind_ok h
      cases h
      exact .refl p _
    · obtain ⟨⟨e', tables⟩, -, h⟩ := except_bind_ok h
      obtain ⟨a, -, h⟩ := except_bind_ok h
      cases h
      exact storesAt_tlbFill p s _ tables

theorem storesAt_translateU {ea : Word} {kind : Nat} {r : Nat × TlbEntry} (h : translateU ea kind s = .ok (r, t)) : StoresAt p s t := by
  unfold translateU at h
  rw [U_bind_ok (getS_apply s)] at h
  dsimp only at h
  split at h
  · cases h
  · have hp := storesAt_payWalk p s (s.clsOf s.cur.1) (s.core s.cur.1).vmroot ea.toNat s.tick
    generalize hx : State.translate _ _ _ _ _ = x at h
    cases x with
    | error f => cases h
    | ok y =>
      cases h
      exact hp.trans (storesAt_translate p (congrArg Prod.fst hp.cur.symm) hx)

/-! ### One store -/

theorem storesAt_updTrick {f : Trick → Trick} (h : updTrick f s = .ok ((), t)) (hf : ∀ r c, ¬ p c → tabFind (f r).writes c = tabFind r.writes c) :
    StoresAt p s t := by
  cases h
  refine ⟨storesGlobally_modCtx s _ rfl, ?_, fun c hc => ?_⟩
  · rw [mine_modCtx]; rfl
  · rw [me_modCtx]; exact hf _ c hc

theorem storesAt_noteUsed {e : TlbEntry} (h : noteUsed e s = .ok ((), t)) : StoresAt p s t :=
  storesAt_updTrick p h fun r c _ => by split <;> rfl

theorem hostTiming_inv {ea : Word} (h : hostTiming ea s = .ok ((), t)) : t = s := by
  rw [hostTiming, U_bind_ok (detLaunch_apply s), U_bind_ok (myCtx_apply s), stopIf_apply] at h
  split at h <;> cases h
  rfl

theorem capCheckU_inv {pa : Nat} {ea : Word} (h : capCheckU pa ea s = .ok ((), t)) : t = s := by
  rw [capCheckU, U_bind_ok (getS_apply s)] at h
  generalize s.holderOf s.cur.1 = z at h
  dsimp only at h
  rw [stopIf_apply] at h
  split at h <;> cases h
  rfl

theorem needLine_inv {l : Nat} {own : Bool} (h : needLine l own s = .ok ((), t)) : t = s := by
  rw [needLine, U_bind_ok (getS_apply s)] at h
  split at h <;> cases h
  rfl

theorem storesAt_noteLine {l : Nat} (h : noteLine l true s = .ok ((), t)) : StoresAt p s t := by
  unfold noteLine at h
  rw [U_bind_ok (curCtx_apply s), U_bind_ok (curCore_apply s), U_bind_ok (getS_apply s)] at h
  dsimp only at h
  simp only [if_true] at h
  split at h
  · cases h
  · exact storesAt_updTrick p h fun r c _ => by split <;> rfl

/-- Bytes put one after the other from an address on leave the other addresses alone. -/
theorem tabFind_bytes (pa n : Nat) (g : Nat → Byte) (t : Tab Byte) {c : Nat} (hc : c < pa ∨ pa + n ≤ c) :
    tabFind ((List.range n).foldl (fun w i => tabSet w (pa + i) (g i)) t) c = tabFind t c := by
  induction n with
  | zero => rfl
  | succ n ih =>
    rw [List.range_succ, List.foldl_append]
    exact (tabFind_tabSet_other _ _ (by omega)).trans (ih (by omega))

/-- A store of `n` bytes at the physical address of its translation. -/
theorem storesAt_gStore {ea : Word} {n x pa : Nat} {e : TlbEntry} {y : State} (ht : translateU ea 1 s = .ok ((pa, e), y))
    (h : gStore ea n x s = .ok ((), t)) : StoresAt (fun c => pa ≤ c ∧ c < pa + n) s t := by
  rw [gStore, U_bind_ok ht] at h
  obtain ⟨_, v, h1, h⟩ := U_bind_inv h
  refine (storesAt_translateU _ ht).trans ((storesAt_noteUsed _ h1).trans ?_)
  split at h
  · obtain ⟨_, w, h2, h⟩ := U_bind_inv h
    cases hostTiming_inv h2
    exact storesAt_updTrick _ h fun _ _ _ => rfl
  · obtain ⟨_, w, h2, h⟩ := U_bind_inv h
    cases capCheckU_inv h2
    obtain ⟨_, w, h3, h⟩ := U_bind_inv h
    cases needLine_inv h3
    obtain ⟨_, w, h4, h⟩ := U_bind_inv h
    exact (storesAt_noteLine _ h4).trans (storesAt_updTrick _ h fun r c hc => tabFind_bytes pa n _ _ (by omega))

end

end

/-! ### The units of global memory -/

section
variable {s t u v w r : State}

theorem storesAt_gStoreElems {n : Nat} {y : ElemType} {x : Vec} {es : List (Nat × Word)} (h : gStoreElems n y x es s = .ok ((), t)) :
    StoresAt (fun c => ∃ pa ∈ gStoreAddrs n y x es s, pa ≤ c ∧ c < pa + n) s t := by
  induction es generalizing s with
  | nil => cases h; exact .refl _ _
  | cons e es ih =>
    obtain ⟨_, u, h1, h2⟩ := U_bind_inv h
    obtain ⟨⟨pa, te⟩, z, h3, -⟩ := U_bind_inv h1
    have ha : gStoreAddrs n y x (e :: es) s = pa :: gStoreAddrs n y x es u := by rw [gStoreAddrs, h3, h1]
    rw [ha]
    exact ((storesAt_gStore h3 h1).mono fun c hc => ⟨pa, .head _, hc⟩).trans ((ih h2).mono fun c ⟨q, hq, hc⟩ => ⟨q, .tail _ hq, hc⟩)

theorem readG_keeps_writes {k : GReg} {a : Word} (h : readG k s = .ok (a, t)) : t.me.running.writes = s.me.running.writes := by
  rcases readG_inv h with ⟨-, -, rfl⟩ | ⟨i, rest, -, -, -, -, rfl⟩
  · rfl
  · rw [popped_me]

theorem reads_keeps_writes {ks : List GReg} {vs : List Word} (h : Reads ks s vs t) : t.me.running.writes = s.me.running.writes := by
  induction ks generalizing s vs with
  | nil => rw [h.2]
  | cons k ks ih =>
    obtain ⟨a, u, r, h1, -, h2⟩ := h
    exact (ih h2).trans (readG_keeps_writes h1)

theorem begun_keeps_writes (s : State) : (begun s).me.running.writes = s.me.running.writes := by rcases begun_me s with h | h <;> rw [h]

/-- The frame of a unit that stored to global memory after it had read its registers. -/
theorem storesAt_frame {p : Nat → Prop} {ks : List GReg} {vs : List Word} (hr : Reads ks (begun s) vs r) (h : StoresAt p r u) :
    GlobalFrame s (retired s u) ∧ (retired s u).mine.q = r.mine.q ∧ (retired s u).mine.store = s.mine.store ∧
      ∀ c, ¬ p c → tabFind (retired s u).me.running.writes c = tabFind s.me.running.writes c := by
  have hg := (onlyRead_reads_begun hr).storesGlobally.trans h.toStoresGlobally
  obtain ⟨pc, rep, e⟩ := retired_eq s u hg.cur
  refine ⟨hg.frame, (retired_q hg.cur).trans h.q, ?_, fun c hc => ?_⟩
  · rw [retired_store hg.cur, hg.mine]
  · rw [e, me_modCtx]
    exact (h.writes c hc).trans (by rw [reads_keeps_writes hr, begun_keeps_writes])

section
variable {b d : GReg} {off : BitVec 10} {z : BitVec 2} {a x : Word}

theorem gAddr_reads {n : Nat} (hr : Reads [b] s [a] t) (ha : (s.unitOf.ea a off n).toNat % n = 0) :
    gAddr b off n s = .ok (s.unitOf.ea a off n, t) := by
  rw [gAddr, U_bind_ok (eaMI_reads hr)]
  exact U_bind_ok (needAligned_ok ha)

theorem exec_stg_next (hs : Runs s) (hr : Reads [b] (begun s) [a] r) (ha : (s.unitOf.ea a off (2 ^ z.toNat)).toNat % 2 ^ z.toNat = 0)
    (hv : Reads [d] r [x] v) (hw : gStore (s.unitOf.ea a off (2 ^ z.toNat)) (2 ^ z.toNat) (x.toNat % 2 ^ (8 * 2 ^ z.toNat)) v = .ok ((), w)) :
    exec (.stg d b off z) s = .next (retired s w) := by
  refine unit_next hs ?_
  rw [← begun_unitOf] at ha hw
  rw [globalStore, U_bind_ok (gAddr_reads hr ha), U_bind_ok (reads_one hv)]
  exact U_bind_ok hw

end

theorem exec_vstg_next {d : VReg} {s1 s2 : GReg} {p : PReg} {y : ElemType} {a o : Word} {x : Vec} (hs : Runs s) (hr : Reads [s1, s2] (begun s) [a, o] r)
    (ha : (a + o).toNat % (y.width / 8) = 0) (hv : VReads [d] r [x] v)
    (hw : gStoreElems (y.width / 8) y x (activeAddrs (r.p p) y.width fun i => a + o + BitVec.ofNat 64 (i * (y.width / 8))) v = .ok ((), w)) :
    exec (.vstg d s1 s2 p y) s = .next (retired s w) := by
  refine unit_next hs ?_
  rw [U_bind_ok (rowAddrs_reads hr ha), U_bind_ok (vReads_one hv)]
  exact U_bind_ok hw

theorem reads_append {ks ls : List GReg} {vs ws : List Word} (h : Reads ks s vs t) (g : Reads ls t ws u) : Reads (ks ++ ls) s (vs ++ ws) u := by
  induction ks generalizing s vs with
  | nil => obtain ⟨rfl, rfl⟩ := h; exact g
  | cons k ks ih =>
    obtain ⟨a, z, r, h1, rfl, h2⟩ := h
    exact ⟨a, z, r ++ ws, h1, rfl, ih h2⟩

end

/-- Settles O29: a load by the frame of a register write; the stores by what one of them changes, and for vectors by the elements in turn. -/
theorem loadStoreFrame : Obligations.LoadStoreFrame := by
  unfold Obligations.LoadStoreFrame
  refine ⟨fun d b off z x s t o hs hd hb hw hi => ⟨frame_ld hs hd hb hi hw, frame_st hs hd hb hi hw⟩, ?_, ?_, ?_⟩
  · intro d i s1 s2 p t s r v w u ks vs es x idx n frame hs hacc hd hi hw hr hown hx hst
    have hf {m} := frame_vectorStore (m := m) (p := p) (u := u) hs hacc hd hw (onlyRead_reads_begun hr) hown hx hst
    refine ⟨?_, ?_⟩
    · rintro a o rfl rfl ha rfl he
      exact hf (addresses_row hr ha) he
    · rintro a rfl rfl ha hidx rfl he
      exact hf (addresses_gather hr ha hidx) he
  · intro d b off z s r v w y t a x pa e n ea hs hr ha hv ht hw he
    cases he.symm.trans (exec_stg_next hs hr ha hv hw)
    obtain ⟨h1, h2, h3, h4⟩ := storesAt_frame (reads_append hr hv) (storesAt_gStore ht hw)
    exact ⟨h1, h2, h3, fun c hc => h4 c (by omega)⟩
  · intro d s1 s2 p t s r v w u a o x n es hs hd hr ha hv hw he
    cases he.symm.trans (exec_vstg_next hs hr ha hv hw)
    cases vReads_unbound_one (unbound_onlyRead (onlyRead_reads_begun hr) hd) hv
    obtain ⟨h1, h2, h3, h4⟩ := storesAt_frame hr (storesAt_gStoreElems hw)
    refine ⟨h1, h2, h3, fun c hc => h4 c ?_⟩
    rintro ⟨q, hq, hx⟩
    have := hc q hq
    omega

end Sys2Proof.Proofs
end

section
/-! PROOF. Commits, prefetches, fences and the events of the memory order (R185, R218 to R222, R224, R231, R236, R239, R244 to R246, R405, R423). -/

namespace Sys2Proof.Proofs
open Sys2Proof Sys2Proof.Machine Sys2Proof.Laws

/-! ### What a commit writes -/

/-- Memory after the bytes of a table have been written to it. -/
theorem memGet_foldl_memSet {w : Tab Byte} {lo : Option Nat} {m : List Host.Cell} (a : Nat) (hw : keysFrom lo w = true) (hm : memWf m = true) :
    memGet (w.foldl (fun m (e : Nat × Byte) => memSet m e.1 e.2) m) a = (tabFind w a).getD (memGet m a) := by
  induction w generalizing lo m with
  | nil => rfl
  | cons e w ih =>
    obtain ⟨i, b⟩ := e
    simp only [keysFrom, Bool.and_eq_true] at hw
    rw [List.foldl_cons, ih hw.2 (memWf_memSet i b hm), tabFind]
    by_cases ha : a = i
    · subst ha
      rw [if_pos rfl, tabFind_below hw.2 (Nat.le_refl _), memGet_memSet_same _ _ (memWf_keys hm)]
      rfl
    · rw [if_neg ha, memGet_memSet_other _ (memWf_keys hm) ha]
      split_ifs with hl
      · rw [tabFind_below hw.2 (Nat.le_of_lt hl)]
      · rfl

/-- Keys that are all set to one value have that value. -/
theorem tabFind_foldl_tabSet {α : Type} {ls : List Nat} {l : Nat} (t : Tab α) (v : α) (h : l ∈ ls) :
    tabFind (ls.foldl (fun d l => tabSet d l v) t) l = some v := by
  induction ls using List.reverseRecOn with
  | nil => cases h
  | append_singleton ls i ih =>
    rw [List.foldl_append]
    by_cases hl : l = i
    · subst hl; exact tabFind_tabSet_same _ _ _
    · refine (tabFind_tabSet_other _ _ hl).trans (ih ?_)
      simpa [hl] using h

/-! ### What a commit leaves alone -/

/-- The bytes of memory, of the directory and of every local store, and the tricks of a context, are what they were. -/
structure KeepsTricks (k x : Nat) (s t : State) : Prop where
  mem : t.mem = s.mem
  dir : t.dir = s.dir
  store : ∀ j, (t.core j).store = (s.core j).store
  running : (t.ctx k x).running = (s.ctx k x).running
  pending : (t.ctx k x).pending = (s.ctx k x).pending

section
variable {k x : Nat} {s t u : State}

theorem KeepsTricks.refl (k x : Nat) (s : State) : KeepsTricks k x s s := ⟨rfl, rfl, fun _ => rfl, rfl, rfl⟩

theorem KeepsTricks.trans (h : KeepsTricks k x s t) (g : KeepsTricks k x t u) : KeepsTricks k x s u :=
  ⟨g.mem.trans h.mem, g.dir.trans h.dir, fun j => (g.store j).trans (h.store j), g.running.trans h.running, g.pending.trans h.pending⟩

theorem KeepsTricks.foldl {α : Type} {f : State → α → State} (h : ∀ s a, KeepsTricks k x s (f s a)) (l : List α) (s : State) :
    KeepsTricks k x s (l.foldl f s) :=
  List.foldlRecOn l f (.refl k x s) fun t ht a _ => ht.trans (h t a)

theorem keepsTricks_of_cores (hc : t.cores = s.cores) (hm : t.mem = s.mem) (hd : t.dir = s.dir) : KeepsTricks k x s t := by
  have h : ∀ j, t.core j = s.core j := fun j => by rw [State.core, hc, State.core]
  exact ⟨hm, hd, fun j => by rw [h], by rw [State.ctx, h, State.ctx], by rw [State.ctx, h, State.ctx]⟩

theorem keepsTricks_modCtx (s : State) (f : Ctx → Ctx) (hr : ∀ v, (f v).running = v.running) (hp : ∀ v, (f v).pending = v.pending) :
    KeepsTricks k x s (s.modCtx k x f) :=
  ⟨rfl, rfl, fun j => core_modCore_keeps Core.store s k j (fun c => c.setCtx x _) rfl, by rw [ctx_modCtx, hr], by rw [ctx_modCtx, hp]⟩

theorem keepsTricks_modCore (s : State) (j : Nat) (f : Core → Core) (hc : ∀ c, (f c).ctxs = c.ctxs) (hs : ∀ c, (f c).store = c.store) :
    KeepsTricks k x s (s.modCore j f) := by
  have h := ctx_modCore_keeps s j k x f (hc _)
  exact ⟨rfl, rfl, fun i => core_modCore_keeps Core.store s j i f (hs _), by rw [h], by rw [h]⟩

theorem keepsTricks_wakeAgent (s : State) (j : Nat) : KeepsTricks k x s (wakeAgent s j) := by
  unfold wakeAgent
  split
  · exact (keepsTricks_modCore s j (fun c => { c with gated := none, asleep := false }) (fun _ => rfl) fun _ => rfl).trans
      (keepsTricks_of_cores rfl rfl rfl)
  · exact .refl k x s

theorem keepsTricks_noteDirty (s : State) (ls : List Nat) : KeepsTricks k x s (s.noteDirty ls) := by
  unfold State.noteDirty
  split
  · exact keepsTricks_of_cores rfl rfl rfl
  · exact .refl k x s

theorem keepsTricks_emit (s : State) (o : Outgoing) : KeepsTricks k x s (s.emit o) := by
  unfold State.emit
  split <;> exact keepsTricks_of_cores rfl rfl rfl

theorem keepsTricks_sendPort (s : State) (cls : Nat) (o : Outgoing) : KeepsTricks k x s (s.sendPort cls o) := by
  unfold State.sendPort
  split
  · exact keepsTricks_of_cores rfl rfl rfl
  · exact (keepsTricks_of_cores (s := s) (t := s.charge cls 1 o.packets) rfl rfl rfl).trans (keepsTricks_emit _ o)

theorem keepsTricks_postStrips (s : State) (r : Trick) : KeepsTricks k x s (s.postStrips k x r) := by
  refine KeepsTricks.foldl (fun s p => ?_) _ s
  split
  · split
    · exact .refl k x s
    · exact (keepsTricks_modCtx s (fun v => { v with streams := tabSet v.streams p.1 _ }) (fun _ => rfl) fun _ => rfl).trans
        (keepsTricks_of_cores rfl rfl rfl)
  · exact .refl k x s

theorem keepsTricks_trumpGone (s : State) (b : Bool) : KeepsTricks k x s (s.trumpGone k b) := by
  cases b <;> exact keepsTricks_of_cores rfl rfl rfl

theorem keepsTricks_ready (s : State) : KeepsTricks k x s (s.ready k x) := keepsTricks_modCtx s _ (fun _ => rfl) fun _ => rfl

/-- A commit writes memory and the directory at once, and ends the pending trick; the rest of what it does changes no byte and no trick. -/
def committed (s : State) (k x : Nat) (t : Trick) : State :=
  { s with
    mem := t.writes.foldl (fun m (w : Nat × Byte) => memSet m w.1 w.2) s.mem
    dir := t.wlines.foldl (fun d l => tabSet d l { owner := some k, sharers := [] }) s.dir }.modCtx k x fun v => { v with pending := none }

/-- Changes that every state has in common keep what is kept. -/
theorem KeepsTricks.dir_set (h : KeepsTricks k x s t) (f : Tab DirEntry → Tab DirEntry) :
    KeepsTricks k x { s with dir := f s.dir } { t with dir := f t.dir } :=
  ⟨h.mem, congrArg f h.dir, h.store, h.running, h.pending⟩

theorem KeepsTricks.pending_none (h : KeepsTricks k x s t) :
    KeepsTricks k x (s.modCtx k x fun v => { v with pending := none }) (t.modCtx k x fun v => { v with pending := none }) := by
  have hs (u : State) (j : Nat) : ((u.modCtx k x fun v => { v with pending := none }).core j).store = (u.core j).store :=
    core_modCore_keeps Core.store u k j (fun c => c.setCtx x _) rfl
  refine ⟨h.mem, h.dir, fun j => by rw [hs, hs, h.store], ?_, ?_⟩
  · rw [ctx_modCtx, ctx_modCtx]; exact h.running
  · rw [ctx_modCtx, ctx_modCtx]

/-- The core of a commit gets its queue entries; what probes changed of it is as it was. -/
theorem KeepsTricks.setCore_queues (h : KeepsTricks k x s t) (q : Tab (List Word)) : KeepsTricks k x s (t.setCore k { s.core k with q := q }) := by
  refine ⟨h.mem, h.dir, fun j => ?_, by rw [ctx_setCore]; rfl, by rw [ctx_setCore]; rfl⟩
  by_cases hj : j = k
  · subst hj; rw [core_setCore]
  · rw [core_setCore_other _ _ hj, h.store]

theorem keepsTricks_invalidate (s : State) (ls : List Nat) :
    KeepsTricks k x { s with dir := ls.foldl (fun d l => tabSet d l { owner := some k, sharers := [] }) s.dir } (s.invalidate ls (some k)) :=
  (KeepsTricks.foldl keepsTricks_wakeAgent _ s).dir_set fun d => ls.foldl (fun d l => tabSet d l { owner := some k, sharers := [] }) d

theorem keepsTricks_commit {r : Trick} (h : (s.ctx k x).pending = some r) : KeepsTricks k x (committed s k x r) (s.commit k x) := by
  have hp : ((s.core k).ctx x).pending = some r := h
  unfold State.commit
  dsimp only
  rw [hp]
  dsimp only
  have hi := ((keepsTricks_noteDirty (k := k) (x := x) { s with mem := r.writes.foldl (fun m (w : Nat × Byte) => memSet m w.1 w.2) s.mem } r.wlines).dir_set
    (fun d => r.wlines.foldl (fun d l => tabSet d l { owner := some k, sharers := [] }) d)).trans (keepsTricks_invalidate _ r.wlines)
  have hq := hi.setCore_queues (showPushes (s.core k).q r.pushes)
  have hw := hq.trans (KeepsTricks.foldl (fun s (w : Nat × List Byte) => keepsTricks_sendPort s (s.clsOf k) (.hostWrite w.1 w.2)) r.hostWrites _)
  have he := (hw.pending_none.trans (keepsTricks_trumpGone _ r.trump)).trans (keepsTricks_postStrips _ r)
  split
  · exact he.trans (keepsTricks_ready _)
  · exact he

theorem commit_spec {r : Trick} (hs : s.sound) (h : (s.ctx k x).pending = some r) (hw : tabWf r.writes = true) :
    let u := s.commit k x
    (∀ a b, tabFind r.writes a = some b → memGet u.mem a = b) ∧ (∀ a, tabFind r.writes a = none → memGet u.mem a = memGet s.mem a) ∧
    u.sound ∧ (u.ctx k x).pending = none ∧ (u.ctx k x).running = (s.ctx k x).running ∧ (u.core k).store = (s.core k).store ∧
    (∀ l ∈ r.wlines, tabFind u.dir l = some { owner := some k, sharers := [] }) ∧ (∀ j, j ≠ k → (u.core j).store = (s.core j).store) := by
  intro u
  have g := keepsTricks_commit h
  have hm (a : Nat) : memGet u.mem a = (tabFind r.writes a).getD (memGet s.mem a) := by
    rw [g.mem]
    exact memGet_foldl_memSet a hw hs
  have hst (j : Nat) : (u.core j).store = (s.core j).store :=
    (g.store j).trans (core_modCore_keeps Core.store s k j (fun c => c.setCtx x { s.ctx k x with pending := none }) rfl)
  refine ⟨fun a b ha => by rw [hm, ha]; rfl, fun a ha => by rw [hm, ha]; rfl, memWf_commit k x hs, ?_, ?_, hst k, fun l hl => ?_, fun j _ => hst j⟩
  · rw [g.pending, committed, ctx_modCtx]
  · rw [g.running, committed, ctx_modCtx]; rfl
  · rw [g.dir]; exact tabFind_foldl_tabSet s.dir _ hl

end

/-! ### Prefetches -/

section
variable {b : GReg} {off : BitVec 10} {kind : LineKind} {s t : State} {a : Word} {i : Instr} {e : TlbEntry} {pa : Nat}

theorem eaMI_reads_one {n : Nat} (hr : Reads [b] s [a] t) : eaMI b off n s = .ok (s.unitOf.ea a off n, t) := eaMI_reads hr

/-- A prefetch that is dropped retires all the same (R244). -/
theorem prefetch_no_translation (hr : Reads [b] s [a] t) (h : t.tlbHit t.cur.1 t.mine.vmroot (s.unitOf.ea a off 1).toNat = none) :
    prefetch b off kind s = .ok (.next, t) := by
  rw [prefetch, U_bind_ok (eaMI_reads_one hr), U_bind_ok (getS_apply t)]
  dsimp only
  rw [← State.mine, h]
  rfl

section
variable (hr : Reads [b] s [a] t) (h : t.tlbHit t.cur.1 t.mine.vmroot (s.unitOf.ea a off 1).toNat = some e)
include hr h

theorem prefetch_fault {f : XFault} (hc : t.checkPage (t.partOf t.cur.1) e (s.unitOf.ea a off 1).toNat 0 = .error f) :
    prefetch b off kind s = .ok (.next, t) := by
  rw [prefetch, U_bind_ok (eaMI_reads_one hr), U_bind_ok (getS_apply t)]
  dsimp only
  rw [← State.mine, h]
  dsimp only
  rw [hc]
  rfl

/-- A prefetch whose address is translated asks the home for the line, or is dropped. -/
theorem prefetch_translated (hc : t.checkPage (t.partOf t.cur.1) e (s.unitOf.ea a off 1).toNat 0 = .ok pa) :
    prefetch b off kind s = .ok (.next,
      if hostResident pa || (s.unitOf.ea a off 1).extractLsb' 56 8 != 0#8 || t.leaseHeld (· == pa / 64) (some t.cur) || t.lineBusy (pa / 64) then t
      else t.post (lineLatency t t.cur.1 (pa / 64)) (.homeLineRequest (BitVec.ofNat 46 (pa / 64)) (cid t.cur.1) kind)) := by
  rw [prefetch, U_bind_ok (eaMI_reads_one hr), U_bind_ok (getS_apply t)]
  dsimp only
  rw [← State.mine, h]
  dsimp only
  rw [hc]
  dsimp only
  split <;> rfl

end

/-- What PREF does, of whatever kind: it retires in every case, and asks for a line that nothing waits for (R244). -/
theorem prefetch_cases (hs : Runs s) (hr : Reads [b] (begun s) [a] t) (he : exec i s = runIn (prefetch b off kind) s) :
    let ea := s.unitOf.ea a off 1
    (t.tlbHit t.cur.1 t.mine.vmroot ea.toNat = none ∨ ea.extractLsb' 56 8 ≠ 0#8 → exec i s = .next (retired s t)) ∧
    ∀ e, t.tlbHit t.cur.1 t.mine.vmroot ea.toNat = some e → ea.extractLsb' 56 8 = 0#8 →
      (∀ f, t.checkPage (t.partOf t.cur.1) e ea.toNat 0 = .error f → exec i s = .next (retired s t)) ∧
      ∀ pa, t.checkPage (t.partOf t.cur.1) e ea.toNat 0 = .ok pa →
        (hostResident pa = true ∨ t.leaseHeld (· == pa / 64) (some t.cur) = true ∨ t.lineBusy (pa / 64) = true → exec i s = .next (retired s t)) ∧
        (hostResident pa = false → t.leaseHeld (· == pa / 64) (some t.cur) = false → t.lineBusy (pa / 64) = false →
          exec i s = .next (retired s
            (t.post (lineLatency t t.cur.1 (pa / 64)) (.homeLineRequest (BitVec.ofNat 46 (pa / 64)) (cid t.cur.1) kind)))) := by
  intro ea
  have hu : (begun s).unitOf.ea a off 1 = ea := by rw [begun_unitOf]
  rw [he]
  refine ⟨fun h => unit_next hs ?_, fun e hh h8 => ⟨fun f hc => unit_next hs ?_, fun pa hc => ⟨fun h => unit_next hs ?_, fun h1 h2 h3 => unit_next hs ?_⟩⟩⟩
  · cases hh : t.tlbHit t.cur.1 t.mine.vmroot ea.toNat with
    | none => exact prefetch_no_translation hr (by rw [hu]; exact hh)
    | some e =>
      have h8 := h.resolve_left (by rw [hh]; nofun)
      cases hc : t.checkPage (t.partOf t.cur.1) e ea.toNat 0 with
      | error f => exact prefetch_fault hr (by rw [hu]; exact hh) (by rw [hu]; exact hc)
      | ok pa =>
        rw [prefetch_translated hr (by rw [hu]; exact hh) (by rw [hu]; exact hc), hu, if_pos]
        simp [h8]
  · exact prefetch_fault hr (by rw [hu]; exact hh) (by rw [hu]; exact hc)
  · rw [prefetch_translated hr (by rw [hu]; exact hh) (by rw [hu]; exact hc), if_pos]
    rcases h with h | h | h <;> simp [h]
  · rw [prefetch_translated hr (by rw [hu]; exact hh) (by rw [hu]; exact hc), hu, if_neg]
    simp [h1, h2, h3, h8]

end

/-! ### Fences -/

section
variable {s : State} {sc : Scope}

theorem podRelease_apply (s : State) : podRelease s = if s.podReleased s.cur.1 then .ok ((), s) else .error (.wait .podRelease) := by
  rw [podRelease, U_bind_ok (getS_apply s)]
  cases s.podReleased s.cur.1 <;> rfl

/-- FENCE retires at once where nothing written to another package's pages is still on its way (R239). -/
theorem execFence_released (hs : Quiet s) (h : sc ≠ .pod ∨ s.podReleased s.cur.1 = true) : execFence sc s = .next (retiredOut s s) := by
  refine runIrr_next hs ?_
  split
  · next hp =>
    have hr : podRelease s = .ok ((), s) := by rw [podRelease_apply, h.resolve_left (not_not.2 hp)]; rfl
    rw [U_bind_ok hr]
    rfl
  · rfl

/-- Else it writes it home and waits for it. -/
theorem execFence_unreleased (hs : Quiet s) (hp : sc = .pod) (h : s.podReleased s.cur.1 = false) :
    execFence sc s = .next ((s.flushDirty s.cur.1 s.cur.2 (s.clsOf s.cur.1)).block s.cur.1 s.cur.2 .podRelease) := by
  have hr : podRelease s = .error (.wait .podRelease) := by rw [podRelease_apply, h]; rfl
  have he : s.endTrick s.cur.1 s.cur.2 = s := endTrick_settled hs.1
  refine (runIrr_stop hs (e := .wait .podRelease) ?_ fun _ _ h => by cases h).trans ?_
  · rw [if_pos hp, U_bind_error hr]
  · rw [stopUnit, he]

end

/-! ### The commit request of a trick -/

section
variable {s : State} {c : CoreId} {x : CtxId} {t : Trick}

theorem exec_localCommit (hp : (s.ctx c.toNat x.toNat).pending = some t) (hw : t.writes = []) : exec (.localCommit c x) s =
    .next (if commitHeld s c.toNat x.toNat t then s.post 1 (.localCommit c x) else s.commitNext c.toNat x.toNat) := by
  have h : exec (.localCommit c x) s = execLocalCommit c x s := rfl
  rw [h, execLocalCommit, hp]
  dsimp only
  rw [hw]
  exact (apply_ite Host.Outcome.next _ _ _).symm

section
variable (hp : (s.ctx c.toNat x.toNat).pending = some t) (hw : t.writes ≠ []) (hd : t.due = s.tick)
include hp hw hd

theorem exec_commitGrant_held (h : commitHeld s c.toNat x.toNat t = true ∨ s.exhausted (s.clsOf c.toNat) 3 = true) :
    exec (.commitGrant c x) s = .next ((redue s c.toNat x.toNat 1).post 1 (.commitGrant c x)) := by
  have he : exec (.commitGrant c x) s = execCommitGrant c x s := rfl
  have h1 : (t.writes.isEmpty || t.due != s.tick) = false := by simp [hw, hd]
  rw [he, execCommitGrant, hp]
  dsimp only
  rw [h1, if_neg Bool.false_ne_true, if_pos (by rcases h with h | h <;> simp [h])]

/-- A commit grant that is decided in this tick and that no page, no refusal and no probe holds up. -/
theorem exec_commitGrant (hc : commitHeld s c.toNat x.toNat t = false) (he : s.exhausted (s.clsOf c.toNat) 3 = false)
    (hl : ∀ l ∈ t.wlines, s.podRemote (l * 64) = false ∧ s.needPage (l * 64) c.toNat true = none ∧ probeStopped s c.toNat l true = none) :
    let k := c.toNat
    let y := x.toNat
    let i := Instr.commitGrant c x
    let keys := (t.wlines.filter fun l => !(s.ctx k y).leases? s.tick l).map lineKey
    let g := granted s k t
    let later := (redue s k y 1).post 1 i
    let u := (s.squashIn (s.near k) (meetsTrick s.tick t.wlines) (some (k, y))).unhold i
    exec i s = .next (
      if s.lowerDue (if t.trump then 0 else k) (if t.trump then 0 else y + 1) (commitDue s) then s.post 0 i
      else if (!t.trump && s.behind i keys) || s.writeHeld (s.near k) t.wlines (some (k, y)) true then (redue s k y 1).hold i keys 1
      else if !t.trump && !mayJoin ((s.part (s.partOf k)).batchNow s.tick) g then later
      else ((joinBatch u (s.partOf k) g t.trump).charge (s.clsOf k) 3 1).commitNext k y) := by
  intro k y i keys g later u
  have h : exec i s = execCommitGrant c x s := rfl
  have h1 : (t.writes.isEmpty || t.due != s.tick) = false := by simp [hw, hd]
  have h2 : (t.wlines.any fun l => s.podRemote (l * 64) && s.hub.refused.contains (s.partOf k, l / 64)) = false := by
    rw [List.any_eq_false]
    intro l hm
    rw [(hl l hm).1]
    simp
  have h3 : (t.wlines.findSome? fun l => s.needPage (l * 64) k true) = none := List.findSome?_eq_none_iff.2 fun l hm => (hl l hm).2.1
  have h4 : (t.wlines.findSome? fun l => probeStopped s k l true) = none := List.findSome?_eq_none_iff.2 fun l hm => (hl l hm).2.2
  rw [h, execCommitGrant, hp]
  dsimp only
  rw [h1, h2, h3, h4, hc, he]
  simp only [Bool.or_self, Bool.false_eq_true, if_false, apply_ite Host.Outcome.next]
  rfl

end

end

/-! ### Trumps -/

section
variable {s : State} {k y : Nat} {p : BitVec 2} {v : Ctx}

/-- With one core and one context, the trump that waits is that context's. -/
theorem exec_trumpAdmission (hn : trumpActive s p.toNat = false) (hc : s.cores = [(k, s.core k)]) (hp : s.partOf k = p.toNat)
    (hx : (s.core k).ctxs = [(y, v)]) (hl : v.life = .blocked .trump) : exec (.trumpAdmission p) s = .next (
      if (s.core k).halting = none ∧ (s.core k).stopped = false then
        if admissible v then (s.modCtx k y fun v => { v with running := { v.running with trump := true } }).ready k y
        else s.post 1 (.trumpAdmission p)
      else s) := by
  have h : exec (.trumpAdmission p) s = execTrumpAdmission p s := rfl
  have hv : s.ctx k y = v := by rw [State.ctx, Core.ctx, hx, tabGet, tabFind, if_pos rfl]; rfl
  rw [h, execTrumpAdmission, hn, hc]
  simp only [Bool.false_eq_true, if_false, List.flatMap_cons, List.flatMap_nil, List.append_nil, hp, true_and, Option.isNone_iff_eq_none, hx,
    List.filter_cons, List.filter_nil, hl, beq_self_eq_true, if_true, List.map_cons, List.map_nil]
  by_cases hg : (s.core k).halting = none ∧ (s.core k).stopped = false
  · rw [if_pos hg, if_pos hg]
    dsimp only [List.foldl]
    rw [hv]
    cases admissible v <;> rfl
  · rw [if_neg hg, if_neg hg]
    rfl

end

/-! ### Requests for lines -/

section
variable {s : State} {c : CoreId} {l : LineId} {kind : LineKind}

theorem probeStopped_unlisted {k l : Nat} {own : Bool} (h : tabFind s.dir l = none) : probeStopped s k l own = none := by
  rw [probeStopped, h]
  rfl

/-- A line that nobody holds enters the L1 portion that asks for it, or its home slice alone. -/
theorem fillLine_unlisted {k l : Nat} (hd : tabFind s.dir l = none) (hp : s.podRemote (l * 64) = false) :
    let u := s.charge (s.clsOf k) 0 1
    let holds := fun (e : DirEntry) (own : Bool) => wakeLine { u with dir := tabSet u.dir l e } k l own
    (kind = .prefSlc → fillLine s k l kind = { u with dir := tabSet u.dir l { owner := none, sharers := [] } }) ∧
    (kind = .own ∨ kind = .prefOwn → fillLine s k l kind = holds { owner := some k, sharers := [] } true) ∧
    (kind = .rd ∨ kind = .prefRd → fillLine s k l kind = holds { owner := none, sharers := [k] } false) := by
  rw [fillLine, hd, hp]
  refine ⟨?_, ?_, ?_⟩
  · rintro rfl; rfl
  · rintro (rfl | rfl) <;> rfl
  · rintro (rfl | rfl) <;> rfl

theorem exec_homeLineRequest (hd : tabFind s.dir l.toNat = none) (hp : s.podRemote (l.toNat * 64) = false)
    (hb : goesAhead s c.toNat l.toNat (.homeLineRequest l c kind) = true ∨ s.behind (.homeLineRequest l c kind) [lineKey l.toNat] = false)
    (hl : leasedAway s c.toNat l.toNat = false) (hn : s.needPage (l.toNat * 64) c.toNat (kind == .own || kind == .prefOwn) = none) :
    exec (.homeLineRequest l c kind) s = .next (
      if s.meterOut c.toNat 0 then s.hold (.homeLineRequest l c kind) [lineKey l.toNat]
      else fillLine (s.unhold (.homeLineRequest l c kind)) c.toNat l.toNat kind) := by
  have h : exec (.homeLineRequest l c kind) s = execHomeLineRequest l c kind s := rfl
  have hbusy : (!goesAhead s c.toNat l.toNat (.homeLineRequest l c kind) && s.behind (.homeLineRequest l c kind) [lineKey l.toNat]) = false := by
    rcases hb with hb | hb <;> simp [hb]
  rw [h, execHomeLineRequest]
  dsimp only
  rw [hp, hbusy, hl, hn, probeStopped_unlisted hd, hd]
  simp only [Bool.false_and, Bool.false_eq_true, Bool.or_false, if_false, Option.isNone_none, Bool.not_false, Bool.true_and, apply_ite Host.Outcome.next]

end

/-! ### Leases and probes -/

section
variable {s : State}

/-- A lease in force of another context holds a write event up (R225). -/
theorem writeHeld_of_lease {ls : List Nat} {who : Option (Nat × Nat)} {p : Nat → Bool} {own : Bool} {j z n : Nat} {l : Lease} {cs : Core} {v : Ctx}
    (hw : some (j, z) ≠ who) (hc : (j, cs) ∈ s.cores) (hv : (z, v) ∈ cs.ctxs) (hl : (n, l) ∈ v.leases) (hf : l.inForce s.tick = true)
    (hm : l.pa / 64 ∈ ls) : s.writeHeld p ls who own = true := by
  have h : s.leaseHeld ls.contains who = true := by
    refine List.any_eq_true.2 ⟨_, hc, List.any_eq_true.2 ⟨_, hv, ?_⟩⟩
    rw [Bool.and_eq_true, bne_iff_ne]
    exact ⟨hw, List.any_eq_true.2 ⟨_, hl, by rw [hf, List.contains_iff_mem.2 hm]; rfl⟩⟩
  rw [State.writeHeld, h, Bool.true_or]

variable {c : CoreId} {l : LineId} {e : DirEntry}

theorem exec_probeTimeout (hd : tabFind s.dir l.toNat = some e) (hs : (s.core c.toNat).stopped = true) : exec (.probeTimeout l c) s = .next (
    if e.owner = some c.toNat then
      ({ s with dir := tabSet s.dir l.toNat { e with owner := none } }).post 0 (.machineCheck (.partition (BitVec.ofNat 2 (s.partOf c.toNat))))
    else if e.sharers.contains c.toNat then
      ({ s with dir := tabSet s.dir l.toNat { e with sharers := e.sharers.filter (· != c.toNat) } }).post 0 (.machineCheck (.core c))
    else s) := by
  have h : exec (.probeTimeout l c) s = execProbeTimeout l c s := rfl
  rw [h, execProbeTimeout, hd]
  dsimp only
  rw [hs]
  simp only [Bool.not_true, Bool.false_eq_true, if_false, apply_ite Host.Outcome.next]

end

/-- Settles O33: what a commit writes and keeps, PREF by its translation, the fences, and each event by what may hold it up. -/
theorem memoryOrder : Obligations.MemoryOrder := by
  unfold Obligations.MemoryOrder
  refine ⟨fun s k x t hs hp hw => commit_spec hs hp hw, ⟨fun b off s t a hs hr => ?_, fun s sc hs => ?_⟩, fun s c x => ⟨?_, ?_, ?_, ?_, ?_, ?_, ?_⟩⟩
  · have h (i : Instr) (kind : LineKind) (he : exec i s = runIn (prefetch b off kind) s) := prefetch_cases hs hr he
    obtain ⟨r1, r2⟩ := h (.prefRd b off) .prefRd rfl
    obtain ⟨o1, o2⟩ := h (.prefOwn b off) .prefOwn rfl
    obtain ⟨c1, c2⟩ := h (.prefSlc b off) .prefSlc rfl
    refine ⟨fun hh => ⟨r1 hh, o1 hh, c1 hh⟩, fun e hh h8 =>
      ⟨fun f hc => ⟨(r2 e hh h8).1 f hc, (o2 e hh h8).1 f hc, (c2 e hh h8).1 f hc⟩, fun pa hc => ?_⟩⟩
    obtain ⟨r3, r4⟩ := (r2 e hh h8).2 pa hc
    obtain ⟨o3, o4⟩ := (o2 e hh h8).2 pa hc
    obtain ⟨c3, c4⟩ := (c2 e hh h8).2 pa hc
    exact ⟨fun hd => ⟨r3 hd, o3 hd, c3 hd⟩, fun h1 h2 h3 => ⟨r4 h1 h2 h3, o4 h1 h2 h3, c4 h1 h2 h3⟩⟩
  · exact ⟨runIrr_next hs rfl, runIrr_next hs rfl, runIrr_next hs rfl, fun h => ⟨execFence_released hs h, execFence_released hs h⟩,
      fun hp h => ⟨execFence_unreleased hs hp h, execFence_unreleased hs hp h⟩⟩
  · exact fun t hp hw => exec_localCommit hp hw
  · intro t hp hw hd i keys held g later
    refine ⟨exec_commitGrant_held hp hw hd, fun hc he hl => ?_⟩
    have hheld : ((!t.trump && s.behind i keys) || s.writeHeld (s.near c.toNat) t.wlines (some (c.toNat, x.toNat)) true) = true ↔ held := by
      simp [held]
    have h := exec_commitGrant hp hw hd hc he hl
    refine ⟨fun hlow => h.trans (by rw [if_pos hlow]), fun hlow => ?_⟩
    replace h := h.trans (by rw [if_neg (ne_true_of_eq_false hlow)])
    refine ⟨fun hh => h.trans (by rw [if_pos (hheld.2 hh)]), fun hh ht hj => ?_, fun hh hj => ?_⟩ <;>
      replace h := h.trans (by rw [if_neg (mt hheld.1 hh)])
    · exact h.trans (by rw [ht, hj]; rfl)
    · exact h.trans (congrArg _ (if_neg (by rcases hj with hj | (hj : mayJoin _ (granted s _ t) = true) <;> simp [hj])))
  · intro p h
    exact if_pos h
  · intro p v hn hc hp hx hl
    rw [exec_trumpAdmission hn hc hp hx hl]
    refine ⟨fun h => ?_, fun h1 h2 => ⟨fun ha => ?_, fun ha => ?_⟩⟩
    · rw [if_neg]
      rintro ⟨h1, h2⟩
      simp [h1, h2] at h
    · rw [if_pos ⟨h1, h2⟩, ha]; rfl
    · rw [if_pos ⟨h1, h2⟩, ha]; rfl
  · intro l kind i hd hp hb hl hn
    rw [exec_homeLineRequest hd hp hb hl hn]
    refine ⟨fun hm => by rw [if_pos hm], fun hm => ?_⟩
    rw [if_neg (by rw [hm]; exact Bool.false_ne_true)]
    obtain ⟨h1, h2, h3⟩ := fillLine_unlisted (s := s.unhold i) (k := c.toNat) (kind := kind) hd hp
    exact ⟨fun h => congrArg _ (h1 h), fun h => congrArg _ (h2 h), fun h => congrArg _ (h3 h)⟩
  · rintro ls who p own j z l hw ⟨cs, hc, v, hv, n, hl⟩ hf hm
    exact writeHeld_of_lease hw hc hv hl hf hm
  · intro l e hd hs
    rw [exec_probeTimeout hd hs]
    exact ⟨fun h => by rw [if_pos h], fun h hc => by rw [if_neg h, if_pos hc]⟩

end Sys2Proof.Proofs
end

section
/-! PROOF. Requests at the owner of a scratchpad, accepted stores, parked requests and vector accesses (R190, R191, R194, R196, R199 to R202, R207 to
R209, R475, R528). -/

namespace Sys2Proof.Proofs
open Sys2Proof Sys2Proof.Machine Sys2Proof.Laws

/-! ### The names of cores and contexts -/

@[simp] theorem cid_toNat (c : CoreId) : cid c.toNat = c := (BitVec.ofNat_toNat 12 c).trans (BitVec.setWidth_eq c)
@[simp] theorem xid_toNat (x : CtxId) : xid x.toNat = x := (BitVec.ofNat_toNat 4 x).trans (BitVec.setWidth_eq x)

/-! ### Agents that wake -/

section
variable (s : State) (j k x : Nat)

@[simp] theorem wakeAgent_tick : (wakeAgent s j).tick = s.tick := by
  unfold wakeAgent
  split <;> rfl

/-- A core that wakes keeps its contexts. -/
@[simp] theorem wakeAgent_ctx : (wakeAgent s j).ctx k x = s.ctx k x := by
  unfold wakeAgent
  split
  · exact ctx_modCore_keeps s j k x (fun c => { c with gated := none, asleep := false }) rfl
  · rfl

theorem wakeAgents_ctx (gs : List VecGroup) : (gs.foldl (fun s g => wakeAgent s g.owner) s).ctx k x = s.ctx k x := by
  induction gs generalizing s with
  | nil => rfl
  | cons g gs ih => rw [List.foldl_cons, ih, wakeAgent_ctx]

end

/-! ### Units that a reply ends -/

section
variable {s u : State} {k x : Nat}

theorem completeUnit_next {m : U After} (hm : m { s with cur := (k, x) } = .ok (.next, u)) (hl : (u.ctx k x).life ≠ .parked) :
    completeUnit s k x m = replied s k x u := by
  have hr : m.run { s with cur := (k, x) } = .ok (.next, u) := hm
  have hn : ((u.retireUnit k x (s.ctx k x).unit false none).ctx k x).life ≠ .parked := by rwa [life_retireUnit_out]
  rw [completeUnit]
  dsimp only
  rw [hr]
  exact (if_neg (by nofun)).trans (if_neg hn)

theorem completeUnit_done (hl : (s.ctx k x).life ≠ .parked) : completeUnit s k x (pure .next) = replied s k x { s with cur := (k, x) } :=
  completeUnit_next rfl hl

theorem completeUnit_trap (s : State) (k x : Nat) (c : Cause) (a : Word) : completeUnit s k x (stopTrap c a) = replyTraps s k x { cause := c, addr := a } :=
  rfl

/-- A request of another core is performed, and the unit that waits for it retires (R190, R201). -/
theorem completeUnit_performOp {op : RemoteOp} {owner off : Nat} {mbox : Bool} {d : GReg} (hl : (s.ctx k x).life ≠ .parked)
    (hu : ReplyWrites (s.setCore owner (ownerAfter { s with cur := (k, x) } op owner off mbox)) k x (if op.writes then d else 0#5)
      (opPerform (s.core owner) op off mbox).2 u) (hc : ((s.setCore owner (ownerAfter { s with cur := (k, x) } op owner off mbox)).ctx k x).life = (s.ctx k x).life) :
    completeUnit s k x (performOp op owner off mbox d) = replied s k x u :=
  completeUnit_next (performOp_ok hu) (by rw [life_replyWrites hu, hc]; exact hl)

theorem ownerAfter_other {op : RemoteOp} {owner off : Nat} {mbox : Bool} (hne : owner ≠ k) : ownerAfter { s with cur := (k, x) } op owner off mbox =
    if op.deposits = true ∧ mbox = false then noteDeposit (opPerform (s.core owner) op off mbox).1 s.tick (wordsOf off op.size)
    else (opPerform (s.core owner) op off mbox).1 := by
  rw [ownerAfter]
  dsimp only
  rw [if_neg hne]
  cases op.deposits <;> cases mbox <;> rfl

theorem ctx_setCore_other (s : State) {j k : Nat} (x : Nat) (c : Core) (h : k ≠ j) : (s.setCore j c).ctx k x = s.ctx k x := by
  rw [State.ctx, core_setCore_other _ _ h, State.ctx]

end

/-! ### A request of another core at its owner -/

section
variable {s : State} {k x owner off n : Nat} {op : RemoteOp} {mbox : Bool} {d : GReg} (hr : (s.ctx k x).req = some (.remote op owner off mbox d n))
include hr

theorem requestAt_away (hne : owner ≠ k) (ha : (wakeAgent s owner).away ((wakeAgent s owner).core k).launch owner = true) :
    requestAt s k x = (wakeAgent s owner).post 256 (.evictionRetryResend (cid k) (xid x)) := by
  rw [requestAt, hr]
  dsimp only
  rw [ha, if_pos (by simp [hne])]

variable (ha : (wakeAgent s owner).away ((wakeAgent s owner).core k).launch owner = false)
include ha

theorem requestAt_fault {f : Cause} (hf : ownerFault (wakeAgent s owner) k ⟨owner, off, mbox⟩ op.size = some f) :
    requestAt s k x =
      replyTraps (wakeAgent s owner) k x { cause := f, addr := BitVec.ofNat 64 (2 ^ 31 + owner * 2 ^ 18 + off) } := by
  rw [requestAt, hr]
  dsimp only
  rw [ha, if_neg (by simp), hf]
  exact completeUnit_trap ..

variable (hne : owner ≠ k) (hf : ownerFault (wakeAgent s owner) k ⟨owner, off, mbox⟩ op.size = none)
include hne hf

/-- A request that a trick or the full/empty bit holds is parked, refused, or refused for the last time (R196, R199, R200). -/
theorem requestAt_held (hh : opTouches ((wakeAgent s owner).core owner) 16 op off mbox = true ∨
      (op.waitsFor.isSome && (!opAllowed ((wakeAgent s owner).core owner) op off mbox || queuedOn ((wakeAgent s owner).core owner) off mbox)) = true) :
    let w := wakeAgent s owner
    let r := w.modCore owner fun c => { c with pkRefused := c.pkRefused + 1 }
    requestAt s k x =
      if 64 ≤ w.parkUsed owner then
        if 15 ≤ n then replyTraps r k x { cause := .retryLimit }
        else (r.modCtx k x fun v => { v with req := some (.remote op owner off mbox d (n + 1)) }).post 32 (.parkRefusalRetry (cid k) (xid x))
      else parkAt w owner { core := k, ctx := x, off := off, mbox := mbox, held := opTouches (w.core owner) 16 op off mbox } := by
  intro w r
  rw [requestAt, hr]
  dsimp only
  rw [ha, if_neg (by simp), hf, if_neg hne]
  dsimp only
  rw [if_pos (by rcases hh with hh | hh <;> simp [hh])]
  exact if_congr Iff.rfl (if_congr Nat.succ_le_succ_iff (completeUnit_trap ..) rfl) rfl

section
variable (hh : opTouches ((wakeAgent s owner).core owner) 16 op off mbox = false)
  (hw : (op.waitsFor.isSome && (!opAllowed ((wakeAgent s owner).core owner) op off mbox || queuedOn ((wakeAgent s owner).core owner) off mbox)) = false)
include hh hw

/-- A store is accepted, and its unit retires (R190, R194). -/
theorem requestAt_store {b : Nat} {a : Word} (hl : (s.ctx k x).life ≠ .parked) (ho : op = .store b a) : let w := wakeAgent s owner
    requestAt s k x = acceptStores (replied w k x { w with cur := (k, x) }) k x [{ owner := owner, off := off, bytes := b, value := a }] := by
  subst ho
  intro w
  rw [requestAt, hr]
  dsimp only
  rw [ha, if_neg (by simp), hf, if_neg hne]
  dsimp only
  rw [hh, hw, if_neg (by simp), if_neg hne, completeUnit_done (by rwa [wakeAgent_ctx])]

variable (ho : ∀ b a, op ≠ .store b a)
include ho

/-- What is no store is performed, unless it would write what the owner wrote in this tick (R201). -/
theorem requestAt_free : let w := wakeAgent s owner
    requestAt s k x =
      if op.deposits = true ∧ mbox = false ∧ (w.core owner).wroteNow w.tick (wordsOf off op.size) = true then w.post 1 (.remoteAccessPerform (cid k) (xid x))
      else completeUnit w k x (performOp op owner off mbox d) := by
  intro w
  rw [requestAt, hr]
  dsimp only
  rw [ha, if_neg (by simp), hf, if_neg hne]
  dsimp only
  rw [hh, hw, if_neg (by simp)]
  split
  · exact absurd rfl (ho _ _)
  · rw [if_neg hne]
    exact if_congr (by cases mbox <;> simp [w]) rfl rfl

theorem requestAt_waits (h1 : op.deposits = true) (h2 : mbox = false)
    (h3 : ((wakeAgent s owner).core owner).wroteNow (wakeAgent s owner).tick (wordsOf off op.size) = true) :
    requestAt s k x = (wakeAgent s owner).post 1 (.remoteAccessPerform (cid k) (xid x)) :=
  (requestAt_free hr ha hne hf hh hw ho).trans (if_pos ⟨h1, h2, h3⟩)

theorem requestAt_performed {u : State} (hl : (s.ctx k x).life ≠ .parked) (hn : op.deposits = false ∨ mbox = true ∨
      ((wakeAgent s owner).core owner).wroteNow (wakeAgent s owner).tick (wordsOf off op.size) = false) : let w := wakeAgent s owner
    let p := (opPerform (w.core owner) op off mbox).1
    ReplyWrites (w.setCore owner (if op.deposits = true ∧ mbox = false then noteDeposit p w.tick (wordsOf off op.size) else p)) k x
      (if op.writes then d else 0#5) (opPerform (w.core owner) op off mbox).2 u → requestAt s k x = replied w k x u := by
  intro w p hu
  have hx : ((w.setCore owner (ownerAfter { w with cur := (k, x) } op owner off mbox)).ctx k x).life = (w.ctx k x).life := by
    rw [ctx_setCore_other _ _ _ (Ne.symm hne)]
  rw [← ownerAfter_other (x := x) hne] at hu
  rw [requestAt_free hr ha hne hf hh hw ho, if_neg, completeUnit_performOp (by rwa [wakeAgent_ctx]) hu hx]
  rintro ⟨h1, h2, h3⟩
  rcases hn with hn | hn | hn
  · exact Bool.false_ne_true (hn.symm.trans h1)
  · exact Bool.false_ne_true (h2.symm.trans hn)
  · exact Bool.false_ne_true (hn.symm.trans h3)

end

end

section
variable {s : State} {c : CoreId} {x : CtxId} {op : RemoteOp} {owner off n : Nat} {mbox : Bool} {d : GReg} (hl : (s.ctx c.toNat x.toNat).life = .blocked .reply)
  (hr : (s.ctx c.toNat x.toNat).req = some (.remote op owner off mbox d n))
include hl hr

/-- Of the requests of a tick those of lower context identifiers come first (R191). -/
theorem exec_remoteAccessPerform : exec (.remoteAccessPerform c x) s = .next (
    if s.lowerDue c.toNat x.toNat bankRequest then s.postPoll 0 (.remoteAccessPerform c x) else requestAt s c.toNat x.toNat) := by
  have h : exec (.remoteAccessPerform c x) s = execRemoteAccessPerform c x s := rfl
  rw [h, execRemoteAccessPerform, hl, hr]
  exact (apply_ite Host.Outcome.next _ _ _).symm

/-- A refused request, and one that met an owner away, are sent again (R200, R202). -/
theorem exec_resend (hh : (s.core c.toNat).halting = none) :
    exec (.parkRefusalRetry c x) s = .next (s.post (latency s c.toNat owner) (.remoteAccessPerform c x)) ∧
      exec (.evictionRetryResend c x) s = .next (s.post (latency s c.toNat owner) (.remoteAccessPerform c x)) := by
  have h1 : exec (.parkRefusalRetry c x) s = execParkRefusalRetry c x s := rfl
  have h2 : exec (.evictionRetryResend c x) s = execEvictionRetryResend c x s := rfl
  have h3 : resendAny s c.toNat x.toNat = s.post (latency s c.toNat owner) (.remoteAccessPerform c x) := by
    rw [resendAny, hl, hr]
    dsimp only
    rw [resend, hl, hr]
    dsimp only
    rw [cid_toNat, xid_toNat]
  rw [h1, h2, execParkRefusalRetry, execEvictionRetryResend, hh, h3]
  exact ⟨rfl, rfl⟩

end

/-! ### Accepted stores -/

section
variable {s : State} {c : CoreId} {x : CtxId} {a : Accepted} {rest : List Accepted}

/-- The oldest accepted store of a context becomes a deposit once nothing at its owner is in its way (R191, R194, R196, R201). -/
theorem exec_remoteStorePerform (ha : (s.ctx c.toNat x.toNat).accepted = a :: rest) :
    let k := c.toNat
    let y := x.toNat
    let z := wakeAgent s a.owner
    let o := z.core a.owner
    let i := Instr.remoteStorePerform c x
    let words := wordsOf a.off a.bytes
    let keep := fun (b : Accepted) => z.modCtx k y fun v => { v with accepted := b :: rest }
    exec i s = .next (
      if z.lowerDue k y bankRequest then z.postPoll 0 i
      else if z.away (z.core k).launch a.owner then z.post 256 i
      else if o.touched 16 [] words then
        (keep { a with held := true, entry := a.entry || decide (z.parkUsed a.owner < 64), free := none }).postPoll 1 i
      else if a.held = true ∧ a.free = none then (keep { a with free := some z.tick }).post 1 i
      else if o.wroteNow z.tick words then z.post 1 i
      else wakeAccepted
        ((z.setCore a.owner (noteDeposit { o with store := memWrite o.store a.off a.bytes a.value.toNat } z.tick words)).modCtx k y fun v =>
          { v with accepted := rest }) k y) := by
  intro k y z o i words keep
  have h : exec i s = execRemoteStorePerform c x s := rfl
  rw [h, execRemoteStorePerform]
  dsimp only
  rw [ha]
  simp only [apply_ite Host.Outcome.next]
  rfl

end

/-! ### Vector accesses -/

theorem tabSet_tabSet {α : Type} (t : Tab α) (i : Nat) (v w : α) : tabSet (tabSet t i v) i w = tabSet t i w := by
  induction t with
  | nil => simp [tabSet]
  | cons e t ih =>
    simp only [tabSet]
    split_ifs with h1 h2
    · simp [tabSet]
    · simp [tabSet]
    · simp [tabSet, h1, h2, ih]

theorem modCtx_modCtx (s : State) (k x : Nat) (f g : Ctx → Ctx) : (s.modCtx k x f).modCtx k x g = s.modCtx k x fun v => g (f v) := by
  have h : ((s.modCtx k x f).core k).setCtx x (g ((s.modCtx k x f).ctx k x)) = (s.core k).setCtx x (g (f (s.ctx k x))) := by
    rw [core_modCtx, ctx_modCtx, Core.setCtx, Core.setCtx, tabSet_tabSet, Core.setCtx]
  change { s with cores := tabSet (tabSet s.cores k _) k (((s.modCtx k x f).core k).setCtx x (g ((s.modCtx k x f).ctx k x))) } = _
  rw [h, tabSet_tabSet]
  rfl

section
variable {s : State} {k x : Nat} {st : Bool} {d : VReg} {p : PReg} {t : ElemType} {gs : List VecGroup} {data : Vec}
  (hr : (s.ctx k x).req = some (.vec st d p t gs data))
include hr

theorem mapGroups_vec (f : VecGroup → VecGroup) :
    mapGroups s k x f = s.modCtx k x fun v => { v with req := some (.vec st d p t (gs.map f) data) } := by
  rw [mapGroups, State.modCtx, hr]
  rfl

theorem groupsOf_vec : groupsOf s k x = gs := by
  rw [groupsOf, hr]

end

section
variable {s : State} {k x : Nat} {st : Bool} {d : VReg} {p : PReg} {t : ElemType} {gs : List VecGroup} {data : Vec} {g : VecGroup}

/-- The owners of a vector access have all been reached and are awake. -/
def wokenBy (s : State) (gs : List VecGroup) : State := gs.foldl (fun s g => wakeAgent s g.owner) s

/-- The words of a vector access that lie in the own scratchpad. -/
def ownWords (k n : Nat) (gs : List VecGroup) : List Nat :=
  (gs.filter (·.owner == k)).flatMap fun g => g.elems.flatMap fun e => wordsOf (e.2.toNat % 2 ^ 18) n

/-- What becomes of a vector access once its groups have been looked at: it traps, a group is sent again, it waits, or it is performed (R200, R201,
R528). -/
def afterGroups (v : State) (k x n : Nat) (st : Bool) : State :=
  let gs := groupsOf v k x
  if gs.any fun g => decide (g.refusals ≥ 16) then completeUnit (withdrawParked v k x) k x (stopTrap .retryLimit)
  else if gs.any fun g => decide (g.refusals > 0) && !g.parked then v.post 32 (.parkRefusalRetry (cid k) (xid x))
  else if vecWaits k gs then v
  else if st && (v.core k).depositedNow v.tick (ownWords k n gs) then v.post 1 (.vectorRemoteChecks (cid k) (xid x))
  else vectorDone ((gs.filter (!·.parked)).foldl (fun s g => performGroup s k x g) v) k x

/-- The groups are looked at again: those not held any more lose their count of refusals. -/
def regrouped (u : State) (k x n : Nat) (st : Bool) : State :=
  mapGroups u k x fun g => if g.parked || groupHeld u k x st n g then g else { g with refusals := 0 }

theorem none_away (ha : ∀ g ∈ gs, g.owner ≠ k → (wokenBy s gs).away ((wokenBy s gs).core k).launch g.owner = false) :
    (gs.any fun g => g.owner != k && (wokenBy s gs).away ((wokenBy s gs).core k).launch g.owner) = false := by
  rw [List.any_eq_false]
  intro g hg
  by_cases hk : g.owner = k
  · simp [hk]
  · simp [ha g hg hk]

section
variable (hr : (s.ctx k x).req = some (.vec st d p t gs data))
  (ha : ∀ g ∈ gs, g.owner ≠ k → (wokenBy s gs).away ((wokenBy s gs).core k).launch g.owner = false)
include hr ha

theorem vectorAt_fault {f : Cause} {ea : Word} (he : elemFault (wokenBy s gs) k x (t.width / 8) true (allElems gs) = some (f, ea)) :
    vectorAt s k x = replyTraps (withdrawParked (wokenBy s gs) k x) k x { cause := f, addr := ea } := by
  have hn := none_away ha
  rw [wokenBy] at hn he
  rw [vectorAt, hr]
  dsimp only
  rw [hn, if_neg Bool.false_ne_true, he]
  exact completeUnit_trap ..

variable (he : elemFault (wokenBy s gs) k x (t.width / 8) true (allElems gs) = none)
include he

/-- A vector access whose addresses are in order: the groups that tricks hold are parked. -/
theorem vectorAt_checked : vectorAt s k x = afterGroups
    (regrouped ((gs.filter (groupHeld (wokenBy s gs) k x st (t.width / 8))).foldl (fun s g => parkGroup s k x g) (wokenBy s gs)) k x (t.width / 8) st)
    k x (t.width / 8) st := by
  have hn := none_away ha
  rw [wokenBy] at hn he
  rw [vectorAt, hr]
  dsimp only
  rw [hn, if_neg Bool.false_ne_true, he]
  rfl

theorem vectorAt_free (hf : ∀ g ∈ gs, groupHeld (wokenBy s gs) k x st (t.width / 8) g = false ∧ g.parked = false) :
    let w := wokenBy s gs
    let gs' := gs.map fun g => { g with refusals := 0 }
    let v := w.modCtx k x fun v => { v with req := some (.vec st d p t gs' data) }
    vectorAt s k x =
      if st = true ∧ (w.core k).depositedNow w.tick (ownWords k (t.width / 8) gs) = true then v.post 1 (.vectorRemoteChecks (cid k) (xid x))
      else vectorDone (gs'.foldl (fun s g => performGroup s k x g) v) k x := by
  intro w gs' v
  have hw : (w.ctx k x).req = some (.vec st d p t gs data) := (congrArg Ctx.req (wakeAgents_ctx s k x gs)).trans hr
  have hv : (v.ctx k x).req = some (.vec st d p t gs' data) := by rw [ctx_modCtx]
  have hnone : gs.filter (groupHeld w k x st (t.width / 8)) = [] :=
    List.filter_eq_nil_iff.2 fun g hg => by rw [(hf g hg).1]; exact Bool.false_ne_true
  have hmap : (gs.map fun g => if g.parked || groupHeld w k x st (t.width / 8) g then g else { g with refusals := 0 }) = gs' :=
    List.map_congr_left fun g hg => by rw [(hf g hg).1, (hf g hg).2]; rfl
  have hg : ∀ g ∈ gs', g.refusals = 0 ∧ g.parked = false := by
    intro g hg
    obtain ⟨g, hm, rfl⟩ := List.mem_map.1 hg
    exact ⟨rfl, (hf g hm).2⟩
  have hwait : vecWaits k gs' = false := List.any_eq_false.2 fun g hm => by simp [hg g hm]
  have hall : gs'.filter (!·.parked) = gs' := List.filter_eq_self.2 fun g hm => by simp [hg g hm]
  have hown : ownWords k (t.width / 8) gs' = ownWords k (t.width / 8) gs := by
    rw [ownWords, ownWords, List.filter_map, List.flatMap_map]
    rfl
  rw [vectorAt_checked hr ha he, hnone, List.foldl_nil, regrouped, mapGroups_vec hw, hmap, afterGroups, groupsOf_vec hv]
  rw [if_neg, if_neg, if_neg (by rw [hwait]; exact Bool.false_ne_true), hall, hown]
  · rw [core_modCtx]
    exact if_congr (by rw [Bool.and_eq_true]; rfl) rfl rfl
  · rw [Bool.not_eq_true, List.any_eq_false]
    exact fun g hm => by simp [hg g hm]
  · rw [Bool.not_eq_true, List.any_eq_false]
    exact fun g hm => by simp [hg g hm]

end

theorem vectorDone_left {g : VecGroup} (hr : (s.ctx k x).req = some (.vec st d p t (g :: gs) data)) : vectorDone s k x = s := by
  rw [vectorDone, hr]

theorem parkAt_ctx (s : State) (j k x : Nat) (e : Parked) : (parkAt s j e).ctx k x = s.ctx k x := by
  have h := ctx_modCore_keeps s j k x (fun c => { c with parking := c.parking ++ [e] }) rfl
  rw [parkAt]
  split
  · exact h
  · exact h

/-! A vector access with one group, at another core, which a trick there holds. -/

section
variable (hr : (s.ctx k x).req = some (.vec st d p t [g] data)) (ha : (wokenBy s [g]).away ((wokenBy s [g]).core k).launch g.owner = false)
  (he : elemFault (wokenBy s [g]) k x (t.width / 8) true (allElems [g]) = none) (hne : g.owner ≠ k) (hp : g.parked = false)
  (hh : groupHeld (wokenBy s [g]) k x st (t.width / 8) g = true)

theorem regrouped_same {u : State} (hr : (u.ctx k x).req = some (.vec st d p t [g] data)) {n : Nat}
    (h : g.parked = true ∨ groupHeld u k x st n g = true) : regrouped u k x n st = u.modCtx k x fun v => { v with req := some (.vec st d p t [g] data) } := by
  rw [regrouped, mapGroups_vec hr, List.map_singleton, if_pos (by rcases h with h | h <;> simp [h])]

/-- A parked group of another core waits for its owner. -/
theorem afterGroups_parked {v : State} {n : Nat} (hr : (v.ctx k x).req = some (.vec st d p t [g] data)) (hne : g.owner ≠ k) (hp : g.parked = true)
    (h0 : g.refusals = 0) : afterGroups v k x n st = v := by
  have hown : ownWords k n [g] = [] := by simp [ownWords, hne]
  rw [afterGroups, groupsOf_vec hr]
  rw [hown, if_neg (by simp [h0]), if_neg (by simp [hp]), if_neg (by simp [vecWaits, hne, hp]), if_neg (by simp [Core.depositedNow])]
  rw [List.filter_cons_of_neg (by simp [hp])]
  exact vectorDone_left hr

/-- A refused one is sent again. -/
theorem afterGroups_refused {v : State} {n : Nat} (hr : (v.ctx k x).req = some (.vec st d p t [g] data)) (hp : g.parked = false)
    (h0 : 0 < g.refusals) (h1 : g.refusals < 16) : afterGroups v k x n st = v.post 32 (.parkRefusalRetry (cid k) (xid x)) := by
  rw [afterGroups, groupsOf_vec hr]
  rw [if_neg (by simp [h1]), if_pos (by simp [h0, hp])]

include hr ha he hh

theorem vectorAt_one : vectorAt s k x = afterGroups (regrouped (parkGroup (wokenBy s [g]) k x g) k x (t.width / 8) st) k x (t.width / 8) st := by
  have hf : [g].filter (groupHeld (wokenBy s [g]) k x st (t.width / 8)) = [g] := List.filter_cons_of_pos hh
  rw [vectorAt_checked hr (fun g' hg _ => by rw [List.mem_singleton.1 hg]; exact ha) he, hf]
  rfl

include hne hp

theorem vectorAt_parks (hu : (wokenBy s [g]).parkUsed g.owner < 64) : vectorAt s k x =
    (parkAt (wokenBy s [g]) g.owner { core := k, ctx := x, off := ((g.elems.head?.map (·.2)).getD 0#64).toNat % 2 ^ 18, mbox := false, held := true }).modCtx
      k x fun v => { v with req := some (.vec st d p t [{ g with refusals := 0, parked := true }] data) } := by
  have hq (e : Parked) : ((parkAt (wokenBy s [g]) g.owner e).ctx k x).req = some (.vec st d p t [g] data) := by
    rw [parkAt_ctx, wokenBy, wakeAgents_ctx, hr]
  rw [vectorAt_one hr ha he hh, parkGroup]
  dsimp only
  rw [hp, if_neg Bool.false_ne_true, if_neg (by omega), mapGroups_vec (hq _), List.map_singleton, if_pos rfl,
    regrouped_same (congrArg Ctx.req (ctx_modCtx ..)) (.inl rfl), modCtx_modCtx]
  exact afterGroups_parked (congrArg Ctx.req (ctx_modCtx ..)) hne rfl rfl

theorem vectorAt_refused (hu : 64 ≤ (wokenBy s [g]).parkUsed g.owner) (hn : g.refusals < 15) : vectorAt s k x =
    (((wokenBy s [g]).modCore g.owner fun o => { o with pkRefused := o.pkRefused + 1 }).modCtx
      k x fun v => { v with req := some (.vec st d p t [{ g with refusals := g.refusals + 1 }] data) }).post 32 (.parkRefusalRetry (cid k) (xid x)) := by
  have hq : (((wokenBy s [g]).modCore g.owner fun o => { o with pkRefused := o.pkRefused + 1 }).ctx k x).req = some (.vec st d p t [g] data) := by
    rw [ctx_modCore_keeps _ _ _ _ _ rfl, wokenBy, wakeAgents_ctx, hr]
  rw [vectorAt_one hr ha he hh, parkGroup]
  dsimp only
  rw [hp, if_neg Bool.false_ne_true, if_pos hu, mapGroups_vec hq, List.map_singleton, if_pos rfl,
    regrouped_same (congrArg Ctx.req (ctx_modCtx ..)) (.inr ?_), modCtx_modCtx]
  · exact afterGroups_refused (congrArg Ctx.req (ctx_modCtx ..)) rfl (Nat.succ_pos _) (by simp; omega)
  · rw [← hh, groupHeld, groupHeld]
    dsimp only
    rw [core_modCtx_other _ _ _ hne, core_modCore]
    rfl

end

end

/-! ### Groups that are performed -/

section
variable {s u : State} {k x : Nat} {st : Bool} {d : VReg} {p : PReg} {t : ElemType} {gs : List VecGroup} {data : Vec}

section
variable {g : VecGroup} (hr : (s.ctx k x).req = some (.vec st d p t gs data))
include hr

theorem performGroup_load (hst : st = false) : performGroup s k x g = s.modCtx k x fun v => { v with
    req := some (.vec st d p t (gs.filter (·.owner != g.owner))
      (mergeElems t data (g.elems.map fun e => (e.1, memRead (s.core g.owner).store (e.2.toNat % 2 ^ 18) (t.width / 8))))) } := by
  subst hst
  rw [performGroup, hr]
  rfl

theorem performGroup_store (hst : st = true) (hne : g.owner ≠ k) : performGroup s k x g =
    acceptStores (s.modCtx k x fun v => { v with req := some (.vec st d p t (gs.filter (·.owner != g.owner)) data) }) k x
      (g.elems.map fun e =>
        { owner := g.owner, off := e.2.toNat % 2 ^ 18, bytes := t.width / 8, value := BitVec.ofNat 64 (laneOf t (elem data t.width e.1)) }) := by
  subst hst
  rw [performGroup, hr]
  exact if_neg hne

end

theorem local_writeV {k : VReg} {x : Vec} {p : Pred} (h : VWrites k x p s u) : Local s u := by
  rw [VWrites, writeV, U_bind_ok (curCtx_apply s)] at h
  cases hm : tabFind (s.ctx s.cur.1 s.cur.2).streams k.toNat <;> rw [hm] at h
  · cases h; exact local_modCtx s _ rfl
  · obtain ⟨_, v, h1, h2⟩ := U_bind_inv h
    rw [stopIf_apply] at h1
    split at h1 <;> cases h1
    split at h2
    · cases h2; exact .refl s
    · obtain ⟨_, v, h3, h4⟩ := U_bind_inv h2
      rw [stopIf_apply] at h3
      split at h3 <;> cases h3
      split at h4
      · cases h4
      · cases h4; exact local_modCtx s _ rfl

section
variable (hr : (s.ctx k x).req = some (.vec st d p t [] data)) (hl : (s.ctx k x).life = .blocked .reply)
include hr hl

theorem vectorDone_store (hst : st = true) : vectorDone s k x = replied s k x { s with cur := (k, x) } := by
  subst hst
  rw [vectorDone, hr]
  exact completeUnit_done (by rw [hl]; nofun)

theorem vectorDone_load (hst : st = false) (hw : VWrites d data (predOf (s.core k) (s.ctx k x) p) { s with cur := (k, x) } u) :
    vectorDone s k x = replied s k x u := by
  subst hst
  have hloc := local_writeV hw
  have hlife : (u.ctx k x).life = .blocked .reply := by
    have hm : u.me.life = (s.ctx k x).life := by rw [hloc.me]; rfl
    rwa [State.me, hloc.cur, hl] at hm
  rw [vectorDone, hr]
  refine completeUnit_next ?_ (by rw [hlife]; nofun)
  exact (U_bind_ok (readP_apply p { s with cur := (k, x) })).trans (U_bind_ok hw)

end

end

section
variable {s : State} {c : CoreId} {x : CtxId} {st : Bool} {d : VReg} {p : PReg} {t : ElemType} {gs : List VecGroup} {data : Vec}

theorem exec_vectorRemoteChecks (hl : (s.ctx c.toNat x.toNat).life = .blocked .reply) (hr : (s.ctx c.toNat x.toNat).req = some (.vec st d p t gs data))
    (hd : s.lowerDue c.toNat x.toNat bankRequest = false) : exec (.vectorRemoteChecks c x) s = .next (vectorAt s c.toNat x.toNat) := by
  have h : exec (.vectorRemoteChecks c x) s = execVectorRemoteChecks c x s := rfl
  rw [h, execVectorRemoteChecks, hl, hr]
  exact if_neg (ne_true_of_eq_false hd)

end

/-! ### Parked requests -/

section
variable {s : State} {c : CoreId} {e : Parked}

/-- A parked request that cannot be served stays in its table, and is looked at again in the next tick (R199). -/
theorem exec_parkedServe (hp : (s.core c.toNat).parking = [e]) :
    let alone := fun (u : State) => { u with agenda := u.agenda.filter fun a => a.2 != .parkedRequestServe c }
    (∀ u, serveOne s c.toNat e [] = .inl u → (u.core c.toNat).parking = [] → exec (.parkedRequestServe c) s = .next (alone u)) ∧
    ∀ f, serveOne s c.toNat e [] = .inr f → exec (.parkedRequestServe c) s =
      .next ((alone (s.modCore c.toNat fun z => { z with parking := [{ e with free := f }] })).postPoll 1 (.parkedRequestServe c)) := by
  intro alone
  have h : exec (.parkedRequestServe c) s = execParkedRequestServe c s := rfl
  rw [h, execParkedRequestServe]
  dsimp only
  rw [hp, if_neg (by simp)]
  refine ⟨fun u hu hn => ?_, fun f hf => ?_⟩
  · have hs : serveAll c.toNat [e] [] s = u := by simp only [serveAll, hu]
    rw [hs]
    exact if_pos (by rw [State.core] at hn ⊢; rw [hn]; rfl)
  · have hm : (s.modCore c.toNat fun z => { z with parking := z.parking.map fun g => if g = e then { g with free := f } else g }) =
        s.modCore c.toNat fun z => { z with parking := [{ e with free := f }] } := by
      simp only [State.modCore, hp, List.map_singleton, if_true]
    have hs : serveAll c.toNat [e] [] s = s.modCore c.toNat fun z => { z with parking := [{ e with free := f }] } := by
      simp only [serveAll, hf, hm]
    rw [hs]
    have hk : ((s.modCore c.toNat fun z => { z with parking := [{ e with free := f }] }).core c.toNat).parking = [{ e with free := f }] := by
      rw [core_modCore]
    exact if_neg (by rw [State.core] at hk ⊢; rw [hk]; exact Bool.false_ne_true)

variable {op : RemoteOp} {owner off n : Nat} {mbox : Bool} {d : GReg}

/-- One that waits for the full/empty bit is performed once the bit allows it and no write of this tick is in its way (R199, R201). -/
theorem serveOne_queued {k : Nat} (hp : (s.core k).parking = [e]) (hh : e.held = false) (hr : (s.ctx e.core e.ctx).req = some (.remote op owner off mbox d n))
    (hb : parkedBeyond s k e = false) (ht : opTouches (s.core k) (if k = e.core then e.ctx else 16) op off mbox = false) :
    serveOne s k e [] =
      if opAllowed (s.core k) op off mbox = false then .inr none
      else if mbox = false ∧
        (if k = e.core then (s.core k).depositedNow s.tick [off / 8] = true
         else op.deposits = true ∧ (s.core k).wroteNow s.tick [off / 8] = true) then .inr none
      else .inl (completeUnit (s.modCore k fun z => { z with parking := [] }) e.core e.ctx (performOp op k off mbox d)) := by
  have hm : (s.modCore k fun z => { z with parking := z.parking.erase e }) = s.modCore k fun z => { z with parking := [] } := by
    simp only [State.modCore, hp, List.erase_cons_head]
  rw [serveOne, hb, if_neg Bool.false_ne_true, hr]
  dsimp only
  rw [ht, hh, if_neg Bool.false_ne_true, if_neg Bool.false_ne_true, hm]
  refine if_congr (by simp) rfl (if_congr ?_ rfl rfl)
  rw [Bool.and_eq_true]
  split <;> simp

end

/-- Settles O31: a request by what it meets at its owner; accepted stores; a vector access by its checks and its groups; the parking table; what is
sent again. -/
theorem requestsAtOwners : Obligations.RequestsAtOwners := by
  unfold Obligations.RequestsAtOwners
  refine ⟨fun s c x op owner off mbox d n => ?_, fun s c x => ⟨?_, ?_, ?_, ?_, ?_⟩⟩
  · intro k y w o hl hr hne
    have he := exec_remoteAccessPerform hl hr
    have hlife : (s.ctx k y).life ≠ .parked := by rw [hl]; nofun
    refine ⟨fun hd => by rw [he, if_pos hd], fun hd ha => ?_, fun hd ha => ?_⟩ <;> rw [he, if_neg (ne_true_of_eq_false hd)]
    · rw [requestAt_away hr hne ha, cid_toNat, xid_toNat]
    refine ⟨fun f hf => by rw [requestAt_fault hr ha hf], fun hf => ?_⟩
    intro held waits
    refine ⟨fun hh hu => ?_, fun hh hu => ?_, fun hh hw => ⟨fun b a ho => ?_, fun ho => ⟨fun h1 h2 h3 => ?_, fun hn => ?_⟩⟩⟩
    · rw [requestAt_held hr ha hne hf hh, if_neg (Nat.not_le.2 hu)]
    · intro r
      refine ⟨fun hn => ?_, fun hn => ?_⟩
      · rw [requestAt_held hr ha hne hf hh, if_pos hu, if_neg (by omega), cid_toNat, xid_toNat]
      · rw [requestAt_held hr ha hne hf hh, if_pos hu, if_pos hn]
    · rw [requestAt_store hr ha hne hf hh hw hlife ho]
    · rw [requestAt_waits hr ha hne hf hh hw ho h1 h2 h3, cid_toNat, xid_toNat]
    · intro p u hu
      rw [requestAt_performed hr ha hne hf hh hw ho hlife hn hu]
  · intro a rest ha z o
    have he := exec_remoteStorePerform ha
    refine ⟨fun hd => by rw [he, if_pos hd], fun hd haway => ?_⟩
    intro words keep
    rw [he, if_neg (ne_true_of_eq_false hd), if_neg (ne_true_of_eq_false haway)]
    refine ⟨fun ht => by rw [if_pos ht], fun ht hh hf => ?_, fun ht hh => ?_⟩ <;> rw [if_neg (ne_true_of_eq_false ht)]
    · rw [if_pos ⟨hh, hf⟩]
    · rw [if_neg fun ⟨h1, h2⟩ => hh.elim (fun h => Bool.false_ne_true (h.symm.trans h1)) fun h => h h2]
      exact ⟨fun hw => by rw [if_pos hw], fun hw => by rw [if_neg (ne_true_of_eq_false hw)]⟩
  · intro st d p t gs data hl hr hd w ha n
    rw [exec_vectorRemoteChecks hl hr hd]
    refine ⟨fun f ea he => congrArg _ (vectorAt_fault hr ha he), fun he => ⟨fun hf => ?_, ?_⟩⟩
    · intro gs' v mine
      rw [vectorAt_free hr ha he hf, cid_toNat, xid_toNat]
      rfl
    · rintro g rfl hne hp hh
      have ha' := ha g (.head _) hne
      refine ⟨fun hu => congrArg _ (vectorAt_parks hr ha' he hne hp hh hu), fun hu hn => ?_⟩
      rw [vectorAt_refused hr ha' he hne hp hh hu hn, cid_toNat, xid_toNat]
      rfl
  · intro st d p t gs data g hr n left
    refine ⟨performGroup_load hr, performGroup_store hr, fun hg => ?_, ?_, ?_⟩
    · obtain ⟨g', gs', rfl⟩ := List.exists_cons_of_ne_nil hg
      exact vectorDone_left hr
    · rintro rfl hst hl
      exact vectorDone_store hr hl hst
    · rintro rfl hst hl u hw
      exact vectorDone_load hr hl hst hw
  · intro e hp alone
    obtain ⟨h1, h2⟩ := exec_parkedServe hp
    exact ⟨h1, h2, fun op owner off mbox d n hh hr hb ht => serveOne_queued hp hh hr hb ht⟩
  · exact fun op owner off mbox d n hl hr hh => exec_resend hl hr hh

end Sys2Proof.Proofs
end

