-- ==== Sys2Proof/Proofs/Traps.lean ====
section
/-! PROOF. Taking a trap, its record, its save area, and resuming (R226, R428 to R432, R435, R437). -/

namespace Sys2Proof.Proofs
open Sys2Proof Sys2Proof.Machine Sys2Proof.Laws

/-! ### Words written one behind the other -/

/-- Words written one behind the other from an address on. -/
def putWords (m : List Host.Cell) : Nat → List Word → List Host.Cell
  | _, [] => m
  | a, w :: ws => putWords (memWrite m a 8 w.toNat) (a + 8) ws

theorem memGet_putWords_outside {m : List Host.Cell} {a c : Nat} (ws : List Word) (h : memWf m = true)
    (hc : c < a ∨ a + 8 * ws.length ≤ c) : memGet (putWords m a ws) c = memGet m c := by
  induction ws generalizing m a with
  | nil => rfl
  | cons w ws ih =>
    rw [List.length_cons] at hc
    rw [putWords, ih (memWf_memWrite a 8 _ h) (by omega), memGet_memWrite_outside h (by omega)]

theorem memWord_congr {m n : List Host.Cell} {a : Nat} (h : ∀ c, a ≤ c → c < a + 8 → memGet m c = memGet n c) : memWord m a = memWord n a := by
  rw [memWord, memWord, memRead, memRead, memBytes_congr h]

theorem memWord_putWords {m : List Host.Cell} {a i : Nat} (ws : List Word) (h : memWf m = true) (hi : i < ws.length) :
    memWord (putWords m a ws) (a + 8 * i) = ws[i] := by
  induction ws generalizing m a i with
  | nil => simp at hi
  | cons w ws ih =>
    have hw := memWf_memWrite a 8 w.toNat h
    cases i with
    | zero =>
      rw [putWords, memWord_congr fun c _ _ => memGet_putWords_outside ws hw (by omega), Nat.mul_zero, Nat.add_zero, memWord_memWrite_same a w h]
      rfl
    | succ i =>
      rw [putWords, show a + 8 * (i + 1) = a + 8 + 8 * i by omega, ih hw (Nat.lt_of_succ_lt_succ hi)]
      rfl

/-! ### The save area -/

theorem memWord_savedWords {m : List Host.Cell} (w : Nat) (h : memWf m = true) (a b c d e f : Word) : let n := putWords m (w + 1280) [a, b, c, d, e, f]
    memWord n (w + 1280) = a ∧ memWord n (w + 1288) = b ∧ memWord n (w + 1296) = c ∧ memWord n (w + 1304) = d ∧ memWord n (w + 1312) = e ∧
      memWord n (w + 1320) = f := by
  have hw : ∀ i (hi : i < 6), memWord (putWords m (w + 1280) [a, b, c, d, e, f]) (w + 1280 + 8 * i) = [a, b, c, d, e, f][i] := fun i hi =>
    memWord_putWords _ h hi
  exact ⟨hw 0 (by decide), hw 1 (by decide), hw 2 (by decide), hw 3 (by decide), hw 4 (by decide), hw 5 (by decide)⟩

/-- The save area is six words (R429). -/
theorem saveArea_eq (m : List Host.Cell) (v : Ctx) (pc : Word) :
    saveArea m v pc = putWords m (v.wsp + 1280) [pc, v.cmode, v.cflags, v.retire, (repWord v.rep).1, (repWord v.rep).2] := rfl

/-- What the REP words of a save area stand for (R429, R437). -/
def savedRep (reps repa : Word) : Option RepState :=
  if reps.getLsbD 61 then
    some { word := reps.extractLsb' 0 32, addr := repa, index := (reps.extractLsb' 57 4).toNat,
           pass := (reps.extractLsb' 32 12).toNat, remaining := (reps.extractLsb' 44 13).toNat }
  else none

/-- A bit of a word is a field of one bit. -/
theorem getLsbD_field {n : Nat} (x : BitVec n) (i : Nat) : x.getLsbD i = (x.extractLsb' i 1 == 1#1) := by
  rw [Bool.eq_iff_iff, beq_iff_eq]
  constructor
  · intro h
    exact BitVec.eq_of_getLsbD_eq fun j hj => by simp [show j = 0 by omega, h]
  · intro h
    simpa using congrArg (·.getLsbD 0) h

/-- The fields of the word REPS (R429). -/
theorem repWord_fields (p : RepState) : let w := (repWord (some p)).1
    w.getLsbD 61 = true ∧ w.extractLsb' 0 32 = p.word ∧ w.extractLsb' 57 4 = BitVec.ofNat 4 p.index ∧
      w.extractLsb' 32 12 = BitVec.ofNat 12 p.pass ∧ w.extractLsb' 44 13 = BitVec.ofNat 13 p.remaining := by
  simp only [repWord, getLsbD_field, HAppend.hAppend, bits_low, bits_high, bits_all, Nat.reduceAdd, Nat.reduceSub, Nat.reduceLeDiff, and_self, beq_self_eq_true]

theorem savedRep_repWord (r : Option RepState) (h : ∀ p, r = some p → p.index < 16 ∧ p.remaining < 2 ^ 13 ∧ p.pass < 2 ^ 12) :
    savedRep (repWord r).1 (repWord r).2 = r := by
  cases r with
  | none => rfl
  | some p =>
    obtain ⟨hi, hr, hp⟩ := h p rfl
    obtain ⟨f61, f0, f57, f32, f44⟩ := repWord_fields p
    rw [savedRep, f61, f0, f57, f32, f44, BitVec.toNat_ofNat, BitVec.toNat_ofNat, BitVec.toNat_ofNat, Nat.mod_eq_of_lt hi, Nat.mod_eq_of_lt hp,
      Nat.mod_eq_of_lt hr]
    rfl

/-! ### The record -/

/-- A word of a list of words laid out as bytes. -/
theorem word_of_words {ws : List Word} {i : Nat} (hi : i < ws.length) :
    BitVec.ofNat 64 (ofBytes ((((ws.map fun w => toBytes 8 w.toNat).flatten).drop (8 * i)).take 8)) = ws[i] := by
  induction ws generalizing i with
  | nil => simp at hi
  | cons w ws ih =>
    have hl := toBytes_length 8 w.toNat
    rw [List.map_cons, List.flatten_cons]
    cases i with
    | zero =>
      rw [Nat.mul_zero, List.drop_zero, List.take_append_of_le_length (by omega), List.take_of_length_le (by omega), ofBytes_toBytes,
        show 256 ^ 8 = 2 ^ 64 from rfl, Nat.mod_eq_of_lt w.isLt, BitVec.ofNat_toNat, BitVec.setWidth_eq]
      rfl
    | succ i =>
      rw [show 8 * (i + 1) = (toBytes 8 w.toNat).length + 8 * i by omega, List.drop_length_add_append, ih (Nat.lt_of_succ_lt_succ hi)]
      rfl

/-- The first word of a record that parks its context (R431). -/
def recordHead (v : Ctx) (x : Nat) (u : UnitInfo) (t : TrapInfo) : Word :=
  0#33 ++ v.wspBlk ++ 0#1 ++ BitVec.ofBool (match v.rep with | some r => u.addr != r.addr | none => false) ++ BitVec.ofBool u.pre.isSome ++
    BitVec.ofBool true ++ BitVec.ofNat 4 x ++ t.detail ++ BitVec.ofNat 8 t.cause.code

theorem recordHead_fields (v : Ctx) (x : Nat) (u : UnitInfo) (t : TrapInfo) : let w := recordHead v x u t
    w.extractLsb' 0 8 = BitVec.ofNat 8 t.cause.code ∧ w.extractLsb' 8 8 = t.detail ∧ w.extractLsb' 16 4 = BitVec.ofNat 4 x ∧
      w.getLsbD 20 = true ∧ w.getLsbD 21 = u.pre.isSome ∧ w.extractLsb' 24 7 = v.wspBlk := by
  simp only [recordHead, getLsbD_field, HAppend.hAppend, bits_low, bits_high, bits_all, Nat.reduceAdd, Nat.reduceSub, Nat.reduceLeDiff, ofBool_beq,
    true_and]

/-- The pass of a captured unit stands in AUX (R431). -/
def recordAux (v : Ctx) (u : UnitInfo) (t : TrapInfo) : Word := match v.rep with
  | some r => if u.addr != r.addr then BitVec.ofNat 64 (r.pass % 4096 + r.remaining % 8192 * 4096) else t.aux
  | none => t.aux

theorem trapRecord_words (c : Core) (v : Ctx) (x : Nat) (u : UnitInfo) (ret : Word) (t : TrapInfo) : trapRecord c v x u ret t true =
    ([recordHead v x u t, u.addr, u.pre.getD 0#32 ++ u.word, t.addr, recordAux v u t, ret, BitVec.ofNat 64 (c.lane * 65536 + c.launch.getD 0),
      BitVec.ofNat 64 (c.trapSeq + 1)].map fun w => toBytes 8 w.toNat).flatten := by
  rw [trapRecord, recordHead, recordAux]
  cases v.rep <;> rfl

/-! ### The records of one tick -/

/-- A list in ascending order of a key, with one element put behind those whose key is not greater. -/
theorem pairwise_insert {α : Type} (key : α → Nat) (r : α) {l : List α} (h : l.Pairwise fun a b => key a ≤ key b) :
    (l.takeWhile (fun e => decide (key e ≤ key r)) ++ r :: l.dropWhile fun e => decide (key e ≤ key r)).Pairwise fun a b => key a ≤ key b := by
  induction l with
  | nil => exact List.pairwise_singleton _ r
  | cons e l ih =>
    obtain ⟨he, hl⟩ := List.pairwise_cons.1 h
    rcases Nat.lt_or_ge (key r) (key e) with hr | hr
    · rw [List.takeWhile_cons_of_neg (by simpa using hr), List.dropWhile_cons_of_neg (by simpa using hr), List.nil_append]
      refine List.pairwise_cons.2 ⟨fun b hb => ?_, h⟩
      rcases List.mem_cons.1 hb with rfl | hb
      · exact hr.le
      · exact hr.le.trans (he b hb)
    · rw [List.takeWhile_cons_of_pos (by simpa using hr), List.dropWhile_cons_of_pos (by simpa using hr), List.cons_append]
      refine List.pairwise_cons.2 ⟨fun b hb => ?_, ih hl⟩
      rcases List.mem_append.1 hb with hb | hb
      · exact he b ((List.takeWhile_prefix _).subset hb)
      · rcases List.mem_cons.1 hb with rfl | hb
        · exact hr
        · exact he b ((List.dropWhile_suffix _).subset hb)

/-- The records of a tick with one more, in their order, before the sequence numbers are dealt out anew. -/
def withRecord (r : TrapRecord) (l : List TrapRecord) : List TrapRecord :=
  l.takeWhile (fun e => decide (e.ctx ≤ r.ctx)) ++ r :: l.dropWhile fun e => decide (e.ctx ≤ r.ctx)

theorem withRecord_length (r : TrapRecord) (l : List TrapRecord) : (withRecord r l).length = l.length + 1 := by
  have h := congrArg List.length (List.takeWhile_append_dropWhile (p := fun e : TrapRecord => decide (e.ctx ≤ r.ctx)) (l := l))
  rw [List.length_append] at h
  rw [withRecord, List.length_append, List.length_cons]
  omega

theorem mem_withRecord {r e : TrapRecord} {l : List TrapRecord} (h : e ∈ withRecord r l) : e = r ∨ e ∈ l := by
  rcases List.mem_append.1 h with h | h
  · exact .inr ((List.takeWhile_prefix _).subset h)
  · exact (List.mem_cons.1 h).imp id fun h => (List.dropWhile_suffix _).subset h

/-- A record with another sequence number. -/
def renumbered (e : TrapRecord × Nat) : TrapRecord := e.1.take 56 ++ toBytes 8 e.2

theorem insertRecord_eq (r : TrapRecord) (l : List TrapRecord) :
    insertRecord r l = ((withRecord r l).zip ((l ++ [r]).map TrapRecord.seq)).map renumbered := rfl

theorem insertRecord_length (r : TrapRecord) (l : List TrapRecord) : (insertRecord r l).length = l.length + 1 := by
  simp [insertRecord_eq, withRecord_length]

theorem ofBytes_lt (l : List Byte) : ofBytes l < 256 ^ l.length := by
  induction l with
  | nil => simp [ofBytes]
  | cons b l ih =>
    rw [ofBytes, List.length_cons, Nat.pow_succ]
    have := b.isLt
    omega

theorem seq_lt {r : TrapRecord} (h : r.length = 64) : r.seq < 256 ^ 8 := by
  have := ofBytes_lt (r.drop 56)
  rwa [List.length_drop, h] at this

theorem renumbered_ctx {r : TrapRecord} {n : Nat} (h : r.length = 64) : TrapRecord.ctx (renumbered (r, n)) = r.ctx := by
  simp [TrapRecord.ctx, renumbered, h]

theorem renumbered_seq {r : TrapRecord} {n : Nat} (h : r.length = 64) (hn : n < 256 ^ 8) : TrapRecord.seq (renumbered (r, n)) = n := by
  rw [TrapRecord.seq, renumbered, List.drop_left' (by simp [h]), ofBytes_toBytes, Nat.mod_eq_of_lt hn]

/-- The records of a tick stay in ascending context number, with ascending sequence numbers (R430, R448). -/
theorem insertRecord_ordered {r : TrapRecord} {l : List TrapRecord} (hr : r.length = 64) (hl : ∀ e ∈ l, e.length = 64)
    (hc : l.Pairwise fun a b => a.ctx ≤ b.ctx) (hs : (l ++ [r]).Pairwise fun a b => a.seq < b.seq) :
    (insertRecord r l).Pairwise fun a b => a.ctx ≤ b.ctx ∧ a.seq < b.seq := by
  have hw : ∀ e ∈ withRecord r l, e.length = 64 := fun e he => (mem_withRecord he).elim (· ▸ hr) (hl e)
  have hn : ∀ n ∈ (l ++ [r]).map TrapRecord.seq, n < 256 ^ 8 := by
    intro n h
    obtain ⟨e, he, rfl⟩ := List.mem_map.1 h
    exact seq_lt ((List.mem_append.1 he).elim (hl e) fun h => List.mem_singleton.1 h ▸ hr)
  have hz := List.pairwise_iff_getElem.1 (pairwise_insert TrapRecord.ctx r hc)
  have hq := List.pairwise_iff_getElem.1 hs
  rw [insertRecord_eq, List.pairwise_map, List.pairwise_iff_getElem]
  intro i j hi hj hij
  rw [List.length_zip, lt_min_iff] at hi hj
  rw [List.getElem_zip, List.getElem_zip, renumbered_ctx (hw _ (List.getElem_mem _)), renumbered_ctx (hw _ (List.getElem_mem _)),
    renumbered_seq (hw _ (List.getElem_mem _)) (hn _ (List.getElem_mem _)), renumbered_seq (hw _ (List.getElem_mem _)) (hn _ (List.getElem_mem _)),
    List.getElem_map, List.getElem_map]
  exact ⟨hz i j hi.1 hj.1 hij, hq i j _ _ hij⟩

/-- A record of a tick that has none yet stands at the end of the queue, and is the first of its tick (R430). -/
theorem addRecord_first {c : Core} {now : Nat} (r : TrapRecord) (h : c.trapNew.1 ≠ now) :
    c.addRecord now r = { c with trapq := c.trapq ++ [r], trapNew := (now, 1) } := by
  simp only [Core.addRecord, if_neg h, if_true]

theorem addRecord_later {c : Core} {now : Nat} (r : TrapRecord) (h : c.trapNew.1 = now) (hn : 0 < c.trapNew.2) :
    (c.addRecord now r).trapq = c.trapq.take (c.trapq.length - c.trapNew.2) ++ insertRecord r (c.trapq.drop (c.trapq.length - c.trapNew.2)) := by
  simp only [Core.addRecord, if_pos h, if_neg (Nat.pos_iff_ne_zero.1 hn)]

/-! ### Taking the trap -/

section
variable (s : State) (k x : Nat) (u : UnitInfo) (ret : Word) (t : TrapInfo)

/-- A context that a trap parks (R428). -/
def parkedBy (v : Ctx) : Ctx :=
  { v with life := .parked, req := none, tileFree := false, unit := u, rep := if t.cause = .illegal ∧ t.detail = 2#8 then none else v.rep }

/-- A core one of whose contexts has parked and left its save area (R428, R429). -/
def parkedCore (c : Core) : Core :=
  { c.setCtx x (parkedBy u t (c.ctx x)) with store := saveArea c.store { c.ctx x with rep := (parkedBy u t (c.ctx x)).rep } (c.ctx x).pc }

/-- A trap, but for the grants whose refusal has been reported, is its parked core and its record (R428, R471). -/
theorem takeTrap_eq : ∃ h, s.takeTrap k x u ret t =
    (({ s with hub := h } : State).setCore k (parkedCore x u t (s.core k))).enqueueRecord k (x == 15) (trapRecord (s.core k) (s.ctx k x) x u ret t true) := by
  unfold State.takeTrap parkedCore parkedBy
  by_cases hc : t.cause = .illegal ∧ t.detail = 2#8
  all_goals
    by_cases hr : t.cause = .translation ∧ t.detail.toNat % 16 = 5
    · exact ⟨_, by simp only [hc, hr]; rfl⟩
    · exact ⟨s.hub, by simp only [hc, hr]; rfl⟩

end

theorem setCore_setCore (s : State) (k : Nat) (c d : Core) : (s.setCore k c).setCore k d = s.setCore k d := by
  simp only [State.setCore, tabSet_tabSet]

/-- A record that the supervisor can take stands in the queue, and wakes it (R101, R430). -/
theorem enqueueRecord_queued {s : State} {k : Nat} (r : TrapRecord) (h : (s.core k).svent.extractLsb' 1 55 ≠ 0#55) :
    s.enqueueRecord k false r =
      (s.setCore k ({ s.core k with trapSeq := (s.core k).trapSeq + 1 }.addRecord s.tick r)).post 0 (.supervisorWake (cid k)) := by
  rw [State.enqueueRecord]
  simp only [core_modCore, Bool.false_eq_true, false_or, if_neg h]
  rw [State.modCore, setCore_setCore]
  rfl

/-- One that no supervisor can take escalates (R435). -/
theorem enqueueRecord_escalates {s : State} {k : Nat} {b : Bool} (r : TrapRecord) (h : b = true ∨ (s.core k).svent.extractLsb' 1 55 = 0#55) :
    s.enqueueRecord k b r = (s.modCore k fun c => { c with trapSeq := c.trapSeq + 1 }).escalate k r := by
  rw [State.enqueueRecord]
  simp only [core_modCore, if_pos h]

theorem parkedCore_keeps (x : Nat) (u : UnitInfo) (t : TrapInfo) (c : Core) : parkedCore x u t c = { c with
    ctxs := (parkedCore x u t c).ctxs, store := (parkedCore x u t c).store } := rfl

theorem addRecord_keeps (c : Core) (now : Nat) (r : TrapRecord) :
    c.addRecord now r = { c with trapq := (c.addRecord now r).trapq, trapNew := (c.addRecord now r).trapNew } := rfl

/-- The core of a context that trapped, where the supervisor takes the record (R428 to R430). -/
def trappedCore (c : Core) (now x : Nat) (u : UnitInfo) (ret : Word) (t : TrapInfo) : Core :=
  let d := c.addRecord now (trapRecord c (c.ctx x) x u ret t true)
  { parkedCore x u t c with trapSeq := c.trapSeq + 1, trapq := d.trapq, trapNew := d.trapNew }

/-- A trap that the supervisor takes changes the core, the agenda and the note of refused grants, and nothing else (R428 to R430, R471). -/
theorem takeTrap_queued {s : State} {k x : Nat} (u : UnitInfo) (ret : Word) (t : TrapInfo) (hx : x ≠ 15) (hs : (s.core k).svent.extractLsb' 1 55 ≠ 0#55) :
    ∃ h, s.takeTrap k x u ret t =
      (({ s with hub := h } : State).setCore k (trappedCore (s.core k) s.tick x u ret t)).post 0 (.supervisorWake (cid k)) := by
  obtain ⟨h, he⟩ := takeTrap_eq s k x u ret t
  refine ⟨h, ?_⟩
  rw [he, beq_false_of_ne hx, enqueueRecord_queued _ (by rw [core_setCore]; exact hs), setCore_setCore, core_setCore]
  rfl

/-- A trap that no supervisor can take ends the launch with status 3 (R435). -/
theorem takeTrap_escalates {s : State} {k x : Nat} (u : UnitInfo) (ret : Word) (t : TrapInfo) (h : x = 15 ∨ (s.core k).svent.extractLsb' 1 55 = 0#55)
    {tag : Nat} (hc : (s.core k).launch = some tag) :
    ∃ r : State, r.tick = s.tick ∧ r.launches = s.launches ∧ r.mem = s.mem ∧ s.takeTrap k x u ret t = r.endLaunch tag 3 := by
  obtain ⟨b, he⟩ := takeTrap_eq s k x u ret t
  rw [he, enqueueRecord_escalates _ (by rw [core_setCore]; exact h.imp (beq_iff_eq.2) id), State.escalate]
  have hl : (((({ s with hub := b } : State).setCore k (parkedCore x u t (s.core k))).modCore k fun c => { c with trapSeq := c.trapSeq + 1 }).core k).launch =
      some tag := by
    rw [core_modCore, core_setCore]
    exact hc
  rw [hl]
  exact ⟨_, by simp, by simp, by simp, rfl⟩

/-! ### The context after the trap -/

section
variable {c : Core} (now x : Nat) (u : UnitInfo) (ret : Word) (t : TrapInfo)

theorem trappedCore_ctx : (trappedCore c now x u ret t).ctx x = parkedBy u t (c.ctx x) := core_ctx_setCtx c x _

theorem trappedCore_ctx_other {y : Nat} (h : y ≠ x) : (trappedCore c now x u ret t).ctx y = c.ctx y := core_ctx_setCtx_other c _ h

theorem trappedCore_store : (trappedCore c now x u ret t).store = putWords c.store ((c.ctx x).wsp + 1280) [(c.ctx x).pc, (c.ctx x).cmode, (c.ctx x).cflags,
    (c.ctx x).retire, (repWord (parkedBy u t (c.ctx x)).rep).1, (repWord (parkedBy u t (c.ctx x)).rep).2] := rfl

/-- The save area of a context that trapped (R429). -/
theorem trappedCore_saved (h : Memory.wf c.store = true) : let m := (trappedCore c now x u ret t).store; let v := c.ctx x
    memWord m (v.wsp + 1280) = v.pc ∧ memWord m (v.wsp + 1288) = v.cmode ∧ memWord m (v.wsp + 1296) = v.cflags ∧ memWord m (v.wsp + 1304) = v.retire ∧
      memWord m (v.wsp + 1312) = (repWord (parkedBy u t v).rep).1 ∧ memWord m (v.wsp + 1320) = (repWord (parkedBy u t v).rep).2 := by
  simp only [trappedCore_store]
  exact memWord_savedWords _ h _ _ _ _ _ _

theorem trappedCore_store_outside {a : Nat} (h : Memory.wf c.store = true) (ha : a < (c.ctx x).wsp + 1280 ∨ (c.ctx x).wsp + 1328 ≤ a) :
    memGet (trappedCore c now x u ret t).store a = memGet c.store a := by
  rw [trappedCore_store]
  exact memGet_putWords_outside _ h (by simpa only [List.length_cons, List.length_nil, Nat.add_assoc] using ha)

end

theorem resume_eq (s : State) (k x : Nat) : let v := s.ctx k x; let rd := fun (o : Nat) => memWord (s.core k).store (v.wsp + o)
    (s.resume k x true).ctx k x = { v with
      life := if v.awaitsTrump then .blocked .trump else .ready, readyAt := s.tick + 1, pc := rd 1280, cmode := rd 1288, cflags := rd 1296,
      retire := rd 1304, rep := savedRep (rd 1312) (rd 1320), farq := v.farq.map fun e => { e with fault := none, refused := none, due := none } } := by
  intro v rd
  rw [State.resume]
  rw [State.ctx, trumpGone_core]
  simp only [core_setCtx, core_ctx_setCtx, Bool.and_true]
  rfl

/-- Resuming gives a context back the state that it trapped with (R437). -/
theorem resume_takeTrap {s : State} {k x : Nat} (u : UnitInfo) (ret : Word) (t : TrapInfo) (h : Memory.wf (s.core k).store = true) (hx : x ≠ 15)
    (hs : (s.core k).svent.extractLsb' 1 55 ≠ 0#55) (hc : ¬ (t.cause = .illegal ∧ t.detail = 2#8))
    (hr : ∀ p, (s.ctx k x).rep = some p → p.index < 16 ∧ p.remaining < 2 ^ 13 ∧ p.pass < 2 ^ 12) : let v := s.ctx k x
    ((s.takeTrap k x u ret t).resume k x true).ctx k x = { v with
      life := if v.awaitsTrump then .blocked .trump else .ready, readyAt := s.tick + 1, req := none, tileFree := false, unit := u
      farq := v.farq.map fun e => { e with fault := none, refused := none, due := none } } := by
  intro v
  obtain ⟨b, he⟩ := takeTrap_queued u ret t hx hs
  obtain ⟨h0, h1, h2, h3, h4, h5⟩ := trappedCore_saved (c := s.core k) s.tick x u ret t h
  have hrep : (parkedBy u t ((s.core k).ctx x)).rep = v.rep := if_neg hc
  have hv : (s.takeTrap k x u ret t).ctx k x = parkedBy u t v := by rw [he, State.ctx, post_core, core_setCore, trappedCore_ctx]; rfl
  have hm : ((s.takeTrap k x u ret t).core k).store = (trappedCore (s.core k) s.tick x u ret t).store := by rw [he, post_core, core_setCore]
  have ht : (s.takeTrap k x u ret t).tick = s.tick := by rw [he]; rfl
  have hw : (parkedBy u t v).wsp = ((s.core k).ctx x).wsp := rfl
  rw [resume_eq, hv, hm, ht]
  beta_reduce
  rw [hw, h0, h1, h2, h3, h4, h5, hrep, savedRep_repWord _ hr]
  rfl

theorem exec_trapEntry {s : State} {c : CoreId} {x : CtxId} {t : TrapInfo} (h : (s.ctx c.toNat x.toNat).life = .blocked (.trapEntry t)) :
    let k := c.toNat; let y := x.toNat; let v := s.ctx k y
    exec (.trapEntry c x) s = .next (if v.settled then
      s.takeTrap k y v.unit (if t.cause = .breakpoint ∨ t.cause = .trap then v.retire - 1#64 else v.retire) t
      else (s.endTrick k y).postPoll 1 (.trapEntry c x)) := by
  show execTrapEntry c x s = _
  rw [execTrapEntry]
  simp only [h]
  split <;> rfl

/-- The unit that traps in lock step waits for the comparison of its tick (R441, R448). -/
theorem block_trapEntry (s : State) (k x : Nat) (t : TrapInfo) : let r := s.block k x (.trapEntry t)
    (r.ctx k x).life = .blocked (.trapEntry t) ∧ (2 * s.tick + 1, .trapEntry (cid k) (xid x)) ∈ r.agenda := by
  refine ⟨?_, ?_⟩
  · show ((s.modCtx k x fun v => { v with life := .blocked (.trapEntry t) }).ctx k x).life = _
    rw [ctx_modCtx]
  · exact (mem_agendaAdd ..).2 (.inl rfl)

/-- Settles O48: the parked core of a trap, its escalation, the order of the records of a tick, the words of a record, and when a trap is taken. -/
theorem trapsTaken : Obligations.TrapsTaken := by
  unfold Obligations.TrapsTaken
  refine ⟨?_, ?_, ?_, ?_, ?_⟩
  · intro s k x u ret t v r hw
    refine ⟨fun hx hs => ?_, fun hx tag l hc hl he => ?_⟩
    · obtain ⟨b, hr⟩ := takeTrap_queued u ret t hx hs
      have hk : r.core k = trappedCore (s.core k) s.tick x u ret t := by rw [show r = _ from hr, post_core, core_setCore]
      obtain ⟨h0, h1, h2, h3, -, -⟩ := trappedCore_saved (c := s.core k) s.tick x u ret t hw
      rw [← hk] at h0 h1 h2 h3
      refine ⟨?_, ?_, ?_, h0, h1, h2, h3, fun a ha => ?_, fun y hy => ?_, fun j hj => ?_, ?_, ?_, ?_, fun hp hn => resume_takeTrap u ret t hw hx hs hn hp⟩
      · rw [State.ctx, hk, trappedCore_ctx]; rfl
      · rw [hk]; rfl
      · rw [hk]; rfl
      · rw [hk]; exact trappedCore_store_outside _ _ _ _ _ hw ha
      · rw [State.ctx, hk, trappedCore_ctx_other _ _ _ _ _ hy]; rfl
      · rw [show r = _ from hr, post_core, core_setCore_other _ _ hj]; rfl
      · rw [show r = _ from hr]; rfl
      · rw [show r = _ from hr]; rfl
      · rw [show r = _ from hr]; exact (mem_agendaAdd ..).2 (.inl rfl)
    · obtain ⟨q, ht, hls, hm, hr⟩ := takeTrap_escalates u ret t hx hc
      have hl' : q.launch tag = some l := by rw [State.launch, hls]; exact hl
      refine ⟨endedWith 3 l, ?_, rfl, ?_, ?_⟩ <;> rw [show r = _ from hr]
      · exact endLaunch_launch 3 hl' he
      · rw [← ht]; exact endLaunch_completion 3 hl' he
      · rw [endLaunch_mem, hm]
  · intro c now r n
    refine ⟨fun h => by rw [addRecord_first r h]; exact ⟨rfl, rfl⟩, fun h hn hle => ?_⟩
    intro l q
    have hq : q = _ := addRecord_later r h hn
    have ht : (c.trapq.take (c.trapq.length - n)).length = c.trapq.length - n := by rw [List.length_take]; omega
    refine ⟨?_, ?_, fun hr hl hc hs => ?_⟩ <;> rw [hq]
    · rw [List.length_append, insertRecord_length, ht, List.length_drop]; omega
    · exact List.take_left' ht
    · rw [List.drop_left' ht]
      exact insertRecord_ordered hr hl hc hs
  · intro c v x u ret t _ r w
    have hr : r = _ := trapRecord_words c v x u ret t
    have hw : ∀ i (hi : i < 8), w i = _ := fun i hi => (congrArg (fun r : TrapRecord => BitVec.ofNat 64 (ofBytes ((r.drop (8 * i)).take 8))) hr).trans
      (word_of_words hi)
    obtain ⟨f0, f8, f16, f20, f21, f24⟩ := recordHead_fields v x u t
    have h0 : w 0 = recordHead v x u t := hw 0 (by decide)
    rw [h0]
    refine ⟨by rw [hr]; rfl, f0, f8, f16, f20, f21, f24, hw 1 (by decide), hw 2 (by decide), hw 3 (by decide), fun hn => ?_, hw 5 (by decide)⟩
    rw [hw 4 (by decide)]
    show recordAux v u t = _
    rw [recordAux, hn]
  · intro s c x t k y v hl
    rw [exec_trapEntry hl]
    exact ⟨fun h => congrArg _ (if_pos h), fun h => congrArg _ (if_neg (ne_true_of_eq_false h))⟩
  · intro s u ret t lock
    have he : s.me.settled = true → s.endTrick s.cur.1 s.cur.2 = s := endTrick_settled
    refine ⟨fun h hl => ?_, fun h hl => ?_⟩
    · rw [State.trapUnit, he h]
      exact if_pos (by rw [Bool.and_eq_true]; exact ⟨h, congrArg (!·) hl⟩)
    · rw [State.trapUnit, he h, if_neg (by simp [show (s.launchOf s.cur.1).any (·.lock) = true from hl])]
      exact block_trapEntry _ _ _ _

end Sys2Proof.Proofs
end

