-- ==== Sys2Proof/Proofs/CopyJobs.lean ====
section
/-! PROOF. Copy jobs: the elements that an event reads, the granules that are written, rows, and how a job ends (R233, R234, R353, R372, R376 to R378,
R381 to R386, R391, R430). -/

namespace Sys2Proof.Proofs
open Sys2Proof Sys2Proof.Machine Sys2Proof.Laws

/-! ### Elements and the granules that they fall in -/

theorem elemAt_rank_one {c : Card} {d : Dim} (p : Nat) (h : c.dims = [d]) : c.elemAt p =
    (decide (d.lo ≤ p % d.b ∧ p % d.b ≤ d.him), c.src + BitVec.ofInt 64 ((p % d.b : Nat) * d.ss), c.dst + BitVec.ofInt 64 ((p % d.b : Nat) * d.ds)) := by
  simp only [Card.elemAt, h, coords, List.zip_cons_cons, List.zip_nil_right, List.all_cons, List.all_nil, Bool.and_true, List.foldl_cons, List.foldl_nil,
    Int.zero_add]

/-- No element from a place on that is read falls into a granule that none of them is written into. -/
theorem writesFrom_false {c : Card} {g n p q : Nat} (h : c.writesFrom g n q = false) (h1 : q ≤ p) (h2 : p < q + n)
    (he : (c.elemAt p).1 = true ∨ c.fill = false) : (c.elemAt p).2.2.toNat / 64 ≠ g := by
  induction n generalizing q with
  | zero => omega
  | succ n ih =>
    rw [Card.writesFrom, Bool.or_eq_false_iff] at h
    obtain ⟨h0, hn⟩ := h
    rcases Nat.eq_or_lt_of_le h1 with rfl | h1
    · rintro rfl
      rcases he with he | he <;> simp [he] at h0
    · exact ih hn h1 (by omega)

theorem readyGranule_written {c : Card} {j : Job} {g p : Nat} (h : c.readyGranule j = some g) (h1 : j.pos ≤ p) (h2 : p < boxSize c.dims)
    (he : (c.elemAt p).1 = true ∨ c.fill = false) : (c.elemAt p).2.2.toNat / 64 ≠ g := by
  have hg := List.find?_some h
  exact writesFrom_false (by simpa using hg) h1 (by omega) he

/-! ### The bytes of a chunk -/

/-- The bytes that the elements of a chunk read from `low` on, each at its destination. -/
def chunkPlaced (c : Card) (es : List (Nat × Bool)) (low : Word) (bs : List Byte) : List (Word × List Byte) :=
  es.map fun e => ((c.elemAt e.1).2.2, if e.2 then (bs.drop ((c.elemAt e.1).2.1.toNat - low.toNat)).take c.elem else List.replicate c.elem 0#8)

/-- The places in a scratchpad that the elements of a chunk are read from. -/
def readRanges (c : Card) (es : List (Nat × Bool)) (off : Nat) (low : Word) : List (Nat × Nat) :=
  (es.filter (·.2)).map fun e => (off + ((c.elemAt e.1).2.1.toNat - low.toNat), c.elem)

section
variable {s : State} {i : Instr} {j : Job} {c : Card} {es : List (Nat × Bool)}

theorem chunkSpan_none (h : es.any (·.2) = false) : chunkSpan c es = none := by
  have : es.filter (·.2) = [] := List.filter_eq_nil_iff.2 fun e he => by simpa using List.any_eq_false.1 h e he
  rw [chunkSpan, this]
  rfl

theorem chunkBytes_zeros (h : es.any (·.2) = false) : chunkBytes s i j c es = (.ok (chunkPlaced c es 0#64 []), s) := by
  simp only [chunkBytes, chunkSpan_none h]
  rfl

/-- The least of a list by its number. -/
theorem foldl_least (l : List Word) (a : Word) : let m := l.foldl (fun m x => if x.toNat < m.toNat then x else m) a
    m.toNat ≤ a.toNat ∧ ∀ x ∈ l, m.toNat ≤ x.toNat := by
  induction l generalizing a with
  | nil => exact ⟨Nat.le_refl _, by simp⟩
  | cons x l ih =>
    obtain ⟨h1, h2⟩ := ih (if x.toNat < a.toNat then x else a)
    have ha : (if x.toNat < a.toNat then x else a).toNat ≤ a.toNat ∧ (if x.toNat < a.toNat then x else a).toNat ≤ x.toNat := by
      split <;> omega
    exact ⟨h1.trans ha.1, List.forall_mem_cons.2 ⟨h1.trans ha.2, h2⟩⟩

theorem foldl_most {α : Type} (f : α → Nat) (l : List α) (n : Nat) : let m := l.foldl (fun m x => max m (f x)) n
    n ≤ m ∧ ∀ x ∈ l, f x ≤ m := by
  induction l generalizing n with
  | nil => exact ⟨Nat.le_refl _, by simp⟩
  | cons x l ih =>
    obtain ⟨h1, h2⟩ := ih (max n (f x))
    exact ⟨(Nat.le_max_left ..).trans h1, List.forall_mem_cons.2 ⟨(Nat.le_max_right ..).trans h1, h2⟩⟩

variable {low : Word} {n : Nat} (h : chunkSpan c es = some (low, n))
include h

/-- The span of a chunk holds each element that is read. -/
theorem chunkSpan_holds {e : Nat × Bool} (he : e ∈ es) (hr : e.2 = true) :
    low.toNat ≤ (c.elemAt e.1).2.1.toNat ∧ (c.elemAt e.1).2.1.toNat + c.elem ≤ low.toNat + n := by
  rw [chunkSpan, Option.map_eq_some_iff] at h
  obtain ⟨a, -, h⟩ := h
  obtain ⟨rfl, rfl⟩ := Prod.mk.inj h
  have hm : (c.elemAt e.1).2.1 ∈ (es.filter (·.2)).map fun e => (c.elemAt e.1).2.1 := List.mem_map.2 ⟨e, List.mem_filter.2 ⟨he, hr⟩, rfl⟩
  have h1 := (foldl_least _ a).2 _ hm
  have h2 := (foldl_most (fun x : Word => x.toNat + c.elem -
    (((es.filter (·.2)).map fun e => (c.elemAt e.1).2.1).foldl (fun m x => if x.toNat < m.toNat then x else m) a).toNat) _ 0).2 _ hm
  exact ⟨h1, by omega⟩

theorem chunkBytes_local {k off : Nat} {z : Nat × Nat} (hl : c.sls = true) (h1 : engineLocal s j.core j.launch low 1 = .ok (k, off))
    (h2 : engineLocal s j.core j.launch (low + BitVec.ofNat 64 (n - c.elem)) c.elem = .ok z) :
    chunkBytes s i j c es = if engineHeld s k (readRanges c es off low) [] then (.later, s) else (.ok (chunkPlaced c es low (memBytes (s.core k).store off n)), s) := by
  rw [chunkBytes, h]
  simp only [Option.map_some, Option.getD_some, hl, if_true, h1, h2]
  rfl

theorem chunkBytes_global {b : List Byte} {t : State} (hl : c.sls = false) (hr : engineRead s i j.core j.cls j.launch j.root j.hostData low n = (.ok b, t)) :
    chunkBytes s i j c es = (.ok (chunkPlaced c es low b), t) := by
  rw [chunkBytes, h]
  simp only [Option.map_some, Option.getD_some, hl, Bool.false_eq_true, if_false, hr]
  rfl

end

/-! ### GRANULE_READ -/

/-- What a job has read once an event has read a chunk, and the event is looked at again. -/
def chunkAnswered (ch : ChanId) (id : BitVec 48) (j : Job) (c : Card) (n pos : Nat) : Reach (List (Word × List Byte)) × State → Out
  | (.ok l, t) => .next ((t.setJob ch.toNat { j with
      pos := pos, buf := j.buf ++ l, seg := if boxSize c.dims ≤ pos then 0 else (j.seg + n * c.elem) % 4096, hostWait := none, hostData := [] }).post 1
        (.granuleRead ch id))
  | (.later, t) => .next (t.post 1 (.granuleRead ch id))
  | (.line l n, t) => .next (t.hold (.granuleRead ch id) [lineKey l] n)
  | (.fail e, t) => .next (failJob (t.unhold (.granuleRead ch id)) ch.toNat j e)
  | (.host p, t) => .next ((jobHost t ch.toNat j p).post 1 (.granuleRead ch id))

section
variable {s : State} {ch : ChanId} {id : BitVec 48} {j : Job} {c : Card} (hj : s.job ch.toNat id = some j) (hk : j.kind = .cpy c)
include hj hk

section
variable (hc : j.code = 0)
include hc

/-- What stands in a copy job's way, in the order in which it is looked at. -/
theorem exec_granuleRead : exec (.granuleRead ch id) s =
    if jobWaits s j = true then .next ((payBarrier s ch.toNat j).post 1 (.granuleRead ch id))
    else if (c.readyGranule j).isSome = true then .next (s.post 0 (.granuleWrite ch id))
    else if boxSize c.dims ≤ j.pos then .next (s.post 1 (.jobEnd ch (.own id)))
    else if j.seg = 0 ∧ j.cancelled = true then .next (failJob (s.unhold (.granuleRead ch id)) ch.toNat j 6)
    else if j.seg = 0 ∧ jobPauses s j = true then .next (s.post 1 (.granuleRead ch id))
    else let r := chunkOf c (boxSize c.dims) 4096 ((4096 - j.seg) / c.elem) none j.pos
      chunkAnswered ch id j c r.1.length r.2 (chunkBytes s (.granuleRead ch id) j c r.1) := by
  show execGranuleRead ch id s = _
  rw [execGranuleRead]
  dsimp only
  rw [hj]
  dsimp only
  nth_rewrite 1 [hk]
  dsimp only
  rw [if_neg (not_not.2 hc)]
  rfl

end

/-! ### GRANULE_WRITE -/

/-- What a job makes of the answer for a granule: it is written, and its bytes leave the buffer and are owed to a barrier, or it waits, or the job
fails (R344, R377, R384). -/
def granuleAnswered (ch : ChanId) (id : BitVec 48) (j : Job) (mine : Word × List Byte → Bool) : Reach Unit × State → Out
  | (.ok (), t) => .next ((payBarrier (t.charge j.cls 2 1) ch.toNat
      { j with buf := j.buf.filter (fun b => !mine b), owed := (granuleBytes (j.buf.filter mine)).length }).post 1 (.granuleRead ch id))
  | (.line l n, t) => .next (t.hold (.granuleWrite ch id) [lineKey l] n)
  | (.fail e, t) => .next (failJob (t.unhold (.granuleWrite ch id)) ch.toNat j e)
  | (_, t) => .next (t.post 1 (.granuleWrite ch id))

theorem exec_granuleWrite {g : Nat} (hg : c.readyGranule j = some g) : let mine := fun (b : Word × List Byte) => b.1.toNat / 64 == g
    exec (.granuleWrite ch id) s = granuleAnswered ch id j mine
      (if c.dls then engineDeposit s j (j.buf.filter mine)
       else engineWrite s (.granuleWrite ch id) j.core j.cls j.launch j.root (j.launch.getD 0, j.lane, j.det) (j.buf.filter mine)) := by
  intro mine
  show execGranuleWrite ch id s = _
  rw [execGranuleWrite]
  dsimp only
  rw [hj]
  dsimp only
  nth_rewrite 1 [hk]
  dsimp only
  rw [hg]
  rfl

end

/-! ### A granule in memory -/

theorem tabFind_of_mem {α : Type} {t : Tab α} {lo : Option Nat} {k : Nat} {v : α} (h : keysFrom lo t = true) (hm : (k, v) ∈ t) : tabFind t k = some v := by
  induction t generalizing lo with
  | nil => cases hm
  | cons e t ih =>
    obtain ⟨i, b⟩ := e
    simp only [keysFrom, Bool.and_eq_true] at h
    rcases List.mem_cons.1 hm with he | hm
    · obtain ⟨rfl, rfl⟩ := Prod.mk.inj he
      exact if_pos rfl
    · have hf := ih h.2 hm
      have hik : i < k := by
        by_contra hn
        rw [tabFind_below h.2 (Nat.le_of_not_lt hn)] at hf
        cases hf
      rw [tabFind, if_neg (by omega), if_neg (by omega), hf]

theorem tabWf_granuleBytes (bs : List (Word × List Byte)) : tabWf (granuleBytes bs) = true := by
  have hb : ∀ (l : List Nat) (f : Nat → Nat) (g : Nat → Byte) (t : Tab Byte), tabWf t = true → tabWf (l.foldl (fun t i => tabSet t (f i) (g i)) t) = true := by
    intro l f g
    induction l with
    | nil => exact fun t h => h
    | cons i l ih => exact fun t h => ih _ (tabWf_tabSet _ _ h)
  have ho : ∀ (l : List (Word × List Byte)) (t : Tab Byte), tabWf t = true →
      tabWf (l.foldl (fun t b => (List.range b.2.length).foldl (fun t i => tabSet t (b.1.toNat % 64 + i) (b.2.getD i 0#8)) t) t) = true := by
    intro l
    induction l with
    | nil => exact fun t h => h
    | cons b l ih => exact fun t h => ih _ (hb _ _ _ _ h)
  exact ho bs [] rfl

/-- A table with its keys counted from a base on. -/
def basedAt (base : Nat) (w : Tab Byte) : Tab Byte := w.map fun e => (base + e.1, e.2)

theorem tabWf_basedAt {w : Tab Byte} (base : Nat) (h : tabWf w = true) : tabWf (basedAt base w) = true := by
  rw [tabWf_iff] at h ⊢
  exact List.pairwise_map.2 (h.imp fun h => Nat.add_lt_add_left h base)

theorem foldl_basedAt (base : Nat) (w : Tab Byte) (m : List Host.Cell) :
    w.foldl (fun m (b : Nat × Byte) => memSet m (base + b.1) b.2) m = (basedAt base w).foldl (fun m (e : Nat × Byte) => memSet m e.1 e.2) m := by
  rw [basedAt, List.foldl_map]

/-- Memory after the bytes of a granule have been written: those, and no other (R377). -/
theorem memGet_granule {w : Tab Byte} {m : List Host.Cell} (base : Nat) (hw : tabWf w = true) (hm : memWf m = true) :
    let n := w.foldl (fun m (b : Nat × Byte) => memSet m (base + b.1) b.2) m
    memWf n = true ∧ (∀ a, (∀ x ∈ w, a ≠ base + x.1) → memGet n a = memGet m a) ∧ ∀ x ∈ w, memGet n (base + x.1) = x.2 := by
  have hb := tabWf_basedAt base hw
  refine ⟨memWf_foldSet w (fun b : Nat × Byte => (base + b.1, b.2)) hm, fun a ha => ?_, fun x hx => ?_⟩ <;> rw [foldl_basedAt, memGet_foldl_memSet _ hb hm]
  · cases hf : tabFind (basedAt base w) a with
    | none => rfl
    | some b =>
      obtain ⟨x, hx, he⟩ := List.mem_map.1 (mem_of_tabFind hf)
      exact absurd (Prod.mk.inj he).1.symm (ha x hx)
  · rw [tabFind_of_mem hb (List.mem_map.2 ⟨x, hx, rfl⟩)]
    rfl

theorem engineLine_waits {s t : State} {i : Instr} {k cls pa : Nat} {launch : Option Nat} {write : Bool} {r : Reach Unit}
    (h : engineLine s i k cls launch pa write = some (r, t)) : r ≠ .ok () := by
  rintro rfl
  unfold engineLine at h
  dsimp only at h
  repeat' split at h
  all_goals cases h

/-- A granule that an engine has written to memory is there whole (R233, R377). -/
theorem engineWrite_writes {s t u : State} {i : Instr} {k cls pa : Nat} {launch : Option Nat} {root : Word} {h : Nat × Nat × Bool} {bs : List (Word × List Byte)}
    (ha : engineAddress s k cls launch root ((bs.head?.map (·.1)).getD 0#64) 1 = (.ok pa, u)) (hh : hostResident pa = false)
    (hr : engineWrite s i k cls launch root h bs = (.ok (), t)) :
    t.mem = (granuleBytes bs).foldl (fun m (b : Nat × Byte) => memSet m (pa / 64 * 64 + b.1) b.2) s.mem := by
  have hm : u.mem = s.mem := snd_mem (engineAddress_mem ..) ha
  rw [engineWrite, ha] at hr
  dsimp only at hr
  rw [if_neg (by simp [hh])] at hr
  split at hr
  · next r hl =>
    obtain ⟨r, v⟩ := r
    exact absurd (Prod.mk.inj hr).1 (engineLine_waits hl)
  · split at hr
    · cases hr
    · split at hr
      · cases hr
      · next v hv =>
        rw [← (Prod.mk.inj hr).2, ← hm, ← writeEvent_mem hv]
        split <;> simp

/-! ### Rows -/

section
variable {s : State} {ch : ChanId} {id : BitVec 48} {j : Job} {sc : Bool} {ws : List Word} {idx : List Nat}

theorem field_low (w : Word) (k : Nat) : field w 0 k = w.toNat % 2 ^ k := by rw [field, Nat.pow_zero, Nat.div_one]

theorem field_upper (w : Word) : field w 32 32 = w.toNat / 2 ^ 32 := Nat.mod_eq_of_lt (by have := w.isLt; omega)

/-- The bytes of a row (R391). -/
def rowBytes (ws : List Word) : Nat := 8 * (field (ws.getD 2 0#64) 18 9 + 1)

/-- The place of a job's next row in the scratchpad of its core. -/
def rowHere (ws : List Word) (j : Job) : Nat := field (ws.getD 1 0#64) 0 18 + j.pos * rowBytes ws

/-- The place of a row in the scratchpad of the core that holds it, and the lane of that core. -/
def rowThere (ws : List Word) (i : Nat) : Nat := field (ws.getD 2 0#64) 0 18 + i / (field (ws.getD 3 0#64) 16 12 + 1) * rowBytes ws
def rowLane (ws : List Word) (i : Nat) : Nat := field (ws.getD 3 0#64) 0 12 + i % (field (ws.getD 3 0#64) 16 12 + 1)

/-- A row is deposited, charged, and owed to a barrier; the next one follows (R201, R344, R391). -/
def rowPut (ch : ChanId) (id : BitVec 48) (row : Nat) (t : State) (j : Job) (k a : Nat) (bs : List Byte) : Out :=
  .next ((payBarrier ((depositRuns t k [(a, bs)]).charge j.cls 2 (granuleCount a row)) ch.toNat { j with pos := j.pos + 1, owed := row }).post 1
    (.gathScatRow ch id))

/-- A row between the scratchpads of two cores waits for what holds either place (R201, R378). -/
def rowMoved (s : State) (ch : ChanId) (id : BitVec 48) (j : Job) (row from_ fo to_ ta : Nat) : Out :=
  if engineHeld s from_ [(fo, row)] [] || engineHeld s to_ [] [(ta, row)] then .next (s.post 1 (.gathScatRow ch id))
  else rowPut ch id row s j to_ ta (memBytes (s.core from_).store fo row)

theorem rowMoved_free {row from_ fo to_ ta : Nat} (h1 : engineHeld s from_ [(fo, row)] [] = false) (h2 : engineHeld s to_ [] [(ta, row)] = false) :
    rowMoved s ch id j row from_ fo to_ ta = rowPut ch id row s j to_ ta (memBytes (s.core from_).store fo row) := by
  rw [rowMoved, h1, h2]
  rfl

/-- The next row, whose index is in range, at the core that holds it (R378, R384, R391). -/
def rowAt (s : State) (ch : ChanId) (id : BitVec 48) (j : Job) (sc : Bool) (ws : List Word) (i owner : Nat) : Out :=
  if s.away j.launch owner then .next (s.post 1 (.gathScatRow ch id))
  else if s.savedAt j.launch owner then .next (failJob s ch.toNat j 6)
  else if rowThere ws i + rowBytes ws > (s.core owner).S then .next (failJob s ch.toNat j 3)
  else if sc then rowMoved s ch id j (rowBytes ws) j.core (rowHere ws j) owner (rowThere ws i)
  else rowMoved s ch id j (rowBytes ws) owner (rowThere ws i) j.core (rowHere ws j)

/-- A row whose index is out of range is passed over by a scatter, and is zeros to a gather (R384, R391). -/
def rowOutside (s : State) (ch : ChanId) (id : BitVec 48) (j : Job) (sc : Bool) (ws : List Word) : Out :=
  let t := captureError s ch.toNat j.id 4
  if sc then .next ((t.setJob ch.toNat { j with code := 4, pos := j.pos + 1 }).post 1 (.gathScatRow ch id))
  else if engineHeld t j.core [] [(rowHere ws j, rowBytes ws)] then .next (t.post 1 (.gathScatRow ch id))
  else rowPut ch id (rowBytes ws) t { j with code := 4 } j.core (rowHere ws j) (List.replicate (rowBytes ws) 0#8)

/-- The next row of a gather or scatter, if there is one. -/
def rowNext (s : State) (ch : ChanId) (id : BitVec 48) (j : Job) (sc : Bool) (ws : List Word) : Option Nat → Out
  | none => .next (s.post 1 (.jobEnd ch (.own id)))
  | some i =>
    if i ≥ field (ws.getD 2 0#64) 32 32 then rowOutside s ch id j sc ws
    else match (j.launch.bind s.launch).bind fun l => l.cores[rowLane ws i]? with
      | none => .next (failJob s ch.toNat j 3)
      | some owner => rowAt s ch id j sc ws i owner

section
variable {i owner t : Nat} {l : Launch}

theorem rowAt_away (ha : s.away j.launch owner = true) : rowAt s ch id j sc ws i owner = .next (s.post 1 (.gathScatRow ch id)) := if_pos ha

theorem rowNext_beyond (hi : field (ws.getD 2 0#64) 32 32 ≤ i) : rowNext s ch id j sc ws (some i) = rowOutside s ch id j sc ws := if_pos hi

theorem rowNext_lane (hi : i < field (ws.getD 2 0#64) 32 32) (ht : j.launch = some t) (hl : s.launch t = some l) : rowNext s ch id j sc ws (some i) =
    match l.cores[rowLane ws i]? with
    | none => .next (failJob s ch.toNat j 3)
    | some owner => rowAt s ch id j sc ws i owner := by
  rw [rowNext, if_neg (Nat.not_le.2 hi), ht, Option.bind_some, hl]
  rfl

variable (ha : s.away j.launch owner = false)
include ha

theorem rowAt_saved (hs : s.savedAt j.launch owner = true) : rowAt s ch id j sc ws i owner = .next (failJob s ch.toNat j 6) := by
  rw [rowAt, if_neg (ne_true_of_eq_false ha), if_pos hs]

variable (hs : s.savedAt j.launch owner = false)
include hs

theorem rowAt_outside (hb : (s.core owner).S < rowThere ws i + rowBytes ws) : rowAt s ch id j sc ws i owner = .next (failJob s ch.toNat j 3) := by
  rw [rowAt, if_neg (ne_true_of_eq_false ha), if_neg (ne_true_of_eq_false hs), if_pos hb]

variable (hb : rowThere ws i + rowBytes ws ≤ (s.core owner).S)
include hb

theorem rowAt_gather (h1 : engineHeld s owner [(rowThere ws i, rowBytes ws)] [] = false) (h2 : engineHeld s j.core [] [(rowHere ws j, rowBytes ws)] = false) :
    rowAt s ch id j false ws i owner = rowPut ch id (rowBytes ws) s j j.core (rowHere ws j) (memBytes (s.core owner).store (rowThere ws i) (rowBytes ws)) := by
  rw [rowAt, if_neg (ne_true_of_eq_false ha), if_neg (ne_true_of_eq_false hs), if_neg (Nat.not_lt.2 hb), if_neg Bool.false_ne_true, rowMoved_free h1 h2]

theorem rowAt_scatter (h1 : engineHeld s j.core [(rowHere ws j, rowBytes ws)] [] = false) (h2 : engineHeld s owner [] [(rowThere ws i, rowBytes ws)] = false) :
    rowAt s ch id j true ws i owner = rowPut ch id (rowBytes ws) s j owner (rowThere ws i) (memBytes (s.core j.core).store (rowHere ws j) (rowBytes ws)) := by
  rw [rowAt, if_neg (ne_true_of_eq_false ha), if_neg (ne_true_of_eq_false hs), if_neg (Nat.not_lt.2 hb), if_pos rfl, rowMoved_free h1 h2]

end

/-- What stands in the way of a gather or scatter, in the order in which it is looked at. -/
theorem exec_gathScatRow (hj : s.job ch.toNat id = some j) (hk : j.kind = .rows sc ws idx) : exec (.gathScatRow ch id) s =
    if j.code ≠ 0 ∧ j.code ≠ 4 then .next s
    else if jobWaits s j = true then .next ((payBarrier s ch.toNat j).post 1 (.gathScatRow ch id))
    else if j.cancelled = true then .next (failJob s ch.toNat j 6)
    else if jobPauses s j = true then .next (s.post 1 (.gathScatRow ch id))
    else rowNext s ch id j sc ws idx[j.pos]? := by
  show execGathScatRow ch id s = _
  rw [execGathScatRow]
  dsimp only
  rw [hj]
  dsimp only
  nth_rewrite 1 [hk]
  dsimp only
  cases idx[j.pos]? with
  | none => rfl
  | some i =>
    unfold rowNext rowAt rowOutside
    cases sc <;> rfl

end

/-! ### What leaves the package changes only the agenda, the hub, the meters, and what has left -/

/-- A state that differs in the agenda, the hub, the budgets and what has left the package. -/
def SendsOnly (s t : State) : Prop := ∃ a o h b, t = { s with agenda := a, out := o, hub := h, budgets := b }

section
variable {s t u : State}

theorem SendsOnly.refl (s : State) : SendsOnly s s := ⟨_, _, _, _, rfl⟩

theorem SendsOnly.trans (h : SendsOnly s t) (g : SendsOnly t u) : SendsOnly s u := by
  obtain ⟨_, _, _, _, rfl⟩ := h
  obtain ⟨_, _, _, _, rfl⟩ := g
  exact ⟨_, _, _, _, rfl⟩

theorem SendsOnly.keeps {α : Type} (h : SendsOnly s t) (g : State → α) (hg : ∀ a o h b, g { s with agenda := a, out := o, hub := h, budgets := b } = g s) :
    g t = g s := by
  obtain ⟨_, _, _, _, rfl⟩ := h
  exact hg _ _ _ _

theorem sendsOnly_emit (s : State) (o : Outgoing) : SendsOnly s (s.emit o) := by
  unfold State.emit
  split <;> exact ⟨_, _, _, _, rfl⟩

theorem sendsOnly_charge (s : State) (c m n : Nat) : SendsOnly s (s.charge c m n) := ⟨_, _, _, _, rfl⟩

theorem sendsOnly_sendPort (s : State) (c : Nat) (o : Outgoing) : SendsOnly s (s.sendPort c o) := by
  unfold State.sendPort
  split
  · exact ⟨_, _, _, _, rfl⟩
  · exact (sendsOnly_charge ..).trans (sendsOnly_emit ..)

theorem sendsOnly_emitPeer (s : State) (o : Outstanding) : SendsOnly s (s.emitPeer o) := by
  unfold State.emitPeer
  dsimp only
  split
  · split
    · exact (sendsOnly_charge ..).trans (sendsOnly_emit ..)
    · exact sendsOnly_sendPort ..
  · exact sendsOnly_emit ..

theorem sendsOnly_endPeer (s : State) (o : Outstanding) : SendsOnly s (s.endPeer o) := by
  have hm : SendsOnly s (s.modHub fun h => { h with outstanding := h.outstanding.erase o }) := ⟨_, _, _, _, rfl⟩
  have he : ∀ (f : Bool) (m : Outgoing), SendsOnly s (if f = true then (s.modHub fun h => { h with outstanding := h.outstanding.erase o }).emit m else
      s.modHub fun h => { h with outstanding := h.outstanding.erase o }) := by
    intro f m
    cases f
    · exact hm
    · exact hm.trans (sendsOnly_emit ..)
  unfold State.endPeer
  dsimp only
  split
  · exact (he _ _).trans (sendsOnly_emitPeer ..)
  · exact he _ _

theorem sendsOnly_gotPeer (s : State) (p : Outstanding → Bool) (r : PeerReply) : SendsOnly s (s.gotPeer p r) := by
  unfold State.gotPeer
  split
  · exact .refl s
  · split
    · exact (sendsOnly_charge ..).trans (sendsOnly_endPeer ..)
    · exact sendsOnly_endPeer ..

end

/-! ### JOB_END -/

section
variable {s : State} {ch : ChanId} {id : BitVec 48} {j : Job} (hj : s.job ch.toNat id = some j)
include hj

section
variable (ho : j.owed = 0)
include ho

/-- A job without error signals, unless it is on its way, and ends (R353, R383). -/
theorem exec_jobEnd_done (hc : j.code = 0) : let home := (j.signal.2.2.extractLsb' 6 12).toNat; let i := (j.signal.2.2.extractLsb' 0 6).toNat
    let ev := Instr.jobEnd ch (.own id)
    exec ev s =
      if j.signal.1 ≠ 1 then .next (removeJob s ch.toNat j)
      else if (j.signal.2.2.extractLsb' 18 7).toNat ≠ s.pkg then .next ((signalPeer s ch.toNat j (.semi false (BitVec.ofNat 32 j.signal.2.1))).post 1 ev)
      else if s.savedAt j.launch home && s.dying j.launch then .next (removeJob s ch.toNat j)
      else if jobAway s j home then .next (s.post 1 ev)
      else .next (removeJob (s.setSem home i ((s.core home).sem i + BitVec.ofNat 32 j.signal.2.1)) ch.toNat j) := by
  intro home i ev
  show execJobEnd ch (.own id) s = _
  rw [execJobEnd]
  dsimp only
  rw [hj]
  dsimp only
  rw [if_neg (by omega), if_pos hc]

/-- A job with an error ends once its record is enqueued (R384, R430). -/
theorem exec_jobEnd_failed (hc : j.code ≠ 0) : let ev := Instr.jobEnd ch (.own id)
    exec ev s =
      if j.code = 6 ∨ j.reported = true then .next (removeJob s ch.toNat j)
      else if s.away j.launch j.core then .next (s.post 1 ev)
      else if (s.core j.core).launch ≠ j.launch then .next (removeJob s ch.toNat j)
      else .next (leaveRecord (s.setJob ch.toNat { j with reported := true }) j.core j.ctx (copyRecord j.code ch.toNat j.id) (some (ch.toNat, j.id))) := by
  intro ev
  show execJobEnd ch (.own id) s = _
  rw [execJobEnd]
  dsimp only
  rw [hj]
  dsimp only
  rw [if_neg (by omega), if_neg hc]

end

/-- The reply of another package to a job's signal (R344, R353, R383). -/
theorem exec_jobEnd_answered (a : PeerAnswer) : let mine := fun (o : Outstanding) => o.ctx == jobKey ch.toNat id && o.answeredBy a
    exec (.jobEnd ch (.answered id a)) s = .next (if s.hub.outstanding.any mine = false then s else jobAnswer (s.gotPeer mine a.reply) ch.toNat j a.reply) := by
  intro mine
  have hg : (s.gotPeer mine a.reply).job ch.toNat id = some j := by
    rw [(sendsOnly_gotPeer s mine a.reply).keeps (State.job · ch.toNat id) fun _ _ _ _ => rfl, hj]
  show execJobEnd ch (.answered id a) s = _
  rw [execJobEnd]
  dsimp only
  rw [hg]
  cases s.hub.outstanding.any mine <;> rfl

end

/-! ### What a channel holds when a job has left it -/

theorem chan_removeJob (s : State) (ch : Nat) (j : Job) : (removeJob s ch j).chan ch =
    advance ((s.chan ch).endedAhead ++ [j.id]).length
      { s.chan ch with jobs := (s.chan ch).jobs.filter (·.id != j.id), endedAhead := (s.chan ch).endedAhead ++ [j.id] } := by
  rw [removeJob, chan_modChan]
  rfl

theorem advance_keeps (n : Nat) (q : Channel) : advance n q = { q with done := (advance n q).done, endedAhead := (advance n q).endedAhead } := by
  induction n generalizing q with
  | zero => rfl
  | succ n ih =>
    rw [advance]
    split
    · rw [ih]
    · rfl

theorem removeJob_chan (s : State) (ch : Nat) (j : Job) : let q := (removeJob s ch j).chan ch; let o := s.chan ch
    q.next = o.next ∧ (∀ i ∈ q.jobs, i.id ≠ j.id) ∧ (o.done + 1 = j.id → o.endedAhead = [] → q.done = j.id) ∧ q.code = o.code ∧ q.codeId = o.codeId := by
  intro q o
  have hq : q = _ := chan_removeJob s ch j
  rw [hq]
  refine ⟨?_, ?_, fun hd he => ?_, ?_, ?_⟩
  · rw [advance_keeps]
  · rw [advance_keeps]
    exact fun i hi => by simpa using (List.mem_filter.1 hi).2
  · have hd : (s.chan ch).done + 1 = j.id := hd
    rw [show (s.chan ch).endedAhead = [] from he, List.nil_append, List.length_singleton, advance, if_pos (List.contains_iff_mem.2 (List.mem_singleton.2 hd))]
    exact hd
  · rw [advance_keeps]
  · rw [advance_keeps]

theorem captureError_chan (s : State) (ch n : Nat) (id : BitVec 48) : let q := (captureError s ch id n).chan ch; let o := s.chan ch
    (o.code ≠ 0#3 → q = o) ∧ (o.code = 0#3 → q = { o with code := BitVec.ofNat 3 n, codeId := id }) := by
  intro q o
  have hq : q = _ := chan_modChan s ch _
  exact ⟨fun h => hq.trans (if_neg h), fun h => hq.trans (if_pos h)⟩

theorem exec_copySoftError {s : State} {ch : ChanId} {id : BitVec 48} {j : Job} (k : BitVec 3) (hj : s.job ch.toNat id = some j) (hc : j.code = 0 ∨ j.code = 4) :
    exec (.uncorrectableSoftError (.copy ch) id k) s = .next (failJob s ch.toNat j 5) := by
  show execUncorrectableSoftError (.copy ch) id k s = _
  rw [execUncorrectableSoftError]
  rw [hj]
  dsimp only
  rw [if_pos hc]

/-! ### Records that wait -/

/-- A record that parks nothing is dropped with its launch, waits for an entry, or is enqueued (R430). -/
theorem exec_trapRecordEnqueue {s : State} {c : CoreId} {w : WaitingRecord} (hw : (s.core c.toNat).trapWait = [w]) (hj : w.job = none) :
    let k := c.toNat; let o := s.core k
    exec (.trapRecordEnqueue c) s = if s.ended k then .next (s.setCore k { o with trapWait := [] })
      else if 17 ≤ freeRecords o.trapq then .next (s.post 1 (.trapRecordEnqueue c))
      else .next ((s.setCore k { o with trapWait := [] }).enqueueRecord k false
        (trapRecord o (o.ctx w.ctx) w.ctx ⟨0#64, 0, 0#32, none⟩ (o.ctx w.ctx).retire w.info false)) := by
  intro k o
  show execTrapRecordEnqueue c s = _
  rw [execTrapRecordEnqueue]
  dsimp only
  simp only [hw, List.foldl_cons, List.foldl_nil, Nat.lt_irrefl, if_false, List.erase_cons_head, hj]
  rfl

/-- Settles O46: a copy job by what stands in its way and by the answers for its granules; rows; the end of a job; its channel and its record. -/
theorem copyJobs : Obligations.CopyJobs := by
  unfold Obligations.CopyJobs
  refine ⟨?_, ?_, fun c p d h => elemAt_rank_one p h, fun c j g p h h1 h2 he => readyGranule_written h h1 h2 he, ?_, ?_, ?_, ?_, ?_,
    removeJob_chan, captureError_chan, fun s ch id k j hj hc => exec_copySoftError k hj hc, ?_⟩
  · intro s ch id j c hj hk hc ev
    have he := exec_granuleRead hj hk hc
    refine ⟨fun hw => by rw [he, if_pos hw], fun hw => ⟨fun hg => ?_, fun hg => ⟨fun hp => ?_, fun hp => ⟨fun h0 hx => ?_, fun h0 hx hq => ?_, fun hq => ?_⟩⟩⟩⟩ <;>
      rw [he, if_neg (ne_true_of_eq_false hw)]
    · rw [if_pos hg]
    all_goals rw [if_neg (by rw [hg]; exact Bool.false_ne_true)]
    · rw [if_pos hp]
    all_goals rw [if_neg (Nat.not_le.2 hp)]
    · rw [if_pos ⟨h0, hx⟩]
    · rw [if_neg (by simp [hx]), if_pos ⟨h0, hq⟩]
    · rw [if_neg fun h => hq.elim (· h.1) fun h' => Bool.false_ne_true (h'.1.symm.trans h.2),
        if_neg fun h => hq.elim (· h.1) fun h' => Bool.false_ne_true (h'.2.symm.trans h.2)]
      intro es pos hr
      dsimp only
      rw [hr]
      exact ⟨fun l t h => by rw [h]; rfl, fun l n t h => by rw [h]; rfl, fun e t h => by rw [h]; rfl⟩
  · intro s i j c es place
    refine ⟨chunkBytes_zeros, fun low n h => ⟨fun e he hr => chunkSpan_holds h he hr, fun hl k off z h1 h2 => ?_, fun hl b t => chunkBytes_global h hl⟩⟩
    have hb := chunkBytes_local (i := i) h hl h1 h2
    exact ⟨fun hh => hb.trans (if_pos hh), fun hh => hb.trans (if_neg (ne_true_of_eq_false hh))⟩
  · intro s ch id j c g hj hk hg ev mine bs r
    have he : exec ev s = granuleAnswered ch id j mine r := exec_granuleWrite hj hk hg
    exact ⟨fun t h => by rw [he, h]; rfl, fun l n t h => by rw [he, h]; rfl, fun t h => by rw [he, h]; rfl, fun e t h => by rw [he, h]; rfl⟩
  · intro s t u i k cls pa launch root h bs hs ha hh hr
    obtain ⟨h1, h2, h3⟩ := memGet_granule (pa / 64 * 64) (tabWf_granuleBytes bs) hs
    rw [← engineWrite_writes ha hh hr] at h1 h2 h3
    exact ⟨h1, h2, h3⟩
  · intro s ch id j sc ws idx hj hk ev goes
    have he := exec_gathScatRow hj hk
    have hgo : goes → ¬ (j.code ≠ 0 ∧ j.code ≠ 4) := fun g h => g.elim h.1 h.2
    refine ⟨fun hn => ?_, fun g hw => ?_, fun g hw hx => ?_, fun g hw hx hp => ?_, fun g hw hx hp => ?_⟩
    · rw [he, if_pos (not_or.1 hn)]
    all_goals rw [he, if_neg (hgo g)]
    · rw [if_pos hw]
    all_goals rw [if_neg (ne_true_of_eq_false hw)]
    · rw [if_pos hx]
    all_goals rw [if_neg (ne_true_of_eq_false hx)]
    · rw [if_pos hp]
    rw [if_neg (ne_true_of_eq_false hp)]
    intro x row mine go
    have hx2 : field (ws.getD 2 0#64) 32 32 = x 2 / 2 ^ 32 := field_upper _
    have hx0 : ∀ n k, field (ws.getD n 0#64) 0 k = x n % 2 ^ k := fun n k => field_low _ k
    have hmine : rowHere ws j = mine := by rw [rowHere, hx0]; rfl
    refine ⟨fun hn => by rw [List.getElem?_eq_none hn]; rfl, fun i hi => ?_⟩
    rw [hi]
    refine ⟨fun hi => ?_, fun hi t l ht hl => ?_⟩
    · rw [rowNext_beyond (hx2 ▸ hi), rowOutside, hmine]
      exact ⟨fun hs => if_pos hs, fun hs hh => (if_neg (ne_true_of_eq_false hs)).trans (if_neg (ne_true_of_eq_false hh))⟩
    · intro p lane off
      have hlane : rowLane ws i = lane := by rw [rowLane, hx0]; rfl
      have hoff : rowThere ws i = off := by rw [rowThere, hx0]; rfl
      rw [rowNext_lane (hx2.symm ▸ hi) ht hl, hlane, ← hmine, ← hoff]
      refine ⟨fun hn => by rw [hn], fun owner ho => ?_⟩
      rw [ho]
      refine ⟨rowAt_away, rowAt_saved, rowAt_outside, fun ha hs hb => ⟨fun hc h1 h2 => ?_, fun hc h1 h2 => ?_⟩⟩ <;> subst hc
      · exact rowAt_gather ha hs hb h1 h2
      · exact rowAt_scatter ha hs hb h1 h2
  · intro s ch id j hj ho ev pkg home n inc sent
    refine ⟨fun hc hs => ?_, fun hc hs hp hd ha => ?_, fun hc hs hp => ?_, fun hc => ?_, fun hc h6 hr ha hl => ?_, fun hc ha hl => ?_⟩
    · rw [exec_jobEnd_done hj ho hc, if_pos hs]
    · rw [exec_jobEnd_done hj ho hc, if_neg (not_not.2 hs), if_neg (not_not.2 hp), if_neg (ne_true_of_eq_false hd), if_neg (ne_true_of_eq_false ha)]
    · rw [exec_jobEnd_done hj ho hc, if_neg (not_not.2 hs), if_pos hp]
      refine ⟨fun ho => ?_, fun ho hr he => ?_⟩ <;> rw [signalPeer]
      · exact congrArg (fun t : State => Host.Outcome.next (t.post 1 ev)) (if_pos (by rw [show s.hub.outstanding.any _ = true from ho]; rfl))
      · exact congrArg (fun t : State => Host.Outcome.next (t.post 1 ev)) (if_neg (by simp [show s.hub.outstanding.any _ = false from ho, hr, he]))
    · rw [exec_jobEnd_failed hj ho (by rcases hc with hc | hc; exacts [by omega, hc.1]), if_pos (hc.imp_right (·.2))]
    · rw [exec_jobEnd_failed hj ho hc, if_neg (by simp [h6, hr]), if_neg (ne_true_of_eq_false ha), if_neg (not_not.2 hl)]
    · rw [exec_jobEnd_failed hj ho hc, if_neg (ne_true_of_eq_false ha), if_pos hl]
      exact ite_self _
  · intro s ch id j a hj ev mine
    have he : exec ev s = _ := exec_jobEnd_answered hj a
    refine ⟨fun hm => by rw [he, if_pos hm], fun hm => ?_⟩
    intro t
    have ht : t.tick = s.tick := (sendsOnly_gotPeer s mine a.reply).keeps State.tick fun _ _ _ _ => rfl
    have he : exec ev s = .next (jobAnswer t ch.toNat j a.reply) := by rw [he, if_neg (by rw [hm]; exact Bool.true_eq_false_eq_False)]
    refine ⟨fun hr => ?_, fun hr => ?_, fun w hr => ⟨fun h0 => ?_, fun h0 => ?_⟩⟩ <;> rw [he, hr]
    · rw [← ht]; rfl
    · rw [← ht]; rfl
    · exact congrArg _ (if_neg (Nat.not_lt.2 (Nat.le_of_eq h0)))
    · exact congrArg _ (if_pos h0)
  · intro s c w k o hw hj
    have he := exec_trapRecordEnqueue hw hj
    refine ⟨fun h => by rw [he, if_pos h], fun h hf => ?_, fun h hf => ?_⟩ <;> rw [he, if_neg (ne_true_of_eq_false h)]
    · rw [if_pos hf]
    · rw [if_neg (Nat.not_le.2 hf)]

end Sys2Proof.Proofs
end

