-- ==== Sys2Proof/Proofs/GlobalUnits.lean ====
section
/-! PROOF. LDG, STG, VLDG and VSTG inside their trick (R216, R231, R236, R242, R243, R245, R246, R269, R402, R424). -/

namespace Sys2Proof.Proofs
open Sys2Proof Sys2Proof.Machine Sys2Proof.Laws

/-! ### The units -/

section
variable {d b : GReg} {off : BitVec 10} {z : BitVec 2} {x : Bool} {a w : Word} {s t u v r : State}

theorem needAligned_trap {n : Nat} (h : a.toNat % n ≠ 0) : needAligned a n s = .error (.trap { cause := .misaligned, addr := a }) := by
  rw [needAligned, stopIf_apply, if_pos (by simpa using h)]

theorem gAddr_trap {n : Nat} (hr : Reads [b] s [a] t) (h : (s.unitOf.ea a off n).toNat % n ≠ 0) :
    gAddr b off n s = .error (.trap { cause := .misaligned, addr := s.unitOf.ea a off n }) := by
  rw [gAddr, U_bind_ok (eaMI_reads hr)]
  exact U_bind_error (needAligned_trap h)

/-- A load takes the value at its address to its register (R242, R245). -/
theorem globalLoad_next {n : Nat} (hs : Runs s) (hr : Reads [b] (begun s) [a] t) (ha : (s.unitOf.ea a off (2 ^ z.toNat)).toNat % 2 ^ z.toNat = 0)
    (hl : gLoad (s.unitOf.ea a off (2 ^ z.toNat)) (2 ^ z.toNat) t = .ok (n, u)) (hw : Writes d (extendLoad (2 ^ z.toNat) x n) u r) :
    runIn (globalLoad d b off z x) s = .next (retired s r) := by
  refine unit_next hs ?_
  rw [← begun_unitOf] at ha hl
  rw [globalLoad, U_bind_ok (gAddr_reads hr ha), U_bind_ok hl, U_bind_ok hw]
  rfl

/-- A store takes the low bytes of its register to its address (R242, R245). -/
theorem globalStore_next (hs : Runs s) (hr : Reads [b] (begun s) [a] t) (ha : (s.unitOf.ea a off (2 ^ z.toNat)).toNat % 2 ^ z.toNat = 0)
    (hv : Reads [d] t [w] u) (hw : gStore (s.unitOf.ea a off (2 ^ z.toNat)) (2 ^ z.toNat) (w.toNat % 2 ^ (8 * 2 ^ z.toNat)) u = .ok ((), r)) :
    runIn (globalStore d b off z) s = .next (retired s r) := exec_stg_next hs hr ha hv hw

theorem global_misaligned (hs : Runs s) (hr : Reads [b] (begun s) [a] t) (ha : (s.unitOf.ea a off (2 ^ z.toNat)).toNat % 2 ^ z.toNat ≠ 0) :
    let i : TrapInfo := { cause := .misaligned, addr := s.unitOf.ea a off (2 ^ z.toNat) }
    exec (.ldg d b off z x) s = .next (trapped s i) ∧ exec (.stg d b off z) s = .next (trapped s i) := by
  rw [← begun_unitOf] at ha ⊢
  exact ⟨runIn_trap hs (by rw [globalLoad]; exact U_bind_error (gAddr_trap hr ha)), runIn_trap hs (by rw [globalStore]; exact U_bind_error (gAddr_trap hr ha))⟩

end

section
variable {d : VReg} {s1 s2 : GReg} {p : PReg} {y : ElemType} {s u v w : State} {a o : Word} (hs : Runs s) (hr : Reads [s1, s2] (begun s) [a, o] u)
include hs hr

theorem globalVector_misaligned (ha : (a + o).toNat % (y.width / 8) ≠ 0) :
    exec (.vldg d s1 s2 p y) s = .next (trapped s { cause := .misaligned, addr := a + o }) := by
  obtain ⟨t, h1, h2⟩ := reads_two hr
  have hm : rowAddrs s1 s2 p y (begun s) = .error (.trap { cause := .misaligned, addr := a + o }) := by
    rw [rowAddrs, U_bind_ok h1, U_bind_ok h2]
    exact U_bind_error (needAligned_trap ha)
  exact runIn_trap hs (U_bind_error hm)

/-- A vector load puts the loaded elements into the old value of its register (R243). -/
theorem exec_vldg_next {l : List (Nat × Nat)} (ha : (a + o).toNat % (y.width / 8) = 0)
    (hl : gLoadElems (y.width / 8) (activeAddrs (u.p p) y.width fun i => a + o + BitVec.ofNat 64 (i * (y.width / 8))) u = .ok (l, v))
    (hw : VWrites d (mergeElems y (v.v d) l) (v.p p) v w) : exec (.vldg d s1 s2 p y) s = .next (retired s w) := by
  refine unit_next hs ?_
  rw [U_bind_ok (rowAddrs_reads hr ha), U_bind_ok hl, U_bind_ok (oldV_apply d v), U_bind_ok (readP_apply p v)]
  exact U_bind_ok hw

end

theorem gLoadElems_cons {n i v : Nat} {ea : Word} {es : List (Nat × Word)} {s t u : State} {l : List (Nat × Nat)} (h : gLoad ea n s = .ok (v, t))
    (hl : gLoadElems n es t = .ok (l, u)) : gLoadElems n ((i, ea) :: es) s = .ok ((i, v) :: l, u) := by
  rw [gLoadElems, U_bind_ok h, U_bind_ok hl]
  rfl

theorem gStoreElems_cons {n i : Nat} {y : ElemType} {x : Vec} {ea : Word} {es : List (Nat × Word)} {s t u : State}
    (h : gStore ea n (laneOf y (elem x y.width i)) s = .ok ((), t)) (hl : gStoreElems n y x es t = .ok ((), u)) :
    gStoreElems n y x ((i, ea) :: es) s = .ok ((), u) := by
  rw [gStoreElems, U_bind_ok h]
  exact hl

/-! ### What a translation that the trick has used leaves alone -/

/-- The trick of the issuing context has used a translation (R407). -/
def usedNoted (s : State) (e : TlbEntry) : State := s.modCtx s.cur.1 s.cur.2 fun v =>
  { v with running := if v.running.used.contains e then v.running else { v.running with used := v.running.used ++ [e] } }

theorem noteUsed_apply (e : TlbEntry) (s : State) : noteUsed e s = .ok ((), usedNoted s e) := rfl

/-- A list made from the entries of a table does not change with an entry that makes what the one before it made. -/
theorem flatMap_tabSet {α β : Type} (f : α → List β) (t : Tab α) (k : Nat) {v d : α} (hd : f d = []) (hv : f v = f (tabGet t k d)) :
    (tabSet t k v).flatMap (fun e => f e.2) = t.flatMap fun e => f e.2 := by
  induction t with
  | nil => simpa [tabSet, hd, tabGet] using hv
  | cons e t ih =>
    obtain ⟨j, w⟩ := e
    rw [tabSet]
    unfold tabGet tabFind at hv
    split_ifs at hv ⊢ with h1 h2
    · rw [List.flatMap_cons, List.flatMap_cons]
      exact congrArg (· ++ _) hv
    · rw [List.flatMap_cons]
      exact (congrArg (· ++ _) (hv.trans hd)).trans (List.nil_append _)
    · rw [List.flatMap_cons, List.flatMap_cons, ih hv]

theorem pinned_setCtx (c : Core) (x now : Nat) {v : Ctx} (hl : v.specLines = (c.ctx x).specLines) (hv : v.leases = (c.ctx x).leases) :
    (c.setCtx x v).pinned now = c.pinned now := by
  rw [Core.pinned, Core.pinned, Core.specLines, Core.specLines, Core.setCtx, flatMap_tabSet Ctx.specLines c.ctxs x (d := {}) rfl hl,
    flatMap_tabSet (fun v : Ctx => (v.leases.filter fun (e : Nat × Lease) => e.2.inForce now).map fun (e : Nat × Lease) => e.2.pa / 64) c.ctxs x (d := {}) rfl
      (by rw [hv]; rfl)]

section
variable (s : State) (e : TlbEntry)

theorem usedNoted_me : (usedNoted s e).me = { s.me with running := { s.me.running with used := (usedNoted s e).me.running.used } } := by
  rw [usedNoted, me_modCtx]
  split <;> rfl

theorem usedNoted_holder : (usedNoted s e).holderOf s.cur.1 = s.holderOf s.cur.1 := by
  rw [State.holderOf, usedNoted, core_modCtx]
  rfl

theorem usedNoted_pinned : (usedNoted s e).mine.pinned s.tick = s.mine.pinned s.tick := by
  rw [usedNoted, mine_modCtx]
  refine pinned_setCtx _ _ _ ?_ rfl
  show Ctx.specLines { s.me with running := _ } = s.me.specLines
  unfold Ctx.specLines
  split_ifs <;> rfl

theorem usedNoted_l1Lines : (usedNoted s e).mine.l1Lines = s.mine.l1Lines := by
  rw [usedNoted, mine_modCtx]
  rfl

end

/-! ### Lines and capabilities -/

/-- A trick has read or written a line: it stands in its set and in its signature (R213, R217). -/
def withLine (t : Trick) (l : Nat) (write : Bool) : Trick :=
  if write then (if t.wlines.contains l then t else { t with wlines := t.wlines ++ [l], wsig := t.wsig ||| Config.lineSig l })
  else if t.rlines.contains l then t else { t with rlines := t.rlines ++ [l], rsig := t.rsig ||| Config.lineSig l }

/-- The running trick has read or written a line. -/
def lineNoted (s : State) (l : Nat) (write : Bool) : State :=
  s.modCtx s.cur.1 s.cur.2 fun v => { v with running := withLine v.running l write }

theorem lineNoted_usedNoted (s : State) (e : TlbEntry) (l : Nat) (write : Bool) : lineNoted (usedNoted s e) l write = noted s e l write :=
  modCtx_modCtx s s.cur.1 s.cur.2 _ _

section
variable {s : State} {e : TlbEntry} {pa l : Nat} {ea : Word} {write : Bool}

theorem lineRoom_usedNoted (e : TlbEntry) (h : LineRoom s l write) : LineRoom (usedNoted s e) l write := by
  obtain ⟨h1, h2⟩ := h
  refine ⟨?_, ?_⟩
  · rw [usedNoted_me]; exact h1
  · rw [usedNoted_l1Lines, show (usedNoted s e).tick = s.tick from rfl, usedNoted_pinned]; exact h2

theorem noteLine_room (h : LineRoom s l write) : noteLine l write s = .ok ((), lineNoted s l write) := by
  obtain ⟨h1, h2⟩ := h
  have hp : (!(s.mine.pinned s.tick).contains l && decide ((s.mine.pinned s.tick).length ≥ s.mine.l1Lines)) = false := by
    rcases h2 with h | h
    · rw [h]; rfl
    · rw [decide_eq_false (Nat.not_le.2 h), Bool.and_false]
  have hf : (s.me.running.units != 0 && ((!(s.me.running.rlines.contains l || s.me.running.wlines.contains l) &&
      decide (s.me.running.rlines.length + (s.me.running.wlines.filter (!s.me.running.rlines.contains ·)).length ≥ Config.specLines)) ||
      decide (sigCount ((if write then s.me.running.wsig else s.me.running.rsig) ||| Config.lineSig l) > Config.sigLimit))) = false := by
    rcases h1 with h | ⟨h, hs⟩
    · rw [h]; rfl
    · rw [decide_eq_false (Nat.not_lt.2 hs), Bool.or_false]
      rcases h with h | h
      · rw [h, Bool.not_true, Bool.false_and, Bool.and_false]
      · rw [decide_eq_false (Nat.not_le.2 h), Bool.and_false, Bool.and_false]
  rw [noteLine, U_bind_ok (curCtx_apply s), U_bind_ok (curCore_apply s), U_bind_ok (getS_apply s)]
  refine (congrFun (if_neg (ne_true_of_eq_false (Bool.or_eq_false_iff.2 ⟨hf, hp⟩))) s).trans ?_
  cases write <;> rfl

theorem needLine_held {own : Bool} (h : s.holdsLine s.cur.1 l own = true) : needLine l own s = .ok ((), s) := by
  rw [needLine, U_bind_ok (getS_apply s), if_pos h]
  rfl

theorem needLine_missing {own : Bool} (h : s.holdsLine s.cur.1 l own = false) : needLine l own s = .error (.stall (.line l own)) := by
  rw [needLine, U_bind_ok (getS_apply s), if_neg (ne_true_of_eq_false h)]
  rfl

/-- The check of a read or of a write by the holder that the core acts for, after the translation is noted (R269). -/
theorem capCheckReadU_usedNoted {tag lane : Nat} {det : Bool} (h : s.holderOf s.cur.1 = (tag, lane, det)) : capCheckReadU pa ea (usedNoted s e) =
    if s.capReadFails s.cur.1 pa tag lane det then .error (.trap { cause := .capability, addr := ea }) else .ok ((), usedNoted s e) := by
  rw [capCheckReadU, U_bind_ok (getS_apply _), show (usedNoted s e).cur = s.cur from rfl, usedNoted_holder, h]
  exact stopIf_apply ..

theorem capCheckU_usedNoted {tag lane : Nat} {det : Bool} (h : s.holderOf s.cur.1 = (tag, lane, det)) : capCheckU pa ea (usedNoted s e) =
    if s.capFails s.cur.1 pa tag lane det then .error (.trap { cause := .capability, addr := ea }) else .ok ((), usedNoted s e) := by
  rw [capCheckU, U_bind_ok (getS_apply _), show (usedNoted s e).cur = s.cur from rfl, usedNoted_holder, h]
  exact stopIf_apply ..

end

/-! ### One access -/

section
variable {s u : State} {ea : Word} {pa : Nat} {e : TlbEntry} {tag lane : Nat} {det : Bool}

theorem readOver_noted (s : State) (e : TlbEntry) (l pa n : Nat) (write : Bool) :
    readOver s.mem (noted s e l write).me pa n = readOver s.mem s.me pa n := by
  have h : (noted s e l write).me = { s.me with running := (noted s e l write).me.running } ∧
      (noted s e l write).me.running.writes = s.me.running.writes := by
    rw [noted, me_modCtx]
    refine ⟨rfl, ?_⟩
    cases write <;> dsimp only <;> split_ifs <;> rfl
  rw [readOver, readOver, h.2, h.1]

section
variable (ht : translateU ea 0 s = .ok ((pa, e), u)) (hh : hostResident pa = false) (ho : u.holderOf u.cur.1 = (tag, lane, det))
include ht hh ho

theorem gLoad_capability (n : Nat) (hc : u.capReadFails u.cur.1 pa tag lane det = true) : gLoad ea n s = .error (.trap { cause := .capability, addr := ea }) := by
  rw [gLoad, U_bind_ok ht]; dsimp only; rw [U_bind_ok (noteUsed_apply e u), if_neg (ne_true_of_eq_false hh)]
  exact U_bind_error ((capCheckReadU_usedNoted ho).trans (if_pos hc))

variable (hc : u.capReadFails u.cur.1 pa tag lane det = false)
include hc

theorem gLoad_missing (n : Nat) (hl : u.holdsLine u.cur.1 (pa / 64) false = false) : gLoad ea n s = .error (.stall (.line (pa / 64) false)) := by
  rw [gLoad, U_bind_ok ht]; dsimp only; rw [U_bind_ok (noteUsed_apply e u), if_neg (ne_true_of_eq_false hh),
    U_bind_ok ((capCheckReadU_usedNoted ho).trans (if_neg (ne_true_of_eq_false hc)))]
  exact U_bind_error (needLine_missing (s := usedNoted u e) hl)

/-- A load of a line that the core holds (R216, R231). -/
theorem gLoad_held (n : Nat) (hl : u.holdsLine u.cur.1 (pa / 64) false = true) (hr : LineRoom u (pa / 64) false) :
    gLoad ea n s = .ok (ofBytes (readOver u.mem u.me pa n), noted u e (pa / 64) false) := by
  rw [gLoad, U_bind_ok ht]; dsimp only; rw [U_bind_ok (noteUsed_apply e u), if_neg (ne_true_of_eq_false hh),
    U_bind_ok ((capCheckReadU_usedNoted ho).trans (if_neg (ne_true_of_eq_false hc))), U_bind_ok (needLine_held (s := usedNoted u e) hl),
    U_bind_ok (noteLine_room (lineRoom_usedNoted e hr)), lineNoted_usedNoted, U_bind_ok (getS_apply _), U_bind_ok (curCtx_apply _)]
  exact congrArg (fun l => Except.ok (ofBytes l, noted u e (pa / 64) false)) (readOver_noted u e (pa / 64) pa n false)

end

section
variable (ht : translateU ea 1 s = .ok ((pa, e), u)) (hh : hostResident pa = false) (ho : u.holderOf u.cur.1 = (tag, lane, det))
include ht hh ho

theorem gStore_capability (n x : Nat) (hc : u.capFails u.cur.1 pa tag lane det = true) : gStore ea n x s = .error (.trap { cause := .capability, addr := ea }) := by
  rw [gStore, U_bind_ok ht]; dsimp only; rw [U_bind_ok (noteUsed_apply e u), if_neg (ne_true_of_eq_false hh)]
  exact U_bind_error ((capCheckU_usedNoted ho).trans (if_pos hc))

variable (hc : u.capFails u.cur.1 pa tag lane det = false)
include hc

theorem gStore_missing (n x : Nat) (hl : u.holdsLine u.cur.1 (pa / 64) true = false) : gStore ea n x s = .error (.stall (.line (pa / 64) true)) := by
  rw [gStore, U_bind_ok ht]; dsimp only; rw [U_bind_ok (noteUsed_apply e u), if_neg (ne_true_of_eq_false hh),
    U_bind_ok ((capCheckU_usedNoted ho).trans (if_neg (ne_true_of_eq_false hc)))]
  exact U_bind_error (needLine_missing (s := usedNoted u e) hl)

/-- A store to a line that the core owns stays in the trick (R216). -/
theorem gStore_held (n x : Nat) (hl : u.holdsLine u.cur.1 (pa / 64) true = true) (hr : LineRoom u (pa / 64) true) :
    gStore ea n x s = .ok ((), speculated (noted u e (pa / 64) true) pa n x) := by
  rw [gStore, U_bind_ok ht]; dsimp only; rw [U_bind_ok (noteUsed_apply e u), if_neg (ne_true_of_eq_false hh),
    U_bind_ok ((capCheckU_usedNoted ho).trans (if_neg (ne_true_of_eq_false hc))), U_bind_ok (needLine_held (s := usedNoted u e) hl),
    U_bind_ok (noteLine_room (lineRoom_usedNoted e hr)), lineNoted_usedNoted]
  rfl

end

/-! ### Host-resident addresses -/

section
variable {n : Nat} {v w : State} (ht : translateU ea 0 s = .ok ((pa, e), u)) (hh : hostResident pa = true) (hu : noteUsed e u = .ok ((), v))
  (hm : hostTiming ea v = .ok ((), w))
include ht hh hu hm

theorem gLoad_host_waits (hf : w.me.hostReplies.find? (·.1 == pa / 8 * 8) = none) : gLoad ea n s = .error (.stall (.hostLoad (pa / 8 * 8))) := by
  rw [gLoad, U_bind_ok ht]; dsimp only; rw [U_bind_ok hu, if_pos hh, U_bind_ok hm]
  refine U_bind_error ?_
  rw [hostLoad, U_bind_ok (curCtx_apply w), show (w.ctx w.cur.1 w.cur.2).hostReplies.find? (·.1 == pa / 8 * 8) = none from hf]
  rfl

/-- A load of a word that the host has given, under the running trick's own stores (R216, R231, R236). -/
theorem gLoad_host {x : Word} (hf : w.me.hostReplies.find? (·.1 == pa / 8 * 8) = some (pa / 8 * 8, x)) :
    gLoad ea n s = .ok (ofBytes (readOwn w.me.running.hostWrites pa n (x.toNat / 2 ^ (8 * (pa - pa / 8 * 8)) % 2 ^ (8 * n))), w) := by
  have hl : hostLoad pa n w = .ok (x.toNat / 2 ^ (8 * (pa - pa / 8 * 8)) % 2 ^ (8 * n), w) := by
    rw [hostLoad, U_bind_ok (curCtx_apply w), show (w.ctx w.cur.1 w.cur.2).hostReplies.find? (·.1 == pa / 8 * 8) = some (pa / 8 * 8, x) from hf]
    rfl
  rw [gLoad, U_bind_ok ht]; dsimp only; rw [U_bind_ok hu, if_pos hh, U_bind_ok hm, U_bind_ok hl, U_bind_ok (curCtx_apply w)]
  rfl

end
end

/-- A byte that the running trick has not stored is the host's (R216, R231). -/
theorem readOwn_host {ws : List (Nat × List Byte)} {pa n b i : Nat} (hi : i < n) (h : ∀ p ∈ ws, pa + i < p.1 ∨ p.1 + p.2.length ≤ pa + i) :
    (readOwn ws pa n b).getD i 0#8 = (toBytes n b).getD i 0#8 := by
  have hf : ws.reverse.find? (fun w => decide (w.1 ≤ pa + i) && decide (pa + i < w.1 + w.2.length)) = none := by
    rw [List.find?_eq_none]
    intro w hw
    have := h w (List.mem_reverse.1 hw)
    simp only [Bool.and_eq_true, decide_eq_true_eq]
    omega
  rw [readOwn, List.getD_eq_getElem?_getD, List.getElem?_map, List.getElem?_range hi, Option.map_some, hf]
  rfl

/-! ### Translations that do not answer -/

section
variable {s : State} {ea : Word} {kind : Nat}

theorem translateU_walkWaits (kind : Nat) (h : s.walkWaits s.cur.1 (s.clsOf s.cur.1) s.mine.vmroot ea.toNat = true) :
    translateU ea kind s = .error (.stall (.walk ea.toNat)) := by
  rw [translateU, U_bind_ok (getS_apply s)]
  exact congrFun (if_pos h) s

theorem translateU_fault {f : XFault} (h : s.walkWaits s.cur.1 (s.clsOf s.cur.1) s.mine.vmroot ea.toNat = false)
    (hf : (s.payWalk s.cur.1 (s.clsOf s.cur.1) s.mine.vmroot ea.toNat).translate s.cur.1 s.mine.vmroot ea kind = .error f) :
    translateU ea kind s = .error (.trap (f.trap ea kind)) := by
  rw [translateU, U_bind_ok (getS_apply s)]
  dsimp only
  split
  next hw => exact absurd hw (ne_true_of_eq_false h)
  next =>
    generalize hx : State.translate _ _ _ _ _ = x
    cases hx.symm.trans hf
    rfl

end

/-! ### The bytes that a load sees -/

section
variable {m : List Host.Cell} {v : Ctx} {pa n i : Nat} (hi : i < n)
include hi

theorem readOver_get : (readOver m v pa n).getD i 0#8 = match tabFind v.running.writes (pa + i) with
    | some b => b
    | none => match v.pending.bind fun t => tabFind t.writes (pa + i) with
      | some b => b
      | none => memGet m (pa + i) := by
  rw [readOver, List.getD_eq_getElem?_getD, List.getElem?_map, List.getElem?_range hi]
  rfl

theorem readOver_running {b : Byte} (h : tabFind v.running.writes (pa + i) = some b) : (readOver m v pa n).getD i 0#8 = b := by
  rw [readOver_get hi, h]

theorem readOver_pending {t : Trick} {b : Byte} (h : tabFind v.running.writes (pa + i) = none) (hp : v.pending = some t)
    (hb : tabFind t.writes (pa + i) = some b) : (readOver m v pa n).getD i 0#8 = b := by
  rw [readOver_get hi, h, hp, Option.bind_some, hb]

theorem readOver_memory (h : tabFind v.running.writes (pa + i) = none)
    (hp : v.pending = none ∨ ∃ t, v.pending = some t ∧ tabFind t.writes (pa + i) = none) : (readOver m v pa n).getD i 0#8 = memGet m (pa + i) := by
  rw [readOver_get hi, h]
  rcases hp with hp | ⟨t, hp, hb⟩
  · rw [hp]; rfl
  · rw [hp, Option.bind_some, hb]

end

/-- Settles O32: the units by their address and the accesses; one access by its translation, its capability and its line; the bytes that it sees. -/
theorem globalUnits : Obligations.GlobalUnits := by
  unfold Obligations.GlobalUnits
  refine ⟨⟨?_, ?_, ?_, ?_⟩, ?_, ?_, ?_, ?_, ?_⟩
  · intro d b off z x s t a hs hr n ea
    exact ⟨global_misaligned hs hr, fun ha => ⟨fun v u w hl hw => globalLoad_next hs hr ha hl hw, fun v u w hv hw => globalStore_next hs hr ha hv hw⟩⟩
  · intro d b off s t a hs hr ea ha
    refine ⟨fun v u w hl hw => globalLoad_next (z := 3#2) (x := false) hs hr ha hl hw, fun v u w hv hw => globalStore_next (z := 3#2) hs hr ha hv ?_⟩
    exact (Nat.mod_eq_of_lt v.isLt).symm ▸ hw
  · intro d s1 s2 p t s u v w a o n es hs hr
    exact ⟨globalVector_misaligned hs hr, fun ha => ⟨fun l hl hw => exec_vldg_next hs hr ha hl hw, fun x hv hw => exec_vstg_next hs hr ha hv hw⟩⟩
  · exact fun n i v y x ea es s t u l => ⟨gLoadElems_cons, gStoreElems_cons⟩
  · intro ea n s u pa e ht hh
    obtain ⟨⟨tag, lane, det⟩, ho⟩ : ∃ h, u.holderOf u.cur.1 = h := ⟨_, rfl⟩
    rw [ho]
    exact ⟨gLoad_capability ht hh ho n, fun hc => ⟨gLoad_missing ht hh ho hc n, gLoad_held ht hh ho hc n⟩⟩
  · intro ea n x s u pa e ht hh
    obtain ⟨⟨tag, lane, det⟩, ho⟩ : ∃ h, u.holderOf u.cur.1 = h := ⟨_, rfl⟩
    rw [ho]
    exact ⟨gStore_capability ht hh ho n x, fun hc => ⟨gStore_missing ht hh ho hc n x, gStore_held ht hh ho hc n x⟩⟩
  · intro ea n s u v w pa e ht hh hu hm t
    exact ⟨gLoad_host_waits ht hh hu hm, fun x hf => ⟨gLoad_host ht hh hu hm hf, fun i hi h => readOwn_host hi h⟩⟩
  · intro ea n x s k
    refine ⟨fun h => ⟨U_bind_error (translateU_walkWaits 0 h), U_bind_error (translateU_walkWaits 1 h)⟩, fun h => ?_⟩
    exact ⟨fun f hf => U_bind_error (translateU_fault h hf), fun f hf => U_bind_error (translateU_fault h hf)⟩
  · exact fun m v pa n i hi => ⟨fun b => readOver_running hi, fun h => ⟨fun t b => readOver_pending hi h, readOver_memory hi h⟩⟩

end Sys2Proof.Proofs
end

