-- ==== Sys2Proof/Proofs/FarAtomics.lean ====
section
/-! PROOF. The FA operations, their queue, their performance and their reply (R218, R255, R259 to R261). -/

namespace Sys2Proof.Proofs
open Sys2Proof Sys2Proof.Machine Sys2Proof.Laws

/-! ### The units -/

theorem reads_three {s t : State} {k j l : GReg} {a b c : Word} (h : Reads [k, j, l] s [a, b, c] t) :
    ∃ u v, readG k s = .ok (a, u) ∧ readG j u = .ok (b, v) ∧ readG l v = .ok (c, t) := by
  obtain ⟨a', u, r, h1, he, h2⟩ := h
  obtain ⟨rfl, rfl⟩ := List.cons.inj he
  obtain ⟨v, h3, h4⟩ := reads_two h2
  exact ⟨u, v, h1, h3, h4⟩

theorem kept_tick (s : State) (d : GReg) : (kept s d).tick = s.tick := by
  rcases kept_cases s d with h | ⟨i, h⟩ <;> rw [h]
  rfl

theorem stopUnit_farFull {s : State} (h : s.me.settled = true) :
    stopUnit s s.cur.1 s.cur.2 s.unitOf (.wait .farFull) = s.block s.cur.1 s.cur.2 .farFull := by
  unfold stopUnit
  dsimp only
  rw [endTrick_settled h]
  exact if_pos h

/-- An FA unit by its operands' alignment and its queue's room (R260). -/
theorem farAtomic_unit {i : Instr} {op : Nat} {d s1 s2 : GReg} {sc : Scope} {o : Bool} (he : ∀ s, exec i s = farAtomic op d s1 s2 sc o s) :
    FarUnit i op d s1 s2 sc o := by
  intro s t a v c hs hr
  obtain ⟨u, w, h1, h2, h3⟩ := reads_three hr
  have hc := reads_cur hr
  rw [he, farAtomic]
  refine ⟨fun ha => ?_, fun ha hd hl => ?_, fun ha hd hl => ?_⟩
  · refine runOut_stop (e := .trap { cause := .misaligned, addr := a }) hs ?_ fun _ _ e => by cases e
    rw [U_bind_ok h1, U_bind_ok h2, U_bind_ok h3]
    refine U_bind_error ?_
    rw [needAligned, stopIf_apply, if_pos (by simpa using ha)]
  · refine (runOut_stop (e := .wait .farFull) hs ?_ fun _ _ e => by cases e).trans (by rw [stopUnit_farFull hs])
    rw [U_bind_ok h1, U_bind_ok h2, U_bind_ok h3, U_bind_ok (needAligned_ok ha), U_bind_ok (curCtx_apply t), U_bind_ok (needDest_free hd)]
    exact congrFun (if_pos hl) _
  · refine runOut_ok (a := .next) hs ?_
    rw [U_bind_ok h1, U_bind_ok h2, U_bind_ok h3, U_bind_ok (needAligned_ok ha), U_bind_ok (curCtx_apply t), U_bind_ok (needDest_free hd)]
    refine (congrFun (if_neg (Nat.not_le.2 hl)) _).trans ?_
    rw [farEntry, State.me, ← hc, ← kept_cur t d, ← kept_tick t d]
    rfl

/-! ### The new words -/

section
variable (old v c : Word)

theorem farNew_flags {op : Nat} (h : op ≠ 10) : (farNew op old v c).2 = 0#7 := by
  unfold farNew
  split
  case h_11 => exact absurd rfl h
  all_goals rfl

theorem farNew_signed : (farNew 4 old v c).1.toInt = min old.toInt v.toInt ∧ (farNew 5 old v c).1.toInt = max old.toInt v.toInt := by
  simp only [farNew, BitVec.slt, decide_eq_true_eq]
  constructor <;> split_ifs <;> omega

theorem farNew_unsigned : (farNew 6 old v c).1.toNat = min old.toNat v.toNat ∧ (farNew 7 old v c).1.toNat = max old.toNat v.toNat := by
  simp only [farNew, BitVec.ult, decide_eq_true_eq]
  constructor <;> split_ifs <;> omega

end

/-! ### Entries whose turn has come -/

section
variable {s : State} {k x : Nat}

/-- Only the tick in which it is at its home changes of an entry, and of one whose turn has come and that has none yet (R261). -/
theorem farDues_getElem (s : State) (k x : Nat) (b l : List FarEntry) (n : Nat) : (farDues s k x b l)[n]? = l[n]?.map fun f =>
    if farReady s k x (b ++ l.take n) f && f.due.isNone then { f with due := some (s.tick + farLatency s k f) } else f := by
  induction l generalizing b n with
  | nil => rfl
  | cons e l ih =>
    rw [farDues]
    cases n with
    | zero => rw [List.take_zero, List.append_nil]; rfl
    | succ n => rw [List.getElem?_cons_succ, List.getElem?_cons_succ, ih, List.take_succ_cons, List.append_assoc]; rfl

theorem farDues_performed {b l : List FarEntry} {e : FarEntry} (he : e ∈ l) (ho : e.old.isSome = true) : e ∈ farDues s k x b l := by
  obtain ⟨n, hn⟩ := List.mem_iff_getElem?.1 he
  refine List.mem_iff_getElem?.2 ⟨n, ?_⟩
  rw [farDues_getElem, hn, Option.map_some, if_neg]
  rw [farReady, Option.isNone_eq_false_iff.2 ho]
  simp

theorem farReady_first {e : FarEntry} (hd : (s.core k).det = false) (h1 : e.old = none) (h2 : e.fault = none) (h3 : e.sent = none) :
    farReady s k x [] e = true := by
  have ht : farTurn [] e = true := by
    unfold farTurn
    split <;> rfl
  rw [farReady, h1, h2, h3, ht, detHeld, hd]
  rfl

/-- An ordered entry has no turn behind one that is still to be performed (R261). -/
theorem farReady_ordered {b : List FarEntry} {e f : FarEntry} (ho : e.ord = true) (hf : f ∈ b) (hn : f.old = none) : farReady s k x b e = false := by
  have ht : farTurn b e = false := by
    rw [farTurn, if_pos ho, List.isEmpty_eq_false_iff]
    exact List.ne_nil_of_mem (List.mem_filter.2 ⟨hf, by rw [hn]; rfl⟩)
  rw [farReady, ht]
  simp

end

/-- A run of posts at given ticks changes the agenda alone; it takes nothing from it and adds one happening for each tick. -/
theorem foldl_postAt (i : Instr) (l : List Nat) (s : State) : ∃ a, (∀ e ∈ s.agenda, e ∈ a) ∧ (∀ t ∈ l, (2 * (s.tick + (t - s.tick)), i) ∈ a) ∧
    l.foldl (fun s t => s.post (t - s.tick) i) s = { s with agenda := a } := by
  induction l generalizing s with
  | nil => exact ⟨s.agenda, fun _ h => h, nofun, rfl⟩
  | cons t l ih =>
    obtain ⟨a, h1, h2, h3⟩ := ih (s.post (t - s.tick) i)
    refine ⟨a, fun e he => h1 e ((mem_agendaAdd ..).2 (.inr he)), fun u hu => ?_, h3⟩
    rcases List.mem_cons.1 hu with rfl | hu
    · exact h1 _ ((mem_agendaAdd ..).2 (.inl rfl))
    · exact h2 u hu

section
variable (s : State) (k x : Nat)

/-- Every entry of a queue has the turn that the others leave it (R261). -/
def farTurned : State := s.modCtx k x fun v => { v with farq := farDues s k x [] (s.ctx k x).farq }

/-- The ticks in which the entries whose turn has come will be at their homes. -/
def farTicks : List Nat :=
  ((s.ctx k x).farq.zip (farDues s k x [] (s.ctx k x).farq)).filterMap fun e => if e.1.due.isNone then e.2.due else none

theorem startFar_eq : ∃ a, (∀ e ∈ s.agenda, e ∈ a) ∧ (∀ t ∈ farTicks s k x, (2 * (s.tick + (t - s.tick)), .farAtomicPerform (cid k) (xid x)) ∈ a) ∧
    startFar s k x = { farTurned s k x with agenda := a } := foldl_postAt _ (farTicks s k x) (farTurned s k x)

theorem startFar_farq : ((startFar s k x).ctx k x).farq = farDues s k x [] (s.ctx k x).farq := by
  obtain ⟨a, -, -, h⟩ := startFar_eq s k x
  rw [h]
  exact congrArg Ctx.farq (ctx_modCtx s k x fun v => { v with farq := farDues s k x [] (s.ctx k x).farq })

end

/-- What the turns that are given leave: every happening on the agenda, and every entry that has been performed. -/
structure FarKept (k y : Nat) (s t : State) : Prop where
  agenda : ∀ e ∈ s.agenda, e ∈ t.agenda
  performed : ∀ e ∈ (s.ctx k y).farq, e.old.isSome = true → e ∈ (t.ctx k y).farq

theorem FarKept.refl (k y : Nat) (s : State) : FarKept k y s s := ⟨fun _ h => h, fun _ h _ => h⟩

theorem FarKept.trans {k y : Nat} {s t u : State} (h : FarKept k y s t) (g : FarKept k y t u) : FarKept k y s u :=
  ⟨fun e he => g.agenda e (h.agenda e he), fun e he ho => g.performed e (h.performed e he ho) ho⟩

theorem farKept_startFar (k y : Nat) (s : State) (x : Nat) : FarKept k y s (startFar s k x) := by
  obtain ⟨a, ha, -, h⟩ := startFar_eq s k x
  refine ⟨fun e he => h ▸ ha e he, fun e he ho => ?_⟩
  by_cases hx : y = x
  · subst hx
    rw [startFar_farq]
    exact farDues_performed he ho
  · rw [h]
    show e ∈ ((farTurned s k x).ctx k y).farq
    rwa [farTurned, ctx_modCtx_other s k _ hx]

theorem farKept_wakeFar (k y : Nat) (s : State) (x : Nat) : FarKept k y s (wakeFar s k x) := by
  have hl : ∀ (l : Tab Ctx), FarKept k y s (l.foldl (fun s p => startFar s k p.1) s) := by
    intro l
    induction l generalizing s with
    | nil => exact .refl k y s
    | cons p l ih => exact (farKept_startFar k y s p.1).trans (ih _)
  rw [wakeFar]
  split_ifs
  · exact hl _
  · exact farKept_startFar k y s x

/-! ### The performance at the home -/

/-- Ticks from a core to the home of a line, and back. -/
def homeTicks (s : State) (k l : Nat) : Nat := if dieOf k = s.homeDie k l then Config.homeDie else Config.homePkg

/-- What no step of a fold changes, the fold leaves alone. -/
theorem foldl_keeps {α β : Type} {f : State → α → State} (g : State → β) (h : ∀ s a, g (f s a) = g s) (l : List α) (s : State) : g (l.foldl f s) = g s := by
  induction l generalizing s with
  | nil => rfl
  | cons a l ih => exact (ih _).trans (h s a)

section
variable (s : State) (lines : List Nat) (o : Option Nat)

theorem invalidate_tick : (s.invalidate lines o).tick = s.tick := foldl_keeps State.tick wakeAgent_tick _ s

theorem invalidate_ctx (k x : Nat) : (s.invalidate lines o).ctx k x = s.ctx k x := foldl_keeps (·.ctx k x) (wakeAgent_ctx · · k x) _ s

theorem invalidate_hub : (s.invalidate lines o).hub = s.hub := by
  refine foldl_keeps State.hub (fun s j => ?_) _ s
  unfold wakeAgent
  split <;> rfl

end

/-- A far atomic as it reads and writes its word, before its reply leaves (R259, R260). -/
def farWritten (s : State) (k x pa : Nat) (e : FarEntry) : State :=
  let t := if (tabFind s.dir (pa / 64)).isNone then s.charge (s.clsOf k) 0 1 else s
  if e.op = 11 then t else (t.putMem pa (toBytes 8 (farNew e.op (memWord s.mem pa) e.v e.c).1.toNat)).invalidate [pa / 64]
    (if (s.ctx k x).leases? s.tick (pa / 64) then some k else none)

section
variable (s : State) (k y pa : Nat) (e : FarEntry)

theorem farWritten_keeps : (farWritten s k y pa e).tick = s.tick ∧ (farWritten s k y pa e).ctx k y = s.ctx k y ∧ (farWritten s k y pa e).hub = s.hub := by
  unfold farWritten
  dsimp only
  refine ⟨?_, ?_, ?_⟩
  · rw [apply_ite State.tick, invalidate_tick]
    split_ifs <;> rfl
  · rw [apply_ite (State.ctx · k y), invalidate_ctx]
    split_ifs <;> rfl
  · rw [apply_ite State.hub, invalidate_hub]
    split_ifs <;> rfl

theorem farWritten_mem : (farWritten s k y pa e).mem = if e.op = 11 then s.mem else memPut s.mem pa (toBytes 8 (farNew e.op (memWord s.mem pa) e.v e.c).1.toNat) := by
  unfold farWritten
  dsimp only
  rw [apply_ite State.mem, invalidate_mem]
  split_ifs <;> rfl

/-- An entry that has been performed, with its old value and its flags, and the tick in which they are back. -/
def farPerformed (e : FarEntry) (w : Word) (fl : Flags) (due : Nat) : FarEntry := { e with old := some (w, fl), due := some due }

/-- The reply of a far atomic leaves with the old value and the flags (R260). -/
def farReplied (w : Word) (fl : Flags) (lat : Nat) : State :=
  (s.modCtx k y fun v => { v with farq := v.farq.set ((s.ctx k y).farq.idxOf e) (farPerformed e w fl (s.tick + lat)) }).post lat
    (.farAtomicReply (cid k) (xid y) none)

theorem farReplied_farq (w : Word) (fl : Flags) (lat : Nat) : ((farReplied s k y e w fl lat).ctx k y).farq =
    (s.ctx k y).farq.set ((s.ctx k y).farq.idxOf e) (farPerformed e w fl (s.tick + lat)) :=
  congrArg Ctx.farq (ctx_modCtx s k y fun v => { v with farq := v.farq.set ((s.ctx k y).farq.idxOf e) (farPerformed e w fl (s.tick + lat)) })

theorem farDone_eq : farDone s k y pa e = wakeFar (farReplied (farWritten s k y pa e) k y e (memWord s.mem pa) (farNew e.op (memWord s.mem pa) e.v e.c).2
    (homeTicks s k (pa / 64))) k y := by
  have hd : homeTicks (farWritten s k y pa e) k (pa / 64) = homeTicks s k (pa / 64) := by
    obtain ⟨-, -, hh⟩ := farWritten_keeps s k y pa e
    rw [homeTicks, State.homeDie, State.part, State.partOf, State.partOfDie, State.part, State.part, State.part, hh]
    rfl
  rw [← hd]
  rfl

theorem farDone_mem : (farDone s k y pa e).mem = if e.op = 11 then s.mem else memPut s.mem pa (toBytes 8 (farNew e.op (memWord s.mem pa) e.v e.c).1.toNat) := by
  rw [farDone_eq, wakeFar_mem]
  exact farWritten_mem s k y pa e

theorem farDone_queue (he : e ∈ (s.ctx k y).farq) :
    farPerformed e (memWord s.mem pa) (farNew e.op (memWord s.mem pa) e.v e.c).2 (s.tick + homeTicks s k (pa / 64)) ∈ ((farDone s k y pa e).ctx k y).farq := by
  obtain ⟨ht, hc, -⟩ := farWritten_keeps s k y pa e
  rw [farDone_eq]
  refine (farKept_wakeFar k y _ y).performed _ ?_ rfl
  rw [farReplied_farq, hc, ht]
  exact List.mem_set (List.idxOf_lt_length_of_mem he) _

theorem farDone_agenda : (2 * (s.tick + homeTicks s k (pa / 64)), .farAtomicReply (cid k) (xid y) none) ∈ (farDone s k y pa e).agenda := by
  obtain ⟨ht, -, -⟩ := farWritten_keeps s k y pa e
  rw [farDone_eq, ← ht]
  exact (farKept_wakeFar k y _ y).agenda _ ((mem_agendaAdd ..).2 (.inl rfl))

end

/-! ### The turn -/

/-- A far atomic at its word's home, in state `t`: what it waits for there, in the order in which it is looked at, or its performance (R218, R255,
R261); `leased` says whether its context leases the line. -/
def farHome (t : State) (c : CoreId) (x : CtxId) (leased : Bool) (pa : Nat) (e : FarEntry) : Out :=
  let k := c.toNat
  let i := Instr.farAtomicPerform c x
  let l := pa / 64
  if !leased && t.behind i [lineKey l] then .next (t.hold i [lineKey l] 1)
  else if t.leaseHeld (· == l) (some (k, x.toNat)) || (e.op != 11 && t.writeHeld (t.near k) [l] (some (k, x.toNat)) false) then
    .next (t.hold i [lineKey l] 1)
  else
    match t.needPage pa k (e.op != 11) with
    | some u => .next (u.hold i [lineKey l] 1)
    | none =>
      match probeStopped t k l (e.op != 11) with
      | some (n, u) => .next (u.hold i [lineKey l] n)
      | none =>
        if (tabFind t.dir l).isNone && t.meterOut k 0 then .next (t.hold i [lineKey l] 1)
        else .next (farDone (if e.op = 11 then t.unhold i else (t.squashIn (t.near k) (meetsTrick t.tick [l]) none).unhold i) k x.toNat pa e)

section
variable {s t : State} {c : CoreId} {x : CtxId} {n pa : Nat} {e : FarEntry} {te : TlbEntry} (hn : nextFar s c.toNat x.toNat [] (s.ctx c.toNat x.toNat).farq = some (n, e))
  (hr : e.refused = none) (hw : s.walkWaits c.toNat (s.clsOf c.toNat) (s.core c.toNat).vmroot e.addr.toNat = false)
  (ha : farAddress (s.payWalk c.toNat (s.clsOf c.toNat) (s.core c.toNat).vmroot e.addr.toNat) c.toNat x.toNat e = .ok (pa, te, t)) (hp : t.podRemote pa = false)
include hn hr hw ha hp

theorem exec_farAtomicPerform_home :
    exec (.farAtomicPerform c x) s = farHome t c x ((s.ctx c.toNat x.toNat).leases? t.tick (pa / 64)) pa e := by
  show execFarAtomicPerform c x s = _
  rw [execFarAtomicPerform, hn]
  dsimp only
  nth_rewrite 1 [hr]
  dsimp only
  rw [if_neg (ne_true_of_eq_false hw), ha]
  dsimp only
  rw [if_neg (ne_true_of_eq_false hp)]
  rfl

theorem exec_farAtomicPerform_waits (h : ((s.ctx c.toNat x.toNat).leases? t.tick (pa / 64) = false ∧ t.behind (.farAtomicPerform c x) [lineKey (pa / 64)] = true) ∨
    t.leaseHeld (· == pa / 64) (some (c.toNat, x.toNat)) = true ∨ (e.op ≠ 11 ∧ t.writeHeld (t.near c.toNat) [pa / 64] (some (c.toNat, x.toNat)) false = true)) :
    exec (.farAtomicPerform c x) s = .next (t.hold (.farAtomicPerform c x) [lineKey (pa / 64)] 1) := by
  rw [exec_farAtomicPerform_home hn hr hw ha hp, farHome]
  rcases h with ⟨h1, h2⟩ | h | ⟨ho, h⟩
  · rw [h1, h2]
    rfl
  · rw [h, Bool.true_or, if_pos rfl, ite_self]
  · rw [h, bne_iff_ne.2 ho, Bool.true_and, Bool.or_true, if_pos rfl, ite_self]

theorem exec_farAtomicPerform_performed (h : ¬ (((s.ctx c.toNat x.toNat).leases? t.tick (pa / 64) = false ∧ t.behind (.farAtomicPerform c x) [lineKey (pa / 64)] = true) ∨
      t.leaseHeld (· == pa / 64) (some (c.toNat, x.toNat)) = true ∨ (e.op ≠ 11 ∧ t.writeHeld (t.near c.toNat) [pa / 64] (some (c.toNat, x.toNat)) false = true)))
    (hg : t.needPage pa c.toNat (e.op != 11) = none) (hs : probeStopped t c.toNat (pa / 64) (e.op != 11) = none)
    (hm : (tabFind t.dir (pa / 64)).isSome = true ∨ t.meterOut c.toNat 0 = false) : exec (.farAtomicPerform c x) s =
      .next (farDone (if e.op = 11 then t.unhold (.farAtomicPerform c x) else
        (t.squashIn (t.near c.toNat) (meetsTrick t.tick [pa / 64]) none).unhold (.farAtomicPerform c x)) c.toNat x.toNat pa e) := by
  obtain ⟨h1, h2, h3⟩ : _ ∧ _ ∧ _ := ⟨fun a => h (.inl a), fun a => h (.inr (.inl a)), fun a => h (.inr (.inr a))⟩
  have g1 : ¬ (!(s.ctx c.toNat x.toNat).leases? t.tick (pa / 64) && t.behind (.farAtomicPerform c x) [lineKey (pa / 64)]) = true := by
    simpa using h1
  have g2 : ¬ (t.leaseHeld (· == pa / 64) (some (c.toNat, x.toNat)) ||
      (e.op != 11 && t.writeHeld (t.near c.toNat) [pa / 64] (some (c.toNat, x.toNat)) false)) = true := by
    rw [Bool.or_eq_true, Bool.and_eq_true, bne_iff_ne]
    exact not_or.2 ⟨h2, h3⟩
  have g3 : ¬ ((tabFind t.dir (pa / 64)).isNone && t.meterOut c.toNat 0) = true := by
    rcases hm with hm | hm
    · rw [Option.isNone_eq_false_iff.2 hm]
      exact Bool.false_ne_true
    · rw [hm, Bool.and_false]
      exact Bool.false_ne_true
  rw [exec_farAtomicPerform_home hn hr hw ha hp, farHome, if_neg g1, if_neg g2, hg]
  dsimp only
  rw [hs]
  dsimp only
  rw [if_neg g3]

end

/-! ### The register -/

section
variable (s : State) (k y : Nat) (d : GReg) (w : Word) (fl : Flags)

theorem writeThrough_mem (q : Option Nat) : (writeThrough s k y d q w fl).mem = s.mem := rfl

theorem writeThrough_core (q : Option Nat) : ∃ v : Ctx, (writeThrough s k y d q w fl).core k = (match q with
    | some q => { s.core k with q := tabSet (s.core k).q q (tabGet (s.core k).q q [] ++ [w]) }
    | none => setG (s.core k) (s.ctx k y) d w).setCtx y v ∧ v = { s.ctx k y with cflags := (s.ctx k y).cflags ||| fl.setWidth 64, running := v.running, pending := v.pending } :=
  ⟨_, core_setCore .., rfl⟩

theorem writeThrough_cflags (q : Option Nat) : ((writeThrough s k y d q w fl).ctx k y).cflags = (s.ctx k y).cflags ||| fl.setWidth 64 := by
  obtain ⟨v, hc, hv⟩ := writeThrough_core s k y d w fl q
  rw [State.ctx, hc, core_ctx_setCtx, hv]

theorem writeThrough_rawG (j : GReg) : rawG ((writeThrough s k y d none w fl).core k) ((writeThrough s k y d none w fl).ctx k y) j =
    rawG (setG (s.core k) (s.ctx k y) d w) (s.ctx k y) j := by
  obtain ⟨v, hc, hv⟩ := writeThrough_core s k y d w fl none
  rw [State.ctx, hc, core_ctx_setCtx, hv]
  rfl

theorem writeThrough_queue (q : Nat) : tabGet ((writeThrough s k y d (some q) w fl).core k).q q [] = tabGet (s.core k).q q [] ++ [w] ∧
    ((writeThrough s k y d (some q) w fl).core k).store = (s.core k).store := by
  obtain ⟨v, hc, -⟩ := writeThrough_core s k y d w fl (some q)
  rw [hc]
  exact ⟨tabGet_tabSet_same .., rfl⟩

end

/-! ### The turns that a change of the queue gives -/

section
variable {s : State} {k y : Nat} {e : FarEntry} {r : List FarEntry} (hd : (s.core k).det = false) (hq : (s.ctx k y).farq = e :: r)
include hq

section
variable (h1 : e.old = none) (h2 : e.fault = none) (h3 : e.sent = none) (h4 : e.due = none)
include hd h1 h2 h3 h4

theorem farDues_first : farDues s k y [] (s.ctx k y).farq = { e with due := some (s.tick + farLatency s k e) } :: farDues s k y [e] r := by
  rw [hq, farDues, farReady_first hd h1 h2 h3, Bool.true_and, if_pos (Option.isNone_iff_eq_none.2 h4)]
  rfl

theorem startFar_first : ∃ f, ((startFar s k y).ctx k y).farq.head? = some f ∧ f.due = some (s.tick + farLatency s k e) := by
  rw [startFar_farq, farDues_first hd hq h1 h2 h3 h4]
  exact ⟨_, rfl, rfl⟩

theorem startFar_posts : (2 * (s.tick + farLatency s k e), .farAtomicPerform (cid k) (xid y)) ∈ (startFar s k y).agenda := by
  obtain ⟨a, -, ha, h⟩ := startFar_eq s k y
  have ht : s.tick + farLatency s k e ∈ farTicks s k y := by
    rw [farTicks, farDues_first hd hq h1 h2 h3 h4, hq]
    refine List.mem_filterMap.2 ⟨_, List.mem_cons_self, ?_⟩
    dsimp only
    rw [h4]
    rfl
  have := ha _ ht
  rw [Nat.add_sub_cancel_left] at this
  rw [h]
  exact this

end

/-- No ordered entry behind the first one has its turn before that one is performed (R261). -/
theorem startFar_ordered (ho : e.old = none) {n : Nat} {f g : FarEntry} (hf : (s.ctx k y).farq[n]? = some f) (hg : ((startFar s k y).ctx k y).farq[n]? = some g)
    (hn : n ≠ 0) (hf' : f.ord = true) : g = f := by
  have he : e ∈ [] ++ (s.ctx k y).farq.take n := by
    rw [hq, List.nil_append]
    obtain ⟨m, rfl⟩ := Nat.exists_eq_succ_of_ne_zero hn
    exact List.mem_cons_self
  rw [startFar_farq, farDues_getElem, hf, Option.map_some, farReady_ordered hf' he ho] at hg
  exact (Option.some.inj hg).symm

end

/-- Settles O35: the units by their operands, the new words case by case, an entry by its turn, its performance and its reply. -/
theorem farAtomics : Obligations.FarAtomics := by
  unfold Obligations.FarAtomics
  refine ⟨⟨fun d s1 s2 sc o => ?_, fun old v c => ?_⟩, ?_, ?_, ?_, ?_, ?_⟩
  · exact ⟨farAtomic_unit fun _ => rfl, farAtomic_unit fun _ => rfl, farAtomic_unit fun _ => rfl, farAtomic_unit fun _ => rfl, farAtomic_unit fun _ => rfl,
      farAtomic_unit fun _ => rfl, farAtomic_unit fun _ => rfl, farAtomic_unit fun _ => rfl, farAtomic_unit fun _ => rfl, farAtomic_unit fun _ => rfl,
      farAtomic_unit fun _ => rfl, farAtomic_unit fun _ => rfl⟩
  · obtain ⟨h4, h5⟩ := farNew_signed old v c
    obtain ⟨h6, h7⟩ := farNew_unsigned old v c
    exact ⟨rfl, rfl, rfl, rfl, h4, h5, h6, h7, rfl, rfl, rfl, rfl, fun op => farNew_flags old v c⟩
  · intro s t c x i e pa te k y root hn hr hw ha hp
    refine ⟨exec_farAtomicPerform_waits hn hr hw ha hp, fun hh hg hs hm => ?_⟩
    have h := exec_farAtomicPerform_performed hn hr hw ha hp hh hg hs hm
    exact ⟨fun ho => by rw [h, if_pos ho], fun ho => by rw [h, if_neg ho]⟩
  · intro s k y pa e
    refine ⟨fun ho => ?_, fun ho => ?_, farDone_queue s k y pa e, farDone_agenda s k y pa e⟩
    · rw [farDone_mem, if_pos ho]
    · rw [farDone_mem, if_neg ho]
  · intro s c x e w fl k y hf ho
    show execFarAtomicReply c x none s = _
    rw [execFarAtomicReply, hf]
    dsimp only
    nth_rewrite 1 [ho]
    rfl
  · intro s k y hd hall e r hq
    obtain ⟨h1, h2, h3, h4, -⟩ := hall e (hq ▸ List.mem_cons_self)
    exact ⟨startFar_first hd hq h1 h2 h3 h4, startFar_posts hd hq h1 h2 h3 h4, fun n f g hf hg hn ho => startFar_ordered hq h1 hf hg hn ho⟩
  · intro s k y d w fl
    refine ⟨fun hd hm => ?_, fun q => ?_⟩
    · refine ⟨?_, fun j hj => ?_, writeThrough_cflags s k y d w fl none, rfl⟩
      · rw [writeThrough_rawG, rawG_setG_same _ _ hm hd]
      · rw [writeThrough_rawG, rawG_setG_other _ _ hm hj]
    · obtain ⟨h1, h2⟩ := writeThrough_queue s k y d w fl q
      exact ⟨h1, h2, writeThrough_cflags s k y d w fl (some q), rfl⟩

end Sys2Proof.Proofs
end

