-- ==== Sys2Proof/Proofs/HostRequests.lean ====
section
/-! PROOF. Doorbells, posted writes, reads from outside, attestation and debug unlock (R236, R271, R456, R459 to R464, R482). -/

namespace Sys2Proof.Proofs
open Sys2Proof Sys2Proof.Machine Sys2Proof.Laws

/-! ### Doorbell slots -/

theorem postedFree_iff {s : State} {r : BitVec 16} :
    (postedBefore s r || decide (s.hub.posted.length ≥ Config.postedWindow)) = true ↔ ¬ (postedBefore s r = false ∧ s.hub.posted.length < 256) := by
  rw [Bool.or_eq_true, decide_eq_true_eq, not_and_or, Bool.not_eq_false, Nat.not_lt]
  rfl

theorem writeSlots_nil (r : BitVec 16) (k n off : Nat) (s : State) : writeSlots r k n off [] s = s := by cases n <;> rfl

section
variable {s : State} {r : BitVec 16} {k off : Nat} {bs : List Byte} (he : (s.vf k).enabled = true)
include he

/-- Bytes of one slot: they reach it if its queue is one of the function's (R464). -/
theorem ringSlots_one (hl : off % 128 + bs.length ≤ 128) (hb : bs ≠ []) : ringSlots s r k off bs =
    if (s.vf k).qfirst + off / 128 ≤ (s.vf k).qlast then writeSlotBytes s r k ((s.vf k).qfirst + off / 128) (off % 128) bs else s := by
  have hm : min bs.length (128 - off % 128) = bs.length := by omega
  rw [ringSlots, if_pos he, writeSlots, if_neg (by simpa using hb)]
  dsimp only
  rw [hm, List.take_length, List.drop_length, writeSlots_nil]

theorem ringSlots_beyond (hl : off % 128 + bs.length ≤ 128) (hq : (s.vf k).qlast < (s.vf k).qfirst + off / 128) : ringSlots s r k off bs = s := by
  by_cases hb : bs = []
  · rw [ringSlots, if_pos he, hb, writeSlots_nil]
  · rw [ringSlots_one he hl hb, if_neg (Nat.not_le.2 hq)]

end

/-- The bytes of a slot with those of a write in their places (R464). -/
def slotMerged (m : Tab Byte) (o : Nat) (bs : List Byte) : Tab Byte := (List.range bs.length).foldl (fun m i => tabSet m (o + i) (bs.getD i 0#8)) m

theorem tabGet_foldl_tabSet (bs : List Byte) (m : Tab Byte) (o n i : Nat) :
    tabGet ((List.range n).foldl (fun m i => tabSet m (o + i) (bs.getD i 0#8)) m) i 0#8 =
      if o ≤ i ∧ i < o + n then bs.getD (i - o) 0#8 else tabGet m i 0#8 := by
  induction n with
  | zero => rw [if_neg (by omega)]; rfl
  | succ n ih =>
    rw [List.range_succ, List.foldl_append, List.foldl_cons, List.foldl_nil]
    by_cases h : i = o + n
    · rw [h, tabGet_tabSet_same, if_pos (by omega), Nat.add_sub_cancel_left]
    · rw [tabGet_tabSet_other _ _ _ h, ih]
      exact if_congr (by omega) rfl rfl

theorem slotMerged_get (m : Tab Byte) (o : Nat) (bs : List Byte) (i : Nat) :
    tabGet (slotMerged m o bs) i 0#8 = if o ≤ i ∧ i < o + bs.length then bs.getD (i - o) 0#8 else tabGet m i 0#8 := tabGet_foldl_tabSet ..

/-- A function's slot is put in place of the old one. -/
def slotPut (s : State) (k q : Nat) (t : Slot) : State := s.modVf k fun v => { v with slots := tabSet v.slots q t }

theorem slotPut_slot (s : State) (k q : Nat) (t : Slot) : tabGet ((slotPut s k q t).vf k).slots q {} = t := by
  rw [slotPut, vf_modVf]
  exact tabGet_tabSet_same ..

section
variable {s : State} {r : BitVec 16} {k q o : Nat} {bs : List Byte}

theorem writeSlotBytes_part (h : o + bs.length < 128) : writeSlotBytes s r k q o bs =
    slotPut s k q { tabGet (s.vf k).slots q {} with bytes := slotMerged (tabGet (s.vf k).slots q {}).bytes o bs } := by
  rw [writeSlotBytes]
  exact if_pos h

/-- The last byte of a slot triggers it with the entry of its 128 bytes (R464). -/
theorem writeSlotBytes_last (h : o + bs.length = 128) : let t := tabGet (s.vf k).slots q {}; let m := slotMerged t.bytes o bs
    writeSlotBytes s r k q o bs = (slotPut s k q { t with bytes := [], sent := t.sent ++ [(r, (List.range 128).map fun i => tabGet m i 0#8)] }).postPoll Config.homePkg
      (.doorbellTrigger (BitVec.ofNat 6 k) (BitVec.ofNat 12 q)) := by
  rw [writeSlotBytes]
  exact if_neg (by omega)

end

/-! ### Triggers -/

theorem dealerLooks_eq (s : State) (q : Nat) : ∃ a, dealerLooks s q = { s with agenda := a } := by
  rw [dealerLooks]
  exact (ite_eq_or_eq _ _ _).elim (fun h => ⟨_, h⟩) fun h => ⟨_, h⟩

/-- A trigger that has been handled leaves its slot, with its outcome and counted; a refused one is counted by its function too (R456, R464). -/
def triggerNoted (s : State) (k q : Nat) (rest : List (BitVec 16 × List Byte)) (r : Nat) : State :=
  let t := tabGet (s.vf k).slots q {}
  s.modVf k fun v => { v with slots := tabSet v.slots q { t with sent := rest, count := t.count + 1, outcome := BitVec.ofNat 8 r },
                              drops := if r = 1 then v.drops else v.drops + 1 }

section
variable {s : State} {f : BitVec 6} {q : QueueId} {r : BitVec 16} {e : List Byte} {rest : List (BitVec 16 × List Byte)}

theorem triggerNoted_slot (s : State) (k q : Nat) (rest : List (BitVec 16 × List Byte)) (r : Nat) :
    let a := tabGet ((triggerNoted s k q rest r).vf k).slots q {}
    a.sent = rest ∧ a.count = (tabGet (s.vf k).slots q {}).count + 1 ∧ a.outcome = BitVec.ofNat 8 r := by
  intro a
  have ha : a = { tabGet (s.vf k).slots q {} with sent := rest, count := (tabGet (s.vf k).slots q {}).count + 1, outcome := BitVec.ofNat 8 r } := by
    show tabGet ((State.modVf _ k _).vf k).slots q {} = _
    rw [vf_modVf]
    exact tabGet_tabSet_same ..
  rw [ha]
  exact ⟨rfl, rfl, rfl⟩

/-- The causes of a refusal, in the order in which they are looked at (R464). -/
theorem triggerOutcome_eq (s : State) (k q : Nat) : triggerOutcome s k q = if s.partOfDie (q / 1024) ≠ (s.vf k).part then 4 else if s.mode (s.vf k).part ≠ 1 then 5
    else if (s.squeue q).en = false ∨ (s.squeue q).host = false then 3 else if (s.squeue q).capacity ≤ (s.squeue q).items.length then 2 else 1 := by
  rw [triggerOutcome]
  simp only [Bool.or_eq_true, Bool.not_eq_true', ge_iff_le]

theorem triggerNoted_drops (s : State) (k q : Nat) (rest : List (BitVec 16 × List Byte)) (r : Nat) :
    ((triggerNoted s k q rest r).vf k).drops = if r = 1 then (s.vf k).drops else (s.vf k).drops + 1 :=
  congrArg Vf.drops (vf_modVf s k _)

theorem exec_doorbellTrigger (h : (tabGet (s.vf f.toNat).slots q.toNat {}).sent = (r, e) :: rest) :
    let o := triggerOutcome s f.toNat q.toNat; let u := triggerNoted s f.toNat q.toNat rest o
    exec (.doorbellTrigger f q) s =
      if o = 1 then .next (dealerLooks (u.modSqueue q.toNat fun t => { t with items := t.items ++ [e.take t.entry] }) q.toNat)
      else if o = 4 then .next (u.discard (some (u.vf f.toNat).part) Config.hub 0 0x0A 5 [BitVec.ofNat 64 q.toNat, BitVec.ofNat 64 f.toNat])
      else .next u := by
  show execDoorbellTrigger f q s = _
  rw [execDoorbellTrigger]
  dsimp only
  nth_rewrite 1 [h]
  rfl

end

section
variable {s : State} {f : BitVec 6} {q : QueueId} {r : BitVec 16} {e : List Byte} {rest : List (BitVec 16 × List Byte)}
  (h : (tabGet (s.vf f.toNat).slots q.toNat {}).sent = (r, e) :: rest)
include h

/-- A refused trigger changes no queue (R456, R464). -/
theorem doorbellTrigger_refused {o : Nat} (ho : triggerOutcome s f.toNat q.toNat = o) (h1 : o ≠ 1) (h4 : o ≠ 4) : ∃ t, exec (.doorbellTrigger f q) s = .next t ∧
    t.mem = s.mem ∧ t.cores = s.cores ∧ let a := tabGet (t.vf f.toNat).slots q.toNat {}
      a.sent = rest ∧ a.count = (tabGet (s.vf f.toNat).slots q.toNat {}).count + 1 ∧ a.outcome = BitVec.ofNat 8 o ∧
      t.squeues = s.squeues ∧ (t.vf f.toNat).drops = (s.vf f.toNat).drops + 1 ∧ t.dies = s.dies := by
  obtain ⟨hr, hc, hn⟩ := triggerNoted_slot s f.toNat q.toNat rest o
  have hd := (triggerNoted_drops s f.toNat q.toNat rest o).trans (if_neg h1)
  have hx := exec_doorbellTrigger h
  dsimp only at hx
  rw [ho, if_neg h1, if_neg h4] at hx
  exact ⟨_, hx, rfl, rfl, hr, hc, hn, rfl, hd, rfl⟩

/-- A trigger of a queue of another partition is recorded besides (R456). -/
theorem doorbellTrigger_recorded (ho : triggerOutcome s f.toNat q.toNat = 4) : ∃ t, exec (.doorbellTrigger f q) s = .next t ∧
    t.mem = s.mem ∧ t.cores = s.cores ∧ let a := tabGet (t.vf f.toNat).slots q.toNat {}
      a.sent = rest ∧ a.count = (tabGet (s.vf f.toNat).slots q.toNat {}).count + 1 ∧ a.outcome = 4#8 ∧
      t.squeues = s.squeues ∧ (t.vf f.toNat).drops = (s.vf f.toNat).drops + 1 := by
  obtain ⟨hr, hc, hn⟩ := triggerNoted_slot s f.toNat q.toNat rest 4
  have hd := (triggerNoted_drops s f.toNat q.toNat rest 4).trans (if_neg (by decide))
  have hx := exec_doorbellTrigger h
  dsimp only at hx
  rw [ho, if_neg (by decide), if_pos rfl] at hx
  obtain ⟨d, hd'⟩ := discard_eq (triggerNoted s f.toNat q.toNat rest 4) (some ((triggerNoted s f.toNat q.toNat rest 4).vf f.toNat).part) Config.hub 0 0x0A 5
    [BitVec.ofNat 64 q.toNat, BitVec.ofNat 64 f.toNat]
  rw [hd'] at hx
  exact ⟨_, hx, rfl, rfl, hr, hc, hn, rfl, hd⟩

/-- A trigger that is taken enters its queue as an entry of the queue's length (R464). -/
theorem doorbellTrigger_enqueued (ho : triggerOutcome s f.toNat q.toNat = 1) : ∃ t, exec (.doorbellTrigger f q) s = .next t ∧
    t.mem = s.mem ∧ t.cores = s.cores ∧ let a := tabGet (t.vf f.toNat).slots q.toNat {}
      a.sent = rest ∧ a.count = (tabGet (s.vf f.toNat).slots q.toNat {}).count + 1 ∧ a.outcome = 1#8 ∧
      (t.squeue q.toNat).items = (s.squeue q.toNat).items ++ [e.take (s.squeue q.toNat).entry] ∧ (t.vf f.toNat).drops = (s.vf f.toNat).drops ∧ t.dies = s.dies := by
  obtain ⟨hr, hc, hn⟩ := triggerNoted_slot s f.toNat q.toNat rest 1
  have hd := (triggerNoted_drops s f.toNat q.toNat rest 1).trans (if_pos rfl)
  have hx := exec_doorbellTrigger h
  dsimp only at hx
  rw [ho, if_pos rfl] at hx
  obtain ⟨a, ha⟩ := dealerLooks_eq ((triggerNoted s f.toNat q.toNat rest 1).modSqueue q.toNat fun t => { t with items := t.items ++ [e.take t.entry] }) q.toNat
  rw [ha] at hx
  exact ⟨_, hx, rfl, rfl, hr, hc, hn, congrArg SliceQueue.items (tabGet_tabSet_same ..), hd, rfl⟩

end

/-! ### Status words -/

theorem toNat_slotWord (c : BitVec 48) (o : BitVec 8) : (c ++ 0#8 ++ o : Word).toNat = c.toNat * 2 ^ 16 + o.toNat := by
  rw [BitVec.toNat_append, BitVec.toNat_append, ← Nat.shiftLeft_add_eq_or_of_lt (BitVec.isLt _), ← Nat.shiftLeft_add_eq_or_of_lt (BitVec.isLt _),
    Nat.shiftLeft_eq, Nat.shiftLeft_eq, BitVec.toNat_ofNat]
  omega

theorem slotWord_inside {s : State} {k q : Nat} (he : (s.vf k).enabled = true) (h1 : (s.vf k).qfirst ≤ q) (h2 : q ≤ (s.vf k).qlast) :
    slotWord s k q = (tabGet (s.vf k).slots q {}).count ++ 0#8 ++ (tabGet (s.vf k).slots q {}).outcome :=
  if_pos (by rw [he, decide_eq_true ⟨h1, h2⟩]; rfl)

theorem exec_doorbellStatusRead {s : State} {r : BitVec 16} {f : BitVec 6} {q : QueueId} (h1 : postedBefore s r = false) (h2 : triggered s r = false) :
    exec (.doorbellStatusRead r f q) s = .next { s with out := s.out ++ [.reply r (toBytes 8 (slotWord s f.toNat q.toNat).toNat)] } := by
  show execDoorbellStatusRead r f q s = _
  rw [execDoorbellStatusRead, slotWaits, h1, h2]
  rfl

/-! ### Posted writes -/

/-- The one posted write of a requester that the hub holds leaves it: the hub is as it was before that write (R236). -/
theorem popPosted_last {s t : State} {r : BitVec 16} {place : HostAddress} {bs : List Byte} (hf : postedBefore s r = false) (hl : s.hub.posted.length < 256)
    (ht : t.hub.posted = s.hub.posted ++ [(r, place, bs)]) : popPosted t (r, place, bs) = t.modHub fun h => { h with posted := s.hub.posted } := by
  have hn : (r, place, bs) ∉ s.hub.posted := fun h => by
    rw [postedBefore, List.any_eq_false] at hf
    exact hf _ h (beq_self_eq_true r)
  have hd : (t.hub.posted.drop Config.postedWindow).head? = none := by
    rw [ht, List.drop_eq_nil_of_le (by rw [List.length_append]; exact hl)]
    rfl
  rw [popPosted, hd]
  dsimp only
  rw [State.modHub, ht, List.erase_append_right _ hn, List.erase_cons_head, List.append_nil]
  rfl

theorem popPosted_keeps {s t : State} {r : BitVec 16} {place : HostAddress} {bs : List Byte} (hf : postedBefore s r = false) (hl : s.hub.posted.length < 256)
    (ht : t.hub.posted = s.hub.posted ++ [(r, place, bs)]) : (popPosted t (r, place, bs)).mem = t.mem ∧ (popPosted t (r, place, bs)).hub.posted = s.hub.posted := by
  rw [popPosted_last hf hl ht]
  exact ⟨rfl, rfl⟩

section
variable {s : State} {r : BitVec 16} {place : HostAddress} {bs : List Byte} (hb : bs ≠ [])
include hb

theorem exec_hostPostedWrite_behind (hf : postedBefore s r = true) : exec (.hostPostedWrite r place bs) s = .next (s.addPosted r place bs) := by
  show execHostPostedWrite r place bs s = _
  rw [execHostPostedWrite, if_neg (by simpa using hb), hf]
  rfl

variable (hf : postedBefore s r = false)
include hf

theorem exec_hostPostedWrite_first : exec (.hostPostedWrite r place bs) s = .next (drainPosted r 1 (s.addPosted r place bs)) := by
  show execHostPostedWrite r place bs s = _
  rw [execHostPostedWrite, if_neg (by simpa using hb), hf]
  rfl

omit hb in
theorem find_posted (n : Nat) : (s.hub.posted.take n).find? (fun e => e.1 == r) = none := by
  rw [List.find?_eq_none]
  rw [postedBefore, List.any_eq_false] at hf
  exact fun e he => hf e (List.mem_of_mem_take he)

/-- The hub takes 256 posted writes at a time (R26, R236). -/
theorem exec_hostPostedWrite_full (hl : 256 ≤ s.hub.posted.length) :
    exec (.hostPostedWrite r place bs) s = .next ((s.addPosted r place bs).unhold (postedAgain r)) := by
  have h : ((s.addPosted r place bs).hub.posted.take Config.postedWindow).find? (fun e => e.1 == r) = none := by
    rw [show (s.addPosted r place bs).hub.posted = s.hub.posted ++ [(r, place, bs)] from rfl, List.take_append_of_le_length (by exact hl)]
    exact find_posted hf _
  rw [exec_hostPostedWrite_first hb hf, drainPosted, h]

end

/-- A posted write that is the only one of its requester, in a window with room, is the one that goes ahead (R26, R236). -/
theorem find_posted_only {s : State} {r : BitVec 16} {place : HostAddress} {bs : List Byte} (hf : postedBefore s r = false) (hl : s.hub.posted.length < 256) :
    ((s.addPosted r place bs).hub.posted.take Config.postedWindow).find? (fun e => e.1 == r) = some (r, place, bs) := by
  rw [show (s.addPosted r place bs).hub.posted = s.hub.posted ++ [(r, place, bs)] from rfl,
    List.take_of_length_le (by rw [List.length_append]; exact hl), List.find?_append, ← List.take_length (l := s.hub.posted), find_posted hf, Option.none_or]
  exact List.find?_cons_of_pos (beq_self_eq_true r)

section
variable {s : State} {r : BitVec 16} {bs : List Byte} (hf : postedBefore s r = false) (hl : s.hub.posted.length < 256)
include hf hl

theorem popPosted_only (place : HostAddress) (i : Instr) : popPosted ((s.addPosted r place bs).unhold i) (r, place, bs) = s.unhold i :=
  popPosted_last hf hl rfl

theorem drainPosted_bar0 (k : BitVec 6) (o : BitVec 19) :
    drainPosted r 1 (s.addPosted r (.bar0 k o) bs) = ringSlots (s.unhold (postedAgain r)) r k.toNat o.toNat bs := by
  rw [drainPosted, find_posted_only hf hl]
  dsimp only
  rw [popPosted_only hf hl]
  rfl

/-- A posted write to anything but slots waits for the triggers that its requester has sent before (R236, R464). -/
theorem drainPosted_triggered {place : HostAddress} (h0 : ∀ k o, place ≠ .bar0 k o) (h1 : ∀ j, place ≠ .sensor j) (h2 : ∀ k, place ≠ .tdi k)
    (ht : triggered s r = true) : drainPosted r 1 (s.addPosted r place bs) = ((s.addPosted r place bs).unhold (postedAgain r)).postPoll 1 (postedAgain r) := by
  rw [drainPosted, find_posted_only hf hl]
  cases place with
  | bar0 k o => exact absurd rfl (h0 k o)
  | sensor j => exact absurd rfl (h1 j)
  | tdi k => exact absurd rfl (h2 k)
  | bar2 k o => exact if_pos ht
  | device a => exact if_pos ht

variable (ht : triggered s r = false)
include ht

theorem drainPosted_bar2 (k : BitVec 6) (o : BitVec 21) :
    drainPosted r 1 (s.addPosted r (.bar2 k o) bs) = tenantWrite (s.unhold (postedAgain r)) k.toNat o.toNat bs := by
  rw [drainPosted, find_posted_only hf hl]
  refine (if_neg (ne_true_of_eq_false ht)).trans ?_
  dsimp only
  rw [popPosted_only hf hl]
  rfl

/-- A posted write to device memory, by the owner of its address (R236, R271, R466). -/
theorem drainPosted_device (pa : BitVec 52) : let u := s.addPosted r (.device pa) bs; let i := postedAgain r; let a := pa.toNat
    drainPosted r 1 u =
      if a / 2 ^ 42 % 4 = 2 then hubWrite (s.unhold i) a bs
      else if (addressOwner s a).isNone then s.unhold i
      else
        match outsideWrite u i a bs none (1#2 ++ 0#46 ++ r) with
        | .ok t => popPosted (t.unhold i) (r, .device pa, bs)
        | .error (n, t) => t.hold i ((linesOf a bs.length).map lineKey) n := by
  intro u i a
  rw [drainPosted, find_posted_only hf hl]
  refine (if_neg (ne_true_of_eq_false ht)).trans ?_
  dsimp only
  rw [popPosted_only hf hl]
  rfl

end

theorem tenantWrite_status (s : State) (k : Nat) (bs : List Byte) :
    tenantWrite s k 0 bs = s.modVf k fun v => { v with drops := v.drops &&& ~~~(BitVec.ofNat 32 (ofBytes bs)) } := by
  rw [tenantWrite, Nat.pow_zero, Nat.mul_one]

/-- Every other offset of BAR2 ignores a write (R482). -/
theorem tenantWrite_other (s : State) (k : Nat) {o : Nat} (bs : List Byte) (ho : 4 ≤ o) : tenantWrite s k o bs = s.modVf k fun v => v := by
  have hz : BitVec.ofNat 32 (ofBytes bs * 256 ^ o) = 0#32 := by
    obtain ⟨n, rfl⟩ := Nat.exists_eq_add_of_le' ho
    apply BitVec.eq_of_toNat_eq
    rw [BitVec.toNat_ofNat, BitVec.toNat_ofNat, Nat.zero_mod, Nat.pow_add, ← Nat.mul_assoc, show 256 ^ 4 = 2 ^ 32 from rfl, Nat.mul_mod_left]
  have hv : (fun v : Vf => { v with drops := v.drops &&& ~~~(0#32) }) = fun v => v := by
    funext v
    rw [BitVec.not_zero, BitVec.and_allOnes]
  rw [tenantWrite, hz, hv]

/-! ### Writes from outside -/

section
variable {s : State} {i : Instr} {a : Nat} {bs : List Byte} {d : Word}

theorem outsideWrite_closed (h : s.capAt a ≠ .opened) :
    outsideWrite s i a bs none d = .ok (s.discard (addressOwner s a) Config.hub 0 0x0A 6 [BitVec.ofNat 64 a, d]) := by
  have hr : regionOpen s a none = false := by
    rw [regionOpen, beq_eq_false_iff_ne.2 h]
    rfl
  rw [outsideWrite, hr]
  rfl

variable (h : s.capAt a = .opened)
include h

theorem outsideWrite_opened : outsideWrite s i a bs none d = match outsideWaits s i a (linesOf a bs.length) true none with
    | some w => .error w
    | none => match s.writeEvent (s.nearAddress a) (linesOf a bs.length) none false with
      | none => .error (1, s)
      | some t => .ok ((t.putMem a bs).invalidate (linesOf a bs.length) none) := by
  have hr : regionOpen s a none = true := by
    rw [regionOpen, beq_iff_eq.2 h]
    rfl
  rw [outsideWrite, hr]
  rfl

end

theorem trumpGone_hub (s : State) (k : Nat) (was : Bool) : (s.trumpGone k was).hub = s.hub := by
  unfold State.trumpGone
  split <;> rfl

/-- A squash leaves the hub alone. -/
theorem squash_hub (s : State) (k x : Nat) (counted : Bool) : (s.squash k x counted).hub = s.hub := by
  unfold State.squash
  dsimp only
  split
  · rfl
  · exact trumpGone_hub ..

theorem squashIn_hub (s : State) (p : Nat → Bool) (q : Ctx → Trick → Bool) (m : Option (Nat × Nat)) : (s.squashIn p q m).hub = s.hub := by
  refine foldl_keeps State.hub (fun s c => foldl_keeps State.hub (fun s x => ?_) _ s) _ s
  dsimp only
  split_ifs
  · rfl
  · exact squash_hub _ _ _ _
  · exact squash_hub _ _ _ _

theorem writeEvent_hub {s t : State} {p : Nat → Bool} {lines : List Nat} {agent : Option (Nat × Nat)} {byTrick : Bool}
    (h : s.writeEvent p lines agent byTrick = some t) : t.hub = s.hub := by
  rw [State.writeEvent] at h
  split at h
  · cases h
  · cases h
    exact squashIn_hub ..

/-! ### Posted writes to device memory -/

section
variable {s : State} {r : BitVec 16} {bs : List Byte} {pa : BitVec 52} (hf : postedBefore s r = false) (hl : s.hub.posted.length < 256) (ht : triggered s r = false)
  (hr : pa.toNat / 2 ^ 42 % 4 ≠ 2)
include hf hl ht hr

theorem drainPosted_unowned (ho : addressOwner s pa.toNat = none) : drainPosted r 1 (s.addPosted r (.device pa) bs) = s.unhold (postedAgain r) := by
  rw [drainPosted_device hf hl ht, if_neg hr, ho]
  rfl

variable (ho : (addressOwner s pa.toNat).isSome = true)
include ho

theorem drainPosted_owned : drainPosted r 1 (s.addPosted r (.device pa) bs) =
    match outsideWrite (s.addPosted r (.device pa) bs) (postedAgain r) pa.toNat bs none (1#2 ++ 0#46 ++ r) with
    | .ok t => popPosted (t.unhold (postedAgain r)) (r, .device pa, bs)
    | .error (n, t) => t.hold (postedAgain r) ((linesOf pa.toNat bs.length).map lineKey) n := by
  rw [drainPosted_device hf hl ht, if_neg hr, if_neg (ne_true_of_eq_false (Option.isNone_eq_false_iff.2 ho))]

/-- A posted write to a region that is not OPEN is dropped (R271). -/
theorem drainPosted_closed (hc : s.capAt pa.toNat ≠ .opened) :
    (drainPosted r 1 (s.addPosted r (.device pa) bs)).mem = s.mem ∧ (drainPosted r 1 (s.addPosted r (.device pa) bs)).hub.posted = s.hub.posted := by
  rw [drainPosted_owned hf hl ht hr ho, outsideWrite_closed (s := s.addPosted r (.device pa) bs) hc]
  obtain ⟨h1, h2⟩ := popPosted_keeps (t := ((s.addPosted r (.device pa) bs).discard (addressOwner (s.addPosted r (.device pa) bs) pa.toNat) Config.hub 0 0x0A 6
    [BitVec.ofNat 64 pa.toNat, 1#2 ++ 0#46 ++ r]).unhold (postedAgain r)) hf hl (congrArg Hub.posted (discard_hub ..))
  exact ⟨h1.trans (discard_mem ..), h2⟩

variable (hc : s.capAt pa.toNat = .opened)
include hc

theorem drainPosted_waits {n : Nat} {v : State}
    (hw : outsideWaits (s.addPosted r (.device pa) bs) (postedAgain r) pa.toNat (linesOf pa.toNat bs.length) true none = some (n, v)) :
    drainPosted r 1 (s.addPosted r (.device pa) bs) = v.hold (postedAgain r) ((linesOf pa.toNat bs.length).map lineKey) n := by
  rw [drainPosted_owned hf hl ht hr ho, outsideWrite_opened (s := s.addPosted r (.device pa) bs) hc, hw]

variable (hw : outsideWaits (s.addPosted r (.device pa) bs) (postedAgain r) pa.toNat (linesOf pa.toNat bs.length) true none = none)
include hw

theorem drainPosted_held (he : (s.addPosted r (.device pa) bs).writeEvent (s.nearAddress pa.toNat) (linesOf pa.toNat bs.length) none false = none) :
    drainPosted r 1 (s.addPosted r (.device pa) bs) = (s.addPosted r (.device pa) bs).hold (postedAgain r) ((linesOf pa.toNat bs.length).map lineKey) 1 := by
  have he' : (s.addPosted r (.device pa) bs).writeEvent ((s.addPosted r (.device pa) bs).nearAddress pa.toNat) (linesOf pa.toNat bs.length) none false = none := he
  rw [drainPosted_owned hf hl ht hr ho, outsideWrite_opened (s := s.addPosted r (.device pa) bs) hc, hw]
  dsimp only
  rw [he']

/-- A posted write to an OPEN region is one write event of its bytes (R236, R271). -/
theorem drainPosted_written {t : State} (he : (s.addPosted r (.device pa) bs).writeEvent (s.nearAddress pa.toNat) (linesOf pa.toNat bs.length) none false = some t) :
    (drainPosted r 1 (s.addPosted r (.device pa) bs)).mem = memPut s.mem pa.toNat bs ∧ (drainPosted r 1 (s.addPosted r (.device pa) bs)).hub.posted = s.hub.posted := by
  have he' : (s.addPosted r (.device pa) bs).writeEvent ((s.addPosted r (.device pa) bs).nearAddress pa.toNat) (linesOf pa.toNat bs.length) none false = some t := he
  rw [drainPosted_owned hf hl ht hr ho, outsideWrite_opened (s := s.addPosted r (.device pa) bs) hc, hw]
  dsimp only
  rw [he']
  dsimp only
  have hh : ((t.putMem pa.toNat bs).invalidate (linesOf pa.toNat bs.length) none).hub = (s.addPosted r (.device pa) bs).hub :=
    (invalidate_hub ..).trans (show t.hub = _ from writeEvent_hub he)
  obtain ⟨h1, h2⟩ := popPosted_keeps (t := ((t.putMem pa.toNat bs).invalidate (linesOf pa.toNat bs.length) none).unhold (postedAgain r)) (place := .device pa)
    (bs := bs) hf hl (congrArg Hub.posted hh)
  refine ⟨h1.trans ((invalidate_mem ..).trans ?_), h2⟩
  rw [State.putMem, writeEvent_mem he]
  rfl

end

/-! ### Reads from outside -/

theorem wordBytes_length (f : Nat → Word) (a n : Nat) : (wordBytes f a n).length = n := by rw [wordBytes, List.length_map, List.length_range]

theorem wordBytes_aligned (f : Nat → Word) {a : Nat} (h : a % 8 = 0) : wordBytes f a 8 = toBytes 8 (f a).toNat := by
  refine List.ext_getElem ((wordBytes_length ..).trans (toBytes_length ..).symm) fun j hj hj' => ?_
  rw [wordBytes_length] at hj
  have h1 : (a + j) / 8 * 8 = a := by omega
  have h2 : (a + j) % 8 = j := by omega
  simp only [wordBytes, List.getElem_map, List.getElem_range]
  rw [toBytes_get, h1, h2]
  apply BitVec.eq_of_toNat_eq
  rw [BitVec.extractLsb'_toNat, BitVec.toNat_ofNat, Nat.shiftRight_eq_div_pow, Nat.pow_mul]

/-- The reply to a read by the host. -/
def hostReplied (s : State) (r : BitVec 16) (bs : List Byte) : State := { s with out := s.out ++ [.reply r bs] }

section
variable {s : State} {r : BitVec 16} {n : BitVec 12}

theorem exec_hostRead_slots (k : BitVec 6) (o : BitVec 19) (h : slotWaits s r = false) : ∃ bs, bs.length = n.toNat ∧
    exec (.hostRead r (.bar0 k o) n) s = .next (hostReplied s r bs) :=
  ⟨_, wordBytes_length .., if_neg (ne_true_of_eq_false h)⟩

theorem exec_hostRead_window (k : BitVec 6) (o : BitVec 21) :
    exec (.hostRead r (.bar2 k o) n) s = .next (hostReplied s r (wordBytes (tenantView s k.toNat) o.toNat n.toNat)) := rfl

theorem exec_hostRead_word (k : BitVec 6) {o : BitVec 21} {w : Word} (h : o.toNat % 8 = 0) (hw : tenantView s k.toNat o.toNat = w) :
    exec (.hostRead r (.bar2 k o) 8#12) s = .next (hostReplied s r (toBytes 8 w.toNat)) := by
  rw [exec_hostRead_window, show (8#12).toNat = 8 from rfl, wordBytes_aligned _ h, hw]

theorem exec_hostRead_tdi (k : BitVec 6) : exec (.hostRead r (.tdi k) n) s =
    .next (hostReplied s r (toBytes 8 (if s.mode (s.vf k.toNat).part = 1 ∨ s.mode (s.vf k.toNat).part = 2 then 1 else 0))) := by
  have h : tdiLocked s k.toNat = true ↔ s.mode (s.vf k.toNat).part = 1 ∨ s.mode (s.vf k.toNat).part = 2 := by
    rw [tdiLocked, Bool.or_eq_true, beq_iff_eq, beq_iff_eq]
  rw [← if_congr h rfl rfl]
  rfl

theorem exec_hostRead_hub {pa : BitVec 52} (h : pa.toNat / 2 ^ 42 % 4 = 2) : ∃ bs, bs.length = n.toNat ∧ exec (.hostRead r (.device pa) n) s = .next (hostReplied s r bs) :=
  ⟨_, wordBytes_length .., if_pos h⟩

/-- A read of device memory waits at the home of its lines, or finds ciphertext (R236, R255, R459). -/
theorem exec_hostRead_memory {pa : BitVec 52} (h : pa.toNat / 2 ^ 42 % 4 ≠ 2) : let i := Instr.hostRead r (.device pa) n; let lines := linesOf pa.toNat n.toNat
    exec i s = match outsideWaits s i pa.toNat lines false none with
      | some (m, t) => .next (t.hold i (lines.map lineKey) m)
      | none => .next (hostReplied (s.unhold i) r (cipherBytes s pa.toNat n.toNat)) := if_neg h

end

theorem cipherLine_hbm {s : State} {l p : Nat} (h : l * 64 / 2 ^ 42 % 4 = 0) (hp : addressOwner s (l * 64) = some p) :
    cipherLine s l = Config.cipher (l * 64 / 2 ^ 38 % 4) p (s.die (l * 64 / 2 ^ 38 % 4)).key l (memBytes s.mem (l * 64) 64) := by
  rw [cipherLine, hp]
  exact if_pos h

section
variable {s : State} {k o : Nat}

theorem tenantView_outside (h0 : 0 < o) (h : o < 0x1000 ∨ 0x101000 ≤ o) : tenantView s k o = 0#64 := by
  have : o < 0x1000 ∨ 3 < (o - 0x1000) / 0x40000 := by omega
  rw [tenantView, if_neg (by omega), if_pos (this.imp_right .inl)]

/-- An entry of a discard ring in BAR2, at its place (R482). -/
theorem tenantView_ring {d i j : Nat} (hi : i < 4096) (hj : j < 8) (hd : d < 4) (ho : o = 0x1000 + 0x40000 * d + 64 * i + 8 * j) : tenantView s k o =
    if (s.part (s.vf k).part).hasDie d = false ∨ ((tabGet (s.die d).ring i []).getD 1 0#64).extractLsb' 48 16 ≠ (s.part (s.vf k).part).tenant then 0#64
    else (tabGet (s.die d).ring i []).getD j 0#64 := by
  have h1 : (o - 0x1000) / 0x40000 = d := by omega
  have h2 : (o - 0x1000) % 0x40000 / 64 = i := by omega
  have h3 : o % 64 / 8 = j := by omega
  rw [tenantView, if_neg (by omega), h1, h2, h3]
  exact if_congr (by simp only [ringWord, show ¬ o < 0x1000 by omega, show ¬ 3 < d by omega, false_or]) rfl rfl

end

/-! ### Attestation and debug unlock -/

/-- The registers of a report: the partition's, those of its functions, its tenant, and the count of tenant changes (R460). -/
def reportRegs (s : State) (p : Nat) : List Word :=
  [(s.part p).part, (s.part p).pcls, (s.part p).ilv, (s.part p).bnd] ++ ((List.range 64).filter fun k => (s.vf k).part == p).map (fun k => (s.vf k).reg) ++
    [(s.part p).tenant.setWidth 64, BitVec.ofNat 64 s.hub.tchanges]

/-- A partition keeps the nonce of each report with its tick (R460, R461). -/
def reportNoted (s : State) (p : Nat) (nonce : BitVec 256) : State := s.modPart p fun a => { a with reports := (nonce, s.tick) :: a.reports }

theorem exec_spdmAttestation (s : State) (p : BitVec 2) (nonce : BitVec 256) : exec (.spdmAttestation p nonce) s = .next
    { reportNoted s p.toNat nonce with
      freeCount := s.freeCount + 1
      out := s.out ++ [.report p.toNat nonce (Config.measurement (s.hub.running.getD 0)) (reportRegs s p.toNat) (Config.signature s.freeCount)] } := rfl

theorem reportNoted_reports (s : State) (p : Nat) (nonce : BitVec 256) : ((reportNoted s p nonce).part p).reports = (nonce, s.tick) :: (s.part p).reports :=
  congrArg Part.reports (part_modPart s p fun a => { a with reports := (nonce, s.tick) :: a.reports })

theorem reportRegs_last (s : State) (p : Nat) : (reportRegs s p).reverse.take 2 = [BitVec.ofNat 64 s.hub.tchanges, (s.part p).tenant.setWidth 64] := by
  rw [reportRegs, List.reverse_append]
  rfl

theorem mem_reportRegs {s : State} {p k : Nat} (hk : k < 64) (hp : (s.vf k).part = p) : (s.vf k).reg ∈ reportRegs s p := by
  refine List.mem_append_left _ (List.mem_append_right _ (List.mem_map.2 ⟨k, List.mem_filter.2 ⟨List.mem_range.2 hk, beq_iff_eq.2 hp⟩, rfl⟩))

section
variable {s : State} {p : BitVec 2} {nonce : BitVec 256} {signed : Bool}

theorem exec_debugUnlock (hs : signed = true) (h : ∃ t, (nonce, t) ∈ (s.part p.toNat).reports ∧ s.tick ≤ t + 60000000 * Config.microsecond) :
    exec (.debugUnlock p nonce signed) s =
      .next ((s.modPart p.toNat fun a => { a with unlocked := true }).discard (some p.toNat) Config.hub 0 0x09 4 []) := by
  obtain ⟨t, ht, hn⟩ := h
  refine if_pos ?_
  rw [hs, Bool.true_and, List.any_eq_true]
  exact ⟨_, ht, by rw [beq_self_eq_true, decide_eq_true hn]; rfl⟩

theorem exec_debugUnlock_not (h : signed = false ∨ ∀ t, (nonce, t) ∈ (s.part p.toNat).reports → t + 60000000 * Config.microsecond < s.tick) :
    exec (.debugUnlock p nonce signed) s = .next s := by
  refine if_neg fun hc => ?_
  rw [Bool.and_eq_true, List.any_eq_true] at hc
  obtain ⟨hs, ⟨n, t⟩, ht, he⟩ := hc
  rw [Bool.and_eq_true, beq_iff_eq, decide_eq_true_eq] at he
  obtain ⟨rfl, hn⟩ := he
  rcases h with h | h
  · exact Bool.noConfusion (h.symm.trans hs)
  · exact absurd (h t ht) (Nat.not_lt.2 hn)

end

/-! ### The obligation, part by part -/

section
variable (s : State) (r : BitVec 16) (f : BitVec 6) (o : BitVec 19) (bs : List Byte) (hp : postedBefore s r = false ∧ s.hub.posted.length < 256)
include hp

theorem exec_doorbellWrite_free : exec (.doorbellWrite r f o bs) s = .next (ringSlots s r f.toNat o.toNat bs) :=
  if_neg fun h => postedFree_iff.1 h hp

theorem exec_doorbellWrite_disabled (he : (s.vf f.toNat).enabled = false) : exec (.doorbellWrite r f o bs) s = .next s := by
  rw [exec_doorbellWrite_free s r f o bs hp, ringSlots, if_neg (ne_true_of_eq_false he)]

variable (he : (s.vf f.toNat).enabled = true)
include he

theorem exec_doorbellWrite_beyond (hq : (s.vf f.toNat).qlast < (s.vf f.toNat).qfirst + o.toNat / 128) (hl : o.toNat % 128 + bs.length ≤ 128) :
    exec (.doorbellWrite r f o bs) s = .next s := by
  rw [exec_doorbellWrite_free s r f o bs hp, ringSlots_beyond he hl hq]

theorem exec_doorbellWrite_slot (hq : (s.vf f.toNat).qfirst + o.toNat / 128 ≤ (s.vf f.toNat).qlast) (hb : bs ≠ []) (hl : o.toNat % 128 + bs.length ≤ 128) :
    exec (.doorbellWrite r f o bs) s = .next (writeSlotBytes s r f.toNat ((s.vf f.toNat).qfirst + o.toNat / 128) (o.toNat % 128) bs) := by
  rw [exec_doorbellWrite_free s r f o bs hp, ringSlots_one he hl hb, if_pos hq]

end

/-- Settles O57: each request of the host by its place, and by what holds it off. -/
theorem hostRequests : Obligations.HostRequests := by
  unfold Obligations.HostRequests
  refine ⟨?_, ?_, ?_, ?_, ?_, ?_, ?_, ?_, ?_, ?_, ?_⟩
  · intro s r f o bs k q from_ old merged free
    refine ⟨exec_doorbellWrite_disabled s r f o bs, fun h => if_pos (postedFree_iff.2 h), exec_doorbellWrite_beyond s r f o bs, fun hf he hq hb hl => ?_,
      fun hf he hq hb hl => ?_⟩
    · have h := exec_doorbellWrite_slot s r f o bs hf he hq hb hl.le
      rw [writeSlotBytes_part hl] at h
      refine ⟨_, h, rfl, rfl, rfl, ?_⟩
      rw [slotPut_slot]
      exact ⟨rfl, rfl, slotMerged_get old.bytes from_ bs⟩
    · have h := exec_doorbellWrite_slot s r f o bs hf he hq hb hl.le
      rw [writeSlotBytes_last hl, BitVec.ofNat_toNat, BitVec.setWidth_eq] at h
      refine ⟨_, h, rfl, rfl, rfl, ?_⟩
      show (tabGet ((slotPut s k q _).vf k).slots q {}).bytes = _ ∧ (tabGet ((slotPut s k q _).vf k).slots q {}).sent = _
      rw [slotPut_slot]
      exact ⟨rfl, congrArg (fun g => old.sent ++ [(r, (List.range 128).map g)]) (funext (slotMerged_get old.bytes from_ bs))⟩
  · intro s f q k n slot p sq
    refine ⟨fun h => ?_, fun r e rest h => ?_⟩
    · show execDoorbellTrigger f q s = _
      rw [execDoorbellTrigger]
      dsimp only
      nth_rewrite 1 [h]
      rfl
    · have ho := triggerOutcome_eq s k n
      split_ifs at ho ⊢ with h1 h2 h3 h4
      · exact doorbellTrigger_recorded h ho
      · exact doorbellTrigger_refused h ho (by decide) (by decide)
      · exact doorbellTrigger_refused h ho (by decide) (by decide)
      · exact doorbellTrigger_refused h ho (by decide) (by decide)
      · exact doorbellTrigger_enqueued h ho
  · intro s r f q k n slot
    refine ⟨fun h => if_pos ?_, fun h1 h2 he hq1 hq2 => ?_⟩
    · rwa [slotWaits, Bool.or_eq_true]
    · rw [exec_doorbellStatusRead h1 h2, slotWord_inside he hq1 hq2, toNat_slotWord]
  · intro s r place bs hb i u done ev
    refine ⟨exec_hostPostedWrite_behind hb, exec_hostPostedWrite_full hb, fun hf hl => ?_⟩
    have hx : exec ev s = .next (drainPosted r 1 u) := exec_hostPostedWrite_first hb hf
    rw [hx]
    refine ⟨fun f o h => ?_, fun h0 h1 h2 ht => congrArg _ (drainPosted_triggered hf hl h0 h1 h2 ht), fun ht =>
      ⟨fun f h _ => ?_, fun f o h ho => ?_, fun pa h => ⟨fun hr => ?_, fun hr ho => ?_, fun hr ho hc => ?_, fun hr ho hc => ?_⟩⟩⟩
    all_goals subst h
    · exact congrArg _ (drainPosted_bar0 hf hl f o)
    · exact congrArg _ ((drainPosted_bar2 hf hl ht f 0#21).trans (tenantWrite_status ..))
    · exact congrArg _ ((drainPosted_bar2 hf hl ht f o).trans (tenantWrite_other _ _ _ ho))
    · exact congrArg _ ((drainPosted_device hf hl ht pa).trans (if_pos hr))
    · exact congrArg _ (drainPosted_unowned hf hl ht hr ho)
    · exact ⟨_, rfl, drainPosted_closed hf hl ht hr ho hc⟩
    · refine ⟨fun n v hw => congrArg _ (drainPosted_waits hf hl ht hr ho hc hw), fun hw he => ?_, fun hw he => ?_⟩
      · exact congrArg _ (drainPosted_held hf hl ht hr ho hc hw (Option.isSome_eq_false_iff.1 he |> Option.isNone_iff_eq_none.1))
      · obtain ⟨t, he⟩ := Option.isSome_iff_exists.1 he
        exact ⟨_, rfl, drainPosted_written hf hl ht hr ho hc hw he⟩
  · intro s a bs
    refine ⟨fun hl ha => (Nat.lt_or_ge (a % 2 ^ 42) (2 ^ 24)).imp_left fun h => ?_, fun h => if_neg fun g => h.elim (· g.1) (· g.2)⟩
    show Host.Outcome.next (writeHub s (BitVec.ofNat 24 (a % 2 ^ 42)).toNat _) = _
    rw [hubWrite, if_pos ⟨hl, ha⟩, BitVec.toNat_ofNat, Nat.mod_eq_of_lt h]
  · intro s r n answers
    refine ⟨fun f o h => if_pos h, fun f o => exec_hostRead_slots f o, fun f o => ⟨_, wordBytes_length .., rfl⟩, fun j => rfl, exec_hostRead_tdi,
      fun pa => ?_⟩
    refine ⟨exec_hostRead_hub, fun h => ⟨fun m t hw => ?_, fun hw => ?_⟩⟩
    · rw [exec_hostRead_memory h, hw]
    · rw [exec_hostRead_memory h, hw]
      rfl
  · exact fun s l p h hp => cipherLine_hbm h hp
  · intro s r f o p reads
    refine ⟨fun ho => ?_, fun h8 h0 h => exec_hostRead_word f h8 (tenantView_outside h0 h), fun d i j hd hi hj ho => ?_⟩
    · subst ho
      exact exec_hostRead_word f rfl rfl
    · have h8 : o.toNat % 8 = 0 := by omega
      have hv := tenantView_ring (s := s) (k := f.toNat) hi hj hd ho
      refine ⟨fun h1 h2 => exec_hostRead_word f h8 (hv.trans (if_neg ?_)), fun h => exec_hostRead_word f h8 (hv.trans (if_pos h))⟩
      exact fun h => h.elim (fun g => Bool.noConfusion (g.symm.trans h1)) fun g => g h2
  · exact fun s b r => rfl
  · intro s p nonce
    exact ⟨_, _, reportRegs s p.toNat, _, exec_spdmAttestation s p nonce, rfl, rfl, reportNoted_reports s p.toNat nonce, rfl, reportRegs_last s p.toNat, fun k => mem_reportRegs⟩
  · exact fun s p nonce signed => ⟨exec_debugUnlock, exec_debugUnlock_not⟩

end Sys2Proof.Proofs
end
